-- ==== Sys2Proof/Word.lean ====
section
/-! DEFINITION. Word types of the Syrok model and sorted maps keyed by a number. -/

namespace Sys2Proof

abbrev Word := BitVec 64
abbrev W32 := BitVec 32
abbrev Byte := BitVec 8
/-- A lane mask k0..k15: bit i belongs to lane i (R162). -/
abbrev Mask := BitVec 256
/-- A poison tag, none when the data is not poisoned (R418, R420). -/
abbrev Tag := Option (BitVec 12)

/-- A sparse map from numbers: keys strictly rising, no two alike. -/
abbrev AMap (β : Type) := List (Nat × β)

/-- What the map holds at key `k`. -/
def aget {β : Type} : AMap β → Nat → Option β
  | [], _ => none
  | (k', b) :: r, k => if k' = k then some b else aget r k

/-- The map with `b` at key `k`. -/
def aset {β : Type} : AMap β → Nat → β → AMap β
  | [], k, b => [(k, b)]
  | (k', b') :: r, k, b =>
    if k < k' then (k, b) :: (k', b') :: r
    else if k = k' then (k, b) :: r
    else (k', b') :: aset r k b

/-- The map with nothing at key `k`. -/
def adel {β : Type} : AMap β → Nat → AMap β
  | [], _ => []
  | (k', b') :: r, k => if k' = k then r else (k', b') :: adel r k

/-- Replace the element at index `i` of a list; a list too short is unchanged. -/
def lset {α : Type} : List α → Nat → α → List α
  | [], _, _ => []
  | _ :: r, 0, a => a :: r
  | b :: r, n + 1, a => b :: lset r n a

end Sys2Proof
end

