-- ==== Sys2Proof/Syntax.lean ====
section
/-! DEFINITION. The syntax of the Syrok model: slot forms (Tables 2.2, 3.1, 3.2, 3.5, 3.8, 3.10) and Instr. Fields
keep the manual's names. HINT fields are kept because the encoder writes them back; nothing reads them (R52). -/

namespace Sys2Proof

/-- Bundle header fields other than the control operation (Table 3.1). `pres` bit 0 S, 1 V, 2 M, 3 RA, 4 RB. -/
structure Hdr where
  hint  : BitVec 4
  np    : BitVec 6
  scope : BitVec 3
  d     : Bool
  e     : Bool
  pres  : BitVec 5
  deriving DecidableEq, Repr

/-- The count of LOOPN: CNT14 when I = 1, the scalar register SC when I = 0 (Table 3.2). -/
inductive LoopCount where
  | imm (cnt : BitVec 14)
  | reg (sc : BitVec 6)
  deriving DecidableEq, Repr

/-- Form SR (Table 3.5); FN is the constructor. -/
structure SRForm where
  g : BitVec 4
  lat : BitVec 4
  sd : BitVec 6
  sa : BitVec 6
  sb : BitVec 6
  hint : BitVec 6
  deriving DecidableEq, Repr

/-- Form SR with SB = 0 (BIT and the SFP conversions, Table 3.6). -/
structure S1Form where
  g : BitVec 4
  lat : BitVec 4
  sd : BitVec 6
  sa : BitVec 6
  hint : BitVec 6
  deriving DecidableEq, Repr

/-- Form SR of CHKE: SA, SB and FN are 0 (Table 3.6). -/
structure ChkeForm where
  g : BitVec 4
  lat : BitVec 4
  sd : BitVec 6
  hint : BitVec 6
  deriving DecidableEq, Repr

/-- Form SR of SEL: FN bits 29..26 hold the predicate (Table 3.6). -/
structure SelForm where
  g : BitVec 4
  lat : BitVec 4
  sd : BitVec 6
  sa : BitVec 6
  sb : BitVec 6
  p : BitVec 4
  hint : BitVec 6
  deriving DecidableEq, Repr

/-- Form SI (Table 3.5). -/
structure SIForm where
  g : BitVec 4
  lat : BitVec 4
  sd : BitVec 6
  sa : BitVec 6
  imm : BitVec 32
  hint : BitVec 2
  deriving DecidableEq, Repr

/-- Form SI of MOVI: SA = 0. -/
structure MoviForm where
  g : BitVec 4
  lat : BitVec 4
  sd : BitVec 6
  imm : BitVec 32
  hint : BitVec 2
  deriving DecidableEq, Repr

/-- Form SI of MOVSR: SA = 0, IMM32 is the special register number (Table 3.7). -/
structure MovsrForm where
  g : BitVec 4
  lat : BitVec 4
  sd : BitVec 6
  num : BitVec 32
  hint : BitVec 2
  deriving DecidableEq, Repr

/-- Form SI of MOVRS: SD = 0; the special register number stands beside the form or in the constructor. -/
structure MovrsForm where
  g : BitVec 4
  lat : BitVec 4
  sa : BitVec 6
  hint : BitVec 2
  deriving DecidableEq, Repr

/-- Compare form (Table 3.5). -/
structure CmpForm where
  g : BitVec 4
  lat : BitVec 4
  pt : BitVec 4
  pf : BitVec 4
  sa : BitVec 6
  sb : BitVec 6
  cond : BitVec 4
  hint : BitVec 6
  deriving DecidableEq, Repr

/-- Compare immediate form (Table 3.5). -/
structure CmpiForm where
  g : BitVec 4
  lat : BitVec 4
  pt : BitVec 4
  pf : BitVec 4
  sa : BitVec 6
  imm : BitVec 32
  cond : BitVec 4
  deriving DecidableEq, Repr

/-- Predicate form of PLOG: SX = 0 (Table 3.6). -/
structure PlogForm where
  g : BitVec 4
  lat : BitVec 4
  pt : BitVec 4
  pf : BitVec 4
  pa : BitVec 4
  pb : BitVec 4
  hint : BitVec 4
  deriving DecidableEq, Repr

/-- Predicate form of MOVP: SX destination, PA source. -/
structure MovpForm where
  g : BitVec 4
  lat : BitVec 4
  sx : BitVec 6
  pa : BitVec 4
  hint : BitVec 4
  deriving DecidableEq, Repr

/-- Predicate form of MOVPS: SX source, PT and PF destinations. -/
structure MovpsForm where
  g : BitVec 4
  lat : BitVec 4
  pt : BitVec 4
  pf : BitVec 4
  sx : BitVec 6
  hint : BitVec 4
  deriving DecidableEq, Repr

/-- V slot fields (Table 3.8). `sf` bit 3 VD, 2 VA, 1 VB, 0 VC. -/
structure VForm where
  g : BitVec 4
  lat : BitVec 4
  k : BitVec 4
  rm : BitVec 2
  sf : BitVec 4
  vd : BitVec 10
  va : BitVec 10
  vb : BitVec 10
  vc : BitVec 10
  deriving DecidableEq, Repr

/-- Scalar memory form (Table 3.10). -/
structure SMemForm where
  g : BitVec 4
  lat : BitVec 4
  cls : BitVec 4
  sd : BitVec 6
  h : BitVec 4
  so : BitVec 6
  imm : BitVec 20
  hint : BitVec 4
  deriving DecidableEq, Repr

/-- Vector memory form (Table 3.10). -/
structure VMemForm where
  g : BitVec 4
  lat : BitVec 4
  cls : BitVec 4
  vd : BitVec 10
  h : BitVec 4
  so : BitVec 6
  ss : BitVec 6
  imm : BitVec 12
  k : BitVec 4
  hint : BitVec 2
  deriving DecidableEq, Repr

/-- Scratchpad scalar form (Table 3.10). -/
structure SpsForm where
  g : BitVec 4
  lat : BitVec 4
  cls : BitVec 4
  sd : BitVec 6
  sa : BitVec 6
  imm : BitVec 24
  hint : BitVec 4
  deriving DecidableEq, Repr

/-- Scratchpad vector form (Table 3.10). -/
structure SpvForm where
  g : BitVec 4
  lat : BitVec 4
  cls : BitVec 4
  vd : BitVec 10
  sa : BitVec 6
  ss : BitVec 6
  imm : BitVec 16
  k : BitVec 4
  hint : BitVec 2
  deriving DecidableEq, Repr

/-- Gather/scatter and lane-private form (Table 3.10). -/
structure GatherForm where
  g : BitVec 4
  lat : BitVec 4
  cls : BitVec 4
  vd : BitVec 10
  sa : BitVec 6
  vb : BitVec 10
  k : BitVec 4
  deriving DecidableEq, Repr

/-- Atomic form (Table 3.10). -/
structure AtomForm where
  g : BitVec 4
  lat : BitVec 4
  cls : BitVec 4
  sd : BitVec 6
  h : BitVec 4
  so : BitVec 6
  sv : BitVec 6
  sc : BitVec 6
  imm : BitVec 12
  deriving DecidableEq, Repr

/-- Counter add form (Table 3.10); SD and SC are 0. -/
structure CaddForm where
  g : BitVec 4
  lat : BitVec 4
  cls : BitVec 4
  h : BitVec 4
  so : BitVec 6
  sv : BitVec 6
  rmask : BitVec 16
  deriving DecidableEq, Repr

/-- Translate form of TRANS (Table 3.10). -/
structure TransForm where
  g : BitVec 4
  lat : BitVec 4
  cls : BitVec 4
  hd : BitVec 4
  sa : BitVec 6
  imm : BitVec 24
  intent : BitVec 2
  hint : BitVec 4
  deriving DecidableEq, Repr

/-- Translate form of HINV: SA, IMM24 and INTENT are 0 (Table 3.11). -/
structure HinvForm where
  g : BitVec 4
  lat : BitVec 4
  cls : BitVec 4
  hd : BitVec 4
  hint : BitVec 4
  deriving DecidableEq, Repr

/-- Fence form (Table 3.10); KIND is the constructor, CLS = 0. -/
structure FenceForm where
  g : BitVec 4
  lat : BitVec 4
  mask : BitVec 16
  deriving DecidableEq, Repr

/-- Stream setup form (Table 3.10). -/
structure SetqForm where
  g : BitVec 4
  lat : BitVec 4
  cls : BitVec 4
  q : BitVec 4
  sa : BitVec 6
  imm : BitVec 24
  hint : BitVec 4
  deriving DecidableEq, Repr

/-- Routine slot word (Table 2.2); RN is the constructor or stands beside the form. -/
structure RForm where
  g : BitVec 4
  x : BitVec 10
  y : BitVec 10
  z : BitVec 10
  w : BitVec 10
  k : BitVec 4
  f : BitVec 4
  deriving DecidableEq, Repr

/-- A host access to device memory (R336). -/
inductive HostOp where
  | read (n : Nat)
  | write (data : List Byte) (poison : Bool)
  deriving DecidableEq, Repr

/-- A request of another package to a line homed here (R341). -/
inductive FabricOp where
  | load (n : Nat)
  | store (data : List Byte) (poison : Bool)
  | atomic (op : BitVec 6) (sv sc : BitVec 64) (poison : Bool)
  | fe (op : BitVec 6) (sd : BitVec 64) (poison : Bool)
  | cadd (v : BitVec 32) (poison : Bool)
  | cwait (target : BitVec 64)
  deriving DecidableEq, Repr

/-- The fields of a partition record that the partition manager sets (Table 17.4), and S1ROOT (R182). -/
structure PartCfg where
  clusters : BitVec 48
  s1root : BitVec 64
  s2root : BitVec 64
  regenBase : BitVec 64
  regenCount : BitVec 32
  eventCtr : BitVec 64
  faultLog : BitVec 64
  s2Log : BitVec 64
  parkBase : BitVec 64
  parkCount : BitVec 32
  wakeCount : BitVec 32
  wakeBase : BitVec 64
  wakeCtr : BitVec 64
  stageBase : BitVec 64
  stageSize : BitVec 64
  l2ways : BitVec 8
  tc : BitVec 8
  cbQuota : List (BitVec 16)
  vectors : BitVec 2048
  deriving DecidableEq, Repr

/-- A request of the partition manager, as verified by the firmware (R343, R271, R341, R424, R429), and the
runtime's request that firmware set S1ROOT (R182). -/
inductive ManagerReq where
  | create (part : Nat) (cfg : PartCfg)
  | change (part : Nat) (cfg : PartCfg)
  | destroy (part : Nat)
  | setS1Root (part : Nat) (root : BitVec 64)
  | combine (die : Nat) (nt na ns : Nat)
  | packageId (id : BitVec 10)
  | clearOffline (core : Nat)
  | unprotect (die : Nat) (on : Bool)
  deriving DecidableEq, Repr

/-- Where an error is detected, in the fields of an error record (Table 26.2). -/
structure ErrSite where
  die : Nat
  cls : BitVec 4
  unit : BitVec 10
  part : BitVec 6
  loc : BitVec 64
  detail : BitVec 64
  deriving DecidableEq, Repr

/-- What the patrol scrubber finds in a word (R427). -/
inductive ScrubFinding where
  | clean
  | corrected
  | uncorrectable
  deriving DecidableEq, Repr

/-- One step of the device: one constructor per row of the table of operations and events. An operation of a
bundle (header control, S, V, M or routine slot) stands for a bundle that holds it alone under a plain header
(log 1); `bundleIssue` stands for every other bundle. The remaining constructors are events; their operands say
what the event brings from outside or which unit moves. -/
inductive Instr where
  /-- BUNDLE_ISSUE (R58). A herd-context's next bundle passes its encoding and execution checks, issues at one virtual cycle on every member and commits as a whole or traps. -/
  | bundleIssue (h : Hdr) (c s v m ra rb : Instr)
  /-- LATE_RESULT_LAND (R81). A late exposed-latency result lands, ending the herd-context's pause so that the held bundle can issue. -/
  | lateResultLand (hc : Nat)
  /-- OVERLAY_LOAD (R90). A fetch from a segment that is not resident makes the lead load the overlay, replacing the least recently used one, while the VCC pauses. -/
  | overlayLoad (hc : Nat)
  /-- ENGINE_WAIT_END (R82). The engine wait of a BLOCKED herd-context ends on every member, and the herd-context becomes READY. -/
  | engineWaitEnd (hc : Nat)
  /-- CONTEXT_SELECT (R316). At a block, yield, freeze or retirement, the frame's selector picks the READY herd-context with the highest effective priority and ages the others. -/
  | contextSelect (lead : Nat)
  /-- CTRL_NOP (R53). COP 0x00: the header has no control operation. -/
  | ctrlNop (cg : BitVec 4)
  /-- BR (R153). Branch to A + 8·OFF34. -/
  | br (cg : BitVec 4) (off : BitVec 34)
  /-- BRR (R153). Branch to the address held in SA, trapping MISALIGN on an unaligned target. -/
  | brr (cg : BitVec 4) (sa : BitVec 6)
  /-- CALL (R154). Push a return link and branch to a direct target. -/
  | call (cg : BitVec 4) (off : BitVec 34)
  /-- CALLR (R154). Push a return link and branch to a register target. -/
  | callr (cg : BitVec 4) (sa : BitVec 6)
  /-- RET (R154). Pop the link store and return, first completing a body call under R39 when the RET is in a body. -/
  | ret (cg : BitVec 4)
  /-- LOOPT (R158). Start a loop on level l over this herd-context's range from the loop table. -/
  | loopt (cg : BitVec 4) (l : BitVec 3) (e : BitVec 16)
  /-- LOOPN (R158). Start a counted loop on level l, with an immediate count or a count from a scalar register. -/
  | loopn (cg : BitVec 4) (l : BitVec 3) (cnt : LoopCount) (e : BitVec 16)
  /-- LEXIT (R160). Deactivate loop level l and every level started after it, and continue after the loop's end bundle. -/
  | lexit (cg : BitVec 4) (l : BitVec 3)
  /-- TRAP (R155). Commit the bundle, then freeze with USER_TRAP and CODE16, with PC at the successor. -/
  | trap (cg : BitVec 4) (code : BitVec 16)
  /-- YIELD (R156). Mark the herd-context READY and let the selector switch once. -/
  | yield (cg : BitVec 4)
  /-- WAITE (R156). Make the successor block until the engine classes named in EMASK are empty for the herd-context. -/
  | waite (cg : BitVec 4) (emask : BitVec 8)
  /-- ERET (R157). End the markhor's own handler and continue where it was entered. -/
  | eret (cg : BitVec 4)
  /-- RESUME (R157). Write a frozen herd-context's snapshot entries and let it issue its frozen or successor bundle. -/
  | resume (cg : BitVec 4) (sa : BitVec 6)
  /-- SNOP (R63). Scalar slot no-op. -/
  | snop
  /-- ADD (R139). 64-bit wrapping add of two scalar registers. -/
  | add (f : SRForm)
  /-- SUB (R139). 64-bit wrapping subtract of two scalar registers. -/
  | sub (f : SRForm)
  /-- AND (R139). Bitwise AND of two scalar registers. -/
  | and (f : SRForm)
  /-- OR (R139). Bitwise OR of two scalar registers. -/
  | or (f : SRForm)
  /-- XOR (R139). Bitwise XOR of two scalar registers. -/
  | xor (f : SRForm)
  /-- SHL (R139). Shift left by bits 5..0 of SB. -/
  | shl (f : SRForm)
  /-- SHR (R139). Logical shift right by bits 5..0 of SB. -/
  | shr (f : SRForm)
  /-- SRA (R139). Arithmetic shift right by bits 5..0 of SB. -/
  | sra (f : SRForm)
  /-- MIN (R139). Signed minimum of two scalar registers. -/
  | min (f : SRForm)
  /-- MAX (R139). Signed maximum of two scalar registers. -/
  | max (f : SRForm)
  /-- MINU (R139). Unsigned minimum of two scalar registers. -/
  | minu (f : SRForm)
  /-- MAXU (R139). Unsigned maximum of two scalar registers. -/
  | maxu (f : SRForm)
  /-- ROTL (R139). Rotate left by bits 5..0 of SB. -/
  | rotl (f : SRForm)
  /-- ADDI (R140). Add a sign-extended 32-bit immediate. -/
  | addi (f : SIForm)
  /-- ANDI (R140). AND with a sign-extended 32-bit immediate. -/
  | andi (f : SIForm)
  /-- ORI (R140). OR with a sign-extended 32-bit immediate. -/
  | ori (f : SIForm)
  /-- XORI (R140). XOR with a sign-extended 32-bit immediate. -/
  | xori (f : SIForm)
  /-- SHLI (R140). Shift left by an immediate of 0..63. -/
  | shli (f : SIForm)
  /-- SHRI (R140). Logical shift right by an immediate of 0..63. -/
  | shri (f : SIForm)
  /-- SRAI (R140). Arithmetic shift right by an immediate of 0..63. -/
  | srai (f : SIForm)
  /-- MOVI (R141). Write a sign-extended 32-bit immediate. -/
  | movi (f : MoviForm)
  /-- MOVHI (R141). Combine the low 32 bits of SA with an immediate placed in the upper 32 bits. -/
  | movhi (f : SIForm)
  /-- MUL (R142). Low 64 bits of the product. -/
  | mul (f : SRForm)
  /-- MULHS (R142). High 64 bits of the signed 128-bit product. -/
  | mulhs (f : SRForm)
  /-- MULHU (R142). High 64 bits of the unsigned 128-bit product. -/
  | mulhu (f : SRForm)
  /-- DIVS (R143). Signed division truncating toward zero, with fixed borderline results. -/
  | divs (f : SRForm)
  /-- DIVU (R143). Unsigned division. -/
  | divu (f : SRForm)
  /-- REMS (R143). Signed remainder, taking the sign of the dividend. -/
  | rems (f : SRForm)
  /-- REMU (R143). Unsigned remainder. -/
  | remu (f : SRForm)
  /-- CLZ (R144). Count leading zero bits. -/
  | clz (f : S1Form)
  /-- CTZ (R144). Count trailing zero bits. -/
  | ctz (f : S1Form)
  /-- POPC (R144). Count one bits. -/
  | popc (f : S1Form)
  /-- SEXTB (R144). Sign-extend the low byte. -/
  | sextb (f : S1Form)
  /-- SEXTH (R144). Sign-extend the low 16 bits. -/
  | sexth (f : S1Form)
  /-- SEXTW (R144). Sign-extend the low 32 bits. -/
  | sextw (f : S1Form)
  /-- ZEXTB (R144). Zero-extend the low byte. -/
  | zextb (f : S1Form)
  /-- ZEXTH (R144). Zero-extend the low 16 bits. -/
  | zexth (f : S1Form)
  /-- ZEXTW (R144). Zero-extend the low 32 bits. -/
  | zextw (f : S1Form)
  /-- SEL (R145). Select SA or SB by a predicate. -/
  | sel (f : SelForm)
  /-- CMP (R146). Compare two registers and write a predicate and its complement. -/
  | cmp (f : CmpForm)
  /-- CMPI (R146). Compare a register with a sign-extended immediate and write a predicate and its complement. -/
  | cmpi (f : CmpiForm)
  /-- PAND (R147). Predicate AND, writing the result and its complement. -/
  | pand (f : PlogForm)
  /-- POR (R147). Predicate OR, writing the result and its complement. -/
  | por (f : PlogForm)
  /-- PXOR (R147). Predicate XOR, writing the result and its complement. -/
  | pxor (f : PlogForm)
  /-- PANDN (R147). Predicate AND-NOT, writing the result and its complement. -/
  | pandn (f : PlogForm)
  /-- MOVP (R148). Move a predicate to a scalar as 0 or 1. -/
  | movp (f : MovpForm)
  /-- MOVPS (R148). Set a predicate and its complement from bit 0 of a scalar. -/
  | movps (f : MovpsForm)
  /-- MOVSR (R149). Read a special register into a scalar register. -/
  | movsr (f : MovsrForm)
  /-- MOVRS (R149). Write a scalar register to a special register; writes to read-only registers are ignored. -/
  | movrs (f : MovrsForm) (num : BitVec 32)
  /-- FPSTAT_WRITE (R116). A MOVRS to FPSTAT writes bits 3..0. -/
  | fpstatWrite (f : MovrsForm)
  /-- CIR_WRITE (R149). A MOVRS to CIR writes all fields, then records any consumption of a poisoned SA. -/
  | cirWrite (f : MovrsForm)
  /-- FEBUDGET_WRITE (R149). A MOVRS to FEBUDGET sets the retry budget from the lead's bits 11..0. -/
  | febudgetWrite (f : MovrsForm)
  /-- DEFPROFILE_WRITE (R149). A MOVRS to DEFPROFILE sets the default profile from the lead's value, trapping PROFILE_UNKNOWN outside 1..3. -/
  | defprofileWrite (f : MovrsForm)
  /-- ARG_WRITE (R39). Inside a body, a MOVRS to one of ARGX..ARGW sets the value for output write-back; outside a body it is ignored. -/
  | argWrite (f : MovrsForm) (n : BitVec 2)
  /-- QPOS_WRITE (R216). A MOVRS to QPOSN writes out pushed elements, discards read-ahead and sets the stream position. -/
  | qposWrite (f : MovrsForm) (n : BitVec 4)
  /-- CHKE (R150). Wait until results and routines have completed on every member, then read CIR. -/
  | chke (f : ChkeForm)
  /-- SFADD (R151). Scalar FP32 add, rounded RNE. -/
  | sfadd (f : SRForm)
  /-- SFSUB (R151). Scalar FP32 subtract, rounded RNE. -/
  | sfsub (f : SRForm)
  /-- SFMUL (R151). Scalar FP32 multiply, rounded RNE. -/
  | sfmul (f : SRForm)
  /-- SFMIN (R151). Scalar FP32 minimum. -/
  | sfmin (f : SRForm)
  /-- SFMAX (R151). Scalar FP32 maximum. -/
  | sfmax (f : SRForm)
  /-- SFCVTIF (R151). Convert int32 to FP32. -/
  | sfcvtif (f : S1Form)
  /-- SFCVTFI (R151). Convert FP32 to int32 toward zero, saturating. -/
  | sfcvtfi (f : S1Form)
  /-- VNOP (R66). Vector slot no-op. -/
  | vnop
  /-- FADD (R170). FP32 lane add under RM. -/
  | fadd (f : VForm)
  /-- FSUB (R170). FP32 lane subtract under RM. -/
  | fsub (f : VForm)
  /-- FMUL (R170). FP32 lane multiply under RM. -/
  | fmul (f : VForm)
  /-- FFMA (R170). Fused a×b+c with one rounding. -/
  | ffma (f : VForm)
  /-- FFMS (R170). Fused a×b−c with one rounding. -/
  | ffms (f : VForm)
  /-- FNMA (R170). Fused c−a×b with one rounding. -/
  | fnma (f : VForm)
  /-- FMIN (R171). FP32 lane minimum. -/
  | fmin (f : VForm)
  /-- FMAX (R171). FP32 lane maximum. -/
  | fmax (f : VForm)
  /-- FABS (R171). Clear the sign bit of each lane. -/
  | fabs (f : VForm)
  /-- FNEG (R171). Invert the sign bit of each lane. -/
  | fneg (f : VForm)
  /-- FCMP (R172). FP32 compare writing two masks that partition the active lanes. -/
  | fcmp (f : VForm)
  /-- FCVTI (R173). Convert FP32 lanes to int32 under RM, saturating. -/
  | fcvti (f : VForm)
  /-- ICVTF (R173). Convert int32 lanes to FP32 under RM. -/
  | icvtf (f : VForm)
  /-- BFPK (R174). Pack two FP32 vectors into BF16 halves. -/
  | bfpk (f : VForm)
  /-- BFUP (R174). Unpack one BF16 half to FP32. -/
  | bfup (f : VForm)
  /-- IADD (R175). Lane add modulo 2^32. -/
  | iadd (f : VForm)
  /-- ISUB (R175). Lane subtract modulo 2^32. -/
  | isub (f : VForm)
  /-- IMUL (R175). Low 32 bits of the lane product. -/
  | imul (f : VForm)
  /-- IMULH (R175). High 32 bits of the signed lane product. -/
  | imulh (f : VForm)
  /-- IAND (R175). Lane bitwise AND. -/
  | iand (f : VForm)
  /-- IOR (R175). Lane bitwise OR. -/
  | ior (f : VForm)
  /-- IXOR (R175). Lane bitwise XOR. -/
  | ixor (f : VForm)
  /-- ISHL (R175). Lane shift left. -/
  | ishl (f : VForm)
  /-- ISHR (R175). Lane logical shift right. -/
  | ishr (f : VForm)
  /-- ISRA (R175). Lane arithmetic shift right. -/
  | isra (f : VForm)
  /-- IMIN (R175). Signed lane minimum. -/
  | imin (f : VForm)
  /-- IMAX (R175). Signed lane maximum. -/
  | imax (f : VForm)
  /-- IMINU (R175). Unsigned lane minimum. -/
  | iminu (f : VForm)
  /-- IMAXU (R175). Unsigned lane maximum. -/
  | imaxu (f : VForm)
  /-- ICMP (R172). int32 compare writing two masks. -/
  | icmp (f : VForm)
  /-- VSEL (R176). Select each lane from VA or VB by mask km. -/
  | vsel (f : VForm)
  /-- VMOV (R176). Move a vector register. -/
  | vmov (f : VForm)
  /-- VBCST (R176). Broadcast the low 32 bits of a scalar to the active lanes. -/
  | vbcst (f : VForm)
  /-- VPERM (R177). Permute lanes by an index vector taken modulo 256. -/
  | vperm (f : VForm)
  /-- VROT (R177). Rotate lanes by n. -/
  | vrot (f : VForm)
  /-- VIOTA (R177). Write the lane number into each lane. -/
  | viota (f : VForm)
  /-- VEXT (R178). Extract one lane, sign-extended, into a scalar. -/
  | vext (f : VForm)
  /-- VINS (R178). Insert the low 32 bits of a scalar into one lane. -/
  | vins (f : VForm)
  /-- FRSUM (R179). Sum the active lanes by the fixed tree and broadcast the result. -/
  | frsum (f : VForm)
  /-- FRMAX (R179). Maximum over the active lanes by the tree, broadcast. -/
  | frmax (f : VForm)
  /-- FRMIN (R179). Minimum over the active lanes by the tree, broadcast. -/
  | frmin (f : VForm)
  /-- IRSUM (R179). int32 sum over the lanes modulo 2^32, broadcast. -/
  | irsum (f : VForm)
  /-- IRMAX (R179). Signed maximum over the lanes, broadcast. -/
  | irmax (f : VForm)
  /-- IRMIN (R179). Signed minimum over the lanes, broadcast. -/
  | irmin (f : VForm)
  /-- KAND (R180). Mask AND. -/
  | kand (f : VForm)
  /-- KOR (R180). Mask OR. -/
  | kor (f : VForm)
  /-- KXOR (R180). Mask XOR. -/
  | kxor (f : VForm)
  /-- KANDN (R180). Mask AND-NOT. -/
  | kandn (f : VForm)
  /-- KPOPC (R180). Count the set bits of a mask into a scalar. -/
  | kpopc (f : VForm)
  /-- KFROMV (R180). Set a mask bit for each active nonzero lane. -/
  | kfromv (f : VForm)
  /-- MNOP (R68). Memory slot no-op. -/
  | mnop
  /-- TRANS (R186). Walk both stages for a virtual address under an intent and fill a handle, recording the cause on failure. -/
  | trans (f : TransForm)
  /-- HINV (R188). Invalidate a handle register. -/
  | hinv (f : HinvForm)
  /-- HRD (R188). Read word 0 or 1 of a handle into a scalar. -/
  | hrd (f : SMemForm)
  /-- LD_B (R193). Load a byte, zero-extended, through a handle. -/
  | ldB (f : SMemForm)
  /-- LD_H (R193). Load 2 bytes, zero-extended. -/
  | ldH (f : SMemForm)
  /-- LD_W (R193). Load 4 bytes, zero-extended. -/
  | ldW (f : SMemForm)
  /-- LD_D (R193). Load 8 bytes. -/
  | ldD (f : SMemForm)
  /-- LD_SB (R193). Load a byte, sign-extended. -/
  | ldSb (f : SMemForm)
  /-- LD_SH (R193). Load 2 bytes, sign-extended. -/
  | ldSh (f : SMemForm)
  /-- LD_SW (R193). Load 4 bytes, sign-extended. -/
  | ldSw (f : SMemForm)
  /-- ST_B (R193). Store the low byte through a handle. -/
  | stB (f : SMemForm)
  /-- ST_H (R193). Store the low 2 bytes. -/
  | stH (f : SMemForm)
  /-- ST_W (R193). Store the low 4 bytes. -/
  | stW (f : SMemForm)
  /-- ST_D (R193). Store 8 bytes. -/
  | stD (f : SMemForm)
  /-- LDWAIT_D (R200). Full/empty load that waits for full and leaves the word full. -/
  | ldwaitD (f : SMemForm)
  /-- LDTAKE_D (R200). Full/empty load that waits for full and leaves the word empty. -/
  | ldtakeD (f : SMemForm)
  /-- STFILL_D (R200). Full/empty store that waits for empty and leaves the word full. -/
  | stfillD (f : SMemForm)
  /-- FESET (R200). Set a word's full/empty bit. -/
  | feset (f : SMemForm)
  /-- FEGET (R200). Read a word's full/empty bit. -/
  | feget (f : SMemForm)
  /-- FE_RETRY_ATTEMPT (R201). After backoff, a waiting full/empty form makes another attempt at the word's point of coherence. -/
  | feRetryAttempt (hc : Nat)
  /-- FE_BUDGET (R201). A waiting full/empty form fails once FEBUDGET retries are spent, and the herd-context traps to park. -/
  | feBudget (hc : Nat)
  /-- VLD_W (R195). Strided vector load of 4-byte elements through a handle. -/
  | vldW (f : VMemForm)
  /-- VST_W (R195). Strided vector store of 4-byte elements. -/
  | vstW (f : VMemForm)
  /-- VLD_H (R195). Strided vector load of 2-byte elements into bits 31..16. -/
  | vldH (f : VMemForm)
  /-- VST_H (R195). Strided vector store of bits 31..16 of each lane. -/
  | vstH (f : VMemForm)
  /-- SPLD_W (R197). Scratchpad scalar load of a word. -/
  | spldW (f : SpsForm)
  /-- SPLD_D (R197). Scratchpad scalar load of 8 bytes. -/
  | spldD (f : SpsForm)
  /-- SPST_W (R197). Scratchpad scalar store of a word. -/
  | spstW (f : SpsForm)
  /-- SPST_D (R197). Scratchpad scalar store of 8 bytes. -/
  | spstD (f : SpsForm)
  /-- REPAIR_ENTRY_WRITE (R426). A system SPST.D to a repair table entry substitutes a spare row for a pool row, or forces V to 0 on a conflict. -/
  | repairEntryWrite (core entry : Nat) (v : BitVec 64)
  /-- VSPLD (R198). Strided scratchpad vector load. -/
  | vspld (f : SpvForm)
  /-- VSPST (R198). Strided scratchpad vector store. -/
  | vspst (f : SpvForm)
  /-- VSPG (R198). Scratchpad gather by per-lane word indices. -/
  | vspg (f : GatherForm)
  /-- VSPS (R198). Scratchpad scatter by per-lane word indices. -/
  | vsps (f : GatherForm)
  /-- LPLD (R199). Load each lane from its lane-private slice. -/
  | lpld (f : GatherForm)
  /-- LPST (R199). Store each lane to its lane-private slice. -/
  | lpst (f : GatherForm)
  /-- SPTAKE_D (R200). Scratchpad full/empty take. -/
  | sptakeD (f : SpsForm)
  /-- SPFILL_D (R200). Scratchpad full/empty fill. -/
  | spfillD (f : SpsForm)
  /-- AADD (R203). Atomic add. -/
  | aadd (f : AtomForm)
  /-- AMIN (R203). Atomic signed minimum. -/
  | amin (f : AtomForm)
  /-- AMAX (R203). Atomic signed maximum. -/
  | amax (f : AtomForm)
  /-- AMINU (R203). Atomic unsigned minimum. -/
  | aminu (f : AtomForm)
  /-- AMAXU (R203). Atomic unsigned maximum. -/
  | amaxu (f : AtomForm)
  /-- AAND (R203). Atomic AND. -/
  | aand (f : AtomForm)
  /-- AOR (R203). Atomic OR. -/
  | aor (f : AtomForm)
  /-- AXOR (R203). Atomic XOR. -/
  | axor (f : AtomForm)
  /-- ASWP (R203). Atomic swap. -/
  | aswp (f : AtomForm)
  /-- ACAS (R203). Atomic compare-and-swap. -/
  | acas (f : AtomForm)
  /-- CADD (R205). Release the masked classes, add saturating to a counter at its home slice, and wake waiters that are satisfied. -/
  | cadd (f : CaddForm)
  /-- CWAIT (R206). Acquire: wait until a counter is at or above the target. -/
  | cwait (f : AtomForm)
  /-- CRD (R206). Acquire read of a counter. -/
  | crd (f : AtomForm)
  /-- FENCE (R207). Order all earlier masked-class accesses before later ones. -/
  | fence (f : FenceForm)
  /-- FENCE_ST (R207). Order earlier masked-class stores before later stores. -/
  | fenceSt (f : FenceForm)
  /-- FENCE_LD (R207). Order earlier masked-class loads before later loads and stores. -/
  | fenceLd (f : FenceForm)
  /-- SETQ (R208). Load a stream register from a 64-byte record, check the record and reset its position. -/
  | setq (f : SetqForm)
  /-- PREF (R196). Prefetch a line, never trapping. -/
  | pref (f : SMemForm)
  /-- STREAM_READ_AHEAD (R214). A stream address generator fetches input elements ahead of pops, through translation and block lookup. -/
  | streamReadAhead (hc mem q : Nat)
  /-- STREAM_OUTPUT_WRITE (R215). Pushed output elements are written to memory in stream order after the pushing bundle commits. -/
  | streamOutputWrite (hc mem q : Nat)
  /-- ROUTINE_NOP (R23). Routine slot with RN 0 does nothing. -/
  | routineNop (f : RForm)
  /-- ROUTINE_SLOT (R34). A routine slot binds by (RN, profile) and, at commit, issues to its native unit or calls its body. -/
  | routineSlot (rn : BitVec 12) (f : RForm)
  /-- OCLAIM (R235). Claim an operand slot. -/
  | oclaim (f : RForm)
  /-- OFREE (R235). Release an operand slot, or a BFP16 pair, once it is idle. -/
  | ofree (f : RForm)
  /-- OLDA (R237). Load an A tile from a stream into an operand slot. -/
  | olda (f : RForm)
  /-- OLDB (R237). Load a B tile from a stream into an operand slot. -/
  | oldb (f : RForm)
  /-- ACLAIM (R235). Claim an accumulator. -/
  | aclaim (f : RForm)
  /-- AFREE (R235). Release an accumulator once it is idle. -/
  | afree (f : RForm)
  /-- AZERO (R239). Reset every element of an accumulator. -/
  | azero (f : RForm)
  /-- MMA (R238). Accumulate the product of an A tile and a B tile into an accumulator. -/
  | mma (f : RForm)
  /-- ANORM (R239). Normalise every element of an accumulator. -/
  | anorm (f : RForm)
  /-- ASTO (R240). Store an accumulator to an output stream, converting by R132. -/
  | asto (f : RForm)
  /-- AROW (R241). Read one accumulator row into a vector register. -/
  | arow (f : RForm)
  /-- BFPQ (R237). Quantise FP32 or BF16 stream data into a BFP tile. -/
  | bfpq (f : RForm)
  /-- BDOT4 (R352). Four-lane BF16 dot products in groups of four lanes. -/
  | bdot4 (f : RForm)
  /-- TLSC2 (R405). Load a 2×2 FP32 tile from two pages and scale it. -/
  | tlsc2 (f : RForm)
  /-- EXP2 (R248). Base-2 exponential. -/
  | exp2 (f : RForm)
  /-- EXPE (R249). Natural exponential by composition. -/
  | expe (f : RForm)
  /-- LOG2 (R248). Base-2 logarithm. -/
  | log2 (f : RForm)
  /-- LOGE (R249). Natural logarithm by composition. -/
  | loge (f : RForm)
  /-- RCP (R248). Reciprocal. -/
  | rcp (f : RForm)
  /-- RSQRT (R248). Reciprocal square root. -/
  | rsqrt (f : RForm)
  /-- SQRT (R248). Square root. -/
  | sqrt (f : RForm)
  /-- TANH (R249). Hyperbolic tangent by composition. -/
  | tanh (f : RForm)
  /-- SIGM (R249). Logistic sigmoid by composition. -/
  | sigm (f : RForm)
  /-- SILU (R249). SiLU by composition. -/
  | silu (f : RForm)
  /-- GELU (R249). GELU by composition. -/
  | gelu (f : RForm)
  /-- DIVF (R248). FP32 lane division. -/
  | divf (f : RForm)
  /-- RMAX (R251). Row maximum over a vector or stream row. -/
  | rmax (f : RForm)
  /-- RSUM (R251). Row sum in tree and program order. -/
  | rsum (f : RForm)
  /-- SMXUPD (R252). Online softmax state update in base 2. -/
  | smxupd (f : RForm)
  /-- SMXFIN (R253). Finish softmax probabilities from the state. -/
  | smxfin (f : RForm)
  /-- RMSN (R254). RMS-norm statistics of a row. -/
  | rmsn (f : RForm)
  /-- LNRM (R254). Layer-norm mean and variance statistics of a row. -/
  | lnrm (f : RForm)
  /-- CPY (R262). Check and enqueue a copy from one stream walk to another, with optional F/E mode, acquire, release and counter add. -/
  | cpy (f : RForm)
  /-- CPYRED (R267). Send reduction contributions to the home slices that hold the group's time-slot entries. -/
  | cpyred (f : RForm)
  /-- TSTLOAD (R266). Load a pending time-slot table image into a home slice. -/
  | tstload (f : RForm)
  /-- BTSWAP (R269). Compare-and-swap a block-table entry in copy-engine queue order. -/
  | btswap (f : RForm)
  /-- BTFENCE (R270). Drop cached block-table entries of a page on every generator, then post a counter add. -/
  | btfence (f : RForm)
  /-- CBREG (R273). Register a token record in a combine slot and return the slot ID. -/
  | cbreg (f : RForm)
  /-- CBPUT (R274). Deliver an expert row to a combine slot, applied in position order or dropped when late. -/
  | cbput (f : RForm)
  /-- CBSTAT (R277). Read a combine unit statistic or slot status. -/
  | cbstat (f : RForm)
  /-- JEXP (R279). Raise a JCB's expected total for an open producer. -/
  | jexp (f : RForm)
  /-- JDONE (R279). Close a producer on a JCB, finishing the region and adding to FINCTR when the last producer closes. -/
  | jdone (f : RForm)
  /-- RINGADV (R281). Advance a host-ring producer index, write it to host memory and send a coalesced MSI-X interrupt. -/
  | ringadv (f : RForm)
  /-- MATRIX_QUEUE_PERFORM (R229). A matrix load or array queue performs its head command in the background and clears its busy bits at completion. -/
  | matrixQueuePerform (core : Nat) (load : Bool)
  /-- FUNCTION_QUEUE_PERFORM (R244). The function queue performs its head command and lands its register output and flags. -/
  | functionQueuePerform (core : Nat)
  /-- COPY_QUEUE_PERFORM (R263). A copy engine performs its head command: acquire, walk copy with F/E work, release and counter add. -/
  | copyQueuePerform (engine : Nat)
  /-- CPYRED_ADMIT (R268). A home slice admits the next contribution of a group's round, in slot order, adding into the destinations. -/
  | cpyredAdmit (slice : Nat) (part : Nat) (group : Nat)
  /-- JOB_QUEUE_PERFORM (R279). The job and host-ring queue performs a JEXP, JDONE or RINGADV step at the block's home slice. -/
  | jobQueuePerform (core : Nat)
  /-- TOKEN_RELEASE (R275). A complete token's rows and status word are written, and RADD is added to RCTR. -/
  | tokenRelease (die index : Nat)
  /-- COMBINE_TIMEOUT (R276). A token's TIMEOUT expires, its missing positions are substituted by ZERO or FALLBACK, and it is completed. -/
  | combineTimeout (die index : Nat)
  /-- RING_TIMER_EXPIRY (R281). A host-ring vector's timer reaches TIME, sends the MSI-X vector and sets LASTIRQ. -/
  | ringTimerExpiry (vector : Nat)
  /-- DRAIN_POINT_STOP (R86). A STOPPING herd-context reaches a drain point and is saved. -/
  | drainPointStop (hc : Nat)
  /-- FORCED_STOP (R85). A herd-context is frozen at its next bundle, with in-flight results landing in snapshot entries. -/
  | forcedStop (hc : Nat)
  /-- PREEMPT_STOP_TIMEOUT (R313). 65,536 virtual cycles pass after a pre-emption request without a drain point, so a forced stop follows. -/
  | preemptStopTimeout (hc : Nat)
  /-- CONTEXT_SAVE_DONE (R86). The copy engine's write of the saved state completes and the context slot is freed. -/
  | contextSaveDone (hc : Nat)
  /-- CONTEXT_RESTORE (R88). A saved herd-context is restored on its cores and slot when they are free, reclaiming its tiles. -/
  | contextRestore (hc : Nat)
  /-- HERD_RETIRE (R89). After the E bundle, once engine queues empty and tiles go idle, claims are released and the herd-context is DONE. -/
  | herdRetire (hc : Nat)
  /-- NODE_COMMIT (R424). When every herd-context is DONE, the node CIR is formed and the staged writes are committed, or the instance is rolled back or halted. -/
  | nodeCommit (part node : Nat)
  /-- STAGING_EXHAUSTED (R292). When every record-holding instance of a partition waits on staging records, the youngest revocable one is discarded and re-queued, or halted. -/
  | stagingExhausted (part : Nat)
  /-- NODE_FIRE (R308). An armed node's fire counter reaches THRESH, so the node is queued or a firing is owed, and the threshold advances. -/
  | nodeFire (part node : Nat)
  /-- NODE_PLACE (R312). The sequencer places the head kernel node on herd frames and loads missing overlays. -/
  | nodePlace (part : Nat)
  /-- COPY_NODE_RUN (R304). A copy node reads its records and enqueues one CPY on its engine. -/
  | copyNodeRun (part node : Nat)
  /-- COUNTER_NODE_RUN (R304). A counter node completes at once. -/
  | counterNodeRun (part node : Nat)
  /-- CONDITIONAL_NODE_RUN (R304). A conditional node reads a word and adds ADDT or ADDF to its counter. -/
  | conditionalNodeRun (part node : Nat)
  /-- DESCRIPTOR_ARM (R303). A nonzero KIND written to a FREE descriptor is checked, and the node is ARMED or REFUSED. -/
  | descriptorArm (part node : Nat) (desc : List Byte)
  /-- DESCRIPTOR_DISARM (R303). A write of 0 to KIND frees the node at once or after the instance in flight. -/
  | descriptorDisarm (part node : Nat)
  /-- RUNTIME_RELEASE (R314). Firmware releases a HALTED node or partition at the runtime's request. -/
  | runtimeRelease (part : Nat) (node : Option Nat)
  /-- REGEN_FAULT (R224). A REGEN fault queues the regeneration node instance if needed and parks the herd-context on its target. -/
  | regenFault (hc : Nat)
  /-- TRAP_RECORD_TAKE (R363). A markhor pair takes a trap record and ends it by resume, park, hold or halt. -/
  | trapRecordTake (die : Nat)
  /-- WAKE_SERVE (R387). Firmware serves a wake record's key, performing takes or fills for the oldest waiters and resuming them. -/
  | wakeServe (part : Nat)
  /-- HANDLE_RETRANSLATE (R381). Once the invalidation completes, firmware retranslates a revoked handle and resumes the access. -/
  | handleRetranslate (hc : Nat)
  /-- COPY_ON_WRITE (R389). On BLOCK_SHARED firmware copies the block into a private frame, swaps the entry and resumes the writer. -/
  | copyOnWrite (hc : Nat) (frame : Option (Nat × Nat))
  /-- TRANSLATION_INVALIDATE (R189). Firmware invalidates a range, clearing caches and overlapping handles, and raises the epoch. -/
  | translationInvalidate (part : Nat) (stage2 : Bool) (lo len : Nat) (ctr : Nat)
  /-- INVALIDATE_COMPLETE (R189). Once accesses through cleared handles and engine translations have performed, the invalidation posts its completion counter. -/
  | invalidateComplete (part : Nat)
  /-- COUNTER_ADD_WINDOW (R338). A host 16-byte posted write to a partition's window performs a CADD as a system-scope release, or is dropped. -/
  | counterAddWindow (part offset : Nat) (data : List Byte)
  /-- HOST_MEMORY_ACCESS (R336). A host BAR 0/1 or CXL.mem access performs immediately at the line's home slice. -/
  | hostMemoryAccess (pa : Nat) (op : HostOp)
  /-- REQUEST_SLOT_SUBMIT (R346). A host write of byte 63 submits a request slot, which is queued by kind or dropped. -/
  | requestSlotSubmit (part slot : Nat) (data : List Byte)
  /-- LOAD_REQUEST (R331). The loader checks an object, selects a variant, places data, binds routines and posts the result. -/
  | loadRequest (part : Nat)
  /-- UNLOAD_REQUEST (R334). The loader unloads an image that no armed descriptor names and writes the result. -/
  | unloadRequest (part : Nat)
  /-- STOP_REQUEST (R408). ACTION 1: a herd-context is stopped by forced stop and saved without restore. -/
  | stopRequest (part : Nat)
  /-- RESTORE_REQUEST (R408). ACTION 2: a stopped herd-context returns to its node's restore list. -/
  | restoreRequest (part : Nat)
  /-- MSIX_TABLE_WRITE (R339). A host write to an MSI-X table entry; unmasking a vector with its PBA bit set sends the pending message. -/
  | msixTableWrite (offset : Nat) (data : List Byte)
  /-- MANAGEMENT_WRITE_OTHER (R337). Host writes to partition records, read-only registers or unused offsets are discarded. -/
  | managementWriteOther (offset : Nat) (data : List Byte)
  /-- PARTITION_REQUEST (R343). A signed partition-manager request creates, changes or destroys a partition, clearing reassigned clusters. -/
  | partitionRequest (req : ManagerReq)
  /-- ROUTE_TABLE_LOAD (R342). Firmware loads route entries, replacing them whole and clearing DEAD. -/
  | routeTableLoad (entries : List (Nat × BitVec 32))
  /-- FABRIC_REQUEST (R341). A request arrives from another package and is performed at the home slice. -/
  | fabricRequest (src : BitVec 10) (pa : Nat) (op : FabricOp)
  /-- LINK_CRC_RETRY (R430). A flit that fails its CRC is retried at link level. -/
  | linkCrcRetry (port : Nat)
  /-- LINK_FAIL (R430). A link fails after 16 retries or on training loss, so a record is written and DEAD is set in its routes. -/
  | linkFail (port : Nat)
  /-- CXL_LINK_FAIL (R340). A memory port's link fails, and its reads return poison while its writes are discarded. -/
  | cxlLinkFail (port : Nat)
  /-- UNCORRECTED_ERROR (R420). An uncorrected error writes an error record and poisons the data at its granule. -/
  | uncorrectedError (e : ErrSite)
  /-- CORRECTED_ERROR (R420). A corrected error raises the unit's corrected count. -/
  | correctedError (e : ErrSite)
  /-- SCRUB_READ (R427). The patrol scrubber reads and rewrites a protected word, poisoning it if it is uncorrectable. -/
  | scrubRead (e : ErrSite) (found : ScrubFinding)
  /-- CHECKED_MISMATCH (R428). A checked herd's signatures differ, so immediate effects are discarded, CHECK is set and the instance is stopped. -/
  | checkedMismatch (hc mem : Nat)
  /-- MARKHOR_PAIR_MISMATCH (R429). A markhor pair's compare fails, so the handler re-runs, or the pair is marked failed on a second mismatch. -/
  | markhorPairMismatch (die pair : Nat)
  /-- WEAR_UPDATE (R431). Ageing sensors update the end-of-life register and may raise the event counter. -/
  | wearUpdate (die : Nat) (poh eolh : BitVec 32)
  /-- POWER_CAP_CHANGE (R350). A power cap lowers the arithmetic clock with no change of result. -/
  | powerCapChange (cap : Nat)
  /-- MEASUREMENT_REPORT (R349). A signed measurement report is produced over MCTP. -/
  | measurementReport
  /-- RESET (R347). At reset the boot ROM verifies the firmware, advances the identity leaf and reads expander capacities. -/
  | reset (image : List Byte)
  /-- COMBINE_QUEUE_PERFORM (R274). The combine unit takes the head command of a core's combine queue (CBREG, CBPUT or CBSTAT), possibly on another die, and completes it, applying accepted rows and any staged rows that become next in position order. -/
  | combineQueuePerform (core : Nat)
  /-- RUNTIME_RESUME_REQUEST (R377). The runtime or partition manager asks firmware to resume or halt a herd-context held FROZEN after a trap, and firmware retranslates and resumes it, or halts its node. -/
  | runtimeResumeRequest (hc : Nat) (halt : Bool)
  deriving DecidableEq, Repr

end Sys2Proof
end

