-- ==== Sys2Proof/WellFormed.lean ====
section
/-! DEFINITION. Which instructions are well formed: the field rules of Tables 3.2, 3.6, 3.8, 3.9 and 3.11 (R53, R58,
R63, R65..R69) that the constructors of Instr leave open. -/

namespace Sys2Proof

/-- Why a bundle's bits are not an instruction (R70, R368). `short` means words are missing. -/
inductive DecodeError where
  | illegalOp
  | illegalField
  | profileUnknown
  | routineUnbound
  | short
  deriving DecidableEq, Repr

/-- How a V operation uses one operand field (Table 3.9, R169). -/
inductive VUse where
  | unused
  | reg
  | mask
  | scalar
  | lane
  | pair
  | below (n : Nat)
  | just (n : Nat)
  deriving DecidableEq, Repr

/-- The row of Table 3.9 of a V operation: opcode, whether RM is used, whether K has to be 0, and the four fields. -/
structure VSpec where
  op : BitVec 6
  rm : Bool
  kZero : Bool
  vd : VUse
  va : VUse
  vb : VUse
  vc : VUse
  deriving DecidableEq, Repr

/-- A field value and its stream flag obey the field's use (R65, R66, R169). -/
def VUse.ok (u : VUse) (x : BitVec 10) (sf : Bool) : Bool :=
  match u with
  | .unused => x == 0 && !sf
  | .reg => !sf || decide (x.toNat < 16)
  | .mask => decide (x.toNat < 16) && !sf
  | .scalar => decide (x.toNat < 64) && !sf
  | .lane => decide (x.toNat < 256) && !sf
  | .pair => decide (x.toNat < 256) && !sf
  | .below n => decide (x.toNat < n) && !sf
  | .just n => decide (x.toNat = n) && !sf

/-- Table 3.9: the V operations, their opcodes and fields. -/
def vSpec : Instr → Option (VForm × VSpec)
  | .fadd f => some (f, ⟨1#6, true, false, .reg, .reg, .reg, .unused⟩)
  | .fsub f => some (f, ⟨2#6, true, false, .reg, .reg, .reg, .unused⟩)
  | .fmul f => some (f, ⟨3#6, true, false, .reg, .reg, .reg, .unused⟩)
  | .ffma f => some (f, ⟨4#6, true, false, .reg, .reg, .reg, .reg⟩)
  | .ffms f => some (f, ⟨5#6, true, false, .reg, .reg, .reg, .reg⟩)
  | .fnma f => some (f, ⟨6#6, true, false, .reg, .reg, .reg, .reg⟩)
  | .fmin f => some (f, ⟨7#6, false, false, .reg, .reg, .reg, .unused⟩)
  | .fmax f => some (f, ⟨8#6, false, false, .reg, .reg, .reg, .unused⟩)
  | .fabs f => some (f, ⟨9#6, false, false, .reg, .reg, .unused, .unused⟩)
  | .fneg f => some (f, ⟨10#6, false, false, .reg, .reg, .unused, .unused⟩)
  | .fcmp f => some (f, ⟨11#6, false, false, .pair, .reg, .reg, (.below 8)⟩)
  | .fcvti f => some (f, ⟨12#6, true, false, .reg, .reg, .unused, .unused⟩)
  | .icvtf f => some (f, ⟨13#6, true, false, .reg, .reg, .unused, .unused⟩)
  | .bfpk f => some (f, ⟨14#6, true, false, .reg, .reg, .reg, .unused⟩)
  | .bfup f => some (f, ⟨15#6, false, false, .reg, .reg, .unused, (.below 2)⟩)
  | .iadd f => some (f, ⟨16#6, false, false, .reg, .reg, .reg, .unused⟩)
  | .isub f => some (f, ⟨17#6, false, false, .reg, .reg, .reg, .unused⟩)
  | .imul f => some (f, ⟨18#6, false, false, .reg, .reg, .reg, .unused⟩)
  | .imulh f => some (f, ⟨19#6, false, false, .reg, .reg, .reg, .unused⟩)
  | .iand f => some (f, ⟨20#6, false, false, .reg, .reg, .reg, .unused⟩)
  | .ior f => some (f, ⟨21#6, false, false, .reg, .reg, .reg, .unused⟩)
  | .ixor f => some (f, ⟨22#6, false, false, .reg, .reg, .reg, .unused⟩)
  | .ishl f => some (f, ⟨23#6, false, false, .reg, .reg, .reg, .unused⟩)
  | .ishr f => some (f, ⟨24#6, false, false, .reg, .reg, .reg, .unused⟩)
  | .isra f => some (f, ⟨25#6, false, false, .reg, .reg, .reg, .unused⟩)
  | .imin f => some (f, ⟨26#6, false, false, .reg, .reg, .reg, .unused⟩)
  | .imax f => some (f, ⟨27#6, false, false, .reg, .reg, .reg, .unused⟩)
  | .iminu f => some (f, ⟨28#6, false, false, .reg, .reg, .reg, .unused⟩)
  | .imaxu f => some (f, ⟨29#6, false, false, .reg, .reg, .reg, .unused⟩)
  | .icmp f => some (f, ⟨30#6, false, false, .pair, .reg, .reg, (.below 10)⟩)
  | .vsel f => some (f, ⟨32#6, false, false, .reg, .reg, .reg, .mask⟩)
  | .vmov f => some (f, ⟨33#6, false, false, .reg, .reg, .unused, .unused⟩)
  | .vbcst f => some (f, ⟨34#6, false, false, .reg, .unused, .scalar, .unused⟩)
  | .vperm f => some (f, ⟨35#6, false, false, .reg, .reg, .reg, .unused⟩)
  | .vrot f => some (f, ⟨36#6, false, false, .reg, .reg, .unused, .lane⟩)
  | .viota f => some (f, ⟨37#6, false, false, .reg, .unused, .unused, .unused⟩)
  | .vext f => some (f, ⟨38#6, false, true, .scalar, .reg, .unused, .lane⟩)
  | .vins f => some (f, ⟨39#6, false, false, .reg, .unused, .scalar, .lane⟩)
  | .frsum f => some (f, ⟨40#6, false, false, .reg, .reg, .unused, .unused⟩)
  | .frmax f => some (f, ⟨41#6, false, false, .reg, .reg, .unused, .unused⟩)
  | .frmin f => some (f, ⟨42#6, false, false, .reg, .reg, .unused, .unused⟩)
  | .irsum f => some (f, ⟨43#6, false, false, .reg, .reg, .unused, .unused⟩)
  | .irmax f => some (f, ⟨44#6, false, false, .reg, .reg, .unused, .unused⟩)
  | .irmin f => some (f, ⟨45#6, false, false, .reg, .reg, .unused, .unused⟩)
  | .kand f => some (f, ⟨48#6, false, true, .mask, .mask, .mask, (.just 0)⟩)
  | .kor f => some (f, ⟨48#6, false, true, .mask, .mask, .mask, (.just 1)⟩)
  | .kxor f => some (f, ⟨48#6, false, true, .mask, .mask, .mask, (.just 2)⟩)
  | .kandn f => some (f, ⟨48#6, false, true, .mask, .mask, .mask, (.just 3)⟩)
  | .kpopc f => some (f, ⟨49#6, false, true, .scalar, .mask, .unused, .unused⟩)
  | .kfromv f => some (f, ⟨50#6, false, false, .mask, .reg, .unused, .unused⟩)
  | _ => none

/-- The fields of a V slot obey its row of Table 3.9. -/
def VSpec.fieldsOk (p : VSpec) (f : VForm) : Bool :=
  (p.rm || f.rm == 0) && (!p.kZero || f.k == 0) &&
  p.vd.ok f.vd (f.sf.getLsbD 3) && p.va.ok f.va (f.sf.getLsbD 2) &&
  p.vb.ok f.vb (f.sf.getLsbD 1) && p.vc.ok f.vc (f.sf.getLsbD 0)

/-- The special register numbers that MOVRS reaches through `movrs`: the read-only ones of Table 3.7. -/
def readOnlySpecial (n : Nat) : Bool :=
  (0x01 ≤ n && n ≤ 0x0D) || n == 0x13 || n == 0x18 || n == 0x19 || n == 0x1B || n == 0x1C

/-- The special register numbers of Table 3.7. -/
def specialListed (n : Nat) : Bool :=
  readOnlySpecial n || (0x10 ≤ n && n ≤ 0x12) || (0x14 ≤ n && n ≤ 0x17) || n == 0x1A || (0x20 ≤ n && n ≤ 0x2F)

/-- END is at least the size of the loop's own bundle, in 8-byte units (R158); the bundle's size is 1 + popcount(PRES). -/
def loopEndOk (e : BitVec 16) (words : Nat) : Bool := decide (words ≤ e.toNat)

/-- The value limits of the fields that the encoding of an operation leaves free. -/
def Instr.fieldsOk : Instr → Bool
  | .loopt _ l _ => decide (l.toNat < 6)
  | .waite _ m => decide (m.toNat < 32)
  | .shli f => decide (f.imm.toNat < 64)
  | .shri f => decide (f.imm.toNat < 64)
  | .srai f => decide (f.imm.toNat < 64)
  | .cmp f => decide (f.cond.toNat < 10)
  | .cmpi f => decide (f.cond.toNat < 10)
  | .movsr f => specialListed f.num.toNat
  | .movrs _ n => readOnlySpecial n.toNat
  | .hrd f => f.so == 0 && decide (f.imm.toNat < 2)
  | .pref f => f.sd == 0
  | .lpld f => f.sa == 0
  | .lpst f => f.sa == 0
  | .aadd f => f.sc == 0
  | .amin f => f.sc == 0
  | .amax f => f.sc == 0
  | .aminu f => f.sc == 0
  | .amaxu f => f.sc == 0
  | .aand f => f.sc == 0
  | .aor f => f.sc == 0
  | .axor f => f.sc == 0
  | .aswp f => f.sc == 0
  | .cwait f => f.sd == 0 && f.sc == 0
  | .crd f => f.sv == 0 && f.sc == 0
  | .routineSlot rn _ => decide (0x400 ≤ rn.toNat)
  | i => match vSpec i with
    | some (f, p) => p.fieldsOk f
    | none => true

/-- The kinds of constructor: a header control operation, a slot operation, a whole bundle, or an event. -/
inductive Kind where
  | control
  | scalar
  | vector
  | memory
  | routine
  | bundle
  | event
  deriving DecidableEq, Repr

/-- What a constructor of Instr stands for. -/
def Instr.kind : Instr → Kind
  | .ctrlNop _ => .control
  | .br _ _ => .control
  | .brr _ _ => .control
  | .call _ _ => .control
  | .callr _ _ => .control
  | .ret _ => .control
  | .loopt _ _ _ => .control
  | .loopn _ _ _ _ => .control
  | .lexit _ _ => .control
  | .trap _ _ => .control
  | .yield _ => .control
  | .waite _ _ => .control
  | .eret _ => .control
  | .resume _ _ => .control
  | .snop => .scalar
  | .vnop => .vector
  | .mnop => .memory
  | .add _ => .scalar
  | .sub _ => .scalar
  | .and _ => .scalar
  | .or _ => .scalar
  | .xor _ => .scalar
  | .shl _ => .scalar
  | .shr _ => .scalar
  | .sra _ => .scalar
  | .min _ => .scalar
  | .max _ => .scalar
  | .minu _ => .scalar
  | .maxu _ => .scalar
  | .rotl _ => .scalar
  | .mul _ => .scalar
  | .mulhs _ => .scalar
  | .mulhu _ => .scalar
  | .divs _ => .scalar
  | .divu _ => .scalar
  | .rems _ => .scalar
  | .remu _ => .scalar
  | .sfadd _ => .scalar
  | .sfsub _ => .scalar
  | .sfmul _ => .scalar
  | .sfmin _ => .scalar
  | .sfmax _ => .scalar
  | .clz _ => .scalar
  | .ctz _ => .scalar
  | .popc _ => .scalar
  | .sextb _ => .scalar
  | .sexth _ => .scalar
  | .sextw _ => .scalar
  | .zextb _ => .scalar
  | .zexth _ => .scalar
  | .zextw _ => .scalar
  | .sfcvtif _ => .scalar
  | .sfcvtfi _ => .scalar
  | .addi _ => .scalar
  | .andi _ => .scalar
  | .ori _ => .scalar
  | .xori _ => .scalar
  | .shli _ => .scalar
  | .shri _ => .scalar
  | .srai _ => .scalar
  | .movhi _ => .scalar
  | .movi _ => .scalar
  | .sel _ => .scalar
  | .cmp _ => .scalar
  | .cmpi _ => .scalar
  | .pand _ => .scalar
  | .por _ => .scalar
  | .pxor _ => .scalar
  | .pandn _ => .scalar
  | .movp _ => .scalar
  | .movps _ => .scalar
  | .movsr _ => .scalar
  | .chke _ => .scalar
  | .fpstatWrite _ => .scalar
  | .cirWrite _ => .scalar
  | .febudgetWrite _ => .scalar
  | .defprofileWrite _ => .scalar
  | .movrs _ _ => .scalar
  | .argWrite _ _ => .scalar
  | .qposWrite _ _ => .scalar
  | .fadd _ => .vector
  | .fsub _ => .vector
  | .fmul _ => .vector
  | .ffma _ => .vector
  | .ffms _ => .vector
  | .fnma _ => .vector
  | .fmin _ => .vector
  | .fmax _ => .vector
  | .fabs _ => .vector
  | .fneg _ => .vector
  | .fcmp _ => .vector
  | .fcvti _ => .vector
  | .icvtf _ => .vector
  | .bfpk _ => .vector
  | .bfup _ => .vector
  | .iadd _ => .vector
  | .isub _ => .vector
  | .imul _ => .vector
  | .imulh _ => .vector
  | .iand _ => .vector
  | .ior _ => .vector
  | .ixor _ => .vector
  | .ishl _ => .vector
  | .ishr _ => .vector
  | .isra _ => .vector
  | .imin _ => .vector
  | .imax _ => .vector
  | .iminu _ => .vector
  | .imaxu _ => .vector
  | .icmp _ => .vector
  | .vsel _ => .vector
  | .vmov _ => .vector
  | .vbcst _ => .vector
  | .vperm _ => .vector
  | .vrot _ => .vector
  | .viota _ => .vector
  | .vext _ => .vector
  | .vins _ => .vector
  | .frsum _ => .vector
  | .frmax _ => .vector
  | .frmin _ => .vector
  | .irsum _ => .vector
  | .irmax _ => .vector
  | .irmin _ => .vector
  | .kand _ => .vector
  | .kor _ => .vector
  | .kxor _ => .vector
  | .kandn _ => .vector
  | .kpopc _ => .vector
  | .kfromv _ => .vector
  | .hrd _ => .memory
  | .ldB _ => .memory
  | .ldH _ => .memory
  | .ldW _ => .memory
  | .ldD _ => .memory
  | .ldSb _ => .memory
  | .ldSh _ => .memory
  | .ldSw _ => .memory
  | .stB _ => .memory
  | .stH _ => .memory
  | .stW _ => .memory
  | .stD _ => .memory
  | .ldwaitD _ => .memory
  | .ldtakeD _ => .memory
  | .stfillD _ => .memory
  | .feset _ => .memory
  | .feget _ => .memory
  | .pref _ => .memory
  | .vldW _ => .memory
  | .vstW _ => .memory
  | .vldH _ => .memory
  | .vstH _ => .memory
  | .spldW _ => .memory
  | .spldD _ => .memory
  | .spstW _ => .memory
  | .spstD _ => .memory
  | .sptakeD _ => .memory
  | .spfillD _ => .memory
  | .vspld _ => .memory
  | .vspst _ => .memory
  | .vspg _ => .memory
  | .vsps _ => .memory
  | .lpld _ => .memory
  | .lpst _ => .memory
  | .aadd _ => .memory
  | .amin _ => .memory
  | .amax _ => .memory
  | .aminu _ => .memory
  | .amaxu _ => .memory
  | .aand _ => .memory
  | .aor _ => .memory
  | .axor _ => .memory
  | .aswp _ => .memory
  | .acas _ => .memory
  | .cwait _ => .memory
  | .crd _ => .memory
  | .trans _ => .memory
  | .hinv _ => .memory
  | .cadd _ => .memory
  | .fence _ => .memory
  | .fenceSt _ => .memory
  | .fenceLd _ => .memory
  | .setq _ => .memory
  | .oclaim _ => .routine
  | .ofree _ => .routine
  | .olda _ => .routine
  | .oldb _ => .routine
  | .aclaim _ => .routine
  | .afree _ => .routine
  | .azero _ => .routine
  | .mma _ => .routine
  | .anorm _ => .routine
  | .asto _ => .routine
  | .arow _ => .routine
  | .exp2 _ => .routine
  | .expe _ => .routine
  | .log2 _ => .routine
  | .loge _ => .routine
  | .rcp _ => .routine
  | .rsqrt _ => .routine
  | .sqrt _ => .routine
  | .tanh _ => .routine
  | .sigm _ => .routine
  | .silu _ => .routine
  | .gelu _ => .routine
  | .divf _ => .routine
  | .rmax _ => .routine
  | .rsum _ => .routine
  | .smxupd _ => .routine
  | .smxfin _ => .routine
  | .rmsn _ => .routine
  | .lnrm _ => .routine
  | .bfpq _ => .routine
  | .bdot4 _ => .routine
  | .tlsc2 _ => .routine
  | .cpy _ => .routine
  | .cpyred _ => .routine
  | .tstload _ => .routine
  | .btswap _ => .routine
  | .btfence _ => .routine
  | .cbreg _ => .routine
  | .cbput _ => .routine
  | .cbstat _ => .routine
  | .jexp _ => .routine
  | .jdone _ => .routine
  | .ringadv _ => .routine
  | .routineNop _ => .routine
  | .routineSlot _ _ => .routine
  | .bundleIssue _ _ _ _ _ _ _ => .bundle
  | _ => .event

/-- The header every one-operation bundle has. -/
def plainHdr (pres : BitVec 5) : Hdr := ⟨0, 0, 0, false, false, pres⟩

/-- The no-op that stands for an absent routine slot. -/
def noRoutine : Instr := .routineNop ⟨0, 0, 0, 0, 0, 0, 0⟩

/-- How many words a header's bundle has (R50). -/
def Hdr.words (h : Hdr) : Nat :=
  1 + (h.pres.getLsbD 0).toNat + (h.pres.getLsbD 1).toNat + (h.pres.getLsbD 2).toNat + (h.pres.getLsbD 3).toNat +
    (h.pres.getLsbD 4).toNat

/-- How many words the bundle of an instruction has. -/
def Instr.words : Instr → Nat
  | .bundleIssue h _ _ _ _ _ _ => h.words
  | i => if i.kind == .control then 1 else 2

/-- A control operation in a bundle of `n` words obeys Table 3.2 and R158. -/
def Instr.controlOk (c : Instr) (n : Nat) : Bool :=
  c.kind == .control && c.fieldsOk &&
  match c with
  | .loopt _ _ e => loopEndOk e n
  | .loopn _ _ _ e => loopEndOk e n
  | _ => true

/-- A slot of a bundle: an operation of the slot's kind, or the slot's no-op when the slot is absent. -/
def slotOk (k : Kind) (present : Bool) (i nop : Instr) : Bool :=
  i.kind == k && i.fieldsOk && (present || decide (i = nop))

/-- Whether a bundle is one that a one-operation constructor stands for (log 1). -/
def isSingle (h : Hdr) (c : Instr) : Bool :=
  decide (h = plainHdr h.pres) &&
  (decide (h.pres = 0) ||
   (decide (c = .ctrlNop 0) && (h.pres == 1 || h.pres == 2 || h.pres == 4 || h.pres == 8)))

/-- A well-formed instruction: one that some bundle's bits encode. The events of the device are not encoded. -/
def Instr.wf : Instr → Bool
  | .bundleIssue h c s v m ra rb =>
    c.controlOk h.words && decide (h.scope.toNat < 7) && decide (h.np.toNat < 4) &&
    slotOk .scalar (h.pres.getLsbD 0) s .snop && slotOk .vector (h.pres.getLsbD 1) v .vnop &&
    slotOk .memory (h.pres.getLsbD 2) m .mnop && slotOk .routine (h.pres.getLsbD 3) ra noRoutine &&
    slotOk .routine (h.pres.getLsbD 4) rb noRoutine && !isSingle h c
  | i =>
    match i.kind with
    | .control => i.controlOk 1
    | .event => false
    | .bundle => false
    | _ => i.fieldsOk

end Sys2Proof
end

