-- ==== Sys2Proof/Decode.lean ====
section
/-! DEFINITION. The decoder of bundles, total on any words and rejecting by name, and the encoder, both from Tables
2.2, 3.1, 3.2, 3.5, 3.6, 3.8, 3.9, 3.10, 3.11 and 3.12. The decoder reads the fields, builds the operation, and then
rejects a word whose remaining bits differ from the operation's own (reserved and unused fields, R63, R66, R68, R70). -/

namespace Sys2Proof

/-- Bits `lo + n - 1 .. lo` of a word. -/
abbrev bits (w : BitVec 64) (lo n : Nat) : BitVec n := w.extractLsb' lo n

/-! ### Words of the slots -/

/-- The word of form SR. -/
def wordSR (op fn : BitVec 6) (f : SRForm) : BitVec 64 :=
  op ++ f.g ++ f.lat ++ f.sd ++ f.sa ++ f.sb ++ fn ++ f.hint ++ 0#20

/-- The fields of form SR in a word. -/
def fieldsSR (w : BitVec 64) : SRForm :=
  ⟨bits w 54 4, bits w 50 4, bits w 44 6, bits w 38 6, bits w 32 6, bits w 20 6⟩

/-- The word of form S1. -/
def wordS1 (op fn : BitVec 6) (f : S1Form) : BitVec 64 :=
  op ++ f.g ++ f.lat ++ f.sd ++ f.sa ++ 0#6 ++ fn ++ f.hint ++ 0#20

/-- The fields of form S1 in a word. -/
def fieldsS1 (w : BitVec 64) : S1Form :=
  ⟨bits w 54 4, bits w 50 4, bits w 44 6, bits w 38 6, bits w 20 6⟩

/-- The word of form Chke. -/
def wordChke (f : ChkeForm) : BitVec 64 :=
  0x16#6 ++ f.g ++ f.lat ++ f.sd ++ 0#6 ++ 0#6 ++ 0#6 ++ f.hint ++ 0#20

/-- The fields of form Chke in a word. -/
def fieldsChke (w : BitVec 64) : ChkeForm :=
  ⟨bits w 54 4, bits w 50 4, bits w 44 6, bits w 20 6⟩

/-- The word of form Sel. -/
def wordSel (f : SelForm) : BitVec 64 :=
  0x0E#6 ++ f.g ++ f.lat ++ f.sd ++ f.sa ++ f.sb ++ 0#2 ++ f.p ++ f.hint ++ 0#20

/-- The fields of form Sel in a word. -/
def fieldsSel (w : BitVec 64) : SelForm :=
  ⟨bits w 54 4, bits w 50 4, bits w 44 6, bits w 38 6, bits w 32 6, bits w 26 4, bits w 20 6⟩

/-- The word of form SI. -/
def wordSI (op : BitVec 6) (f : SIForm) : BitVec 64 :=
  op ++ f.g ++ f.lat ++ f.sd ++ f.sa ++ f.imm ++ f.hint ++ 0#4

/-- The fields of form SI in a word. -/
def fieldsSI (w : BitVec 64) : SIForm :=
  ⟨bits w 54 4, bits w 50 4, bits w 44 6, bits w 38 6, bits w 6 32, bits w 4 2⟩

/-- The word of form Movi. -/
def wordMovi (f : MoviForm) : BitVec 64 :=
  0x09#6 ++ f.g ++ f.lat ++ f.sd ++ 0#6 ++ f.imm ++ f.hint ++ 0#4

/-- The fields of form Movi in a word. -/
def fieldsMovi (w : BitVec 64) : MoviForm :=
  ⟨bits w 54 4, bits w 50 4, bits w 44 6, bits w 6 32, bits w 4 2⟩

/-- The word of form Movsr. -/
def wordMovsr (f : MovsrForm) : BitVec 64 :=
  0x12#6 ++ f.g ++ f.lat ++ f.sd ++ 0#6 ++ f.num ++ f.hint ++ 0#4

/-- The fields of form Movsr in a word. -/
def fieldsMovsr (w : BitVec 64) : MovsrForm :=
  ⟨bits w 54 4, bits w 50 4, bits w 44 6, bits w 6 32, bits w 4 2⟩

/-- The word of form Movrs. -/
def wordMovrs (num : BitVec 32) (f : MovrsForm) : BitVec 64 :=
  0x13#6 ++ f.g ++ f.lat ++ 0#6 ++ f.sa ++ num ++ f.hint ++ 0#4

/-- The fields of form Movrs in a word. -/
def fieldsMovrs (w : BitVec 64) : MovrsForm :=
  ⟨bits w 54 4, bits w 50 4, bits w 38 6, bits w 4 2⟩

/-- The word of form Cmp. -/
def wordCmp (f : CmpForm) : BitVec 64 :=
  0x0F#6 ++ f.g ++ f.lat ++ f.pt ++ f.pf ++ f.sa ++ f.sb ++ f.cond ++ f.hint ++ 0#20

/-- The fields of form Cmp in a word. -/
def fieldsCmp (w : BitVec 64) : CmpForm :=
  ⟨bits w 54 4, bits w 50 4, bits w 46 4, bits w 42 4, bits w 36 6, bits w 30 6, bits w 26 4, bits w 20 6⟩

/-- The word of form Cmpi. -/
def wordCmpi (f : CmpiForm) : BitVec 64 :=
  0x10#6 ++ f.g ++ f.lat ++ f.pt ++ f.pf ++ f.sa ++ f.imm ++ f.cond

/-- The fields of form Cmpi in a word. -/
def fieldsCmpi (w : BitVec 64) : CmpiForm :=
  ⟨bits w 54 4, bits w 50 4, bits w 46 4, bits w 42 4, bits w 36 6, bits w 4 32, bits w 0 4⟩

/-- The word of form Plog. -/
def wordPlog (fn : BitVec 4) (f : PlogForm) : BitVec 64 :=
  0x11#6 ++ f.g ++ f.lat ++ f.pt ++ f.pf ++ f.pa ++ f.pb ++ 0#6 ++ fn ++ f.hint ++ 0#20

/-- The fields of form Plog in a word. -/
def fieldsPlog (w : BitVec 64) : PlogForm :=
  ⟨bits w 54 4, bits w 50 4, bits w 46 4, bits w 42 4, bits w 38 4, bits w 34 4, bits w 20 4⟩

/-- The word of form Movp. -/
def wordMovp (f : MovpForm) : BitVec 64 :=
  0x14#6 ++ f.g ++ f.lat ++ 0#4 ++ 0#4 ++ f.pa ++ 0#4 ++ f.sx ++ 0#4 ++ f.hint ++ 0#20

/-- The fields of form Movp in a word. -/
def fieldsMovp (w : BitVec 64) : MovpForm :=
  ⟨bits w 54 4, bits w 50 4, bits w 28 6, bits w 38 4, bits w 20 4⟩

/-- The word of form Movps. -/
def wordMovps (f : MovpsForm) : BitVec 64 :=
  0x15#6 ++ f.g ++ f.lat ++ f.pt ++ f.pf ++ 0#4 ++ 0#4 ++ f.sx ++ 0#4 ++ f.hint ++ 0#20

/-- The fields of form Movps in a word. -/
def fieldsMovps (w : BitVec 64) : MovpsForm :=
  ⟨bits w 54 4, bits w 50 4, bits w 46 4, bits w 42 4, bits w 28 6, bits w 20 4⟩

/-- The word of form V. -/
def wordV (op : BitVec 6) (f : VForm) : BitVec 64 :=
  op ++ f.g ++ f.lat ++ f.k ++ f.rm ++ f.sf ++ f.vd ++ f.va ++ f.vb ++ f.vc

/-- The fields of form V in a word. -/
def fieldsV (w : BitVec 64) : VForm :=
  ⟨bits w 54 4, bits w 50 4, bits w 46 4, bits w 44 2, bits w 40 4, bits w 30 10, bits w 20 10, bits w 10 10, bits w 0 10⟩

/-- The word of form SMem. -/
def wordSMem (op : BitVec 6) (f : SMemForm) : BitVec 64 :=
  op ++ f.g ++ f.lat ++ f.cls ++ f.sd ++ f.h ++ f.so ++ f.imm ++ f.hint ++ 0#6

/-- The fields of form SMem in a word. -/
def fieldsSMem (w : BitVec 64) : SMemForm :=
  ⟨bits w 54 4, bits w 50 4, bits w 46 4, bits w 40 6, bits w 36 4, bits w 30 6, bits w 10 20, bits w 6 4⟩

/-- The word of form VMem. -/
def wordVMem (op : BitVec 6) (f : VMemForm) : BitVec 64 :=
  op ++ f.g ++ f.lat ++ f.cls ++ f.vd ++ f.h ++ f.so ++ f.ss ++ f.imm ++ f.k ++ f.hint ++ 0#2

/-- The fields of form VMem in a word. -/
def fieldsVMem (w : BitVec 64) : VMemForm :=
  ⟨bits w 54 4, bits w 50 4, bits w 46 4, bits w 36 10, bits w 32 4, bits w 26 6, bits w 20 6, bits w 8 12, bits w 4 4, bits w 2 2⟩

/-- The word of form Sps. -/
def wordSps (op : BitVec 6) (f : SpsForm) : BitVec 64 :=
  op ++ f.g ++ f.lat ++ f.cls ++ f.sd ++ f.sa ++ f.imm ++ f.hint ++ 0#6

/-- The fields of form Sps in a word. -/
def fieldsSps (w : BitVec 64) : SpsForm :=
  ⟨bits w 54 4, bits w 50 4, bits w 46 4, bits w 40 6, bits w 34 6, bits w 10 24, bits w 6 4⟩

/-- The word of form Spv. -/
def wordSpv (op : BitVec 6) (f : SpvForm) : BitVec 64 :=
  op ++ f.g ++ f.lat ++ f.cls ++ f.vd ++ f.sa ++ f.ss ++ f.imm ++ f.k ++ f.hint ++ 0#2

/-- The fields of form Spv in a word. -/
def fieldsSpv (w : BitVec 64) : SpvForm :=
  ⟨bits w 54 4, bits w 50 4, bits w 46 4, bits w 36 10, bits w 30 6, bits w 24 6, bits w 8 16, bits w 4 4, bits w 2 2⟩

/-- The word of form Gather. -/
def wordGather (op : BitVec 6) (f : GatherForm) : BitVec 64 :=
  op ++ f.g ++ f.lat ++ f.cls ++ f.vd ++ f.sa ++ f.vb ++ 0#12 ++ f.k ++ 0#4

/-- The fields of form Gather in a word. -/
def fieldsGather (w : BitVec 64) : GatherForm :=
  ⟨bits w 54 4, bits w 50 4, bits w 46 4, bits w 36 10, bits w 30 6, bits w 20 10, bits w 4 4⟩

/-- The word of form Atom. -/
def wordAtom (op : BitVec 6) (f : AtomForm) : BitVec 64 :=
  op ++ f.g ++ f.lat ++ f.cls ++ f.sd ++ f.h ++ f.so ++ f.sv ++ f.sc ++ f.imm ++ 0#6

/-- The fields of form Atom in a word. -/
def fieldsAtom (w : BitVec 64) : AtomForm :=
  ⟨bits w 54 4, bits w 50 4, bits w 46 4, bits w 40 6, bits w 36 4, bits w 30 6, bits w 24 6, bits w 18 6, bits w 6 12⟩

/-- The word of form Cadd. -/
def wordCadd (f : CaddForm) : BitVec 64 :=
  0x3A#6 ++ f.g ++ f.lat ++ f.cls ++ 0#6 ++ f.h ++ f.so ++ f.sv ++ 0#6 ++ f.rmask ++ 0#2

/-- The fields of form Cadd in a word. -/
def fieldsCadd (w : BitVec 64) : CaddForm :=
  ⟨bits w 54 4, bits w 50 4, bits w 46 4, bits w 36 4, bits w 30 6, bits w 24 6, bits w 2 16⟩

/-- The word of form Trans. -/
def wordTrans (f : TransForm) : BitVec 64 :=
  0x01#6 ++ f.g ++ f.lat ++ f.cls ++ f.hd ++ f.sa ++ f.imm ++ f.intent ++ f.hint ++ 0#6

/-- The fields of form Trans in a word. -/
def fieldsTrans (w : BitVec 64) : TransForm :=
  ⟨bits w 54 4, bits w 50 4, bits w 46 4, bits w 42 4, bits w 36 6, bits w 12 24, bits w 10 2, bits w 6 4⟩

/-- The word of form Hinv. -/
def wordHinv (f : HinvForm) : BitVec 64 :=
  0x02#6 ++ f.g ++ f.lat ++ f.cls ++ f.hd ++ 0#6 ++ 0#24 ++ 0#2 ++ f.hint ++ 0#6

/-- The fields of form Hinv in a word. -/
def fieldsHinv (w : BitVec 64) : HinvForm :=
  ⟨bits w 54 4, bits w 50 4, bits w 46 4, bits w 42 4, bits w 6 4⟩

/-- The word of form Fence. -/
def wordFence (kind : BitVec 2) (f : FenceForm) : BitVec 64 :=
  0x3D#6 ++ f.g ++ f.lat ++ 0#4 ++ f.mask ++ kind ++ 0#28

/-- The fields of form Fence in a word. -/
def fieldsFence (w : BitVec 64) : FenceForm :=
  ⟨bits w 54 4, bits w 50 4, bits w 30 16⟩

/-- The word of form Setq. -/
def wordSetq (f : SetqForm) : BitVec 64 :=
  0x3E#6 ++ f.g ++ f.lat ++ f.cls ++ f.q ++ f.sa ++ f.imm ++ 0#2 ++ f.hint ++ 0#6

/-- The fields of form Setq in a word. -/
def fieldsSetq (w : BitVec 64) : SetqForm :=
  ⟨bits w 54 4, bits w 50 4, bits w 46 4, bits w 42 4, bits w 36 6, bits w 12 24, bits w 6 4⟩

/-- The word of form R. -/
def wordR (rn : BitVec 12) (f : RForm) : BitVec 64 :=
  rn ++ f.g ++ f.x ++ f.y ++ f.z ++ f.w ++ f.k ++ f.f

/-- The fields of form R in a word. -/
def fieldsR (w : BitVec 64) : RForm :=
  ⟨bits w 48 4, bits w 38 10, bits w 28 10, bits w 18 10, bits w 8 10, bits w 4 4, bits w 0 4⟩

/-- The word of an operation in its slot; none for what stands in no slot. -/
def slotWord : Instr → Option (BitVec 64)
  | .snop => some 0
  | .vnop => some 0
  | .mnop => some 0
  | .add f => some (wordSR 1#6 0#6 f)
  | .sub f => some (wordSR 1#6 1#6 f)
  | .and f => some (wordSR 1#6 2#6 f)
  | .or f => some (wordSR 1#6 3#6 f)
  | .xor f => some (wordSR 1#6 4#6 f)
  | .shl f => some (wordSR 1#6 5#6 f)
  | .shr f => some (wordSR 1#6 6#6 f)
  | .sra f => some (wordSR 1#6 7#6 f)
  | .min f => some (wordSR 1#6 8#6 f)
  | .max f => some (wordSR 1#6 9#6 f)
  | .minu f => some (wordSR 1#6 10#6 f)
  | .maxu f => some (wordSR 1#6 11#6 f)
  | .rotl f => some (wordSR 1#6 12#6 f)
  | .mul f => some (wordSR 11#6 0#6 f)
  | .mulhs f => some (wordSR 11#6 1#6 f)
  | .mulhu f => some (wordSR 11#6 2#6 f)
  | .divs f => some (wordSR 12#6 0#6 f)
  | .divu f => some (wordSR 12#6 1#6 f)
  | .rems f => some (wordSR 12#6 2#6 f)
  | .remu f => some (wordSR 12#6 3#6 f)
  | .sfadd f => some (wordSR 24#6 0#6 f)
  | .sfsub f => some (wordSR 24#6 1#6 f)
  | .sfmul f => some (wordSR 24#6 2#6 f)
  | .sfmin f => some (wordSR 24#6 3#6 f)
  | .sfmax f => some (wordSR 24#6 4#6 f)
  | .clz f => some (wordS1 13#6 0#6 f)
  | .ctz f => some (wordS1 13#6 1#6 f)
  | .popc f => some (wordS1 13#6 2#6 f)
  | .sextb f => some (wordS1 13#6 3#6 f)
  | .sexth f => some (wordS1 13#6 4#6 f)
  | .sextw f => some (wordS1 13#6 5#6 f)
  | .zextb f => some (wordS1 13#6 6#6 f)
  | .zexth f => some (wordS1 13#6 7#6 f)
  | .zextw f => some (wordS1 13#6 8#6 f)
  | .sfcvtif f => some (wordS1 24#6 5#6 f)
  | .sfcvtfi f => some (wordS1 24#6 6#6 f)
  | .addi f => some (wordSI 2#6 f)
  | .andi f => some (wordSI 3#6 f)
  | .ori f => some (wordSI 4#6 f)
  | .xori f => some (wordSI 5#6 f)
  | .shli f => some (wordSI 6#6 f)
  | .shri f => some (wordSI 7#6 f)
  | .srai f => some (wordSI 8#6 f)
  | .movhi f => some (wordSI 10#6 f)
  | .movi f => some (wordMovi f)
  | .sel f => some (wordSel f)
  | .cmp f => some (wordCmp f)
  | .cmpi f => some (wordCmpi f)
  | .pand f => some (wordPlog 0#4 f)
  | .por f => some (wordPlog 1#4 f)
  | .pxor f => some (wordPlog 2#4 f)
  | .pandn f => some (wordPlog 3#4 f)
  | .movp f => some (wordMovp f)
  | .movps f => some (wordMovps f)
  | .movsr f => some (wordMovsr f)
  | .chke f => some (wordChke f)
  | .fpstatWrite f => some (wordMovrs 16#32 f)
  | .cirWrite f => some (wordMovrs 17#32 f)
  | .febudgetWrite f => some (wordMovrs 18#32 f)
  | .defprofileWrite f => some (wordMovrs 26#32 f)
  | .movrs f n => some (wordMovrs n f)
  | .argWrite f n => some (wordMovrs (0x14#32 + n.setWidth 32) f)
  | .qposWrite f n => some (wordMovrs (0x20#32 + n.setWidth 32) f)
  | .fadd f => some (wordV 1#6 f)
  | .fsub f => some (wordV 2#6 f)
  | .fmul f => some (wordV 3#6 f)
  | .ffma f => some (wordV 4#6 f)
  | .ffms f => some (wordV 5#6 f)
  | .fnma f => some (wordV 6#6 f)
  | .fmin f => some (wordV 7#6 f)
  | .fmax f => some (wordV 8#6 f)
  | .fabs f => some (wordV 9#6 f)
  | .fneg f => some (wordV 10#6 f)
  | .fcmp f => some (wordV 11#6 f)
  | .fcvti f => some (wordV 12#6 f)
  | .icvtf f => some (wordV 13#6 f)
  | .bfpk f => some (wordV 14#6 f)
  | .bfup f => some (wordV 15#6 f)
  | .iadd f => some (wordV 16#6 f)
  | .isub f => some (wordV 17#6 f)
  | .imul f => some (wordV 18#6 f)
  | .imulh f => some (wordV 19#6 f)
  | .iand f => some (wordV 20#6 f)
  | .ior f => some (wordV 21#6 f)
  | .ixor f => some (wordV 22#6 f)
  | .ishl f => some (wordV 23#6 f)
  | .ishr f => some (wordV 24#6 f)
  | .isra f => some (wordV 25#6 f)
  | .imin f => some (wordV 26#6 f)
  | .imax f => some (wordV 27#6 f)
  | .iminu f => some (wordV 28#6 f)
  | .imaxu f => some (wordV 29#6 f)
  | .icmp f => some (wordV 30#6 f)
  | .vsel f => some (wordV 32#6 f)
  | .vmov f => some (wordV 33#6 f)
  | .vbcst f => some (wordV 34#6 f)
  | .vperm f => some (wordV 35#6 f)
  | .vrot f => some (wordV 36#6 f)
  | .viota f => some (wordV 37#6 f)
  | .vext f => some (wordV 38#6 f)
  | .vins f => some (wordV 39#6 f)
  | .frsum f => some (wordV 40#6 f)
  | .frmax f => some (wordV 41#6 f)
  | .frmin f => some (wordV 42#6 f)
  | .irsum f => some (wordV 43#6 f)
  | .irmax f => some (wordV 44#6 f)
  | .irmin f => some (wordV 45#6 f)
  | .kand f => some (wordV 48#6 f)
  | .kor f => some (wordV 48#6 f)
  | .kxor f => some (wordV 48#6 f)
  | .kandn f => some (wordV 48#6 f)
  | .kpopc f => some (wordV 49#6 f)
  | .kfromv f => some (wordV 50#6 f)
  | .hrd f => some (wordSMem 3#6 f)
  | .ldB f => some (wordSMem 4#6 f)
  | .ldH f => some (wordSMem 5#6 f)
  | .ldW f => some (wordSMem 6#6 f)
  | .ldD f => some (wordSMem 7#6 f)
  | .ldSb f => some (wordSMem 8#6 f)
  | .ldSh f => some (wordSMem 9#6 f)
  | .ldSw f => some (wordSMem 10#6 f)
  | .stB f => some (wordSMem 11#6 f)
  | .stH f => some (wordSMem 12#6 f)
  | .stW f => some (wordSMem 13#6 f)
  | .stD f => some (wordSMem 14#6 f)
  | .ldwaitD f => some (wordSMem 16#6 f)
  | .ldtakeD f => some (wordSMem 17#6 f)
  | .stfillD f => some (wordSMem 18#6 f)
  | .feset f => some (wordSMem 19#6 f)
  | .feget f => some (wordSMem 20#6 f)
  | .pref f => some (wordSMem 63#6 f)
  | .vldW f => some (wordVMem 24#6 f)
  | .vstW f => some (wordVMem 25#6 f)
  | .vldH f => some (wordVMem 26#6 f)
  | .vstH f => some (wordVMem 27#6 f)
  | .spldW f => some (wordSps 32#6 f)
  | .spldD f => some (wordSps 33#6 f)
  | .spstW f => some (wordSps 34#6 f)
  | .spstD f => some (wordSps 35#6 f)
  | .sptakeD f => some (wordSps 42#6 f)
  | .spfillD f => some (wordSps 43#6 f)
  | .vspld f => some (wordSpv 36#6 f)
  | .vspst f => some (wordSpv 37#6 f)
  | .vspg f => some (wordGather 38#6 f)
  | .vsps f => some (wordGather 39#6 f)
  | .lpld f => some (wordGather 40#6 f)
  | .lpst f => some (wordGather 41#6 f)
  | .aadd f => some (wordAtom 48#6 f)
  | .amin f => some (wordAtom 49#6 f)
  | .amax f => some (wordAtom 50#6 f)
  | .aminu f => some (wordAtom 51#6 f)
  | .amaxu f => some (wordAtom 52#6 f)
  | .aand f => some (wordAtom 53#6 f)
  | .aor f => some (wordAtom 54#6 f)
  | .axor f => some (wordAtom 55#6 f)
  | .aswp f => some (wordAtom 56#6 f)
  | .acas f => some (wordAtom 57#6 f)
  | .cwait f => some (wordAtom 59#6 f)
  | .crd f => some (wordAtom 60#6 f)
  | .trans f => some (wordTrans f)
  | .hinv f => some (wordHinv f)
  | .cadd f => some (wordCadd f)
  | .fence f => some (wordFence 0 f)
  | .fenceSt f => some (wordFence 1 f)
  | .fenceLd f => some (wordFence 2 f)
  | .setq f => some (wordSetq f)
  | .routineNop f => some (wordR 0 f)
  | .oclaim f => some (wordR 16#12 f)
  | .ofree f => some (wordR 17#12 f)
  | .olda f => some (wordR 18#12 f)
  | .oldb f => some (wordR 19#12 f)
  | .aclaim f => some (wordR 20#12 f)
  | .afree f => some (wordR 21#12 f)
  | .azero f => some (wordR 22#12 f)
  | .mma f => some (wordR 23#12 f)
  | .anorm f => some (wordR 24#12 f)
  | .asto f => some (wordR 25#12 f)
  | .arow f => some (wordR 26#12 f)
  | .exp2 f => some (wordR 64#12 f)
  | .expe f => some (wordR 65#12 f)
  | .log2 f => some (wordR 66#12 f)
  | .loge f => some (wordR 67#12 f)
  | .rcp f => some (wordR 68#12 f)
  | .rsqrt f => some (wordR 69#12 f)
  | .sqrt f => some (wordR 70#12 f)
  | .tanh f => some (wordR 71#12 f)
  | .sigm f => some (wordR 72#12 f)
  | .silu f => some (wordR 73#12 f)
  | .gelu f => some (wordR 74#12 f)
  | .divf f => some (wordR 75#12 f)
  | .rmax f => some (wordR 80#12 f)
  | .rsum f => some (wordR 81#12 f)
  | .smxupd f => some (wordR 82#12 f)
  | .smxfin f => some (wordR 83#12 f)
  | .rmsn f => some (wordR 84#12 f)
  | .lnrm f => some (wordR 85#12 f)
  | .bfpq f => some (wordR 96#12 f)
  | .bdot4 f => some (wordR 97#12 f)
  | .tlsc2 f => some (wordR 98#12 f)
  | .cpy f => some (wordR 128#12 f)
  | .cpyred f => some (wordR 129#12 f)
  | .tstload f => some (wordR 130#12 f)
  | .btswap f => some (wordR 131#12 f)
  | .btfence f => some (wordR 132#12 f)
  | .cbreg f => some (wordR 160#12 f)
  | .cbput f => some (wordR 161#12 f)
  | .cbstat f => some (wordR 162#12 f)
  | .jexp f => some (wordR 176#12 f)
  | .jdone f => some (wordR 177#12 f)
  | .ringadv f => some (wordR 192#12 f)
  | .routineSlot rn f => some (wordR rn f)
  | _ => none

/-- COP, COPND and CG of a control operation (Table 3.2). -/
def controlFields : Instr → Option (BitVec 6 × BitVec 34 × BitVec 4)
  | .ctrlNop cg => some (0, 0, cg)
  | .br cg off => some (0x01, off, cg)
  | .brr cg sa => some (0x02, sa ++ 0#28, cg)
  | .call cg off => some (0x03, off, cg)
  | .callr cg sa => some (0x04, sa ++ 0#28, cg)
  | .ret cg => some (0x05, 0, cg)
  | .loopt cg l e => some (0x06, l ++ 0#15 ++ e, cg)
  | .loopn cg l (.imm n) e => some (0x07, l ++ 1#1 ++ n ++ e, cg)
  | .loopn cg l (.reg sc) e => some (0x07, l ++ 0#1 ++ 0#8 ++ sc ++ e, cg)
  | .lexit cg l => some (0x08, l ++ 0#31, cg)
  | .trap cg code => some (0x09, 0#18 ++ code, cg)
  | .yield cg => some (0x0A, 0, cg)
  | .waite cg m => some (0x0B, 0#26 ++ m, cg)
  | .eret cg => some (0x20, 0, cg)
  | .resume cg sa => some (0x21, sa ++ 0#28, cg)
  | _ => none

/-- The header word (Table 3.1). -/
def headerWord (h : Hdr) (cop : BitVec 6) (nd : BitVec 34) (cg : BitVec 4) : BitVec 64 :=
  cop ++ nd ++ h.hint ++ cg ++ h.np ++ h.scope ++ BitVec.ofBool h.d ++ BitVec.ofBool h.e ++ h.pres

/-- The header fields of a header word. -/
def headerFields (w : BitVec 64) : Hdr :=
  ⟨bits w 20 4, bits w 10 6, bits w 7 3, w.getLsbD 6, w.getLsbD 5, bits w 0 5⟩

/-! ### Operations from words -/

/-- The control operation that a header word names, by COP (R53); none for a reserved COP. Its unused bits are checked
against `controlFields` afterwards. -/
def readControl (w : BitVec 64) : Option Instr :=
  let nd := bits w 24 34
  let cg := bits w 16 4
  match (bits w 58 6).toNat with
  | 0x00 => some (.ctrlNop cg)
  | 0x01 => some (.br cg nd)
  | 0x02 => some (.brr cg (nd.extractLsb' 28 6))
  | 0x03 => some (.call cg nd)
  | 0x04 => some (.callr cg (nd.extractLsb' 28 6))
  | 0x05 => some (.ret cg)
  | 0x06 => some (.loopt cg (nd.extractLsb' 31 3) (nd.extractLsb' 0 16))
  | 0x07 =>
    some (.loopn cg (nd.extractLsb' 31 3)
      (if nd.getLsbD 30 then .imm (nd.extractLsb' 16 14) else .reg (nd.extractLsb' 16 6)) (nd.extractLsb' 0 16))
  | 0x08 => some (.lexit cg (nd.extractLsb' 31 3))
  | 0x09 => some (.trap cg (nd.extractLsb' 0 16))
  | 0x0A => some (.yield cg)
  | 0x0B => some (.waite cg (nd.extractLsb' 0 8))
  | 0x20 => some (.eret cg)
  | 0x21 => some (.resume cg (nd.extractLsb' 28 6))
  | _ => none

/-- MOVRS by the special register number in IMM32 (R64). -/
def readMovrs (num : BitVec 32) (f : MovrsForm) : Instr :=
  match num.toNat with
  | 0x10 => .fpstatWrite f
  | 0x11 => .cirWrite f
  | 0x12 => .febudgetWrite f
  | 0x1A => .defprofileWrite f
  | n =>
    if 0x14 ≤ n ∧ n ≤ 0x17 then .argWrite f (num.setWidth 2)
    else if 0x20 ≤ n ∧ n ≤ 0x2F then .qposWrite f (num.setWidth 4)
    else .movrs f num

/-- The S operation that a word names, by OP and FN (Table 3.6). -/
def readScalar (w : BitVec 64) : Option Instr :=
  let fn := (bits w 26 6).toNat
  match (bits w 58 6).toNat with
  | 0x00 => some .snop
  | 1 =>
    match fn with
    | 0 => some (.add (fieldsSR w))
    | 1 => some (.sub (fieldsSR w))
    | 2 => some (.and (fieldsSR w))
    | 3 => some (.or (fieldsSR w))
    | 4 => some (.xor (fieldsSR w))
    | 5 => some (.shl (fieldsSR w))
    | 6 => some (.shr (fieldsSR w))
    | 7 => some (.sra (fieldsSR w))
    | 8 => some (.min (fieldsSR w))
    | 9 => some (.max (fieldsSR w))
    | 10 => some (.minu (fieldsSR w))
    | 11 => some (.maxu (fieldsSR w))
    | 12 => some (.rotl (fieldsSR w))
    | _ => none
  | 2 => some (.addi (fieldsSI w))
  | 3 => some (.andi (fieldsSI w))
  | 4 => some (.ori (fieldsSI w))
  | 5 => some (.xori (fieldsSI w))
  | 6 => some (.shli (fieldsSI w))
  | 7 => some (.shri (fieldsSI w))
  | 8 => some (.srai (fieldsSI w))
  | 9 => some (.movi (fieldsMovi w))
  | 10 => some (.movhi (fieldsSI w))
  | 11 =>
    match fn with
    | 0 => some (.mul (fieldsSR w))
    | 1 => some (.mulhs (fieldsSR w))
    | 2 => some (.mulhu (fieldsSR w))
    | _ => none
  | 12 =>
    match fn with
    | 0 => some (.divs (fieldsSR w))
    | 1 => some (.divu (fieldsSR w))
    | 2 => some (.rems (fieldsSR w))
    | 3 => some (.remu (fieldsSR w))
    | _ => none
  | 13 =>
    match fn with
    | 0 => some (.clz (fieldsS1 w))
    | 1 => some (.ctz (fieldsS1 w))
    | 2 => some (.popc (fieldsS1 w))
    | 3 => some (.sextb (fieldsS1 w))
    | 4 => some (.sexth (fieldsS1 w))
    | 5 => some (.sextw (fieldsS1 w))
    | 6 => some (.zextb (fieldsS1 w))
    | 7 => some (.zexth (fieldsS1 w))
    | 8 => some (.zextw (fieldsS1 w))
    | _ => none
  | 14 => some (.sel (fieldsSel w))
  | 15 => some (.cmp (fieldsCmp w))
  | 16 => some (.cmpi (fieldsCmpi w))
  | 17 =>
    match (bits w 24 4).toNat with
    | 0 => some (.pand (fieldsPlog w))
    | 1 => some (.por (fieldsPlog w))
    | 2 => some (.pxor (fieldsPlog w))
    | 3 => some (.pandn (fieldsPlog w))
    | _ => none
  | 18 => some (.movsr (fieldsMovsr w))
  | 19 => some (readMovrs (bits w 6 32) (fieldsMovrs w))
  | 20 => some (.movp (fieldsMovp w))
  | 21 => some (.movps (fieldsMovps w))
  | 22 => some (.chke (fieldsChke w))
  | 24 =>
    match fn with
    | 0 => some (.sfadd (fieldsSR w))
    | 1 => some (.sfsub (fieldsSR w))
    | 2 => some (.sfmul (fieldsSR w))
    | 3 => some (.sfmin (fieldsSR w))
    | 4 => some (.sfmax (fieldsSR w))
    | 5 => some (.sfcvtif (fieldsS1 w))
    | 6 => some (.sfcvtfi (fieldsS1 w))
    | _ => none
  | _ => none

/-- The V operation that a word names, by OP (Table 3.9); KLOG takes its operation from VC bits 1..0 (R180). -/
def readVector (w : BitVec 64) : Option Instr :=
  let f := fieldsV w
  match (bits w 58 6).toNat with
  | 0 => some .vnop
  | 1 => some (.fadd f)
  | 2 => some (.fsub f)
  | 3 => some (.fmul f)
  | 4 => some (.ffma f)
  | 5 => some (.ffms f)
  | 6 => some (.fnma f)
  | 7 => some (.fmin f)
  | 8 => some (.fmax f)
  | 9 => some (.fabs f)
  | 10 => some (.fneg f)
  | 11 => some (.fcmp f)
  | 12 => some (.fcvti f)
  | 13 => some (.icvtf f)
  | 14 => some (.bfpk f)
  | 15 => some (.bfup f)
  | 16 => some (.iadd f)
  | 17 => some (.isub f)
  | 18 => some (.imul f)
  | 19 => some (.imulh f)
  | 20 => some (.iand f)
  | 21 => some (.ior f)
  | 22 => some (.ixor f)
  | 23 => some (.ishl f)
  | 24 => some (.ishr f)
  | 25 => some (.isra f)
  | 26 => some (.imin f)
  | 27 => some (.imax f)
  | 28 => some (.iminu f)
  | 29 => some (.imaxu f)
  | 30 => some (.icmp f)
  | 32 => some (.vsel f)
  | 33 => some (.vmov f)
  | 34 => some (.vbcst f)
  | 35 => some (.vperm f)
  | 36 => some (.vrot f)
  | 37 => some (.viota f)
  | 38 => some (.vext f)
  | 39 => some (.vins f)
  | 40 => some (.frsum f)
  | 41 => some (.frmax f)
  | 42 => some (.frmin f)
  | 43 => some (.irsum f)
  | 44 => some (.irmax f)
  | 45 => some (.irmin f)
  | 49 => some (.kpopc f)
  | 50 => some (.kfromv f)
  | 0x30 =>
    match (bits w 0 2).toNat with
    | 0 => some (.kand f)
    | 1 => some (.kor f)
    | 2 => some (.kxor f)
    | _ => some (.kandn f)
  | _ => none

/-- The M operation that a word names, by OP (Table 3.11). -/
def readMemory (w : BitVec 64) : Except DecodeError Instr :=
  match (bits w 58 6).toNat with
  | 0 => .ok .mnop
  | 1 => .ok (.trans (fieldsTrans w))
  | 2 => .ok (.hinv (fieldsHinv w))
  | 3 => .ok (.hrd (fieldsSMem w))
  | 4 => .ok (.ldB (fieldsSMem w))
  | 5 => .ok (.ldH (fieldsSMem w))
  | 6 => .ok (.ldW (fieldsSMem w))
  | 7 => .ok (.ldD (fieldsSMem w))
  | 8 => .ok (.ldSb (fieldsSMem w))
  | 9 => .ok (.ldSh (fieldsSMem w))
  | 10 => .ok (.ldSw (fieldsSMem w))
  | 11 => .ok (.stB (fieldsSMem w))
  | 12 => .ok (.stH (fieldsSMem w))
  | 13 => .ok (.stW (fieldsSMem w))
  | 14 => .ok (.stD (fieldsSMem w))
  | 16 => .ok (.ldwaitD (fieldsSMem w))
  | 17 => .ok (.ldtakeD (fieldsSMem w))
  | 18 => .ok (.stfillD (fieldsSMem w))
  | 19 => .ok (.feset (fieldsSMem w))
  | 20 => .ok (.feget (fieldsSMem w))
  | 24 => .ok (.vldW (fieldsVMem w))
  | 25 => .ok (.vstW (fieldsVMem w))
  | 26 => .ok (.vldH (fieldsVMem w))
  | 27 => .ok (.vstH (fieldsVMem w))
  | 32 => .ok (.spldW (fieldsSps w))
  | 33 => .ok (.spldD (fieldsSps w))
  | 34 => .ok (.spstW (fieldsSps w))
  | 35 => .ok (.spstD (fieldsSps w))
  | 36 => .ok (.vspld (fieldsSpv w))
  | 37 => .ok (.vspst (fieldsSpv w))
  | 38 => .ok (.vspg (fieldsGather w))
  | 39 => .ok (.vsps (fieldsGather w))
  | 40 => .ok (.lpld (fieldsGather w))
  | 41 => .ok (.lpst (fieldsGather w))
  | 42 => .ok (.sptakeD (fieldsSps w))
  | 43 => .ok (.spfillD (fieldsSps w))
  | 48 => .ok (.aadd (fieldsAtom w))
  | 49 => .ok (.amin (fieldsAtom w))
  | 50 => .ok (.amax (fieldsAtom w))
  | 51 => .ok (.aminu (fieldsAtom w))
  | 52 => .ok (.amaxu (fieldsAtom w))
  | 53 => .ok (.aand (fieldsAtom w))
  | 54 => .ok (.aor (fieldsAtom w))
  | 55 => .ok (.axor (fieldsAtom w))
  | 56 => .ok (.aswp (fieldsAtom w))
  | 57 => .ok (.acas (fieldsAtom w))
  | 58 => .ok (.cadd (fieldsCadd w))
  | 59 => .ok (.cwait (fieldsAtom w))
  | 60 => .ok (.crd (fieldsAtom w))
  | 62 => .ok (.setq (fieldsSetq w))
  | 63 => .ok (.pref (fieldsSMem w))
  | 0x3D =>
    match (bits w 28 2).toNat with
    | 0 => .ok (.fence (fieldsFence w))
    | 1 => .ok (.fenceSt (fieldsFence w))
    | 2 => .ok (.fenceLd (fieldsFence w))
    | _ => .error .illegalField
  | _ => .error .illegalOp

/-- The routine that a word names, by RN (Table 3.12); an unassigned standard number is ROUTINE_UNBOUND (R23). -/
def readRoutine (w : BitVec 64) : Except DecodeError Instr :=
  let f := fieldsR w
  match (bits w 52 12).toNat with
  | 0 => .ok (.routineNop f)
  | 16 => .ok (.oclaim f)
  | 17 => .ok (.ofree f)
  | 18 => .ok (.olda f)
  | 19 => .ok (.oldb f)
  | 20 => .ok (.aclaim f)
  | 21 => .ok (.afree f)
  | 22 => .ok (.azero f)
  | 23 => .ok (.mma f)
  | 24 => .ok (.anorm f)
  | 25 => .ok (.asto f)
  | 26 => .ok (.arow f)
  | 64 => .ok (.exp2 f)
  | 65 => .ok (.expe f)
  | 66 => .ok (.log2 f)
  | 67 => .ok (.loge f)
  | 68 => .ok (.rcp f)
  | 69 => .ok (.rsqrt f)
  | 70 => .ok (.sqrt f)
  | 71 => .ok (.tanh f)
  | 72 => .ok (.sigm f)
  | 73 => .ok (.silu f)
  | 74 => .ok (.gelu f)
  | 75 => .ok (.divf f)
  | 80 => .ok (.rmax f)
  | 81 => .ok (.rsum f)
  | 82 => .ok (.smxupd f)
  | 83 => .ok (.smxfin f)
  | 84 => .ok (.rmsn f)
  | 85 => .ok (.lnrm f)
  | 96 => .ok (.bfpq f)
  | 97 => .ok (.bdot4 f)
  | 98 => .ok (.tlsc2 f)
  | 128 => .ok (.cpy f)
  | 129 => .ok (.cpyred f)
  | 130 => .ok (.tstload f)
  | 131 => .ok (.btswap f)
  | 132 => .ok (.btfence f)
  | 160 => .ok (.cbreg f)
  | 161 => .ok (.cbput f)
  | 162 => .ok (.cbstat f)
  | 176 => .ok (.jexp f)
  | 177 => .ok (.jdone f)
  | 192 => .ok (.ringadv f)
  | n => if 0x400 ≤ n then .ok (.routineSlot (bits w 52 12) f) else .error .routineUnbound

/-- Reject an operation whose word has other bits than the operation gives it, or whose fields break their limits. -/
def checkSlot (w : BitVec 64) (i : Instr) : Except DecodeError Instr :=
  if slotWord i = some w ∧ i.fieldsOk = true then .ok i else .error .illegalField

/-- The S slot's operation (R62..R64). -/
def decodeScalar (w : BitVec 64) : Except DecodeError Instr :=
  match readScalar w with
  | none => .error .illegalOp
  | some i => checkSlot w i

/-- The V slot's operation (R65, R66). -/
def decodeVector (w : BitVec 64) : Except DecodeError Instr :=
  match readVector w with
  | none => .error .illegalOp
  | some i => checkSlot w i

/-- The M slot's operation (R67, R68). -/
def decodeMemory (w : BitVec 64) : Except DecodeError Instr :=
  match readMemory w with
  | .error e => .error e
  | .ok i => checkSlot w i

/-- A routine slot's operation (R69); its fields are checked by the routine (R70, R392). -/
def decodeRoutine (w : BitVec 64) : Except DecodeError Instr := readRoutine w

/-- What the header check found: a reserved COP, or the header with the first failure among COPND, SCOPE and NP. -/
def decodeHeader (w : BitVec 64) : Except DecodeError (Hdr × Instr) :=
  let h := headerFields w
  match readControl w with
  | none => .error .illegalOp
  | some c =>
    if h.scope.toNat = 7 ∨ controlFields c ≠ some (bits w 58 6, bits w 24 34, bits w 16 4) ∨
        c.controlOk h.words = false then .error .illegalField
    else if 4 ≤ h.np.toNat then .error .profileUnknown
    else .ok (h, c)

/-- Where an encoding check failed (R70): the slot (0 header, 1 S .. 5 RB), the error, and what was decoded before it. -/
structure DecodeFailure where
  slot : Nat
  error : DecodeError
  header : Option (Hdr × Instr)
  earlier : List Instr
  deriving DecidableEq, Repr

/-- The decoders of the five slots, in the order S, V, M, RA, RB. -/
def decodeSlot (k : Nat) (w : BitVec 64) : Except DecodeError Instr :=
  match k with
  | 0 => decodeScalar w
  | 1 => decodeVector w
  | 2 => decodeMemory w
  | _ => decodeRoutine w

/-- The no-op of a slot (R50). -/
def slotNop (k : Nat) : Instr :=
  match k with
  | 0 => .snop
  | 1 => .vnop
  | 2 => .mnop
  | _ => noRoutine

/-- Decode the slots named in `ks` from the words that follow the header. -/
def decodeSlots (hd : Hdr × Instr) : List Nat → List (BitVec 64) → List Instr → Except DecodeFailure (List Instr)
  | [], _, acc => .ok acc.reverse
  | k :: ks, ws, acc =>
    if hd.1.pres.getLsbD k then
      match ws with
      | [] => .error ⟨k + 1, .short, some hd, acc.reverse⟩
      | w :: ws' =>
        match decodeSlot k w with
        | .error e => .error ⟨k + 1, e, some hd, acc.reverse⟩
        | .ok i => decodeSlots hd ks ws' (i :: acc)
    else decodeSlots hd ks ws (slotNop k :: acc)

/-- The Instr of a header and five slots: the one operation's own constructor when the bundle holds only it under a
plain header, else `bundleIssue` (log 1). -/
def assemble (h : Hdr) (c s v m ra rb : Instr) : Instr :=
  if isSingle h c then
    if h.pres = 0 then c else if h.pres = 1 then s else if h.pres = 2 then v else if h.pres = 4 then m else ra
  else .bundleIssue h c s v m ra rb

/-- Decode the words of one bundle (R50, R70); the words beyond the bundle are not read. -/
def decodeWords : List (BitVec 64) → Except DecodeFailure Instr
  | [] => .error ⟨0, .short, none, []⟩
  | hw :: ws =>
    match decodeHeader hw with
    | .error e => .error ⟨0, e, none, []⟩
    | .ok hd =>
      match decodeSlots hd [0, 1, 2, 3, 4] ws [] with
      | .error e => .error e
      | .ok [s, v, m, ra, rb] => .ok (assemble hd.1 hd.2 s v m ra rb)
      | .ok _ => .error ⟨0, .short, none, []⟩

/-! ### The encoder -/

/-- The words of a slot that may be absent. -/
def slotWords (present : Bool) (i : Instr) : List (BitVec 64) :=
  if present then (slotWord i).toList else []

/-- The words of an instruction; none for what no bundle encodes. -/
def encode (i : Instr) : List (BitVec 64) :=
  match i with
  | .bundleIssue h c s v m ra rb =>
    match controlFields c with
    | some (cop, nd, cg) =>
      headerWord h cop nd cg :: (slotWords (h.pres.getLsbD 0) s ++ slotWords (h.pres.getLsbD 1) v ++
        slotWords (h.pres.getLsbD 2) m ++ slotWords (h.pres.getLsbD 3) ra ++ slotWords (h.pres.getLsbD 4) rb)
    | none => []
  | i =>
    match i.kind with
    | .control => (controlFields i).toList.map fun (cop, nd, cg) => headerWord (plainHdr 0) cop nd cg
    | .scalar => headerWord (plainHdr 1) 0 0 0 :: (slotWord i).toList
    | .vector => headerWord (plainHdr 2) 0 0 0 :: (slotWord i).toList
    | .memory => headerWord (plainHdr 4) 0 0 0 :: (slotWord i).toList
    | .routine => headerWord (plainHdr 8) 0 0 0 :: (slotWord i).toList
    | _ => []

/-- The words a number holds, low word first: the word of bits 63..0, then 127..64, and so on. -/
def wordsOfNat (n w : Nat) : List (BitVec 64) :=
  (List.range n).map fun k => BitVec.ofNat 64 (w >>> (64 * k))

/-- The longest bundle has six words (R50). -/
def maxWords : Nat := 6

/-- The instruction this decoder reads from an instruction whose bits, numbered as the opcode table numbers them, are
`w`; every bit at or above `nbits` is 0. -/
def decodeTableWord (nbits w : Nat) : Option Instr :=
  match decodeWords (wordsOfNat maxWords (w % 2 ^ nbits)) with
  | .ok i => some i
  | .error _ => none

end Sys2Proof
end

