-- ==== Sys2Proof/Machine/Flags.lean ====
section
/-! DEFINITION. FP32 and BF16 values, rounding in the four directions, and the flags of FPSTAT (R115..R118, R170..R174).
Values are computed exactly as an integer times a power of two and rounded once. -/

namespace Sys2Proof.Machine

/-- FPSTAT bits (Table 6.1). -/
abbrev FFlags := BitVec 4

def flagINV : FFlags := 1
def flagOVF : FFlags := 2
def flagUFL : FFlags := 4
def flagINX : FFlags := 8

/-- Rounding directions (Table 3.8). -/
inductive RMode where
  | rne | rz | rd | ru
  deriving DecidableEq, Repr

/-- The direction an RM field selects (Table 3.8, R164). -/
def RMode.ofBits (b : BitVec 2) : RMode :=
  match b.toNat with
  | 0 => .rne
  | 1 => .rz
  | 2 => .rd
  | _ => .ru

/-- A floating-point value: NaN, a signed infinity, or (−1)^neg · m · 2^e with signed zeros kept. -/
inductive FVal where
  | nan
  | inf (neg : Bool)
  | fin (neg : Bool) (m : Nat) (e : Int)
  deriving DecidableEq, Repr

def canonNaN : W32 := 0x7FC00000

/-- The value of an FP32 pattern (R115). -/
def fp32 (w : W32) : FVal :=
  let neg := w.getLsbD 31
  let ex := (w.extractLsb' 23 8).toNat
  let fr := (w.extractLsb' 0 23).toNat
  if ex = 255 then (if fr = 0 then .inf neg else .nan)
  else if ex = 0 then .fin neg fr (-149)
  else .fin neg (fr + 2 ^ 23) ((ex : Int) - 150)

def isNaN32 (w : W32) : Bool := fp32 w == .nan

/-- How a magnitude `m·2^e` cut at quantum `2^q` rounds: the integer multiple of the quantum, and whether it is exact. -/
def cutRound (rm : RMode) (neg : Bool) (m : Nat) (e q : Int) : Nat × Bool :=
  if q ≤ e then (m <<< (e - q).toNat, true)
  else
    let sh := (q - e).toNat
    let t := m >>> sh
    let rem := m % 2 ^ sh
    let half := 2 ^ (sh - 1)
    let up := match rm with
      | .rne => decide (half < rem) || (rem == half && t % 2 == 1)
      | .rz => false
      | .rd => neg && rem != 0
      | .ru => !neg && rem != 0
    (if up then t + 1 else t, rem == 0)

/-- The overflow result of a format with `p` bits of precision: infinity or the largest finite pattern (R116). -/
def overflowMag (rm : RMode) (neg : Bool) (p : Nat) : Nat :=
  let inf := 255 * 2 ^ (p - 1)
  match rm with
  | .rne => inf
  | .rz => inf - 1
  | .rd => if neg then inf else inf - 1
  | .ru => if neg then inf - 1 else inf

/-- Round the exact magnitude `m·2^e` to a format with 8 exponent bits and `p` bits of precision (24 for FP32, 8 for
BF16): the pattern without its sign, and the flags. Tininess is judged after rounding (Table 6.1). -/
def roundMag (rm : RMode) (neg : Bool) (p : Nat) (m : Nat) (e : Int) : Nat × FFlags :=
  if m = 0 then (0, 0)
  else
    let top := e + (Nat.log2 m : Int)
    let qmin : Int := -126 - ((p : Int) - 1)
    let q0 := top - ((p : Int) - 1)
    let q := if q0 < qmin then qmin else q0
    let (t, exact) := cutRound rm neg m e q
    let pat := if t < 2 ^ (p - 1) then t else (q - qmin + 1).toNat * 2 ^ (p - 1) + (t - 2 ^ (p - 1))
    if 255 * 2 ^ (p - 1) ≤ pat then (overflowMag rm neg p, flagOVF ||| flagINX)
    else
      let (tu, _) := cutRound rm neg m e q0
      let tiny := decide (top < -127) || (decide (top = -127) && decide (tu < 2 ^ p))
      (pat, if exact then 0 else if tiny then flagUFL ||| flagINX else flagINX)

/-- Attach a sign to an FP32 magnitude pattern. -/
def signed32 (neg : Bool) (mag : Nat) : W32 := BitVec.ofNat 32 ((if neg then 2 ^ 31 else 0) + mag)

/-- Attach a sign to a BF16 magnitude pattern. -/
def signed16 (neg : Bool) (mag : Nat) : BitVec 16 := BitVec.ofNat 16 ((if neg then 2 ^ 15 else 0) + mag)

/-- Round a value to FP32; NaN is the canonical NaN (R115). -/
def toFP32 (rm : RMode) : FVal → W32 × FFlags
  | .nan => (canonNaN, 0)
  | .inf n => (signed32 n 0x7F800000, 0)
  | .fin n m e => let (p, f) := roundMag rm n 24 m e; (signed32 n p, f)

/-- Round a value to BF16 (R118). -/
def toBF16 (rm : RMode) : FVal → BitVec 16 × FFlags
  | .nan => (0x7FC0, 0)
  | .inf n => (signed16 n 0x7F80, 0)
  | .fin n m e => let (p, f) := roundMag rm n 8 m e; (signed16 n p, f)

/-- The value of a BF16 pattern (R118). -/
def bf16 (b : BitVec 16) : FVal := fp32 (b ++ 0#16)

/-- The FP32 pattern of a BF16 value; a NaN is the canonical NaN (R118). -/
def bf16ToW32 (b : BitVec 16) : W32 :=
  match bf16 b with
  | .nan => canonNaN
  | _ => b ++ 0#16

/-- A signed dyadic number as a magnitude and a sign. -/
def finOfInt (m : Int) (e : Int) (zeroNeg : Bool) : FVal :=
  if m = 0 then .fin zeroNeg 0 e else .fin (decide (m < 0)) m.natAbs e

def FVal.signedMant : FVal → Int
  | .fin n m _ => if n then -(m : Int) else m
  | _ => 0

/-- The exact sum of two finite values; an exact zero takes IEEE 754's sign under `rm` (R115). -/
def addFin (rm : RMode) (n1 : Bool) (m1 : Nat) (e1 : Int) (n2 : Bool) (m2 : Nat) (e2 : Int) : FVal :=
  let e := if e1 < e2 then e1 else e2
  let a := (FVal.fin n1 m1 e1).signedMant * 2 ^ (e1 - e).toNat
  let b := (FVal.fin n2 m2 e2).signedMant * 2 ^ (e2 - e).toNat
  let z := if m1 = 0 ∧ m2 = 0 ∧ n1 = n2 then n1 else decide (rm = .rd)
  finOfInt (a + b) e z

/-- Exact sum with IEEE 754's special cases: Inf − Inf is invalid (R170). -/
def addV (rm : RMode) (a b : FVal) : FVal × FFlags :=
  match a, b with
  | .nan, _ => (.nan, 0)
  | _, .nan => (.nan, 0)
  | .inf n1, .inf n2 => if n1 = n2 then (.inf n1, 0) else (.nan, flagINV)
  | .inf n, .fin .. => (.inf n, 0)
  | .fin .., .inf n => (.inf n, 0)
  | .fin n1 m1 e1, .fin n2 m2 e2 => (addFin rm n1 m1 e1 n2 m2 e2, 0)

/-- Exact product; 0 × Inf is invalid (R170). -/
def mulV (a b : FVal) : FVal × FFlags :=
  match a, b with
  | .nan, _ => (.nan, 0)
  | _, .nan => (.nan, 0)
  | .inf n1, .inf n2 => (.inf (n1 != n2), 0)
  | .inf n1, .fin n2 m _ => if m = 0 then (.nan, flagINV) else (.inf (n1 != n2), 0)
  | .fin n1 m _, .inf n2 => if m = 0 then (.nan, flagINV) else (.inf (n1 != n2), 0)
  | .fin n1 m1 e1, .fin n2 m2 e2 => (.fin (n1 != n2) (m1 * m2) (e1 + e2), 0)

def FVal.neg : FVal → FVal
  | .nan => .nan
  | .inf n => .inf !n
  | .fin n m e => .fin (!n) m e

/-- Finish an operation: round its exact value once and join the flags. -/
def finish (rm : RMode) (x : FVal × FFlags) : W32 × FFlags :=
  let (w, f) := toFP32 rm x.1
  (w, x.2 ||| f)

def faddOp (rm : RMode) (a b : W32) : W32 × FFlags := finish rm (addV rm (fp32 a) (fp32 b))
def fsubOp (rm : RMode) (a b : W32) : W32 × FFlags := finish rm (addV rm (fp32 a) (fp32 b).neg)
def fmulOp (rm : RMode) (a b : W32) : W32 × FFlags := finish rm (mulV (fp32 a) (fp32 b))

/-- `p + c` for an exact product `p`: one rounding; an invalid product stays invalid whatever `c` is (R170). -/
def fusedV (rm : RMode) (p : FVal × FFlags) (c : FVal) : FVal × FFlags :=
  let (s, f) := addV rm p.1 c
  (s, p.2 ||| (if p.1 == .nan then 0 else f))

def ffmaOp (rm : RMode) (a b c : W32) : W32 × FFlags := finish rm (fusedV rm (mulV (fp32 a) (fp32 b)) (fp32 c))
def ffmsOp (rm : RMode) (a b c : W32) : W32 × FFlags := finish rm (fusedV rm (mulV (fp32 a) (fp32 b)) (fp32 c).neg)
def fnmaOp (rm : RMode) (a b c : W32) : W32 × FFlags :=
  finish rm (fusedV rm (let p := mulV (fp32 a) (fp32 b); (p.1.neg, p.2)) (fp32 c))

/-- A number that orders the non-NaN FP32 patterns, both zeros at 0. -/
def fkey (w : W32) : Int :=
  let mag : Int := (w.extractLsb' 0 31).toNat
  if w.getLsbD 31 then -mag else mag

/-- Smaller of two values, −0.0 below +0.0, any NaN canonical (R171). -/
def fminOp (a b : W32) : W32 :=
  if isNaN32 a || isNaN32 b then canonNaN
  else if fkey a < fkey b then a else if fkey b < fkey a then b else if a.getLsbD 31 then a else b

/-- Larger of two values, −0.0 below +0.0, any NaN canonical (R171). -/
def fmaxOp (a b : W32) : W32 :=
  if isNaN32 a || isNaN32 b then canonNaN
  else if fkey a < fkey b then b else if fkey b < fkey a then a else if a.getLsbD 31 then b else a

/-- The condition of FCMP and its INV flag (Table 8.2). -/
def fcmpOp (cond : Nat) (a b : W32) : Bool × FFlags :=
  let nan := isNaN32 a || isNaN32 b
  let inv := if nan then flagINV else 0
  match cond with
  | 0 => (!nan && fkey a == fkey b, 0)
  | 1 => (nan || fkey a != fkey b, 0)
  | 2 => (!nan && decide (fkey a < fkey b), inv)
  | 3 => (!nan && decide (fkey a ≤ fkey b), inv)
  | 4 => (!nan && decide (fkey b < fkey a), inv)
  | 5 => (!nan && decide (fkey b ≤ fkey a), inv)
  | 6 => (nan, 0)
  | _ => (!nan, 0)

/-- Round a finite value to an integer. -/
def roundInt (rm : RMode) (neg : Bool) (m : Nat) (e : Int) : Int × Bool :=
  let (t, exact) := cutRound rm neg m e 0
  (if neg then -(t : Int) else t, exact)

def satInt (lo hi q : Int) : Int := if q < lo then lo else if hi < q then hi else q

/-- FP32 to int32 (R173, R151): NaN gives 0 with INV, or the most negative value with switch BT-002 on (Table 25.3); out of
range saturates with INV, else INX when inexact. -/
def fcvtiOp (bt : Bool) (rm : RMode) (a : W32) : W32 × FFlags :=
  match fp32 a with
  | .nan => (if bt then 0x80000000 else 0, flagINV)
  | .inf n => (if n then 0x80000000 else 0x7FFFFFFF, flagINV)
  | .fin n m e =>
    let (q, exact) := roundInt rm n m e
    if q < -2 ^ 31 ∨ 2 ^ 31 - 1 < q then (BitVec.ofInt 32 (satInt (-2 ^ 31) (2 ^ 31 - 1) q), flagINV)
    else (BitVec.ofInt 32 q, if exact then 0 else flagINX)

/-- int32 to FP32 (R173). -/
def icvtfOp (rm : RMode) (a : W32) : W32 × FFlags := toFP32 rm (finOfInt a.toInt 0 false)

/-- Pack two FP32 values as BF16 halves (R174). -/
def bfpkOp (rm : RMode) (a b : W32) : W32 × FFlags :=
  let (x, f) := toBF16 rm (fp32 a)
  let (y, g) := toBF16 rm (fp32 b)
  (y ++ x, f ||| g)

/-- Unpack one BF16 half (R174). -/
def bfupOp (hi : Bool) (a : W32) : W32 := bf16ToW32 (if hi then a.extractLsb' 16 16 else a.extractLsb' 0 16)

/-- Pairs of neighbours, one level of the reduction tree (R133). -/
def treeLevel (op : W32 → W32 → W32 × FFlags) : List W32 → List W32 × FFlags
  | a :: b :: r =>
    let (x, f) := op a b
    let (t, g) := treeLevel op r
    (x :: t, f ||| g)
  | l => (l, 0)

/-- `n` levels of the reduction tree. -/
def treeReduce (op : W32 → W32 → W32 × FFlags) : Nat → List W32 → List W32 × FFlags
  | 0, l => (l, 0)
  | n + 1, l =>
    let (t, f) := treeLevel op l
    let (r, g) := treeReduce op n t
    (r, f ||| g)

/-- The reduction of 256 lanes by the fixed tree (R133). -/
def reduce256 (op : W32 → W32 → W32 × FFlags) (l : List W32) : W32 × FFlags :=
  let (r, f) := treeReduce op 8 l
  (r.headD 0, f)

/-- The lanes with the identity in the inactive ones (R133). -/
def withIdentity (act : Mask) (ident : W32) (l : List W32) : List W32 :=
  l.zipIdx.map fun (x, i) => if act.getLsbD i then x else ident

def frsumOp (act : Mask) (l : List W32) : W32 × FFlags := reduce256 (faddOp .rne) (withIdentity act 0 l)

/-- A step of FRMAX and FRMIN: with switch BT-007 on, two zeros of either sign give the first (Table 25.3). -/
def zeroStep (bt : Bool) (op : W32 → W32 → W32) (a b : W32) : W32 :=
  if bt && fp32 a == .fin (a.getLsbD 31) 0 (-149) && fp32 b == .fin (b.getLsbD 31) 0 (-149) then a else op a b

def frmaxOp (bt : Bool) (act : Mask) (l : List W32) : W32 :=
  (reduce256 (fun a b => (zeroStep bt fmaxOp a b, 0)) (withIdentity act 0xFF800000 l)).1
def frminOp (bt : Bool) (act : Mask) (l : List W32) : W32 :=
  (reduce256 (fun a b => (zeroStep bt fminOp a b, 0)) (withIdentity act 0x7F800000 l)).1

end Sys2Proof.Machine
end

