-- ==== Sys2Proof/Config.lean ====
section
/-! DEFINITION. The free values of the model: what the spec leaves undefined (R4), outside R19, or unpublished.
Each is a constant without a body, so nothing can be proved about the value it gives; each is named in a log entry. -/

namespace Sys2Proof.Config

/-- Scalar register `i` of a node at its start, from a plain counter value (R80, R4; log 3). -/
opaque freeS : Nat → Nat → Word
/-- Predicates at the start of a node (R80, R4; log 3). -/
opaque freeP : Nat → BitVec 16
/-- Lane mask `i` at the start of a node (R80, R4; log 3). -/
opaque freeK : Nat → Nat → Mask
/-- Lane `i` of vector register `n` at the start of a node (R80, R4; log 3). -/
opaque freeV : Nat → Nat → Nat → W32
/-- Pool word `w` after a carve-out was set (R98, R4; log 3), or of a spare row (R426). -/
opaque freePool : Nat → Nat → W32
/-- Byte `b` of a freshly claimed operand slot (R228, R4; log 3). -/
opaque freeByte : Nat → Nat → Byte
/-- The words MW, EW, GW of element `e` of a freshly claimed accumulator (R228, R4; log 3). -/
opaque freeAcc : Nat → Nat → W32 × W32 × W32
/-- Which of the allowed values a read inside a latency window returns, per read and lane (R59, R61, R117; log 4). -/
opaque windowPick : Nat → Nat → Nat → Nat
/-- CLOCK of a core, from a plain counter value (Table 7.3: outside R19; log 9). -/
opaque clock : Nat → Nat → Word
/-- Which free token slot a CBREG takes (R271; log 10). -/
opaque slotPick : Nat → Nat
/-- A byte of memory that the spec leaves undefined after a refused load (R331, R4; log 11), or that a save writes (R306;
log 32). -/
opaque freeMem : Nat → Nat → Byte
/-- The order of the F/E attempts of a herd's members on one word (R202; log 12). -/
opaque memberOrder : Nat → Nat → Nat
/-- Body bundles that a run of a routine whose body is not printed commits before it issues bundle `k` after `t` pops or
pushes, by RN, k and t (R43; log 13). -/
opaque bodyBundles : Nat → Nat → Nat → Nat
/-- At which equivalence point a stop request meets a native routine: 0 for its completion, n + 1 for step n, where step 0 is
point 0 (R45; log 30). -/
opaque stopStep : Nat → Nat → Nat
/-- Whether a forced stop that meets a bundle with a native routine waits for the routine (R45; log 30). -/
opaque stopLate : Nat → Bool
/-- The coefficients c0, c1 and c2 of a segment of a table body of profile 3 (R257), by RN and segment (log 14). -/
opaque tableCoeff : Nat → Nat → W32 × W32 × W32
/-- What a table body of profile 3 gives for an operand when its coefficients do not keep the rule's promises, by RN (R257;
log 14). -/
opaque tableFn : Nat → W32 → W32
/-- The published digest of a standard routine whose body is not printed, by RN and profile (R445; log 15). -/
opaque substDigest : Nat → Nat → BitVec 256
/-- The address of the code area of an image, by its handle (R328; log 16). -/
opaque codeBaseOf : Word → Word
/-- The image handle the loader gives the n-th load (R332; log 16). -/
opaque imageHandle : Nat → Word

/-- Where the four accumulators start in a member's block of the save area (R125, R306; log 32). -/
opaque accPlace : Nat
/-- Whether a deep-tier line leaves its home slice at a step, so that every word of it comes back with the line's tag (R114;
log 18). -/
opaque lineEvicted : Nat → Nat → Bool
/-- Whether a staged line stands in the staging area, evicted from L2, after a staged write of its instance (R292; log 19). -/
opaque lineSpills : Nat → Nat → Bool
/-- A byte that a read returns as poison when its request is not sent or not answered, per step and address (R340, R342;
log 20). -/
opaque lostByte : Nat → Nat → Byte

/-- A field of an error record that the spec gives no value for its class (R419; log 20). -/
opaque recordField : Nat → Word
/-- The die that detects a port's errors, by the port (R418; log 20). -/
opaque portDie : Nat → Nat
/-- Which of the elements or rows at a place an uncorrected error strikes, where the place does not say (R420; log 20). -/
opaque struckPart : Nat → Nat
/-- The digests of the ROM and of the substitution table that measured boot extends (R349; log 21). -/
opaque romDigest : BitVec 256
opaque tableDigest : BitVec 256
/-- Whether a firmware image carries a signature that the fused key verifies (R347; log 21). -/
opaque verifies : List Byte → Bool
/-- The point at which a markhor pair stood when it took a trap record (R157; log 48). -/
opaque handlerPoint : Nat → Word
/-- The capacity in bytes that the expander at a memory port reports at reset (R340; log 21). -/
opaque expanderCap : Nat → Nat

end Sys2Proof.Config
end

