-- ==== Sys2Proof/Machine/State.lean ====
section
/-! DEFINITION. The state of the device as plain data: herd-contexts and their members, cores with their pools and tiles,
partitions with their node tables and images, engines, home slices, combine units, the host port and the reliability
logs. INVENTORY.md lists every field with its rule and its reset value. -/

namespace Sys2Proof.Machine

/-! ### Reasons to stop -/

/-- Why a step is refused. -/
inductive Refusal where
  /-- An arm that is not written yet raises it, with the mnemonic. Safe: nothing is concluded of such a step. -/
  | notModelled (mnemonic : String)
  deriving DecidableEq, Repr

/-- Why a step faults. A trap of the device is not a fault: it is a next state (R360). -/
inductive Fault where
  /-- A bundle operation is executed while no herd-context has the turn: only an agenda that gives one as an event from outside
  does so. Safe. -/
  | noContext
  deriving DecidableEq, Repr

/-! ### Trap causes (Tables 20.6, 21.2, 22.2) -/

inductive Cause where
  | illegalOp | illegalField | illegalBundle | privileged | routineUnbound | profileUnknown | regRange
  | linkOverflow | linkEmpty | loopNest
  | xlateS1 | xlateS2 | perm | handleInvalid | offsetRange | misalign | feNotCapable | feBudget | regen
  | blockShared | blockMoving
  | tileState | engineParam | combineParam | jcbClosed
  | userTrap
  deriving DecidableEq, Repr

/-! ### Registers of a member -/

/-- A scalar register with its poison tag (R135). -/
structure SReg where
  val : Word
  tag : Tag
  deriving DecidableEq, Repr

/-- A vector register: 256 lanes and one poison tag (R162). -/
structure VReg where
  lanes : List W32
  tag : Tag
  deriving DecidableEq, Repr

/-- Where a walk ended, for the trap record (Table 21.1): stage, level (7 when there was no walk), the entry and its
address, and the guest-physical address of a stage-2 walk; `regenIdx` is the table index of REGEN. -/
structure WalkInfo where
  stage2 : Bool
  level : Nat
  entry : Word
  entryAddr : Word
  gpa : Word
  regenIdx : Word
  deriving DecidableEq, Repr

/-- A handle register (Table 9.3), with the hidden revoked mark (R381) and the walk that failed. `base` is the page's
physical base when VALID, and the address TRANS presented when FCAUSE is set. -/
structure Handle where
  valid : Bool
  fcause : Option Cause
  vpage : Word
  size : BitVec 2
  r : Bool
  w : Bool
  fe : Bool
  c : Bool
  tier : BitVec 2
  intent : BitVec 2
  base : Word
  revoked : Bool
  walk : WalkInfo
  deriving DecidableEq, Repr

/-- A stream pattern record (Table 10.1). -/
structure StrmRec where
  base : Word
  ext : List (BitVec 32)
  str : List (BitVec 32)
  fmt : BitVec 16
  space : BitVec 8
  flags : BitVec 8
  popn : BitVec 16
  rsv46 : BitVec 16
  itab : Word
  idim : BitVec 8
  ilog2 : BitVec 8
  ifmt : BitVec 16
  rsv60 : BitVec 32
  deriving DecidableEq, Repr

/-- A place that data is read from or written to: a byte of memory by its physical address, or a byte of a core's
scratchpad by its scratchpad address. -/
inductive Loc where
  | mem (pa : Nat)
  | sp (core : Nat) (addr : Nat)
  deriving DecidableEq, Repr

/-- One output element (or block) that a push has handed to the address generator (R215). -/
structure OutElem where
  loc : Loc
  data : List Byte
  tag : Tag
  setFull : Bool
  deriving DecidableEq, Repr

/-- A stream register (R80, R210..R216): record, system bit and scope of its SETQ, position, the value of an F/E word
whose second element is still to be popped, elements read ahead, cached block-table entries, pushed elements that are not
written yet, the position at which the generator met a failure, and the addresses of the entries that it holds no more but
that elements still to be written were placed through (R270). -/
structure Strm where
  recd : Option StrmRec
  sys : Bool
  scope : BitVec 3
  pos : Nat
  held : Option (Nat × Word × Tag)
  ahead : AMap (List Byte × Tag)
  bte : AMap Word
  out : List OutElem
  met : Option Nat
  dropped : List Nat
  deriving DecidableEq, Repr

/-- A register result of a slot. `v` writes the lanes of its mask. -/
inductive Res where
  | s (n : Nat) (val : Word) (tag : Tag)
  | p (n : Nat) (b : Bool)
  | k (n : Nat) (m : Mask)
  | v (n : Nat) (act : Mask) (lanes : List W32) (tag : Tag)
  | h (n : Nat) (h : Handle)
  | qpos (n : Nat) (pos : Nat)
  | none
  deriving DecidableEq, Repr

/-- A result in flight (R59..R61, R117): issued at cycle `issue`, bound reached at `due`; `landed` tells that its data
has arrived. While frozen, results in flight are the snapshot entries (R84, R85). -/
structure Pending where
  res : Res
  flags : BitVec 4
  issue : Nat
  due : Nat
  landed : Bool
  deriving DecidableEq, Repr

/-- The ARG registers of a member (R36, R39). -/
structure Args where
  x : Word
  y : Word
  z : Word
  w : Word
  f : Word
  deriving DecidableEq, Repr

/-- What a member of a herd-context holds (R79, R80, Table 4.5). Vector registers not listed in `v` hold the free value
of the register at the node's start (R80), numbered by `seed`. -/
structure Member where
  core : Nat
  s : List SReg
  p : BitVec 16
  k : List Mask
  seed : Nat
  v : AMap VReg
  h : List Handle
  q : List Strm
  fpstat : BitVec 4
  cir : Word
  args : List Args
  inflight : List Pending
  consume : Tag
  feHeld : Option SReg
  popHeld : List (Nat × Nat × Word × Tag)
  stuckS : AMap (Word × Word)
  stuckV : AMap (W32 × W32)
  deriving DecidableEq, Repr

/-! ### Tiles -/

/-- An operand slot (R225, R226, Table 11.3). Bytes not listed hold the free value numbered by `seed`. -/
structure OSlot where
  cl : Bool
  owner : Nat
  role : BitVec 2
  m : BitVec 5
  seed : Nat
  data : AMap Byte
  tags : AMap (BitVec 12)
  deriving DecidableEq, Repr

/-- An accumulator element: MW, EW as a signed exponent, N, GW and the poison tag (R125). -/
structure Elem where
  mw : BitVec 32
  ew : BitVec 16
  n : Bool
  gw : BitVec 32
  tag : Tag
  deriving DecidableEq, Repr

/-- An accumulator (R227). Elements not listed hold the AZERO value when `zero`, else the free value of `seed`. -/
structure Acc where
  cl : Bool
  owner : Nat
  zero : Bool
  seed : Nat
  elems : AMap Elem
  deriving DecidableEq, Repr

/-- What a save keeps of a context's shadow block on one core (R86): words by their pool word, the poison tags of the pairs
that have one, and the empty pairs. -/
structure Shadow where
  words : AMap W32
  tags : AMap (BitVec 12)
  empty : List Nat
  deriving DecidableEq, Repr

/-! ### Herd-contexts -/

/-- Captured operands of a routine slot on one member: its guard and the values of its four fields as scalars (R34). -/
structure RCap where
  guard : Bool
  x : SReg
  y : SReg
  z : SReg
  w : SReg
  deriving DecidableEq, Repr

/-- What acts after the last body of a bundle has returned (R55, R57, R156): end of fetch, YIELD, WAITE. -/
structure Post where
  fin : Bool
  yield : Bool
  waite : BitVec 8
  deriving DecidableEq, Repr

/-- The pending RB slot of a bundle whose RA slot called a body: the routine table entry and the profile it is bound to and
the operands captured at issue, the successor fixed at commit, and what acts afterwards (R26, R34, R36, R57). -/
structure RbWait where
  ent : Nat
  prof : Nat
  caps : List RCap
  succ : Word
  post : Post
  deriving DecidableEq, Repr

/-- A link store entry (R154, R36): return address; for a body call what acts after it; with `rb` the RB slot to run. -/
structure Link where
  ret : Word
  rb : Option RbWait
  post : Post
  deriving DecidableEq, Repr

/-- A body call in progress (R36, R37, R446): routine number, routine table entry, profile, the operand fields resolved
to the outermost caller's registers, whether each member's guard was true, the member in the lead's place, and the
virtual cycle of the body's first bundle. -/
structure Frame where
  rn : Nat
  ent : Nat
  prof : Nat
  sig : List (BitVec 8)
  x : Nat
  y : Nat
  z : Nat
  w : Nat
  active : List Bool
  lead : Nat
  since : Nat
  deriving DecidableEq, Repr

/-- An active loop level (R158). -/
structure Loop where
  level : Nat
  start : Word
  stop : Word
  cur : Nat
  lim : Nat
  deriving DecidableEq, Repr

/-- States of a herd-context (Table 15.6). STOPPING is a RUNNING or READY herd-context with a stop request. -/
inductive HState where
  | ready | running | blocked | frozen | parked | saved | retiring | done
  deriving DecidableEq, Repr

/-- Engine waits (Table 4.3); a CWAIT keeps the counters' physical addresses and targets. -/
inductive Wait where
  | queueFull
  | cwait (l : List (Nat × Word))
  | waite (mask : BitVec 8)
  | drain
  | tileBusy
  | scoreboard
  | combine
  deriving DecidableEq, Repr

/-- A stop request (R313, R408): the VCC at which pre-emption was asked, or a forced stop. -/
inductive StopReq where
  | preempt (vcc : Nat)
  | forced
  deriving DecidableEq, Repr

/-- Why a herd-context is parked (R385, R388, R390): its word, or its regeneration entry, the entry's node, the physical
address of that node's completion counter (0 when there is none) and the counter's target. -/
inductive Parked where
  | word (spad : Bool) (key : Nat) (member : Nat) (op : Nat) (needFull : Bool) (seq : Word)
  | regen (entry node ctr : Nat) (target : Word)
  deriving DecidableEq, Repr

/-- A trap: the fields of Table 20.1 and Table 21.1 or 22.1 that do not follow from the herd-context's own state. `va` is
the virtual address that failed, which for an element behind a block table is not ADDR (R224, R375); `ofHandle` tells
that an access through the handle register HANDLE failed (R377). -/
structure Trap where
  cause : Cause
  slot : Nat
  code : BitVec 16
  native : Bool
  rn : Nat
  lane : Nat
  addr : Word
  handle : Nat
  stream : Nat
  elem : Nat
  addr2 : Word
  va : Word
  ofHandle : Bool
  data : List Word
  deriving DecidableEq, Repr

/-- A trap record (Table 20.1) as sixteen words, with the herd-context it describes and its cause; `wordPa` is kept in
firmware's copy only (Table 21.1), and `trap` is the trap it was built from. -/
structure TrapRec where
  hc : Nat
  trap : Trap
  words : List Word
  deriving DecidableEq, Repr

/-- A herd-context (R79, R80, R154, R158, R315). `yielded` marks the one that has just yielded (R316), `saving` a save
that is still being written (R86), `noRestore` a stop without restore (R408); the saved tiles and shadow words are those
of Table 4.4, by member. `waitedAt` is its place in the waiter lists of the counters it waits for (R205), and `unsavable`
tells that its save area was once found not to translate (R403). `serial` numbers the herd-contexts of a partition and `fresh` the free values that this one has
met, so that a free value it reads follows from its own partition's state alone (R4, log 3). -/
structure HerdCtx where
  part : Nat
  node : Nat
  inst : Nat
  herd : Nat
  dieRank : Nat
  slot : Nat
  rank : Nat
  jpos : Nat
  members : List Member
  lead : Nat
  image : Word
  hstate : HState
  wait : Option Wait
  stop : Option StopReq
  parked : Option Parked
  trap : Option TrapRec
  held : Bool
  ep : Nat
  passes : Nat
  lastRun : Nat
  placed : Nat
  vcc : Nat
  pc : Word
  links : List Link
  spill : List Link
  frames : List Frame
  rb : Option RbWait
  loops : List Loop
  idx : List Word
  feBudget : BitVec 12
  defProfile : BitVec 6
  feTries : Nat
  waiteNext : BitVec 8
  restoreWait : Option Wait
  saveEpoch : Word
  b1 : Nat
  b2 : Nat
  b3 : Nat
  ctxl : Nat
  nv : Nat
  lastFe : Option (Nat × Nat)
  regenWoken : Option Nat
  yielded : Bool
  saving : Bool
  noRestore : Bool
  savedSlots : List (Nat × Nat × OSlot)
  savedAccs : List (Nat × Nat × Acc)
  savedShadow : List (Nat × Shadow)
  waitedAt : Nat
  unsavable : Bool
  serial : Nat
  fresh : Nat
  deriving DecidableEq, Repr

/-! ### Cores -/

/-- What a matrix command does once its turn comes. -/
inductive MatOp where
  | load (o : Nat) (role : BitVec 2) (w : Nat) (blocks : List (List Byte × Tag)) (flags : BitVec 4)
  | asto (a : Nat) (fmt : Nat) (outs : List (Loc × Nat)) (setFull : Bool) (q : Nat)
  | azero (a : Nat)
  | mma (a oa ob : Nat) (g16 : Bool)
  | anorm (a : Nat) (g16 : Bool)
  | arow (vd : Nat) (a : Nat) (row : Nat) (mode : Nat) (mask : Mask) (ztag : Tag)
  deriving DecidableEq, Repr

/-- A command of a matrix queue (R229) of member `mem` of herd-context `hc`. -/
structure MatCmd where
  hc : Nat
  mem : Nat
  op : MatOp
  deriving DecidableEq, Repr

/-- A command of the function queue (R244): the destination register, the lanes it writes, their values, the tag and the
flags, all following from the operands read when the routine acted. -/
structure FnCmd where
  hc : Nat
  mem : Nat
  vd : Nat
  mask : Mask
  lanes : List W32
  tag : Tag
  flags : BitVec 4
  deriving DecidableEq, Repr

/-- A command of the combine queue (R258). -/
inductive CombOp where
  | reg (sd : Nat) (fields : List (BitVec 8)) (dest fallback : List Nat) (rctr : Nat)
  | put (id : Word) (sel : Word) (row : VReg)
  | stat (sd : Nat) (sel : Nat) (id : Word)
  deriving DecidableEq, Repr

/-- A command of a combine queue, numbered as commands were enqueued, with the virtual cycle of its bundle (R275). -/
structure CombCmd where
  hc : Nat
  mem : Nat
  num : Nat
  vcc : Nat
  op : CombOp
  deriving DecidableEq, Repr

/-- A command of the job and host-ring queue (R258): the block's physical address, the counter's, the producer and the
amount; or the ring block's, the published index's, the advance and FLUSH. -/
inductive JobOp where
  | jexp (pa : Nat) (finctr : Nat) (p : Nat) (n : SReg)
  | jdone (pa : Nat) (finctr : Nat) (p : Nat) (n : SReg)
  | ringadv (pa : Nat) (pidx : Nat) (n : SReg) (flush : Bool)
  deriving DecidableEq, Repr

structure JobCmd where
  hc : Nat
  mem : Nat
  slot : Nat
  op : JobOp
  deriving DecidableEq, Repr

/-- An entry of the range scoreboard (R107): bytes [lo, hi), a write entry or a read entry, of copy command `id`. -/
structure Score where
  id : Nat
  lo : Nat
  hi : Nat
  write : Bool
  deriving DecidableEq, Repr

/-- A core (R93..R107, R225..R229, R425). Pool words not listed hold the free value numbered by `poolSeed`, or 0 when it
is none (R98); `fresh` counts the free values that its pool and tiles have met (R4). `spEmpty` lists the empty scratchpad pairs by their pair number. -/
structure Core where
  b1 : Nat
  b2 : Nat
  b3 : Nat
  ctxl : Nat
  poolSeed : Option Nat
  pool : AMap W32
  spEmpty : List Nat
  spTag : AMap (BitVec 12)
  spPark : AMap (BitVec 3)
  repair : List (BitVec 64)
  oslots : AMap OSlot
  accs : AMap Acc
  loadQ : List MatCmd
  arrayQ : List MatCmd
  fnQ : List FnCmd
  combQ : List CombCmd
  jobQ : List JobCmd
  score : List Score
  overlays : List (BitVec 256 × Nat)
  offline : Bool
  fresh : Nat
  stuck : AMap (W32 × W32)
  stuckRegs : AMap (Word × Word)
  fixes : AMap Nat
  toRepair : List Nat
  deriving DecidableEq, Repr

/-! ### Engines and home slices -/

/-- One move of a copy: source and destination of a granule. -/
structure Move where
  src : Loc
  dst : Loc
  n : Nat
  deriving DecidableEq, Repr

/-- A command of a copy engine (R263, R267, R266, R269, R270). A BTFENCE keeps the number of the next command from when it
dropped the entries of its page. `hc` is none for a copy node (R304). -/
inductive CopyOp where
  | cpy (moves : List Move) (mode : Nat) (ctr : Option (Nat × Word))
  | cpyred (group sid : Nat) (moves : List Move) (float : Bool) (ctr : Option (Nat × Word))
  | tstload (slice : Nat) (words : List (BitVec 32))
  | btswap (sd : Nat) (pa : Nat) (expect : Word) (new : SReg)
  | btfence (page : Nat) (size : Nat) (ctr : Option (Nat × Word)) (drops : Option Nat)
  deriving DecidableEq, Repr

/-- The run of consecutive bytes that a copy has written last (R104, R106): the space of `Loc`, where the run starts,
where it goes on, and the merged tag of its bytes in the aligned word that it has reached. -/
structure Beat where
  space : Nat
  first : Nat
  next : Nat
  tag : Tag
  deriving DecidableEq, Repr

/-- A command of a copy engine: the moves it has made, the run it is in, its place in the waiter list of the word that its
next move has to find full (R263), the block-table entries its walks were placed through (R270), and the poison that it has
written to host memory (R421). `rel` is the routine's rel bit (R263): what it covers is performed before the
command is queued (log 23). -/
structure CopyCmd where
  id : Nat
  hc : Option Nat
  mem : Nat
  part : Nat
  node : Nat
  rel : Bool
  ents : List Nat
  op : CopyOp
  done : Nat
  beat : Option Beat
  wait : Option Nat
  eaten : Tag
  deriving DecidableEq, Repr

/-- A contribution of a CPYRED waiting at a slice (R268). -/
structure Contribution where
  cmd : Nat
  sid : Nat
  hc : Option Nat
  mem : Nat
  part : Nat
  node : Nat
  float : Bool
  items : List (Nat × W32 × Tag)
  deriving DecidableEq, Repr

/-- The reduction state of one (partition, group) at a slice: waiting contributions and how far the round is. -/
structure Round where
  part : Nat
  group : Nat
  pos : Nat
  waiting : List Contribution
  deriving DecidableEq, Repr

/-- A home slice's time-slot table (R265, R266): the valid entries in force with their slots, those of the image held
pending, the (partition, group) pairs whose pending entries have not replaced the current ones, and the rounds. -/
structure Slice where
  table : List (Nat × BitVec 32)
  pend : List (Nat × BitVec 32)
  groups : List (Nat × Nat)
  rounds : List Round
  deriving DecidableEq, Repr

/-- A CPYRED whose contributions are not all admitted yet: how many are left, whether one was discarded (R400). -/
structure RedWait where
  cmd : Nat
  left : Nat
  orphan : Bool
  ctr : Option (Nat × Word)
  part : Nat
  node : Nat
  hc : Option Nat
  mem : Nat
  ents : List Nat
  deriving DecidableEq, Repr

/-! ### Combine units -/

/-- A registered token slot (R271..R276): the 96-byte record, the physical places of the 64 KiB granules of its rows, its
rows, applied counts and arrival bitmaps by segment, staged rows (segment, position, row), and its owner. -/
structure Token where
  part : Nat
  node : Nat
  inst : Nat
  hc : Nat
  mem : Nat
  seqNo : Nat
  fields : List (BitVec 8)
  dest : List Nat
  fallback : List Nat
  rctr : Nat
  applied : List Nat
  arrived : List (BitVec 8)
  substd : List (BitVec 8)
  acc : List (Option VReg)
  staged : List (Nat × Nat × VReg)
  complete : Bool
  deriving DecidableEq, Repr

/-- The combine unit of a die (R271). -/
structure CombUnit where
  nt : Nat
  na : Nat
  ns : Nat
  gens : AMap (BitVec 46)
  tokens : AMap Token
  regs : Nat
  deriving DecidableEq, Repr

/-! ### Images (R320..R333) -/

/-- A routine table entry the loader kept (R324): its binding, the standard routine number whose digest it carries when it
is native, and the offset of its shadow area in a context's block. `published` marks a matrix routine of Table 11.4 that the
entry's digest names, whose body reaches the tile aperture (R232). -/
structure REntry where
  rn : Nat
  profile : Nat
  sig : List (BitVec 8)
  kkind : Nat
  fkind : Nat
  effects : BitVec 16
  points : List Nat
  body : Nat
  bodyLen : Nat
  shadow : Nat
  shadowOff : Nat
  digest : BitVec 256
  native : Bool
  std : Nat
  published : Bool
  dropped : Bool
  deriving DecidableEq, Repr

/-- A code segment of the chosen variant, as relocated: its words and its system bit. -/
structure Segment where
  words : List (BitVec 64)
  sys : Bool
  deriving DecidableEq, Repr

/-- A loaded image (R328..R333). -/
structure Image where
  part : Nat
  handle : Word
  digest : BitVec 256
  base : Word
  segs : List Segment
  entries : List REntry
  shr : Nat
  defProfile : BitVec 6
  bt002 : Bool
  bt007 : Bool
  variant : Nat
  deriving DecidableEq, Repr

/-! ### Partitions and nodes -/

/-- States of a node (Table 15.2). -/
inductive NState where
  | free | armed | ready | running | commit | done | refused | halted
  deriving DecidableEq, Repr

/-- An earlier poison rollback of the instance in flight: tag, and class, die, unit and place of its record (R424). -/
structure Rollback where
  tag : Option (BitVec 12)
  place : Option (BitVec 4 × Nat × BitVec 10 × Word)
  deriving DecidableEq, Repr

/-- An instance of a node in flight (R308, R291): staged bytes and tags, irrevocable mark, retirement CIR, rollbacks; `pend`
is the copy of a copy node that its engine's queue has not taken yet (R304, R312). -/
structure Inst where
  id : Nat
  hcs : List Nat
  staged : List Host.Cell
  stagedTag : AMap (Option (BitVec 12))
  records : List Nat
  irrev : Bool
  waitStage : Bool
  retCir : Word
  regen : Option (Nat × Word × Word)
  placedAt : Nat
  pend : Option (List Move × List Nat)
  deriving DecidableEq, Repr

/-- A node of a node table (R302, R303, Table 15.2): bytes 0..223 of the descriptor (THRESH advanced in place) and the
status the sequencer keeps. `watch` is the physical address of the fire counter in whose waiter list the node stands since it
was armed, at the step `joined` (R307). -/
structure Node where
  desc : List Byte
  state : NState
  cause : BitVec 8
  last : Bool
  owed : BitVec 32
  donen : Word
  launch : Word
  disarm : Bool
  inst : Option Inst
  requeues : Nat
  rollback : Option Rollback
  watch : Option Nat
  joined : Nat
  deriving DecidableEq, Repr

/-- An invalidation that has not completed (R189): its range, stage, completion counter, and the epoch it raised. -/
structure Inval where
  stage2 : Bool
  lo : Nat
  len : Nat
  ctr : Nat
  epoch : Word
  deriving DecidableEq, Repr

/-- A regeneration request (R224): table entry, node, argument and faulting address, target value of the counter. -/
structure RegenReq where
  entry : Nat
  node : Nat
  arg : Word
  va : Word
  target : Word
  launched : Bool
  deriving DecidableEq, Repr

/-- A partition (R301, R343, R344). `reqs` are its pending request slots, `stopWait` a stop request that has been taken and
whose herd-context is not saved yet: it, and the DONECTR to add to (R408); `fresh` counts the free values it has met (R4);
`drafts` are the bytes of request slots that the host has begun to write (R346). -/
structure Part where
  cfg : PartCfg
  s1root : Word
  epoch : Word
  parkSeq : Word
  lateDrops : List (BitVec 32)
  hostErr : Word
  fabErr : Word
  stageUse : Word
  nodes : AMap Node
  queues : List (List Nat)
  restore : List Nat
  halted : Bool
  invals : List Inval
  regens : List RegenReq
  images : List Image
  reqs : AMap (List Byte)
  reqOrder : List Nat
  stopWait : Option (Nat × Word)
  wakeSeen : Word
  fresh : Nat
  drafts : AMap (List Byte)
  deriving DecidableEq, Repr

/-! ### Dies, host port and package -/

/-- A markhor pair of a die (R157, R429). -/
structure Pair where
  failed : Bool
  mismatches : Nat
  saved : Option Word
  deriving DecidableEq, Repr

/-- A die: its error ring and count, trap queue, markhor pairs, combine unit, end-of-life register, corrected counts. -/
structure Die where
  ring : AMap (List Word)
  errSeq : BitVec 32
  trapQ : List TrapRec
  pairs : List Pair
  unprotected : Bool
  comb : CombUnit
  poh : BitVec 32
  eolh : BitVec 32
  eolRaised : Bool
  corrected : AMap Nat
  deriving DecidableEq, Repr

/-- A message the device sends to the host or to another package. -/
inductive HostMsg where
  | frozen (h : HerdCtx) (slots : List (Nat × Nat × OSlot)) (accs : List (Nat × Nat × Acc)) (shadow : List (Nat × Shadow))
  | msix (vector : Nat) (addr : Word) (data : BitVec 32)
  | readReply (data : List Byte) (poison : Bool)
  | report (leaf : Nat) (measured : List (BitVec 256))
  | cannotAttest
  | bootFailure
  | fabricReply (dst : BitVec 10) (data : List Byte) (poison : Bool)
  deriving DecidableEq, Repr

/-- A host-ring timer that runs (R281): the block that started it. -/
structure RingTimer where
  rcb : Nat
  deriving DecidableEq, Repr

/-- An event that the device's own state brings about (log 1); each is the instruction of the same name. -/
inductive Event where
  | lateResultLand (hc : Nat)
  | overlayLoad (hc : Nat)
  | engineWaitEnd (hc : Nat)
  | contextSelect (lead : Nat)
  | feRetryAttempt (hc : Nat)
  | feBudget (hc : Nat)
  | streamReadAhead (hc : Nat) (mem : Nat) (q : Nat)
  | streamOutputWrite (hc : Nat) (mem : Nat) (q : Nat)
  | matrixQueuePerform (core : Nat) (load : Bool)
  | functionQueuePerform (core : Nat)
  | copyQueuePerform (engine : Nat)
  | cpyredAdmit (slice : Nat) (part : Nat) (group : Nat)
  | jobQueuePerform (core : Nat)
  | combineQueuePerform (core : Nat)
  | tokenRelease (die : Nat) (index : Nat)
  | combineTimeout (die : Nat) (index : Nat)
  | ringTimerExpiry (vector : Nat)
  | drainPointStop (hc : Nat)
  | forcedStop (hc : Nat)
  | preemptStopTimeout (hc : Nat)
  | contextSaveDone (hc : Nat)
  | contextRestore (hc : Nat)
  | herdRetire (hc : Nat)
  | nodeCommit (part : Nat) (node : Nat)
  | stagingExhausted (part : Nat)
  | nodeFire (part : Nat) (node : Nat)
  | nodePlace (part : Nat)
  | copyNodeRun (part : Nat) (node : Nat)
  | counterNodeRun (part : Nat) (node : Nat)
  | conditionalNodeRun (part : Nat) (node : Nat)
  | regenFault (hc : Nat)
  | trapRecordTake (die : Nat)
  | wakeServe (part : Nat)
  | handleRetranslate (hc : Nat)
  | invalidateComplete (part : Nat)
  | loadRequest (part : Nat)
  | unloadRequest (part : Nat)
  | stopRequest (part : Nat)
  | restoreRequest (part : Nat)
  deriving DecidableEq, Repr

/-- What firmware writes of one member's frozen state, or of the herd-context's (R362, Table 4.4): PC and VCC, a register, handle
or stream position, a stream register, the loop levels with IDX0..IDX5, the link store, the ARG registers, a status register, a
handle filled as a TRANS would or cleared, a byte of a claimed operand slot, an element of a claimed accumulator, and a word
of the shadow block. -/
inductive WinWrite where
  | pc (a : Word)
  | vcc (v : Nat)
  | reg (r : Res)
  | stream (n : Nat) (x : Option StrmRec) (sys : Bool) (scope : BitVec 3) (pos : Nat)
  | loops (l : List Loop) (idx : List Word)
  | links (l : List Link)
  | args (l : List Args)
  | defProfile (b : BitVec 6)
  | fpstat (b : BitVec 4)
  | cir (v : Word)
  | feBudget (b : BitVec 12)
  | fill (n : Nat) (va : Word) (intent : BitVec 2)
  | drop (n : Nat)
  | tile (o k : Nat) (b : Byte)
  | acc (a e : Nat) (x : Elem)
  | shadow (k : Nat) (w : W32)
  deriving DecidableEq, Repr

/-- What no row of the opcode table stands for. Markhor code reads and writes through the die's context access window (R362), and
demotes a block in two halves (R222), naming the block-table entry and the frame in the deep tier. A link of another package
fails, a hop of the flows to some packages (R342). The host reads the node tables through BAR 2 and 3 and the management
block through BAR 4 and 5, and writes a part of a request slot (R336, R337, R346). Bits of a pool cell or of a scalar register
stick at a level from now on, which is what the boot march looks for (R432..R434), and the scrubber begins a new pass
(R427). Firmware repairs a pool row that had to wait for the contexts of its core (R426). -/
inductive Act where
  | window (hc mem : Nat) (w : WinWrite)
  | windowRead (hc : Nat)
  | demoteBegin (part : Nat) (ent : Nat)
  | demoteEnd (part : Nat) (ent frame : Nat) (expect : Word)
  | farLink (hop port : Nat) (dsts : List Nat)
  | nodeRead (off n : Nat)
  | mgmtRead (off n : Nat)
  | slotWrite (part slot off : Nat) (d : List Byte)
  | poolDefect (core cell : Nat) (bits level : W32)
  | registerDefect (core slot n : Nat) (bits level : Word)
  | scrubPass
  | poolRepair (core w : Nat)
  deriving DecidableEq, Repr

/-- Whose turn the next step is: a herd-context's bundle, an event of the device's own, one that comes from outside, or an act
that is no row of the opcode table. -/
inductive Turn where
  | hc (id : Nat)
  | own (e : Event)
  | act (a : Act)
  | ev (i : Instr)
  deriving DecidableEq, Repr

/-- The state of the device. `bootLeaf` is the attestation leaf of this boot (R348); `retired` lists the 64 KiB frames in
the partition manager's event record and `l2Off` the ways disabled in each slice (Table 26.5); `handles` are the image
handles issued so far (R333). `adds` are the adds to counters that nodes watch which the sequencer has not acted on yet,
in the order of the adds, each with the value it left (R308); `parkPart` names the partition that set a memory word's park
bits (R386). -/
structure State where
  agenda : List Turn
  rr : Nat
  fresh : Nat
  cur : Option Nat
  mem : List Host.Cell
  feEmpty : List Nat
  memTag : AMap (BitVec 12)
  park : AMap (BitVec 3)
  parkPart : AMap Nat
  adds : List (Nat × Nat)
  hctxs : AMap HerdCtx
  nextHc : Nat
  cores : AMap Core
  copyQ : AMap (List CopyCmd)
  slices : AMap Slice
  reds : List RedWait
  parts : AMap Part
  dies : List Die
  timers : AMap RingTimer
  msix : AMap (List (BitVec 32))
  pba : List Nat
  outbox : List HostMsg
  mgrEvents : Nat
  routes : AMap (BitVec 32)
  pkg : BitVec 10
  linkFailed : List Nat
  lpddr : Bool
  cxlCap : List Nat
  cxlFailed : List Nat
  leaf : Nat
  booted : Bool
  bootLeaf : Option Nat
  measured : List (BitVec 256)
  handles : List Word
  loads : Nat
  retired : List Nat
  l2Off : AMap Nat
  cap : Option Nat
  nextCmd : Nat
  nextInst : Nat
  clk : Nat
  deriving DecidableEq, Repr

/-! ### Reset -/

def CombUnit.empty : CombUnit := ⟨0, 0, 0, [], [], 0⟩

/-- A die right after reset: no error recorded, no trap waiting, its eight markhor cores as four pairs. -/
def Die.reset : Die :=
  { ring := [], errSeq := 0, trapQ := [], pairs := List.replicate 4 ⟨false, 0, none⟩, unprotected := false,
    comb := CombUnit.empty, poh := 0, eolh := 0xFFFFFFFF, eolRaised := false, corrected := [] }

/-- The device right after reset: no partition, no herd-context, memory with nothing listed and every word full. -/
def State.reset : State :=
  { agenda := [], rr := 0, fresh := 0, cur := none, mem := [], feEmpty := [], memTag := [], park := [], parkPart := [],
    adds := [], hctxs := [], nextHc := 0, cores := [], copyQ := [], slices := [], reds := [], parts := [],
    dies := List.replicate 4 Die.reset, timers := [], msix := [], pba := [], outbox := [], mgrEvents := 0,
    routes := [], pkg := 0, linkFailed := [], lpddr := true, cxlCap := List.replicate 8 0,
    cxlFailed := [], leaf := 0, booted := false, bootLeaf := none, measured := [], handles := [], loads := 0,
    retired := [], l2Off := [], cap := none, nextCmd := 0, nextInst := 0, clk := 0 }

end Sys2Proof.Machine
end

