-- ==== Sys2Proof/Machine/Formats.lean ====
section
/-! DEFINITION. Poison merge, bytes and words, element formats, block formats and their conversions, and the accumulator
element (R5, R120..R132, R217). -/

namespace Sys2Proof.Machine

/-- poison_merge of two tags: the lower of the tags present. -/
def mergeTag : Tag → Tag → Tag
  | none, t => t
  | t, none => t
  | some a, some b => some (if a.toNat ≤ b.toNat then a else b)

/-- poison_merge of many tags. -/
def mergeTags (l : List Tag) : Tag := l.foldl mergeTag none

/-! ### Bytes, little-endian -/

/-- The `n` low bytes of a number, least significant first. -/
def bytesOf : Nat → Nat → List Byte
  | 0, _ => []
  | n + 1, v => BitVec.ofNat 8 v :: bytesOf n (v / 256)

/-- The number that bytes hold, least significant first. -/
def natOf : List Byte → Nat
  | [] => 0
  | b :: r => b.toNat + 256 * natOf r

/-- `n` bytes of a byte string from offset `o`, as a number; bytes beyond the end read 0. -/
def leAt (l : List Byte) (o n : Nat) : Nat := natOf ((l.drop o).take n)

/-- Read a natural number's low 2^n part as a signed one. -/
def signedOf (n v : Nat) : Int :=
  let u := v % 2 ^ n
  if u < 2 ^ (n - 1) then (u : Int) else (u : Int) - 2 ^ n

/-! ### Format codes (Table 6.2) -/

/-- The block width of a BFP format code; 16 for BFP16. -/
def bfpWidth (fmt : Nat) : Option Nat :=
  if 0x12 ≤ fmt ∧ fmt ≤ 0x18 then some (fmt - 0x10) else if fmt = 0x20 then some 16 else none

def fmtPublished (fmt : Nat) : Bool := (1 ≤ fmt && fmt ≤ 3) || (bfpWidth fmt).isSome

/-- Bytes per element of a plain format, or per block of a block format. -/
def fmtBytes (fmt : Nat) : Nat :=
  match bfpWidth fmt with
  | some m => 4 * m + 1
  | none => if fmt = 2 then 2 else 4

/-! ### Block formats (R121..R124) -/

/-- Mantissas of a block of width `m` and its scale byte. -/
def blockMants (m : Nat) (b : List Byte) : List Int :=
  let big := natOf (b.take (4 * m))
  (List.range 32).map fun j => signedOf m (big >>> (j * m))

def blockScale (m : Nat) (b : List Byte) : Nat := leAt b (4 * m) 1

/-- The bytes of a block with the given mantissas and scale. -/
def blockBytes (m : Nat) (mants : List Int) (x : Nat) : List Byte :=
  let big := mants.zipIdx.foldl (fun a (v, j) => a + (v % 2 ^ m).toNat <<< (j * m)) 0
  bytesOf (4 * m) big ++ [BitVec.ofNat 8 x]

/-- The value of element `j` of a block (R122). -/
def blockValue (m : Nat) (b : List Byte) (j : Nat) : FVal :=
  let x := blockScale m b
  if x = 0 then .fin false 0 0
  else if x = 255 then .nan
  else finOfInt ((blockMants m b).getD j 0) ((x : Int) - 127 - ((m : Int) - 1)) false

/-- Element `j` of a block as an FP32 lane, with its flags (R122). -/
def blockToW32 (m : Nat) (b : List Byte) (j : Nat) : W32 × FFlags := toFP32 .rne (blockValue m b j)

def isZeroV : FVal → Bool
  | .fin _ 0 _ => true
  | _ => false

def isFiniteV : FVal → Bool
  | .fin .. => true
  | _ => false

/-- The largest biased exponent field among FP32 patterns. -/
def maxExp (l : List W32) : Nat := l.foldl (fun a w => max a (w.extractLsb' 23 8).toNat) 0

/-- Whether two finite values are equal. -/
def sameFin (a b : FVal) : Bool :=
  match a, b with
  | .fin _ m e, .fin _ m' e' =>
    let lo := if e < e' then e else e'
    a.signedMant * 2 ^ (e - lo).toNat == b.signedMant * 2 ^ (e' - lo).toNat || (m == 0 && m' == 0)
  | _, _ => false

/-- Finish a quantised block: saturate, encode, and raise INX and OVF (R123). -/
def finishBlock (m x : Nat) (vals : List FVal) (qs : List Int) : List Byte × FFlags :=
  let mants := qs.map (satInt (-2 ^ (m - 1)) (2 ^ (m - 1) - 1))
  let inx := (vals.zip mants).any fun (v, k) => !sameFin v (finOfInt k ((x : Int) - 127 - ((m : Int) - 1)) false)
  let ovf := (qs.zip mants).any fun (q, k) => q != k
  (blockBytes m mants x, (if inx then flagINX else 0) ||| (if ovf then flagOVF else 0))

/-- The block of a whole-zero or whole-NaN input (R123), none for any other. -/
def specialBlock (m : Nat) (vals : List FVal) : Option (List Byte × FFlags) :=
  if vals.all isZeroV then some (blockBytes m (List.replicate 32 0) 0, 0)
  else if vals.any fun v => !isFiniteV v then
    some (blockBytes m (List.replicate 32 0) 255, if vals.any (· == .nan) then 0 else flagINV)
  else none

/-- Quantise 32 FP32 values to BFP-m (R123). -/
def quantise (m : Nat) (xs : List W32) : List Byte × FFlags :=
  let vals := xs.map fp32
  match specialBlock m vals with
  | some r => r
  | none =>
    let x := min (maxExp xs + 1) 254
    let q := vals.map fun v => match v with
      | .fin n mm e => (roundInt .rne n mm (e + (127 + ((m : Int) - 1) - x))).1
      | _ => 0
    finishBlock m x vals q

/-- Convert 32 BF16 values to a BFP16 block (R124): profile 2 rounds to nearest even, profiles 1 and 3 truncate. -/
def bf16Block (prof : Nat) (bs : List (BitVec 16)) : List Byte × FFlags :=
  let vals := bs.map bf16
  match specialBlock 16 vals with
  | some r => r
  | none =>
    let x := min (maxExp (bs.map fun b => b ++ 0#16) + 1) 254
    let q := vals.map fun v => match v with
      | .fin n mm e => (roundInt (if prof = 2 then .rne else .rz) n mm (e + (142 - (x : Int)))).1
      | _ => 0
    finishBlock 16 x vals q

/-! ### The accumulator element (R125..R132) -/

/-- A = MW·2^32 + GW. -/
def Elem.a (x : Elem) : Int := x.mw.toInt * 2 ^ 32 + x.gw.toNat

def Elem.exp (x : Elem) : Int := x.ew.toInt

/-- The element after AZERO (R127). -/
def Elem.zero : Elem := ⟨0, 0x8000, false, 0, none⟩

/-- sfloor of num / 2^k: floor, with bit 0 stuck to 1 when anything was lost (R126). -/
def sfloor (num : Int) (k : Nat) : Int :=
  let y := num / 2 ^ k
  if y * 2 ^ k = num then y else y - y % 2 + 1

/-- Fold bits 15..0 into bit 0 under the 16-bit guard (R126). -/
def guardFold (g16 : Bool) (y : Int) : Int :=
  if g16 then
    let low := y % 2 ^ 16
    y - low + (if low = 0 then 0 else 1)
  else y

/-- Write A and the exponent back into an element. -/
def Elem.put (x : Elem) (a e : Int) : Elem :=
  { x with mw := BitVec.ofInt 32 (a / 2 ^ 32), gw := BitVec.ofInt 32 (a % 2 ^ 32), ew := BitVec.ofInt 16 e }

/-- Accumulate a partial p·2^e with its tag (R129): the element and whether it saturated. -/
def Elem.accumulate (x : Elem) (g16 : Bool) (p e : Int) (t : Tag) : Elem × Bool :=
  let x1 := { x with tag := mergeTag x.tag t }
  if x.n then (x1, false)
  else
    let en := if x.exp < e then e else x.exp
    let d1 := x.exp - en
    let d2 := 32 + e - en
    let lo := min (min d1 d2) 0
    let num := x.a * 2 ^ (d1 - lo).toNat + p * 2 ^ (d2 - lo).toNat
    let y := guardFold g16 (sfloor num (-lo).toNat)
    let z := satInt (-2 ^ 63) (2 ^ 63 - 1) y
    (x1.put z en, z != y)

/-- ANORM of one element (R130). -/
def Elem.norm (x : Elem) (g16 : Bool) : Elem :=
  if x.n || x.a == 0 then x
  else
    let d0 : Int := 54 - (Nat.log2 x.a.natAbs : Int)
    let d := min d0 (x.exp + 32768)
    let y := if 0 ≤ d then x.a * 2 ^ d.toNat else sfloor x.a (-d).toNat
    x.put (guardFold g16 y) (x.exp - d)

/-- The exact value of an element. -/
def Elem.val (x : Elem) : FVal := if x.n then .nan else finOfInt x.a (x.exp - 32) false

/-- An element stored to FP32 and to BF16 (R132). -/
def Elem.toFP32 (x : Elem) : W32 × FFlags := Machine.toFP32 .rne x.val
def Elem.toBF16 (x : Elem) : BitVec 16 × FFlags := Machine.toBF16 .rne x.val

/-- The words MW, EW, GW of an element (Table 6.3). -/
def Elem.word (x : Elem) (k : Nat) : W32 :=
  match k with
  | 0 => x.mw
  | 1 => 0#15 ++ BitVec.ofBool x.n ++ x.ew
  | _ => x.gw

/-- The partials of a pair of blocks with their exponents (R128): none when a block is zero, NaN when one is NaN. -/
inductive Partials where
  | nothing
  | nan
  | sums (l : List (Int × Int))
  deriving DecidableEq, Repr

def dot (a b : List Int) : Int := (a.zip b).foldl (fun s (x, y) => s + x * y) 0

def blockPair (ma : Nat) (ba : List Byte) (mb : Nat) (bb : List Byte) : Partials :=
  let xa := blockScale ma ba
  let xb := blockScale mb bb
  if xa = 255 ∨ xb = 255 then .nan
  else if xa = 0 ∨ xb = 0 then .nothing
  else
    let va := blockMants ma ba
    let vb := blockMants mb bb
    let e0 : Int := (xa : Int) + xb - 254 - ((ma : Int) - 1)
    if mb = 16 then
      let lo := vb.map fun v => signedOf 8 (v % 256).toNat
      let hi := (vb.zip lo).map fun (v, l) => (v - l) / 256
      .sums [(dot va hi, e0 - 15 + 8), (dot va lo, e0 - 15)]
    else .sums [(dot va vb, e0 - ((mb : Int) - 1))]

/-- One element of an MMA (R238): the element and whether it saturated. -/
def Elem.mma (x : Elem) (g16 : Bool) (p : Partials) (t : Tag) : Elem × Bool :=
  match p with
  | .nothing => ({ x with tag := mergeTag x.tag t }, false)
  | .nan => ({ x with tag := mergeTag x.tag t, n := true }, false)
  | .sums l => l.foldl (fun (y, s) (p, e) => let (z, s') := y.accumulate g16 p e t; (z, s || s')) (x, false)

end Sys2Proof.Machine
end

