-- ==== Sys2Proof/Machine/Memory.lean ====
section
/-! DEFINITION. Memory as a list of cells, the physical map, full/empty bits, park bits and poison tags, the two-stage
walk of the page tables, and the accesses of a staged or unstaged node (R111..R114, R182..R194, R291, R292). -/

namespace Sys2Proof.Machine

/-! ### Cells -/

/-- What an unlisted address reads as (log 5). -/
def Memory.unlisted : Byte := 0

/-- The byte a cell list gives for an address, if it lists one. -/
def cellFind : List Host.Cell → Nat → Option Byte
  | [], _ => none
  | (a, b) :: r, k => if a = k then some b else cellFind r k

/-- The byte at an address. -/
def Memory.get (m : List Host.Cell) (a : Nat) : Byte := (cellFind m a).getD Memory.unlisted

/-- Insert or replace a cell. -/
def cellPut : List Host.Cell → Nat → Byte → List Host.Cell
  | [], k, v => [(k, v)]
  | (a, b) :: r, k, v =>
    if k < a then (k, v) :: (a, b) :: r
    else if k = a then (k, v) :: r
    else (a, b) :: cellPut r k v

/-- Remove a cell. -/
def cellDrop : List Host.Cell → Nat → List Host.Cell
  | [], _ => []
  | (a, b) :: r, k => if a = k then r else (a, b) :: cellDrop r k

/-- Write a byte, keeping the canonical form. -/
def Memory.set (m : List Host.Cell) (a : Nat) (v : Byte) : List Host.Cell :=
  if v = Memory.unlisted then cellDrop m a else cellPut m a v

/-- Addresses strictly rising from above `lo`, and no cell equal to what an unlisted address reads as. -/
def Memory.wfFrom : Option Nat → List Host.Cell → Bool
  | _, [] => true
  | lo, (a, b) :: r =>
    (match lo with | none => true | some l => decide (l < a)) && b != Memory.unlisted && Memory.wfFrom (some a) r

/-- The canonical form of memory. -/
def Memory.wf (m : List Host.Cell) : Bool := Memory.wfFrom none m

/-- Write consecutive bytes. -/
def Memory.setBytes (m : List Host.Cell) (a : Nat) : List Byte → List Host.Cell
  | [] => m
  | b :: r => Memory.setBytes (Memory.set m a b) (a + 1) r

/-- Read `n` consecutive bytes. -/
def Memory.getBytes (m : List Host.Cell) (a : Nat) : Nat → List Byte
  | 0 => []
  | n + 1 => Memory.get m a :: Memory.getBytes m (a + 1) n

/-- Write consecutive bytes at once. -/
def Memory.setRange (m : List Host.Cell) (a : Nat) (l : List Byte) : List Host.Cell :=
  (m.filter fun (k, _) => decide (k < a)) ++
    ((l.zipIdx a).filterMap fun (b, k) => if b = Memory.unlisted then none else some (k, b)) ++
    (m.filter fun (k, _) => decide (a + l.length ≤ k))

/-! ### Sets of numbers kept sorted -/

def nsAdd : List Nat → Nat → List Nat
  | [], k => [k]
  | a :: r, k => if k < a then k :: a :: r else if k = a then a :: r else a :: nsAdd r k

def nsDel : List Nat → Nat → List Nat
  | [], _ => []
  | a :: r, k => if a = k then r else a :: nsDel r k

/-! ### The physical map (Table 5.6) -/

/-- Bits 47..0 of a physical address: the address in its package. -/
def localPa (pa : Nat) : Nat := pa % 2 ^ 48

/-- Bits 57..48: the package (R111). -/
def pkgOf (pa : Nat) : Nat := pa / 2 ^ 48

def isLocal (s : State) (pa : Nat) : Bool := pkgOf pa == s.pkg.toNat

/-- A physical address of this package from its local address. -/
def ownPa (s : State) (a : Nat) : Nat := s.pkg.toNat * 2 ^ 48 + a

def isHostPa (pa : Nat) : Bool := decide (2 ^ 47 ≤ localPa pa)

/-- The deep tier: LPDDR 6 and CXL. -/
def isDeepPa (pa : Nat) : Bool := decide (2 ^ 44 ≤ localPa pa) && decide (localPa pa < 2 ^ 46)

/-- Die scratchpad bytes that a die's combine unit holds, at the top (R113). -/
def CombUnit.held (c : CombUnit) : Nat := (256 * c.nt + 1024 * (c.na + c.ns) + 65535) / 65536 * 65536

/-- The tier of a range that lies in one populated row of Table 5.6 and outside the combine unit's bytes (R112, R113). Which parts of
another package are populated the spec does not tell: the model takes this package's own (DESIGN CHOICE, log 48). -/
def rangeTier (s : State) (pa len : Nat) : Option (BitVec 2) :=
  let a := localPa pa
  let e := a + len
  if e ≤ 0x7735940000 then some 0
  else if 0x10000000000 ≤ a ∧ e ≤ 0x10010000000 then
    let d := (a - 0x10000000000) / 0x4000000
    let hi := 0x10000000000 + (d + 1) * 0x4000000
    let free := hi - ((s.dies[d]?).map (·.comb.held)).getD 0
    if e ≤ hi ∧ (isLocal s pa = false ∨ e ≤ free) then some 3 else none
  else if 0x100000000000 ≤ a ∧ e ≤ 0x100000000000 + 0x77359400000 ∧ s.lpddr then some 1
  else if 0x200000000000 ≤ a ∧ e ≤ 0x400000000000 then
    let p := (a - 0x200000000000) / 0x40000000000
    let base := 0x200000000000 + p * 0x40000000000
    if e ≤ base + s.cxlCap.getD p 0 then some 2 else none
  else if 2 ^ 47 ≤ a ∧ e ≤ 2 ^ 48 then some 0
  else none

/-- The home slice of a line, 0..255 (R111). -/
def homeSlice (pa : Nat) : Nat :=
  let w : BitVec 48 := BitVec.ofNat 48 pa
  (w.extractLsb' 8 8 ^^^ w.extractLsb' 16 8 ^^^ w.extractLsb' 24 8 ^^^ w.extractLsb' 32 8 ^^^ w.extractLsb' 40 8).toNat

/-- The memory port of a CXL address. -/
def cxlPort (pa : Nat) : Option Nat :=
  let a := localPa pa
  if 0x200000000000 ≤ a ∧ a < 0x400000000000 then some ((a - 0x200000000000) / 0x40000000000) else none

/-! ### Numbers of free values (R4) -/

/-- One number for two. -/
def pairNat (a b : Nat) : Nat := (a + b) * (a + b + 1) / 2 + b

/-- The number of the free values that a herd-context meets next, `i` beyond the present one: it follows from its
partition's own state (R4). -/
def HerdCtx.seedAt (h : HerdCtx) (i : Nat) : Nat := pairNat h.part (pairNat h.serial (h.fresh + i))

/-- The number of the free values that a core's pool and tiles meet next. -/
def Core.seedOf (c : Core) (core : Nat) : Nat := pairNat core c.fresh

/-! ### Map updates with defaults -/

def Core.init : Core :=
  { b1 := 0, b2 := 0, b3 := 0, ctxl := 0, poolSeed := some 0, pool := [], spEmpty := [], spTag := [], spPark := [],
    repair := List.replicate 32 0, oslots := [], accs := [], loadQ := [], arrayQ := [], fnQ := [], combQ := [],
    jobQ := [], score := [], overlays := [], offline := false, fresh := 0, stuck := [],
    stuckRegs := [], fixes := [], toRepair := [] }

def State.core (s : State) (c : Nat) : Core := (aget s.cores c).getD Core.init
def State.setCore (s : State) (c : Nat) (k : Core) : State := { s with cores := aset s.cores c k }
def State.part? (s : State) (p : Nat) : Option Part := aget s.parts p
def State.setPart (s : State) (p : Nat) (x : Part) : State := { s with parts := aset s.parts p x }
def State.hc? (s : State) (h : Nat) : Option HerdCtx := aget s.hctxs h
def State.setHc (s : State) (h : Nat) (x : HerdCtx) : State := { s with hctxs := aset s.hctxs h x }
def State.modPart (s : State) (p : Nat) (f : Part → Part) : State :=
  match s.part? p with | some x => s.setPart p (f x) | none => s
def State.modHc (s : State) (h : Nat) (f : HerdCtx → HerdCtx) : State :=
  match s.hc? h with | some x => s.setHc h (f x) | none => s
def State.modDie (s : State) (d : Nat) (f : Die → Die) : State :=
  match s.dies[d]? with | some x => { s with dies := lset s.dies d (f x) } | none => s
def Part.modNode (p : Part) (n : Nat) (f : Node → Node) : Part :=
  match aget p.nodes n with | some x => { p with nodes := aset p.nodes n (f x) } | none => p
def State.modNode (s : State) (p n : Nat) (f : Node → Node) : State := s.modPart p (·.modNode n f)
def State.node? (s : State) (p n : Nat) : Option Node := (s.part? p).bind fun x => aget x.nodes n
def State.inst? (s : State) (p n : Nat) : Option Inst := (s.node? p n).bind (·.inst)
def State.modInst (s : State) (p n : Nat) (f : Inst → Inst) : State :=
  s.modNode p n fun x => { x with inst := x.inst.map f }

/-! ### Node descriptor fields (Table 15.1) -/

def Node.field (n : Node) (o k : Nat) : Nat := leAt n.desc o k
def Node.kind (n : Node) : Nat := n.field 0 1
def Node.prio (n : Node) : Nat := n.field 1 1 % 8
def Node.flag (n : Node) (b : Nat) : Bool := (n.field 2 1).testBit b
/-- STAGED has a meaning for kinds 1 and 5 only (R305). -/
def Node.staged (n : Node) : Bool := n.flag 0 && (n.kind == 1 || n.kind == 5)
def Node.determ (n : Node) : Bool := n.flag 1
def Node.checked (n : Node) : Bool := n.flag 2
def Node.irrevFlag (n : Node) : Bool := n.flag 3

/-! ### The view of an accessor -/

/-- Who accesses memory: the partition, the node whose view is taken, and whether its ordinary stores are staged. -/
structure Who where
  part : Nat
  node : Option Nat
  staged : Bool
  deriving DecidableEq, Repr

/-- An agent with no node: its accesses are immediate. -/
def Who.agent (p : Nat) : Who := ⟨p, none, false⟩

/-- The staged bytes an accessor sees (R191, R291). -/
def Who.cells (w : Who) (s : State) : List Host.Cell :=
  match w.node with
  | some n => ((s.inst? w.part n).map (·.staged)).getD []
  | none => []

/-- A byte as an accessor sees it. -/
def viewByte (s : State) (w : Who) (a : Nat) : Byte := (cellFind (w.cells s) a).getD (Memory.get s.mem a)

def viewBytes (s : State) (w : Who) (a : Nat) : Nat → List Byte
  | 0 => []
  | n + 1 => viewByte s w a :: viewBytes s w (a + 1) n

def view64 (s : State) (w : Who) (a : Nat) : Word := BitVec.ofNat 64 (natOf (viewBytes s w a 8))
def view32 (s : State) (w : Who) (a : Nat) : W32 := BitVec.ofNat 32 (natOf (viewBytes s w a 4))

/-- Plain memory, by words, as firmware, walks and home slices read it. -/
def mem64 (s : State) (a : Nat) : Word := BitVec.ofNat 64 (natOf (Memory.getBytes s.mem a 8))
def putMem (s : State) (a : Nat) (l : List Byte) : State := { s with mem := Memory.setBytes s.mem a l }
def putMem64 (s : State) (a : Nat) (v : Word) : State := putMem s a (bytesOf 8 v.toNat)

/-! ### Poison tags of memory -/

/-- The tag kept for the aligned word at `a` (`a` a multiple of 8), as an accessor sees it. -/
def rawTag (s : State) (w : Who) (a : Nat) : Tag :=
  match w.node.bind (s.inst? w.part ·) with
  | some i => match aget i.stagedTag (a / 8) with | some t => t | none => aget s.memTag (a / 8)
  | none => aget s.memTag (a / 8)

/-- The tag of the word holding `a`. -/
def wordTag (s : State) (w : Who) (a : Nat) : Tag := rawTag s w (a / 8 * 8)

/-- Whether a flow of a partition to a package can be used: V = 1 and DEAD = 0 (R342). -/
def flowOk (s : State) (part : Nat) (pa : Nat) : Bool :=
  isLocal s pa ||
  (let tc := ((s.part? part).map (·.cfg.tc.toNat)).getD 0
   match aget s.routes (pkgOf pa * 8 + tc % 8) with
   | some e => e.getLsbD 31 && !e.getLsbD 30
   | none => false)

/-- Whether a local address lies behind a memory port whose link has failed (R340). -/
def portFailed (s : State) (pa : Nat) : Bool :=
  isLocal s pa && (match cxlPort pa with | some p => s.cxlFailed.contains p | none => false)

/-- Whether a request of a partition for an address is sent and answered: not on a dead flow, nor by a failed port. -/
def sendable (s : State) (part : Nat) (pa : Nat) : Bool := flowOk s part pa && !portFailed s pa

/-! ### Error records and poison from other packages (R418..R420) -/

/-- The first word of an error record (Table 26.2). -/
def recordWord (seq : BitVec 32) (cls : BitVec 4) (kind : Nat) (part : Nat) (die : Nat) (unit : BitVec 10) : Word :=
  BitVec.ofNat 64 (seq.toNat * 2 ^ 32 + cls.toNat * 2 ^ 28 + kind % 4 * 2 ^ 26 + part % 64 * 2 ^ 20 + die % 4 * 2 ^ 18 +
    unit.toNat * 2 ^ 8 + seq.toNat % 256)

/-- Write an error record into a die's ring. -/
def errorRecord (s : State) (die : Nat) (cls : BitVec 4) (kind part : Nat) (unit : BitVec 10) (wh detail : Word) : State :=
  s.modDie die fun d =>
    { d with
      ring := aset d.ring (d.errSeq.toNat % 256)
        [recordWord d.errSeq cls kind part die unit, wh, detail, Config.clock (576 + die) s.clk],
      errSeq := d.errSeq + 1 }

/-- The tag of the record that a die writes next. -/
def nextTag (s : State) (die : Nat) (cls : BitVec 4) : BitVec 12 :=
  cls ++ BitVec.extractLsb' 0 8 (((s.dies[die]?).map Die.errSeq).getD 0)

/-- Scale-up ports. -/
def portCount : Nat := 18

/-- The error that a read meets on its way: die, unit class and UNIT of its record (R340, R342). -/
def pathError (s : State) (part : Nat) (pa : Nat) : Option (Nat × BitVec 4 × BitVec 10) :=
  if !flowOk s part pa then some (homeSlice pa / 64, 8, BitVec.ofNat 10 (pkgOf pa))
  else if portFailed s pa then
    let p := (cxlPort pa).getD 0
    some (Config.portDie (portCount + p) % 4, 2, BitVec.ofNat 10 p)
  else none

/-- Whether a word comes poisoned from another package; what the accessor's node staged of it has not left this one. -/
def comesPoisoned (s : State) (w : Who) (k : Nat) : Bool :=
  !isLocal s (8 * k) && (aget s.memTag k).isSome &&
    !((w.node.bind (s.inst? w.part ·)).any fun i => (aget i.stagedTag k).isSome)

/-- The aligned words that `n` bytes at `a` touch. -/
def wordsOf (a n : Nat) : List Nat := (List.range ((a + n - 1) / 8 + 1 - a / 8)).map (a / 8 + ·)

/-- The error that a read of `n` bytes meets: on its way, or poison that comes from another package (R420). -/
def readError (s : State) (w : Who) (a n : Nat) : Option (Nat × BitVec 4 × BitVec 10) :=
  match pathError s w.part a with
  | some e => some e
  | none =>
    if (wordsOf a n).any (comesPoisoned s w) then some (homeSlice a / 64, 8, BitVec.ofNat 10 (pkgOf a)) else none

/-- The tag of a read of `n` bytes: that of the error on its way; else the merge of the words' tags, where a word that comes
poisoned from another package has class 8 and names the local record of its arrival (R194, R340, R342, R420). -/
def rangeTag (s : State) (w : Who) (a n : Nat) : Tag :=
  match pathError s w.part a with
  | some (die, cls, _) => some (nextTag s die cls)
  | none => mergeTags ((wordsOf a n).map fun k =>
      if comesPoisoned s w k then some (nextTag s (homeSlice a / 64) 8) else wordTag s w (8 * k))

/-- The tag a word gets when bytes [lo, hi) of it are written with data of tag `t` (R194). -/
def writtenTag (old t : Tag) (whole : Bool) : Tag := if whole then t else mergeTag old t

def setMemTag (s : State) (a : Nat) (t : Tag) : State :=
  { s with memTag := match t with | some x => aset s.memTag (a / 8) x | none => adel s.memTag (a / 8) }

/-- Whether a line of the deep tier leaves its home slice now: one with a park bit stays (R114); else a free value says so
(log 18). -/
def lineLeaves (s : State) (line : Nat) : Bool :=
  isDeepPa (line * 256) && !(s.park.any fun (k, _) => k / 32 == line) && Config.lineEvicted s.clk line

/-! ### Lines of the deep tier (R114) -/

/-- Lines of the deep tier that leave their home slice come back with the lowest tag of the line on every word (R114). -/
def settleDeep (s : State) : State :=
  ((s.memTag.map fun (k, _) => k / 32).eraseDups.filter (lineLeaves s)).foldl (fun s l =>
    let t := mergeTags ((List.range 32).map fun k => aget s.memTag (32 * l + k))
    (List.range 32).foldl (fun s k => setMemTag s (256 * l + 8 * k) t) s) s

/-- Whether bytes [a, a+n) cover the aligned word `k` whole. -/
def coversWord (a n k : Nat) : Bool := decide (a ≤ 8 * k) && decide (8 * k + 8 ≤ a + n)

/-- Update the tags of the words that a write of `n` bytes at `a` touches. -/
def tagWrite (s : State) (a n : Nat) (t : Tag) : State :=
  (List.range ((a + n - 1) / 8 + 1 - a / 8)).foldl (fun s k =>
    let k := a / 8 + k
    setMemTag s (8 * k) (writtenTag (aget s.memTag k) t (coversWord a n k))) s

/-! ### Immediate and staged writes -/

/-- The first immediate operation of a node makes it irrevocable (R191). -/
def markIrrev (s : State) (w : Who) : State :=
  match w.node with
  | some n => s.modInst w.part n fun i => { i with irrev := true }
  | none => s

/-- Perform the bytes that the accessor's node staged in the word at `a`, as part of an immediate operation (R191). -/
def performStaged (s : State) (w : Who) (a : Nat) : State :=
  match w.node.bind fun n => (s.inst? w.part n).map (n, ·) with
  | some (n, i) =>
    let base := a / 8 * 8
    let bs := (List.range 8).filterMap fun k => (cellFind i.staged (base + k)).map (base + k, ·)
    if bs.isEmpty then s
    else
      let t := rawTag s w base
      let s := { s with mem := bs.foldl (fun m (x, b) => Memory.set m x b) s.mem }
      let s := setMemTag s base t
      s.modInst w.part n fun i =>
        { i with staged := bs.foldl (fun l (x, _) => cellDrop l x) i.staged, stagedTag := adel i.stagedTag (a / 8) }
  | none => s

/-- A fabric error: a store, atomic or add that cannot be sent is discarded and counted (R342). -/
def countFabErr (s : State) (p : Nat) : State := s.modPart p fun x => { x with fabErr := x.fabErr + 1 }

/-- Poison that reaches host memory is consumed where it is written (R421); the accessor's member records it. -/
def writeNow (s : State) (w : Who) (a : Nat) (l : List Byte) (t : Tag) : State :=
  if !flowOk s w.part a then countFabErr s w.part
  else if portFailed s a then s
  else
    let s := (List.range ((a + l.length - 1) / 8 + 1 - a / 8)).foldl (fun s k => performStaged s w ((a / 8 + k) * 8)) s
    tagWrite (putMem s a l) a l.length t

/-- A write that firmware or a unit makes for a partition, outside any node. -/
def putFw (s : State) (part a : Nat) (l : List Byte) : State := writeNow s (Who.agent part) a l none

/-- Whether an ordinary write of this accessor to this place is staged: every write into host memory is immediate. -/
def isStagedWrite (w : Who) (a : Nat) : Bool := w.staged && !isHostPa a

/-- The lines that `n` bytes at `a` lie in. -/
def linesOf (a n : Nat) : List Nat := (List.range ((a + n - 1) / 256 + 1 - a / 256)).map (a / 256 + ·)

/-- The bytes that a read returns: free ones when its request is not sent or not answered (R340, R342). -/
def seenBytes (s : State) (w : Who) (a n : Nat) : List Byte :=
  if sendable s w.part a then viewBytes s w a n else (List.range n).map fun i => Config.lostByte s.clk (a + i)

def seen64 (s : State) (w : Who) (a : Nat) : Word := BitVec.ofNat 64 (natOf (seenBytes s w a 8))
def seen32 (s : State) (w : Who) (a : Nat) : W32 := BitVec.ofNat 32 (natOf (seenBytes s w a 4))

/-- Records of the staging area are freed: `n` of them, and whoever waited for one is no longer held and tries again (R292). -/
def Part.freeStage (p : Part) (n : Nat) : Part :=
  { p with
    stageUse := p.stageUse - BitVec.ofNat 64 (512 * n)
    nodes := if n = 0 then p.nodes else
      p.nodes.map fun (k, x) => (k, { x with inst := x.inst.map fun i => { i with waitStage := false } }) }

/-- A read that its node makes brings the staged lines that it touches back into L2: their records are freed (R292). -/
def bringBack (s : State) (w : Who) (a n : Nat) : State :=
  match w.node.bind fun nd => (s.inst? w.part nd).map (nd, ·) with
  | none => s
  | some (nd, i) =>
    let keep := i.records.filter fun l => !(linesOf a n).contains l
    if keep = i.records then s
    else (s.modPart w.part (·.freeStage (i.records.length - keep.length))).modInst w.part nd fun i => { i with records := keep }

/-- What a read does to the state: the error that it meets is recorded (R418), and staged lines come back (R292). -/
def arrive (s : State) (w : Who) (a n : Nat) : State :=
  let s := match readError s w a n with
    | some (die, cls, unit) => errorRecord s die cls 1 w.part unit (BitVec.ofNat 64 a) 0
    | none => s
  bringBack s w a n

/-- The ways of L2 that a partition has in a slice: its quota, less those disabled there (R424, Table 26.5). -/
def wayQuota (s : State) (part slice : Nat) : Nat :=
  ((s.part? part).map (·.cfg.l2ways.toNat)).getD 0 - (aget s.l2Off slice).getD 0

/-- The staged lines of an instance that stand in the staging area once it has staged a write to some lines: L2 may have
evicted any line, and keeps none in a slice where the partition has no way left; a line that an access brought back holds no
record (R292, log 19). -/
def Inst.spilled (i : Inst) (s : State) (part : Nat) (lines : List Nat) : List Nat :=
  let held : List Nat := i.staged.map fun (x, _) => x / 256
  ((lines ++ held).filter fun l => wayQuota s part (homeSlice (256 * l)) == 0 || Config.lineSpills s.clk l).foldl nsAdd []

/-- Bytes of the staging area free in a partition (R292). -/
def stageFree (p : Part) : Nat := p.cfg.stageSize.toNat - p.stageUse.toNat

/-- A staged write, or none when it needs a record of the staging area and none is free (R292). -/
def writeStaged (s : State) (w : Who) (a : Nat) (l : List Byte) (t : Tag) : Option State :=
  match w.node.bind fun n => (s.inst? w.part n).map (n, ·), s.part? w.part with
  | some (n, i), some p =>
    let recs := i.spilled s w.part (linesOf a l.length)
    if stageFree p + 512 * i.records.length < 512 * recs.length then none
    else
      let tags := (List.range ((a + l.length - 1) / 8 + 1 - a / 8)).foldl (fun m k =>
        let k := a / 8 + k
        aset m k (writtenTag (rawTag s w (8 * k)) t (coversWord a l.length k))) i.stagedTag
      let cells := l.zipIdx.foldl (fun m (b, k) => cellPut m (a + k) b) i.staged
      let s := s.modPart w.part fun p =>
        { p with stageUse := p.stageUse - BitVec.ofNat 64 (512 * i.records.length) + BitVec.ofNat 64 (512 * recs.length) }
      some (s.modInst w.part n fun i =>
        { i with staged := cells, stagedTag := tags, records := recs, waitStage := false })
  | _, _ => some (writeNow s w a l t)

/-- An ordinary write: staged or immediate (R191). -/
def writeBytes (s : State) (w : Who) (a : Nat) (l : List Byte) (t : Tag) : Option State :=
  if isStagedWrite w a then writeStaged s w a l t
  else some (markIrrev (writeNow s w a l t) w)

/-- An immediate write that makes the node irrevocable. -/
def writeImm (s : State) (w : Who) (a : Nat) (l : List Byte) (t : Tag) : State := markIrrev (writeNow s w a l t) w

/-! ### Page tables (R182..R184, R379) -/

/-- A page table entry's fields (Table 9.2). -/
def pteV (e : Word) : Bool := e.getLsbD 0
def pteT (e : Word) : Bool := e.getLsbD 1
def ptePa (e : Word) : Nat := (e.extractLsb' 16 42).toNat * 65536
def pteRsv (e : Word) : Bool := e.extractLsb' 58 6 != 0 || e.extractLsb' 14 2 != 0 || e.getLsbD 6
def pteTier (e : Word) : BitVec 2 := e.extractLsb' 9 2

/-- Index shift and width of a level (Table 9.1). -/
def levelShift (l : Nat) : Nat := match l with | 0 => 42 | 1 => 28 | 2 => 21 | _ => 16
def levelBits (l : Nat) : Nat := match l with | 0 => 14 | 1 => 14 | 2 => 7 | _ => 5
def levelIndex (l : Nat) (a : Nat) : Nat := a / 2 ^ levelShift l % 2 ^ levelBits l

/-- A leaf that a walk ended in. -/
structure Leaf where
  base : Nat
  level : Nat
  entry : Word
  entryPa : Nat
  deriving DecidableEq, Repr

/-- Why a walk failed. -/
abbrev WalkFail := Cause × WalkInfo

def s2fail (l : Nat) (e : Word) (ea gpa : Nat) : WalkFail :=
  (.xlateS2, ⟨true, l, e, BitVec.ofNat 64 ea, BitVec.ofNat 64 gpa, 0⟩)

/-- The stage-2 walk of a guest-physical address from level `l`, whose table stands at physical `tab`. -/
def walk2From (s : State) (gpa : Nat) : List Nat → Nat → Except WalkFail Leaf
  | [], tab => .error (s2fail 3 0 tab gpa)
  | l :: rest, tab =>
    let ea := tab + 8 * levelIndex l gpa
    let e := mem64 s ea
    let size := 2 ^ levelShift l
    if !pteV e || pteRsv e || e.getLsbD 13 then .error (s2fail l e ea gpa)
    else if pteT e then
      if l = 3 ∨ (l = 0 ∧ ptePa e % 131072 ≠ 0) then .error (s2fail l e ea gpa)
      else walk2From s gpa rest (ptePa e)
    else if l = 0 ∨ ptePa e % size ≠ 0 then .error (s2fail l e ea gpa)
    else if rangeTier s (ptePa e) size ≠ some (pteTier e) ∨ (pteTier e = 3 ∧ l = 1) then .error (s2fail l e ea gpa)
    else .ok ⟨ptePa e, l, e, ea⟩

/-- Translate a guest-physical address by stage 2: its leaf. R184 speaks of bits 63..56 of a virtual address only: that a
guest-physical address of 2^56 or more ends the walk in XLATE_S2 with LEVEL 7 is the model's choice (DESIGN CHOICE,
log 53). -/
def walk2 (s : State) (p : Part) (gpa : Nat) : Except WalkFail Leaf :=
  if 2 ^ 56 ≤ gpa then .error (s2fail 7 0 0 gpa)
  else walk2From s gpa [0, 1, 2, 3] p.cfg.s2root.toNat

def Leaf.pa (l : Leaf) (a : Nat) : Nat := l.base + a % 2 ^ levelShift l.level

/-- The physical address of a guest-physical one, when stage 2 maps it. -/
def gpaPa (s : State) (p : Part) (gpa : Nat) : Except WalkFail Nat := (walk2 s p gpa).map (·.pa gpa)

/-- A translated page (R184): base, size code, rights, tier, and the leaf entries. -/
structure Page where
  base : Nat
  size : BitVec 2
  r : Bool
  w : Bool
  x : Bool
  fe : Bool
  c : Bool
  sys : Bool
  tier : BitVec 2
  entry1 : Nat
  entry2 : Nat
  level : Nat
  e1 : Word
  ea1 : Word
  deriving DecidableEq, Repr

def sizeLog (z : BitVec 2) : Nat := match z.toNat with | 0 => 16 | 1 => 21 | _ => 28
def sizeCode (l : Nat) : BitVec 2 := match l with | 1 => 2 | 2 => 1 | _ => 0

def s1fail (l : Nat) (e : Word) (ea : Nat) : WalkFail := (.xlateS1, ⟨false, l, e, BitVec.ofNat 64 ea, 0, 0⟩)

/-- A walk that ends at an entry with V = 0 and N = 1 (R184, R223): REGEN when the named entry is valid. -/
def regenEnd (s : State) (p : Part) (l : Nat) (e : Word) (ea : Nat) : WalkFail :=
  let idx := (e.extractLsb' 16 48).toNat
  if p.cfg.regenCount.toNat ≤ idx then s1fail l e ea
  else
    match gpaPa s p (p.cfg.regenBase.toNat + 16 * idx) with
    | .error f => f
    | .ok pa =>
      if (mem64 s pa).getLsbD 32 then (.regen, ⟨false, l, e, BitVec.ofNat 64 ea, 0, BitVec.ofNat 64 idx⟩)
      else s1fail l e ea

/-- The page of a stage-1 leaf `e` at level `l` and the stage-2 leaf of its page (R184). -/
def joinLeaves (s : State) (p : Part) (va : Nat) (l : Nat) (e : Word) (ea pe : Nat) : Except WalkFail Page :=
  let gpa := ptePa e + va % 2 ^ levelShift l
  match walk2 s p gpa with
  | .error f => .error f
  | .ok l2 =>
    if pteTier e ≠ pteTier l2.entry then .error (s1fail l e ea)
    else
      let lv := max l l2.level
      let pa := l2.pa gpa
      .ok { base := pa / 2 ^ levelShift lv * 2 ^ levelShift lv, size := sizeCode lv,
            r := e.getLsbD 2 && l2.entry.getLsbD 2, w := e.getLsbD 3 && l2.entry.getLsbD 3,
            x := e.getLsbD 4 && l2.entry.getLsbD 4, fe := e.getLsbD 7 && l2.entry.getLsbD 7,
            c := e.getLsbD 8 && l2.entry.getLsbD 8, sys := e.getLsbD 5, tier := pteTier l2.entry,
            entry1 := pe, entry2 := l2.entryPa, level := l, e1 := e, ea1 := BitVec.ofNat 64 ea }

/-- The stage-1 walk from level `l`, whose table stands at guest-physical `tab`. -/
def walk1From (s : State) (p : Part) (va : Nat) : List Nat → Nat → Except WalkFail Page
  | [], tab => .error (s1fail 3 0 tab)
  | l :: rest, tab =>
    let ea := tab + 8 * levelIndex l va
    match gpaPa s p ea with
    | .error f => .error f
    | .ok pe =>
      let e := mem64 s pe
      if !pteV e then
        if e.getLsbD 13 then .error (regenEnd s p l e ea) else .error (s1fail l e ea)
      else if pteRsv e then .error (s1fail l e ea)
      else if pteT e then
        if l = 3 ∨ (l = 0 ∧ ptePa e % 131072 ≠ 0) then .error (s1fail l e ea)
        else walk1From s p va rest (ptePa e)
      else if l = 0 ∨ ptePa e % 2 ^ levelShift l ≠ 0 then .error (s1fail l e ea)
      else joinLeaves s p va l e ea pe

/-- Walk a virtual address of a partition (R184). -/
def walk (s : State) (p : Part) (va : Nat) : Except WalkFail Page :=
  if 2 ^ 56 ≤ va then .error (s1fail 7 0 0) else walk1From s p va [0, 1, 2, 3] p.s1root.toNat

/-- Table 9.4: the page permits the intent. -/
def intentOk (pg : Page) (i : BitVec 2) : Bool :=
  match i.toNat with
  | 0 => pg.r
  | 1 => pg.r && pg.w && !pg.c
  | 2 => pg.r && pg.w && !pg.c
  | _ => pg.r && pg.w && pg.c

/-- OR bits into a page table entry (R184). -/
def orEntry (s : State) (a : Nat) (b : Word) : State := putMem64 s a (mem64 s a ||| b)

/-- Set A, and D for a writing intent, in both leaves (R184). -/
def touchPage (s : State) (pg : Page) (i : BitVec 2) : State :=
  let b : Word := if i = 0 then 0x800 else 0x1800
  orEntry (orEntry s pg.entry1 b) pg.entry2 b

/-- A translation under an intent by code with or without the system bit (R186): the page, or the failure. -/
def translate (s : State) (part : Nat) (sys : Bool) (va : Nat) (i : BitVec 2) : Except WalkFail Page :=
  match s.part? part with
  | none => .error (s1fail 7 0 0)
  | some p =>
    match walk s p va with
    | .error f => .error f
    | .ok pg =>
      if intentOk pg i && (!pg.sys || sys) then .ok pg
      else .error (.perm, ⟨false, pg.level, pg.e1, pg.ea1, 0, 0⟩)

def Page.pa (pg : Page) (va : Nat) : Nat := pg.base + va % 2 ^ sizeLog pg.size

/-- The physical address of a virtual one under an intent, with the page's A and D bits set. -/
def reach (s : State) (part : Nat) (sys : Bool) (va : Nat) (i : BitVec 2) : Except WalkFail (State × Nat) :=
  match translate s part sys va i with
  | .error f => .error f
  | .ok pg => .ok (touchPage s pg i, pg.pa va)

/-- Reach the 64 KiB granules from number `g` on, `k` of them; the first failing one with its address. -/
def reachFrom (s : State) (part : Nat) (sys : Bool) (va : Nat) (i : BitVec 2) :
    Nat → Nat → Except (Nat × WalkFail) (State × List Nat)
  | 0, _ => .ok (s, [])
  | k + 1, g =>
    match reachFrom s part sys va i k g with
    | .error f => .error f
    | .ok (s, l) =>
      let a := max va ((g + k) * 65536)
      match reach s part sys a i with
      | .error f => .error (a, f)
      | .ok (s, pa) => .ok (s, l ++ [pa / 65536 * 65536])

/-- The physical bases of the 64 KiB granules that `n` bytes at a virtual address touch. -/
def reachRange (s : State) (part : Nat) (sys : Bool) (va n : Nat) (i : BitVec 2) :
    Except (Nat × WalkFail) (State × List Nat) :=
  reachFrom s part sys va i ((va % 65536 + n + 65535) / 65536) (va / 65536)

/-- The physical address at offset `off` of a range reached by granules. -/
def granAddr (l : List Nat) (va off : Nat) : Nat :=
  let x := va % 65536 + off
  l.getD (x / 65536) 0 + x % 65536

/-! ### Counters (R205) -/

/-- Whether a node of some partition stands in a counter's waiter list (R307). -/
def watched (s : State) (a : Nat) : Bool := s.parts.any fun (_, p) => p.nodes.any fun (_, n) => n.watch == some a

/-- An add that left a value in a counter: the nodes that watch it are yet to see it (R308). -/
def noteAdd (s : State) (a v : Nat) : State := if watched s a then { s with adds := s.adds ++ [(a, v)] } else s

/-- The value that an add leaves in a counter: it saturates (R205). -/
def addedTo (c : Word) (v : BitVec 32) : Nat := min (c.toNat + v.toNat) (2 ^ 64 - 1)

/-- Add to a counter (R205). An add that cannot be sent changes nothing (R340, R342). -/
def counterAdd (s : State) (w : Who) (a : Nat) (v : BitVec 32) (t : Tag) : State :=
  let n := addedTo (view64 s w a) v
  let s' := writeImm s w a (bytesOf 8 n) (mergeTag (rawTag s w a) t)
  if sendable s w.part a then noteAdd s' a n else s'

/-- Add to a counter named by a virtual address; dropped when it does not translate with intent 3 (R403). -/
def addVa (s : State) (part : Nat) (va : Word) (v : BitVec 32) : State :=
  if va = 0 then s
  else match reach s part true va.toNat 3 with
    | .ok (s', pa) => counterAdd s' (Who.agent part) pa v none
    | .error _ => s

/-- Raise a partition's event counter by 1 (R307, R310). -/
def raiseEvent (s : State) (part : Nat) : State :=
  match s.part? part with
  | some p => addVa s part p.cfg.eventCtr 1
  | none => s

/-! ### Full/empty and park bits (R114, R384, R386) -/

def isFull (s : State) (a : Nat) : Bool := !s.feEmpty.contains (a / 8)

def parkBits (s : State) (a : Nat) : BitVec 3 := (aget s.park (a / 8)).getD 0

/-- Park bit numbers: PF 0, PT 1, PE 2. -/
def parkPF (b : BitVec 3) : Bool := b.getLsbD 0
def parkPT (b : BitVec 3) : Bool := b.getLsbD 1
def parkPE (b : BitVec 3) : Bool := b.getLsbD 2

/-- Set the park bits of a memory word for a partition. -/
def setPark (s : State) (part a : Nat) (b : BitVec 3) : State :=
  { s with park := if b = 0 then adel s.park (a / 8) else aset s.park (a / 8) b,
           parkPart := if b = 0 then adel s.parkPart (a / 8) else aset s.parkPart (a / 8) part }

/-- The partition that a word's park bits were set for: of a scratchpad word, the one that has its cluster. -/
def parkedPart (s : State) (spad : Bool) (key : Nat) : Option Nat :=
  if spad then (s.parts.find? fun (_, p) => p.cfg.clusters.getLsbD (key / 2 ^ 32 / 12)).map (·.1)
  else aget s.parkPart (key / 8)

/-- Write a wake record for a key and raise the wake counter (R386, Table 21.5). -/
def wakeRecord (s : State) (spad : Bool) (key : Nat) (op : Nat) (full : Bool) : State :=
  match parkedPart s spad key with
  | none => s
  | some pi =>
    match s.part? pi with
    | none => s
    | some p =>
      match reach s pi true p.cfg.wakeCtr.toNat 3 with
      | .error _ => s
      | .ok (s, cpa) =>
        let n := (mem64 s cpa).toNat % max p.cfg.wakeCount.toNat 1
        let w0 := (if spad then 2 ^ 63 else 0) + 2 ^ 62 + key
        let w1 := op * 256 + (if full then 1 else 0)
        let s := match gpaPa s p (p.cfg.wakeBase.toNat + 16 * n) with
          | .ok pa => putFw s pi pa (bytesOf 8 w0 ++ bytesOf 8 w1)
          | .error _ => s
        counterAdd s (Who.agent pi) cpa 1 none

/-- The key of a scratchpad word (Table 21.4). -/
def spKey (core a : Nat) : Nat := core * 2 ^ 32 + a

/-- Set a memory word's full/empty bit, waking parked waiters when the new state is wanted (R386). -/
def setFull (s : State) (a : Nat) (full : Bool) (op : Nat) : State :=
  let old := isFull s a
  let s := { s with feEmpty := if full then nsDel s.feEmpty (a / 8) else nsAdd s.feEmpty (a / 8) }
  let b := parkBits s a
  if old != full && ((full && parkPF b) || (!full && parkPE b)) then wakeRecord s false (a / 8 * 8) op full else s

/-- Set a scratchpad pair's full/empty bit, by the pair's byte address. -/
def setSpFull (s : State) (core a : Nat) (full : Bool) (op : Nat) : State :=
  let c := s.core core
  let old := !c.spEmpty.contains (a / 8)
  let s := s.setCore core { c with spEmpty := if full then nsDel c.spEmpty (a / 8) else nsAdd c.spEmpty (a / 8) }
  let b := (aget c.spPark (a / 8)).getD 0
  if old != full && ((full && parkPF b) || (!full && parkPE b)) then wakeRecord s true (spKey core (a / 8 * 8)) op full
  else s

end Sys2Proof.Machine
end

