-- ==== Sys2Proof/Machine/Scratch.lean ====
section
/-! DEFINITION. The pool of a core: scratchpad, scalar slice, lane-private slices, the cluster-shared window, the tile
aperture and the repair table (R93..R108, R232, R425, R426). -/

namespace Sys2Proof.Machine

/-! ### Pool words -/

/-- A pool word; one that nothing has written is undefined, or 0 after a partition change (R98). -/
def Core.word (c : Core) (w : Nat) : W32 :=
  match aget c.pool w with
  | some v => v
  | none => match c.poolSeed with | none => 0 | some k => Config.freePool k w

/-- The pool word whose row an entry substitutes. -/
def repairWord (v : BitVec 64) : Nat := 257 * (v.extractLsb' 0 12).toNat + (v.extractLsb' 12 9).toNat

/-- The cell that serves a pool word: its own, or that of the spare row which a valid repair entry puts in its place (R95, R426);
the spare rows of a bank follow its rows 0..4,095. -/
def Core.served (c : Core) (w : Nat) : Nat :=
  match c.repair.find? fun e => e.getLsbD 23 && repairWord e == w with
  | some e => 257 * (4096 + (e.extractLsb' 21 2).toNat) + w % 257
  | none => w

/-- A value with the bits of a mask at the levels of another value. -/
def forceBits {n : Nat} (x : BitVec n) : Option (BitVec n × BitVec n) → BitVec n
  | some (m, v) => (x &&& ~~~m) ||| (v &&& m)
  | none => x

/-- What a read of a pool word finds: a stuck bit of its cell is at its level (R432). -/
def Core.cell (c : Core) (w : Nat) : W32 := forceBits (c.word w) (aget c.stuck (c.served w))

def Core.setWord (c : Core) (w : Nat) (v : W32) : Core := { c with pool := aset c.pool w v }

/-- Scratchpad capacity in bytes (R103). -/
def Core.cap (c : Core) : Nat := 1028 * (c.b3 - c.b2)

/-- Lane-private words per lane (R101). -/
def Core.lpr (c : Core) : Nat := c.b2 - c.b1

/-- Word number of scratchpad byte address `a` (R103). -/
def Core.spWord (c : Core) (a : Nat) : Nat := 257 * c.b2 + a / 4

/-- Word number of byte `b` of the scalar slice (R102): bank 256 of row B1 + b div 4. -/
def Core.sliceWord (c : Core) (b : Nat) : Nat := 257 * (c.b1 + b / 4) + 256

/-- Word number of word `r` of lane `i`'s slice (R101). -/
def Core.laneWord (c : Core) (i r : Nat) : Nat := 257 * (c.b1 + r) + i

def Core.pairTag (c : Core) (a : Nat) : Tag := aget c.spTag (a / 8)
def Core.setPairTag (c : Core) (a : Nat) (t : Tag) : Core :=
  { c with spTag := match t with | some x => aset c.spTag (a / 8) x | none => adel c.spTag (a / 8) }

/-- Little-endian words from `n / 4` pool words. -/
def Core.readWords (c : Core) (w : Nat) : Nat → List Byte
  | 0 => []
  | n + 1 => bytesOf 4 (c.cell w).toNat ++ c.readWords (w + 1) n

def Core.writeWords (c : Core) (w : Nat) : List W32 → Core
  | [] => c
  | v :: r => (c.setWord w v).writeWords (w + 1) r

/-! ### Tiles -/

def OSlot.init : OSlot := ⟨false, 0, 0, 0, 0, [], []⟩
def Acc.init : Acc := ⟨false, 0, true, 0, []⟩
def Core.oslot (c : Core) (o : Nat) : OSlot := (aget c.oslots o).getD OSlot.init
def Core.acc (c : Core) (a : Nat) : Acc := (aget c.accs a).getD Acc.init
def Core.setOslot (c : Core) (o : Nat) (x : OSlot) : Core := { c with oslots := aset c.oslots o x }
def Core.setAcc (c : Core) (a : Nat) (x : Acc) : Core := { c with accs := aset c.accs a x }
def OSlot.byte (x : OSlot) (b : Nat) : Byte := (aget x.data b).getD (Config.freeByte x.seed b)
def OSlot.setByte (x : OSlot) (b : Nat) (v : Byte) : OSlot := { x with data := aset x.data b v }

/-- Element `e` of an accumulator; one of a fresh claim is undefined (R228). -/
def Acc.elem (x : Acc) (e : Nat) : Elem :=
  match aget x.elems e with
  | some v => v
  | none =>
    if x.zero then Elem.zero
    else
      let (m, ew, g) := Config.freeAcc x.seed e
      ⟨m, ew.extractLsb' 0 16, ew.getLsbD 16, g, none⟩
def Acc.setElem (x : Acc) (e : Nat) (v : Elem) : Acc := { x with elems := aset x.elems e v }

/-- A byte of a tile that starts at slot `o`; a BFP16 pair runs on into slot `o + 1` (R225). -/
def Core.tileByte (c : Core) (o b : Nat) : Byte := (c.oslot (o + b / 4224)).byte (b % 4224)
def Core.setTileByte (c : Core) (o b : Nat) (v : Byte) : Core :=
  c.setOslot (o + b / 4224) ((c.oslot (o + b / 4224)).setByte (b % 4224) v)

/-- Block `b` of a tile of width `m`. -/
def Core.tileBlock (c : Core) (o m b : Nat) : List Byte :=
  (List.range (4 * m + 1)).map fun k => c.tileByte o (b * (4 * m + 1) + k)

def Core.setTileBlock (c : Core) (o m b : Nat) (l : List Byte) (t : Tag) : Core :=
  let c := l.zipIdx.foldl (fun c (v, k) => c.setTileByte o (b * (4 * m + 1) + k) v) c
  let x := c.oslot o
  c.setOslot o { x with tags := match t with | some y => aset x.tags b y | none => adel x.tags b }

/-- The state word of an operand slot (Table 11.3). -/
def OSlot.stateWord (x : OSlot) : Word :=
  BitVec.ofNat 64 ((if x.cl then 1 else 0) + x.role.toNat * 2 ^ 11 + x.m.toNat * 2 ^ 13 + x.owner % 4 * 2 ^ 18)
def Acc.stateWord (x : Acc) : Word := BitVec.ofNat 64 ((if x.cl then 1 else 0) + x.owner % 4 * 2 ^ 18)
def tagWord : Tag → W32
  | none => 0
  | some t => 1#1 ++ 0#19 ++ t
def tagOfWord (w : W32) : Tag := if w.getLsbD 31 then some (w.extractLsb' 0 12) else none

/-! ### Scratchpad addresses -/

/-- What a scratchpad address reaches (Tables 5.4, 11.2, 26.7). -/
inductive SpPlace where
  | word (core a : Nat)
  | slice (core b : Nat)
  | tile (o b : Nat)
  | tileState (o : Nat) (b : Nat)
  | tileTag (o b : Nat)
  | accWord (a e w : Nat)
  | accState (a : Nat) (b : Nat)
  | repair (e : Nat)
  deriving DecidableEq, Repr

/-- Which form accesses the scratchpad space. -/
inductive SpForm where
  | scalar | vector | gather | engine | fe | scalarD
  deriving DecidableEq, Repr

/-- Cores of the issuing core's cluster: the core with number `k` there. -/
def clusterCore (core k : Nat) : Nat := core / 12 * 12 + k

/-- The tile aperture (Table 11.2): one access of `n` bytes inside one tile, state word or tag table. -/
def aperture (a n : Nat) : Option SpPlace :=
  if a < 0x2_0008_0000 then
    let o := (a - 0x2_0000_0000) / 0x2000
    let b := (a - 0x2_0000_0000) % 0x2000
    if b + n ≤ 4224 then some (.tile o b) else none
  else if a + n ≤ 0x2_0008_0200 then some (.tileState ((a - 0x2_0008_0000) / 8) ((a - 0x2_0008_0000) % 8))
  else if 0x2_0009_0000 ≤ a ∧ a + n ≤ 0x2_0009_8000 then
    some (.tileTag ((a - 0x2_0009_0000) / 0x200) ((a - 0x2_0009_0000) % 0x200 / 4))
  else if 0x2_0010_0000 ≤ a ∧ a + n ≤ 0x2_0020_0000 then
    let x := a - 0x2_0010_0000
    some (.accWord (x / 0x4_0000) (x % 0x4_0000 / 16) (x % 16 / 4))
  else if 0x2_0020_0000 ≤ a ∧ a + n ≤ 0x2_0020_0020 then
    some (.accState ((a - 0x2_0020_0000) / 8) ((a - 0x2_0020_0000) % 8))
  else none

/-- Resolve a scratchpad address of an `n`-byte access (R102, R103, R108, R232, R425): `sys` is the segment's system
bit, `pub` tells that the bundle belongs to a body whose digest Table 11.4 publishes. -/
def resolveSp (s : State) (core : Nat) (form : SpForm) (sys pub : Bool) (a n : Nat) : Except Cause SpPlace :=
  let c := s.core core
  let scal := form == .scalar || form == .scalarD || form == .fe
  if a + n ≤ c.cap ∧ a < 2 ^ 31 then .ok (.word core a)
  else if 2 ^ 31 ≤ a ∧ a + n ≤ 2 ^ 31 + 4 * c.lpr then
    if form == .fe then .error .feNotCapable
    else if scal then .ok (.slice core (a - 2 ^ 31)) else .error .offsetRange
  else if 2 ^ 32 ≤ a ∧ a < 2 ^ 32 + 12 * 2 ^ 23 then
    let k := (a - 2 ^ 32) / 2 ^ 23
    let b := (a - 2 ^ 32) % 2 ^ 23
    let t := clusterCore core k
    if b + n ≤ (s.core t).cap then .ok (.word t b) else .error .offsetRange
  else if 0x2_0000_0000 ≤ a ∧ a < 0x3_0000_0000 then
    match aperture a n with
    | none => .error .offsetRange
    | some p =>
      if form == .fe then .error .feNotCapable
      else if pub && (scal || form == .vector) then .ok p else .error .offsetRange
  else if 0x3_0000_0000 ≤ a ∧ a + n ≤ 0x3_0000_0100 then
    if form == .scalarD && sys then .ok (.repair ((a - 0x3_0000_0000) / 8)) else .error .offsetRange
  else .error .offsetRange

/-- Resolve and then check alignment: OFFSET_RANGE comes before MISALIGN (R197). -/
def resolveAligned (s : State) (core : Nat) (form : SpForm) (sys pub : Bool) (a n : Nat) : Except Cause SpPlace :=
  match resolveSp s core form sys pub a n with
  | .error e => .error e
  | .ok p => if a % n = 0 then .ok p else .error .misalign

/-- Whether the context slot `ctx` of `core` holds the claim of a tile place. -/
def tileOwned (c : Core) (ctx : Nat) : SpPlace → Bool
  | .tile o _ => (c.oslot o).cl && (c.oslot o).owner == ctx
  | .tileTag o _ => (c.oslot o).cl && (c.oslot o).owner == ctx
  | .accWord a _ _ => (c.acc a).cl && (c.acc a).owner == ctx
  | _ => true

/-- A word of an accumulator element as the aperture shows it (Table 11.2). -/
def Elem.apWord (x : Elem) (w : Nat) : W32 := if w = 3 then tagWord x.tag else x.word w

/-- Set a word of an accumulator element through the aperture. -/
def Elem.setWord (x : Elem) (w : Nat) (v : W32) : Elem :=
  match w with
  | 0 => { x with mw := v }
  | 1 => { x with ew := v.extractLsb' 0 16, n := v.getLsbD 16 }
  | 2 => { x with gw := v }
  | _ => { x with tag := tagOfWord v }

/-- Read one 32-bit word at a place; the second word of an 8-byte access is at offset `k = 1`. -/
def placeWord (s : State) (core : Nat) (p : SpPlace) (k : Nat) : W32 :=
  match p with
  | .word t a => (s.core t).cell ((s.core t).spWord a + k)
  | .slice t b => (s.core t).cell ((s.core t).sliceWord (b + 4 * k))
  | .tile o b => BitVec.ofNat 32 (natOf ((List.range 4).map fun j => ((s.core core).oslot o).byte (b + 4 * k + j)))
  | .tileState o b => ((s.core core).oslot o).stateWord.extractLsb' (8 * ((b + 4 * k) % 8)) 32
  | .tileTag o b => tagWord (aget ((s.core core).oslot o).tags (b + k))
  | .accWord a e w => (((s.core core).acc a).elem (e + (w + k) / 4)).apWord ((w + k) % 4)
  | .accState a b => ((s.core core).acc a).stateWord.extractLsb' (8 * ((b + 4 * k) % 8)) 32
  | .repair e => ((s.core core).repair.getD e 0).extractLsb' (32 * k) 32

/-- The poison tag a load of this place carries (R104); tiles carry theirs in tag words. -/
def placeTag (s : State) : SpPlace → Tag
  | .word t a => (s.core t).pairTag a
  | _ => none

/-- Read `n` bytes (4 or 8) at a place. -/
def placeRead (s : State) (core : Nat) (p : SpPlace) (n : Nat) : Nat :=
  if n = 8 then (placeWord s core p 0).toNat + 2 ^ 32 * (placeWord s core p 1).toNat
  else (placeWord s core p 0).toNat

/-- Store a tile state word's low half (R232): setting CL while set, or clearing it while clear, is refused. A store that
sets CL is a fresh claim, so what the tile holds is undefined (R228). -/
def storeTileState (c : Core) (ctx o seed : Nat) (v : W32) : Except Cause Core :=
  let x := c.oslot o
  if v.getLsbD 0 = x.cl then .error .tileState
  else if v.getLsbD 0 then
    .ok (c.setOslot o { cl := true, owner := ctx, role := v.extractLsb' 11 2, m := v.extractLsb' 13 5, seed := seed,
                        data := [], tags := [] })
  else .ok (c.setOslot o { x with cl := false, owner := (v.extractLsb' 18 2).toNat, role := v.extractLsb' 11 2,
                                   m := v.extractLsb' 13 5 })

/-- Store an accumulator state word's low half (R232), with the fresh claim of a store that sets CL (R228). -/
def storeAccState (c : Core) (ctx a seed : Nat) (v : W32) : Except Cause Core :=
  let x := c.acc a
  if v.getLsbD 0 = x.cl then .error .tileState
  else if v.getLsbD 0 then .ok (c.setAcc a { cl := true, owner := ctx, zero := false, seed := seed, elems := [] })
  else .ok (c.setAcc a { x with cl := false, owner := (v.extractLsb' 18 2).toNat })

/-- A repair entry as it is stored: V forced to 0 when it breaks R426. -/
def repairEntry (c : Core) (e : Nat) (v : BitVec 64) : BitVec 64 :=
  let bank (x : BitVec 64) := (x.extractLsb' 12 9).toNat
  let row (x : BitVec 64) := (x.extractLsb' 0 12).toNat
  let spare (x : BitVec 64) := (x.extractLsb' 21 2).toNat
  let others := c.repair.zipIdx.filter fun (x, i) => i != e && x.getLsbD 23
  let bad := v.extractLsb' 24 40 != 0 || decide (256 < bank v) ||
    others.any fun (x, _) => bank x == bank v && (row x == row v || spare x == spare v)
  if bad then v &&& ~~~(0x800000 : BitVec 64) else v

/-- The entry that changes the row which serves its word: none when the same valid entry stands already (R426). -/
def changes (x y : BitVec 64) : Bool :=
  x.getLsbD 23 && !(y.getLsbD 23 && repairWord y == repairWord x && y.extractLsb' 21 2 == x.extractLsb' 21 2)

/-- Write a repair entry: the words whose serving row changes become undefined (R426). -/
def writeRepair (c : Core) (e seed : Nat) (v : BitVec 64) : Core :=
  let old := c.repair.getD e 0
  let new := repairEntry c e v
  let spoil (c : Core) (x y : BitVec 64) (k : Nat) : Core :=
    if changes x y then c.setWord (repairWord x) (Config.freePool seed (repairWord x + k)) else c
  spoil (spoil { c with repair := lset c.repair e new, fresh := c.fresh + 1 } old new 0) new old (257 * 4096)

/-- Write one 32-bit word at a place. -/
def placeSet (s : State) (core ctx : Nat) (p : SpPlace) (k : Nat) (v : W32) : Except Cause State :=
  match p with
  | .word t a => .ok (s.setCore t ((s.core t).setWord ((s.core t).spWord a + k) v))
  | .slice t b => .ok (s.setCore t ((s.core t).setWord ((s.core t).sliceWord (b + 4 * k)) v))
  | .tile o b =>
    let c := s.core core
    let x := (bytesOf 4 v.toNat).zipIdx.foldl (fun x (y, j) => x.setByte (b + 4 * k + j) y) (c.oslot o)
    .ok (s.setCore core (c.setOslot o x))
  | .tileState o b =>
    if (b + 4 * k) % 8 = 0 then
      (storeTileState (s.core core) ctx o (pairNat ((s.core core).seedOf core) o) v).map fun c =>
        s.setCore core { c with fresh := c.fresh + 1 }
    else .ok s
  | .tileTag o b =>
    let c := s.core core
    let x := c.oslot o
    .ok (s.setCore core (c.setOslot o
      { x with tags := match tagOfWord v with | some y => aset x.tags (b + k) y | none => adel x.tags (b + k) }))
  | .accWord a e w =>
    let c := s.core core
    let x := c.acc a
    let i := e + (w + k) / 4
    .ok (s.setCore core (c.setAcc a (x.setElem i ((x.elem i).setWord ((w + k) % 4) v))))
  | .accState a b =>
    if (b + 4 * k) % 8 = 0 then
      (storeAccState (s.core core) ctx a (pairNat ((s.core core).seedOf core) (64 + a)) v).map fun c =>
        s.setCore core { c with fresh := c.fresh + 1 }
    else .ok s
  | .repair _ => .ok s

/-- Write `n` bytes (4 or 8) at a place, with the data's tag (R104). -/
def placeWrite (s : State) (core ctx : Nat) (p : SpPlace) (n v : Nat) (t : Tag) : Except Cause State :=
  match p with
  | .repair e => .ok (s.setCore core (writeRepair (s.core core) e ((s.core core).seedOf core) (BitVec.ofNat 64 v)))
  | .word c a =>
    match placeSet s core ctx p 0 (BitVec.ofNat 32 v) with
    | .error e => .error e
    | .ok s =>
      let r := if n = 8 then placeSet s core ctx p 1 (BitVec.ofNat 32 (v / 2 ^ 32)) else .ok s
      r.map fun s => s.setCore c ((s.core c).setPairTag a (writtenTag ((s.core c).pairTag a) t (n == 8)))
  | _ =>
    match placeSet s core ctx p 0 (BitVec.ofNat 32 v) with
    | .error e => .error e
    | .ok s => if n = 8 then placeSet s core ctx p 1 (BitVec.ofNat 32 (v / 2 ^ 32)) else .ok s

/-! ### Places by byte, for engines and streams -/

/-- A byte of a core's scratchpad. -/
def spByte (s : State) (core a : Nat) : Byte :=
  let c := s.core core
  (c.cell (c.spWord a)).extractLsb' (8 * (a % 4)) 8

def setSpByte (s : State) (core a : Nat) (v : Byte) : State :=
  let c := s.core core
  let w := c.spWord a
  let old := c.word w
  let l := lset (bytesOf 4 old.toNat) (a % 4) v
  s.setCore core (c.setWord w (BitVec.ofNat 32 (natOf l)))

/-- Read `n` bytes at a place of a stream or engine, with their merged tag. -/
def locRead (s : State) (w : Who) (l : Loc) (n : Nat) : List Byte × Tag :=
  match l with
  | .mem pa => (seenBytes s w pa n, rangeTag s w pa n)
  | .sp c a =>
    ((List.range n).map fun k => spByte s c (a + k),
     mergeTags ((List.range ((a + n - 1) / 8 + 1 - a / 8)).map fun k => aget (s.core c).spTag (a / 8 + k)))

/-- What that read does to the state. -/
def locArrive (s : State) (w : Who) (l : Loc) (n : Nat) : State :=
  match l with
  | .mem pa => arrive s w pa n
  | .sp _ _ => s

/-- Write bytes at a place of a stream or engine: none when a staging record is missing (R292). -/
def locWrite (s : State) (w : Who) (l : Loc) (d : List Byte) (t : Tag) (imm : Bool) : Option State :=
  match l with
  | .mem pa => if imm then some (writeImm s w pa d t) else writeBytes s w pa d t
  | .sp c a =>
    let s := d.zipIdx.foldl (fun s (b, k) => setSpByte s c (a + k) b) s
    some ((List.range ((a + d.length - 1) / 8 + 1 - a / 8)).foldl (fun s k =>
      let k := a / 8 + k
      let x := s.core c
      s.setCore c (x.setPairTag (8 * k) (writtenTag (x.pairTag (8 * k)) t (coversWord a d.length k)))) s)

/-- Whether an accessor's request for a place is lost on its way: a dead flow or a failed port (R340, R342). -/
def unsent (s : State) (w : Who) : Loc → Bool
  | .mem pa => !sendable s w.part pa
  | .sp _ _ => false

def locFull (s : State) : Loc → Bool
  | .mem pa => isFull s pa
  | .sp c a => !(s.core c).spEmpty.contains (a / 8)

def locSetFull (s : State) (l : Loc) (full : Bool) (op : Nat) : State :=
  match l with
  | .mem pa => setFull s pa full op
  | .sp c a => setSpFull s c a full op

/-- Set a word's full/empty bit, when the request can be sent (R340, R342). -/
def sendFull (s : State) (w : Who) (l : Loc) (full : Bool) (op : Nat) : State :=
  if unsent s w l then s else locSetFull s l full op

def locPark (s : State) : Loc → BitVec 3
  | .mem pa => parkBits s pa
  | .sp c a => (aget (s.core c).spPark (a / 8)).getD 0

end Sys2Proof.Machine
end

