-- ==== Sys2Proof/Machine/Ops.lean ====
section
/-! DEFINITION. Named operations over herd-contexts: register reads and the latency window, landing of results, fetch,
the trap record, taking a trap and resuming from it (R35, R59..R61, R84, R85, R100, R157, R360..R364). -/

namespace Sys2Proof.Machine

/-! ### Who a herd-context is -/

def HerdCtx.member? (h : HerdCtx) (m : Nat) : Option Member := h.members[m]?
def HerdCtx.setMember (h : HerdCtx) (m : Nat) (x : Member) : HerdCtx := { h with members := lset h.members m x }
def HerdCtx.modMember (h : HerdCtx) (m : Nat) (f : Member → Member) : HerdCtx :=
  match h.member? m with | some x => h.setMember m (f x) | none => h
def State.modMember (s : State) (id m : Nat) (f : Member → Member) : State := s.modHc id (·.modMember m f)

/-- How a herd-context accesses memory (R191). -/
def HerdCtx.who (s : State) (h : HerdCtx) : Who :=
  ⟨h.part, some h.node, ((s.node? h.part h.node).map (·.staged)).getD false⟩

def HerdCtx.determ (s : State) (h : HerdCtx) : Bool := ((s.node? h.part h.node).map (·.determ)).getD false
def HerdCtx.prio (s : State) (h : HerdCtx) : Nat := ((s.node? h.part h.node).map (·.prio)).getD 0

def State.image? (s : State) (h : HerdCtx) : Option Image :=
  (s.part? h.part).bind fun p => p.images.find? fun x => x.handle == h.image

/-- Context slots of the node (R75). -/
def HerdCtx.ctxn (h : HerdCtx) : Nat := 2 ^ h.ctxl

/-! ### Fetch (R90, R321, R380) -/

/-- The code segment and the words from an address on, when the address lies in a segment of the image. -/
def Image.at (im : Image) (pc : Word) : Option (Nat × Segment × List (BitVec 64)) :=
  if pc.toNat < im.base.toNat ∨ pc.toNat % 8 ≠ 0 then none
  else
    let off := pc.toNat - im.base.toNat
    match im.segs[off / 16384]? with
    | none => none
    | some sg =>
      match sg.words.drop (off % 16384 / 8) with
      | [] => none
      | w :: r => some (off / 16384, sg, w :: r)

/-- The words of the bundle at an address: header and slots, all inside the segment's SIZE. -/
def Image.bundle (im : Image) (pc : Word) : Option (Nat × Segment × List (BitVec 64)) :=
  match im.at pc with
  | some (i, sg, w :: r) =>
    let n := (headerFields w).words
    if (w :: r).length < n then none else some (i, sg, (w :: r).take n)
  | _ => none

/-- The system bit of the segment that holds an address. -/
def Image.sysAt (im : Image) (pc : Word) : Bool :=
  match im.at pc with | some (_, sg, _) => sg.sys | none => false

def HerdCtx.sys (s : State) (h : HerdCtx) : Bool := match s.image? h with | some im => im.sysAt h.pc | none => false

/-! ### Register names (R37, R100) -/

/-- The field of a frame that an alias number names: 0 X, 1 Y, 2 Z, 3 W. -/
def Frame.field (f : Frame) (j : Nat) : Nat := match j with | 0 => f.x | 1 => f.y | 2 => f.z | _ => f.w
def Frame.kind (f : Frame) (j : Nat) : Nat := ((f.sig.getD j 0).extractLsb' 0 4).toNat
def Frame.dir (f : Frame) (j : Nat) : Nat := ((f.sig.getD j 0).extractLsb' 4 2).toNat

/-- The vector register a name reaches: an alias inside a body, the top sixteen by 1008..1023; none is REG_RANGE. -/
def HerdCtx.vreg (h : HerdCtx) (name : Nat) : Option Nat :=
  match h.frames with
  | f :: _ =>
    if 1020 ≤ name then (if f.kind (name - 1020) = 1 then some (f.field (name - 1020)) else none)
    else if 1008 ≤ name then some (h.nv - 16 + (name - 1008))
    else if name < h.nv then some name else none
  | [] =>
    if 1008 ≤ name then some (h.nv - 16 + (name - 1008))
    else if name < h.nv then some name else none

/-- The handle register a name reaches; h12..h15 are aliases inside a body. -/
def HerdCtx.hreg (h : HerdCtx) (name : Nat) : Option Nat :=
  match h.frames with
  | f :: _ => if 12 ≤ name then (if f.kind (name - 12) = 5 then some (f.field (name - 12)) else none) else some name
  | [] => some name

/-- The stream register a name reaches; q12..q15 are aliases inside a body. -/
def HerdCtx.qreg (h : HerdCtx) (name : Nat) : Option Nat :=
  match h.frames with
  | f :: _ => if 12 ≤ name then (if f.kind (name - 12) = 4 then some (f.field (name - 12)) else none) else some name
  | [] => some name

/-! ### Register contents and the latency window (R59, R61) -/

/-- One of several allowed values, by a free choice. -/
def pickOf {α : Type} (seed i lane : Nat) (base : α) (others : List α) : α :=
  match others with
  | [] => base
  | _ => (base :: others).getD (Config.windowPick seed i lane % (others.length + 1)) base

def Member.sreg (m : Member) (n : Nat) : SReg := if n = 0 then ⟨0, none⟩ else m.s.getD n ⟨0, none⟩
def Member.preg (m : Member) (n : Nat) : Bool := n == 0 || m.p.getLsbD n
def Member.kreg (m : Member) (n : Nat) : Mask := if n = 0 then BitVec.allOnes 256 else m.k.getD n 0

/-- The free value a vector register holds at the node's start (R80). -/
def freeVReg (seed n : Nat) : VReg := ⟨(List.range 256).map fun i => Config.freeV seed n i, none⟩
def Member.vreg (m : Member) (n : Nat) : VReg := (aget m.v n).getD (freeVReg m.seed n)
def Member.hreg (m : Member) (n : Nat) : Handle := m.h.getD n ⟨false, none, 0, 0, false, false, false, false, 0, 0, 0, false, ⟨false, 7, 0, 0, 0, 0⟩⟩
def Member.strm (m : Member) (n : Nat) : Strm := m.q.getD n ⟨none, false, 0, 0, none, [], [], [], none, []⟩
/-- The entries that the elements of a stream may have been placed through, while some are still to be written (R270). -/
def Strm.placed (q : Strm) (busy : Bool) : List Nat := if busy then q.dropped ++ q.bte.map (·.1) else []
def Member.setStrm (m : Member) (n : Nat) (x : Strm) : Member := { m with q := lset m.q n x }

/-- What a read of a scalar or vector register finds: a stuck bit of a cell is at its level (R432). -/
def Member.cellS (m : Member) (n : Nat) : SReg := { m.sreg n with val := forceBits (m.sreg n).val (aget m.stuckS n) }
def Member.cellV (m : Member) (n : Nat) : VReg :=
  if m.stuckV.isEmpty then m.vreg n
  else { m.vreg n with lanes := (m.vreg n).lanes.zipIdx.map fun (x, i) => forceBits x (aget m.stuckV (256 * n + i)) }

/-- A read of a scalar register: the landed value, or one that is in flight. -/
def Member.readS (m : Member) (seed i n : Nat) : SReg :=
  if n = 0 then ⟨0, none⟩
  else pickOf seed i 0 (m.cellS n) (m.inflight.filterMap fun p => match p.res with
    | .s k v t => if k = n then some ⟨v, t⟩ else none
    | _ => none)

def Member.readP (m : Member) (seed i n : Nat) : Bool :=
  if n = 0 then true
  else pickOf seed i 0 (m.preg n) (m.inflight.filterMap fun p => match p.res with
    | .p k b => if k = n then some b else none
    | _ => none)

/-- In-flight masks for a mask register. -/
def Member.kflight (m : Member) (n : Nat) : List Mask := m.inflight.filterMap fun p => match p.res with
  | .k k v => if k = n then some v else none
  | _ => none

/-- A read of a lane mask: inside a window each bit is chosen on its own (R181). -/
def Member.readK (m : Member) (seed i n : Nat) : Mask :=
  if n = 0 then BitVec.allOnes 256
  else
    match m.kflight n with
    | [] => m.kreg n
    | l => (List.range 256).foldl (fun a j =>
        if pickOf seed i j ((m.kreg n).getLsbD j) (l.map (·.getLsbD j)) then a ||| BitVec.twoPow 256 j else a) 0

/-- The tag that a write of a vector register leaves: a masked one keeps old lanes, so the old tag takes part (R163). -/
def maskedTag (act : Mask) (old new : Tag) : Tag := if act = BitVec.allOnes 256 then new else mergeTag old new

/-- In-flight writes of a vector register in issue order, each with the tag that it leaves: that of a masked write merges
what the register held before it, the writes in flight before it included. -/
def vchain (n : Nat) (old : Tag) : List Pending → List (Mask × VReg)
  | [] => []
  | p :: r => match p.res with
    | .v k act l t =>
      if k = n then (let u := maskedTag act old t; (act, ⟨l, u⟩) :: vchain n u r) else vchain n old r
    | _ => vchain n old r

def Member.vflight (m : Member) (n : Nat) : List (Mask × VReg) := vchain n (m.vreg n).tag m.inflight

/-- A read of a vector register: inside a window each lane is chosen on its own, and the tags of the values chosen merge
(R61, R163, R181). -/
def Member.readV (m : Member) (seed i n : Nat) : VReg :=
  let b := m.cellV n
  match m.vflight n with
  | [] => b
  | l =>
    let picks : List (W32 × Tag) := b.lanes.zipIdx.map fun (x, j) =>
      pickOf seed i j (x, b.tag) (l.filterMap fun (a, v) => if a.getLsbD j then some (v.lanes.getD j 0, v.tag) else none)
    ⟨picks.map (·.1), mergeTags (picks.map (·.2))⟩

def Member.readH (m : Member) (seed i n : Nat) : Handle :=
  pickOf seed i 0 (m.hreg n) (m.inflight.filterMap fun p => match p.res with
    | .h k h => if k = n then some h else none
    | _ => none)

/-- A read of FPSTAT: with or without the flags still in flight (R117). -/
def Member.readFpstat (m : Member) (seed i : Nat) : BitVec 4 :=
  m.inflight.zipIdx.foldl (fun a (p, j) => if pickOf seed i j false [true] && p.flags != 0 then a ||| p.flags else a)
    m.fpstat

/-! ### Landing (R59..R61, R85) -/

/-- Merge lanes under a mask. -/
def mergeLanes (act : Mask) (old new : List W32) : List W32 :=
  if act = BitVec.allOnes 256 then new
  else old.zipIdx.map fun (x, i) => if act.getLsbD i then new.getD i 0 else x

/-- Write a result to its destination; s0, p0 and k0 discard it (R58). A masked vector write keeps old lanes, so the
old tag takes part in the merge (R163). -/
def Member.apply (m : Member) (r : Res) : Member :=
  match r with
  | .s n v t => if n = 0 then m else { m with s := lset m.s n ⟨v, t⟩ }
  | .p n b => if n = 0 then m
      else { m with p := if b then m.p ||| BitVec.twoPow 16 n else m.p &&& ~~~(BitVec.twoPow 16 n) }
  | .k n v => if n = 0 then m else { m with k := lset m.k n v }
  | .v n act l t =>
    let old := m.vreg n
    { m with v := aset m.v n ⟨mergeLanes act old.lanes l, maskedTag act old.tag t⟩ }
  | .h n h => { m with h := lset m.h n h }
  | .qpos n pos =>
    let q := m.strm n
    m.setStrm n { q with pos := pos, ahead := [], held := none, met := none }
  | .none => m

/-- What is left of an earlier result in flight once a later one to the same place has landed. -/
def overtaken (later earlier : Res) : Res :=
  match later, earlier with
  | .s n _ _, .s k v t => if n = k then .none else .s k v t
  | .p n _, .p k b => if n = k then .none else .p k b
  | .k n _, .k k v => if n = k then .none else .k k v
  | .v n a _ _, .v k b l t => if n = k then (if b &&& ~~~a = 0 then .none else .v k (b &&& ~~~a) l t) else .v k b l t
  | .h n _, .h k v => if n = k then .none else .h k v
  | .qpos n _, .qpos k p => if n = k then .none else .qpos k p
  | _, e => e

/-- Land one result of a member: write it and its flags; results issued before it to the same place can no longer be
seen, and their flags land with it. -/
def Member.land (m : Member) (p : Pending) : Member :=
  let m1 := { (m.apply p.res) with fpstat := m.fpstat ||| p.flags }
  let rest := m.inflight.filter (· != p)
  let rest := rest.map fun q => if q.issue < p.issue then { q with res := overtaken p.res q.res } else q
  let dead := rest.filter (·.res == .none)
  { m1 with fpstat := dead.foldl (fun a q => a ||| q.flags) m1.fpstat,
            inflight := rest.filter (·.res != .none) }

/-- Results whose bound has been reached and whose data has arrived, in issue order. -/
def Member.dueNow (m : Member) (v : Nat) : List Pending :=
  m.inflight.filter fun p => decide (p.due ≤ v) && p.landed

/-- Land everything of a member that is due at virtual cycle `v`. -/
def Member.landDue (m : Member) (v : Nat) : Member := (m.dueNow v).foldl Member.land m

/-- Whether a member still waits for a late result at virtual cycle `v` (R81). -/
def Member.late (m : Member) (v : Nat) : Bool := m.inflight.any fun p => decide (p.due ≤ v) && !p.landed

/-- Perform the writes of an output stream's pushed elements, in stream order (R215). -/
def writeOut (s : State) (w : Who) : List OutElem → Option State
  | [] => some s
  | e :: r =>
    match locWrite s w e.loc e.data e.tag e.setFull with
    | none => none
    | some s => writeOut (if e.setFull then sendFull s w e.loc true 0x3E else s) w r

/-- Whether an ASTO of a member still has to write; `q` asks for those on one stream only (R240). -/
def astoQueued (s : State) (id mi core : Nat) (q : Option Nat) : Bool :=
  (s.core core).loadQ.any fun x => x.hc == id && x.mem == mi && match x.op with
    | .asto _ _ _ _ k => q.getD k == k
    | _ => false

/-- The poison that elements carry to host memory (R421). -/
def hostTag (l : List OutElem) : Tag :=
  mergeTags (l.map fun e => match e.loc with | .mem pa => if isHostPa pa then e.tag else none | .sp _ _ => none)

/-- Write the pushed elements of one stream of a member, in stream order, unless a record of the staging area is missing
or an ASTO on the stream still has to write before them (R215, R240, R292). -/
def flushStrm (s : State) (id mi q : Nat) : State :=
  match s.hc? id with
  | none => s
  | some h =>
    match h.member? mi with
    | none => s
    | some m =>
      match (m.strm q).out with
      | [] => s
      | o =>
        if astoQueued s id mi m.core (some q) then s
        else match writeOut s (h.who s) o with
        | some s => s.modMember id mi fun m => m.setStrm q { m.strm q with out := [] }
        | none => s

/-- Whether elements that a member pushed still stand. -/
def Member.pushed (m : Member) : Bool := m.q.any fun x => !x.out.isEmpty

/-- Whether elements that the herd-context pushed still stand. -/
def HerdCtx.pushed (h : HerdCtx) : Bool := h.members.any Member.pushed

/-- Write every pushed element of a member. -/
def flushMember (s : State) (id mi : Nat) : State := (List.range 16).foldl (fun s q => flushStrm s id mi q) s

/-- Write every pushed element of the herd-context, before anything of its next bundle (R192, R215, R286). -/
def flushPushes (s : State) (id : Nat) : State :=
  match s.hc? id with
  | none => s
  | some h =>
    if h.pushed then (List.range h.members.length).foldl (fun s mi => flushMember s id mi) s else s

/-- What stands before the herd-context's next bundle is done: pushed elements are written, and everything due at its
virtual cycle lands on every member. -/
def landAll (s : State) (id : Nat) : State :=
  (flushPushes s id).modHc id fun h => { h with members := h.members.map (·.landDue h.vcc) }

/-! ### Traps -/

/-- Cause codes (Tables 20.6, 21.2, 22.2). -/
def Cause.code : Cause → Nat
  | .illegalOp => 0x01 | .illegalField => 0x02 | .illegalBundle => 0x03 | .privileged => 0x04
  | .routineUnbound => 0x05 | .profileUnknown => 0x06 | .regRange => 0x07 | .linkOverflow => 0x08
  | .linkEmpty => 0x09 | .loopNest => 0x0A | .xlateS1 => 0x10 | .xlateS2 => 0x11 | .perm => 0x12
  | .handleInvalid => 0x13 | .offsetRange => 0x14 | .misalign => 0x15 | .feNotCapable => 0x16 | .feBudget => 0x17
  | .regen => 0x18 | .blockShared => 0x19 | .blockMoving => 0x1A | .tileState => 0x20 | .engineParam => 0x22
  | .combineParam => 0x23 | .jcbClosed => 0x24 | .userTrap => 0x30

def Trap.of (c : Cause) (slot : Nat) : Trap :=
  { cause := c, slot := slot, code := 0, native := false, rn := 0, lane := 0, addr := 0, handle := 0, stream := 0,
    elem := 0, addr2 := 0, va := 0, ofHandle := false, data := [0, 0, 0, 0, 0] }

/-- The first CAUSEDATA word of a memory fault (Table 21.1). -/
def memData0 (nbytes : Nat) (revoked bte : Bool) (wi : WalkInfo) (fetch stream : Bool) (need op : Nat) : Word :=
  let b (x : Bool) (k : Nat) : Nat := if x then 2 ^ k else 0
  BitVec.ofNat 64 (nbytes % 256 * 2 ^ 24 + b revoked 17 + b bte 16 + b wi.stage2 15 + wi.level % 8 * 2 ^ 12 +
    b fetch 11 + b stream 10 + need % 4 * 2 ^ 8 + op % 256)

def WalkInfo.nowalk : WalkInfo := ⟨false, 7, 0, 0, 0, 0⟩

/-- A memory fault's trap (R375). -/
def memTrap (c : Cause) (slot : Nat) (addr : Word) (data0 : Word) (wi : WalkInfo) : Trap :=
  { Trap.of c slot with
    addr := addr, va := addr, addr2 := if c = .xlateS2 then wi.gpa else if c = .regen then wi.regenIdx else 0,
    data := [data0, wi.entry, wi.entryAddr, 0, 0] }

/-- An engine fault's CAUSEDATA (Table 22.1). -/
def engineTrap (c : Cause) (slot point field item : Nat) (value wh other : Word) : Trap :=
  { Trap.of c slot with
    data := [BitVec.ofNat 64 (point % 2 ^ 16 * 2 ^ 32 + field % 16 * 2 ^ 20 + item % 2 ^ 16), value, wh, other, 0] }

def bitmap (l : List Bool) : Nat := l.zipIdx.foldl (fun a (b, i) => if b then a + 2 ^ i else a) 0

/-- The core number of a herd-context's lead. -/
def HerdCtx.leadCore (h : HerdCtx) : Nat := ((h.members[0]?).map (·.core)).getD 0
def HerdCtx.die (h : HerdCtx) : Nat := h.leadCore / 144

/-- The RESUME descriptor of a herd-context (R157). -/
def HerdCtx.descriptor (h : HerdCtx) : Nat := h.slot % 4 * 1024 + h.leadCore % 1024

/-- Snapshot entries of a member in use (R84, R202): results in flight, the word of an F/E form that has succeeded, and
the words of each stream whose pop's attempts have (log 35). -/
def Member.snapCount (m : Member) : Nat :=
  m.inflight.length + (if m.feHeld.isSome then 1 else 0) + (m.popHeld.map (·.1)).eraseDups.length

/-- The sixteen words of a trap record (Table 20.1); WORDPA is 0 in every copy a partition can read (Table 21.1). -/
def trapWords (s : State) (h : HerdCtx) (t : Trap) (faultmap : Nat) : List Word :=
  let n (x : Nat) : Word := BitVec.ofNat 64 x
  let rn := if t.native then t.rn else (match h.frames with | f :: _ => f.rn | [] => 0)
  let w0 := t.cause.code + t.slot * 2 ^ 8 + t.lane % 256 * 2 ^ 12 + (if h.rb.isSome then 2 ^ 20 else 0) +
    (if t.native then 2 ^ 21 else 0) + t.code.toNat * 2 ^ 32 + rn % 4096 * 2 ^ 48
  let w4 := h.descriptor + h.members.length % 16 * 2 ^ 12 + h.part % 64 * 2 ^ 16 + h.node % 4096 * 2 ^ 22
  let succ := bitmap (h.members.map fun m => m.feHeld.isSome || !m.popHeld.isEmpty)
  let snap := (h.members.map (·.snapCount)).foldl max 0
  let w6 := snap + h.links.length * 2 ^ 8 + h.spill.length * 2 ^ 16 + h.frames.length * 2 ^ 32
  let w7 := t.elem % 2 ^ 32 + t.stream % 16 * 2 ^ 32 + t.handle % 16 * 2 ^ 36
  [n w0, h.pc, n h.vcc, t.addr, n w4, n (faultmap + succ * 2 ^ 16), n w6, n w7,
   ((s.part? h.part).map (·.epoch)).getD 0, t.addr2, Config.clock h.leadCore s.clk] ++
    (if t.cause = .feBudget ∨ t.cause = .blockMoving then lset t.data 3 0 else t.data)

/-- The bytes of a record of words. -/
def wordsBytes (l : List Word) : List Byte := l.flatMap fun w => bytesOf 8 w.toNat

/-- Taking a trap (R85, R360): every result in flight lands in its snapshot entry, the herd-context is FROZEN, and its
record joins the trap queue of the lead's die. Nothing of the bundle itself has been done (R364). -/
def takeTrap (s : State) (id : Nat) (t : Trap) (faultmap : Nat) : State :=
  match s.hc? id with
  | none => s
  | some h =>
    let h := { h with
      members := h.members.map fun m =>
        { m with inflight := m.inflight.map fun p => { p with landed := true }, consume := none }
      hstate := .frozen, wait := none, feTries := 0 }
    let r : TrapRec := ⟨id, t, trapWords s h t faultmap⟩
    (s.setHc id { h with trap := some r }).modDie h.die fun d => { d with trapQ := d.trapQ ++ [r] }

/-- Write every snapshot entry of a member to its destination in issue order (R85). -/
def Member.writeSnapshot (m : Member) : Member := m.inflight.foldl Member.land m

/-- Resuming a frozen herd-context (R85, R157): its snapshot entries are written and it is READY to issue the bundle at
its PC, or that bundle's RB slot. -/
def resumeHc (s : State) (id : Nat) : State :=
  s.modHc id fun h =>
    { h with members := h.members.map Member.writeSnapshot, hstate := .ready, trap := none, held := false, feTries := 0 }

/-- The herd-context with a RESUME descriptor on a die that is FROZEN. -/
def frozenBy (s : State) (die : Nat) (d : Word) : Option Nat :=
  if d.toNat ≥ 4096 then none
  else (s.hctxs.find? fun (_, h) =>
    h.hstate == .frozen && h.die == die && h.descriptor == d.toNat).map (·.1)

/-! ### Memory consumption of poison (R136, R423) -/

/-- Record that a member consumed a tag in this bundle. -/
def consumeTag (s : State) (id m : Nat) (t : Tag) : State :=
  match t with
  | none => s
  | some _ => s.modMember id m fun x => { x with consume := mergeTag x.consume t }

/-- CIR after poison has been consumed: PTAG keeps the first tag since POISON was clear (R423). -/
def cirConsume (cir : Word) : Tag → Word
  | none => cir
  | some t => if cir.getLsbD 0 then cir else (cir &&& ~~~(0x0FFF0001 : Word)) ||| 1 ||| (t.setWidth 64 <<< 16)

/-- Merge the tag a bundle consumed into CIR when the bundle commits (R423). -/
def Member.recordConsume (m : Member) : Member :=
  { m with cir := cirConsume m.cir m.consume, consume := none }

/-! ### The repair table and vector registers -/

/-- Whether the herd-context holds its context slot: until its save is written, or until its node commits (R86, R89). -/
def HerdCtx.occupies (h : HerdCtx) : Bool := !(h.hstate == .saved && !h.saving)

/-- Make the lanes of vector registers that pool word `w` of a core holds undefined (R99, R426): those of the herd-context
that occupies the slot; a saved one's registers stand in its save area. -/
def spoilLane (s : State) (core w seed : Nat) : State :=
  { s with hctxs := s.hctxs.map fun (id, h) =>
      (id, { h with members := h.members.map fun m =>
        if h.occupies = true ∧ m.core = core ∧ h.slot * h.nv * 256 ≤ w ∧ w < (h.slot + 1) * h.nv * 256 then
          let n := (w - h.slot * h.nv * 256) / 256
          let i := w % 256
          let x := m.vreg n
          { m with v := aset m.v n { x with lanes := lset x.lanes i (Config.freePool seed w) } }
        else m }) }

/-- The stuck cells that serve pool words [lo, hi) of a core, by word from `lo` on. -/
def Core.stuckIn (c : Core) (lo hi : Nat) : AMap (W32 × W32) :=
  let ws := c.stuck.map (·.1) ++ (c.repair.filter (·.getLsbD 23)).map repairWord
  ws.foldl (fun m w =>
    if lo ≤ w ∧ w < hi then (match aget c.stuck (c.served w) with | some x => aset m (w - lo) x | none => m) else m) []

/-- Every member on a core finds the stuck bits of its registers' cells (R99, R432). -/
def wire (s : State) (core : Nat) : State :=
  let c := s.core core
  { s with hctxs := s.hctxs.map fun (id, h) =>
      (id, { h with members := h.members.map fun m =>
        if m.core = core then
          { m with
            stuckV := c.stuckIn (h.slot * h.nv * 256) ((h.slot + 1) * h.nv * 256)
            stuckS := c.stuckRegs.foldl (fun l (k, x) => if k / 64 = h.slot then aset l (k % 64) x else l) [] }
        else m }) }

/-- Wire cores that have a defect. -/
def wireAll (s : State) (l : List Nat) : State :=
  l.foldl (fun s k => if (s.core k).stuck.isEmpty && (s.core k).stuckRegs.isEmpty then s else wire s k) s

/-- A write of a repair table entry on a core (R425, R426). -/
def repairStore (s : State) (core e : Nat) (v : BitVec 64) : State :=
  let c := s.core core
  let old := c.repair.getD e 0
  let new := repairEntry c e v
  let seed := c.seedOf core
  let s := s.setCore core { writeRepair c e seed v with toRepair := c.toRepair.filter (· != repairWord new) }
  let s := if changes old new then spoilLane s core (repairWord old) (pairNat seed 0) else s
  let s := if changes new old then spoilLane s core (repairWord new) (pairNat seed 1) else s
  wireAll s [core]

end Sys2Proof.Machine
end

