-- ==== Sys2Proof/Machine/Operands.lean ====
section
/-! DEFINITION. Every operand form: guards, scalar, vector and stream sources, register results under their latency
class, and the addresses of handle, scratchpad and stream accesses with their checks (R58..R61, R165..R168, R190,
R197..R199, R210..R220). -/

namespace Sys2Proof.Machine

/-- Why a slot does not complete: a trap (`early` when the execution checks of step 2 of R366 find it), an engine wait,
a pause, a missing record of the staging area, or a full/empty attempt that is still to be made. -/
inductive Stop where
  | trap (early : Bool) (t : Trap)
  | wait (w : Wait)
  | late
  | stage
  | retry
  deriving DecidableEq, Repr

/-- What a slot reads: the herd-context and member before the bundle, the seed of its free choices, the virtual cycle,
the slot's number in a trap record, its scope, and the member's view of memory. -/
structure Ctx where
  id : Nat
  mi : Nat
  h : HerdCtx
  m : Member
  seed : Nat
  v : Nat
  slot : Nat
  scope : BitVec 3
  who : Who
  sys : Bool
  pub : Bool
  deriving DecidableEq, Repr

/-- The index of a read for free choices: member, slot and field. Each read of a slot has a field of its own, so that inside a
window it is decided anew (R59): 0 the guard, 1 to 3 sources, 4 the lane mask, 5 an offset or address, 6 to 9 a routine's
operands, 7 a stride, 8 a handle (8 to 11 a routine's vectors), 12 a control operand, 13 the data of a store. -/
def Ctx.ix (c : Ctx) (f : Nat) : Nat := (c.mi * 8 + c.slot) * 16 + f

def Ctx.s (c : Ctx) (f n : Nat) : SReg := c.m.readS c.seed (c.ix f) n
def Ctx.p (c : Ctx) (f n : Nat) : Bool := c.m.readP c.seed (c.ix f) n
def Ctx.k (c : Ctx) (f n : Nat) : Mask := c.m.readK c.seed (c.ix f) n

/-- Whether the member takes part: outside a body always, inside one by the calling slot's guard (R446). -/
def HerdCtx.activeIn (h : HerdCtx) (mi : Nat) : Bool :=
  match h.frames with | f :: _ => f.active.getD mi true | [] => true

/-- The slot's guard on this member (R58, R446). -/
def Ctx.guard (c : Ctx) (g : BitVec 4) : Bool := c.h.activeIn c.mi && c.p 0 g.toNat

/-- Whether an address lies in the body range of a routine table entry that is not dropped (R415). -/
def Image.inBody (im : Image) (pc : Word) : Bool :=
  im.entries.any fun e => !e.dropped && decide (im.base.toNat + e.body ≤ pc.toNat) &&
    decide (pc.toNat < im.base.toNat + e.body + e.bodyLen)

/-- Whether a behaviour-tag switch applies to the slot: the image's switch, outside every body range (R415). -/
def Ctx.switched (c : Ctx) (s : State) (tag : Image → Bool) : Bool :=
  match s.image? c.h with
  | some im => tag im && !im.inBody c.h.pc
  | none => false

def trapNow (c : Ctx) (k : Cause) : Except Stop State := .error (.trap true (Trap.of k c.slot))

/-- Do one thing after another until one stops. -/
def foldStop {α : Type} (f : State → α → Except Stop State) : List α → State → Except Stop State
  | [], s => .ok s
  | a :: r, s => match f s a with | .error e => .error e | .ok s => foldStop f r s

/-! ### Results and latency classes (Table 3.3, R59, R60) -/

def latBound (lat : BitVec 4) : Nat :=
  match lat.toNat with
  | 0 => 1 | 1 => 2 | 2 => 3 | 3 => 4 | 4 => 6 | 5 => 8 | 6 => 10 | 7 => 12
  | 8 => 16 | 9 => 24 | 10 => 32 | 11 => 48 | 12 => 64 | 13 => 96 | 14 => 128 | _ => 256

/-- Put a result in flight with a bound; it has landed by its bound unless it is late. -/
def addPending (s : State) (c : Ctx) (r : Res) (f : FFlags) (bound : Nat) (landed : Bool) : State :=
  s.modMember c.id c.mi fun m =>
    { m with inflight := m.inflight ++ [⟨r, f, c.v, c.v + bound, landed⟩] }

/-- A result of an S or V slot: late only when its class lies below Syrok's minimum (R60). -/
def addResult (s : State) (c : Ctx) (r : Res) (f : FFlags) (lat : BitVec 4) (least : Nat) : State :=
  addPending s c r f (latBound lat) (decide (least ≤ latBound lat))

/-- A scalar result. -/
def putS (s : State) (c : Ctx) (sd : BitVec 6) (v : Word) (t : Tag) (lat : BitVec 4) (least : Nat) : State :=
  addResult s c (.s sd.toNat v t) 0 lat least

/-- The result of a load through a handle arrives when memory answers (R60, R81): it is late until it lands. -/
def putLoad (s : State) (c : Ctx) (r : Res) (lat : BitVec 4) : State := addPending s c r 0 (latBound lat) false

/-! ### Sign extension -/

def sext32 (x : BitVec 32) : Word := x.signExtend 64

/-! ### Handle accesses (R187, R190) -/

/-- What an operation asks of its handle (Table 9.4). -/
inductive Ask where
  | load | store | atomic | fe | cadd | counter
  deriving DecidableEq, Repr

/-- The least intent that permits the operation (Table 21.1, NEED). -/
def Ask.need : Ask → Nat
  | .load => 0 | .store => 1 | .atomic => 2 | .fe => 2 | .cadd => 3 | .counter => 0

def Ask.aligned : Ask → Bool
  | .load => false | .store => false | _ => true

/-- Whether a valid handle permits the operation (R187). -/
def Ask.permitted (a : Ask) (h : Handle) : Option Cause :=
  match a with
  | .load => if h.r then none else some .perm
  | .store => if h.w && !h.c then none else some .perm
  | .atomic => if h.intent = 2 ∧ h.c = false then none else some .perm
  | .fe => if !h.fe then some .feNotCapable else if h.intent = 2 then none else some .perm
  | .cadd => if h.intent = 3 then none else some .perm
  | .counter => if h.c then none else some .perm

def Handle.size' (h : Handle) : Nat := 2 ^ sizeLog h.size

/-- The virtual address of an access at offset `off` (R186, R375). -/
def Handle.addr (h : Handle) (off : Int) : Word :=
  let b := if h.fcause.isSome then h.base &&& ~~~(0xFFFF : Word) else h.vpage
  b + BitVec.ofInt 64 off

/-- The first failing check of R190 of `n` bytes at `off`, with `al` the alignment the operation needs. -/
def handleFault (h : Handle) (a : Ask) (off : Int) (n al : Nat) : Option Cause :=
  if !h.valid then some (h.fcause.getD .handleInvalid)
  else match a.permitted h with
    | some c => some c
    | none =>
      if off < 0 ∨ (h.size' : Int) < off + n then some .offsetRange
      else if off % (al : Int) ≠ 0 then some .misalign
      else none

/-- OP of a memory fault: an access inside a routine body is a routine's (Table 21.1); what FE_BUDGET parks on keeps the form
(log 35). -/
def Ctx.op (c : Ctx) (k : Cause) (op : Nat) : Nat := if c.h.frames.isEmpty || k == .feBudget then op else 0

/-- The trap of a failed handle access. -/
def handleTrap (c : Ctx) (hn : Nat) (h : Handle) (a : Ask) (off : Int) (n op lane : Nat) (k : Cause) : Trap :=
  let wi := if h.fcause = some k then h.walk else WalkInfo.nowalk
  let rev := k == .handleInvalid && h.revoked
  { memTrap k c.slot (h.addr off) (memData0 n rev false wi false false a.need (c.op k op)) wi with
    handle := hn, lane := lane, ofHandle := true }

/-- The checked physical address of a scalar handle access; an alias that names no handle never reaches here. -/
def handleAccess (c : Ctx) (hf : BitVec 4) (a : Ask) (off : Int) (n al op : Nat) : Except Stop Nat :=
  let hn := (c.h.hreg hf.toNat).getD hf.toNat
  let h := c.m.readH c.seed (c.ix 8) hn
  match handleFault h a off n al with
  | some k => .error (.trap true (handleTrap c hn h a off n op 0 k))
  | none => .ok (h.base.toNat + off.toNat)

/-- The offset SO + imm with SO read signed (R190). -/
def Ctx.off (c : Ctx) (so : BitVec 6) (imm : Int) : Int := (c.s 5 so.toNat).val.toInt + imm

/-- A poisoned SO is consumed (R194). -/
def consumeSo (s : State) (c : Ctx) (so : BitVec 6) : State := consumeTag s c.id c.mi (c.s 5 so.toNat).tag

/-! ### Scratchpad accesses (R197..R199) -/

/-- Whether an access of `n` bytes at `a` touches a 4-byte word of a scoreboard entry: the scoreboard compares words
(R107). -/
def Score.meets (e : Score) (a n : Nat) : Bool := decide (a / 4 * 4 < e.hi) && decide (e.lo / 4 * 4 < a + n)

/-- The range scoreboard of the owning core (R107): whether an access meets an entry that blocks it. -/
def scoreBlocks (s : State) (p : SpPlace) (n : Nat) (write fe : Bool) : Bool :=
  match p with
  | .word t a => (s.core t).score.any fun e => e.meets a n && (fe || write || e.write)
  | _ => false

/-- The tiles of matrix commands that still run (R230): whether a command writes or reads a tile. -/
def MatOp.writesSlot (op : MatOp) (o : Nat) : Bool :=
  match op with
  | .load x _ w _ _ => x == o || (w == 16 && x + 1 == o)
  | _ => false
def MatOp.readsSlot (op : MatOp) (o : Nat) (wide : Nat → Bool) : Bool :=
  match op with
  | .mma _ a b _ => a == o || b == o || (wide a && a + 1 == o) || (wide b && b + 1 == o)
  | _ => false
def MatOp.writesAcc (op : MatOp) (a : Nat) : Bool :=
  match op with
  | .azero x => x == a
  | .mma x _ _ _ => x == a
  | .anorm x _ => x == a
  | _ => false
def MatOp.readsAcc (op : MatOp) (a : Nat) : Bool :=
  match op with
  | .asto x _ _ _ _ => x == a
  | .arow _ x _ _ _ _ => x == a
  | .mma x _ _ _ => x == a
  | .anorm x _ => x == a
  | _ => false

def Core.isWide (c : Core) (o : Nat) : Bool := (c.oslot o).m == 16
def Core.matCmds (c : Core) : List MatCmd := c.loadQ ++ c.arrayQ
def Core.slotBusy (c : Core) (o : Nat) : Bool :=
  c.matCmds.any fun x => x.op.writesSlot o || x.op.readsSlot o c.isWide
def Core.accBusy (c : Core) (a : Nat) : Bool := c.matCmds.any fun x => x.op.writesAcc a || x.op.readsAcc a

/-- A tile-aperture access waits while its tile is busy at all (R230). -/
def placeBusy (c : Core) : SpPlace → Bool
  | .tile o _ => c.slotBusy o
  | .tileState o _ => c.slotBusy o
  | .tileTag o _ => c.slotBusy o
  | .accWord a _ _ => c.accBusy a
  | .accState a _ => c.accBusy a
  | _ => false

def spTrap (c : Ctx) (k : Cause) (a n op lane : Nat) : Trap :=
  { memTrap k c.slot (BitVec.ofNat 64 a) (memData0 n false false WalkInfo.nowalk false false 0 (c.op k op)) WalkInfo.nowalk with
    lane := lane }

/-- The tile that a place of the aperture belongs to. -/
def SpPlace.tileOf : SpPlace → Option (Bool × Nat)
  | .tile o _ | .tileState o _ | .tileTag o _ => some (false, o)
  | .accWord a _ _ | .accState a _ => some (true, a)
  | .word _ _ | .slice _ _ | .repair _ => none

/-- TILE_STATE of an access to the tile aperture: the tile's number, its state word and the slot that holds its claim (Table 22.1). -/
def tileTrap (s : State) (c : Ctx) (p : SpPlace) (a lane : Nat) : Trap :=
  let k := s.core c.m.core
  let (o, w, cl, owner) := match p.tileOf with
    | some (true, a) => (a, (k.acc a).stateWord, (k.acc a).cl, (k.acc a).owner)
    | some (false, o) => (o, (k.oslot o).stateWord, (k.oslot o).cl, (k.oslot o).owner)
    | none => (0, 0, false, 0)
  { engineTrap .tileState c.slot 0 7 o w 0 (if cl then BitVec.ofNat 64 owner else BitVec.allOnes 64) with
    addr := BitVec.ofNat 64 a, lane := lane }

/-- Resolve and check one scratchpad access (R197, R198, R232): OFFSET_RANGE, MISALIGN, the tile's claim, then the
engine waits of the scoreboard and of busy tiles. -/
def spAccess (s : State) (c : Ctx) (form : SpForm) (a n al op lane : Nat) (write : Bool) : Except Stop SpPlace :=
  match resolveSp s c.m.core form c.sys c.pub a n with
  | .error k => .error (.trap true (spTrap c k a n op lane))
  | .ok p =>
    if a % al ≠ 0 then .error (.trap true (spTrap c .misalign a n op lane))
    else if !tileOwned (s.core c.m.core) c.h.slot p then .error (.trap true (tileTrap s c p a lane))
    else if scoreBlocks s p n write (form == .fe) then .error (.wait .scoreboard)
    else if placeBusy (s.core c.m.core) p then .error (.wait .tileBusy)
    else .ok p

/-- SA + imm as a 64-bit scratchpad address (log 24). -/
def Ctx.spAddr (c : Ctx) (sa : BitVec 6) (imm : Int) : Nat := ((c.s 5 sa.toNat).val + BitVec.ofInt 64 imm).toNat

/-! ### Stream records (R210, R211) -/

def StrmRec.dirOut (r : StrmRec) : Bool := r.flags.getLsbD 0
def StrmRec.fem (r : StrmRec) : Nat := (r.flags.extractLsb' 1 2).toNat
def StrmRec.wrap (r : StrmRec) : Bool := r.flags.getLsbD 3
def StrmRec.extN (r : StrmRec) (k : Nat) : Nat := (r.ext.getD k 0).toNat
def StrmRec.strI (r : StrmRec) (k : Nat) : Int := (r.str.getD k 0).toInt
def StrmRec.total (r : StrmRec) : Nat := r.extN 0 * r.extN 1 * r.extN 2 * r.extN 3
def StrmRec.fmtN (r : StrmRec) : Nat := r.fmt.toNat
def StrmRec.pop (r : StrmRec) : Nat := r.popn.toNat
def StrmRec.bfp (r : StrmRec) : Option Nat := bfpWidth r.fmtN
def StrmRec.esize (r : StrmRec) : Nat := if r.fmtN = 2 then 2 else 4
/-- The value of the record's field at a byte offset (Table 10.1). -/
def StrmRec.value (r : StrmRec) (o : Nat) : Nat :=
  if o = 0 then r.base.toNat
  else if o < 24 then (r.ext.getD ((o - 8) / 4) 0).toNat
  else if o < 40 then (r.str.getD ((o - 24) / 4) 0).toNat
  else if o = 40 then r.fmt.toNat
  else if o = 42 then r.space.toNat
  else if o = 43 then r.flags.toNat
  else if o = 44 then r.popn.toNat
  else if o = 46 then r.rsv46.toNat
  else if o = 48 then r.itab.toNat
  else if o = 56 then r.idim.toNat
  else if o = 57 then r.ilog2.toNat
  else if o = 58 then r.ifmt.toNat
  else r.rsv60.toNat

/-- Bytes the generator moves for one element: the element, or its whole block. -/
def StrmRec.unit (r : StrmRec) : Nat := fmtBytes r.fmtN

/-- The record in 64 bytes (Table 10.1). -/
def parseRecord (l : List Byte) : StrmRec :=
  let n (o k : Nat) := leAt l o k
  { base := BitVec.ofNat 64 (n 0 8), ext := [8, 12, 16, 20].map fun o => BitVec.ofNat 32 (n o 4),
    str := [24, 28, 32, 36].map fun o => BitVec.ofNat 32 (n o 4), fmt := BitVec.ofNat 16 (n 40 2),
    space := BitVec.ofNat 8 (n 42 1), flags := BitVec.ofNat 8 (n 43 1), popn := BitVec.ofNat 16 (n 44 2),
    rsv46 := BitVec.ofNat 16 (n 46 2), itab := BitVec.ofNat 64 (n 48 8), idim := BitVec.ofNat 8 (n 56 1),
    ilog2 := BitVec.ofNat 8 (n 57 1), ifmt := BitVec.ofNat 16 (n 58 2), rsv60 := BitVec.ofNat 32 (n 60 4) }

/-- The byte offset of the first field that a record check refuses (R211); none when the record is accepted. -/
def StrmRec.refused (r : StrmRec) : Option Nat :=
  let strBad (k : Nat) (a : Int) : Bool := r.strI k % a != 0
  let baseBad (a : Nat) : Bool := r.base.toNat % a != 0
  if r.rsv46 ≠ 0 then some 46 else if r.rsv60 ≠ 0 then some 60
  else if 1 < r.space.toNat then some 42 else if 2 < r.ifmt.toNat then some 58
  else if !fmtPublished r.fmtN then some 40
  else if r.extN 0 = 0 then some 8 else if r.extN 1 = 0 then some 12 else if r.extN 2 = 0 then some 16
  else if r.extN 3 = 0 then some 20 else if 2 ^ 63 ≤ r.total then some 8
  else if r.pop = 0 ∨ 256 < r.pop then some 44
  else if (r.fem = 1 ∨ r.fem = 2) ∧ r.dirOut then some 43 else if r.fem = 3 ∧ !r.dirOut then some 43
  else if r.bfp.isSome ∧ r.strI 0 ≠ 1 then some 24
  else if r.bfp.isSome ∧ r.extN 0 % 32 ≠ 0 then some 8
  else if r.bfp.isSome ∧ r.pop % 32 ≠ 0 then some 44
  else if r.bfp.isSome ∧ r.fem ≠ 0 then some 43
  else if r.bfp.isSome ∧ r.ifmt = 2 ∧ r.idim = 0 then some 56
  else if r.bfp.isNone ∧ baseBad r.esize then some 0
  else if r.bfp.isNone ∧ strBad 1 r.esize then some 28
  else if r.bfp.isNone ∧ strBad 2 r.esize then some 32
  else if r.bfp.isNone ∧ strBad 3 r.esize then some 36
  else if r.fem ≠ 0 ∧ r.fmtN = 2 then some 40
  else if r.fem ≠ 0 ∧ r.strI 0 ≠ 1 then some 24
  else if r.fem ≠ 0 ∧ r.extN 0 % 2 ≠ 0 then some 8
  else if r.fem ≠ 0 ∧ baseBad 8 then some 0
  else if r.fem ≠ 0 ∧ strBad 1 8 then some 28
  else if r.fem ≠ 0 ∧ strBad 2 8 then some 32
  else if r.fem ≠ 0 ∧ strBad 3 8 then some 36
  else if r.ifmt = 0 then
    if r.itab ≠ 0 then some 48 else if r.idim ≠ 0 then some 56 else if r.ilog2 ≠ 0 then some 57 else none
  else if r.ifmt = 1 then
    if r.space = 1 then some 58 else if r.idim ≠ 0 then some 56 else if r.ilog2 ≠ 16 then some 57 else none
  else
    if 3 < r.idim.toNat then some 56 else if r.ilog2.toNat < 2 ∨ 40 < r.ilog2.toNat then some 57
    else if r.strI r.idim.toNat ≠ 0 then some (24 + 4 * r.idim.toNat) else none

/-! ### The walk of a stream (R212, R219) -/

/-- A failing element: cause, the element's address before any lookup, the virtual address that failed, walk information,
whether it failed in a block-table lookup, the table entry's address when one was read, and whether the failing access is
the read of a table rather than the element's own. -/
structure ElemFault where
  cause : Cause
  addr : Word
  va : Word
  wi : WalkInfo
  lookup : Bool
  bte : Option Word
  table : Bool
  deriving DecidableEq, Repr

/-- A failure of an access at `addr` itself. -/
def ElemFault.plain (k : Cause) (addr : Word) (wi : WalkInfo) : ElemFault := ⟨k, addr, addr, wi, false, none, false⟩

/-- A stream register in use: who accesses, which core's scratchpad space, its system bit. -/
structure StrmUse where
  who : Who
  core : Nat
  sys : Bool
  deriving DecidableEq, Repr

/-- Reach `n` bytes of device memory inside one page (R190, R214). -/
def strmMem (s : State) (u : StrmUse) (addr : Word) (n : Nat) (i : BitVec 2) (fe : Bool) :
    Except ElemFault (State × Loc) :=
  match translate s u.who.part u.sys addr.toNat i with
  | .error (k, wi) => .error (.plain k addr wi)
  | .ok pg =>
    if fe && !pg.fe then .error (.plain .feNotCapable addr WalkInfo.nowalk)
    else if 2 ^ sizeLog pg.size < addr.toNat % 2 ^ sizeLog pg.size + n then
      .error (.plain .offsetRange addr WalkInfo.nowalk)
    else .ok (touchPage s pg i, .mem (pg.pa addr.toNat))

/-- Reach `n` bytes at the exact address `x` of the record's space, `x - d` a multiple of `al` (R103, R190, R212). An
address outside 0..2^64-1 lies outside Table 5.4 and outside every page table. -/
def strmReach (s : State) (u : StrmUse) (space : Bool) (x : Int) (n : Nat) (i : BitVec 2) (fe : Bool) (al d : Nat) :
    Except ElemFault (State × Loc) :=
  let addr := BitVec.ofInt 64 x
  let r : Except ElemFault (State × Loc) :=
    if x < 0 ∨ (2 : Int) ^ 64 ≤ x then
      .error (if space then .plain .offsetRange addr WalkInfo.nowalk else .plain .xlateS1 addr WalkInfo.nowalk)
    else if space then
      match resolveSp s u.core .engine u.sys false addr.toNat n with
      | .ok (.word t a) => .ok (s, .sp t a)
      | _ => .error (.plain .offsetRange addr WalkInfo.nowalk)
    else strmMem s u addr n i fe
  match r with
  | .error f => .error f
  | .ok r => if (x - (d : Int)) % (al : Int) ≠ 0 then .error (.plain .misalign addr WalkInfo.nowalk) else .ok r

/-- The intent of a stream's translations (R214). -/
def StrmRec.intent (r : StrmRec) : BitVec 2 :=
  if r.dirOut then (if r.fem = 3 then 2 else 1) else if r.fem = 1 ∨ r.fem = 2 then 2 else 0

/-- The index of dimension IDIM read from the index32 table (R212), a word access of the record's space (R103). -/
def indexTerm (s : State) (u : StrmUse) (r : StrmRec) (i : Nat) : Except ElemFault (State × Int) :=
  match strmReach s u (r.space = 1) ((r.itab.toNat + 4 * i : Nat) : Int) 4 0 false (if r.space = 1 then 4 else 1) 0 with
  | .error f => .error { f with table := true }
  | .ok (s, l) => .ok (locArrive s u.who l 4, (natOf (locRead s u.who l 4).1 : Int) * 2 ^ r.ilog2.toNat)

/-- A block-table entry, cached or read afresh (R219, R220); the cached entries of the stream come back with it. -/
def blockEntry (s : State) (u : StrmUse) (r : StrmRec) (cache : AMap Word) (b : Nat) :
    Except ElemFault (State × AMap Word × Word × Word) :=
  let x := r.itab.toNat + 8 * b
  let ea := BitVec.ofNat 64 x
  match aget cache x with
  | some e => .ok (s, cache, e, ea)
  | none =>
    match strmReach s u false (x : Int) 8 0 false 1 0 with
    | .error f => .error { f with lookup := true, bte := some ea, table := true }
    | .ok (s, l) =>
      let e := BitVec.ofNat 64 (natOf (locRead s u.who l 8).1)
      .ok (locArrive s u.who l 8, aset cache x e, e, ea)

/-- The four coordinates of element `e`, innermost first (R212). -/
def StrmRec.coords (r : StrmRec) (e : Nat) : List Nat :=
  let e := if r.wrap then e % r.total else e
  [e % r.extN 0, e / r.extN 0 % r.extN 1, e / (r.extN 0 * r.extN 1) % r.extN 2, e / (r.extN 0 * r.extN 1 * r.extN 2)]

/-- The exact address of element `e` before any block lookup, as a signed integer (R212). Table 10.1 gives BASE no sign: that
it is read signed as the logical offset of a block table and unsigned otherwise is the model's choice (DESIGN CHOICE,
log 53). -/
def elemAddr (s : State) (u : StrmUse) (r : StrmRec) (e : Nat) : Except ElemFault (State × Int) :=
  let cs := r.coords e
  let i0 := cs.getD 0 0
  let t0 : Int := match r.bfp with
    | some m => ((i0 / 32 * (4 * m + 1) : Nat) : Int)
    | none => (r.esize : Int) * r.strI 0 * (i0 : Int)
  let term (k : Nat) : Int := r.strI k * ((cs.getD k 0 : Nat) : Int)
  let idim := r.idim.toNat
  let indexed : Except ElemFault (State × Int) :=
    if r.ifmt = 2 then indexTerm s u r (cs.getD idim 0) else .ok (s, 0)
  match indexed with
  | .error f => .error f
  | .ok (s, ix) =>
    let t (k : Nat) : Int := if r.ifmt = 2 ∧ k = idim then ix else if k = 0 then t0 else term k
    let base : Int := if r.space = 1 ∨ r.ifmt ≠ 1 then (r.base.toNat : Int) else r.base.toInt
    .ok (s, base + (t 0 + t 1 + t 2 + t 3))

/-- The alignment an element needs: its word, when it is moved as words of the scratchpad (R103), its 8-byte word when
it is an element of an F/E pair (R190). -/
def StrmRec.align (r : StrmRec) : Nat :=
  if r.fem ≠ 0 then 8 else if r.space = 1 ∧ r.bfp = none then r.esize else 1

/-- The place of element `e` of a walk (R212, R219): state, cached entries, and the place, or the element's fault. -/
def elemLoc (s : State) (u : StrmUse) (r : StrmRec) (cache : AMap Word) (e : Nat) :
    Except ElemFault (State × AMap Word × Loc) :=
  match elemAddr s u r e with
  | .error f => .error f
  | .ok (s, x) =>
    let fe := r.fem ≠ 0
    let d := if r.fem ≠ 0 then 4 * ((r.coords e).getD 0 0 % 2) else 0
    let addr := BitVec.ofInt 64 x
    if r.ifmt = 1 then
      if x < 0 then .error { ElemFault.plain .offsetRange addr WalkInfo.nowalk with lookup := true }
      else
        match blockEntry s u r cache (x / 65536).toNat with
        | .error f => .error { f with addr := addr }
        | .ok (s, cache, ent, ea) =>
          let bad (k : Cause) : Except ElemFault (State × AMap Word × Loc) :=
            .error ⟨k, addr, addr, ⟨false, 7, ent, ea, 0, 0⟩, true, some ea, false⟩
          if !ent.getLsbD 0 then bad .xlateS1
          else if r.dirOut && ent.getLsbD 1 then bad .blockShared
          else if r.dirOut && ent.getLsbD 3 then bad .blockMoving
          else
            let va := (ent &&& ~~~(0xFFFF : Word)).toNat + (x % 65536).toNat
            match strmReach s u false (va : Int) r.unit r.intent fe r.align d with
            | .error f => .error { f with addr := addr }
            | .ok (s, l) => .ok (s, cache, l)
    else
      match strmReach s u (r.space = 1) x r.unit r.intent fe r.align d with
      | .error f => .error f
      | .ok (s, l) => .ok (s, cache, l)

/-- The trap of a failing stream element (R214, R375, R376): a table read needs intent 0, and only XLATE_S1 and the block
causes carry the entry's address. -/
def elemTrap (slot q e lane n need : Nat) (f : ElemFault) : Trap :=
  let wi := f.wi
  let a2 : Word := match f.cause with
    | .xlateS2 => wi.gpa
    | .regen => wi.regenIdx
    | .xlateS1 => f.bte.getD 0
    | .blockShared => f.bte.getD 0
    | .blockMoving => f.bte.getD 0
    | _ => 0
  { memTrap f.cause slot f.addr (memData0 n false f.lookup wi false true (if f.table then 0 else need) 0) wi with
    stream := q, elem := e, lane := lane, addr2 := a2, va := f.va }

/-- The trap of a stream register that cannot be popped or pushed by a V slot (R448). -/
def strmParamTrap (slot q pos reason : Nat) : Trap :=
  { engineTrap .engineParam slot 0 7 q (BitVec.ofNat 64 reason) 0 0 with stream := q, elem := pos }

/-- How many elements a pop or push at the stream's position moves (R213); none at or beyond the walk's end. -/
def Strm.moves (q : Strm) (r : StrmRec) : Option Nat :=
  if r.wrap then some r.pop
  else if r.total ≤ q.pos then none
  else some (min r.pop (r.total - q.pos))

/-- The first reason a stream cannot be used in the given direction (R448). -/
def Strm.unusable (q : Strm) (out : Bool) : Option Nat :=
  match q.recd with
  | none => some 1
  | some r => if r.dirOut != out then some 2 else if (q.moves r).isNone then some 3 else none

/-- The stream register as it is used by a member. -/
def Ctx.use (c : Ctx) (q : Strm) : StrmUse := ⟨c.who, c.m.core, q.sys⟩

/-- Fetch element `e` of an input stream: read ahead already, or read now. -/
def fetchElem (s : State) (u : StrmUse) (q : Strm) (r : StrmRec) (e : Nat) :
    Except ElemFault (State × Strm × List Byte × Tag) :=
  let key := if r.wrap then e % r.total else e
  match aget q.ahead key with
  | some (d, t) => .ok (s, q, d, t)
  | none =>
    match elemLoc s u r q.bte e with
    | .error f => .error f
    | .ok (s, cache, l) =>
      let (d, t) := locRead s u.who l r.unit
      .ok (locArrive s u.who l r.unit, { q with bte := cache }, d, t)

/-- The stream after `n` elements have been popped: what it read ahead beyond them stays (R214). -/
def Strm.popped (q : Strm) (r : StrmRec) (n : Nat) : Strm :=
  let gone (k : Nat) : Bool := (List.range n).any fun i => (if r.wrap then (q.pos + i) % r.total else q.pos + i) == k
  { q with pos := q.pos + n, ahead := q.ahead.filter fun x => !gone x.1, met := none }

/-- The scoreboard entries whose words a scratchpad element touches (R107): the element or block, or its F/E pair. -/
def elemScores (s : State) (u : StrmUse) (r : StrmRec) (e : Nat) : List Score :=
  if r.space != 1 then []
  else match elemLoc s u r [] e with
    | .ok (_, _, .sp t a) =>
      (s.core t).score.filter fun x => if r.fem = 0 then x.meets a r.unit else x.meets (a / 8 * 8) 8
    | _ => []

/-- A scratchpad element that is not read or written yet (R107, R214): an input element under a write entry, an output
element under any entry. -/
def elemPaused (s : State) (u : StrmUse) (r : StrmRec) (e : Nat) : Bool :=
  (elemScores s u r e).any fun x => r.dirOut || x.write

/-- Whether one of `n` elements from position `e` on is paused. -/
def runPaused (s : State) (u : StrmUse) (r : StrmRec) (e n : Nat) : Bool :=
  r.space == 1 && (List.range n).any fun i => elemPaused s u r (e + i)

/-- An F/E element that meets any entry blocks its bundle (R107). -/
def runFeBlocked (s : State) (u : StrmUse) (r : StrmRec) (e n : Nat) : Bool :=
  r.fem != 0 && r.space == 1 && (List.range n).any fun i => !(elemScores s u r (e + i)).isEmpty

/-- Fetch `n` elements from position `e` on: data by element, or the lowest failing one. -/
def fetchElems (s : State) (u : StrmUse) (q : Strm) (r : StrmRec) (e : Nat) :
    Nat → Except (Nat × ElemFault) (State × Strm × List (List Byte × Tag))
  | 0 => .ok (s, q, [])
  | n + 1 =>
    match fetchElem s u q r e with
    | .error f => .error (e, f)
    | .ok (s, q, d, t) =>
      match fetchElems s u q r (e + 1) n with
      | .error f => .error f
      | .ok (s, q, l) => .ok (s, q, (d, t) :: l)

/-- An element's lane pattern and conversion flags (R118, R122, R165). -/
def laneOf (r : StrmRec) (e : Nat) (d : List Byte) : W32 × FFlags :=
  match r.bfp with
  | some m => blockToW32 m d ((r.coords e).getD 0 0 % 32)
  | none => if r.fmtN = 2 then (bf16ToW32 (BitVec.ofNat 16 (natOf d)), 0) else (BitVec.ofNat 32 (natOf d), 0)

/-- What a source gives a V operation: 256 lanes with flags raised on landing in an active lane, and one tag. -/
structure Source where
  lanes : List W32
  flags : List FFlags
  tag : Tag
  deriving DecidableEq, Repr

def Source.ofReg (v : VReg) : Source := ⟨v.lanes, [], v.tag⟩

/-- The pairs of F/E words that a pop of `n` elements at `e` takes (R215), by pair number of the walk. -/
def pairsOf (e n : Nat) : List Nat := (List.range ((e + n - 1) / 2 + 1 - e / 2)).map (e / 2 + ·)

/-- The word of an F/E pair that the member holds already: kept from an odd pop, or taken in this bundle. -/
def heldPair (c : Ctx) (qn : Nat) (q : Strm) (k : Nat) : Option (Word × Tag) :=
  match q.held with
  | some (j, w, t) => if j = k then some (w, t) else (c.m.popHeld.find? fun x => x.1 == qn && x.2.1 == k).map fun x => x.2.2
  | none => (c.m.popHeld.find? fun x => x.1 == qn && x.2.1 == k).map fun x => x.2.2

/-- Pop an F/E stream: its words have to be held already, else the attempts are still to be made (R215). -/
def popFe (c : Ctx) (qn : Nat) (q : Strm) (n : Nat) : Except Stop (Strm × List (List Byte × Tag)) :=
  let e := q.pos
  let ws := (pairsOf e n).map fun k => (k, heldPair c qn q k)
  if ws.any fun (_, w) => w.isNone then .error .retry
  else
    let word (k : Nat) : Word × Tag := ((ws.find? fun x => x.1 == k).bind (·.2)).getD (0, none)
    let elems := (List.range n).map fun i =>
      let (w, t) := word ((e + i) / 2)
      (bytesOf 4 (w.extractLsb' (32 * ((e + i) % 2)) 32).toNat, t)
    let held := if (e + n) % 2 = 1 then (let (w, t) := word ((e + n) / 2); some ((e + n) / 2, w, t)) else none
    .ok ({ q with held := held }, elems)

/-- Pop a stream for a V slot or a routine (R165, R213): the elements, with the stream's new position. -/
def popStream (s : State) (c : Ctx) (qn : Nat) : Except Stop (State × List (List Byte × Tag) × StrmRec) :=
  let q := c.m.strm qn
  match q.unusable false, q.recd with
  | some reason, _ => .error (.trap false (strmParamTrap c.slot qn q.pos reason))
  | none, none => .error (.trap false (strmParamTrap c.slot qn q.pos 1))
  | none, some r =>
    let n := (q.moves r).getD 0
    if runPaused s (c.use q) r q.pos n then .error .late
    else if runFeBlocked s (c.use q) r q.pos n then .error (.wait .scoreboard)
    else if r.fem = 0 then
      match fetchElems s (c.use q) q r q.pos n with
      | .error (e, f) => .error (.trap false (elemTrap c.slot qn e (e - q.pos) r.unit r.intent.toNat f))
      | .ok (s, q', l) =>
        .ok (s.modMember c.id c.mi (·.setStrm qn (q'.popped r n)), l, r)
    else
      match (List.range n).findSome? fun i => match elemLoc s (c.use q) r q.bte (q.pos + i) with
          | .error f => some (i, f) | .ok _ => none with
      | some (i, f) => .error (.trap false (elemTrap c.slot qn (q.pos + i) i 8 r.intent.toNat f))
      | none =>
        match popFe c qn q n with
        | .error e => .error e
        | .ok (q', l) =>
          .ok (s.modMember c.id c.mi fun m =>
            { m.setStrm qn { q' with pos := q.pos + n } with popHeld := m.popHeld.filter fun x => x.1 != qn }, l, r)

/-- The lanes a popped stream gives (R165). -/
def sourceOfPop (c : Ctx) (qn : Nat) (r : StrmRec) (l : List (List Byte × Tag)) : Source :=
  let e := (c.m.strm qn).pos
  let vs := l.zipIdx.map fun ((d, _), i) => laneOf r (e + i) d
  ⟨vs.map (·.1) ++ List.replicate (256 - vs.length) 0, vs.map (·.2), mergeTags (l.map (·.2))⟩

/-- Flags that a source's elements raise in active lanes. -/
def Source.raised (x : Source) (act : Mask) : FFlags :=
  x.flags.zipIdx.foldl (fun a (f, i) => if act.getLsbD i then a ||| f else a) 0

/-- Convert lanes to the bytes of the units a push moves (R217), with each unit's first element and the flags. -/
def pushUnits (r : StrmRec) (e : Nat) (l : List W32) : List (Nat × List Byte × FFlags) :=
  match r.bfp with
  | some m =>
    (List.range (l.length / 32)).map fun b =>
      let (d, f) := quantise m ((l.drop (32 * b)).take 32)
      (e + 32 * b, d, f)
  | none =>
    l.zipIdx.map fun (x, i) =>
      if r.fmtN = 2 then (let (b, f) := toBF16 .rne (fp32 x); (e + i, bytesOf 2 b.toNat, f))
      else (e + i, bytesOf 4 x.toNat, 0)

/-- Resolve the places of pushed units; the lowest failing element traps (R214). -/
def placeUnits (s : State) (u : StrmUse) (r : StrmRec) (cache : AMap Word) (t : Tag) :
    List (Nat × List Byte × FFlags) → Except (Nat × ElemFault) (State × AMap Word × List OutElem)
  | [] => .ok (s, cache, [])
  | (e, d, _) :: rest =>
    match elemLoc s u r cache e with
    | .error f => .error (e, f)
    | .ok (s, cache, l) =>
      match placeUnits s u r cache t rest with
      | .error f => .error f
      | .ok (s, cache, o) => .ok (s, cache, ⟨l, d, t, r.fem == 3⟩ :: o)

/-- Push lanes to an output stream (R166, R213, R217): flags land with the bundle's commit, and poison pushed to host memory is
consumed (R421). -/
def pushStream (s : State) (c : Ctx) (qn : Nat) (lanes : List W32) (t : Tag) : Except Stop State :=
  let q := c.m.strm qn
  match q.unusable true, q.recd with
  | some reason, _ => .error (.trap false (strmParamTrap c.slot qn q.pos reason))
  | none, none => .error (.trap false (strmParamTrap c.slot qn q.pos 1))
  | none, some r =>
    let n := (q.moves r).getD 0
    if runPaused s (c.use q) r q.pos n then .error (.wait .scoreboard)
    else
      let units := pushUnits r q.pos (lanes.take n)
      match placeUnits s (c.use q) r q.bte t units with
      | .error (e, f) => .error (.trap false (elemTrap c.slot qn e (e - q.pos) r.unit r.intent.toNat f))
      | .ok (s, cache, o) =>
        let fl := units.foldl (fun a x => a ||| x.2.2) 0
        .ok (s.modMember c.id c.mi fun m =>
          { m.setStrm qn { q with pos := q.pos + n, bte := cache, out := q.out ++ o } with
            fpstat := m.fpstat ||| fl, consume := mergeTag m.consume (hostTag o) })

/-! ### Vector operands of the V slot (R65, R168) -/

/-- A V source field: a register lane by lane, or the elements of the bundle's pop of that stream. -/
def vSource (c : Ctx) (pops : List (Nat × Source)) (f : Nat) (sf : Bool) (x : BitVec 10) : Source :=
  if sf then
    let qn := (c.h.qreg (x.toNat % 16)).getD (x.toNat % 16)
    ((pops.find? (·.1 == qn)).map (·.2)).getD ⟨List.replicate 256 0, [], none⟩
  else Source.ofReg (c.m.readV c.seed (c.ix f) ((c.h.vreg x.toNat).getD 0))

/-- Pop every stream that the source fields name, once each, in the order VA, VB, VC (R165, R366). -/
def popAll (c : Ctx) : List Nat → State → List (Nat × Source) → Except Stop (State × List (Nat × Source))
  | [], s, ps => .ok (s, ps)
  | qn :: rest, s, ps =>
    if ps.any (·.1 == qn) then popAll c rest s ps
    else
      match popStream s c qn with
      | .error e => .error e
      | .ok (s, l, r) => popAll c rest s (ps ++ [(qn, sourceOfPop c qn r l)])

/-- The streams that the source fields of a V slot name, resolved. -/
def vStreams (c : Ctx) (f : VForm) : List Nat :=
  let one (b : Bool) (x : BitVec 10) : List Nat := if b then [(c.h.qreg (x.toNat % 16)).getD (x.toNat % 16)] else []
  (one (f.sf.getLsbD 2) f.va ++ one (f.sf.getLsbD 1) f.vb ++ one (f.sf.getLsbD 0) f.vc)

/-- The sources of a V slot and the state after its pops. -/
structure VIn where
  act : Mask
  a : Source
  b : Source
  c : Source
  deriving DecidableEq, Repr

def vInputs (s : State) (c : Ctx) (f : VForm) : Except Stop (State × VIn) :=
  match popAll c (vStreams c f) s [] with
  | .error e => .error e
  | .ok (s, ps) =>
    .ok (s, ⟨c.k 4 f.k.toNat, vSource c ps 1 (f.sf.getLsbD 2) f.va, vSource c ps 2 (f.sf.getLsbD 1) f.vb,
             vSource c ps 3 (f.sf.getLsbD 0) f.vc⟩)

/-- Write a V result (R168): active lanes of the register named by VD, or a push. `full` marks a reduction, whose result
goes to every lane and whose tag is the source's alone (R179). R178 gives the tag of pushed elements for VINS only: that
every element which a V operation pushes, the zeros of inactive lanes too, carries the merge of the sources' tags is the
model's choice (DESIGN CHOICE, log 53). -/
def vResult (s : State) (c : Ctx) (f : VForm) (act : Mask) (lanes : List W32) (flags : FFlags) (t : Tag)
    (least : Nat) (full : Bool) : Except Stop State :=
  if f.sf.getLsbD 3 then
    let qn := (c.h.qreg (f.vd.toNat % 16)).getD (f.vd.toNat % 16)
    let out := if full then lanes else lanes.zipIdx.map fun (x, i) => if act.getLsbD i then x else 0
    match pushStream s c qn out t with
    | .error e => .error e
    | .ok s => .ok (s.modMember c.id c.mi fun m => { m with fpstat := m.fpstat ||| flags })
  else
    let n := (c.h.vreg f.vd.toNat).getD 0
    let m := if full then BitVec.allOnes 256 else act
    .ok (addResult s c (.v n m lanes t) flags f.lat least)

end Sys2Proof.Machine
end

