-- ==== Sys2Proof/Machine/Vector.lean ====
section
/-! DEFINITION. The operations of the V slot, one definition each, over the common frame of R168 (R170..R180). Each gives
the state with the operation's result in flight or pushed. -/

namespace Sys2Proof.Machine

/-- What a slot does on one member when its guard is true. -/
abbrev Fx := Ctx → State → Except Stop State

/-! ### The common frame -/

/-- Apply a lane function to the active lanes and join their flags. -/
def mapLanes (act : Mask) (op : Nat → W32 × FFlags) : List W32 × FFlags :=
  let l := (List.range 256).map fun i => if act.getLsbD i then op i else (0, 0)
  (l.map (·.1), l.foldl (fun a x => a ||| x.2) 0)

def lane (l : List W32) (i : Nat) : W32 := l.getD i 0

/-- A V operation given by its lane function on a, b and c (R168). -/
def vLanes (f : VForm) (least : Nat) (op : W32 → W32 → W32 → W32 × FFlags) (na : Nat) : Fx := fun c s =>
  match vInputs s c f with
  | .error e => .error e
  | .ok (s, x) =>
    let (l, fl) := mapLanes x.act fun i => op (lane x.a.lanes i) (lane x.b.lanes i) (lane x.c.lanes i)
    let fl := fl ||| x.a.raised x.act ||| (if 2 ≤ na then x.b.raised x.act else 0) ||| (if 3 ≤ na then x.c.raised x.act else 0)
    let t := mergeTag x.a.tag (mergeTag (if 2 ≤ na then x.b.tag else none) (if 3 ≤ na then x.c.tag else none))
    vResult s c f x.act l fl t least false

def v1 (f : VForm) (least : Nat) (op : W32 → W32 × FFlags) : Fx := vLanes f least (fun a _ _ => op a) 1
def v2 (f : VForm) (least : Nat) (op : W32 → W32 → W32 × FFlags) : Fx := vLanes f least (fun a b _ => op a b) 2
def v3 (f : VForm) (least : Nat) (op : W32 → W32 → W32 → W32 × FFlags) : Fx := vLanes f least op 3

/-- An integer operation raises no flag (R175). -/
def vInt (f : VForm) (op : W32 → W32 → W32) : Fx := v2 f 2 fun a b => (op a b, 0)

/-- The shift count of a lane (R175). -/
def laneShift (b : W32) : Nat := (b.extractLsb' 0 5).toNat

def rmOf (f : VForm) : RMode := RMode.ofBits f.rm

/-- The mask and scalar fields of V slots (R169). -/
def maskField (x : BitVec 10) : Nat := x.toNat % 16
def scalarField (x : BitVec 10) : Nat := x.toNat % 64
def laneField (x : BitVec 10) : Nat := x.toNat % 256

/-- A mask with the bits of a predicate on lane numbers. -/
def maskOf (p : Nat → Bool) : Mask :=
  (List.range 256).foldl (fun a i => if p i then a ||| BitVec.twoPow 256 i else a) 0

/-- FCMP and ICMP (R172): kt and kf partition the active lanes, and a poisoned source is consumed. -/
def vCompare (f : VForm) (least : Nat) (cond : W32 → W32 → Bool × FFlags) : Fx := fun c s =>
  match vInputs s c f with
  | .error e => .error e
  | .ok (s, x) =>
    let r i := cond (lane x.a.lanes i) (lane x.b.lanes i)
    let kt := maskOf fun i => x.act.getLsbD i && (r i).1
    let kf := maskOf fun i => x.act.getLsbD i && !(r i).1
    let fl := (List.range 256).foldl (fun a i => if x.act.getLsbD i then a ||| (r i).2 else a) 0
    let fl := fl ||| x.a.raised x.act ||| x.b.raised x.act
    let s := consumeTag s c.id c.mi (mergeTag x.a.tag x.b.tag)
    let s := addResult s c (.k (f.vd.toNat % 16) kt) fl f.lat least
    .ok (addResult s c (.k (f.vd.toNat / 16 % 16) kf) 0 f.lat least)

/-- The condition of ICMP (Table 3.6). -/
def condOf (n : Nat) (lt ltu eq : Bool) : Bool :=
  match n with
  | 0 => eq | 1 => !eq | 2 => lt | 3 => lt || eq | 4 => ltu | 5 => ltu || eq
  | 6 => !(lt || eq) | 7 => !lt | 8 => !(ltu || eq) | _ => !ltu

def icmpOp (n : Nat) (a b : W32) : Bool × FFlags := (condOf n (a.slt b) (a.ult b) (a == b), 0)

/-- A reduction (R179): the result goes to every lane and the tag is VA's. -/
def vReduce (f : VForm) (op : Mask → List W32 → W32 × FFlags) : Fx := fun c s =>
  match vInputs s c f with
  | .error e => .error e
  | .ok (s, x) =>
    let (r, fl) := op x.act x.a.lanes
    vResult s c f x.act (List.replicate 256 r) (fl ||| x.a.raised x.act) x.a.tag 8 true

/-- A fold of the active int32 lanes (R179). -/
def intReduce (ident : W32) (op : W32 → W32 → W32) (act : Mask) (l : List W32) : W32 × FFlags :=
  ((withIdentity act ident l).foldl op ident, 0)

def smin32 (a b : W32) : W32 := if a.slt b then a else b
def smax32 (a b : W32) : W32 := if a.slt b then b else a
def umin32 (a b : W32) : W32 := if a.ult b then a else b
def umax32 (a b : W32) : W32 := if a.ult b then b else a

/-- KLOG (R180). -/
def vKlog (f : VForm) (op : Mask → Mask → Mask) : Fx := fun c s =>
  .ok (addResult s c (.k (maskField f.vd) (op (c.k 1 (maskField f.va)) (c.k 2 (maskField f.vb)))) 0 f.lat 2)

/-- The scalar register that a V field names. -/
def vScalar (c : Ctx) (x : BitVec 10) : SReg := c.s 6 (scalarField x)

/-! ### The operations -/

/-- FADD (R170). -/
def fxFadd (f : VForm) : Fx := v2 f 4 (faddOp (rmOf f))

/-- FSUB (R170). -/
def fxFsub (f : VForm) : Fx := v2 f 4 (fsubOp (rmOf f))

/-- FMUL (R170). -/
def fxFmul (f : VForm) : Fx := v2 f 4 (fmulOp (rmOf f))

/-- FFMA (R170). -/
def fxFfma (f : VForm) : Fx := v3 f 4 (ffmaOp (rmOf f))

/-- FFMS (R170). -/
def fxFfms (f : VForm) : Fx := v3 f 4 (ffmsOp (rmOf f))

/-- FNMA (R170). -/
def fxFnma (f : VForm) : Fx := v3 f 4 (fnmaOp (rmOf f))

/-- FMIN (R171). -/
def fxFmin (f : VForm) : Fx := v2 f 4 fun a b => (fminOp a b, 0)

/-- FMAX (R171). -/
def fxFmax (f : VForm) : Fx := v2 f 4 fun a b => (fmaxOp a b, 0)

/-- FABS (R171). -/
def fxFabs (f : VForm) : Fx := v1 f 4 fun a => (a &&& 0x7FFFFFFF, 0)

/-- FNEG (R171). -/
def fxFneg (f : VForm) : Fx := v1 f 4 fun a => (a ^^^ 0x80000000, 0)

/-- FCMP (R172). -/
def fxFcmp (f : VForm) : Fx := vCompare f 4 (fcmpOp (f.vc.toNat % 16))

/-- FCVTI (R173, R415). -/
def fxFcvti (f : VForm) : Fx := fun c s => v1 f 4 (fcvtiOp (c.switched s (·.bt002)) (rmOf f)) c s

/-- ICVTF (R173). -/
def fxIcvtf (f : VForm) : Fx := v1 f 4 (icvtfOp (rmOf f))

/-- BFPK (R174). -/
def fxBfpk (f : VForm) : Fx := v2 f 4 (bfpkOp (rmOf f))

/-- BFUP (R174). -/
def fxBfup (f : VForm) : Fx := v1 f 4 fun a => (bfupOp (f.vc.getLsbD 0) a, 0)

/-- IADD (R175). -/
def fxIadd (f : VForm) : Fx := vInt f (· + ·)

/-- ISUB (R175). -/
def fxIsub (f : VForm) : Fx := vInt f (· - ·)

/-- IMUL (R175). -/
def fxImul (f : VForm) : Fx := vInt f (· * ·)

/-- IMULH (R175). -/
def fxImulh (f : VForm) : Fx := vInt f fun a b => (a.signExtend 64 * b.signExtend 64).extractLsb' 32 32

/-- IAND (R175). -/
def fxIand (f : VForm) : Fx := vInt f (· &&& ·)

/-- IOR (R175). -/
def fxIor (f : VForm) : Fx := vInt f (· ||| ·)

/-- IXOR (R175). -/
def fxIxor (f : VForm) : Fx := vInt f (· ^^^ ·)

/-- ISHL (R175). -/
def fxIshl (f : VForm) : Fx := vInt f fun a b => a <<< laneShift b

/-- ISHR (R175). -/
def fxIshr (f : VForm) : Fx := vInt f fun a b => a >>> laneShift b

/-- ISRA (R175). -/
def fxIsra (f : VForm) : Fx := vInt f fun a b => a.sshiftRight (laneShift b)

/-- IMIN (R175). -/
def fxImin (f : VForm) : Fx := vInt f smin32

/-- IMAX (R175). -/
def fxImax (f : VForm) : Fx := vInt f smax32

/-- IMINU (R175). -/
def fxIminu (f : VForm) : Fx := vInt f umin32

/-- IMAXU (R175). -/
def fxImaxu (f : VForm) : Fx := vInt f umax32

/-- ICMP (R172). -/
def fxIcmp (f : VForm) : Fx := vCompare f 2 (icmpOp (f.vc.toNat % 16))

/-- VSEL (R176). -/
def fxVsel (f : VForm) : Fx := fun c s =>
  let km := c.k 7 (maskField f.vc)
  match vInputs s c f with
  | .error e => .error e
  | .ok (s, x) =>
    let (l, _) := mapLanes x.act fun i => (if km.getLsbD i then lane x.a.lanes i else lane x.b.lanes i, 0)
    vResult s c f x.act l (x.a.raised x.act ||| x.b.raised x.act) (mergeTag x.a.tag x.b.tag) 2 false

/-- VMOV (R176). -/
def fxVmov (f : VForm) : Fx := v1 f 2 fun a => (a, 0)

/-- VBCST (R176). -/
def fxVbcst (f : VForm) : Fx := fun c s =>
  let x := vScalar c f.vb
  vResult s c f (c.k 4 f.k.toNat) (List.replicate 256 (x.val.extractLsb' 0 32)) 0 x.tag 2 false

/-- VPERM (R177). -/
def fxVperm (f : VForm) : Fx := fun c s =>
  match vInputs s c f with
  | .error e => .error e
  | .ok (s, x) =>
    let (l, _) := mapLanes x.act fun i => (lane x.a.lanes ((lane x.b.lanes i).toNat % 256), 0)
    vResult s c f x.act l (x.a.raised x.act ||| x.b.raised x.act) (mergeTag x.a.tag x.b.tag) 3 false

/-- VROT (R177). -/
def fxVrot (f : VForm) : Fx := fun c s =>
  match vInputs s c f with
  | .error e => .error e
  | .ok (s, x) =>
    let (l, _) := mapLanes x.act fun i => (lane x.a.lanes ((i + laneField f.vc) % 256), 0)
    vResult s c f x.act l (x.a.raised x.act) x.a.tag 3 false

/-- VIOTA (R177). -/
def fxViota (f : VForm) : Fx := fun c s =>
  vResult s c f (c.k 4 f.k.toNat) ((List.range 256).map (BitVec.ofNat 32)) 0 none 3 false

/-- VEXT (R178). -/
def fxVext (f : VForm) : Fx := fun c s =>
  match vInputs s c f with
  | .error e => .error e
  | .ok (s, x) =>
    let j := laneField f.vc
    let r := (lane x.a.lanes j).signExtend 64
    .ok (addResult s c (.s (scalarField f.vd) r x.a.tag) (x.a.raised (BitVec.allOnes 256)) f.lat 3)

/-- VINS (R178). -/
def fxVins (f : VForm) : Fx := fun c s =>
  let x := vScalar c f.vb
  let j := laneField f.vc
  let k := c.k 4 f.k.toNat
  let act : Mask := if k.getLsbD j then BitVec.twoPow 256 j else 0
  let l := List.replicate 256 (x.val.extractLsb' 0 32)
  if f.sf.getLsbD 3 then vResult s c f act l 0 x.tag 3 false
  else
    let n := (c.h.vreg f.vd.toNat).getD 0
    .ok (addResult s c (.v n act l x.tag) 0 f.lat 3)

/-- FRSUM (R179). -/
def fxFrsum (f : VForm) : Fx := vReduce f frsumOp

/-- FRMAX (R179, R415). -/
def fxFrmax (f : VForm) : Fx := fun c s => vReduce f (fun a l => (frmaxOp (c.switched s (·.bt007)) a l, 0)) c s

/-- FRMIN (R179, R415). -/
def fxFrmin (f : VForm) : Fx := fun c s => vReduce f (fun a l => (frminOp (c.switched s (·.bt007)) a l, 0)) c s

/-- IRSUM (R179). -/
def fxIrsum (f : VForm) : Fx := vReduce f (intReduce 0 (· + ·))

/-- IRMAX (R179). -/
def fxIrmax (f : VForm) : Fx := vReduce f (intReduce 0x80000000 smax32)

/-- IRMIN (R179). -/
def fxIrmin (f : VForm) : Fx := vReduce f (intReduce 0x7FFFFFFF smin32)

/-- KAND (R180). -/
def fxKand (f : VForm) : Fx := vKlog f (· &&& ·)

/-- KOR (R180). -/
def fxKor (f : VForm) : Fx := vKlog f (· ||| ·)

/-- KXOR (R180). -/
def fxKxor (f : VForm) : Fx := vKlog f (· ^^^ ·)

/-- KANDN (R180). -/
def fxKandn (f : VForm) : Fx := vKlog f fun a b => a &&& ~~~b

/-- KPOPC (R180). -/
def fxKpopc (f : VForm) : Fx := fun c s =>
  let k := c.k 1 (maskField f.va)
  let n := (List.range 256).foldl (fun a i => if k.getLsbD i then a + 1 else a) 0
  .ok (addResult s c (.s (scalarField f.vd) (BitVec.ofNat 64 n) none) 0 f.lat 2)

/-- KFROMV (R180). -/
def fxKfromv (f : VForm) : Fx := fun c s =>
  match vInputs s c f with
  | .error e => .error e
  | .ok (s, x) =>
    let k := maskOf fun i => x.act.getLsbD i && lane x.a.lanes i != 0
    let s := consumeTag s c.id c.mi x.a.tag
    .ok (addResult s c (.k (maskField f.vd) k) (x.a.raised x.act) f.lat 2)

end Sys2Proof.Machine
end

