-- ==== Sys2Proof/Machine/Scalar.lean ====
section
/-! DEFINITION. The operations of the S slot, one definition each: integer arithmetic, compares, predicate logic, special
registers, CHKE and scalar floating point (R135..R151, Tables 7.1..7.4). -/

namespace Sys2Proof.Machine

/-! ### Common forms -/

/-- A two-source operation of form SR: the result carries the merged tags (R136). -/
def sr2 (f : SRForm) (least : Nat) (op : Word → Word → Word) : Fx := fun c s =>
  let a := c.s 1 f.sa.toNat
  let b := c.s 2 f.sb.toNat
  .ok (putS s c f.sd (op a.val b.val) (mergeTag a.tag b.tag) f.lat least)

/-- A one-source operation of form SR. -/
def sr1 (f : S1Form) (op : Word → Word) : Fx := fun c s =>
  let a := c.s 1 f.sa.toNat
  .ok (putS s c f.sd (op a.val) a.tag f.lat 1)

/-- An operation with an immediate (R140). -/
def sri (f : SIForm) (op : Word → Word → Word) : Fx := fun c s =>
  let a := c.s 1 f.sa.toNat
  .ok (putS s c f.sd (op a.val (sext32 f.imm)) a.tag f.lat 1)

/-- A shift by an immediate of 0..63 (R140). -/
def srShift (f : SIForm) (op : Word → Nat → Word) : Fx := fun c s =>
  let a := c.s 1 f.sa.toNat
  .ok (putS s c f.sd (op a.val f.imm.toNat) a.tag f.lat 1)

/-- The shift count: bits 5..0 (R139). -/
def shiftOf (b : Word) : Nat := (b.extractLsb' 0 6).toNat

def smin64 (a b : Word) : Word := if a.slt b then a else b
def smax64 (a b : Word) : Word := if a.slt b then b else a
def umin64 (a b : Word) : Word := if a.ult b then a else b
def umax64 (a b : Word) : Word := if a.ult b then b else a

/-- The signed and the unsigned 128-bit product's high half (R142). -/
def mulHighS (a b : Word) : Word := (a.signExtend 128 * b.signExtend 128).extractLsb' 64 64
def mulHighU (a b : Word) : Word := (a.setWidth 128 * b.setWidth 128).extractLsb' 64 64

/-- The divisions with the borderline results of Table 7.2 (R143). -/
def divSigned (a b : Word) : Word := if b = 0 then BitVec.allOnes 64 else BitVec.ofInt 64 (a.toInt.tdiv b.toInt)
def divUnsigned (a b : Word) : Word := if b = 0 then BitVec.allOnes 64 else BitVec.ofNat 64 (a.toNat / b.toNat)
def remSigned (a b : Word) : Word := if b = 0 then a else BitVec.ofInt 64 (a.toInt.tmod b.toInt)
def remUnsigned (a b : Word) : Word := if b = 0 then a else BitVec.ofNat 64 (a.toNat % b.toNat)

/-- Leading zeros, trailing zeros and one bits (R144). -/
def clz64 (a : Word) : Nat := if a = 0 then 64 else 63 - Nat.log2 a.toNat
def ctz64 (a : Word) : Nat := ((List.range 64).find? fun i => a.getLsbD i).getD 64
def popc64 (a : Word) : Nat := (List.range 64).foldl (fun n i => if a.getLsbD i then n + 1 else n) 0

/-- The conditions of CMP and CMPI on 64-bit values (R146). -/
def cond64 (n : Nat) (a b : Word) : Bool := condOf n (a.slt b) (a.ult b) (a == b)

/-- Write a predicate and its complement (R146, R147, R148): two destinations. -/
def putPair (s : State) (c : Ctx) (pt pf : BitVec 4) (b : Bool) (lat : BitVec 4) : State :=
  addResult (addResult s c (.p pt.toNat b) 0 lat 1) c (.p pf.toNat !b) 0 lat 1

/-- Predicate logic (R147). -/
def plog (f : PlogForm) (op : Bool → Bool → Bool) : Fx := fun c s =>
  .ok (putPair s c f.pt f.pf (op (c.p 1 f.pa.toNat) (c.p 2 f.pb.toNat)) f.lat)

/-- Two-source scalar floating point on the low 32 bits (R151). -/
def sf2 (f : SRForm) (op : W32 → W32 → W32 × FFlags) : Fx := fun c s =>
  let a := c.s 1 f.sa.toNat
  let b := c.s 2 f.sb.toNat
  let (r, fl) := op (a.val.extractLsb' 0 32) (b.val.extractLsb' 0 32)
  .ok (addResult s c (.s f.sd.toNat (r.setWidth 64) (mergeTag a.tag b.tag)) fl f.lat 4)

/-! ### Integer operations -/

/-- ADD (R139). -/
def fxAdd (f : SRForm) : Fx := sr2 f 1 (· + ·)
/-- SUB (R139). -/
def fxSub (f : SRForm) : Fx := sr2 f 1 (· - ·)
/-- AND (R139). -/
def fxAnd (f : SRForm) : Fx := sr2 f 1 (· &&& ·)
/-- OR (R139). -/
def fxOr (f : SRForm) : Fx := sr2 f 1 (· ||| ·)
/-- XOR (R139). -/
def fxXor (f : SRForm) : Fx := sr2 f 1 (· ^^^ ·)
/-- SHL (R139). -/
def fxShl (f : SRForm) : Fx := sr2 f 1 fun a b => a <<< shiftOf b
/-- SHR (R139). -/
def fxShr (f : SRForm) : Fx := sr2 f 1 fun a b => a >>> shiftOf b
/-- SRA (R139). -/
def fxSra (f : SRForm) : Fx := sr2 f 1 fun a b => a.sshiftRight (shiftOf b)
/-- MIN (R139). -/
def fxMin (f : SRForm) : Fx := sr2 f 1 smin64
/-- MAX (R139). -/
def fxMax (f : SRForm) : Fx := sr2 f 1 smax64
/-- MINU (R139). -/
def fxMinu (f : SRForm) : Fx := sr2 f 1 umin64
/-- MAXU (R139). -/
def fxMaxu (f : SRForm) : Fx := sr2 f 1 umax64
/-- ROTL (R139). -/
def fxRotl (f : SRForm) : Fx := sr2 f 1 fun a b => a.rotateLeft (shiftOf b)

/-- ADDI (R140). -/
def fxAddi (f : SIForm) : Fx := sri f (· + ·)
/-- ANDI (R140). -/
def fxAndi (f : SIForm) : Fx := sri f (· &&& ·)
/-- ORI (R140). -/
def fxOri (f : SIForm) : Fx := sri f (· ||| ·)
/-- XORI (R140). -/
def fxXori (f : SIForm) : Fx := sri f (· ^^^ ·)
/-- SHLI (R140). -/
def fxShli (f : SIForm) : Fx := srShift f (· <<< ·)
/-- SHRI (R140). -/
def fxShri (f : SIForm) : Fx := srShift f (· >>> ·)
/-- SRAI (R140). -/
def fxSrai (f : SIForm) : Fx := srShift f (·.sshiftRight ·)

/-- MOVI (R141). -/
def fxMovi (f : MoviForm) : Fx := fun c s => .ok (putS s c f.sd (sext32 f.imm) none f.lat 1)

/-- MOVHI (R141). -/
def fxMovhi (f : SIForm) : Fx := fun c s =>
  let a := c.s 1 f.sa.toNat
  .ok (putS s c f.sd (f.imm ++ a.val.extractLsb' 0 32) a.tag f.lat 1)

/-- MUL (R142). -/
def fxMul (f : SRForm) : Fx := sr2 f 3 (· * ·)
/-- MULHS (R142). -/
def fxMulhs (f : SRForm) : Fx := sr2 f 3 mulHighS
/-- MULHU (R142). -/
def fxMulhu (f : SRForm) : Fx := sr2 f 3 mulHighU
/-- DIVS (R143). -/
def fxDivs (f : SRForm) : Fx := sr2 f 24 divSigned
/-- DIVU (R143). -/
def fxDivu (f : SRForm) : Fx := sr2 f 24 divUnsigned
/-- REMS (R143). -/
def fxRems (f : SRForm) : Fx := sr2 f 24 remSigned
/-- REMU (R143). -/
def fxRemu (f : SRForm) : Fx := sr2 f 24 remUnsigned

/-- CLZ (R144). -/
def fxClz (f : S1Form) : Fx := sr1 f fun a => BitVec.ofNat 64 (clz64 a)
/-- CTZ (R144). -/
def fxCtz (f : S1Form) : Fx := sr1 f fun a => BitVec.ofNat 64 (ctz64 a)
/-- POPC (R144). -/
def fxPopc (f : S1Form) : Fx := sr1 f fun a => BitVec.ofNat 64 (popc64 a)
/-- SEXTB (R144). -/
def fxSextb (f : S1Form) : Fx := sr1 f fun a => (a.extractLsb' 0 8).signExtend 64
/-- SEXTH (R144). -/
def fxSexth (f : S1Form) : Fx := sr1 f fun a => (a.extractLsb' 0 16).signExtend 64
/-- SEXTW (R144). -/
def fxSextw (f : S1Form) : Fx := sr1 f fun a => (a.extractLsb' 0 32).signExtend 64
/-- ZEXTB (R144). -/
def fxZextb (f : S1Form) : Fx := sr1 f fun a => (a.extractLsb' 0 8).setWidth 64
/-- ZEXTH (R144). -/
def fxZexth (f : S1Form) : Fx := sr1 f fun a => (a.extractLsb' 0 16).setWidth 64
/-- ZEXTW (R144). -/
def fxZextw (f : S1Form) : Fx := sr1 f fun a => (a.extractLsb' 0 32).setWidth 64

/-- SEL (R145): the result carries the tag of the register chosen. -/
def fxSel (f : SelForm) : Fx := fun c s =>
  let r := if c.p 3 f.p.toNat then c.s 1 f.sa.toNat else c.s 2 f.sb.toNat
  .ok (putS s c f.sd r.val r.tag f.lat 1)

/-! ### Compares and predicates -/

/-- CMP (R146); poisoned sources are consumed (R136). -/
def fxCmp (f : CmpForm) : Fx := fun c s =>
  let a := c.s 1 f.sa.toNat
  let b := c.s 2 f.sb.toNat
  let s := consumeTag s c.id c.mi (mergeTag a.tag b.tag)
  .ok (putPair s c f.pt f.pf (cond64 f.cond.toNat a.val b.val) f.lat)

/-- CMPI (R146). -/
def fxCmpi (f : CmpiForm) : Fx := fun c s =>
  let a := c.s 1 f.sa.toNat
  let s := consumeTag s c.id c.mi a.tag
  .ok (putPair s c f.pt f.pf (cond64 f.cond.toNat a.val (sext32 f.imm)) f.lat)

/-- PAND (R147). -/
def fxPand (f : PlogForm) : Fx := plog f (· && ·)
/-- POR (R147). -/
def fxPor (f : PlogForm) : Fx := plog f (· || ·)
/-- PXOR (R147). -/
def fxPxor (f : PlogForm) : Fx := plog f (· != ·)
/-- PANDN (R147). -/
def fxPandn (f : PlogForm) : Fx := plog f fun a b => a && !b

/-- MOVP (R148): no poison tag. -/
def fxMovp (f : MovpForm) : Fx := fun c s =>
  .ok (putS s c f.sx (if c.p 1 f.pa.toNat then 1 else 0) none f.lat 1)

/-- MOVPS (R148). -/
def fxMovps (f : MovpsForm) : Fx := fun c s =>
  let a := c.s 1 f.sx.toNat
  let s := consumeTag s c.id c.mi a.tag
  .ok (putPair s c f.pt f.pf (a.val.getLsbD 0) f.lat)

/-! ### Special registers (Tables 7.3, 7.4, 5.2) -/

/-- COREID of a global core number (Table 7.4). -/
def coreId (g : Nat) : Word := BitVec.ofNat 64 (g + g % 12 * 2 ^ 12 + g / 12 % 12 * 2 ^ 16 + g / 144 * 2 ^ 20)

/-- CARVE of a herd-context's carve-out (Table 5.2). -/
def carveOf (h : HerdCtx) : Word := BitVec.ofNat 64 (h.b1 + h.b2 * 2 ^ 13 + h.b3 * 2 ^ 26 + h.ctxl * 2 ^ 39)

/-- The ARG registers as MOVSR sees them: 0 outside a body (R39). -/
def Member.arg (m : Member) : Args := m.args.headD ⟨0, 0, 0, 0, 0⟩

/-- What MOVSR reads from special register `n` (Table 7.3, R305). QPOS12..QPOS15 are the physical streams, inside a body as
outside it (DESIGN CHOICE, log 48). -/
def readSpecial (s : State) (c : Ctx) (n : Nat) : Word :=
  let w (x : Nat) : Word := BitVec.ofNat 64 x
  if 0x08 ≤ n ∧ n ≤ 0x0D then c.h.idx.getD (n - 8) 0
  else if 0x20 ≤ n ∧ n ≤ 0x2F then w (c.m.strm (n - 0x20)).pos
  else match n with
    | 0x01 => w (if c.h.determ s then c.h.rank else c.h.slot)
    | 0x02 => if c.h.determ s then 0 else coreId c.m.core
    | 0x03 => w c.mi
    | 0x04 => w c.h.members.length
    | 0x05 => w (c.h.node + c.h.part * 2 ^ 16)
    | 0x06 => w c.v
    | 0x07 => if c.h.determ s then 0 else Config.clock c.m.core s.clk
    | 0x10 => (c.m.readFpstat c.seed (c.ix 1)).setWidth 64
    | 0x11 => c.m.cir
    | 0x12 => c.h.feBudget.setWidth 64
    | 0x13 => w (c.h.links.length + c.h.spill.length)
    | 0x14 => c.m.arg.x
    | 0x15 => c.m.arg.y
    | 0x16 => c.m.arg.z
    | 0x17 => c.m.arg.w
    | 0x18 => c.m.arg.f
    | 0x19 => w c.h.frames.length
    | 0x1A => c.h.defProfile.setWidth 64
    | 0x1B => carveOf c.h
    | 0x1C => w c.h.nv
    | _ => 0

/-- MOVSR (R149): no poison tag. -/
def fxMovsr (f : MovsrForm) : Fx := fun c s => .ok (putS s c f.sd (readSpecial s c f.num.toNat) none f.lat 1)

/-- The source of a MOVRS, whose poison is consumed (R136). -/
def movrsSource (c : Ctx) (f : MovrsForm) : SReg := c.s 1 f.sa.toNat

/-- MOVRS to a read-only register: ignored (R64, R149), but SA is read. -/
def fxMovrs (f : MovrsForm) (_num : BitVec 32) : Fx := fun c s =>
  .ok (consumeTag s c.id c.mi (movrsSource c f).tag)

/-- MOVRS to FPSTAT (R116): bits 3..0. Flags of a result whose bound is not reached yet land after the write, though R117 lets them
land before it and be lost (DESIGN CHOICE, log 48). -/
def fxFpstatWrite (f : MovrsForm) : Fx := fun c s =>
  let a := movrsSource c f
  .ok ((consumeTag s c.id c.mi a.tag).modMember c.id c.mi fun m => { m with fpstat := a.val.extractLsb' 0 4 })

/-- The bits of CIR that hold a field; the others read 0 whatever is written (R422). -/
def cirMask : Word := 0xFFFFFFFF0FFF002F

/-- MOVRS to CIR (Table 7.3): every field; the poison of SA is recorded after the write, at commit. -/
def fxCirWrite (f : MovrsForm) : Fx := fun c s =>
  let a := movrsSource c f
  .ok ((consumeTag s c.id c.mi a.tag).modMember c.id c.mi fun m => { m with cir := a.val &&& cirMask })

/-- MOVRS to FEBUDGET (Table 7.3): the lead's bits 11..0; the other members' values are not read. -/
def fxFebudgetWrite (f : MovrsForm) : Fx := fun c s =>
  let a := movrsSource c f
  if c.mi = 0 then
    .ok ((consumeTag s c.id c.mi a.tag).modHc c.id fun h => { h with feBudget := a.val.extractLsb' 0 12 })
  else .ok s

/-- MOVRS to DEFPROFILE (Table 7.3): only the lead's value is tested, PROFILE_UNKNOWN outside 1..3. The test
reads all 64 bits of the value (DESIGN CHOICE, log 48). -/
def fxDefprofileWrite (f : MovrsForm) : Fx := fun c s =>
  let a := movrsSource c f
  if c.mi = 0 then
    if 1 ≤ a.val.toNat ∧ a.val.toNat ≤ 3 then
      .ok ((consumeTag s c.id c.mi a.tag).modHc c.id fun h => { h with defProfile := a.val.extractLsb' 0 6 })
    else trapNow c .profileUnknown
  else .ok s

/-- Set one of ARGX..ARGW. -/
def Args.set (a : Args) (n : BitVec 2) (v : Word) : Args :=
  match n.toNat with
  | 0 => { a with x := v }
  | 1 => { a with y := v }
  | 2 => { a with z := v }
  | _ => { a with w := v }

/-- MOVRS to ARGX..ARGW (R39): ignored outside a body. -/
def fxArgWrite (f : MovrsForm) (n : BitVec 2) : Fx := fun c s =>
  let a := movrsSource c f
  let s := consumeTag s c.id c.mi a.tag
  if c.h.frames.isEmpty then .ok s
  else .ok (s.modMember c.id c.mi fun m =>
    { m with args := match m.args with | x :: r => x.set n a.val :: r | [] => [] })

/-- The position a MOVRS to QPOS sets: rounded down to a block for an output stream of a BFP format (R216). -/
def qposOf (r : StrmRec) (v : Nat) : Nat := if r.dirOut && r.bfp.isSome then v / 32 * 32 else v

/-- MOVRS to QPOSN (R216): from the next bundle on; ignored for a stream with no record (R80). -/
def fxQposWrite (f : MovrsForm) (n : BitVec 4) : Fx := fun c s =>
  let a := movrsSource c f
  let s := consumeTag s c.id c.mi a.tag
  match (c.m.strm n.toNat).recd with
  | none => .ok s
  | some r => .ok (addPending s c (.qpos n.toNat (qposOf r a.val.toNat)) 0 1 true)

/-- CHKE (R150): the wait is over when the bundle issues; CIR is read with no poison tag. -/
def fxChke (f : ChkeForm) : Fx := fun c s => .ok (putS s c f.sd c.m.cir none f.lat 1)

/-! ### Scalar floating point (R151) -/

/-- SFADD. -/
def fxSfadd (f : SRForm) : Fx := sf2 f (faddOp .rne)
/-- SFSUB. -/
def fxSfsub (f : SRForm) : Fx := sf2 f (fsubOp .rne)
/-- SFMUL. -/
def fxSfmul (f : SRForm) : Fx := sf2 f (fmulOp .rne)
/-- SFMIN. -/
def fxSfmin (f : SRForm) : Fx := sf2 f fun a b => (fminOp a b, 0)
/-- SFMAX. -/
def fxSfmax (f : SRForm) : Fx := sf2 f fun a b => (fmaxOp a b, 0)

/-- SFCVTIF. -/
def fxSfcvtif (f : S1Form) : Fx := fun c s =>
  let a := c.s 1 f.sa.toNat
  let (r, fl) := icvtfOp .rne (a.val.extractLsb' 0 32)
  .ok (addResult s c (.s f.sd.toNat (r.setWidth 64) a.tag) fl f.lat 4)

/-- SFCVTFI: the int32 result is sign-extended (R151, R415). -/
def fxSfcvtfi (f : S1Form) : Fx := fun c s =>
  let a := c.s 1 f.sa.toNat
  let (r, fl) := fcvtiOp (c.switched s (·.bt002)) .rz (a.val.extractLsb' 0 32)
  .ok (addResult s c (.s f.sd.toNat (sext32 r) a.tag) fl f.lat 4)

/-- SNOP (R63). -/
def fxSnop : Fx := fun _ s => .ok s

end Sys2Proof.Machine
end

