-- ==== Sys2Proof/Machine/MemOps.lean ====
section
/-! DEFINITION. The operations of the M slot, one definition each: translation, accesses through handles, scratchpad and
lane-private accesses, full/empty words, atomics, counters, fences and SETQ (R186..R209). -/

namespace Sys2Proof.Machine

/-! ### Logs kept by firmware in memory (R363, R378) -/

/-- Append a record to a ring of 64 at a physical address that the count of records written precedes (log 22). -/
def appendRing (s : State) (base : Nat) (words : List Word) : State :=
  if base < 8 then s
  else
    let n := (mem64 s (base - 8)).toNat
    let s := putFw s 0 (base + 128 * (n % 64)) (wordsBytes words)
    putFw s 0 (base - 8) (bytesOf 8 ((n + 1) % 2 ^ 64))

/-- Report a stage-2 fault that a TRANS or a read-ahead meets to the partition manager: a record with PC 0 and SLOT 0 (R378). -/
def noteStage2 (s : State) (h : HerdCtx) (t : Trap) : State :=
  let w := trapWords s { h with pc := 0 } t 0
  let base := ((s.part? h.part).map (·.cfg.s2Log.toNat)).getD 0
  { appendRing s base w with mgrEvents := s.mgrEvents + 1 }

/-! ### Translation (R186, R188) -/

/-- A handle filled by a translation that succeeded; `walk.gpa` keeps its page's guest-physical address (R189). -/
def Handle.ofPage (pg : Page) (va : Word) (i : BitVec 2) : Handle :=
  let vpage := va &&& ~~~(BitVec.ofNat 64 (2 ^ sizeLog pg.size - 1))
  { valid := true, fcause := none, vpage := vpage, size := pg.size,
    r := pg.r, w := pg.w && (i == 1 || i == 2), fe := pg.fe, c := pg.c, tier := pg.tier, intent := i,
    base := BitVec.ofNat 64 pg.base, revoked := false,
    walk := { WalkInfo.nowalk with
      gpa := BitVec.ofNat 64 (ptePa pg.e1 + vpage.toNat % 2 ^ levelShift pg.level) } }

/-- A handle that carries the cause of a translation that failed. -/
def Handle.ofFail (va : Word) (k : Cause) (wi : WalkInfo) : Handle :=
  { valid := false, fcause := some k, vpage := 0, size := 0, r := false, w := false, fe := false, c := false, tier := 0,
    intent := 0, base := va, revoked := false, walk := wi }

/-- The handle with every field 0 (R80, R188). -/
def Handle.none : Handle :=
  { valid := false, fcause := .none, vpage := 0, size := 0, r := false, w := false, fe := false, c := false, tier := 0,
    intent := 0, base := 0, revoked := false, walk := WalkInfo.nowalk }

/-- Fill a handle from a virtual address under an intent: the handle, with A and D set (R184, R186). -/
def fillHandle (s : State) (h : HerdCtx) (sys : Bool) (va : Word) (i : BitVec 2) (op : Nat) : State × Handle :=
  match translate s h.part sys va.toNat i with
  | .ok pg => (touchPage s pg i, Handle.ofPage pg va i)
  | .error (k, wi) =>
    let s := if k = .xlateS2 then
        noteStage2 s h (memTrap .xlateS2 0 va (memData0 0 false false wi false false i.toNat op) wi)
      else s
    (s, Handle.ofFail va k wi)

/-- TRANS (R186): never traps; its result bound is 24. -/
def fxTrans (f : TransForm) : Fx := fun c s =>
  let va := (c.s 1 f.sa.toNat).val + f.imm.signExtend 64
  let (s, h) := fillHandle s c.h c.sys va f.intent 1
  .ok (addPending s c (.h ((c.h.hreg f.hd.toNat).getD f.hd.toNat) h) 0 24 true)

/-- HINV (R188): from the next bundle on. -/
def fxHinv (f : HinvForm) : Fx := fun c s =>
  .ok (addPending s c (.h ((c.h.hreg f.hd.toNat).getD f.hd.toNat) Handle.none) 0 1 true)

/-- The words of a handle as HRD presents them (Table 9.3). -/
def Handle.word (h : Handle) (sys : Bool) (k : Nat) : Word :=
  let b (x : Bool) (i : Nat) : Nat := if x then 2 ^ i else 0
  if k = 0 then
    BitVec.ofNat 64 (((h.fcause.map (·.code)).getD 0) * 2 ^ 56 + h.vpage.toNat % 2 ^ 56 + h.tier.toNat * 2 ^ 12 +
      b h.c 11 + b h.fe 10 + h.intent.toNat * 2 ^ 8 + b h.w 7 + b h.r 6 + h.size.toNat * 2 ^ 4 + b h.valid 0)
  else if h.valid then (if sys then h.base else 0)
  else if h.fcause.isSome then h.base else 0

/-- HRD (R188): no poison tag, no trap on the handle's state. -/
def fxHrd (f : SMemForm) : Fx := fun c s =>
  let h := c.m.readH c.seed (c.ix 8) ((c.h.hreg f.h.toNat).getD f.h.toNat)
  .ok (putS s c f.sd (h.word c.sys f.imm.toNat) none f.lat 12)

/-! ### Scalar loads and stores (R193, R194) -/

/-- Perform an ordinary store through a handle; poison written to host memory is consumed (R421). -/
def storeBytes (s : State) (c : Ctx) (pa : Nat) (l : List Byte) (t : Tag) : Except Stop State :=
  match writeBytes s c.who pa l t with
  | some s => .ok (if isHostPa pa then consumeTag s c.id c.mi t else s)
  | none => .error .stage

/-- A scalar load of `n` bytes (Table 9.5). -/
def loadForm (f : SMemForm) (n op : Nat) (ext : Nat → Word) : Fx := fun c s =>
  match handleAccess c f.h .load (c.off f.so f.imm.toInt) n 1 op with
  | .error e => .error e
  | .ok pa =>
    let s := consumeSo s c f.so
    let v := ext (natOf (seenBytes s c.who pa n))
    .ok (putLoad (arrive s c.who pa n) c (.s f.sd.toNat v (rangeTag s c.who pa n)) f.lat)

def zext64 (v : Nat) : Word := BitVec.ofNat 64 v
def sextN (n v : Nat) : Word := BitVec.ofInt 64 (signedOf n v)

/-- A scalar store of the low `n` bytes of SD. -/
def storeForm (f : SMemForm) (n op : Nat) : Fx := fun c s =>
  match handleAccess c f.h .store (c.off f.so f.imm.toInt) n 1 op with
  | .error e => .error e
  | .ok pa =>
    let d := c.s 13 f.sd.toNat
    storeBytes (consumeSo s c f.so) c pa (bytesOf n d.val.toNat) d.tag

/-- LD.B (R193). -/
def fxLdB (f : SMemForm) : Fx := loadForm f 1 0x04 zext64
/-- LD.H (R193). -/
def fxLdH (f : SMemForm) : Fx := loadForm f 2 0x05 zext64
/-- LD.W (R193). -/
def fxLdW (f : SMemForm) : Fx := loadForm f 4 0x06 zext64
/-- LD.D (R193). -/
def fxLdD (f : SMemForm) : Fx := loadForm f 8 0x07 zext64
/-- LD.SB (R193). -/
def fxLdSb (f : SMemForm) : Fx := loadForm f 1 0x08 (sextN 8)
/-- LD.SH (R193). -/
def fxLdSh (f : SMemForm) : Fx := loadForm f 2 0x09 (sextN 16)
/-- LD.SW (R193). -/
def fxLdSw (f : SMemForm) : Fx := loadForm f 4 0x0A (sextN 32)
/-- ST.B (R193). -/
def fxStB (f : SMemForm) : Fx := storeForm f 1 0x0B
/-- ST.H (R193). -/
def fxStH (f : SMemForm) : Fx := storeForm f 2 0x0C
/-- ST.W (R193). -/
def fxStW (f : SMemForm) : Fx := storeForm f 4 0x0D
/-- ST.D (R193). -/
def fxStD (f : SMemForm) : Fx := storeForm f 8 0x0E

/-! ### Vector loads and stores (R195) -/

/-- The stride of a vector access: SS read signed, 1 for s0. -/
def Ctx.stride (c : Ctx) (ss : BitVec 6) : Int := if ss = 0 then 1 else (c.s 7 ss.toNat).val.toInt

/-- The offset of lane `i` with element unit `u`. -/
def vOff (c : Ctx) (f : VMemForm) (u : Nat) (i : Nat) : Int :=
  (c.s 5 f.so.toNat).val.toInt + (u : Int) * (f.imm.toInt + c.stride f.ss * (i : Int))

/-- Check every active lane; the lowest failing one decides (R190). -/
def vCheck (c : Ctx) (f : VMemForm) (a : Ask) (u op : Nat) (act : Mask) : Option Stop :=
  let hn := (c.h.hreg f.h.toNat).getD f.h.toNat
  let h := c.m.readH c.seed (c.ix 8) hn
  (List.range 256).findSome? fun i =>
    if act.getLsbD i then
      (handleFault h a (vOff c f u i) u u).map fun k => .trap true (handleTrap c hn h a (vOff c f u i) u op i k)
    else none

/-- The physical address of lane `i`. -/
def vPa (c : Ctx) (f : VMemForm) (u i : Nat) : Nat :=
  let h := c.m.readH c.seed (c.ix 8) ((c.h.hreg f.h.toNat).getD f.h.toNat)
  h.base.toNat + (vOff c f u i).toNat

/-- Read elements of `u` bytes one after the other, each with its tag; none at an address that is none. -/
def readLanes (s : State) (w : Who) (u : Nat) : List (Option Nat) → State × List (List Byte × Tag)
  | [] => (s, [])
  | none :: r => let (s, l) := readLanes s w u r; (s, ([], none) :: l)
  | some a :: r =>
    let (t, l) := readLanes (arrive s w a u) w u r
    (t, (seenBytes s w a u, rangeTag s w a u) :: l)

/-- A vector load of elements of `u` bytes: the tag merges those of SO, SS and the words read (R163, R195). -/
def vloadForm (f : VMemForm) (u op : Nat) (ext : Nat → W32) : Fx := fun c s =>
  let act := c.k 4 f.k.toNat
  match vCheck c f .load u op act with
  | some e => .error e
  | none =>
    let (s, x) := readLanes (consumeSo s c f.so) c.who u
      ((List.range 256).map fun i => if act.getLsbD i then some (vPa c f u i) else none)
    let l := (List.range 256).map fun i => if act.getLsbD i then ext (natOf (x.getD i ([], none)).1) else 0
    let t := mergeTags ((c.s 5 f.so.toNat).tag :: (c.s 7 f.ss.toNat).tag :: x.map (·.2))
    .ok (putLoad s c (.v ((c.h.vreg f.vd.toNat).getD 0) act l t) f.lat)

/-- A vector store of elements of `u` bytes: the highest-numbered lane's data holds. -/
def vstoreForm (f : VMemForm) (u op : Nat) (elem : W32 → Nat) : Fx := fun c s =>
  let act := c.k 4 f.k.toNat
  match vCheck c f .store u op act with
  | some e => .error e
  | none =>
    let d := c.m.readV c.seed (c.ix 13) ((c.h.vreg f.vd.toNat).getD 0)
    foldStop (fun s i =>
      if act.getLsbD i then storeBytes s c (vPa c f u i) (bytesOf u (elem (lane d.lanes i))) d.tag else .ok s)
      (List.range 256) (consumeSo s c f.so)

/-- VLD.W (R195). -/
def fxVldW (f : VMemForm) : Fx := vloadForm f 4 0x18 (BitVec.ofNat 32)
/-- VST.W (R195). -/
def fxVstW (f : VMemForm) : Fx := vstoreForm f 4 0x19 (·.toNat)
/-- VLD.H (R195): into bits 31..16. -/
def fxVldH (f : VMemForm) : Fx := vloadForm f 2 0x1A fun v => BitVec.ofNat 32 (v * 65536)
/-- VST.H (R195): bits 31..16. -/
def fxVstH (f : VMemForm) : Fx := vstoreForm f 2 0x1B (·.toNat / 65536)

/-- PREF (R196): changes no result and never traps. -/
def fxPref (_f : SMemForm) : Fx := fun _ s => .ok s

/-! ### Scratchpad scalar forms (R197) -/

/-- Whether an address reaches the cluster-shared window (Table 5.4). -/
def isWindow (a : Nat) : Bool := decide (2 ^ 32 ≤ a) && decide (a < 0x2_0000_0000)

def spLoad (f : SpsForm) (form : SpForm) (n op : Nat) : Fx := fun c s =>
  let a := c.spAddr f.sa f.imm.toInt
  match spAccess s c form a n n op 0 false with
  | .error e => .error e
  | .ok p =>
    .ok (putS s c f.sd (BitVec.ofNat 64 (placeRead s c.m.core p n)) (placeTag s p) f.lat (if isWindow a then 20 else 6))

def spStore (f : SpsForm) (form : SpForm) (n op : Nat) : Fx := fun c s =>
  let a := c.spAddr f.sa f.imm.toInt
  match spAccess s c form a n n op 0 true with
  | .error e => .error e
  | .ok p =>
    let d := c.s 13 f.sd.toNat
    match p with
    | .repair e => .ok (repairStore s c.m.core e d.val)
    | _ =>
      match placeWrite s c.m.core c.h.slot p n d.val.toNat d.tag with
      | .ok s => .ok s
      | .error _ => .error (.trap false (tileTrap s c p a 0))

/-- SPLD.W (R197). -/
def fxSpldW (f : SpsForm) : Fx := spLoad f .scalar 4 0x20
/-- SPLD.D (R197). -/
def fxSpldD (f : SpsForm) : Fx := spLoad f .scalarD 8 0x21
/-- SPST.W (R197). -/
def fxSpstW (f : SpsForm) : Fx := spStore f .scalar 4 0x22
/-- SPST.D (R197, R425). -/
def fxSpstD (f : SpsForm) : Fx := spStore f .scalarD 8 0x23

/-! ### Scratchpad vector, gather and scatter forms (R198) -/

/-- An exact scratchpad address as a number: one below 0 reaches no place, as one above 2^64 does, and shows its low 64 bits
as ADDR (R198). -/
def exactAddr (x : Int) : Nat := if 0 ≤ x then x.toNat else 2 ^ 64 + (BitVec.ofInt 64 x).toNat

/-- The scratchpad address of lane `i` of VSPLD and VSPST. -/
def spvAddr (c : Ctx) (f : SpvForm) (i : Nat) : Nat :=
  exactAddr (((c.s 5 f.sa.toNat).val.toNat : Int) + 4 * (f.imm.toInt + c.stride f.ss * (i : Int)))

/-- The scratchpad address of lane `i` of VSPG and VSPS. -/
def gatherAddr (c : Ctx) (f : GatherForm) (i : Nat) : Nat :=
  let b := c.m.readV c.seed (c.ix 2) ((c.h.vreg f.vb.toNat).getD 0)
  (c.s 5 f.sa.toNat).val.toNat + 4 * (lane b.lanes i).toNat

/-- The places of the active lanes: the lowest lane that traps decides, then an engine wait of any lane. -/
def laneDests (s : State) (c : Ctx) (form : SpForm) (act : Mask) (addr : Nat → Nat) (op : Nat) (write : Bool) :
    Except Stop (List (Nat × SpPlace)) :=
  let r := ((List.range 256).filter fun i => act.getLsbD i).map fun i => (i, spAccess s c form (addr i) 4 4 op i write)
  match r.findSome? (fun (_, x) => match x with | .error (.trap a t) => some (Stop.trap a t) | _ => none) with
  | some e => .error e
  | none =>
    match r.findSome? (fun (_, x) => match x with | .error e => some e | .ok _ => none) with
    | some e => .error e
    | none => .ok (r.filterMap fun (i, x) => match x with | .ok p => some (i, p) | .error _ => none)

/-- The pool word a place's bank follows from. -/
def placeBank (s : State) : SpPlace → Option (Nat × Nat)
  | .word t a => some (t, (s.core t).spWord a)
  | _ => none

/-- The bank cost g of a vector access (R105): loads count a word once, stores count each lane. -/
def bankCost (s : State) (l : List SpPlace) (write : Bool) : Nat :=
  let ws := l.filterMap (placeBank s)
  let ws := if write then ws else ws.eraseDups
  (ws.map fun (t, w) => (ws.filter fun (t', w') => t' == t && w' % 257 == w % 257).length).foldl max 1

/-- A vector load from scratchpad places. -/
def spvLoad (s : State) (c : Ctx) (form : SpForm) (vd : BitVec 10) (act : Mask) (addr : Nat → Nat) (lat : BitVec 4)
    (op : Nat) : Except Stop State :=
  match laneDests s c form act addr op false with
  | .error e => .error e
  | .ok ps =>
    let l := ps.foldl (fun l (i, p) => lset l i (BitVec.ofNat 32 (placeRead s c.m.core p 4))) (List.replicate 256 0)
    let t := mergeTags (ps.map fun (_, p) => placeTag s p)
    let base := if ps.any fun (i, _) => isWindow (addr i) then 24 else 8
    .ok (addResult s c (.v ((c.h.vreg vd.toNat).getD 0) act l t) 0 lat (base + bankCost s (ps.map (·.2)) false - 1))

/-- A pair both of whose words one vector store writes takes the data's tag (R104). -/
def wholePairs (s : State) (ps : List SpPlace) (t : Tag) : State :=
  ps.foldl (fun s p => match p with
    | .word k a =>
      if a % 8 = 0 ∧ ps.contains (.word k (a + 4)) then s.setCore k ((s.core k).setPairTag a t) else s
    | _ => s) s

/-- A vector store to scratchpad places: of several lanes on one word the highest-numbered lane's data holds. -/
def spvStore (s : State) (c : Ctx) (form : SpForm) (vd : BitVec 10) (act : Mask) (addr : Nat → Nat) (op : Nat) :
    Except Stop State :=
  match laneDests s c form act addr op true with
  | .error e => .error e
  | .ok ps =>
    let d := c.m.readV c.seed (c.ix 13) ((c.h.vreg vd.toNat).getD 0)
    (foldStop (fun s (i, p) =>
      match placeWrite s c.m.core c.h.slot p 4 (lane d.lanes i).toNat d.tag with
      | .ok s => .ok s
      | .error _ => .error (.trap false (tileTrap s c p (addr i) i))) ps s).map fun s => wholePairs s (ps.map (·.2)) d.tag

/-- VSPLD (R198). -/
def fxVspld (f : SpvForm) : Fx := fun c s => spvLoad s c .vector f.vd (c.k 4 f.k.toNat) (spvAddr c f) f.lat 0x24
/-- VSPST (R198). -/
def fxVspst (f : SpvForm) : Fx := fun c s => spvStore s c .vector f.vd (c.k 4 f.k.toNat) (spvAddr c f) 0x25
/-- VSPG (R198). -/
def fxVspg (f : GatherForm) : Fx := fun c s => spvLoad s c .gather f.vd (c.k 4 f.k.toNat) (gatherAddr c f) f.lat 0x26
/-- VSPS (R198). -/
def fxVsps (f : GatherForm) : Fx := fun c s => spvStore s c .gather f.vd (c.k 4 f.k.toNat) (gatherAddr c f) 0x27

/-! ### Lane-private forms (R101, R199) -/

/-- The row offset of lane `i`, and the lowest active lane whose row lies outside its slice; ADDR is the row offset. -/
def laneRow (c : Ctx) (f : GatherForm) (i : Nat) : Nat :=
  (lane (c.m.readV c.seed (c.ix 2) ((c.h.vreg f.vb.toNat).getD 0)).lanes i).toNat

def laneTrap (s : State) (c : Ctx) (f : GatherForm) (act : Mask) (op : Nat) : Option Stop :=
  (List.range 256).findSome? fun i =>
    if act.getLsbD i && decide ((s.core c.m.core).lpr ≤ laneRow c f i) then
      some (.trap true (spTrap c .offsetRange (laneRow c f i) 4 op i))
    else none

/-- LPLD (R199). -/
def fxLpld (f : GatherForm) : Fx := fun c s =>
  let act := c.k 4 f.k.toNat
  match laneTrap s c f act 0x28 with
  | some e => .error e
  | none =>
    let k := s.core c.m.core
    let l := (List.range 256).map fun i => if act.getLsbD i then k.cell (k.laneWord i (laneRow c f i)) else 0
    .ok (addResult s c (.v ((c.h.vreg f.vd.toNat).getD 0) act l none) 0 f.lat 8)

/-- LPST (R199). -/
def fxLpst (f : GatherForm) : Fx := fun c s =>
  let act := c.k 4 f.k.toNat
  match laneTrap s c f act 0x29 with
  | some e => .error e
  | none =>
    let d := c.m.readV c.seed (c.ix 13) ((c.h.vreg f.vd.toNat).getD 0)
    let k := (List.range 256).foldl (fun k i =>
      if act.getLsbD i then k.setWord (k.laneWord i (laneRow c f i)) (lane d.lanes i) else k) (s.core c.m.core)
    .ok (s.setCore c.m.core k)

/-! ### Full/empty words (R200..R202, R384) -/

/-- The waiting attempts of Table 9.6. -/
inductive FeKind where
  | wait | take | fill
  deriving DecidableEq, Repr

/-- An immediate operation on a word (R191): staged bytes of the word are performed, and the node is irrevocable. One that
is not sent performs nothing. -/
def beginImm (s : State) (w : Who) (l : Loc) : State :=
  match l with
  | .mem pa => markIrrev (if sendable s w.part pa then performStaged s w pa else s) w
  | .sp _ _ => markIrrev s w

/-- A store or atomic on a word whose request is lost: discarded, and on a dead flow counted (R340, R342). -/
def loseImm (s : State) (w : Who) (l : Loc) : State :=
  markIrrev (match l with | .mem pa => if flowOk s w.part pa then s else countFabErr s w.part | .sp _ _ => s) w

/-- The 8-byte word at a place, with its tag. -/
def locWord (s : State) (w : Who) (l : Loc) : SReg :=
  let (d, t) := locRead s w l 8
  ⟨BitVec.ofNat 64 (natOf d), t⟩

/-- Write the 8-byte word at a place as an immediate write. -/
def locPut (s : State) (w : Who) (l : Loc) (v : SReg) : State :=
  (locWrite s w l (bytesOf 8 v.val.toNat) v.tag true).getD s

/-- One attempt at the word's point of coherence (Table 9.6): the word taken or waited for, or none when it fails. While
PT is set takes fail, and while PE is set fills fail (R384), unless firmware makes them (`proxy`). An attempt whose request
is lost completes as a load, store or atomic does there: poison is returned, and nothing is written (R340, R342, log 20). -/
def feAttempt (s : State) (w : Who) (k : FeKind) (l : Loc) (d : SReg) (op : Nat) (proxy : Bool) : Option (State × SReg) :=
  let full := locFull s l
  let b := locPark s l
  if unsent s w l then
    match k with
    | .wait => some (markIrrev (locArrive s w l 8) w, locWord s w l)
    | .take => some (loseImm (locArrive s w l 8) w l, locWord s w l)
    | .fill => some (loseImm s w l, ⟨0, none⟩)
  else match k with
  | .wait => if full then (let s := beginImm s w l; some (locArrive s w l 8, locWord s w l)) else none
  | .take =>
    if full && (proxy || !parkPT b) then
      let s := beginImm s w l
      some (locSetFull (locArrive s w l 8) l false op, locWord s w l)
    else none
  | .fill =>
    if !full && (proxy || !parkPE b) then
      let s := beginImm s w l
      some (locSetFull (locPut s w l d) l true op, ⟨0, none⟩)
    else none

/-- The place of a full/empty form through a handle. -/
def feHandle (c : Ctx) (f : SMemForm) (op : Nat) : Except Stop Loc :=
  (handleAccess c f.h .fe (c.off f.so f.imm.toInt) 8 8 op).map .mem

/-- The place of a scratchpad full/empty form: core and byte address. -/
def feScratch (s : State) (c : Ctx) (f : SpsForm) (op : Nat) : Except Stop Loc :=
  match spAccess s c .fe (c.spAddr f.sa f.imm.toInt) 8 8 op 0 true with
  | .error e => .error e
  | .ok (.word t a) => .ok (.sp t a)
  | .ok _ => .error (.trap true (spTrap c .offsetRange (c.spAddr f.sa f.imm.toInt) 8 op 0))

/-- A waiting form commits once its member's attempt has succeeded and is held (R202). -/
def feCommit (s : State) (c : Ctx) (l : Loc) (k : FeKind) (sd : BitVec 6) (lat : BitVec 4) (least : Nat) :
    Except Stop State :=
  match c.m.feHeld with
  | none => .error .retry
  | some v =>
    let s := s.modMember c.id c.mi fun m => { m with feHeld := none }
    match k with
    | .fill =>
      let t := (c.s 13 sd.toNat).tag
      .ok (match l with | .mem pa => (if isHostPa pa then consumeTag s c.id c.mi t else s) | .sp _ _ => s)
    | _ => .ok (addResult s c (.s sd.toNat v.val v.tag) 0 lat least)

def feForm (f : SMemForm) (k : FeKind) (op : Nat) : Fx := fun c s =>
  match feHandle c f op with
  | .error e => .error e
  | .ok l => feCommit (consumeSo s c f.so) c l k f.sd f.lat 12

def feSpForm (f : SpsForm) (k : FeKind) (op : Nat) : Fx := fun c s =>
  match feScratch s c f op with
  | .error e => .error e
  | .ok l => feCommit s c l k f.sd f.lat (if isWindow (c.spAddr f.sa f.imm.toInt) then 20 else 6)

/-- LDWAIT.D (R200). -/
def fxLdwaitD (f : SMemForm) : Fx := feForm f .wait 0x10
/-- LDTAKE.D (R200). -/
def fxLdtakeD (f : SMemForm) : Fx := feForm f .take 0x11
/-- STFILL.D (R200). -/
def fxStfillD (f : SMemForm) : Fx := feForm f .fill 0x12
/-- SPTAKE.D (R200). -/
def fxSptakeD (f : SpsForm) : Fx := feSpForm f .take 0x2A
/-- SPFILL.D (R200). -/
def fxSpfillD (f : SpsForm) : Fx := feSpForm f .fill 0x2B

/-- What a waiting form of the M slot attempts: kind, place, the value to fill, and its OP; none for every other slot. -/
def feRequest (i : Instr) (c : Ctx) (s : State) : Option (FeKind × Except Stop Loc × SReg × Nat) :=
  match i with
  | .ldwaitD f => some (.wait, feHandle c f 0x10, ⟨0, none⟩, 0x10)
  | .ldtakeD f => some (.take, feHandle c f 0x11, ⟨0, none⟩, 0x11)
  | .stfillD f => some (.fill, feHandle c f 0x12, c.s 13 f.sd.toNat, 0x12)
  | .sptakeD f => some (.take, feScratch s c f 0x2A, ⟨0, none⟩, 0x2A)
  | .spfillD f => some (.fill, feScratch s c f 0x2B, c.s 13 f.sd.toNat, 0x2B)
  | _ => none

/-- FESET (R200): always succeeds. -/
def fxFeset (f : SMemForm) : Fx := fun c s =>
  match feHandle c f 0x13 with
  | .error e => .error e
  | .ok l =>
    let s := consumeSo s c f.so
    if unsent s c.who l then .ok (loseImm s c.who l)
    else .ok (locSetFull (beginImm s c.who l) l ((c.s 13 f.sd.toNat).val.getLsbD 0) 0x13)

/-- FEGET (R200). -/
def fxFeget (f : SMemForm) : Fx := fun c s =>
  match feHandle c f 0x14 with
  | .error e => .error e
  | .ok l =>
    let s := beginImm (consumeSo s c f.so) c.who l
    if unsent s c.who l then
      .ok (putLoad (locArrive s c.who l 8) c (.s f.sd.toNat (locWord s c.who l).val (locWord s c.who l).tag) f.lat)
    else .ok (putLoad s c (.s f.sd.toNat (if locFull s l then 1 else 0) none) f.lat)

/-! ### Atomics (R203) -/

/-- An atomic: the new word, or none when a compare fails. -/
def atomic (f : AtomForm) (op : Nat) (new : Word → Word → Word → Option Word) : Fx := fun c s =>
  match handleAccess c f.h .atomic (c.off f.so f.imm.toInt) 8 8 op with
  | .error e => .error e
  | .ok pa =>
    let s := beginImm (consumeSo s c f.so) c.who (.mem pa)
    let old := locWord s c.who (.mem pa)
    let s := arrive s c.who pa 8
    let sv := c.s 2 f.sv.toNat
    let s := if unsent s c.who (.mem pa) then loseImm s c.who (.mem pa)
      else match new old.val sv.val (c.s 3 f.sc.toNat).val with
      | some v =>
        let t := mergeTag old.tag sv.tag
        let s := writeImm s c.who pa (bytesOf 8 v.toNat) t
        if isHostPa pa then consumeTag s c.id c.mi t else s
      | none => s
    .ok (putLoad s c (.s f.sd.toNat old.val old.tag) f.lat)

/-- AADD. -/
def fxAadd (f : AtomForm) : Fx := atomic f 0x30 fun o v _ => some (o + v)
/-- AMIN. -/
def fxAmin (f : AtomForm) : Fx := atomic f 0x31 fun o v _ => some (smin64 o v)
/-- AMAX. -/
def fxAmax (f : AtomForm) : Fx := atomic f 0x32 fun o v _ => some (smax64 o v)
/-- AMINU. -/
def fxAminu (f : AtomForm) : Fx := atomic f 0x33 fun o v _ => some (umin64 o v)
/-- AMAXU. -/
def fxAmaxu (f : AtomForm) : Fx := atomic f 0x34 fun o v _ => some (umax64 o v)
/-- AAND. -/
def fxAand (f : AtomForm) : Fx := atomic f 0x35 fun o v _ => some (o &&& v)
/-- AOR. -/
def fxAor (f : AtomForm) : Fx := atomic f 0x36 fun o v _ => some (o ||| v)
/-- AXOR. -/
def fxAxor (f : AtomForm) : Fx := atomic f 0x37 fun o v _ => some (o ^^^ v)
/-- ASWP. -/
def fxAswp (f : AtomForm) : Fx := atomic f 0x38 fun _ v _ => some v
/-- ACAS. -/
def fxAcas (f : AtomForm) : Fx := atomic f 0x39 fun o v k => if o = k then some v else none

/-! ### Counters and fences (R205..R207) -/

/-- CADD (R205): the release has nothing left to order, since every earlier access has performed (log 23). -/
def fxCadd (f : CaddForm) : Fx := fun c s =>
  match handleAccess c f.h .cadd (c.off f.so 0) 8 8 0x3A with
  | .error e => .error e
  | .ok pa =>
    let v := c.s 2 f.sv.toNat
    let s := consumeTag (consumeSo s c f.so) c.id c.mi v.tag
    .ok (counterAdd s c.who pa (v.val.extractLsb' 0 32) none)

/-- CWAIT (R206): an engine wait until the counter is at or above the target. One whose request is lost completes, and consumes
the poison that comes back (log 20). -/
def fxCwait (f : AtomForm) : Fx := fun c s =>
  match handleAccess c f.h .counter (c.off f.so f.imm.toInt) 8 8 0x3B with
  | .error e => .error e
  | .ok pa =>
    let target := (c.s 2 f.sv.toNat).val
    if unsent s c.who (.mem pa) then
      .ok (consumeTag (arrive (consumeSo s c f.so) c.who pa 8) c.id c.mi (rangeTag s c.who pa 8))
    else if target.ule (view64 s c.who pa) then .ok (consumeSo s c f.so)
    else .error (.wait (.cwait [(pa, target)]))

/-- CRD (R206). -/
def fxCrd (f : AtomForm) : Fx := fun c s =>
  match handleAccess c f.h .counter (c.off f.so f.imm.toInt) 8 8 0x3C with
  | .error e => .error e
  | .ok pa =>
    let v := locWord s c.who (.mem pa)
    .ok (putLoad (arrive (consumeSo s c f.so) c.who pa 8) c (.s f.sd.toNat v.val v.tag) f.lat)

/-- FENCE (R207): every earlier access has performed when a bundle issues (log 23). -/
def fxFence (_f : FenceForm) : Fx := fun _ s => .ok s
/-- FENCE.ST (R207). -/
def fxFenceSt (_f : FenceForm) : Fx := fun _ s => .ok s
/-- FENCE.LD (R207). -/
def fxFenceLd (_f : FenceForm) : Fx := fun _ s => .ok s

/-- MNOP (R68). -/
def fxMnop : Fx := fun _ s => .ok s
/-- VNOP (R66). -/
def fxVnop : Fx := fun _ s => .ok s

/-! ### SETQ (R208, R211) -/

/-- Width in bytes of the record field at a byte offset (Table 10.1). -/
def recordWidth (o : Nat) : Nat :=
  if o = 0 ∨ o = 48 then 8 else if o = 42 ∨ o = 43 ∨ o = 56 ∨ o = 57 then 1
  else if o = 40 ∨ o = 44 ∨ o = 46 ∨ o = 58 then 2 else 4

/-- The bytes of a scratchpad place. -/
def spBytes (s : State) (core a n : Nat) : List Byte := (List.range n).map fun k => spByte s core (a + k)

/-- SETQ (R208): the whole state of the stream is replaced; pushed elements of the old record still leave (R215). -/
def fxSetq (f : SetqForm) : Fx := fun c s =>
  let a := c.spAddr f.sa f.imm.toInt
  match spAccess s c .engine a 64 8 0x3E 0 false with
  | .error e => .error e
  | .ok (.word t b) =>
    let bytes := spBytes s t b 64
    let r := parseRecord bytes
    match r.refused with
    | some o =>
      .error (.trap false (engineTrap .engineParam c.slot 0 6 o (BitVec.ofNat 64 (leAt bytes o (recordWidth o)))
        (BitVec.ofNat 64 a) 0))
    | none =>
      let qn := (c.h.qreg f.q.toNat).getD f.q.toNat
      .ok (s.modMember c.id c.mi fun m => m.setStrm qn
        { recd := some r, sys := c.sys, scope := c.scope, pos := 0, held := none, ahead := [], bte := [],
          out := (m.strm qn).out, met := none,
          dropped := (m.strm qn).placed (!(m.strm qn).out.isEmpty || astoQueued s c.id c.mi c.m.core (some qn)) })
  | .ok _ => .error (.trap true (spTrap c .offsetRange a 64 0x3E 0))

end Sys2Proof.Machine
end

