-- ==== Sys2Proof/Machine/Regs.lean ====
section
/-! DEFINITION. The registers that an operation names, for the checks of whole bundles (R37, R61, R70, Table 20.4) and for
the pauses of R35. -/

namespace Sys2Proof

/-- A register that an operand field names: `D` a destination, `S` a source; `qD` a push, `qS` a pop, `qSet` SETQ. -/
inductive Opnd where
  | sD (n : Nat) | sS (n : Nat) | pD (n : Nat) | pS (n : Nat) | kD (n : Nat) | kS (n : Nat)
  | vD (n : Nat) | vS (n : Nat) | hD (n : Nat) | hS (n : Nat) | qD (n : Nat) | qS (n : Nat) | qSet (n : Nat)
  deriving DecidableEq, Repr

/-- The registers that a field of a V slot names (Table 3.9). -/
def VUse.opnds (u : VUse) (dst : Bool) (x : BitVec 10) (sf : Bool) : List Opnd :=
  match u with
  | .reg =>
    if sf then [if dst then .qD (x.toNat % 16) else .qS (x.toNat % 16)] else [if dst then .vD x.toNat else .vS x.toNat]
  | .mask => [if dst then .kD (x.toNat % 16) else .kS (x.toNat % 16)]
  | .scalar => [if dst then .sD (x.toNat % 64) else .sS (x.toNat % 64)]
  | .pair => [.kD (x.toNat % 16), .kD (x.toNat / 16 % 16)]
  | _ => []

/-- The registers that the fields of an S, V or M operation name, destinations first. -/
def Instr.opnds : Instr → List Opnd
  | .add f => [.sD f.sd.toNat, .sS f.sa.toNat, .sS f.sb.toNat]
  | .sub f => [.sD f.sd.toNat, .sS f.sa.toNat, .sS f.sb.toNat]
  | .and f => [.sD f.sd.toNat, .sS f.sa.toNat, .sS f.sb.toNat]
  | .or f => [.sD f.sd.toNat, .sS f.sa.toNat, .sS f.sb.toNat]
  | .xor f => [.sD f.sd.toNat, .sS f.sa.toNat, .sS f.sb.toNat]
  | .shl f => [.sD f.sd.toNat, .sS f.sa.toNat, .sS f.sb.toNat]
  | .shr f => [.sD f.sd.toNat, .sS f.sa.toNat, .sS f.sb.toNat]
  | .sra f => [.sD f.sd.toNat, .sS f.sa.toNat, .sS f.sb.toNat]
  | .min f => [.sD f.sd.toNat, .sS f.sa.toNat, .sS f.sb.toNat]
  | .max f => [.sD f.sd.toNat, .sS f.sa.toNat, .sS f.sb.toNat]
  | .minu f => [.sD f.sd.toNat, .sS f.sa.toNat, .sS f.sb.toNat]
  | .maxu f => [.sD f.sd.toNat, .sS f.sa.toNat, .sS f.sb.toNat]
  | .rotl f => [.sD f.sd.toNat, .sS f.sa.toNat, .sS f.sb.toNat]
  | .addi f => [.sD f.sd.toNat, .sS f.sa.toNat]
  | .andi f => [.sD f.sd.toNat, .sS f.sa.toNat]
  | .ori f => [.sD f.sd.toNat, .sS f.sa.toNat]
  | .xori f => [.sD f.sd.toNat, .sS f.sa.toNat]
  | .shli f => [.sD f.sd.toNat, .sS f.sa.toNat]
  | .shri f => [.sD f.sd.toNat, .sS f.sa.toNat]
  | .srai f => [.sD f.sd.toNat, .sS f.sa.toNat]
  | .movi f => [.sD f.sd.toNat]
  | .movhi f => [.sD f.sd.toNat, .sS f.sa.toNat]
  | .mul f => [.sD f.sd.toNat, .sS f.sa.toNat, .sS f.sb.toNat]
  | .mulhs f => [.sD f.sd.toNat, .sS f.sa.toNat, .sS f.sb.toNat]
  | .mulhu f => [.sD f.sd.toNat, .sS f.sa.toNat, .sS f.sb.toNat]
  | .divs f => [.sD f.sd.toNat, .sS f.sa.toNat, .sS f.sb.toNat]
  | .divu f => [.sD f.sd.toNat, .sS f.sa.toNat, .sS f.sb.toNat]
  | .rems f => [.sD f.sd.toNat, .sS f.sa.toNat, .sS f.sb.toNat]
  | .remu f => [.sD f.sd.toNat, .sS f.sa.toNat, .sS f.sb.toNat]
  | .clz f => [.sD f.sd.toNat, .sS f.sa.toNat]
  | .ctz f => [.sD f.sd.toNat, .sS f.sa.toNat]
  | .popc f => [.sD f.sd.toNat, .sS f.sa.toNat]
  | .sextb f => [.sD f.sd.toNat, .sS f.sa.toNat]
  | .sexth f => [.sD f.sd.toNat, .sS f.sa.toNat]
  | .sextw f => [.sD f.sd.toNat, .sS f.sa.toNat]
  | .zextb f => [.sD f.sd.toNat, .sS f.sa.toNat]
  | .zexth f => [.sD f.sd.toNat, .sS f.sa.toNat]
  | .zextw f => [.sD f.sd.toNat, .sS f.sa.toNat]
  | .sel f => [.sD f.sd.toNat, .sS f.sa.toNat, .sS f.sb.toNat, .pS f.p.toNat]
  | .cmp f => [.pD f.pt.toNat, .pD f.pf.toNat, .sS f.sa.toNat, .sS f.sb.toNat]
  | .cmpi f => [.pD f.pt.toNat, .pD f.pf.toNat, .sS f.sa.toNat]
  | .pand f => [.pD f.pt.toNat, .pD f.pf.toNat, .pS f.pa.toNat, .pS f.pb.toNat]
  | .por f => [.pD f.pt.toNat, .pD f.pf.toNat, .pS f.pa.toNat, .pS f.pb.toNat]
  | .pxor f => [.pD f.pt.toNat, .pD f.pf.toNat, .pS f.pa.toNat, .pS f.pb.toNat]
  | .pandn f => [.pD f.pt.toNat, .pD f.pf.toNat, .pS f.pa.toNat, .pS f.pb.toNat]
  | .movp f => [.sD f.sx.toNat, .pS f.pa.toNat]
  | .movps f => [.pD f.pt.toNat, .pD f.pf.toNat, .sS f.sx.toNat]
  | .movsr f => [.sD f.sd.toNat]
  | .movrs f _ => [.sS f.sa.toNat]
  | .fpstatWrite f => [.sS f.sa.toNat]
  | .cirWrite f => [.sS f.sa.toNat]
  | .febudgetWrite f => [.sS f.sa.toNat]
  | .defprofileWrite f => [.sS f.sa.toNat]
  | .argWrite f _ => [.sS f.sa.toNat]
  | .qposWrite f _ => [.sS f.sa.toNat]
  | .chke f => [.sD f.sd.toNat]
  | .sfadd f => [.sD f.sd.toNat, .sS f.sa.toNat, .sS f.sb.toNat]
  | .sfsub f => [.sD f.sd.toNat, .sS f.sa.toNat, .sS f.sb.toNat]
  | .sfmul f => [.sD f.sd.toNat, .sS f.sa.toNat, .sS f.sb.toNat]
  | .sfmin f => [.sD f.sd.toNat, .sS f.sa.toNat, .sS f.sb.toNat]
  | .sfmax f => [.sD f.sd.toNat, .sS f.sa.toNat, .sS f.sb.toNat]
  | .sfcvtif f => [.sD f.sd.toNat, .sS f.sa.toNat]
  | .sfcvtfi f => [.sD f.sd.toNat, .sS f.sa.toNat]
  | .trans f => [.hD f.hd.toNat, .sS f.sa.toNat]
  | .hinv f => [.hD f.hd.toNat]
  | .hrd f => [.sD f.sd.toNat, .hS f.h.toNat]
  | .ldB f => [.sD f.sd.toNat, .hS f.h.toNat, .sS f.so.toNat]
  | .ldH f => [.sD f.sd.toNat, .hS f.h.toNat, .sS f.so.toNat]
  | .ldW f => [.sD f.sd.toNat, .hS f.h.toNat, .sS f.so.toNat]
  | .ldD f => [.sD f.sd.toNat, .hS f.h.toNat, .sS f.so.toNat]
  | .ldSb f => [.sD f.sd.toNat, .hS f.h.toNat, .sS f.so.toNat]
  | .ldSh f => [.sD f.sd.toNat, .hS f.h.toNat, .sS f.so.toNat]
  | .ldSw f => [.sD f.sd.toNat, .hS f.h.toNat, .sS f.so.toNat]
  | .stB f => [.sS f.sd.toNat, .hS f.h.toNat, .sS f.so.toNat]
  | .stH f => [.sS f.sd.toNat, .hS f.h.toNat, .sS f.so.toNat]
  | .stW f => [.sS f.sd.toNat, .hS f.h.toNat, .sS f.so.toNat]
  | .stD f => [.sS f.sd.toNat, .hS f.h.toNat, .sS f.so.toNat]
  | .ldwaitD f => [.sD f.sd.toNat, .hS f.h.toNat, .sS f.so.toNat]
  | .ldtakeD f => [.sD f.sd.toNat, .hS f.h.toNat, .sS f.so.toNat]
  | .stfillD f => [.sS f.sd.toNat, .hS f.h.toNat, .sS f.so.toNat]
  | .feset f => [.sS f.sd.toNat, .hS f.h.toNat, .sS f.so.toNat]
  | .feget f => [.sD f.sd.toNat, .hS f.h.toNat, .sS f.so.toNat]
  | .vldW f => [.vD f.vd.toNat, .hS f.h.toNat, .sS f.so.toNat, .sS f.ss.toNat, .kS f.k.toNat]
  | .vstW f => [.vS f.vd.toNat, .hS f.h.toNat, .sS f.so.toNat, .sS f.ss.toNat, .kS f.k.toNat]
  | .vldH f => [.vD f.vd.toNat, .hS f.h.toNat, .sS f.so.toNat, .sS f.ss.toNat, .kS f.k.toNat]
  | .vstH f => [.vS f.vd.toNat, .hS f.h.toNat, .sS f.so.toNat, .sS f.ss.toNat, .kS f.k.toNat]
  | .spldW f => [.sD f.sd.toNat, .sS f.sa.toNat]
  | .spldD f => [.sD f.sd.toNat, .sS f.sa.toNat]
  | .spstW f => [.sS f.sd.toNat, .sS f.sa.toNat]
  | .spstD f => [.sS f.sd.toNat, .sS f.sa.toNat]
  | .vspld f => [.vD f.vd.toNat, .sS f.sa.toNat, .sS f.ss.toNat, .kS f.k.toNat]
  | .vspst f => [.vS f.vd.toNat, .sS f.sa.toNat, .sS f.ss.toNat, .kS f.k.toNat]
  | .vspg f => [.vD f.vd.toNat, .sS f.sa.toNat, .vS f.vb.toNat, .kS f.k.toNat]
  | .vsps f => [.vS f.vd.toNat, .sS f.sa.toNat, .vS f.vb.toNat, .kS f.k.toNat]
  | .lpld f => [.vD f.vd.toNat, .vS f.vb.toNat, .kS f.k.toNat]
  | .lpst f => [.vS f.vd.toNat, .vS f.vb.toNat, .kS f.k.toNat]
  | .sptakeD f => [.sD f.sd.toNat, .sS f.sa.toNat]
  | .spfillD f => [.sS f.sd.toNat, .sS f.sa.toNat]
  | .aadd f => [.sD f.sd.toNat, .hS f.h.toNat, .sS f.so.toNat, .sS f.sv.toNat]
  | .amin f => [.sD f.sd.toNat, .hS f.h.toNat, .sS f.so.toNat, .sS f.sv.toNat]
  | .amax f => [.sD f.sd.toNat, .hS f.h.toNat, .sS f.so.toNat, .sS f.sv.toNat]
  | .aminu f => [.sD f.sd.toNat, .hS f.h.toNat, .sS f.so.toNat, .sS f.sv.toNat]
  | .amaxu f => [.sD f.sd.toNat, .hS f.h.toNat, .sS f.so.toNat, .sS f.sv.toNat]
  | .aand f => [.sD f.sd.toNat, .hS f.h.toNat, .sS f.so.toNat, .sS f.sv.toNat]
  | .aor f => [.sD f.sd.toNat, .hS f.h.toNat, .sS f.so.toNat, .sS f.sv.toNat]
  | .axor f => [.sD f.sd.toNat, .hS f.h.toNat, .sS f.so.toNat, .sS f.sv.toNat]
  | .aswp f => [.sD f.sd.toNat, .hS f.h.toNat, .sS f.so.toNat, .sS f.sv.toNat]
  | .acas f => [.sD f.sd.toNat, .hS f.h.toNat, .sS f.so.toNat, .sS f.sv.toNat, .sS f.sc.toNat]
  | .cadd f => [.hS f.h.toNat, .sS f.so.toNat, .sS f.sv.toNat]
  | .cwait f => [.hS f.h.toNat, .sS f.so.toNat, .sS f.sv.toNat]
  | .crd f => [.sD f.sd.toNat, .hS f.h.toNat, .sS f.so.toNat]
  | .fence _ => []
  | .fenceSt _ => []
  | .fenceLd _ => []
  | .setq f => [.qSet f.q.toNat, .sS f.sa.toNat]
  | .pref f => [.hS f.h.toNat, .sS f.so.toNat]
  | i =>
    match vSpec i with
    | some (f, p) =>
      p.vd.opnds true f.vd (f.sf.getLsbD 3) ++ p.va.opnds false f.va (f.sf.getLsbD 2) ++
        p.vb.opnds false f.vb (f.sf.getLsbD 1) ++ p.vc.opnds false f.vc (f.sf.getLsbD 0) ++ [.kS f.k.toNat]
    | none => []

/-- The guard field of an operation (R58). -/
def Instr.guard : Instr → BitVec 4
  | .add f => f.g
  | .sub f => f.g
  | .and f => f.g
  | .or f => f.g
  | .xor f => f.g
  | .shl f => f.g
  | .shr f => f.g
  | .sra f => f.g
  | .min f => f.g
  | .max f => f.g
  | .minu f => f.g
  | .maxu f => f.g
  | .rotl f => f.g
  | .addi f => f.g
  | .andi f => f.g
  | .ori f => f.g
  | .xori f => f.g
  | .shli f => f.g
  | .shri f => f.g
  | .srai f => f.g
  | .movi f => f.g
  | .movhi f => f.g
  | .mul f => f.g
  | .mulhs f => f.g
  | .mulhu f => f.g
  | .divs f => f.g
  | .divu f => f.g
  | .rems f => f.g
  | .remu f => f.g
  | .clz f => f.g
  | .ctz f => f.g
  | .popc f => f.g
  | .sextb f => f.g
  | .sexth f => f.g
  | .sextw f => f.g
  | .zextb f => f.g
  | .zexth f => f.g
  | .zextw f => f.g
  | .sel f => f.g
  | .cmp f => f.g
  | .cmpi f => f.g
  | .pand f => f.g
  | .por f => f.g
  | .pxor f => f.g
  | .pandn f => f.g
  | .movp f => f.g
  | .movps f => f.g
  | .movsr f => f.g
  | .movrs f _ => f.g
  | .fpstatWrite f => f.g
  | .cirWrite f => f.g
  | .febudgetWrite f => f.g
  | .defprofileWrite f => f.g
  | .argWrite f _ => f.g
  | .qposWrite f _ => f.g
  | .chke f => f.g
  | .sfadd f => f.g
  | .sfsub f => f.g
  | .sfmul f => f.g
  | .sfmin f => f.g
  | .sfmax f => f.g
  | .sfcvtif f => f.g
  | .sfcvtfi f => f.g
  | .fadd f => f.g
  | .fsub f => f.g
  | .fmul f => f.g
  | .ffma f => f.g
  | .ffms f => f.g
  | .fnma f => f.g
  | .fmin f => f.g
  | .fmax f => f.g
  | .fabs f => f.g
  | .fneg f => f.g
  | .fcmp f => f.g
  | .fcvti f => f.g
  | .icvtf f => f.g
  | .bfpk f => f.g
  | .bfup f => f.g
  | .iadd f => f.g
  | .isub f => f.g
  | .imul f => f.g
  | .imulh f => f.g
  | .iand f => f.g
  | .ior f => f.g
  | .ixor f => f.g
  | .ishl f => f.g
  | .ishr f => f.g
  | .isra f => f.g
  | .imin f => f.g
  | .imax f => f.g
  | .iminu f => f.g
  | .imaxu f => f.g
  | .icmp f => f.g
  | .vsel f => f.g
  | .vmov f => f.g
  | .vbcst f => f.g
  | .vperm f => f.g
  | .vrot f => f.g
  | .viota f => f.g
  | .vext f => f.g
  | .vins f => f.g
  | .frsum f => f.g
  | .frmax f => f.g
  | .frmin f => f.g
  | .irsum f => f.g
  | .irmax f => f.g
  | .irmin f => f.g
  | .kand f => f.g
  | .kor f => f.g
  | .kxor f => f.g
  | .kandn f => f.g
  | .kpopc f => f.g
  | .kfromv f => f.g
  | .trans f => f.g
  | .hinv f => f.g
  | .hrd f => f.g
  | .ldB f => f.g
  | .ldH f => f.g
  | .ldW f => f.g
  | .ldD f => f.g
  | .ldSb f => f.g
  | .ldSh f => f.g
  | .ldSw f => f.g
  | .stB f => f.g
  | .stH f => f.g
  | .stW f => f.g
  | .stD f => f.g
  | .ldwaitD f => f.g
  | .ldtakeD f => f.g
  | .stfillD f => f.g
  | .feset f => f.g
  | .feget f => f.g
  | .vldW f => f.g
  | .vstW f => f.g
  | .vldH f => f.g
  | .vstH f => f.g
  | .spldW f => f.g
  | .spldD f => f.g
  | .spstW f => f.g
  | .spstD f => f.g
  | .vspld f => f.g
  | .vspst f => f.g
  | .vspg f => f.g
  | .vsps f => f.g
  | .lpld f => f.g
  | .lpst f => f.g
  | .sptakeD f => f.g
  | .spfillD f => f.g
  | .aadd f => f.g
  | .amin f => f.g
  | .amax f => f.g
  | .aminu f => f.g
  | .amaxu f => f.g
  | .aand f => f.g
  | .aor f => f.g
  | .axor f => f.g
  | .aswp f => f.g
  | .acas f => f.g
  | .cadd f => f.g
  | .cwait f => f.g
  | .crd f => f.g
  | .fence f => f.g
  | .fenceSt f => f.g
  | .fenceLd f => f.g
  | .setq f => f.g
  | .pref f => f.g
  | _ => 0

/-- The fields of a routine slot. -/
def Instr.rform : Instr → Option RForm
  | .routineNop f => some f
  | .oclaim f => some f
  | .ofree f => some f
  | .olda f => some f
  | .oldb f => some f
  | .aclaim f => some f
  | .afree f => some f
  | .azero f => some f
  | .mma f => some f
  | .anorm f => some f
  | .asto f => some f
  | .arow f => some f
  | .bfpq f => some f
  | .bdot4 f => some f
  | .tlsc2 f => some f
  | .exp2 f => some f
  | .expe f => some f
  | .log2 f => some f
  | .loge f => some f
  | .rcp f => some f
  | .rsqrt f => some f
  | .sqrt f => some f
  | .tanh f => some f
  | .sigm f => some f
  | .silu f => some f
  | .gelu f => some f
  | .divf f => some f
  | .rmax f => some f
  | .rsum f => some f
  | .smxupd f => some f
  | .smxfin f => some f
  | .rmsn f => some f
  | .lnrm f => some f
  | .cpy f => some f
  | .cpyred f => some f
  | .tstload f => some f
  | .btswap f => some f
  | .btfence f => some f
  | .cbreg f => some f
  | .cbput f => some f
  | .cbstat f => some f
  | .jexp f => some f
  | .jdone f => some f
  | .ringadv f => some f
  | .routineSlot _ f => some f
  | _ => none

/-- Operand field `j` of a routine slot: X, Y, Z, W. -/
def RForm.field (f : RForm) (j : Nat) : Nat :=
  match j with | 0 => f.x.toNat | 1 => f.y.toNat | 2 => f.z.toNat | _ => f.w.toNat

/-- The routine number of a routine slot; 0 for what names none (R23). -/
def Instr.rn (i : Instr) : Nat :=
  match i.rform, slotWord i with
  | some _, some w => (bits w 52 12).toNat
  | _, _ => 0

/-- The scalar register that a control operation reads (R137). -/
def Instr.ctlReg : Instr → Option Nat
  | .brr _ sa => some sa.toNat
  | .callr _ sa => some sa.toNat
  | .loopn _ _ (.reg sc) _ => some sc.toNat
  | .resume _ sa => some sa.toNat
  | _ => none

/-- The guard of a control operation. -/
def Instr.ctlGuard (i : Instr) : BitVec 4 := ((controlFields i).map (·.2.2)).getD 0

end Sys2Proof
end

