-- ==== Sys2Proof/Machine/Control.lean ====
section
/-! DEFINITION. The control operations, one definition each: branches, the link store, hardware loops, TRAP, YIELD, WAITE,
ERET and RESUME (R72..R74, R137, R152..R161, R369..R371). -/

namespace Sys2Proof.Machine

/-! ### The footprint and the loop table of a node (R72, R74, Table 4.2) -/

def Node.footprint (n : Node) : Nat := n.field 24 8
def fpDmask (f : Nat) : Nat := f % 16
def fpNherd (f : Nat) : Nat := f / 2 ^ 4 % 2 ^ 8
def fpHsize (f : Nat) : Nat := f / 2 ^ 12 % 2 ^ 4
def fpCtxl (f : Nat) : Nat := f / 2 ^ 16 % 4
def fpSkew (f : Nat) : Nat := f / 2 ^ 18 % 4
def fpNlev (f : Nat) : Nat := f / 2 ^ 20 % 8
def fpB1 (f : Nat) : Nat := f / 2 ^ 24 % 2 ^ 13
def fpB2 (f : Nat) : Nat := f / 2 ^ 37 % 2 ^ 13
def fpB3 (f : Nat) : Nat := f / 2 ^ 50 % 2 ^ 13
def fpCtxn (f : Nat) : Nat := 2 ^ fpCtxl f
def fpNv (f : Nat) : Nat := min 1024 (257 * fpB1 f / (256 * fpCtxn f))

/-- Set bits of a die mask. -/
def dieCount (m : Nat) : Nat := ((List.range 4).filter fun d => m.testBit d).length

/-- The word of a loop table level. -/
def Node.loopEntry (n : Node) (l : Nat) : Nat := n.field (32 + 8 * l) 8

/-- The range of position `j` of `p` over an extent `n` (R74); an empty one starts at its end. -/
def splitRange (n p j : Nat) : Nat × Nat :=
  let k := (n + p - 1) / p
  let hi := min n ((j + 1) * k)
  (min (j * k) hi, hi)

/-- The index range of level `l` for a herd-context (R74). -/
def levelRange (nd : Node) (h : HerdCtx) (l : Nat) : Nat × Nat :=
  let e := nd.loopEntry l
  let n := e % 2 ^ 32
  let f := nd.footprint
  match e / 2 ^ 32 % 4 with
  | 1 => splitRange n (fpNherd f * fpCtxn f) (h.herd * fpCtxn f + h.rank)
  | 2 => splitRange n (dieCount (fpDmask f)) h.dieRank
  | _ => (0, n)

/-! ### What a control operation does -/

/-- What a control operation reads: the herd-context before the bundle, the context of the member in the lead's place,
the bundle's address and the next bundle in memory. -/
structure CtlIn where
  h : HerdCtx
  c : Ctx
  pc : Word
  next : Word
  deriving DecidableEq, Repr

/-- What acts once the bundle has committed. -/
inductive CtlAct where
  | go
  | trap (code : BitVec 16)
  | ret
  | resume (hc : Nat)
  | eret
  deriving DecidableEq, Repr

/-- The outcome of a control operation at commit, before the loop step of R159. -/
structure CtlOut where
  succ : Word
  taken : Bool
  links : List Link
  loops : List Loop
  idx : List Word
  post : Post
  consume : Tag
  act : CtlAct
  deriving DecidableEq, Repr

abbrev CtlFx := CtlIn → State → Except Stop CtlOut

def Post.none : Post := ⟨false, false, 0⟩

/-- The outcome of no control operation, or of one whose guard reads false (R371). -/
def CtlIn.plain (x : CtlIn) : CtlOut :=
  { succ := x.next, taken := false, links := x.h.links, loops := x.h.loops, idx := x.h.idx, post := Post.none,
    consume := none, act := .go }

/-- A direct target (R152). -/
def directTarget (pc : Word) (off : BitVec 34) : Word := pc + off.signExtend 64 * 8

/-- A register target: MISALIGN unless its bits 2..0 are 0, with ADDR the target (R152, R371). -/
def regTarget (x : CtlIn) (sa : BitVec 6) : Except Stop SReg :=
  let r := x.c.s 12 sa.toNat
  if r.val.extractLsb' 0 3 = 0 then .ok r
  else .error (.trap true { Trap.of .misalign 0 with addr := r.val, data := [0x7000, 0, 0, 0, 0] })

/-- COP 0x00 (R53). -/
def ctlNone : CtlFx := fun x _ => .ok x.plain

/-- BR (R153). -/
def ctlBr (off : BitVec 34) : CtlFx := fun x _ =>
  .ok { x.plain with succ := directTarget x.pc off, taken := true }

/-- BRR (R153). -/
def ctlBrr (sa : BitVec 6) : CtlFx := fun x _ =>
  match regTarget x sa with
  | .error e => .error e
  | .ok r => .ok { x.plain with succ := r.val, taken := true, consume := r.tag }

/-- Entries that the link store holds (R154). -/
def linkMax : Nat := 32

/-- Push a return link for a call, or trap LINK_OVERFLOW (R154). -/
def pushCall (x : CtlIn) (r : SReg) : Except Stop CtlOut :=
  if linkMax ≤ x.h.links.length then trapNowAt .linkOverflow
  else .ok { x.plain with succ := r.val, taken := true, consume := r.tag, links := ⟨x.next, .none, Post.none⟩ :: x.h.links }
where
  /-- An execution fault of the header. -/
  trapNowAt (k : Cause) : Except Stop CtlOut := .error (.trap true (Trap.of k 0))

/-- CALL (R154). -/
def ctlCall (off : BitVec 34) : CtlFx := fun x _ => pushCall x ⟨directTarget x.pc off, none⟩

/-- CALLR (R154): the target's alignment is checked first. -/
def ctlCallr (sa : BitVec 6) : CtlFx := fun x _ =>
  match regTarget x sa with
  | .error e => .error e
  | .ok r => pushCall x r

/-- RET (R154): LINK_EMPTY when no entry is held; the entry is popped at commit. -/
def ctlRet : CtlFx := fun x _ =>
  match x.h.links with
  | [] => .error (.trap true (Trap.of .linkEmpty 0))
  | l :: r => .ok { x.plain with succ := l.ret, taken := true, links := r, act := .ret }

/-! ### Loops (R158..R160) -/

def loopTrap : Except Stop CtlOut := .error (.trap true (Trap.of .loopNest 0))

/-- Where the walk ended of a code page that is mapped and does not let the segment fetch at `pc`: it lacks X, or it has S = 1
and the segment no system bit (R380). The loader places segments without asking for a mapping, so an unmapped code page is
none of the four cases (log 31). -/
def codeBar (s : State) (h : HerdCtx) (pc : Word) (sys : Bool) : Option WalkInfo :=
  match s.part? h.part with
  | none => none
  | some p => match walk s p pc.toNat with
    | .ok pg => if !pg.x || (pg.sys && !sys) then some ⟨false, pg.level, pg.e1, pg.ea1, 0, 0⟩ else none
    | .error _ => none

def codeBarred (s : State) (h : HerdCtx) (pc : Word) (sys : Bool) : Bool := (codeBar s h pc sys).isSome

/-- The bundle that follows the bundle at `e`; `e` itself when that bundle cannot be fetched (R158, R380). -/
def afterBundle (s : State) (h : HerdCtx) (e : Word) : Word :=
  match (s.image? h).bind (·.bundle e) with
  | some (_, sg, ws) => if codeBarred s h e sg.sys then e else e + BitVec.ofNat 64 (8 * ws.length)
  | none => e

/-- IDXl for the levels that have one. -/
def setIdx (idx : List Word) (l v : Nat) : List Word := if l ≤ 5 then lset idx l (BitVec.ofNat 64 v) else idx

/-- Start a loop over [lo, hi) on level `l` with end address `e` (R158). -/
def startLoop (s : State) (x : CtlIn) (l lo hi : Nat) (e : Word) (t : Tag) : Except Stop CtlOut :=
  if x.h.loops.any (·.level == l) then loopTrap
  else if x.h.loops.any fun k => decide (k.stop.toNat < e.toNat) then loopTrap
  else if lo = hi then
    .ok { x.plain with succ := afterBundle s x.h e, taken := true, idx := setIdx x.h.idx l hi, consume := t }
  else
    .ok { x.plain with succ := x.next, taken := true, loops := ⟨l, x.next, e, lo, hi⟩ :: x.h.loops,
                       idx := setIdx x.h.idx l lo, consume := t }

/-- The end address A + 8·END (R54). -/
def endAddr (pc : Word) (e : BitVec 16) : Word := pc + e.setWidth 64 * 8

/-- LOOPT (R158): the range of level `l` in the node's loop table. -/
def ctlLoopt (l : BitVec 3) (e : BitVec 16) : CtlFx := fun x s =>
  match s.node? x.h.part x.h.node with
  | none => loopTrap
  | some nd =>
    if x.h.loops.any (·.level == l.toNat) then loopTrap
    else if fpNlev nd.footprint ≤ l.toNat then loopTrap
    else
      let (lo, hi) := levelRange nd x.h l.toNat
      startLoop s x l.toNat lo hi (endAddr x.pc e) none

/-- LOOPN (R158): an immediate count, or SC of the lead read unsigned. -/
def ctlLoopn (l : BitVec 3) (cnt : LoopCount) (e : BitVec 16) : CtlFx := fun x s =>
  match cnt with
  | .imm n => startLoop s x l.toNat 0 n.toNat (endAddr x.pc e) none
  | .reg sc =>
    let r := x.c.s 12 sc.toNat
    startLoop s x l.toNat 0 r.val.toNat (endAddr x.pc e) r.tag

/-- LEXIT (R160): deactivate level `l` and every level started after it. -/
def ctlLexit (l : BitVec 3) : CtlFx := fun x s =>
  match x.h.loops.find? (·.level == l.toNat) with
  | none => loopTrap
  | some k =>
    .ok { x.plain with succ := afterBundle s x.h k.stop, taken := true,
                       loops := (x.h.loops.dropWhile (·.level != l.toNat)).drop 1 }

/-- Step the loops at an end bundle without a taken control operation (R159): loops, IDX and successor. -/
def stepLoops (pc next : Word) : List Loop → List Word → List Loop × List Word × Word
  | [], idx => ([], idx, next)
  | k :: r, idx =>
    if k.stop ≠ pc then (k :: r, idx, next)
    else
      let n := k.cur + 1
      let idx := setIdx idx k.level n
      if n < k.lim then ({ k with cur := n } :: r, idx, k.start)
      else stepLoops pc next r idx

/-! ### TRAP, YIELD, WAITE, ERET and RESUME -/

/-- TRAP (R155): the bundle commits, then the herd-context freezes. -/
def ctlTrap (code : BitVec 16) : CtlFx := fun x _ => .ok { x.plain with act := .trap code }

/-- YIELD (R156). -/
def ctlYield : CtlFx := fun x _ => .ok { x.plain with post := { Post.none with yield := true } }

/-- WAITE (R156). -/
def ctlWaite (m : BitVec 8) : CtlFx := fun x _ => .ok { x.plain with post := { Post.none with waite := m } }

/-- ERET (R157): end the handler of a markhor pair of this die and continue where it was entered. The first pair
that has a saved point is taken, and with none the next bundle follows (DESIGN CHOICE, log 48). -/
def ctlEret : CtlFx := fun x s =>
  match (s.dies[x.h.die]?).bind fun d => d.pairs.findSome? (·.saved) with
  | some pc => .ok { x.plain with succ := pc, taken := true, act := .eret }
  | none => .ok { x.plain with act := .eret }

/-- RESUME (R157): the descriptor has to name a frozen herd-context of the die, or ILLEGAL_FIELD. In a loop's
end bundle it lets the loop step, as an ERET with no saved point does: it is not taken (DESIGN CHOICE, log 48). -/
def ctlResume (sa : BitVec 6) : CtlFx := fun x s =>
  let r := x.c.s 12 sa.toNat
  match frozenBy s x.h.die r.val with
  | some id => .ok { x.plain with act := .resume id, consume := r.tag }
  | none => .error (.trap true (Trap.of .illegalField 0))

/-- The meaning of a control operation by its constructor. -/
def ctlFx : Instr → CtlFx
  | .br _ off => ctlBr off
  | .brr _ sa => ctlBrr sa
  | .call _ off => ctlCall off
  | .callr _ sa => ctlCallr sa
  | .ret _ => ctlRet
  | .loopt _ l e => ctlLoopt l e
  | .loopn _ l n e => ctlLoopn l n e
  | .lexit _ l => ctlLexit l
  | .trap _ code => ctlTrap code
  | .yield _ => ctlYield
  | .waite _ m => ctlWaite m
  | .eret _ => ctlEret
  | .resume _ sa => ctlResume sa
  | _ => ctlNone

/-- A control operation on the member in the lead's place: its guard CG decides (R137, R371). -/
def runControl (c : Instr) (x : CtlIn) (s : State) : Except Stop CtlOut :=
  if x.c.p 0 c.ctlGuard.toNat then ctlFx c x s else .ok x.plain

end Sys2Proof.Machine
end

