-- ==== Sys2Proof/Machine/Native.lean ====
section
/-! DEFINITION. Routine slots: signatures, binding, the call of a body, the window, and how a native binding reports a
fault at an equivalence point (R25, R26, R34..R45, R231, R392..R396, R446). -/

namespace Sys2Proof.Machine

/-! ### Calls -/

/-- A routine slot that acts: slot 4 RA or 5 RB, its fields, its routine table entry, its profile and the operands
captured at issue on every member (R34), with the scope and the system bit of its bundle. -/
structure RCall where
  id : Nat
  slot : Nat
  rn : Nat
  f : RForm
  ent : Nat
  e : REntry
  prof : Nat
  caps : List RCap
  scope : BitVec 3
  sys : Bool
  deriving DecidableEq, Repr

def RCap.off : RCap := ⟨false, ⟨0, none⟩, ⟨0, none⟩, ⟨0, none⟩, ⟨0, none⟩⟩
def RCall.cap (r : RCall) (mi : Nat) : RCap := r.caps.getD mi RCap.off
def RCap.field (c : RCap) (j : Nat) : SReg := match j with | 0 => c.x | 1 => c.y | 2 => c.z | _ => c.w

/-- Kind and direction of field `j` in a signature (Table 2.4). -/
def REntry.kind (e : REntry) (j : Nat) : Nat := ((e.sig.getD j 0).extractLsb' 0 4).toNat
def REntry.dir (e : REntry) (j : Nat) : Nat := ((e.sig.getD j 0).extractLsb' 4 2).toNat

/-! ### Binding (R26) -/

/-- The effective profile of a routine slot: NP, or that of the running body, or DEFPROFILE. -/
def HerdCtx.profile (h : HerdCtx) (np : BitVec 6) : Nat :=
  if np ≠ 0 then np.toNat
  else match h.frames with | f :: _ => f.prof | [] => h.defProfile.toNat

/-- The entry that a routine number binds to under a profile: (RN, profile), else (RN, 0). -/
def Image.lookup (im : Image) (rn prof : Nat) : Option (Nat × REntry) :=
  let find (p : Nat) : Option (Nat × REntry) :=
    (im.entries.zipIdx.find? fun (e, _) => e.rn == rn && e.profile == p && !e.dropped).map fun (e, i) => (i, e)
  match find prof with
  | some x => some x
  | none => find 0

/-- Bind a routine slot: PROFILE_UNKNOWN before ROUTINE_UNBOUND (R26, R70). -/
def bindRoutine (s : State) (h : HerdCtx) (np : BitVec 6) (rn : Nat) : Except Cause (Nat × REntry × Nat) :=
  let prof := h.profile np
  if prof = 0 ∨ 3 < prof then .error .profileUnknown
  else match (s.image? h).bind (·.lookup rn prof) with
    | some (i, e) => .ok (i, e, prof)
    | none => .error .routineUnbound

/-! ### Field values against the signature (Table 2.3) -/

def kindOk (kind v : Nat) : Bool :=
  match kind with
  | 0 => v == 0
  | 1 => !(decide (1008 ≤ v) && decide (v ≤ 1019))
  | 2 => decide (v < 64)
  | 3 => decide (v < 16)
  | 4 => decide (v < 16)
  | 5 => decide (v < 16)
  | 6 => decide (v < 64)
  | 7 => decide (v < 4)
  | _ => true

/-- Whether every field, K and F lie inside their kinds (R25). -/
def REntry.accepts (e : REntry) (f : RForm) : Bool :=
  (List.range 4).all (fun j => kindOk (e.kind j) (f.field j)) && (e.kkind != 0 || f.k == 0) && (e.fkind != 0 || f.f == 0)

/-- A field resolved to the caller's own register (R36, R37). -/
def HerdCtx.resolve (h : HerdCtx) (kind v : Nat) : Nat :=
  match kind with
  | 1 => (h.vreg v).getD v
  | 4 => (h.qreg v).getD v
  | 5 => (h.hreg v).getD v
  | _ => v

def RCall.resolved (r : RCall) (h : HerdCtx) (j : Nat) : Nat := h.resolve (r.e.kind j) (r.f.field j)

/-- The mask that K names on a member: all ones unless the K kind is mask (R36). -/
def RCall.mask (r : RCall) (c : Ctx) : Mask := if r.e.kkind = 1 then c.k 4 r.f.k.toNat else BitVec.allOnes 256

/-- The operands of a routine slot on a member, read with the bundle's other sources (R34). -/
def captureOn (c : Ctx) (e : REntry) (f : RForm) : RCap :=
  let one (j : Nat) : SReg :=
    match e.kind j with
    | 2 => c.s (6 + j) (f.field j % 64)
    | 3 => ⟨if c.p (6 + j) (f.field j % 16) then 1 else 0, none⟩
    | _ => ⟨BitVec.ofNat 64 (f.field j), none⟩
  ⟨c.guard f.g, one 0, one 1, one 2, one 3⟩

/-! ### The call of a body (R36, R446) -/

/-- Shadow base of an entry for a context slot (R40). -/
def shadowBase (s : State) (h : HerdCtx) (im : Image) (e : REntry) : Nat :=
  let cap := (s.core h.leadCore).cap
  cap / 2056 * 2056 - (h.slot + 1) * im.shr + e.shadowOff

/-- Write a register at once, past every earlier result in flight to it. -/
def Member.force (m : Member) (v : Nat) (r : Res) : Member := m.land ⟨r, 0, v, v, true⟩

/-- Land everything due at virtual cycle `v`, late results included. -/
def Member.forceDue (m : Member) (v : Nat) : Member := (m.inflight.filter fun p => decide (p.due ≤ v)).foldl Member.land m

/-- The address of the k-th bundle of a body of `words`, from a byte offset on. -/
def nthBundle : Nat → List (BitVec 64) → Nat → Nat
  | 0, _, off => off
  | _ + 1, [], off => off
  | k + 1, w :: r, off =>
    let n := (headerFields w).words
    nthBundle k (r.drop (n - 1)) (off + 8 * n)

/-- The words of an entry's body. -/
def Image.bodyWords (im : Image) (e : REntry) : List (BitVec 64) :=
  match im.segs[e.body / 16384]? with
  | some sg => (sg.words.drop (e.body % 16384 / 8)).take (e.bodyLen / 8)
  | none => []

/-- The address of bundle `k` of an entry's body. -/
def Image.bodyAt (im : Image) (e : REntry) (k : Nat) : Word :=
  im.base + BitVec.ofNat 64 (e.body + nthBundle k (im.bodyWords e) 0)

/-! ### The routine window (R38, Table 2.5) -/

/-- Everything of the window but s59 and k15 becomes undefined. -/
def Member.spoilInner (m : Member) (v seed nv : Nat) : Member :=
  let m := (List.range 7).foldl (fun m i => m.force v (.s (52 + i) (Config.freeS seed (52 + i)) none)) m
  let m := (List.range 4).foldl (fun m i => m.force v (.p (12 + i) ((Config.freeP seed).getLsbD (12 + i)))) m
  let m := (List.range 3).foldl (fun m i => m.force v (.k (12 + i) (Config.freeK seed (12 + i)))) m
  (List.range 12).foldl (fun m i =>
    m.force v (.v (nv - 16 + i) (BitVec.allOnes 256) (freeVReg seed (nv - 16 + i)).lanes none)) m

/-- Make every window register of a member undefined; `all = false` keeps to s59 and k15. -/
def Member.spoilWindow (m : Member) (v seed nv : Nat) (all : Bool) : Member :=
  let m := (m.force v (.s 59 (Config.freeS seed 59) none)).force v (.k 15 (Config.freeK seed 15))
  if all then m.spoilInner v seed nv else m

/-- Spoil the window after a native routine on the members it acted on. -/
def spoilAfter (s : State) (r : RCall) : State :=
  s.modHc r.id fun h =>
    { h with fresh := h.fresh + 16, members := h.members.zipIdx.map fun (m, i) =>
        if (r.cap i).guard then m.spoilWindow h.vcc (h.seedAt i) h.nv true else m }

/-- The link store and the spilled entries with one more entry: a full store first spills its sixteen oldest, as the
handling of LINK_OVERFLOW does (R17, R369). -/
def HerdCtx.pushLink (h : HerdCtx) (link : Link) : List Link × List Link :=
  if h.links.length < linkMax then (link :: h.links, h.spill)
  else (link :: h.links.take (h.links.length - 16), h.links.drop (h.links.length - 16) ++ h.spill)

/-- Set up the call on every member: link entry, frame, ARG registers, aliases, s59 and k15, the rest of the window
undefined on the members that take part (Table 2.5), PC at body bundle `k`. In a nested call the control operations take
their operands from the lowest member on which the nested slot's guard read true, whether or not it is the outer call's
stand-in: R446 does not say which it is when that guard reads false on the outer stand-in, and this is the model's choice
(DESIGN CHOICE, log 48). -/
def enterBody (s : State) (r : RCall) (link : Link) (k : Nat) : State :=
  match s.hc? r.id with
  | none => s
  | some h =>
    match s.image? h with
    | none => s
    | some im =>
      let guards := r.caps.map (·.guard)
      let frame : Frame :=
        { rn := r.rn, ent := r.ent, prof := r.prof, sig := r.e.sig, x := r.resolved h 0, y := r.resolved h 1,
          z := r.resolved h 2, w := r.resolved h 3, active := guards, lead := guards.findIdx (· == true),
          since := h.vcc }
      let argf : Word := BitVec.ofNat 64 (r.rn * 256 + r.f.k.toNat * 16 + r.f.f.toNat)
      let base : Word := BitVec.ofNat 64 (shadowBase s h im r.e)
      let members := h.members.zipIdx.map fun (m, i) =>
        let cap := r.cap i
        let mask := if r.e.kkind = 1 then m.readK (h.seedAt 0) ((i * 8 + r.slot) * 16 + 4) r.f.k.toNat else BitVec.allOnes 256
        let m := (m.force h.vcc (.s 59 base none)).force h.vcc (.k 15 mask)
        let m := if cap.guard then m.spoilInner h.vcc (h.seedAt i) h.nv else m
        { m with args := ⟨cap.x.val, cap.y.val, cap.z.val, cap.w.val, argf⟩ :: m.args }
      let (links, spill) := h.pushLink link
      s.setHc r.id { h with links := links, spill := spill, frames := frame :: h.frames, members := members,
                            pc := im.bodyAt r.e k, fresh := h.fresh + 16 }

/-! ### Native bindings -/

/-- What a native routine does on one member. `fault` is the step of its first failing check with the trap: step 0 is
point 0, step 1 + t the point reached after t pops or pushes. `point` gives the body bundle of a step and the body
bundles run before it, `loop6` the count of l6 there and its limit, `fill` the state materialised (R43, R394), `finish`
phase 2 (R231). `steps` is the last step whose point the unit can stop at (R45). -/
structure NatPlan where
  fault : Option (Nat × Trap)
  steps : Nat
  point : Nat → Nat × Nat
  loop6 : Nat → Option (Nat × Nat)
  fill : Nat → State → State
  finish : State → State

abbrev NatFn := RCall → Ctx → State → NatPlan

/-- A plan with no later point than 0. -/
def NatPlan.simple (fault : Option Trap) (finish : State → State) : NatPlan :=
  ⟨fault.map (0, ·), 0, fun _ => (0, 0), fun _ => none, fun _ s => s, finish⟩

/-- A plan whose point `k` is reached before each of `n` pops or pushes. -/
def NatPlan.looped (r : RCall) (k n : Nat) (fault : Option (Nat × Trap)) (fill : Nat → State → State)
    (finish : State → State) : NatPlan :=
  { fault := fault,
    steps := n,
    point := fun j => if j = 0 then (0, 0) else (k, Config.bodyBundles r.rn k (j - 1)),
    loop6 := fun j => if j = 0 then none else some (j - 1, n),
    fill := fun j s => if j = 0 then s else fill (j - 1) s,
    finish := finish }

/-- A plan that fails at point 0. -/
def NatPlan.fail (t : Trap) : NatPlan := NatPlan.simple (some t) id

/-- A cause raised by a routine with no CAUSEDATA. -/
def RCall.plainTrap (r : RCall) (k : Cause) : Trap := Trap.of k r.slot

/-- An engine cause raised by a routine (Table 22.1). -/
def RCall.engine (r : RCall) (k : Cause) (field item : Nat) (value wh other : Word) : Trap :=
  engineTrap k r.slot 0 field item value wh other

/-- ENGINE_PARAM of a stream operand that cannot be used (R448). -/
def RCall.streamTrap (r : RCall) (field q pos reason : Nat) : Trap :=
  { r.engine .engineParam field q (BitVec.ofNat 64 reason) 0 0 with stream := q, elem := pos }

/-- The context in which a routine acts on member `mi`: after its bundle has committed. -/
def RCall.ctx (r : RCall) (s : State) (mi : Nat) : Option Ctx :=
  match s.hc? r.id with
  | none => none
  | some h =>
    match h.member? mi with
    | none => none
    | some m =>
      some { id := r.id, mi := mi, h := h, m := m, seed := h.seedAt 0, v := h.vcc, slot := r.slot, scope := r.scope,
             who := h.who s, sys := r.sys, pub := false }

end Sys2Proof.Machine
end

