-- ==== Sys2Proof/Machine/Matrix.lean ====
section
/-! DEFINITION. The matrix routines and BFPQ: their checks, the two matrix queues, what each command does, and the state
at their equivalence points (R225..R243). -/

namespace Sys2Proof.Machine

/-! ### Dense views of tiles -/

/-- The entries of a sorted map at 0 .. n-1, with a default. -/
def AMap.dense {β : Type} (dflt : Nat → β) : Nat → Nat → AMap β → List β
  | _, 0, _ => []
  | i, n + 1, [] => dflt i :: AMap.dense dflt (i + 1) n []
  | i, n + 1, (k, b) :: r =>
    if k = i then b :: AMap.dense dflt (i + 1) n r else dflt i :: AMap.dense dflt (i + 1) n ((k, b) :: r)

/-- The 16,384 elements of an accumulator, row by row. -/
def Acc.dense (x : Acc) : List Elem :=
  AMap.dense (fun i => { x with elems := [] }.elem i) 0 16384 x.elems

def Acc.ofDense (x : Acc) (l : List Elem) : Acc := { x with elems := l.zipIdx.map fun (e, i) => (i, e) }

/-- The bytes of an operand slot. -/
def OSlot.dense (x : OSlot) : List Byte := AMap.dense (Config.freeByte x.seed) 0 4224 x.data

/-- Cut a list into `n` pieces of `k`. -/
def chunks {α : Type} (k : Nat) : Nat → List α → List (List α)
  | 0, _ => []
  | n + 1, l => l.take k :: chunks k n (l.drop k)

/-- The 128 blocks of the tile at slot `o`, with their tags. -/
def Core.blocks (c : Core) (o : Nat) : List (List Byte × Tag) :=
  let x := c.oslot o
  let m := x.m.toNat
  let bytes := if m = 16 then x.dense ++ (c.oslot (o + 1)).dense else x.dense
  (chunks (4 * m + 1) 128 bytes).zipIdx.map fun (b, i) => (b, aget x.tags i)

/-- Write blocks 0.. of a tile of width `w` at slot `o`. -/
def Core.putBlocks (c : Core) (o w : Nat) (l : List (List Byte × Tag)) : Core :=
  l.zipIdx.foldl (fun c ((d, t), b) => c.setTileBlock o w b d t) c

/-! ### Commands of the queues (R229, R230) -/

/-- Merge a command's flags into its member's FPSTAT. -/
def landFlags (s : State) (hc mi : Nat) (f : FFlags) : State :=
  s.modMember hc mi fun m => { m with fpstat := m.fpstat ||| f }

/-- Set bits of a member's CIR; after retirement those of the node's retirement CIR while it is in COMMIT (R423). -/
def setCir (s : State) (hc mi : Nat) (b : Word) : State := s.modMember hc mi fun m => { m with cir := m.cir ||| b }

def cirACCSAT : Word := 2
def cirCOMBSUBST : Word := 4
def cirREDORPHAN : Word := 8

/-- The guard width of a profile is 16 bits under profile 3 only (R126, Table 6.5). -/
def profG16 (prof : Nat) : Bool := prof == 3

/-- MMA on whole tiles (R238): the new elements and whether one saturated. -/
def mmaTiles (acc : List Elem) (g16 : Bool) (ma mb : Nat) (a b : List (List Byte × Tag)) : List Elem × Bool :=
  let pairs := a.flatMap fun (ba, ta) => b.map fun (bb, tb) => (blockPair ma ba mb bb, mergeTag ta tb)
  let r := (acc.zip pairs).map fun (x, p, t) => x.mma g16 p t
  (r.map (·.1), r.any (·.2))

/-- A member consumes the poison that its command has written to host memory (R421, R423). -/
def consumeCir (s : State) (hc mi : Nat) (t : Tag) : State := s.modMember hc mi fun m => { m with cir := cirConsume m.cir t }

/-- What ASTO stores from element `i` of its push sequence on (R132, R240): bytes, tag and flags. The flags of the
FP32 values that are quantised to BFP join those of the quantising (DESIGN CHOICE, log 48). -/
def astoUnit (fmt : Nat) (acc : List Elem) (i : Nat) : List Byte × Tag × FFlags :=
  match bfpWidth fmt with
  | some m =>
    let es := (acc.drop i).take 32
    let vs := es.map Elem.toFP32
    let (d, f) := quantise m (vs.map (·.1))
    (d, mergeTags (es.map (·.tag)), vs.foldl (fun a v => a ||| v.2) f)
  | none =>
    if fmt = 3 then
      let x := acc.getD (i / 3) Elem.zero
      (bytesOf 4 (x.word (i % 3)).toNat, x.tag, 0)
    else
      let x := acc.getD i Elem.zero
      if fmt = 2 then (let (v, f) := x.toBF16; (bytesOf 2 v.toNat, x.tag, f))
      else (let (v, f) := x.toFP32; (bytesOf 4 v.toNat, x.tag, f))

/-- The lanes, tag and flags of AROW (R241). -/
def arowLanes (acc : List Elem) (row mode : Nat) (zt : Tag) : List W32 × Tag × FFlags :=
  let es := (acc.drop (128 * row)).take 128
  let one (x : Elem) : W32 × FFlags := if mode = 0 then x.toFP32 else (x.word (mode - 1), 0)
  let vs := es.map one
  (vs.map (·.1) ++ List.replicate (256 - vs.length) 0, mergeTag zt (mergeTags (es.map (·.tag))),
   vs.foldl (fun a v => a ||| v.2) 0)

/-- The flags of AROW in active lanes only. -/
def arowFlags (acc : List Elem) (row mode : Nat) (mask : Mask) : FFlags :=
  if mode = 0 then
    (((acc.drop (128 * row)).take 128).zipIdx.foldl (fun a (x, i) => if mask.getLsbD i then a ||| x.toFP32.2 else a) 0)
  else 0

/-- Perform one matrix command of a core; none while its stores need a record of the staging area (R292). -/
def matDo (s : State) (core : Nat) (x : MatCmd) : Option State :=
  let c := s.core core
  match x.op with
  | .load o role w blocks flags =>
    let c := c.putBlocks o w blocks
    let c := c.setOslot o { c.oslot o with role := role, m := BitVec.ofNat 5 w }
    let c := if w = 16 then c.setOslot (o + 1) { c.oslot (o + 1) with role := 3 } else c
    some (landFlags (s.setCore core c) x.hc x.mem flags)
  | .asto a fmt outs setFull _ =>
    let acc := (c.acc a).dense
    let us := outs.map fun (l, i) => (l, astoUnit fmt acc i)
    match s.hc? x.hc with
    | none => some s
    | some h =>
      let os : List OutElem := us.map fun (l, d, t, _) => ⟨l, d, t, setFull⟩
      (writeOut s (h.who s) os).map fun s =>
        landFlags (consumeCir s x.hc x.mem (hostTag os)) x.hc x.mem (us.foldl (fun f u => f ||| u.2.2.2) 0)
  | .azero a => some (s.setCore core (c.setAcc a { c.acc a with zero := true, elems := [] }))
  | .mma a oa ob g16 =>
    let (l, sat) := mmaTiles (c.acc a).dense g16 (c.oslot oa).m.toNat (c.oslot ob).m.toNat (c.blocks oa) (c.blocks ob)
    let s := s.setCore core (c.setAcc a ((c.acc a).ofDense l))
    some (if sat then setCir s x.hc x.mem cirACCSAT else s)
  | .anorm a g16 =>
    some (s.setCore core (c.setAcc a ((c.acc a).ofDense ((c.acc a).dense.map (·.norm g16)))))
  | .arow vd a row mode mask zt =>
    let acc := (c.acc a).dense
    let (l, t, _) := arowLanes acc row mode zt
    some (s.modHc x.hc fun h => h.modMember x.mem fun m =>
      { m.force h.vcc (.v vd mask l t) with fpstat := m.fpstat ||| arowFlags acc row mode mask })

/-- MATRIX_QUEUE_PERFORM (R229): the head command of a queue. -/
def matPerform (s : State) (core : Nat) (load : Bool) : State :=
  let c := s.core core
  match (if load then c.loadQ else c.arrayQ) with
  | [] => s
  | x :: r =>
    match matDo s core x with
    | some s =>
      let c := s.core core
      s.setCore core (if load then { c with loadQ := r } else { c with arrayQ := r })
    | none => match s.hc? x.hc with
      | some h => s.modInst h.part h.node fun i => { i with waitStage := true }
      | none => s

/-- Perform every command of a core's load queue that is there now. -/
def drainLoads (s : State) (core : Nat) : State :=
  (List.range (s.core core).loadQ.length).foldl (fun s _ => matPerform s core true) s

/-- Whether a herd-context has a command in a matrix queue of a core. -/
def Core.matHas (c : Core) (hc : Nat) : Bool := c.matCmds.any (·.hc == hc)

/-! ### Checks -/

def matQueueMax : Nat := 32

/-- TILE_STATE on an operand slot or an accumulator (Table 22.1). -/
def slotTrap (r : RCall) (c : Core) (field o : Nat) : Trap :=
  let x := c.oslot o
  r.engine .tileState field o x.stateWord 0 (if x.cl then BitVec.ofNat 64 x.owner else BitVec.allOnes 64)
def accTrap (r : RCall) (c : Core) (field a : Nat) : Trap :=
  let x := c.acc a
  r.engine .tileState field a x.stateWord 0 (if x.cl then BitVec.ofNat 64 x.owner else BitVec.allOnes 64)

def Core.ownsSlot (c : Core) (ctx o : Nat) : Bool := (c.oslot o).cl && (c.oslot o).owner == ctx
def Core.ownsAcc (c : Core) (ctx a : Nat) : Bool := (c.acc a).cl && (c.acc a).owner == ctx

/-- Enqueue a command in a matrix queue. -/
def enqMat (s : State) (c : Ctx) (load : Bool) (op : MatOp) : State :=
  let k := s.core c.m.core
  let x : MatCmd := ⟨c.id, c.mi, op⟩
  s.setCore c.m.core (if load then { k with loadQ := k.loadQ ++ [x] } else { k with arrayQ := k.arrayQ ++ [x] })

/-! ### Claims (R235) -/

/-- OCLAIM. -/
def natOclaim : NatFn := fun r c s =>
  let k := s.core c.m.core
  let o := r.f.x.toNat
  if (k.oslot o).cl then NatPlan.fail (slotTrap r k 0 o)
  else NatPlan.simple none fun s =>
    s.setCore c.m.core ((s.core c.m.core).setOslot o
      { cl := true, owner := c.h.slot, role := 0, m := 0, seed := pairNat (pairNat c.seed c.mi) o, data := [], tags := [] })

/-- OFREE: both halves of a loaded BFP16 pair. -/
def natOfree : NatFn := fun r c s =>
  let k := s.core c.m.core
  let o := r.f.x.toNat
  if !k.ownsSlot c.h.slot o || (k.oslot o).role == 3 then NatPlan.fail (slotTrap r k 0 o)
  else NatPlan.simple none fun s =>
    let k := s.core c.m.core
    let wide := k.isWide o
    let k := k.setOslot o { k.oslot o with cl := false }
    s.setCore c.m.core (if wide then k.setOslot (o + 1) { k.oslot (o + 1) with cl := false } else k)

/-- ACLAIM. -/
def natAclaim : NatFn := fun r c s =>
  let k := s.core c.m.core
  let a := r.f.x.toNat
  if (k.acc a).cl then NatPlan.fail (accTrap r k 0 a)
  else NatPlan.simple none fun s =>
    s.setCore c.m.core ((s.core c.m.core).setAcc a
      { cl := true, owner := c.h.slot, zero := false, seed := pairNat (pairNat c.seed c.mi) (64 + a), elems := [] })

/-- AFREE. -/
def natAfree : NatFn := fun r c s =>
  let k := s.core c.m.core
  let a := r.f.x.toNat
  if !k.ownsAcc c.h.slot a then NatPlan.fail (accTrap r k 0 a)
  else NatPlan.simple none fun s =>
    let k := s.core c.m.core
    s.setCore c.m.core (k.setAcc a { k.acc a with cl := false })

/-! ### Tile loads (R236, R237) -/

/-- The stream register that field `j` names, and its record when it can be used in the given direction (R448). -/
def RCall.stream (r : RCall) (c : Ctx) (j : Nat) (out : Bool) : Except Trap (Nat × Strm × StrmRec) :=
  let qn := r.resolved c.h j
  let q := c.m.strm qn
  match q.unusable out, q.recd with
  | some reason, _ => .error (r.streamTrap j qn q.pos reason)
  | none, some rc => .ok (qn, q, rc)
  | none, none => .error (r.streamTrap j qn q.pos 1)

/-- ENGINE_PARAM of a record field, by its byte offset and value. -/
def RCall.recordTrap (r : RCall) (o v : Nat) : Trap := r.engine .engineParam 6 o (BitVec.ofNat 64 v) 0 0

def popnOk (n : Nat) : Bool := n == 32 || n == 64 || n == 128 || n == 256

/-- The first field of a load's record that R236 refuses. -/
def loadRecordBad (rc : StrmRec) (fmtOk : Nat → Bool) : Option (Nat × Nat) :=
  if rc.fem ≠ 0 then some (43, rc.flags.toNat)
  else if !popnOk rc.pop then some (44, rc.pop)
  else if !fmtOk rc.fmtN then some (40, rc.fmtN)
  else none

/-- Elements that the t-th of a run of pops or pushes of `n` elements in all moves. -/
def runCount (rc : StrmRec) (e : Nat) : Nat := if rc.wrap then rc.pop else min rc.pop (rc.total - e)

/-- Whether one of `n` pops or pushes from position `e` on would start at or beyond the walk's end (R213). -/
def runsOut (rc : StrmRec) (e n : Nat) : Bool :=
  !rc.wrap && decide (rc.total ≤ e + (n - 1) * rc.pop)

/-- A run of pops: the state, the stream, the elements of each pop, or the pop and element that failed. -/
structure PopRun where
  s : State
  q : Strm
  pops : List (List (List Byte × Tag))
  fail : Option (Nat × Nat × Nat × ElemFault)

/-- Run `n` pops from the stream's position on (R214). -/
def popRun (u : StrmUse) (rc : StrmRec) : Nat → Nat → PopRun → PopRun
  | 0, _, x => x
  | n + 1, t, x =>
    match x.fail with
    | some _ => x
    | none =>
      let e := x.q.pos
      match fetchElems x.s u x.q rc e (runCount rc e) with
      | .error (i, f) => { x with fail := some (t, i, i - e, f) }
      | .ok (s, q, l) =>
        popRun u rc n (t + 1) { x with s := s, q := q.popped rc (runCount rc e), pops := x.pops ++ [l] }

/-- A block of a tile from the 32 elements of a pop (R237). Which stored block a BFP pop gives that straddles two of them the spec does
not say: that it is the block of the first element, with the merged tags, is the model's choice (DESIGN CHOICE, log 53). -/
def loadBlock (rc : StrmRec) (prof : Nat) (w : Nat) (quant : Bool) (l : List (List Byte × Tag)) :
    (List Byte × Tag) × FFlags :=
  let l := l ++ List.replicate (32 - l.length) (List.replicate rc.unit (0 : Byte), none)
  let t := mergeTags (l.map (·.2))
  if quant then
    let (d, f) := quantise w (l.map fun (d, _) =>
      if rc.fmtN = 2 then bf16ToW32 (BitVec.ofNat 16 (natOf d)) else BitVec.ofNat 32 (natOf d))
    ((d, t), f)
  else match rc.bfp with
    | some _ => (((l.headD ([], none)).1, t), 0)
    | none =>
      let (d, f) := bf16Block prof (l.map fun (d, _) => BitVec.ofNat 16 (natOf d))
      ((d, t), f)

/-- The blocks of a run of pops, with the flags raised. -/
def loadBlocks (rc : StrmRec) (prof w : Nat) (quant : Bool) (pops : List (List (List Byte × Tag))) :
    List (List Byte × Tag) × FFlags :=
  let bs := pops.flatMap fun l => (chunks 32 (rc.pop / 32) l).map (loadBlock rc prof w quant)
  (bs.map (·.1), bs.foldl (fun a b => a ||| b.2) 0)

/-- The plan of a tile load into slot X with role `role` and width `w`. -/
def loadPlan (r : RCall) (c : Ctx) (s : State) (qn : Nat) (q : Strm) (rc : StrmRec) (role : BitVec 2) (w k : Nat)
    (quant : Bool) : NatPlan :=
  let core := s.core c.m.core
  let o := r.f.x.toNat
  if !core.ownsSlot c.h.slot o then NatPlan.fail (slotTrap r core 0 o)
  else if w = 16 ∧ o % 2 = 1 then NatPlan.fail (slotTrap r core 0 o)
  else if w = 16 ∧ !core.ownsSlot c.h.slot (o + 1) then NatPlan.fail (slotTrap r core 0 (o + 1))
  else
    let n := 4096 / rc.pop
    if runsOut rc q.pos n then NatPlan.fail (r.streamTrap 1 qn q.pos 3)
    else
      let u := c.use q
      let all := popRun u rc n 0 ⟨s, q, [], none⟩
      let fault := all.fail.map fun (t, e, lane, f) => (t + 1, elemTrap r.slot qn e lane rc.unit rc.intent.toNat f)
      let fill (t : Nat) (s : State) : State :=
        let s := drainLoads s c.m.core
        let x := popRun u rc t 0 ⟨s, q, [], none⟩
        let (bs, f) := loadBlocks rc r.prof w quant x.pops
        let s := x.s.setCore c.m.core ((x.s.core c.m.core).putBlocks o w bs)
        landFlags (s.modMember c.id c.mi (·.setStrm qn x.q)) c.id c.mi f
      let finish (s : State) : State :=
        let x := popRun u rc n 0 ⟨s, q, [], none⟩
        let (bs, f) := loadBlocks rc r.prof w quant x.pops
        enqMat (x.s.modMember c.id c.mi (·.setStrm qn x.q)) c true (.load o role w bs f)
      NatPlan.looped r k n fault fill finish

/-- OLDA and OLDB (R236, R237). -/
def oldPlan (role : BitVec 2) : NatFn := fun r c s =>
  match r.stream c 1 false with
  | .error t => NatPlan.fail t
  | .ok (qn, q, rc) =>
    match loadRecordBad rc fun f => f == 2 || (bfpWidth f).isSome with
    | some (o, v) => NatPlan.fail (r.recordTrap o v)
    | none => loadPlan r c s qn q rc role (rc.bfp.getD 16) 3 false

/-- OLDA. -/
def natOlda : NatFn := oldPlan 1
/-- OLDB. -/
def natOldb : NatFn := oldPlan 2

/-- BFPQ (R236, R237): Z the width, W the role. -/
def natBfpq : NatFn := fun r c s =>
  match r.stream c 1 false with
  | .error t => NatPlan.fail t
  | .ok (qn, q, rc) =>
    match loadRecordBad rc fun f => f == 1 || f == 2 with
    | some (o, v) => NatPlan.fail (r.recordTrap o v)
    | none =>
      let z := r.f.z.toNat
      let w := r.f.w.toNat
      if !((2 ≤ z && z ≤ 8) || z == 16) then NatPlan.fail (r.engine .engineParam 2 0 (BitVec.ofNat 64 z) 0 0)
      else if 1 < w then NatPlan.fail (r.engine .engineParam 3 0 (BitVec.ofNat 64 w) 0 0)
      else loadPlan r c s qn q rc (if w = 0 then 1 else 2) z 4 true

/-! ### The array (R238, R239, R241) -/

/-- MMA. -/
def natMma : NatFn := fun r c s =>
  let k := s.core c.m.core
  let a := r.f.x.toNat
  let oa := r.f.y.toNat
  let ob := r.f.z.toNat
  if !k.ownsAcc c.h.slot a then NatPlan.fail (accTrap r k 0 a)
  else if !k.ownsSlot c.h.slot oa then NatPlan.fail (slotTrap r k 1 oa)
  else if !k.ownsSlot c.h.slot ob then NatPlan.fail (slotTrap r k 2 ob)
  else if (k.oslot oa).role ≠ 1 then NatPlan.fail (slotTrap r k 1 oa)
  else if (k.oslot ob).role ≠ 2 then NatPlan.fail (slotTrap r k 2 ob)
  else NatPlan.simple none fun s => enqMat s c false (.mma a oa ob (profG16 r.prof))

/-- AZERO. -/
def natAzero : NatFn := fun r c s =>
  let k := s.core c.m.core
  let a := r.f.x.toNat
  if !k.ownsAcc c.h.slot a then NatPlan.fail (accTrap r k 0 a)
  else NatPlan.simple none fun s => enqMat s c false (.azero a)

/-- ANORM. -/
def natAnorm : NatFn := fun r c s =>
  let k := s.core c.m.core
  let a := r.f.x.toNat
  if !k.ownsAcc c.h.slot a then NatPlan.fail (accTrap r k 0 a)
  else NatPlan.simple none fun s => enqMat s c false (.anorm a (profG16 r.prof))

/-- AROW: Z is the scalar register with the row, W the mode. -/
def natArow : NatFn := fun r c s =>
  let k := s.core c.m.core
  let a := r.f.y.toNat
  let z := (r.cap c.mi).z
  if 128 ≤ z.val.toNat then NatPlan.fail (r.engine .engineParam 2 0 z.val 0 0)
  else if 3 < r.f.w.toNat then NatPlan.fail (r.engine .engineParam 3 0 (BitVec.ofNat 64 r.f.w.toNat) 0 0)
  else if !k.ownsAcc c.h.slot a then NatPlan.fail (accTrap r k 1 a)
  else NatPlan.simple none fun s =>
    enqMat s c false (.arow (r.resolved c.h 0) a z.val.toNat r.f.w.toNat (r.mask c) z.tag)

/-! ### ASTO (R240) -/

/-- The first field of ASTO's record that R240 refuses. -/
def astoRecordBad (rc : StrmRec) : Option (Nat × Nat) :=
  if rc.fem ≠ 0 ∧ rc.fem ≠ 3 then some (43, rc.flags.toNat)
  else if !popnOk rc.pop then some (44, rc.pop)
  else if !fmtPublished rc.fmtN then some (40, rc.fmtN)
  else none

/-- A run of pushes: the places found, by element of the push sequence, or the push and element that failed. -/
structure PushRun where
  s : State
  q : Strm
  seq : Nat
  outs : List (Loc × Nat)
  fail : Option (Nat × Nat × Nat × ElemFault)

/-- Resolve the units of one push: positions from `e`, sequence numbers from `i`, step `st` (32 for blocks). -/
def pushPlaces (u : StrmUse) (rc : StrmRec) (st : Nat) : Nat → Nat → Nat → State → AMap Word → List (Loc × Nat) →
    Except (Nat × ElemFault) (State × AMap Word × List (Loc × Nat))
  | 0, _, _, s, cache, l => .ok (s, cache, l.reverse)
  | n + 1, e, i, s, cache, l =>
    match elemLoc s u rc cache e with
    | .error f => .error (e, f)
    | .ok (s, cache, p) => pushPlaces u rc st n (e + st) (i + st) s cache ((p, i) :: l)

def pushRun (u : StrmUse) (rc : StrmRec) : Nat → Nat → PushRun → PushRun
  | 0, _, x => x
  | n + 1, t, x =>
    match x.fail with
    | some _ => x
    | none =>
      let e := x.q.pos
      let st := if rc.bfp.isSome then 32 else 1
      match pushPlaces u rc st (runCount rc e / st) e x.seq x.s x.q.bte [] with
      | .error (i, f) => { x with fail := some (t, i, i - e, f) }
      | .ok (s, cache, l) =>
        pushRun u rc n (t + 1) { x with s := s, q := { x.q with pos := e + runCount rc e, bte := cache },
                                        seq := x.seq + rc.pop, outs := x.outs ++ l }

/-- ASTO. -/
def natAsto : NatFn := fun r c s =>
  match r.stream c 1 true with
  | .error t => NatPlan.fail t
  | .ok (qn, q, rc) =>
    match astoRecordBad rc with
    | some (o, v) => NatPlan.fail (r.recordTrap o v)
    | none =>
      let k := s.core c.m.core
      let a := r.f.x.toNat
      let n := (if rc.fmtN = 3 then 49152 else 16384) / rc.pop
      if !k.ownsAcc c.h.slot a then NatPlan.fail (accTrap r k 0 a)
      else if runsOut rc q.pos n then NatPlan.fail (r.streamTrap 1 qn q.pos 3)
      else
        let u := c.use q
        let all := pushRun u rc n 0 ⟨s, q, 0, [], none⟩
        let fault := all.fail.map fun (t, e, lane, f) => (t + 1, elemTrap r.slot qn e lane rc.unit rc.intent.toNat f)
        let op (x : PushRun) : MatOp := .asto a rc.fmtN x.outs (rc.fem == 3) qn
        let fill (t : Nat) (s : State) : State :=
          let s := drainLoads s c.m.core
          let x := pushRun u rc t 0 ⟨s, q, 0, [], none⟩
          let acc := ((x.s.core c.m.core).acc a).dense
          let us := x.outs.map fun (l, i) => (l, astoUnit rc.fmtN acc i)
          let o : List OutElem := us.map fun (l, d, t, _) => ⟨l, d, t, rc.fem == 3⟩
          let s := x.s.modMember c.id c.mi (·.setStrm qn { x.q with out := x.q.out ++ o })
          landFlags (flushStrm s c.id c.mi qn) c.id c.mi (us.foldl (fun f u => f ||| u.2.2.2) 0)
        let finish (s : State) : State :=
          let x := pushRun u rc n 0 ⟨s, q, 0, [], none⟩
          enqMat (x.s.modMember c.id c.mi (·.setStrm qn x.q)) c true (op x)
        NatPlan.looped r 5 n fault fill finish

/-! ### Engine waits (R229, R230) -/

/-- Whether a queue's commands write a slot; whether they read it. -/
def qWrites (q : List MatCmd) (o : Nat) : Bool := q.any (·.op.writesSlot o)
def qReads (c : Core) (q : List MatCmd) (o : Nat) : Bool := q.any fun x => x.op.readsSlot o c.isWide
def qAccWrites (q : List MatCmd) (a : Nat) : Bool := q.any (·.op.writesAcc a)
def qAccReads (q : List MatCmd) (a : Nat) : Bool := q.any (·.op.readsAcc a)

/-- The width of the tile that a load would write. -/
def loadWidth (r : RCall) (c : Ctx) : Nat :=
  if r.e.std = 0x60 then r.f.z.toNat
  else match (c.m.strm (r.resolved c.h 1)).recd with
    | some rc => rc.bfp.getD 16
    | none => 0

/-- Different elements that `n` moves of a stream from its position on touch. -/
def walkCount (q : Strm) (rc : StrmRec) (n : Nat) : Nat := min n (if rc.wrap then rc.total else rc.total - q.pos)

/-- Whether the scratchpad elements that an ASTO pushes meet an entry of a range scoreboard (R107). -/
def astoBlocked (r : RCall) (c : Ctx) (s : State) : Bool :=
  match r.stream c 1 true with
  | .ok (_, q, rc) => runPaused s (c.use q) rc q.pos (walkCount q rc (if rc.fmtN = 3 then 49152 else 16384))
  | .error _ => false

/-- Whether an element that a routine pops from the stream in field `j` lies under a write entry of a range scoreboard:
it is not read before the entry clears, and the pop pauses (R107, R165, R214). -/
def RCall.popPaused (r : RCall) (c : Ctx) (s : State) (j n : Nat) : Bool :=
  match r.stream c j false with
  | .ok (_, q, rc) => runPaused s (c.use q) rc q.pos (walkCount q rc n)
  | .error _ => false

/-- The engine wait that a matrix routine meets before its bundle issues (R107, R229, R230). -/
def matWait (r : RCall) (c : Ctx) (s : State) : Option Wait :=
  let k := s.core c.m.core
  let x := r.f.x.toNat
  let y := r.f.y.toNat
  let z := r.f.z.toNat
  let full (q : List MatCmd) : Option Wait := if matQueueMax ≤ q.length then some .queueFull else none
  let busy (b : Bool) (w : Option Wait) : Option Wait := if b then some .tileBusy else w
  let load : Option Wait :=
    let hit (o : Nat) : Bool := qReads k k.arrayQ o || qWrites k.arrayQ o
    busy (hit x || (loadWidth r c == 16 && hit (x + 1))) (full k.loadQ)
  match r.e.std with
  | 0x11 => busy (k.slotBusy x || (k.isWide x && k.slotBusy (x + 1))) none
  | 0x15 => busy (k.accBusy x) none
  | 0x12 => load
  | 0x13 => load
  | 0x60 => load
  | 0x16 => busy (qAccReads k.loadQ x || qAccWrites k.loadQ x) (full k.arrayQ)
  | 0x18 => busy (qAccReads k.loadQ x || qAccWrites k.loadQ x) (full k.arrayQ)
  | 0x17 =>
    let writes (o : Nat) : Bool := qWrites k.loadQ o || (k.isWide o && qWrites k.loadQ (o + 1))
    busy (qAccReads k.loadQ x || qAccWrites k.loadQ x || writes y || writes z) (full k.arrayQ)
  | 0x19 => busy (qAccWrites k.arrayQ x) (match full k.loadQ with
    | some w => some w
    | none => if astoBlocked r c s then some .scoreboard else none)
  | 0x1A => busy (qAccWrites k.loadQ y) (full k.arrayQ)
  | _ => none

end Sys2Proof.Machine
end

