-- ==== Sys2Proof/Machine/Functions.lean ====
section
/-! DEFINITION. The function and row routines, BDOT4 and TLSC2: the primitives, their compositions, the row reductions, the
function queue and the states of their equivalence points (R244..R257, R351..R353, R404..R407). -/

namespace Sys2Proof.Machine

/-! ### Exact results (R248) -/

/-- What a primitive gives before rounding: a listed result of Table 12.3, or an exact magnitude m·2^e (an irrational one
with its lowest bit stuck to 1). -/
inductive Prim where
  | listed (w : W32) (f : FFlags)
  | exact (neg : Bool) (m : Nat) (e : Int)
  deriving DecidableEq, Repr

def posInf : W32 := 0x7F800000
def negInf : W32 := 0xFF800000

/-- A quotient of magnitudes with a sticky bit: 2·floor(a·2^k / b), plus 1 when it is not exact. -/
def stickyDiv (a b k : Nat) : Nat :=
  let q := (a <<< k) / b
  2 * q + (if q * b = a <<< k then 0 else 1)

/-- The integer square root by bits `b-1 .. 0` of the root. -/
def isqrtBits (n : Nat) : Nat → Nat → Nat
  | 0, r => r
  | b + 1, r => isqrtBits n b (if (r + 2 ^ b) * (r + 2 ^ b) ≤ n then r + 2 ^ b else r)

/-- Floor of the square root of a number below 2^256. -/
def isqrt (n : Nat) : Nat := isqrtBits n 128 0

/-- Fixed-point fraction bits of the series below. -/
def fixP : Nat := 192

/-- Twice the inverse hyperbolic tangent of z / 2^fixP, by `n` further terms of the series from term `j`. -/
def atanhSum (z2 : Nat) : Nat → Nat → Nat → Nat
  | 0, _, _ => 0
  | n + 1, j, p => p / (2 * j + 1) + atanhSum z2 n (j + 1) (p * z2 / 2 ^ fixP)

/-- ln((a + b) / a) · 2^fixP for 0 ≤ b ≤ a, from z = b / (2a + b). -/
def lnFix (a b : Nat) : Nat :=
  let z := (b <<< fixP) / (2 * a + b)
  2 * atanhSum (z * z / 2 ^ fixP) 70 0 z

/-- e^(y / 2^fixP) · 2^fixP by the first terms of its series. -/
def expSum (y : Nat) : Nat → Nat → Nat → Nat
  | 0, _, _ => 0
  | n + 1, j, p => p + expSum y n (j + 1) (p * y / 2 ^ fixP / (j + 1))

/-- 2^(g / 2^fixP) · 2^fixP for a fraction g. -/
def exp2Fix (g : Nat) : Nat := expSum (g * lnFix 1 1 / 2 ^ fixP) 64 0 (2 ^ fixP)

/-- EXP2. -/
def exp2Prim (a : W32) : Prim :=
  match fp32 a with
  | .nan => .listed canonNaN 0
  | .inf n => .listed (if n then 0 else posInf) 0
  | .fin n m e =>
    let v : Int := if n then -(m : Int) else m
    if 0 ≤ e then
      let x := v * 2 ^ e.toNat
      if 128 ≤ x then .listed posInf (flagOVF ||| flagINX)
      else if x ≤ -150 then .listed 0 (flagUFL ||| flagINX)
      else .exact false 1 x
    else
      let d : Int := 2 ^ (-e).toNat
      if 128 * d ≤ v then .listed posInf (flagOVF ||| flagINX)
      else if v ≤ -150 * d then .listed 0 (flagUFL ||| flagINX)
      else
        let i := v / d
        let r := v % d
        if r = 0 then .exact false 1 i
        else .exact false (2 * exp2Fix (r.toNat * 2 ^ fixP / 2 ^ (-e).toNat) + 1) (i - 193)

/-- LOG2. -/
def log2Prim (a : W32) : Prim :=
  match fp32 a with
  | .nan => .listed canonNaN 0
  | .inf n => if n then .listed canonNaN flagINV else .listed posInf 0
  | .fin n m e =>
    if m = 0 then .listed negInf 0
    else if n then .listed canonNaN flagINV
    else
      let k := Nat.log2 m
      let i : Int := e + k
      if m = 2 ^ k then .exact (decide (i < 0)) i.natAbs 0
      else
        let v : Int := i * 2 ^ fixP + (((lnFix (2 ^ k) (m - 2 ^ k) <<< fixP) / lnFix 1 1 : Nat) : Int)
        .exact (decide (v < 0)) (2 * v.natAbs + 1) (-193)

/-- DIVF. -/
def divPrim (a b : W32) : Prim :=
  match fp32 a, fp32 b with
  | .nan, _ => .listed canonNaN 0
  | _, .nan => .listed canonNaN 0
  | .inf _, .inf _ => .listed canonNaN flagINV
  | .inf n1, .fin n2 _ _ => .listed (signed32 (n1 != n2) 0x7F800000) 0
  | .fin n1 _ _, .inf n2 => .listed (signed32 (n1 != n2) 0) 0
  | .fin n1 m1 e1, .fin n2 m2 e2 =>
    if m2 = 0 then (if m1 = 0 then .listed canonNaN flagINV else .listed (signed32 (n1 != n2) 0x7F800000) 0)
    else .exact (n1 != n2) (stickyDiv m1 m2 64) (e1 - e2 - 65)

def one32 : W32 := 0x3F800000

/-- RCP: 0 < abs(x) ≤ 2^−128 is listed as overflow. -/
def rcpPrim (a : W32) : Prim :=
  match fp32 a with
  | .fin n m e =>
    if m ≠ 0 ∧ (e = -149 ∧ m ≤ 2 ^ 21) then .listed (signed32 n 0x7F800000) (flagOVF ||| flagINX) else divPrim one32 a
  | _ => divPrim one32 a

/-- RSQRT. -/
def rsqrtPrim (a : W32) : Prim :=
  match fp32 a with
  | .nan => .listed canonNaN 0
  | .inf n => if n then .listed canonNaN flagINV else .listed 0 0
  | .fin n m e =>
    if m = 0 then .listed (signed32 n 0x7F800000) 0
    else if n then .listed canonNaN flagINV
    else
      let k : Nat := if e % 2 = 0 then 128 else 129
      let r := isqrt (2 ^ k / m)
      .exact false (2 * r + (if m * (r * r) = 2 ^ k then 0 else 1)) ((-e - (k : Int)) / 2 - 1)

/-- SQRT. -/
def sqrtPrim (a : W32) : Prim :=
  match fp32 a with
  | .nan => .listed canonNaN 0
  | .inf n => if n then .listed canonNaN flagINV else .listed posInf 0
  | .fin n m e =>
    if m = 0 then .listed a 0
    else if n then .listed canonNaN flagINV
    else
      let k : Nat := if e % 2 = 0 then 64 else 65
      let r := isqrt (m * 2 ^ k)
      .exact false (2 * r + (if r * r = m * 2 ^ k then 0 else 1)) ((e - (k : Int)) / 2 - 1)

/-- A primitive under profiles 1 and 2: rounded once to nearest even (R248). -/
def Prim.round : Prim → W32 × FFlags
  | .listed w f => (w, f)
  | .exact n m e => let (p, f) := roundMag .rne n 24 m e; (signed32 n p, f)

/-! ### The table bodies of profile 3 (R257) -/

/-- Join the flags of a step to the flags before it. -/
def step1 (x : W32 × FFlags) (f : W32 → W32 × FFlags) : W32 × FFlags := let (r, g) := f x.1; (r, x.2 ||| g)

/-- An argument as step 1 splits it: its segment, its distance d / 2^k from the segment's start, and its exponent part. -/
structure Reduced where
  seg : Nat
  d : Nat
  k : Nat
  exp : Int
  deriving DecidableEq, Repr

/-- A fraction `r / 2^k` in one of 64 segments of equal width. -/
def Reduced.of (r k : Nat) (e : Int) : Reduced := ⟨r * 64 / 2 ^ k, r * 64 % 2 ^ k, k + 6, e⟩

/-- Steps 1 and 2 on an operand that is finite and not 0 (Table 12.7). -/
def reduced (rn : Nat) (a : W32) : Reduced :=
  match fp32 a with
  | .fin n m e =>
    if rn = 0x40 then
      let v : Int := if n then -(m : Int) else m
      let d : Int := 2 ^ (-e).toNat
      if 0 ≤ e then ⟨0, 0, 6, v * 2 ^ e.toNat⟩ else Reduced.of (v % d).toNat (-e).toNat (v / d)
    else
      let k := Nat.log2 m
      let x := Reduced.of (m - 2 ^ k) k (e + k)
      if rn ≠ 0x45 then x
      else if (e + k) % 2 = 0 then { x with exp := (e + k) / 2 }
      else ⟨x.seg + 64, x.d * 2, x.k, (e + k) / 2⟩
  | _ => ⟨0, 0, 6, 0⟩

/-- rne(c + d·x). -/
def tableFma (c : W32) (r : Reduced) (x : W32) : W32 × FFlags :=
  finish .rne (fusedV .rne (mulV (.fin false r.d (-(r.k : Int))) (fp32 x)) (fp32 c))

/-- Step 4: the exponent part with one rounding; LOG2 adds it, and the others scale by a power of two. -/
def tableScale (rn : Nat) (neg : Bool) (r : Reduced) (y : W32) : W32 × FFlags :=
  finish .rne (match rn, fp32 y with
    | 0x42, v => addV .rne (finOfInt r.exp 0 false) v
    | 0x40, .fin n m e => (.fin n m (e + r.exp), 0)
    | _, .fin n m e => (.fin (n != neg) m (e - r.exp), 0)
    | _, v => (v, 0))

/-- The steps of a table body on an operand that Table 12.3 does not list (R257). -/
def tableSteps (rn : Nat) (a : W32) : W32 × FFlags :=
  let r := reduced rn a
  let (c0, c1, c2) := Config.tableCoeff rn r.seg
  step1 (step1 (tableFma c1 r c2) (tableFma c0 r)) (tableScale rn (a.getLsbD 31) r)

/-- The exact function that a table body computes. -/
def tablePrim (rn : Nat) (a : W32) : Prim :=
  match rn with
  | 0x40 => exp2Prim a
  | 0x42 => log2Prim a
  | 0x44 => rcpPrim a
  | _ => rsqrtPrim a

/-- Whether a pattern lies within 1 ulp of an exact value. -/
def Prim.within (p : Prim) (w : W32) : Bool :=
  match p with
  | .listed _ _ => true
  | .exact n m e =>
    let (t, f) := roundMag .rz n 24 m e
    let q := (w.extractLsb' 0 31).toNat
    w.getLsbD 31 == n && decide (q ≤ t + 1) && decide ((if f = 0 then t else t + 1) ≤ q + 1)

/-- The seams at which a function can step back by one ulp (Table 12.7). -/
def stepsBack (rn seg : Nat) : Bool :=
  match rn with
  | 0x40 => seg == 23 || seg == 51
  | 0x42 => seg == 37
  | 0x44 => seg == 12 || seg == 44
  | _ => seg == 29 || seg == 71

/-- The next larger FP32 value. -/
def nextUp (a : W32) : W32 := if a.getLsbD 31 then (if a = 0x80000000 then 1 else a - 1) else a + 1

/-- The order of FP32 patterns that are no NaN. -/
def orderKey (w : W32) : Int :=
  let m : Int := (w.extractLsb' 0 31).toNat
  if w.getLsbD 31 then -m else m

/-- Whether the values at an operand and at the next larger one go the function's way, but for a step back of one ulp at a seam
that allows one. -/
def goesRight (f : Nat → W32 → W32 × FFlags) (rn : Nat) (a : W32) : Bool :=
  let b := nextUp a
  match tablePrim rn a, tablePrim rn b with
  | .exact _ _ _, .exact _ _ _ =>
    let x := orderKey (f rn a).1
    let y := orderKey (f rn b).1
    let r := reduced rn b
    let q := reduced rn a
    let seam := if a.getLsbD 31 && rn != 0x40 then decide (q.d = 0) && stepsBack rn q.seg
      else decide (r.d = 0) && stepsBack rn r.seg
    let slack : Int := if seam then 1 else 0
    if rn = 0x40 ∨ rn = 0x42 then decide (x ≤ y + slack) else decide (y ≤ x + slack)
  | _, _ => true

/-- Whether a check holds of every number up to `n`. -/
def allUpTo (p : Nat → Bool) : Nat → Bool
  | 0 => p 0
  | n + 1 => p (n + 1) && allUpTo p n

/-- Flags that the steps of a body can raise for a result: none of them is invalid, an overflow gives infinity, an underflow a
subnormal or zero, and either is inexact (R170). -/
def flagsFit (w : W32) (g : FFlags) : Bool :=
  let m := (w.extractLsb' 0 31).toNat
  (g &&& flagINV == 0) && (g &&& flagOVF == 0 || m == 0x7F800000) && (g &&& flagUFL == 0 || decide (m ≤ 0x800000)) &&
    (g &&& (flagOVF ||| flagUFL) == 0 || g &&& flagINX != 0)

/-- Whether a function keeps what R257 promises of a primitive: every value within 1 ulp, monotonic but for the seams. -/
def tableGood (f : Nat → W32 → W32 × FFlags) (rn : Nat) : Bool :=
  allUpTo (fun k =>
    let a := BitVec.ofNat 32 k
    (tablePrim rn a).within (f rn a).1 && goesRight f rn a && flagsFit (f rn a).1 (f rn a).2) (2 ^ 32 - 1)

/-- A free value for an operand with the flags that the steps raise; RCP's is odd, as the steps make it. -/
def tableFree (rn : Nat) (a : W32) : W32 × FFlags :=
  (if rn = 0x44 then Config.tableFn rn (a &&& 0x7FFFFFFF) ^^^ (a &&& 0x80000000) else Config.tableFn rn a, (tableSteps rn a).2)

/-- A table primitive of profile 3 (R257): its steps, when the coefficients keep the rule's promises; else a free value that
keeps them, with the steps' flags; else the exact result, rounded (log 14). -/
def Prim.table (rn : Nat) (a : W32) : Prim → W32 × FFlags
  | .listed w f => (w, f)
  | .exact n m e =>
    if tableGood tableSteps rn then tableSteps rn a
    else if tableGood tableFree rn then tableFree rn a
    else (Prim.exact n m e).round

def primFn (prof rn : Nat) (a : W32) (p : Prim) : W32 × FFlags := if prof = 3 then p.table rn a else p.round

def exp2Op (prof : Nat) (a : W32) : W32 × FFlags := primFn prof 0x40 a (exp2Prim a)
def log2Op (prof : Nat) (a : W32) : W32 × FFlags := primFn prof 0x42 a (log2Prim a)
def rcpOp (prof : Nat) (a : W32) : W32 × FFlags := primFn prof 0x44 a (rcpPrim a)
def rsqrtOp (prof : Nat) (a : W32) : W32 × FFlags := primFn prof 0x45 a (rsqrtPrim a)

/-- SQRT: under profile 3 rne(x × RSQRT(x)) for finite x > 0 (R257). -/
def sqrtOp (prof : Nat) (a : W32) : W32 × FFlags :=
  match sqrtPrim a with
  | .listed w f => (w, f)
  | p => if prof = 3 then step1 (rsqrtOp prof a) (fmulOp .rne a) else p.round

/-- Whether a division is one of Table 12.3's listed ones. -/
def divListed (a b : W32) : Bool :=
  match fp32 a, fp32 b with
  | .nan, _ => true
  | _, .nan => true
  | .inf _, .inf _ => true
  | .fin .., .fin _ m _ => m == 0
  | _, _ => false

/-- DIVF: under profile 3 rne(a × RCP(b)) outside the listed values (R257). -/
def divOp (prof : Nat) (a b : W32) : W32 × FFlags :=
  if prof = 3 && !divListed a b then step1 (rcpOp prof b) (fmulOp .rne a) else (divPrim a b).round

/-! ### Compositions (R249) -/

def cL2E : W32 := 0x3FB8AA3B
def cLN2 : W32 := 0x3F317218
def cGK0 : W32 := 0x3F4C422A
def cGK1 : W32 := 0x3D372713

def fneg32 (a : W32) : W32 := a ^^^ 0x80000000
def fabs32 (a : W32) : W32 := a &&& 0x7FFFFFFF

def expeOp (prof : Nat) (a : W32) : W32 × FFlags := step1 (fmulOp .rne a cL2E) (exp2Op prof)
def logeOp (prof : Nat) (a : W32) : W32 × FFlags := step1 (log2Op prof a) fun y => fmulOp .rne y cLN2

/-- Twice a value, exactly. -/
def FVal.twice : FVal → FVal
  | .fin n m e => .fin n m (e + 1)
  | v => v

/-- TANH. -/
def tanhOp (prof : Nat) (a : W32) : W32 × FFlags :=
  let e := step1 (finish .rne (mulV (fp32 (fneg32 (fabs32 a))).twice (fp32 cL2E))) (exp2Op prof)
  let (p, f) := fsubOp .rne one32 e.1
  let (q, g) := faddOp .rne one32 e.1
  let (r, h) := divOp prof p q
  (if isNaN32 r then canonNaN else fabs32 r ||| (a &&& 0x80000000), e.2 ||| f ||| g ||| h)

/-- SIGM. -/
def sigmOp (prof : Nat) (a : W32) : W32 × FFlags :=
  step1 (step1 (step1 (fmulOp .rne (fneg32 a) cL2E) (exp2Op prof)) (faddOp .rne one32)) (rcpOp prof)

/-- SILU. -/
def siluOp (prof : Nat) (a : W32) : W32 × FFlags := step1 (sigmOp prof a) (fmulOp .rne a)

/-- GELU. -/
def geluOp (prof : Nat) (a : W32) : W32 × FFlags :=
  let x3 := step1 (fmulOp .rne a a) fun x2 => fmulOp .rne x2 a
  let u := step1 x3 fun y => ffmaOp .rne cGK1 y a
  let t := step1 (step1 u (fmulOp .rne cGK0)) (tanhOp prof)
  let (h, f) := fmulOp .rne 0x3F000000 a
  let (r, g) := ffmaOp .rne h t.1 h
  (r, t.2 ||| f ||| g)

/-- The element function of a one-operand routine by its standard number. -/
def unaryFn (rn prof : Nat) : W32 → W32 × FFlags :=
  match rn with
  | 0x40 => exp2Op prof
  | 0x41 => expeOp prof
  | 0x42 => log2Op prof
  | 0x43 => logeOp prof
  | 0x44 => rcpOp prof
  | 0x45 => rsqrtOp prof
  | 0x46 => sqrtOp prof
  | 0x47 => tanhOp prof
  | 0x48 => sigmOp prof
  | 0x49 => siluOp prof
  | _ => geluOp prof

/-! ### The function queue (R244) -/

def fnQueueMax : Nat := 16

/-- Enqueue a command of the function queue. -/
def enqFn (s : State) (c : Ctx) (x : FnCmd) : State :=
  let k := s.core c.m.core
  s.setCore c.m.core { k with fnQ := k.fnQ ++ [x] }

/-- FUNCTION_QUEUE_PERFORM: the head command writes its lanes, tag and flags (R35, R117, R245). -/
def fnPerform (s : State) (core : Nat) : State :=
  let c := s.core core
  match c.fnQ with
  | [] => s
  | x :: r =>
    let s := s.setCore core { c with fnQ := r }
    s.modHc x.hc fun h => h.modMember x.mem fun m =>
      { m.force h.vcc (.v x.vd x.mask x.lanes x.tag) with fpstat := m.fpstat ||| x.flags }

/-- A register operand of a routine, read after its bundle has committed (R244). -/
def RCall.vin (r : RCall) (c : Ctx) (j : Nat) : VReg := c.m.readV c.seed (c.ix (8 + j)) (r.resolved c.h j)

/-- A plan whose only effect is a command of the function queue. -/
def fnPlan (r : RCall) (c : Ctx) (mask : Mask) (lanes : List W32) (tag : Tag) (flags : FFlags) : NatPlan :=
  NatPlan.simple none fun s =>
    enqFn s c { hc := c.id, mem := c.mi, vd := r.resolved c.h 0, mask := mask, lanes := lanes, tag := tag, flags := flags }

/-! ### Element-wise routines (R245, R248, R249, R253) -/

/-- Apply an element function to Y under the mask. -/
def natUnary : NatFn := fun r c _ =>
  let y := r.vin c 1
  let act := r.mask c
  let (l, f) := mapLanes act fun i => unaryFn r.e.std r.prof (lane y.lanes i)
  fnPlan r c act l y.tag f

/-- DIVF. -/
def natDivf : NatFn := fun r c _ =>
  let y := r.vin c 1
  let z := r.vin c 2
  let act := r.mask c
  let (l, f) := mapLanes act fun i => divOp r.prof (lane y.lanes i) (lane z.lanes i)
  fnPlan r c act l (mergeTag y.tag z.tag) f

/-- One lane of SMXFIN (R253). -/
def smxfinOp (prof : Nat) (m l y : W32) : W32 × FFlags :=
  if m = negInf then (0, 0)
  else
    let t : W32 × FFlags := if !isNaN32 y && !isNaN32 m && fkey y == fkey m then (0, 0) else fsubOp .rne y m
    step1 (step1 t (exp2Op prof)) fun e => divOp prof e l

/-- SMXFIN: m and l are lanes 0 and 1 of Z. -/
def natSmxfin : NatFn := fun r c _ =>
  let y := r.vin c 1
  let z := r.vin c 2
  let act := r.mask c
  let (l, f) := mapLanes act fun i => smxfinOp r.prof (lane z.lanes 0) (lane z.lanes 1) (lane y.lanes i)
  fnPlan r c act l (mergeTag y.tag z.tag) f

/-- BDOT4 (R352): all lanes of p, q and t raise flags; only active lanes of X are written. -/
def bdot4Lanes (a b : List W32) : List W32 × FFlags :=
  let all : Mask := BitVec.allOnes 256
  let (p, f) := mapLanes all fun i => fmulOp .rne (lane a i) (lane b i)
  let (q, g) := mapLanes all fun i => faddOp .rne (lane p i) (lane p ((i + 1) % 256))
  let (t, h) := mapLanes all fun i => faddOp .rne (lane q i) (lane q ((i + 2) % 256))
  ((List.range 256).map fun i => lane t (i - i % 4), f ||| g ||| h)

/-- BDOT4. -/
def natBdot4 : NatFn := fun r c _ =>
  let y := r.vin c 1
  let z := r.vin c 2
  let (l, f) := bdot4Lanes y.lanes z.lanes
  fnPlan r c (r.mask c) l (mergeTag y.tag z.tag) f

/-! ### Row routines (R250..R254) -/

/-- One vector of a row: its lanes, its active lanes, the flags its elements raise there, and its tag. -/
structure RowVec where
  lanes : List W32
  act : Mask
  flags : FFlags
  tag : Tag
  deriving DecidableEq, Repr

/-- The running state of a row reduction: the vectors so far, two or three values, the count N, the flags and the tag. -/
structure RowAcc where
  n : Nat
  a : W32
  b : W32
  cnt : Nat
  flags : FFlags
  tag : Tag
  deriving DecidableEq, Repr

def maskCount (k : Mask) : Nat := (List.range 256).foldl (fun n i => if k.getLsbD i then n + 1 else n) 0

/-- Squares of the active lanes with their flags. -/
def rowSquares (v : RowVec) : List W32 × FFlags := mapLanes v.act fun i => fmulOp .rne (lane v.lanes i) (lane v.lanes i)

/-- Combine a vector's tree result with the running one: the first vector's stands alone (R251). -/
def rowJoin (n : Nat) (old : W32) (new : W32 × FFlags) (op : W32 → W32 → W32 × FFlags) : W32 × FFlags :=
  if n = 0 then new else let (r, f) := op old new.1; (r, new.2 ||| f)

/-- SMXUPD on one vector (R252). -/
def smxStep (prof : Nat) (m l : W32) (v : RowVec) : W32 × W32 × FFlags :=
  let mx := frmaxOp false v.act v.lanes
  let mn := fmaxOp m mx
  if mn = negInf then (m, l, 0)
  else
    let eq (x : W32) : Bool := !isNaN32 x && !isNaN32 mn && fkey x == fkey mn
    let ex (x : W32) : W32 × FFlags := if eq x then (one32, 0) else step1 (fsubOp .rne x mn) (exp2Op prof)
    let (c, f) := ex m
    let (e, g) := mapLanes v.act fun i => ex (lane v.lanes i)
    let (sum, h) := frsumOp v.act e
    let (l', k) := ffmaOp .rne l c sum
    (mn, l', f ||| g ||| h ||| k)

/-- One vector of a row routine by its standard number. `a` holds m, s, or S2; `b` holds l or S1. -/
def rowStep (rn prof : Nat) (x : RowAcc) (v : RowVec) : RowAcc :=
  let x := { x with cnt := x.cnt + maskCount v.act, flags := x.flags ||| v.flags, tag := mergeTag x.tag v.tag }
  match rn with
  | 0x50 =>
    let (a, f) := rowJoin x.n x.a (frmaxOp false v.act v.lanes, 0) fun p q => (fmaxOp p q, 0)
    { x with n := x.n + 1, a := a, flags := x.flags ||| f }
  | 0x51 =>
    let (a, f) := rowJoin x.n x.a (frsumOp v.act v.lanes) (faddOp .rne)
    { x with n := x.n + 1, a := a, flags := x.flags ||| f }
  | 0x52 =>
    let (m, l, f) := smxStep prof x.a x.b v
    { x with n := x.n + 1, a := m, b := l, flags := x.flags ||| f }
  | _ =>
    let (q, f) := rowSquares v
    let (a, g) := rowJoin x.n x.a (frsumOp v.act q) (faddOp .rne)
    let (b, h) := if rn = 0x55 then rowJoin x.n x.b (frsumOp v.act v.lanes) (faddOp .rne) else (x.b, 0)
    { x with n := x.n + 1, a := a, b := b, flags := x.flags ||| f ||| g ||| h }

/-- The state before the first vector: SMXUPD takes m and l from X. -/
def rowStart (rn : Nat) (x : VReg) (t : Tag) : RowAcc :=
  if rn = 0x52 then ⟨0, lane x.lanes 0, lane x.lanes 1, 0, 0, t⟩ else ⟨0, 0, 0, 0, 0, t⟩

/-- The lanes that a row routine writes, given its final state and ε (R251, R252, R254). -/
def rowFinish (rn prof : Nat) (x : RowAcc) (eps : W32) : List W32 × FFlags :=
  let pad (l : List W32) : List W32 := l ++ List.replicate (256 - l.length) 0
  let (fn, fnf) := toFP32 .rne (.fin false x.cnt 0)
  match rn with
  | 0x50 => (List.replicate 256 x.a, 0)
  | 0x51 => (List.replicate 256 x.a, 0)
  | 0x52 => (pad [x.a, x.b], 0)
  | 0x54 =>
    let (ms, f) := divOp prof x.a fn
    let r := step1 (faddOp .rne ms eps) (rsqrtOp prof)
    (pad [r.1, ms], fnf ||| f ||| r.2)
  | _ =>
    let (mu, f) := divOp prof x.b fn
    let (q, g) := divOp prof x.a fn
    let (v, h) := ffmaOp .rne (fneg32 mu) mu q
    let v := if !isNaN32 v && v.getLsbD 31 then 0 else v
    let r := step1 (faddOp .rne v eps) (rsqrtOp prof)
    (pad [mu, r.1, v], fnf ||| f ||| g ||| h ||| r.2)

/-- The lanes of v1008 at point 2 (Table 12.5). -/
def rowWindow (rn : Nat) (x : RowAcc) : List W32 :=
  match rn with
  | 0x50 => [x.a]
  | 0x51 => [x.a]
  | 0x52 => [x.a, x.b]
  | 0x54 => [x.a, BitVec.ofNat 32 x.cnt]
  | _ => [x.a, BitVec.ofNat 32 x.cnt, x.b]

/-- The vector that a pop gives: lanes 0..POPN-1 are active where K sets them (R250). -/
def popVec (rc : StrmRec) (e : Nat) (k : Mask) (l : List (List Byte × Tag)) : RowVec :=
  let vs := l.zipIdx.map fun ((d, _), i) => laneOf rc (e + i) d
  let act := k &&& BitVec.ofNat 256 (2 ^ rc.pop - 1)
  { lanes := vs.map (·.1) ++ List.replicate (256 - vs.length) 0, act := act,
    flags := vs.zipIdx.foldl (fun a (v, i) => if act.getLsbD i then a ||| v.2 else a) 0,
    tag := mergeTags (l.map (·.2)) }

/-- Run a row over its vectors. -/
def rowRun (rn prof : Nat) (x : RowAcc) (l : List RowVec) : RowAcc := l.foldl (rowStep rn prof) x

/-- The vectors of the first pops of a run. -/
def popVecs (rc : StrmRec) (e : Nat) (k : Mask) (pops : List (List (List Byte × Tag))) : List RowVec :=
  pops.zipIdx.map fun (l, t) => popVec rc (e + t * rc.pop) k l

/-- Write the first lanes of a window register (v1008 is window 0), its other lanes staying undefined. Table 12.5 gives v1008 at
point 2 values and no tag: that it has the merge of the tags of X, Z and the elements popped is the model's choice (DESIGN
CHOICE, log 53). -/
def fillWindow (s : State) (id mi i : Nat) (l : List W32) (t : Tag) : State :=
  s.modHc id fun h => h.modMember mi fun m =>
    m.force h.vcc (.v (h.nv - 16 + i) (BitVec.ofNat 256 (2 ^ l.length - 1)) (l ++ List.replicate (256 - l.length) 0) t)

/-- The row routines RMAX, RSUM, SMXUPD, RMSN and LNRM. R255 and Table 22.3 put an element fault at point 2 with j, and Table 12.5
has point 2 for 1 <= j < n only: that one of the first pop is met at point 0, with nothing done, is the model's choice (DESIGN
CHOICE, log 53). -/
def natRow : NatFn := fun r c s =>
  let rn := r.e.std
  let k := r.mask c
  let x := r.vin c 0
  let xt := x.tag
  let done (a : RowAcc) : State → State := fun s =>
    let (l, f) := rowFinish rn r.prof a (lane x.lanes 0)
    enqFn s c { hc := c.id, mem := c.mi, vd := r.resolved c.h 0, mask := BitVec.allOnes 256, lanes := l, tag := a.tag,
                flags := a.flags ||| f }
  if r.f.f.toNat / 2 ≠ 0 then NatPlan.fail (r.plainTrap .illegalField)
  else if r.f.f.getLsbD 0 = false then
    if r.f.z ≠ 0 ∨ r.f.w ≠ 0 then NatPlan.fail (r.plainTrap .illegalField)
    else
      let y := r.vin c 1
      NatPlan.simple none (done (rowRun rn r.prof (rowStart rn x xt) [⟨y.lanes, k, 0, y.tag⟩]))
  else if r.f.y ≠ 0 then NatPlan.fail (r.plainTrap .illegalField)
  else
    let z := (r.cap c.mi).z
    let n := z.val.toNat
    if n = 0 ∨ 2 ^ 32 ≤ n then NatPlan.fail (r.engine .engineParam 2 0 z.val 0 0)
    else
      match r.stream c 3 false with
      | .error t => NatPlan.fail t
      | .ok (qn, q, rc) =>
        if rc.fem ≠ 0 then NatPlan.fail (r.engine .engineParam 6 43 (BitVec.ofNat 64 rc.flags.toNat) 0 0)
        else if rc.fmtN = 3 then NatPlan.fail (r.engine .engineParam 6 40 3 0 0)
        else if runsOut rc q.pos n then NatPlan.fail (r.streamTrap 3 qn q.pos 3)
        else
          let u := c.use q
          let start := rowStart rn x (mergeTag xt z.tag)
          let all := popRun u rc n 0 ⟨s, q, [], none⟩
          { fault := all.fail.map fun (t, e, ln, f) => (t, elemTrap r.slot qn e ln rc.unit rc.intent.toNat f)
            steps := n - 1
            point := fun j => if j = 0 then (0, 0) else (2, Config.bodyBundles r.rn 2 j)
            loop6 := fun j => if j = 0 then none else some (j, n)
            fill := fun j s =>
              if j = 0 then s
              else
                let p := popRun u rc j 0 ⟨s, q, [], none⟩
                let a := rowRun rn r.prof start (popVecs rc q.pos k p.pops)
                let s := p.s.modMember c.id c.mi (·.setStrm qn p.q)
                fillWindow (landFlags s c.id c.mi a.flags) c.id c.mi 0 (rowWindow rn a) a.tag
            finish := fun s =>
              let p := popRun u rc n 0 ⟨s, q, [], none⟩
              let a := rowRun rn r.prof start (popVecs rc q.pos k p.pops)
              done a (p.s.modMember c.id c.mi (·.setStrm qn p.q)) }

/-! ### TLSC2 (R404..R407) -/

/-- Element `k` of TLSC2: its handle's number and value. -/
def tlscHandle (r : RCall) (c : Ctx) (k : Nat) : Nat × Handle :=
  let hn := r.resolved c.h (if k < 2 then 1 else 2)
  (hn, c.m.readH c.seed (c.ix 8) hn)

/-- The word that element `k` reads, with its tag. -/
def tlscRead (s : State) (c : Ctx) (r : RCall) (k : Nat) : W32 × Tag :=
  let pa := (tlscHandle r c k).2.base.toNat + 4 * (k % 2)
  (seen32 s c.who pa, rangeTag s c.who pa 4)

/-- What that read does to the state. -/
def tlscArrive (s : State) (c : Ctx) (r : RCall) (k : Nat) : State :=
  arrive s c.who ((tlscHandle r c k).2.base.toNat + 4 * (k % 2)) 4

/-- The window at point `j` (Table 23.2). -/
def tlscFill (r : RCall) (c : Ctx) (j : Nat) (s : State) : State :=
  let word (k n : Nat) (s : State) : State :=
    let (x, t) := tlscRead s c r k
    (tlscArrive s c r k).modHc c.id fun h => h.modMember c.mi fun m => m.force h.vcc (.s n (x.setWidth 64) t)
  let s := if 1 ≤ j then
      let s := word 0 52 s
      let s := s.modHc c.id fun h => h.modMember c.mi fun m => m.force h.vcc (.s 56 4 none)
      fillWindow s c.id c.mi 1 ((List.range 256).map (BitVec.ofNat 32)) none
    else s
  let s := if 2 ≤ j then fillWindow (word 1 53 s) c.id c.mi 0 (List.replicate 256 0) none else s
  if 3 ≤ j then fillWindow (word 2 54 s) c.id c.mi 2 (List.replicate 256 4) none else s

/-- TLSC2. -/
def natTlsc2 : NatFn := fun r c _ =>
  let fault := (List.range 4).findSome? fun k =>
    let (hn, h) := tlscHandle r c k
    let off : Int := 4 * ((k % 2 : Nat) : Int)
    (handleFault h .load off 4 1).map fun cause => (k, handleTrap { c with slot := r.slot } hn h .load off 4 0 0 cause)
  let w := r.vin c 3
  { fault := fault, steps := 3, point := fun k => (k, k), loop6 := fun _ => none, fill := tlscFill r c,
    finish := fun s =>
      let (s, xs) := (List.range 4).foldl (fun (s, l) k => (tlscArrive s c r k, l ++ [tlscRead s c r k])) (s, [])
      let (l, f) := mapLanes 15 fun i => fmulOp .rne ((xs.getD i (0, none)).1) (lane w.lanes i)
      enqFn s c
      { hc := c.id, mem := c.mi, vd := r.resolved c.h 0, mask := 15, lanes := l,
        tag := mergeTag w.tag (mergeTags (xs.map (·.2))), flags := f } }

/-- The engine wait of a routine of the function queue (R244). -/
def fnWait (c : Ctx) (s : State) : Option Wait :=
  if fnQueueMax ≤ (s.core c.m.core).fnQ.length then some .queueFull else none

end Sys2Proof.Machine
end

