-- ==== Sys2Proof/Machine/Engines.lean ====
section
/-! DEFINITION. The copy, reduction, combine, job and host-ring routines, the units that perform their commands, and the
interrupts that RINGADV sends (R258..R282, R339, R399..R402). -/

namespace Sys2Proof.Machine

/-! ### Owners -/

/-- How a command accesses memory: for its herd-context, or for a node of a kind that runs no core. -/
def ownerWho (s : State) (part node : Nat) (hc : Option Nat) : Who :=
  match hc with
  | none => ⟨part, some node, false⟩
  | some id => match s.hc? id with | some h => h.who s | none => Who.agent part

/-- Set CIR bits for a command at its completion: in the member's CIR, after retirement in the retirement CIR of a node
in COMMIT, else lost (R423). -/
def setCirAt (s : State) (hc : Option Nat) (mi part node : Nat) (b : Word) : State :=
  let late : State :=
    match s.node? part node with
    | some n => if n.state = .commit then s.modInst part node fun i => { i with retCir := i.retCir ||| b } else s
    | none => s
  match hc with
  | some id => match s.hc? id with
    | some h => if h.hstate = .done then late else setCir s id mi b
    | none => late
  | none => late

/-- Poison that a command has written to host memory is consumed at its completion, where its other CIR bits go (R421, R423). -/
def consumeAt (s : State) (hc : Option Nat) (mi part node : Nat) (t : Tag) : State :=
  let late : State :=
    match s.node? part node with
    | some n => if n.state = .commit then s.modInst part node fun i => { i with retCir := cirConsume i.retCir t } else s
    | none => s
  match hc with
  | some id => match s.hc? id with
    | some h => if h.hstate = .done then late else consumeCir s id mi t
    | none => late
  | none => late

/-- A plan from the checks of phase 1: the first fault, or what phase 2 does. -/
def planOf (x : Except Trap (State → State)) : NatPlan :=
  match x with
  | .error t => NatPlan.fail t
  | .ok f => NatPlan.simple none f

/-- F bits 3..2: the mode. -/
def RCall.mode (r : RCall) : Nat := r.f.f.toNat / 4

/-- The handle that field `j` names, with its number. -/
def RCall.handle (r : RCall) (c : Ctx) (j : Nat) : Nat × Handle :=
  let hn := r.resolved c.h j
  (hn, c.m.readH c.seed (c.ix 8) hn)

/-- Check `n` bytes at an offset of the page of the handle in field `j`: its physical address (R190). -/
def RCall.reach (r : RCall) (c : Ctx) (j : Nat) (a : Ask) (off : Int) (n al : Nat) : Except Trap Nat :=
  let (hn, h) := r.handle c j
  match handleFault h a off n al with
  | some k => .error (handleTrap c hn h a off n 0 0 k)
  | none => .ok (h.base.toNat + off.toNat)

/-- The trap of a virtual address that a routine translates by itself. -/
def vaTrap (c : Ctx) (va n : Nat) (i : BitVec 2) (f : WalkFail) : Trap :=
  memTrap f.1 c.slot (BitVec.ofNat 64 va) (memData0 n false false f.2 false false i.toNat 0) f.2

/-- The completion counter that Z and W name (R262): none for an add value of 0. -/
def RCall.counter (r : RCall) (c : Ctx) (add : Nat) : Except Trap (Option (Nat × Word)) :=
  if add = 0 then .ok none
  else
    let off : Int := ((((r.cap c.mi).w.val.extractLsb' 32 32).toNat : Nat) : Int)
    (r.reach c 2 .cadd off 8 8).map fun pa => some (pa, BitVec.ofNat 64 add)

/-- Post a completion counter's add. -/
def postCtr (s : State) (w : Who) : Option (Nat × Word) → State
  | some (pa, v) => counterAdd s w pa (v.extractLsb' 0 32) none
  | none => s

/-- A block of scratchpad that a routine reads: its core and byte address there. -/
def RCall.block (r : RCall) (c : Ctx) (s : State) (a n al : Nat) : Except Trap (Nat × Nat) :=
  match resolveSp s c.m.core .engine r.sys false a n with
  | .ok (.word t b) => if a % al = 0 then .ok (t, b) else .error (spTrap c .misalign a n 0 0)
  | .ok _ => .error (spTrap c .offsetRange a n 0 0)
  | .error k => .error (spTrap c k a n 0 0)

/-! ### Copies (R262..R264, R107) -/

def copyQueueMax : Nat := 64
def scoreMax : Nat := 64

/-- The copy engine that serves a context slot of a core (Table 13.1). -/
def copyEngine (core slot : Nat) : Nat := 2 * (core / 12) + slot % 2

def State.copyCmds (s : State) (e : Nat) : List CopyCmd := (aget s.copyQ e).getD []

/-- A record with FEM set as its part in the copy asks: F/E intents and the FE right (R262). -/
def StrmRec.withFem (r : StrmRec) (fem : BitVec 8) : StrmRec := { r with flags := (r.flags &&& 0xF9) ||| (fem <<< 1) }

/-- The first field of a record that modes 1..3 refuse (R262). -/
def wordRecordBad (r : StrmRec) : Option (Nat × Nat) :=
  if r.fmtN ≠ 1 ∧ r.fmtN ≠ 3 then some (40, r.fmtN)
  else if r.strI 0 ≠ 1 then some (24, (r.str.getD 0 0).toNat)
  else if r.extN 0 % 2 ≠ 0 then some (8, r.extN 0)
  else if r.base.toNat % 8 ≠ 0 then some (0, r.base.toNat)
  else if r.strI 1 % 8 ≠ 0 then some (28, (r.str.getD 1 0).toNat)
  else if r.strI 2 % 8 ≠ 0 then some (32, (r.str.getD 2 0).toNat)
  else if r.strI 3 % 8 ≠ 0 then some (36, (r.str.getD 3 0).toNat)
  else none

/-- The checks of R262 on the two records of a copy, in its order; the value and byte offset of the first bad field. -/
def copyRecordBad (x y : StrmRec) (mode : Nat) : Option (Nat × Nat) :=
  if x.fem ≠ 0 then some (43, x.flags.toNat)
  else if y.fem ≠ 0 then some (43, y.flags.toNat)
  else if x.fmtN ≠ y.fmtN then some (40, y.fmtN)
  else if x.total ≠ y.total then some (8, y.extN 0)
  else if mode = 0 then none
  else match wordRecordBad x with
    | some b => some b
    | none => wordRecordBad y

/-- The record of the stream register in field `j`, used whole in one direction (R262, R448). -/
def RCall.copyStream (r : RCall) (c : Ctx) (j : Nat) (out : Bool) : Except Trap (Nat × Strm × StrmRec) :=
  let qn := r.resolved c.h j
  let q := c.m.strm qn
  match q.recd with
  | none => .error (r.streamTrap j qn q.pos 1)
  | some rc => if rc.dirOut = out then .ok (qn, q, rc) else .error (r.streamTrap j qn q.pos 2)

/-- Where a place's bytes stand, for comparing places. -/
def Loc.space : Loc → Nat
  | .mem _ => 0
  | .sp c _ => c + 1
def Loc.addr : Loc → Nat
  | .mem a => a
  | .sp _ a => a
/-- The place `k` bytes further on. -/
def Loc.plus : Loc → Nat → Loc
  | .mem a, k => .mem (a + k)
  | .sp c a, k => .sp c (a + k)

/-- The places of `n` units of `st` elements from element `e` on; an 8-byte word that does not stand aligned traps MISALIGN
(R103, R262). -/
def walkFrom (u : StrmUse) (rc : StrmRec) (st : Nat) (words : Bool) :
    Nat → Nat → State → AMap Word → Except (Nat × ElemFault) (State × AMap Word × List Loc)
  | 0, _, s, cache => .ok (s, cache, [])
  | n + 1, e, s, cache =>
    match elemLoc s u rc cache e with
    | .error f => .error (e, f)
    | .ok (s, cache, p) =>
      if words && p.addr % 8 != 0 then
        let a : Word := match elemAddr s u rc e with | .ok (_, x) => BitVec.ofInt 64 x | .error f => f.addr
        .error (e, ElemFault.plain .misalign a WalkInfo.nowalk)
      else (walkFrom u rc st words n (e + st) s cache).map fun (s, cache, l) => (s, cache, p :: l)

/-- The places of a walk, by element, block or 8-byte word (R262), with the addresses of the block-table entries it holds. -/
def walkPlaces (s : State) (u : StrmUse) (rc : StrmRec) (cache : AMap Word) (words : Bool) :
    Except (Nat × ElemFault) (State × List Loc × List Nat) :=
  let st := if rc.bfp.isSome then 32 else if words then 2 else 1
  (walkFrom u rc st words (rc.total / st) 0 s cache).map fun (s, cache, l) => (s, l, cache.map (·.1))

/-- The moves of a copy and the block-table entries they are placed through: phase 1's translations and checks, source walk
first (R262). -/
def copyMoves (r : RCall) (c : Ctx) (s : State) (x y : Nat × Strm × StrmRec) (mode : Nat) :
    Except Trap (State × List Move × List Nat) :=
  let words := mode != 0
  let xr := if mode = 3 then x.2.2.withFem 1 else x.2.2
  let yr := if words then y.2.2.withFem 3 else y.2.2
  let bad (q : Nat) (rc : StrmRec) (e : Nat) (f : ElemFault) : Except Trap (State × List Move × List Nat) :=
    .error (elemTrap r.slot q e 0 (if words then 8 else rc.unit) rc.intent.toNat f)
  match walkPlaces s (c.use x.2.1) xr x.2.1.bte words with
  | .error (e, f) => bad x.1 xr e f
  | .ok (s, l, ex) =>
    match walkPlaces s (c.use y.2.1) yr y.2.1.bte words with
    | .error (e, f) => bad y.1 yr e f
    | .ok (s, m, ey) =>
      let n := if words then 8 else xr.unit
      .ok (s, (l.zip m).map (fun (a, b) => ⟨a, b, n⟩), ex ++ ey)

/-- The smallest intervals that places of `n` bytes cover on each core (R107). -/
def spRanges (l : List (Loc × Nat)) : AMap (Nat × Nat) :=
  l.foldl (fun m (p, n) => match p with
    | .mem _ => m
    | .sp k a => match aget m k with
      | some (lo, hi) => aset m k (min lo a, max hi (a + n))
      | none => aset m k (a, a + n)) []

/-- The scoreboard entries of a copy: core, range and direction. -/
def copyScores (moves : List Move) : List (Nat × Nat × Nat × Bool) :=
  (spRanges (moves.map fun m => (m.src, m.n))).map (fun (k, lo, hi) => (k, lo, hi, false)) ++
    (spRanges (moves.map fun m => (m.dst, m.n))).map (fun (k, lo, hi) => (k, lo, hi, true))

/-- Whether every core has room for its entries (R107). -/
def scoresFit (s : State) (l : List (Nat × Nat × Nat × Bool)) : Bool :=
  l.all fun (k, _) => decide ((s.core k).score.length + (l.filter fun x => x.1 == k).length ≤ scoreMax)

/-- Enqueue a command of a copy engine and make its scoreboard entries. -/
def enqCopy (s : State) (eng : Nat) (hc : Option Nat) (mi part node : Nat) (rel : Bool) (op : CopyOp)
    (scores : List (Nat × Nat × Nat × Bool)) (ents : List Nat) : State :=
  let id := s.nextCmd
  let s := scores.foldl (fun s (k, lo, hi, w) =>
    s.setCore k { s.core k with score := (s.core k).score ++ [⟨id, lo, hi, w⟩] }) s
  let x : CopyCmd := ⟨id, hc, mi, part, node, rel, ents, op, 0, none, none, none⟩
  { s with copyQ := aset s.copyQ eng (s.copyCmds eng ++ [x]), nextCmd := id + 1 }

def Ctx.enqCopy (c : Ctx) (r : RCall) (s : State) (op : CopyOp) (scores : List (Nat × Nat × Nat × Bool))
    (ents : List Nat) : State :=
  Machine.enqCopy s (copyEngine c.m.core c.h.slot) (some c.id) c.mi c.h.part c.h.node (r.f.f.getLsbD 1) op scores ents

/-- ILLEGAL_FIELD for a mode that the routine does not define (R260). -/
def RCall.modeCheck (r : RCall) (n : Nat) : Except Trap Unit :=
  if r.mode ≤ n then .ok () else .error (r.plainTrap .illegalField)

/-- The checks of CPY (R262). -/
def cpyCheck (r : RCall) (c : Ctx) (s : State) : Except Trap (State × List Move × List Nat × Option (Nat × Word)) :=
  match r.modeCheck 3, r.copyStream c 0 false, r.copyStream c 1 true with
  | .error t, _, _ => .error t
  | _, .error t, _ => .error t
  | _, _, .error t => .error t
  | .ok (), .ok x, .ok y =>
    match copyRecordBad x.2.2 y.2.2 r.mode with
    | some (o, v) => .error (r.recordTrap o v)
    | none =>
      match r.counter c ((r.cap c.mi).w.val.extractLsb' 0 32).toNat with
      | .error t => .error t
      | .ok ctr => (copyMoves r c s x y r.mode).map fun (s, l, es) => (s, l, es, ctr)

/-- CPY. What acq and rel order has performed when the command is enqueued: the bundle waits for the pushes and ASTOs before
it (R263, log 23), and the engine makes its own accesses in order. -/
def natCpy : NatFn := fun r c s =>
  planOf ((cpyCheck r c s).map fun _ => fun s =>
    match cpyCheck r c s with
    | .ok (s, l, es, ctr) => c.enqCopy r s (.cpy l r.mode ctr) (copyScores l) es
    | .error _ => s)

/-! ### Reductions (R265..R268) -/

def tsV (e : BitVec 32) : Bool := e.getLsbD 31
def tsPart (e : BitVec 32) : Nat := (e.extractLsb' 24 6).toNat
def tsGroup (e : BitVec 32) : Nat := (e.extractLsb' 8 8).toNat
def tsSid (e : BitVec 32) : Nat := (e.extractLsb' 0 6).toNat
def tsRsv (e : BitVec 32) : Bool := e.getLsbD 30 || e.extractLsb' 16 8 != 0 || e.extractLsb' 6 2 != 0

def Slice.empty : Slice := ⟨[], [], [], []⟩
def State.slice (s : State) (k : Nat) : Slice := (aget s.slices k).getD Slice.empty
def State.setSlice (s : State) (k : Nat) (x : Slice) : State := { s with slices := aset s.slices k x }

/-- The source identifiers of a group's round, in increasing slot index (R265). -/
def Slice.round (x : Slice) (part group : Nat) : List Nat :=
  (x.table.filter fun (_, e) => tsPart e == part && tsGroup e == group).map fun (_, e) => tsSid e

/-- Whether a slice holds an entry, in force or pending (R267). -/
def Slice.knows (x : Slice) (part group sid : Nat) : Bool :=
  let hit (l : List (Nat × BitVec 32)) : Bool := l.any fun (_, e) =>
    tsPart e == part && tsGroup e == group && tsSid e == sid
  hit x.table || (x.groups.contains (part, group) && hit x.pend)

def Slice.find (x : Slice) (part group : Nat) : Round :=
  (x.rounds.find? fun r => r.part == part && r.group == group).getD ⟨part, group, 0, []⟩
def Slice.put (x : Slice) (r : Round) : Slice :=
  { x with rounds := x.rounds.filter (fun y => !(y.part == r.part && y.group == r.group)) ++ [r] }

/-- A CPYRED has one contribution less to wait for; at the last one it completes, with its counter add unless one was
discarded (R268, R400). -/
def redLess (s : State) (cmd : Nat) (orphan : Bool) : State :=
  match s.reds.find? (·.cmd == cmd) with
  | none => s
  | some w =>
    let w := { w with left := w.left - 1, orphan := w.orphan || orphan }
    let rest := s.reds.filter (·.cmd != cmd)
    if w.left = 0 then
      let s := { s with reds := rest }
      if w.orphan then s else postCtr s (ownerWho s w.part w.node w.hc) w.ctr
    else { s with reds := rest ++ [w] }

/-- Discard a contribution whose entry a reload removed (R268, R400). -/
def discard (s : State) (x : Contribution) : State :=
  redLess (setCirAt s x.hc x.mem x.part x.node cirREDORPHAN) x.cmd true

/-- Discard the waiting contributions of a group that no entry of the slice names any more. -/
def purge (s : State) (k : Nat) (part group : Nat) : State :=
  let x := s.slice k
  let r := x.find part group
  let s := s.setSlice k (x.put { r with waiting := r.waiting.filter fun c => x.knows part group c.sid })
  (r.waiting.filter fun c => !x.knows part group c.sid).foldl discard s

/-- Replace a group's entries by the pending ones, at a round boundary (R266). -/
def switchGroup (s : State) (k : Nat) (part group : Nat) : State :=
  let x := s.slice k
  if x.groups.contains (part, group) && (x.find part group).pos == 0 then
    let mine (e : BitVec 32) : Bool := tsPart e == part && tsGroup e == group
    let x : Slice := { x with table := x.table.filter (fun y => !mine y.2) ++ x.pend.filter (fun y => mine y.2),
                              groups := x.groups.filter (· != (part, group)) }
    let x := if x.groups.isEmpty then { x with pend := [] } else x
    purge (s.setSlice k x) k part group
  else s

/-- Hold a time-slot image pending; groups at a boundary take it at once (R266). -/
def loadSlots (s : State) (k : Nat) (words : List (BitVec 32)) : State :=
  let x := s.slice k
  let pend := (words.zipIdx.filter fun y => tsV y.1).map fun y => (y.2, y.1)
  let groups := ((x.table ++ pend).map fun (_, e) => (tsPart e, tsGroup e)).eraseDups
  let s := s.setSlice k { x with pend := pend, groups := groups }
  groups.foldl (fun s (p, g) => purge (switchGroup s k p g) k p g) s

/-- Contributions of a group that a slice holds (R268). -/
def roundMax : Nat := 16

/-- Add one element of a contribution at its word (R268). -/
def addItem (w : Who) (float : Bool) (s : State) (x : Nat × W32 × Tag) : State :=
  let old := seen32 s w x.1
  let v := if float then (faddOp .rne old x.2.1).1 else old + x.2.1
  writeImm s w x.1 (bytesOf 4 v.toNat) x.2.2

/-- CPYRED_ADMIT: a slice admits the next contribution of a group's round when it is there (R268); poison written to host
memory is consumed (R421). -/
def admitRound (s : State) (k part group : Nat) : State :=
  let x := s.slice k
  let r := x.find part group
  match (x.round part group)[r.pos]? with
  | none => s
  | some sid =>
    match r.waiting.find? (·.sid == sid) with
    | none => s
    | some c =>
      let n := (x.round part group).length
      let r := { r with pos := (r.pos + 1) % n, waiting := r.waiting.erase c }
      let s := s.setSlice k (x.put r)
      let w := ownerWho s c.part c.node c.hc
      let eaten := mergeTags (c.items.map fun x => if isHostPa x.1 then mergeTag (rawTag s w (x.1 / 8 * 8)) x.2.2 else none)
      let s := consumeAt (c.items.foldl (addItem w c.float) s) c.hc c.mem c.part c.node eaten
      switchGroup (redLess s c.cmd false) k part group

/-- Read the source elements of the moves that one slice homes. -/
def sliceItems (w : Who) (k : Nat) : List Move → State → State × List (Nat × W32 × Tag)
  | [], s => (s, [])
  | m :: r, s => match m.dst with
    | .mem pa =>
      if homeSlice pa = k then
        let (d, t) := locRead s w m.src 4
        let (s, l) := sliceItems w k r (locArrive s w m.src 4)
        (s, (pa, BitVec.ofNat 32 (natOf d), t) :: l)
      else sliceItems w k r s
    | .sp _ _ => sliceItems w k r s

/-- Send a CPYRED's contributions (R267, R268); none while a slice it sends to is full. -/
def sendRed (s : State) (x : CopyCmd) (group sid : Nat) (moves : List Move) (float : Bool) (ctr : Option (Nat × Word)) :
    Option State :=
  let ks := (List.range 256).filter fun k => (s.slice k).knows x.part group sid
  let full (k : Nat) : Bool := decide (roundMax ≤ ((s.slice k).find x.part group).waiting.length)
  if ks.any full then none
  else
    let w := ownerWho s x.part x.node x.hc
    let lost := moves.any fun m => match m.dst with | .mem pa => !ks.contains (homeSlice pa) | .sp _ _ => false
    let red : RedWait := ⟨x.id, ks.length + 1, false, ctr, x.part, x.node, x.hc, x.mem, x.ents⟩
    let s := { s with reds := s.reds ++ [red] }
    let s := ks.foldl (fun s k =>
      let sl := s.slice k
      let r := sl.find x.part group
      let (s, items) := sliceItems w k moves s
      let c : Contribution := ⟨x.id, sid, x.hc, x.mem, x.part, x.node, float, items⟩
      s.setSlice k (sl.put { r with waiting := r.waiting ++ [c] })) s
    let s := if lost then setCirAt s x.hc x.mem x.part x.node cirREDORPHAN else s
    some (redLess s x.id lost)

/-- The checks of CPYRED (R267). -/
def redCheck (r : RCall) (c : Ctx) (s : State) :
    Except Trap (State × List Move × List Nat × Bool × Nat × Nat × Option (Nat × Word)) :=
  let w := (r.cap c.mi).w.val
  let group := (w.extractLsb' 8 8).toNat
  let sid := (w.extractLsb' 0 6).toNat
  let rest (s : State) (l : List Move) (es : List Nat) (float : Bool) :
      Except Trap (State × List Move × List Nat × Bool × Nat × Nat × Option (Nat × Word)) :=
    match l.find? fun m => match m.dst with
        | .mem pa => !isLocal s pa || !(s.slice (homeSlice pa)).knows c.h.part group sid
        | .sp _ _ => true with
    | some _ => .error (r.engine .engineParam 7 0 w 0 0)
    | none =>
      (r.counter c (w.extractLsb' 16 16).toNat).map fun ctr => (s, l, es, float, group, sid, ctr)
  match r.modeCheck 1 with
  | .error t => .error t
  | .ok () =>
    if w.extractLsb' 6 2 ≠ 0 then .error (r.engine .engineParam 3 0 w 0 0)
    else if r.mode = 1 then rest s [] [] false
    else
      match r.copyStream c 0 false, r.copyStream c 1 true with
      | .error t, _ => .error t
      | _, .error t => .error t
      | .ok x, .ok y =>
        match copyRecordBad x.2.2 y.2.2 0 with
        | some (o, v) => .error (r.recordTrap o v)
        | none =>
          if x.2.2.fmtN ≠ 1 ∧ x.2.2.fmtN ≠ 3 then .error (r.recordTrap 40 x.2.2.fmtN)
          else if y.2.2.space ≠ 0 then .error (r.recordTrap 42 y.2.2.space.toNat)
          else
            match walkPlaces s (c.use x.2.1) x.2.2 x.2.1.bte false with
            | .error (e, f) => .error (elemTrap r.slot x.1 e 0 4 x.2.2.intent.toNat f)
            | .ok (s, l, ex) =>
              match walkPlaces s (c.use y.2.1) y.2.2 y.2.1.bte false with
              | .error (e, f) => .error (elemTrap r.slot y.1 e 0 4 y.2.2.intent.toNat f)
              | .ok (s, m, ey) => rest s ((l.zip m).map fun (a, b) => ⟨a, b, 4⟩) (ex ++ ey) (x.2.2.fmtN == 1)

/-- CPYRED. -/
def natCpyred : NatFn := fun r c s =>
  planOf ((redCheck r c s).map fun _ => fun s =>
    match redCheck r c s with
    | .ok (s, l, es, float, group, sid, ctr) =>
      c.enqCopy r s (.cpyred group sid l float ctr)
        ((copyScores l).filter fun (_, _, _, w) => !w) es
    | .error _ => s)

/-- The words of a time-slot image in memory. -/
def slotWords (b : List Byte) : List (BitVec 32) := (List.range 64).map fun i => BitVec.ofNat 32 (leAt b (4 * i) 4)

/-- The first entry of an image with a reserved bit set, or that repeats an earlier valid one (R266). -/
def slotsBad (l : List (BitVec 32)) : Option Nat :=
  (List.range 64).find? fun i =>
    let e := l.getD i 0
    tsRsv e || (tsV e && (List.range i).any fun j =>
      let d := l.getD j 0
      tsV d && tsPart d == tsPart e && tsGroup d == tsGroup e && tsSid d == tsSid e)

/-- TSTLOAD (R266). -/
def natTstload : NatFn := fun r c s =>
  let x := (r.cap c.mi).x.val
  let a := ((r.cap c.mi).y.val.extractLsb' 0 32).toNat
  if !r.sys then NatPlan.fail (r.plainTrap .privileged)
  else if x.extractLsb' 8 56 ≠ 0 then NatPlan.fail (r.engine .engineParam 0 0 x 0 0)
  else planOf (match r.block c s a 256 8 with
    | .error t => .error t
    | .ok (t, b) =>
      let l := slotWords (spBytes s t b 256)
      match slotsBad l with
      | some i => .error (r.engine .engineParam 6 (4 * i) ((l.getD i 0).setWidth 64) (BitVec.ofNat 64 a) 0)
      | none => .ok fun s => c.enqCopy r s (.tstload x.toNat l) [] [])

/-! ### Block tables (R269, R270) -/

/-- BTSWAP. -/
def natBtswap : NatFn := fun r c _ =>
  let k := r.cap c.mi
  planOf (match r.modeCheck 0 with
    | .error t => .error t
    | .ok () => (r.reach c 1 .atomic k.x.val.toInt 8 8).map fun pa => fun s =>
        c.enqCopy r s (.btswap (r.f.field 0) pa k.z.val k.w) [] [])

/-- BTFENCE. -/
def natBtfence : NatFn := fun r c _ =>
  planOf (match r.modeCheck 0 with
    | .error t => .error t
    | .ok () =>
      match r.reach c 0 .load 0 1 1 with
      | .error t => .error t
      | .ok _ =>
        let h := (r.handle c 0).2
        (r.counter c ((r.cap c.mi).w.val.extractLsb' 0 32).toNat).map fun ctr => fun s =>
          c.enqCopy r s (.btfence h.vpage.toNat h.size' ctr none) [] [])

/-- Whether an entry's address lies in a page. -/
def inPage (page size a : Nat) : Bool := decide (page ≤ a) && decide (a < page + size)

/-- The streams of a partition that hold an entry of a page: herd-context, member and register. -/
def entryHolders (s : State) (part page size : Nat) : List (Nat × Nat × Nat) :=
  (s.hctxs.filter fun (_, h) => h.part == part).flatMap fun (id, h) => h.members.zipIdx.flatMap fun (m, mi) =>
    (m.q.zipIdx.filter fun (q, _) => q.bte.any fun (a, _) => inPage page size a).map fun (_, qn) => (id, mi, qn)

/-- Whether elements of a stream are still to be written: pushed ones, or those of an ASTO on it. -/
def strmBusy (s : State) (id mi qn : Nat) (m : Member) : Bool :=
  !(m.strm qn).out.isEmpty || astoQueued s id mi m.core (some qn)

/-- Every stream register of the partition drops the entries it read from a page; one with elements still to be written keeps
what they were placed through in mind (R270). -/
def dropEntries (s : State) (part page size : Nat) : State :=
  (entryHolders s part page size).foldl (fun s (id, mi, qn) => s.modMember id mi fun m =>
    let q := m.strm qn
    let gone := if strmBusy s id mi qn m then q.dropped ++ (q.bte.map (·.1)).filter (inPage page size) else []
    m.setStrm qn { q with bte := q.bte.filter fun (a, _) => !inPage page size a, dropped := gone }) s

/-- Whether a command waits for another agent: a fence, a reduction, or a copy that takes full words. -/
def CopyCmd.waits (x : CopyCmd) : Bool :=
  match x.op with
  | .btfence _ _ _ _ | .cpyred _ _ _ _ _ => true
  | .cpy _ mode _ => mode == 3
  | .tstload _ _ | .btswap _ _ _ _ => false

/-- The commands of another engine's queue that a fence waits for: those before it, and those that had their entries when it
dropped them (`bound`) with nothing before them that waits for another agent (R91, R270, log 24). -/
def fencedBy (mine bound : Nat) : List CopyCmd → List CopyCmd
  | [] => []
  | x :: l =>
    let rest := if x.waits then l.filter fun y => decide (y.id < mine) else fencedBy mine bound l
    if x.id < mine ∨ x.id < bound ∧ x.waits = false then x :: rest else rest

/-- Whether an element access made through a dropped entry of a page still has to be performed: elements of a stream, or a copy
or a reduction placed through one (R222, R270). `eng` is the fence's own engine: what stands there behind the fence does
not hold it. -/
def entryInUse (s : State) (part page size : Nat) (eng : Option Nat) (mine bound : Nat) : Bool :=
  (s.hctxs.any fun (id, h) => h.part == part && h.members.zipIdx.any fun (m, mi) =>
    m.q.zipIdx.any fun (q, qn) => q.dropped.any (inPage page size) && strmBusy s id mi qn m) ||
  (s.copyQ.any fun (e, l) => some e != eng &&
    (fencedBy mine bound l).any fun x => x.part == part && x.ents.any (inPage page size)) ||
  s.reds.any fun x => x.part == part && decide (x.cmd < mine) && x.ents.any (inPage page size)

/-- A fence over the entries of a page: every stream drops them, and the fence is reached once every access through one has
been performed; whether it is comes back (R222, R270). -/
def fenceEntries (s : State) (part page size : Nat) (eng : Option Nat) (mine bound : Nat) : State × Bool :=
  let s := dropEntries ((entryHolders s part page size).foldl (fun s (id, mi, qn) => flushStrm s id mi qn) s) part page size
  (s, !entryInUse s part page size eng mine bound)

/-- A BTSWAP that changes a word with a park bit set writes a wake record (R386, R390). -/
def swapWake (s : State) (pa : Nat) : State :=
  if parkBits s pa = 0 then s else wakeRecord s false (pa / 8 * 8) 0x83 (isFull s pa)

/-! ### The copy engine's steps -/

/-- The parts of `n` bytes at an address that lie in one aligned word each: offset and length. -/
def wordParts (a n : Nat) : List (Nat × Nat) :=
  (List.range ((a + n - 1) / 8 + 1 - a / 8)).map fun k =>
    let lo := max a ((a / 8 + k) * 8)
    (lo - a, min (a + n) ((a / 8 + k + 1) * 8) - lo)

/-- Give the aligned word that holds a place a tag, staged where the accessor's write of it was (R191). -/
def locSetTag (s : State) (w : Who) (l : Loc) (t : Tag) : State :=
  match l with
  | .sp c a => s.setCore c ((s.core c).setPairTag a t)
  | .mem a =>
    if !sendable s w.part a then s
    else match isStagedWrite w a, w.node with
      | true, some n => if (s.inst? w.part n).isSome then
          s.modInst w.part n fun i => { i with stagedTag := aset i.stagedTag (a / 8) t } else setMemTag s a t
      | _, _ => setMemTag s a t

/-- Write the bytes of a copy that lie in one aligned word, as the run goes on (R104, R106, R263). A word that the run has
written whole gets the merged tag of what was written; in a scratchpad it has to be one beat of 256 words, counted from
where the run starts, that writes both words of the pair. Any other write merges (R194). -/
def writePart (s : State) (w : Who) (b : Option Beat) (l : Loc) (d : List Byte) (t : Tag) : Option (State × Beat) :=
  let a := l.addr
  let run := match b with | some x => if x.space = l.space ∧ x.next = a then some x else none | none => none
  let sp := l.space != 0
  let first := match run with | some x => x.first | none => a
  let beat (b : Nat) : Nat := (b - first / 4 * 4) / 1024
  let here := if a % 8 = 0 then t else match run with | some x => mergeTag x.tag t | none => t
  let word := a / 8 * 8
  let whole := decide (first ≤ word) && decide (a + d.length = word + 8) &&
    (!sp || decide (beat word = beat (word + 7)))
  let old : Tag := match l with | .sp c k => (s.core c).pairTag k | .mem _ => none
  (locWrite s w l d t false).map fun s =>
    (if whole then locSetTag s w l here else if sp then locSetTag s w l (writtenTag old t false) else s,
     ⟨l.space, first, a + d.length, here⟩)

/-- Write the parts of one move in order. -/
def writeParts (w : Who) (dst : Loc) : List (Nat × List Byte × Tag) → State → Option Beat → Option (State × Option Beat)
  | [], s, b => some (s, b)
  | (o, d, t) :: r, s, b =>
    match writePart s w b (dst.plus o) d t with
    | none => none
    | some (s, b) => writeParts w dst r s (some b)

/-- One move of a copy in mode 0: every byte of the element is read, with the tags of the words it comes from, before any is
written. -/
def plainMove (s : State) (w : Who) (b : Option Beat) (m : Move) : Option (State × Option Beat) :=
  let parts := (wordParts m.dst.addr m.n).map fun (o, n) =>
    let (d, t) := locRead s w (m.src.plus o) n
    (o, d, t)
  writeParts w m.dst parts (locArrive s w m.src m.n) b

/-- Whether another copy entered the waiter list of a word before `me` (R263). -/
def copyAhead (s : State) (l : Loc) (me : Option Nat) : Bool :=
  s.copyQ.any fun (_, q) => match q with
    | [] => false
    | x :: _ => match x.wait, x.op with
      | some n, .cpy moves _ _ => (match moves[x.done]? with
        | some m => m.src.space == l.space && m.src.addr / 8 == l.addr / 8 && (match me with | some k => decide (n < k) | none => true)
        | none => false)
      | _, _ => false

/-- One move of a copy (R263); none while it waits for a full word or a staging record. `me` is the copy's place in the
waiter list of the word. A take that cannot be sent moves the poison that the request returns (log 20). -/
def copyMove (s : State) (w : Who) (mode : Nat) (me : Option Nat) (b : Option Beat) (m : Move) :
    Option (State × Option Beat) :=
  let (d, t) := locRead s w m.src m.n
  let s := if mode = 0 then s else locArrive s w m.src m.n
  let put (s : State) (full : Bool) : Option (State × Option Beat) :=
    (locWrite s w m.dst d t true).map fun s => (sendFull s w m.dst full 0x80, none)
  match mode with
  | 0 => plainMove s w b m
  | 1 => put s (locFull s m.src)
  | 2 => put s true
  | _ =>
    if unsent s w m.src then put s true
    else if locFull s m.src && !parkPT (locPark s m.src) && !copyAhead s m.src me then
      put (locSetFull (beginImm s w m.src) m.src false 0x80) true
    else none

/-- The poison that a move carries to host memory (R421). -/
def Move.hostTag (m : Move) (s : State) (w : Who) : Tag :=
  match m.dst with
  | .mem pa => if isHostPa pa then (locRead s w m.src m.n).2 else none
  | .sp _ _ => none

/-- How far a copy has come: the state, the moves made, the run that the last one is in, the poison written to host memory, and
whether all moves are made. -/
structure CopyRun where
  s : State
  done : Nat
  beat : Option Beat
  eaten : Tag
  all : Bool
  deriving DecidableEq, Repr

/-- The moves of a copy from one on. -/
def copyRun (w : Who) (mode : Nat) : List Move → Option Nat → CopyRun → CopyRun
  | [], _, x => { x with all := true }
  | m :: r, me, x =>
    match copyMove x.s w mode me x.beat m with
    | none => x
    | some (s, b) => copyRun w mode r none ⟨s, x.done + 1, b, mergeTag x.eaten (m.hostTag x.s w), false⟩

/-- Clear the scoreboard entries of a copy whose last access to their range has been performed: `moves` are still to make
(R107). -/
def clearDone (s : State) (id : Nat) (moves : List Move) : State :=
  let left (k : Nat) (l : Loc) : Bool := match l with | .sp j _ => j == k | .mem _ => false
  let keep (k : Nat) (e : Score) : Bool :=
    e.id != id || moves.any fun m => left k (if e.write then m.dst else m.src)
  { s with cores := s.cores.map fun (k, c) => (k, { c with score := c.score.filter (keep k) }) }

/-- Clear the scoreboard entries of a command (R107). -/
def clearScores (s : State) (id : Nat) : State :=
  { s with cores := s.cores.map fun (k, c) => (k, { c with score := c.score.filter (·.id != id) }) }

/-- Perform a compare-and-swap of a block-table entry: the old entry goes to the output register (R269). One that is lost
swaps nothing and gives poison (R340, R342). -/
def swapEntry (s : State) (x : CopyCmd) (sd pa : Nat) (expect : Word) (new : SReg) : State :=
  let w := ownerWho s x.part x.node x.hc
  let s := beginImm s w (.mem pa)
  let old := locWord s w (.mem pa)
  let s := arrive s w pa 8
  let s := if unsent s w (.mem pa) then loseImm s w (.mem pa)
    else if old.val = expect then
      let s := swapWake (writeImm s w pa (bytesOf 8 new.val.toNat) (mergeTag old.tag new.tag)) pa
      if isHostPa pa then consumeAt s x.hc x.mem x.part x.node (mergeTag old.tag new.tag) else s
    else s
  match x.hc with
  | some id => s.modHc id fun h => h.modMember x.mem fun m => m.force h.vcc (.s sd old.val old.tag)
  | none => s

/-- COPY_QUEUE_PERFORM: the head command of a copy engine, as far as it comes (R263, R266..R270). -/
def copyPerform (s : State) (eng : Nat) : State :=
  match s.copyCmds eng with
  | [] => s
  | x :: rest =>
    let pop (s : State) : State := { s with copyQ := aset s.copyQ eng rest }
    let w := ownerWho s x.part x.node x.hc
    match x.op with
    | .cpy moves mode ctr =>
      let y := copyRun w mode (moves.drop x.done) x.wait ⟨s, x.done, x.beat, x.eaten, false⟩
      if y.all then postCtr (consumeAt (clearScores (pop y.s) x.id) x.hc x.mem x.part x.node y.eaten) w ctr
      else
        let at' := if y.done = x.done then x.wait else none
        let y := { y with s := clearDone y.s x.id (moves.drop y.done) }
        let keep (k : Option Nat) : State :=
          { y.s with copyQ := aset s.copyQ eng ({ x with done := y.done, beat := y.beat, wait := k, eaten := y.eaten } :: rest) }
        if mode = 0 then (keep none).modInst x.part x.node fun i => { i with waitStage := true }
        else keep (some (at'.getD s.clk))
    | .cpyred group sid moves float ctr =>
      match sendRed s x group sid moves float ctr with
      | none => s
      | some s => clearScores (pop s) x.id
    | .tstload k words => pop (loadSlots s k words)
    | .btswap sd pa expect new => pop (swapEntry s x sd pa expect new)
    | .btfence page size ctr drops =>
      if s.reds.any fun r => r.hc == x.hc && r.mem == x.mem then s
      else
        let bound := drops.getD s.nextCmd
        let (s, done) := match drops with
          | none => fenceEntries s x.part page size (some eng) x.id bound
          | some _ => (s, !entryInUse s x.part page size (some eng) x.id bound)
        if done then postCtr (pop s) w ctr
        else { s with copyQ := aset s.copyQ eng ({ x with op := .btfence page size ctr (some bound) } :: rest) }

/-- Whether a herd-context has copy commands queued or not complete (R258). -/
def copyHas (s : State) (hc : Nat) : Bool :=
  (s.copyQ.any fun (_, l) => l.any (·.hc == some hc)) || s.reds.any (·.hc == some hc)

/-! ### The combine unit (R271..R277) -/

def combQueueMax : Nat := 16

def State.comb (s : State) (d : Nat) : CombUnit := ((s.dies[d]?).map (·.comb)).getD CombUnit.empty
def State.modComb (s : State) (d : Nat) (f : CombUnit → CombUnit) : State := s.modDie d fun x => { x with comb := f x.comb }

/-- The fields of a token record (Table 13.6). -/
def recK (l : List Byte) : Nat := leAt l 4 1
def recS (l : List Byte) : Nat := leAt l 5 1
def recExp (l : List Byte) (j : Nat) : Nat := leAt l (8 + 2 * j) 2
def recGate (l : List Byte) (j : Nat) : W32 := BitVec.ofNat 32 (leAt l (24 + 4 * j) 4)
def recDest (l : List Byte) : Nat := leAt l 56 8
def recFallback (l : List Byte) : Nat := leAt l 64 8
def recRctr (l : List Byte) : Nat := leAt l 72 8
def recRadd (l : List Byte) : Nat := leAt l 80 4
def recTimeout (l : List Byte) : Nat := leAt l 84 4
def recOrder (l : List Byte) : Nat := leAt l 7 1
def recPolicy (l : List Byte) : Nat := leAt l 6 1

/-- The first field that breaks Table 13.6, by offset and width. -/
def tokenBad (l : List Byte) : Option (Nat × Nat) :=
  let k := recK l
  let z (o n : Nat) : Bool := leAt l o n != 0
  if k < 1 ∨ 8 < k then some (4, 1)
  else if recS l < 1 ∨ 64 < recS l then some (5, 1)
  else if 1 < recPolicy l then some (6, 1)
  else if 1 < recOrder l then some (7, 1)
  else
    match (List.range 8).find? fun j =>
        if j < k then decide (0 < j) && decide (recExp l j ≤ recExp l (j - 1)) else z (8 + 2 * j) 2 with
    | some j => some (8 + 2 * j, 2)
    | none =>
      match (List.range 8).find? fun j => decide (k ≤ j) && z (24 + 4 * j) 4 with
      | some j => some (24 + 4 * j, 4)
      | none =>
        if recDest l % 8 ≠ 0 then some (56, 8)
        else if recPolicy l = 0 ∧ z 64 8 then some (64, 8)
        else if z 88 8 then some (88, 8)
        else none

/-- Quotas of a partition on a die: token slots, accumulator rows, staging rows (R271). -/
def combQuota (s : State) (part d k : Nat) : Nat := ((s.part? part).map fun p => (p.cfg.cbQuota.getD (3 * d + k) 0).toNat).getD 0

/-- What the cores of a die have queued for a combine unit. -/
def combQueued (s : State) (d : Nat) : List CombCmd :=
  (s.cores.filter fun (k, _) => k / 144 == d).flatMap fun (_, c) => c.combQ

def cmdPart (s : State) (hc : Nat) : Nat := ((s.hc? hc).map (·.part)).getD 64

/-- Token slots and accumulator rows that a partition may still take, counting registrations that are queued. -/
def tokensFree (s : State) (part d : Nat) : Nat × Nat :=
  let u := s.comb d
  let q := (combQueued s d).filterMap fun x => match x.op with
    | .reg _ l _ _ _ => some (cmdPart s x.hc, recS l)
    | _ => none
  let use := (u.tokens.map fun (_, t) => (t.part, recS t.fields)) ++ q
  let mine := use.filter (·.1 == part)
  let rows (l : List (Nat × Nat)) : Nat := l.foldl (fun a x => a + x.2) 0
  (min (combQuota s part d 0 - mine.length) (u.nt - use.length),
   min (combQuota s part d 1 - rows mine) (u.na - rows use))

/-- Slots of a unit that a registration may take: free and not worn out (R271). -/
def CombUnit.free (u : CombUnit) : List Nat :=
  (List.range u.nt).filter fun i => (aget u.tokens i).isNone && (aget u.gens i).getD 0 != BitVec.allOnes 46

/-- A slot ID (R271). -/
def slotId (gen die index : Nat) : Word := BitVec.ofNat 64 (gen * 2 ^ 18 + die * 2 ^ 16 + index)
def idIndex (x : Word) : Nat := (x.extractLsb' 0 16).toNat
def idDie (x : Word) : Nat := (x.extractLsb' 16 2).toNat
def idGen (x : Word) : BitVec 46 := x.extractLsb' 18 46

/-- The token that a slot ID names for a partition: registered, of that generation, and the partition's own. -/
def tokenOf (s : State) (part : Nat) (id : Word) : Option Token :=
  let u := s.comb (idDie id)
  match aget u.tokens (idIndex id) with
  | some t => if (aget u.gens (idIndex id)).getD 0 = idGen id ∧ t.part = part then some t else none
  | none => none

/-- Translations of CBREG: rows and status word, fallback rows and the counter (R273). Table 22.3 names no cause for a page that lies
in another package: that it is COMBINE_PARAM with the record's field is the model's choice (DESIGN CHOICE, log 53). -/
def cbregReach (r : RCall) (c : Ctx) (s : State) (l : List Byte) : Except Trap (State × List Nat × List Nat × Nat) :=
  let p := c.h.part
  let n := 1024 * recS l
  let at' := (r.cap c.mi).y.val
  match reachRange s p r.sys (recDest l) (n + 8) 1 with
  | .error (va, f) => .error (vaTrap c va 8 1 f)
  | .ok (s, d) =>
    let fb := if recPolicy l = 1 then reachRange s p r.sys (recFallback l) n 0 else .ok (s, [])
    match fb with
    | .error (va, f) => .error (vaTrap c va 4 0 f)
    | .ok (s, b) =>
      match Machine.reach s p r.sys (recRctr l) 3 with
      | .error f => .error (vaTrap c (recRctr l) 8 3 f)
      | .ok (s, x) =>
        if recRctr l % 8 ≠ 0 then .error (vaTrap c (recRctr l) 8 3 (.misalign, WalkInfo.nowalk))
        else if d.any fun a => !isLocal s a then .error (r.engine .combineParam 6 56 (BitVec.ofNat 64 (recDest l)) at' 0)
        else if b.any fun a => !isLocal s a then .error (r.engine .combineParam 6 64 (BitVec.ofNat 64 (recFallback l)) at' 0)
        else if !isLocal s x then .error (r.engine .combineParam 6 72 (BitVec.ofNat 64 (recRctr l)) at' 0)
        else .ok (s, d, b, x)

/-- The checks of CBREG (R272, R273, Table 22.3). -/
def cbregCheck (r : RCall) (c : Ctx) (s : State) : Except Trap (State × List Byte × List Nat × List Nat × Nat) :=
  let a := (r.cap c.mi).y.val.toNat
  match r.block c s a 96 8 with
  | .error t => .error t
  | .ok (t, b) =>
    let l := spBytes s t b 96
    let bad (o n : Nat) : Except Trap (State × List Byte × List Nat × List Nat × Nat) :=
      .error (r.engine .combineParam 6 o (BitVec.ofNat 64 (leAt l o n)) (BitVec.ofNat 64 a) 0)
    match tokenBad l with
    | some (o, n) => bad o n
    | none =>
      if recTimeout l ≠ 0 ∧ c.h.determ s then bad 84 4
      else if combQuota s c.h.part c.h.die 1 < recS l then bad 5 1
      else if combQuota s c.h.part c.h.die 0 = 0 then
        .error (r.engine .combineParam 7 0 0 (BitVec.ofNat 64 a) 0)
      else (cbregReach r c s l).map fun (s, d, f, x) => (s, l, d, f, x)

def enqComb (s : State) (c : Ctx) (op : CombOp) : State :=
  let k := s.core c.m.core
  { s.setCore c.m.core { k with combQ := k.combQ ++ [⟨c.id, c.mi, s.nextCmd, c.v, op⟩] } with nextCmd := s.nextCmd + 1 }

/-- CBREG. -/
def natCbreg : NatFn := fun r c s =>
  planOf ((cbregCheck r c s).map fun _ => fun s =>
    match cbregCheck r c s with
    | .ok (s, l, d, f, x) => enqComb s c (.reg (r.f.field 0) l d f x)
    | .error _ => s)

/-- Expert index and segment of a CBPUT's selector. -/
def selExp (x : Word) : Nat := (x.extractLsb' 0 16).toNat
def selSeg (x : Word) : Nat := (x.extractLsb' 16 6).toNat

def Token.pos (t : Token) (e : Nat) : Option Nat := (List.range (recK t.fields)).find? fun j => recExp t.fields j == e
def Token.bit (l : List (BitVec 8)) (seg j : Nat) : Bool := (l.getD seg 0).getLsbD j
def Token.setBit (l : List (BitVec 8)) (seg j : Nat) : List (BitVec 8) := lset l seg (l.getD seg 0 ||| BitVec.twoPow 8 j)

/-- Whether two selectors name the same expert and segment. -/
def samePut (x y : Word) : Bool := selExp x == selExp y && selSeg x == selSeg y

/-- Whether another put of the same position is queued on some core already. -/
def putQueued (s : State) (id sel : Word) : Bool :=
  s.cores.any fun (_, c) => c.combQ.any fun x => match x.op with
    | .put i z _ => i == id && samePut z sel
    | _ => false

/-- The puts, slot ID and selector, that the unit receives before a put of herd-context `id` on a core: those queued on that
core, and those that the herd-context has queued on any (R258). -/
def putsQueued (s : State) (id core : Nat) : List (Word × Word) :=
  (s.cores.flatMap fun (k, c) => c.combQ.filter fun x => k == core || x.hc == id).filterMap fun x => match x.op with
    | .put i z _ => some (i, z)
    | _ => none

/-- What R274 finds for a put: COMBINE_PARAM with its field, a dropped row, or the position it fills. -/
inductive PutMatch where
  | bad (field : Nat)
  | drop
  | fill (t : Token) (j : Nat)
  deriving DecidableEq, Repr

def putMatch (s : State) (part : Nat) (id sel : Word) : PutMatch :=
  if (s.comb (idDie id)).nt ≤ idIndex id then .bad 1
  else match tokenOf s part id with
    | none => .drop
    | some t =>
      match t.pos (selExp sel) with
      | none => .bad 2
      | some j =>
        if recS t.fields ≤ selSeg sel then .bad 2
        else if Token.bit t.substd (selSeg sel) j then .drop
        else if Token.bit t.arrived (selSeg sel) j then .bad 2
        else .fill t j

/-- CBPUT. -/
def natCbput : NatFn := fun r c s =>
  let k := r.cap c.mi
  let bad (f : Nat) : NatPlan := NatPlan.fail (r.engine .combineParam f 0 (if f = 1 then k.y.val else k.z.val) 0 0)
  let row := r.vin c 0
  match putMatch s c.h.part k.y.val k.z.val with
  | .bad f => bad f
  | .fill _ _ => if putQueued s k.y.val k.z.val then bad 2
      else NatPlan.simple none fun s => enqComb s c (.put k.y.val k.z.val row)
  | .drop => NatPlan.simple none fun s => enqComb s c (.put k.y.val k.z.val row)

/-- CBSTAT. -/
def natCbstat : NatFn := fun r c _ =>
  let k := r.cap c.mi
  if 4 < k.y.val.toNat then NatPlan.fail (r.engine .engineParam 1 0 k.y.val 0 0)
  else NatPlan.simple none fun s => enqComb s c (.stat (r.f.field 0) k.y.val.toNat k.z.val)

/-- Apply a row to a segment's accumulator row (R274). -/
def applyRow (t : Token) (seg j : Nat) (row : VReg) : Token :=
  let g := recGate t.fields j
  let new : VReg := match t.acc.getD seg none with
    | none => ⟨row.lanes.map fun y => (fmulOp .rne g y).1, row.tag⟩
    | some a => ⟨(row.lanes.zip a.lanes).map fun (y, x) => (ffmaOp .rne g y x).1, mergeTag a.tag row.tag⟩
  { t with acc := lset t.acc seg (some new), applied := lset t.applied seg (j + 1) }

/-- Apply the staged rows of a segment that have become next, in position order. -/
def applyStaged (seg : Nat) : Nat → Token → Token
  | 0, t => t
  | n + 1, t =>
    let j := t.applied.getD seg 0
    match t.staged.find? fun (g, k, _) => g == seg && k == j with
    | none => t
    | some (_, _, row) =>
      applyStaged seg n { applyRow t seg j row with staged := t.staged.filter fun (g, k, _) => !(g == seg && k == j) }

/-- Whether every segment has applied all its positions (R275). -/
def Token.full (t : Token) : Bool := (List.range (recS t.fields)).all fun g => t.applied.getD g 0 == recK t.fields

/-- Accept a row for position `j` of a segment: at once when it is next in order, else staged, which needs one of the `free`
staging rows (R274). -/
def acceptRow (t : Token) (seg j free : Nat) (row : VReg) : Option Token :=
  let a := { t with arrived := Token.setBit t.arrived seg j }
  if t.applied.getD seg 0 = j then
    let x := applyStaged seg 8 (applyRow a seg j row)
    some { x with complete := x.full }
  else if free = 0 then none
  else some { a with staged := t.staged ++ [(seg, j, row)], complete := a.full }

/-- Staging rows that a partition may still take on a die, besides `queued` rows, by partition (R274). -/
def stagingLeft (s : State) (part d : Nat) (queued : List Nat) : Nat :=
  let u := s.comb d
  let use := (u.tokens.flatMap fun (_, t) => t.staged.map fun _ => t.part) ++ queued
  min (combQuota s part d 2 - (use.filter (· == part)).length) (u.ns - use.length)

/-- Staging rows that a partition may still take on a die, counting rows that are queued. -/
def stagingFree (s : State) (part d : Nat) : Nat :=
  stagingLeft s part d <| (s.cores.flatMap fun (_, c) => c.combQ).filterMap fun x => match x.op with
    | .put id _ _ => if idDie id = d then some (cmdPart s x.hc) else none
    | _ => none

/-- Whether position `j` of a segment is next once the given puts have been applied: every lower position that the segment
has not applied is staged or among them (R274). -/
def Token.nextAfter (t : Token) (puts : List (Word × Word)) (id : Word) (seg j : Nat) : Bool :=
  (List.range j).all fun p =>
    decide (p < t.applied.getD seg 0) || t.staged.any (fun (g, k, _) => g == seg && k == p) ||
      puts.any fun (i, z) => i == id && selSeg z == seg && t.pos (selExp z) == some p

/-- A dropped row is counted (R274). -/
def lateDrop (s : State) (part d : Nat) : State :=
  s.modPart part fun p => { p with lateDrops := lset p.lateDrops d (p.lateDrops.getD d 0 + 1) }

/-- What CBSTAT reads (R277). -/
def statValue (s : State) (part die sel : Nat) (id : Word) : Word :=
  match sel with
  | 0 => (((s.part? part).map fun (p : Part) => p.lateDrops.getD die 0).getD (0 : BitVec 32)).setWidth 64
  | 1 => BitVec.ofNat 64 (tokensFree s part die).1
  | 2 => BitVec.ofNat 64 (tokensFree s part die).2
  | 3 => BitVec.ofNat 64 (stagingFree s part die)
  | _ => match tokenOf s part id with
    | none => 0
    | some t =>
      let all := (List.range 8).foldl (fun a j =>
        if (List.range (recS t.fields)).all (fun g => Token.bit t.arrived g j) then a + 2 ^ j else a) 0
      BitVec.ofNat 64 (1 + 256 * all)

/-- Whether a token of `rows` rows finds a slot and its rows within the partition's quota and the unit (R273). -/
def tokenFits (s : State) (part d rows : Nat) : Bool :=
  let u := s.comb d
  let use := u.tokens.map fun (_, t) => (t.part, recS t.fields)
  let mine := use.filter (·.1 == part)
  let sum (l : List (Nat × Nat)) : Nat := l.foldl (fun a x => a + x.2) 0
  decide (mine.length < combQuota s part d 0) && decide (use.length < u.nt) &&
    decide (sum mine + rows ≤ combQuota s part d 1) && decide (sum use + rows ≤ u.na)

/-- Register a token in a free slot; none while none is free within the quota (R273). -/
def register (s : State) (h : HerdCtx) (hc mi d : Nat) (l : List Byte) (dest fb : List Nat) (rctr : Nat) : Option (State × Word) :=
  let u := s.comb d
  match if tokenFits s h.part d (recS l) then u.free else [] with
  | [] => none
  | f :: r =>
    let i := (f :: r).getD (Config.slotPick (h.seedAt mi) % (r.length + 1)) f
    let g := (aget u.gens i).getD 0 + 1
    let n := recS l
    let t : Token :=
      { part := h.part, node := h.node, inst := h.inst, hc := hc, mem := mi, seqNo := u.regs, fields := l, dest := dest,
        fallback := fb, rctr := rctr, applied := List.replicate n 0, arrived := List.replicate n 0,
        substd := List.replicate n 0, acc := List.replicate n none, staged := [], complete := false }
    some (s.modComb d fun u => { u with gens := aset u.gens i g, tokens := aset u.tokens i t, regs := u.regs + 1 },
          slotId g.toNat d i)

/-- Whether a CBREG of the same bundle that enters first, RA before RB and members by HERDPOS, is still queued (R258, R275). -/
def regAhead (s : State) (x : CombCmd) : Bool :=
  s.cores.any fun (_, c) => c.combQ.any fun y =>
    y.hc == x.hc && y.vcc == x.vcc && decide (y.num < x.num) && match y.op with | .reg _ _ _ _ _ => true | _ => false

/-- COMBINE_QUEUE_PERFORM: the head command of a core's combine queue (R273, R274, R277). A registration waits for those
that reach the unit before it, and a row for a staging row, at the head of its queue. -/
def combPerform (s : State) (core : Nat) : State :=
  let c := s.core core
  match c.combQ with
  | [] => s
  | x :: rest =>
    match s.hc? x.hc with
    | none => s.setCore core { c with combQ := rest }
    | some h =>
      let s := s.setCore core { c with combQ := rest }
      let out (s : State) (sd : Nat) (v : Word) : State :=
        s.modHc x.hc fun h => h.modMember x.mem fun m => m.force h.vcc (.s sd v none)
      match x.op with
      | .reg sd l d f r =>
        if regAhead s x then s.setCore core c
        else match register s h x.hc x.mem (core / 144) l d f r with
        | some (s, id) => out s sd id
        | none => s.setCore core c
      | .put id sel row =>
        let u := markIrrev s (h.who s)
        match putMatch u h.part id sel with
        | .fill t j =>
          match acceptRow t (selSeg sel) j (stagingLeft u h.part (idDie id) []) row with
          | some y => u.modComb (idDie id) fun v => { v with tokens := aset v.tokens (idIndex id) y }
          | none => s.setCore core c
        | _ => lateDrop u h.part (idDie id)
      | .stat sd sel id => out s sd (if h.determ s then 0 else statValue s h.part (core / 144) sel id)

/-- The accumulator row of a segment that is written; one that received nothing is +0.0 (R276). -/
def Token.row (t : Token) (g : Nat) : VReg := (t.acc.getD g none).getD ⟨List.replicate 256 0, none⟩

/-- The status word of a token (Table 13.7). -/
def Token.status (t : Token) : Nat :=
  let n := recS t.fields
  let bitsOf (p : Nat → Bool) : Nat := (List.range 8).foldl (fun a j => if p j then a + 2 ^ j else a) 0
  let arr := bitsOf fun j => decide (j < recK t.fields) && (List.range n).all fun g => Token.bit t.arrived g j
  let sub := bitsOf fun j => (List.range n).any fun g => Token.bit t.substd g j
  let poison := (List.range n).any fun g => (t.row g).tag.isSome
  leAt t.fields 0 4 * 2 ^ 32 + arr * 2 ^ 24 + sub * 2 ^ 16 + (if poison then 4 else 0) + (if sub = 0 then 0 else 2) + 1

/-- Whether a complete token may be released now (R275). -/
def Token.mayRelease (u : CombUnit) (t : Token) : Bool :=
  t.complete && (recOrder t.fields == 0 ||
    u.tokens.all fun (_, x) => !(x.part == t.part && x.node == t.node && x.inst == t.inst && recOrder x.fields == 1 &&
      decide (x.seqNo < t.seqNo)))

/-- How a token's unit accesses memory: as its node while that instance lives. -/
def tokenWho (s : State) (t : Token) : Who :=
  match s.inst? t.part t.node with
  | some i => if i.id = t.inst then ⟨t.part, some t.node, false⟩ else Who.agent t.part
  | none => Who.agent t.part

/-- TOKEN_RELEASE: write the rows and the status word, add RADD, and free the slot (R275); the status word's POISON bit also tells
of a write that met a failed memory port (R401). -/
def tokenRelease (s : State) (d i : Nat) : State :=
  match aget (s.comb d).tokens i with
  | none => s
  | some t =>
    if t.mayRelease (s.comb d) then
      let w := tokenWho s t
      let place (off : Nat) : Nat := granAddr t.dest (recDest t.fields) off
      let s := (List.range (recS t.fields)).foldl (fun s g =>
        (t.row g).lanes.zipIdx.foldl (fun s (x, j) =>
          writeNow s w (place (1024 * g + 4 * j)) (bytesOf 4 x.toNat) none) s) s
      let s := (List.range (recS t.fields)).foldl (fun s g =>
        (List.range 128).foldl (fun s j =>
          let a := place (1024 * g + 8 * j)
          if sendable s t.part a then setMemTag s a (t.row g).tag else s) s) s
      let lost := (List.range (recS t.fields * 256 + 2)).any fun j => portFailed s (place (4 * j))
      let s := writeNow s w (place (1024 * recS t.fields)) (bytesOf 8 (t.status ||| if lost then 4 else 0)) none
      let s := counterAdd s w t.rctr (BitVec.ofNat 32 (recRadd t.fields)) none
      s.modComb d fun u => { u with tokens := adel u.tokens i }
    else s

/-- A fallback row, read as it stands in memory now, byte by byte: an element may cross two granules, and the row is read in
the part that lies in the first and the part beyond it (R276). -/
def fallbackRow (s : State) (t : Token) (g : Nat) : State × VReg :=
  let w := tokenWho s t
  let at' (k : Nat) : Nat := granAddr t.fallback (recFallback t.fields) (1024 * g + k)
  let n := min 1024 (65536 - (recFallback t.fields + 1024 * g) % 65536)
  let (s, l) := readLanes s w n [some (at' 0)]
  let (s, m) := if n = 1024 then (s, []) else readLanes s w (1024 - n) [some (at' n)]
  let d := (l ++ m).flatMap (·.1)
  (s, ⟨(List.range 256).map fun j => BitVec.ofNat 32 (leAt d (4 * j) 4), mergeTags ((l ++ m).map (·.2))⟩)

/-- Complete position `j` of a segment at the time-out: its staged row, or its substitute (R276). -/
def substitute (x : State × Token) (g j : Nat) : State × Token :=
  let (s, t) := x
  if j < t.applied.getD g 0 then x
  else
    match t.staged.find? fun (a, k, _) => a == g && k == j with
    | some (_, _, row) => (s, { applyRow t g j row with staged := t.staged.filter fun (a, k, _) => !(a == g && k == j) })
    | none =>
      let t := { t with substd := Token.setBit t.substd g j }
      if recPolicy t.fields = 1 then (let (s, row) := fallbackRow s t g; (s, applyRow t g j row))
      else (s, { t with applied := lset t.applied g (j + 1) })

/-- COMBINE_TIMEOUT: the unit completes a token whose ticks have passed (R276). -/
def combTimeout (s : State) (d i : Nat) : State :=
  match aget (s.comb d).tokens i with
  | none => s
  | some t =>
    if t.complete || recTimeout t.fields == 0 then s
    else
      let (s, t') := (List.range (recS t.fields)).foldl (fun x g =>
        (List.range (recK t.fields)).foldl (fun x j => substitute x g j) x) (s, t)
      let s := s.modComb d fun u => { u with tokens := aset u.tokens i { t' with complete := true } }
      setCirAt s (some t.hc) t.mem t.part t.node cirCOMBSUBST

/-! ### Job control blocks (R278, R279) -/

def jobQueueMax : Nat := 16

/-- Write a word of a control block, keeping its poison. -/
def putField (s : State) (w : Who) (pa n v : Nat) (t : Tag) : State :=
  writeImm s w pa (bytesOf n v) (mergeTag (rawTag s w (pa / 8 * 8)) t)

/-- One step of JEXP or JDONE at a JCB (R279). A request that is lost does nothing (R340, R342). The count is u64 for a node's
job (R308), an amount 32 bits: it is taken modulo 2^32 (DESIGN CHOICE, log 53). -/
def jcbStep (s : State) (w : Who) (done : Bool) (pa finctr p : Nat) (n : SReg) : Except Cause State :=
  if unsent s w (.mem pa) then .ok (loseImm s w (.mem pa))
  else
  let opn := (view64 s w (pa + 16)).toNat
  let amount := n.val.toNat % 2 ^ 32
  if 63 < p ∨ !opn.testBit p then .error .jcbClosed
  else if !done then
    .ok (putField s w pa 8 (((view64 s w pa).toNat + amount) % 2 ^ 64) n.tag)
  else
    let d := ((view64 s w (pa + 8)).toNat + amount) % 2 ^ 64
    if opn = 2 ^ p ∧ d ≠ (view64 s w pa).toNat then .error .engineParam
    else
      let s := putField s w (pa + 8) 8 d n.tag
      let s := putField s w (pa + 16) 8 (opn - 2 ^ p) none
      if opn = 2 ^ p then
        let add := view32 s w (pa + 32)
        let s := putField s w (pa + 36) 4 ((view32 s w (pa + 36)) ||| 1).toNat none
        .ok (counterAdd s w finctr add none)
      else .ok s

/-- An MSI-X table entry; masked with address 0 after reset (log 8). -/
def msixEntry (s : State) (v : Nat) : List (BitVec 32) := (aget s.msix v).getD [0, 0, 0, 1]

/-- Send the message of a vector, or set its pending bit while it is masked (R339). -/
def sendMsix (s : State) (v : Nat) : State :=
  let e := msixEntry s v
  if (e.getD 3 0).getLsbD 0 then { s with pba := nsAdd s.pba v }
  else { s with outbox := s.outbox ++ [.msix v (e.getD 1 0 ++ e.getD 0 0) (e.getD 2 0)] }

/-- The poison of the index that a RINGADV writes: that of its word of the block, and that of the amount. -/
def ringTag (s : State) (w : Who) (pa : Nat) (n : SReg) : Tag := mergeTag (rawTag s w ((pa + 8) / 8 * 8)) n.tag

/-- One step of RINGADV at its ring control block (R281). One that is lost does nothing (R340, R342). -/
def ringStep (s : State) (w : Who) (pa pidx : Nat) (n : SReg) (flush : Bool) : State :=
  if unsent s w (.mem pa) then loseImm s w (.mem pa)
  else
  let t := ringTag s w pa n
  let p := ((view32 s w (pa + 8)).toNat + n.val.toNat) % 2 ^ 32
  let s := putField s w (pa + 8) 4 p n.tag
  let s := writeImm s w pidx (bytesOf 4 p) t
  let last := (view32 s w (pa + 12)).toNat
  let count := (natOf (viewBytes s w (pa + 16) 2))
  let time := (natOf (viewBytes s w (pa + 18) 2))
  let v := (natOf (viewBytes s w (pa + 20) 2))
  let ahead := (p + 2 ^ 32 - last) % 2 ^ 32
  if (0 < count ∧ count ≤ ahead) ∨ (flush ∧ p ≠ last) then
    let s := sendMsix s v
    let s := putField s w (pa + 12) 4 p none
    { s with timers := adel s.timers v }
  else if p ≠ last ∧ (aget s.timers v).isNone ∧ 0 < time then { s with timers := aset s.timers v ⟨pa⟩ }
  else s

/-- The offsets of the fields of a ring control block that a RINGADV writes. -/
def ringFields (s : State) (w : Who) (pa : Nat) (n : SReg) (flush : Bool) : List Nat :=
  let p := ((view32 s w (pa + 8)).toNat + n.val.toNat) % 2 ^ 32
  let last := (view32 s w (pa + 12)).toNat
  let count := natOf (viewBytes s w (pa + 16) 2)
  if (0 < count ∧ count ≤ (p + 2 ^ 32 - last) % 2 ^ 32) ∨ (flush ∧ p ≠ last) then [8, 12] else [8]

/-- RING_TIMER_EXPIRY (R281). -/
def timerExpiry (s : State) (v : Nat) : State :=
  match aget s.timers v with
  | none => s
  | some t =>
    let s := sendMsix { s with timers := adel s.timers v } v
    let p := natOf (Memory.getBytes s.mem (t.rcb + 8) 4)
    putFw s 0 (t.rcb + 12) (bytesOf 4 p)

/-- The offsets of the fields of a JCB that a JDONE writes. -/
def jdoneFields (s : State) (w : Who) (pa p : Nat) : List Nat :=
  if (view64 s w (pa + 16)).toNat = 2 ^ p then [8, 16, 36] else [8, 16]

/-- JOB_QUEUE_PERFORM: the head command of a core's job and host-ring queue. -/
def jobPerform (s : State) (core : Nat) : State :=
  let c := s.core core
  match c.jobQ with
  | [] => s
  | x :: rest =>
    let s := s.setCore core { c with jobQ := rest }
    let w := ownerWho s (cmdPart s x.hc) 0 (some x.hc)
    let eat (pa : Nat) (l : List Nat) (n : SReg) (s' : State) : State :=
      if isHostPa pa then
        consumeCir s' x.hc x.mem (mergeTags (n.tag :: l.map fun o => rawTag s w ((pa + o) / 8 * 8)))
      else s'
    match x.op with
    | .jexp pa f p n => eat pa [8] n ((jcbStep s w false pa f p n).toOption.getD s)
    | .jdone pa f p n => eat pa (jdoneFields s w pa p) n ((jcbStep s w true pa f p n).toOption.getD s)
    | .ringadv pa i n fl =>
      let t := ringTag s w pa n
      eat pa (ringFields s w pa n fl) ⟨0, t⟩ (if isHostPa i then consumeCir (ringStep s w pa i n fl) x.hc x.mem t
        else ringStep s w pa i n fl)

/-- The block that a job command names. -/
def JobOp.block : JobOp → Nat
  | .jexp pa _ _ _ => pa
  | .jdone pa _ _ _ => pa
  | .ringadv pa _ _ _ => pa

/-- Perform a core's queue up to its last command that names a block. -/
def drainJobsOn (pa : Nat) (core : Nat) : Nat → State → State
  | 0, s => s
  | n + 1, s => if (s.core core).jobQ.any fun x => x.op.block == pa then drainJobsOn pa core n (jobPerform s core) else s

/-- Perform every queued command that names a block: the checks of a later one are made on the block's state (R279). -/
def drainJobs (s : State) (pa : Nat) : State :=
  (s.cores.map (·.1)).foldl (fun s k => drainJobsOn pa k (s.core k).jobQ.length s) s

def enqJob (s : State) (c : Ctx) (op : JobOp) : State :=
  let k := s.core c.m.core
  s.setCore c.m.core { k with jobQ := k.jobQ ++ [⟨c.id, c.mi, c.slot, op⟩] }

/-- The checks of JEXP and JDONE (R279). -/
def jobCheck (r : RCall) (c : Ctx) (s : State) (done : Bool) : Except Trap (State × Nat × Nat) :=
  let k := r.cap c.mi
  let off := k.y.val.toInt
  match r.modeCheck 0 with
  | .error t => .error t
  | .ok () =>
    match r.reach c 0 .atomic off 64 64 with
    | .error t => .error t
    | .ok pa =>
      let s := drainJobs s pa
      if unsent s c.who (.mem pa) then .ok (s, pa, 0)
      else
      let va := (view64 s c.who (pa + 24)).toNat
      match Machine.reach s c.h.part r.sys va 3 with
      | .error f => .error (vaTrap c va 8 3 f)
      | .ok (s, fin) =>
        let jcb := (r.handle c 0).2.addr off
        if va % 8 ≠ 0 then .error (vaTrap c va 8 3 (.misalign, WalkInfo.nowalk))
        else match jcbStep s c.who done pa fin k.z.val.toNat k.w with
          | .ok _ => .ok (s, pa, fin)
          | .error .jcbClosed => .error (r.engine .jcbClosed 6 16 (view64 s c.who (pa + 16)) jcb k.z.val)
          | .error e => .error (r.engine e 6 0 (view64 s c.who pa) jcb 0)

/-- The plan of JEXP or JDONE. -/
def jobPlan (done : Bool) : NatFn := fun r c s =>
  let k := r.cap c.mi
  planOf ((jobCheck r c s done).map fun _ => fun s =>
    match jobCheck r c s done with
    | .ok (s, pa, fin) =>
      enqJob s c (if done then .jdone pa fin k.z.val.toNat k.w else .jexp pa fin k.z.val.toNat k.w)
    | .error _ => s)

/-- JEXP. -/
def natJexp : NatFn := jobPlan false
/-- JDONE. -/
def natJdone : NatFn := jobPlan true

/-! ### RINGADV (R280, R281) -/

/-- The checks of RINGADV. -/
def ringCheck (r : RCall) (c : Ctx) (s : State) : Except Trap (State × Nat × Nat) :=
  let k := r.cap c.mi
  let off := k.y.val.toInt
  match r.modeCheck 0 with
  | .error t => .error t
  | .ok () =>
    match r.reach c 0 .atomic off 32 32 with
    | .error t => .error t
    | .ok pa =>
      let s := drainJobs s pa
      if unsent s c.who (.mem pa) then .ok (s, pa, 0)
      else
      let b := viewBytes s c.who pa 32
      let rcb := (r.handle c 0).2.addr off
      let bad (o n : Nat) : Except Trap (State × Nat × Nat) :=
        .error (r.engine .engineParam 6 o (BitVec.ofNat 64 (leAt b o n)) rcb 0)
      let v := leAt b 20 2
      if k.w.val.extractLsb' 1 63 ≠ 0 then .error (r.engine .engineParam 3 0 k.w.val 0 0)
      else match Machine.reach s c.h.part r.sys (leAt b 0 8) 1 with
        | .error _ => bad 0 8
        | .ok (s, pidx) =>
          if !isHostPa pidx then bad 0 8
          else if !(((s.part? c.h.part).map fun p => p.cfg.vectors.getLsbD v).getD false) then bad 20 2
          else if leAt b 22 10 ≠ 0 then bad 22 8
          else .ok (s, pa, pidx)

/-- RINGADV. -/
def natRingadv : NatFn := fun r c s =>
  let k := r.cap c.mi
  planOf ((ringCheck r c s).map fun _ => fun s =>
    match ringCheck r c s with
    | .ok (s, pa, pidx) => enqJob s c (.ringadv pa pidx { k.z with val := k.z.val &&& 0xFFFFFFFF } (k.w.val.getLsbD 0))
    | .error _ => s)

/-! ### Engine waits (R258, R107, R273, R274) -/

/-- The engine wait that an engine routine meets before its bundle issues, in the state that the commands before it in the
bundle leave (R258). -/
def engineWait (r : RCall) (c : Ctx) (s : State) : Option Wait :=
  let k := s.core c.m.core
  let eng := copyEngine c.m.core c.h.slot
  let copyFull := decide (copyQueueMax ≤ (s.copyCmds eng).length)
  let full (b : Bool) (w : Option Wait) : Option Wait := if b then some .queueFull else w
  let block (a n : Nat) : Option Wait :=
    match r.block c s a n 1 with
    | .ok (t, b) => if scoreBlocks s (.word t b) n false false then some .scoreboard else none
    | .error _ => none
  let z := r.cap c.mi
  match r.e.std with
  | 0x80 => full (copyFull || (match cpyCheck r c s with | .ok (_, l, _) => !scoresFit s (copyScores l) | .error _ => false)) none
  | 0x81 => full (copyFull || (match redCheck r c s with
      | .ok (_, l, _) => !scoresFit s ((copyScores l).filter fun x => !x.2.2.2)
      | .error _ => false)) none
  | 0x82 => full copyFull (block (z.y.val.extractLsb' 0 32).toNat 256)
  | 0x83 => full copyFull none
  | 0x84 => full copyFull none
  | 0xA0 =>
    full (decide (combQueueMax ≤ k.combQ.length)) (match block z.y.val.toNat 96 with
      | some w => some w
      | none => match cbregCheck r c s with
        | .ok (_, l, _) =>
          let (t, a) := tokensFree s c.h.part c.h.die
          if t = 0 ∨ a < recS l then some .combine else none
        | .error _ => none)
  | 0xA1 =>
    full (decide (combQueueMax ≤ k.combQ.length)) (match putMatch s c.h.part z.y.val z.z.val with
      | .fill t j =>
        if !t.nextAfter (putsQueued s c.id c.m.core) z.y.val (selSeg z.z.val) j &&
            decide (stagingFree s c.h.part (idDie z.y.val) = 0) then some .combine
        else none
      | _ => none)
  | 0xA2 => full (decide (combQueueMax ≤ k.combQ.length)) none
  | 0xB0 => full (decide (jobQueueMax ≤ k.jobQ.length)) none
  | 0xB1 => full (decide (jobQueueMax ≤ k.jobQ.length)) none
  | 0xC0 => full (decide (jobQueueMax ≤ k.jobQ.length)) none
  | _ => none

end Sys2Proof.Machine
end

