-- ==== Sys2Proof/Machine/Bundle.lean ====
section
/-! DEFINITION. A bundle from its encoding checks to its commit: binding of routine slots, drain points, engine waits,
full/empty attempts, the commit with its control operation, the call and the RET of bodies, and what native routines do
(R26, R34..R46, R50..R61, R70, R78..R89, R137, R152..R161, R200..R202, R364..R371, R380, R392..R396). -/

namespace Sys2Proof.Machine

/-! ### The parts of a bundle -/

/-- A bundle: header, control operation, and the five slots, an absent slot as its no-op. -/
structure Bundle where
  h : Hdr
  c : Instr
  s : Instr
  v : Instr
  m : Instr
  ra : Instr
  rb : Instr
  deriving DecidableEq, Repr

/-- The bundle that an instruction stands for: the operation alone under a plain header (log 1). -/
def bundleOf (i : Instr) : Bundle :=
  match i.kind with
  | .control => ⟨plainHdr 0, i, .snop, .vnop, .mnop, noRoutine, noRoutine⟩
  | .scalar => ⟨plainHdr 1, .ctrlNop 0, i, .vnop, .mnop, noRoutine, noRoutine⟩
  | .vector => ⟨plainHdr 2, .ctrlNop 0, .snop, i, .mnop, noRoutine, noRoutine⟩
  | .memory => ⟨plainHdr 4, .ctrlNop 0, .snop, .vnop, i, noRoutine, noRoutine⟩
  | .routine => ⟨plainHdr 8, .ctrlNop 0, .snop, .vnop, .mnop, i, noRoutine⟩
  | _ =>
    match i with
    | .bundleIssue h c s v m ra rb => ⟨h, c, s, v, m, ra, rb⟩
    | _ => ⟨plainHdr 0, .ctrlNop 0, .snop, .vnop, .mnop, noRoutine, noRoutine⟩

/-- The S, V and M slots with their numbers in a trap record. -/
def Bundle.slots (b : Bundle) : List (Nat × Instr) := [(1, b.s), (2, b.v), (3, b.m)]

/-- The routine slots with their numbers. -/
def Bundle.routines (b : Bundle) : List (Nat × Instr) := [(4, b.ra), (5, b.rb)]

/-- Bytes of the bundle. -/
def Bundle.bytes (b : Bundle) : Nat := 8 * b.h.words

/-- COP is not 0x00. -/
def Bundle.controls (b : Bundle) : Bool :=
  match b.c with | .ctrlNop _ => false | _ => true

/-- What an S, V or M slot does when its guard reads true, one definition per operation. -/
def slotFx : Instr → Fx
  | .snop => fxSnop
  | .add f => fxAdd f
  | .sub f => fxSub f
  | .and f => fxAnd f
  | .or f => fxOr f
  | .xor f => fxXor f
  | .shl f => fxShl f
  | .shr f => fxShr f
  | .sra f => fxSra f
  | .min f => fxMin f
  | .max f => fxMax f
  | .minu f => fxMinu f
  | .maxu f => fxMaxu f
  | .rotl f => fxRotl f
  | .addi f => fxAddi f
  | .andi f => fxAndi f
  | .ori f => fxOri f
  | .xori f => fxXori f
  | .shli f => fxShli f
  | .shri f => fxShri f
  | .srai f => fxSrai f
  | .movi f => fxMovi f
  | .movhi f => fxMovhi f
  | .mul f => fxMul f
  | .mulhs f => fxMulhs f
  | .mulhu f => fxMulhu f
  | .divs f => fxDivs f
  | .divu f => fxDivu f
  | .rems f => fxRems f
  | .remu f => fxRemu f
  | .clz f => fxClz f
  | .ctz f => fxCtz f
  | .popc f => fxPopc f
  | .sextb f => fxSextb f
  | .sexth f => fxSexth f
  | .sextw f => fxSextw f
  | .zextb f => fxZextb f
  | .zexth f => fxZexth f
  | .zextw f => fxZextw f
  | .sel f => fxSel f
  | .cmp f => fxCmp f
  | .cmpi f => fxCmpi f
  | .pand f => fxPand f
  | .por f => fxPor f
  | .pxor f => fxPxor f
  | .pandn f => fxPandn f
  | .movp f => fxMovp f
  | .movps f => fxMovps f
  | .movsr f => fxMovsr f
  | .movrs f num => fxMovrs f num
  | .fpstatWrite f => fxFpstatWrite f
  | .cirWrite f => fxCirWrite f
  | .febudgetWrite f => fxFebudgetWrite f
  | .defprofileWrite f => fxDefprofileWrite f
  | .argWrite f n => fxArgWrite f n
  | .qposWrite f n => fxQposWrite f n
  | .chke f => fxChke f
  | .sfadd f => fxSfadd f
  | .sfsub f => fxSfsub f
  | .sfmul f => fxSfmul f
  | .sfmin f => fxSfmin f
  | .sfmax f => fxSfmax f
  | .sfcvtif f => fxSfcvtif f
  | .sfcvtfi f => fxSfcvtfi f
  | .vnop => fxVnop
  | .fadd f => fxFadd f
  | .fsub f => fxFsub f
  | .fmul f => fxFmul f
  | .ffma f => fxFfma f
  | .ffms f => fxFfms f
  | .fnma f => fxFnma f
  | .fmin f => fxFmin f
  | .fmax f => fxFmax f
  | .fabs f => fxFabs f
  | .fneg f => fxFneg f
  | .fcmp f => fxFcmp f
  | .fcvti f => fxFcvti f
  | .icvtf f => fxIcvtf f
  | .bfpk f => fxBfpk f
  | .bfup f => fxBfup f
  | .iadd f => fxIadd f
  | .isub f => fxIsub f
  | .imul f => fxImul f
  | .imulh f => fxImulh f
  | .iand f => fxIand f
  | .ior f => fxIor f
  | .ixor f => fxIxor f
  | .ishl f => fxIshl f
  | .ishr f => fxIshr f
  | .isra f => fxIsra f
  | .imin f => fxImin f
  | .imax f => fxImax f
  | .iminu f => fxIminu f
  | .imaxu f => fxImaxu f
  | .icmp f => fxIcmp f
  | .vsel f => fxVsel f
  | .vmov f => fxVmov f
  | .vbcst f => fxVbcst f
  | .vperm f => fxVperm f
  | .vrot f => fxVrot f
  | .viota f => fxViota f
  | .vext f => fxVext f
  | .vins f => fxVins f
  | .frsum f => fxFrsum f
  | .frmax f => fxFrmax f
  | .frmin f => fxFrmin f
  | .irsum f => fxIrsum f
  | .irmax f => fxIrmax f
  | .irmin f => fxIrmin f
  | .kand f => fxKand f
  | .kor f => fxKor f
  | .kxor f => fxKxor f
  | .kandn f => fxKandn f
  | .kpopc f => fxKpopc f
  | .kfromv f => fxKfromv f
  | .mnop => fxMnop
  | .trans f => fxTrans f
  | .hinv f => fxHinv f
  | .hrd f => fxHrd f
  | .ldB f => fxLdB f
  | .ldH f => fxLdH f
  | .ldW f => fxLdW f
  | .ldD f => fxLdD f
  | .ldSb f => fxLdSb f
  | .ldSh f => fxLdSh f
  | .ldSw f => fxLdSw f
  | .stB f => fxStB f
  | .stH f => fxStH f
  | .stW f => fxStW f
  | .stD f => fxStD f
  | .ldwaitD f => fxLdwaitD f
  | .ldtakeD f => fxLdtakeD f
  | .stfillD f => fxStfillD f
  | .feset f => fxFeset f
  | .feget f => fxFeget f
  | .vldW f => fxVldW f
  | .vstW f => fxVstW f
  | .vldH f => fxVldH f
  | .vstH f => fxVstH f
  | .spldW f => fxSpldW f
  | .spldD f => fxSpldD f
  | .spstW f => fxSpstW f
  | .spstD f => fxSpstD f
  | .vspld f => fxVspld f
  | .vspst f => fxVspst f
  | .vspg f => fxVspg f
  | .vsps f => fxVsps f
  | .lpld f => fxLpld f
  | .lpst f => fxLpst f
  | .sptakeD f => fxSptakeD f
  | .spfillD f => fxSpfillD f
  | .aadd f => fxAadd f
  | .amin f => fxAmin f
  | .amax f => fxAmax f
  | .aminu f => fxAminu f
  | .amaxu f => fxAmaxu f
  | .aand f => fxAand f
  | .aor f => fxAor f
  | .axor f => fxAxor f
  | .aswp f => fxAswp f
  | .acas f => fxAcas f
  | .cadd f => fxCadd f
  | .cwait f => fxCwait f
  | .crd f => fxCrd f
  | .fence f => fxFence f
  | .fenceSt f => fxFenceSt f
  | .fenceLd f => fxFenceLd f
  | .setq f => fxSetq f
  | .pref f => fxPref f
  | _ => fun _ s => .ok s

/-! ### Encoding checks (R61, R70, R368) -/

/-- The resolved register an operand reaches, 0 for the registers that discard writes; none is REG_RANGE. -/
def HerdCtx.operand (h : HerdCtx) : Opnd → Option Opnd
  | .vD n => (h.vreg n).map .vD
  | .vS n => (h.vreg n).map .vS
  | .hD n => (h.hreg n).map .hD
  | .hS n => (h.hreg n).map .hS
  | .qD n => (h.qreg n).map .qD
  | .qS n => (h.qreg n).map .qS
  | .qSet n => (h.qreg n).map .qSet
  | o => some o

/-- Whether the register is a destination that two slots may not share (R61). -/
def isDest : Opnd → Bool
  | .sD n => n != 0
  | .pD n => n != 0
  | .kD n => n != 0
  | .vD _ => true
  | .hD _ => true
  | _ => false

/-- The registers that a routine slot's fields name, by its signature (Table 2.3, Table 2.4). -/
def REntry.opnds (e : REntry) (f : RForm) : List Opnd :=
  ((List.range 4).flatMap fun j =>
    let n := f.field j
    let o := e.dir j == 2 || e.dir j == 3
    let i := e.dir j == 1 || e.dir j == 3
    match e.kind j with
    | 1 => (if o then [Opnd.vD n] else []) ++ (if i then [Opnd.vS n] else [])
    | 2 => (if o && decide (n < 64) then [Opnd.sD n] else []) ++ (if i && decide (n < 64) then [Opnd.sS n] else [])
    | 3 => (if o && decide (n < 16) then [Opnd.pD n] else []) ++ (if i && decide (n < 16) then [Opnd.pS n] else [])
    | 4 => if n < 16 then [Opnd.qS n] else []
    | 5 => if n < 16 then (if o then [Opnd.hD n] else []) ++ (if i then [Opnd.hS n] else []) else []
    | _ => []) ++ (if e.kkind = 1 then [Opnd.kS f.k.toNat] else [])

/-- The entry that a routine slot binds to; none for RN 0 or no binding. -/
def bindSlot (s : State) (h : HerdCtx) (b : Bundle) (i : Instr) : Option (Nat × REntry × Nat) :=
  if i.rn = 0 then none else (bindRoutine s h b.h.np i.rn).toOption

/-- The operands of slot `k` of a bundle. -/
def slotOpnds (s : State) (h : HerdCtx) (b : Bundle) (k : Nat) (i : Instr) : List Opnd :=
  if k ≤ 3 then i.opnds
  else match bindSlot s h b i, i.rform with
    | some (_, e, _), some f => e.opnds f
    | _, _ => []

/-- The checks of one slot that follow its decoding, in the order of R70. -/
def slotFault (s : State) (h : HerdCtx) (b : Bundle) (sys : Bool) (k : Nat) (i : Instr) : Option Cause :=
  if 4 ≤ k && i.rn != 0 then
    match bindRoutine s h b.h.np i.rn with
    | .error c => some c
    | .ok _ =>
      if i.rn = 0x82 ∧ sys = false then some .privileged
      else if (slotOpnds s h b k i).all (fun o => (h.operand o).isSome) then none else some .regRange
  else if (slotOpnds s h b k i).all (fun o => (h.operand o).isSome) then none else some .regRange

def allSlots (b : Bundle) : List (Nat × Instr) := b.slots ++ b.routines

/-- The first slot that names a destination of an earlier one, or the same one twice. The spec says that the record names
the slot concerned; that it is the later of two clashing slots is the model's choice (DESIGN CHOICE, log 48). -/
def clashFrom (s : State) (h : HerdCtx) (b : Bundle) : List (Nat × Instr) → List Opnd → Option Nat
  | [], _ => none
  | (k, i) :: r, seen =>
    let ds := ((slotOpnds s h b k i).filterMap h.operand).filter isDest
    if ds.any (fun d => seen.contains d) ∨ ¬ ds.Nodup then some k else clashFrom s h b r (seen ++ ds)

/-- Whether the V slot pushes the stream that it pops (R166). -/
def pushesOwnPop (h : HerdCtx) (b : Bundle) : Bool :=
  b.v.opnds.any fun o => match o with
    | .qD n => b.v.opnds.any fun p => match p with | .qS m => h.qreg n == h.qreg m | _ => false
    | _ => false

/-- The control operations that may not stand beside a routine (R57). -/
def forbiddenBeside : Instr → Bool
  | .call _ _ => true
  | .callr _ _ => true
  | .ret _ => true
  | .trap _ _ => true
  | .eret _ => true
  | .resume _ _ => true
  | _ => false

def privilegedCtl : Instr → Bool
  | .eret _ => true
  | .resume _ _ => true
  | _ => false

/-- The checks of the bundle as a whole: double destinations, E with a control operation, R57. The spec says that the record
names the slot concerned; for a routine beside a control operation that R57 forbids the model names the first routine slot
with RN not 0 (DESIGN CHOICE, log 48). -/
def wholeFault (s : State) (h : HerdCtx) (b : Bundle) : Option (Nat × Cause) :=
  match clashFrom s h b (allSlots b) [] with
  | some k => some (k, .illegalBundle)
  | none =>
    if pushesOwnPop h b then some (2, .illegalBundle)
    else if b.h.e && b.controls then some (0, .illegalBundle)
    else if forbiddenBeside b.c then (b.routines.find? fun (_, i) => i.rn != 0).map fun (k, _) => (k, .illegalBundle)
    else none

/-- The first encoding check that a decoded bundle fails: its slot and cause (R70). -/
def encodingFault (s : State) (h : HerdCtx) (b : Bundle) (sys : Bool) : Option (Nat × Cause) :=
  if privilegedCtl b.c && !sys then some (0, .privileged)
  else match (allSlots b).findSome? fun (k, i) => (slotFault s h b sys k i).map fun c => (k, c) with
    | some x => some x
    | none => wholeFault s h b

def causeOf : DecodeError → Cause
  | .illegalOp => .illegalOp
  | .illegalField => .illegalField
  | .profileUnknown => .profileUnknown
  | .routineUnbound => .routineUnbound
  | .short => .illegalField

/-- The first encoding check that words which are no instruction fail (R70): slots before the failing one are checked
first, and privilege comes between a reserved COP and the header's other checks. -/
def undecodedFault (s : State) (h : HerdCtx) (sys : Bool) (w : BitVec 64) (f : DecodeFailure) : Nat × Cause :=
  match f.header with
  | none =>
    let cop := (bits w 58 6).toNat
    if f.error != .illegalOp && (cop == 0x20 || cop == 0x21) && !sys then (0, .privileged) else (f.slot, causeOf f.error)
  | some (hd, c) =>
    if privilegedCtl c && !sys then (0, .privileged)
    else
      let get (k : Nat) : Instr := f.earlier.getD k (slotNop k)
      let b : Bundle := ⟨hd, c, get 0, get 1, get 2, get 3, noRoutine⟩
      match (allSlots b).findSome? fun (k, i) => (slotFault s h b sys k i).map fun c => (k, c) with
      | some x => x
      | none => (f.slot, causeOf f.error)

/-! ### What a bundle reads: contexts of its slots -/

/-- Whether the running code is a body whose digest is one that Table 11.4 publishes (R232). -/
def HerdCtx.publishedBody (s : State) (h : HerdCtx) : Bool :=
  match h.frames, s.image? h with
  | f :: _, some im => ((im.entries[f.ent]?).map (·.published)).getD false
  | _, _ => false

/-- The context of slot `k` of member `mi`, all from the state before the bundle. -/
def slotCtx (s : State) (id : Nat) (h : HerdCtx) (b : Bundle) (mi k : Nat) : Option Ctx :=
  (h.member? mi).map fun m =>
    { id := id, mi := mi, h := h, m := m, seed := h.seedAt 0, v := h.vcc, slot := k, scope := b.h.scope, who := h.who s,
      sys := h.sys s, pub := h.publishedBody s }

/-- The S, V and M slots of every member with their contexts, members in the order of HERDPOS. -/
def slotRuns (s : State) (id : Nat) (h : HerdCtx) (b : Bundle) : List (Ctx × Instr) :=
  (List.range h.members.length).flatMap fun mi =>
    b.slots.filterMap fun (k, i) => (slotCtx s id h b mi k).map fun c => (c, i)

/-- A slot on a member: nothing when its guard reads false (R58). -/
def runSlot (s : State) (x : Ctx × Instr) : Except Stop State :=
  if x.1.guard x.2.guard then slotFx x.2 x.1 s else .ok s

/-- Whether the V slot pushes. -/
def Bundle.pushes (b : Bundle) : Bool := b.v.opnds.any fun o => match o with | .qD _ => true | _ => false

/-- Whether what the V slot pushes is written at once: the bundle's M slot or a routine slot then follows it (R192, R215,
R263). Otherwise it is written before the herd-context's next bundle at the latest. -/
def Bundle.writesNow (b : Bundle) : Bool :=
  b.pushes && (b.m != .mnop || b.routines.any fun (_, i) => i.rn != 0)

/-- A slot of a bundle, whose pushes are written at once when `now`. -/
def runSlotIn (now : Bool) (s : State) (x : Ctx × Instr) : Except Stop State :=
  match runSlot s x with
  | .error e => .error e
  | .ok s =>
    if now && x.1.slot == 2 then
      let s := flushMember s x.1.id x.1.mi
      if (((s.hc? x.1.id).bind (·.member? x.1.mi)).map (·.pushed)).getD false then .error .stage else .ok s
    else .ok s

/-- The member whose operands the control operation reads (R137, R446). -/
def HerdCtx.leadOf (h : HerdCtx) : Nat := match h.frames with | f :: _ => f.lead | [] => 0

/-- What the control operation reads. -/
def ctlIn (s : State) (id : Nat) (h : HerdCtx) (b : Bundle) : Option CtlIn :=
  (slotCtx s id h b h.leadOf 0).map fun c => { h := h, c := c, pc := h.pc, next := h.pc + BitVec.ofNat 64 b.bytes }

/-- A routine slot with its binding and the operands it reads at issue (R34). -/
def routineCall (s : State) (id : Nat) (h : HerdCtx) (b : Bundle) (k : Nat) (i : Instr) : Option RCall :=
  match bindSlot s h b i, i.rform with
  | some (n, e, prof), some f =>
    some { id := id, slot := k, rn := i.rn, f := f, ent := n, e := e, prof := prof,
           caps := (List.range h.members.length).map fun mi =>
             match slotCtx s id h b mi k with | some c => captureOn c e f | none => RCap.off,
           scope := b.h.scope, sys := h.sys s }
  | _, _ => none

/-- Whether the slot's guard reads true on some member. -/
def RCall.acts (r : RCall) : Bool := r.caps.any (·.guard)

/-! ### Native routines by their number in the substitution table (R32) -/

/-- What a native routine does on a member. -/
def natPlan (r : RCall) (c : Ctx) (s : State) : NatPlan :=
  match r.e.std with
  | 0x10 => natOclaim r c s
  | 0x11 => natOfree r c s
  | 0x12 => natOlda r c s
  | 0x13 => natOldb r c s
  | 0x14 => natAclaim r c s
  | 0x15 => natAfree r c s
  | 0x16 => natAzero r c s
  | 0x17 => natMma r c s
  | 0x18 => natAnorm r c s
  | 0x19 => natAsto r c s
  | 0x1A => natArow r c s
  | 0x4B => natDivf r c s
  | 0x50 => natRow r c s
  | 0x51 => natRow r c s
  | 0x52 => natRow r c s
  | 0x53 => natSmxfin r c s
  | 0x54 => natRow r c s
  | 0x55 => natRow r c s
  | 0x60 => natBfpq r c s
  | 0x61 => natBdot4 r c s
  | 0x62 => natTlsc2 r c s
  | 0x80 => natCpy r c s
  | 0x81 => natCpyred r c s
  | 0x82 => natTstload r c s
  | 0x83 => natBtswap r c s
  | 0x84 => natBtfence r c s
  | 0xA0 => natCbreg r c s
  | 0xA1 => natCbput r c s
  | 0xA2 => natCbstat r c s
  | 0xB0 => natJexp r c s
  | 0xB1 => natJdone r c s
  | 0xC0 => natRingadv r c s
  | _ => natUnary r c s

/-- The engine wait that a native routine meets on a member before it issues (Table 4.3). -/
def natWait (r : RCall) (c : Ctx) (s : State) : Option Wait :=
  if r.e.std < 0x40 ∨ r.e.std = 0x60 then matWait r c s
  else if r.e.std < 0x80 then fnWait c s
  else engineWait r c s

/-- Whether a native routine feeds a copy engine or a queue of the combine, job or host-ring class (Table 13.1): its members'
commands enter in increasing HERDPOS, and each is checked in the state that the earlier ones leave (R258, R279). -/
def RCall.enters (r : RCall) : Bool := decide (0x80 ≤ r.e.std)

/-- The plans of the members whose guard read true. -/
def RCall.plans (r : RCall) (s : State) : List (Nat × NatPlan) :=
  ((List.range r.caps.length).foldl (fun (x : State × List (Nat × NatPlan)) mi =>
    if (r.cap mi).guard then
      match r.ctx x.1 mi with
      | some c =>
        let p := if r.e.accepts r.f then natPlan r c x.1 else NatPlan.fail (Trap.of .illegalField r.slot)
        (if r.enters && p.fault.isNone then p.finish x.1 else x.1, x.2 ++ [(mi, p)])
      | none => x
    else x) (s, [])).2

/-- What the commands of a native routine slot leave, as far as they find no fault, for the checks of the slot after it. -/
def RCall.trial (r : RCall) (s : State) : State :=
  if r.e.native then (r.plans s).foldl (fun s (_, p) => if p.fault.isNone then p.finish s else s) s else s

/-- The engine wait of a routine slot: that of the first member whose guard reads true and that waits. -/
def RCall.wait (r : RCall) (s : State) : Option Wait :=
  if !r.e.native || !r.e.accepts r.f then none
  else ((List.range r.caps.length).foldl (fun (x : State × Option Wait) mi =>
    if x.2.isSome || !(r.cap mi).guard then x
    else match r.ctx x.1 mi with
      | some c => match natWait r c x.1 with
        | some w => (x.1, some w)
        | none =>
          if r.enters then
            let p := natPlan r c x.1
            (if p.fault.isNone then p.finish x.1 else x.1, none)
          else x
      | none => x) (s, none)).2

/-! ### Drain points and queued results (R35, R56, R150, R156) -/

/-- Whether a queue of an engine class that EMASK bit `k` names holds a command of the herd-context (R53). -/
def engineBusy (s : State) (id : Nat) (h : HerdCtx) (k : Nat) : Bool :=
  match k with
  | 0 => h.members.any fun m => (s.core m.core).matHas id
  | 1 => h.members.any fun m => (s.core m.core).fnQ.any (·.hc == id)
  | 2 => copyHas s id
  | 3 => h.members.any fun m => (s.core m.core).combQ.any (·.hc == id)
  | _ => h.members.any fun m => (s.core m.core).jobQ.any (·.hc == id)

/-- Whether a tile that the herd-context claimed is busy. -/
def tilesBusy (s : State) (h : HerdCtx) : Bool :=
  h.members.any fun m =>
    let k := s.core m.core
    (k.oslots.any fun (o, x) => x.cl && x.owner == h.slot && k.slotBusy o) ||
      (k.accs.any fun (a, x) => x.cl && x.owner == h.slot && k.accBusy a)

/-- The wait of a drain point: an engine queue or a claimed tile is busy. -/
def drainBusy (s : State) (id : Nat) (h : HerdCtx) : Bool :=
  (List.range 5).any (engineBusy s id h) || tilesBusy s h

/-- A CHKE that executes on some member. -/
def chkeActive (s : State) (id : Nat) (h : HerdCtx) (b : Bundle) : Bool :=
  match b.s with
  | .chke f => (List.range h.members.length).any fun mi => ((slotCtx s id h b mi 1).map fun c => c.guard f.g).getD false
  | _ => false

/-- Whether the bundle waits as a drain point does. -/
def Bundle.drains (s : State) (id : Nat) (h : HerdCtx) (b : Bundle) : Bool := b.h.d || chkeActive s id h b

/-- Whether a bundle waits as a drain point does although it is none: it executes a CHKE (R150). -/
def chkeWaits (s : State) (id : Nat) (h : HerdCtx) (b : Bundle) : Bool := !b.h.d && chkeActive s id h b

/-- Land every result whose data has arrived, for a bundle that waits for all of them. -/
def landArrived (s : State) (id : Nat) : State :=
  s.modHc id fun h => { h with members := h.members.map fun m => (m.inflight.filter (·.landed)).foldl Member.land m }

/-- Registers that queued commands of a member still have to write (R35). -/
def queuedOuts (s : State) (id mi : Nat) (core : Nat) : List Opnd :=
  let k := s.core core
  (k.fnQ.filterMap fun x => if x.hc = id ∧ x.mem = mi then some (Opnd.vD x.vd) else none) ++
  (k.arrayQ.filterMap fun x => match x.op with
    | .arow vd _ _ _ _ _ => if x.hc = id ∧ x.mem = mi then some (Opnd.vD vd) else none
    | _ => none) ++
  (k.combQ.filterMap fun x => match x.op with
    | .reg sd _ _ _ _ => if x.hc = id ∧ x.mem = mi then some (Opnd.sD sd) else none
    | .stat sd _ _ => if x.hc = id ∧ x.mem = mi then some (Opnd.sD sd) else none
    | .put _ _ _ => none) ++
  (s.copyQ.flatMap fun (_, l) => l.filterMap fun x => match x.op with
    | .btswap sd _ _ _ => if x.hc = some id ∧ x.mem = mi then some (Opnd.sD sd) else none
    | _ => none)

/-- The same register, named as a source or as a destination. -/
def sameReg : Opnd → Opnd → Bool
  | .vD n, .vS m => n == m
  | .sD n, .sS m => n == m
  | a, b => a == b

/-- The register whose contents a store, a full/empty form or an atomic sends: no check and no wait depends on them. -/
def dataOpnd : Instr → Option Opnd
  | .stB f => some (.sS f.sd.toNat)
  | .stH f => some (.sS f.sd.toNat)
  | .stW f => some (.sS f.sd.toNat)
  | .stD f => some (.sS f.sd.toNat)
  | .stfillD f => some (.sS f.sd.toNat)
  | .feset f => some (.sS f.sd.toNat)
  | .vstW f => some (.vS f.vd.toNat)
  | .vstH f => some (.vS f.vd.toNat)
  | .spstW f => some (.sS f.sd.toNat)
  | .spstD f => some (.sS f.sd.toNat)
  | .vspst f => some (.vS f.vd.toNat)
  | .vsps f => some (.vS f.vd.toNat)
  | .lpst f => some (.vS f.vd.toNat)
  | .spfillD f => some (.sS f.sd.toNat)
  | .aadd f => some (.sS f.sv.toNat)
  | .amin f => some (.sS f.sv.toNat)
  | .amax f => some (.sS f.sv.toNat)
  | .aminu f => some (.sS f.sv.toNat)
  | .amaxu f => some (.sS f.sv.toNat)
  | .aand f => some (.sS f.sv.toNat)
  | .aor f => some (.sS f.sv.toNat)
  | .axor f => some (.sS f.sv.toNat)
  | .aswp f => some (.sS f.sv.toNat)
  | .acas f => some (.sS f.sv.toNat)
  | .cadd f => some (.sS f.sv.toNat)
  | _ => none

/-- Whether slot `k` of the bundle, or its control operation (slot 0), names a register that a queued command of member
`mi` still has to write (R35). -/
def slotPaused (s : State) (id : Nat) (h : HerdCtx) (b : Bundle) (mi k : Nat) : Bool :=
  match h.member? mi with
  | none => false
  | some m =>
    let q := queuedOuts s id mi m.core
    if q.isEmpty then false
    else if k = 0 then
      mi == h.leadOf && match b.c.ctlReg with | some n => q.any fun d => sameReg d (.sS n) | none => false
    else
      let named := ((allSlots b).flatMap fun (j, i) => if j = k then slotOpnds s h b j i else []).filterMap h.operand
      q.any fun d => d != .sD 0 && named.any fun o => sameReg d o

/-- Whether the checks and waits of slot `k` depend on a register that a queued command of member `mi` still has to write:
they are made once its value is there. -/
def sourcePaused (s : State) (id : Nat) (h : HerdCtx) (b : Bundle) (mi k : Nat) : Bool :=
  match h.member? mi with
  | none => false
  | some m =>
    let q := queuedOuts s id mi m.core
    if q.isEmpty then false
    else if k = 0 then slotPaused s id h b mi 0
    else
      let reads (j : Nat) (i : Instr) : List Opnd :=
        if k = 2 then [] else match dataOpnd i with
          | some o => (slotOpnds s h b j i).erase o
          | none => slotOpnds s h b j i
      let named := ((allSlots b).flatMap fun (j, i) => if j = k then reads j i else []).filterMap h.operand
      q.any fun d => d != .sD 0 && named.any fun o => !isDest o && sameReg d o

/-- Whether the bundle names a register that a queued command still has to write on some member (R35). -/
def namesQueued (s : State) (id : Nat) (h : HerdCtx) (b : Bundle) : Bool :=
  (List.range h.members.length).any fun mi => (List.range 6).any fun k => slotPaused s id h b mi k

/-- Whether the bundle reads or writes FPSTAT by MOVSR or MOVRS. -/
def Bundle.namesFpstat (b : Bundle) : Bool :=
  match b.s with
  | .movsr f => f.num == 0x10
  | .fpstatWrite _ => true
  | _ => false

/-- Whether an AROW of mode 0 of member `mi` still has to raise its flags: a bundle that names FPSTAT pauses (R241). -/
def arowQueued (s : State) (id mi core : Nat) : Bool :=
  (s.core core).arrayQ.any fun x => x.hc == id && x.mem == mi && match x.op with
    | .arow _ _ _ mode _ _ => mode == 0
    | _ => false

/-- Whether an M slot accesses memory or orders accesses. -/
def accessesMem : Instr → Bool
  | .mnop => false
  | .trans _ => false
  | .hinv _ => false
  | .hrd _ => false
  | .pref _ => false
  | i => i.kind == .memory

/-- Whether a routine slot has an acquire or a release (R260). -/
def ordersSlot (s : State) (h : HerdCtx) (b : Bundle) (i : Instr) : Bool :=
  match bindSlot s h b i, i.rform with
  | some (_, e, _), some f => e.fkind == 2 && f.f.extractLsb' 0 2 != 0
  | _, _ => false

/-- Whether a native routine accesses memory or the scratchpad by its engine, or reads device memory itself: the copy engines,
the combine, job and host-ring classes, and TLSC2. -/
def REntry.accessesMem (e : REntry) : Bool := e.native && (decide (0x80 ≤ e.std) || e.std == 0x62)

/-- Whether a routine slot's own accesses follow the writes of the member's earlier ASTOs. -/
def followsSlot (s : State) (h : HerdCtx) (b : Bundle) (i : Instr) : Bool :=
  ordersSlot s h b i || (match bindSlot s h b i with | some (_, e, _) => e.accessesMem | none => false)

/-- Whether the V slot pops a stream of full/empty words: its reads are attempts that the bundle itself makes (R215). -/
def Bundle.popsFe (h : HerdCtx) (b : Bundle) : Bool :=
  h.members.any fun m => b.v.opnds.any fun o => match o with
    | .qS n => (((h.qreg n).bind fun k => (m.strm k).recd).map fun r => r.fem == 1 || r.fem == 2).getD false
    | _ => false

/-- Whether the bundle accesses memory, pushes, takes F/E words, acquires or releases, or has an engine do so: its accesses
follow the writes of the member's earlier ASTOs, which are pushes of their bundles, to the same bytes or in the same class, and
a copy engine reads a scratchpad only after them (R106, R192, R205, R240, R263, R286, R290). The model lets them wait in every
such case (log 23). -/
def Bundle.follows (s : State) (h : HerdCtx) (b : Bundle) : Bool :=
  accessesMem b.m || b.pushes || b.popsFe h || b.routines.any fun (_, i) => followsSlot s h b i

/-- The pauses that queued commands cause: a register or FPSTAT that one still has to write (R35, R241), or writes of an
ASTO that the bundle's own accesses follow (R240). -/
def pausedOnQueue (s : State) (id : Nat) (h : HerdCtx) (b : Bundle) : Bool :=
  namesQueued s id h b ||
  (b.namesFpstat && h.members.zipIdx.any fun (m, mi) => arowQueued s id mi m.core) ||
  (b.follows s h && h.members.zipIdx.any fun (m, mi) => astoQueued s id mi m.core none)

/-! ### Full/empty attempts of a bundle (R201, R202, R215) -/

/-- An attempt that a member still has to make: member, the stream and the pair of its word (none for the M slot), the
kind, the place, the word to fill, the OP, and the trap when the budget runs out. -/
structure FeAsk where
  mi : Nat
  pair : Option (Nat × Nat)
  kind : FeKind
  loc : Loc
  val : SReg
  op : Nat
  trap : Trap
  deriving DecidableEq, Repr

/-- The key of a word (Table 21.4): its physical address, or its core and scratchpad address with SPW. -/
def wordKey : Loc → Nat
  | .mem pa => pa / 8 * 8
  | .sp core a => 2 ^ 63 + spKey core (a / 8 * 8)

/-- The firmware's copy of a record names the word (Table 21.1). -/
def Trap.withWord (t : Trap) (l : Loc) : Trap := { t with data := lset t.data 3 (BitVec.ofNat 64 (wordKey l)) }

/-- The trap record of a waiting form of the M slot that runs out of budget (R385). -/
def feTrapOf (c : Ctx) (i : Instr) (op : Nat) : Trap :=
  let hand (f : SMemForm) : Trap :=
    let hn := (c.h.hreg f.h.toNat).getD f.h.toNat
    handleTrap c hn (c.m.readH c.seed (c.ix 8) hn) .fe (c.off f.so f.imm.toInt) 8 op 0 .feBudget
  match i with
  | .ldwaitD f => hand f
  | .ldtakeD f => hand f
  | .stfillD f => hand f
  | .sptakeD f => spTrap c .feBudget (c.spAddr f.sa f.imm.toInt) 8 op 0
  | .spfillD f => spTrap c .feBudget (c.spAddr f.sa f.imm.toInt) 8 op 0
  | _ => Trap.of .feBudget c.slot

/-- The attempt of the M slot of a member, unless it has succeeded. -/
def slotAsk (s : State) (c : Ctx) (i : Instr) : List FeAsk :=
  if c.guard i.guard = false ∨ c.m.feHeld.isSome = true then []
  else match feRequest i c s with
    | some (k, .ok l, v, op) => [⟨c.mi, none, k, l, v, op, feTrapOf c i op⟩]
    | _ => []

/-- An element's address before any lookup (R214). -/
def elemVa (s : State) (u : StrmUse) (r : StrmRec) (e : Nat) : Word :=
  match elemAddr s u r e with
  | .ok (_, x) => BitVec.ofInt 64 x
  | .error f => f.addr

/-- The words that the pops of a member's V slot still have to take. -/
def popAsk (s : State) (c : Ctx) (f : VForm) : List FeAsk :=
  if c.guard f.g = false then []
  else (vStreams c f).eraseDups.flatMap fun qn =>
    let q := c.m.strm qn
    match q.recd with
    | none => []
    | some r =>
      if r.fem ≠ 1 ∧ r.fem ≠ 2 then []
      else (pairsOf q.pos ((q.moves r).getD 0)).filterMap fun k =>
        if (heldPair c qn q k).isSome then none
        else match elemLoc s (c.use q) r q.bte (2 * k) with
          | .error _ => none
          | .ok (_, _, l) =>
            let e := max q.pos (2 * k)
            some ⟨c.mi, some (qn, k), if r.fem = 2 then .take else .wait, l, ⟨0, none⟩, if r.fem = 2 then 0x11 else 0x10,
                  elemTrap c.slot qn e (e - q.pos) 8 2 (.plain .feBudget (elemVa s (c.use q) r e) WalkInfo.nowalk)⟩

/-- Every attempt that the bundle still has to make, in the order of the members. -/
def feAsks (s : State) (id : Nat) (h : HerdCtx) (b : Bundle) : List FeAsk :=
  (List.range h.members.length).flatMap fun mi =>
    (match slotCtx s id h b mi 2, vSpec b.v with
      | some c, some (f, _) => popAsk s c f
      | _, _ => []) ++
    (match slotCtx s id h b mi 3 with | some c => slotAsk s c b.m | none => [])

/-- Make one attempt; on success its word is held, else the state is as before. -/
def feTry (s : State) (id : Nat) (w : Who) (x : FeAsk) : State × Bool :=
  match feAttempt s w x.kind x.loc x.val x.op false with
  | none => (s, false)
  | some (s, v) =>
    (s.modMember id x.mi fun m => match x.pair with
      | none => { m with feHeld := some v }
      | some (q, k) => { m with popHeld := m.popHeld ++ [(q, k, v.val, v.tag)] }, true)

/-- Insert by key, equal keys in the order given. -/
def insertBy (k : Nat) (x : FeAsk) : List (Nat × FeAsk) → List (Nat × FeAsk)
  | [] => [(k, x)]
  | (j, y) :: r => if k < j then (k, x) :: (j, y) :: r else (j, y) :: insertBy k x r

/-- The attempts in the order in which the words' points of coherence serve the members (log 12). -/
def feOrder (seed : Nat) (l : List FeAsk) : List FeAsk :=
  (l.foldl (fun a x => insertBy (Config.memberOrder seed x.mi) x a) []).map (·.2)

/-- Make every attempt once: the state, and the attempts that failed in the order of the members. -/
def feRound (s : State) (id : Nat) (w : Who) (asks : List FeAsk) : State × List FeAsk :=
  let (s, failed) := (feOrder (((s.hc? id).map (·.seedAt 0)).getD 0) asks).foldl (fun (s, bad) x =>
    let (s, ok) := feTry s id w x
    (s, if ok then bad else bad ++ [x])) (s, ([] : List FeAsk))
  (s, asks.filter fun x => failed.contains x)

/-- The state in which every attempt of the bundle has succeeded with some word: what the bundle's other checks say is
found on it before any attempt is made (R215, R364). -/
def attempted (s : State) (id : Nat) (asks : List FeAsk) : State :=
  asks.foldl (fun s x => s.modMember id x.mi fun m => match x.pair with
    | none => { m with feHeld := some ⟨0, none⟩ }
    | some (q, k) => { m with popHeld := m.popHeld ++ [(q, k, 0, none)] }) s

/-! ### Stops of a bundle (R366, R367) -/

/-- Whether the V slot of a member blocks on the range scoreboard: an F/E pop of any of its sources, or its push (R107). The
wait comes before every fault and pause of its pops (R366). -/
def streamBlocked (s : State) (x : Ctx × Instr) : Bool :=
  match vSpec x.2 with
  | none => false
  | some (f, _) =>
    let c := x.1
    let run (qn : Nat) (out : Bool) : Bool :=
      let q := c.m.strm qn
      match q.unusable out, q.recd with
      | none, some r =>
        let n := (q.moves r).getD 0
        if out then runPaused s (c.use q) r q.pos n
        else !runPaused s (c.use q) r q.pos n && runFeBlocked s (c.use q) r q.pos n
      | _, _ => false
    c.guard f.g && ((vStreams c f).any (run · false) ||
      f.sf.getLsbD 3 && run ((c.h.qreg (f.vd.toNat % 16)).getD (f.vd.toNat % 16)) true)

/-- Every slot that does not complete when tried alone, with the control operation as slot 0 on the lead's member. -/
def stopsOf (s : State) (id : Nat) (h : HerdCtx) (b : Bundle) : List (Nat × Nat × Stop) :=
  let ctl := match ctlIn s id h b with
    | some x => (match runControl b.c x s with | .error e => [(h.leadOf, 0, e)] | .ok _ => [])
    | none => []
  let slots := (slotRuns s id h b).flatMap fun x => match runSlot s x with
    | .error e =>
      (x.1.mi, x.1.slot, e) :: if streamBlocked s x then [(x.1.mi, x.1.slot, .wait .scoreboard)] else []
    | .ok _ => []
  (List.range h.members.length).flatMap fun mi => (ctl ++ slots).filter (·.1 == mi)

/-- The first trap among stops, early or late, with the map of the members that trap so. -/
def firstTrap (early : Bool) (l : List (Nat × Nat × Stop)) : Option (Trap × Nat) :=
  let ts := l.filterMap fun (mi, _, e) => match e with
    | .trap e t => if e = early then some (mi, t) else none
    | _ => none
  match ts with
  | [] => none
  | (_, t) :: _ => some (t, (ts.map (·.1)).eraseDups.foldl (fun a i => a + 2 ^ i) 0)

/-- The engine wait among stops; the waits of CWAIT on several members are one. -/
def firstWait (l : List (Nat × Nat × Stop)) : Option Wait :=
  let ws : List Wait := l.filterMap fun (_, _, e) => match e with | .wait w => some w | _ => none
  match ws with
  | [] => none
  | .cwait _ :: _ => some (.cwait (ws.flatMap fun w => match w with | .cwait x => x | _ => []))
  | w :: _ => some w

/-- A routine slot that would issue while l6 or l7 is active traps LOOP_NEST on every member (R161). -/
def loopNest (h : HerdCtx) (b : Bundle) : Option (Trap × Nat) :=
  match h.loops.any fun l => decide (6 ≤ l.level), b.routines.find? fun (_, i) => i.rn != 0 with
  | true, some (k, _) => some (Trap.of .loopNest k, 2 ^ h.members.length - 1)
  | _, _ => none

/-- A body-bound slot that would push a 33rd link entry (R154, R369). -/
def linkFull (h : HerdCtx) (rs : List RCall) : Option (Trap × Nat) :=
  if h.links.length < linkMax then none
  else (rs.find? fun r => !r.e.native && r.acts).map fun r =>
    (Trap.of .linkOverflow r.slot, bitmap (r.caps.map (·.guard)))

/-- The lower of two first traps. -/
def lowerTrap (a b : Option (Trap × Nat)) : Option (Trap × Nat) :=
  match a, b with
  | some (t, m), some (u, n) =>
    let low (x : Nat) : Nat := (List.range 16).findIdx fun i => x.testBit i
    if low n < low m then some (u, n ||| m)
    else some (t, m ||| n)
  | some x, none => some x
  | none, y => y

/-! ### The routine window and completion of a body (R38, R39) -/

/-- A member at the body's RET: everything the body has in flight has to land before the next bundle, and its scalar and
predicate outputs are on their way, unless the member took no part. -/
def Member.completeCall (m : Member) (f : Frame) (mi v : Nat) : Member :=
  let m := { m with inflight := m.inflight.map fun (p : Pending) => if f.since ≤ p.issue then { p with due := v + 1 } else p }
  if f.active.getD mi true = false then { m with args := m.args.drop 1 }
  else
    let a := m.args.headD ⟨0, 0, 0, 0, 0⟩
    let val (j : Nat) : Word := match j with | 0 => a.x | 1 => a.y | 2 => a.z | _ => a.w
    let outs := (List.range 4).filterMap fun j =>
      if f.dir j = 2 ∨ f.dir j = 3 then
        match f.kind j with
        | 2 => some (Pending.mk (.s (f.field j) (val j) none) 0 v (v + 1) true)
        | 3 => some (Pending.mk (.p (f.field j) ((val j).getLsbD 0)) 0 v (v + 1) true)
        | _ => none
      else none
    { m with inflight := m.inflight ++ outs, args := m.args.drop 1 }

/-- Everything due at the herd-context's cycle lands, late results included: the pause of R39 and R60. -/
def settle (s : State) (id : Nat) : State :=
  s.modHc id fun h => { h with members := h.members.map (·.forceDue h.vcc) }

/-- After the body's RET the window is undefined: all of it on the members that took part, s59 and k15 on the others. -/
def spoilReturn (s : State) (id : Nat) (f : Frame) : State :=
  s.modHc id fun h =>
    { h with members := h.members.zipIdx.map fun (m, i) =>
                 m.spoilWindow h.vcc (h.seedAt i) h.nv (f.active.getD i true),
             loops := h.loops.filter fun l => l.level < 6, fresh := h.fresh + 16 }

/-! ### Native routines and body calls (R34, R36, R231, R392..R396) -/

/-- A trap as a native routine reports it at point `k` (R393, Table 22.1). -/
def nativeTrap (r : RCall) (t : Trap) (k : Nat) : Trap :=
  let point := match t.cause with
    | .tileState => true | .engineParam => true | .combineParam => true | .jcbClosed => true | _ => false
  { t with slot := r.slot, native := r.e.native, rn := r.rn,
           data := if point then lset t.data 0 (t.data.headD 0 ||| BitVec.ofNat 64 (k % 2 ^ 16 * 2 ^ 32)) else t.data }

/-- The loop on l6 that the body runs at point `k`: count and limit known, its bundles those of the body. -/
def loopAt (im : Image) (r : RCall) (k cur lim : Nat) : List Loop :=
  match k with
  | 0 => []
  | j + 1 =>
    match (im.bundle (im.bodyAt r.e j)).map fun (_, _, ws) => ws.headD 0 with
    | some w => match readControl w with
      | some (.loopn _ l _ e) =>
        if l = 6 then [⟨6, im.bodyAt r.e (j + 1), im.bodyAt r.e j + e.setWidth 64 * 8, cur, lim⟩] else []
      | _ => []
    | none => []

/-- The state of a routine's body at step `n` of the plans (R43): the call is set up, what the unit has done up to there is
done, and the herd-context stands at the point of plan `p`. -/
def materialise (s : State) (r : RCall) (link : Link) (plans : List (Nat × NatPlan)) (p : NatPlan) (n : Nat) : State :=
  let (k, b) := p.point n
  let s := enterBody s r link k
  let s := plans.foldl (fun s (_, p) => p.fill n s) s
  s.modHc r.id fun h =>
    { h with vcc := h.vcc + b,
             loops := (match p.loop6 n, s.image? h with
               | some (c, l), some im => loopAt im r k c l
               | _, _ => []) ++ h.loops }

/-- The trap of a routine whose state at a point finds no room for its link entry (R17, R369). -/
def noLink (s : State) (r : RCall) : Bool :=
  match s.hc? r.id with
  | none => false
  | some h =>
    decide (linkMax ≤ h.links.length) &&
      (((s.node? h.part h.node).map (·.field 136 8)).getD 0 == 0 || decide (256 < h.spill.length + 16))

/-- A native routine's fault: the body's state at the point is materialised and the herd-context freezes there. -/
def nativeFault (s : State) (r : RCall) (link : Link) (plans : List (Nat × NatPlan)) (n : Nat) : State :=
  let hit := plans.filterMap fun (mi, p) => match p.fault with
    | some (j, t) => if j = n then some (mi, p, t) else none
    | none => none
  match hit with
  | [] => s
  | (_, p, t) :: _ =>
    if noLink s r then takeTrap s r.id (Trap.of .linkOverflow r.slot) (hit.foldl (fun a x => a + 2 ^ x.1) 0)
    else takeTrap (materialise s r link plans p n) r.id (nativeTrap r t (p.point n).1) (hit.foldl (fun a x => a + 2 ^ x.1) 0)

/-- The step at which a stop request that stands meets a native routine, when it does so at a point and not at completion: a
point whose preceding checks have all passed, that of a failing check included (R45, R395). Which one is a free choice
(log 30). -/
def stopAt (s : State) (r : RCall) (plans : List (Nat × NatPlan)) (fault : Option Nat) : Option Nat :=
  match s.hc? r.id with
  | none => none
  | some h =>
    if h.stop.isNone || noLink s r || !r.e.accepts r.f then none
    else
      let last := plans.foldl (fun a x => min a x.2.steps) ((plans.head?.map (·.2.steps)).getD 0)
      match Config.stopStep (h.seedAt 0) r.rn with
      | 0 => none
      | n + 1 => if n ≤ last ∧ (fault.all fun f => decide (n ≤ f)) = true then some n else none

/-- The smallest step at which a plan faults. -/
def firstFault (plans : List (Nat × NatPlan)) : Option Nat :=
  (plans.filterMap fun (_, p) => p.fault.map (·.1)).foldl (fun a n => match a with
    | some m => some (min m n) | none => some n) none

/-- The call of a body with the checks of R25 at its point 0 (R36, R392). -/
def callBody (s : State) (r : RCall) (link : Link) : State :=
  let s := enterBody s r link 0
  if r.e.accepts r.f then s
  else takeTrap s r.id (Trap.of .illegalField r.slot) (bitmap (r.caps.map (·.guard)))

/-- A routine slot takes effect after its bundle's commit. The Bool tells that the herd-context went on elsewhere: into
the body, or into a freeze. A native routine that meets a stop request at an equivalence point goes on in its body
(R45). -/
def actRoutine (s : State) (r : RCall) (link : Link) : State × Bool :=
  if !r.acts then (s, false)
  else
    let s := settle s r.id
    if r.e.native then
      let plans := r.plans s
      match stopAt s r plans (firstFault plans), plans with
      | some n, (_, p) :: _ => (materialise s r link plans p n, true)
      | _, _ =>
        match firstFault plans with
        | some n => (nativeFault s r link plans n, true)
        | none => (spoilAfter (plans.foldl (fun s (_, p) => p.finish s) s) r, false)
    else (callBody s r link, true)

/-- What acts after the last body of a bundle: end of fetch, YIELD, WAITE (R55, R89, R156). -/
def doPost (s : State) (id : Nat) (p : Post) : State :=
  s.modHc id fun h =>
    if p.fin then { h with hstate := .retiring, stop := none, wait := none }
    else if p.yield then { h with hstate := .ready, yielded := true }
    else if p.waite ≠ 0 then { h with waiteNext := p.waite }
    else h

/-- The stream field from which a native routine pops, and how many elements at most. -/
def RCall.pops (r : RCall) (c : Ctx) : Option (Nat × Nat) :=
  if r.e.std = 0x12 ∨ r.e.std = 0x13 ∨ r.e.std = 0x60 then some (1, 4096)
  else if (0x50 ≤ r.e.std ∧ r.e.std ≤ 0x55 ∧ r.e.std ≠ 0x53) ∧ r.f.f.getLsbD 0 then some (3, (r.cap c.mi).z.val.toNat * 256)
  else none

/-- Whether a native slot would pop an element that a copy in flight still has to write (R107, R165, R214). -/
def RCall.popsPaused (r : RCall) (s : State) : Bool :=
  r.e.native && r.e.accepts r.f && (List.range r.caps.length).any fun mi =>
    (r.cap mi).guard && match r.ctx s mi with
      | some c => (match r.pops c with | some (j, n) => r.popPaused c s j n | none => false)
      | none => false

/-- Whether a routine slot's own accesses have to follow the writes of an ASTO that is still queued on a member on which the
slot acts: the RA slot of its own bundle may be one (R240, R263, R286..R289). -/
def RCall.afterAsto (r : RCall) (s : State) (h : HerdCtx) : Bool :=
  (r.e.accessesMem || (r.e.fkind == 2 && r.f.f.extractLsb' 0 2 != 0)) &&
    h.members.zipIdx.any fun (m, mi) => (r.cap mi).guard && astoQueued s r.id mi m.core none

/-- Whether a native slot names a vector register that a queued command still has to write on a member (R34, R35), would pop
an element that is not there yet, or has to follow the writes of an ASTO. -/
def RCall.held (r : RCall) (s : State) : Bool :=
  match s.hc? r.id with
  | none => false
  | some h => r.popsPaused s || r.afterAsto s h || r.e.native && h.members.zipIdx.any fun (m, mi) =>
      let q := queuedOuts s r.id mi m.core
      (r.cap mi).guard && ((r.e.opnds r.f).filterMap h.operand).any fun o => match o with
        | .vS n => q.contains (.vD n)
        | .vD n => q.contains (.vD n)
        | _ => false

/-- Block on an engine wait. A herd-context that is to stop is stopped by a forced stop from now on (R313). -/
def block (s : State) (id : Nat) (w : Wait) : State :=
  s.modHc id fun h =>
    { h with hstate := .blocked, wait := some w, waitedAt := s.clk, stop := h.stop.map fun _ => .forced }

/-- The RB slot acts: while a register it names waits for RA's result, RB stays pending at the caller's bundle; when it has
to wait for an engine, the herd-context blocks with RB pending. -/
def runRb (s : State) (r : RCall) (w : RbWait) (pc : Word) : State :=
  if r.held s then s.modHc r.id fun h => { h with pc := pc, rb := some w }
  else match r.acts, r.wait s with
  | true, some x => block (s.modHc r.id fun h => { h with pc := pc, rb := some w }) r.id x
  | _, _ =>
    match actRoutine s r ⟨w.succ, none, w.post⟩ with
    | (s, true) => s
    | (s, false) => doPost s r.id w.post

/-- Whether a herd-context stands frozen at an equivalence point whose earlier writes are not all performed, since a record of
the staging area is missing (R43, R292, R394). -/
def unwritten (s : State) (id : Nat) : Bool :=
  match s.hc? id with
  | some h => h.hstate == .frozen && h.pushed
  | none => false

/-- Mark the instance as waiting for a record of the staging area (R292). -/
def waitForStage (s : State) (h : HerdCtx) : State := s.modInst h.part h.node fun i => { i with waitStage := true }

/-- The link entry that an RA slot would push: it carries the RB bit whenever the RB slot holds a routine, on whatever
members its guard reads true (R393). -/
def raLink (rb : Option RCall) (pc succ : Word) (post : Post) : Link := match rb with
  | some q => ⟨pc, some ⟨q.ent, q.prof, q.caps, succ, post⟩, Post.none⟩
  | none => ⟨succ, none, post⟩

/-- The routine slots of a committed bundle: RA, then RB, then what acts after them (R34, R57). -/
def runRoutines (s : State) (id : Nat) (ra rb : Option RCall) (pc succ : Word) (post : Post) : State :=
  let after (s : State) : State := match rb with
    | some q => runRb s q ⟨q.ent, q.prof, q.caps, succ, post⟩ pc
    | none => doPost s id post
  match ra with
  | none => after s
  | some r =>
    match actRoutine s r (raLink rb pc succ post) with
    | (s, true) => s
    | (s, false) => after s

/-- Whether a routine slot of a committed bundle may have stopped: RA goes on elsewhere, or there is an RB. -/
def routinesStop (s : State) (ra rb : Option RCall) (pc succ : Word) (post : Post) : Bool :=
  rb.isSome || ra.any fun r => (actRoutine s r (raLink rb pc succ post)).2

/-- The routine slot that a pending RB slot stands for: its binding and its operands are those of its bundle's issue. -/
def pendingCall (s : State) (id : Nat) (h : HerdCtx) (b : Bundle) (w : RbWait) : Option RCall :=
  match (s.image? h).bind (·.entries[w.ent]?), b.rb.rform with
  | some e, some f =>
    some { id := id, slot := 5, rn := b.rb.rn, f := f, ent := w.ent, e := e, prof := w.prof, caps := w.caps,
           scope := b.h.scope, sys := h.sys s }
  | _, _ => none

/-- A pending RB slot runs alone (R36, R365). A fault whose earlier writes wait for a staging record is not reported before
they are performed (R43, R394). -/
def runPendingRb (s : State) (id : Nat) (h : HerdCtx) (b : Bundle) (w : RbWait) : State :=
  match pendingCall s id h b w with
  | none => doPost (s.modHc id fun h => { h with rb := none, pc := w.succ }) id w.post
  | some r =>
    match linkFull h [r] with
    | some (t, m) => takeTrap s id t m
    | none =>
      match r.acts, r.wait s with
      | true, some x => block s id x
      | _, _ =>
        let t := runRb (s.modHc id fun h => { h with rb := none, pc := w.succ }) r w h.pc
        if unwritten t id then waitForStage s h else t

/-! ### Commit (R58, R78, R159, R423) -/

/-- A body's RET (R39): the call is complete on every member, and the caller goes on. -/
def returnFrom (s : State) (id : Nat) (l : Link) : State :=
  match s.hc? id with
  | none => s
  | some h =>
    match h.frames with
    | [] => doPost s id l.post
    | f :: r =>
      let v := h.vcc - 1
      let s := s.setHc id { h with frames := r, members := h.members.zipIdx.map fun (m, i) => m.completeCall f i v }
      let s := spoilReturn (settle s id) id f
      match l.rb with
      | some w => s.modHc id fun h => { h with rb := some w }
      | none => doPost s id l.post

/-- The lead's store remembers that the overlay of the herd-context's bundle was used last (R90). -/
def touchOverlay (s : State) (h : HerdCtx) : State :=
  match s.image? h with
  | none => s
  | some im => match im.at h.pc with
    | none => s
    | some (i, _, _) =>
      let c := s.core h.leadCore
      if c.overlays.contains (im.digest, i) then
        s.setCore h.leadCore { c with overlays := (im.digest, i) :: c.overlays.erase (im.digest, i) }
      else s

/-- The commit of a bundle whose slots have run: consumed poison, VCC, loops, links and PC; and the successor. -/
def commitBase (s : State) (id : Nat) (h : HerdCtx) (b : Bundle) (o : CtlOut) : State × Word :=
  let s := consumeTag (touchOverlay s h) id h.leadOf o.consume
  let (loops, idx, succ) := if o.taken then (o.loops, o.idx, o.succ) else stepLoops h.pc o.succ o.loops o.idx
  (s.modHc id fun x =>
    { x with members := x.members.map Member.recordConsume, vcc := x.vcc + 1, pc := succ, loops := loops, idx := idx,
             links := o.links, feTries := 0, waiteNext := 0, wait := none, lastFe := none, regenWoken := none,
             stop := if b.h.e then none else x.stop, fresh := x.fresh + 16 }, succ)

/-- The commit of a bundle whose slots have run, and what follows it. -/
def commit (s : State) (id : Nat) (h : HerdCtx) (b : Bundle) (o : CtlOut) (ra rb : Option RCall) : State :=
  let (s, succ) := commitBase s id h b o
  let post := { o.post with fin := b.h.e }
  match o.act with
  | .trap code => takeTrap s id { Trap.of .userTrap 0 with code := code } (2 ^ h.leadOf)
  | .ret => match h.links with
    | l :: _ => returnFrom s id l
    | [] => s
  | .resume t => doPost (resumeHc s t) id post
  | .eret =>
    doPost (s.modDie h.die fun d =>
      { d with pairs := match d.pairs.findIdx? fun p => p.saved.isSome with
          | some i => lset d.pairs i { d.pairs.getD i ⟨false, 0, none⟩ with saved := none }
          | none => d.pairs }) id post
  | .go => runRoutines s id ra rb h.pc succ post

/-! ### Issue (R58, R81..R84, R366) -/

/-- Whether the members' snapshot entries hold the results in flight (R84). -/
def fitsSnapshot (h : HerdCtx) : Bool :=
  h.members.all fun m =>
    let wide := m.inflight.filter fun p => match p.res with | .v _ _ _ _ => true | .k _ _ => true | .h _ _ => true | _ => false
    decide (m.inflight.length ≤ 48) && decide (wide.length ≤ 16)

/-- Whether a routine slot of the bundle may stop at its commit. -/
def commitStops (s : State) (id : Nat) (h : HerdCtx) (b : Bundle) (o : CtlOut) (ra rb : Option RCall) : Bool :=
  let (s, succ) := commitBase s id h b o
  routinesStop s ra rb h.pc succ { o.post with fin := b.h.e }

/-- The state in which the RA slot of a bundle acts, its slots' results known: one virtual cycle on, with what is due landed. -/
def actsOn (t : State) (id : Nat) : State := settle (t.modHc id fun h => { h with vcc := h.vcc + 1 }) id

/-- Run the slots in order and commit, when nothing stops them. A native RA slot that would pop an element which a copy still
has to write, from the position that the bundle's other slots leave, pauses the bundle (R107, R165, R231). -/
def completeBundle (s : State) (id : Nat) (h : HerdCtx) (b : Bundle) (ra rb : Option RCall) : Except Stop State :=
  match ctlIn s id h b with
  | none => .ok s
  | some x =>
    match runControl b.c x s with
    | .error e => .error e
    | .ok o =>
      match foldStop (runSlotIn b.writesNow) (slotRuns s id h b) s with
      | .error e => .error e
      | .ok t =>
        if ((t.hc? id).map fitsSnapshot).getD true = false then .error .late
        else if ra.any (·.popsPaused (actsOn t id)) then .error .late
        else
          let u := commit t id h b o ra rb
          if unwritten u id && commitStops t id h b o ra rb then .error .stage else .ok u

/-- The engine wait of a routine slot. One that waits for an operand itself shows those waits only that no value decides: a
full queue, a busy tile. -/
def RCall.waitNow (r : RCall) (s : State) (paused : Bool) : Option Wait :=
  match r.wait s with
  | some .scoreboard => if paused then none else some .scoreboard
  | w => w

/-- The engine wait of the bundle: that of WAITE before it, of a slot, or of a routine slot; `out` names the slots that wait for
an operand. -/
def bundleWait (s : State) (id : Nat) (h : HerdCtx) (stops : List (Nat × Nat × Stop)) (ra rb : Option RCall)
    (out : Nat → Bool) : Option Wait :=
  if (List.range 5).any (fun k => h.waiteNext.getLsbD k && engineBusy s id h k) then some (.waite h.waiteNext)
  else
    match firstWait stops with
    | some w => some w
    | none =>
      match ra.bind fun r => r.waitNow s (out 4) with
      | some w => some w
      | none =>
        match ra with
        | some r =>
          if r.e.native || !r.acts then
            rb.bind fun q => q.waitNow (if q.enters && r.acts then r.trial s else s) (out 5)
          else none
        | none => rb.bind fun r => r.waitNow s (out 5)

/-- The traps that show only when the slots run one after another: the first, and the members that trap so (R78). -/
def seqTrap (s : State) (id : Nat) (h : HerdCtx) (b : Bundle) : Option (Trap × Nat) :=
  let (_, ts) := (slotRuns s id h b).foldl (fun (s, ts) x => match runSlotIn b.writesNow s x with
    | .ok t => (t, ts)
    | .error (.trap _ t) => (s, ts ++ [(x.1.mi, t)])
    | .error _ => (s, ts)) (s, ([] : List (Nat × Trap)))
  match ts with
  | [] => none
  | (_, t) :: _ => some (t, (ts.map (·.1)).eraseDups.foldl (fun a i => a + 2 ^ i) 0)

/-- What a bundle does that completes, or that a stop found only by running its slots in order holds back. -/
def finishBundle (s : State) (id : Nat) (h : HerdCtx) (b : Bundle) (ra rb : Option RCall) : State :=
  match completeBundle s id h b ra rb with
  | .ok t => t
  | .error .stage => waitForStage s h
  | .error (.wait w) => block s id w
  | .error (.trap _ t) => match seqTrap s id h b with
    | some (t, m) => takeTrap s id t m
    | none => takeTrap s id t 1
  | .error _ => s

/-- The bundle makes its full/empty attempts; then it commits, retries later, or runs out of budget (R201, R202). -/
def attemptFe (s : State) (id : Nat) (h : HerdCtx) (b : Bundle) (ra rb : Option RCall) : State :=
  let (t, bad) := feRound s id (h.who s) (feAsks s id h b)
  match bad with
  | [] =>
    match t.hc? id with
    | none => t
    | some h => match completeBundle t id h b ra rb with | .ok u => u | .error _ => t
  | x :: _ =>
    let map := (bad.map (·.mi)).eraseDups.foldl (fun a i => a + 2 ^ i) 0
    if h.feBudget.toNat ≤ h.feTries then takeTrap t id (x.trap.withWord x.loc) map
    else t.modHc id fun h => { h with feTries := h.feTries + 1, fresh := h.fresh + 16 }

/-- Steps 4 and 5 of R366 of a bundle that finds no wait. A full/empty attempt is made only when no other check of the
bundle would stop it after the attempts (R215, R364). -/
def issueNow (s : State) (id : Nat) (h : HerdCtx) (b : Bundle) (stops : List (Nat × Nat × Stop)) (ra rb : Option RCall) :
    State :=
  if stops.any (·.2.2 == .late) then s
  else if stops.any (·.2.2 == .stage) then waitForStage s h
  else match firstTrap false stops with
    | some (t, m) => takeTrap s id t m
    | none =>
      if stops.any (·.2.2 == .retry) then
        let p := attempted s id (feAsks s id h b)
        let g := (p.hc? id).getD h
        let rest := stopsOf p id g b
        match firstWait rest with
        | some w => block s id w
        | none =>
          if rest.any (·.2.2 == .late) then s
          else if rest.any (·.2.2 == .stage) then waitForStage s h
          else match firstTrap false rest with
            | some (t, m) => takeTrap s id t m
            | none =>
              match completeBundle p id g b none none with
              | .error .stage => waitForStage s h
              | .error (.wait w) => block s id w
              | .error (.trap _ t) => match seqTrap p id g b with
                | some (t, m) => takeTrap s id t m
                | none => takeTrap s id t 1
              | .error .late => s
              | _ => attemptFe s id h b ra rb
      else finishBundle s id h b ra rb

/-- Steps 2 to 5 of R366. Steps 2 and 3 use the values that the bundle reads at issue, so those of late results with all
due results landed (R83), and leave out what depends on a register that a queued command still has to write (R35). -/
def issueChecked (s : State) (id : Nat) (h : HerdCtx) (b : Bundle) : State :=
  let late := h.members.any (·.late h.vcc)
  let u := if late then settle s id else s
  let g := if late then (u.hc? id).getD h else h
  let ra := routineCall u id g b 4 b.ra
  let rb := routineCall u id g b 5 b.rb
  let held := pausedOnQueue s id h b
  let out (k : Nat) : Bool := held && (List.range h.members.length).any fun mi => sourcePaused s id h b mi k
  let stops := if held then (stopsOf u id g b).filter fun x => !sourcePaused s id h b x.1 x.2.1 else stopsOf u id g b
  match lowerTrap (firstTrap true stops) (lowerTrap (loopNest g b) (linkFull g (ra.toList ++ rb.toList))) with
  | some (t, m) => takeTrap u id t m
  | none =>
    match bundleWait u id g stops ra rb out with
    | some w => block s id w
    | none =>
      if chkeWaits u id g b && drainBusy u id g then block s id .drain
      else if late || held then s
      else if chkeWaits u id g b && h.members.any (fun m => !m.inflight.isEmpty) then landArrived s id
      else if rb.any (·.popsPaused s) then s
      else issueNow s id h b stops ra rb

/-- Issue a bundle after its encoding checks: the wait of a drain point comes before the execution checks (R366). -/
def issueEncoded (s : State) (id : Nat) (h : HerdCtx) (b : Bundle) : State :=
  if b.h.d then
    if drainBusy s id h then block s id .drain
    else
      let s := landArrived s id
      let h := (s.hc? id).getD h
      if h.members.any fun m => !m.inflight.isEmpty then s else issueChecked s id h b
  else issueChecked s id h b

/-- Whether nothing of a herd-context lands any more: it is frozen, parked or saved, or is done (R85). -/
def HerdCtx.stands (h : HerdCtx) : Bool :=
  h.hstate == .frozen || h.hstate == .parked || h.hstate == .saved || h.hstate == .done

/-- What is due lands, unless the herd-context stands (R84, R85). -/
def landLive (s : State) (id : Nat) : State :=
  let t := landAll s id
  if ((t.hc? id).map HerdCtx.stands).getD false then s else t

/-- One issue of a bundle by herd-context `id` (R366). A herd-context that is not RUNNING issues nothing. -/
def issueBundle (s : State) (id : Nat) (b : Bundle) : State :=
  let s := landLive s id
  match s.hc? id with
  | none => s
  | some h =>
    if h.hstate != .running then s
    else if h.pushed then waitForStage s h
    else match h.rb with
      | some w => runPendingRb s id h b w
      | none =>
        match encodingFault s h b (h.sys s) with
        | some (k, c) => takeTrap s id (Trap.of c k) (2 ^ h.members.length - 1)
        | none => issueEncoded s id h b

/-- The meaning of every bundle: it is issued by the herd-context that has the turn. -/
def issueOne (i : Instr) (s : State) : Host.Outcome State Fault Refusal :=
  match s.cur with
  | none => .fault .noContext
  | some id => .next (issueBundle s id (bundleOf i))

/-- Words that are no instruction trap as their first failing check says (R70). -/
def issueUndecoded (s : State) (id : Nat) (w : BitVec 64) (f : DecodeFailure) : State :=
  let s := landLive s id
  match s.hc? id with
  | none => s
  | some h =>
    let (k, c) := undecodedFault s h (h.sys s) w f
    takeTrap s id (Trap.of c k) (2 ^ h.members.length - 1)

/-- The walk that a failing fetch shows: that of a page which bars it, else none (R375, R380). -/
def fetchWalk (s : State) (h : HerdCtx) : WalkInfo :=
  match (s.image? h).bind (·.bundle h.pc) with
  | some (_, sg, _) => (codeBar s h h.pc sg.sys).getD WalkInfo.nowalk
  | none => WalkInfo.nowalk

/-- A fetch outside the image's code, or of a page that bars it (R152, R380): XLATE_S1 at the target. -/
def fetchFault (s : State) (id : Nat) : State :=
  let s := landLive s id
  match s.hc? id with
  | none => s
  | some h =>
    takeTrap s id (memTrap .xlateS1 0 h.pc (memData0 8 false false (fetchWalk s h) true false 0 0) (fetchWalk s h))
      (2 ^ h.members.length - 1)

/-- The words of the bundle at the herd-context's PC, when it can be fetched (R90, R380). -/
def fetchWords (s : State) (h : HerdCtx) : Option (List (BitVec 64)) :=
  match (s.image? h).bind (·.bundle h.pc) with
  | some (_, sg, ws) => if codeBarred s h h.pc sg.sys then none else some ws
  | none => none

/-- The bundle at the herd-context's PC, when its words are one. -/
def bundleAtPc (s : State) (h : HerdCtx) : Option Bundle :=
  match fetchWords s h with
  | some ws => match decodeWords ws with | .ok i => some (bundleOf i) | .error _ => none
  | none => none

/-- What fetching and issuing the next bundle leaves, whatever stands at the herd-context's PC. -/
def fetchNext (s : State) (id : Nat) (h : HerdCtx) : State :=
  match fetchWords s h with
  | some (w :: r) => match decodeWords (w :: r) with
    | .ok i => issueBundle s id (bundleOf i)
    | .error e => issueUndecoded s id w e
  | _ => fetchFault s id

/-! ### Late results, retries (R60, R81, R84, R201) -/

/-- Whether the results of a bundle find no snapshot entry: it holds (R84). A bundle with full/empty attempts still to make
is looked at as if they had succeeded, as before the attempts themselves. -/
def lacksEntries (s : State) (id : Nat) (h : HerdCtx) (b : Bundle) : Bool :=
  let full (s : State) (h : HerdCtx) : Bool :=
    match completeBundle s id h b none none with | .error .late => true | _ => false
  match completeBundle s id h b none none with
  | .error .late => true
  | .error .retry => (let p := attempted s id (feAsks s id h b); full p ((p.hc? id).getD h))
  | _ => false

/-- The oldest result in flight that has to land before the next bundle issues: one that is late at the herd-context's
cycle, or any when the next bundle drains or its results find no snapshot entry. -/
def oldestLate (s : State) (id : Nat) (h : HerdCtx) (m : Member) : Option Pending :=
  match m.inflight.find? fun p => decide (p.due ≤ h.vcc) && !p.landed with
  | some p => some p
  | none =>
    match bundleAtPc s h with
    | none => none
    | some b =>
      if b.drains s id h then m.inflight.head?
      else
        if lacksEntries s id h b then m.inflight.head? else none

/-- Land the oldest late result of every member (R60, R84), unless the herd-context stands. -/
def landLate (s : State) (id : Nat) : State :=
  if ((s.hc? id).map HerdCtx.stands).getD false then s
  else
  let s := landAll s id
  match s.hc? id with
  | none => s
  | some h =>
    let step (m : Member) : Member := match oldestLate s id h m with | some p => m.land p | none => m
    s.setHc id { h with members := h.members.map step }

end Sys2Proof.Machine
end

