-- ==== Sys2Proof/Machine/Contexts.lean ====
section
/-! DEFINITION. How a herd-context moves on between its bundles: overlays, engine waits that end, the selector, streams
read ahead and written out, stops, saves, restores and retirement (R82..R90, R214..R216, R313..R316, R367). -/

namespace Sys2Proof.Machine

/-! ### Occupation of context slots (R77, R86, R89) -/

/-- Herd-contexts that occupy a slot of a core, as a member or as the shadow of a member of a checked herd (R305). -/
def coreUsers (s : State) (core : Nat) : List (Nat × HerdCtx) :=
  s.hctxs.filter fun (_, h) =>
    h.occupies && h.members.any fun m =>
      m.core == core || (((s.node? h.part h.node).map (·.checked)).getD false && m.core + 1 == core)

/-- Herd-contexts of the herd frame with a lead core. -/
def frameOf (s : State) (lead : Nat) : List (Nat × HerdCtx) :=
  s.hctxs.filter fun (_, h) => h.occupies && h.leadCore == lead

/-- Whether a carve-out is in force on a core (R96). -/
def hasCarve (c : Core) (b1 b2 b3 ctxl : Nat) : Bool := c.b1 == b1 && c.b2 == b2 && c.b3 == b3 && c.ctxl == ctxl

/-- Set a carve-out on an idle core (R98): the pool is undefined and every scratchpad word full. Its poison tags are
cleared and its park bits stay: R98 speaks of contents and full/empty bits only (DESIGN CHOICE, log 48). -/
def setCarve (s : State) (core b1 b2 b3 ctxl : Nat) : State :=
  let c := s.core core
  s.setCore core { c with
    b1 := b1, b2 := b2, b3 := b3, ctxl := ctxl, poolSeed := some (c.seedOf core), pool := [], spEmpty := [], spTag := [],
    fresh := c.fresh + 1 }

/-! ### Overlays (R90) -/

/-- The overlay that a herd-context's PC needs on its lead. -/
def HerdCtx.overlay (s : State) (h : HerdCtx) : Option (BitVec 256 × Nat) :=
  match s.image? h with
  | none => none
  | some im => (im.at h.pc).map fun (i, _, _) => (im.digest, i)

/-- Whether the overlay of the next fetch is not resident. -/
def HerdCtx.lacksOverlay (s : State) (h : HerdCtx) : Bool :=
  match h.overlay s with
  | some o => !(s.core h.leadCore).overlays.contains o
  | none => false

/-- Overlays of an instruction store. -/
def overlayMax : Nat := 12

/-- The last overlay of a list, least recently used last, that `keep` does not hold. -/
def dropLast (keep : List (BitVec 256 × Nat)) (l : List (BitVec 256 × Nat)) : List (BitVec 256 × Nat) :=
  match l.reverse.find? fun o => !keep.contains o with
  | some o => l.erase o
  | none => l.dropLast

/-- Load an overlay into a core's store, replacing the least recently used one that holds no occupied context's PC. -/
def loadOverlay (s : State) (core : Nat) (o : BitVec 256 × Nat) : State :=
  let c := s.core core
  if c.overlays.contains o then s
  else
    let keep := (coreUsers s core).filterMap fun (_, h) => h.overlay s
    let l := if c.overlays.length < overlayMax then c.overlays else dropLast keep c.overlays
    s.setCore core { c with overlays := o :: l }

/-- OVERLAY_LOAD (R90): the lead loads the overlay that its next fetch needs. -/
def overlayStep (s : State) (id : Nat) : State :=
  match s.hc? id with
  | none => s
  | some h => match h.overlay s with | some o => loadOverlay s h.leadCore o | none => s

/-! ### Engine waits that end (R82, R315) -/

/-- Whether the next bundle of a herd-context, issued now, would block on an engine wait again. -/
def wouldBlock (s : State) (id : Nat) : Bool :=
  match s.hc? id with
  | none => false
  | some h =>
    match bundleAtPc s h with
    | none => false
    | some b =>
      let t := issueBundle (s.setHc id { h with hstate := .running, wait := none }) id b
      ((t.hc? id).map (·.hstate == .blocked)).getD false

/-- The counters in whose waiter lists a herd-context stands: those of its CWAIT, or that of the regeneration it awaits. -/
def HerdCtx.counters (h : HerdCtx) : List Nat :=
  match h.parked, h.wait with
  | some (.regen _ _ ctr _), _ => if ctr = 0 then [] else [ctr]
  | _, some (.cwait l) => l.map (·.1)
  | _, _ => []

/-- Whether the regeneration that a herd-context is parked on has come: its counter has reached the target, or, where the node
has none, its request has been served (R224). -/
def regenReached (s : State) (part idx ctr : Nat) (target : Word) : Bool :=
  if ctr = 0 then !(((s.part? part).map (·.regens.any fun q => q.entry == idx)).getD false)
  else decide (target.toNat ≤ (mem64 s ctr).toNat)

/-- Whether a waiter of a counter could go on now. -/
def couldGo (s : State) (id : Nat) (h : HerdCtx) : Bool :=
  match h.parked with
  | some (.regen idx _ ctr t) => regenReached s h.part idx ctr t
  | _ => h.hstate == .blocked && !wouldBlock s id

/-- Whether a node that watches a counter fires at a value of it. A node that is to be disarmed still fires (Table 15.5). -/
def mayFire (p : Part) (n : Node) (v : Nat) : Bool :=
  let live := match n.state with | .armed => true | .ready => true | .running => true | .commit => true | _ => false
  live && n.kind != 5 && !n.last && !p.halted && decide (n.field 96 8 ≤ v)

/-- The value at which the nodes that watch a counter fire next: that of its oldest add still to be seen, else what it holds. -/
def fireValue (s : State) (pa : Nat) : Nat := ((s.adds.find? fun x => x.1 == pa).map (·.2)).getD (mem64 s pa).toNat

/-- The nodes that watch a counter, by partition and in increasing node index (R312). -/
def watchers (s : State) (pa : Nat) : List (Nat × Nat) :=
  s.parts.flatMap fun (k, p) => (p.nodes.filter fun (_, n) => n.watch == some pa).map fun (i, _) => (k, i)

/-- Whether an entry of a counter's waiter list before the step `at` could go on too: a herd-context that waits for the
counter, or a node that fires at it (R92, R205, R307). -/
def entryAhead (s : State) (me : Option Nat) (pa stamp : Nat) : Bool :=
  (s.hctxs.any fun (x, g) =>
    me != some x && decide (g.waitedAt < stamp) && g.counters.contains pa && couldGo s x g) ||
  s.parts.any fun (_, p) => p.nodes.any fun (_, n) =>
    n.watch == some pa && decide (n.joined < stamp) && mayFire p n (fireValue s pa)

/-- Whether an entry that stands before a herd-context in the waiter list of a counter that it waits for could go on too:
waiters are woken first in, first out (R92, R205). -/
def waitsBehind (s : State) (id : Nat) (h : HerdCtx) : Bool := h.counters.any fun pa => entryAhead s (some id) pa h.waitedAt

/-- ENGINE_WAIT_END: a BLOCKED herd-context whose wait has ended on every member becomes READY. -/
def waitEnd (s : State) (id : Nat) : State :=
  match s.hc? id with
  | none => s
  | some h =>
    if h.hstate == .blocked && !waitsBehind s id h && !wouldBlock s id then s.setHc id { h with hstate := .ready, wait := none } else s

/-! ### The context selector (R316) -/

/-- Whether the first of two candidates is chosen over the second. -/
def beats (a b : Nat × HerdCtx) : Bool :=
  if a.2.ep ≠ b.2.ep then decide (b.2.ep < a.2.ep)
  else if a.2.lastRun ≠ b.2.lastRun then decide (a.2.lastRun < b.2.lastRun)
  else decide (a.2.placed < b.2.placed ∨ (a.2.placed = b.2.placed ∧ a.1 < b.1))

/-- The candidate that the selector picks. -/
def pickBest : List (Nat × HerdCtx) → Option (Nat × HerdCtx)
  | [] => none
  | x :: r => match pickBest r with
    | some y => if beats y x then some y else some x
    | none => some x

/-- CONTEXT_SELECT: an idle frame picks its next herd-context and ages the others. -/
def selectOn (s : State) (lead : Nat) : State :=
  let fr := frameOf s lead
  if fr.any fun (_, h) => h.hstate == .running then s
  else
    let ready := fr.filter fun (_, h) => h.hstate == .ready && h.stop != some .forced
    let cands := match ready.filter fun (_, h) => !h.yielded with | [] => ready | l => l
    match pickBest cands with
    | none => s
    | some (id, h) =>
      let s := cands.foldl (fun s (x, g) =>
        if x = id then s
        else s.setHc x { g with passes := g.passes + 1, ep := if g.passes + 1 = 16 then 7 else g.ep }) s
      let s := fr.foldl (fun s (x, _) => s.modHc x fun g => { g with yielded := false }) s
      s.setHc id { h with hstate := .running, ep := h.prio s, passes := 0, lastRun := s.clk + 1, yielded := false }

/-! ### Streams between bundles (R214, R215) -/

/-- The next element that a generator may read ahead. -/
def nextAhead (q : Strm) (r : StrmRec) : Option Nat :=
  (List.range 512).findSome? fun i =>
    let e := q.pos + i
    if (!r.wrap && decide (r.total ≤ e)) || q.met.isSome then none
    else if (aget q.ahead (if r.wrap then e % r.total else e)).isSome then none else some e

/-- STREAM_READ_AHEAD: one more element of an input stream is read, unless the herd-context is saved (R216). A failure
shows at the pop; a stage-2 fault is reported to the partition manager once (R378). -/
def readAhead (s : State) (id mi qn : Nat) : State :=
  match s.hc? id with
  | none => s
  | some h =>
    match h.member? mi with
    | none => s
    | some m =>
      let q := m.strm qn
      match q.recd with
      | none => s
      | some r =>
        if r.dirOut || r.fem != 0 || h.hstate == .saved then s
        else match nextAhead q r with
          | none => s
          | some e =>
            let u : StrmUse := ⟨h.who s, m.core, q.sys⟩
            if elemPaused s u r e then s
            else match fetchElem s u q r e with
              | .error f =>
                let s := if f.cause = .xlateS2 then noteStage2 s h (elemTrap 0 qn e 0 r.unit r.intent.toNat f) else s
                s.modMember id mi (·.setStrm qn { q with met := some e })
              | .ok (s, q, d, t) =>
                let key := if r.wrap then e % r.total else e
                s.modMember id mi (·.setStrm qn { q with ahead := aset q.ahead key (d, t) })

/-- The aligned 8-byte word that a place lies in. -/
def Loc.word : Loc → Nat × Nat
  | .mem a => (0, a / 8)
  | .sp c a => (c + 1, a / 8)

/-- Whether two pushed elements that set the bit full lie in one word: that word is written whole (R215). -/
def OutElem.joins (x y : OutElem) : Bool := x.setFull && y.setFull && x.loc.word == y.loc.word

/-- STREAM_OUTPUT_WRITE: the oldest pushed element of an output stream is written, a full/empty word with both of its
elements. -/
def writeOldest (s : State) (id mi qn : Nat) : State :=
  match s.hc? id with
  | none => s
  | some h =>
    match h.member? mi with
    | none => s
    | some m =>
      match (m.strm qn).out with
      | [] => s
      | x :: r =>
        match writeOut s (h.who s) (x :: r.takeWhile x.joins) with
        | some s => s.modMember id mi fun m => m.setStrm qn { m.strm qn with out := r.dropWhile x.joins }
        | none => waitForStage s h

/-- Write every pushed element of a herd-context; none when the staging area has no record left. -/
def flushStreams (s : State) (id : Nat) : Option State :=
  let s := flushPushes s id
  if ((s.hc? id).map (·.pushed)).getD false then none else some s

/-! ### Stops (R85, R86, R313, R367) -/

/-- Whether the herd-context's next bundle is a D bundle whose encoding checks pass and whose drain wait has ended. -/
def atDrainPoint (s : State) (id : Nat) (h : HerdCtx) : Bool :=
  match bundleAtPc s h, h.rb with
  | some b, none =>
    b.h.d && (encodingFault s h b (h.sys s)).isNone && !drainBusy s id h && h.members.all (·.inflight.isEmpty)
  | _, _ => false

/-- Start a save: the herd-context is SAVED, and its slot stays occupied until the save is written. -/
def startSave (s : State) (id : Nat) (h : HerdCtx) : State :=
  s.setHc id { h with
    hstate := .saved, saving := true, stop := none, wait := none, restoreWait := h.wait, feTries := 0,
    members := h.members.map fun m =>
      { m with inflight := m.inflight.map fun p => { p with landed := true }, consume := none } }

/-- DRAIN_POINT_STOP. -/
def drainStop (s : State) (id : Nat) : State :=
  if ((s.hc? id).map (·.hstate != .running)).getD false then s
  else
  let s := landAll s id
  match s.hc? id with
  | none => s
  | some h =>
    match h.stop with
    | some (.preempt _) =>
      if h.hstate == .running && atDrainPoint s id h then startSave s id h else s
    | _ => s

/-- Whether issuing what stands at the PC would trap: then the trap is taken and a forced stop waits (R367). -/
def wouldTrap (s : State) (id : Nat) : Bool :=
  match s.hc? id with
  | none => false
  | some h => (((fetchNext s id h).hc? id).map (·.hstate == .frozen)).getD false

/-- Whether the next bundle holds a native routine that would act. -/
def nativeNext (s : State) (id : Nat) (h : HerdCtx) : Bool :=
  match bundleAtPc s h with
  | none => false
  | some b => b.routines.any fun (k, i) => match routineCall s id h b k i with
    | some r => r.e.native && r.acts
    | none => false

/-- FORCED_STOP: the herd-context is frozen at the bundle it would issue next and saved. A bundle that would trap traps
instead, once what is late has landed (R367); a forced stop that meets a native routine may wait for it, and then stops at
one of its equivalence points or at its completion (R45, log 30). -/
def forceStop (s : State) (id : Nat) : State :=
  let s := landLive s id
  match s.hc? id with
  | none => s
  | some h =>
    if h.stop = some .forced ∧ (h.hstate = .running ∨ h.hstate = .ready ∨ h.hstate = .blocked ∨ h.hstate = .parked) then
      if h.hstate != .running then startSave s id h
      else if wouldTrap s id then fetchNext s id h
      else if h.members.any (fun m => (oldestLate s id h m).isSome) then
        if wouldTrap (settle s id) id then landLate s id else startSave s id h
      else if nativeNext s id h && Config.stopLate (h.seedAt 0) then fetchNext s id h
      else startSave s id h
    else s

/-- Virtual cycles that a pre-emption request waits for a drain point (R313). -/
def preemptLimit : Nat := 65536

/-- PREEMPT_STOP_TIMEOUT: a request that met no drain point in time, or a victim that blocked or parked first. -/
def preemptTimeout (s : State) (id : Nat) : State :=
  match s.hc? id with
  | none => s
  | some h =>
    match h.stop with
    | some (.preempt v) =>
      if v + preemptLimit ≤ h.vcc ∨ h.hstate = .blocked ∨ h.hstate = .parked then s.setHc id { h with stop := some .forced }
      else s
    | _ => s

/-- Whether a herd-context has bundles of its end still to run: its E bundle has committed (R55, R89). -/
def HerdCtx.ending (h : HerdCtx) : Bool :=
  h.hstate == .retiring || h.hstate == .done || h.links.any (fun l => l.post.fin || (l.rb.map (·.post.fin)).getD false) ||
    (h.rb.map (·.post.fin)).getD false

/-- A pre-emption request (R313): BLOCKED and PARKED herd-contexts by a forced stop at once; ignored after the E bundle. -/
def requestStop (s : State) (id : Nat) : State :=
  match s.hc? id with
  | none => s
  | some h =>
    if h.ending then s
    else match h.hstate with
      | .running => s.setHc id { h with stop := some (.preempt h.vcc) }
      | .ready => s.setHc id { h with stop := some (.preempt h.vcc) }
      | .blocked => s.setHc id { h with stop := some .forced }
      | .parked => s.setHc id { h with stop := some .forced }
      | .frozen => s.setHc id { h with stop := some (.preempt h.vcc) }
      | _ => s

/-! ### Claims (R228) -/

/-- The claims that a herd-context's slot holds on a core are released. -/
def releaseTiles (c : Core) (slot : Nat) : Core :=
  { c with oslots := c.oslots.map fun (o, x) => (o, if x.cl && x.owner == slot then { x with cl := false } else x),
           accs := c.accs.map fun (a, x) => (a, if x.cl && x.owner == slot then { x with cl := false } else x) }

/-- Release every claim of a herd-context on its member cores. -/
def releaseClaims (s : State) (h : HerdCtx) : State :=
  h.members.foldl (fun s m => s.setCore m.core (releaseTiles (s.core m.core) h.slot)) s

/-! ### Retirement (R89) -/

/-- HERD_RETIRE: every queue fed is empty and no claimed tile is busy, so claims are released and the herd-context is
DONE. -/
def retire (s : State) (id : Nat) : State :=
  match s.hc? id with
  | none => s
  | some h =>
    if h.hstate != .retiring || drainBusy s id h then s
    else match flushStreams s id with
      | none => waitForStage s h
      | some s =>
        let s := releaseClaims s h
        s.modHc id fun h => { h with hstate := .done, links := [], loops := [], spill := [],
                                     members := h.members.map fun m => { m with inflight := [] } }

/-! ### Full/empty retries (R201) -/

/-- The held bundle of a RUNNING herd-context that retries full/empty attempts is issued again; `spent` tells whether its
budget is used up (R201). -/
def retryFe (s : State) (id : Nat) (spent : Bool) : State :=
  match s.hc? id with
  | none => s
  | some h =>
    if h.hstate == .running && decide (0 < h.feTries) && (decide (h.feBudget.toNat ≤ h.feTries) == spent) then
      match bundleAtPc s h with
      | some b => issueBundle s id b
      | none => s
    else s

end Sys2Proof.Machine
end

