-- ==== Sys2Proof/Machine/Nodes.lean ====
section
/-! DEFINITION. Node descriptors and the sequencer: arming and its checks, firing, placement and pre-emption, copy, counter
and conditional nodes, commit, rollback and halting (R40, R72..R80, R89, R96, R224, R291, R292, R301..R313, R403, R424). -/

namespace Sys2Proof.Machine

/-! ### The fault log and halting (R310, R363) -/

/-- Append a record to a partition's fault log; its base is guest-physical, and the count of records stands before it. -/
def faultLog (s : State) (part : Nat) (words : List Word) : State :=
  match s.part? part with
  | none => s
  | some p =>
    let base := p.cfg.faultLog.toNat
    match gpaPa s p (base - 8) with
    | .error _ => s
    | .ok cpa =>
      let n := (mem64 s cpa).toNat
      let s := match gpaPa s p (base + 128 * (n % 64)) with
        | .ok pa => putFw s part pa (wordsBytes words)
        | .error _ => s
      putFw s part cpa (bytesOf 8 ((n + 1) % 2 ^ 64))

/-- Append a record to the partition manager's stage-2 log and raise its event counter (R378). -/
def stage2Log (s : State) (part : Nat) (words : List Word) : State :=
  { appendRing s (((s.part? part).map (·.cfg.s2Log.toNat)).getD 0) words with mgrEvents := s.mgrEvents + 1 }

/-- A record without what a stage-2 fault shows of the manager's tables: ADDR2, ENTRY and ENTRYADDR are 0 (R378). -/
def blanked (words : List Word) : List Word := lset (lset (lset words 9 0) 12 0) 13 0

/-- The record of a fault that the sequencer meets for a node: SLOT 0, PC 0 (R304, R309). -/
def nodeRecord (s : State) (part node : Nat) (t : Trap) : List Word :=
  let w (x : Nat) : Word := BitVec.ofNat 64 x
  [w t.cause.code, 0, 0, t.addr, w (part % 64 * 2 ^ 16 + node % 4096 * 2 ^ 22), 0, 0,
   w (t.elem % 2 ^ 32 + t.stream % 16 * 2 ^ 32 + t.handle % 16 * 2 ^ 36),
   ((s.part? part).map (·.epoch)).getD 0, t.addr2, 0] ++ t.data

/-- Take herd-contexts out of the device: their claims, their restore entries and their records go. -/
def removeHcs (s : State) (ids : List Nat) : State :=
  let s := ids.foldl (fun s id => match s.hc? id with
    | some h => if h.hstate == .saved && !h.saving then s else releaseClaims s h
    | none => s) s
  { s with hctxs := s.hctxs.filter fun (x, _) => !ids.contains x,
           parts := s.parts.map fun (k, p) => (k, { p with restore := p.restore.filter fun x => !ids.contains x }),
           dies := s.dies.map fun d => { d with trapQ := d.trapQ.filter fun r => !ids.contains r.hc } }

/-- The records that an instance holds in the staging area are freed (R292); whoever waited for one is no longer held, and
tries again. -/
def freeRecords (s : State) (part : Nat) (i : Inst) : State :=
  s.modPart part (·.freeStage i.records.length)

/-- The elements that committed bundles of herd-contexts have pushed are written (R215). -/
def flushAll (s : State) (ids : List Nat) : State :=
  ids.foldl (fun s id => flushPushes s id) s

/-- Whether what a move of a staged node's copy writes is staged: device memory, not host memory (R191, R291). -/
def Move.toMemory (m : Move) : Bool := match m.dst with | .mem pa => !isHostPa pa | .sp _ _ => false

/-- A queued copy of a discarded instance runs on (R282), but what it would stage is discarded with the rest (R291). -/
def CopyCmd.unstaged (x : CopyCmd) : CopyCmd :=
  match x.op with
  | .cpy moves 0 ctr => { x with
      op := .cpy ((moves.drop x.done).filter fun m => !m.toMemory) 0 ctr, done := 0, beat := none }
  | _ => x

/-- The copies of a staged instance that is discarded stage nothing more. -/
def unstageCopies (s : State) (part node : Nat) : State :=
  if ((s.node? part node).map (·.staged)).getD false then
    { s with copyQ := s.copyQ.map fun (e, l) =>
        (e, l.map fun x => if x.part == part && x.node == node then x.unstaged else x) }
  else s

/-- Discard the instance in flight: staged writes, records and herd-contexts. -/
def discardInst (s : State) (part node : Nat) : State :=
  let s := flushAll s (((s.inst? part node).map (·.hcs)).getD [])
  match s.inst? part node with
  | none => s
  | some i =>
    (removeHcs (unstageCopies (freeRecords s part i) part node) i.hcs).modNode part node fun n => { n with inst := none }

def setNState (s : State) (part node : Nat) (x : NState) : State := s.modNode part node fun n => { n with state := x }

/-- Take a node out of every ready queue of its partition. -/
def unqueue (s : State) (part node : Nat) : State :=
  s.modPart part fun p => { p with queues := p.queues.map fun q => q.filter (· != node) }

/-- Herd-contexts parked on a regeneration of a node that halted or was refused are held with FAILED = 1 (R388). -/
def failRegens (s : State) (part node : Nat) : State :=
  match s.part? part with
  | none => s
  | some p =>
    let ts := (p.regens.filter fun r => r.node == node).map fun r => (r.entry, r.target)
    let s := s.modPart part fun p => { p with regens := p.regens.filter fun r => r.node != node }
    s.hctxs.foldl (fun s (id, h) =>
      match h.parked with
      | some (.regen e _ _ t) =>
        if h.part = part ∧ ts.contains (e, t) then
          let rec0 := h.trap.map fun r =>
            let d := lset r.trap.data 0 (r.trap.data.headD 0 ||| BitVec.ofNat 64 (2 ^ 18))
            { r with trap := { r.trap with data := d }, words := r.words.take 11 ++ d }
          let s := match rec0 with | some r => faultLog s part r.words | none => s
          raiseEvent (s.setHc id { h with hstate := .frozen, parked := none, held := true, trap := rec0 }) part
        else s
      | _ => s) s

/-- A node becomes HALTED (R310): its instance is discarded, the event counter rises, and the sequencer fires and places
nothing more of the partition. R303 would free a node whose disarm is pending once its instance is discarded, Table 15.5 frees
a HALTED node only by the release: that it stays HALTED is the model's choice (DESIGN CHOICE, log 53). -/
def haltNode (s : State) (part node : Nat) : State :=
  let s := unqueue (discardInst s part node) part node
  let s := setNState s part node .halted
  let s := s.modPart part fun p => { p with halted := true }
  raiseEvent (failRegens s part node) part

/-- A fault that the sequencer meets for a node (R304, R307, R309): the record goes to the fault log, of a stage-2 fault to
the manager's log and blanked to the partition's, and the node becomes HALTED. -/
def nodeFault (s : State) (part node : Nat) (t : Trap) : State :=
  let r := nodeRecord s part node t
  let s := if t.cause = .xlateS2 then faultLog (stage2Log s part r) part (blanked r) else faultLog s part r
  haltNode s part node

/-- An add that the sequencer makes to a counter of a node; one whose mapping has been removed faults (R307). -/
def nodeAdd (s : State) (part node va : Nat) (v : BitVec 32) : Except State State :=
  if va = 0 then .ok s
  else match reach s part true va 3 with
    | .ok (s, pa) => .ok (counterAdd s (Who.agent part) pa v none)
    | .error f => .error (nodeFault s part node
        (memTrap f.1 0 (BitVec.ofNat 64 va) (memData0 8 false false f.2 false false 3 0) f.2))

/-! ### Arming (R303, R307, Table 15.4) -/

/-- A descriptor's field before it is stored. -/
def dfield (d : List Byte) (o k : Nat) : Nat := leAt d o k

/-- Clusters of a partition on a die. -/
def dieClusters (p : Part) (d : Nat) : List Nat := ((List.range 12).map (12 * d + ·)).filter fun g => p.cfg.clusters.getLsbD g

/-- Reserved bytes and bits that are not 0 (cause 0x01). -/
def reservedSet (d : List Byte) : Bool :=
  let k := dfield d 0 1
  6 ≤ k || 8 ≤ dfield d 1 1 || 16 ≤ dfield d 2 1 || dfield d 3 1 != 0 || dfield d 4 4 != 0 || dfield d 124 4 != 0 ||
    dfield d 192 32 != 0 || ((k == 1 || k == 3 || k == 5) && dfield d 144 48 != 0) ||
    (k == 2 && dfield d 162 30 != 0) || (k == 4 && dfield d 161 7 != 0)

/-- The loop table breaks R73 (cause 0x02). -/
def loopsBad (d : List Byte) : Bool :=
  let n := min 6 (fpNlev (dfield d 24 8))
  let es := (List.range n).map fun l => dfield d (32 + 8 * l) 8
  let kind (e : Nat) : Nat := e / 2 ^ 32 % 4
  es.any (fun e => kind e == 3 || 2 ^ 34 ≤ e) || 1 < (es.filter fun e => kind e == 1).length ||
    1 < (es.filter fun e => kind e == 2).length

/-- Cores of a frame of the footprint. -/
def frameSize (d : List Byte) : Nat :=
  let h := fpHsize (dfield d 24 8)
  if (dfield d 2 1).testBit 2 then 2 * h else h

/-- The footprint breaks R75 (cause 0x03). -/
def footprintBad (p : Part) (d : List Byte) : Bool :=
  let f := dfield d 24 8
  let h := fpHsize f
  let nh := fpNherd f
  let dies := (List.range 4).filter fun x => (fpDmask f).testBit x
  f.testBit 63 || f.testBit 23 || fpDmask f == 0 || h == 0 || 12 < h || nh == 0 || fpNlev f == 7 ||
    ((dfield d 2 1).testBit 2 && 6 < h) ||
    dies.any (fun x =>
      let c := (dieClusters p x).length
      c == 0 || 12 * c < nh * h || c * (12 / max 1 (frameSize d)) < nh) ||
    2 < fpCtxl f || fpB2 f < fpB1 f || fpB3 f < fpB2 f || 4096 < fpB3 f || 257 * fpB1 f / (256 * fpCtxn f) < 16

/-- The image that a descriptor names, when it may be armed. -/
def descImage (p : Part) (d : List Byte) : Option Image :=
  p.images.find? fun im => im.handle == BitVec.ofNat 64 (dfield d 8 8)

/-- IMAGE or ENTRY is bad (cause 0x04). -/
def imageBad (p : Part) (d : List Byte) : Bool :=
  match descImage p d with
  | none => true
  | some im => (im.at (im.base + BitVec.ofNat 64 (dfield d 16 8))).isNone || dfield d 16 8 % 8 != 0 ||
      2 ^ 32 ≤ dfield d 16 8

/-- The shadow areas do not fit (cause 0x05, R40). -/
def shadowBad (p : Part) (d : List Byte) : Bool :=
  let f := dfield d 24 8
  match descImage p d with
  | none => true
  | some im => decide (1028 * (fpB3 f - fpB2 f) / 2056 * 2056 < fpCtxn f * im.shr)

/-- Whether an address translates under an intent at firmware's privilege. -/
def reaches (s : State) (part a : Nat) (i : BitVec 2) : Bool := (translate s part true a i).toOption.isSome

/-- A nonzero counter address that is bad (cause 0x06). -/
def counterBad (s : State) (part a : Nat) : Bool := a != 0 && (a % 8 != 0 || !reaches s part a 3)

/-- Bytes of one member block of a save area (R306). -/
def memberBlock (nv shr : Nat) : Nat := 1024 * nv + shr + 1236992

/-- Bytes of the save area of a descriptor (R306). -/
def saveBytes (p : Part) (d : List Byte) : Nat :=
  let f := dfield d 24 8
  dieCount (fpDmask f) * fpNherd f * fpCtxn f * fpHsize f * memberBlock (fpNv f) (((descImage p d).map (·.shr)).getD 0)

/-- Whether the save area translates with intent 1. -/
def saveReaches (s : State) (part : Nat) (d : List Byte) : Bool :=
  match s.part? part with
  | none => false
  | some p => (reachRange s part true (dfield d 136 8) (saveBytes p d) 1).toOption.isSome

/-- The first check of Table 15.4 that a descriptor fails. -/
def refusal (s : State) (part : Nat) (p : Part) (d : List Byte) : Option Nat :=
  let k := dfield d 0 1
  let run := k == 1 || k == 5
  let jcb := dfield d 128 8
  if reservedSet d then some 1
  else if run && loopsBad d then some 2
  else if run && footprintBad p d then some 3
  else if run && imageBad p d then some 4
  else if run && shadowBad p d then some 5
  else if counterBad s part (dfield d 88 8) || counterBad s part (dfield d 112 8) ||
      (k == 4 && (counterBad s part (dfield d 168 8) || counterBad s part (dfield d 176 8))) then some 6
  else if run && dfield d 136 8 != 0 && (dfield d 136 8 % 65536 != 0 || !saveReaches s part d) then some 7
  else if (jcb != 0 && !reaches s part (jcb / 64 * 64) 2) ||
      (k == 4 && (!reaches s part (dfield d 144 8) 0 || 9 < dfield d 160 1)) ||
      (k == 2 && (3 < dfield d 160 1 || 15 < dfield d 161 1)) then some 8
  else if (k == 5 && dfield d 88 8 != 0) || (1 ≤ k && k ≤ 4 && dfield d 88 8 == 0) then some 9
  else none

/-- A FREE descriptor (R301). -/
def Node.free : Node :=
  { desc := List.replicate 224 0, state := .free, cause := 0, last := false, owed := 0, donen := 0, launch := 0,
    disarm := false, inst := none, requeues := 0, rollback := none, watch := none, joined := 0 }

def Part.node (p : Part) (n : Nat) : Node := (aget p.nodes n).getD Node.free

/-- The descriptor's bytes 0..223, whatever length was written. -/
def descBytes (l : List Byte) : List Byte := (List.range 224).map fun i => l.getD i 0

/-- Where the fire counter of a descriptor stands. -/
def firePlace (s : State) (part : Nat) (d : List Byte) : Option Nat :=
  (translate s part true (dfield d 88 8) 3).toOption.map fun pg => pg.pa (dfield d 88 8)

/-- DESCRIPTOR_ARM (R303, R307): bytes 1..223 of a FREE descriptor and then KIND are written; a nonzero KIND is checked. A node
whose checks pass joins the waiter list of its fire counter, where it stays although the mapping may go; a counter that has
reached THRESH already is seen in the order of the adds. -/
def armNode (s : State) (part node : Nat) (l : List Byte) : State :=
  match s.part? part with
  | none => s
  | some p =>
    let n := p.node node
    if n.state ≠ .free ∨ 4096 ≤ node then s
    else
      let d := descBytes l
      let put (n : Node) : State := s.modPart part fun p => { p with nodes := aset p.nodes node n }
      if dfield d 0 1 = 0 then put { Node.free with desc := d }
      else match refusal s part p d with
        | some c => raiseEvent (failRegens (put { Node.free with desc := d, state := .refused, cause := BitVec.ofNat 8 c }) part node) part
        | none =>
          let pa := if dfield d 0 1 = 5 then none else firePlace s part d
          let s := put { Node.free with desc := d, state := .armed, watch := pa, joined := s.clk }
          match pa with
          | none => s
          | some a => if dfield d 96 8 ≤ (mem64 s a).toNat then noteAdd s a (mem64 s a).toNat else s

/-- A node whose KIND has been written with 0 becomes FREE; the instances owed for regeneration entries are dropped with its
other owed firings (R303). -/
def freeNode (s : State) (part node : Nat) : State :=
  let s := s.modPart part fun p => { p with regens := p.regens.filter fun r => r.node != node }
  unqueue (s.modNode part node fun n => { Node.free with desc := 0 :: n.desc.drop 1 }) part node

/-- DESCRIPTOR_DISARM (R303): at once in ARMED, DONE and REFUSED, after the instance in flight in READY, RUNNING and
COMMIT; ignored in HALTED. -/
def disarmNode (s : State) (part node : Nat) : State :=
  match s.node? part node with
  | none => s
  | some n =>
    match n.state with
    | .armed => freeNode s part node
    | .done => freeNode s part node
    | .refused => freeNode s part node
    | .ready => s.modNode part node fun n => { n with disarm := true }
    | .running => s.modNode part node fun n => { n with disarm := true }
    | .commit => s.modNode part node fun n => { n with disarm := true }
    | _ => s

/-! ### Firing (R308, R309) -/

/-- The JCB and the finish counter that a node's JCBW names, or the trap (R309): a FINCTR that does not translate is a fault
of the block (Table 22.1), a page of the block that is gone a memory fault. -/
def nodeJcb (s : State) (part : Nat) (n : Node) : Except Trap (State × Nat × Nat) :=
  let a := n.field 128 8 / 64 * 64
  match reach s part true a 2 with
  | .error f => .error (memTrap f.1 0 (BitVec.ofNat 64 a) (memData0 64 false false f.2 false false 2 0) f.2)
  | .ok (s, pa) =>
    let s := drainJobs s pa
    if unsent s (Who.agent part) (.mem pa) then .ok (s, pa, 0)
    else
    let va := view64 s (Who.agent part) (pa + 24)
    let bad (c : Cause) : Trap := engineTrap c 0 0 6 24 va (BitVec.ofNat 64 a) 0
    match reach s part true va.toNat 3 with
    | .error f => .error (bad f.1)
    | .ok (s, fin) => if va.toNat % 8 ≠ 0 then .error (bad .misalign) else .ok (s, pa, fin)

/-- A JEXP or JDONE that the sequencer makes for a node (R309): when it would trap, the JCB is unchanged, the record names the
value at fault as a routine's would, and the node is halted. -/
def nodeJob (s : State) (part node : Nat) (n : Node) (done : Bool) (v : Word) : Except State State :=
  let a := BitVec.ofNat 64 (n.field 128 8 / 64 * 64)
  let p := n.field 128 8 % 64
  match nodeJcb s part n with
  | .error t => .error (nodeFault s part node t)
  | .ok (s', pa, fin) =>
    let at' (o : Nat) : Word := view64 s' (Who.agent part) (pa + o)
    match jcbStep s' (Who.agent part) done pa fin p ⟨v, none⟩ with
    | .ok s => .ok s
    | .error .jcbClosed => .error (nodeFault s part node (engineTrap .jcbClosed 0 0 6 16 (at' 16) a (BitVec.ofNat 64 p)))
    | .error c => .error (nodeFault s part node (engineTrap c 0 0 6 0 (at' 0) a 0))

/-- Write a field of a descriptor. -/
def Node.setField (n : Node) (o k v : Nat) : Node :=
  { n with desc := n.desc.take o ++ bytesOf k v ++ n.desc.drop (o + k) }

/-- Append a node to its priority's queue; `front` puts it at the head. -/
def enqueueNode (s : State) (part node prio : Nat) (front : Bool) : State :=
  s.modPart part fun p =>
    { p with queues := lset p.queues prio (if front then node :: p.queues.getD prio [] else p.queues.getD prio [] ++ [node]) }

/-- One pass of the loop of R308 at a value `v` of the fire counter. -/
def firePass (s : State) (part node v : Nat) : State :=
  match s.part? part, s.node? part node with
  | some p, some n =>
    if !mayFire p n v then s
    else
      let th := n.field 96 8
      let st := n.field 104 8
      let n := if st = 0 ∨ 2 ^ 64 ≤ th + st then { n with last := true } else n.setField 96 8 (th + st)
      let fresh := n.state == .armed
      let n := if fresh then { n with state := .ready, requeues := 0, rollback := none }
        else { n with owed := if n.owed = BitVec.allOnes 32 then n.owed else n.owed + 1 }
      let s := s.modNode part node fun _ => n
      let s := if fresh then enqueueNode s part node n.prio false else s
      if n.field 128 8 = 0 then s
      else match nodeJob s part node n false 1 with | .ok s => s | .error s => s
  | _, _ => s

/-- The passes of the loop of R308, while the value is at or above THRESH and LAST is 0. -/
def fireLoop (part node v : Nat) : Nat → State → State
  | 0, s => s
  | k + 1, s =>
    match s.part? part, s.node? part node with
    | some p, some n => if mayFire p n v then fireLoop part node v k (firePass s part node v) else s
    | _, _ => s

/-- Passes that the loop can make: each raises THRESH, or is the last. -/
def firePasses (s : State) (part node v : Nat) : Nat :=
  match s.node? part node with
  | some n => (v + 1 - n.field 96 8) / max 1 (n.field 104 8) + 1
  | none => 0

/-- Every node that watches a counter fires as often as a value of it allows, in increasing node index (R308, R312). -/
def fireAll (s : State) (pa v : Nat) : State :=
  (watchers s pa).foldl (fun s (p, k) => fireLoop p k v (firePasses s p k v) s) s

/-- Whether every node that would fire at a counter stands there behind a waiter that could go on: nodes fire together, at
the place of the first of them in the waiter list (R92, R312). -/
def firesBehind (s : State) (pa : Nat) : Bool :=
  let l := s.parts.flatMap fun (_, p) =>
    (p.nodes.filter fun (_, n) => n.watch == some pa && mayFire p n (fireValue s pa)).map (·.2.joined)
  !l.isEmpty && l.all (entryAhead s none pa)

/-- NODE_FIRE (R308, R312): the nodes that watch the node's fire counter see its oldest add that they have not seen, so that
nodes are queued in the order of the adds; with none left they see what the counter holds. Nothing of a halted partition
fires. -/
def fireNode (s : State) (part node : Nat) : State :=
  match s.part? part, (s.node? part node).bind (·.watch) with
  | some p, some pa =>
    if p.halted || firesBehind s pa then s
    else fireAll { s with adds := s.adds.eraseP fun x => x.1 == pa } pa (fireValue s pa)
  | _, _ => s

/-! ### Completion of an instance (R308) -/

/-- Steps 3 to 5 of R308 for an instance that has committed. -/
def finishRest (s : State) (part node : Nat) : State :=
  match s.node? part node with
  | none => s
  | some n =>
    let n := { n with donen := n.donen + 1, inst := none, requeues := 0, rollback := none }
    let s := s.modNode part node fun _ => n
    let s := s.modPart part fun p => { p with regens := p.regens.filter fun r => !(r.node == node && r.launched) }
    let job := if n.last ∧ n.owed = 0 ∧ n.field 128 8 ≠ 0 then nodeJob s part node n true n.donen else .ok s
    match job with
    | .error s => s
    | .ok s =>
      if n.disarm then freeNode s part node
      else if n.owed ≠ 0 then
        enqueueNode (s.modNode part node fun n => { n with state := .ready, owed := n.owed - 1 }) part node n.prio false
      else setNState s part node (if n.last then .done else .armed)

/-- Steps 2 to 5 of R308 for an instance that has committed; a DONECTR whose mapping is gone faults (R307). -/
def finishInst (s : State) (part node : Nat) : State :=
  match s.node? part node with
  | none => s
  | some n =>
    match nodeAdd s part node (n.field 112 8) (BitVec.ofNat 32 (n.field 120 4)) with
    | .ok s => finishRest s part node
    | .error s => s

/-- A fresh instance of a node. -/
def startInst (s : State) (part node : Nat) (n : Node) : State :=
  let i : Inst :=
    { id := s.nextInst, hcs := [], staged := [], stagedTag := [], records := [], irrev := n.irrevFlag, waitStage := false,
      retCir := 0, regen := none, placedAt := s.clk, pend := none }
  let n := { n with inst := some i, state := .running, launch := if n.requeues = 0 then n.launch + 1 else n.launch }
  unqueue ({ s.modNode part node (fun _ => n) with nextInst := s.nextInst + 1 }) part node

/-- The head of the highest non-empty ready queue. -/
def queueHead (p : Part) : Option Nat := (p.queues.reverse.find? fun q => !q.isEmpty).bind (·.head?)

/-- Whether a node of a kind leaves its queue now. -/
def isHead (s : State) (part node kind : Nat) : Bool :=
  match s.part? part, s.node? part node with
  | some p, some n => queueHead p == some node && !p.halted && n.kind == kind && n.state == .ready
  | _, _ => false

/-! ### Counter and conditional nodes (R304) -/

/-- COUNTER_NODE_RUN. -/
def runCounterNode (s : State) (part node : Nat) : State :=
  match s.node? part node with
  | none => s
  | some n =>
    if isHead s part node 3 then finishInst (setNState (startInst s part node n) part node .commit) part node else s

/-- A condition of Table 3.6 on two 64-bit words. -/
def condHolds (n : Nat) (a b : Word) : Bool := condOf n (a.slt b) (a.ult b) (a == b)

/-- CONDITIONAL_NODE_RUN: the word is read, then one branch's value is added; an add value of 0 adds nothing. An access that
does not translate halts the node as a fatal error. -/
def runConditionalNode (s : State) (part node : Nat) : State :=
  match s.node? part node with
  | none => s
  | some n =>
    if isHead s part node 4 then
      let s := startInst s part node n
      let wa := n.field 144 8
      match (if wa % 8 = 0 then reach s part true wa 0 else .error (.misalign, WalkInfo.nowalk)) with
      | .error (c, wi) =>
        nodeFault s part node (memTrap c 0 (BitVec.ofNat 64 wa) (memData0 8 false false wi false false 0 0) wi)
      | .ok (s, pa) =>
        let v := seen64 s (Who.agent part) pa
        let s := arrive s (Who.agent part) pa 8
        let yes := condHolds (n.field 160 1) v (BitVec.ofNat 64 (n.field 152 8))
        let add := if yes then n.field 184 4 else n.field 188 4
        let ctr := if yes then n.field 168 8 else n.field 176 8
        match nodeAdd s part node (if add = 0 then 0 else ctr) (BitVec.ofNat 32 add) with
        | .ok s => finishInst (setNState s part node .commit) part node
        | .error s => s
    else s

/-! ### Copy nodes (R304) -/

/-- The cluster whose engine 0 performs a partition's copy nodes. -/
def firstCluster (p : Part) : Nat := ((List.range 48).find? fun g => p.cfg.clusters.getLsbD g).getD 0

/-- Read one stream record in device memory. -/
def nodeStream (s : State) (part a : Nat) : Except (Cause × WalkInfo) (State × StrmRec) :=
  match reachRange s part true a 64 0 with
  | .error (_, f) => .error f
  | .ok (s, pas) =>
    let w := Who.agent part
    .ok (s, parseRecord ((List.range 64).map fun k => viewByte s w (granAddr pas a k)))

/-- The moves of a copy node's CPY and the block-table entries of its walks, or the trap of its first failing check (R262). -/
def nodeMoves (s : State) (part : Nat) (p : Part) (n : Node) : Except Trap (State × List Move × List Nat) :=
  let mode := n.field 160 1
  let core := 12 * firstCluster p
  let u : StrmUse := ⟨⟨part, none, false⟩, core, false⟩
  let recTrap (o v : Nat) : Trap := engineTrap .engineParam 0 0 6 o (BitVec.ofNat 64 v) 0 0
  let xa := n.field 144 8
  let ya := n.field 152 8
  let mem (a : Nat) (f : Cause × WalkInfo) : Trap :=
    memTrap f.1 0 (BitVec.ofNat 64 a) (memData0 64 false false f.2 false false 0 0) f.2
  match nodeStream s part xa with
  | .error f => .error (mem xa f)
  | .ok (s, x) =>
    match nodeStream s part ya with
    | .error f => .error (mem ya f)
    | .ok (s, y) =>
      match x.refused, y.refused with
      | some o, _ => .error (recTrap o (x.value o))
      | _, some o => .error (recTrap o (y.value o))
      | none, none =>
        if x.dirOut then .error (recTrap 43 x.flags.toNat)
        else if !y.dirOut then .error (recTrap 43 y.flags.toNat)
        else match copyRecordBad x y mode with
          | some (o, v) => .error (recTrap o v)
          | none =>
            let words := mode != 0
            let xr := if mode = 3 then x.withFem 1 else x
            let yr := if words then y.withFem 3 else y
            let size := if words then 8 else xr.unit
            match walkPlaces s u xr [] words with
            | .error (e, f) => .error (elemTrap 0 0 e 0 size xr.intent.toNat f)
            | .ok (s, l, ex) =>
              match walkPlaces s u yr [] words with
              | .error (e, f) => .error (elemTrap 0 0 e 0 size yr.intent.toNat f)
              | .ok (s, m, ey) => .ok (s, (l.zip m).map (fun (a, b) => ⟨a, b, size⟩), ex ++ ey)

/-- The engine that performs a partition's copy nodes. -/
def copyNodeEngine (p : Part) : Nat := 2 * firstCluster p

/-- Whether a copy node that was taken before an instance still waits to enter the engine's queue, which is first in, first out
(R312). -/
def copyBefore (s : State) (part node : Nat) : Bool :=
  match s.part? part, s.inst? part node with
  | some p, some i => p.nodes.any fun (k, n) => k != node && match n.inst with
    | some j => j.pend.isSome && decide (j.id < i.id)
    | none => false
  | _, _ => false

/-- A copy node's CPY enters its engine's queue, in the order in which copy nodes are taken, when the queue and the scoreboards
have room. -/
def sendNodeCopy (s : State) (part node : Nat) (p : Part) (mode : Nat) (l : List Move) (es : List Nat) : State :=
  let eng := copyNodeEngine p
  if copyBefore s part node then s
  else if copyQueueMax ≤ (s.copyCmds eng).length ∨ scoresFit s (copyScores l) = false then s
  else (enqCopy s eng none 0 part node true (.cpy l mode none) (copyScores l) es).modInst part node
    fun i => { i with pend := none }

/-- COPY_NODE_RUN: the node leaves the queue at once, and one CPY with acq and rel goes to engine 0 of the partition's lowest
cluster, as soon as that engine has room; a failed check is a fatal error (R304, R312). -/
def runCopyNode (s : State) (part node : Nat) : State :=
  match s.part? part, s.node? part node with
  | some p, some n =>
    if isHead s part node 2 then
      match nodeMoves s part p n with
      | .error t => nodeFault (startInst s part node n) part node t
      | .ok (t, l, es) =>
        sendNodeCopy ((startInst t part node n).modInst part node fun i => { i with pend := some (l, es) })
          part node p (n.field 160 1) l es
    else match n.inst.bind (·.pend) with
      | some (l, es) => sendNodeCopy s part node p (n.field 160 1) l es
      | none => s
  | _, _ => s

/-- Whether a copy node's CPY has completed. -/
def copyNodeDone (s : State) (part node : Nat) : Bool :=
  ((s.inst? part node).map (·.pend.isNone)).getD true &&
  !(s.copyQ.any fun (_, l) => l.any fun x => x.hc.isNone && x.part == part && x.node == node)

/-! ### Placement (R40, R72..R80, R96, R305, R312) -/

/-- Cores that a herd-context's frame takes: with the shadows of a checked node. -/
def frameCores (checked : Bool) (lead hsize : Nat) : List Nat :=
  (List.range (if checked then 2 * hsize else hsize)).map (lead + ·)

/-- Whether a herd-context's frame is the one that a herd with these values would take: the same carve-out (R96), members and
SKEW (R77), checked alike; a checked herd's SKEW is ignored (R305). -/
def HerdCtx.sameFrame (s : State) (h : HerdCtx) (b1 b2 b3 ctxl lead size : Nat) (checked : Bool) (skew : Nat) : Bool :=
  h.b1 == b1 && h.b2 == b2 && h.b3 == b3 && h.ctxl == ctxl && h.leadCore == lead && h.members.length == size &&
    (match s.node? h.part h.node with
      | some m => m.checked == checked && (checked || fpSkew m.footprint == skew)
      | none => false)

/-- Herd-contexts that occupy a slot of a core, but for those of `gone`, which count as saved. -/
def usersBut (s : State) (gone : List Nat) (core : Nat) : List (Nat × HerdCtx) :=
  s.hctxs.filter fun (id, h) =>
    !gone.contains id && h.occupies &&
      (frameCores (((s.node? h.part h.node).map (·.checked)).getD false) h.leadCore h.members.length).contains core

/-- Whether a core's users allow a frame of a node there; `gone` are herd-contexts counted as saved. -/
def coreFree (s : State) (gone : List Nat) (core lead : Nat) (n : Node) : Bool :=
  let f := n.footprint
  let users := usersBut s gone core
  !(s.core core).offline && (s.core core).toRepair.isEmpty &&
  (users.isEmpty ||
    (users.all fun (_, h) =>
      h.sameFrame s (fpB1 f) (fpB2 f) (fpB3 f) (fpCtxl f) lead (fpHsize f) n.checked (fpSkew f)) &&
      decide (fpCtxn f + users.length ≤ fpCtxn f))

/-- Take frames of `size` cores from core `c` on, in increasing order of their lead core. -/
def takeFrames (s : State) (gone : List Nat) (p : Part) (n : Node) (size : Nat) : Nat → Nat → Nat → List Nat
  | 0, _, _ => []
  | fuel + 1, c, stop =>
    if stop ≤ c then []
    else
      let g := c / 12
      if p.cfg.clusters.getLsbD g && decide (c % 12 + size ≤ 12) &&
          ((List.range size).all fun k => coreFree s gone (c + k) c n) then
        c :: takeFrames s gone p n size fuel (c + size) stop
      else takeFrames s gone p n size fuel (c + 1) stop

/-- The lead cores of the frames that a node would take, die by die; none when some die has too few. -/
def findFrames (s : State) (gone : List Nat) (p : Part) (n : Node) : Option (List (Nat × List Nat)) :=
  let f := n.footprint
  let size := if n.checked then 2 * fpHsize f else fpHsize f
  let dies := (List.range 4).filter fun d => (fpDmask f).testBit d
  let per := dies.map fun d => (d, (takeFrames s gone p n size 144 (144 * d) (144 * d + 144)).take (fpNherd f))
  if per.all fun (_, l) => l.length == fpNherd f then some per else none

/-- A member at the start of a node instance (Table 4.5). -/
def Member.start (core seed : Nat) : Member :=
  { core := core, s := ⟨0, none⟩ :: (List.range 63).map fun i => ⟨Config.freeS seed (i + 1), none⟩,
    p := Config.freeP seed, k := BitVec.allOnes 256 :: (List.range 15).map fun i => Config.freeK seed (i + 1), seed := seed,
    v := [], h := List.replicate 16 Handle.none, q := List.replicate 16 ⟨none, false, 0, 0, none, [], [], [], none, []⟩,
    fpstat := 0, cir := 0, args := [], inflight := [], consume := none, feHeld := none, popHeld := [], stuckS := [], stuckV := [] }

/-- A herd-context at the start of a node instance (R79, R80). -/
def HerdCtx.start (part node inst : Nat) (n : Node) (im : Image) (herd dieRank slot rank lead clk serial : Nat) : HerdCtx :=
  let f := n.footprint
  let step := if n.checked then 2 else 1
  { part := part, node := node, inst := inst, herd := herd, dieRank := dieRank, slot := slot, rank := rank,
    jpos := (dieRank * fpNherd f + herd) * fpCtxn f + rank,
    members := (List.range (fpHsize f)).map fun i => Member.start (lead + step * i) (pairNat part (pairNat serial i)), lead := 0,
    image := im.handle, hstate := .ready, wait := none, stop := none, parked := none, trap := none, held := false,
    ep := n.prio, passes := 0, lastRun := 0, placed := clk, vcc := 0, pc := im.base + BitVec.ofNat 64 (n.field 16 8),
    links := [], spill := [], frames := [], rb := none, loops := [], idx := List.replicate 6 0, feBudget := 64,
    defProfile := im.defProfile, feTries := 0, waiteNext := 0, restoreWait := none, saveEpoch := 0, b1 := fpB1 f,
    b2 := fpB2 f, b3 := fpB3 f, ctxl := fpCtxl f, nv := fpNv f, lastFe := none, regenWoken := none, yielded := false,
    saving := false, noRestore := false, savedSlots := [], savedAccs := [], savedShadow := [], waitedAt := 0, unsavable := false,
    serial := serial, fresh := 16 }

/-- Context slots of a core that nobody occupies. -/
def freeSlots (s : State) (core n : Nat) : List Nat :=
  (List.range n).filter fun c => (coreUsers s core).all fun (_, h) => h.slot != c

/-- Place the contexts of one herd. -/
def placeHerd (s : State) (part node : Nat) (n : Node) (im : Image) (dieRank herd lead : Nat) : State :=
  let f := n.footprint
  let cores := frameCores n.checked lead (fpHsize f)
  let slots := (freeSlots s lead (fpCtxn f)).take (fpCtxn f)
  let s := cores.foldl (fun s c =>
    if (coreUsers s c).isEmpty then setCarve s c (fpB1 f) (fpB2 f) (fpB3 f) (fpCtxl f) else s) s
  let s := (List.range im.segs.length).foldl (fun s k => loadOverlay s lead (im.digest, k)) s
  slots.zipIdx.foldl (fun s (slot, rank) =>
    let id := s.nextHc
    let inst := ((s.inst? part node).map (·.id)).getD 0
    let serial := ((s.part? part).map (·.fresh)).getD 0
    let h := HerdCtx.start part node inst n im herd dieRank slot rank lead s.clk serial
    let s := s.modInst part node fun i => { i with hcs := i.hcs ++ [id] }
    wireAll { (s.setHc id h).modPart part (fun p => { p with fresh := p.fresh + 1 }) with nextHc := id + 1 } cores) s

/-- The regeneration request that the next instance of a node serves: one already launched, else the oldest. -/
def nextRegen (p : Part) (node : Nat) : Option RegenReq :=
  match p.regens.find? fun r => r.node == node && r.launched with
  | some r => some r
  | none => p.regens.find? fun r => r.node == node

/-- Hand ARG and the faulting address to a regeneration instance (R224). -/
def handRegen (s : State) (part node : Nat) (n : Node) : State :=
  match (s.part? part).bind fun p => nextRegen p node with
  | none => s
  | some r =>
    let s := s.modPart part fun p =>
      { p with regens := p.regens.map fun x =>
          if x.node == node && x.entry == r.entry && x.target == r.target then { x with launched := true } else x }
    let s := s.modInst part node fun i => { i with regen := some (r.entry, r.arg, r.va) }
    match reachRange s part true (n.field 80 8) 16 1 with
    | .error _ => s
    | .ok (s, pas) =>
      (bytesOf 8 r.arg.toNat ++ bytesOf 8 r.va.toNat).zipIdx.foldl (fun s (b, k) =>
        putFw s part (granAddr pas (n.field 80 8) k) [b]) s

/-- Whether the save area of a herd-context's node translates. -/
def saveOk (s : State) (h : HerdCtx) : Bool :=
  match s.node? h.part h.node with | some n => saveReaches s h.part n.desc | none => false

/-- Herd-contexts of a partition that a head of priority `prio` may pre-empt, if their save areas translate (R313). -/
def mayYield (s : State) (part prio : Nat) (h : HerdCtx) : Bool :=
  h.part == part && decide (h.prio s < prio) && !h.ending &&
    (h.hstate == .running || h.hstate == .ready || h.hstate == .blocked || h.hstate == .parked) &&
    (match s.node? part h.node with | some n => n.field 136 8 != 0 | none => false)

/-- Candidate victims of a pre-emption for a head of priority `prio` (R313), in their order. -/
def victims (s : State) (part prio : Nat) : List Nat :=
  let before (a b : Nat × HerdCtx) : Bool :=
    decide (a.2.prio s < b.2.prio s) || (a.2.prio s == b.2.prio s && decide (b.2.placed < a.2.placed))
  let ins (l : List (Nat × HerdCtx)) (x : Nat × HerdCtx) : List (Nat × HerdCtx) :=
    l.takeWhile (fun y => !before x y) ++ x :: l.dropWhile (fun y => !before x y)
  ((s.hctxs.filter fun (_, h) => mayYield s part prio h && saveOk s h).foldl ins []).map (·.1)

/-- A candidate whose save area no longer translates is not chosen, and the event counter rises by 1 (R403), once for each
herd-context (log 17). -/
def noteUnsavable (s : State) (part prio : Nat) : State :=
  (s.hctxs.filter fun (_, h) => mayYield s part prio h && !saveOk s h && !h.unsavable).foldl (fun s (id, _) =>
    raiseEvent (s.modHc id fun h => { h with unsavable := true }) part) s

/-- Herd-contexts of a partition whose save is being written: their slots are about to be free. -/
def beingSaved (s : State) (part : Nat) : List Nat :=
  (s.hctxs.filter fun (_, h) => h.part == part && h.hstate == .saved && h.saving).map (·.1)

/-- Herd-contexts of a partition whose slots are about to be free: those being saved, and those asked to stop. -/
def beingStopped (s : State) (part : Nat) : List Nat :=
  (s.hctxs.filter fun (_, h) =>
    h.part == part && ((h.hstate == .saved && h.saving) || (h.stop.isSome && !h.ending))).map (·.1)

/-- The shortest prefix of the victims whose saving lets the node be placed, with the saves under way. -/
def victimPrefix (s : State) (p : Part) (n : Node) (part : Nat) (l : List Nat) : Option (List Nat) :=
  ((List.range (l.length + 1)).find? fun k => (findFrames s (beingSaved s part ++ l.take k) p n).isSome).map l.take

/-- NODE_PLACE: place the head kernel or regeneration node; else make room for it by pre-emption. -/
def placeHead (s : State) (part : Nat) : State :=
  match s.part? part with
  | none => s
  | some p =>
    match queueHead p with
    | none => s
    | some node =>
      match s.node? part node with
      | none => s
      | some n =>
        if p.halted || !(n.kind == 1 || n.kind == 5) then s
        else match descImage p n.desc with
          | none => s
          | some im =>
            match findFrames s [] p n with
            | some per =>
              let s := startInst s part node n
              let s := per.zipIdx.foldl (fun s ((_, leads), dr) =>
                leads.zipIdx.foldl (fun s (lead, h) => placeHerd s part node n im dr h lead) s) s
              if n.kind = 5 then handRegen s part node n else s
            | none =>
              let s := noteUnsavable s part n.prio
              match victimPrefix s p n part (victims s part n.prio) with
              | none => s
              | some l => l.foldl (fun s id =>
                  if ((s.hc? id).map (·.stop.isNone)).getD false then requestStop s id else s) s

/-! ### Commit and rollback (R89, R291, R310, R424) -/

/-- Perform every staged write of an instance at system scope (R291). -/
def performAll (s : State) (part : Nat) (i : Inst) : State :=
  let words := (i.staged.map fun (a, _) => a / 8).eraseDups
  words.foldl (fun s k =>
    let bs := i.staged.filter fun (a, _) => a / 8 == k
    if !flowOk s part (8 * k) then countFabErr s part
    else if portFailed s (8 * k) then s
    else
      let s := { s with mem := bs.foldl (fun m (a, b) => Memory.set m a b) s.mem }
      match aget i.stagedTag k with | some t => setMemTag s (8 * k) t | none => s) s

/-- The CIR of an instance: the OR of all members, with PTAG of the lowest core whose POISON is set (R424). -/
def instCir (s : State) (i : Inst) : Word :=
  let ms := i.hcs.flatMap fun id => ((s.hc? id).map (·.members)).getD []
  let all := ms.foldl (fun a m => a ||| m.cir) i.retCir
  let low := (ms.filter fun m => m.cir.getLsbD 0).foldl (fun o m => match o with
    | some (x : Member) => if m.core < x.core then some m else some x
    | none => some m) none
  let ptag : Word := match low with | some m => m.cir &&& 0x0FFF0000 | none => 0
  (all &&& ~~~(0x0FFF0000 : Word)) ||| ptag

/-- The error record that a poison tag names: its die, unit and place. -/
def recordOf (s : State) (t : BitVec 12) : Option (Nat × Word × Word) :=
  let slot := (t.extractLsb' 0 8).toNat
  (List.range s.dies.length).findSome? fun d =>
    match (s.dies[d]?).bind fun x => aget x.ring slot with
    | some ws =>
      let w0 := ws.getD 0 0
      if w0.extractLsb' 28 4 = t.extractLsb' 8 4 then some (d, w0, ws.getD 1 0) else none
    | none => none

/-- The unit that a record blames: class, die, unit, and for a pool its bank and row. -/
def recordPlace (s : State) (t : BitVec 12) : Option (BitVec 4 × Nat × BitVec 10 × Word) :=
  (recordOf s t).map fun (d, w0, wh) =>
    let c := w0.extractLsb' 28 4
    (c, d, w0.extractLsb' 8 10, if c = 5 then wh else 0)

/-- The entry of the repair table that puts a free spare in the place of a pool row, and its word: that of an entry for the row,
whose own spare is bad, or a free one; none when no spare of the bank or no entry is free (Table 26.5). -/
def repairFor (c : Core) (w : Nat) : Option (Nat × BitVec 64) :=
  let bank := w % 257
  let used := c.repair.filter fun e => e.getLsbD 23 && (e.extractLsb' 12 9).toNat == bank
  let spare := (List.range 4).find? fun k => used.all fun e => (e.extractLsb' 21 2).toNat != k
  let own := (List.range 32).find? fun k => (c.repair.getD k 0).getLsbD 23 && repairWord (c.repair.getD k 0) == w
  let slot := match own with
    | some k => some k
    | none => (List.range 32).find? fun k => !(c.repair.getD k 0).getLsbD 23
  match spare, slot with
  | some sp, some e => some (e, BitVec.ofNat 64 (2 ^ 23 + sp * 2 ^ 21 + bank * 2 ^ 12 + w / 257))
  | _, _ => none

/-- Repair a pool row of a core: at once while no context occupies the core, which takes no new one until then (R426, log 20);
without a free spare the core goes offline. -/
def repairRow (s : State) (core w : Nat) : State :=
  let c := s.core core
  match repairFor c w with
  | none => s.setCore core { c with offline := true, toRepair := c.toRepair.filter (· != w) }
  | some (e, v) =>
    if (coreUsers s core).isEmpty then repairStore s core e v
    else s.setCore core { c with toRepair := nsAdd c.toRepair w }

/-- Take a lasting unit out of use (Table 26.5). -/
def takeOut (s : State) (x : BitVec 4 × Nat × BitVec 10 × Word) (wh : Word) : State :=
  let core := x.2.2.1.toNat
  let off (s : State) : State := s.setCore core { s.core core with offline := true }
  match x.1.toNat with
  | 5 => repairRow s core (257 * (x.2.2.2.extractLsb' 0 12).toNat + (x.2.2.2.extractLsb' 12 9).toNat)
  | 6 => off s
  | 7 => off s
  | 3 =>
    let k := homeSlice wh.toNat
    { s with l2Off := aset s.l2Off k ((aget s.l2Off k).getD 0 + 1) }
  | 0 => { s with retired := nsAdd s.retired (wh.toNat / 65536) }
  | 1 => { s with retired := nsAdd s.retired (wh.toNat / 65536) }
  | 2 => { s with retired := nsAdd s.retired (wh.toNat / 65536) }
  | 4 => { s with retired := nsAdd s.retired (wh.toNat / 65536) }
  | _ => s

/-- Firmware rewrites the KIND of the record that a tag names to 2 (R424). -/
def markLasting (s : State) (t : BitVec 12) : State :=
  match recordOf s t with
  | none => s
  | some (d, w0, _) =>
    let w := (w0 &&& ~~~(0xC000000 : Word)) ||| 0x8000000
    s.modDie d fun x =>
      let k := (t.extractLsb' 0 8).toNat
      { x with ring := aset x.ring k (w :: ((aget x.ring k).getD []).drop 1) }

/-- Re-queues after which an instance halts (R424). -/
def requeueMax : Nat := 3

/-- Queue an instance again at the head of its priority's queue (R310), or halt it at the limit; `fix` takes a lasting unit out
of use, once the instance has left its cores. -/
def requeueInst (s : State) (part node : Nat) (fix : State → State) : State :=
  match s.node? part node with
  | none => s
  | some n =>
    if requeueMax ≤ n.requeues then haltNode (fix s) part node
    else
      let s := fix (discardInst s part node)
      if n.disarm then freeNode s part node
      else
        let s := s.modNode part node fun n =>
          { n with state := .ready, launch := n.launch + 1, requeues := n.requeues + 1 }
        enqueueNode s part node n.prio true

/-- What follows an instance whose CIR is not zero (R310, R424). -/
def failCommit (s : State) (part node : Nat) (n : Node) (i : Inst) (cir : Word) : State :=
  let tag : Option (BitVec 12) := if cir.getLsbD 0 then some (cir.extractLsb' 16 12) else none
  let place := tag.bind fun t => recordPlace s t
  let before := n.rollback
  let stored := match before, tag with
    | some r, some t => r.tag == some t
    | _, _ => false
  if i.irrev || stored then haltNode s part node
  else
    let wh := ((tag.bind fun t => recordOf s t).map fun (_, _, x) => x).getD 0
    let lasting := match before.bind (·.place), place with
      | some a, some b => a == b
      | _, _ => false
    let fix (s : State) : State := match lasting, tag, place with
      | true, some t, some x => takeOut (markLasting s t) x wh
      | _, _, _ => s
    requeueInst (s.modNode part node fun n => { n with rollback := some ⟨tag, place⟩ }) part node fix

/-- What an instance in COMMIT does: its CIR is examined, with the bits that engines have set since its herd-contexts retired
(R423), and it commits, is queued again, or halts. -/
def settleInst (s : State) (part node : Nat) (n : Node) (i : Inst) : State :=
  let cir := instCir s i
  if cir = 0 then
    let s := freeRecords (performAll s part i) part i
    let s := s.modNode part node fun n => { n with inst := some { i with staged := [], stagedTag := [], records := [] } }
    finishInst (removeHcs s i.hcs) part node
  else failCommit s part node n i cir

/-- NODE_COMMIT: when the work of the instance is finished, the node enters COMMIT (Table 15.5); in COMMIT the instance
commits, is queued again, or halts. A copy node, which has no CIR, commits at once. -/
def commitNode (s : State) (part node : Nat) : State :=
  match s.node? part node with
  | none => s
  | some n =>
    match n.state, n.inst with
    | .running, some i =>
      if n.kind = 2 then
        if copyNodeDone s part node then finishInst (setNState s part node .commit) part node else s
      else if i.hcs.all fun id => ((s.hc? id).map (·.hstate == .done)).getD true then setNState s part node .commit
      else s
    | .commit, some i => settleInst s part node n i
    | _, _ => s

/-! ### Staging exhaustion (R292) -/

/-- The instances of a partition that hold records, youngest first. -/
def recordHolders (p : Part) : List (Nat × Inst) :=
  let l := p.nodes.filterMap fun (k, n) => n.inst.bind fun i => if i.records.isEmpty then none else some (k, i)
  let ins (l : List (Nat × Inst)) (x : Nat × Inst) : List (Nat × Inst) :=
    l.takeWhile (fun y => decide (x.2.placedAt ≤ y.2.placedAt)) ++ x :: l.dropWhile (fun y => decide (x.2.placedAt ≤ y.2.placedAt))
  l.foldl ins []

/-- STAGING_EXHAUSTED. -/
def stagingOut (s : State) (part : Nat) : State :=
  match s.part? part with
  | none => s
  | some p =>
    match recordHolders p with
    | [] => s
    | (k, i) :: r =>
      if ((k, i) :: r).all (·.2.waitStage) then
        match ((k, i) :: r).find? fun x => !x.2.irrev with
        | some (j, _) =>
          let s := if ((s.node? part j).map (·.requeues)).getD 0 < requeueMax then raiseEvent s part else s
          requeueInst s part j id
        | none => haltNode s part k
      else s

/-! ### Release by the runtime (Table 15.5, R310) -/

/-- Once no node of a partition is HALTED, the sequencer fires and places its nodes again (R310). -/
def resumePart (s : State) (part : Nat) : State :=
  s.modPart part fun p => { p with halted := p.halted && p.nodes.any fun (_, n) => n.state == .halted }

/-- RUNTIME_RELEASE: firmware releases a HALTED node, with the last one the partition, or the partition. -/
def releaseByRuntime (s : State) (part : Nat) (node : Option Nat) : State :=
  match node with
  | some n => match s.node? part n with
    | some x => if x.state = .halted then resumePart (freeNode s part n) part else s
    | none => s
  | none => s.modPart part fun p => { p with halted := false }

end Sys2Proof.Machine
end

