-- ==== Sys2Proof/Machine/Restore.lean ====
section
/-! DEFINITION. Saves and restores of herd-contexts: what a save keeps and writes, and when and how a saved herd-context
comes back (R86..R88, R189, R216, R228, R306, R313). -/

namespace Sys2Proof.Machine

/-! ### Saves and restores (R86..R88, R189, R228) -/

/-- Where a context's shadow block starts in a core's scratchpad, and its bytes (R40). -/
def shadowBlock (s : State) (h : HerdCtx) (core : Nat) : Nat × Nat :=
  let shr := ((s.image? h).map (·.shr)).getD 0
  ((s.core core).cap / 2056 * 2056 - (h.slot + 1) * shr, shr)

/-- Words of a context's shadow block. -/
def shadowWords (s : State) (h : HerdCtx) (core : Nat) : List Nat :=
  let (lo, n) := shadowBlock s h core
  (List.range (n / 4)).map fun k => (s.core core).spWord (lo + 4 * k)

/-- Pairs of a context's shadow block. -/
def shadowPairs (s : State) (h : HerdCtx) (core : Nat) : List Nat :=
  let (lo, n) := shadowBlock s h core
  (List.range (n / 8)).map (lo / 8 + ·)

/-- What a save keeps of a context's shadow block (R86). -/
def takeShadow (s : State) (h : HerdCtx) (core : Nat) : Shadow :=
  let c := s.core core
  let ps := shadowPairs s h core
  ⟨(shadowWords s h core).map fun w => (w, c.word w), c.spTag.filter fun (k, _) => ps.contains k,
   c.spEmpty.filter ps.contains⟩

/-- A restore gives the shadow block back: its words, and the tag and the full/empty bit of every pair. -/
def giveShadow (s : State) (h : HerdCtx) (core : Nat) (x : Shadow) : State :=
  let ps := shadowPairs s h core
  let c := x.words.foldl (fun c (w, v) => c.setWord w v) (s.core core)
  s.setCore core { c with
    spTag := x.tags.foldl (fun l (k, t) => aset l k t) (c.spTag.filter fun (k, _) => !ps.contains k),
    spEmpty := x.empty.foldl nsAdd (c.spEmpty.filter fun k => !ps.contains k) }

/-! ### The save area (R86, R306) -/

/-- Write free bytes over a range of `n` bytes at a physical address; its words lose their tags. -/
def spoilBytes (s : State) (seed pa n : Nat) : State :=
  { s with
    mem := Memory.setRange s.mem pa ((List.range n).map fun i => Config.freeMem seed (pa + i)),
    memTag := s.memTag.filter fun (k, _) => !(decide (pa / 8 ≤ k) && decide (k < (pa + n) / 8)) }

/-- Write `n` bytes at a virtual address page by page; `put` writes some at a physical address from an offset on, and a page
that no longer translates is not written. -/
def writePages (s : State) (part va n : Nat) (put : State → Nat → Nat → Nat → State) : State :=
  (List.range ((va % 65536 + n + 65535) / 65536)).foldl (fun s k =>
    let a := max va ((va / 65536 + k) * 65536)
    match reach s part true a 1 with
    | .ok (s, pa) => if !sendable s part pa then s else put s pa (a - va) (min (va + n) ((va / 65536 + k + 1) * 65536) - a)
    | .error _ => s) s

/-- Firmware or a copy engine writes a member's block of the save area. Its layout is the firmware's (R306), so every byte of
the block is free afterwards (log 32). -/
def spoilBlock (s : State) (part seed va n : Nat) : State :=
  writePages s part va n fun s pa _ n => spoilBytes s seed pa n

/-- The bytes in which a save presents an element: MW, EW and GW (R125). -/
def Elem.bytes (x : Elem) : List Byte := [0, 1, 2].flatMap fun k => bytesOf 4 (x.word k).toNat

/-- Write a claimed accumulator into its member's block at `va` (R125, R306). -/
def writeAcc (s : State) (part va : Nat) (a : Nat) (x : Acc) : State :=
  let l := x.dense.flatMap Elem.bytes
  writePages s part (va + Config.accPlace + 196608 * a) l.length fun s pa o n =>
    { s with mem := Memory.setRange s.mem pa ((l.drop o).take n) }

/-- The state of a herd-context is written to the save area of its node, each member's at its block (R86, R306). -/
def writeSaveArea (s : State) (h : HerdCtx) : State :=
  match s.node? h.part h.node, s.image? h with
  | some n, some im =>
    let save := n.field 136 8
    let mb := memberBlock (fpNv n.footprint) im.shr
    if save = 0 then s
    else (List.range h.members.length).foldl (fun s p =>
      spoilBlock s h.part (h.seedAt p) (save + (h.jpos * h.members.length + p) * mb) mb) s
  | _, _ => s

/-! ### The end of a save -/

/-- What the save writes of one member's tiles. -/
def savedOslots (s : State) (h : HerdCtx) : List (Nat × Nat × OSlot) :=
  h.members.zipIdx.flatMap fun (m, i) =>
    (s.core m.core).oslots.filterMap fun (o, x) => if x.cl && x.owner == h.slot then some (i, o, x) else none
def savedAccums (s : State) (h : HerdCtx) : List (Nat × Nat × Acc) :=
  h.members.zipIdx.flatMap fun (m, i) =>
    (s.core m.core).accs.filterMap fun (a, x) => if x.cl && x.owner == h.slot then some (i, a, x) else none

/-- A save writes the save area, and every claimed accumulator's elements in it as their three words (R86, R125). -/
def writeSaved (s : State) (h : HerdCtx) : State :=
  match s.node? h.part h.node, s.image? h with
  | some n, some im =>
    let save := n.field 136 8
    let mb := memberBlock (fpNv n.footprint) im.shr
    if save = 0 then s
    else (savedAccums s h).foldl (fun t (p, a, x) =>
      writeAcc t h.part (save + (h.jpos * h.members.length + p) * mb) a x) (writeSaveArea s h)
  | _, _ => s

/-- The stream registers of a member as a save keeps them: read-ahead and provisional pops are dropped (R216). -/
def Member.atSave (m : Member) : Member :=
  { m with q := m.q.map fun x => { x with ahead := [], bte := [], met := none } }

/-- CONTEXT_SAVE_DONE: once its commands have completed, the state and the tiles are written to the save area, the claims
released, and the slot is free; the herd-context waits in its partition's restore list unless it was stopped without
restore. -/
def saveDone (s : State) (id : Nat) : State :=
  match s.hc? id with
  | none => s
  | some h =>
    if !(h.hstate == .saved && h.saving) || drainBusy s id h then s
    else match flushStreams s id with
      | none => waitForStage s h
      | some s =>
        let h := (s.hc? id).getD h
        let shadow := if h.frames.isEmpty then [] else h.members.zipIdx.map fun (m, i) => (i, takeShadow s h m.core)
        let g := { h with
          saving := false, savedSlots := savedOslots s h, savedAccs := savedAccums s h, savedShadow := shadow,
          saveEpoch := ((s.part? h.part).map (·.epoch)).getD 0, members := h.members.map Member.atSave,
          fresh := h.fresh + h.members.length }
        let s := (releaseClaims (writeSaved s h) h).setHc id g
        if h.noRestore then s else s.modPart h.part fun p => { p with restore := p.restore ++ [id] }

/-- A handle as an invalidation of its page, or a restore after the epoch has changed, leaves it: every one takes the revoked
mark (R189, R381). -/
def Handle.clear (h : Handle) : Handle := { h with valid := false, fcause := Option.none, revoked := true }

/-- Whether the wait that a herd-context was saved in has ended. -/
def saveWaitOver (s : State) (id : Nat) (h : HerdCtx) : Bool :=
  h.parked.isNone &&
  match h.restoreWait with
  | none => true
  | some (.cwait l) => l.all fun (pa, t) => !sendable s h.part pa || decide (t.toNat ≤ (mem64 s pa).toNat)
  | some _ => !wouldBlock s id

/-! ### Restores -/

/-- The cores of a herd-context's frame, shadows included. -/
def HerdCtx.frameCores (s : State) (h : HerdCtx) : List Nat :=
  Machine.frameCores (((s.node? h.part h.node).map (·.checked)).getD false) h.leadCore h.members.length

/-- Whether the frames of two herd-contexts share a core. -/
def HerdCtx.meets (s : State) (h g : HerdCtx) : Bool := (h.frameCores s).any (g.frameCores s).contains

/-- Whether a herd-context's frame lies on clusters of its partition (R18, R345). -/
def onClusters (s : State) (h : HerdCtx) : Bool :=
  match s.part? h.part with
  | some p => (h.frameCores s).all fun c => p.cfg.clusters.getLsbD (c / 12)
  | none => false

/-- Whether the cores of a saved herd-context's frame, shadows included, can take it: they are its partition's, its slot is
free, and whoever occupies another slot has the same frame (R18, R77, R96). -/
def frameFits (s : State) (h : HerdCtx) : Bool :=
  let n := s.node? h.part h.node
  let checked := (n.map (·.checked)).getD false
  let skew := (n.map fun n => fpSkew n.footprint).getD 0
  onClusters s h && (h.frameCores s).all fun c => (usersBut s [] c).all fun (_, g) =>
    g.slot != h.slot && g.sameFrame s h.b1 h.b2 h.b3 h.ctxl h.leadCore h.members.length checked skew

/-- Whether the tiles that a herd-context was saved with are unclaimed on each of its member cores (R228). -/
def tilesFree (s : State) (h : HerdCtx) : Bool :=
  h.members.all fun m =>
    (h.savedSlots.all fun (_, o, _) => !((s.core m.core).oslot o).cl) &&
    h.savedAccs.all fun (_, a, _) => !((s.core m.core).acc a).cl

/-- Whether the head of a partition's queue is of higher priority and waits for a saved herd-context's slot: it can be placed,
now or once the stops and saves under way are done, but not beside that herd-context (R313). -/
def headWaits (s : State) (id : Nat) (h : HerdCtx) : Bool :=
  match s.part? h.part with
  | none => false
  | some p => match (queueHead p).bind fun k => aget p.nodes k with
    | none => false
    | some n =>
      let gone := beingStopped s h.part
      (n.kind == 1 || n.kind == 5) && !p.halted && decide (h.prio s < n.prio) && (findFrames s gone p n).isSome &&
        (findFrames (s.setHc id { h with hstate := .ready }) gone p n).isNone

/-- Whether a saved herd-context's slot and tiles are free on every member, and nobody of higher priority waits for the
slot. -/
def canRestore (s : State) (id : Nat) (h : HerdCtx) : Bool :=
  let waits := ((s.part? h.part).map (·.restore)).getD []
  waits.contains id && h.hstate == .saved && !h.saving && saveWaitOver s id h && frameFits s h && tilesFree s h &&
  !headWaits s id h &&
  (waits.all fun x => x == id || match s.hc? x with
    | some g => !(decide (h.prio s < g.prio s) && g.slot == h.slot && saveWaitOver s x g &&
        g.meets s h)
    | none => true)

/-- A herd-context that is BLOCKED in CWAIT in the slot that a saved one needs is stopped, when it can be saved (R313). -/
def yieldSlot (s : State) (id : Nat) (h : HerdCtx) : State :=
  if !((((s.part? h.part).map (·.restore)).getD []).contains id && saveWaitOver s id h) then s
  else s.hctxs.foldl (fun s (x, g) =>
    let cw := match g.wait with | some (.cwait _) => true | _ => false
    if g.part = h.part ∧ g.slot = h.slot ∧ g.hstate = .blocked ∧ cw = true ∧ g.stop = none ∧
        g.meets s h = true ∧
        (((s.node? g.part g.node).map (·.field 136 8)).getD 0) ≠ 0 then requestStop s x else s) s

/-- CONTEXT_RESTORE (R88): the same cores, the same slot; tiles are claimed again, and every handle is cleared when the
partition's epoch has changed since the save. -/
def restoreCtx (s : State) (id : Nat) : State :=
  match s.hc? id with
  | none => s
  | some h =>
    if !canRestore s id h then yieldSlot s id h
    else
      let coreAt (i : Nat) : Nat := ((h.member? i).map (·.core)).getD 0
      let s := h.members.foldl (fun s m =>
        if (coreUsers s m.core).isEmpty && !hasCarve (s.core m.core) h.b1 h.b2 h.b3 h.ctxl then
          setCarve s m.core h.b1 h.b2 h.b3 h.ctxl
        else s) s
      let s := h.savedSlots.foldl (fun s (i, o, x) => s.setCore (coreAt i) ((s.core (coreAt i)).setOslot o x)) s
      let s := h.savedAccs.foldl (fun s (i, a, x) => s.setCore (coreAt i) ((s.core (coreAt i)).setAcc a x)) s
      let s := h.savedShadow.foldl (fun s (i, x) => giveShadow s h (coreAt i) x) s
      let stale := ((s.part? h.part).map (·.epoch)).getD 0 != h.saveEpoch
      let members := h.members.map fun m =>
        let m := m.writeSnapshot
        if stale then { m with h := m.h.map Handle.clear } else m
      let s := s.setHc id { h with
        members := members, hstate := .ready, restoreWait := none, savedSlots := [], savedAccs := [], savedShadow := [],
        ep := h.prio s, passes := 0 }
      s.modPart h.part fun p => { p with restore := p.restore.erase id }

end Sys2Proof.Machine
end

