-- ==== Sys2Proof/Machine/Firmware.lean ====
section
/-! DEFINITION. What the markhor firmware does: it ends traps, parks and wakes herd-contexts, regenerates, copies shared
blocks, retranslates handles and invalidates translations (R189, R221, R224, R362..R391). -/

namespace Sys2Proof.Machine

/-! ### Ways to end a trap (R363, R378) -/

/-- Hold: the record goes to the fault log and the event counter rises; a stage-2 fault goes to the manager only. -/
def holdHc (s : State) (id : Nat) (h : HerdCtx) (r : TrapRec) : State :=
  let s := s.modHc id fun h => { h with held := true }
  if r.trap.cause = .xlateS2 then stage2Log s h.part r.words else raiseEvent (faultLog s h.part r.words) h.part

/-- Halt: the record goes to the fault log and the node becomes HALTED. -/
def haltTrap (s : State) (h : HerdCtx) (r : TrapRec) : State := haltNode (faultLog s h.part r.words) h.part h.node

/-! ### Retranslation on resume (R377, R381) -/

/-- Bits of FAULTMAP. -/
def TrapRec.faulted (r : TrapRec) (mi : Nat) : Bool := (r.words.getD 5 0).getLsbD mi
def TrapRec.data0 (r : TrapRec) : Word := r.trap.data.headD 0
def TrapRec.viaStream (r : TrapRec) : Bool := r.data0.getLsbD 10
def TrapRec.fetch (r : TrapRec) : Bool := r.data0.getLsbD 11
def TrapRec.wasRevoked (r : TrapRec) : Bool := r.data0.getLsbD 17
def TrapRec.need (r : TrapRec) : BitVec 2 := r.data0.extractLsb' 8 2

/-- The address and intent under which a handle is translated again, when it is to be. -/
def retranslation (r : TrapRec) (h : Handle) : Option (Word × BitVec 2) :=
  match r.trap.cause with
  | .handleInvalid => if h.revoked then some (h.vpage, h.intent) else none
  | .perm => if h.valid then some (h.vpage, r.need) else if h.fcause.isSome then some (h.base, r.need) else none
  | .xlateS1 => if h.fcause.isSome then some (h.base, r.need) else none
  | .regen => if h.fcause.isSome then some (h.base, r.need) else none
  | .xlateS2 => if h.fcause.isSome then some (h.base, r.need) else none
  | _ => none

/-- Translate the faulting handle of every faulting member again; a stream fault discards the elements read ahead. A fault
of an access that went through no handle translates none. -/
def retranslate (s : State) (id : Nat) (h : HerdCtx) (r : TrapRec) : State :=
  (List.range h.members.length).foldl (fun s mi =>
    if !r.faulted mi then s
    else if r.viaStream then
      s.modMember id mi fun m => m.setStrm r.trap.stream { m.strm r.trap.stream with ahead := [], met := none }
    else if !r.trap.ofHandle then s
    else
      match (h.member? mi).map (·.hreg r.trap.handle) with
      | none => s
      | some x =>
        match retranslation r x with
        | none => s
        | some (va, i) =>
          let (s, x) := fillHandle s h (h.sys s) va i 1
          s.modMember id mi fun m => { m with h := lset m.h r.trap.handle x }) s

/-- Resume a trapped herd-context after the repair that its cause calls for. -/
def repairResume (s : State) (id : Nat) : State :=
  match s.hc? id with
  | none => s
  | some h => match h.trap with
    | some r => resumeHc (retranslate s id h r) id
    | none => resumeHc s id

/-- RUNTIME_RESUME_REQUEST: resume or halt a herd-context that is held (R363, R377, R378). -/
def answerHeld (s : State) (id : Nat) (halt : Bool) : State :=
  match s.hc? id with
  | none => s
  | some h =>
    if h.hstate != .frozen || !h.held then s
    else if halt then
      match h.trap with
      | some r =>
        if r.trap.cause = .xlateS2 then
          haltNode (faultLog s h.part (blanked r.words)) h.part h.node
        else haltNode s h.part h.node
      | none => haltNode s h.part h.node
    else repairResume s id

/-! ### Parked herd-contexts (R384..R387) -/

/-- A parked herd-context's entry: its number, who it is, member, OP, whether it needs full, and SEQ. -/
structure Waiter where
  id : Nat
  h : HerdCtx
  member : Nat
  op : Nat
  full : Bool
  seq : Nat
  deriving DecidableEq, Repr

/-- Insert by SEQ. -/
def insertWaiter (x : Waiter) : List Waiter → List Waiter
  | [] => [x]
  | y :: r => if x.seq < y.seq then x :: y :: r else y :: insertWaiter x r

/-- The valid entries of a partition for a key, in increasing SEQ. -/
def waitersOf (s : State) (part : Nat) (spad : Bool) (key : Nat) : List Waiter :=
  (s.hctxs.filterMap fun (id, h) =>
    match h.parked with
    | some (.word sp k m op full seq) =>
      if h.part = part ∧ sp = spad ∧ k = key then some (⟨id, h, m, op, full, seq.toNat⟩ : Waiter) else none
    | _ => none).foldl (fun l x => insertWaiter x l) []

/-- Waiters served by a take, and by a fill (Table 21.4). -/
def isTake (op : Nat) : Bool := op == 0x11 || op == 0x2A
def isFill (op : Nat) : Bool := op == 0x12 || op == 0x2B

def keyLoc (spad : Bool) (key : Nat) : Loc := if spad then .sp (key / 2 ^ 32) (key % 2 ^ 32) else .mem key

def setParkAt (s : State) (part : Nat) (spad : Bool) (key : Nat) (b : BitVec 3) : State :=
  if spad then
    let c := s.core (key / 2 ^ 32)
    let k := key % 2 ^ 32 / 8
    s.setCore (key / 2 ^ 32) { c with spPark := if b = 0 then adel c.spPark k else aset c.spPark k b }
  else setPark s part key b

/-- The P bits that a list of waiters keeps: PF while any waits, PT with a take, PE with a fill. -/
def parkBitsFor (l : List Waiter) : BitVec 3 :=
  (if l.isEmpty then 0 else 1) ||| (if l.any (fun x => isTake x.op) then 2 else 0) |||
    (if l.any (fun x => isFill x.op) then 4 else 0)

/-- Entries of the park table that the firmware looks through: one per context slot always suffices. -/
def parkEntries (p : Part) : List Nat := List.range (min p.cfg.parkCount.toNat 2304)

/-- Words 0 and 1 of a park table entry. -/
def parkWord0 (spad : Bool) (key : Nat) : Nat := (if spad then 2 ^ 63 else 0) + 2 ^ 62 + key
def parkWord1 (h : HerdCtx) (member op : Nat) (full : Bool) : Nat :=
  (if full then 2 ^ 48 else 0) + op * 2 ^ 40 + member * 2 ^ 36 + h.node % 4096 * 2 ^ 22 + h.descriptor

/-- Write a park table entry in the lowest place that is not valid (Table 21.4). -/
def writeParkEntry (s : State) (h : HerdCtx) (spad : Bool) (key member op : Nat) (full : Bool) (seq : Nat) : State :=
  match s.part? h.part with
  | none => s
  | some p =>
    let place := (parkEntries p).findSome? fun i =>
      match gpaPa s p (p.cfg.parkBase.toNat + 32 * i) with
      | .ok pa => if (mem64 s pa).getLsbD 62 then none else some pa
      | .error _ => none
    match place with
    | some pa =>
      putFw s h.part pa (bytesOf 8 (parkWord0 spad key) ++ bytesOf 8 (parkWord1 h member op full) ++ bytesOf 8 seq ++ bytesOf 8 0)
    | none => s

/-- Remove the entry of a waiter: its V bit is cleared. -/
def clearParkEntry (s : State) (spad : Bool) (key : Nat) (x : Waiter) : State :=
  match s.part? x.h.part with
  | none => s
  | some p =>
    let w0 := BitVec.ofNat 64 (parkWord0 spad key)
    let w1 := BitVec.ofNat 64 (parkWord1 x.h x.member x.op x.full)
    let place := (parkEntries p).findSome? fun i =>
      match gpaPa s p (p.cfg.parkBase.toNat + 32 * i) with
      | .ok pa => if mem64 s pa = w0 ∧ mem64 s (pa + 8) = w1 then some pa else none
      | .error _ => none
    match place with
    | some pa => putFw s x.h.part pa (bytesOf 8 (w0 &&& ~~~(BitVec.ofNat 64 (2 ^ 62))).toNat)
    | none => s

/-- A parked herd-context is resumed, or restorable when it was saved meanwhile. -/
def unpark (s : State) (id : Nat) (last : Option (Nat × Nat)) (regen : Option Nat) : State :=
  match s.hc? id with
  | none => s
  | some h =>
    let s := s.setHc id { h with parked := none, trap := none, lastFe := last, regenWoken := regen }
    if h.hstate = .parked then resumeHc s id else s

/-- Resume one waiter and remove its entry. -/
def serveOne (s : State) (spad : Bool) (key : Nat) (x : Waiter) : State :=
  unpark (clearParkEntry s spad key x) x.id (some ((if spad then 2 ^ 63 else 0) + key, x.seq)) none

/-- The SD register of a filling form. -/
def fillSd : Instr → Nat
  | .stfillD f => f.sd.toNat
  | .spfillD f => f.sd.toNat
  | _ => 0

/-- The value that a waiter's SD holds once its snapshot entries are written (R387). -/
def Waiter.value (s : State) (x : Waiter) : SReg :=
  match bundleAtPc s x.h, x.h.member? x.member with
  | some b, some m => m.writeSnapshot.sreg (fillSd b.m)
  | _, _ => ⟨0, none⟩

/-- The firmware performs a waiter's take or fill itself and holds the success for it (R387). -/
def serveProxy (s : State) (spad : Bool) (key : Nat) (x : Waiter) : State :=
  let k : FeKind := if isTake x.op then .take else .fill
  match feAttempt s (x.h.who s) k (keyLoc spad key) (x.value s) 0xF0 true with
  | none => s
  | some (s, v) =>
    serveOne (s.modMember x.id x.member fun m => { m with feHeld := some v }) spad key x

/-- Serve a wake for a key whose word has become full or empty, or was changed by a BTSWAP. -/
def serveKey (s : State) (part : Nat) (spad : Bool) (key : Nat) (op : Nat) (full : Bool) : State :=
  let l := waitersOf s part spad key
  let s :=
    if op = 0x83 then (l.filter fun x => x.op == 0x83).foldl (fun s x => serveOne s spad key x) s
    else
      let s := if full then
          (l.filter fun x => x.op == 0x10 || x.op == 0x3E).foldl (fun s x => serveOne s spad key x) s
        else s
      match l.find? fun x => if full then isTake x.op else isFill x.op with
      | some x => serveProxy s spad key x
      | none => s
  setParkAt s part spad key (parkBitsFor (waitersOf s part spad key))

/-- The keys of a partition's valid entries. -/
def parkedKeys (s : State) (part : Nat) : List (Bool × Nat) :=
  (s.hctxs.filterMap fun (_, h) =>
    match h.parked with
    | some (.word sp k _ _ _ _) => if h.part = part then some (sp, k) else none
    | _ => none).eraseDups

/-- WAKE_SERVE: the firmware serves the oldest wake record that it has not read; when records have been overwritten it
looks at every entry's word instead (R386, R387). -/
def serveWake (s : State) (part : Nat) : State :=
  match s.part? part with
  | none => s
  | some p =>
    match reach s part true p.cfg.wakeCtr.toNat 3 with
    | .error _ => s
    | .ok (_, cpa) =>
      let n := (mem64 s cpa).toNat
      let seen := p.wakeSeen.toNat
      if n ≤ seen then s
      else if p.cfg.wakeCount.toNat < n - seen then
        let s := s.modPart part fun p => { p with wakeSeen := BitVec.ofNat 64 n }
        (parkedKeys s part).foldl (fun s (sp, k) =>
          let s := serveKey s part sp k 0x83 false
          serveKey s part sp k 0xF0 (locFull s (keyLoc sp k))) s
      else
        let s := s.modPart part fun p => { p with wakeSeen := p.wakeSeen + 1 }
        match gpaPa s p (p.cfg.wakeBase.toNat + 16 * (seen % max p.cfg.wakeCount.toNat 1)) with
        | .error _ => s
        | .ok pa =>
          let w0 := mem64 s pa
          let w1 := mem64 s (pa + 8)
          serveKey s part (w0.getLsbD 63) (w0.extractLsb' 0 58).toNat (w1.extractLsb' 8 8).toNat (w1.getLsbD 0)

/-- The lowest member in FAULTMAP. -/
def TrapRec.lowest (r : TrapRec) : Nat := ((List.range 12).find? r.faulted).getD 0

/-- Park a herd-context on a word (R385, R390); it is served at once when the word already is as it needs. -/
def parkOn (s : State) (id : Nat) (h : HerdCtx) (r : TrapRec) (spad : Bool) (key op : Nat) (full : Bool) : State :=
  let tagged := (if spad then 2 ^ 63 else 0) + key
  let again := h.lastFe.bind fun (k, q) => if k = tagged then some q else none
  let next := ((s.part? h.part).map fun p => (p.parkSeq + 1).toNat).getD 0
  let seq := again.getD next
  let s := if again.isSome then s else s.modPart h.part fun p => { p with parkSeq := p.parkSeq + 1 }
  let s := writeParkEntry s h spad key r.lowest op full seq
  let aux := lset r.trap.data 4 (BitVec.ofNat 64 seq)
  let r := { r with trap := { r.trap with data := aux }, words := lset r.words 15 (BitVec.ofNat 64 seq) }
  let s := s.modHc id fun h =>
    { h with hstate := .parked, trap := some r, parked := some (.word spad key r.lowest op full (BitVec.ofNat 64 seq)),
             stop := match h.stop with | some _ => some .forced | none => none }
  let s := setParkAt s h.part spad key (locPark s (keyLoc spad key) ||| parkBitsFor (waitersOf s h.part spad key))
  if op = 0x83 then s
  else if locFull s (keyLoc spad key) == full then serveKey s h.part spad key 0xF0 full else s

/-- FE_BUDGET: the word stands in the firmware's copy of the record; a stream pop has OP 0x3E and waits for full. -/
def parkFe (s : State) (id : Nat) (h : HerdCtx) (r : TrapRec) : State :=
  let w := r.trap.data.getD 3 0
  let op := if r.viaStream then 0x3E else (r.data0.extractLsb' 0 8).toNat
  parkOn s id h r (w.getLsbD 63) (w.extractLsb' 0 58).toNat op (!isFill op)

/-- BLOCK_MOVING: the writer parks on the block-table entry's word. -/
def parkMoving (s : State) (id : Nat) (h : HerdCtx) (r : TrapRec) : State :=
  match translate s h.part true r.trap.addr2.toNat 0 with
  | .error _ => holdHc s id h r
  | .ok pg =>
    let pa := pg.pa r.trap.addr2.toNat
    if (mem64 s pa).getLsbD 3 then
      let r := { r with trap := { r.trap with data := lset r.trap.data 3 (BitVec.ofNat 64 pa) } }
      parkOn s id h r false (pa / 8 * 8) 0x83 true
    else resumeHc s id

/-! ### Regeneration (R224, R388) -/

/-- The fields NODE and ARG of a regeneration-table entry. -/
def regenEntry (s : State) (part idx : Nat) : Option (Nat × Word) :=
  (s.part? part).bind fun p =>
    match gpaPa s p (p.cfg.regenBase.toNat + 16 * idx) with
    | .ok pa => some (((mem64 s pa).extractLsb' 0 12).toNat, mem64 s (pa + 8))
    | .error _ => none

/-- Where a node's completion counter stands; 0 when it has none that translates. -/
def completionPlace (s : State) (part : Nat) (n : Node) : Nat :=
  if n.field 112 8 = 0 then 0
  else match reach s part true (n.field 112 8) 3 with | .ok (_, pa) => pa | .error _ => 0

/-- The value of a node's completion counter. -/
def completionValue (s : State) (part : Nat) (n : Node) : Nat :=
  match completionPlace s part n with | 0 => 0 | pa => (mem64 s pa).toNat

/-- Park a herd-context on a regeneration target: it enters the waiter list of the node's completion counter. -/
def parkRegen (s : State) (id idx node ctr target : Nat) : State :=
  s.modHc id fun h =>
    let t := BitVec.ofNat 64 target
    let upd (r : TrapRec) : TrapRec :=
      { r with trap := { r.trap with data := lset r.trap.data 4 t }, words := lset r.words 15 t }
    { h with hstate := .parked, parked := some (.regen idx node ctr t), trap := h.trap.map upd, waitedAt := s.clk,
             stop := match h.stop with | some _ => some .forced | none => none }

/-- Hold a herd-context whose regeneration cannot come, with FAILED = 1. -/
def holdFailed (s : State) (id : Nat) (h : HerdCtx) (r : TrapRec) : State :=
  let d := lset r.trap.data 0 (r.data0 ||| BitVec.ofNat 64 (2 ^ 18))
  let r := { r with trap := { r.trap with data := d }, words := lset r.words 11 (d.headD 0) }
  holdHc (s.modHc id fun h => { h with trap := some r }) id h r

/-- Queue an instance of a regeneration node that can run. -/
def queueRegen (s : State) (part node : Nat) (n : Node) : State :=
  if n.state == .armed then
    enqueueNode (s.modNode part node fun n => { n with state := .ready, requeues := 0, rollback := none }) part node n.prio false
  else s.modNode part node fun n => { n with owed := if n.owed = BitVec.allOnes 32 then n.owed else n.owed + 1 }

/-- What a REGEN fault does once its record is taken. While the partition is halted no instance can come, and R224 does not say
what the sequencer does with a fault then: that the herd-context is held with FAILED = 1 is the model's choice (DESIGN CHOICE,
log 53). -/
def regenTrap (s : State) (id : Nat) (h : HerdCtx) (r : TrapRec) : State :=
  let idx := r.trap.addr2.toNat
  if ((s.node? h.part h.node).map (·.kind)) = some 5 then haltTrap s h r
  else if h.regenWoken = some idx then holdHc s id h r
  else
    match s.part? h.part, regenEntry s h.part idx with
    | some p, some (node, arg) =>
      match p.regens.find? fun q => q.entry == idx with
      | some q =>
        parkRegen s id idx q.node (((aget p.nodes q.node).map (completionPlace s h.part)).getD 0) q.target.toNat
      | none =>
        match aget p.nodes node with
        | some n =>
          let live := n.kind == 5 && !p.halted &&
            (match n.state with | .armed => true | .ready => true | .running => true | .commit => true | _ => false)
          if live then
            let ahead := (p.regens.filter fun q => q.node == node).length + 1
            let target := min (completionValue s h.part n + n.field 120 4 * ahead) (2 ^ 64 - 1)
            let ctr := completionPlace s h.part n
            let s := s.modPart h.part fun p =>
              { p with regens := p.regens ++ [⟨idx, node, arg, r.trap.va, BitVec.ofNat 64 target, false⟩] }
            parkRegen (queueRegen s h.part node n) id idx node ctr target
          else holdFailed s id h r
        | none => holdFailed s id h r
    | _, _ => holdFailed s id h r

/-- A herd-context whose regeneration has come goes on: the address that faulted is translated afresh (R224). -/
def regenWake (s : State) (id : Nat) (h : HerdCtx) (idx : Nat) : State :=
  let s := match h.trap with | some r => retranslate s id h r | none => s
  unpark s id none (some idx)

/-- REGEN_FAULT: the sequencer acts for a herd-context whose REGEN record is taken, and wakes it at its target, in the order of
the counter's waiter list (R92, R224). -/
def regenStep (s : State) (id : Nat) : State :=
  match s.hc? id with
  | none => s
  | some h =>
    match h.parked, h.trap with
    | some (.regen idx _ ctr t), _ =>
      if regenReached s h.part idx ctr t && !waitsBehind s id h then regenWake s id h idx else s
    | none, some r =>
      let queued := ((s.dies[h.die]?).map fun d => d.trapQ.any (·.hc == id)).getD false
      if h.hstate == .frozen && !h.held && !queued && r.trap.cause == .regen then regenTrap s id h r else s
    | _, _ => s

/-! ### Taking a record (R360, R363, R369, R376, Table 20.6) -/

/-- LINK_OVERFLOW: spill the sixteen oldest entries to the save area, or halt (R369). -/
def spillLinks (s : State) (id : Nat) (h : HerdCtx) (r : TrapRec) : State :=
  let save := ((s.node? h.part h.node).map (·.field 136 8)).getD 0
  if save = 0 ∨ 256 ≤ h.spill.length then haltTrap s h r
  else
    let keep := h.links.length - 16
    resumeHc ((writeSaveArea s h).setHc id { h with
      links := h.links.take keep, spill := h.links.drop keep ++ h.spill, fresh := h.fresh + h.members.length }) id

/-- LINK_EMPTY: restore the most recent spilled entries, or halt (R369). -/
def refillLinks (s : State) (id : Nat) (h : HerdCtx) (r : TrapRec) : State :=
  if h.spill.isEmpty then haltTrap s h r
  else resumeHc (s.setHc id { h with links := h.links ++ h.spill.take 16, spill := h.spill.drop 16 }) id

/-- The default way to end a trap. Causes that wait for another party leave the herd-context FROZEN. -/
def endTrap (s : State) (id : Nat) (h : HerdCtx) (r : TrapRec) : State :=
  match r.trap.cause with
  | .linkOverflow => spillLinks s id h r
  | .linkEmpty => refillLinks s id h r
  | .xlateS1 => if r.fetch then haltTrap s h r else holdHc s id h r
  | .xlateS2 => holdHc s id h r
  | .perm => holdHc s id h r
  | .handleInvalid => if r.wasRevoked then s else haltTrap s h r
  | .feBudget => parkFe s id h r
  | .regen => s
  | .blockShared => s
  | .blockMoving => parkMoving s id h r
  | .userTrap => holdHc s id h r
  | .illegalOp => haltTrap s h r
  | .illegalField => haltTrap s h r
  | .illegalBundle => haltTrap s h r
  | .privileged => haltTrap s h r
  | .routineUnbound => haltTrap s h r
  | .profileUnknown => haltTrap s h r
  | .regRange => haltTrap s h r
  | .loopNest => haltTrap s h r
  | .offsetRange => haltTrap s h r
  | .misalign => haltTrap s h r
  | .feNotCapable => haltTrap s h r
  | .tileState => haltTrap s h r
  | .engineParam => haltTrap s h r
  | .combineParam => haltTrap s h r
  | .jcbClosed => haltTrap s h r

/-- The first pair that has not failed enters its handler: where it stood is saved (R157). The point is a free value, since
no state of the spec holds it (log 48). -/
def enterHandler (s : State) (die : Nat) : State :=
  { s.modDie die fun d =>
      { d with pairs := match d.pairs.findIdx? fun p => !p.failed with
          | some i => lset d.pairs i { d.pairs.getD i ⟨false, 0, none⟩ with saved := some (Config.handlerPoint s.fresh) }
          | none => d.pairs }
    with fresh := s.fresh + 1 }

/-- TRAP_RECORD_TAKE: a pair that has not failed takes the oldest record of the die's queue and ends it. -/
def takeRecord (s : State) (die : Nat) : State :=
  match s.dies[die]? with
  | none => s
  | some d =>
    match d.trapQ with
    | [] => s
    | r :: rest =>
      if d.pairs.all (·.failed) then s
      else
        let s := s.modDie die fun d =>
          { d with trapQ := rest, pairs := d.pairs.map fun p => { p with mismatches := 0 } }
        let s := enterHandler s die
        match s.hc? r.hc with
        | none => s
        | some h => if h.hstate != .frozen then s else endTrap s r.hc h r

/-! ### Revoked handles, shared blocks, invalidation (R189, R221, R381, R389) -/

/-- Whether a herd-context's record has been taken and its trap waits for another party. -/
def awaits (s : State) (h : HerdCtx) (id : Nat) (c : Cause) : Bool :=
  h.hstate == .frozen && !h.held && ((h.trap.map (·.trap.cause)) == some c) &&
    !(((s.dies[h.die]?).map fun d => d.trapQ.any (·.hc == id)).getD false)

/-- HANDLE_RETRANSLATE: once no invalidation of the partition is pending, the revoked handle is translated again and the
herd-context resumed. -/
def handleAgain (s : State) (id : Nat) : State :=
  match s.hc? id with
  | none => s
  | some h =>
    let quiet := ((s.part? h.part).map (·.invals.isEmpty)).getD true
    if awaits s h id .handleInvalid && ((h.trap.map (·.wasRevoked)).getD false) && quiet then repairResume s id else s

/-- Copy a 64 KiB block with its full/empty bits and poison tags. -/
def copyBlock (s : State) (src dst : Nat) : State :=
  let inBlock (b k a : Nat) : Bool := decide (b / k ≤ a) && decide (a < (b + 65536) / k)
  let cleared := (s.mem.filter fun (a, _) => inBlock dst 1 a).foldl (fun m (a, _) => cellDrop m a) s.mem
  let mem := (s.mem.filter fun (a, _) => inBlock src 1 a).foldl (fun m (a, b) => Memory.set m (dst + (a - src)) b) cleared
  let fe0 := s.feEmpty.filter fun k => !inBlock dst 8 k
  let fe := (s.feEmpty.filter (inBlock src 8)).foldl (fun l k => nsAdd l (dst / 8 + (k - src / 8))) fe0
  let tg0 := s.memTag.filter fun (k, _) => !inBlock dst 8 k
  let tg := (s.memTag.filter fun (k, _) => inBlock src 8 k).foldl (fun l (k, t) => aset l (dst / 8 + (k - src / 8)) t) tg0
  { s with mem := mem, feEmpty := fe, memTag := tg }

/-- Decrement the 32-bit count of a frame in the runtime's frame table (R221), at a virtual address; 0 names none. -/
def countDown (s : State) (part va : Nat) : State :=
  if va = 0 then s
  else match reach s part true va 1 with
    | .ok (s, pa) =>
      let w := Who.agent part
      writeImm s w pa (bytesOf 4 (view32 s w pa - 1).toNat) (rawTag s w (pa / 8 * 8))
    | .error _ => s

/-- COPY_ON_WRITE: the block is copied into the frame at the first virtual address given, the entry swapped to it with S = 0,
the old frame's count at the second decremented, cached copies dropped, and the writer resumed. A block with a park bit set is not copied
yet, nor one with accesses through its entry under way; without a frame the writer is held. -/
def copyShared (s : State) (id : Nat) (frame : Option (Nat × Nat)) : State :=
  match s.hc? id with
  | none => s
  | some h =>
    match h.trap with
    | none => s
    | some r =>
      if !awaits s h id .blockShared then s
      else match frame with
        | none => holdHc s id h r
        | some (f, count) =>
          let ent := r.trap.addr2
          match reach s h.part true ent.toNat 1 with
          | .error _ => holdHc s id h r
          | .ok (s', ea) =>
            let e := mem64 s' ea
            match translate s' h.part true (e.toNat / 65536 * 65536) 0, translate s' h.part true (f / 65536 * 65536) 1 with
            | .ok op, .ok np =>
              let src := op.pa (e.toNat / 65536 * 65536)
              let dst := np.pa (f / 65536 * 65536)
              if s'.park.any fun (k, _) => decide (src / 8 ≤ k) && decide (k < (src + 65536) / 8) then s
              else
                let (s', free) := fenceEntries s' h.part ent.toNat 8 none s'.nextCmd s'.nextCmd
                if !free then s'
                else
                  let s := copyBlock s' src dst
                  let new := BitVec.ofNat 64 (f / 65536 * 65536) ||| (e &&& 0xFFFD)
                  resumeHc (countDown (swapWake (putMem64 s ea new) ea) h.part count) id
            | _, _ => holdHc s id h r

/-- Whether a valid handle's page overlaps a range, of virtual addresses or of guest-physical ones. -/
def Handle.overlaps (h : Handle) (stage2 : Bool) (lo len : Nat) : Bool :=
  let a := if stage2 then h.walk.gpa.toNat else h.vpage.toNat
  h.valid && decide (a < lo + len) && decide (lo < a + 2 ^ sizeLog h.size)

/-- Clear a handle, in a register or in flight, whose page overlaps a range. -/
def Member.revoke (m : Member) (stage2 : Bool) (lo len : Nat) : Member :=
  let f (h : Handle) : Handle := if h.overlaps stage2 lo len then h.clear else h
  { m with
    h := m.h.map f
    inflight := m.inflight.map fun p => match p.res with | .h n x => { p with res := .h n (f x) } | _ => p }

/-- A member whose generators discard what they have read ahead: they read it again (R189, R214). -/
def Member.unread (m : Member) : Member := { m with q := m.q.map fun q => { q with ahead := [], met := none } }

/-- TRANSLATION_INVALIDATE: overlapping handles are cleared, elements read ahead discarded, the epoch rises, and the
invalidation is pending. -/
def invalidate (s : State) (part : Nat) (stage2 : Bool) (lo len ctr : Nat) : State :=
  match s.part? part with
  | none => s
  | some p =>
    let e := p.epoch + 1
    let s := s.setPart part { p with epoch := e, invals := p.invals ++ [⟨stage2, lo, len, ctr, e⟩] }
    { s with hctxs := s.hctxs.map fun (id, h) =>
        if h.part = part then (id, { h with members := h.members.map fun m => (m.revoke stage2 lo len).unread }) else (id, h) }

/-- Whether no engine command and no token slot of a partition keeps a translation (R189, R273). -/
def engineQuiet (s : State) (part : Nat) : Bool :=
  let mine (hc : Nat) : Bool := ((s.hc? hc).map (·.part == part)).getD false
  (s.cores.all fun (_, c) =>
    !(c.loadQ.any fun x => mine x.hc) && !(c.arrayQ.any fun x => mine x.hc) && !(c.combQ.any fun x => mine x.hc) &&
      !(c.jobQ.any fun x => mine x.hc)) &&
  (s.copyQ.all fun (_, l) => l.all fun x => x.part != part) &&
  (s.reds.all fun x => x.part != part) &&
  (s.dies.all fun d => d.comb.tokens.all fun (_, t) => t.part != part) &&
  (s.hctxs.all fun (_, h) => h.part != part || h.members.all fun m => m.q.all fun q => q.out.isEmpty)

/-- INVALIDATE_COMPLETE: the oldest pending invalidation posts its completion counter. -/
def invalidateDone (s : State) (part : Nat) : State :=
  match s.part? part with
  | none => s
  | some p =>
    match p.invals with
    | [] => s
    | x :: rest =>
      if engineQuiet s part then addVa (s.setPart part { p with invals := rest }) part (BitVec.ofNat 64 x.ctr) 1 else s

end Sys2Proof.Machine
end

