-- ==== Sys2Proof/Machine/Digest.lean ====
section
/-! DEFINITION. SHA-256 (FIPS 180-4), the canonical encoding of a routine body and the digest input of Table 2.4
(R28, R29), and the published bodies that the spec prints (Tables 18.3 and 23.3). -/

namespace Sys2Proof.Machine

/-! ### SHA-256 -/

/-- The initial hash value: fractional parts of the square roots of the first 8 primes. -/
def shaInit : List W32 :=
  [0x6A09E667, 0xBB67AE85, 0x3C6EF372, 0xA54FF53A, 0x510E527F, 0x9B05688C, 0x1F83D9AB, 0x5BE0CD19]

/-- The round constants: fractional parts of the cube roots of the first 64 primes. -/
def shaK : List W32 :=
  [0x428A2F98, 0x71374491, 0xB5C0FBCF, 0xE9B5DBA5, 0x3956C25B, 0x59F111F1, 0x923F82A4, 0xAB1C5ED5] ++
  [0xD807AA98, 0x12835B01, 0x243185BE, 0x550C7DC3, 0x72BE5D74, 0x80DEB1FE, 0x9BDC06A7, 0xC19BF174] ++
  [0xE49B69C1, 0xEFBE4786, 0x0FC19DC6, 0x240CA1CC, 0x2DE92C6F, 0x4A7484AA, 0x5CB0A9DC, 0x76F988DA] ++
  [0x983E5152, 0xA831C66D, 0xB00327C8, 0xBF597FC7, 0xC6E00BF3, 0xD5A79147, 0x06CA6351, 0x14292967] ++
  [0x27B70A85, 0x2E1B2138, 0x4D2C6DFC, 0x53380D13, 0x650A7354, 0x766A0ABB, 0x81C2C92E, 0x92722C85] ++
  [0xA2BFE8A1, 0xA81A664B, 0xC24B8B70, 0xC76C51A3, 0xD192E819, 0xD6990624, 0xF40E3585, 0x106AA070] ++
  [0x19A4C116, 0x1E376C08, 0x2748774C, 0x34B0BCB5, 0x391C0CB3, 0x4ED8AA4A, 0x5B9CCA4F, 0x682E6FF3] ++
  [0x748F82EE, 0x78A5636F, 0x84C87814, 0x8CC70208, 0x90BEFFFA, 0xA4506CEB, 0xBEF9A3F7, 0xC67178F2]

/-- A 32-bit word from four bytes, the first one highest. -/
def beWord (b0 b1 b2 b3 : Byte) : W32 := b0 ++ b1 ++ b2 ++ b3

def beWords : List Byte → List W32
  | b0 :: b1 :: b2 :: b3 :: r => beWord b0 b1 b2 b3 :: beWords r
  | _ => []

/-- A byte string padded to a multiple of 64 bytes: 0x80, zeros, and the length in bits. -/
def shaPad (l : List Byte) : List Byte :=
  let n := l.length
  let z := (119 - n % 64) % 64
  l ++ [0x80] ++ List.replicate z 0 ++ (bytesOf 8 (8 * n)).reverse

/-- Extend a reversed message schedule by `n` words. -/
def shaExtend : Nat → List W32 → List W32
  | 0, w => w
  | n + 1, w =>
    let at' (i : Nat) : W32 := w.getD i 0
    let s0 (x : W32) : W32 := x.rotateRight 7 ^^^ x.rotateRight 18 ^^^ (x >>> 3)
    let s1 (x : W32) : W32 := x.rotateRight 17 ^^^ x.rotateRight 19 ^^^ (x >>> 10)
    shaExtend n ((s1 (at' 1) + at' 6 + s0 (at' 14) + at' 15) :: w)

/-- One round over the eight working variables. -/
def shaRound (v : List W32) (kw : W32) : List W32 :=
  match v with
  | [a, b, c, d, e, f, g, h] =>
    let t1 := h + (e.rotateRight 6 ^^^ e.rotateRight 11 ^^^ e.rotateRight 25) + ((e &&& f) ^^^ (~~~e &&& g)) + kw
    let t2 := (a.rotateRight 2 ^^^ a.rotateRight 13 ^^^ a.rotateRight 22) + ((a &&& b) ^^^ (a &&& c) ^^^ (b &&& c))
    [t1 + t2, a, b, c, d + t1, e, f, g]
  | _ => v

/-- Hash one block of sixteen words. -/
def shaBlock (h : List W32) (block : List W32) : List W32 :=
  let w := (shaExtend 48 block.reverse).reverse
  List.zipWith (· + ·) h ((List.zipWith (· + ·) shaK w).foldl shaRound h)

/-- Hash `n` blocks. -/
def shaBlocks : Nat → List W32 → List W32 → List W32
  | 0, _, h => h
  | n + 1, l, h => shaBlocks n (l.drop 16) (shaBlock h (l.take 16))

/-- SHA-256 of a byte string; the first byte of the digest is the highest. -/
def sha256 (l : List Byte) : BitVec 256 :=
  let w := beWords (shaPad l)
  (shaBlocks (w.length / 16) w shaInit).foldl (fun a x => (a <<< 32) ||| x.setWidth 256) 0

/-- The bytes of a digest in the order of the hash. -/
def digestBytes (d : BitVec 256) : List Byte := (List.range 32).map fun i => d.extractLsb' (8 * (31 - i)) 8

/-! ### The canonical body (R29, R52) -/

/-- The HINT bits of a slot word of form, by slot (0 S, 1 V, 2 M, 3 and 4 routine) and OP (Tables 3.5, 3.6, 3.10, 3.11). -/
def hintMask (slot op : Nat) : Word :=
  match slot with
  | 0 =>
    if op = 0x01 ∨ (0x0B ≤ op ∧ op ≤ 0x0F) ∨ op = 0x16 ∨ op = 0x18 then 0x3F00000
    else if (0x02 ≤ op ∧ op ≤ 0x0A) ∨ op = 0x12 ∨ op = 0x13 then 0x30
    else if op = 0x11 ∨ op = 0x14 ∨ op = 0x15 then 0xF00000 else 0
  | 2 =>
    if (0x01 ≤ op ∧ op ≤ 0x0E) ∨ (0x10 ≤ op ∧ op ≤ 0x14) ∨ (0x20 ≤ op ∧ op ≤ 0x23) ∨ op = 0x2A ∨ op = 0x2B ∨
        op = 0x3E ∨ op = 0x3F then 0x3C0
    else if (0x18 ≤ op ∧ op ≤ 0x1B) ∨ op = 0x24 ∨ op = 0x25 then 0xC else 0
  | _ => 0

/-- One bundle of a body: its byte offset, its header word, and its slot words with their slot numbers. -/
structure BodyBundle where
  off : Nat
  hw : BitVec 64
  slots : List (Nat × BitVec 64)
  deriving DecidableEq, Repr

/-- The slot words that follow a header; none when they run out. -/
def takeSlots (pres : BitVec 5) : List Nat → List (BitVec 64) → Option (List (Nat × BitVec 64))
  | [], _ => some []
  | k :: ks, ws =>
    if pres.getLsbD k then
      match ws with
      | [] => none
      | w :: r => (takeSlots pres ks r).map ((k, w) :: ·)
    else takeSlots pres ks ws

/-- Split words into whole bundles, each sized by its PRES; none when they do not end exactly (R50). -/
def splitBody : Nat → Nat → List (BitVec 64) → Option (List BodyBundle)
  | 0, _, ws => if ws.isEmpty then some [] else none
  | _ + 1, _, [] => some []
  | n + 1, off, w :: r =>
    let h := headerFields w
    match takeSlots h.pres [0, 1, 2, 3, 4] r with
    | none => none
    | some sl => (splitBody n (off + 8 * h.words) (r.drop (h.words - 1))).map (⟨off, w, sl⟩ :: ·)

/-- The bundles of a body. -/
def bodyBundlesOf (ws : List (BitVec 64)) : Option (List BodyBundle) := splitBody ws.length 0 ws

/-- The words of a bundle with every HINT field zero. -/
def BodyBundle.canonical (b : BodyBundle) : List (BitVec 64) :=
  (b.hw &&& ~~~(0xF00000 : Word)) :: b.slots.map fun (k, w) => w &&& ~~~(hintMask k (w.extractLsb' 58 6).toNat)

/-- The canonical encoding of a body. -/
def canonicalBody (l : List BodyBundle) : List Byte := l.flatMap fun b => b.canonical.flatMap fun w => bytesOf 8 w.toNat

/-- The digest input of Table 2.4. -/
def digestInput (profile : Nat) (sig : List (BitVec 8)) (kkind fkind effects shadow : Nat) (points : List Nat)
    (body : List Byte) : List Byte :=
  [0x42, 0x53, 0x4C, 0x31] ++ bytesOf 2 profile ++ [0, 0] ++ sig ++ bytesOf 1 kkind ++ bytesOf 1 fkind ++
    bytesOf 2 effects ++ bytesOf 2 points.length ++ [0, 0] ++ bytesOf 4 shadow ++ points.flatMap (bytesOf 4 ·) ++
    bytesOf 4 body.length ++ body

/-! ### Published routines (R27, R32, R445, Tables 3.12, 18.3, 23.3) -/

/-- Standard numbers of core edition 1. -/
def isStandard (rn : Nat) : Bool :=
  (decide (0x10 ≤ rn) && decide (rn ≤ 0x1A)) || (decide (0x40 ≤ rn) && decide (rn ≤ 0x4B)) ||
    (decide (0x50 ≤ rn) && decide (rn ≤ 0x55)) || (decide (0x60 ≤ rn) && decide (rn ≤ 0x62)) ||
    (decide (0x80 ≤ rn) && decide (rn ≤ 0x84)) || (decide (0xA0 ≤ rn) && decide (rn ≤ 0xA2)) ||
    rn == 0xB0 || rn == 0xB1 || rn == 0xC0

/-- The standard numbers, in increasing order. -/
def standardNumbers : List Nat := (List.range 0xC1).filter isStandard

/-- The profiles that a standard routine is published under. -/
def publishedProfiles (rn : Nat) : List Nat := if 0x80 ≤ rn then [0] else [1, 2, 3]

/-- First 64 bits of the published digests, by profile (Table 11.5). -/
def matrixDigests : List (Nat × List (BitVec 64)) :=
  [(0x010, [0x6D02A9E144C71F38, 0x0B7E5C21D9803A64, 0xE4A317F08C5D2291]), (0x011, [0x91C43E07B2A85D16, 0x27F980D34E6BC1A5, 0x5A30E8C2196F7D4B])] ++
  [(0x012, [0xC8E504719A2F6B3D, 0x4F1BD7A62C98E053, 0x0E67B3D1F5408A2C]), (0x013, [0x3B90F26C17E4A85D, 0x8D456A1FE3B70C92, 0xA1F82D5370C6B94E])] ++
  [(0x014, [0xF0378B5A2E91C46D, 0x62AC19E8D7053F7B, 0x174DC6B28E3A05F9]), (0x015, [0x2A6FD140B8C3975E, 0xD93E074B61FA2C8D, 0x7C18A5E03B96D24F])] ++
  [(0x016, [0xB4653C9D0F2A81E7, 0x5E08F7A39C416B2D, 0x83DB2461E0F59A7C]), (0x017, [0x07AD6E32C59F4B18, 0xE2C194B03D7E8F56, 0x49B6D8F305A2E71C])] ++
  [(0x018, [0x9F52E7C86A031DB4, 0x31E60B9DF482A75C, 0xC02A7F14B6E93D85]), (0x019, [0x5D7B21F68E4C0A93, 0xA803CE591B7D64F2, 0x2F9E6B07D4C18E35])] ++
  [(0x01A, [0xE61C4DA832B5F907, 0x1C4FB26E89D30A57, 0x6B85F3C92E10D4A6]), (0x060, [0x8A2D5F91C3E64B70, 0xF5B802E47A1C9D63, 0x3E47A9D0C5821FB6])]

/-- First 64 bits of the published digests, by profile (Table 12.2). -/
def functionDigests : List (Nat × List (BitVec 64)) :=
  [(0x040, [0x4C1E93A70B5DE286, 0x9A036FD4C71B582E, 0x1D79B4E260AC3F95]), (0x041, [0xE85B2C70F4A19D36, 0x3F26A8D1057CE4B9, 0x76C01E5F9B28D4A3])] ++
  [(0x042, [0x27D8C51A6E930F4B, 0xB14E7A29D3F0865C, 0x5F8A03B6E71D2C94]), (0x043, [0x903C5E7F18B2A6D4, 0x4D61F0A82B97C35E, 0xE2B76C14A0D93F58])] ++
  [(0x044, [0x6A4FE0B392C71D58, 0xC7E215D68A4F09B3, 0x08D5A36E4F1CB792]), (0x045, [0xD3B178E50A462CF9, 0x5B98E26AC1D3470F, 0x9C4E2F87D5B061A3])] ++
  [(0x046, [0x1F074AC9E63DB852, 0x86DA3C154F72E09B, 0xB5A2D814739E0C6F]), (0x047, [0x7E93B2D05C18F46A, 0x2A5C91F7E0B83D64, 0xF3185D6A0BC49E27])] ++
  [(0x048, [0xA5C60E493BF2D817, 0xE07D4B3A96C15F28, 0x4B2FC861D7930AE5]), (0x049, [0x3C84F51BA27E690D, 0x71B30ED85A46C29F, 0x8DE936A0F2157B4C])] ++
  [(0x04A, [0x52EA8D360F91C47B, 0xD84F6A12B3E705C9, 0x106BE4D38A2F95C7]), (0x04B, [0xC9612A7ED05B38F4, 0x0E37B5C946A1FD82, 0x6A9C0F53E8B4271D])] ++
  [(0x050, [0x85F26B0C3E19A7D4, 0x4A7DC3E691F02B58, 0xD26B1A947F3CE05A]), (0x051, [0x1B4D9E27C6A053F8, 0x97C25F3B08E6D1A4, 0x3E05D7A1B94C62F8])] ++
  [(0x052, [0xF6A93D5182C40E7B, 0x2C18E7F45B90A36D, 0x84D729B36E0FC15A]), (0x053, [0x60E3A48F1D7CB529, 0xB5F10C62E38D47A9, 0x19A47E3DC2508BF6])] ++
  [(0x054, [0xCB7A05E29F36D418, 0x58D4A19B2E73F0C6, 0xA03F6C851BE9D472]), (0x055, [0x2E59D7C364A09B1F, 0xE94B382D7C15A6F0, 0x7F62B0E8D34A159C])]

/-- First 64 bits of the published digests, profile-neutral (Table 13.3). -/
def engineDigests : List (Nat × List (BitVec 64)) :=
  [(0x080, [0x3A7CE1059B4F62D8]), (0x081, [0xD04E8B732F19A6C5])] ++
  [(0x082, [0x61B9F2A40D873CE1]), (0x083, [0x9E2847D0B3C6150A])] ++
  [(0x084, [0x247FAC91E06B58D3]), (0x0A0, [0xB8D10E6A5F23947C])] ++
  [(0x0A1, [0x5C03D9B871E42FA6]), (0x0A2, [0xF6153A2EC84D07B9])] ++
  [(0x0B0, [0x0A926CF7D15E834B]), (0x0B1, [0x87E6B04D29A3F17C])] ++
  [(0x0C0, [0x4DB75813E6C0A92F])]

/-- The first 64 bits of a published digest, where a table prints them and the body is not printed (R445). -/
def digestPrefix (rn profile : Nat) : Option (BitVec 64) :=
  ((matrixDigests ++ functionDigests ++ engineDigests).find? fun x => x.1 == rn).bind fun x =>
    x.2[if 0x80 ≤ rn then profile else profile - 1]?

/-- What a published routine is besides its body: signature bytes, K and F kinds, effects and equivalence points; each has a
shadow size of 0. -/
structure RoutineShape where
  sig : List (BitVec 8)
  kkind : Nat
  fkind : Nat
  effects : Nat
  points : List Nat
  deriving DecidableEq, Repr

/-- The published shapes (Tables 11.4, 12.1, 13.2, 18.1 and 23.2). -/
def publishedShape (rn : Nat) : Option RoutineShape :=
  match rn with
  | 0x10 => some ⟨[0x26, 0x00, 0x00, 0x00], 0, 0, 0, [0]⟩
  | 0x11 => some ⟨[0x16, 0x00, 0x00, 0x00], 0, 0, 0, [0]⟩
  | 0x12 => some ⟨[0x26, 0x14, 0x00, 0x00], 0, 0, 1, [0, 3]⟩
  | 0x13 => some ⟨[0x26, 0x14, 0x00, 0x00], 0, 0, 1, [0, 3]⟩
  | 0x14 => some ⟨[0x27, 0x00, 0x00, 0x00], 0, 0, 0, [0]⟩
  | 0x15 => some ⟨[0x17, 0x00, 0x00, 0x00], 0, 0, 0, [0]⟩
  | 0x16 => some ⟨[0x27, 0x00, 0x00, 0x00], 0, 0, 0, [0]⟩
  | 0x17 => some ⟨[0x37, 0x16, 0x16, 0x00], 0, 0, 0, [0]⟩
  | 0x18 => some ⟨[0x37, 0x00, 0x00, 0x00], 0, 0, 0, [0]⟩
  | 0x19 => some ⟨[0x17, 0x24, 0x00, 0x00], 0, 0, 2, [0, 5]⟩
  | 0x1A => some ⟨[0x21, 0x17, 0x12, 0x18], 1, 0, 0, [0]⟩
  | 0x60 => some ⟨[0x26, 0x14, 0x18, 0x18], 0, 0, 1, [0, 4]⟩
  | 0x61 => some ⟨[0x21, 0x11, 0x11, 0x00], 1, 0, 0, [0]⟩
  | 0x62 => some ⟨[0x21, 0x15, 0x15, 0x11], 0, 0, 1, [0, 1, 2, 3]⟩
  | 0x4B => some ⟨[0x21, 0x11, 0x11, 0x00], 1, 0, 0, [0]⟩
  | 0x50 => some ⟨[0x21, 0x11, 0x12, 0x14], 1, 1, 1, [0, 2]⟩
  | 0x51 => some ⟨[0x21, 0x11, 0x12, 0x14], 1, 1, 1, [0, 2]⟩
  | 0x52 => some ⟨[0x31, 0x11, 0x12, 0x14], 1, 1, 1, [0, 2]⟩
  | 0x53 => some ⟨[0x21, 0x11, 0x11, 0x00], 1, 0, 0, [0]⟩
  | 0x54 => some ⟨[0x31, 0x11, 0x12, 0x14], 1, 1, 1, [0, 2]⟩
  | 0x55 => some ⟨[0x31, 0x11, 0x12, 0x14], 1, 1, 1, [0, 2]⟩
  | 0x80 => some ⟨[0x14, 0x24, 0x15, 0x12], 2, 2, 7, [0]⟩
  | 0x81 => some ⟨[0x14, 0x24, 0x15, 0x12], 2, 2, 7, [0]⟩
  | 0x82 => some ⟨[0x12, 0x12, 0x00, 0x00], 0, 0, 5, [0]⟩
  | 0x83 => some ⟨[0x32, 0x15, 0x12, 0x12], 2, 2, 7, [0]⟩
  | 0x84 => some ⟨[0x15, 0x00, 0x15, 0x12], 2, 2, 6, [0]⟩
  | 0xA0 => some ⟨[0x22, 0x12, 0x00, 0x00], 0, 0, 5, [0]⟩
  | 0xA1 => some ⟨[0x11, 0x12, 0x12, 0x00], 0, 0, 4, [0]⟩
  | 0xA2 => some ⟨[0x22, 0x12, 0x12, 0x00], 0, 0, 4, [0]⟩
  | 0xB0 => some ⟨[0x15, 0x12, 0x12, 0x12], 2, 2, 7, [0]⟩
  | 0xB1 => some ⟨[0x15, 0x12, 0x12, 0x12], 2, 2, 7, [0]⟩
  | 0xC0 => some ⟨[0x15, 0x12, 0x12, 0x12], 2, 2, 7, [0]⟩
  | n => if 0x40 ≤ n ∧ n ≤ 0x4A then some ⟨[0x21, 0x11, 0x00, 0x00], 1, 0, 0, [0]⟩ else none

/-- The body of BDOT4 (Table 18.3). -/
def bdot4Body : List (BitVec 64) :=
  [0x0000000000000003, 0x2403403FFFFFFF00, 0x0C0000FC3FDFF800, 0x0000000000000002, 0x940000FCC0000000] ++
  [0x0000000000000002, 0x880000FD0000D000, 0x0000000000000002, 0x500000FCFF3FD000, 0x0000000000000002] ++
  [0x900000FC7F000001, 0x0000000000000002, 0x040000FC3F0FC400, 0x0000000000000002, 0x900000FC7F000002] ++
  [0x0000000000000002, 0x040000FC3F0FC400, 0x1400000000000002, 0x8C03C0FF3F0FCC00]

/-- The body of TLSC2 (Table 23.3). -/
def tlsc2Body : List (BitVec 64) :=
  [0x0000000000000007, 0x2403800000000100, 0x940000FC40000000, 0x180034D000000000, 0x0000000000000006] ++
  [0x880000FC00000000, 0x180035D000001000, 0x0000000000000006, 0x880000FC8000E000, 0x180036E000000000] ++
  [0x0000000000000006, 0x780000373F1FC804, 0x180037E000001000, 0x0000000000000002, 0x9C0000FC0000D000] ++
  [0x0000000000000002, 0x9C0000FC0000D401, 0x0000000000000002, 0x9C0000FC0000D802, 0x0000000000000002] ++
  [0x9C0000FC0000DC03, 0x1400000000000002, 0x0C0300FF3F0FFC00]

/-- The bytes of words. -/
def wordBytes (l : List (BitVec 64)) : List Byte := l.flatMap fun w => bytesOf 8 w.toNat

/-- The published digest of a standard routine under a profile: computed where the body is printed; else its first 64 bits are
printed and the rest is not known (R445; log 15). -/
def publishedDigest (rn profile : Nat) : BitVec 256 :=
  if rn = 0x61 then sha256 (digestInput profile [0x21, 0x11, 0x11, 0x00] 1 0 0 0 [0] (wordBytes bdot4Body))
  else if rn = 0x62 then
    sha256 (digestInput profile [0x21, 0x15, 0x15, 0x11] 0 0 1 0 [0, 1, 2, 3] (wordBytes tlsc2Body))
  else (digestPrefix rn profile).getD 0 ++ (Config.substDigest rn profile).extractLsb' 0 192

/-- Whether a digest is the published one of a standard routine under a profile. -/
def carriesDigest (d : BitVec 256) (rn profile : Nat) : Bool :=
  ((digestPrefix rn profile).all fun x => d.extractLsb' 192 64 == x) && publishedDigest rn profile == d

/-- The standard routine of the substitution table that carries a digest under a profile of its own (R31, R32). -/
def nativeFor (d : BitVec 256) : Option Nat :=
  standardNumbers.find? fun rn => (publishedProfiles rn).any fun p => carriesDigest d rn p

/-- The standard routines of Table 11.4, whose bodies reach the tile aperture (R232). -/
def isMatrixRoutine (rn : Nat) : Bool := (decide (0x10 ≤ rn) && decide (rn ≤ 0x1A)) || rn == 0x60

end Sys2Proof.Machine
end

