-- ==== Sys2Proof/Machine/Loader.lean ====
section
/-! DEFINITION. The loader: objects, version notes, variants and selectors, routine tables and their body rules, data
placement, relocations, binding, and unloading (R30..R33, R40, R317..R334, R413). A refusal is its cause of Table 25.1. -/

namespace Sys2Proof.Machine

/-! ### Memory of the partition -/

/-- Read bytes at virtual addresses of a partition under intent 0. -/
def readRange (s : State) (part va n : Nat) : Option (State × List Byte) :=
  if 2 ^ 56 < va + n then none
  else match reachRange s part true va n 0 with
    | .error _ => none
    | .ok (s, g) => some (s, (List.range n).map fun i => viewByte s (Who.agent part) (granAddr g va i))

/-- Whether every page of a range translates under an intent. -/
def rangeReaches (s : State) (part va n : Nat) (i : BitVec 2) : Bool :=
  n == 0 || (decide (va + n ≤ 2 ^ 56) && (reachRange s part true va n i).toOption.isSome)

/-- Write bytes that lie in one granule, at a physical address, as immediate writes; `full` also sets the full/empty bit of
every written word (R326). -/
def writeChunk (full : Bool) (s : State) (part pa : Nat) (l : List Byte) : State :=
  if l.isEmpty then s
  else if !flowOk s part pa then countFabErr s part
  else if portFailed s pa then s
  else
    let s := { s with mem := Memory.setRange s.mem pa l,
                      memTag := s.memTag.filter fun (k, _) => !coversWord pa l.length k }
    if full then (s.feEmpty.filter fun k => decide (pa / 8 ≤ k) && decide (8 * k < pa + l.length)).foldl (fun s k =>
      setFull s (8 * k) true 0xF0) s
    else s

/-- Write bytes at a virtual address, granule by granule. -/
def writeGranules (full : Bool) (part va : Nat) (l : List Byte) : List Nat → Nat → State → State
  | [], _, s => s
  | g :: r, k, s =>
    let lo := max va ((va / 65536 + k) * 65536)
    let hi := (va / 65536 + k + 1) * 65536
    writeGranules full part va l r (k + 1) (writeChunk full s part (g + lo % 65536) ((l.drop (lo - va)).take (hi - lo)))

/-- Write bytes at virtual addresses of a partition under intent 1; nothing when they do not translate. -/
def writeVa (full : Bool) (s : State) (part va : Nat) (l : List Byte) : State :=
  if l.isEmpty ∨ 2 ^ 56 < va + l.length then s
  else match reachRange s part true va l.length 1 with
    | .error _ => s
    | .ok (s, gs) => writeGranules full part va l gs 0 s

/-- Write bytes and leave every full/empty bit as it is: results, reports, relocations (R330, R334). -/
def writeRange (s : State) (part va : Nat) (l : List Byte) : State := writeVa false s part va l

/-- Write a data section: every written word is full from now on (R326). -/
def writeData (s : State) (part va : Nat) (l : List Byte) : State := writeVa true s part va l

/-! ### The object (R317, R318) -/

/-- A section of an object, with its bytes (zeros for a ZERO section). -/
structure Sect where
  kind : Nat
  index : Nat
  flags : Nat
  off : Nat
  size : Nat
  align : Nat
  rsv : Bool
  body : List Byte
  deriving DecidableEq, Repr

def zeroBytes (l : List Byte) : Bool := l.all (· == 0)
def pad8 (n : Nat) : Nat := (n + 7) / 8 * 8
def slice (l : List Byte) (o n : Nat) : List Byte := (l.drop o).take n

/-- A section table entry. -/
def sectAt (obj : List Byte) (at' : Nat) : Sect :=
  let e := slice obj at' 32
  let kind := leAt e 0 2
  let flags := leAt e 4 4
  let size := leAt e 16 8
  { kind := kind, index := leAt e 2 2, flags := flags, off := leAt e 8 8, size := size, align := leAt e 24 1,
    rsv := !zeroBytes (slice e 25 7),
    body := if kind = 5 ∧ flags % 2 = 1 then List.replicate size 0 else slice obj (leAt e 8 8) size }

/-- The sections of an object; its section count is bounded by its header check. -/
def sectsOf (obj : List Byte) : List Sect :=
  (List.range (min (leAt obj 6 2) 1024)).map fun i => sectAt obj (leAt obj 16 8 + 32 * i)

def Sect.zero (x : Sect) : Bool := x.kind == 5 && x.flags % 2 == 1

/-- One entry breaks Table 16.2. -/
def Sect.bad (x : Sect) (total : Nat) : Bool :=
  x.kind == 0 || x.kind == 7 || (!x.zero && (x.off % 8 != 0 || decide (total < x.off + x.size))) ||
    (decide (x.kind < 7) && x.rsv) ||
    (match x.kind with
     | 4 => decide (255 < x.index) || decide (1 < x.flags) || x.align != 0 || decide (x.size < 8) ||
        decide (16384 < x.size) || x.size % 8 != 0
     | 5 => decide (255 < x.index) || decide (7 < x.flags) || decide (x.align < 3) || decide (16 < x.align)
     | 1 => x.index != 0 || x.flags != 0 || x.align != 0
     | 2 => x.index != 0 || x.flags != 0 || x.align != 0
     | 3 => x.index != 0 || x.flags != 0 || x.align != 0
     | 6 => x.index != 0 || x.flags != 0 || x.align != 0
     | _ => false)

def Sect.meets (a b : Sect) : Bool :=
  !a.zero && !b.zero && a.size != 0 && b.size != 0 && decide (a.off < b.off + b.size) && decide (b.off < a.off + a.size)

/-- Two sections of a list overlap. -/
def overlapping : List Sect → Bool
  | [] => false
  | x :: r => r.any x.meets || overlapping r

def countKind (l : List Sect) (k : Nat) : Nat := (l.filter (·.kind == k)).length
def indices (l : List Sect) (k : Nat) : List Nat := (l.filter (·.kind == k)).map (·.index)

/-- The header and section table are not as R317 and R318 say (cause 0x02). -/
def objectBad (obj : List Byte) : Bool :=
  let total := obj.length
  let n := leAt obj 6 2
  let so := leAt obj 16 8
  decide (total < 64) || slice obj 0 4 != [0x41, 0x4C, 0x4C, 0x31] || leAt obj 4 2 != 1 || !zeroBytes (slice obj 24 40) ||
    decide (n < 3) || decide (1024 < n) || so % 8 != 0 || decide (total < so + 32 * n) ||
    (let l := sectsOf obj
     l.any (·.bad total) || overlapping l || countKind l 1 != 1 || countKind l 2 != 1 || decide (1 < countKind l 3) ||
       decide (1 < countKind l 6) || !(decide (indices l 4).Nodup) || !(decide (indices l 5).Nodup))

/-- The bytes of the only section of a kind. -/
def bodyOfKind (l : List Sect) (k : Nat) : List Byte := ((l.find? (·.kind == k)).map (·.body)).getD []
def sectOf (l : List Sect) (k i : Nat) : Option Sect := l.find? fun x => x.kind == k && x.index == i

/-- NRT, as the routine table section gives it. -/
def nrtOf (obj : List Byte) : Nat := leAt (bodyOfKind (sectsOf obj) 3) 0 2

/-! ### The version note (R319, R320) -/

def versionTags (v : List Byte) : List Nat := (List.range (leAt v 8 2)).map fun i => leAt v (16 + 2 * i) 2

/-- Strictly ascending. -/
def ascending : List Nat → Bool
  | a :: b :: r => decide (a < b) && ascending (b :: r)
  | _ => true

/-- The first cause of the version note. -/
def versionCause (v : List Byte) : Option Nat :=
  let nt := leAt v 8 2
  if v.length < 16 ∨ leAt v 0 2 ≠ 1 ∨ leAt v 7 1 ≠ 0 ∨ ¬ zeroBytes (slice v 10 6) ∨ v.length ≠ pad8 (16 + 2 * nt) ∨
      ¬ zeroBytes (v.drop (16 + 2 * nt)) then some 0x03
  else if 0x0900 < leAt v 2 2 ∨ leAt v 4 2 < 0x0900 then some 0x04
  else if leAt v 6 1 < 1 ∨ 3 < leAt v 6 1 then some 0x05
  else if 64 < nt ∨ ¬ ascending (versionTags v) ∨ (versionTags v).any (fun t => t != 2 && t != 7) then some 0x06
  else none

/-! ### Variants and selectors (R321..R323) -/

/-- A variant: its selector and its segment indices. -/
structure Variant where
  sel : List Byte
  segs : List Nat
  deriving DecidableEq, Repr

/-- Parse `n` variant entries from offset `o`. -/
def parseVariants (t : List Byte) : Nat → Nat → Option (List Variant)
  | 0, _ => some []
  | n + 1, o =>
    let sl := leAt t o 2
    let ns := leAt t (o + 2) 2
    let so := o + 8 + pad8 sl
    let e := so + pad8 (2 * ns)
    if t.length < o + 8 ∨ sl < 1 ∨ 256 < sl ∨ ns < 1 ∨ 256 < ns ∨ ¬ zeroBytes (slice t (o + 4) 4) ∨ t.length < e ∨
        ¬ zeroBytes (slice t (o + 8 + sl) (so - (o + 8 + sl))) ∨
        ¬ zeroBytes (slice t (so + 2 * ns) (e - (so + 2 * ns))) then none
    else (parseVariants t n e).map
      (⟨slice t (o + 8) sl, (List.range ns).map fun i => leAt t (so + 2 * i) 2⟩ :: ·)

/-- The variant table's layout is checked before any selector runs. -/
def variantsOf (t : List Byte) : Option (List Variant) :=
  if t.length < 8 ∨ leAt t 0 2 < 1 ∨ 16 < leAt t 0 2 ∨ ¬ zeroBytes (slice t 2 6) then none
  else parseVariants t (leAt t 0 2) 8

/-- Discovered quantities (Table 16.6). The table does not say how DEEPGB is made whole: that the populated bytes are summed and the
sum rounded down to GB is the model's choice (DESIGN CHOICE, log 53). -/
def quantity (s : State) (p : Part) (n : Nat) : Nat :=
  let cl := (List.range 48).filter fun g => p.cfg.clusters.getLsbD g
  match n with
  | 0x01 => 1024
  | 0x02 => 4096
  | 0x03 => 12 * cl.length
  | 0x04 => 64
  | 0x05 => 512
  | 0x06 => 3
  | 0x07 => 0x0900
  | 0x08 => cl.length
  | 0x09 => ((cl.map (· / 12)).eraseDups).length
  | 0x0A => ((if s.lpddr then 0x77359400000 else 0) + s.cxlCap.foldl (· + ·) 0) / 1000000000
  | _ => 0

def boolWord (b : Bool) : Word := if b then 1 else 0

/-- A binary selector operation on a and b; none for an unlisted code or a division by zero. -/
def selBinary (code : Nat) (a b : Word) : Option Word :=
  match code with
  | 0x10 => some (a + b)
  | 0x11 => some (a - b)
  | 0x12 => some (a * b)
  | 0x13 => if b = 0 then none else some (a.sdiv b)
  | 0x18 => some (boolWord (a == b))
  | 0x19 => some (boolWord (a != b))
  | 0x1A => some (boolWord (a.slt b))
  | 0x1B => some (boolWord (a.sle b))
  | 0x1C => some (boolWord (b.slt a))
  | 0x1D => some (boolWord (b.sle a))
  | 0x20 => some (boolWord (a != 0 && b != 0))
  | 0x21 => some (boolWord (a != 0 || b != 0))
  | _ => none

def pushSel (st : List Word) (v : Word) : Option (List Word) := if 16 ≤ st.length then none else some (v :: st)

/-- Run a selector; `fuel` bounds its codes by its length. The value, or none when it breaks R322. -/
def runSelector (q : Nat → Nat) : Nat → List Byte → List Word → Option Word
  | 0, _, _ => none
  | _ + 1, [], _ => none
  | n + 1, c :: r, st =>
    let imm (k : Nat) (ext : Nat → Word) : Option Word :=
      if r.length < k then none
      else match pushSel st (ext (leAt r 0 k)) with
        | none => none
        | some st => runSelector q n (r.drop k) st
    match c.toNat with
    | 0x00 => (match st with | [v] => some v | _ => none)
    | 0x01 => imm 1 fun v => (BitVec.ofNat 8 v).signExtend 64
    | 0x02 => imm 4 fun v => (BitVec.ofNat 32 v).signExtend 64
    | 0x03 => imm 8 fun v => BitVec.ofNat 64 v
    | 0x04 => imm 1 fun v => BitVec.ofNat 64 (q v)
    | 0x22 => (match st with
        | a :: t => runSelector q n r (boolWord (a == 0) :: t)
        | [] => none)
    | code => match st with
      | b :: a :: t => (match selBinary code a b with
          | some v => runSelector q n r (v :: t)
          | none => none)
      | _ => none

/-- The first variant whose selector ends nonzero, with its number. -/
def chooseVariant (q : Nat → Nat) : List Variant → Nat → Except Nat (Nat × Variant)
  | [], _ => .error 0x07
  | v :: r, k =>
    match runSelector q (v.sel.length + 1) v.sel [] with
    | none => .error 0x08
    | some x => if x ≠ 0 then .ok (k, v) else chooseVariant q r (k + 1)

/-! ### The routine table (R30, R324, R325) -/

/-- A routine table entry as the object holds it (Table 16.7), with its body's bundles. -/
structure RawEntry where
  rnField : Nat
  profile : Nat
  rsv : Nat
  sig : List (BitVec 8)
  kkind : Nat
  fkind : Nat
  effects : Nat
  npts : Nat
  seg : Nat
  shadow : Nat
  bodyOff : Nat
  bodyLen : Nat
  ptsOff : Nat
  digest : BitVec 256
  points : List Nat
  dropped : Bool
  bundles : Option (List BodyBundle)
  deriving DecidableEq, Repr

def wordsOfBytes : List Byte → List (BitVec 64)
  | b0 :: b1 :: b2 :: b3 :: b4 :: b5 :: b6 :: b7 :: r => (b7 ++ b6 ++ b5 ++ b4 ++ b3 ++ b2 ++ b1 ++ b0) :: wordsOfBytes r
  | _ => []

def rawEntry (rt : List Byte) (l : List Sect) (segs : List Nat) (i : Nat) : RawEntry :=
  let e := slice rt (8 + 64 * i) 64
  let seg := leAt e 14 2
  let off := leAt e 20 4
  let len := leAt e 24 4
  let pts := leAt e 28 4
  let n := leAt e 12 2
  { rnField := leAt e 0 2, profile := leAt e 2 1, rsv := leAt e 3 1, sig := slice e 4 4, kkind := leAt e 8 1,
    fkind := leAt e 9 1, effects := leAt e 10 2, npts := n, seg := seg, shadow := leAt e 16 4, bodyOff := off,
    bodyLen := len, ptsOff := pts, digest := (slice e 32 32).foldl (fun a b => (a <<< 8) ||| b.setWidth 256) 0,
    points := (List.range (min n 64)).map fun k => leAt rt (pts + 4 * k) 4, dropped := !segs.contains seg,
    bundles := (sectOf l 4 seg).bind fun x => bodyBundlesOf (wordsOfBytes (slice x.body off len)) }

def RawEntry.rn (e : RawEntry) : Nat := e.rnField % 4096

def sigBad (b : BitVec 8) : Bool :=
  let k := (b.extractLsb' 0 4).toNat
  let d := (b.extractLsb' 4 2).toNat
  b.extractLsb' 6 2 != 0 || decide (9 < k) || ((k == 0) != (d == 0))

/-- A field of an entry is out of range (cause 0x0B), but for duplicates. -/
def RawEntry.bad (e : RawEntry) (size : Nat) (rtLen : Nat) : Bool :=
  decide (4096 ≤ e.rnField) || e.rn == 0 || decide (3 < e.profile) || e.rsv != 0 || e.sig.any sigBad || decide (2 < e.kkind) ||
    decide (2 < e.fkind) || decide (8 ≤ e.effects) || decide (e.npts < 1) || decide (64 < e.npts) || e.shadow % 4 != 0 ||
    decide (65536 < e.shadow) || e.bodyOff % 8 != 0 || decide (e.bodyLen < 8) || decide (65536 < e.bodyLen) ||
    decide (size < e.bodyOff + e.bodyLen) || e.bodyLen % 8 != 0 || e.ptsOff % 4 != 0 ||
    decide (rtLen < e.ptsOff + 4 * e.npts) || (decide (e.rn < 0x400) && !isStandard e.rn) ||
    e.points.headD 1 != 0 || !ascending e.points || e.bundles.isNone

def RawEntry.computed (e : RawEntry) : BitVec 256 :=
  sha256 (digestInput e.profile e.sig e.kkind e.fkind e.effects e.shadow e.points (canonicalBody (e.bundles.getD [])))

/-- What an entry is besides its body. -/
def RawEntry.shape (e : RawEntry) : RoutineShape := ⟨e.sig, e.kkind, e.fkind, e.effects, e.points⟩

/-- The entry's digest is not the computed one, or not the published one of a standard number (cause 0x0C). One that carries a
published digest was computed from the published shape, with no shadow area (R445). -/
def RawEntry.digestBad (e : RawEntry) : Bool :=
  e.computed != e.digest ||
    (decide (e.rn < 0x400) &&
      !((publishedProfiles e.rn).contains e.profile && carriesDigest e.digest e.rn e.profile)) ||
    (match nativeFor e.digest with
      | some rn => publishedShape rn != some e.shape || e.shadow != 0
      | none => false)

/-! ### Body rules (R30) -/

def RawEntry.aliasOut (e : RawEntry) (j kind : Nat) : Bool :=
  let b := e.sig.getD j 0
  (b.extractLsb' 0 4).toNat == kind && b.getLsbD 5

/-- A destination that a body may write. -/
def RawEntry.destOk (e : RawEntry) : Opnd → Bool
  | .sD n => n == 0 || (decide (52 ≤ n) && decide (n ≤ 59))
  | .pD n => n == 0 || decide (12 ≤ n)
  | .kD n => n == 0 || decide (12 ≤ n)
  | .vD n => (decide (1008 ≤ n) && decide (n ≤ 1019)) || (decide (1020 ≤ n) && e.aliasOut (n - 1020) 1)
  | .hD n => decide (12 ≤ n) && e.aliasOut (n - 12) 5
  | .qD n => decide (12 ≤ n) && e.aliasOut (n - 12) 4
  | .qSet n => decide (12 ≤ n) && e.aliasOut (n - 12) 4
  | _ => true

/-- Destinations that a routine slot of a body names, by the signature of the entry it would bind to. -/
def RawEntry.routineDests (e : RawEntry) (all : List RawEntry) (w : BitVec 64) : List Opnd :=
  let rn := (w.extractLsb' 52 12).toNat
  let hit (p : Nat) : Option RawEntry := all.find? fun x => !x.dropped && x.rn == rn && x.profile == p
  let ent := match hit e.profile with | some x => some x | none => match hit 0 with
    | some x => some x
    | none => all.find? fun x => !x.dropped && x.rn == rn
  match ent with
  | none => []
  | some x => (List.range 4).filterMap fun j =>
      let v := (w.extractLsb' (38 - 10 * j) 10).toNat
      let b := x.sig.getD j 0
      if !b.getLsbD 5 then none
      else match (b.extractLsb' 0 4).toNat with
        | 1 => some (.vD v)
        | 2 => some (.sD v)
        | 3 => some (.pD v)
        | 4 => some (.qD v)
        | 5 => some (.hD v)
        | _ => none

/-- MOVRS of a body writes ARGX..ARGW only. -/
def movrsOk : Instr → Bool
  | .movrs _ _ => false
  | .fpstatWrite _ => false
  | .cirWrite _ => false
  | .febudgetWrite _ => false
  | .defprofileWrite _ => false
  | .qposWrite _ _ => false
  | _ => true

/-- A slot of a body keeps R30. A word that is no instruction names no destination. -/
def RawEntry.slotOk (e : RawEntry) (all : List RawEntry) (k : Nat) (w : BitVec 64) : Bool :=
  if 3 ≤ k then
    decide ((w.extractLsb' 52 12).toNat < 0x400) && (e.routineDests all w).all e.destOk
  else
    match decodeSlot k w with
    | .error _ => true
    | .ok i => i.opnds.all e.destOk && movrsOk i

/-- The control operation of a body's bundle keeps R30; `starts` are the bundles' offsets, `last` the last one. -/
def controlBodyOk (starts : List Nat) (len last off : Nat) (hw : BitVec 64) : Bool :=
  let level := (hw.extractLsb' 55 3).toNat
  match (hw.extractLsb' 58 6).toNat with
  | 0x00 => true
  | 0x01 =>
    let t : Int := (off : Int) + 8 * (hw.extractLsb' 24 34).toInt
    decide (0 ≤ t) && decide (t < (len : Int))
  | 0x05 => true
  | 0x07 =>
    let t := off + 8 * (hw.extractLsb' 24 16).toNat
    decide (6 ≤ level) && starts.contains t && t != last
  | 0x08 => decide (6 ≤ level)
  | 0x09 => true
  | 0x0A => true
  | 0x0B => true
  | _ => false

/-- The body of an entry keeps R30, but for cycles. -/
def RawEntry.bodyOk (e : RawEntry) (all : List RawEntry) : Bool :=
  let bs := e.bundles.getD []
  let starts := bs.map (·.off)
  let last := starts.getLastD 0
  (bs.all fun b =>
    (headerFields b.hw).np == 0 && !(headerFields b.hw).e && controlBodyOk starts e.bodyLen last b.off b.hw &&
      b.slots.all fun (k, w) => e.slotOk all k w) &&
  (match bs.getLast? with
   | none => false
   | some b =>
     ((b.hw.extractLsb' 58 6).toNat == 0x05 || (b.hw.extractLsb' 58 6).toNat == 0x01) && b.hw.extractLsb' 16 4 == 0) &&
  e.points.all fun k => decide (k < bs.length)

/-- Routine numbers that a body names. -/
def RawEntry.names (e : RawEntry) : List Nat :=
  (e.bundles.getD []).flatMap fun b => b.slots.filterMap fun (k, w) =>
    if 3 ≤ k && (w.extractLsb' 52 12).toNat != 0 then some (w.extractLsb' 52 12).toNat else none

/-- Take away, `n` times, every entry that names none of the others: what is left lies on or before a cycle. -/
def pruneCalls : Nat → List RawEntry → List RawEntry
  | 0, l => l
  | n + 1, l => pruneCalls n (l.filter fun e => e.names.any fun r => l.any (·.rn == r))

/-! ### Data and relocations (R326, R327) -/

/-- Bases of the data sections in INDEX order from an address on, with the end. -/
def placeData : List Sect → Nat → List (Nat × Nat) × Nat
  | [], a => ([], a)
  | x :: r, a =>
    let b := (a + 2 ^ x.align - 1) / 2 ^ x.align * 2 ^ x.align
    let (l, e) := placeData r (b + x.size)
    ((x.index, b) :: l, e)

/-- Insert by INDEX. -/
def insertSect (x : Sect) : List Sect → List Sect
  | [] => [x]
  | y :: r => if x.index < y.index then x :: y :: r else y :: insertSect x r

def dataSects (l : List Sect) : List Sect := (l.filter (·.kind == 5)).foldl (fun a x => insertSect x a) []

/-- Offsets of the S-slot words of a code segment, walking its bundles from its first byte. -/
def sSlotOffsets (ws : List (BitVec 64)) : Nat → Nat → List Nat
  | 0, _ => []
  | n + 1, k =>
    match ws[k]? with
    | none => []
    | some h =>
      let hd := headerFields h
      (if hd.pres.getLsbD 0 then [8 * (k + 1)] else []) ++ sSlotOffsets ws n (k + hd.words)

/-- What the loader has placed so far: the state and the code sections' words. -/
structure Placed where
  s : State
  code : List (Nat × List (BitVec 64))
  deriving DecidableEq, Repr

/-- Apply one relocation; none breaks R327. -/
def applyReloc (part : Nat) (l : List Sect) (segs : List Nat) (ents : List RawEntry) (bases : List (Nat × Nat))
    (x : Placed) (r : List Byte) : Option Placed :=
  let kind := leAt r 0 1
  let tk := leAt r 1 1
  let ti := leAt r 2 2
  let to' := leAt r 4 4
  match bases.find? (·.1 == leAt r 8 2) with
  | none => none
  | some (_, base) =>
    let v : Word := BitVec.ofNat 64 base + (BitVec.ofNat 32 (leAt r 12 4)).signExtend 64
    if leAt r 10 2 ≠ 0 ∨ to' % 8 ≠ 0 then none
    else if kind = 1 then
      if tk ≠ 5 then none
      else match bases.find? (·.1 == ti), sectOf l 5 ti with
        | some (_, b), some d =>
          if d.size < to' + 8 then none
          else some { x with s := writeRange x.s part (b + to') (bytesOf 8 v.toNat) }
        | _, _ => none
    else if kind = 2 ∨ kind = 3 then
      if tk ≠ 4 ∨ ¬ segs.contains ti then none
      else match x.code.find? (·.1 == ti) with
        | none => none
        | some (_, ws) =>
          let w := ws.getD (to' / 8) 0
          let op := (w.extractLsb' 58 6).toNat
          let inBody := ents.any fun e => !e.dropped && e.seg == ti && decide (e.bodyOff ≤ to') &&
            decide (to' < e.bodyOff + e.bodyLen)
          if ws.length ≤ to' / 8 ∨ inBody ∨ ¬ (sSlotOffsets ws ws.length 0).contains to' ∨
              op ≠ (if kind = 2 then 0x09 else 0x0A) then none
          else
            let imm := if kind = 2 then v.extractLsb' 0 32 else v.extractLsb' 32 32
            let w := (w &&& ~~~((0xFFFFFFFF : Word) <<< 6)) ||| (imm.setWidth 64 <<< 6)
            some { x with code := x.code.map fun (i, l) => if i = ti then (i, lset l (to' / 8) w) else (i, l) }
    else none

def applyRelocs (part : Nat) (l : List Sect) (segs : List Nat) (ents : List RawEntry) (bases : List (Nat × Nat)) :
    List (List Byte) → Placed → Option Placed
  | [], x => some x
  | r :: rs, x => match applyReloc part l segs ents bases x r with
    | none => none
    | some x => applyRelocs part l segs ents bases rs x

/-! ### The load (R328..R332) -/

/-- A load request (Table 16.9), and whether firmware itself issued it. -/
structure LoadReq where
  objVa : Nat
  objLen : Nat
  dbase : Nat
  dlen : Nat
  lflags : Nat
  rsv : Bool
  reportVa : Nat
  statVa : Nat
  doneCtr : Nat
  firmware : Bool
  deriving DecidableEq, Repr

def LoadReq.ofBytes (l : List Byte) (fw : Bool) : LoadReq :=
  { objVa := leAt l 0 8, objLen := leAt l 8 8, dbase := leAt l 16 8, dlen := leAt l 24 8, lflags := leAt l 32 1,
    rsv := !zeroBytes (slice l 33 7), reportVa := leAt l 40 8, statVa := leAt l 48 8, doneCtr := leAt l 56 8,
    firmware := fw }

/-- What a load that ends gives: state, refusal cause (0 for none), variant, image handle and report. -/
structure LoadEnd where
  s : State
  cause : Nat
  variant : Nat
  handle : Word
  report : List Word
  deriving DecidableEq, Repr

/-- Shadow offsets of the entries that are kept (R40), and the bytes of a context's block. -/
def shadowOffsets : List RawEntry → Nat → List Nat × Nat
  | [], a => ([], a)
  | e :: r, a =>
    let (l, n) := shadowOffsets r (if e.dropped then a else a + pad8 e.shadow)
    (a :: l, n)

/-- Bind an entry (R31, R33). -/
def bindEntry (segs : List Nat) (force : Bool) (e : RawEntry) (shadowOff : Nat) : REntry :=
  let std := if e.dropped then none else nativeFor e.digest
  { rn := e.rn, profile := e.profile, sig := e.sig, kkind := e.kkind, fkind := e.fkind,
    effects := BitVec.ofNat 16 e.effects, points := e.points,
    body := 16384 * segs.findIdx (· == e.seg) + e.bodyOff, bodyLen := e.bodyLen, shadow := e.shadow,
    shadowOff := shadowOff, digest := e.digest, native := std.isSome && !force, std := std.getD 0,
    published := (std.map isMatrixRoutine).getD false, dropped := e.dropped }

def reportWord (e : REntry) : Word :=
  BitVec.ofNat 64 (e.rn + e.profile % 64 * 2 ^ 12 + (if e.native then 2 ^ 18 else 0) + (if e.dropped then 2 ^ 19 else 0))

/-- A handle that has never been issued: the loader's choice when it is fresh and nonzero (log 16). -/
def freshHandle (s : State) : Word :=
  let c := Config.imageHandle s.loads
  if c ≠ 0 ∧ ¬ s.handles.contains c then c
  else (((List.range (s.handles.length + 1)).map fun k => BitVec.ofNat 64 (k + 1)).find? fun k => !s.handles.contains k).getD 0

/-- Where the code of an image stands: a multiple of 64 KiB (log 16). -/
def codeBase (h : Word) : Word := BitVec.ofNat 64 ((Config.codeBaseOf h).toNat % 2 ^ 32 * 65536)

/-- Step 1 of R331: the request, the header and the section table. -/
def loadStep1 (s : State) (part : Nat) (q : LoadReq) : Except Nat (State × List Byte) :=
  if q.objLen < 16 ∨ 2 ≤ q.lflags ∨ q.rsv = true ∨ ¬ rangeReaches s part q.statVa 16 1 ∨
      ¬ rangeReaches s part q.dbase q.dlen 1 then .error 0x01
  else match readRange s part q.objVa q.objLen with
    | none => .error 0x01
    | some (s, obj) =>
      if leAt obj 8 8 ≠ q.objLen ∨ (q.reportVa ≠ 0 ∧ ¬ rangeReaches s part q.reportVa (8 * nrtOf obj) 1) then .error 0x01
      else if objectBad obj then .error 0x02
      else .ok (s, obj)

/-- Step 5: the routine table's entries, or the first cause. -/
def loadStep5 (l : List Sect) (segs : List Nat) : Except Nat (List RawEntry) :=
  match l.find? (·.kind == 3) with
  | none => .ok []
  | some x =>
    let rt := x.body
    let n := leAt rt 0 2
    if rt.length < 8 ∨ ¬ zeroBytes (slice rt 2 6) ∨ 1024 < n ∨ rt.length < 8 + 64 * n then .error 0x0B
    else
      let ents := (List.range n).map (rawEntry rt l segs)
      let live := ents.filter (!·.dropped)
      let keys : List (Nat × Nat) := live.map fun e => (e.rn, e.profile)
      if (live.any fun e => e.bad (((sectOf l 4 e.seg).map fun x => x.size).getD 0) rt.length) || !(decide keys.Nodup) then .error 0x0B
      else if (live.any fun e => e.digestBad) then .error 0x0C
      else if (live.any fun e => !e.bodyOk live) || !(pruneCalls live.length live).isEmpty then .error 0x0D
      else .ok ents

/-- Steps 2 to 7 of R331. -/
def loadRest (s : State) (part : Nat) (p : Part) (q : LoadReq) (obj : List Byte) : LoadEnd :=
  let refuse (s : State) (c v : Nat) : LoadEnd := ⟨s, c, v, 0, []⟩
  let l := sectsOf obj
  match versionCause (bodyOfKind l 1) with
  | some c => refuse s c 0
  | none =>
    match variantsOf (bodyOfKind l 2) with
    | none => refuse s 0x08 0
    | some vs =>
      match chooseVariant (quantity s p) vs 0 with
      | .error c => refuse s c 0
      | .ok (vi, v) =>
        if v.segs.any fun i => (sectOf l 4 i).isNone then refuse s 0x09 vi
        else if !q.firmware && v.segs.any (fun i => ((sectOf l 4 i).map (·.flags % 2 == 1)).getD false) then refuse s 0x0A vi
        else match loadStep5 l v.segs with
          | .error c => refuse s c vi
          | .ok ents =>
            let ds := dataSects l
            let (bases, fin) := placeData ds q.dbase
            if q.dbase + q.dlen < fin then refuse s 0x0E vi
            else
              let s := ds.foldl (fun s d => writeData s part (((bases.find? (·.1 == d.index)).map (·.2)).getD 0) d.body) s
              let code := (l.filter (·.kind == 4)).map fun x => (x.index, wordsOfBytes x.body)
              let rel := bodyOfKind l 6
              let rels := (List.range (rel.length / 16)).map fun i => slice rel (16 * i) 16
              match (if rel.length % 16 ≠ 0 then none else applyRelocs part l v.segs ents bases rels ⟨s, code⟩) with
              | none => refuse s 0x0F vi
              | some x =>
                let s := x.s
                let p := (s.part? part).getD p
                let h := freshHandle s
                let (offs, n) := shadowOffsets ents 0
                let es := (ents.zip offs).map fun (e, o) => bindEntry v.segs (q.lflags % 2 == 1) e o
                let seg (i : Nat) : Segment :=
                  ⟨((x.code.find? (·.1 == i)).map (·.2)).getD [], ((sectOf l 4 i).map (·.flags % 2 == 1)).getD false⟩
                let note := bodyOfKind l 1
                let im : Image :=
                  { part := part, handle := h,
                    digest := sha256 (obj ++ bases.flatMap (fun (_, b) => bytesOf 8 b) ++ bytesOf 2 vi),
                    base := codeBase h, segs := v.segs.map seg, entries := es, shr := (n + 2055) / 2056 * 2056,
                    defProfile := BitVec.ofNat 6 (leAt note 6 1), bt002 := (versionTags note).contains 2,
                    bt007 := (versionTags note).contains 7, variant := vi }
                let s := s.setPart part { p with images := p.images ++ [im] }
                let s := { s with handles := h :: s.handles, loads := s.loads + 1 }
                ⟨s, 0, vi, h, es.map reportWord⟩

/-- The bytes of the data region are undefined after a refusal (R331): each is a free value. -/
def spoilRegion (s : State) (part dbase dlen : Nat) : State :=
  if dlen = 0 ∨ 2 ^ 56 < dbase + dlen then s
  else
    let n := ((s.part? part).map (·.fresh)).getD 0
    writeRange (s.modPart part fun p => { p with fresh := p.fresh + 1 }) part dbase
      ((List.range dlen).map fun i => Config.freeMem (pairNat part n) (dbase + i))

/-- Carry out a load request (R330..R332, R413). -/
def runLoad (s : State) (part : Nat) (q : LoadReq) : State :=
  match s.part? part with
  | none => s
  | some p =>
    let e : LoadEnd := match loadStep1 s part q with
      | .error c => ⟨s, c, 0, 0, []⟩
      | .ok (s, obj) => loadRest s part p q obj
    let s := if e.cause = 0 then e.s else spoilRegion e.s part q.dbase q.dlen
    let s := if q.reportVa = 0 then s else writeRange s part q.reportVa (wordsBytes e.report)
    let s := writeRange s part q.statVa (wordsBytes [e.handle, BitVec.ofNat 64 (e.cause + e.variant * 256)])
    addVa s part (BitVec.ofNat 64 q.doneCtr) 1

/-! ### Unloading (R333, R334) -/

/-- The status of an unload request. -/
def unloadStatus (s : State) (part : Nat) (p : Part) (l : List Byte) : Nat :=
  let h := BitVec.ofNat 64 (leAt l 0 8)
  if ¬ zeroBytes (slice l 8 24) ∨ ¬ zeroBytes (slice l 33 15) ∨ ¬ rangeReaches s part (leAt l 48 8) 16 1 then 0x01
  else if ¬ (p.images.any (·.handle == h)) then 0x10
  else if p.nodes.any (fun (_, n) => n.kind != 0 && n.field 8 8 == leAt l 0 8) then 0x11
  else 0

/-- Carry out an unload request. -/
def runUnload (s : State) (part : Nat) (l : List Byte) : State :=
  match s.part? part with
  | none => s
  | some p =>
    let h := BitVec.ofNat 64 (leAt l 0 8)
    let st := unloadStatus s part p l
    let s := if st ≠ 0 then s else
      let s := s.setPart part { p with images := p.images.filter (·.handle != h) }
      let gone := (p.images.filter (·.handle == h)).map (·.digest)
      let kept := s.parts.flatMap fun (_, p) => p.images.map (·.digest)
      { s with cores := s.cores.map fun (k, c) =>
          (k, { c with overlays := c.overlays.filter fun (d, _) => !gone.contains d || kept.contains d }) }
    let s := writeRange s part (leAt l 48 8) (wordsBytes [h, BitVec.ofNat 64 st])
    addVa s part (BitVec.ofNat 64 (leAt l 56 8)) 1

end Sys2Proof.Machine
end

