-- ==== Sys2Proof/Machine/Place.lean ====
section
/-! DEFINITION. A state in which one herd-context is placed with given words as its code and has the next turn (log 2):
what loading an image, arming its node, firing, placing and selecting it leave, written directly. -/

namespace Sys2Proof.Machine

/-- A partition with every field 0. -/
def PartCfg.zero : PartCfg :=
  { clusters := 0, s1root := 0, s2root := 0, regenBase := 0, regenCount := 0, eventCtr := 0, faultLog := 0, s2Log := 0,
    parkBase := 0, parkCount := 0, wakeCount := 0, wakeBase := 0, wakeCtr := 0, stageBase := 0, stageSize := 0,
    l2ways := 0, tc := 0, cbQuota := List.replicate 12 0, vectors := 0 }

/-- A partition as it is created (R343). -/
def Part.create (cfg : PartCfg) : Part :=
  { cfg := cfg, s1root := cfg.s1root, epoch := 0, parkSeq := 0, lateDrops := List.replicate 4 0, hostErr := 0,
    fabErr := 0, stageUse := 0, nodes := [], queues := List.replicate 8 [], restore := [], halted := false, invals := [],
    regens := [], images := [], reqs := [], reqOrder := [], stopWait := none, wakeSeen := 0, fresh := 0,
    drafts := [] }

/-- The footprint of the placed node: one die, one herd, one core, CTXN 1, NLEV 6, B1 1024, B2 1030, B3 1100. -/
def placedFootprint : Nat :=
  1 + 2 ^ 4 + 2 ^ 12 + 6 * 2 ^ 20 + 1024 * 2 ^ 24 + 1030 * 2 ^ 37 + 1100 * 2 ^ 50

/-- The placed node's descriptor: KIND 1, DETERM, entry 0, that footprint, its loop table empty. -/
def placedDesc : List Byte :=
  [1, 0, 2] ++ List.replicate 21 0 ++ bytesOf 8 placedFootprint ++ List.replicate 192 0

def placedNode : Node :=
  { desc := placedDesc, state := .running, cause := 0, last := true, owed := 0, donen := 0, launch := 1, disarm := false,
    inst := some { id := 0, hcs := [0], staged := [], stagedTag := [], records := [], irrev := false, waitStage := false,
                   retCir := 0, regen := none, placedAt := 0, pend := none },
    requeues := 0, rollback := none, watch := none, joined := 0 }

def placedImage (words : List (BitVec 64)) : Image :=
  { part := 0, handle := 1, digest := 0, base := 0, segs := [⟨words, true⟩], entries := [], shr := 0, defProfile := 0,
    bt002 := false, bt007 := false, variant := 0 }

def placedMember : Member :=
  { core := 0, s := List.replicate 64 ⟨0, none⟩, p := 0, k := List.replicate 16 0, seed := 0, v := [],
    h := List.replicate 16 Handle.none, q := List.replicate 16 ⟨none, false, 0, 0, none, [], [], [], none, []⟩, fpstat := 0,
    cir := 0, args := [], inflight := [], consume := none, feHeld := none, popHeld := [], stuckS := [], stuckV := [] }

def placedHc : HerdCtx :=
  { part := 0, node := 0, inst := 0, herd := 0, dieRank := 0, slot := 0, rank := 0, jpos := 0,
    members := [placedMember], lead := 0, image := 1, hstate := .running, wait := none, stop := none, parked := none,
    trap := none, held := false, ep := 0, passes := 0, lastRun := 0, placed := 0, vcc := 0, pc := 0, links := [],
    spill := [], frames := [], rb := none, loops := [], idx := List.replicate 6 0, feBudget := 64, defProfile := 0,
    feTries := 0, waiteNext := 0, restoreWait := none, saveEpoch := 0, b1 := 1024, b2 := 1030, b3 := 1100, ctxl := 0,
    nv := 1024, lastFe := none, regenWoken := none, yielded := false, saving := false, noRestore := false,
    savedSlots := [], savedAccs := [], savedShadow := [], waitedAt := 0, unsavable := false, serial := 0, fresh := 0 }

/-- Partition 0 with its node 0 RUNNING on core 0 of die 0, at the first of `words`, and its turn next. -/
def placeWords (s : State) (words : List (BitVec 64)) : State :=
  let p := { Part.create { PartCfg.zero with clusters := 1 } with
    nodes := [(0, placedNode)], images := [placedImage words] }
  let s := (s.setPart 0 p).setHc 0 placedHc
  let s := s.setCore 0 { s.core 0 with b1 := 1024, b2 := 1030, b3 := 1100, ctxl := 0, overlays := [(0, 0)] }
  { s with agenda := [.hc 0], nextHc := max s.nextHc 1, nextInst := max s.nextInst 1,
           handles := if s.handles.contains 1 then s.handles else 1 :: s.handles }

end Sys2Proof.Machine
end

