-- ==== Sys2Proof/Machine/Reliability.lean ====
section
/-! DEFINITION. Errors and wear: error records, poison at the granule that an error strikes, scrubbing, checked herds,
markhor pairs, links and the end-of-life register (R340, R418..R420, R424, R427..R431). -/

namespace Sys2Proof.Machine

/-! ### What an uncorrected error strikes (R420) -/

/-- The bytes that corrupted data is found to hold (log 20). -/
def corrupt (s : State) (a n : Nat) : List Byte := (List.range n).map fun i => Config.freeMem s.fresh (a + i)

/-- The aligned 8-byte word of device memory at an address. -/
def poisonMem (s : State) (a : Nat) (t : BitVec 12) : State :=
  let w := a / 8 * 8
  setMemTag (putMem s w (corrupt s w 8)) w (mergeTag (aget s.memTag (w / 8)) (some t))

/-- What a node has staged of an aligned word (R191). -/
def poisonStaged (s : State) (part node w : Nat) (t : BitVec 12) : State :=
  s.modInst part node fun i =>
    { i with
      staged := (i.staged.filter fun (x, _) => x / 8 == w / 8).foldl (fun l (x, _) =>
        cellPut l x (Config.freeMem s.fresh x)) i.staged
      stagedTag := aset i.stagedTag (w / 8) (mergeTag ((aget i.stagedTag (w / 8)).getD none) (some t)) }

/-- The instances that a test of their staged bytes picks out, by partition and node. -/
def stagers (s : State) (p : Inst → Bool) : List (Nat × Nat) :=
  s.parts.flatMap fun (k, x) => (x.nodes.filter fun (_, n) => n.inst.any p).map fun (i, _) => (k, i)

/-- A word of memory that L2 or a channel holds: the word itself, or what a node has staged of it. Which copy is struck is not told
by the address (log 20). -/
def poisonWord (s : State) (a : Nat) (t : BitVec 12) : State :=
  let w := a / 8 * 8
  let l := stagers s fun i => i.staged.any fun (x, _) => x / 8 == w / 8
  match (none :: l.map some)[Config.struckPart s.fresh % (l.length + 1)]? with
  | some (some (p, n)) => poisonStaged s p n w t
  | _ => poisonMem s a t

/-- A word of the staging area holds part of some line that a node of its partition has spilled (R292, log 19, log 20). -/
def poisonStage (s : State) (part a : Nat) (t : BitVec 12) : State :=
  let l := (stagers s fun i => !i.records.isEmpty).filter (·.1 == part) |>.flatMap fun (k, n) =>
    (((s.inst? k n).map (·.records)).getD []).map fun r => (n, r)
  match l[Config.struckPart s.fresh % max l.length 1]? with
  | some (n, r) => poisonStaged s part n (256 * r + a % 256 / 8 * 8) t
  | none => s

/-- Whether an address lies in a partition's staging area. -/
def stageHome (s : State) (a : Nat) : Option Nat :=
  (s.parts.find? fun (_, p) =>
    decide (p.cfg.stageBase.toNat ≤ a) && decide (a < p.cfg.stageBase.toNat + p.cfg.stageSize.toNat)).map (·.1)

/-- A word of a core's L1 holds a word of some page that a handle of a herd-context on the core reaches (R110, log 20). -/
def poisonL1 (s : State) (core w : Nat) (t : BitVec 12) : State :=
  let l := s.hctxs.flatMap fun (_, h) => (h.members.filter (·.core == core)).flatMap fun m => m.h.filter (·.valid)
  match l[Config.struckPart s.fresh % max l.length 1]? with
  | some x => poisonWord s (x.base.toNat + Config.struckPart (pairNat s.fresh w) % 2 ^ sizeLog x.size) t
  | none => s

/-- The rows of a die's combine unit: which one is struck is not told by an address in the unit's bytes. -/
def poisonComb (s : State) (die : Nat) (t : BitVec 12) : State :=
  s.modDie die fun d =>
    let rows := d.comb.tokens.flatMap fun (k, x) => (List.range x.acc.length).map fun g => (k, g)
    match rows[Config.struckPart s.fresh % max rows.length 1]? with
    | none => d
    | some (k, g) =>
      match aget d.comb.tokens k with
      | none => d
      | some x =>
        let hit (r : VReg) : VReg :=
          ⟨(List.range 256).map fun i => Config.freeV s.fresh 0 i, mergeTag r.tag (some t)⟩
        { d with comb := { d.comb with
            tokens := aset d.comb.tokens k { x with acc := lset x.acc g ((x.acc.getD g none).map hit) } } }

/-- A pool word of a core: a lane of a vector register, a slice word, a word of the scratchpad, or a word of the L1. -/
def poisonPool (s : State) (core bank row : Nat) (t : BitVec 12) : State :=
  let c := s.core core
  let w := 257 * row + bank
  if row < c.b1 then
    { s with hctxs := s.hctxs.map fun (id, h) =>
        (id, { h with members := h.members.map fun m =>
          if h.occupies = true ∧ m.core = core ∧ h.slot * h.nv * 256 ≤ w ∧ w < (h.slot + 1) * h.nv * 256 then
            let n := (w - h.slot * h.nv * 256) / 256
            let x := m.vreg n
            { m with v := aset m.v n ⟨lset x.lanes (w % 256) (Config.freePool s.fresh w), mergeTag x.tag (some t)⟩ }
          else m }) }
  else if row < c.b2 then s.setCore core (c.setWord w (Config.freePool s.fresh w))
  else if row < c.b3 then
    let a := 4 * (w - 257 * c.b2)
    s.setCore core ((c.setWord w (Config.freePool s.fresh w)).setPairTag a (mergeTag (c.pairTag a) (some t)))
  else poisonL1 s core w t

/-- A block of an operand slot. -/
def poisonBlock (s : State) (core o b : Nat) (t : BitVec 12) : State :=
  let c := s.core core
  let m := (c.oslot o).m.toNat
  s.setCore core (c.setTileBlock o m b (corrupt s b (4 * m + 1)) (mergeTag (aget (c.oslot o).tags b) (some t)))

/-- An element of an accumulator's row; which one is not told by the place. -/
def poisonElem (s : State) (core a row : Nat) (t : BitVec 12) : State :=
  let c := s.core core
  let e := row % 128 * 128 + Config.struckPart s.fresh % 128
  let x := (c.acc a).elem e
  let (m, ew, g) := Config.freeAcc s.fresh e
  s.setCore core (c.setAcc a ((c.acc a).setElem e
    ⟨m, ew.extractLsb' 0 16, ew.getLsbD 16, g, mergeTag x.tag (some t)⟩))

/-- Poison the data concerned at the granule that holds its tag. -/
def strike (s : State) (e : ErrSite) (t : BitVec 12) : State :=
  let s := { s with fresh := s.fresh + 1 }
  let a := e.loc.toNat
  let hi := (e.loc.extractLsb' 12 9).toNat
  let lo := (e.loc.extractLsb' 0 12).toNat
  match e.cls.toNat with
  | 4 => if rangeTier s (a / 8 * 8) 8 = some 3 then poisonMem s a t else poisonComb s e.die t
  | 5 => poisonPool s e.unit.toNat hi lo t
  | 6 => poisonBlock s e.unit.toNat hi lo t
  | 7 => poisonElem s e.unit.toNat hi lo t
  | 8 => s
  | 11 => s
  | _ => match stageHome s a with
    | some p => poisonStage s p a t
    | none => poisonWord s a t

/-- UNCORRECTED_ERROR: a record of KIND 1, and the data poisoned with its tag. Classes 12..15 are not produced. -/
def uncorrected (s : State) (e : ErrSite) : State :=
  if 12 ≤ e.cls.toNat ∨ s.dies.length ≤ e.die then s
  else strike (errorRecord s e.die e.cls 1 e.part.toNat e.unit e.loc e.detail) e (nextTag s e.die e.cls)

/-- Corrected counts are kept by class and unit. -/
def unitKey (e : ErrSite) : Nat := e.cls.toNat * 1024 + e.unit.toNat

/-- CORRECTED_ERROR: the unit's corrected count rises; no value changes and no record is written. -/
def corrected (s : State) (e : ErrSite) : State :=
  s.modDie e.die fun d => { d with corrected := aset d.corrected (unitKey e) ((aget d.corrected (unitKey e)).getD 0 + 1) }

/-- The unit classes that the scrubber reads: HBM, LPDDR, L2, scratchpads, pools, operand memories and accumulators. -/
def scrubbed (cls : Nat) : Bool := [0, 1, 3, 4, 5, 6, 7].contains cls

/-- Corrections of a pool row within one pass of the scrubber that make it lasting (R427). -/
def fixLimit : Nat := 4

/-- The scrubber has corrected a pool row: its fourth correction within a pass makes the row lasting, with a record of KIND 0. -/
def scrubFix (s : State) (e : ErrSite) : State :=
  let s := corrected s e
  if e.cls ≠ 5 ∨ s.dies.length ≤ e.die then s
  else
    let core := e.unit.toNat
    let key := (e.loc.extractLsb' 0 21).toNat
    let n := (aget (s.core core).fixes key).getD 0 + 1
    let s := s.setCore core { s.core core with fixes := aset (s.core core).fixes key n }
    if n = fixLimit then
      takeOut (errorRecord s e.die e.cls 0 e.part.toNat e.unit e.loc e.detail) (e.cls, e.die, e.unit, e.loc) e.loc
    else s

/-- The scrubber begins a new pass. -/
def scrubPass (s : State) : State := { s with cores := s.cores.map fun (k, c) => (k, { c with fixes := [] }) }

/-- SCRUB_READ (R427). -/
def scrub (s : State) (e : ErrSite) (f : ScrubFinding) : State :=
  match f with
  | .clean => s
  | .corrected => scrubFix s e
  | .uncorrectable => if scrubbed e.cls.toNat then uncorrected s e else s

/-! ### Checked herds and markhor pairs (R428, R429) -/

/-- CHECKED_MISMATCH: the bundle is not performed, CHECK is set in the leading member's CIR, every herd-context of the node
is discarded, and the instance meets R424 with that CIR. -/
def checkedFail (s : State) (id mem : Nat) : State :=
  match s.hc? id with
  | none => s
  | some h =>
    match s.node? h.part h.node with
    | none => s
    | some n =>
      match n.state, n.inst with
      | .running, some i =>
        if n.checked && i.hcs.contains id && h.hstate == .running && decide (mem < h.members.length) then
          let s := s.modMember id 0 fun m => { m with cir := m.cir ||| 0x20 }
          let s := setNState s h.part h.node .commit
          failCommit s h.part h.node n i (instCir s i)
        else s
      | _, _ => s

/-- MARKHOR_PAIR_MISMATCH: the handler's output is discarded and it runs again from its record; a second mismatch on the
same record marks the pair failed, with an error record of KIND 2 and class 11. -/
def pairMismatch (s : State) (die pair : Nat) : State :=
  match s.dies[die]? with
  | none => s
  | some d =>
    match d.trapQ, d.pairs[pair]? with
    | r :: _, some p =>
      if d.unprotected || p.failed then s
      else if p.mismatches = 0 then s.modDie die fun d => { d with pairs := lset d.pairs pair { p with mismatches := 1 } }
      else
        let s := s.modDie die fun d => { d with pairs := lset d.pairs pair { p with failed := true, mismatches := 0 } }
        let owner := ((s.hc? r.hc).map (·.part)).getD 63
        errorRecord { s with fresh := s.fresh + 1 } die 11 2 owner (BitVec.ofNat 10 (2 * pair)) (Config.recordField s.fresh) 0
    | _, _ => s

/-! ### Defects (R432..R434) -/

/-- Some bits of a pool cell stick at their levels; the cells of spare rows follow those of rows 0..4,095. -/
def poolDefect (s : State) (core cell : Nat) (bits level : W32) : State :=
  let c := s.core core
  let (m, v) := (aget c.stuck cell).getD (0, 0)
  wireAll (s.setCore core { c with stuck := aset c.stuck cell (m ||| bits, forceBits v (some (bits, level))) }) [core]

/-- Some bits of a scalar register of a context slot stick at their levels. -/
def registerDefect (s : State) (core slot n : Nat) (bits level : Word) : State :=
  let c := s.core core
  let k := slot * 64 + n % 64
  let (m, v) := (aget c.stuckRegs k).getD (0, 0)
  wireAll (s.setCore core { c with stuckRegs := aset c.stuckRegs k (m ||| bits, forceBits v (some (bits, level))) }) [core]

/-! ### Links (R340, R430) -/

/-- LINK_CRC_RETRY: the flit arrives once and in order; it counts as a corrected error of the port. -/
def crcRetry (s : State) (port : Nat) : State :=
  if port < portCount ∧ s.linkFailed.contains port = false then
    corrected s ⟨Config.portDie port % 4, 8, BitVec.ofNat 10 port, 63, 0, 0⟩
  else s

/-- Whether a route's first hop is a port. -/
def usesPort (port : Nat) (e : BitVec 32) : Bool := (e.extractLsb' 0 5).toNat == port

/-- LINK_FAIL: a record of KIND 3 and class 8 whose UNIT is this package, the source of what the link carried (Table 26.2), and DEAD in every route entry that uses the link. -/
def failLink (s : State) (port : Nat) : State :=
  if port < portCount ∧ s.linkFailed.contains port = false then
    let s' := errorRecord { s with fresh := s.fresh + 1 } (Config.portDie port % 4) 8 3 63
      s.pkg (Config.recordField s.fresh) 0
    { s' with
      linkFailed := nsAdd s.linkFailed port
      routes := s.routes.map fun (k, e) => (k, if usesPort port e && e.getLsbD 31 then e ||| 0x40000000 else e) }
  else s

/-- CXL_LINK_FAIL: from now on the port's reads return poison and its writes are discarded. -/
def failCxl (s : State) (port : Nat) : State :=
  if port < 8 ∧ s.cxlFailed.contains port = false then
    let s' := errorRecord { s with fresh := s.fresh + 1 } (Config.portDie (portCount + port) % 4) 2 3 63
      (BitVec.ofNat 10 port) (Config.recordField s.fresh) 0
    { s' with cxlFailed := nsAdd s.cxlFailed port }
  else s

/-! ### Wear (R431) -/

/-- Hours before the predicted end of life at which the partition manager is told. -/
def wearMargin : Nat := 8760

/-- WEAR_UPDATE: the sensors set the die's end-of-life register; the manager's event counter is raised once. -/
def wear (s : State) (die : Nat) (poh eolh : BitVec 32) : State :=
  match s.dies[die]? with
  | none => s
  | some d =>
    let low := decide (eolh.toNat < poh.toNat + wearMargin)
    let s := s.modDie die fun d => { d with poh := poh, eolh := eolh, eolRaised := d.eolRaised || low }
    if low && !d.eolRaised then { s with mgrEvents := s.mgrEvents + 1 } else s

end Sys2Proof.Machine
end

