-- ==== Sys2Proof/Machine/Host.lean ====
section
/-! DEFINITION. What comes from outside: the host's windows and request slots, the partition manager's requests, other
packages' requests, measurement and reset (R98, R271, R336..R350, R408). -/

namespace Sys2Proof.Machine

/-- Bytes with others laid over them from an offset on. -/
def overlay (old : List Byte) (off : Nat) (d : List Byte) : List Byte :=
  old.zipIdx.map fun (b, i) => if off ≤ i then d.getD (i - off) b else b

/-! ### The counter-add window (R338) -/

/-- A host write or request that is dropped is counted. -/
def hostErr (s : State) (part : Nat) : State := s.modPart part fun p => { p with hostErr := p.hostErr + 1 }

/-- COUNTER_ADD_WINDOW: one posted write to a partition's window at an offset. -/
def windowWrite (s : State) (part off : Nat) (d : List Byte) : State :=
  if d.length ≠ 16 ∨ off % 16 ≠ 0 ∨ leAt d 12 4 ≠ 0 then hostErr s part
  else
    let va := leAt d 0 8
    match reach s part true va 3 with
    | .error _ => raiseEvent (hostErr s part) part
    | .ok (s', pa) =>
      if va % 8 ≠ 0 then raiseEvent (hostErr s part) part
      else counterAdd s' (Who.agent part) pa (BitVec.ofNat 32 (leAt d 8 4)) none

/-! ### Host accesses to device memory (R336, R420) -/

/-- Bytes of HBM4E that BAR 0/1 and the HDM range reach. -/
def hbmRange (s : State) (a n : Nat) : Bool := decide (a < 2 ^ 39) && rangeTier s (ownPa s a) n == some 0

/-- HOST_MEMORY_ACCESS: a read answers the bytes, with poison when any of them is; a poisoned write is stored with class
9. Where the BAR offset is unused reads return zero and writes are discarded. -/
def hostAccess (s : State) (a : Nat) (op : HostOp) : State :=
  if !s.booted then s
  else
    let pa := ownPa s a
    let who := Who.agent 0
    match op with
    | .read n =>
      let (d, poison) := if hbmRange s a n then (seenBytes s who pa n, (rangeTag s who pa n).isSome)
        else (List.replicate n 0, false)
      let s := if hbmRange s a n then arrive s who pa n else s
      { s with outbox := s.outbox ++ [.readReply d poison] }
    | .write d poison =>
      if !hbmRange s a d.length then s
      else if poison then
        let die := homeSlice pa / 64
        let t := nextTag s die 9
        let s' := errorRecord { s with fresh := s.fresh + 1 } die 9 1 63 ((Config.recordField s.fresh).extractLsb' 0 10)
          (BitVec.ofNat 64 pa) 0
        writeNow s' who pa d (some t)
      else writeNow s who pa d none

/-! ### Request slots (R330, R334, R346, R408) -/

/-- Request slots that the host writes; higher numbers stand for requests of markhor firmware itself (log 36). -/
def hostSlots : Nat := 16

/-- What a request's byte 32 and fields have to be. -/
def requestBad (l : List Byte) : Bool :=
  let k := leAt l 32 1
  let c := leAt l 56 8
  !(k == 0 || k == 1 || k == 0x40 || k == 0x80) || c == 0 || c % 8 != 0 ||
    (k == 0x80 && !(leAt l 16 1 == 1 || leAt l 16 1 == 2))

/-- The 64 bytes of a slot: bytes not given read 0. -/
def requestBytes (d : List Byte) : List Byte := (List.range 64).map fun i => d.getD i 0

/-- REQUEST_SLOT_SUBMIT: the request joins its partition's queue, or is dropped and counted. -/
def submitRequest (s : State) (part slot : Nat) (d : List Byte) : State :=
  match s.part? part with
  | none => s
  | some p =>
    let l := requestBytes d
    let full := decide (hostSlots ≤ (p.reqOrder.filter (· < hostSlots)).length)
    if p.reqOrder.contains slot || (decide (slot < hostSlots) && full) || requestBad l then hostErr s part
    else match reach s part true (leAt l 56 8) 3 with
      | .error _ => hostErr s part
      | .ok (s, _) => s.modPart part fun p =>
          { p with reqs := aset p.reqs slot l, reqOrder := p.reqOrder ++ [slot], drafts := adel p.drafts slot }

/-- A host write of some bytes of a slot: dropped and counted while the slot is pending, else kept until the write of byte 63
submits the request, accepted or not (R346, log 36). -/
def slotWrite (s : State) (part slot off : Nat) (d : List Byte) : State :=
  match s.part? part with
  | none => s
  | some p =>
    if !s.booted ∨ d.isEmpty = true ∨ 64 < off + d.length ∨ hostSlots ≤ slot then s
    else if p.reqOrder.contains slot then hostErr s part
    else
      let l := overlay (requestBytes ((aget p.drafts slot).getD [])) off d
      if off + d.length = 64 then submitRequest (s.modPart part fun p => { p with drafts := adel p.drafts slot }) part slot l
      else s.modPart part fun p => { p with drafts := aset p.drafts slot l }

/-- The request that the loader takes next: none while a stop that it has taken has not ended. -/
def headRequest (s : State) (part : Nat) : Option (Nat × List Byte) :=
  match s.part? part with
  | none => none
  | some p =>
    match p.stopWait, p.reqOrder with
    | none, k :: _ => (aget p.reqs k).map fun l => (k, l)
    | _, _ => none

/-- The loader takes a request: its slot reads 0 from now on. -/
def takeRequest (s : State) (part slot : Nat) : State :=
  s.modPart part fun p =>
    { p with reqs := adel p.reqs slot, reqOrder := p.reqOrder.filter (· != slot), drafts := adel p.drafts slot }

/-- LOAD_REQUEST. -/
def serveLoad (s : State) (part : Nat) : State :=
  match headRequest s part with
  | some (k, l) =>
    if leAt l 32 1 < 2 then runLoad (takeRequest s part k) part (LoadReq.ofBytes l (decide (hostSlots ≤ k))) else s
  | none => s

/-- UNLOAD_REQUEST. -/
def serveUnload (s : State) (part : Nat) : State :=
  match headRequest s part with
  | some (k, l) => if leAt l 32 1 = 0x40 then runUnload (takeRequest s part k) part l else s
  | none => s

/-- The herd-context of a kernel node at a position. -/
def atPosition (s : State) (part node pos : Nat) : Option (Nat × HerdCtx) :=
  s.hctxs.find? fun (_, h) => h.part == part && h.node == node && h.jpos == pos

/-- Whether a stop request acts on a herd-context (R408). -/
def stoppable (s : State) (h : HerdCtx) : Bool :=
  (match s.node? h.part h.node with | some n => n.kind == 1 && n.field 136 8 != 0 | none => false) && !h.ending &&
    (h.hstate == .ready || h.hstate == .running || h.hstate == .blocked || h.hstate == .parked)

/-- Whether the stop of a herd-context has ended: it is saved, or nothing of it is left to save. -/
def stopEnded (s : State) (id : Nat) : Bool :=
  match s.hc? id with
  | none => true
  | some h => (h.hstate == .saved && !h.saving) || h.hstate == .retiring || h.hstate == .done

/-- STOP_REQUEST: the herd-context is stopped by a forced stop; once its save is written, the add follows. -/
def serveStop (s : State) (part : Nat) : State :=
  match (s.part? part).bind (·.stopWait) with
  | some (id, ctr) =>
    if stopEnded s id then addVa (s.modPart part fun p => { p with stopWait := none }) part ctr 1 else s
  | none =>
    match headRequest s part with
    | some (k, l) =>
      if leAt l 32 1 = 0x80 ∧ leAt l 16 1 = 1 then
        let s := takeRequest s part k
        let ctr := BitVec.ofNat 64 (leAt l 56 8)
        match atPosition s part (leAt l 0 8) (leAt l 8 8) with
        | some (id, h) =>
          if stoppable s h then
            (s.setHc id { h with stop := some .forced, noRestore := true }).modPart part fun p =>
              { p with stopWait := some (id, ctr) }
          else addVa s part ctr 1
        | none => addVa s part ctr 1
      else s
    | none => s

/-- RESTORE_REQUEST: a herd-context that a stop has saved returns to the restore list. -/
def serveRestore (s : State) (part : Nat) : State :=
  match headRequest s part with
  | some (k, l) =>
    if leAt l 32 1 = 0x80 ∧ leAt l 16 1 = 2 then
      let s := takeRequest s part k
      let s := match atPosition s part (leAt l 0 8) (leAt l 8 8) with
        | some (id, h) =>
          if h.hstate == .saved && !h.saving && h.noRestore then
            (s.setHc id { h with noRestore := false }).modPart part fun p => { p with restore := p.restore ++ [id] }
          else s
        | none => s
      addVa s part (BitVec.ofNat 64 (leAt l 56 8)) 1
    else s
  | none => s

/-! ### The MSI-X table and the rest of the management block (R337, R339) -/

def msixTable : Nat := 0x500000
def msixCount : Nat := 2048

/-- The sixteen bytes of a vector's entry. -/
def entryBytes (e : List (BitVec 32)) : List Byte := e.flatMap fun w => bytesOf 4 w.toNat

/-- The sixteen bytes of a vector's entry, after bytes were written at an offset of BAR 2/3. -/
def msixBytes (old : List (BitVec 32)) (v off : Nat) (d : List Byte) : List Byte :=
  let base := msixTable + 16 * v
  (entryBytes old).zipIdx.map fun (b, i) =>
    if off ≤ base + i then d.getD (base + i - off) b else b

/-- A vector's entry from its bytes; only the mask bit of the control word is kept (log 8). -/
def msixOfBytes (l : List Byte) : List (BitVec 32) :=
  [BitVec.ofNat 32 (leAt l 0 4), BitVec.ofNat 32 (leAt l 4 4), BitVec.ofNat 32 (leAt l 8 4),
   BitVec.ofNat 32 (leAt l 12 4 % 2)]

/-- MSIX_TABLE_WRITE: unmasking a vector whose PBA bit is set sends its message once. -/
def msixWrite (s : State) (off : Nat) (d : List Byte) : State :=
  if off < msixTable ∨ msixTable + 16 * msixCount < off + d.length then s
  else
    (List.range msixCount).foldl (fun s v =>
      if msixTable + 16 * v < off + d.length ∧ off < msixTable + 16 * v + 16 then
        let new := msixOfBytes (msixBytes (msixEntry s v) v off d)
        let s := { s with msix := aset s.msix v new }
        if s.pba.contains v ∧ (new.getD 3 0).getLsbD 0 = false then sendMsix { s with pba := nsDel s.pba v } v else s
      else s) s

/-- MANAGEMENT_WRITE_OTHER: the write completes and is discarded. -/
def discardWrite (s : State) (_off : Nat) (_d : List Byte) : State := s

/-! ### What the host reads (R301, R302, R336, R337, R344, R346, R418, R431) -/

/-- The bytes of a partition's record (Table 17.4). -/
def recordBytes (p : Part) : List Byte :=
  let c := p.cfg
  bytesOf 8 c.clusters.toNat ++ bytesOf 8 c.s2root.toNat ++ bytesOf 8 c.regenBase.toNat ++ bytesOf 4 c.regenCount.toNat ++
  bytesOf 4 0 ++ bytesOf 8 c.eventCtr.toNat ++ bytesOf 8 c.faultLog.toNat ++ bytesOf 8 c.s2Log.toNat ++
  bytesOf 8 c.parkBase.toNat ++ bytesOf 4 c.parkCount.toNat ++ bytesOf 4 c.wakeCount.toNat ++ bytesOf 8 c.wakeBase.toNat ++
  bytesOf 8 c.wakeCtr.toNat ++ bytesOf 8 c.stageBase.toNat ++ bytesOf 8 c.stageSize.toNat ++ bytesOf 1 c.l2ways.toNat ++
  bytesOf 1 c.tc.toNat ++ bytesOf 6 0 ++ ((List.range 12).flatMap fun i => bytesOf 2 (c.cbQuota.getD i 0).toNat) ++
  ((List.range 4).flatMap fun d => bytesOf 4 (p.lateDrops.getD d 0).toNat) ++ bytesOf 8 p.hostErr.toNat ++
  bytesOf 8 p.fabErr.toNat ++ bytesOf 8 p.stageUse.toNat ++ bytesOf 80 0 ++ bytesOf 256 c.vectors.toNat

/-- The number of a node's state (Table 15.2). -/
def NState.code : NState → Nat
  | .free => 0
  | .armed => 1
  | .ready => 2
  | .running => 3
  | .commit => 4
  | .done => 5
  | .refused => 6
  | .halted => 7

/-- The 256 bytes of a node descriptor with its status area (Tables 15.1, 15.2). -/
def Node.bytes (n : Node) : List Byte :=
  ((List.range 224).map fun i => n.desc.getD i 0) ++ bytesOf 1 n.state.code ++ bytesOf 1 n.cause.toNat ++
  bytesOf 1 (if n.last then 1 else 0) ++ bytesOf 1 0 ++ bytesOf 4 n.owed.toNat ++ bytesOf 8 n.donen.toNat ++
  bytesOf 8 n.launch.toNat ++ bytesOf 8 0

/-- A byte of BAR 4/5: the node table of partition p at p × 0x10_0000. What belongs to no partition reads 0 (log 36). -/
def nodeByte (s : State) (a : Nat) : Byte :=
  match s.part? (a / 0x100000) with
  | none => 0
  | some p => (p.node (a % 0x100000 / 256)).bytes.getD (a % 256) 0

/-- The bytes of a request slot: those of a pending request, those that the host has begun to write, or 0. -/
def slotBytes (p : Part) (slot : Nat) : List Byte := ((aget p.reqs slot).or (aget p.drafts slot)).getD []

/-- A byte of BAR 2/3 (Tables 17.1, 17.5): the counter-add windows and everything unused read 0. -/
def mgmtByte (s : State) (a : Nat) : Byte :=
  let within (lo n : Nat) : Bool := decide (lo ≤ a) && decide (a < lo + n)
  if within 0x400100 32 then
    match s.dies[(a - 0x400100) / 8]? with
    | some d => (bytesOf 4 d.eolh.toNat ++ bytesOf 4 d.poh.toNat).getD (a % 8) 0
    | none => 0
  else if within 0x410000 (48 * 0x200) then
    match s.part? ((a - 0x410000) / 0x200) with
    | some p => (recordBytes p).getD (a % 0x200) 0
    | none => 0
  else if within 0x420000 (48 * 0x400) then
    match s.part? ((a - 0x420000) / 0x400) with
    | some p => (slotBytes p (a % 0x400 / 64)).getD (a % 64) 0
    | none => 0
  else if within msixTable (16 * msixCount) then (entryBytes (msixEntry s ((a - msixTable) / 16))).getD (a % 16) 0
  else if within 0x508000 256 then
    BitVec.ofNat 8 ((List.range 8).foldl (fun x i => if s.pba.contains ((a - 0x508000) * 8 + i) then x + 2 ^ i else x) 0)
  else if within 0x600000 (4 * 0x2000) then
    match s.dies[(a - 0x600000) / 0x2000]? with
    | some d => (wordsBytes ((aget d.ring (a % 0x2000 / 32)).getD [])).getD (a % 32) 0
    | none => 0
  else 0

/-- The answer to a host read of `n` bytes. -/
def readBytes (s : State) (f : Nat → Byte) (off n : Nat) : State :=
  { s with outbox := s.outbox ++ [.readReply ((List.range n).map fun i => f (off + i)) false] }

/-- A host read through BAR 4/5, which is not reachable before the device has booted (R347). -/
def nodeRead (s : State) (off n : Nat) : State := if !s.booted then s else readBytes s (nodeByte s) off n

/-- A host read through BAR 2/3. -/
def mgmtRead (s : State) (off n : Nat) : State := readBytes s (mgmtByte s) off n

/-! ### Partitions (R98, R301, R343, R344) -/

/-- Clear a core that changes its partition: its pool and full/empty bits (R98), its tiles. -/
def clearCore (c : Core) : Core :=
  { c with poolSeed := none, pool := [], spEmpty := [], spTag := [], spPark := [], oslots := [], accs := [], fresh := 0 }

/-- Clear the cores of the clusters in a set. -/
def clearClusters (s : State) (g : BitVec 48) : State :=
  (List.range 576).foldl (fun s c => if g.getLsbD (c / 12) then s.setCore c (clearCore (s.core c)) else s) s

def clusterCount (g : BitVec 48) : Nat := ((List.range 48).filter fun i => g.getLsbD i).length

/-- The quotas that the partitions other than `part` hold of one resource of a die's combine unit. -/
def quotaUsed (s : State) (part die k : Nat) : Nat :=
  (s.parts.map fun (q, p) => if q = part then 0 else (p.cfg.cbQuota.getD (3 * die + k) 0).toNat).foldl (· + ·) 0

/-- Whether a record can be a partition's (R2, R18, R271, R292, R339, R343, R344). -/
def cfgOk (s : State) (part : Nat) (c : PartCfg) : Bool :=
  c.clusters != 0 && !isHostPa c.stageBase.toNat &&
  decide (48 * clusterCount c.clusters ≤ c.parkCount.toNat) && decide (1 ≤ c.l2ways.toNat) &&
  decide (c.l2ways.toNat ≤ 16) && decide (c.tc.toNat < 8) && c.stageBase.toNat % 65536 == 0 &&
  c.stageSize.toNat % 65536 == 0 &&
  (c.stageSize == 0 || rangeTier s c.stageBase.toNat c.stageSize.toNat == some 0) && c.cbQuota.length == 12 &&
  (s.parts.all fun (q, p) => q == part || (p.cfg.clusters &&& c.clusters == 0 && p.cfg.vectors &&& c.vectors == 0)) &&
  (s.dies.zipIdx.all fun (d, i) =>
    decide (quotaUsed s part i 0 + (c.cbQuota.getD (3 * i) 0).toNat ≤ d.comb.nt) &&
    decide (quotaUsed s part i 1 + (c.cbQuota.getD (3 * i + 1) 0).toNat ≤ d.comb.na) &&
    decide (quotaUsed s part i 2 + (c.cbQuota.getD (3 * i + 2) 0).toNat ≤ d.comb.ns))

/-- Whether a node of a partition holds a herd-context on a cluster of a set, a saved one included: it comes back to its cores
(R88, R343). -/
def holdsOn (s : State) (part : Nat) (g : BitVec 48) : Bool :=
  s.hctxs.any fun (_, h) => h.part == part && (h.frameCores s).any fun c => g.getLsbD (c / 12)

/-- Measured boot extends a partition's configuration (R349): the bytes of its record that the manager sets (log 21). -/
def measurePart (s : State) (c : PartCfg) : State :=
  { s with measured := s.measured ++ [sha256 (recordBytes (Part.create c))] }

/-- Create a partition whose number and record are free and sound. -/
def createPart (s : State) (part : Nat) (c : PartCfg) : State :=
  if 48 ≤ part ∨ (s.part? part).isSome ∨ cfgOk s part c = false then s
  else measurePart ((clearClusters s c.clusters).setPart part (Part.create c)) c

/-- Change a partition's record; clusters that leave or join are cleared. -/
def changePart (s : State) (part : Nat) (c : PartCfg) : State :=
  match s.part? part with
  | none => s
  | some p =>
    let out := p.cfg.clusters &&& ~~~c.clusters
    let come := c.clusters &&& ~~~p.cfg.clusters
    if cfgOk s part c = false ∨ holdsOn s part out then s
    else measurePart ((clearClusters s (out ||| come)).modPart part fun p => { p with cfg := c }) c

/-- Destroy a partition that holds no herd-context and has no command under way. -/
def destroyPart (s : State) (part : Nat) : State :=
  match s.part? part with
  | none => s
  | some p =>
    if holdsOn s part p.cfg.clusters || !engineQuiet s part then s
    else
      let s := clearClusters (removeHcs s ((s.hctxs.filter fun (_, h) => h.part == part).map (·.1))) p.cfg.clusters
      let mine (e : BitVec 32) : Bool := (e.extractLsb' 24 6).toNat == part
      { s with
        parts := adel s.parts part
        timers := s.timers.filter fun (v, _) => !p.cfg.vectors.getLsbD v
        slices := s.slices.map fun (k, x) =>
          (k, { x with table := x.table.filter (fun y => !mine y.2), pend := x.pend.filter (fun y => !mine y.2),
                       groups := x.groups.filter (fun y => y.1 != part), rounds := x.rounds.filter (fun y => y.part != part) }) }

/-- Set the sizes of a die's combine unit while no slot is registered (R271). -/
def combineSizes (s : State) (die nt na ns : Nat) : State :=
  match s.dies[die]? with
  | none => s
  | some d =>
    let c : CombUnit := { d.comb with nt := nt, na := na, ns := ns }
    let fits := decide (quotaUsed s 48 die 0 ≤ nt) && decide (quotaUsed s 48 die 1 ≤ na) && decide (quotaUsed s 48 die 2 ≤ ns)
    if nt ≤ 8192 ∧ ns ≤ 8192 ∧ c.held ≤ 0x4000000 ∧ d.comb.tokens.isEmpty = true ∧ fits = true then
      s.modDie die fun d => { d with comb := c }
    else s

/-- Set the package ID before any partition exists and any route is loaded (R341); this package's lines keep their
contents. -/
def setPackage (s : State) (id : BitVec 10) : State :=
  if s.parts.isEmpty && s.routes.isEmpty then
    let at' (a : Nat) : Nat := id.toNat * 2 ^ 48 + localPa a
    let key (k : Nat) : Nat := at' (8 * k) / 8
    { s with
      pkg := id
      mem := (s.mem.filter fun (a, _) => isLocal s a).foldl (fun m (a, b) => Memory.set m (at' a) b) []
      feEmpty := (s.feEmpty.filter fun k => isLocal s (8 * k)).foldl (fun l k => nsAdd l (key k)) []
      memTag := (s.memTag.filter fun (k, _) => isLocal s (8 * k)).foldl (fun l (k, t) => aset l (key k) t) []
      park := (s.park.filter fun (k, _) => isLocal s (8 * k)).foldl (fun l (k, t) => aset l (key k) t) []
      parkPart := (s.parkPart.filter fun (k, _) => isLocal s (8 * k)).foldl (fun l (k, t) => aset l (key k) t) [] }
  else s

/-- PARTITION_REQUEST: a signed request that firmware has verified, acted on when it is sound. -/
def managerRequest (s : State) (r : ManagerReq) : State :=
  if !s.booted then s
  else match r with
    | .create part c => createPart s part c
    | .change part c => changePart s part c
    | .destroy part => destroyPart s part
    | .setS1Root part root => s.modPart part fun p => { p with s1root := root }
    | .combine die nt na ns => combineSizes s die nt na ns
    | .packageId id => setPackage s id
    | .clearOffline core => s.setCore core { s.core core with offline := false }
    | .unprotect die on => s.modDie die fun d => { d with unprotected := on }

/-! ### The fabric (R341, R342, R420) -/

/-- Entries of the route table. -/
def routeCount : Nat := 8192

/-- ROUTE_TABLE_LOAD: each entry is replaced whole, with DEAD clear. -/
def loadRoutes (s : State) (l : List (Nat × BitVec 32)) : State :=
  if !s.booted then s
  else { s with routes := l.foldl (fun r (k, e) => if k < routeCount then aset r k (e &&& ~~~0x40000000) else r) s.routes }

/-- An atomic's new word, by its operation code (Table 9.7): none when a compare fails or the code is none of them. -/
def atomicNew (op : BitVec 6) (o v k : Word) : Option Word :=
  match op.toNat with
  | 0x30 => some (o + v)
  | 0x31 => some (smin64 o v)
  | 0x32 => some (smax64 o v)
  | 0x33 => some (umin64 o v)
  | 0x34 => some (umax64 o v)
  | 0x35 => some (o &&& v)
  | 0x36 => some (o ||| v)
  | 0x37 => some (o ^^^ v)
  | 0x38 => some v
  | 0x39 => if o = k then some v else none
  | _ => none

/-- Answer another package. -/
def reply (s : State) (dst : BitVec 10) (d : List Byte) (poison : Bool) : State :=
  { s with outbox := s.outbox ++ [.fabricReply dst d poison] }

/-- The data that another package sends: poisoned data is re-tagged with class 8 and a local record whose UNIT names the source
(R420). The state with that record, and the tag. -/
def fabricData (s : State) (src : BitVec 10) (pa : Nat) (poison : Bool) : State × Tag :=
  if poison then
    (errorRecord s (homeSlice pa / 64) 8 1 63 src (BitVec.ofNat 64 pa) 0, some (nextTag s (homeSlice pa / 64) 8))
  else (s, none)

/-- A full/empty operation of another package: the request is made at the word's home slice. -/
def fabricFe (s : State) (src : BitVec 10) (pa : Nat) (op : BitVec 6) (sd : Word) (poison : Bool) : State :=
  let who := Who.agent 0
  let l : Loc := .mem (pa / 8 * 8)
  let lost := unsent s who l
  let tryIt (k : FeKind) : State :=
    let (s', t) := fabricData s src pa poison
    match feAttempt s' who k l ⟨sd, t⟩ op.toNat false with
    | some (s, v) => reply s src (bytesOf 8 v.val.toNat) v.tag.isSome
    | none => s
  match op.toNat with
  | 0x10 => tryIt .wait
  | 0x11 => tryIt .take
  | 0x12 => tryIt .fill
  | 0x13 => if lost then loseImm s who l else locSetFull s l (sd.getLsbD 0) 0x13
  | 0x14 =>
    if lost then reply (locArrive s who l 8) src (locRead s who l 8).1 true
    else reply s src (bytesOf 8 (if locFull s l then 1 else 0)) false
  | _ => s

/-- Bytes that a request touches. -/
def FabricOp.size : FabricOp → Nat
  | .load n => n
  | .store d _ => d.length
  | .atomic _ _ _ _ | .fe _ _ _ | .cadd _ _ | .cwait _ => 8

/-- FABRIC_REQUEST: performed at the line's home slice. A wait whose counter or full/empty bit is not as it needs is not
performed yet: its package keeps it (log 37). -/
def fabricServe (s : State) (src : BitVec 10) (pa : Nat) (op : FabricOp) : State :=
  let who := Who.agent 0
  let w := pa / 8 * 8
  if !s.booted || !isLocal s pa || (rangeTier s pa (FabricOp.size op)).isNone then s
  else match op with
    | .load n => reply (arrive s who pa n) src (seenBytes s who pa n) (rangeTag s who pa n).isSome
    | .store d poison => (let (s, t) := fabricData s src pa poison; writeNow s who pa d t)
    | .atomic k v c poison =>
      let old := locWord s who (.mem w)
      let (s, t) := fabricData (arrive s who w 8) src pa poison
      let s := match atomicNew k old.val v c with
        | some x => writeNow s who w (bytesOf 8 x.toNat) (mergeTag old.tag t)
        | none => s
      reply s src (bytesOf 8 old.val.toNat) old.tag.isSome
    | .fe k v poison => fabricFe s src pa k v poison
    | .cadd v poison => (let (s, t) := fabricData s src pa poison; counterAdd s who w v t)
    | .cwait t =>
      if unsent s who (.mem w) then reply (arrive s who w 8) src [] true
      else if t.ule (mem64 s w) then reply s src [] false else s

/-! ### Boot, measurement, power (R340, R347..R350) -/

/-- Top-tree leaves of the identity key. -/
def leafCount : Nat := 2 ^ 20

/-- An expander's capacity as its port's populated length (R340). -/
def portLength (reported : Nat) : Nat := min (reported / 2 ^ 28 * 2 ^ 28) (3072 * 10 ^ 9)

/-- The cores with a defect: it outlives a reset (R432). -/
def defects (s : State) : AMap Core :=
  (s.cores.filter fun (_, (c : Core)) => !(c.stuck.isEmpty && c.stuckRegs.isEmpty)).map fun (k, c) =>
    (k, { Core.init with stuck := c.stuck, stuckRegs := c.stuckRegs })

/-- RESET: the boot ROM verifies the firmware image. When it fails the device stays in reset and says so; else the leaf
index is advanced, the digests are extended and the expanders' capacities read. -/
def resetDevice (s : State) (image : List Byte) : State :=
  let dies := s.dies.map fun d => { Die.reset with poh := d.poh, eolh := d.eolh, eolRaised := d.eolRaised }
  let s0 := { State.reset with
    agenda := s.agenda, fresh := s.fresh + 1, clk := s.clk, outbox := s.outbox, leaf := s.leaf, dies := dies,
    lpddr := s.lpddr, mgrEvents := s.mgrEvents, cores := defects s }
  if !Config.verifies image then { s0 with outbox := s.outbox ++ [.bootFailure] }
  else
    let able := decide (s.leaf < leafCount)
    { s0 with
      booted := true, leaf := if able then s.leaf + 1 else s.leaf, bootLeaf := if able then some s.leaf else none,
      measured := [Config.romDigest, sha256 image, Config.tableDigest],
      cxlCap := (List.range 8).map fun p => portLength (Config.expanderCap p),
      outbox := if able then s.outbox else s.outbox ++ [.cannotAttest] }

/-- MEASUREMENT_REPORT: signed by the attestation tree of this boot, when it has one. -/
def measureReport (s : State) : State :=
  if !s.booted then s
  else { s with outbox := s.outbox ++ [match s.bootLeaf with | some k => .report k s.measured | none => .cannotAttest] }

/-- POWER_CAP_CHANGE: the cap is taken over and changes nothing else. -/
def setCap (s : State) (cap : Nat) : State := { s with cap := some cap }

end Sys2Proof.Machine
end

