-- ==== Sys2Proof/Machine/Acts.lean ====
section
/-! DEFINITION. What no row of the opcode table stands for: the die's context access window, the demotion of a block, a link of
another package that fails, and the host's reads and partial writes (R222, R336, R337, R342, R346, R362, R390). -/

namespace Sys2Proof.Machine

/-! ### The context access window (R362) -/

/-- Write a register, handle or stream position of a frozen member; only registers that exist are written. -/
def Member.windowReg (m : Member) (nv : Nat) : Res → Member
  | .v n act l t => if n < nv then m.apply (.v n act ((List.range 256).map fun i => l.getD i 0) t) else m
  | .qpos n pos => match (m.strm n).recd with
      | some r => m.apply (.qpos n (qposOf r (pos % 2 ^ 64)))
      | none => m
  | .h n x => if n < 16 then m.apply (.h n x) else m
  | .p n b => if n < 16 then m.apply (.p n b) else m
  | r => m.apply r

/-- Write a tile that the context has claimed on a core, or a word of its shadow block there. -/
def windowTile (s : State) (h : HerdCtx) (core : Nat) (w : WinWrite) : State :=
  let c := s.core core
  match w with
  | .tile o k b =>
    if (c.oslot o).cl && (c.oslot o).owner == h.slot && decide (k < 4224) then s.setCore core (c.setOslot o ((c.oslot o).setByte k b))
    else s
  | .acc a e x =>
    if (c.acc a).cl && (c.acc a).owner == h.slot && decide (e < 16384) then s.setCore core (c.setAcc a ((c.acc a).setElem e x))
    else s
  | .shadow k w => match (shadowWords s h core)[k]? with
    | some p => s.setCore core (c.setWord p w)
    | none => s
  | _ => s

/-- A write through the context access window. It reaches a FROZEN herd-context; results in flight stay as they are. -/
def windowAct (s : State) (id mi : Nat) (w : WinWrite) : State :=
  match s.hc? id with
  | none => s
  | some h =>
    match h.members[mi]? with
    | none => s
    | some m =>
      if h.hstate != .frozen then s
      else match w with
        | .pc a => s.modHc id fun h => { h with pc := a }
        | .vcc v => s.modHc id fun h => { h with vcc := v }
        | .reg r => s.modMember id mi (·.windowReg h.nv r)
        | .stream n x sys scope pos => s.modMember id mi fun m =>
            if n < 16 then m.setStrm n { (m.strm n) with
              recd := x, sys := sys, scope := scope, pos := pos, held := none, ahead := [], bte := [], met := none } else m
        | .loops l idx => if l.length ≤ 8 ∧ idx.length = 6 then s.modHc id fun h => { h with loops := l, idx := idx } else s
        | .links l => if l.length ≤ 32 then s.modHc id fun h => { h with links := l } else s
        | .args l => if l.length = m.args.length then s.modMember id mi fun m => { m with args := l } else s
        | .defProfile b => s.modHc id fun h => { h with defProfile := b }
        | .fpstat b => s.modMember id mi fun m => { m with fpstat := b }
        | .cir v => s.modMember id mi fun m => { m with cir := v &&& cirMask }
        | .feBudget b => s.modHc id fun h => { h with feBudget := b }
        | .fill n va i =>
          let (s, x) := fillHandle s h (h.sys s) va i 1
          s.modMember id mi fun m => { m with h := lset m.h n x }
        | .drop n => s.modMember id mi fun m => { m with h := lset m.h n Handle.none }
        | .tile .. | .acc .. | .shadow .. => windowTile s h m.core w

/-- A read through the window gives the frozen state of every member, snapshot entries included, and the tiles and shadow blocks
of the context (R362, Table 4.4). -/
def windowRead (s : State) (id : Nat) : State :=
  match s.hc? id with
  | none => s
  | some h =>
    if h.hstate != .frozen then s
    else { s with outbox := s.outbox ++ [.frozen h (savedOslots s h) (savedAccums s h)
      (h.members.zipIdx.map fun (m, i) => (i, takeShadow s h m.core))] }

/-! ### Demotion (R222) -/

/-- The physical address of the block that an entry names. -/
def blockPa (s : State) (part : Nat) (e : Word) (i : BitVec 2) : Option Nat :=
  match translate s part true (e.toNat / 65536 * 65536) i with
  | .ok pg => some (pg.pa (e.toNat / 65536 * 65536))
  | .error _ => none

/-- Steps 1 and 2: with no park bit set in the frame, MV is set in the entry and a fence issued. -/
def demoteBegin (s : State) (part ent : Nat) : State :=
  match reach s part true ent 1 with
  | .error _ => s
  | .ok (s', ea) =>
    let e := mem64 s' ea
    match blockPa s' part e 0 with
    | none => s
    | some src =>
      let parked := s'.park.any fun (k, _) => decide (src / 8 ≤ k) && decide (k < (src + 65536) / 8)
      if ent % 8 ≠ 0 ∨ e.getLsbD 0 = false ∨ parked = true then s
      else (fenceEntries (swapWake (putMem64 s' ea (e ||| 8)) ea) part ent 8 none s'.nextCmd s'.nextCmd).1

/-- Steps 3 to 5, once the fence of step 2 is reached: the block is copied to the frame, and the entry swapped to it with DM set
and MV clear, and a fence follows. When it is no longer what step 2 left, the move is abandoned with MV cleared (R390). -/
def demoteEnd (s : State) (part ent frame : Nat) (expect : Word) : State :=
  match reach s part true ent 1 with
  | .error _ => s
  | .ok (s', ea) =>
    let new := BitVec.ofNat 64 (frame / 65536 * 65536) ||| (expect &&& 0xFFF7) ||| 4
    match blockPa s' part expect 0, blockPa s' part new 1 with
    | some src, some dst =>
      let (s', free) := fenceEntries s' part ent 8 none s'.nextCmd s'.nextCmd
      if !free then s'
      else
        let s' := copyBlock s' src dst
        if mem64 s' ea = expect then
          (fenceEntries (swapWake (putMem64 s' ea new) ea) part ent 8 none s'.nextCmd s'.nextCmd).1
        else swapWake (putMem64 s' ea (mem64 s' ea &&& ~~~8)) ea
    | _, _ => s

/-! ### Links of other packages (R342) -/

/-- Whether a flow to a package of the list leaves some package on the way by a port: hop 0 is the second hop. Table 17.2 gives the
hops no order inside HOPS: that bits 12..8 are the first further hop is the model's choice (DESIGN CHOICE, log 53). -/
def hopsBy (hop port : Nat) (e : BitVec 32) : Bool :=
  let at' (i : Nat) : Nat := (e.extractLsb' (8 + 5 * i) 5).toNat
  decide (hop < 3) && at' hop == port && port != 31 && (List.range hop).all fun i => at' i != 31

/-- A link of another package has failed: DEAD is set in every entry whose path uses it. -/
def farLink (s : State) (hop port : Nat) (dsts : List Nat) : State :=
  { s with routes := s.routes.map fun (k, e) =>
      (k, if dsts.contains (k / 8) && e.getLsbD 31 && hopsBy hop port e then e ||| 0x40000000 else e) }

/-- Whether an act is done before the device has booted too: defects come, and the management block is reachable (R347). -/
def Act.early : Act → Bool
  | .mgmtRead _ _ | .poolDefect _ _ _ _ | .registerDefect _ _ _ _ _ => true
  | _ => false

/-- An act that is no row of the opcode table. -/
def runAct (a : Act) (s : State) : State :=
  if !s.booted && !a.early then s
  else match a with
    | .window hc mem w => windowAct s hc mem w
    | .windowRead hc => windowRead s hc
    | .demoteBegin part ent => demoteBegin s part ent
    | .demoteEnd part ent frame expect => demoteEnd s part ent frame expect
    | .farLink hop port dsts => farLink s hop port dsts
    | .nodeRead off n => nodeRead s off n
    | .mgmtRead off n => mgmtRead s off n
    | .slotWrite part slot off d => slotWrite s part slot off d
    | .poolDefect core cell bits level => poolDefect s core cell bits level
    | .registerDefect core slot n bits level => registerDefect s core slot n bits level
    | .scrubPass => scrubPass s
    | .poolRepair core w => if (coreUsers s core).isEmpty && (s.core core).toRepair.contains w then repairRow s core w else s

end Sys2Proof.Machine
end

