-- ==== Sys2Proof/Machine/EventDevice.lean ====
section
/-! DEFINITION. The meanings of events: the work of the device's own units: engines, sequencer and context selectors. An event that is not enabled leaves the state as it is. -/

namespace Sys2Proof.Machine

/-- LATE_RESULT_LAND (R81). A late exposed-latency result lands, ending the herd-context's pause so that the held bundle can issue. -/
def execLateResultLand (hc : Nat) (s : State) : Host.Outcome State Fault Refusal := .next (landLate s hc)

/-- OVERLAY_LOAD (R90). A fetch from a segment that is not resident makes the lead load the overlay, replacing the least recently used one, while the VCC pauses. -/
def execOverlayLoad (hc : Nat) (s : State) : Host.Outcome State Fault Refusal := .next (overlayStep s hc)

/-- ENGINE_WAIT_END (R82). The engine wait of a BLOCKED herd-context ends on every member, and the herd-context becomes READY. -/
def execEngineWaitEnd (hc : Nat) (s : State) : Host.Outcome State Fault Refusal := .next (waitEnd s hc)

/-- CONTEXT_SELECT (R316). At a block, yield, freeze or retirement, the frame's selector picks the READY herd-context with the highest effective priority and ages the others. -/
def execContextSelect (lead : Nat) (s : State) : Host.Outcome State Fault Refusal := .next (selectOn s lead)

/-- FE_RETRY_ATTEMPT (R201). After backoff, a waiting full/empty form makes another attempt at the word's point of coherence. -/
def execFeRetryAttempt (hc : Nat) (s : State) : Host.Outcome State Fault Refusal := .next (retryFe s hc false)

/-- FE_BUDGET (R201). A waiting full/empty form fails once FEBUDGET retries are spent, and the herd-context traps to park. -/
def execFeBudget (hc : Nat) (s : State) : Host.Outcome State Fault Refusal := .next (retryFe s hc true)

/-- REPAIR_ENTRY_WRITE (R426). A system SPST.D to a repair table entry substitutes a spare row for a pool row, or forces V to 0 on a conflict. -/
def execRepairEntryWrite (core : Nat) (entry : Nat) (v : BitVec 64) (s : State) : Host.Outcome State Fault Refusal := .next (repairStore s core entry v)

/-- STREAM_READ_AHEAD (R214). A stream address generator fetches input elements ahead of pops, through translation and block lookup. -/
def execStreamReadAhead (hc : Nat) (mem : Nat) (q : Nat) (s : State) : Host.Outcome State Fault Refusal := .next (readAhead s hc mem q)

/-- STREAM_OUTPUT_WRITE (R215). Pushed output elements are written to memory in stream order after the pushing bundle commits. -/
def execStreamOutputWrite (hc : Nat) (mem : Nat) (q : Nat) (s : State) : Host.Outcome State Fault Refusal := .next (writeOldest s hc mem q)

/-- MATRIX_QUEUE_PERFORM (R229). A matrix load or array queue performs its head command in the background and clears its busy bits at completion. -/
def execMatrixQueuePerform (core : Nat) (load : Bool) (s : State) : Host.Outcome State Fault Refusal := .next (matPerform s core load)

/-- FUNCTION_QUEUE_PERFORM (R244). The function queue performs its head command and lands its register output and flags. -/
def execFunctionQueuePerform (core : Nat) (s : State) : Host.Outcome State Fault Refusal := .next (fnPerform s core)

/-- COPY_QUEUE_PERFORM (R263). A copy engine performs its head command: acquire, walk copy with F/E work, release and counter add. -/
def execCopyQueuePerform (engine : Nat) (s : State) : Host.Outcome State Fault Refusal := .next (copyPerform s engine)

/-- CPYRED_ADMIT (R268). A home slice admits the next contribution of a group's round, in slot order, adding into the destinations. -/
def execCpyredAdmit (slice : Nat) (part : Nat) (group : Nat) (s : State) : Host.Outcome State Fault Refusal := .next (admitRound s slice part group)

/-- JOB_QUEUE_PERFORM (R279). The job and host-ring queue performs a JEXP, JDONE or RINGADV step at the block's home slice. -/
def execJobQueuePerform (core : Nat) (s : State) : Host.Outcome State Fault Refusal := .next (jobPerform s core)

/-- TOKEN_RELEASE (R275). A complete token's rows and status word are written, and RADD is added to RCTR. -/
def execTokenRelease (die : Nat) (index : Nat) (s : State) : Host.Outcome State Fault Refusal := .next (tokenRelease s die index)

/-- COMBINE_TIMEOUT (R276). A token's TIMEOUT expires, its missing positions are substituted by ZERO or FALLBACK, and it is completed. -/
def execCombineTimeout (die : Nat) (index : Nat) (s : State) : Host.Outcome State Fault Refusal := .next (combTimeout s die index)

/-- RING_TIMER_EXPIRY (R281). A host-ring vector's timer reaches TIME, sends the MSI-X vector and sets LASTIRQ. -/
def execRingTimerExpiry (vector : Nat) (s : State) : Host.Outcome State Fault Refusal := .next (timerExpiry s vector)

/-- DRAIN_POINT_STOP (R86). A STOPPING herd-context reaches a drain point and is saved. -/
def execDrainPointStop (hc : Nat) (s : State) : Host.Outcome State Fault Refusal := .next (drainStop s hc)

/-- FORCED_STOP (R85). A herd-context is frozen at its next bundle, with in-flight results landing in snapshot entries. -/
def execForcedStop (hc : Nat) (s : State) : Host.Outcome State Fault Refusal := .next (forceStop s hc)

/-- PREEMPT_STOP_TIMEOUT (R313). 65,536 virtual cycles pass after a pre-emption request without a drain point, so a forced stop follows. -/
def execPreemptStopTimeout (hc : Nat) (s : State) : Host.Outcome State Fault Refusal := .next (preemptTimeout s hc)

/-- CONTEXT_SAVE_DONE (R86). The copy engine's write of the saved state completes and the context slot is freed. -/
def execContextSaveDone (hc : Nat) (s : State) : Host.Outcome State Fault Refusal := .next (saveDone s hc)

/-- CONTEXT_RESTORE (R88). A saved herd-context is restored on its cores and slot when they are free, reclaiming its tiles. -/
def execContextRestore (hc : Nat) (s : State) : Host.Outcome State Fault Refusal := .next (restoreCtx s hc)

/-- HERD_RETIRE (R89). After the E bundle, once engine queues empty and tiles go idle, claims are released and the herd-context is DONE. -/
def execHerdRetire (hc : Nat) (s : State) : Host.Outcome State Fault Refusal := .next (retire s hc)

/-- NODE_COMMIT (R424). When every herd-context is DONE, the node CIR is formed and the staged writes are committed, or the instance is rolled back or halted. -/
def execNodeCommit (part : Nat) (node : Nat) (s : State) : Host.Outcome State Fault Refusal := .next (commitNode s part node)

/-- STAGING_EXHAUSTED (R292). When every record-holding instance of a partition waits on staging records, the youngest revocable one is discarded and re-queued, or halted. -/
def execStagingExhausted (part : Nat) (s : State) : Host.Outcome State Fault Refusal := .next (stagingOut s part)

/-- NODE_FIRE (R308). An armed node's fire counter reaches THRESH, so the node is queued or a firing is owed, and the threshold advances. -/
def execNodeFire (part : Nat) (node : Nat) (s : State) : Host.Outcome State Fault Refusal := .next (fireNode s part node)

/-- NODE_PLACE (R312). The sequencer places the head kernel node on herd frames and loads missing overlays. -/
def execNodePlace (part : Nat) (s : State) : Host.Outcome State Fault Refusal := .next (placeHead s part)

/-- COPY_NODE_RUN (R304). A copy node reads its records and enqueues one CPY on its engine. -/
def execCopyNodeRun (part : Nat) (node : Nat) (s : State) : Host.Outcome State Fault Refusal := .next (runCopyNode s part node)

/-- COUNTER_NODE_RUN (R304). A counter node completes at once. -/
def execCounterNodeRun (part : Nat) (node : Nat) (s : State) : Host.Outcome State Fault Refusal := .next (runCounterNode s part node)

/-- CONDITIONAL_NODE_RUN (R304). A conditional node reads a word and adds ADDT or ADDF to its counter. -/
def execConditionalNodeRun (part : Nat) (node : Nat) (s : State) : Host.Outcome State Fault Refusal := .next (runConditionalNode s part node)

/-- DESCRIPTOR_ARM (R303). A nonzero KIND written to a FREE descriptor is checked, and the node is ARMED or REFUSED. -/
def execDescriptorArm (part : Nat) (node : Nat) (desc : List Byte) (s : State) : Host.Outcome State Fault Refusal := .next (armNode s part node desc)

/-- DESCRIPTOR_DISARM (R303). A write of 0 to KIND frees the node at once or after the instance in flight. -/
def execDescriptorDisarm (part : Nat) (node : Nat) (s : State) : Host.Outcome State Fault Refusal := .next (disarmNode s part node)

/-- RUNTIME_RELEASE (R314). Firmware releases a HALTED node or partition at the runtime's request. -/
def execRuntimeRelease (part : Nat) (node : Option Nat) (s : State) : Host.Outcome State Fault Refusal := .next (releaseByRuntime s part node)

/-- COMBINE_QUEUE_PERFORM (R274). The combine unit takes the head command of a core's combine queue (CBREG, CBPUT or CBSTAT), possibly on another die, and completes it, applying accepted rows and any staged rows that become next in position order. -/
def execCombineQueuePerform (core : Nat) (s : State) : Host.Outcome State Fault Refusal := .next (combPerform s core)

end Sys2Proof.Machine
end

