-- ==== Sys2Proof/Machine/EventHost.lean ====
section
/-! DEFINITION. The meanings of events: the work of firmware, the loader, the host port, the fabric and the reliability units. An event that is not enabled leaves the state as it is. -/

namespace Sys2Proof.Machine

/-- REGEN_FAULT (R224). A REGEN fault queues the regeneration node instance if needed and parks the herd-context on its target. -/
def execRegenFault (hc : Nat) (s : State) : Host.Outcome State Fault Refusal := .next (regenStep s hc)

/-- TRAP_RECORD_TAKE (R363). A markhor pair takes a trap record and ends it by resume, park, hold or halt. -/
def execTrapRecordTake (die : Nat) (s : State) : Host.Outcome State Fault Refusal := .next (takeRecord s die)

/-- WAKE_SERVE (R387). Firmware serves a wake record's key, performing takes or fills for the oldest waiters and resuming them. -/
def execWakeServe (part : Nat) (s : State) : Host.Outcome State Fault Refusal := .next (serveWake s part)

/-- HANDLE_RETRANSLATE (R381). Once the invalidation completes, firmware retranslates a revoked handle and resumes the access. -/
def execHandleRetranslate (hc : Nat) (s : State) : Host.Outcome State Fault Refusal := .next (handleAgain s hc)

/-- COPY_ON_WRITE (R389). On BLOCK_SHARED firmware copies the block into a private frame, swaps the entry and resumes the writer. -/
def execCopyOnWrite (hc : Nat) (frame : Option (Nat × Nat)) (s : State) : Host.Outcome State Fault Refusal := .next (copyShared s hc frame)

/-- TRANSLATION_INVALIDATE (R189). Firmware invalidates a range, clearing caches and overlapping handles, and raises the epoch. -/
def execTranslationInvalidate (part : Nat) (stage2 : Bool) (lo : Nat) (len : Nat) (ctr : Nat) (s : State) : Host.Outcome State Fault Refusal := .next (invalidate s part stage2 lo len ctr)

/-- INVALIDATE_COMPLETE (R189). Once accesses through cleared handles and engine translations have performed, the invalidation posts its completion counter. -/
def execInvalidateComplete (part : Nat) (s : State) : Host.Outcome State Fault Refusal := .next (invalidateDone s part)

/-- COUNTER_ADD_WINDOW (R338). A host 16-byte posted write to a partition's window performs a CADD as a system-scope release, or is dropped. -/
def execCounterAddWindow (part : Nat) (offset : Nat) (data : List Byte) (s : State) : Host.Outcome State Fault Refusal := .next (windowWrite s part offset data)

/-- HOST_MEMORY_ACCESS (R336). A host BAR 0/1 or CXL.mem access performs immediately at the line's home slice. -/
def execHostMemoryAccess (pa : Nat) (op : HostOp) (s : State) : Host.Outcome State Fault Refusal := .next (hostAccess s pa op)

/-- REQUEST_SLOT_SUBMIT (R346). A host write of byte 63 submits a request slot, which is queued by kind or dropped. -/
def execRequestSlotSubmit (part : Nat) (slot : Nat) (data : List Byte) (s : State) : Host.Outcome State Fault Refusal := .next (submitRequest s part slot data)

/-- LOAD_REQUEST (R331). The loader checks an object, selects a variant, places data, binds routines and posts the result. -/
def execLoadRequest (part : Nat) (s : State) : Host.Outcome State Fault Refusal := .next (serveLoad s part)

/-- UNLOAD_REQUEST (R334). The loader unloads an image that no armed descriptor names and writes the result. -/
def execUnloadRequest (part : Nat) (s : State) : Host.Outcome State Fault Refusal := .next (serveUnload s part)

/-- STOP_REQUEST (R408). ACTION 1: a herd-context is stopped by forced stop and saved without restore. -/
def execStopRequest (part : Nat) (s : State) : Host.Outcome State Fault Refusal := .next (serveStop s part)

/-- RESTORE_REQUEST (R408). ACTION 2: a stopped herd-context returns to its node's restore list. -/
def execRestoreRequest (part : Nat) (s : State) : Host.Outcome State Fault Refusal := .next (serveRestore s part)

/-- MSIX_TABLE_WRITE (R339). A host write to an MSI-X table entry; unmasking a vector with its PBA bit set sends the pending message. -/
def execMsixTableWrite (offset : Nat) (data : List Byte) (s : State) : Host.Outcome State Fault Refusal := .next (msixWrite s offset data)

/-- MANAGEMENT_WRITE_OTHER (R337). Host writes to partition records, read-only registers or unused offsets are discarded. -/
def execManagementWriteOther (offset : Nat) (data : List Byte) (s : State) : Host.Outcome State Fault Refusal := .next (discardWrite s offset data)

/-- PARTITION_REQUEST (R343). A signed partition-manager request creates, changes or destroys a partition, clearing reassigned clusters. -/
def execPartitionRequest (req : ManagerReq) (s : State) : Host.Outcome State Fault Refusal := .next (managerRequest s req)

/-- ROUTE_TABLE_LOAD (R342). Firmware loads route entries, replacing them whole and clearing DEAD. -/
def execRouteTableLoad (entries : List (Nat × BitVec 32)) (s : State) : Host.Outcome State Fault Refusal := .next (loadRoutes s entries)

/-- FABRIC_REQUEST (R341). A request arrives from another package and is performed at the home slice. -/
def execFabricRequest (src : BitVec 10) (pa : Nat) (op : FabricOp) (s : State) : Host.Outcome State Fault Refusal := .next (fabricServe s src pa op)

/-- LINK_CRC_RETRY (R430). A flit that fails its CRC is retried at link level. -/
def execLinkCrcRetry (port : Nat) (s : State) : Host.Outcome State Fault Refusal := .next (crcRetry s port)

/-- LINK_FAIL (R430). A link fails after 16 retries or on training loss, so a record is written and DEAD is set in its routes. -/
def execLinkFail (port : Nat) (s : State) : Host.Outcome State Fault Refusal := .next (failLink s port)

/-- CXL_LINK_FAIL (R340). A memory port's link fails, and its reads return poison while its writes are discarded. -/
def execCxlLinkFail (port : Nat) (s : State) : Host.Outcome State Fault Refusal := .next (failCxl s port)

/-- UNCORRECTED_ERROR (R420). An uncorrected error writes an error record and poisons the data at its granule. -/
def execUncorrectedError (e : ErrSite) (s : State) : Host.Outcome State Fault Refusal := .next (uncorrected s e)

/-- CORRECTED_ERROR (R420). A corrected error raises the unit's corrected count. -/
def execCorrectedError (e : ErrSite) (s : State) : Host.Outcome State Fault Refusal := .next (corrected s e)

/-- SCRUB_READ (R427). The patrol scrubber reads and rewrites a protected word, poisoning it if it is uncorrectable. -/
def execScrubRead (e : ErrSite) (found : ScrubFinding) (s : State) : Host.Outcome State Fault Refusal := .next (scrub s e found)

/-- CHECKED_MISMATCH (R428). A checked herd's signatures differ, so immediate effects are discarded, CHECK is set and the instance is stopped. -/
def execCheckedMismatch (hc : Nat) (mem : Nat) (s : State) : Host.Outcome State Fault Refusal := .next (checkedFail s hc mem)

/-- MARKHOR_PAIR_MISMATCH (R429). A markhor pair's compare fails, so the handler re-runs, or the pair is marked failed on a second mismatch. -/
def execMarkhorPairMismatch (die : Nat) (pair : Nat) (s : State) : Host.Outcome State Fault Refusal := .next (pairMismatch s die pair)

/-- WEAR_UPDATE (R431). Ageing sensors update the end-of-life register and may raise the event counter. -/
def execWearUpdate (die : Nat) (poh : BitVec 32) (eolh : BitVec 32) (s : State) : Host.Outcome State Fault Refusal := .next (wear s die poh eolh)

/-- POWER_CAP_CHANGE (R350). A power cap lowers the arithmetic clock with no change of result. -/
def execPowerCapChange (cap : Nat) (s : State) : Host.Outcome State Fault Refusal := .next (setCap s cap)

/-- MEASUREMENT_REPORT (R349). A signed measurement report is produced over MCTP. -/
def execMeasurementReport (s : State) : Host.Outcome State Fault Refusal := .next (measureReport s)

/-- RESET (R347). At reset the boot ROM verifies the firmware, advances the identity leaf and reads expander capacities. -/
def execReset (image : List Byte) (s : State) : Host.Outcome State Fault Refusal := .next (resetDevice s image)

/-- RUNTIME_RESUME_REQUEST (R377). The runtime or partition manager asks firmware to resume or halt a herd-context held FROZEN after a trap, and firmware retranslates and resumes it, or halts its node. -/
def execRuntimeResumeRequest (hc : Nat) (halt : Bool) (s : State) : Host.Outcome State Fault Refusal := .next (answerHeld s hc halt)

end Sys2Proof.Machine
end

