-- ==== Sys2Proof/Machine/IssueControl.lean ====
section
/-! DEFINITION. The meanings of a whole bundle, and a bundle whose header carries one control operation: each is issued by the herd-context that has the turn (R58, R366), and
its effect is that of its operation in `slotFx`, `runControl` or `routineCall`. -/

namespace Sys2Proof.Machine

/-- BUNDLE_ISSUE (R58). A herd-context's next bundle passes its encoding and execution checks, issues at one virtual cycle on every member and commits as a whole or traps. -/
def execBundleIssue (h : Hdr) (c : Instr) (s : Instr) (v : Instr) (m : Instr) (ra : Instr) (rb : Instr) (st : State) : Host.Outcome State Fault Refusal := issueOne (.bundleIssue h c s v m ra rb) st

/-- CTRL_NOP (R53). COP 0x00: the header has no control operation. -/
def execCtrlNop (cg : BitVec 4) (s : State) : Host.Outcome State Fault Refusal := issueOne (.ctrlNop cg) s

/-- BR (R153). Branch to A + 8·OFF34. -/
def execBr (cg : BitVec 4) (off : BitVec 34) (s : State) : Host.Outcome State Fault Refusal := issueOne (.br cg off) s

/-- BRR (R153). Branch to the address held in SA, trapping MISALIGN on an unaligned target. -/
def execBrr (cg : BitVec 4) (sa : BitVec 6) (s : State) : Host.Outcome State Fault Refusal := issueOne (.brr cg sa) s

/-- CALL (R154). Push a return link and branch to a direct target. -/
def execCall (cg : BitVec 4) (off : BitVec 34) (s : State) : Host.Outcome State Fault Refusal := issueOne (.call cg off) s

/-- CALLR (R154). Push a return link and branch to a register target. -/
def execCallr (cg : BitVec 4) (sa : BitVec 6) (s : State) : Host.Outcome State Fault Refusal := issueOne (.callr cg sa) s

/-- RET (R154). Pop the link store and return, first completing a body call under R39 when the RET is in a body. -/
def execRet (cg : BitVec 4) (s : State) : Host.Outcome State Fault Refusal := issueOne (.ret cg) s

/-- LOOPT (R158). Start a loop on level l over this herd-context's range from the loop table. -/
def execLoopt (cg : BitVec 4) (l : BitVec 3) (e : BitVec 16) (s : State) : Host.Outcome State Fault Refusal := issueOne (.loopt cg l e) s

/-- LOOPN (R158). Start a counted loop on level l, with an immediate count or a count from a scalar register. -/
def execLoopn (cg : BitVec 4) (l : BitVec 3) (cnt : LoopCount) (e : BitVec 16) (s : State) : Host.Outcome State Fault Refusal := issueOne (.loopn cg l cnt e) s

/-- LEXIT (R160). Deactivate loop level l and every level started after it, and continue after the loop's end bundle. -/
def execLexit (cg : BitVec 4) (l : BitVec 3) (s : State) : Host.Outcome State Fault Refusal := issueOne (.lexit cg l) s

/-- TRAP (R155). Commit the bundle, then freeze with USER_TRAP and CODE16, with PC at the successor. -/
def execTrap (cg : BitVec 4) (code : BitVec 16) (s : State) : Host.Outcome State Fault Refusal := issueOne (.trap cg code) s

/-- YIELD (R156). Mark the herd-context READY and let the selector switch once. -/
def execYield (cg : BitVec 4) (s : State) : Host.Outcome State Fault Refusal := issueOne (.yield cg) s

/-- WAITE (R156). Make the successor block until the engine classes named in EMASK are empty for the herd-context. -/
def execWaite (cg : BitVec 4) (emask : BitVec 8) (s : State) : Host.Outcome State Fault Refusal := issueOne (.waite cg emask) s

/-- ERET (R157). End the markhor's own handler and continue where it was entered. -/
def execEret (cg : BitVec 4) (s : State) : Host.Outcome State Fault Refusal := issueOne (.eret cg) s

/-- RESUME (R157). Write a frozen herd-context's snapshot entries and let it issue its frozen or successor bundle. -/
def execResume (cg : BitVec 4) (sa : BitVec 6) (s : State) : Host.Outcome State Fault Refusal := issueOne (.resume cg sa) s

end Sys2Proof.Machine
end

