-- ==== Sys2Proof/Machine/IssueMemory.lean ====
section
/-! DEFINITION. The meanings of a bundle with one memory operation: each is issued by the herd-context that has the turn (R58, R366), and
its effect is that of its operation in `slotFx`, `runControl` or `routineCall`. -/

namespace Sys2Proof.Machine

/-- MNOP (R68). Memory slot no-op. -/
def execMnop (s : State) : Host.Outcome State Fault Refusal := issueOne .mnop s

/-- TRANS (R186). Walk both stages for a virtual address under an intent and fill a handle, recording the cause on failure. -/
def execTrans (f : TransForm) (s : State) : Host.Outcome State Fault Refusal := issueOne (.trans f) s

/-- HINV (R188). Invalidate a handle register. -/
def execHinv (f : HinvForm) (s : State) : Host.Outcome State Fault Refusal := issueOne (.hinv f) s

/-- HRD (R188). Read word 0 or 1 of a handle into a scalar. -/
def execHrd (f : SMemForm) (s : State) : Host.Outcome State Fault Refusal := issueOne (.hrd f) s

/-- LD_B (R193). Load a byte, zero-extended, through a handle. -/
def execLdB (f : SMemForm) (s : State) : Host.Outcome State Fault Refusal := issueOne (.ldB f) s

/-- LD_H (R193). Load 2 bytes, zero-extended. -/
def execLdH (f : SMemForm) (s : State) : Host.Outcome State Fault Refusal := issueOne (.ldH f) s

/-- LD_W (R193). Load 4 bytes, zero-extended. -/
def execLdW (f : SMemForm) (s : State) : Host.Outcome State Fault Refusal := issueOne (.ldW f) s

/-- LD_D (R193). Load 8 bytes. -/
def execLdD (f : SMemForm) (s : State) : Host.Outcome State Fault Refusal := issueOne (.ldD f) s

/-- LD_SB (R193). Load a byte, sign-extended. -/
def execLdSb (f : SMemForm) (s : State) : Host.Outcome State Fault Refusal := issueOne (.ldSb f) s

/-- LD_SH (R193). Load 2 bytes, sign-extended. -/
def execLdSh (f : SMemForm) (s : State) : Host.Outcome State Fault Refusal := issueOne (.ldSh f) s

/-- LD_SW (R193). Load 4 bytes, sign-extended. -/
def execLdSw (f : SMemForm) (s : State) : Host.Outcome State Fault Refusal := issueOne (.ldSw f) s

/-- ST_B (R193). Store the low byte through a handle. -/
def execStB (f : SMemForm) (s : State) : Host.Outcome State Fault Refusal := issueOne (.stB f) s

/-- ST_H (R193). Store the low 2 bytes. -/
def execStH (f : SMemForm) (s : State) : Host.Outcome State Fault Refusal := issueOne (.stH f) s

/-- ST_W (R193). Store the low 4 bytes. -/
def execStW (f : SMemForm) (s : State) : Host.Outcome State Fault Refusal := issueOne (.stW f) s

/-- ST_D (R193). Store 8 bytes. -/
def execStD (f : SMemForm) (s : State) : Host.Outcome State Fault Refusal := issueOne (.stD f) s

/-- LDWAIT_D (R200). Full/empty load that waits for full and leaves the word full. -/
def execLdwaitD (f : SMemForm) (s : State) : Host.Outcome State Fault Refusal := issueOne (.ldwaitD f) s

/-- LDTAKE_D (R200). Full/empty load that waits for full and leaves the word empty. -/
def execLdtakeD (f : SMemForm) (s : State) : Host.Outcome State Fault Refusal := issueOne (.ldtakeD f) s

/-- STFILL_D (R200). Full/empty store that waits for empty and leaves the word full. -/
def execStfillD (f : SMemForm) (s : State) : Host.Outcome State Fault Refusal := issueOne (.stfillD f) s

/-- FESET (R200). Set a word's full/empty bit. -/
def execFeset (f : SMemForm) (s : State) : Host.Outcome State Fault Refusal := issueOne (.feset f) s

/-- FEGET (R200). Read a word's full/empty bit. -/
def execFeget (f : SMemForm) (s : State) : Host.Outcome State Fault Refusal := issueOne (.feget f) s

/-- VLD_W (R195). Strided vector load of 4-byte elements through a handle. -/
def execVldW (f : VMemForm) (s : State) : Host.Outcome State Fault Refusal := issueOne (.vldW f) s

/-- VST_W (R195). Strided vector store of 4-byte elements. -/
def execVstW (f : VMemForm) (s : State) : Host.Outcome State Fault Refusal := issueOne (.vstW f) s

/-- VLD_H (R195). Strided vector load of 2-byte elements into bits 31..16. -/
def execVldH (f : VMemForm) (s : State) : Host.Outcome State Fault Refusal := issueOne (.vldH f) s

/-- VST_H (R195). Strided vector store of bits 31..16 of each lane. -/
def execVstH (f : VMemForm) (s : State) : Host.Outcome State Fault Refusal := issueOne (.vstH f) s

/-- SPLD_W (R197). Scratchpad scalar load of a word. -/
def execSpldW (f : SpsForm) (s : State) : Host.Outcome State Fault Refusal := issueOne (.spldW f) s

/-- SPLD_D (R197). Scratchpad scalar load of 8 bytes. -/
def execSpldD (f : SpsForm) (s : State) : Host.Outcome State Fault Refusal := issueOne (.spldD f) s

/-- SPST_W (R197). Scratchpad scalar store of a word. -/
def execSpstW (f : SpsForm) (s : State) : Host.Outcome State Fault Refusal := issueOne (.spstW f) s

/-- SPST_D (R197). Scratchpad scalar store of 8 bytes. -/
def execSpstD (f : SpsForm) (s : State) : Host.Outcome State Fault Refusal := issueOne (.spstD f) s

/-- VSPLD (R198). Strided scratchpad vector load. -/
def execVspld (f : SpvForm) (s : State) : Host.Outcome State Fault Refusal := issueOne (.vspld f) s

/-- VSPST (R198). Strided scratchpad vector store. -/
def execVspst (f : SpvForm) (s : State) : Host.Outcome State Fault Refusal := issueOne (.vspst f) s

/-- VSPG (R198). Scratchpad gather by per-lane word indices. -/
def execVspg (f : GatherForm) (s : State) : Host.Outcome State Fault Refusal := issueOne (.vspg f) s

/-- VSPS (R198). Scratchpad scatter by per-lane word indices. -/
def execVsps (f : GatherForm) (s : State) : Host.Outcome State Fault Refusal := issueOne (.vsps f) s

/-- LPLD (R199). Load each lane from its lane-private slice. -/
def execLpld (f : GatherForm) (s : State) : Host.Outcome State Fault Refusal := issueOne (.lpld f) s

/-- LPST (R199). Store each lane to its lane-private slice. -/
def execLpst (f : GatherForm) (s : State) : Host.Outcome State Fault Refusal := issueOne (.lpst f) s

/-- SPTAKE_D (R200). Scratchpad full/empty take. -/
def execSptakeD (f : SpsForm) (s : State) : Host.Outcome State Fault Refusal := issueOne (.sptakeD f) s

/-- SPFILL_D (R200). Scratchpad full/empty fill. -/
def execSpfillD (f : SpsForm) (s : State) : Host.Outcome State Fault Refusal := issueOne (.spfillD f) s

/-- AADD (R203). Atomic add. -/
def execAadd (f : AtomForm) (s : State) : Host.Outcome State Fault Refusal := issueOne (.aadd f) s

/-- AMIN (R203). Atomic signed minimum. -/
def execAmin (f : AtomForm) (s : State) : Host.Outcome State Fault Refusal := issueOne (.amin f) s

/-- AMAX (R203). Atomic signed maximum. -/
def execAmax (f : AtomForm) (s : State) : Host.Outcome State Fault Refusal := issueOne (.amax f) s

/-- AMINU (R203). Atomic unsigned minimum. -/
def execAminu (f : AtomForm) (s : State) : Host.Outcome State Fault Refusal := issueOne (.aminu f) s

/-- AMAXU (R203). Atomic unsigned maximum. -/
def execAmaxu (f : AtomForm) (s : State) : Host.Outcome State Fault Refusal := issueOne (.amaxu f) s

/-- AAND (R203). Atomic AND. -/
def execAand (f : AtomForm) (s : State) : Host.Outcome State Fault Refusal := issueOne (.aand f) s

/-- AOR (R203). Atomic OR. -/
def execAor (f : AtomForm) (s : State) : Host.Outcome State Fault Refusal := issueOne (.aor f) s

/-- AXOR (R203). Atomic XOR. -/
def execAxor (f : AtomForm) (s : State) : Host.Outcome State Fault Refusal := issueOne (.axor f) s

/-- ASWP (R203). Atomic swap. -/
def execAswp (f : AtomForm) (s : State) : Host.Outcome State Fault Refusal := issueOne (.aswp f) s

/-- ACAS (R203). Atomic compare-and-swap. -/
def execAcas (f : AtomForm) (s : State) : Host.Outcome State Fault Refusal := issueOne (.acas f) s

/-- CADD (R205). Release the masked classes, add saturating to a counter at its home slice, and wake waiters that are satisfied. -/
def execCadd (f : CaddForm) (s : State) : Host.Outcome State Fault Refusal := issueOne (.cadd f) s

/-- CWAIT (R206). Acquire: wait until a counter is at or above the target. -/
def execCwait (f : AtomForm) (s : State) : Host.Outcome State Fault Refusal := issueOne (.cwait f) s

/-- CRD (R206). Acquire read of a counter. -/
def execCrd (f : AtomForm) (s : State) : Host.Outcome State Fault Refusal := issueOne (.crd f) s

/-- FENCE (R207). Order all earlier masked-class accesses before later ones. -/
def execFence (f : FenceForm) (s : State) : Host.Outcome State Fault Refusal := issueOne (.fence f) s

/-- FENCE_ST (R207). Order earlier masked-class stores before later stores. -/
def execFenceSt (f : FenceForm) (s : State) : Host.Outcome State Fault Refusal := issueOne (.fenceSt f) s

/-- FENCE_LD (R207). Order earlier masked-class loads before later loads and stores. -/
def execFenceLd (f : FenceForm) (s : State) : Host.Outcome State Fault Refusal := issueOne (.fenceLd f) s

/-- SETQ (R208). Load a stream register from a 64-byte record, check the record and reset its position. -/
def execSetq (f : SetqForm) (s : State) : Host.Outcome State Fault Refusal := issueOne (.setq f) s

/-- PREF (R196). Prefetch a line, never trapping. -/
def execPref (f : SMemForm) (s : State) : Host.Outcome State Fault Refusal := issueOne (.pref f) s

end Sys2Proof.Machine
end

