-- ==== Sys2Proof/Machine/IssueRoutine.lean ====
section
/-! DEFINITION. The meanings of a bundle with one routine: each is issued by the herd-context that has the turn (R58, R366), and
its effect is that of its operation in `slotFx`, `runControl` or `routineCall`. -/

namespace Sys2Proof.Machine

/-- ROUTINE_NOP (R23). Routine slot with RN 0 does nothing. -/
def execRoutineNop (f : RForm) (s : State) : Host.Outcome State Fault Refusal := issueOne (.routineNop f) s

/-- ROUTINE_SLOT (R34). A routine slot binds by (RN, profile) and, at commit, issues to its native unit or calls its body. -/
def execRoutineSlot (rn : BitVec 12) (f : RForm) (s : State) : Host.Outcome State Fault Refusal := issueOne (.routineSlot rn f) s

/-- OCLAIM (R235). Claim an operand slot. -/
def execOclaim (f : RForm) (s : State) : Host.Outcome State Fault Refusal := issueOne (.oclaim f) s

/-- OFREE (R235). Release an operand slot, or a BFP16 pair, once it is idle. -/
def execOfree (f : RForm) (s : State) : Host.Outcome State Fault Refusal := issueOne (.ofree f) s

/-- OLDA (R237). Load an A tile from a stream into an operand slot. -/
def execOlda (f : RForm) (s : State) : Host.Outcome State Fault Refusal := issueOne (.olda f) s

/-- OLDB (R237). Load a B tile from a stream into an operand slot. -/
def execOldb (f : RForm) (s : State) : Host.Outcome State Fault Refusal := issueOne (.oldb f) s

/-- ACLAIM (R235). Claim an accumulator. -/
def execAclaim (f : RForm) (s : State) : Host.Outcome State Fault Refusal := issueOne (.aclaim f) s

/-- AFREE (R235). Release an accumulator once it is idle. -/
def execAfree (f : RForm) (s : State) : Host.Outcome State Fault Refusal := issueOne (.afree f) s

/-- AZERO (R239). Reset every element of an accumulator. -/
def execAzero (f : RForm) (s : State) : Host.Outcome State Fault Refusal := issueOne (.azero f) s

/-- MMA (R238). Accumulate the product of an A tile and a B tile into an accumulator. -/
def execMma (f : RForm) (s : State) : Host.Outcome State Fault Refusal := issueOne (.mma f) s

/-- ANORM (R239). Normalise every element of an accumulator. -/
def execAnorm (f : RForm) (s : State) : Host.Outcome State Fault Refusal := issueOne (.anorm f) s

/-- ASTO (R240). Store an accumulator to an output stream, converting by R132. -/
def execAsto (f : RForm) (s : State) : Host.Outcome State Fault Refusal := issueOne (.asto f) s

/-- AROW (R241). Read one accumulator row into a vector register. -/
def execArow (f : RForm) (s : State) : Host.Outcome State Fault Refusal := issueOne (.arow f) s

/-- BFPQ (R237). Quantise FP32 or BF16 stream data into a BFP tile. -/
def execBfpq (f : RForm) (s : State) : Host.Outcome State Fault Refusal := issueOne (.bfpq f) s

/-- BDOT4 (R352). Four-lane BF16 dot products in groups of four lanes. -/
def execBdot4 (f : RForm) (s : State) : Host.Outcome State Fault Refusal := issueOne (.bdot4 f) s

/-- TLSC2 (R405). Load a 2×2 FP32 tile from two pages and scale it. -/
def execTlsc2 (f : RForm) (s : State) : Host.Outcome State Fault Refusal := issueOne (.tlsc2 f) s

/-- EXP2 (R248). Base-2 exponential. -/
def execExp2 (f : RForm) (s : State) : Host.Outcome State Fault Refusal := issueOne (.exp2 f) s

/-- EXPE (R249). Natural exponential by composition. -/
def execExpe (f : RForm) (s : State) : Host.Outcome State Fault Refusal := issueOne (.expe f) s

/-- LOG2 (R248). Base-2 logarithm. -/
def execLog2 (f : RForm) (s : State) : Host.Outcome State Fault Refusal := issueOne (.log2 f) s

/-- LOGE (R249). Natural logarithm by composition. -/
def execLoge (f : RForm) (s : State) : Host.Outcome State Fault Refusal := issueOne (.loge f) s

/-- RCP (R248). Reciprocal. -/
def execRcp (f : RForm) (s : State) : Host.Outcome State Fault Refusal := issueOne (.rcp f) s

/-- RSQRT (R248). Reciprocal square root. -/
def execRsqrt (f : RForm) (s : State) : Host.Outcome State Fault Refusal := issueOne (.rsqrt f) s

/-- SQRT (R248). Square root. -/
def execSqrt (f : RForm) (s : State) : Host.Outcome State Fault Refusal := issueOne (.sqrt f) s

/-- TANH (R249). Hyperbolic tangent by composition. -/
def execTanh (f : RForm) (s : State) : Host.Outcome State Fault Refusal := issueOne (.tanh f) s

/-- SIGM (R249). Logistic sigmoid by composition. -/
def execSigm (f : RForm) (s : State) : Host.Outcome State Fault Refusal := issueOne (.sigm f) s

/-- SILU (R249). SiLU by composition. -/
def execSilu (f : RForm) (s : State) : Host.Outcome State Fault Refusal := issueOne (.silu f) s

/-- GELU (R249). GELU by composition. -/
def execGelu (f : RForm) (s : State) : Host.Outcome State Fault Refusal := issueOne (.gelu f) s

/-- DIVF (R248). FP32 lane division. -/
def execDivf (f : RForm) (s : State) : Host.Outcome State Fault Refusal := issueOne (.divf f) s

/-- RMAX (R251). Row maximum over a vector or stream row. -/
def execRmax (f : RForm) (s : State) : Host.Outcome State Fault Refusal := issueOne (.rmax f) s

/-- RSUM (R251). Row sum in tree and program order. -/
def execRsum (f : RForm) (s : State) : Host.Outcome State Fault Refusal := issueOne (.rsum f) s

/-- SMXUPD (R252). Online softmax state update in base 2. -/
def execSmxupd (f : RForm) (s : State) : Host.Outcome State Fault Refusal := issueOne (.smxupd f) s

/-- SMXFIN (R253). Finish softmax probabilities from the state. -/
def execSmxfin (f : RForm) (s : State) : Host.Outcome State Fault Refusal := issueOne (.smxfin f) s

/-- RMSN (R254). RMS-norm statistics of a row. -/
def execRmsn (f : RForm) (s : State) : Host.Outcome State Fault Refusal := issueOne (.rmsn f) s

/-- LNRM (R254). Layer-norm mean and variance statistics of a row. -/
def execLnrm (f : RForm) (s : State) : Host.Outcome State Fault Refusal := issueOne (.lnrm f) s

/-- CPY (R262). Check and enqueue a copy from one stream walk to another, with optional F/E mode, acquire, release and counter add. -/
def execCpy (f : RForm) (s : State) : Host.Outcome State Fault Refusal := issueOne (.cpy f) s

/-- CPYRED (R267). Send reduction contributions to the home slices that hold the group's time-slot entries. -/
def execCpyred (f : RForm) (s : State) : Host.Outcome State Fault Refusal := issueOne (.cpyred f) s

/-- TSTLOAD (R266). Load a pending time-slot table image into a home slice. -/
def execTstload (f : RForm) (s : State) : Host.Outcome State Fault Refusal := issueOne (.tstload f) s

/-- BTSWAP (R269). Compare-and-swap a block-table entry in copy-engine queue order. -/
def execBtswap (f : RForm) (s : State) : Host.Outcome State Fault Refusal := issueOne (.btswap f) s

/-- BTFENCE (R270). Drop cached block-table entries of a page on every generator, then post a counter add. -/
def execBtfence (f : RForm) (s : State) : Host.Outcome State Fault Refusal := issueOne (.btfence f) s

/-- CBREG (R273). Register a token record in a combine slot and return the slot ID. -/
def execCbreg (f : RForm) (s : State) : Host.Outcome State Fault Refusal := issueOne (.cbreg f) s

/-- CBPUT (R274). Deliver an expert row to a combine slot, applied in position order or dropped when late. -/
def execCbput (f : RForm) (s : State) : Host.Outcome State Fault Refusal := issueOne (.cbput f) s

/-- CBSTAT (R277). Read a combine unit statistic or slot status. -/
def execCbstat (f : RForm) (s : State) : Host.Outcome State Fault Refusal := issueOne (.cbstat f) s

/-- JEXP (R279). Raise a JCB's expected total for an open producer. -/
def execJexp (f : RForm) (s : State) : Host.Outcome State Fault Refusal := issueOne (.jexp f) s

/-- JDONE (R279). Close a producer on a JCB, finishing the region and adding to FINCTR when the last producer closes. -/
def execJdone (f : RForm) (s : State) : Host.Outcome State Fault Refusal := issueOne (.jdone f) s

/-- RINGADV (R281). Advance a host-ring producer index, write it to host memory and send a coalesced MSI-X interrupt. -/
def execRingadv (f : RForm) (s : State) : Host.Outcome State Fault Refusal := issueOne (.ringadv f) s

end Sys2Proof.Machine
end

