-- ==== Sys2Proof/Machine/IssueScalar.lean ====
section
/-! DEFINITION. The meanings of a bundle with one scalar operation: each is issued by the herd-context that has the turn (R58, R366), and
its effect is that of its operation in `slotFx`, `runControl` or `routineCall`. -/

namespace Sys2Proof.Machine

/-- SNOP (R63). Scalar slot no-op. -/
def execSnop (s : State) : Host.Outcome State Fault Refusal := issueOne .snop s

/-- ADD (R139). 64-bit wrapping add of two scalar registers. -/
def execAdd (f : SRForm) (s : State) : Host.Outcome State Fault Refusal := issueOne (.add f) s

/-- SUB (R139). 64-bit wrapping subtract of two scalar registers. -/
def execSub (f : SRForm) (s : State) : Host.Outcome State Fault Refusal := issueOne (.sub f) s

/-- AND (R139). Bitwise AND of two scalar registers. -/
def execAnd (f : SRForm) (s : State) : Host.Outcome State Fault Refusal := issueOne (.and f) s

/-- OR (R139). Bitwise OR of two scalar registers. -/
def execOr (f : SRForm) (s : State) : Host.Outcome State Fault Refusal := issueOne (.or f) s

/-- XOR (R139). Bitwise XOR of two scalar registers. -/
def execXor (f : SRForm) (s : State) : Host.Outcome State Fault Refusal := issueOne (.xor f) s

/-- SHL (R139). Shift left by bits 5..0 of SB. -/
def execShl (f : SRForm) (s : State) : Host.Outcome State Fault Refusal := issueOne (.shl f) s

/-- SHR (R139). Logical shift right by bits 5..0 of SB. -/
def execShr (f : SRForm) (s : State) : Host.Outcome State Fault Refusal := issueOne (.shr f) s

/-- SRA (R139). Arithmetic shift right by bits 5..0 of SB. -/
def execSra (f : SRForm) (s : State) : Host.Outcome State Fault Refusal := issueOne (.sra f) s

/-- MIN (R139). Signed minimum of two scalar registers. -/
def execMin (f : SRForm) (s : State) : Host.Outcome State Fault Refusal := issueOne (.min f) s

/-- MAX (R139). Signed maximum of two scalar registers. -/
def execMax (f : SRForm) (s : State) : Host.Outcome State Fault Refusal := issueOne (.max f) s

/-- MINU (R139). Unsigned minimum of two scalar registers. -/
def execMinu (f : SRForm) (s : State) : Host.Outcome State Fault Refusal := issueOne (.minu f) s

/-- MAXU (R139). Unsigned maximum of two scalar registers. -/
def execMaxu (f : SRForm) (s : State) : Host.Outcome State Fault Refusal := issueOne (.maxu f) s

/-- ROTL (R139). Rotate left by bits 5..0 of SB. -/
def execRotl (f : SRForm) (s : State) : Host.Outcome State Fault Refusal := issueOne (.rotl f) s

/-- ADDI (R140). Add a sign-extended 32-bit immediate. -/
def execAddi (f : SIForm) (s : State) : Host.Outcome State Fault Refusal := issueOne (.addi f) s

/-- ANDI (R140). AND with a sign-extended 32-bit immediate. -/
def execAndi (f : SIForm) (s : State) : Host.Outcome State Fault Refusal := issueOne (.andi f) s

/-- ORI (R140). OR with a sign-extended 32-bit immediate. -/
def execOri (f : SIForm) (s : State) : Host.Outcome State Fault Refusal := issueOne (.ori f) s

/-- XORI (R140). XOR with a sign-extended 32-bit immediate. -/
def execXori (f : SIForm) (s : State) : Host.Outcome State Fault Refusal := issueOne (.xori f) s

/-- SHLI (R140). Shift left by an immediate of 0..63. -/
def execShli (f : SIForm) (s : State) : Host.Outcome State Fault Refusal := issueOne (.shli f) s

/-- SHRI (R140). Logical shift right by an immediate of 0..63. -/
def execShri (f : SIForm) (s : State) : Host.Outcome State Fault Refusal := issueOne (.shri f) s

/-- SRAI (R140). Arithmetic shift right by an immediate of 0..63. -/
def execSrai (f : SIForm) (s : State) : Host.Outcome State Fault Refusal := issueOne (.srai f) s

/-- MOVI (R141). Write a sign-extended 32-bit immediate. -/
def execMovi (f : MoviForm) (s : State) : Host.Outcome State Fault Refusal := issueOne (.movi f) s

/-- MOVHI (R141). Combine the low 32 bits of SA with an immediate placed in the upper 32 bits. -/
def execMovhi (f : SIForm) (s : State) : Host.Outcome State Fault Refusal := issueOne (.movhi f) s

/-- MUL (R142). Low 64 bits of the product. -/
def execMul (f : SRForm) (s : State) : Host.Outcome State Fault Refusal := issueOne (.mul f) s

/-- MULHS (R142). High 64 bits of the signed 128-bit product. -/
def execMulhs (f : SRForm) (s : State) : Host.Outcome State Fault Refusal := issueOne (.mulhs f) s

/-- MULHU (R142). High 64 bits of the unsigned 128-bit product. -/
def execMulhu (f : SRForm) (s : State) : Host.Outcome State Fault Refusal := issueOne (.mulhu f) s

/-- DIVS (R143). Signed division truncating toward zero, with fixed borderline results. -/
def execDivs (f : SRForm) (s : State) : Host.Outcome State Fault Refusal := issueOne (.divs f) s

/-- DIVU (R143). Unsigned division. -/
def execDivu (f : SRForm) (s : State) : Host.Outcome State Fault Refusal := issueOne (.divu f) s

/-- REMS (R143). Signed remainder, taking the sign of the dividend. -/
def execRems (f : SRForm) (s : State) : Host.Outcome State Fault Refusal := issueOne (.rems f) s

/-- REMU (R143). Unsigned remainder. -/
def execRemu (f : SRForm) (s : State) : Host.Outcome State Fault Refusal := issueOne (.remu f) s

/-- CLZ (R144). Count leading zero bits. -/
def execClz (f : S1Form) (s : State) : Host.Outcome State Fault Refusal := issueOne (.clz f) s

/-- CTZ (R144). Count trailing zero bits. -/
def execCtz (f : S1Form) (s : State) : Host.Outcome State Fault Refusal := issueOne (.ctz f) s

/-- POPC (R144). Count one bits. -/
def execPopc (f : S1Form) (s : State) : Host.Outcome State Fault Refusal := issueOne (.popc f) s

/-- SEXTB (R144). Sign-extend the low byte. -/
def execSextb (f : S1Form) (s : State) : Host.Outcome State Fault Refusal := issueOne (.sextb f) s

/-- SEXTH (R144). Sign-extend the low 16 bits. -/
def execSexth (f : S1Form) (s : State) : Host.Outcome State Fault Refusal := issueOne (.sexth f) s

/-- SEXTW (R144). Sign-extend the low 32 bits. -/
def execSextw (f : S1Form) (s : State) : Host.Outcome State Fault Refusal := issueOne (.sextw f) s

/-- ZEXTB (R144). Zero-extend the low byte. -/
def execZextb (f : S1Form) (s : State) : Host.Outcome State Fault Refusal := issueOne (.zextb f) s

/-- ZEXTH (R144). Zero-extend the low 16 bits. -/
def execZexth (f : S1Form) (s : State) : Host.Outcome State Fault Refusal := issueOne (.zexth f) s

/-- ZEXTW (R144). Zero-extend the low 32 bits. -/
def execZextw (f : S1Form) (s : State) : Host.Outcome State Fault Refusal := issueOne (.zextw f) s

/-- SEL (R145). Select SA or SB by a predicate. -/
def execSel (f : SelForm) (s : State) : Host.Outcome State Fault Refusal := issueOne (.sel f) s

/-- CMP (R146). Compare two registers and write a predicate and its complement. -/
def execCmp (f : CmpForm) (s : State) : Host.Outcome State Fault Refusal := issueOne (.cmp f) s

/-- CMPI (R146). Compare a register with a sign-extended immediate and write a predicate and its complement. -/
def execCmpi (f : CmpiForm) (s : State) : Host.Outcome State Fault Refusal := issueOne (.cmpi f) s

/-- PAND (R147). Predicate AND, writing the result and its complement. -/
def execPand (f : PlogForm) (s : State) : Host.Outcome State Fault Refusal := issueOne (.pand f) s

/-- POR (R147). Predicate OR, writing the result and its complement. -/
def execPor (f : PlogForm) (s : State) : Host.Outcome State Fault Refusal := issueOne (.por f) s

/-- PXOR (R147). Predicate XOR, writing the result and its complement. -/
def execPxor (f : PlogForm) (s : State) : Host.Outcome State Fault Refusal := issueOne (.pxor f) s

/-- PANDN (R147). Predicate AND-NOT, writing the result and its complement. -/
def execPandn (f : PlogForm) (s : State) : Host.Outcome State Fault Refusal := issueOne (.pandn f) s

/-- MOVP (R148). Move a predicate to a scalar as 0 or 1. -/
def execMovp (f : MovpForm) (s : State) : Host.Outcome State Fault Refusal := issueOne (.movp f) s

/-- MOVPS (R148). Set a predicate and its complement from bit 0 of a scalar. -/
def execMovps (f : MovpsForm) (s : State) : Host.Outcome State Fault Refusal := issueOne (.movps f) s

/-- MOVSR (R149). Read a special register into a scalar register. -/
def execMovsr (f : MovsrForm) (s : State) : Host.Outcome State Fault Refusal := issueOne (.movsr f) s

/-- MOVRS (R149). Write a scalar register to a special register; writes to read-only registers are ignored. -/
def execMovrs (f : MovrsForm) (num : BitVec 32) (s : State) : Host.Outcome State Fault Refusal := issueOne (.movrs f num) s

/-- FPSTAT_WRITE (R116). A MOVRS to FPSTAT writes bits 3..0. -/
def execFpstatWrite (f : MovrsForm) (s : State) : Host.Outcome State Fault Refusal := issueOne (.fpstatWrite f) s

/-- CIR_WRITE (R149). A MOVRS to CIR writes all fields, then records any consumption of a poisoned SA. -/
def execCirWrite (f : MovrsForm) (s : State) : Host.Outcome State Fault Refusal := issueOne (.cirWrite f) s

/-- FEBUDGET_WRITE (R149). A MOVRS to FEBUDGET sets the retry budget from the lead's bits 11..0. -/
def execFebudgetWrite (f : MovrsForm) (s : State) : Host.Outcome State Fault Refusal := issueOne (.febudgetWrite f) s

/-- DEFPROFILE_WRITE (R149). A MOVRS to DEFPROFILE sets the default profile from the lead's value, trapping PROFILE_UNKNOWN outside 1..3. -/
def execDefprofileWrite (f : MovrsForm) (s : State) : Host.Outcome State Fault Refusal := issueOne (.defprofileWrite f) s

/-- ARG_WRITE (R39). Inside a body, a MOVRS to one of ARGX..ARGW sets the value for output write-back; outside a body it is ignored. -/
def execArgWrite (f : MovrsForm) (n : BitVec 2) (s : State) : Host.Outcome State Fault Refusal := issueOne (.argWrite f n) s

/-- QPOS_WRITE (R216). A MOVRS to QPOSN writes out pushed elements, discards read-ahead and sets the stream position. -/
def execQposWrite (f : MovrsForm) (n : BitVec 4) (s : State) : Host.Outcome State Fault Refusal := issueOne (.qposWrite f n) s

/-- CHKE (R150). Wait until results and routines have completed on every member, then read CIR. -/
def execChke (f : ChkeForm) (s : State) : Host.Outcome State Fault Refusal := issueOne (.chke f) s

/-- SFADD (R151). Scalar FP32 add, rounded RNE. -/
def execSfadd (f : SRForm) (s : State) : Host.Outcome State Fault Refusal := issueOne (.sfadd f) s

/-- SFSUB (R151). Scalar FP32 subtract, rounded RNE. -/
def execSfsub (f : SRForm) (s : State) : Host.Outcome State Fault Refusal := issueOne (.sfsub f) s

/-- SFMUL (R151). Scalar FP32 multiply, rounded RNE. -/
def execSfmul (f : SRForm) (s : State) : Host.Outcome State Fault Refusal := issueOne (.sfmul f) s

/-- SFMIN (R151). Scalar FP32 minimum. -/
def execSfmin (f : SRForm) (s : State) : Host.Outcome State Fault Refusal := issueOne (.sfmin f) s

/-- SFMAX (R151). Scalar FP32 maximum. -/
def execSfmax (f : SRForm) (s : State) : Host.Outcome State Fault Refusal := issueOne (.sfmax f) s

/-- SFCVTIF (R151). Convert int32 to FP32. -/
def execSfcvtif (f : S1Form) (s : State) : Host.Outcome State Fault Refusal := issueOne (.sfcvtif f) s

/-- SFCVTFI (R151). Convert FP32 to int32 toward zero, saturating. -/
def execSfcvtfi (f : S1Form) (s : State) : Host.Outcome State Fault Refusal := issueOne (.sfcvtfi f) s

end Sys2Proof.Machine
end

