-- ==== Sys2Proof/Machine/IssueVector.lean ====
section
/-! DEFINITION. The meanings of a bundle with one vector operation: each is issued by the herd-context that has the turn (R58, R366), and
its effect is that of its operation in `slotFx`, `runControl` or `routineCall`. -/

namespace Sys2Proof.Machine

/-- VNOP (R66). Vector slot no-op. -/
def execVnop (s : State) : Host.Outcome State Fault Refusal := issueOne .vnop s

/-- FADD (R170). FP32 lane add under RM. -/
def execFadd (f : VForm) (s : State) : Host.Outcome State Fault Refusal := issueOne (.fadd f) s

/-- FSUB (R170). FP32 lane subtract under RM. -/
def execFsub (f : VForm) (s : State) : Host.Outcome State Fault Refusal := issueOne (.fsub f) s

/-- FMUL (R170). FP32 lane multiply under RM. -/
def execFmul (f : VForm) (s : State) : Host.Outcome State Fault Refusal := issueOne (.fmul f) s

/-- FFMA (R170). Fused a×b+c with one rounding. -/
def execFfma (f : VForm) (s : State) : Host.Outcome State Fault Refusal := issueOne (.ffma f) s

/-- FFMS (R170). Fused a×b−c with one rounding. -/
def execFfms (f : VForm) (s : State) : Host.Outcome State Fault Refusal := issueOne (.ffms f) s

/-- FNMA (R170). Fused c−a×b with one rounding. -/
def execFnma (f : VForm) (s : State) : Host.Outcome State Fault Refusal := issueOne (.fnma f) s

/-- FMIN (R171). FP32 lane minimum. -/
def execFmin (f : VForm) (s : State) : Host.Outcome State Fault Refusal := issueOne (.fmin f) s

/-- FMAX (R171). FP32 lane maximum. -/
def execFmax (f : VForm) (s : State) : Host.Outcome State Fault Refusal := issueOne (.fmax f) s

/-- FABS (R171). Clear the sign bit of each lane. -/
def execFabs (f : VForm) (s : State) : Host.Outcome State Fault Refusal := issueOne (.fabs f) s

/-- FNEG (R171). Invert the sign bit of each lane. -/
def execFneg (f : VForm) (s : State) : Host.Outcome State Fault Refusal := issueOne (.fneg f) s

/-- FCMP (R172). FP32 compare writing two masks that partition the active lanes. -/
def execFcmp (f : VForm) (s : State) : Host.Outcome State Fault Refusal := issueOne (.fcmp f) s

/-- FCVTI (R173). Convert FP32 lanes to int32 under RM, saturating. -/
def execFcvti (f : VForm) (s : State) : Host.Outcome State Fault Refusal := issueOne (.fcvti f) s

/-- ICVTF (R173). Convert int32 lanes to FP32 under RM. -/
def execIcvtf (f : VForm) (s : State) : Host.Outcome State Fault Refusal := issueOne (.icvtf f) s

/-- BFPK (R174). Pack two FP32 vectors into BF16 halves. -/
def execBfpk (f : VForm) (s : State) : Host.Outcome State Fault Refusal := issueOne (.bfpk f) s

/-- BFUP (R174). Unpack one BF16 half to FP32. -/
def execBfup (f : VForm) (s : State) : Host.Outcome State Fault Refusal := issueOne (.bfup f) s

/-- IADD (R175). Lane add modulo 2^32. -/
def execIadd (f : VForm) (s : State) : Host.Outcome State Fault Refusal := issueOne (.iadd f) s

/-- ISUB (R175). Lane subtract modulo 2^32. -/
def execIsub (f : VForm) (s : State) : Host.Outcome State Fault Refusal := issueOne (.isub f) s

/-- IMUL (R175). Low 32 bits of the lane product. -/
def execImul (f : VForm) (s : State) : Host.Outcome State Fault Refusal := issueOne (.imul f) s

/-- IMULH (R175). High 32 bits of the signed lane product. -/
def execImulh (f : VForm) (s : State) : Host.Outcome State Fault Refusal := issueOne (.imulh f) s

/-- IAND (R175). Lane bitwise AND. -/
def execIand (f : VForm) (s : State) : Host.Outcome State Fault Refusal := issueOne (.iand f) s

/-- IOR (R175). Lane bitwise OR. -/
def execIor (f : VForm) (s : State) : Host.Outcome State Fault Refusal := issueOne (.ior f) s

/-- IXOR (R175). Lane bitwise XOR. -/
def execIxor (f : VForm) (s : State) : Host.Outcome State Fault Refusal := issueOne (.ixor f) s

/-- ISHL (R175). Lane shift left. -/
def execIshl (f : VForm) (s : State) : Host.Outcome State Fault Refusal := issueOne (.ishl f) s

/-- ISHR (R175). Lane logical shift right. -/
def execIshr (f : VForm) (s : State) : Host.Outcome State Fault Refusal := issueOne (.ishr f) s

/-- ISRA (R175). Lane arithmetic shift right. -/
def execIsra (f : VForm) (s : State) : Host.Outcome State Fault Refusal := issueOne (.isra f) s

/-- IMIN (R175). Signed lane minimum. -/
def execImin (f : VForm) (s : State) : Host.Outcome State Fault Refusal := issueOne (.imin f) s

/-- IMAX (R175). Signed lane maximum. -/
def execImax (f : VForm) (s : State) : Host.Outcome State Fault Refusal := issueOne (.imax f) s

/-- IMINU (R175). Unsigned lane minimum. -/
def execIminu (f : VForm) (s : State) : Host.Outcome State Fault Refusal := issueOne (.iminu f) s

/-- IMAXU (R175). Unsigned lane maximum. -/
def execImaxu (f : VForm) (s : State) : Host.Outcome State Fault Refusal := issueOne (.imaxu f) s

/-- ICMP (R172). int32 compare writing two masks. -/
def execIcmp (f : VForm) (s : State) : Host.Outcome State Fault Refusal := issueOne (.icmp f) s

/-- VSEL (R176). Select each lane from VA or VB by mask km. -/
def execVsel (f : VForm) (s : State) : Host.Outcome State Fault Refusal := issueOne (.vsel f) s

/-- VMOV (R176). Move a vector register. -/
def execVmov (f : VForm) (s : State) : Host.Outcome State Fault Refusal := issueOne (.vmov f) s

/-- VBCST (R176). Broadcast the low 32 bits of a scalar to the active lanes. -/
def execVbcst (f : VForm) (s : State) : Host.Outcome State Fault Refusal := issueOne (.vbcst f) s

/-- VPERM (R177). Permute lanes by an index vector taken modulo 256. -/
def execVperm (f : VForm) (s : State) : Host.Outcome State Fault Refusal := issueOne (.vperm f) s

/-- VROT (R177). Rotate lanes by n. -/
def execVrot (f : VForm) (s : State) : Host.Outcome State Fault Refusal := issueOne (.vrot f) s

/-- VIOTA (R177). Write the lane number into each lane. -/
def execViota (f : VForm) (s : State) : Host.Outcome State Fault Refusal := issueOne (.viota f) s

/-- VEXT (R178). Extract one lane, sign-extended, into a scalar. -/
def execVext (f : VForm) (s : State) : Host.Outcome State Fault Refusal := issueOne (.vext f) s

/-- VINS (R178). Insert the low 32 bits of a scalar into one lane. -/
def execVins (f : VForm) (s : State) : Host.Outcome State Fault Refusal := issueOne (.vins f) s

/-- FRSUM (R179). Sum the active lanes by the fixed tree and broadcast the result. -/
def execFrsum (f : VForm) (s : State) : Host.Outcome State Fault Refusal := issueOne (.frsum f) s

/-- FRMAX (R179). Maximum over the active lanes by the tree, broadcast. -/
def execFrmax (f : VForm) (s : State) : Host.Outcome State Fault Refusal := issueOne (.frmax f) s

/-- FRMIN (R179). Minimum over the active lanes by the tree, broadcast. -/
def execFrmin (f : VForm) (s : State) : Host.Outcome State Fault Refusal := issueOne (.frmin f) s

/-- IRSUM (R179). int32 sum over the lanes modulo 2^32, broadcast. -/
def execIrsum (f : VForm) (s : State) : Host.Outcome State Fault Refusal := issueOne (.irsum f) s

/-- IRMAX (R179). Signed maximum over the lanes, broadcast. -/
def execIrmax (f : VForm) (s : State) : Host.Outcome State Fault Refusal := issueOne (.irmax f) s

/-- IRMIN (R179). Signed minimum over the lanes, broadcast. -/
def execIrmin (f : VForm) (s : State) : Host.Outcome State Fault Refusal := issueOne (.irmin f) s

/-- KAND (R180). Mask AND. -/
def execKand (f : VForm) (s : State) : Host.Outcome State Fault Refusal := issueOne (.kand f) s

/-- KOR (R180). Mask OR. -/
def execKor (f : VForm) (s : State) : Host.Outcome State Fault Refusal := issueOne (.kor f) s

/-- KXOR (R180). Mask XOR. -/
def execKxor (f : VForm) (s : State) : Host.Outcome State Fault Refusal := issueOne (.kxor f) s

/-- KANDN (R180). Mask AND-NOT. -/
def execKandn (f : VForm) (s : State) : Host.Outcome State Fault Refusal := issueOne (.kandn f) s

/-- KPOPC (R180). Count the set bits of a mask into a scalar. -/
def execKpopc (f : VForm) (s : State) : Host.Outcome State Fault Refusal := issueOne (.kpopc f) s

/-- KFROMV (R180). Set a mask bit for each active nonzero lane. -/
def execKfromv (f : VForm) (s : State) : Host.Outcome State Fault Refusal := issueOne (.kfromv f) s

end Sys2Proof.Machine
end

