-- ==== Sys2Proof/Machine/Dispatch.lean ====
section
/-! DEFINITION. One arm per instruction: the meaning it calls. -/

namespace Sys2Proof.Machine

def exec (i : Instr) (s : State) : Host.Outcome State Fault Refusal :=
  match i with
  | .bundleIssue h c sl v m ra rb => Sys2Proof.Machine.execBundleIssue h c sl v m ra rb s
  | .lateResultLand hc => Sys2Proof.Machine.execLateResultLand hc s
  | .overlayLoad hc => Sys2Proof.Machine.execOverlayLoad hc s
  | .engineWaitEnd hc => Sys2Proof.Machine.execEngineWaitEnd hc s
  | .contextSelect lead => Sys2Proof.Machine.execContextSelect lead s
  | .ctrlNop cg => Sys2Proof.Machine.execCtrlNop cg s
  | .br cg off => Sys2Proof.Machine.execBr cg off s
  | .brr cg sa => Sys2Proof.Machine.execBrr cg sa s
  | .call cg off => Sys2Proof.Machine.execCall cg off s
  | .callr cg sa => Sys2Proof.Machine.execCallr cg sa s
  | .ret cg => Sys2Proof.Machine.execRet cg s
  | .loopt cg l e => Sys2Proof.Machine.execLoopt cg l e s
  | .loopn cg l cnt e => Sys2Proof.Machine.execLoopn cg l cnt e s
  | .lexit cg l => Sys2Proof.Machine.execLexit cg l s
  | .trap cg code => Sys2Proof.Machine.execTrap cg code s
  | .yield cg => Sys2Proof.Machine.execYield cg s
  | .waite cg emask => Sys2Proof.Machine.execWaite cg emask s
  | .eret cg => Sys2Proof.Machine.execEret cg s
  | .resume cg sa => Sys2Proof.Machine.execResume cg sa s
  | .snop => Sys2Proof.Machine.execSnop s
  | .add f => Sys2Proof.Machine.execAdd f s
  | .sub f => Sys2Proof.Machine.execSub f s
  | .and f => Sys2Proof.Machine.execAnd f s
  | .or f => Sys2Proof.Machine.execOr f s
  | .xor f => Sys2Proof.Machine.execXor f s
  | .shl f => Sys2Proof.Machine.execShl f s
  | .shr f => Sys2Proof.Machine.execShr f s
  | .sra f => Sys2Proof.Machine.execSra f s
  | .min f => Sys2Proof.Machine.execMin f s
  | .max f => Sys2Proof.Machine.execMax f s
  | .minu f => Sys2Proof.Machine.execMinu f s
  | .maxu f => Sys2Proof.Machine.execMaxu f s
  | .rotl f => Sys2Proof.Machine.execRotl f s
  | .addi f => Sys2Proof.Machine.execAddi f s
  | .andi f => Sys2Proof.Machine.execAndi f s
  | .ori f => Sys2Proof.Machine.execOri f s
  | .xori f => Sys2Proof.Machine.execXori f s
  | .shli f => Sys2Proof.Machine.execShli f s
  | .shri f => Sys2Proof.Machine.execShri f s
  | .srai f => Sys2Proof.Machine.execSrai f s
  | .movi f => Sys2Proof.Machine.execMovi f s
  | .movhi f => Sys2Proof.Machine.execMovhi f s
  | .mul f => Sys2Proof.Machine.execMul f s
  | .mulhs f => Sys2Proof.Machine.execMulhs f s
  | .mulhu f => Sys2Proof.Machine.execMulhu f s
  | .divs f => Sys2Proof.Machine.execDivs f s
  | .divu f => Sys2Proof.Machine.execDivu f s
  | .rems f => Sys2Proof.Machine.execRems f s
  | .remu f => Sys2Proof.Machine.execRemu f s
  | .clz f => Sys2Proof.Machine.execClz f s
  | .ctz f => Sys2Proof.Machine.execCtz f s
  | .popc f => Sys2Proof.Machine.execPopc f s
  | .sextb f => Sys2Proof.Machine.execSextb f s
  | .sexth f => Sys2Proof.Machine.execSexth f s
  | .sextw f => Sys2Proof.Machine.execSextw f s
  | .zextb f => Sys2Proof.Machine.execZextb f s
  | .zexth f => Sys2Proof.Machine.execZexth f s
  | .zextw f => Sys2Proof.Machine.execZextw f s
  | .sel f => Sys2Proof.Machine.execSel f s
  | .cmp f => Sys2Proof.Machine.execCmp f s
  | .cmpi f => Sys2Proof.Machine.execCmpi f s
  | .pand f => Sys2Proof.Machine.execPand f s
  | .por f => Sys2Proof.Machine.execPor f s
  | .pxor f => Sys2Proof.Machine.execPxor f s
  | .pandn f => Sys2Proof.Machine.execPandn f s
  | .movp f => Sys2Proof.Machine.execMovp f s
  | .movps f => Sys2Proof.Machine.execMovps f s
  | .movsr f => Sys2Proof.Machine.execMovsr f s
  | .movrs f num => Sys2Proof.Machine.execMovrs f num s
  | .fpstatWrite f => Sys2Proof.Machine.execFpstatWrite f s
  | .cirWrite f => Sys2Proof.Machine.execCirWrite f s
  | .febudgetWrite f => Sys2Proof.Machine.execFebudgetWrite f s
  | .defprofileWrite f => Sys2Proof.Machine.execDefprofileWrite f s
  | .argWrite f n => Sys2Proof.Machine.execArgWrite f n s
  | .qposWrite f n => Sys2Proof.Machine.execQposWrite f n s
  | .chke f => Sys2Proof.Machine.execChke f s
  | .sfadd f => Sys2Proof.Machine.execSfadd f s
  | .sfsub f => Sys2Proof.Machine.execSfsub f s
  | .sfmul f => Sys2Proof.Machine.execSfmul f s
  | .sfmin f => Sys2Proof.Machine.execSfmin f s
  | .sfmax f => Sys2Proof.Machine.execSfmax f s
  | .sfcvtif f => Sys2Proof.Machine.execSfcvtif f s
  | .sfcvtfi f => Sys2Proof.Machine.execSfcvtfi f s
  | .vnop => Sys2Proof.Machine.execVnop s
  | .fadd f => Sys2Proof.Machine.execFadd f s
  | .fsub f => Sys2Proof.Machine.execFsub f s
  | .fmul f => Sys2Proof.Machine.execFmul f s
  | .ffma f => Sys2Proof.Machine.execFfma f s
  | .ffms f => Sys2Proof.Machine.execFfms f s
  | .fnma f => Sys2Proof.Machine.execFnma f s
  | .fmin f => Sys2Proof.Machine.execFmin f s
  | .fmax f => Sys2Proof.Machine.execFmax f s
  | .fabs f => Sys2Proof.Machine.execFabs f s
  | .fneg f => Sys2Proof.Machine.execFneg f s
  | .fcmp f => Sys2Proof.Machine.execFcmp f s
  | .fcvti f => Sys2Proof.Machine.execFcvti f s
  | .icvtf f => Sys2Proof.Machine.execIcvtf f s
  | .bfpk f => Sys2Proof.Machine.execBfpk f s
  | .bfup f => Sys2Proof.Machine.execBfup f s
  | .iadd f => Sys2Proof.Machine.execIadd f s
  | .isub f => Sys2Proof.Machine.execIsub f s
  | .imul f => Sys2Proof.Machine.execImul f s
  | .imulh f => Sys2Proof.Machine.execImulh f s
  | .iand f => Sys2Proof.Machine.execIand f s
  | .ior f => Sys2Proof.Machine.execIor f s
  | .ixor f => Sys2Proof.Machine.execIxor f s
  | .ishl f => Sys2Proof.Machine.execIshl f s
  | .ishr f => Sys2Proof.Machine.execIshr f s
  | .isra f => Sys2Proof.Machine.execIsra f s
  | .imin f => Sys2Proof.Machine.execImin f s
  | .imax f => Sys2Proof.Machine.execImax f s
  | .iminu f => Sys2Proof.Machine.execIminu f s
  | .imaxu f => Sys2Proof.Machine.execImaxu f s
  | .icmp f => Sys2Proof.Machine.execIcmp f s
  | .vsel f => Sys2Proof.Machine.execVsel f s
  | .vmov f => Sys2Proof.Machine.execVmov f s
  | .vbcst f => Sys2Proof.Machine.execVbcst f s
  | .vperm f => Sys2Proof.Machine.execVperm f s
  | .vrot f => Sys2Proof.Machine.execVrot f s
  | .viota f => Sys2Proof.Machine.execViota f s
  | .vext f => Sys2Proof.Machine.execVext f s
  | .vins f => Sys2Proof.Machine.execVins f s
  | .frsum f => Sys2Proof.Machine.execFrsum f s
  | .frmax f => Sys2Proof.Machine.execFrmax f s
  | .frmin f => Sys2Proof.Machine.execFrmin f s
  | .irsum f => Sys2Proof.Machine.execIrsum f s
  | .irmax f => Sys2Proof.Machine.execIrmax f s
  | .irmin f => Sys2Proof.Machine.execIrmin f s
  | .kand f => Sys2Proof.Machine.execKand f s
  | .kor f => Sys2Proof.Machine.execKor f s
  | .kxor f => Sys2Proof.Machine.execKxor f s
  | .kandn f => Sys2Proof.Machine.execKandn f s
  | .kpopc f => Sys2Proof.Machine.execKpopc f s
  | .kfromv f => Sys2Proof.Machine.execKfromv f s
  | .mnop => Sys2Proof.Machine.execMnop s
  | .trans f => Sys2Proof.Machine.execTrans f s
  | .hinv f => Sys2Proof.Machine.execHinv f s
  | .hrd f => Sys2Proof.Machine.execHrd f s
  | .ldB f => Sys2Proof.Machine.execLdB f s
  | .ldH f => Sys2Proof.Machine.execLdH f s
  | .ldW f => Sys2Proof.Machine.execLdW f s
  | .ldD f => Sys2Proof.Machine.execLdD f s
  | .ldSb f => Sys2Proof.Machine.execLdSb f s
  | .ldSh f => Sys2Proof.Machine.execLdSh f s
  | .ldSw f => Sys2Proof.Machine.execLdSw f s
  | .stB f => Sys2Proof.Machine.execStB f s
  | .stH f => Sys2Proof.Machine.execStH f s
  | .stW f => Sys2Proof.Machine.execStW f s
  | .stD f => Sys2Proof.Machine.execStD f s
  | .ldwaitD f => Sys2Proof.Machine.execLdwaitD f s
  | .ldtakeD f => Sys2Proof.Machine.execLdtakeD f s
  | .stfillD f => Sys2Proof.Machine.execStfillD f s
  | .feset f => Sys2Proof.Machine.execFeset f s
  | .feget f => Sys2Proof.Machine.execFeget f s
  | .feRetryAttempt hc => Sys2Proof.Machine.execFeRetryAttempt hc s
  | .feBudget hc => Sys2Proof.Machine.execFeBudget hc s
  | .vldW f => Sys2Proof.Machine.execVldW f s
  | .vstW f => Sys2Proof.Machine.execVstW f s
  | .vldH f => Sys2Proof.Machine.execVldH f s
  | .vstH f => Sys2Proof.Machine.execVstH f s
  | .spldW f => Sys2Proof.Machine.execSpldW f s
  | .spldD f => Sys2Proof.Machine.execSpldD f s
  | .spstW f => Sys2Proof.Machine.execSpstW f s
  | .spstD f => Sys2Proof.Machine.execSpstD f s
  | .repairEntryWrite core entry v => Sys2Proof.Machine.execRepairEntryWrite core entry v s
  | .vspld f => Sys2Proof.Machine.execVspld f s
  | .vspst f => Sys2Proof.Machine.execVspst f s
  | .vspg f => Sys2Proof.Machine.execVspg f s
  | .vsps f => Sys2Proof.Machine.execVsps f s
  | .lpld f => Sys2Proof.Machine.execLpld f s
  | .lpst f => Sys2Proof.Machine.execLpst f s
  | .sptakeD f => Sys2Proof.Machine.execSptakeD f s
  | .spfillD f => Sys2Proof.Machine.execSpfillD f s
  | .aadd f => Sys2Proof.Machine.execAadd f s
  | .amin f => Sys2Proof.Machine.execAmin f s
  | .amax f => Sys2Proof.Machine.execAmax f s
  | .aminu f => Sys2Proof.Machine.execAminu f s
  | .amaxu f => Sys2Proof.Machine.execAmaxu f s
  | .aand f => Sys2Proof.Machine.execAand f s
  | .aor f => Sys2Proof.Machine.execAor f s
  | .axor f => Sys2Proof.Machine.execAxor f s
  | .aswp f => Sys2Proof.Machine.execAswp f s
  | .acas f => Sys2Proof.Machine.execAcas f s
  | .cadd f => Sys2Proof.Machine.execCadd f s
  | .cwait f => Sys2Proof.Machine.execCwait f s
  | .crd f => Sys2Proof.Machine.execCrd f s
  | .fence f => Sys2Proof.Machine.execFence f s
  | .fenceSt f => Sys2Proof.Machine.execFenceSt f s
  | .fenceLd f => Sys2Proof.Machine.execFenceLd f s
  | .setq f => Sys2Proof.Machine.execSetq f s
  | .pref f => Sys2Proof.Machine.execPref f s
  | .streamReadAhead hc mem q => Sys2Proof.Machine.execStreamReadAhead hc mem q s
  | .streamOutputWrite hc mem q => Sys2Proof.Machine.execStreamOutputWrite hc mem q s
  | .routineNop f => Sys2Proof.Machine.execRoutineNop f s
  | .routineSlot rn f => Sys2Proof.Machine.execRoutineSlot rn f s
  | .oclaim f => Sys2Proof.Machine.execOclaim f s
  | .ofree f => Sys2Proof.Machine.execOfree f s
  | .olda f => Sys2Proof.Machine.execOlda f s
  | .oldb f => Sys2Proof.Machine.execOldb f s
  | .aclaim f => Sys2Proof.Machine.execAclaim f s
  | .afree f => Sys2Proof.Machine.execAfree f s
  | .azero f => Sys2Proof.Machine.execAzero f s
  | .mma f => Sys2Proof.Machine.execMma f s
  | .anorm f => Sys2Proof.Machine.execAnorm f s
  | .asto f => Sys2Proof.Machine.execAsto f s
  | .arow f => Sys2Proof.Machine.execArow f s
  | .bfpq f => Sys2Proof.Machine.execBfpq f s
  | .bdot4 f => Sys2Proof.Machine.execBdot4 f s
  | .tlsc2 f => Sys2Proof.Machine.execTlsc2 f s
  | .exp2 f => Sys2Proof.Machine.execExp2 f s
  | .expe f => Sys2Proof.Machine.execExpe f s
  | .log2 f => Sys2Proof.Machine.execLog2 f s
  | .loge f => Sys2Proof.Machine.execLoge f s
  | .rcp f => Sys2Proof.Machine.execRcp f s
  | .rsqrt f => Sys2Proof.Machine.execRsqrt f s
  | .sqrt f => Sys2Proof.Machine.execSqrt f s
  | .tanh f => Sys2Proof.Machine.execTanh f s
  | .sigm f => Sys2Proof.Machine.execSigm f s
  | .silu f => Sys2Proof.Machine.execSilu f s
  | .gelu f => Sys2Proof.Machine.execGelu f s
  | .divf f => Sys2Proof.Machine.execDivf f s
  | .rmax f => Sys2Proof.Machine.execRmax f s
  | .rsum f => Sys2Proof.Machine.execRsum f s
  | .smxupd f => Sys2Proof.Machine.execSmxupd f s
  | .smxfin f => Sys2Proof.Machine.execSmxfin f s
  | .rmsn f => Sys2Proof.Machine.execRmsn f s
  | .lnrm f => Sys2Proof.Machine.execLnrm f s
  | .cpy f => Sys2Proof.Machine.execCpy f s
  | .cpyred f => Sys2Proof.Machine.execCpyred f s
  | .tstload f => Sys2Proof.Machine.execTstload f s
  | .btswap f => Sys2Proof.Machine.execBtswap f s
  | .btfence f => Sys2Proof.Machine.execBtfence f s
  | .cbreg f => Sys2Proof.Machine.execCbreg f s
  | .cbput f => Sys2Proof.Machine.execCbput f s
  | .cbstat f => Sys2Proof.Machine.execCbstat f s
  | .jexp f => Sys2Proof.Machine.execJexp f s
  | .jdone f => Sys2Proof.Machine.execJdone f s
  | .ringadv f => Sys2Proof.Machine.execRingadv f s
  | .matrixQueuePerform core load => Sys2Proof.Machine.execMatrixQueuePerform core load s
  | .functionQueuePerform core => Sys2Proof.Machine.execFunctionQueuePerform core s
  | .copyQueuePerform engine => Sys2Proof.Machine.execCopyQueuePerform engine s
  | .cpyredAdmit slice part group => Sys2Proof.Machine.execCpyredAdmit slice part group s
  | .jobQueuePerform core => Sys2Proof.Machine.execJobQueuePerform core s
  | .tokenRelease die index => Sys2Proof.Machine.execTokenRelease die index s
  | .combineTimeout die index => Sys2Proof.Machine.execCombineTimeout die index s
  | .ringTimerExpiry vector => Sys2Proof.Machine.execRingTimerExpiry vector s
  | .drainPointStop hc => Sys2Proof.Machine.execDrainPointStop hc s
  | .forcedStop hc => Sys2Proof.Machine.execForcedStop hc s
  | .preemptStopTimeout hc => Sys2Proof.Machine.execPreemptStopTimeout hc s
  | .contextSaveDone hc => Sys2Proof.Machine.execContextSaveDone hc s
  | .contextRestore hc => Sys2Proof.Machine.execContextRestore hc s
  | .herdRetire hc => Sys2Proof.Machine.execHerdRetire hc s
  | .nodeCommit part node => Sys2Proof.Machine.execNodeCommit part node s
  | .stagingExhausted part => Sys2Proof.Machine.execStagingExhausted part s
  | .nodeFire part node => Sys2Proof.Machine.execNodeFire part node s
  | .nodePlace part => Sys2Proof.Machine.execNodePlace part s
  | .copyNodeRun part node => Sys2Proof.Machine.execCopyNodeRun part node s
  | .counterNodeRun part node => Sys2Proof.Machine.execCounterNodeRun part node s
  | .conditionalNodeRun part node => Sys2Proof.Machine.execConditionalNodeRun part node s
  | .descriptorArm part node desc => Sys2Proof.Machine.execDescriptorArm part node desc s
  | .descriptorDisarm part node => Sys2Proof.Machine.execDescriptorDisarm part node s
  | .runtimeRelease part node => Sys2Proof.Machine.execRuntimeRelease part node s
  | .regenFault hc => Sys2Proof.Machine.execRegenFault hc s
  | .trapRecordTake die => Sys2Proof.Machine.execTrapRecordTake die s
  | .wakeServe part => Sys2Proof.Machine.execWakeServe part s
  | .handleRetranslate hc => Sys2Proof.Machine.execHandleRetranslate hc s
  | .copyOnWrite hc frame => Sys2Proof.Machine.execCopyOnWrite hc frame s
  | .translationInvalidate part stage2 lo len ctr => Sys2Proof.Machine.execTranslationInvalidate part stage2 lo len ctr s
  | .invalidateComplete part => Sys2Proof.Machine.execInvalidateComplete part s
  | .counterAddWindow part offset data => Sys2Proof.Machine.execCounterAddWindow part offset data s
  | .hostMemoryAccess pa op => Sys2Proof.Machine.execHostMemoryAccess pa op s
  | .requestSlotSubmit part slot data => Sys2Proof.Machine.execRequestSlotSubmit part slot data s
  | .loadRequest part => Sys2Proof.Machine.execLoadRequest part s
  | .unloadRequest part => Sys2Proof.Machine.execUnloadRequest part s
  | .stopRequest part => Sys2Proof.Machine.execStopRequest part s
  | .restoreRequest part => Sys2Proof.Machine.execRestoreRequest part s
  | .msixTableWrite offset data => Sys2Proof.Machine.execMsixTableWrite offset data s
  | .managementWriteOther offset data => Sys2Proof.Machine.execManagementWriteOther offset data s
  | .partitionRequest req => Sys2Proof.Machine.execPartitionRequest req s
  | .routeTableLoad entries => Sys2Proof.Machine.execRouteTableLoad entries s
  | .fabricRequest src pa op => Sys2Proof.Machine.execFabricRequest src pa op s
  | .linkCrcRetry port => Sys2Proof.Machine.execLinkCrcRetry port s
  | .linkFail port => Sys2Proof.Machine.execLinkFail port s
  | .cxlLinkFail port => Sys2Proof.Machine.execCxlLinkFail port s
  | .uncorrectedError e => Sys2Proof.Machine.execUncorrectedError e s
  | .correctedError e => Sys2Proof.Machine.execCorrectedError e s
  | .scrubRead e found => Sys2Proof.Machine.execScrubRead e found s
  | .checkedMismatch hc mem => Sys2Proof.Machine.execCheckedMismatch hc mem s
  | .markhorPairMismatch die pair => Sys2Proof.Machine.execMarkhorPairMismatch die pair s
  | .wearUpdate die poh eolh => Sys2Proof.Machine.execWearUpdate die poh eolh s
  | .powerCapChange cap => Sys2Proof.Machine.execPowerCapChange cap s
  | .measurementReport => Sys2Proof.Machine.execMeasurementReport s
  | .reset image => Sys2Proof.Machine.execReset image s
  | .combineQueuePerform core => Sys2Proof.Machine.execCombineQueuePerform core s
  | .runtimeResumeRequest hc halt => Sys2Proof.Machine.execRuntimeResumeRequest hc halt s

end Sys2Proof.Machine
end

