-- ==== Sys2Proof/Machine/Turns.lean ====
section
/-! DEFINITION. Whose turn the next step is (log 1): the turns that the environment has put on the agenda first, in
order; then every turn that the state itself enables, round robin. A turn that turns out to have nothing to do leaves the
state as it is. -/

namespace Sys2Proof.Machine

/-- Whether issuing what stands at the PC traps or blocks although a result is late: the trap or the engine wait then decides
(R83, R366). -/
def stopsAtOnce (s : State) (id : Nat) (h : HerdCtx) : Bool :=
  match (fetchNext s id h).hc? id with
  | some g => g.hstate == .frozen || g.hstate == .blocked
  | none => false

/-- What a RUNNING herd-context does before it can issue its next bundle, when anything. -/
def hcEvent (s : State) (id : Nat) : Option Event :=
  let s := landAll s id
  match s.hc? id with
  | none => none
  | some h =>
    if h.stop = some .forced then some (.forcedStop id)
    else if 0 < h.feTries then some (if h.feBudget.toNat ≤ h.feTries then .feBudget id else .feRetryAttempt id)
    else if h.lacksOverlay s then some (.overlayLoad id)
    else if h.stop.isSome && atDrainPoint s id h then some (.drainPointStop id)
    else if h.members.any fun m => (oldestLate s id h m).isSome then
      if stopsAtOnce s id h then none else some (.lateResultLand id)
    else none

/-- The events that a herd-context's own state enables. -/
def hcTurns (x : Nat × HerdCtx) : List Turn :=
  let (id, h) := x
  let late : List Turn := if h.members.any (·.late h.vcc) then [.own (.lateResultLand id)] else []
  let base : List Turn := match h.hstate with
    | .running => [.hc id]
    | .ready => .own (.contextSelect h.leadCore) :: late
    | .blocked => .own (.engineWaitEnd id) :: late
    | .frozen => [.own (.handleRetranslate id), .own (.regenFault id)]
    | .parked => [.own (.regenFault id)]
    | .saved => if h.saving then [.own (.contextSaveDone id)] else [.own (.contextRestore id)]
    | .retiring => [.own (.herdRetire id)]
    | .done => []
  let stops : List Turn := match h.stop with
    | some .forced => [.own (.forcedStop id)]
    | some (.preempt _) => [.own (.preemptStopTimeout id)]
    | none => []
  let streams : List Turn := h.members.zipIdx.flatMap fun (m, i) =>
    (List.range 16).flatMap fun q =>
      (if (m.strm q).out.isEmpty then [] else [.own (.streamOutputWrite id i q)]) ++
      (match (m.strm q).recd with
       | none => []
       | some r => if r.dirOut || r.fem != 0 || h.hstate == .saved then [] else [.own (.streamReadAhead id i q)])
  base ++ stops ++ streams

/-- The events that a core's queues enable. -/
def coreTurns (x : Nat × Core) : List Turn :=
  let (k, c) := x
  (if c.loadQ.isEmpty then [] else [.own (.matrixQueuePerform k true)]) ++
  (if c.arrayQ.isEmpty then [] else [.own (.matrixQueuePerform k false)]) ++
  (if c.fnQ.isEmpty then [] else [.own (.functionQueuePerform k)]) ++
  (if c.combQ.isEmpty then [] else [.own (.combineQueuePerform k)]) ++
  (if c.jobQ.isEmpty then [] else [.own (.jobQueuePerform k)])

/-- The repairs that firmware still has to make on a core, once no context occupies it (R426). -/
def repairTurns (s : State) (x : Nat × Core) : List Turn :=
  let (k, c) := x
  if (coreUsers s k).isEmpty then c.toRepair.map fun w => .act (.poolRepair k w) else []

/-- The events that a die's trap queue and combine unit enable. -/
def dieTurns (x : Die × Nat) : List Turn :=
  let (d, i) := x
  (if d.trapQ.isEmpty then [] else [.own (.trapRecordTake i)]) ++
  d.comb.tokens.flatMap fun (k, t) =>
    if t.complete then [.own (.tokenRelease i k)]
    else if recTimeout t.fields ≠ 0 then [.own (.combineTimeout i k)] else []

/-- The events that a partition's nodes, queues, invalidations and request slots enable. -/
def partTurns (x : Nat × Part) : List Turn :=
  let (k, p) := x
  let nodes : List Turn := p.nodes.flatMap fun (n, nd) =>
    if nd.state == .free then []
    else [.own (.nodeFire k n)] ++ (if nd.inst.isSome then [.own (.nodeCommit k n)] else []) ++
      (if nd.kind = 2 then [.own (.copyNodeRun k n)] else if nd.kind = 3 then [.own (.counterNodeRun k n)]
       else if nd.kind = 4 then [.own (.conditionalNodeRun k n)] else [])
  nodes ++ (if p.queues.all (·.isEmpty) then [] else [.own (.nodePlace k)]) ++
  (if p.nodes.any (fun (_, n) => (n.inst.map (·.waitStage)).getD false) then [.own (.stagingExhausted k)] else []) ++
  (if p.invals.isEmpty then [] else [.own (.invalidateComplete k)]) ++
  (if p.reqOrder.isEmpty then [] else
    [.own (.loadRequest k), .own (.unloadRequest k), .own (.restoreRequest k)]) ++
  (if p.reqOrder.isEmpty && p.stopWait.isNone then [] else [.own (.stopRequest k)]) ++
  [.own (.wakeServe k)]

/-- Every turn that the state enables. -/
def candidates (s : State) : List Turn :=
  s.hctxs.flatMap hcTurns ++ s.cores.flatMap coreTurns ++ s.cores.flatMap (repairTurns s) ++
  s.copyQ.flatMap (fun (e, l) => if l.isEmpty then [] else [.own (.copyQueuePerform e)]) ++
  s.slices.flatMap (fun (k, x) => x.rounds.flatMap fun r =>
    if r.waiting.isEmpty then [] else [.own (.cpyredAdmit k r.part r.group)]) ++
  s.dies.zipIdx.flatMap dieTurns ++ s.timers.map (fun (v, _) => .own (.ringTimerExpiry v)) ++ s.parts.flatMap partTurns

/-- The next turn, and the state without it on its agenda. -/
def nextTurn (s : State) : Option Turn × State :=
  match s.agenda with
  | t :: r => (some t, settleDeep { s with agenda := r, clk := s.clk + 1 })
  | [] =>
    let l := candidates s
    (l[s.rr % max l.length 1]?, settleDeep { s with rr := s.rr + 1, clk := s.clk + 1 })

/-- What a herd-context with the turn does: an event, an instruction that it fetched, or a trap of its fetch. -/
inductive HcPlan where
  | idle
  | event (e : Event)
  | issue (i : Instr)
  | noFetch
  | undecoded (w : BitVec 64) (f : DecodeFailure)
  deriving DecidableEq, Repr

/-- The words at a herd-context's PC, decoded. -/
def fetchPlan (s : State) (h : HerdCtx) : HcPlan :=
  match fetchWords s h with
  | some (w :: r) =>
    match decodeWords (w :: r) with
    | .ok i => .issue i
    | .error e => .undecoded w e
  | _ => .noFetch

/-- The plan of a herd-context's turn. -/
def hcPlan (s : State) (id : Nat) : HcPlan :=
  match s.hc? id with
  | none => .idle
  | some h =>
    if h.hstate != .running then .idle
    else match hcEvent s id with
      | some i => .event i
      | none => fetchPlan s h

end Sys2Proof.Machine
end

