-- ==== Sys2Proof/Machine/Step.lean ====
section
/-! DEFINITION. One step of the device: whoever has the turn moves (log 1). -/

namespace Sys2Proof.Machine

/-- An event of the device's own has the meaning of the instruction of the same name. -/
def runEvent (e : Event) (s : State) : Host.Outcome State Fault Refusal :=
  match e with
  | .lateResultLand hc => execLateResultLand hc s
  | .overlayLoad hc => execOverlayLoad hc s
  | .engineWaitEnd hc => execEngineWaitEnd hc s
  | .contextSelect lead => execContextSelect lead s
  | .feRetryAttempt hc => execFeRetryAttempt hc s
  | .feBudget hc => execFeBudget hc s
  | .streamReadAhead hc mem q => execStreamReadAhead hc mem q s
  | .streamOutputWrite hc mem q => execStreamOutputWrite hc mem q s
  | .matrixQueuePerform core load => execMatrixQueuePerform core load s
  | .functionQueuePerform core => execFunctionQueuePerform core s
  | .copyQueuePerform engine => execCopyQueuePerform engine s
  | .cpyredAdmit slice part group => execCpyredAdmit slice part group s
  | .jobQueuePerform core => execJobQueuePerform core s
  | .combineQueuePerform core => execCombineQueuePerform core s
  | .tokenRelease die index => execTokenRelease die index s
  | .combineTimeout die index => execCombineTimeout die index s
  | .ringTimerExpiry vector => execRingTimerExpiry vector s
  | .drainPointStop hc => execDrainPointStop hc s
  | .forcedStop hc => execForcedStop hc s
  | .preemptStopTimeout hc => execPreemptStopTimeout hc s
  | .contextSaveDone hc => execContextSaveDone hc s
  | .contextRestore hc => execContextRestore hc s
  | .herdRetire hc => execHerdRetire hc s
  | .nodeCommit part node => execNodeCommit part node s
  | .stagingExhausted part => execStagingExhausted part s
  | .nodeFire part node => execNodeFire part node s
  | .nodePlace part => execNodePlace part s
  | .copyNodeRun part node => execCopyNodeRun part node s
  | .counterNodeRun part node => execCounterNodeRun part node s
  | .conditionalNodeRun part node => execConditionalNodeRun part node s
  | .regenFault hc => execRegenFault hc s
  | .trapRecordTake die => execTrapRecordTake die s
  | .wakeServe part => execWakeServe part s
  | .handleRetranslate hc => execHandleRetranslate hc s
  | .invalidateComplete part => execInvalidateComplete part s
  | .loadRequest part => execLoadRequest part s
  | .unloadRequest part => execUnloadRequest part s
  | .stopRequest part => execStopRequest part s
  | .restoreRequest part => execRestoreRequest part s

/-- The step of a herd-context that has the turn. -/
def hcStep (s : State) (id : Nat) : Host.Outcome State Fault Refusal :=
  match hcPlan s id with
  | .idle => .next s
  | .event e => runEvent e s
  | .issue i => exec i { s with cur := some id }
  | .noFetch => .next (fetchFault s id)
  | .undecoded w f => .next (issueUndecoded s id w f)

/-- One step. -/
def step (s : State) : Host.Outcome State Fault Refusal :=
  match nextTurn s with
  | (none, s) => .next s
  | (some (.own e), s) => runEvent e s
  | (some (.act a), s) => .next (runAct a s)
  | (some (.ev i), s) => exec i s
  | (some (.hc id), s) => hcStep s id

/-- The state with an instruction's words placed as the code of a herd-context that has the next turn (log 2). -/
def State.withFetchWord (s : State) (nbits w : Nat) : State := placeWords s (wordsOfNat maxWords (w % 2 ^ nbits))

end Sys2Proof.Machine
end

