-- ==== Sys2Proof/Safety.lean ====
section
/-! DEFINITION. The terms that the claims use: the invariant that memory keeps its form, when a herd-context can issue a
bundle at once, and what the commit of a bundle leaves. -/

namespace Sys2Proof.Machine

/-- Memory keeps its canonical form. -/
def State.memOk (s : State) : Prop := Memory.wf s.mem = true

/-! ### When a bundle issues at once -/

/-- A result that a snapshot keeps in one of its 16 wide entries (R84). -/
def Pending.wide (p : Pending) : Bool :=
  match p.res with | .v _ _ _ _ => true | .k _ _ => true | .h _ _ => true | _ => false

/-- The snapshot of a member has room for two more results of any width (R84). -/
def Member.hasRoom (m : Member) : Bool :=
  decide (m.inflight.length ≤ 46) && decide ((m.inflight.filter Pending.wide).length ≤ 14)

/-- In state `u`, in which everything due has landed, herd-context `id`, whose content is `h`, is RUNNING and can issue
bundle `b` without any wait or trap that does not come from what the bundle's operations themselves do: no RB slot is
pending, the encoding checks of R70 pass, the bundle is no drain point, no result is late, no register it names waits for a
queued command, no WAITE stands before it, the snapshot has room, and everything pushed before has been written. -/
def issues (u : State) (id : Nat) (h : HerdCtx) (b : Bundle) : Bool :=
  decide (u.hc? id = some h) && decide (h.hstate = .running) && h.rb.isNone && (encodingFault u h b (h.sys u)).isNone &&
  !b.drains u id h && !h.members.any (·.late h.vcc) && !pausedOnQueue u id h b && decide (h.waiteNext = 0) &&
  decide (h.leadOf < h.members.length) && h.members.all Member.hasRoom && !h.pushed

/-- Herd-context `id` has the turn in `s`, and can issue `b` at once after everything due has landed. -/
def Ready (s : State) (id : Nat) (h : HerdCtx) (b : Bundle) : Prop :=
  s.cur = some id ∧ issues (landAll s id) id h b = true

/-! ### What a bundle leaves -/

/-- What slot `sl` of member `k`, whose content is `m`, reads: all of it from the state before the bundle (R59). -/
def ctxFor (u : State) (id : Nat) (h : HerdCtx) (scope : BitVec 3) (sl k : Nat) (m : Member) : Ctx :=
  { id := id, mi := k, h := h, m := m, seed := h.seedAt 0, v := h.vcc, slot := sl, scope := scope, who := h.who u,
    sys := h.sys u, pub := h.publishedBody u }

/-- The state with other herd-contexts. -/
def State.withHctxs (s : State) (x : AMap HerdCtx) : State := { s with hctxs := x }

/-- The state with an update of every member whose guard `g` reads true. -/
def onMembers (u : State) (id : Nat) (h : HerdCtx) (sl : Nat) (g : BitVec 4) (upd : Ctx → Member → Member) : State :=
  u.modHc id fun x =>
    { x with members := h.members.zipIdx.map fun (m, k) =>
        let c := ctxFor u id h 0 sl k m
        if c.guard g then upd c m else m }

/-- The commit of a bundle of `n` bytes at PC that has no control operation (R58, R159): the cycle count rises by 1, PC goes
to the next bundle or back to a loop's start, and poison that the bundle consumed enters CIR. `t` is the state after the
bundle's slots. -/
def committed (t : State) (id : Nat) (h : HerdCtx) (n : Nat) : State :=
  let r := stepLoops h.pc (h.pc + BitVec.ofNat 64 n) h.loops h.idx
  (touchOverlay t h).modHc id fun x =>
    { x with members := x.members.map Member.recordConsume, vcc := x.vcc + 1, pc := r.2.2, loops := r.1, idx := r.2.1,
             links := h.links, feTries := 0, waiteNext := 0, wait := none, lastFe := none, regenWoken := none,
             fresh := x.fresh + 16 }

/-- A commit that goes to a given address with given loops, indexes and links, the lead having consumed a tag. -/
def committedTo (t : State) (id : Nat) (h : HerdCtx) (pc : Word) (loops : List Loop) (idx : List Word) (links : List Link)
    (tag : Tag) : State :=
  (consumeTag (touchOverlay t h) id h.leadOf tag).modHc id fun x =>
    { x with members := x.members.map Member.recordConsume, vcc := x.vcc + 1, pc := pc, loops := loops, idx := idx,
             links := links, feTries := 0, waiteNext := 0, wait := none, lastFe := none, regenWoken := none,
             fresh := x.fresh + 16 }

/-- A member with one more result in flight: issued at cycle `v` with the bound of its latency class, and landed by then
unless that class is below the operation's minimum `least` (Table 3.3, R60). -/
def Member.withResult (m : Member) (v : Nat) (r : Res) (fl : FFlags) (lat : BitVec 4) (least : Nat) : Member :=
  { m with inflight := m.inflight ++ [⟨r, fl, v, v + latBound lat, decide (least ≤ latBound lat)⟩] }

/-- A member with one more result in flight. -/
def Member.withPending (m : Member) (p : Pending) : Member := { m with inflight := m.inflight ++ [p] }

/-- A member that has consumed a poison tag in this bundle (R136). -/
def Member.consumed (m : Member) (t : Tag) : Member := if t = none then m else { m with consume := mergeTag m.consume t }

/-! ### What one operation does on the members of a herd -/

/-- The slot number of an instruction that is one S, V or M operation. -/
def soloSlot (i : Instr) : Nat := match i.kind with | .scalar => 1 | .vector => 2 | _ => 3

/-- The instruction is one S, V or M operation. -/
def isSolo (i : Instr) : Prop := i.kind = .scalar ∨ i.kind = .vector ∨ i.kind = .memory

/-- One effect on the members numbered below `n` whose guard reads true, in the order of HERDPOS. -/
def acrossMembers (u : State) (id : Nat) (h : HerdCtx) (i : Instr) (eff : Ctx → State → State) (n : Nat) : State :=
  (List.range n).foldl (fun s k => match h.members[k]? with
    | some m =>
      let c := ctxFor u id h 0 (soloSlot i) k m
      if c.guard i.guard then eff c s else s
    | none => s) u

/-- The same with an effect that may stop the bundle. -/
def foldActive (u : State) (id : Nat) (h : HerdCtx) (i : Instr) (fx : Ctx → State → Except Stop State) :
    Except Stop State :=
  foldStop (fun s k => match h.members[k]? with
    | some m =>
      let c := ctxFor u id h 0 (soloSlot i) k m
      if c.guard i.guard then fx c s else .ok s
    | none => .ok s) (List.range h.members.length) u

/-- Whenever a herd-context can issue `i`, `i` answers the next state in which every member whose guard reads true has been
updated by `upd`, and the bundle has been committed: nothing else changes. -/
def Acts (i : Instr) (upd : State → Ctx → Member → Member) : Prop :=
  ∀ s id h, Ready s id h (bundleOf i) →
    exec i s = .next (committed (onMembers (landAll s id) id h (soloSlot i) i.guard (upd (landAll s id))) id h 16)

/-- Whenever a herd-context can issue `i`, `i` answers the next state in which its bundle has been committed and nothing else
has changed. -/
def Advances (i : Instr) : Prop :=
  ∀ s id h, Ready s id h (bundleOf i) → exec i s = .next (committed (landAll s id) id h 16)

/-- The same for a bundle of 8 bytes, its header alone. -/
def Advances8 (i : Instr) : Prop :=
  ∀ s id h, Ready s id h (bundleOf i) → exec i s = .next (committed (landAll s id) id h 8)

/-- As `Acts`, when the operation's checks `pre` pass on every member whose guard reads true. -/
def ActsWhen (i : Instr) (pre : State → Ctx → Prop) (upd : State → Ctx → Member → Member) : Prop :=
  ∀ s id h, Ready s id h (bundleOf i) →
    (∀ k m, h.members[k]? = some m → (ctxFor (landAll s id) id h 0 (soloSlot i) k m).guard i.guard = true →
      pre (landAll s id) (ctxFor (landAll s id) id h 0 (soloSlot i) k m)) →
    exec i s = .next (committed (onMembers (landAll s id) id h (soloSlot i) i.guard (upd (landAll s id))) id h 16)

/-- Whenever a herd-context can issue `i` and, on every member whose guard reads true, the checks `pre` pass both in the state
before the bundle and in the state that the members before it leave, `i` answers the next state in which the members have
had the effect `eff` in the order of HERDPOS, and the bundle has been committed. -/
def Does (i : Instr) (pre : Ctx → State → Prop) (eff : Ctx → State → State) : Prop :=
  ∀ s id h, Ready s id h (bundleOf i) →
    (∀ k m, h.members[k]? = some m → (ctxFor (landAll s id) id h 0 (soloSlot i) k m).guard i.guard = true →
      pre (ctxFor (landAll s id) id h 0 (soloSlot i) k m) (landAll s id) ∧
      pre (ctxFor (landAll s id) id h 0 (soloSlot i) k m) (acrossMembers (landAll s id) id h i eff k)) →
    exec i s = .next (committed (acrossMembers (landAll s id) id h i eff h.members.length) id h 16)

/-- Whenever a herd-context can issue `i`, the effect `fx` stops on no member tried alone, and the members' effects in order
give a state whose results in flight fit the snapshots, `i` answers that state with the bundle committed. -/
def Runs (i : Instr) (fx : Ctx → State → Except Stop State) : Prop :=
  ∀ s id h t, Ready s id h (bundleOf i) →
    (∀ k m, h.members[k]? = some m → (ctxFor (landAll s id) id h 0 (soloSlot i) k m).guard i.guard = true →
      ∃ t, fx (ctxFor (landAll s id) id h 0 (soloSlot i) k m) (landAll s id) = .ok t) →
    foldActive (landAll s id) id h i fx = .ok t → (t.hc? id).map fitsSnapshot = some true →
    exec i s = .next (committed t id h 16)

/-! ### Routine slots -/

/-- The slot RA of `i`, issued in `u`, binds to `r`, takes its fields and acts on some member, and no loop of level 6 or 7
is active (R26, R34, R161). -/
def Bound (i : Instr) (u : State) (id : Nat) (h : HerdCtx) (r : RCall) : Prop :=
  (∀ l ∈ h.loops, l.level < 6) ∧ routineCall u id h (bundleOf i) 4 i = some r ∧ r.acts = true ∧ r.e.accepts r.f = true

/-- The slot binds natively to the routine's own number, and neither an engine wait nor an element that a copy still has to
write stands before it (R32, R107, Table 4.3). -/
def Unhindered (i : Instr) (u : State) (r : RCall) : Prop :=
  r.e.native = true ∧ r.e.std = i.rn ∧ r.wait u = none ∧ r.popsPaused (actsOn u r.id) = false

/-- The state in which a routine of slot RA acts: its bundle has been committed, and everything due has landed (R34, R60). -/
def acting (u : State) (id : Nat) (h : HerdCtx) : State := settle (committed u id h 16) id

/-- One effect on the members whose guard read true, in the order of HERDPOS, each with the operands of state `w`. -/
def acrossCalls (r : RCall) (w : State) (eff : Ctx → State → State) : State :=
  (List.range r.caps.length).foldl (fun s k =>
    if (r.cap k).guard then (match r.ctx w k with | some c => eff c s | none => s) else s) w

/-- The same, of the members numbered below `n`, each with the operands of the state that the members before it leave: the
commands of a routine that feeds a copy engine or a queue of Table 13.1 (R258). -/
def acrossInTurn (r : RCall) (w : State) (eff : Ctx → State → State) (n : Nat) : State :=
  (List.range n).foldl (fun s k =>
    if (r.cap k).guard then (match r.ctx s k with | some c => eff c s | none => s) else s) w

/-- What follows a native routine: the window is undefined on the members that it acted on (R38). -/
def afterNative (t : State) (r : RCall) : State := spoilAfter t r

/-- Whenever a herd-context can issue `i`, its number binds natively to its own routine, nothing hinders it, no stop is
requested (R45), and the checks `pre` pass on every member that it acts on, `i` answers the state in which its bundle has been committed, the members have
had the effect `eff`, and the window is undefined. `eff` is given the state in which the routine acts. -/
def Natively (i : Instr) (pre : RCall → Ctx → State → Prop) (eff : RCall → State → Ctx → State → State) : Prop :=
  ∀ s id h r, Ready s id h (bundleOf i) → Bound i (landAll s id) id h r → Unhindered i (landAll s id) r →
    h.stop = none →
    (∀ k c, (r.cap k).guard = true → r.ctx (acting (landAll s id) id h) k = some c →
      pre r c (acting (landAll s id) id h)) →
    exec i s = .next (afterNative (acrossCalls r (acting (landAll s id) id h) (eff r (acting (landAll s id) id h))) r)

/-- As `Natively`, of a routine whose members' commands enter a queue: the checks of each member are made, and its effect
takes place, in the state that the members before it leave (R258, R279). -/
def NativelyInTurn (i : Instr) (pre : RCall → Ctx → State → Prop) (eff : RCall → Ctx → State → State) : Prop :=
  ∀ s id h r, Ready s id h (bundleOf i) → Bound i (landAll s id) id h r → Unhindered i (landAll s id) r →
    h.stop = none →
    (∀ k c, (r.cap k).guard = true → r.ctx (acrossInTurn r (acting (landAll s id) id h) (eff r) k) k = some c →
      pre r c (acrossInTurn r (acting (landAll s id) id h) (eff r) k)) →
    exec i s = .next (afterNative (acrossInTurn r (acting (landAll s id) id h) (eff r) r.caps.length) r)

/-- A native routine whose check at point 0 fails on the only member of a herd: the bundle is committed, the state of the
body's first bundle is materialised, and the herd-context freezes there with the trap `t` (R393, R394). The link store has
room for the call. -/
def NativelyTraps (i : Instr) (bad : RCall → Ctx → State → Prop) (t : RCall → Ctx → State → Trap) : Prop :=
  ∀ s id h r c, Ready s id h (bundleOf i) → Bound i (landAll s id) id h r → Unhindered i (landAll s id) r →
    h.links.length < linkMax → h.members.length = 1 → (r.cap 0).guard = true →
    r.ctx (acting (landAll s id) id h) 0 = some c → bad r c (acting (landAll s id) id h) →
    ∃ x y g, exec i s = .next x ∧ x = takeTrap y id (nativeTrap r (t r c (acting (landAll s id) id h)) 0) 1 ∧
      y.hc? id = some g ∧ g.pc = (match (landAll s id).image? h with | some im => im.bodyAt r.e 0 | none => h.pc) ∧
      g.links.length = h.links.length + 1 ∧ g.frames.length = h.frames.length + 1

end Sys2Proof.Machine
end

