-- ==== Sys2Proof/Certificates/Slice0/Obligations.lean ====
section
/-! DEFINITION. The statements for the provers: what instructions and the machine do, from the numbered rules of the spec.
The terms `Ready`, `Acts`, `ActsWhen`, `Does`, `Runs` and `committed` are those of Sys2Proof/Safety.lean. -/

section
open Sys2Proof Sys2Proof.Machine

/-! ### The S slot (R135..R151) -/

namespace Sys2Proof.Claims

/-- A two-source S operation: the result of `op` with the merged tags of SA and SB is on its way to SD. -/
def srResult (f : SRForm) (least : Nat) (op : Word → Word → Word) : State → Ctx → Member → Member := fun _ c m =>
  let a := c.s 1 f.sa.toNat
  let b := c.s 2 f.sb.toNat
  m.withResult c.v (.s f.sd.toNat (op a.val b.val) (mergeTag a.tag b.tag)) 0 f.lat least

/-- A one-source S operation: the result of `op` with SA's tag. -/
def s1Result (f : S1Form) (op : Word → Word) : State → Ctx → Member → Member := fun _ c m =>
  let a := c.s 1 f.sa.toNat
  m.withResult c.v (.s f.sd.toNat (op a.val) a.tag) 0 f.lat 1

/-- An S operation with an immediate. -/
def siResult (f : SIForm) (op : Word → Word) : State → Ctx → Member → Member := fun _ c m =>
  let a := c.s 1 f.sa.toNat
  m.withResult c.v (.s f.sd.toNat (op a.val) a.tag) 0 f.lat 1

/-- Bits 5..0 of a register as a shift count. -/
def shiftCount (b : Word) : Nat := b.toNat % 64

/-- sext(IMM32, 32) as an integer. -/
def simm (x : BitVec 32) : Int := x.toInt

/-- The number of leading bits, trailing bits, and one bits. -/
def leadingZeros (a : Word) : Nat := ((List.range 64).reverse.takeWhile fun i => !a.getLsbD i).length
def trailingZeros (a : Word) : Nat := ((List.range 64).takeWhile fun i => !a.getLsbD i).length
def oneBits (a : Word) : Nat := ((List.range 64).filter fun i => a.getLsbD i).length

/-- The conditions of Table 3.6 by code. -/
def condition (n : Nat) (a b : Word) : Bool :=
  match n with
  | 0 => decide (a = b) | 1 => decide (a ≠ b)
  | 2 => decide (a.toInt < b.toInt) | 3 => decide (a.toInt ≤ b.toInt)
  | 4 => decide (a.toNat < b.toNat) | 5 => decide (a.toNat ≤ b.toNat)
  | 6 => decide (b.toInt < a.toInt) | 7 => decide (b.toInt ≤ a.toInt)
  | 8 => decide (b.toNat < a.toNat) | _ => decide (b.toNat ≤ a.toNat)

/-- Two predicate results, a truth value and its complement. -/
def pairResult (c : Ctx) (m : Member) (pt pf : BitVec 4) (b : Bool) (lat : BitVec 4) : Member :=
  (m.withResult c.v (.p pt.toNat b) 0 lat 1).withResult c.v (.p pf.toNat (!b)) 0 lat 1

/-- A two-source S operation of predicates. -/
def plogResult (f : PlogForm) (op : Bool → Bool → Bool) : State → Ctx → Member → Member := fun _ c m =>
  pairResult c m f.pt f.pf (op (c.p 1 f.pa.toNat) (c.p 2 f.pb.toNat)) f.lat

/-- A bundle that waits as a drain point does has nothing left to wait for: no queued command, no busy tile, and no result in
flight (R56). -/
def Drained (s : State) (id : Nat) (h : HerdCtx) (b : Bundle) : Prop :=
  let u := landAll s id
  s.cur = some id ∧ u.hc? id = some h ∧ h.hstate = .running ∧ h.rb = none ∧ encodingFault u h b (h.sys u) = none ∧
    drainBusy u id h = false ∧ (∀ m ∈ h.members, m.inflight = []) ∧ pausedOnQueue u id h b = false ∧ h.waiteNext = 0 ∧
    h.leadOf < h.members.length

/-- A two-source scalar floating-point operation on the low 32 bits. -/
def sfResult (f : SRForm) (op : W32 → W32 → W32 × FFlags) : State → Ctx → Member → Member := fun _ c m =>
  let a := c.s 1 f.sa.toNat
  let b := c.s 2 f.sb.toNat
  let r := op (a.val.setWidth 32) (b.val.setWidth 32)
  m.withResult c.v (.s f.sd.toNat (BitVec.ofNat 64 r.1.toNat) (mergeTag a.tag b.tag)) r.2 f.lat 4

end Sys2Proof.Claims

section
open Sys2Proof.Claims

/-- R139: what every ALU operation writes, with n = bits 5..0 of SB, the tags merged, and a least latency of 1. -/
def Sys2Proof.Claims.AluOperationsWriteTheirResult : Prop := ∀ f : SRForm,
  Acts (.add f) (srResult f 1 fun a b => BitVec.ofNat 64 (a.toNat + b.toNat)) ∧
  Acts (.sub f) (srResult f 1 fun a b => BitVec.ofInt 64 ((a.toNat : Int) - b.toNat)) ∧
  Acts (.and f) (srResult f 1 fun a b => a &&& b) ∧
  Acts (.or f) (srResult f 1 fun a b => a ||| b) ∧
  Acts (.xor f) (srResult f 1 fun a b => a ^^^ b) ∧
  Acts (.shl f) (srResult f 1 fun a b => BitVec.ofNat 64 (a.toNat * 2 ^ shiftCount b)) ∧
  Acts (.shr f) (srResult f 1 fun a b => BitVec.ofNat 64 (a.toNat / 2 ^ shiftCount b)) ∧
  Acts (.sra f) (srResult f 1 fun a b => BitVec.ofInt 64 (a.toInt / 2 ^ shiftCount b)) ∧
  Acts (.min f) (srResult f 1 fun a b => BitVec.ofInt 64 (min a.toInt b.toInt)) ∧
  Acts (.max f) (srResult f 1 fun a b => BitVec.ofInt 64 (max a.toInt b.toInt)) ∧
  Acts (.minu f) (srResult f 1 fun a b => BitVec.ofNat 64 (min a.toNat b.toNat)) ∧
  Acts (.maxu f) (srResult f 1 fun a b => BitVec.ofNat 64 (max a.toNat b.toNat)) ∧
  Acts (.rotl f) (srResult f 1 fun a b =>
    BitVec.ofNat 64 (a.toNat * 2 ^ shiftCount b + a.toNat / 2 ^ (64 - shiftCount b)))

/-- R140 and R141: the operations with an immediate, MOVI and MOVHI. -/
def Sys2Proof.Claims.ImmediateOperationsWriteTheirResult : Prop :=
  (∀ f : SIForm,
    Acts (.addi f) (siResult f fun a => BitVec.ofInt 64 (a.toNat + simm f.imm)) ∧
    Acts (.andi f) (siResult f fun a => a &&& BitVec.ofInt 64 (simm f.imm)) ∧
    Acts (.ori f) (siResult f fun a => a ||| BitVec.ofInt 64 (simm f.imm)) ∧
    Acts (.xori f) (siResult f fun a => a ^^^ BitVec.ofInt 64 (simm f.imm)) ∧
    Acts (.shli f) (siResult f fun a => BitVec.ofNat 64 (a.toNat * 2 ^ f.imm.toNat)) ∧
    Acts (.shri f) (siResult f fun a => BitVec.ofNat 64 (a.toNat / 2 ^ f.imm.toNat)) ∧
    Acts (.srai f) (siResult f fun a => BitVec.ofInt 64 (a.toInt / 2 ^ f.imm.toNat)) ∧
    Acts (.movhi f) (siResult f fun a => BitVec.ofNat 64 (a.toNat % 2 ^ 32 + f.imm.toNat * 2 ^ 32))) ∧
  ∀ f : MoviForm, Acts (.movi f) fun _ c m =>
    m.withResult c.v (.s f.sd.toNat (BitVec.ofInt 64 (simm f.imm)) none) 0 f.lat 1

/-- R139, R140 and R141: the ALU operations, the operations with an immediate, MOVI and MOVHI. -/
def Obligations.ScalarIntegerOperationsWriteTheirResult : Prop :=
  Sys2Proof.Claims.AluOperationsWriteTheirResult ∧ Sys2Proof.Claims.ImmediateOperationsWriteTheirResult

/-- R142: the low and the high halves of the product. -/
def Obligations.MultiplyWritesTheProductsHalf : Prop := ∀ f : SRForm,
  Acts (.mul f) (srResult f 3 fun a b => BitVec.ofNat 64 (a.toNat * b.toNat)) ∧
  Acts (.mulhs f) (srResult f 3 fun a b => BitVec.ofInt 64 (a.toInt * b.toInt / 2 ^ 64)) ∧
  Acts (.mulhu f) (srResult f 3 fun a b => BitVec.ofNat 64 (a.toNat * b.toNat / 2 ^ 64))

/-- R143 with Table 7.2: quotient and remainder, truncating, on every operand; a division never stops. The second row of
the table is written out: the model's quotient of −2^63 by −1 is −2^63 and its remainder 0. -/
def Obligations.DivisionTruncatesAndNeverStops : Prop :=
  (∀ f : SRForm,
    Acts (.divs f) (srResult f 24 fun a b => if b = 0 then BitVec.allOnes 64 else BitVec.ofInt 64 (a.toInt.tdiv b.toInt)) ∧
    Acts (.divu f) (srResult f 24 fun a b => if b = 0 then BitVec.allOnes 64 else BitVec.ofNat 64 (a.toNat / b.toNat)) ∧
    Acts (.rems f) (srResult f 24 fun a b => if b = 0 then a else BitVec.ofInt 64 (a.toInt.tmod b.toInt)) ∧
    Acts (.remu f) (srResult f 24 fun a b => if b = 0 then a else BitVec.ofNat 64 (a.toNat % b.toNat))) ∧
  (∀ a b : Word, b ≠ 0 → divSigned a b * b + remSigned a b = a ∧ divUnsigned a b * b + remUnsigned a b = a) ∧
  divSigned (BitVec.intMin 64) (BitVec.allOnes 64) = BitVec.intMin 64 ∧
  remSigned (BitVec.intMin 64) (BitVec.allOnes 64) = 0 ∧
  divUnsigned (BitVec.intMin 64) (BitVec.allOnes 64) = 0 ∧
  remUnsigned (BitVec.intMin 64) (BitVec.allOnes 64) = BitVec.intMin 64

/-- R144: counts of bits and extensions; R145: SEL. -/
def Obligations.BitCountsExtensionsAndSelect : Prop :=
  (∀ f : S1Form,
    Acts (.clz f) (s1Result f fun a => BitVec.ofNat 64 (leadingZeros a)) ∧
    Acts (.ctz f) (s1Result f fun a => BitVec.ofNat 64 (trailingZeros a)) ∧
    Acts (.popc f) (s1Result f fun a => BitVec.ofNat 64 (oneBits a)) ∧
    Acts (.sextb f) (s1Result f fun a => BitVec.ofInt 64 (signedOf 8 a.toNat)) ∧
    Acts (.sexth f) (s1Result f fun a => BitVec.ofInt 64 (signedOf 16 a.toNat)) ∧
    Acts (.sextw f) (s1Result f fun a => BitVec.ofInt 64 (signedOf 32 a.toNat)) ∧
    Acts (.zextb f) (s1Result f fun a => BitVec.ofNat 64 (a.toNat % 2 ^ 8)) ∧
    Acts (.zexth f) (s1Result f fun a => BitVec.ofNat 64 (a.toNat % 2 ^ 16)) ∧
    Acts (.zextw f) (s1Result f fun a => BitVec.ofNat 64 (a.toNat % 2 ^ 32))) ∧
  ∀ f : SelForm, Acts (.sel f) fun _ c m =>
    let r := if c.p 3 f.p.toNat then c.s 1 f.sa.toNat else c.s 2 f.sb.toNat
    m.withResult c.v (.s f.sd.toNat r.val r.tag) 0 f.lat 1

/-- R146, R147 and R148 with the consumption of R136: compares, predicate logic, and moves between predicates and scalars. -/
def Obligations.ComparesAndPredicatesWriteBothResults : Prop :=
  (∀ f : CmpForm, Acts (.cmp f) fun _ c m =>
    let a := c.s 1 f.sa.toNat
    let b := c.s 2 f.sb.toNat
    pairResult c (m.consumed (mergeTag a.tag b.tag)) f.pt f.pf (condition f.cond.toNat a.val b.val) f.lat) ∧
  (∀ f : CmpiForm, Acts (.cmpi f) fun _ c m =>
    let a := c.s 1 f.sa.toNat
    pairResult c (m.consumed a.tag) f.pt f.pf (condition f.cond.toNat a.val (BitVec.ofInt 64 (simm f.imm))) f.lat) ∧
  (∀ f : PlogForm,
    Acts (.pand f) (plogResult f fun a b => a && b) ∧
    Acts (.por f) (plogResult f fun a b => a || b) ∧
    Acts (.pxor f) (plogResult f fun a b => xor a b) ∧
    Acts (.pandn f) (plogResult f fun a b => a && !b)) ∧
  (∀ f : MovpForm, Acts (.movp f) fun _ c m =>
    m.withResult c.v (.s f.sx.toNat (if c.p 1 f.pa.toNat then 1 else 0) none) 0 f.lat 1) ∧
  ∀ f : MovpsForm, Acts (.movps f) fun _ c m =>
    let a := c.s 1 f.sx.toNat
    pairResult c (m.consumed a.tag) f.pt f.pf (a.val.getLsbD 0) f.lat

/-- R151: scalar floating point on the low 32 bits, rounding to nearest even, with the flags on their way to FPSTAT. -/
def Obligations.ScalarFloatOperationsRoundToNearest : Prop :=
  (∀ f : SRForm,
    Acts (.sfadd f) (sfResult f (faddOp .rne)) ∧
    Acts (.sfsub f) (sfResult f (fsubOp .rne)) ∧
    Acts (.sfmul f) (sfResult f (fmulOp .rne)) ∧
    Acts (.sfmin f) (sfResult f fun a b => (fminOp a b, 0)) ∧
    Acts (.sfmax f) (sfResult f fun a b => (fmaxOp a b, 0))) ∧
  (∀ f : S1Form, Acts (.sfcvtif f) fun _ c m =>
    let a := c.s 1 f.sa.toNat
    let r := icvtfOp .rne (a.val.setWidth 32)
    m.withResult c.v (.s f.sd.toNat (BitVec.ofNat 64 r.1.toNat) a.tag) r.2 f.lat 4) ∧
  ∀ f : S1Form, Acts (.sfcvtfi f) fun u c m =>
    let a := c.s 1 f.sa.toNat
    let r := fcvtiOp (c.switched u (·.bt002)) .rz (a.val.setWidth 32)
    m.withResult c.v (.s f.sd.toNat (BitVec.ofInt 64 r.1.toInt) a.tag) r.2 f.lat 4

/-- R149: MOVSR gives the value that the register holds, with no tag; MOVRS consumes SA's tag and writes the fields that
Table 7.3 lets it write: FPSTAT bits 3..0, the fields of CIR, the lead's FEBUDGET and DEFPROFILE, and inside a body the ARG
register. MOVRS to a read-only register writes nothing. QPOS takes its position when the result lands. R150: once nothing is in
flight or queued, CHKE gives each member its own CIR. -/
def Obligations.SpecialRegisterMoves : Prop :=
  (∀ f : MovsrForm, Acts (.movsr f) fun u c m =>
    m.withResult c.v (.s f.sd.toNat (readSpecial u c f.num.toNat) none) 0 f.lat 1) ∧
  (∀ (f : MovrsForm) (n : BitVec 32), Acts (.movrs f n) fun _ c m => m.consumed (c.s 1 f.sa.toNat).tag) ∧
  (∀ f : MovrsForm, Acts (.fpstatWrite f) fun _ c m =>
    let a := c.s 1 f.sa.toNat
    { m.consumed a.tag with fpstat := BitVec.ofNat 4 a.val.toNat }) ∧
  (∀ f : MovrsForm, Acts (.cirWrite f) fun _ c m =>
    let a := c.s 1 f.sa.toNat
    { m.consumed a.tag with cir := a.val &&& 0xFFFFFFFF0FFF002F }) ∧
  (∀ (f : MovrsForm) (n : BitVec 2), Acts (.argWrite f n) fun _ c m =>
    let a := c.s 1 f.sa.toNat
    if c.h.frames = [] then m.consumed a.tag
    else { m.consumed a.tag with args := match m.args with
        | [] => []
        | x :: r => (match n with
          | 0 => { x with x := a.val } | 1 => { x with y := a.val } | 2 => { x with z := a.val }
          | _ => { x with w := a.val }) :: r }) ∧
  (∀ (f : MovrsForm) (n : BitVec 4), Acts (.qposWrite f n) fun _ c m =>
    let a := c.s 1 f.sa.toNat
    match (c.m.strm n.toNat).recd with
    | none => m.consumed a.tag
    | some r =>
      { m.consumed a.tag with inflight := m.inflight ++
        [⟨.qpos n.toNat (if r.dirOut && r.bfp.isSome then a.val.toNat / 32 * 32 else a.val.toNat), 0, c.v, c.v + 1, true⟩] }) ∧
  (∀ f : MovrsForm, Does (.febudgetWrite f) (fun _ _ => True) fun c s =>
    let a := c.s 1 f.sa.toNat
    if c.mi = 0 then (consumeTag s c.id c.mi a.tag).modHc c.id fun h => { h with feBudget := BitVec.ofNat 12 a.val.toNat }
    else s) ∧
  (∀ f : MovrsForm, Does (.defprofileWrite f)
    (fun c _ => c.mi = 0 → 1 ≤ (c.s 1 f.sa.toNat).val.toNat ∧ (c.s 1 f.sa.toNat).val.toNat ≤ 3) fun c s =>
    let a := c.s 1 f.sa.toNat
    if c.mi = 0 then (consumeTag s c.id c.mi a.tag).modHc c.id fun h => { h with defProfile := BitVec.ofNat 6 a.val.toNat }
    else s) ∧
  ∀ (f : ChkeForm) s id h, Drained s id h (bundleOf (.chke f)) →
    exec (.chke f) s = .next (committed (onMembers (landAll s id) id h 1 f.g fun c m =>
      m.withResult c.v (.s f.sd.toNat c.m.cir none) 0 f.lat 1) id h 16)

end
/-! ### The V slot (R162..R181) -/

namespace Sys2Proof.Claims

/-- The vector register that source field `fld` names, read at issue. -/
def vreg (c : Ctx) (fld : Nat) (x : BitVec 10) : VReg := c.m.readV c.seed (c.ix fld) ((c.h.vreg x.toNat).getD 0)

/-- Lane `i` of a vector register. -/
def vlane (v : VReg) (i : Nat) : W32 := v.lanes.getD i 0

/-- The vector register that VD names. -/
def vdest (c : Ctx) (f : VForm) : Nat := (c.h.vreg f.vd.toNat).getD 0

/-- A lane operation on registers: every active lane of VD gets `op` of the lanes of VA, VB and VC, of which the first `na`
are sources; their tags merge, and the flags of the active lanes join. -/
def laneResult (f : VForm) (least na : Nat) (op : W32 → W32 → W32 → W32 × FFlags) : State → Ctx → Member → Member :=
  fun _ c m =>
  let act := c.k 4 f.k.toNat
  let a := vreg c 1 f.va
  let b := vreg c 2 f.vb
  let d := vreg c 3 f.vc
  let r (i : Nat) := op (vlane a i) (vlane b i) (vlane d i)
  m.withResult c.v
    (.v (vdest c f) act ((List.range 256).map fun i => if act.getLsbD i then (r i).1 else 0)
      (mergeTag a.tag (mergeTag (if 2 ≤ na then b.tag else none) (if 3 ≤ na then d.tag else none))))
    ((List.range 256).foldl (fun x i => if act.getLsbD i then x ||| (r i).2 else x) 0) f.lat least

/-- A lane operation of one source, of two, of three, and one on integers, which raises no flag. -/
def lanes1 (f : VForm) (least : Nat) (op : W32 → W32 × FFlags) := laneResult f least 1 fun a _ _ => op a
def lanes2 (f : VForm) (least : Nat) (op : W32 → W32 → W32 × FFlags) := laneResult f least 2 fun a b _ => op a b
def lanes3 (f : VForm) (least : Nat) (op : W32 → W32 → W32 → W32 × FFlags) := laneResult f least 3 op
def intLanes (f : VForm) (op : W32 → W32 → W32) := laneResult f 2 2 fun a b _ => (op a b, 0)

/-- A compare on registers: kt and kf partition the active lanes; poisoned sources are consumed. -/
def compareResult (f : VForm) (least : Nat) (cond : W32 → W32 → Bool × FFlags) : State → Ctx → Member → Member :=
  fun _ c m =>
  let act := c.k 4 f.k.toNat
  let a := vreg c 1 f.va
  let b := vreg c 2 f.vb
  let r (i : Nat) := cond (vlane a i) (vlane b i)
  (((m.consumed (mergeTag a.tag b.tag)).withResult c.v
      (.k (f.vd.toNat % 16) (maskOf fun i => act.getLsbD i && (r i).1))
      ((List.range 256).foldl (fun x i => if act.getLsbD i then x ||| (r i).2 else x) 0) f.lat least)).withResult c.v
    (.k (f.vd.toNat / 16 % 16) (maskOf fun i => act.getLsbD i && !(r i).1)) 0 f.lat least

/-- The conditions of Table 3.6 on 32-bit lanes. -/
def laneCondition (n : Nat) (a b : W32) : Bool :=
  match n with
  | 0 => decide (a = b) | 1 => decide (a ≠ b)
  | 2 => decide (a.toInt < b.toInt) | 3 => decide (a.toInt ≤ b.toInt)
  | 4 => decide (a.toNat < b.toNat) | 5 => decide (a.toNat ≤ b.toNat)
  | 6 => decide (b.toInt < a.toInt) | 7 => decide (b.toInt ≤ a.toInt)
  | 8 => decide (b.toNat < a.toNat) | _ => decide (b.toNat ≤ a.toNat)

/-- A reduction of a register: the result goes to all 256 lanes of VD, active or not, with VA's tag. -/
def reduceResult (f : VForm) (op : State → Ctx → Mask → List W32 → W32 × FFlags) : State → Ctx → Member → Member :=
  fun u c m =>
  let a := vreg c 1 f.va
  let r := op u c (c.k 4 f.k.toNat) a.lanes
  m.withResult c.v (.v (vdest c f) (BitVec.allOnes 256) (List.replicate 256 r.1) a.tag) r.2 f.lat 8

/-- The active lanes folded by `op` from its identity. -/
def foldLanes (ident : W32) (op : W32 → W32 → W32) (act : Mask) (l : List W32) : W32 :=
  l.zipIdx.foldl (fun x (w, i) => if act.getLsbD i then op x w else x) ident

/-- A mask operation of KLOG. -/
def maskResult (f : VForm) (op : Mask → Mask → Mask) : State → Ctx → Member → Member := fun _ c m =>
  m.withResult c.v (.k (f.vd.toNat % 16) (op (c.k 1 (f.va.toNat % 16)) (c.k 2 (f.vb.toNat % 16)))) 0 f.lat 2

/-- The lane operation of a V slot with any source and destination fields: the streams named are popped in the order VA, VB,
VC; the active lanes get `op`; VD is written, or its stream pushed. -/
def anyLanes (f : VForm) (least na : Nat) (op : State → Ctx → W32 → W32 → W32 → W32 × FFlags) :
    Ctx → State → Except Stop State := fun c s =>
  match vInputs s c f with
  | .error e => .error e
  | .ok (t, x) =>
    let r (i : Nat) := op s c (x.a.lanes.getD i 0) (x.b.lanes.getD i 0) (x.c.lanes.getD i 0)
    vResult t c f x.act ((List.range 256).map fun i => if x.act.getLsbD i then (r i).1 else 0)
      ((List.range 256).foldl (fun y i => if x.act.getLsbD i then y ||| (r i).2 else y) 0 ||| x.a.raised x.act |||
        (if 2 ≤ na then x.b.raised x.act else 0) ||| (if 3 ≤ na then x.c.raised x.act else 0))
      (mergeTag x.a.tag (mergeTag (if 2 ≤ na then x.b.tag else none) (if 3 ≤ na then x.c.tag else none))) least false

end Sys2Proof.Claims

section
open Sys2Proof.Claims

/-- R170: the six arithmetic operations round their exact value once in the direction of RM. -/
def Sys2Proof.Claims.FloatArithmeticOnLanes : Prop := ∀ f : VForm, f.sf = 0 →
  Acts (.fadd f) (lanes2 f 4 (faddOp (RMode.ofBits f.rm))) ∧
  Acts (.fsub f) (lanes2 f 4 (fsubOp (RMode.ofBits f.rm))) ∧
  Acts (.fmul f) (lanes2 f 4 (fmulOp (RMode.ofBits f.rm))) ∧
  Acts (.ffma f) (lanes3 f 4 (ffmaOp (RMode.ofBits f.rm))) ∧
  Acts (.ffms f) (lanes3 f 4 (ffmsOp (RMode.ofBits f.rm))) ∧
  Acts (.fnma f) (lanes3 f 4 (fnmaOp (RMode.ofBits f.rm)))

/-- R171, R173 and R174: minimum and maximum, sign operations and conversions of lanes. -/
def Sys2Proof.Claims.FloatMovesAndConversionsOnLanes : Prop := ∀ f : VForm, f.sf = 0 →
  Acts (.fmin f) (lanes2 f 4 fun a b => (fminOp a b, 0)) ∧
  Acts (.fmax f) (lanes2 f 4 fun a b => (fmaxOp a b, 0)) ∧
  Acts (.fabs f) (lanes1 f 4 fun a => (BitVec.ofNat 32 (a.toNat % 2 ^ 31), 0)) ∧
  Acts (.fneg f) (lanes1 f 4 fun a => (BitVec.ofNat 32 (a.toNat + 2 ^ 31), 0)) ∧
  Acts (.fcvti f) (fun u c m => lanes1 f 4 (fcvtiOp (c.switched u (·.bt002)) (RMode.ofBits f.rm)) u c m) ∧
  Acts (.icvtf f) (lanes1 f 4 fun a => toFP32 (RMode.ofBits f.rm) (finOfInt a.toInt 0 false)) ∧
  Acts (.bfpk f) (lanes2 f 4 fun a b =>
    let x := toBF16 (RMode.ofBits f.rm) (fp32 a)
    let y := toBF16 (RMode.ofBits f.rm) (fp32 b)
    (BitVec.ofNat 32 (x.1.toNat + y.1.toNat * 2 ^ 16), x.2 ||| y.2)) ∧
  Acts (.bfup f) (lanes1 f 4 fun a =>
    (bf16ToW32 (BitVec.ofNat 16 (if f.vc.getLsbD 0 then a.toNat / 2 ^ 16 else a.toNat)), 0))

/-- R170, R171, R173 and R174: arithmetic, minimum and maximum, sign operations and conversions of lanes. -/
def Obligations.FloatOperationsOnLanes : Prop :=
  Sys2Proof.Claims.FloatArithmeticOnLanes ∧ Sys2Proof.Claims.FloatMovesAndConversionsOnLanes

/-- R175 with Table 8.3: the integer operations on lanes. -/
def Obligations.IntegerOperationsOnLanes : Prop := ∀ f : VForm, f.sf = 0 →
  Acts (.iadd f) (intLanes f fun a b => BitVec.ofNat 32 (a.toNat + b.toNat)) ∧
  Acts (.isub f) (intLanes f fun a b => BitVec.ofInt 32 ((a.toNat : Int) - b.toNat)) ∧
  Acts (.imul f) (intLanes f fun a b => BitVec.ofNat 32 (a.toNat * b.toNat)) ∧
  Acts (.imulh f) (intLanes f fun a b => BitVec.ofInt 32 (a.toInt * b.toInt / 2 ^ 32)) ∧
  Acts (.iand f) (intLanes f fun a b => a &&& b) ∧
  Acts (.ior f) (intLanes f fun a b => a ||| b) ∧
  Acts (.ixor f) (intLanes f fun a b => a ^^^ b) ∧
  Acts (.ishl f) (intLanes f fun a b => BitVec.ofNat 32 (a.toNat * 2 ^ (b.toNat % 32))) ∧
  Acts (.ishr f) (intLanes f fun a b => BitVec.ofNat 32 (a.toNat / 2 ^ (b.toNat % 32))) ∧
  Acts (.isra f) (intLanes f fun a b => BitVec.ofInt 32 (a.toInt / 2 ^ (b.toNat % 32))) ∧
  Acts (.imin f) (intLanes f fun a b => BitVec.ofInt 32 (min a.toInt b.toInt)) ∧
  Acts (.imax f) (intLanes f fun a b => BitVec.ofInt 32 (max a.toInt b.toInt)) ∧
  Acts (.iminu f) (intLanes f fun a b => BitVec.ofNat 32 (min a.toNat b.toNat)) ∧
  Acts (.imaxu f) (intLanes f fun a b => BitVec.ofNat 32 (max a.toNat b.toNat))

/-- R172 with the consumption of R163: FCMP and ICMP write two masks that partition the active lanes. -/
def Sys2Proof.Claims.VectorComparesPartitionTheActiveLanes : Prop :=
  (∀ f : VForm, f.sf = 0 →
    Acts (.fcmp f) (compareResult f 4 (fcmpOp (f.vc.toNat % 16))) ∧
    Acts (.icmp f) (compareResult f 2 fun a b => (laneCondition (f.vc.toNat % 16) a b, 0))) ∧
  ∀ (act : Mask) (p : Nat → Bool) (i : Nat), i < 256 →
    let kt := maskOf fun i => act.getLsbD i && p i
    let kf := maskOf fun i => act.getLsbD i && !p i
    (kt.getLsbD i = (act.getLsbD i && p i)) ∧ (kf.getLsbD i = (act.getLsbD i && !p i))

/-- R176, R177 and R178: selection, broadcast, permutation, lane numbers, and moves of one lane. -/
def Sys2Proof.Claims.SelectionAndDataMovementOnLanes : Prop := ∀ f : VForm, f.sf = 0 →
  Acts (.vsel f) (fun _ c m =>
    let act := c.k 4 f.k.toNat
    let km := c.k 7 (f.vc.toNat % 16)
    let a := vreg c 1 f.va
    let b := vreg c 2 f.vb
    m.withResult c.v (.v (vdest c f) act ((List.range 256).map fun i =>
      if act.getLsbD i then (if km.getLsbD i then vlane a i else vlane b i) else 0) (mergeTag a.tag b.tag)) 0 f.lat 2) ∧
  Acts (.vmov f) (lanes1 f 2 fun a => (a, 0)) ∧
  Acts (.vbcst f) (fun _ c m =>
    let x := c.s 6 (f.vb.toNat % 64)
    m.withResult c.v (.v (vdest c f) (c.k 4 f.k.toNat) (List.replicate 256 (BitVec.ofNat 32 x.val.toNat)) x.tag) 0 f.lat 2) ∧
  Acts (.vperm f) (fun _ c m =>
    let act := c.k 4 f.k.toNat
    let a := vreg c 1 f.va
    let b := vreg c 2 f.vb
    m.withResult c.v (.v (vdest c f) act ((List.range 256).map fun i =>
      if act.getLsbD i then vlane a ((vlane b i).toNat % 256) else 0) (mergeTag a.tag b.tag)) 0 f.lat 3) ∧
  Acts (.vrot f) (fun _ c m =>
    let act := c.k 4 f.k.toNat
    let a := vreg c 1 f.va
    m.withResult c.v (.v (vdest c f) act ((List.range 256).map fun i =>
      if act.getLsbD i then vlane a ((i + f.vc.toNat % 256) % 256) else 0) a.tag) 0 f.lat 3) ∧
  Acts (.viota f) (fun _ c m =>
    m.withResult c.v (.v (vdest c f) (c.k 4 f.k.toNat) ((List.range 256).map fun i => BitVec.ofNat 32 i) none) 0 f.lat 3) ∧
  Acts (.vext f) (fun _ c m =>
    let a := vreg c 1 f.va
    m.withResult c.v (.s (f.vd.toNat % 64) (BitVec.ofInt 64 (vlane a (f.vc.toNat % 256)).toInt) a.tag) 0 f.lat 3) ∧
  Acts (.vins f) (fun _ c m =>
    let x := c.s 6 (f.vb.toNat % 64)
    let j := f.vc.toNat % 256
    m.withResult c.v (.v (vdest c f) (if (c.k 4 f.k.toNat).getLsbD j then BitVec.twoPow 256 j else 0)
      (List.replicate 256 (BitVec.ofNat 32 x.val.toNat)) x.tag) 0 f.lat 3)

/-- R172 and R176..R178: compares, selection and data movement on lanes. -/
def Obligations.ComparesSelectionAndDataMovementOnLanes : Prop :=
  Sys2Proof.Claims.VectorComparesPartitionTheActiveLanes ∧ Sys2Proof.Claims.SelectionAndDataMovementOnLanes

/-- R179 and R180: reductions, mask operations, KPOPC and KFROMV. -/
def Obligations.ReductionsAndMaskOperations : Prop :=
  (∀ f : VForm, f.sf = 0 →
    Acts (.frsum f) (reduceResult f fun _ _ act l => frsumOp act l) ∧
    Acts (.frmax f) (reduceResult f fun u c act l => (frmaxOp (c.switched u (·.bt007)) act l, 0)) ∧
    Acts (.frmin f) (reduceResult f fun u c act l => (frminOp (c.switched u (·.bt007)) act l, 0)) ∧
    Acts (.irsum f) (reduceResult f fun _ _ act l => (foldLanes 0 (fun a b => BitVec.ofNat 32 (a.toNat + b.toNat)) act l, 0)) ∧
    Acts (.irmax f) (reduceResult f fun _ _ act l =>
      (foldLanes (BitVec.intMin 32) (fun a b => BitVec.ofInt 32 (max a.toInt b.toInt)) act l, 0)) ∧
    Acts (.irmin f) (reduceResult f fun _ _ act l =>
      (foldLanes (BitVec.intMax 32) (fun a b => BitVec.ofInt 32 (min a.toInt b.toInt)) act l, 0)) ∧
    Acts (.kfromv f) (fun _ c m =>
      let a := vreg c 1 f.va
      (m.consumed a.tag).withResult c.v
        (.k (f.vd.toNat % 16) (maskOf fun i => (c.k 4 f.k.toNat).getLsbD i && decide (vlane a i ≠ 0))) 0 f.lat 2)) ∧
  ∀ f : VForm,
    Acts (.kand f) (maskResult f fun a b => a &&& b) ∧
    Acts (.kor f) (maskResult f fun a b => a ||| b) ∧
    Acts (.kxor f) (maskResult f fun a b => a ^^^ b) ∧
    Acts (.kandn f) (maskResult f fun a b => a &&& ~~~b) ∧
    Acts (.kpopc f) fun _ c m =>
      m.withResult c.v (.s (f.vd.toNat % 64) (BitVec.ofNat 64
        ((List.range 256).filter fun i => (c.k 1 (f.va.toNat % 16)).getLsbD i).length) none) 0 f.lat 2

/-- R165, R166 and R168: with any source and destination fields, each stream named is popped, the active lanes get their
results, and the destination register is written or its stream pushed; a form that no pop and no push stops completes. -/
def Sys2Proof.Claims.StreamFormsPopAndPush : Prop := ∀ f : VForm,
  Runs (.fadd f) (anyLanes f 4 2 fun _ _ a b _ => faddOp (RMode.ofBits f.rm) a b) ∧
  Runs (.fsub f) (anyLanes f 4 2 fun _ _ a b _ => fsubOp (RMode.ofBits f.rm) a b) ∧
  Runs (.fmul f) (anyLanes f 4 2 fun _ _ a b _ => fmulOp (RMode.ofBits f.rm) a b) ∧
  Runs (.ffma f) (anyLanes f 4 3 fun _ _ a b d => ffmaOp (RMode.ofBits f.rm) a b d) ∧
  Runs (.ffms f) (anyLanes f 4 3 fun _ _ a b d => ffmsOp (RMode.ofBits f.rm) a b d) ∧
  Runs (.fnma f) (anyLanes f 4 3 fun _ _ a b d => fnmaOp (RMode.ofBits f.rm) a b d) ∧
  Runs (.fmin f) (anyLanes f 4 2 fun _ _ a b _ => (fminOp a b, 0)) ∧
  Runs (.fmax f) (anyLanes f 4 2 fun _ _ a b _ => (fmaxOp a b, 0)) ∧
  Runs (.fabs f) (anyLanes f 4 1 fun _ _ a _ _ => (BitVec.ofNat 32 (a.toNat % 2 ^ 31), 0)) ∧
  Runs (.fneg f) (anyLanes f 4 1 fun _ _ a _ _ => (BitVec.ofNat 32 (a.toNat + 2 ^ 31), 0)) ∧
  Runs (.icvtf f) (anyLanes f 4 1 fun _ _ a _ _ => icvtfOp (RMode.ofBits f.rm) a) ∧
  Runs (.bfpk f) (anyLanes f 4 2 fun _ _ a b _ => bfpkOp (RMode.ofBits f.rm) a b) ∧
  Runs (.bfup f) (anyLanes f 4 1 fun _ _ a _ _ => (bfupOp (f.vc.getLsbD 0) a, 0)) ∧
  Runs (.iadd f) (anyLanes f 2 2 fun _ _ a b _ => (a + b, 0)) ∧
  Runs (.isub f) (anyLanes f 2 2 fun _ _ a b _ => (a - b, 0)) ∧
  Runs (.imul f) (anyLanes f 2 2 fun _ _ a b _ => (a * b, 0)) ∧
  Runs (.iand f) (anyLanes f 2 2 fun _ _ a b _ => (a &&& b, 0)) ∧
  Runs (.ior f) (anyLanes f 2 2 fun _ _ a b _ => (a ||| b, 0)) ∧
  Runs (.ixor f) (anyLanes f 2 2 fun _ _ a b _ => (a ^^^ b, 0)) ∧
  Runs (.imulh f) (anyLanes f 2 2 fun _ _ a b _ => ((a.signExtend 64 * b.signExtend 64).extractLsb' 32 32, 0)) ∧
  Runs (.ishl f) (anyLanes f 2 2 fun _ _ a b _ => (a <<< (b.toNat % 32), 0)) ∧
  Runs (.ishr f) (anyLanes f 2 2 fun _ _ a b _ => (a >>> (b.toNat % 32), 0)) ∧
  Runs (.isra f) (anyLanes f 2 2 fun _ _ a b _ => (a.sshiftRight (b.toNat % 32), 0)) ∧
  Runs (.imin f) (anyLanes f 2 2 fun _ _ a b _ => (if a.toInt < b.toInt then a else b, 0)) ∧
  Runs (.imax f) (anyLanes f 2 2 fun _ _ a b _ => (if a.toInt < b.toInt then b else a, 0)) ∧
  Runs (.iminu f) (anyLanes f 2 2 fun _ _ a b _ => (if a.toNat < b.toNat then a else b, 0)) ∧
  Runs (.imaxu f) (anyLanes f 2 2 fun _ _ a b _ => (if a.toNat < b.toNat then b else a, 0)) ∧
  Runs (.fcvti f) (anyLanes f 4 1 fun s c a _ _ => fcvtiOp (c.switched s (·.bt002)) (RMode.ofBits f.rm) a) ∧
  Runs (.vmov f) (anyLanes f 2 1 fun _ _ a _ _ => (a, 0))

/-- R58 and R366: every operation of an S, V or M slot, in every form, completes and commits when it stops on no member. -/
def Sys2Proof.Claims.EverySlotOperationCompletesUnlessItStops : Prop :=
  ∀ i : Instr, i.kind = .scalar ∨ i.kind = .vector ∨ i.kind = .memory → Runs i (slotFx i)

/-- R58, R165, R166, R168 and R366: stream forms pop and push, and every form completes when it stops on no member. -/
def Obligations.SlotFormsCompleteUnlessTheyStop : Prop :=
  Sys2Proof.Claims.StreamFormsPopAndPush ∧ Sys2Proof.Claims.EverySlotOperationCompletesUnlessItStops

end
/-! ### The M slot (R182..R209) -/

namespace Sys2Proof.Claims

/-- The handle that a handle field reads. -/
def handle (c : Ctx) (h : BitVec 4) : Handle := c.m.readH c.seed (c.ix 8) ((c.h.hreg h.toNat).getD h.toNat)

/-- The physical address at an offset of a handle's page. -/
def physical (c : Ctx) (h : BitVec 4) (off : Int) : Nat := (handle c h).base.toNat + off.toNat

/-- SO read as a signed 64-bit value plus the immediate. -/
def offset (c : Ctx) (so : BitVec 6) (imm : Int) : Int := (c.s 5 so.toNat).val.toInt + imm

/-- An access of `n` bytes passes every check of R190. -/
def passes (c : Ctx) (h : BitVec 4) (a : Ask) (off : Int) (n al : Nat) : Prop := handleFault (handle c h) a off n al = none

/-- The member once a poisoned SO has been consumed. -/
def soUsed (c : Ctx) (so : BitVec 6) (m : Member) : Member := m.consumed (c.s 5 so.toNat).tag

/-- A result that memory still has to bring: it is late until it lands (R60, R81). -/
def fromMemory (c : Ctx) (r : Res) (lat : BitVec 4) (m : Member) : Member :=
  m.withPending ⟨r, 0, c.v, c.v + latBound lat, false⟩

/-- What a read of `n` bytes brings: the bytes that the accessor sees, or free ones where the request is lost (R340, R342). -/
def broughtBytes (s : State) (w : Who) (pa n : Nat) : List Byte :=
  if sendable s w.part pa then viewBytes s w pa n else (List.range n).map fun i => Config.lostByte s.clk (pa + i)

/-- A scalar load, once a poisoned SO has been consumed: SD will receive the `n` bytes at the address, extended, with the
merged tag of the words read; an error that the read meets is recorded, and staged lines that it touches are back in L2. -/
def loadOf (f : SMemForm) (n : Nat) (ext : Nat → Word) (c : Ctx) (s : State) : State :=
  let pa := physical c f.h (offset c f.so f.imm.toInt)
  let s := consumeTag s c.id c.mi (c.s 5 f.so.toNat).tag
  (arrive s c.who pa n).modMember c.id c.mi
    (fromMemory c (.s f.sd.toNat (ext (natOf (broughtBytes s c.who pa n))) (rangeTag s c.who pa n)) f.lat)

/-- A scalar load of `n` bytes runs whenever the handle's checks pass. -/
def Loads (i : Instr) (f : SMemForm) (n : Nat) (ext : Nat → Word) : Prop :=
  Does i (fun c _ => passes c f.h .load (offset c f.so f.imm.toInt) n 1) (loadOf f n ext)

/-- A write of data through a handle: staged or immediate as R191 says. Poison written to host memory is consumed (R421). -/
def storeTo (c : Ctx) (pa : Nat) (d : List Byte) (t : Tag) (s : State) : Option State :=
  (writeBytes s c.who pa d t).map fun s => if isHostPa pa then consumeTag s c.id c.mi t else s

/-- A scalar store of the low `n` bytes of SD, once a poisoned SO has been consumed. -/
def storeOf (f : SMemForm) (n : Nat) (c : Ctx) (s : State) : Option State :=
  let d := c.s 13 f.sd.toNat
  storeTo c (physical c f.h (offset c f.so f.imm.toInt)) (bytesOf n d.val.toNat) d.tag
    (consumeTag s c.id c.mi (c.s 5 f.so.toNat).tag)

/-- A scalar store: the handle's checks pass, and a staged write finds its records of the staging area. -/
def Stores (i : Instr) (f : SMemForm) (n : Nat) : Prop :=
  Does i (fun c s => passes c f.h .store (offset c f.so f.imm.toInt) n 1 ∧ (storeOf f n c s).isSome = true)
    fun c s => (storeOf f n c s).getD s

/-- The offset of lane `i` of a vector access with elements of `u` bytes; SS = s0 gives the stride 1. -/
def laneOffset (c : Ctx) (f : VMemForm) (u i : Nat) : Int :=
  (c.s 5 f.so.toNat).val.toInt + (u : Int) * (f.imm.toInt +
    (if f.ss = 0 then 1 else (c.s 7 f.ss.toNat).val.toInt) * (i : Int))

/-- Every active lane passes the checks of R190. -/
def lanesPass (c : Ctx) (f : VMemForm) (a : Ask) (u : Nat) : Prop :=
  ∀ i, i < 256 → (c.k 4 f.k.toNat).getLsbD i = true → passes c f.h a (laneOffset c f u i) u u

/-- The state in which the element of lane `i` of a vector load is read: the active lanes below it have read theirs. -/
def lanesRead (c : Ctx) (f : VMemForm) (u : Nat) (s : State) (i : Nat) : State :=
  (List.range i).foldl (fun s k =>
    if (c.k 4 f.k.toNat).getLsbD k then arrive s c.who (physical c f.h (laneOffset c f u k)) u else s) s

/-- A vector load of elements of `u` bytes, once a poisoned SO has been consumed: VD will receive the active lanes' elements
with the merged tags of SO, of SS and of the words read. -/
def vloadOf (f : VMemForm) (u : Nat) (ext : Nat → W32) (c : Ctx) (s : State) : State :=
  let act := c.k 4 f.k.toNat
  let pa (i : Nat) := physical c f.h (laneOffset c f u i)
  let at' := lanesRead c f u (consumeTag s c.id c.mi (c.s 5 f.so.toNat).tag)
  (at' 256).modMember c.id c.mi (fromMemory c (.v ((c.h.vreg f.vd.toNat).getD 0) act
    ((List.range 256).map fun i => if act.getLsbD i then ext (natOf (broughtBytes (at' i) c.who (pa i) u)) else 0)
    (mergeTags ((c.s 5 f.so.toNat).tag :: (c.s 7 f.ss.toNat).tag :: (List.range 256).map fun i =>
      if act.getLsbD i then rangeTag (at' i) c.who (pa i) u else none))) f.lat)

/-- The stores of the active lanes from lane 0 up, once a poisoned SO has been consumed. -/
def vstoreOf (f : VMemForm) (u : Nat) (elem : W32 → Nat) (c : Ctx) (s : State) : Option State :=
  let d := c.m.readV c.seed (c.ix 13) ((c.h.vreg f.vd.toNat).getD 0)
  (List.range 256).foldl (fun s i => s.bind fun s =>
      if (c.k 4 f.k.toNat).getLsbD i then
        storeTo c (physical c f.h (laneOffset c f u i)) (bytesOf u (elem (d.lanes.getD i 0))) d.tag s
      else some s)
    (some (consumeTag s c.id c.mi (c.s 5 f.so.toNat).tag))

/-- An atomic (R203): the old word is on its way to SD with its tag; the new word, where there is one, has been written as an
immediate write with the merged tags of the old word and SV. One whose request is lost writes nothing (R340, R342); the old
word is read before, and an error that the read meets is recorded (R418). -/
def atomicOf (f : AtomForm) (new : Word → Word → Word → Option Word) (c : Ctx) (s : State) : State :=
  let pa := physical c f.h (offset c f.so f.imm.toInt)
  let s := beginImm (consumeTag s c.id c.mi (c.s 5 f.so.toNat).tag) c.who (.mem pa)
  let old := locWord s c.who (.mem pa)
  let s := arrive s c.who pa 8
  let v := c.s 2 f.sv.toNat
  let s := if unsent s c.who (.mem pa) then loseImm s c.who (.mem pa) else match new old.val v.val (c.s 3 f.sc.toNat).val with
    | some x =>
      let s := writeImm s c.who pa (bytesOf 8 x.toNat) (mergeTag old.tag v.tag)
      if isHostPa pa then consumeTag s c.id c.mi (mergeTag old.tag v.tag) else s
    | none => s
  s.modMember c.id c.mi (fromMemory c (.s f.sd.toNat old.val old.tag) f.lat)

/-- An atomic runs on every operand that passes the checks of R190 with alignment 8. -/
def AtomicOn (i : Instr) (f : AtomForm) (new : Word → Word → Word → Option Word) : Prop :=
  Does i (fun c _ => passes c f.h .atomic (offset c f.so f.imm.toInt) 8 8) (atomicOf f new)

/-- A scratchpad address SA + imm. -/
def spadAddr (c : Ctx) (sa : BitVec 6) (imm : Int) : Nat := ((c.s 5 sa.toNat).val + BitVec.ofInt 64 imm).toNat

/-- What a scratchpad load leaves once its access has been resolved to a place. -/
def spLoadAt (f : SpsForm) (n : Nat) (p : SpPlace) (c : Ctx) (s : State) : State :=
  s.modMember c.id c.mi (·.withResult c.v
    (.s f.sd.toNat (BitVec.ofNat 64 (placeRead s c.m.core p n)) (placeTag s p)) 0 f.lat
    (if isWindow (spadAddr c f.sa f.imm.toInt) then 20 else 6))

/-- A scratchpad load runs whenever its access resolves. -/
def SpLoads (i : Instr) (f : SpsForm) (form : SpForm) (n op : Nat) : Prop :=
  let at' (c : Ctx) (s : State) := spAccess s c form (spadAddr c f.sa f.imm.toInt) n n op 0 false
  Does i (fun c s => ∃ p, at' c s = .ok p) fun c s => match at' c s with | .ok p => spLoadAt f n p c s | .error _ => s

/-- A scratchpad store: the place resolved, a repair entry goes to the repair table, any other place is written. -/
def spStoreOf (f : SpsForm) (form : SpForm) (n op : Nat) (c : Ctx) (s : State) : Option State :=
  let d := c.s 13 f.sd.toNat
  match spAccess s c form (spadAddr c f.sa f.imm.toInt) n n op 0 true with
  | .ok (.repair e) => some (repairStore s c.m.core e d.val)
  | .ok p => (placeWrite s c.m.core c.h.slot p n d.val.toNat d.tag).toOption
  | .error _ => none

/-- A scratchpad store runs whenever its access resolves and its place takes the word. -/
def SpStores (i : Instr) (f : SpsForm) (form : SpForm) (n op : Nat) : Prop :=
  Does i (fun c s => (spStoreOf f form n op c s).isSome = true) fun c s => (spStoreOf f form n op c s).getD s

/-- Lane-private access (R101, R199): every active lane's row lies in the slice. -/
def rowsPass (f : GatherForm) (c : Ctx) (s : State) : Prop :=
  ∀ i, i < 256 → (c.k 4 f.k.toNat).getLsbD i = true → laneRow c f i < (s.core c.m.core).lpr

/-- A valid table pointer of a level that is not the last one (R184). -/
def goodTable (l : Nat) (e : Word) : Prop :=
  pteV e = true ∧ pteT e = true ∧ pteRsv e = false ∧ l < 3 ∧ (l = 0 → ptePa e % 131072 = 0)

/-- A valid leaf of L1, L2 or L3, aligned to its page (R184). -/
def goodLeaf (l : Nat) (e : Word) : Prop :=
  pteV e = true ∧ pteT e = false ∧ pteRsv e = false ∧ 0 < l ∧ l ≤ 3 ∧ ptePa e % 2 ^ levelShift l = 0

/-- A stage-2 walk's tables, from the root down to level `l`, each named by the entry before it; no entry has N (R183). -/
def stage2Path (s : State) (gpa root l : Nat) (tab : Nat → Nat) : Prop :=
  tab 0 = root ∧ ∀ k, k < l → let e := mem64 s (tab k + 8 * levelIndex k gpa)
    goodTable k e ∧ e.getLsbD 13 = false ∧ tab (k + 1) = ptePa e

/-- The leaf of a stage-2 walk: it names memory of its own TIER (R112, R184). -/
def leafOfStage2 (s : State) (gpa root : Nat) (x : Leaf) : Prop := ∃ tab,
  stage2Path s gpa root x.level tab ∧ x.entryPa = tab x.level + 8 * levelIndex x.level gpa ∧ x.entry = mem64 s x.entryPa ∧
  goodLeaf x.level x.entry ∧ x.entry.getLsbD 13 = false ∧ x.base = ptePa x.entry ∧
  rangeTier s x.base (2 ^ levelShift x.level) = some (pteTier x.entry) ∧ ¬(pteTier x.entry = 3 ∧ x.level = 1)

/-- A stage-1 walk's tables, every entry of which stage 2 finds (R184). -/
def stage1Path (s : State) (p : Part) (va root l : Nat) (tab : Nat → Nat) : Prop :=
  l ≤ 3 ∧ tab 0 = root ∧ ∀ k, k < l → ∃ pe, gpaPa s p (tab k + 8 * levelIndex k va) = .ok pe ∧
    goodTable k (mem64 s pe) ∧ tab (k + 1) = ptePa (mem64 s pe)

/-- The page of a stage-1 leaf `e` of level `l` and the stage-2 leaf `y` of its page: the smaller of the two (R184). -/
def jointPage (va l : Nat) (e : Word) (pe ea : Nat) (y : Leaf) : Page :=
  let lv := max l y.level
  let pa := y.base + (ptePa e + va % 2 ^ levelShift l) % 2 ^ levelShift y.level
  { base := pa - pa % 2 ^ levelShift lv, size := if lv = 1 then 2 else if lv = 2 then 1 else 0,
    r := e.getLsbD 2 && y.entry.getLsbD 2, w := e.getLsbD 3 && y.entry.getLsbD 3, x := e.getLsbD 4 && y.entry.getLsbD 4,
    fe := e.getLsbD 7 && y.entry.getLsbD 7, c := e.getLsbD 8 && y.entry.getLsbD 8, sys := e.getLsbD 5,
    tier := pteTier y.entry, entry1 := pe, entry2 := y.entryPa, level := l, e1 := e, ea1 := BitVec.ofNat 64 ea }

/-- Table 9.4: the rights that an intent needs. -/
def permits (pg : Page) (i : BitVec 2) : Prop :=
  pg.r = true ∧ (i ≠ 0 → pg.w = true) ∧ (i = 1 ∨ i = 2 → pg.c = false) ∧ (i = 3 → pg.c = true)

end Sys2Proof.Claims

section
open Sys2Proof.Claims

/-- R190: the checks of a handle access in order; an access has none to fail exactly when all pass. -/
def Obligations.HandleChecksFailInOrder : Prop :=
  ∀ (h : Handle) (a : Ask) (off : Int) (n al : Nat), 0 < al →
    (h.valid = false → handleFault h a off n al = some (h.fcause.getD .handleInvalid)) ∧
    (∀ k, h.valid = true → a.permitted h = some k → handleFault h a off n al = some k) ∧
    (h.valid = true → a.permitted h = none → (off < 0 ∨ 2 ^ sizeLog h.size < off + n) →
      handleFault h a off n al = some .offsetRange) ∧
    (h.valid = true → a.permitted h = none → 0 ≤ off → off + n ≤ 2 ^ sizeLog h.size → off % al ≠ 0 →
      handleFault h a off n al = some .misalign) ∧
    (handleFault h a off n al = none ↔
      h.valid = true ∧ a.permitted h = none ∧ 0 ≤ off ∧ off + n ≤ 2 ^ sizeLog h.size ∧ off % al = 0)

/-- R193 and R194: the scalar loads, whose result memory brings, with the tags of the words read and SO's poison consumed. -/
def Sys2Proof.Claims.ScalarLoadsReadLittleEndian : Prop := ∀ f : SMemForm,
  Loads (.ldB f) f 1 (fun v => BitVec.ofNat 64 v) ∧
  Loads (.ldH f) f 2 (fun v => BitVec.ofNat 64 v) ∧
  Loads (.ldW f) f 4 (fun v => BitVec.ofNat 64 v) ∧
  Loads (.ldD f) f 8 (fun v => BitVec.ofNat 64 v) ∧
  Loads (.ldSb f) f 1 (fun v => BitVec.ofInt 64 (signedOf 8 v)) ∧
  Loads (.ldSh f) f 2 (fun v => BitVec.ofInt 64 (signedOf 16 v)) ∧
  Loads (.ldSw f) f 4 (fun v => BitVec.ofInt 64 (signedOf 32 v))

/-- R193: the scalar stores write the low bytes of SD at the address. That the members' stores land in the order of HERDPOS
is no rule of the spec but the model's choice (assumption log 23). -/
def Sys2Proof.Claims.ScalarStoresWriteTheLowBytes : Prop := ∀ f : SMemForm,
  Stores (.stB f) f 1 ∧ Stores (.stH f) f 2 ∧ Stores (.stW f) f 4 ∧ Stores (.stD f) f 8

/-- R193 and R194: the scalar loads and stores. The order of the members, HERDPOS, is the model's choice (log 23). -/
def Obligations.ScalarLoadsAndStores : Prop :=
  Sys2Proof.Claims.ScalarLoadsReadLittleEndian ∧ Sys2Proof.Claims.ScalarStoresWriteTheLowBytes

/-- R191: an immediate write reaches memory at once: every agent that staged nothing reads the bytes written, and what the
writer had staged in the words that the write touches; every other byte reads as before. A write of a staged node outside
host memory changes no byte of memory, and the node's own accesses read it, over what it had staged before. The way to the
bytes is usable. -/
def Obligations.WritesReachExactlyTheirBytes : Prop :=
  ∀ (s t : State) (w : Who) (a : Nat) (d : List Byte) (tag : Tag), s.memOk →
    writeBytes s w a d tag = some t →
    (isStagedWrite w a = false → flowOk s w.part a = true → portFailed s a = false →
      ∀ (v : Who) (x : Nat), v.cells s = [] →
        viewByte t v x = if a ≤ x ∧ x < a + d.length then d.getD (x - a) 0
          else if a / 8 ≤ x / 8 ∧ x / 8 ≤ (a + d.length - 1) / 8 then viewByte s w x else viewByte s v x) ∧
    (isStagedWrite w a = true → (∃ n, w.node = some n ∧ (s.inst? w.part n).isSome = true) →
      t.mem = s.mem ∧ ∀ x, viewByte t w x = if a ≤ x ∧ x < a + d.length then d.getD (x - a) 0 else viewByte s w x)

/-- R195 with the tags of R163: the vector loads and stores over the active lanes; of lanes that meet, the highest-numbered
one's data holds. -/
def Obligations.VectorLoadsAndStoresOverActiveLanes : Prop := ∀ f : VMemForm,
  Does (.vldW f) (fun c _ => lanesPass c f .load 4) (vloadOf f 4 fun v => BitVec.ofNat 32 v) ∧
  Does (.vldH f) (fun c _ => lanesPass c f .load 2) (vloadOf f 2 fun v => BitVec.ofNat 32 (v * 2 ^ 16)) ∧
  Does (.vstW f) (fun c s => lanesPass c f .store 4 ∧ (vstoreOf f 4 (·.toNat) c s).isSome = true)
    (fun c s => (vstoreOf f 4 (·.toNat) c s).getD s) ∧
  Does (.vstH f) (fun c s => lanesPass c f .store 2 ∧ (vstoreOf f 2 (fun x => x.toNat / 2 ^ 16) c s).isSome = true)
    (fun c s => (vstoreOf f 2 (fun x => x.toNat / 2 ^ 16) c s).getD s)

/-- R186 and R188: TRANS never traps and fills its handle after 24 virtual cycles; HINV clears it from the next bundle on;
HRD reads a word of Table 9.3. -/
def Sys2Proof.Claims.HandleOperationsFillClearAndRead : Prop :=
  (∀ f : TransForm, Does (.trans f) (fun _ _ => True) fun c s =>
    let r := fillHandle s c.h c.sys ((c.s 1 f.sa.toNat).val + BitVec.ofInt 64 f.imm.toInt) f.intent 1
    r.1.modMember c.id c.mi (·.withPending ⟨.h ((c.h.hreg f.hd.toNat).getD f.hd.toNat) r.2, 0, c.v, c.v + 24, true⟩)) ∧
  (∀ f : HinvForm, Acts (.hinv f) fun _ c m =>
    m.withPending ⟨.h ((c.h.hreg f.hd.toNat).getD f.hd.toNat)
      ⟨false, none, 0, 0, false, false, false, false, 0, 0, 0, false, ⟨false, 7, 0, 0, 0, 0⟩⟩, 0, c.v, c.v + 1, true⟩) ∧
  ∀ f : SMemForm, Acts (.hrd f) fun _ c m =>
    m.withResult c.v (.s f.sd.toNat ((handle c f.h).word c.sys f.imm.toNat) none) 0 f.lat 12

/-- R182..R184: a walk finds a page exactly when its entries lead from the root to a valid, aligned leaf in both stages and the
tiers agree; the page is the smaller of the two leaves' pages, with the AND of their rights, S of stage 1 and TIER of stage 2. That a
guest-physical address of 2^56 or more does not translate is the model's choice (log 53). -/
def Sys2Proof.Claims.WalksFollowTheirTables : Prop := ∀ (s : State) (p : Part),
  (∀ gpa x, walk2 s p gpa = .ok x ↔ gpa < 2 ^ 56 ∧ leafOfStage2 s gpa p.cfg.s2root.toNat x) ∧
  (∀ va pg, walk s p va = .ok pg ↔ va < 2 ^ 56 ∧ ∃ l tab e pe y,
    stage1Path s p va p.s1root.toNat l tab ∧ gpaPa s p (tab l + 8 * levelIndex l va) = .ok pe ∧ e = mem64 s pe ∧
    goodLeaf l e ∧ walk2 s p (ptePa e + va % 2 ^ levelShift l) = .ok y ∧ pteTier e = pteTier y.entry ∧
    pg = jointPage va l e pe (tab l + 8 * levelIndex l va) y) ∧
  (∀ va, 2 ^ 56 ≤ va → ∃ wi, walk s p va = .error (.xlateS1, wi)) ∧
  (∀ va l tab pe, va < 2 ^ 56 → stage1Path s p va p.s1root.toNat l tab →
    gpaPa s p (tab l + 8 * levelIndex l va) = .ok pe → pteV (mem64 s pe) = false →
    let e := mem64 s pe
    let idx := e.toNat / 65536
    (e.getLsbD 13 = false → ∃ wi, walk s p va = .error (.xlateS1, wi)) ∧
    (∀ ra, e.getLsbD 13 = true → idx < p.cfg.regenCount.toNat → gpaPa s p (p.cfg.regenBase.toNat + 16 * idx) = .ok ra →
      (mem64 s ra).getLsbD 32 = true → ∃ wi, walk s p va = .error (.regen, wi) ∧ wi.regenIdx = BitVec.ofNat 64 idx)) ∧
  (∀ va l tab c wi, va < 2 ^ 56 → stage1Path s p va p.s1root.toNat l tab →
    gpaPa s p (tab l + 8 * levelIndex l va) = .error (c, wi) → walk s p va = .error (c, wi) ∧ c = .xlateS2)

/-- R184 and R186: a translation gives the walk's page when the page permits the intent and S its code; it then sets A, and D under a
writing intent, in both leaves, and the handle holds the page. One that fails leaves its cause in the handle. -/
def Sys2Proof.Claims.TranslationsPermitAndMark : Prop := ∀ (s : State) (part va : Nat) (sys : Bool) (i : BitVec 2),
  (∀ pg, translate s part sys va i = .ok pg ↔ ∃ p, s.part? part = some p ∧ walk s p va = .ok pg ∧ permits pg i ∧
    (pg.sys = true → sys = true)) ∧
  (∀ p pg, s.part? part = some p → walk s p va = .ok pg → ¬(permits pg i ∧ (pg.sys = true → sys = true)) →
    ∃ wi, translate s part sys va i = .error (.perm, wi)) ∧
  (∀ p k wi, s.part? part = some p → walk s p va = .error (k, wi) → translate s part sys va i = .error (k, wi)) ∧
  (∀ pg, s.memOk → pg.entry1 + 8 ≤ pg.entry2 ∨ pg.entry2 + 8 ≤ pg.entry1 → ∀ e, e = pg.entry1 ∨ e = pg.entry2 →
    mem64 (touchPage s pg i) e = mem64 s e ||| (if i = 0 then 0x800 else 0x1800)) ∧
  (∀ h pg, h.part = part → va < 2 ^ 64 → translate s part sys va i = .ok pg → ∀ op,
    let r := fillHandle s h sys (BitVec.ofNat 64 va) i op
    r.1 = touchPage s pg i ∧ r.2.valid = true ∧ r.2.base = BitVec.ofNat 64 pg.base ∧ r.2.size = pg.size ∧ r.2.r = pg.r ∧
    (r.2.w = true ↔ pg.w = true ∧ (i = 1 ∨ i = 2)) ∧ r.2.fe = pg.fe ∧ r.2.c = pg.c ∧ r.2.tier = pg.tier ∧ r.2.intent = i) ∧
  (∀ h k wi, h.part = part → va < 2 ^ 64 → translate s part sys va i = .error (k, wi) → ∀ op,
    let r := fillHandle s h sys (BitVec.ofNat 64 va) i op
    r.2.valid = false ∧ r.2.fcause = some k ∧ r.2.base = BitVec.ofNat 64 va ∧ (k ≠ .xlateS2 → r.1 = s))

/-- R182..R188: TRANS, HINV and HRD, and the walk and the rights behind them. -/
def Obligations.TranslationFillsTheHandle : Prop :=
  Sys2Proof.Claims.HandleOperationsFillClearAndRead ∧ Sys2Proof.Claims.WalksFollowTheirTables ∧
  Sys2Proof.Claims.TranslationsPermitAndMark

/-- R203: the ten atomics. One whose request is lost writes nothing (R342); the word and the tag that it brings back are the model's
choice (log 20). -/
def Sys2Proof.Claims.AtomicsReadAndWriteOneWord : Prop := ∀ f : AtomForm,
  AtomicOn (.aadd f) f (fun o v _ => some (BitVec.ofNat 64 (o.toNat + v.toNat))) ∧
  AtomicOn (.amin f) f (fun o v _ => some (BitVec.ofInt 64 (min o.toInt v.toInt))) ∧
  AtomicOn (.amax f) f (fun o v _ => some (BitVec.ofInt 64 (max o.toInt v.toInt))) ∧
  AtomicOn (.aminu f) f (fun o v _ => some (BitVec.ofNat 64 (min o.toNat v.toNat))) ∧
  AtomicOn (.amaxu f) f (fun o v _ => some (BitVec.ofNat 64 (max o.toNat v.toNat))) ∧
  AtomicOn (.aand f) f (fun o v _ => some (o &&& v)) ∧
  AtomicOn (.aor f) f (fun o v _ => some (o ||| v)) ∧
  AtomicOn (.axor f) f (fun o v _ => some (o ^^^ v)) ∧
  AtomicOn (.aswp f) f (fun _ v _ => some v) ∧
  AtomicOn (.acas f) f (fun o v k => if o = k then some v else none)

/-- R205 and R206: CADD adds the low 32 bits of SV to a counter that saturates; CWAIT completes at its issue when the counter
is at or above SV read unsigned; CRD reads the counter. That a CWAIT whose request is lost completes, and consumes the poison
that comes back, is the model's choice (assumption log 20). -/
def Sys2Proof.Claims.CounterOperations : Prop :=
  (∀ f : CaddForm, Does (.cadd f) (fun c _ => passes c f.h .cadd (offset c f.so 0) 8 8) fun c s =>
    let v := c.s 2 f.sv.toNat
    counterAdd (consumeTag (consumeTag s c.id c.mi (c.s 5 f.so.toNat).tag) c.id c.mi v.tag) c.who
      (physical c f.h (offset c f.so 0)) (BitVec.ofNat 32 v.val.toNat) none) ∧
  (∀ f : AtomForm, Does (.cwait f) (fun c s => passes c f.h .counter (offset c f.so f.imm.toInt) 8 8 ∧
      (sendable s c.who.part (physical c f.h (offset c f.so f.imm.toInt)) = true →
        (c.s 2 f.sv.toNat).val.toNat ≤ (view64 s c.who (physical c f.h (offset c f.so f.imm.toInt))).toNat))
    fun c s =>
      let pa := physical c f.h (offset c f.so f.imm.toInt)
      let t := consumeTag s c.id c.mi (c.s 5 f.so.toNat).tag
      if sendable s c.who.part pa then t else consumeTag (arrive t c.who pa 8) c.id c.mi (rangeTag s c.who pa 8)) ∧
  (∀ f : AtomForm, Does (.crd f) (fun c _ => passes c f.h .counter (offset c f.so f.imm.toInt) 8 8) fun c s =>
    let pa := physical c f.h (offset c f.so f.imm.toInt)
    let v := locWord s c.who (.mem pa)
    (arrive (consumeTag s c.id c.mi (c.s 5 f.so.toNat).tag) c.who pa 8).modMember c.id c.mi
      (fromMemory c (.s f.sd.toNat v.val v.tag) f.lat)) ∧
  ∀ (s : State) (w : Who) (a : Nat) (v : BitVec 32) (t : Tag), s.memOk → w.cells s = [] → flowOk s w.part a = true →
    portFailed s a = false →
    (view64 (counterAdd s w a v t) w a).toNat = min ((view64 s w a).toNat + v.toNat) (2 ^ 64 - 1)

/-- R200: FESET and FEGET always succeed at once on a word whose handle passes. R340 and R342 say what becomes of lost loads,
stores, atomics and adds, and name no full/empty operation: that a lost FESET changes no bit and is counted as a lost store,
and that a lost FEGET brings poison as a lost load does, is the model's choice (assumption log 20). -/
def Sys2Proof.Claims.FullEmptySetAndGetAlwaysSucceed : Prop := ∀ f : SMemForm,
  let pa (c : Ctx) := physical c f.h (offset c f.so f.imm.toInt)
  let used (c : Ctx) (s : State) := consumeTag s c.id c.mi (c.s 5 f.so.toNat).tag
  Does (.feset f) (fun c _ => passes c f.h .fe (offset c f.so f.imm.toInt) 8 8)
    (fun c s =>
      if sendable (used c s) c.who.part (pa c) then
        setFull (beginImm (used c s) c.who (.mem (pa c))) (pa c) ((c.s 13 f.sd.toNat).val.getLsbD 0) 0x13
      else loseImm (used c s) c.who (.mem (pa c))) ∧
  Does (.feget f) (fun c _ => passes c f.h .fe (offset c f.so f.imm.toInt) 8 8) fun c s =>
    let t := beginImm (used c s) c.who (.mem (pa c))
    if sendable t c.who.part (pa c) then
      t.modMember c.id c.mi (fromMemory c (.s f.sd.toNat (if isFull t (pa c) then 1 else 0) none) f.lat)
    else (arrive t c.who (pa c) 8).modMember c.id c.mi (fromMemory c
      (.s f.sd.toNat (BitVec.ofNat 64 (natOf (broughtBytes t c.who (pa c) 8))) (rangeTag t c.who (pa c) 8)) f.lat)

/-- R200, R203, R205 and R206: the atomics, the counter operations, FESET and FEGET. What becomes of a FESET, a FEGET or a CWAIT
whose request is lost, and what a lost atomic brings back, is the model's choice (log 20). -/
def Obligations.AtomicsCountersAndFullEmptyFlags : Prop :=
  Sys2Proof.Claims.AtomicsReadAndWriteOneWord ∧ Sys2Proof.Claims.CounterOperations ∧ Sys2Proof.Claims.FullEmptySetAndGetAlwaysSucceed

/-- R197 and R425: the scratchpad scalar loads and stores run whenever their access resolves to a place. -/
def Sys2Proof.Claims.ScratchpadScalarAccesses : Prop := ∀ f : SpsForm,
  SpLoads (.spldW f) f .scalar 4 0x20 ∧ SpLoads (.spldD f) f .scalarD 8 0x21 ∧
  SpStores (.spstW f) f .scalar 4 0x22 ∧ SpStores (.spstD f) f .scalarD 8 0x23

/-- R199 with R101: lane `i` of LPLD and LPST reaches bank `i`, row B1 + r(i), of its own core's pool. A read shows a stuck bit
of a row that no repair entry serves (R425). -/
def Sys2Proof.Claims.LanePrivateAccesses : Prop := ∀ f : GatherForm,
  Does (.lpld f) (rowsPass f) (fun c s =>
    let k := s.core c.m.core
    let act := c.k 4 f.k.toNat
    s.modMember c.id c.mi (·.withResult c.v (.v ((c.h.vreg f.vd.toNat).getD 0) act
      ((List.range 256).map fun i => if act.getLsbD i then k.cell (257 * (k.b1 + laneRow c f i) + i) else 0) none)
      0 f.lat 8)) ∧
  Does (.lpst f) (rowsPass f) fun c s =>
    let d := c.m.readV c.seed (c.ix 13) ((c.h.vreg f.vd.toNat).getD 0)
    s.setCore c.m.core ((List.range 256).foldl (fun k i =>
      if (c.k 4 f.k.toNat).getLsbD i then k.setWord (257 * (k.b1 + laneRow c f i) + i) (d.lanes.getD i 0) else k)
      (s.core c.m.core))

/-- R198: the scratchpad vector, gather and scatter forms run whenever the access of every active lane resolves, its address
taken exactly. -/
def Sys2Proof.Claims.ScratchpadVectorAccesses : Prop :=
  (∀ f : SpvForm,
    Runs (.vspld f) (fun c s => spvLoad s c .vector f.vd (c.k 4 f.k.toNat) (fun i =>
      exactAddr (((c.s 5 f.sa.toNat).val.toNat : Int) + 4 * (f.imm.toInt +
        (if f.ss = 0 then 1 else (c.s 7 f.ss.toNat).val.toInt) * (i : Int)))) f.lat 0x24) ∧
    Runs (.vspst f) (fun c s => spvStore s c .vector f.vd (c.k 4 f.k.toNat) (fun i =>
      exactAddr (((c.s 5 f.sa.toNat).val.toNat : Int) + 4 * (f.imm.toInt +
        (if f.ss = 0 then 1 else (c.s 7 f.ss.toNat).val.toInt) * (i : Int)))) 0x25)) ∧
  ∀ f : GatherForm,
    let at' (c : Ctx) (i : Nat) : Nat := (c.s 5 f.sa.toNat).val.toNat + 4 *
      ((c.m.readV c.seed (c.ix 2) ((c.h.vreg f.vb.toNat).getD 0)).lanes.getD i 0).toNat
    Runs (.vspg f) (fun c s => spvLoad s c .gather f.vd (c.k 4 f.k.toNat) (at' c) f.lat 0x26) ∧
    Runs (.vsps f) (fun c s => spvStore s c .gather f.vd (c.k 4 f.k.toNat) (at' c) 0x27)

/-- R101, R197, R198, R199 and R425: the scratchpad's scalar, vector, gather and scatter forms and the lane-private forms. -/
def Obligations.ScratchpadAndLanePrivateAccesses : Prop :=
  Sys2Proof.Claims.ScratchpadScalarAccesses ∧ Sys2Proof.Claims.LanePrivateAccesses ∧ Sys2Proof.Claims.ScratchpadVectorAccesses

/-- R63, R66, R68, R196 and R207: the no-ops, PREF and the fences change no register and no memory; the fences order nothing
more in a model whose accesses have performed when their bundle issues (log 23). -/
def Sys2Proof.Claims.NoOpsPrefetchAndFencesOnlyAdvance : Prop :=
  Advances .snop ∧ Advances .vnop ∧ Advances .mnop ∧ (∀ f, Advances (.pref f)) ∧
  ∀ f, Advances (.fence f) ∧ Advances (.fenceSt f) ∧ Advances (.fenceLd f)

/-- R208 and R211: SETQ replaces the whole state of the stream by the record read from the scratchpad, at position 0, when
the access resolves and the record is accepted; elements already pushed still leave. -/
def Sys2Proof.Claims.SetqReplacesTheStream : Prop := ∀ f : SetqForm,
  let at' (c : Ctx) (s : State) := spAccess s c .engine (spadAddr c f.sa f.imm.toInt) 64 8 0x3E 0 false
  Does (.setq f)
    (fun c s => ∃ t b, at' c s = .ok (.word t b) ∧ (parseRecord (spBytes s t b 64)).refused = none)
    fun c s => match at' c s with
      | .ok (.word t b) => s.modMember c.id c.mi fun m =>
          m.setStrm ((c.h.qreg f.q.toNat).getD f.q.toNat)
            { recd := some (parseRecord (spBytes s t b 64)), sys := c.sys, scope := c.scope, pos := 0, held := none,
              ahead := [], bte := [], out := (m.strm ((c.h.qreg f.q.toNat).getD f.q.toNat)).out, met := none,
              dropped :=
                let q := m.strm ((c.h.qreg f.q.toNat).getD f.q.toNat)
                q.placed (!q.out.isEmpty || astoQueued s c.id c.mi c.m.core (some ((c.h.qreg f.q.toNat).getD f.q.toNat))) }
      | _ => s

/-- R63, R66, R68, R196, R207, R208 and R211: the no-ops, PREF, the fences and SETQ. -/
def Obligations.NoOpsPrefetchFencesAndSetq : Prop :=
  Sys2Proof.Claims.NoOpsPrefetchAndFencesOnlyAdvance ∧ Sys2Proof.Claims.SetqReplacesTheStream

end
namespace Sys2Proof.Claims

/-- The attempt of a waiting form succeeds (Table 9.6, R384): wait on full, take on full with PT clear, fill on empty with PE
clear. That one whose request is lost completes, as a load, store or atomic does there, is the model's choice: R340 and R342
name no full/empty operation (assumption log 20). -/
def feWorks (k : FeKind) (s : State) (w : Who) (l : Loc) : Prop :=
  unsent s w l = true ∨ match k with
  | .wait => locFull s l = true
  | .take => locFull s l = true ∧ parkPT (locPark s l) = false
  | .fill => locFull s l = false ∧ parkPE (locPark s l) = false

/-- What a successful attempt does at the word, and the word it gives: an immediate operation that takes the word and leaves
it empty, waits for it, or fills it. A lost request gives the poison of a lost load and changes no word (log 20). -/
def feEffect (k : FeKind) (s : State) (w : Who) (l : Loc) (d : SReg) (op : Nat) : State × SReg :=
  let b := beginImm s w l
  if unsent s w l then
    match k with
    | .wait => (markIrrev (locArrive s w l 8) w, locWord s w l)
    | .take => (loseImm (locArrive s w l 8) w l, locWord s w l)
    | .fill => (loseImm s w l, ⟨0, none⟩)
  else match k with
  | .wait => (locArrive b w l 8, locWord b w l)
  | .take => (locSetFull (locArrive b w l 8) l false op, locWord b w l)
  | .fill => (locSetFull (locPut b w l d) l true op, ⟨0, none⟩)

/-- What the commit then gives the member: the word on its way to SD, or for a fill into host memory the consumption of the
data's poison. -/
def feFinish (k : FeKind) (c : Ctx) (l : Loc) (sd : BitVec 6) (v : SReg) (lat : BitVec 4) (least : Nat) (m : Member) : Member :=
  match k, l with
  | .fill, .mem pa => if isHostPa pa then m.consumed (c.s 13 sd.toNat).tag else m
  | .fill, .sp _ _ => m
  | _, _ => m.withResult c.v (.s sd.toNat v.val v.tag) 0 lat least

/-- A waiting form on a herd of one member, whose place passes its checks: it commits when its attempt succeeds; when the
attempt fails it tries again later, or traps FE_BUDGET once FEBUDGET tries have failed. -/
def WaitingForm (i : Instr) (sd : BitVec 6) (gd lat : BitVec 4) (k : FeKind) (op : Nat)
    (place : Ctx → State → Option Loc) (least : Ctx → Nat) (so : Ctx → Tag) : Prop :=
  ∀ s id h m l, Ready s id h (bundleOf i) → h.members = [m] → m.feHeld = none →
    let u := landAll s id
    let c := ctxFor u id h 0 3 0 m
    c.guard gd = true → place c u = some l →
    let d : SReg := if k = .fill then c.s 13 sd.toNat else ⟨0, none⟩
    (feWorks k u c.who l →
      let r := feEffect k u c.who l d op
      exec i s = .next (committed (r.1.modMember id 0 fun m =>
        feFinish k c l sd r.2 lat (least c) (m.consumed (so c))) id h 16)) ∧
    (¬ feWorks k u c.who l → h.feTries < h.feBudget.toNat →
      exec i s = .next (u.modHc id fun h => { h with feTries := h.feTries + 1, fresh := h.fresh + 16 })) ∧
    (¬ feWorks k u c.who l → h.feBudget.toNat ≤ h.feTries →
      exec i s = .next (takeTrap u id ((feTrapOf c i op).withWord l) 1))

/-- A waiting form through a handle. -/
def HandleForm (i : Instr) (f : SMemForm) (k : FeKind) (op : Nat) : Prop :=
  WaitingForm i f.sd f.g f.lat k op
    (fun c _ => if handleFault (handle c f.h) .fe (offset c f.so f.imm.toInt) 8 8 = none then
      some (.mem (physical c f.h (offset c f.so f.imm.toInt))) else none)
    (fun _ => 12) (fun c => (c.s 5 f.so.toNat).tag)

/-- A waiting form on the scratchpad. -/
def ScratchpadForm (i : Instr) (f : SpsForm) (k : FeKind) (op : Nat) : Prop :=
  WaitingForm i f.sd f.g f.lat k op
    (fun c s => match spAccess s c .fe (spadAddr c f.sa f.imm.toInt) 8 8 op 0 true with
      | .ok (.word t a) => some (.sp t a) | _ => none)
    (fun c => if isWindow (spadAddr c f.sa f.imm.toInt) then 20 else 6) (fun _ => none)

end Sys2Proof.Claims

section
open Sys2Proof.Claims

/-- R200 and R201 with R384 and R385: on a herd of one member the waiting forms make one attempt at their word, commit when it
succeeds, try again when it fails, and trap FE_BUDGET when the tries are spent. That an attempt whose request is lost
completes is the model's choice (assumption log 20). -/
def Obligations.WaitingFormsAttemptThenCommitRetryOrTrap : Prop :=
  (∀ f : SMemForm,
    HandleForm (.ldwaitD f) f .wait 0x10 ∧ HandleForm (.ldtakeD f) f .take 0x11 ∧ HandleForm (.stfillD f) f .fill 0x12) ∧
  ∀ f : SpsForm, ScratchpadForm (.sptakeD f) f .take 0x2A ∧ ScratchpadForm (.spfillD f) f .fill 0x2B

end
/-! ### Control operations (R137, R152..R161, R369..R371) -/

namespace Sys2Proof.Claims

/-- What the control operation reads of the member in the lead's place. -/
def leadCtx (u : State) (id : Nat) (h : HerdCtx) (m : Member) : Ctx := ctxFor u id h 0 0 h.leadOf m

/-- A bundle of one control operation: with its guard false it only advances; with it true, and `pre` met, it leaves `next`. -/
def Controls (i : Instr) (cg : BitVec 4) (pre : State → HerdCtx → Ctx → Prop) (next : State → Nat → HerdCtx → Ctx → State) :
    Prop :=
  ∀ s id h m, Ready s id h (bundleOf i) → h.members[h.leadOf]? = some m →
    let u := landAll s id
    let c := leadCtx u id h m
    (c.p 0 cg.toNat = false → exec i s = .next (committed u id h 8)) ∧
    (c.p 0 cg.toNat = true → pre u h c → exec i s = .next (next u id h c))

/-- A control operation with its guard true that traps: nothing of the bundle is done, and the trap names the lead. -/
def ControlTraps (i : Instr) (cg : BitVec 4) (pre : State → HerdCtx → Ctx → Prop) (t : HerdCtx → Ctx → Trap) : Prop :=
  ∀ s id h m, Ready s id h (bundleOf i) → h.members[h.leadOf]? = some m →
    let u := landAll s id
    let c := leadCtx u id h m
    c.p 0 cg.toNat = true → pre u h c → exec i s = .next (takeTrap u id (t h c) (2 ^ h.leadOf))

/-- A taken transfer to `pc`: loops, indexes and links as they were. -/
def goTo (u : State) (id : Nat) (h : HerdCtx) (pc : Word) (links : List Link) (tag : Tag) : State :=
  committedTo u id h pc h.loops h.idx links tag

/-- The target A + 8·OFF34. -/
def target (h : HerdCtx) (off : BitVec 34) : Word := BitVec.ofInt 64 (h.pc.toNat + 8 * off.toInt)

/-- The link that a call pushes. -/
def callLink (h : HerdCtx) : Link := ⟨h.pc + 8, none, ⟨false, false, 0⟩⟩

/-- Level `l` can start a loop that ends at `e`: it is inactive, and no loop that is active ends before `e`. -/
def canStart (h : HerdCtx) (l : Nat) (e : Word) : Prop :=
  (∀ k ∈ h.loops, k.level ≠ l) ∧ ∀ k ∈ h.loops, e.toNat ≤ k.stop.toNat

/-- Start a loop over [lo, hi): an empty range goes past the end bundle with the index at hi; another one runs the body with
the index at lo. -/
def started (u : State) (id : Nat) (h : HerdCtx) (l lo hi : Nat) (e : Word) (tag : Tag) : State :=
  if lo = hi then committedTo u id h (afterBundle u h e) h.loops (setIdx h.idx l hi) h.links tag
  else committedTo u id h (h.pc + 8) (⟨l, h.pc + 8, e, lo, hi⟩ :: h.loops) (setIdx h.idx l lo) h.links tag

/-- The address A + 8·END. -/
def loopEnd (h : HerdCtx) (e : BitVec 16) : Word := h.pc + BitVec.ofNat 64 (8 * e.toNat)

end Sys2Proof.Claims

section
open Sys2Proof.Claims

/-- R152, R153, R154, R137 and R136: branches go to their target, calls push the address of the next bundle, and RET pops the
link store; a register target is the lead's and its poison is consumed. -/
def Obligations.BranchesCallsAndReturns : Prop :=
  (∀ cg, Advances8 (.ctrlNop cg)) ∧
  (∀ cg off, Controls (.br cg off) cg (fun _ _ _ => True) fun u id h _ => goTo u id h (target h off) h.links none) ∧
  (∀ cg sa, Controls (.brr cg sa) cg (fun _ _ c => (c.s 12 sa.toNat).val.toNat % 8 = 0) fun u id h c =>
    goTo u id h (c.s 12 sa.toNat).val h.links (c.s 12 sa.toNat).tag) ∧
  (∀ cg off, Controls (.call cg off) cg (fun _ h _ => h.links.length < 32) fun u id h _ =>
    goTo u id h (target h off) (callLink h :: h.links) none) ∧
  (∀ cg sa, Controls (.callr cg sa) cg (fun _ h c => (c.s 12 sa.toNat).val.toNat % 8 = 0 ∧ h.links.length < 32)
    fun u id h c => goTo u id h (c.s 12 sa.toNat).val (callLink h :: h.links) (c.s 12 sa.toNat).tag) ∧
  ∀ cg, Controls (.ret cg) cg (fun _ h _ => h.links ≠ []) fun u id h _ =>
    match h.links with
    | l :: r => returnFrom (goTo u id h l.ret r none) id l
    | [] => u

/-- R152, R154, R158, R160, R369 and R371: what a control operation traps with, before anything of its bundle is done. -/
def Obligations.ControlOperationsTrapBeforeTheirBundle : Prop :=
  let misaligned (sa : BitVec 6) (c : Ctx) : Prop := (c.s 12 sa.toNat).val.toNat % 8 ≠ 0
  (∀ cg sa, ControlTraps (.brr cg sa) cg (fun _ _ c => misaligned sa c) fun _ c =>
    { Trap.of .misalign 0 with addr := (c.s 12 sa.toNat).val, data := [0x7000, 0, 0, 0, 0] }) ∧
  (∀ cg sa, ControlTraps (.callr cg sa) cg (fun _ _ c => misaligned sa c) fun _ c =>
    { Trap.of .misalign 0 with addr := (c.s 12 sa.toNat).val, data := [0x7000, 0, 0, 0, 0] }) ∧
  (∀ cg off, ControlTraps (.call cg off) cg (fun _ h _ => 32 ≤ h.links.length) fun _ _ => Trap.of .linkOverflow 0) ∧
  (∀ cg sa, ControlTraps (.callr cg sa) cg (fun _ h c => ¬ misaligned sa c ∧ 32 ≤ h.links.length)
    fun _ _ => Trap.of .linkOverflow 0) ∧
  (∀ cg, ControlTraps (.ret cg) cg (fun _ h _ => h.links = []) fun _ _ => Trap.of .linkEmpty 0) ∧
  (∀ cg l n e, ControlTraps (.loopn cg l n e) cg (fun _ h _ => ¬ canStart h l.toNat (loopEnd h e))
    fun _ _ => Trap.of .loopNest 0) ∧
  (∀ cg l e, ControlTraps (.loopt cg l e) cg (fun u h _ => ∀ nd, u.node? h.part h.node = some nd →
      fpNlev nd.footprint ≤ l.toNat ∨ ¬ canStart h l.toNat (loopEnd h e)) fun _ _ => Trap.of .loopNest 0) ∧
  (∀ cg l, ControlTraps (.lexit cg l) cg (fun _ h _ => ∀ k ∈ h.loops, k.level ≠ l.toNat) fun _ _ => Trap.of .loopNest 0) ∧
  ∀ cg sa, ControlTraps (.resume cg sa) cg (fun u h c => frozenBy u h.die (c.s 12 sa.toNat).val = none)
    fun _ _ => Trap.of .illegalField 0

/-- R158 and R160: LOOPN runs over 0..count, LOOPT over this herd-context's range of the loop table, and LEXIT ends a level
with every level started after it. -/
def Sys2Proof.Claims.LoopsStartAndExit : Prop :=
  (∀ cg l n e, Controls (.loopn cg l (.imm n) e) cg (fun _ h _ => canStart h l.toNat (loopEnd h e)) fun u id h _ =>
    started u id h l.toNat 0 n.toNat (loopEnd h e) none) ∧
  (∀ cg l (sc : BitVec 6) e, Controls (.loopn cg l (.reg sc) e) cg (fun _ h _ => canStart h l.toNat (loopEnd h e))
    fun u id h c => started u id h l.toNat 0 (c.s 12 sc.toNat).val.toNat (loopEnd h e) (c.s 12 sc.toNat).tag) ∧
  (∀ cg l e nd, Controls (.loopt cg l e) cg (fun u h _ => u.node? h.part h.node = some nd ∧
      l.toNat < fpNlev nd.footprint ∧ canStart h l.toNat (loopEnd h e)) fun u id h _ =>
    started u id h l.toNat (levelRange nd h l.toNat).1 (levelRange nd h l.toNat).2 (loopEnd h e) none) ∧
  ∀ cg l k, Controls (.lexit cg l) cg (fun _ h _ => h.loops.find? (·.level == l.toNat) = some k) fun u id h _ =>
    committedTo u id h (afterBundle u h k.stop) ((h.loops.dropWhile (·.level != l.toNat)).drop 1) h.idx h.links none

/-- R159: at the end bundle of the innermost loop the index rises by 1; below the limit the body runs again, and at the limit
the loop ends and the next outer one is stepped; away from the end bundle nothing is stepped. -/
def Sys2Proof.Claims.EndBundleStepsTheLoops : Prop :=
  ∀ (pc next : Word) (k : Loop) (r : List Loop) (idx : List Word),
    stepLoops pc next [] idx = ([], idx, next) ∧
    (k.stop ≠ pc → stepLoops pc next (k :: r) idx = (k :: r, idx, next)) ∧
    (k.stop = pc → k.cur + 1 < k.lim →
      stepLoops pc next (k :: r) idx = ({ k with cur := k.cur + 1 } :: r, setIdx idx k.level (k.cur + 1), k.start)) ∧
    (k.stop = pc → k.lim ≤ k.cur + 1 →
      stepLoops pc next (k :: r) idx = stepLoops pc next r (setIdx idx k.level (k.cur + 1)))

/-- R158, R159 and R160: loops start, step at their end bundle, and end. -/
def Obligations.LoopsStartStepAndEnd : Prop :=
  Sys2Proof.Claims.LoopsStartAndExit ∧ Sys2Proof.Claims.EndBundleStepsTheLoops

/-- R155, R156 and R157: TRAP commits and then freezes with its code; YIELD gives up the turn; WAITE holds the next bundle;
ERET goes back to where the handler was entered; RESUME makes the frozen herd-context it names READY. That ERET takes the first
pair with a saved point, and that a RESUME in the end bundle of a loop steps the loop, are the model's choices (assumption
log 48). -/
def Obligations.TrapYieldWaitAndResume : Prop :=
  (∀ cg code, Controls (.trap cg code) cg (fun _ _ _ => True) fun u id h _ =>
    takeTrap (committed u id h 8) id { Trap.of .userTrap 0 with code := code } (2 ^ h.leadOf)) ∧
  (∀ cg, Controls (.yield cg) cg (fun _ _ _ => True) fun u id h _ =>
    (committed u id h 8).modHc id fun x => { x with hstate := .ready, yielded := true }) ∧
  (∀ cg m, Controls (.waite cg m) cg (fun _ _ _ => True) fun u id h _ =>
    (committed u id h 8).modHc id fun x => { x with waiteNext := m }) ∧
  (∀ cg d j p pc, Controls (.eret cg) cg (fun u h _ => u.dies[h.die]? = some d ∧ d.pairs[j]? = some p ∧ p.saved = some pc ∧
      ∀ k, k < j → (d.pairs[k]?.bind (·.saved)) = none) fun u id h _ =>
    (goTo u id h pc h.links none).modDie h.die fun d => { d with pairs := lset d.pairs j { p with saved := none } }) ∧
  ∀ cg sa t, Controls (.resume cg sa) cg (fun u h c => frozenBy u h.die (c.s 12 sa.toNat).val = some t) fun u id h c =>
    let r := stepLoops h.pc (h.pc + 8) h.loops h.idx
    doPost (resumeHc (committedTo u id h r.2.2 r.1 r.2.1 h.links (c.s 12 sa.toNat).tag) t) id ⟨false, false, 0⟩

end
/-! ### Routine slots (R25, R26, R34..R39, R225..R281, R392..R396, R404..R407) -/

namespace Sys2Proof.Claims

/-- The state with one more command in the array queue, or in the load queue, of the member's core. -/
def intoArray (s : State) (c : Ctx) (op : MatOp) : State :=
  s.setCore c.m.core { s.core c.m.core with arrayQ := (s.core c.m.core).arrayQ ++ [⟨c.id, c.mi, op⟩] }
def intoLoad (s : State) (c : Ctx) (op : MatOp) : State :=
  s.setCore c.m.core { s.core c.m.core with loadQ := (s.core c.m.core).loadQ ++ [⟨c.id, c.mi, op⟩] }

/-- The same for the function, the combine and the job queue. -/
def intoFn (s : State) (c : Ctx) (x : FnCmd) : State :=
  s.setCore c.m.core { s.core c.m.core with fnQ := (s.core c.m.core).fnQ ++ [x] }
def intoComb (s : State) (c : Ctx) (op : CombOp) : State :=
  { s.setCore c.m.core { s.core c.m.core with
      combQ := (s.core c.m.core).combQ ++ [⟨c.id, c.mi, s.nextCmd, c.v, op⟩] } with nextCmd := s.nextCmd + 1 }
def intoJob (s : State) (c : Ctx) (op : JobOp) : State :=
  s.setCore c.m.core { s.core c.m.core with jobQ := (s.core c.m.core).jobQ ++ [⟨c.id, c.mi, c.slot, op⟩] }

/-- The herd-context's slot holds the claim of an operand slot, or of an accumulator. -/
def holdsSlot (w : State) (c : Ctx) (o : Nat) : Prop :=
  ((w.core c.m.core).oslot o).cl = true ∧ ((w.core c.m.core).oslot o).owner = c.h.slot
def holdsAcc (w : State) (c : Ctx) (a : Nat) : Prop :=
  ((w.core c.m.core).acc a).cl = true ∧ ((w.core c.m.core).acc a).owner = c.h.slot

/-- TILE_STATE on an operand slot and on an accumulator, by the operand field that names it (Table 22.1). -/
def slotState (r : RCall) (c : Ctx) (w : State) (field o : Nat) : Trap :=
  let x := (w.core c.m.core).oslot o
  engineTrap .tileState r.slot 0 field o x.stateWord 0 (if x.cl then BitVec.ofNat 64 x.owner else BitVec.allOnes 64)
def accState (r : RCall) (c : Ctx) (w : State) (field a : Nat) : Trap :=
  let x := (w.core c.m.core).acc a
  engineTrap .tileState r.slot 0 field a x.stateWord 0 (if x.cl then BitVec.ofNat 64 x.owner else BitVec.allOnes 64)

/-- A command of the function queue on X under the call's mask. -/
def fnCommand (r : RCall) (c : Ctx) (mask : Mask) (x : List W32 × FFlags) (t : Tag) : FnCmd :=
  { hc := c.id, mem := c.mi, vd := r.resolved c.h 0, mask := mask, lanes := x.1, tag := t, flags := x.2 }

/-- The state in which TLSC2 reads its word `k`: it has read those before it. -/
def tlscAt (r : RCall) (c : Ctx) (s : State) (k : Nat) : State := (List.range k).foldl (fun s j => tlscArrive s c r j) s

/-- A one-operand element-wise routine. -/
def unaryCall (op : Nat → W32 → W32 × FFlags) : RCall → State → Ctx → State → State := fun r _ c s =>
  let y := r.vin c 1
  intoFn s c (fnCommand r c (r.mask c) (mapLanes (r.mask c) fun i => op r.prof (lane y.lanes i)) y.tag)

/-- A record that R236 lets a tile load walk: no F/E work, POPN 32, 64, 128 or 256, and a format that it takes. -/
def loadable (rc : StrmRec) (fmtOk : Nat → Prop) : Prop :=
  rc.fem = 0 ∧ (rc.pop = 32 ∨ rc.pop = 64 ∨ rc.pop = 128 ∨ rc.pop = 256) ∧ fmtOk rc.fmtN

/-- A tile of width `w` can be loaded into slot `o`: the slot is claimed, and for BFP16 it is the even half of a claimed
pair. -/
def tileRoom (s : State) (c : Ctx) (o w : Nat) : Prop :=
  holdsSlot s c o ∧ (w = 16 → o % 2 = 0 ∧ holdsSlot s c (o + 1))

/-- A tile load's checks pass in `s`: the stream, its record, the slots, the walk's length, and every pop. -/
def tilePasses (o : Nat) (fmtOk : Nat → Prop) (w : StrmRec → Nat) : RCall → Ctx → State → Prop := fun r c s =>
  ∃ qn q rc, r.stream c 1 false = .ok (qn, q, rc) ∧ loadable rc fmtOk ∧ tileRoom s c o (w rc) ∧
    runsOut rc q.pos (4096 / rc.pop) = false ∧ (popRun (c.use q) rc (4096 / rc.pop) 0 ⟨s, q, [], none⟩).fail = none

/-- A tile load: 4096 elements are popped, and the blocks that they make join the load queue. -/
def loadTile (o : Nat) (role : BitVec 2) (w : StrmRec → Nat) (quant : Bool) : RCall → State → Ctx → State → State := fun r _ c s =>
  match r.stream c 1 false with
  | .ok (qn, q, rc) =>
    let x := popRun (c.use q) rc (4096 / rc.pop) 0 ⟨s, q, [], none⟩
    let b := loadBlocks rc r.prof (w rc) quant x.pops
    intoLoad (x.s.modMember c.id c.mi (·.setStrm qn x.q)) c (.load o role (w rc) b.1 b.2)
  | .error _ => s

/-- The number of pushes of an ASTO on a record: 16384 elements, or their 49152 words in format 3. -/
def astoPushes (rc : StrmRec) : Nat := (if rc.fmtN = 3 then 49152 else 16384) / rc.pop

/-- A row routine on the vector Y (F bit 0 clear): its final lanes join the function queue, written under all ones. -/
def rowCall (rn : Nat) : RCall → State → Ctx → State → State := fun r _ c s =>
  let x := r.vin c 0
  let y := r.vin c 1
  let a := rowStep rn r.prof (rowStart rn x x.tag) ⟨y.lanes, r.mask c, 0, y.tag⟩
  let l := rowFinish rn r.prof a (lane x.lanes 0)
  intoFn s c (fnCommand r c (BitVec.allOnes 256) (l.1, a.flags ||| l.2) a.tag)

/-- A row routine on a stream (F bit 0 set): Z vectors are popped first. -/
def rowStream (rn : Nat) : RCall → State → Ctx → State → State := fun r _ c s =>
  match r.stream c 3 false with
  | .ok (qn, q, rc) =>
    let x := r.vin c 0
    let z := (r.cap c.mi).z
    let p := popRun (c.use q) rc z.val.toNat 0 ⟨s, q, [], none⟩
    let a := rowRun rn r.prof (rowStart rn x (mergeTag x.tag z.tag)) (popVecs rc q.pos (r.mask c) p.pops)
    let l := rowFinish rn r.prof a (lane x.lanes 0)
    intoFn (p.s.modMember c.id c.mi (·.setStrm qn p.q)) c
      (fnCommand r c (BitVec.allOnes 256) (l.1, a.flags ||| l.2) a.tag)
  | .error _ => s

/-- The checks of a row routine's two forms. -/
def rowPasses (f : RForm) : RCall → Ctx → State → Prop := fun _ _ _ => f.f.toNat = 0 ∧ f.z = 0 ∧ f.w = 0
def rowStreamPasses (f : RForm) : RCall → Ctx → State → Prop := fun r c s =>
  f.f.toNat = 1 ∧ f.y = 0 ∧ 0 < (r.cap c.mi).z.val.toNat ∧ (r.cap c.mi).z.val.toNat < 2 ^ 32 ∧
  ∃ qn q rc, r.stream c 3 false = .ok (qn, q, rc) ∧ rc.fem = 0 ∧ rc.fmtN ≠ 3 ∧
    runsOut rc q.pos (r.cap c.mi).z.val.toNat = false ∧
    (popRun (c.use q) rc (r.cap c.mi).z.val.toNat 0 ⟨s, q, [], none⟩).fail = none

/-- A command of the copy engine that serves the member's core and slot, with its entries of the range scoreboard and the
block-table entries that its elements are placed through. -/
def intoCopy (s : State) (c : Ctx) (f : RForm) (op : CopyOp) (scores : List (Nat × Nat × Nat × Bool)) (ents : List Nat) : State :=
  enqCopy s (2 * (c.m.core / 12) + c.h.slot % 2) (some c.id) c.mi c.h.part c.h.node (f.f.getLsbD 1) op scores ents

end Sys2Proof.Claims

section
open Sys2Proof.Claims

/-- R34, R36 and R446: a routine slot whose number binds to a body calls it at commit. The link entry names the next bundle,
the frame holds the routine's number and the members' guards, each member's ARG registers hold its operands, and PC is at the
body's first bundle. A slot whose guard reads true on no member, and one with RN 0, only advance. -/
def Sys2Proof.Claims.RoutineSlotsCallTheirBody : Prop :=
  (∀ f, Advances (.routineNop f)) ∧
  (∀ i : Instr, i.kind = .routine → ∀ s id h r, Ready s id h (bundleOf i) → (∀ l ∈ h.loops, l.level < 6) →
    routineCall (landAll s id) id h (bundleOf i) 4 i = some r → r.acts = false → r.wait (landAll s id) = none →
    exec i s = .next (committed (landAll s id) id h 16)) ∧
  ∀ i : Instr, i.kind = .routine → ∀ s id h r im, Ready s id h (bundleOf i) → Bound i (landAll s id) id h r →
    r.e.native = false → h.links.length < 32 → (landAll s id).image? h = some im →
    ∃ t g, exec i s = .next t ∧ t.hc? id = some g ∧ g.pc = im.bodyAt r.e 0 ∧ g.vcc = h.vcc + 1 ∧
      g.links = ⟨(stepLoops h.pc (h.pc + 16) h.loops h.idx).2.2, none, ⟨false, false, 0⟩⟩ :: h.links ∧
      g.frames.drop 1 = h.frames ∧ g.frames.map (·.rn) = i.rn :: h.frames.map (·.rn) ∧
      g.frames.head?.map (·.active) = some (r.caps.map (·.guard)) ∧ t.mem = (landAll s id).mem ∧
      ∀ (k : Nat) (m : Member), g.members[k]? = some m → (m.args.head?.map fun a => (a.x, a.y, a.z, a.w)) =
        some ((r.cap k).x.val, (r.cap k).y.val, (r.cap k).z.val, (r.cap k).w.val)

/-- R39: at the body's RET a member that took part has its scalar and predicate outputs on their way, each with the value of
its ARG register and no tag, drops that call's ARG registers, and has what the body left in flight due at once; a member
whose guard was false only drops the ARG registers. -/
def Sys2Proof.Claims.ReturnsDeliverTheOutputs : Prop := ∀ (f : Frame) (m : Member) (k v : Nat),
  let old := m.inflight.map fun (p : Pending) => if f.since ≤ p.issue then { p with due := v + 1 } else p
  (f.active.getD k true = false → m.completeCall f k v = { m with inflight := old, args := m.args.drop 1 }) ∧
  (f.active.getD k true = true → ∀ (a : Args) (l : List Args), m.args = a :: l →
    (m.completeCall f k v).args = l ∧
    (m.completeCall f k v).inflight = old ++ ((List.range 4).filterMap fun j =>
      let x := ([a.x, a.y, a.z, a.w] : List Word).getD j 0
      if f.dir j = 2 ∨ f.dir j = 3 then
        (if f.kind j = 2 then some ⟨.s (f.field j) x none, 0, v, v + 1, true⟩
         else if f.kind j = 3 then some ⟨.p (f.field j) (x.getLsbD 0), 0, v, v + 1, true⟩ else none)
      else none))

/-- R34, R36, R39 and R446: a routine slot (ROUTINE_SLOT, or any routine bound to its body) calls its body, and the body's RET delivers the outputs. -/
def Obligations.RoutineCallsAndReturns : Prop :=
  Sys2Proof.Claims.RoutineSlotsCallTheirBody ∧ Sys2Proof.Claims.ReturnsDeliverTheOutputs

/-- R235: claiming a free operand slot or accumulator makes the herd-context its owner with undefined contents, releasing an
own one clears its claim, both halves of a BFP16 pair; a slot in the wrong state traps TILE_STATE. -/
def Sys2Proof.Claims.ClaimsAndReleases : Prop := ∀ f : RForm,
  let o := f.x.toNat
  Natively (.oclaim f) (fun _ c w => ((w.core c.m.core).oslot o).cl = false)
    (fun _ _ c s => s.setCore c.m.core ((s.core c.m.core).setOslot o
      ⟨true, c.h.slot, 0, 0, pairNat (pairNat c.seed c.mi) o, [], []⟩)) ∧
  NativelyTraps (.oclaim f) (fun _ c w => ((w.core c.m.core).oslot o).cl = true) (fun r c w => slotState r c w 0 o) ∧
  Natively (.ofree f) (fun _ c w => holdsSlot w c o ∧ ((w.core c.m.core).oslot o).role ≠ 3)
    (fun _ _ c s =>
      let k := s.core c.m.core
      let j := k.setOslot o { k.oslot o with cl := false }
      s.setCore c.m.core (if (k.oslot o).m = 16 then j.setOslot (o + 1) { j.oslot (o + 1) with cl := false } else j)) ∧
  NativelyTraps (.ofree f) (fun _ c w => ¬ (holdsSlot w c o ∧ ((w.core c.m.core).oslot o).role ≠ 3))
    (fun r c w => slotState r c w 0 o) ∧
  Natively (.aclaim f) (fun _ c w => ((w.core c.m.core).acc o).cl = false)
    (fun _ _ c s => s.setCore c.m.core ((s.core c.m.core).setAcc o
      ⟨true, c.h.slot, false, pairNat (pairNat c.seed c.mi) (64 + o), []⟩)) ∧
  NativelyTraps (.aclaim f) (fun _ c w => ((w.core c.m.core).acc o).cl = true) (fun r c w => accState r c w 0 o) ∧
  Natively (.afree f) (fun _ c w => holdsAcc w c o)
    (fun _ _ c s => s.setCore c.m.core ((s.core c.m.core).setAcc o { (s.core c.m.core).acc o with cl := false })) ∧
  NativelyTraps (.afree f) (fun _ c w => ¬ holdsAcc w c o) (fun r c w => accState r c w 0 o)

/-- R236, R237 and R240: OLDA, OLDB and BFPQ pop a whole tile and queue its load into a claimed slot, and ASTO resolves the
places of an accumulator's elements and queues their store. -/
def Obligations.TileLoadsAndStoresJoinTheLoadQueue : Prop := ∀ f : RForm,
  let o := f.x.toNat
  let bfp (n : Nat) : Prop := n = 2 ∨ (bfpWidth n).isSome = true
  let width (rc : StrmRec) : Nat := rc.bfp.getD 16
  Natively (.olda f) (tilePasses o bfp width) (loadTile o 1 width false) ∧
  Natively (.oldb f) (tilePasses o bfp width) (loadTile o 2 width false) ∧
  Natively (.bfpq f)
    (fun r c w => ((2 ≤ f.z.toNat ∧ f.z.toNat ≤ 8) ∨ f.z.toNat = 16) ∧ f.w.toNat ≤ 1 ∧
      tilePasses o (fun n => n = 1 ∨ n = 2) (fun _ => f.z.toNat) r c w)
    (loadTile o (if f.w.toNat = 0 then 1 else 2) (fun _ => f.z.toNat) true) ∧
  Natively (.asto f)
    (fun r c w => ∃ qn q rc, r.stream c 1 true = .ok (qn, q, rc) ∧ (rc.fem = 0 ∨ rc.fem = 3) ∧
      (rc.pop = 32 ∨ rc.pop = 64 ∨ rc.pop = 128 ∨ rc.pop = 256) ∧ fmtPublished rc.fmtN = true ∧ holdsAcc w c o ∧
      runsOut rc q.pos (astoPushes rc) = false ∧ (pushRun (c.use q) rc (astoPushes rc) 0 ⟨w, q, 0, [], none⟩).fail = none)
    (fun r _ c s => match r.stream c 1 true with
      | .ok (qn, q, rc) =>
        let x := pushRun (c.use q) rc (astoPushes rc) 0 ⟨s, q, 0, [], none⟩
        intoLoad (x.s.modMember c.id c.mi (·.setStrm qn x.q)) c (.asto o rc.fmtN x.outs (rc.fem == 3) qn)
      | .error _ => s)

/-- R229, R238, R239 and R241: MMA, AZERO, ANORM and AROW join the array queue when their tiles are claimed and loaded in
their roles; the guard is 16 bits wide under profile 3 only (R126). -/
def Sys2Proof.Claims.ArrayCommandsJoinTheArrayQueue : Prop := ∀ f : RForm,
  let x := f.x.toNat
  let y := f.y.toNat
  let z := f.z.toNat
  Natively (.mma f)
    (fun _ c w => holdsAcc w c x ∧ holdsSlot w c y ∧ holdsSlot w c z ∧ ((w.core c.m.core).oslot y).role = 1 ∧
      ((w.core c.m.core).oslot z).role = 2)
    (fun r _ c s => intoArray s c (.mma x y z (r.prof == 3))) ∧
  NativelyTraps (.mma f) (fun _ c w => ¬ holdsAcc w c x) (fun r c w => accState r c w 0 x) ∧
  Natively (.azero f) (fun _ c w => holdsAcc w c x) (fun _ _ c s => intoArray s c (.azero x)) ∧
  NativelyTraps (.azero f) (fun _ c w => ¬ holdsAcc w c x) (fun r c w => accState r c w 0 x) ∧
  Natively (.anorm f) (fun _ c w => holdsAcc w c x) (fun r _ c s => intoArray s c (.anorm x (r.prof == 3))) ∧
  Natively (.arow f)
    (fun r c w => (r.cap c.mi).z.val.toNat < 128 ∧ f.w.toNat ≤ 3 ∧ holdsAcc w c y)
    (fun r _ c s => intoArray s c
      (.arow (r.resolved c.h 0) y (r.cap c.mi).z.val.toNat f.w.toNat (r.mask c) (r.cap c.mi).z.tag))

/-- R229, R235, R238, R239 and R241: claims and releases of tiles, and the commands of the array queue. -/
def Obligations.MatrixRoutinesClaimAndQueue : Prop :=
  Sys2Proof.Claims.ClaimsAndReleases ∧ Sys2Proof.Claims.ArrayCommandsJoinTheArrayQueue

/-- R244, R245, R248, R249, R253, R352 and R405: a routine of the function queue takes its operands when it acts and queues the
lanes, the tag and the flags that its destination will get. -/
def Sys2Proof.Claims.FunctionRoutinesJoinTheFunctionQueue : Prop := ∀ f : RForm,
  let any : RCall → Ctx → State → Prop := fun _ _ _ => True
  Natively (.exp2 f) any (unaryCall exp2Op) ∧ Natively (.expe f) any (unaryCall expeOp) ∧
  Natively (.log2 f) any (unaryCall log2Op) ∧ Natively (.loge f) any (unaryCall logeOp) ∧
  Natively (.rcp f) any (unaryCall rcpOp) ∧ Natively (.rsqrt f) any (unaryCall rsqrtOp) ∧
  Natively (.sqrt f) any (unaryCall sqrtOp) ∧ Natively (.tanh f) any (unaryCall tanhOp) ∧
  Natively (.sigm f) any (unaryCall sigmOp) ∧ Natively (.silu f) any (unaryCall siluOp) ∧
  Natively (.gelu f) any (unaryCall geluOp) ∧
  Natively (.divf f) any (fun r _ c s =>
    let y := r.vin c 1
    let z := r.vin c 2
    intoFn s c (fnCommand r c (r.mask c)
      (mapLanes (r.mask c) fun i => divOp r.prof (lane y.lanes i) (lane z.lanes i)) (mergeTag y.tag z.tag))) ∧
  Natively (.smxfin f) any (fun r _ c s =>
    let y := r.vin c 1
    let z := r.vin c 2
    intoFn s c (fnCommand r c (r.mask c)
      (mapLanes (r.mask c) fun i => smxfinOp r.prof (lane z.lanes 0) (lane z.lanes 1) (lane y.lanes i))
      (mergeTag y.tag z.tag))) ∧
  Natively (.bdot4 f) any (fun r _ c s =>
    let y := r.vin c 1
    let z := r.vin c 2
    intoFn s c (fnCommand r c (r.mask c) (bdot4Lanes y.lanes z.lanes) (mergeTag y.tag z.tag))) ∧
  Natively (.tlsc2 f)
    (fun r c _ => ∀ k, k < 4 → handleFault (tlscHandle r c k).2 .load (4 * ((k % 2 : Nat) : Int)) 4 1 = none)
    (fun r _ c s =>
      let y := r.vin c 3
      let xs := (List.range 4).map fun k => tlscRead (tlscAt r c s k) c r k
      intoFn (tlscAt r c s 4) c (fnCommand r c 15
        (mapLanes 15 fun i => fmulOp .rne ((xs.getD i (0, none)).1) (lane y.lanes i))
        (mergeTag y.tag (mergeTags (xs.map (·.2))))))

/-- The listed values of Table 12.3 hold under every profile. -/
def Obligations.FunctionsGiveTheirListedValues : Prop := ∀ prof : Nat,
  (∀ a, isNaN32 a = true → exp2Op prof a = (canonNaN, 0) ∧ log2Op prof a = (canonNaN, 0) ∧ rcpOp prof a = (canonNaN, 0) ∧
    rsqrtOp prof a = (canonNaN, 0) ∧ sqrtOp prof a = (canonNaN, 0)) ∧
  exp2Op prof negInf = (0, 0) ∧ exp2Op prof posInf = (posInf, 0) ∧
  log2Op prof 0 = (negInf, 0) ∧ log2Op prof posInf = (posInf, 0) ∧ log2Op prof negInf = (canonNaN, flagINV) ∧
  rcpOp prof 0 = (posInf, 0) ∧ rcpOp prof 0x80000000 = (negInf, 0) ∧ rcpOp prof posInf = (0, 0) ∧
  rsqrtOp prof 0 = (posInf, 0) ∧ rsqrtOp prof 0x80000000 = (negInf, 0) ∧ rsqrtOp prof posInf = (0, 0) ∧
  sqrtOp prof 0x80000000 = (0x80000000, 0) ∧ sqrtOp prof posInf = (posInf, 0) ∧ sqrtOp prof negInf = (canonNaN, flagINV)

/-- R246, R250..R254: a row routine reduces one vector, or the vectors of Z pops of a stream, in their order, and queues the
lanes of its result. -/
def Sys2Proof.Claims.RowRoutinesReduceInOrder : Prop := ∀ f : RForm,
  (Natively (.rmax f) (rowPasses f) (rowCall 0x50) ∧ Natively (.rsum f) (rowPasses f) (rowCall 0x51) ∧
   Natively (.smxupd f) (rowPasses f) (rowCall 0x52) ∧ Natively (.rmsn f) (rowPasses f) (rowCall 0x54) ∧
   Natively (.lnrm f) (rowPasses f) (rowCall 0x55)) ∧
  (Natively (.rmax f) (rowStreamPasses f) (rowStream 0x50) ∧ Natively (.rsum f) (rowStreamPasses f) (rowStream 0x51) ∧
   Natively (.smxupd f) (rowStreamPasses f) (rowStream 0x52) ∧ Natively (.rmsn f) (rowStreamPasses f) (rowStream 0x54) ∧
   Natively (.lnrm f) (rowStreamPasses f) (rowStream 0x55))

/-- R244..R246, R248..R254 and R405: the routines of the function queue and the row routines. -/
def Obligations.FunctionAndRowRoutinesJoinTheirQueue : Prop :=
  Sys2Proof.Claims.FunctionRoutinesJoinTheFunctionQueue ∧ Sys2Proof.Claims.RowRoutinesReduceInOrder

/-- R258, R262, R266, R267, R269 and R270: a copy routine whose checks pass queues its command on the copy engine of the
member's cluster and slot parity, with scoreboard entries for the scratchpad ranges that it reads and writes. -/
def Obligations.CopyRoutinesJoinTheCopyQueue : Prop := ∀ f : RForm,
  NativelyInTurn (.cpy f) (fun r c w => ∃ x, cpyCheck r c w = .ok x)
    (fun r c s => match cpyCheck r c s with
      | .ok (t, l, es, ctr) => intoCopy t c r.f (.cpy l r.mode ctr) (copyScores l) es
      | .error _ => s) ∧
  NativelyInTurn (.cpyred f) (fun r c w => ∃ x, redCheck r c w = .ok x)
    (fun r c s => match redCheck r c s with
      | .ok (t, l, es, float, group, sid, ctr) =>
        intoCopy t c r.f (.cpyred group sid l float ctr) ((copyScores l).filter fun x => !x.2.2.2) es
      | .error _ => s) ∧
  NativelyInTurn (.tstload f)
    (fun r c w => r.sys = true ∧ (r.cap c.mi).x.val.toNat < 256 ∧ ∃ t b,
      r.block c w ((r.cap c.mi).y.val.toNat % 2 ^ 32) 256 8 = .ok (t, b) ∧ slotsBad (slotWords (spBytes w t b 256)) = none)
    (fun r c s => match r.block c s ((r.cap c.mi).y.val.toNat % 2 ^ 32) 256 8 with
      | .ok (t, b) => intoCopy s c r.f (.tstload (r.cap c.mi).x.val.toNat (slotWords (spBytes s t b 256))) [] []
      | .error _ => s) ∧
  NativelyInTurn (.btswap f) (fun r c _ => r.mode = 0 ∧ ∃ pa, r.reach c 1 .atomic (r.cap c.mi).x.val.toInt 8 8 = .ok pa)
    (fun r c s => match r.reach c 1 .atomic (r.cap c.mi).x.val.toInt 8 8 with
      | .ok pa => intoCopy s c r.f (.btswap f.x.toNat pa (r.cap c.mi).z.val (r.cap c.mi).w) [] []
      | .error _ => s) ∧
  NativelyInTurn (.btfence f)
    (fun r c _ => r.mode = 0 ∧ (∃ pa, r.reach c 0 .load 0 1 1 = .ok pa) ∧
      ∃ x, r.counter c ((r.cap c.mi).w.val.toNat % 2 ^ 32) = .ok x)
    (fun r c s => match r.counter c ((r.cap c.mi).w.val.toNat % 2 ^ 32) with
      | .ok ctr => intoCopy s c r.f (.btfence (r.handle c 0).2.vpage.toNat (r.handle c 0).2.size' ctr none) [] []
      | .error _ => s)

/-- R272..R274, R277, R279 and R281: a combine, job or host-ring routine whose checks pass joins its core's queue. -/
def Obligations.CombineAndJobRoutinesJoinTheirQueues : Prop := ∀ f : RForm,
  NativelyInTurn (.cbreg f) (fun r c w => ∃ x, cbregCheck r c w = .ok x)
    (fun r c s => match cbregCheck r c s with
      | .ok (t, l, d, b, x) => intoComb t c (.reg f.x.toNat l d b x)
      | .error _ => s) ∧
  NativelyInTurn (.cbput f)
    (fun r c w =>
      let k := r.cap c.mi
      putMatch w c.h.part k.y.val k.z.val = .drop ∨
        (∃ t j, putMatch w c.h.part k.y.val k.z.val = .fill t j) ∧ putQueued w k.y.val k.z.val = false)
    (fun r c s => intoComb s c (.put (r.cap c.mi).y.val (r.cap c.mi).z.val (r.vin c 0))) ∧
  NativelyInTurn (.cbstat f) (fun r c _ => (r.cap c.mi).y.val.toNat ≤ 4)
    (fun r c s => intoComb s c (.stat f.x.toNat (r.cap c.mi).y.val.toNat (r.cap c.mi).z.val)) ∧
  NativelyInTurn (.jexp f) (fun r c w => ∃ x, jobCheck r c w false = .ok x)
    (fun r c s => match jobCheck r c s false with
      | .ok (t, pa, fin) => intoJob t c (.jexp pa fin (r.cap c.mi).z.val.toNat (r.cap c.mi).w)
      | .error _ => s) ∧
  NativelyInTurn (.jdone f) (fun r c w => ∃ x, jobCheck r c w true = .ok x)
    (fun r c s => match jobCheck r c s true with
      | .ok (t, pa, fin) => intoJob t c (.jdone pa fin (r.cap c.mi).z.val.toNat (r.cap c.mi).w)
      | .error _ => s) ∧
  NativelyInTurn (.ringadv f) (fun r c w => ∃ x, ringCheck r c w = .ok x)
    (fun r c s => match ringCheck r c s with
      | .ok (t, pa, pidx) =>
        intoJob t c (.ringadv pa pidx { (r.cap c.mi).z with val := (r.cap c.mi).z.val &&& 0xFFFFFFFF }
          ((r.cap c.mi).w.val.getLsbD 0))
      | .error _ => s)

end
/-! ### Events: the engines (R229, R244, R263, R266, R268..R270, R274..R277, R279, R281) -/

namespace Sys2Proof.Claims

/-- The core's next queue of each kind. -/
def withLoads (s : State) (core : Nat) (q : List MatCmd) : State := s.setCore core { s.core core with loadQ := q }
def withArrays (s : State) (core : Nat) (q : List MatCmd) : State := s.setCore core { s.core core with arrayQ := q }

/-- An accumulator of a core gets new contents. -/
def withAcc (s : State) (core a : Nat) (x : Acc) : State := s.setCore core ((s.core core).setAcc a x)

/-- A register result that an engine delivers to member `mi`: it lands at once, and its flags reach FPSTAT. -/
def delivered (s : State) (hc mi : Nat) (r : Res) (fl : FFlags) : State :=
  s.modHc hc fun h => h.modMember mi fun m => { m.force h.vcc r with fpstat := m.fpstat ||| fl }

/-- The same without flags. -/
def given (s : State) (hc mi : Nat) (r : Res) : State := s.modHc hc fun h => h.modMember mi fun m => m.force h.vcc r

/-- The poison that a job command wrote to host memory at the fields `offs` of its block `pa` is consumed: that of the amount
and that of the words it merged with (R194, R421, R423). -/
def eaten (s : State) (hc mi : Nat) (u : State) (w : Who) (pa : Nat) (offs : List Nat) (t : Tag) : State :=
  let all := mergeTags (t :: offs.map fun o => rawTag u w ((pa + o) / 8 * 8))
  if isHostPa pa then s.modMember hc mi fun m => { m with cir := cirConsume m.cir all } else s

/-- The copy engine's queue without its head. -/
def withCopies (s : State) (e : Nat) (q : List CopyCmd) : State := { s with copyQ := aset s.copyQ e q }
def withCombs (s : State) (core : Nat) (q : List CombCmd) : State := s.setCore core { s.core core with combQ := q }
def withJobs (s : State) (core : Nat) (q : List JobCmd) : State := s.setCore core { s.core core with jobQ := q }

/-- The tile that a load brings: its blocks, the slot's role and width, and the second half of a BFP16 pair. -/
def loadedCore (c : Core) (o : Nat) (role : BitVec 2) (w : Nat) (blocks : List (List Byte × Tag)) : Core :=
  let c := c.putBlocks o w blocks
  let c := c.setOslot o { c.oslot o with role := role, m := BitVec.ofNat 5 w }
  if w = 16 then c.setOslot (o + 1) { c.oslot (o + 1) with role := 3 } else c

/-- The 32-bit sum that RINGADV writes, and whether it sends the interrupt (R281). -/
def ringSum (u : State) (w : Who) (pa : Nat) (n : SReg) : Nat := ((view32 u w (pa + 8)).toNat + n.val.toNat) % 2 ^ 32
def ringWritten (u : State) (w : Who) (pa pidx : Nat) (n : SReg) : State :=
  writeImm (putField u w (pa + 8) 4 (ringSum u w pa n) n.tag) w pidx (bytesOf 4 (ringSum u w pa n)) (ringTag u w pa n)

/-- The poison that a RINGADV wrote to host memory, at the index and in its block, is consumed (R421). -/
def ringEaten (s : State) (hc mi : Nat) (u : State) (w : Who) (pa pidx : Nat) (n : SReg) (flush : Bool) : State :=
  let t := ringTag u w pa n
  let s := if isHostPa pidx then s.modMember hc mi fun m => { m with cir := cirConsume m.cir t } else s
  eaten s hc mi u w pa (ringFields u w pa n flush) t

/-- The command at the head of a core's combine queue waits: nothing changes. -/
def combineWaits (s : State) (core : Nat) : Prop :=
  ∃ t, exec (.combineQueuePerform core) s = .next t ∧ (∀ k, t.core k = s.core k) ∧ t.hctxs = s.hctxs ∧ t.dies = s.dies ∧
    t.parts = s.parts ∧ t.mem = s.mem ∧ t.memTag = s.memTag

/-- The rows of a complete token written as words, then their tags by row (R275). -/
def rowsWritten (s : State) (t : Token) : State :=
  let at' (off : Nat) : Nat := granAddr t.dest (recDest t.fields) off
  let s' := (List.range (recS t.fields)).foldl (fun s' g =>
    (t.row g).lanes.zipIdx.foldl (fun s' (x, j) =>
      writeNow s' (tokenWho s t) (at' (1024 * g + 4 * j)) (bytesOf 4 x.toNat) none) s') s
  (List.range (recS t.fields)).foldl (fun s' g =>
    (List.range 128).foldl (fun s' j =>
      if sendable s' t.part (at' (1024 * g + 8 * j)) then setMemTag s' (at' (1024 * g + 8 * j)) (t.row g).tag else s') s') s'

end Sys2Proof.Claims

section
open Sys2Proof.Claims

/-- R229, R236..R241 and R244: a matrix queue or the function queue performs its head command: a tile is loaded, an accumulator
zeroed, multiplied, normalised, stored or read, or a vector register written, and the command leaves the queue. Poison that a
store writes to host memory is consumed (R421). -/
def Obligations.MatrixAndFunctionQueuesPerformTheirHead : Prop := ∀ (s : State) (core : Nat),
  (∀ hc mi o role w blocks fl rest, (s.core core).loadQ = ⟨hc, mi, .load o role w blocks fl⟩ :: rest →
    exec (.matrixQueuePerform core true) s =
      .next (withLoads (landFlags (s.setCore core (loadedCore (s.core core) o role w blocks)) hc mi fl) core rest)) ∧
  (∀ hc mi a fmt outs fe q rest h u, (s.core core).loadQ = ⟨hc, mi, .asto a fmt outs fe q⟩ :: rest → s.hc? hc = some h →
    let us := outs.map fun x => (x.1, astoUnit fmt ((s.core core).acc a).dense x.2)
    let os : List OutElem := us.map fun x => ⟨x.1, x.2.1, x.2.2.1, fe⟩
    writeOut s (h.who s) os = some u →
    exec (.matrixQueuePerform core true) s =
      .next (withLoads (landFlags (consumeCir u hc mi (hostTag os)) hc mi (us.foldl (fun f x => f ||| x.2.2.2) 0)) core rest)) ∧
  (∀ hc mi a rest, (s.core core).arrayQ = ⟨hc, mi, .azero a⟩ :: rest →
    exec (.matrixQueuePerform core false) s =
      .next (withArrays (withAcc s core a { (s.core core).acc a with zero := true, elems := [] }) core rest)) ∧
  (∀ hc mi a oa ob g16 rest, (s.core core).arrayQ = ⟨hc, mi, .mma a oa ob g16⟩ :: rest →
    let c := s.core core
    let r := mmaTiles (c.acc a).dense g16 (c.oslot oa).m.toNat (c.oslot ob).m.toNat (c.blocks oa) (c.blocks ob)
    let u := withAcc s core a ((c.acc a).ofDense r.1)
    exec (.matrixQueuePerform core false) s =
      .next (withArrays (if r.2 = true then u.modMember hc mi (fun m => { m with cir := m.cir ||| 2 }) else u) core rest)) ∧
  (∀ hc mi a g16 rest, (s.core core).arrayQ = ⟨hc, mi, .anorm a g16⟩ :: rest →
    exec (.matrixQueuePerform core false) s =
      .next (withArrays (withAcc s core a
        (((s.core core).acc a).ofDense (((s.core core).acc a).dense.map (·.norm g16)))) core rest)) ∧
  (∀ hc mi vd a row mode mask t rest, (s.core core).arrayQ = ⟨hc, mi, .arow vd a row mode mask t⟩ :: rest →
    let x := ((s.core core).acc a).dense
    exec (.matrixQueuePerform core false) s =
      .next (withArrays (delivered s hc mi (.v vd mask (arowLanes x row mode t).1 (arowLanes x row mode t).2.1)
        (arowFlags x row mode mask)) core rest)) ∧
  (∀ (x : FnCmd) rest, (s.core core).fnQ = x :: rest →
    exec (.functionQueuePerform core) s =
      .next (delivered (s.setCore core { s.core core with fnQ := rest }) x.hc x.mem (.v x.vd x.mask x.lanes x.tag) x.flags))

/-- R263, R107, R266 and R268..R270: a copy engine performs its head command, frees its scoreboard entries and posts its
counter; a slice admits the next contribution of a round and adds its elements. A copy and a swap consume the poison that they
write to host memory (R421). A swap whose request is lost swaps nothing: R340 and R342 name no swap, and this is the model's choice
(assumption log 20). A fence has every stream register drop its page's entries, and is complete once no access through one is
still to be performed (R222); which commands of other engines it waits for is the model's choice (log 24). -/
def Obligations.CopyEnginesAndSlicesPerformTheirHead : Prop := ∀ (s : State) (e : Nat) (x : CopyCmd) (rest : List CopyCmd),
  (s.copyCmds e = x :: rest →
    let w := ownerWho s x.part x.node x.hc
    (∀ moves mode ctr y, x.op = .cpy moves mode ctr →
      copyRun w mode (moves.drop x.done) x.wait ⟨s, x.done, x.beat, x.eaten, false⟩ = y → y.all = true →
      exec (.copyQueuePerform e) s = .next (postCtr
        (consumeAt (clearScores (withCopies y.s e rest) x.id) x.hc x.mem x.part x.node y.eaten) w ctr)) ∧
    (∀ group sid moves float ctr u, x.op = .cpyred group sid moves float ctr →
      sendRed s x group sid moves float ctr = some u →
      exec (.copyQueuePerform e) s = .next (clearScores (withCopies u e rest) x.id)) ∧
    (∀ k words, x.op = .tstload k words →
      exec (.copyQueuePerform e) s = .next (withCopies (loadSlots s k words) e rest)) ∧
    (∀ sd pa old new id, x.op = .btswap sd pa old new → x.hc = some id →
      let u := beginImm s w (.mem pa)
      let v := locWord u w (.mem pa)
      let u := arrive u w pa 8
      let z := swapWake (writeImm u w pa (bytesOf 8 new.val.toNat) (mergeTag v.tag new.tag)) pa
      let z := if isHostPa pa then consumeAt z x.hc x.mem x.part x.node (mergeTag v.tag new.tag) else z
      exec (.copyQueuePerform e) s = .next (withCopies (given
        (if sendable u w.part pa = false then loseImm u w (.mem pa) else if v.val = old then z else u)
        id x.mem (.s sd v.val v.tag)) e rest)) ∧
    (∀ page size ctr drops, x.op = .btfence page size ctr drops → (∀ r ∈ s.reds, ¬ (r.hc = x.hc ∧ r.mem = x.mem)) →
      let bound := drops.getD s.nextCmd
      let y := if drops.isSome then (s, !entryInUse s x.part page size (some e) x.id bound)
        else fenceEntries s x.part page size (some e) x.id bound
      exec (.copyQueuePerform e) s = .next (if y.2 = true then postCtr (withCopies y.1 e rest) w ctr
        else withCopies y.1 e ({ x with op := .btfence page size ctr (some bound) } :: rest)))) ∧
  (∀ part page size eng mine bound id h (m : Member) (q : Strm),
    (fenceEntries s part page size eng mine bound).1.hc? id = some h → h.part = part → m ∈ h.members → q ∈ m.q →
    ∀ a ∈ q.bte, ¬ (page ≤ a.1 ∧ a.1 < page + size)) ∧
  (∀ k part group sid (c : Contribution), ((s.slice k).round part group)[((s.slice k).find part group).pos]? = some sid →
    ((s.slice k).find part group).waiting.find? (·.sid == sid) = some c →
    let r := (s.slice k).find part group
    let n := ((s.slice k).round part group).length
    let u := s.setSlice k ((s.slice k).put { r with pos := (r.pos + 1) % n, waiting := r.waiting.erase c })
    let w := ownerWho u c.part c.node c.hc
    let poison := mergeTags (c.items.map fun x =>
      if isHostPa x.1 then mergeTag (rawTag u w (x.1 / 8 * 8)) x.2.2 else none)
    exec (.cpyredAdmit k part group) s = .next (switchGroup
      (redLess (consumeAt (c.items.foldl (addItem w c.float) u) c.hc c.mem c.part c.node poison) c.cmd false) k part group))

/-- R273..R277: the combine unit performs a core's head command: it registers a token and returns its slot ID, accepts a row or
counts a dropped one, or returns a statistic, 0 under DETERM; a registration that finds no slot, and a row that finds no staging
row, wait and change nothing. A registration also waits for those of its bundle that enter before it; that the registrations of
one bundle on several cores take their slots in that order is the model's choice (assumption log 27). A complete token is released,
its status telling of a failed port, and one whose ticks have passed is completed with substitutes. -/
def Obligations.CombineUnitPerformsItsCommands : Prop := ∀ (s : State),
  (∀ core hc mi num v h rest, s.hc? hc = some h →
    let u := withCombs s core rest
    (∀ sd l d f r t id, (s.core core).combQ = ⟨hc, mi, num, v, .reg sd l d f r⟩ :: rest →
      regAhead u ⟨hc, mi, num, v, .reg sd l d f r⟩ = false → register u h hc mi (core / 144) l d f r = some (t, id) →
      exec (.combineQueuePerform core) s = .next (given t hc mi (.s sd id none))) ∧
    (∀ sd l d f r, (s.core core).combQ = ⟨hc, mi, num, v, .reg sd l d f r⟩ :: rest →
      (regAhead u ⟨hc, mi, num, v, .reg sd l d f r⟩ = true ∨ register u h hc mi (core / 144) l d f r = none) →
      combineWaits s core) ∧
    (∀ id sel row t j y, (s.core core).combQ = ⟨hc, mi, num, v, .put id sel row⟩ :: rest →
      putMatch (markIrrev u (h.who u)) h.part id sel = .fill t j →
      acceptRow t (selSeg sel) j (stagingLeft (markIrrev u (h.who u)) h.part (idDie id) []) row = some y →
      exec (.combineQueuePerform core) s = .next ((markIrrev u (h.who u)).modComb (idDie id) fun x =>
        { x with tokens := aset x.tokens (idIndex id) y })) ∧
    (∀ id sel row t j, (s.core core).combQ = ⟨hc, mi, num, v, .put id sel row⟩ :: rest →
      putMatch (markIrrev u (h.who u)) h.part id sel = .fill t j →
      acceptRow t (selSeg sel) j (stagingLeft (markIrrev u (h.who u)) h.part (idDie id) []) row = none →
      combineWaits s core) ∧
    (∀ id sel row, (s.core core).combQ = ⟨hc, mi, num, v, .put id sel row⟩ :: rest →
      putMatch (markIrrev u (h.who u)) h.part id sel = .drop →
      exec (.combineQueuePerform core) s = .next ((markIrrev u (h.who u)).modPart h.part fun p =>
        { p with lateDrops := lset p.lateDrops (idDie id) (p.lateDrops.getD (idDie id) 0 + 1) })) ∧
    (∀ sd sel id, (s.core core).combQ = ⟨hc, mi, num, v, .stat sd sel id⟩ :: rest →
      exec (.combineQueuePerform core) s = .next (given u hc mi
        (.s sd (if h.determ u = true then 0 else statValue u h.part (core / 144) sel id) none)))) ∧
  (∀ d i (t : Token), aget (s.comb d).tokens i = some t → t.mayRelease (s.comb d) = true →
    let at' (off : Nat) : Nat := granAddr t.dest (recDest t.fields) off
    let lost := (List.range (recS t.fields * 256 + 2)).any fun j => portFailed (rowsWritten s t) (at' (4 * j))
    exec (.tokenRelease d i) s = .next ((counterAdd
      (writeNow (rowsWritten s t) (tokenWho s t) (at' (1024 * recS t.fields))
        (bytesOf 8 (t.status ||| if lost then 4 else 0)) none)
      (tokenWho s t) t.rctr (BitVec.ofNat 32 (recRadd t.fields)) none).modComb d fun u =>
        { u with tokens := adel u.tokens i })) ∧
  (∀ d i (t : Token), aget (s.comb d).tokens i = some t → t.complete = false → recTimeout t.fields ≠ 0 →
    let x := (List.range (recS t.fields)).foldl (fun x g =>
      (List.range (recK t.fields)).foldl (fun x j => substitute x g j) x) (s, t)
    exec (.combineTimeout d i) s = .next (setCirAt
      (x.1.modComb d fun u => { u with tokens := aset u.tokens i { x.2 with complete := true } })
      (some t.hc) t.mem t.part t.node 4))

/-- R279 and R281: JEXP raises a job's expected count and JDONE its done count; the last open producer's JDONE closes the job,
sets its finished bit and raises the finish counter. RINGADV publishes the new index and sends the vector's message, or starts
its timer; at the timer's end the message is sent and LASTIRQ set. Poison written to host memory is consumed (R421). A command
whose request to its block is lost does nothing but be counted: R340 and R342 name stores, atomics and adds, and that a whole
command counts as one is the model's choice (assumption log 20). -/
def Obligations.JobAndRingCommandsUpdateTheirBlocks : Prop := ∀ (s : State) (core : Nat) hc mi slot (h : HerdCtx) rest,
  s.hc? hc = some h →
  let u := withJobs s core rest
  let w := h.who u
  (∀ pa fin p n, (s.core core).jobQ = ⟨hc, mi, slot, .jexp pa fin p n⟩ :: rest → sendable u w.part pa = true → p < 64 →
    (view64 u w (pa + 16)).toNat.testBit p = true →
    exec (.jobQueuePerform core) s =
      .next (eaten (putField u w pa 8 (((view64 u w pa).toNat + n.val.toNat % 2 ^ 32) % 2 ^ 64) n.tag) hc mi u w pa [8] n.tag)) ∧
  (∀ pa fin p n, (s.core core).jobQ = ⟨hc, mi, slot, .jdone pa fin p n⟩ :: rest → sendable u w.part pa = true → p < 64 →
    (view64 u w (pa + 16)).toNat.testBit p = true →
    let d := ((view64 u w (pa + 8)).toNat + n.val.toNat % 2 ^ 32) % 2 ^ 64
    let opn := (view64 u w (pa + 16)).toNat
    let v := putField (putField u w (pa + 8) 8 d n.tag) w (pa + 16) 8 (opn - 2 ^ p) none
    (opn ≠ 2 ^ p → exec (.jobQueuePerform core) s = .next (eaten v hc mi u w pa [8, 16] n.tag)) ∧
    (opn = 2 ^ p → d = (view64 u w pa).toNat → exec (.jobQueuePerform core) s = .next
      (eaten (counterAdd (putField v w (pa + 36) 4 (view32 v w (pa + 36) ||| 1).toNat none) w fin (view32 v w (pa + 32)) none)
        hc mi u w pa [8, 16, 36] n.tag))) ∧
  (∀ pa pidx n flush, (s.core core).jobQ = ⟨hc, mi, slot, .ringadv pa pidx n flush⟩ :: rest →
    sendable u w.part pa = true →
    let v := ringWritten u w pa pidx n
    let p := ringSum u w pa n
    let last := (view32 v w (pa + 12)).toNat
    let count := natOf (viewBytes v w (pa + 16) 2)
    let time := natOf (viewBytes v w (pa + 18) 2)
    let vec := natOf (viewBytes v w (pa + 20) 2)
    let due := (0 < count ∧ count ≤ (p + 2 ^ 32 - last) % 2 ^ 32) ∨ (flush = true ∧ p ≠ last)
    (due → exec (.jobQueuePerform core) s =
      .next (ringEaten (let t := putField (sendMsix v vec) w (pa + 12) 4 p none
        { t with timers := adel t.timers vec }) hc mi u w pa pidx n flush)) ∧
    (¬ due → p ≠ last → aget v.timers vec = none → 0 < time →
      exec (.jobQueuePerform core) s = .next (ringEaten { v with timers := aset v.timers vec ⟨pa⟩ } hc mi u w pa pidx n flush)) ∧
    (¬ due → p = last ∨ aget v.timers vec ≠ none ∨ time = 0 →
      exec (.jobQueuePerform core) s = .next (ringEaten v hc mi u w pa pidx n flush))) ∧
  (∀ op pa, (s.core core).jobQ = ⟨hc, mi, slot, op⟩ :: rest → op.block = pa → sendable u w.part pa = false → isHostPa pa = false →
    (∀ pidx n fl, op = .ringadv pa pidx n fl → isHostPa pidx = false) →
    exec (.jobQueuePerform core) s = .next (loseImm u w (.mem pa))) ∧
  (∀ vec t, aget s.timers vec = some t →
    let v := sendMsix { s with timers := adel s.timers vec } vec
    exec (.ringTimerExpiry vec) s =
      .next (putFw v 0 (t.rcb + 12) (bytesOf 4 (natOf (Memory.getBytes v.mem (t.rcb + 8) 4)))))

end
/-! ### Events: herd-contexts (R60, R81..R90, R201, R214..R216, R313, R316, R367, R426) -/

namespace Sys2Proof.Claims

/-- A member once its oldest late result has landed. -/
def lateLanded (s : State) (id : Nat) (h : HerdCtx) (m : Member) : Member :=
  match oldestLate s id h m with | some p => m.land p | none => m

/-- A herd-context whose save begins: SAVED with its slot still occupied, its results in flight in snapshot entries. -/
def savingFrom (h : HerdCtx) : HerdCtx :=
  { h with
    hstate := .saved, saving := true, stop := none, wait := none, restoreWait := h.wait, feTries := 0,
    members := h.members.map fun m =>
      { m with inflight := m.inflight.map fun p => { p with landed := true }, consume := none } }

/-- The herd-context that `best` names has been chosen among `cands` on a frame `fr`: the others have been passed over once
more, and the sixteenth time raises their effective priority to 7. -/
def selected (s : State) (fr cands : List (Nat × HerdCtx)) (id : Nat) (h : HerdCtx) : State :=
  let s1 := cands.foldl (fun s x => if x.1 = id then s
    else s.setHc x.1 { x.2 with passes := x.2.passes + 1, ep := if x.2.passes + 1 = 16 then 7 else x.2.ep }) s
  let s2 := fr.foldl (fun s x => s.modHc x.1 fun g => { g with yielded := false }) s1
  s2.setHc id { h with hstate := .running, ep := h.prio s2, passes := 0, lastRun := s2.clk + 1, yielded := false }

/-- A stream register as a save keeps it: nothing read ahead (R216). -/
def withoutAhead (m : Member) : Member := { m with q := m.q.map fun x => { x with ahead := [], bte := [], met := none } }

/-- A restored member: its snapshot entries are written, and its handles are cleared when the epoch has changed (R88). -/
def restoredMember (stale : Bool) (m : Member) : Member :=
  let m := m.writeSnapshot
  if stale then { m with h := m.h.map Handle.clear } else m

end Sys2Proof.Claims

section
open Sys2Proof.Claims

/-- R60, R81, R82, R85, R90, R92 and R316: a late result lands, unless its herd-context stands, a missing overlay is loaded, an engine
wait that is over makes its herd-context READY unless one that waits for the same counter stands before it and can go on, and an idle
frame's selector runs the best READY herd-context and ages the others. -/
def Sys2Proof.Claims.HerdContextsGoOnBetweenBundles : Prop := ∀ (s : State) (id : Nat) (h : HerdCtx),
  ((landAll s id).hc? id = some h → h.stands = false → exec (.lateResultLand id) s =
    .next ((landAll s id).setHc id { h with members := h.members.map (lateLanded (landAll s id) id h) })) ∧
  (s.hc? id = some h → h.stands = true → exec (.lateResultLand id) s = .next s) ∧
  (∀ o, s.hc? id = some h → h.overlay s = some o → (s.core h.leadCore).overlays.contains o = false →
    let c := s.core h.leadCore
    let keep := (coreUsers s h.leadCore).filterMap fun x => x.2.overlay s
    exec (.overlayLoad id) s = .next (s.setCore h.leadCore
      { c with overlays := o :: (if c.overlays.length < 12 then c.overlays else dropLast keep c.overlays) })) ∧
  (s.hc? id = some h → h.hstate = .blocked → waitsBehind s id h = false → wouldBlock s id = false →
    exec (.engineWaitEnd id) s = .next (s.setHc id { h with hstate := .ready, wait := none })) ∧
  (∀ lead,
    let fr := frameOf s lead
    let ready := fr.filter fun x => x.2.hstate == .ready && x.2.stop != some .forced
    let fresh := ready.filter fun x => !x.2.yielded
    let cands := if fresh.isEmpty then ready else fresh
    (∀ x ∈ fr, x.2.hstate ≠ .running) → pickBest cands = some (id, h) →
    exec (.contextSelect lead) s = .next (selected s fr cands id h))

/-- R316: the selector's choice beats every other candidate, or is that candidate: it has the highest effective priority, among
equals the one that ran longest ago, then the one placed first. -/
def Sys2Proof.Claims.SelectorPicksTheHighestPriority : Prop := ∀ (l : List (Nat × HerdCtx)) (x : Nat × HerdCtx),
  pickBest l = some x → x ∈ l ∧ ∀ y ∈ l, y.2.ep ≤ x.2.ep ∧
    (y.2.ep = x.2.ep → x.2.lastRun ≤ y.2.lastRun ∧ (y.2.lastRun = x.2.lastRun → x.2.placed ≤ y.2.placed))

/-- R60, R81, R82, R90 and R316: what happens to a herd-context between bundles, and whom the selector chooses. -/
def Obligations.ContextsGoOnAndTheSelectorChooses : Prop :=
  Sys2Proof.Claims.HerdContextsGoOnBetweenBundles ∧ Sys2Proof.Claims.SelectorPicksTheHighestPriority

/-- R201, R214, R215 and R216: a RUNNING herd-context that retries issues its bundle again within its budget and beyond it; a
stream's generator reads one element ahead, unless its herd-context is saved, and writes the oldest element pushed, a full/empty word
with both of its elements. -/
def Obligations.RetriesAndStreamsProceed : Prop := ∀ (s : State) (id : Nat) (h : HerdCtx), s.hc? id = some h →
  (∀ b, h.hstate = .running → 0 < h.feTries → h.feTries < h.feBudget.toNat → bundleAtPc s h = some b →
    exec (.feRetryAttempt id) s = .next (issueBundle s id b)) ∧
  (∀ b, h.hstate = .running → 0 < h.feTries → h.feBudget.toNat ≤ h.feTries → bundleAtPc s h = some b →
    exec (.feBudget id) s = .next (issueBundle s id b)) ∧
  (∀ mi qn (m : Member) (rc : StrmRec) e t q d tag, h.members[mi]? = some m → (m.strm qn).recd = some rc →
    rc.dirOut = false → rc.fem = 0 → h.hstate ≠ .saved → nextAhead (m.strm qn) rc = some e →
    elemPaused s ⟨h.who s, m.core, (m.strm qn).sys⟩ rc e = false →
    fetchElem s ⟨h.who s, m.core, (m.strm qn).sys⟩ (m.strm qn) rc e = .ok (t, q, d, tag) →
    exec (.streamReadAhead id mi qn) s = .next (t.modMember id mi fun m =>
      m.setStrm qn { q with ahead := aset q.ahead (if rc.wrap = true then e % rc.total else e) (d, tag) })) ∧
  (∀ mi qn (m : Member) (x : OutElem) rest t, h.members[mi]? = some m → (m.strm qn).out = x :: rest →
    writeOut s (h.who s) (x :: rest.takeWhile x.joins) = some t →
    exec (.streamOutputWrite id mi qn) s = .next (t.modMember id mi fun m =>
      m.setStrm qn { m.strm qn with out := rest.dropWhile x.joins }))

/-- R85, R86 and R313: a herd-context asked to pre-empt is saved at its next drain point; after 65,536 virtual cycles, or when it
blocks or parks, the stop is forced; a forced stop saves it at the bundle that it would issue next, unless what stands there
traps (an undecodable word, a fetch fault, or a check that fails once what is late has landed), when it takes the trap. One that
is PARKED is saved as it stands, and one that is FROZEN is left as it stands. -/
def Obligations.StopsSaveTheHerdContext : Prop := ∀ (s : State) (id : Nat) (h : HerdCtx),
  (∀ v, (landAll s id).hc? id = some h → h.stop = some (.preempt v) → h.hstate = .running →
    atDrainPoint (landAll s id) id h = true →
    exec (.drainPointStop id) s = .next ((landAll s id).setHc id (savingFrom h))) ∧
  ((landAll s id).hc? id = some h → h.stop = some .forced → (h.hstate = .ready ∨ h.hstate = .blocked) →
    exec (.forcedStop id) s = .next ((landAll s id).setHc id (savingFrom h))) ∧
  ((landAll s id).hc? id = some h → h.hstate = .frozen → exec (.forcedStop id) s = .next s) ∧
  (∀ g, s.hc? id = some g → (landAll s id).hc? id = some h → h.stop = some .forced → h.hstate = .parked →
    g.stop = some .forced → g.hstate = .parked →
    exec (.forcedStop id) s = .next (s.setHc id (savingFrom g))) ∧
  ((landAll s id).hc? id = some h → h.stop = some .forced → h.hstate = .running →
    let t := landAll s id
    let late := h.members.any fun m => (oldestLate t id h m).isSome
    (wouldTrap t id = false → late = false → nativeNext t id h = false →
      exec (.forcedStop id) s = .next (t.setHc id (savingFrom h))) ∧
    (wouldTrap t id = false → late = true → wouldTrap (settle t id) id = false →
      exec (.forcedStop id) s = .next (t.setHc id (savingFrom h))) ∧
    (wouldTrap t id = false → late = true → wouldTrap (settle t id) id = true →
      exec (.forcedStop id) s = .next (landLate t id)) ∧
    (∀ b, wouldTrap t id = true → bundleAtPc t h = some b →
      exec (.forcedStop id) s = .next (issueBundle t id b)) ∧
    (wouldTrap t id = true → exec (.forcedStop id) s = .next (fetchNext t id h))) ∧
  (∀ v, s.hc? id = some h → h.stop = some (.preempt v) →
    (v + 65536 ≤ h.vcc ∨ h.hstate = .blocked ∨ h.hstate = .parked) →
    exec (.preemptStopTimeout id) s = .next (s.setHc id { h with stop := some .forced }))

/-- R86..R89, R189 and R228: once its commands have completed, a save keeps the claimed tiles and frees the slot, and the
herd-context waits to be restored; a restore gives the tiles back, writes the snapshot entries, and clears every handle when the
epoch has changed; a RETIRING herd-context becomes DONE. -/
def Obligations.SavesRestoresAndRetires : Prop := ∀ (s : State) (id : Nat) (h : HerdCtx), s.hc? id = some h →
  (∀ t g, h.hstate = .saved → h.saving = true → drainBusy s id h = false → flushStreams s id = some t →
    t.hc? id = some g → g.noRestore = false →
    ∃ u x, exec (.contextSaveDone id) s = .next u ∧ u.hc? id = some x ∧ x.hstate = g.hstate ∧ x.saving = false ∧
      x.savedSlots = savedOslots t g ∧ x.savedAccs = savedAccums t g ∧ x.members = g.members.map withoutAhead ∧
      u.part? g.part = (t.part? g.part).map (fun p => { p with restore := p.restore ++ [id] }) ∧
      ∀ m ∈ g.members, ∀ o, ((u.core m.core).oslot o).cl = true →
        ((u.core m.core).oslot o).owner ≠ g.slot ∧ ((t.core m.core).oslot o).cl = true) ∧
  (canRestore s id h = true →
    ∃ u x, exec (.contextRestore id) s = .next u ∧ u.hc? id = some x ∧ x.hstate = .ready ∧
      x.members = h.members.map (restoredMember (((s.part? h.part).map (·.epoch)).getD 0 != h.saveEpoch)) ∧
      x.savedSlots = [] ∧ x.savedAccs = [] ∧ x.pc = h.pc ∧ x.vcc = h.vcc ∧ x.links = h.links ∧
      u.part? h.part = (s.part? h.part).map (fun p => { p with restore := p.restore.erase id })) ∧
  (∀ t, h.hstate = .retiring → drainBusy s id h = false → flushStreams s id = some t →
    exec (.herdRetire id) s = .next ((releaseClaims t h).modHc id fun h =>
      { h with hstate := .done, links := [], loops := [], spill := [],
               members := h.members.map fun m => { m with inflight := [] } }))

end
/-! ### Events: nodes (R80, R89, R291, R292, R303, R304, R307, R308, R310, R312, R424) -/

namespace Sys2Proof.Claims

/-- A firing: THRESH advances by STRIDE, or this was the last (R308). -/
def advanced (n : Node) : Node :=
  if n.field 104 8 = 0 ∨ 2 ^ 64 ≤ n.field 96 8 + n.field 104 8 then { n with last := true }
  else n.setField 96 8 (n.field 96 8 + n.field 104 8)

/-- A descriptor as it is written to a FREE node, in a state and with a refusal cause. -/
def written (d : List Byte) (x : NState) (cause : Nat) : Node :=
  { Node.free with desc := descBytes d, state := x, cause := BitVec.ofNat 8 cause }
def putNode (s : State) (part node : Nat) (n : Node) : State :=
  s.modPart part fun p => { p with nodes := aset p.nodes node n }

/-- The instance's work has ended without a failure: the node is in COMMIT and completes. -/
def completes (s : State) (part node : Nat) : State := finishInst (setNState s part node .commit) part node

/-- A node after one pass of R308's loop: an ARMED one is READY, any other owes one firing more. -/
def fired (n : Node) : Node :=
  if n.state = .armed then { advanced n with state := .ready, requeues := 0, rollback := none }
  else { advanced n with owed := if n.owed = BitVec.allOnes 32 then n.owed else n.owed + 1 }

/-- What one firing of a node without a JCB leaves: an ARMED node joins its priority's queue (R308). -/
def afterFiring (s : State) (part node : Nat) (n : Node) : State :=
  let s1 := s.modNode part node fun _ => fired n
  if n.state = .armed then enqueueNode s1 part node n.prio false else s1

/-- An instance of a copy node whose CPY waits for room on its engine. -/
def copyStarted (t : State) (part node : Nat) (n : Node) (l : List Move) (es : List Nat) : State :=
  (startInst t part node n).modInst part node fun i => { i with pend := some (l, es) }

/-- A copy node's CPY with acq and rel in the queue of engine 0 of the partition's lowest cluster (R304). -/
def copySent (u : State) (part node : Nat) (p : Part) (mode : Nat) (l : List Move) (es : List Nat) : State :=
  (enqCopy u (2 * firstCluster p) none 0 part node true (.cpy l mode none) (copyScores l) es).modInst part node
    fun i => { i with pend := none }

/-- The add of a conditional node, and what follows it (R304, R307): none without a counter or a value, a counter that no longer
translates is a fault. -/
def branchAdded (t : State) (part node ctr add : Nat) : State :=
  if add = 0 ∨ ctr = 0 then completes t part node
  else match reach t part true ctr 3 with
    | .ok x => completes (counterAdd x.1 (Who.agent part) x.2 (BitVec.ofNat 32 add) none) part node
    | .error f => nodeFault t part node
        (memTrap f.1 0 (BitVec.ofNat 64 ctr) (memData0 8 false false f.2 false false 3 0) f.2)

/-- The state of a node once an instance has completed (R308). -/
def restingState (n : Node) : NState := if n.owed ≠ 0 then .ready else if n.last = true then .done else .armed

/-- The herds of a node placed on its frames, die by die in increasing order, herd by herd (R78, R312). -/
def placedOn (s : State) (part node : Nat) (n : Node) (im : Image) (per : List (Nat × List Nat)) : State :=
  per.zipIdx.foldl (fun s x => x.1.2.zipIdx.foldl (fun s y => placeHerd s part node n im x.2 y.2 y.1) s) s

/-- A node whose checks pass joins the waiter list of its fire counter, and a counter that has reached THRESH already is seen in
the order of the adds (R307, R308). -/
def armedWith (s : State) (part node : Nat) (d : List Byte) : State :=
  let place := if dfield d 0 1 = 5 then none else firePlace s part d
  let t := putNode s part node { written d .armed 0 with watch := place, joined := s.clk }
  match place with
  | some pa => if dfield d 96 8 ≤ (mem64 t pa).toNat then noteAdd t pa (mem64 t pa).toNat else t
  | none => t

/-- The oldest add to a counter that its nodes have not seen is seen (R308). -/
def seenAdd (s : State) (pa : Nat) : State := { s with adds := s.adds.eraseP fun x => x.1 == pa }

/-- The tag that the CIR of an instance names, when its POISON is set (R424). -/
def blamed (cir : Word) : Option (BitVec 12) := if cir.getLsbD 0 = true then some (cir.extractLsb' 16 12) else none

/-- The place of the record that a tag names. -/
def blamedPlace (s : State) (tag : Option (BitVec 12)) : Option (BitVec 4 × Nat × BitVec 10 × Word) :=
  tag.bind fun t => recordPlace s t

/-- Every herd-context of an instance is DONE. -/
def allDone (s : State) (i : Inst) : Prop := ∀ id ∈ i.hcs, ∀ h, s.hc? id = some h → h.hstate = .done

end Sys2Proof.Claims

section
open Sys2Proof.Claims

/-- R80 and Table 4.5: at the start of a node instance no register carries a poison tag, and handles, streams, loops, links, FPSTAT,
CIR, FEBUDGET, DEFPROFILE, VCC and the snapshot entries are as listed; what the table calls undefined is free. -/
def Obligations.HerdContextsStartAsTheTableSays : Prop :=
  ∀ (part node inst : Nat) (n : Node) (im : Image) (herd dr slot rank lead clk seed : Nat),
  let h := HerdCtx.start part node inst n im herd dr slot rank lead clk seed
  h.loops = [] ∧ h.idx = List.replicate 6 0 ∧ h.links = [] ∧ h.spill = [] ∧ h.frames = [] ∧ h.rb = none ∧ h.feBudget = 64 ∧
  h.defProfile = im.defProfile ∧ h.vcc = 0 ∧ h.pc = im.base + BitVec.ofNat 64 (n.field 16 8) ∧
  h.jpos = (dr * fpNherd n.footprint + herd) * fpCtxn n.footprint + rank ∧
  h.members.length = fpHsize n.footprint ∧
  ∀ m ∈ h.members, m.fpstat = 0 ∧ m.cir = 0 ∧ m.args = [] ∧ m.inflight = [] ∧ m.sreg 0 = ⟨0, none⟩ ∧
    (∀ k, (m.sreg k).tag = none) ∧ (∀ k, (m.vreg k).tag = none) ∧
    (∀ k, k < 16 → m.h[k]? = some Handle.none ∧ (m.strm k).recd = none ∧ (m.strm k).pos = 0)

/-- R303 and R307: a nonzero KIND written to a FREE descriptor arms the node, or refuses it with the first cause that applies; a
write of 0 frees a node that is ARMED, DONE or REFUSED and drops the regenerations it owes, and waits for the instance in READY,
RUNNING and COMMIT; the runtime releases a HALTED node, with the last one the partition, or the partition. -/
def Obligations.DescriptorsArmAndDisarm : Prop := ∀ (s : State) (part node : Nat) (p : Part), s.part? part = some p →
  (∀ d, (p.node node).state = .free → node < 4096 →
    (dfield (descBytes d) 0 1 = 0 →
      exec (.descriptorArm part node d) s = .next (putNode s part node (written d .free 0))) ∧
    (dfield (descBytes d) 0 1 ≠ 0 → refusal s part p (descBytes d) = none →
      exec (.descriptorArm part node d) s = .next (armedWith s part node (descBytes d))) ∧
    (∀ c, dfield (descBytes d) 0 1 ≠ 0 → refusal s part p (descBytes d) = some c →
      exec (.descriptorArm part node d) s =
        .next (raiseEvent (failRegens (putNode s part node (written d .refused c)) part node) part))) ∧
  (∀ n, s.node? part node = some n →
    ((n.state = .armed ∨ n.state = .done ∨ n.state = .refused) →
      ∃ t x, exec (.descriptorDisarm part node) s = .next t ∧ t.node? part node = some x ∧ x.state = .free ∧ x.kind = 0 ∧
        x.inst = none ∧ t.mem = s.mem ∧ t.hctxs = s.hctxs ∧
        ∀ q, t.part? part = some q → q.regens = p.regens.filter fun r => r.node != node) ∧
    ((n.state = .ready ∨ n.state = .running ∨ n.state = .commit) →
      exec (.descriptorDisarm part node) s = .next (s.modNode part node fun n => { n with disarm := true })) ∧
    (n.state = .halted →
      exec (.descriptorDisarm part node) s = .next s ∧
      ∃ t x q, exec (.runtimeRelease part (some node)) s = .next t ∧ t.node? part node = some x ∧ x.state = .free ∧
        t.part? part = some q ∧ q.halted = (p.halted && q.nodes.any fun y => y.2.state == .halted))) ∧
  exec (.runtimeRelease part none) s = .next (s.modPart part fun p => { p with halted := false })

/-- R308, R312 and R92: the nodes that watch a counter see its adds in their order, and fire at each in increasing node index; a
waiter before them that could go on goes first, and nodes do not wait for one another. A node without a JCB that watches its counter alone fires while the value is at or
above THRESH: each time THRESH advances, an ARMED node joins its priority's queue, and any other owes one more firing, saturating.
That the sequencer sees the adds in a turn of its own is the model's choice (log 17). -/
def Sys2Proof.Claims.NodesFireAtTheirThreshold : Prop := ∀ (s : State) (part node pa : Nat) (p : Part) (n : Node),
  s.part? part = some p → s.node? part node = some n → p.halted = false → n.watch = some pa →
  let v := fireValue s pa
  ((s.hctxs.all fun (x, h) => !(h.counters.contains pa && couldGo s x h)) = true → firesBehind s pa = false) ∧
  (firesBehind s pa = true → exec (.nodeFire part node) s = .next s) ∧
  (firesBehind s pa = false → exec (.nodeFire part node) s =
    .next ((watchers s pa).foldl (fun s x => fireLoop x.1 x.2 v (firePasses s x.1 x.2 v) s) (seenAdd s pa))) ∧
  (mayFire p n v = true → n.field 128 8 = 0 →
    firePass s part node v = afterFiring s part node n ∧
    (firesBehind s pa = false → watchers s pa = [(part, node)] → mayFire p (fired n) v = false →
      exec (.nodeFire part node) s = .next (afterFiring (seenAdd s pa) part node n)) ∧
    (firesBehind s pa = false → watchers s pa = [(part, node)] → n.desc.length = 224 →
      ∃ t x, exec (.nodeFire part node) s = .next t ∧ t.node? part node = some x ∧ mayFire p x v = false))

/-- R304 and R312: at the head of its queue a counter node completes at once, a conditional node adds ADDT or ADDF by its
condition and completes, and a copy node leaves its queue and enqueues one CPY on engine 0 of its partition's lowest cluster, as
soon as that engine has room and no copy node taken before it still waits. A word behind a failed port or a link that is down
arrives as R340 and R342 say, its word at its place and tag log 20's choice. -/
def Sys2Proof.Claims.NodesWithoutCoresRun : Prop := ∀ (s : State) (part node : Nat) (p : Part) (n : Node),
  s.part? part = some p → s.node? part node = some n →
  (isHead s part node 3 = true →
    exec (.counterNodeRun part node) s = .next (completes (startInst s part node n) part node)) ∧
  (∀ t pa, isHead s part node 4 = true → n.field 144 8 % 8 = 0 →
    reach (startInst s part node n) part true (n.field 144 8) 0 = .ok (t, pa) →
    exec (.conditionalNodeRun part node) s = .next
      (let u := arrive t (Who.agent part) pa 8
      if condHolds (n.field 160 1) (seen64 t (Who.agent part) pa) (BitVec.ofNat 64 (n.field 152 8)) = true then
        branchAdded u part node (n.field 168 8) (n.field 184 4)
      else branchAdded u part node (n.field 176 8) (n.field 188 4))) ∧
  (∀ t l es, isHead s part node 2 = true → nodeMoves s part p n = .ok (t, l, es) →
    let u := copyStarted t part node n l es
    exec (.copyNodeRun part node) s = .next
      (if copyBefore u part node = false ∧ (u.copyCmds (2 * firstCluster p)).length < 64 ∧
          scoresFit u (copyScores l) = true then
        copySent u part node p (n.field 160 1) l es
      else u)) ∧
  (∀ l es, isHead s part node 2 = false → n.inst.bind (·.pend) = some (l, es) → copyBefore s part node = false →
    (s.copyCmds (2 * firstCluster p)).length < 64 → scoresFit s (copyScores l) = true →
    exec (.copyNodeRun part node) s = .next (copySent s part node p (n.field 160 1) l es))

/-- R308 and R307: an instance that has completed raises DONEN by 1 and leaves the node; a firing owed makes it READY again, and
else it is DONE after its last firing and ARMED before. When the mapping of its done counter has been removed, the node halts. -/
def Sys2Proof.Claims.CompletedInstancesLeaveTheirNode : Prop := ∀ (s : State) (part node : Nat) (n : Node),
  s.node? part node = some n →
  let done := reach (setNState s part node .commit) part true (n.field 112 8) 3
  (n.disarm = false → (n.field 128 8 = 0 ∨ n.last = false ∨ n.owed ≠ 0) → (n.field 112 8 = 0 ∨ done.toOption.isSome = true) →
    ∃ x, (completes s part node).node? part node = some x ∧ x.donen = n.donen + 1 ∧ x.inst = none ∧
      x.state = restingState n ∧ x.desc = n.desc ∧ x.last = n.last ∧ x.launch = n.launch ∧
      x.owed = (if n.owed = 0 then 0 else n.owed - 1)) ∧
  (n.field 112 8 ≠ 0 → done.toOption.isSome = false →
    ∃ x, (completes s part node).node? part node = some x ∧ x.state = .halted ∧ x.inst = none ∧ x.donen = n.donen)

/-- R308: a node fires at its threshold, and a completed instance leaves it. -/
def Obligations.NodesFireCompleteAndRest : Prop :=
  Sys2Proof.Claims.NodesFireAtTheirThreshold ∧ Sys2Proof.Claims.CompletedInstancesLeaveTheirNode

/-- R312, R313, R403 and R78: the head kernel or regeneration node takes its frames and a herd-context in each of them starts; when
no frames are free, the shortest prefix of the victims whose saving, with the saves under way, makes room is asked to stop, and a
candidate whose save area no longer translates is noted. -/
def Sys2Proof.Claims.HeadNodesArePlaced : Prop := ∀ (s : State) (part node : Nat) (p : Part) (n : Node) (im : Image),
  s.part? part = some p → queueHead p = some node → s.node? part node = some n → p.halted = false →
  descImage p n.desc = some im →
  (∀ per, n.kind = 1 → findFrames s [] p n = some per →
    exec (.nodePlace part) s = .next (placedOn (startInst s part node n) part node n im per)) ∧
  (∀ per, n.kind = 5 → findFrames s [] p n = some per →
    exec (.nodePlace part) s =
      .next (handRegen (placedOn (startInst s part node n) part node n im per) part node n)) ∧
  ((n.kind = 1 ∨ n.kind = 5) → findFrames s [] p n = none →
    let u := noteUnsavable s part n.prio
    (∀ l, victimPrefix u p n part (victims u part n.prio) = some l →
      exec (.nodePlace part) s = .next (l.foldl (fun s id =>
        if ((s.hc? id).map (·.stop.isNone)).getD false = true then requestStop s id else s) u)) ∧
    (victimPrefix u p n part (victims u part n.prio) = none → exec (.nodePlace part) s = .next u))

/-- R304, R312, R313 and R78: the node at the head of its queue runs, or is placed on frames, or asks its victims to stop. -/
def Obligations.HeadNodesRunOrArePlaced : Prop :=
  Sys2Proof.Claims.NodesWithoutCoresRun ∧ Sys2Proof.Claims.HeadNodesArePlaced

/-- R89, R291, R292, R310, R423 and R424: when every herd-context of an instance is DONE its node enters COMMIT, where it is examined
in a turn of its own, so that a bit which an engine sets until then still counts. With a CIR of 0 the staged writes perform and it
completes. With another, a node that may not be rolled back, or one that meets the same stored tag again, halts; any other is
queued again, and a unit that two roll-backs in a row blame is taken out of use. When all holders of staging records wait, the
youngest revocable one is queued again, or the node halts. -/
def Obligations.InstancesCommitOrFail : Prop := ∀ (s : State) (part node : Nat) (n : Node) (i : Inst),
  s.node? part node = some n → n.inst = some i →
  (n.state = .running → n.kind = 2 → copyNodeDone s part node = true →
    exec (.nodeCommit part node) s = .next (completes s part node)) ∧
  (n.state = .running → n.kind ≠ 2 → allDone s i →
    exec (.nodeCommit part node) s = .next (setNState s part node .commit)) ∧
  (n.state = .commit →
    let tag := blamed (instCir s i)
    (instCir s i = 0 →
      let t := freeRecords (performAll s part i) part i
      exec (.nodeCommit part node) s = .next (finishInst (removeHcs
        (t.modNode part node fun n => { n with inst := some { i with staged := [], stagedTag := [], records := [] } }) i.hcs)
        part node)) ∧
    (instCir s i ≠ 0 → i.irrev = true → exec (.nodeCommit part node) s = .next (haltNode s part node)) ∧
    (∀ r t, instCir s i ≠ 0 → n.rollback = some r → tag = some t → r.tag = some t →
      exec (.nodeCommit part node) s = .next (haltNode s part node)) ∧
    (instCir s i ≠ 0 → i.irrev = false → n.rollback = none →
      exec (.nodeCommit part node) s = .next (requeueInst
        (s.modNode part node fun n => { n with rollback := some ⟨tag, blamedPlace s tag⟩ }) part node id)) ∧
    (∀ r t die unit cls wh, instCir s i ≠ 0 → i.irrev = false → n.rollback = some r → tag = some t → r.tag ≠ some t →
      recordPlace s t = some (cls, die, unit, wh) → r.place = some (cls, die, unit, wh) →
      exec (.nodeCommit part node) s = .next (requeueInst
        (s.modNode part node fun n => { n with rollback := some ⟨tag, blamedPlace s tag⟩ }) part node fun u =>
          takeOut (markLasting u t) (cls, die, unit, wh) (((recordOf s t).map fun x => x.2.2).getD 0)))) ∧
  (∀ p k j l, s.part? part = some p → recordHolders p = (k, j) :: l → (∀ x ∈ (k, j) :: l, x.2.waitStage = true) →
    (∀ y r, ((k, j) :: l).find? (fun x => !x.2.irrev) = some (y, r) →
      exec (.stagingExhausted part) s = .next (requeueInst
        (if ((s.node? part y).map (·.requeues)).getD 0 < 3 then raiseEvent s part else s) part y id)) ∧
    ((∀ x ∈ (k, j) :: l, x.2.irrev = true) → exec (.stagingExhausted part) s = .next (haltNode s part k)))

end
/-! ### Events: firmware (R189, R221, R224, R363, R369, R376..R391) -/

namespace Sys2Proof.Claims

/-- A die's trap queue without its head; the pairs that have not failed start afresh (R429), and the first of them keeps the
point where it stood, which is a free value (R157, log 48). -/
def recordTaken (s : State) (die : Nat) (rest : List TrapRec) : State :=
  enterHandler (s.modDie die fun d =>
    { d with trapQ := rest, pairs := d.pairs.map fun p => { p with mismatches := 0 } }) die

/-- Causes whose record firmware answers by halting the node (Tables 20.6 and 22.2). -/
def halts : List Cause :=
  [.illegalOp, .illegalField, .illegalBundle, .privileged, .routineUnbound, .profileUnknown, .regRange, .loopNest,
   .offsetRange, .misalign, .feNotCapable, .tileState, .engineParam, .combineParam, .jcbClosed]

/-- Causes whose herd-context firmware holds until the runtime answers. -/
def holds : List Cause := [.perm, .userTrap]

/-- Causes whose herd-context waits, FROZEN, for another party's event. -/
def waits : List Cause := [.regen, .blockShared]

/-- A herd-context that is held: its record stands in the fault log and the event counter has risen. -/
def heldWith (s : State) (id : Nat) (h : HerdCtx) (r : TrapRec) : State :=
  raiseEvent (faultLog (s.modHc id fun h => { h with held := true }) h.part r.words) h.part

/-- The word that a record of a full/empty attempt waits for, and the OP of its waiter: a stream pop waits as OP 0x3E does (Table
21.1). -/
def askedWord (r : TrapRec) : Bool × Nat :=
  ((r.trap.data.getD 3 0).getLsbD 63, ((r.trap.data.getD 3 0).extractLsb' 0 58).toNat)
def askedOp (r : TrapRec) : Nat := if r.viaStream = true then 0x3E else ((r.trap.data.headD 0).extractLsb' 0 8).toNat

/-- In `u` the herd-context is PARKED on a word, as a waiter with a number of its own; PF of the word is set (R385). A stop that was
asked for is a forced one from now on (R313). -/
def parksOn (u : State) (id : Nat) (h : HerdCtx) (spad : Bool) (key member op : Nat) (full : Bool) (first : Option Word) : Prop :=
  ∃ x seq, u.hc? id = some x ∧ x.hstate = .parked ∧ x.parked = some (.word spad key member op full seq) ∧
    x.stop = h.stop.map (fun _ => .forced) ∧ (locPark u (keyLoc spad key)).getLsbD 0 = true ∧
    (∀ n, h.lastFe = none → first = some n → seq = n + 1)

/-- A partition with one invalidation more, its epoch raised, every overlapping handle of its herd-contexts cleared, and what
their streams have read ahead discarded (R189, R214). -/
def invalidated (s : State) (part : Nat) (p : Part) (stage2 : Bool) (lo len ctr : Nat) : State :=
  let e := p.epoch + 1
  let t := s.setPart part { p with epoch := e, invals := p.invals ++ [⟨stage2, lo, len, ctr, e⟩] }
  { t with hctxs := t.hctxs.map fun x => if x.2.part = part then
      (x.1, { x.2 with members := x.2.members.map fun m => (m.revoke stage2 lo len).unread }) else x }

end Sys2Proof.Claims

section
open Sys2Proof.Claims

/-- R363, R369, R376, R378, R385 and R390: a markhor pair takes the oldest record of its die's queue and ends it by its cause: it halts
the node with the record in the fault log, holds the herd-context, leaves it to another party, parks it on the word or the block-table
entry that it waits for, or moves link entries, through the save area, and resumes it. The limit of 256 spilled entries, and a
save area of none, end a LINK_OVERFLOW as a halt. -/
def Obligations.RecordsAreTakenAndEnded : Prop := ∀ (s : State) (die : Nat) (d : Die) (r : TrapRec) (rest : List TrapRec)
    (h : HerdCtx),
  s.dies[die]? = some d → d.trapQ = r :: rest → (∃ p ∈ d.pairs, p.failed = false) → s.hc? r.hc = some h → h.hstate = .frozen →
  let t := recordTaken s die rest
  let go := exec (.trapRecordTake die) s
  (r.trap.cause ∈ halts → go = .next (haltNode (faultLog t h.part r.words) h.part h.node)) ∧
  (r.trap.cause ∈ holds → go = .next (heldWith t r.hc h r)) ∧
  (r.trap.cause ∈ waits → go = .next t) ∧
  (r.trap.cause = .xlateS2 → go = .next (stage2Log (t.modHc r.hc fun h => { h with held := true }) h.part r.words)) ∧
  (r.trap.cause = .xlateS1 → r.fetch = false → go = .next (heldWith t r.hc h r)) ∧
  (r.trap.cause = .xlateS1 → r.fetch = true → go = .next (haltNode (faultLog t h.part r.words) h.part h.node)) ∧
  (r.trap.cause = .handleInvalid → r.wasRevoked = true → go = .next t) ∧
  (r.trap.cause = .handleInvalid → r.wasRevoked = false → go = .next (haltNode (faultLog t h.part r.words) h.part h.node)) ∧
  (∀ n, r.trap.cause = .linkOverflow → t.node? h.part h.node = some n → n.field 136 8 ≠ 0 → h.spill.length < 256 →
    go = .next (resumeHc ((writeSaveArea t h).setHc r.hc { h with
      links := h.links.take (h.links.length - 16), spill := h.links.drop (h.links.length - 16) ++ h.spill,
      fresh := h.fresh + h.members.length }) r.hc)) ∧
  (∀ n, r.trap.cause = .linkOverflow → t.node? h.part h.node = some n → (n.field 136 8 = 0 ∨ 256 ≤ h.spill.length) →
    go = .next (haltNode (faultLog t h.part r.words) h.part h.node)) ∧
  (r.trap.cause = .feBudget → let w := askedWord r
    let full := !(askedOp r == 0x12 || askedOp r == 0x2B)
    askedOp r ≠ 0x83 → locFull t (keyLoc w.1 w.2) ≠ full →
    ∃ u, go = .next u ∧
      parksOn u r.hc h w.1 w.2 r.lowest (askedOp r) full ((t.part? h.part).map (·.parkSeq))) ∧
  (∀ pg, r.trap.cause = .blockMoving → translate t h.part true r.trap.addr2.toNat 0 = .ok pg →
    let pa := pg.pa r.trap.addr2.toNat
    ((mem64 t pa).getLsbD 3 = true → ∃ u, go = .next u ∧
      parksOn u r.hc h false (pa / 8 * 8) r.lowest 0x83 true ((t.part? h.part).map (·.parkSeq))) ∧
    ((mem64 t pa).getLsbD 3 = false → go = .next (resumeHc t r.hc))) ∧
  (∀ f, r.trap.cause = .blockMoving → translate t h.part true r.trap.addr2.toNat 0 = .error f →
    go = .next (heldWith t r.hc h r)) ∧
  (r.trap.cause = .linkEmpty → h.spill = [] → go = .next (haltNode (faultLog t h.part r.words) h.part h.node)) ∧
  (r.trap.cause = .linkEmpty → h.spill ≠ [] → go = .next (resumeHc (t.setHc r.hc { h with
    links := h.links ++ h.spill.take 16, spill := h.spill.drop 16 }) r.hc))

/-- R92, R224, R377, R381, R385..R389: firmware regenerates, retranslates, copies a shared block, and serves a wake record, and each
time the herd-context that waited is resumed, a regeneration's waiter in the order of the counter's waiter list and with its address
translated afresh; a held one is resumed or its node halted at the runtime's request. -/
def Sys2Proof.Claims.FirmwareResumesTheHerdContext : Prop := ∀ (s : State) (id : Nat) (h : HerdCtx), s.hc? id = some h →
  (∀ idx node ctr t, h.parked = some (.regen idx node ctr t) → regenReached s h.part idx ctr t = true → h.hstate = .parked →
    (waitsBehind s id h = true → exec (.regenFault id) s = .next s) ∧
    (waitsBehind s id h = false →
      let u := match h.trap with | some r => retranslate s id h r | none => s
      exec (.regenFault id) s = .next (resumeHc (u.modHc id fun g =>
        { g with parked := none, trap := none, lastFe := none, regenWoken := some idx }) id))) ∧
  (∀ r p n, h.parked = none → h.trap = some r → h.hstate = .frozen → h.held = false → r.trap.cause = .regen →
    (∀ d, s.dies[h.die]? = some d → ∀ q ∈ d.trapQ, q.hc ≠ id) → ((s.node? h.part h.node).map (·.kind)) ≠ some 5 →
    h.regenWoken ≠ some r.trap.addr2.toNat → s.part? h.part = some p →
    ∀ node arg, regenEntry s h.part r.trap.addr2.toNat = some (node, arg) → p.regens = [] → aget p.nodes node = some n →
    n.kind = 5 → n.state = .armed → p.halted = false →
    let target := BitVec.ofNat 64 (min (completionValue s h.part n + n.field 120 4) (2 ^ 64 - 1))
    ∃ t x y, exec (.regenFault id) s = .next t ∧ t.hc? id = some x ∧ x.hstate = .parked ∧
      x.parked = some (.regen r.trap.addr2.toNat node (completionPlace s h.part n) target) ∧
      t.node? h.part node = some y ∧ y.state = .ready ∧
      (t.part? h.part).map (·.regens) = some [⟨r.trap.addr2.toNat, node, arg, r.trap.va,
        target, false⟩]) ∧
  (∀ r, awaits s h id .handleInvalid = true → h.trap = some r → r.wasRevoked = true →
    (∀ p, s.part? h.part = some p → p.invals = []) →
    exec (.handleRetranslate id) s = .next (resumeHc (retranslate s id h r) id)) ∧
  (∀ r f cnt t ea op np, h.trap = some r → awaits s h id .blockShared = true →
    reach s h.part true r.trap.addr2.toNat 1 = .ok (t, ea) →
    translate t h.part true ((mem64 t ea).toNat / 65536 * 65536) 0 = .ok op →
    translate t h.part true (f / 65536 * 65536) 1 = .ok np →
    let src := op.pa ((mem64 t ea).toNat / 65536 * 65536)
    let dst := np.pa (f / 65536 * 65536)
    (∀ x ∈ t.park, ¬ (src / 8 ≤ x.1 ∧ x.1 < (src + 65536) / 8)) →
    (∀ u, fenceEntries t h.part r.trap.addr2.toNat 8 none t.nextCmd t.nextCmd = (u, true) →
      exec (.copyOnWrite id (some (f, cnt))) s = .next (resumeHc (countDown (swapWake (putMem64 (copyBlock u src dst) ea
        (BitVec.ofNat 64 (f / 65536 * 65536) ||| (mem64 t ea &&& 0xFFFD))) ea) h.part cnt) id)) ∧
    (∀ u, fenceEntries t h.part r.trap.addr2.toNat 8 none t.nextCmd t.nextCmd = (u, false) →
      exec (.copyOnWrite id (some (f, cnt))) s = .next u)) ∧
  (∀ r, h.hstate = .frozen → h.held = true → h.trap = some r →
    exec (.runtimeResumeRequest id false) s = .next (resumeHc (retranslate s id h r) id) ∧
    (r.trap.cause ≠ .xlateS2 →
      exec (.runtimeResumeRequest id true) s = .next (haltNode s h.part h.node)))

/-- R189, R386 and R387: an invalidation raises the epoch and clears every overlapping handle; it posts its counter once nothing of
the partition holds a translation; firmware serves the oldest wake record that it has not read by its key. -/
def Sys2Proof.Claims.InvalidationsAndWakesAreServed : Prop := ∀ (s : State) (part : Nat) (p : Part), s.part? part = some p →
  (∀ st2 lo len ctr, exec (.translationInvalidate part st2 lo len ctr) s = .next (invalidated s part p st2 lo len ctr)) ∧
  (∀ x rest, p.invals = x :: rest → engineQuiet s part = true →
    exec (.invalidateComplete part) s =
      .next (addVa (s.setPart part { p with invals := rest }) part (BitVec.ofNat 64 x.ctr) 1)) ∧
  (∀ t cpa pa, reach s part true p.cfg.wakeCtr.toNat 3 = .ok (t, cpa) → p.wakeSeen.toNat < (mem64 s cpa).toNat →
    (mem64 s cpa).toNat - p.wakeSeen.toNat ≤ p.cfg.wakeCount.toNat →
    let u := s.modPart part fun p => { p with wakeSeen := p.wakeSeen + 1 }
    gpaPa u p (p.cfg.wakeBase.toNat + 16 * (p.wakeSeen.toNat % max p.cfg.wakeCount.toNat 1)) = .ok pa →
    let w0 := mem64 u pa
    let w1 := mem64 u (pa + 8)
    exec (.wakeServe part) s = .next (serveKey u part (w0.getLsbD 63) (w0.extractLsb' 0 58).toNat
      (w1.extractLsb' 8 8).toNat (w1.getLsbD 0)))

/-- R189, R224, R377, R381 and R385..R389: firmware resumes the herd-contexts that wait for it and serves invalidations and wakes. -/
def Obligations.FirmwareServesItsWaiters : Prop :=
  Sys2Proof.Claims.FirmwareResumesTheHerdContext ∧ Sys2Proof.Claims.InvalidationsAndWakesAreServed

end

/-! ### Events: the host, the loader, the partition manager and the fabric (R330..R350, R408) -/

namespace Sys2Proof.Claims

/-- The device has sent one more message. -/
def sends (s : State) (x : HostMsg) : State := { s with outbox := s.outbox ++ [x] }

/-- The descriptor of a stop or restore request: KIND 0x80 and its ACTION. -/
def isAction (l : List Byte) (a : Nat) : Prop := leAt l 32 1 = 0x80 ∧ leAt l 16 1 = a

/-- The end of a load: report, status and counter (R332). -/
def loadPosted (e : LoadEnd) (part : Nat) (q : LoadReq) : State :=
  let s := if q.reportVa = 0 then e.s else writeRange e.s part q.reportVa (wordsBytes e.report)
  addVa (writeRange s part q.statVa (wordsBytes [e.handle, BitVec.ofNat 64 (e.cause + e.variant * 256)])) part
    (BitVec.ofNat 64 q.doneCtr) 1

/-- What a reset leaves (R347): the reset state, with what stands outside the reset. -/
def afterReset (s : State) : State :=
  { State.reset with
    agenda := s.agenda, fresh := s.fresh + 1, clk := s.clk, outbox := s.outbox, leaf := s.leaf,
    dies := s.dies.map fun d => { Die.reset with poh := d.poh, eolh := d.eolh, eolRaised := d.eolRaised },
    lpddr := s.lpddr, mgrEvents := s.mgrEvents, cores := defects s }

/-- The bytes that a combine unit of some sizes takes of its die's scratchpad (R271). -/
def combineBytes (nt na ns : Nat) : Nat := (256 * nt + 1024 * (na + ns) + 65535) / 65536 * 65536

/-- Data that another package sends: poisoned data gets a record of class 8 that names its source, and that record's tag (R420). -/
def sentData (s : State) (src : BitVec 10) (pa : Nat) (poison : Bool) : State × Tag :=
  if poison = true then (errorRecord s (homeSlice pa / 64) 8 1 63 src (BitVec.ofNat 64 pa) 0, some (nextTag s (homeSlice pa / 64) 8))
  else (s, none)

/-- The new word of an atomic by its operation (Table 9.7): none when a compare fails. -/
def atomicGives (op : Nat) (o v k : Word) : Option Word :=
  if op = 0x30 then some (BitVec.ofNat 64 (o.toNat + v.toNat))
  else if op = 0x31 then some (BitVec.ofInt 64 (min o.toInt v.toInt))
  else if op = 0x32 then some (BitVec.ofInt 64 (max o.toInt v.toInt))
  else if op = 0x33 then some (BitVec.ofNat 64 (min o.toNat v.toNat))
  else if op = 0x34 then some (BitVec.ofNat 64 (max o.toNat v.toNat))
  else if op = 0x35 then some (o &&& v) else if op = 0x36 then some (o ||| v) else if op = 0x37 then some (o ^^^ v)
  else if op = 0x38 then some v else if op = 0x39 then (if o = k then some v else none) else none

/-- A device that has booted a verified image with a leaf of the identity tree: digests and expander capacities are taken. -/
def bootedWith (s : State) (next : Nat) (leaf : Option Nat) (image : List Byte) : State :=
  { s with
    booted := true, leaf := next, bootLeaf := leaf, measured := [Config.romDigest, sha256 image, Config.tableDigest],
    cxlCap := (List.range 8).map fun p => portLength (Config.expanderCap p) }

end Sys2Proof.Claims

section
open Sys2Proof.Claims

/-- R336, R338, R339 and R346: a counter-add write adds to its counter, or is dropped and counted; a host read answers the bytes of
HBM4E and 0 elsewhere, a poisoned host write is stored with a tag of class 9; an MSI-X entry is replaced; other management writes
are discarded; a sound request joins its partition's queue, and what was written of its slot before is gone. That only the mask bit
of an MSI-X control word is kept is taken from outside the spec (log 8, PRESUMED). -/
def Obligations.HostWritesReachTheirUnits : Prop := ∀ (s : State) (part : Nat) (p : Part), s.part? part = some p →
  (∀ off d t pa, d.length = 16 → off % 16 = 0 → leAt d 12 4 = 0 → leAt d 0 8 % 8 = 0 →
    reach s part true (leAt d 0 8) 3 = .ok (t, pa) →
    exec (.counterAddWindow part off d) s =
      .next (counterAdd t (Who.agent part) pa (BitVec.ofNat 32 (leAt d 8 4)) none)) ∧
  (∀ off d, (d.length ≠ 16 ∨ off % 16 ≠ 0 ∨ leAt d 12 4 ≠ 0) →
    exec (.counterAddWindow part off d) s = .next (s.modPart part fun p => { p with hostErr := p.hostErr + 1 })) ∧
  (s.booted = true → ∀ a,
    (∀ n, hbmRange s a n = true → exec (.hostMemoryAccess a (.read n)) s =
      .next (sends (arrive s (Who.agent 0) (ownPa s a) n)
        (.readReply (seenBytes s (Who.agent 0) (ownPa s a) n) (rangeTag s (Who.agent 0) (ownPa s a) n).isSome))) ∧
    (∀ n, hbmRange s a n = false → exec (.hostMemoryAccess a (.read n)) s =
      .next (sends s (.readReply (List.replicate n 0) false))) ∧
    (∀ d, hbmRange s a d.length = true →
      exec (.hostMemoryAccess a (.write d false)) s = .next (writeNow s (Who.agent 0) (ownPa s a) d none)) ∧
    (∀ d, hbmRange s a d.length = true → ∃ t, exec (.hostMemoryAccess a (.write d true)) s =
      .next (writeNow t (Who.agent 0) (ownPa s a) d (some (nextTag s (homeSlice (ownPa s a) / 64) 9))) ∧
      t.mem = s.mem ∧ t.memTag = s.memTag ∧ t.hctxs = s.hctxs)) ∧
  (∀ slot d t pa, let l := (List.range 64).map fun i => d.getD i 0
    p.reqOrder.contains slot = false → slot < 16 → (p.reqOrder.filter fun k => decide (k < 16)).length < 16 →
    requestBad l = false → reach s part true (leAt l 56 8) 3 = .ok (t, pa) →
    exec (.requestSlotSubmit part slot d) s =
      .next (t.modPart part fun p => { p with
        reqs := aset p.reqs slot l, reqOrder := p.reqOrder ++ [slot], drafts := adel p.drafts slot })) ∧
  (∀ v (d : List Byte), v < 2048 → d.length = 16 → s.pba.contains v = false → (msixEntry s v).length = 4 →
    exec (.msixTableWrite (0x500000 + 16 * v) d) s =
      .next { s with msix := aset s.msix v ([leAt d 0 4, leAt d 4 4, leAt d 8 4, leAt d 12 4 % 2].map (BitVec.ofNat 32)) }) ∧
  (∀ off d, exec (.managementWriteOther off d) s = .next s)

/-- R330..R334, R346 and R408: the loader takes the oldest request of its partition, carries it out by its kind, writes its result
and adds 1 to its counter. -/
def Obligations.RequestsAreCarriedOut : Prop := ∀ (s : State) (part : Nat) (k : Nat) (l : List Byte),
  headRequest s part = some (k, l) →
  let t := takeRequest s part k
  (∀ p, leAt l 32 1 < 2 → t.part? part = some p →
    let q := LoadReq.ofBytes l (decide (16 ≤ k))
    (∀ c, loadStep1 t part q = .error c →
      exec (.loadRequest part) s = .next (loadPosted ⟨spoilRegion t part q.dbase q.dlen, c, 0, 0, []⟩ part q)) ∧
    (∀ u obj, loadStep1 t part q = .ok (u, obj) →
      let e := loadRest u part p q obj
      (e.cause = 0 → exec (.loadRequest part) s = .next (loadPosted e part q)) ∧
      (e.cause ≠ 0 → exec (.loadRequest part) s =
        .next (loadPosted { e with s := spoilRegion e.s part q.dbase q.dlen } part q)))) ∧
  (∀ p, leAt l 32 1 = 0x40 → t.part? part = some p → unloadStatus t part p l ≠ 0 →
    exec (.unloadRequest part) s = .next (addVa (writeRange t part (leAt l 48 8)
      (wordsBytes [BitVec.ofNat 64 (leAt l 0 8), BitVec.ofNat 64 (unloadStatus t part p l)])) part
      (BitVec.ofNat 64 (leAt l 56 8)) 1)) ∧
  (∀ p, leAt l 32 1 = 0x40 → t.part? part = some p → unloadStatus t part p l = 0 →
    ∃ u, exec (.unloadRequest part) s = .next (addVa (writeRange u part (leAt l 48 8)
      (wordsBytes [BitVec.ofNat 64 (leAt l 0 8), 0])) part (BitVec.ofNat 64 (leAt l 56 8)) 1) ∧
      (u.part? part).map (·.images) = some (p.images.filter fun x => x.handle != BitVec.ofNat 64 (leAt l 0 8)) ∧
      u.mem = t.mem ∧ u.hctxs = t.hctxs) ∧
  (∀ id h, isAction l 1 → atPosition t part (leAt l 0 8) (leAt l 8 8) = some (id, h) → stoppable t h = true →
    exec (.stopRequest part) s = .next ((t.setHc id { h with stop := some .forced, noRestore := true }).modPart part fun p =>
      { p with stopWait := some (id, BitVec.ofNat 64 (leAt l 56 8)) })) ∧
  (∀ id h, isAction l 2 → atPosition t part (leAt l 0 8) (leAt l 8 8) = some (id, h) → h.hstate = .saved →
    h.saving = false → h.noRestore = true →
    exec (.restoreRequest part) s = .next (addVa ((t.setHc id { h with noRestore := false }).modPart part fun p =>
      { p with restore := p.restore ++ [id] }) part (BitVec.ofNat 64 (leAt l 56 8)) 1))

/-- R271, R341, R343 and R98: before the device has booted no request is acted on (log 40). A partition is created, changed or
destroyed with its clusters cleared, and never has none; its measured record joins the measurement (log 21). Firmware sets a stage-1
root, the sizes of a combine unit without registered slots, and the package ID while nothing exists; a core comes back and a die is
left unprotected at the manager's word. What makes a request sound is in part the model's choice (log 40). -/
def Sys2Proof.Claims.ManagerRequestsAreServed : Prop := ∀ (s : State),
  (s.booted = false → ∀ r, exec (.partitionRequest r) s = .next s) ∧
  (s.booted = true →
    (∀ part c, part < 48 → s.part? part = none → cfgOk s part c = true →
      exec (.partitionRequest (.create part c)) s =
        .next (measurePart ((clearClusters s c.clusters).setPart part (Part.create c)) c)) ∧
    (∀ part c, c.clusters = 0 → exec (.partitionRequest (.create part c)) s = .next s ∧
      exec (.partitionRequest (.change part c)) s = .next s) ∧
    (∀ part p c, s.part? part = some p → cfgOk s part c = true → holdsOn s part (p.cfg.clusters &&& ~~~c.clusters) = false →
      exec (.partitionRequest (.change part c)) s = .next (measurePart ((clearClusters s
        ((p.cfg.clusters &&& ~~~c.clusters) ||| (c.clusters &&& ~~~p.cfg.clusters))).modPart part fun p => { p with cfg := c }) c)) ∧
    (∀ part p, s.part? part = some p → holdsOn s part p.cfg.clusters = false → engineQuiet s part = true →
      ∃ t, exec (.partitionRequest (.destroy part)) s = .next t ∧ t.parts = adel (clearClusters (removeHcs s
        ((s.hctxs.filter fun x => x.2.part == part).map (·.1))) p.cfg.clusters).parts part ∧ t.mem = s.mem) ∧
    (∀ part root, exec (.partitionRequest (.setS1Root part root)) s =
      .next (s.modPart part fun p => { p with s1root := root })) ∧
    (∀ die d nt na ns, s.dies[die]? = some d → nt ≤ 8192 → ns ≤ 8192 → combineBytes nt na ns ≤ 64 * 2 ^ 20 → d.comb.tokens = [] →
      quotaUsed s 48 die 0 ≤ nt → quotaUsed s 48 die 1 ≤ na → quotaUsed s 48 die 2 ≤ ns →
      exec (.partitionRequest (.combine die nt na ns)) s =
        .next (s.modDie die fun x => { x with comb := { d.comb with nt := nt, na := na, ns := ns } })) ∧
    (∀ die d nt na ns, s.dies[die]? = some d → d.comb.tokens ≠ [] →
      exec (.partitionRequest (.combine die nt na ns)) s = .next s) ∧
    (∀ k, s.parts = [] → s.routes = [] → ∃ t, exec (.partitionRequest (.packageId k)) s = .next t ∧ t.pkg = k ∧
      t.parts = [] ∧ t.routes = [] ∧ t.cores = s.cores ∧ t.dies = s.dies) ∧
    (∀ k, (s.parts ≠ [] ∨ s.routes ≠ []) → exec (.partitionRequest (.packageId k)) s = .next s) ∧
    (∀ core, exec (.partitionRequest (.clearOffline core)) s = .next (s.setCore core { s.core core with offline := false })) ∧
    (∀ die on, exec (.partitionRequest (.unprotect die on)) s = .next (s.modDie die fun d => { d with unprotected := on })))

/-- R341, R342 and R420: routes are replaced whole with DEAD clear; a request of another package is performed at its line's home slice
and answered. Poisoned data is stored with a tag of class 8 and a record of this die whose UNIT is the source. A wait whose word or
counter is not as it needs stays with its package (log 37); what a word behind a failed port gives is log 20's choice. -/
def Sys2Proof.Claims.FabricRequestsAreServedAtHome : Prop := ∀ (s : State),
  (s.booted = false → (∀ l, exec (.routeTableLoad l) s = .next s) ∧ ∀ src pa op, exec (.fabricRequest src pa op) s = .next s) ∧
  (s.booted = true →
    (∀ l, exec (.routeTableLoad l) s = .next { s with routes := l.foldl (fun r x =>
      if x.1 < 8192 then aset r x.1 (x.2 &&& ~~~0x40000000) else r) s.routes }) ∧
    (∀ src pa op, isLocal s pa = false → exec (.fabricRequest src pa op) s = .next s) ∧
    (∀ src pa, isLocal s pa = true → let who := Who.agent 0
      let w := pa / 8 * 8
      (∀ n, rangeTier s pa n ≠ none → exec (.fabricRequest src pa (.load n)) s = .next (sends (arrive s who pa n)
        (.fabricReply src (seenBytes s who pa n) (rangeTag s who pa n).isSome))) ∧
      (∀ d poison, rangeTier s pa d.length ≠ none → let x := sentData s src pa poison
        exec (.fabricRequest src pa (.store d poison)) s = .next (writeNow x.1 who pa d x.2)) ∧
      (rangeTier s pa 8 ≠ none →
        (∀ v poison, let x := sentData s src pa poison
          exec (.fabricRequest src pa (.cadd v poison)) s = .next (counterAdd x.1 who w v x.2)) ∧
        (∀ op v k poison, let old := locWord s who (.mem w)
          let x := sentData (arrive s who w 8) src pa poison
          exec (.fabricRequest src pa (.atomic op v k poison)) s = .next (sends
            (match atomicGives op.toNat old.val v k with
              | some n => writeNow x.1 who w (bytesOf 8 n.toNat) (mergeTag old.tag x.2)
              | none => x.1)
            (.fabricReply src (bytesOf 8 old.val.toNat) old.tag.isSome))) ∧
        (∀ op v poison kind, (op = 0x10 ∧ kind = FeKind.wait ∨ op = 0x11 ∧ kind = .take ∨ op = 0x12 ∧ kind = .fill) →
          let x := sentData s src pa poison
          (∀ t y, feAttempt x.1 who kind (.mem w) ⟨v, x.2⟩ op.toNat false = some (t, y) →
            exec (.fabricRequest src pa (.fe op v poison)) s =
              .next (sends t (.fabricReply src (bytesOf 8 y.val.toNat) y.tag.isSome))) ∧
          (feAttempt x.1 who kind (.mem w) ⟨v, x.2⟩ op.toNat false = none →
            exec (.fabricRequest src pa (.fe op v poison)) s = .next s)) ∧
        (unsent s who (.mem w) = false →
          (∀ v poison, exec (.fabricRequest src pa (.fe 0x13 v poison)) s = .next (setFull s w (v.getLsbD 0) 0x13)) ∧
          (∀ v poison, exec (.fabricRequest src pa (.fe 0x14 v poison)) s =
            .next (sends s (.fabricReply src (bytesOf 8 (if isFull s w = true then 1 else 0)) false))) ∧
          (∀ target, target.toNat ≤ (mem64 s w).toNat →
            exec (.fabricRequest src pa (.cwait target)) s = .next (sends s (.fabricReply src [] false))) ∧
          (∀ target, (mem64 s w).toNat < target.toNat → exec (.fabricRequest src pa (.cwait target)) s = .next s)))))

/-- R347, R349, R350 and R432: a reset, the first one included, boots the verified image and advances the leaf, or leaves the device in
reset; a device whose leaves are used up boots without one. A report goes out under this boot's leaf; the power cap changes nothing
else. What stands outside a reset is log 40's choice, and which digests are measured in which list log 21's. -/
def Sys2Proof.Claims.BootsMeasureAndReport : Prop := ∀ (s : State),
  (∀ image, Config.verifies image = false →
    exec (.reset image) s = .next (sends (afterReset s) .bootFailure)) ∧
  (∀ image, Config.verifies image = true → s.leaf < 2 ^ 20 →
    exec (.reset image) s = .next (bootedWith (afterReset s) (s.leaf + 1) (some s.leaf) image)) ∧
  (∀ image, Config.verifies image = true → 2 ^ 20 ≤ s.leaf →
    exec (.reset image) s = .next (sends (bootedWith (afterReset s) s.leaf none image) .cannotAttest)) ∧
  (s.booted = false → exec .measurementReport s = .next s) ∧
  (∀ k, s.booted = true → s.bootLeaf = some k → exec .measurementReport s = .next (sends s (.report k s.measured))) ∧
  (s.booted = true → s.bootLeaf = none → exec .measurementReport s = .next (sends s .cannotAttest)) ∧
  (∀ cap, exec (.powerCapChange cap) s = .next { s with cap := some cap })

/-- R98, R271, R341..R343, R347, R349, R350 and R420: what the partition manager, other packages and the boot do. -/
def Obligations.ManagerFabricAndBoot : Prop :=
  Sys2Proof.Claims.ManagerRequestsAreServed ∧ Sys2Proof.Claims.FabricRequestsAreServedAtHome ∧
  Sys2Proof.Claims.BootsMeasureAndReport

end

/-! ### Events: errors and wear (R340, R418..R431) -/

namespace Sys2Proof.Claims

/-- A die's corrected count of an error's unit has risen by 1. -/
def counted (s : State) (e : ErrSite) : State :=
  let k := e.cls.toNat * 1024 + e.unit.toNat
  s.modDie e.die fun d => { d with corrected := aset d.corrected k ((aget d.corrected k).getD 0 + 1) }

/-- The record that a die writes next (Table 26.2): SEQ, CLASS, KIND, PART, DIE, UNIT and the low byte of SEQ. -/
def nextRecord (s : State) (die : Nat) (cls : BitVec 4) (kind part : Nat) (unit : BitVec 10) (wh detail : Word) : State :=
  s.modDie die fun d => { d with
    errSeq := d.errSeq + 1,
    ring := aset d.ring (d.errSeq.toNat % 256)
      [BitVec.ofNat 64 (d.errSeq.toNat * 2 ^ 32 + cls.toNat * 2 ^ 28 + kind % 4 * 2 ^ 26 + part % 64 * 2 ^ 20 +
        die % 4 * 2 ^ 18 + unit.toNat * 2 ^ 8 + d.errSeq.toNat % 256), wh, detail, Config.clock (576 + die) s.clk] }

/-- A value that R426 stores with V forced to 0: a reserved bit is set, BANK is above 256, or another valid entry names its BANK
with its ROW or its SPARE. -/
def clashes (c : Core) (e : Nat) (v : BitVec 64) : Prop :=
  let bank (x : BitVec 64) := (x.extractLsb' 12 9).toNat
  let row (x : BitVec 64) := (x.extractLsb' 0 12).toNat
  let spare (x : BitVec 64) := (x.extractLsb' 21 2).toNat
  v.extractLsb' 24 40 ≠ 0 ∨ 256 < bank v ∨
    ∃ i x, i ≠ e ∧ c.repair[i]? = some x ∧ x.getLsbD 23 = true ∧ bank x = bank v ∧ (row x = row v ∨ spare x = spare v)

/-- Two valid entries that put the same spare row in the place of the same row. -/
def sameRow (x y : BitVec 64) : Prop :=
  x.getLsbD 23 = true ∧ y.getLsbD 23 = true ∧ repairWord x = repairWord y ∧ x.extractLsb' 21 2 = y.extractLsb' 21 2

end Sys2Proof.Claims

section
open Sys2Proof.Claims

/-- R418..R420 and R427: an uncorrected error of a class that Syrok produces writes a record of KIND 1 and strikes its data; the
scrubber's finding of one in a unit that it reads does the same. A corrected error only raises its unit's count, whoever finds it,
a clean word changes nothing, and the fourth correction of a pool row within a pass of the scrubber takes the row out of use with a
record of KIND 0. Each of these events completes, whatever it finds. -/
def Sys2Proof.Claims.ErrorsAreRecordedAndCounted : Prop := ∀ (s : State) (e : ErrSite),
  let struckAt := strike (nextRecord s e.die e.cls 1 e.part.toNat e.unit e.loc e.detail) e (nextTag s e.die e.cls)
  (e.cls.toNat < 12 → e.die < s.dies.length → exec (.uncorrectedError e) s = .next struckAt) ∧
  ((12 ≤ e.cls.toNat ∨ s.dies.length ≤ e.die) → exec (.uncorrectedError e) s = .next s) ∧
  exec (.correctedError e) s = .next (counted s e) ∧
  exec (.scrubRead e .clean) s = .next s ∧
  ((e.cls ≠ 5 ∨ s.dies.length ≤ e.die) → exec (.scrubRead e .corrected) s = .next (counted s e)) ∧
  (e.cls = 5 → e.die < s.dies.length →
    let core := e.unit.toNat
    let row := (e.loc.extractLsb' 0 21).toNat
    let n := (aget (s.core core).fixes row).getD 0
    let t := (counted s e).setCore core { s.core core with fixes := aset (s.core core).fixes row (n + 1) }
    (n ≠ 3 → exec (.scrubRead e .corrected) s = .next t) ∧
    (n = 3 → exec (.scrubRead e .corrected) s = .next (takeOut
      (nextRecord t e.die 5 0 e.part.toNat e.unit e.loc e.detail) (5, e.die, e.unit, e.loc) e.loc))) ∧
  (e.cls.toNat ∈ [0, 1, 3, 4, 5, 6, 7] → e.die < s.dies.length →
    exec (.scrubRead e .uncorrectable) s = .next struckAt) ∧
  ((e.cls.toNat ∉ [0, 1, 3, 4, 5, 6, 7] ∨ s.dies.length ≤ e.die) → exec (.scrubRead e .uncorrectable) s = .next s)

/-- R420: what an uncorrected error poisons, by its class: the aligned word of device memory, the pair of scratchpad words, the
vector register that holds the struck pool word, the block of an operand slot, an element of the accumulator's row, each with the
record's tag merged into its own; an error of a link or of a markhor pair poisons nothing. Log 20's choices are: that an error of class
10 poisons the word at its place; which element, which copy of a word that nodes have staged, which spilled line of a staging area,
and which word that the L1 holds is struck. -/
def Sys2Proof.Claims.ErrorsPoisonTheirGranule : Prop := ∀ (s : State) (e : ErrSite) (t : BitVec 12),
  let u := strike s e t
  let core := e.unit.toNat
  let c := s.core core
  let hi := (e.loc.extractLsb' 12 9).toNat
  let lo := (e.loc.extractLsb' 0 12).toNat
  let w := 257 * lo + hi
  let copies := stagers s fun i => i.staged.any fun x => x.1 / 8 == e.loc.toNat / 8
  ((e.cls.toNat ∈ [0, 1, 2, 3, 9, 10] ∧ stageHome s e.loc.toNat = none ∧ copies = [] ∨
      e.cls = 4 ∧ rangeTier s (e.loc.toNat / 8 * 8) 8 = some 3) →
    aget u.memTag (e.loc.toNat / 8) = mergeTag (aget s.memTag (e.loc.toNat / 8)) (some t) ∧
    u.hctxs = s.hctxs ∧ u.cores = s.cores ∧
    ∀ a, a / 8 ≠ e.loc.toNat / 8 → Memory.get u.mem a = Memory.get s.mem a) ∧
  (e.cls.toNat ∈ [0, 1, 2, 3, 9, 10] → stageHome s e.loc.toNat = none → copies ≠ [] →
    (∀ a, a / 8 ≠ e.loc.toNat / 8 → Memory.get u.mem a = Memory.get s.mem a) ∧ u.cores = s.cores ∧
    (aget u.memTag (e.loc.toNat / 8) = mergeTag (aget s.memTag (e.loc.toNat / 8)) (some t) ∨
      u.mem = s.mem ∧ u.memTag = s.memTag ∧ ∃ c ∈ copies, ∀ i, s.inst? c.1 c.2 = some i → ∃ j, u.inst? c.1 c.2 = some j ∧
        aget j.stagedTag (e.loc.toNat / 8) = some (mergeTag ((aget i.stagedTag (e.loc.toNat / 8)).getD none) (some t)))) ∧
  (e.cls.toNat ∈ [0, 1, 2, 3, 9, 10] → stageHome s e.loc.toNat ≠ none →
    u.mem = s.mem ∧ u.memTag = s.memTag ∧ u.hctxs = s.hctxs ∧ u.cores = s.cores) ∧
  (e.cls = 5 → c.b1 ≤ lo → c.b2 ≤ lo → c.b3 ≤ lo → u.cores = s.cores ∧ u.hctxs = s.hctxs) ∧
  (e.cls = 5 → c.b1 ≤ lo → c.b2 ≤ lo → lo < c.b3 →
    (u.core core).pairTag (4 * (w - 257 * c.b2)) = mergeTag (c.pairTag (4 * (w - 257 * c.b2))) (some t) ∧
    u.mem = s.mem ∧ u.hctxs = s.hctxs) ∧
  (e.cls = 5 → lo < c.b1 → ∀ id h (mi : Nat) (m : Member),
    s.hc? id = some h → h.occupies = true → h.members[mi]? = some m → m.core = core →
    h.slot * h.nv * 256 ≤ w → w < (h.slot + 1) * h.nv * 256 →
    let n := (w - h.slot * h.nv * 256) / 256
    ∃ g, ∃ x : Member, u.hc? id = some g ∧ g.members[mi]? = some x ∧ (x.vreg n).tag = mergeTag (m.vreg n).tag (some t)) ∧
  (e.cls = 6 → aget ((u.core core).oslot hi).tags lo = mergeTag (aget (c.oslot hi).tags lo) (some t) ∧
    u.mem = s.mem ∧ u.hctxs = s.hctxs) ∧
  (e.cls = 7 → ∃ i, i < 128 ∧ let k := lo % 128 * 128 + i
    (((u.core core).acc hi).elem k).tag = mergeTag ((c.acc hi).elem k).tag (some t) ∧ u.mem = s.mem ∧ u.hctxs = s.hctxs) ∧
  ((e.cls = 8 ∨ e.cls = 11) → u = { s with fresh := s.fresh + 1 })

/-- R425 and R426: a write of a repair entry always completes. The entry is replaced, with V forced to 0 where a reserved bit is
set, the bank does not exist, or another valid entry names the same row or spare of its bank. The pool words whose serving row changes
are undefined: a free value in the pool, and in the lane of the vector register that holds the new entry's word; the same entry
stored again changes none. -/
def Sys2Proof.Claims.RepairEntriesAreReplaced : Prop := ∀ (s : State) (core e : Nat) (v : BitVec 64),
  let c := s.core core
  let new := repairEntry c e v
  let old := c.repair.getD e 0
  let t := repairStore s core e v
  exec (.repairEntryWrite core e v) s = .next t ∧
  (clashes c e v → new = v &&& ~~~0x800000) ∧ (¬ clashes c e v → new = v) ∧
  (t.core core).repair = lset c.repair e new ∧ t.mem = s.mem ∧ t.parts = s.parts ∧ (∀ k, k ≠ core → t.core k = s.core k) ∧
  (sameRow old new → ∀ w, (t.core core).word w = c.word w) ∧
  (new.getLsbD 23 = true → ¬ sameRow old new →
    (t.core core).word (repairWord new) = Config.freePool (c.seedOf core) (repairWord new + 257 * 4096)) ∧
  (old.getLsbD 23 = true → ¬ sameRow old new → (new.getLsbD 23 = false ∨ repairWord old ≠ repairWord new) →
    (t.core core).word (repairWord old) = Config.freePool (c.seedOf core) (repairWord old)) ∧
  (new.getLsbD 23 = true → ¬ sameRow old new → ∀ id h (mi : Nat) (m : Member),
    s.hc? id = some h → h.occupies = true → h.members[mi]? = some m → m.core = core →
    h.slot * h.nv * 256 ≤ repairWord new → repairWord new < (h.slot + 1) * h.nv * 256 →
    let n := (repairWord new - h.slot * h.nv * 256) / 256
    (m.vreg n).lanes.length = 256 →
    ∃ g, ∃ x : Member, t.hc? id = some g ∧ g.members[mi]? = some x ∧
      (x.vreg n).lanes[repairWord new % 256]? = some (Config.freePool (pairNat (c.seedOf core) 1) (repairWord new)))

/-- R418..R420 and R425..R427: errors are recorded, counted and poison their data, and repair entries are replaced. -/
def Obligations.ErrorsPoisonAndRepairsReplace : Prop :=
  Sys2Proof.Claims.ErrorsAreRecordedAndCounted ∧ Sys2Proof.Claims.ErrorsPoisonTheirGranule ∧
  Sys2Proof.Claims.RepairEntriesAreReplaced

/-- R340, R428..R431: a checked herd whose signatures differ is discarded with CHECK set; a markhor pair re-runs its handler once
and then fails; a failed link sets DEAD in every route that uses it, and a failed memory port is recorded; the
sensors set the end-of-life register and tell the manager once. That a retry counts as a corrected error of class 8 of its port is log
39's reading, and the die that counts it log 20's choice. -/
def Obligations.LinksPairsAndWear : Prop := ∀ (s : State),
  (∀ id mi h n i, s.hc? id = some h → s.node? h.part h.node = some n → n.state = .running → n.inst = some i →
    n.checked = true → id ∈ i.hcs → h.hstate = .running → mi < h.members.length →
    let t := setNState (s.modMember id 0 fun m => { m with cir := m.cir ||| 0x20 }) h.part h.node .commit
    exec (.checkedMismatch id mi) s = .next (failCommit t h.part h.node n i (instCir t i))) ∧
  (∀ die pair d r rest (p : Pair), s.dies[die]? = some d → d.trapQ = r :: rest → d.pairs[pair]? = some p →
    d.unprotected = false → p.failed = false →
    (p.mismatches = 0 → exec (.markhorPairMismatch die pair) s =
      .next (s.modDie die fun d => { d with pairs := lset d.pairs pair { p with mismatches := 1 } })) ∧
    (p.mismatches ≠ 0 → ∃ t x, exec (.markhorPairMismatch die pair) s = .next t ∧ t.dies[die]? = some x ∧
      x.pairs = lset d.pairs pair { p with failed := true, mismatches := 0 } ∧ x.trapQ = d.trapQ ∧
      x.errSeq = d.errSeq + 1 ∧ t.mem = s.mem ∧ t.hctxs = s.hctxs)) ∧
  (∀ port, port < 18 → s.linkFailed.contains port = false →
    exec (.linkCrcRetry port) s =
      .next (counted s ⟨Config.portDie port % 4, 8, BitVec.ofNat 10 port, 63, 0, 0⟩) ∧
    ∃ t, exec (.linkFail port) s = .next t ∧ t.linkFailed = nsAdd s.linkFailed port ∧ t.mem = s.mem ∧
      ∀ k, aget t.routes k = (aget s.routes k).map fun x =>
        if (x.extractLsb' 0 5).toNat = port ∧ x.getLsbD 31 = true then x ||| 0x40000000 else x) ∧
  (∀ port, port < 8 → s.cxlFailed.contains port = false →
    ∃ t, exec (.cxlLinkFail port) s = .next t ∧ t.cxlFailed = nsAdd s.cxlFailed port ∧ t.mem = s.mem ∧
      t.linkFailed = s.linkFailed) ∧
  (∀ die d poh eolh, s.dies[die]? = some d →
    let low := eolh.toNat < poh.toNat + 8760
    ∃ t, exec (.wearUpdate die poh eolh) s = .next t ∧
      t.dies[die]? = some { d with poh := poh, eolh := eolh, eolRaised := d.eolRaised || decide low } ∧
      t.mgrEvents = s.mgrEvents + (if low ∧ d.eolRaised = false then 1 else 0) ∧ t.mem = s.mem)

end
/-! ### Bundles, traps, results in flight, the step, reset and encoding -/

namespace Sys2Proof.Claims

/-- The parts of a whole bundle. -/
def whole (hd : Hdr) (c s v m ra rb : Instr) : Bundle := ⟨hd, c, s, v, m, ra, rb⟩

/-- E: the herd-context fetches no more (R55, R89). -/
def ended (s : State) (id : Nat) : State := s.modHc id fun x => { x with hstate := .retiring, stop := none, wait := none }

/-- The commit of a bundle whose control operation ends as `o` says (R58, R159, R423). -/
def committedAs (t : State) (id : Nat) (h : HerdCtx) (e : Bool) (o : CtlOut) : State :=
  let r := if o.taken = true then (o.loops, o.idx, o.succ) else stepLoops h.pc o.succ o.loops o.idx
  (consumeTag (touchOverlay t h) id h.leadOf o.consume).modHc id fun x =>
    { x with members := x.members.map Member.recordConsume, vcc := x.vcc + 1, pc := r.2.2, loops := r.1, idx := r.2.1,
             links := o.links, feTries := 0, waiteNext := 0, wait := none, lastFe := none, regenWoken := none,
             stop := if e = true then none else x.stop, fresh := x.fresh + 16 }

/-- The address of the bundle that follows one whose control operation ends as `o` says. -/
def nextPc (h : HerdCtx) (o : CtlOut) : Word := if o.taken = true then o.succ else (stepLoops h.pc o.succ o.loops o.idx).2.2

/-- What follows a bundle whose routine slots, if any, have completed: E, YIELD and WAITE (R55, R155, R156). -/
def followed (w : State) (id : Nat) (p : Post) : State :=
  w.modHc id fun x =>
    if p.fin = true then { x with hstate := .retiring, stop := none, wait := none }
    else if p.yield = true then { x with hstate := .ready, yielded := true }
    else if p.waite ≠ 0 then { x with waiteNext := p.waite } else x

/-- No wait and no trap stands before the routine slots of a bundle, in the state `u` that it finds and the state `t` that its other
slots leave (R107, R154, R161, R231, R366). -/
def routinesClear (u : State) (id : Nat) (h : HerdCtx) (b : Bundle) (t : State) (qa qb : Option RCall) : Prop :=
  loopNest h b = none ∧ linkFull h (qa.toList ++ qb.toList) = none ∧ bundleWait u id h [] qa qb (fun _ => false) = none ∧
  qb.any (·.popsPaused u) = false ∧ qa.any (·.popsPaused (actsOn t id)) = false

/-- A member whose results in flight stand in snapshot entries (R85). -/
def frozenMember (m : Member) : Member :=
  { m with inflight := m.inflight.map fun p => { p with landed := true }, consume := none }

/-- The values that results in flight have for scalar register `n`. -/
def inFlightS (m : Member) (n : Nat) : List SReg :=
  m.inflight.filterMap fun p => match p.res with | .s k v t => if k = n then some ⟨v, t⟩ else none | _ => none

/-- Whether nothing is left of an earlier result in flight once a later one has landed. -/
def leavesNothing (later q : Pending) : Bool :=
  (if q.issue < later.issue then overtaken later.res q.res else q.res) == .none

/-- The lanes `j` that results in flight have for vector register `n`. -/
def inFlightLane (m : Member) (n j : Nat) : List W32 :=
  m.inflight.filterMap fun p => match p.res with
    | .v k act l _ => if k = n ∧ act.getLsbD j = true then some (l.getD j 0) else none
    | _ => none

/-- The state after whoever is next on the agenda has been taken from it; the tags of a deep line that leaves its home spread over it
as R114 says. -/
def taken (s : State) (rest : List Turn) : State := settleDeep { s with agenda := rest, clk := s.clk + 1 }

/-- In `u` herd-context `id` is RUNNING, nothing stands before its next bundle, and `ws` are the words there. -/
def Fetches (u : State) (id : Nat) (h : HerdCtx) (ws : List (BitVec 64)) : Prop :=
  u.hc? id = some h ∧ h.hstate = .running ∧ hcEvent u id = none ∧ fetchWords u h = some ws ∧
    ∃ im k sg, u.image? h = some im ∧ im.bundle h.pc = some (k, sg, ws) ∧ codeBarred u h h.pc sg.sys = false

end Sys2Proof.Claims

section
open Sys2Proof.Claims

/-- R34, R50, R55, R58, R59, R70, R364 and R366: every slot of a bundle reads the state before it; when no slot stops, all slots take
effect in order and the bundle commits as a whole, with whatever its control operation does; its routine slots act after that, RA
before RB, and what its control operation and E leave to be done follows them. When a slot traps or an encoding check fails, nothing
of the bundle is done and the first trap is taken. That what a V slot pushes is written before the M slot of its member is the model's
choice (log 23). -/
def Obligations.BundlesCommitAsAWholeOrNotAtAll : Prop :=
  ∀ (hd : Hdr) (c s v m ra rb : Instr) (st : State) (id : Nat) (h : HerdCtx),
  let i : Instr := .bundleIssue hd c s v m ra rb
  let b := whole hd c s v m ra rb
  let u := landAll st id
  (∀ x ∈ slotRuns u id h b, ∃ (k mi : Nat) (y : Member), h.members[mi]? = some y ∧ x.1 = ctxFor u id h hd.scope k mi y ∧
    (k, x.2) ∈ [(1, s), (2, v), (3, m)]) ∧
  (Ready st id h b → ra.rn = 0 → rb.rn = 0 →
    (∀ cg t, c = .ctrlNop cg → stopsOf u id h b = [] → foldStop (runSlotIn b.writesNow) (slotRuns u id h b) u = .ok t →
      (t.hc? id).map fitsSnapshot = some true →
      (hd.e = false → exec i st = .next (committed t id h (8 * hd.words))) ∧
      (hd.e = true → exec i st = .next (ended (committed t id h (8 * hd.words)) id))) ∧
    (∀ t map, firstTrap true (stopsOf u id h b) = some (t, map) → exec i st = .next (takeTrap u id t map))) ∧
  (∀ x o t qa qb, Ready st id h b → ctlIn u id h b = some x → runControl c x u = .ok o → stopsOf u id h b = [] →
    foldStop (runSlotIn b.writesNow) (slotRuns u id h b) u = .ok t → (t.hc? id).map fitsSnapshot = some true →
    routineCall u id h b 4 ra = qa → routineCall u id h b 5 rb = qb → routinesClear u id h b t qa qb →
    let w := committedAs t id h hd.e o
    let post : Post := { o.post with fin := hd.e }
    (o.act = .go → qa = none → qb = none → exec i st = .next (followed w id post)) ∧
    (∀ code, o.act = .trap code → qa = none → qb = none →
      exec i st = .next (takeTrap w id { Trap.of .userTrap 0 with code := code } (2 ^ h.leadOf))) ∧
    (∀ l r, o.act = .ret → h.links = l :: r → qa = none → qb = none → exec i st = .next (returnFrom w id l)) ∧
    (∀ a v, o.act = .go → qa = some a → qb = none → actRoutine w a ⟨nextPc h o, none, post⟩ = (v, false) →
      exec i st = .next (followed v id post)) ∧
    (∀ r, o.act = .go → qa = none → qb = some r →
      unwritten (runRb w r ⟨r.ent, r.prof, r.caps, nextPc h o, post⟩ h.pc) id = false →
      exec i st = .next (runRb w r ⟨r.ent, r.prof, r.caps, nextPc h o, post⟩ h.pc)) ∧
    (∀ a r v, o.act = .go → qa = some a → qb = some r → let rest : RbWait := ⟨r.ent, r.prof, r.caps, nextPc h o, post⟩
      actRoutine w a ⟨h.pc, some rest, Post.none⟩ = (v, false) → unwritten (runRb v r rest h.pc) id = false →
      exec i st = .next (runRb v r rest h.pc))) ∧
  (∀ k cause, st.cur = some id → u.hc? id = some h → h.hstate = .running → h.pushed = false → h.rb = none →
    encodingFault u h b (h.sys u) = some (k, cause) →
    exec i st = .next (takeTrap u id (Trap.of cause k) (2 ^ h.members.length - 1)))

/-- R85, R360, R362 and R364: taking a trap freezes the herd-context at its PC, VCC and loops, moves its results in flight to
snapshot entries, and appends one record, with the cause, PC and VCC in its words, to the trap queue of the lead's die. Nothing
else changes. Resuming writes the snapshot entries and makes it READY. -/
def Obligations.TrapsFreezeAndResume : Prop := ∀ (s : State) (id : Nat) (h : HerdCtx) (t : Trap) (map : Nat),
  s.hc? id = some h →
  (∃ r : TrapRec, r.hc = id ∧ r.trap = t ∧ (t.slot < 16 → (r.words.getD 0 0).toNat % 2 ^ 8 = t.cause.code ∧
      (r.words.getD 0 0).toNat / 2 ^ 8 % 2 ^ 4 = t.slot) ∧ r.words.getD 1 0 = h.pc ∧
      r.words.getD 2 0 = BitVec.ofNat 64 h.vcc ∧ r.words.getD 3 0 = t.addr ∧
    takeTrap s id t map = (s.setHc id { h with
      members := h.members.map frozenMember, hstate := .frozen, wait := none, feTries := 0, trap := some r }).modDie h.die
        fun d => { d with trapQ := d.trapQ ++ [r] }) ∧
  resumeHc s id = s.setHc id { h with
    members := h.members.map Member.writeSnapshot, hstate := .ready, trap := none, held := false, feTries := 0 }

/-- R4, R58, R59, R61, R117, R163, R181 and R432: s0, p0 and k0 read as 0, true and all ones and discard writes; a read inside a latency
window gives what the register's cells hold or a value in flight, a vector lane by lane, and outside it what the cells hold, which is the
landed value with every stuck bit at its level; a masked vector result writes the active lanes only and merges the old tag into its
own; when a result lands, its flags are or-ed into FPSTAT, with those of the results that it overtakes and leaves nothing of
(log 4), and no others. -/
def Obligations.ReadsGiveLandedOrInFlightValues : Prop := ∀ (m : Member) (seed ix n : Nat),
  (m.readS seed ix 0 = ⟨0, none⟩ ∧ m.readP seed ix 0 = true ∧ m.readK seed ix 0 = BitVec.allOnes 256) ∧
  (∀ v t b k, m.apply (.s 0 v t) = m ∧ m.apply (.p 0 b) = m ∧ m.apply (.k 0 k) = m) ∧
  (0 < n → (inFlightS m n = [] → m.readS seed ix n = m.cellS n) ∧ m.readS seed ix n ∈ m.cellS n :: inFlightS m n) ∧
  ((m.cellS n).tag = (m.sreg n).tag ∧ (aget m.stuckS n = none → m.cellS n = m.sreg n) ∧
    ∀ bits level, aget m.stuckS n = some (bits, level) →
      (m.cellS n).val = ((m.sreg n).val &&& ~~~bits) ||| (level &&& bits)) ∧
  ((∀ p ∈ m.inflight, ∀ act l t, p.res ≠ .v n act l t) → m.readV seed ix n = m.cellV n) ∧
  (∀ j, j < 256 → (m.vreg n).lanes.length = 256 →
    (m.readV seed ix n).lanes.getD j 0 ∈ (m.cellV n).lanes.getD j 0 :: inFlightLane m n j) ∧
  (∀ v t, 0 < n → n < m.s.length → (m.apply (.s n v t)).sreg n = ⟨v, t⟩) ∧
  (∀ act l t j, j < 256 → (m.vreg n).lanes.length = 256 → l.length = 256 →
    ((m.apply (.v n act l t)).vreg n).lanes.getD j 0 =
      if act.getLsbD j = true then l.getD j 0 else (m.vreg n).lanes.getD j 0) ∧
  (∀ act l t, ((m.apply (.v n act l t)).vreg n).tag =
    if act = BitVec.allOnes 256 then t else mergeTag (m.vreg n).tag t) ∧
  (∀ (p : Pending) (b : Nat), (m.land p).fpstat.getLsbD b = (m.fpstat.getLsbD b || p.flags.getLsbD b ||
    m.inflight.any fun q => q != p && leavesNothing p q && q.flags.getLsbD b))

/-- Log 1, R66, R70, R152 and R380: a step of a herd-context that has the turn runs the instruction that its words decode to; words
that are none trap by their first failing check, and a fetch outside the code, or one that its code page bars, traps XLATE_S1; a step
with an event on the agenda runs the event, and one with an act that is no row of the table performs it. -/
def Obligations.StepRunsTheDecodedInstruction : Prop := ∀ (s : State) (rest : List Turn),
  (∀ id h ws i, s.agenda = .hc id :: rest → Fetches (taken s rest) id h ws → decodeWords ws = .ok i →
    step s = exec i { taken s rest with cur := some id }) ∧
  (∀ id h w r e, s.agenda = .hc id :: rest → Fetches (taken s rest) id h (w :: r) → decodeWords (w :: r) = .error e →
    step s = .next (issueUndecoded (taken s rest) id w e)) ∧
  (∀ id h, s.agenda = .hc id :: rest → (taken s rest).hc? id = some h → h.hstate = .running →
    hcEvent (taken s rest) id = none →
    (((taken s rest).image? h).bind (·.bundle h.pc) = none ∨ fetchWords (taken s rest) h = none) →
    step s = .next (fetchFault (taken s rest) id)) ∧
  (∀ i, s.agenda = .ev i :: rest → step s = exec i (taken s rest)) ∧
  (∀ a, s.agenda = .act a :: rest → step s = .next (runAct a (taken s rest))) ∧
  (∀ id h ws i, s.agenda = [] → (candidates s)[s.rr % max (candidates s).length 1]? = some (.hc id) →
    let u := settleDeep { s with rr := s.rr + 1, clk := s.clk + 1 }
    Fetches u id h ws → decodeWords ws = .ok i → step s = exec i { u with cur := some id })

/-- R114 and R347: right after reset every word is full and carries no tag, no partition or herd-context exists, no error is recorded,
and the device has not booted. The model's own choices are: no memory byte is listed and each reads 0 (log 5), no park bit is set
(log 6), no queue, no route and no message exists (log 7), and the host's table is empty (log 8). -/
def Obligations.ResetLeavesNothingRunning : Prop :=
  State.reset.memOk ∧ (∀ a, Memory.get State.reset.mem a = 0) ∧ (∀ a, isFull State.reset a = true) ∧
  (∀ a, parkBits State.reset a = 0) ∧ (∀ k, State.reset.part? k = none) ∧ (∀ k, State.reset.hc? k = none) ∧
  (∀ k, State.reset.copyCmds k = []) ∧ (∀ k, aget State.reset.routes k = none) ∧ State.reset.booted = false ∧
  State.reset.outbox = [] ∧ State.reset.dies.length = 4 ∧
  (∀ d ∈ State.reset.dies, d.ring = [] ∧ d.errSeq = 0 ∧ d.trapQ = [] ∧ d.comb.tokens = [] ∧ d.pairs.length = 4) ∧
  step State.reset = .next { State.reset with rr := 1, clk := 1 }

/-- The words of the spec's own worked encodings (R66, R71, R146, R160, R170, R193, and the examples of sections 3, 7..9, 11, 12
and 25) decode to the instructions that they stand for, and the word with a reserved bit set of Table 25.4 is refused. -/
def Obligations.WorkedEncodingsDecode : Prop :=
  decodeWords [1, 0x0400518700000000] = .ok (.add ⟨0, 0, 5, 6, 7, 0⟩) ∧
  decodeWords [1, 0x40008C4FFFFFFFB2] = .ok (.cmpi ⟨0, 0, 2, 3, 4, 0xFFFFFFFB, 2⟩) ∧
  decodeWords [2, 0x100D540A0020A42A] = .ok (.ffma ⟨0, 3, 5, 1, 4, 40, 2, 41, 42⟩) ∧
  decodeWords [4, 0x1C1CC82180004000] = .ok (.ldD ⟨0, 7, 3, 8, 2, 6, 16, 0⟩) ∧
  decodeWords [4, 0x3800482180002000] = .ok (.stD ⟨0, 0, 1, 8, 2, 6, 8, 0⟩) ∧
  decodeWords [8, 0x0120008030000000] = .ok (.olda ⟨0, 2, 3, 0, 0, 0, 0⟩) ∧
  decodeWords [8, 0x0400050150000040] = .ok (.exp2 ⟨0, 20, 21, 0, 0, 4, 0⟩) ∧
  decodeWords [0x07FFFFFFFE000000] = .ok (.br 0 0x3FFFFFFFE) ∧
  decodeWords [0x1880000003000000] = .ok (.loopt 0 1 3) ∧
  decodeWords [0x1400000000000002, 0x0C0300FF3F0FFC00] = .ok (.bundleIssue ⟨0, 0, 0, false, false, 2⟩ (.ret 0) .snop
    (.fmul ⟨0, 0, 12, 0, 0, 1020, 1008, 1023, 0⟩) .mnop noRoutine noRoutine) ∧
  (∃ e, decodeWords [0x0000000000500001, 0x2400101000000001] = .error e ∧ e.slot = 1 ∧ e.error = .illegalField)

/-- The decoder reads from the encoder's words of every well-formed instruction that instruction, with every operand at every
value that the encoding admits. -/
def Obligations.DecodingUndoesEncoding : Prop := ∀ i : Instr, i.wf = true → decodeWords (encode i) = .ok i

/-- Memory keeps the canonical form that the model chose for it (log 5, DESIGN CHOICE): addresses strictly rise and no listed byte
equals what an unlisted address reads as, after every step from every state in which it holds. -/
def Obligations.EveryStepKeepsTheFormOfMemory : Prop := ∀ s t : State, s.memOk → step s = .next t → t.memOk

end
end
end

