-- ==== Sys2Proof/Laws/Maps.lean ====
section
/-! SUPPORT. Laws of the sorted maps and of the replacement of a list element: a read after a write, and what a write
leaves alone. -/

namespace Sys2Proof

@[simp] theorem aget_nil {β : Type} (k : Nat) : aget ([] : AMap β) k = none := rfl

@[simp] theorem aget_aset_same {β : Type} (m : AMap β) (k : Nat) (b : β) : aget (aset m k b) k = some b := by
  induction m with
  | nil => simp [aset, aget]
  | cons x r ih =>
    obtain ⟨j, c⟩ := x
    unfold aset
    split
    · simp [aget]
    · split
      · simp [aget]
      · rename_i h1 h2
        simp [aget, Ne.symm h2, ih]

theorem aget_aset_other {β : Type} (m : AMap β) (k j : Nat) (b : β) (h : j ≠ k) : aget (aset m k b) j = aget m j := by
  induction m with
  | nil => simp [aset, aget, Ne.symm h]
  | cons x r ih =>
    obtain ⟨i, c⟩ := x
    unfold aset
    split
    · simp [aget, Ne.symm h]
    · split
      · rename_i h1 h2
        subst h2
        simp [aget, Ne.symm h]
      · simp [aget, ih]

@[simp] theorem aset_aset {β : Type} (m : AMap β) (k : Nat) (a b : β) : aset (aset m k a) k b = aset m k b := by
  induction m with
  | nil => simp [aset]
  | cons x r ih =>
    obtain ⟨j, c⟩ := x
    unfold aset
    by_cases h1 : k < j
    · simp [h1, aset]
    · by_cases h2 : k = j
      · simp [h2, aset]
      · simp [h1, h2, aset, ih]

/-- Writing back what a map already holds just written changes nothing. -/
theorem aset_same_of_aset {β : Type} (m : AMap β) (k : Nat) (a : β) : aset (aset m k a) k a = aset m k a := aset_aset m k a a

@[simp] theorem lset_length {α : Type} (l : List α) (i : Nat) (a : α) : (lset l i a).length = l.length := by
  induction l generalizing i with
  | nil => rfl
  | cons x r ih => cases i with
    | zero => rfl
    | succ n => simp [lset, ih]

theorem lset_get_same {α : Type} (l : List α) (i : Nat) (a : α) (h : i < l.length) : (lset l i a)[i]? = some a := by
  induction l generalizing i with
  | nil => simp at h
  | cons x r ih => cases i with
    | zero => simp [lset]
    | succ n => simp [lset, ih n (by simpa using h)]

theorem lset_get_other {α : Type} (l : List α) (i j : Nat) (a : α) (h : j ≠ i) : (lset l i a)[j]? = l[j]? := by
  induction l generalizing i j with
  | nil => rfl
  | cons x r ih => cases i with
    | zero => cases j with
      | zero => exact absurd rfl h
      | succ m => simp [lset]
    | succ n => cases j with
      | zero => simp [lset]
      | succ m => simpa [lset] using ih n m (by simpa using h)

end Sys2Proof
end

