-- ==== Sys2Proof/Laws/State.lean ====
section
/-! SUPPORT. What each update of the state leaves alone, one lemma per field per update, and what it writes. -/

namespace Sys2Proof.Machine

@[simp] theorem State.setCore_agenda (s : State) (c : Nat) (k : Core) : (s.setCore c k).agenda = s.agenda := rfl
@[simp] theorem State.setCore_adds (s : State) (c : Nat) (k : Core) : (s.setCore c k).adds = s.adds := rfl
@[simp] theorem State.setCore_rr (s : State) (c : Nat) (k : Core) : (s.setCore c k).rr = s.rr := rfl
@[simp] theorem State.setCore_fresh (s : State) (c : Nat) (k : Core) : (s.setCore c k).fresh = s.fresh := rfl
@[simp] theorem State.setCore_cur (s : State) (c : Nat) (k : Core) : (s.setCore c k).cur = s.cur := rfl
@[simp] theorem State.setCore_mem (s : State) (c : Nat) (k : Core) : (s.setCore c k).mem = s.mem := rfl
@[simp] theorem State.setCore_feEmpty (s : State) (c : Nat) (k : Core) : (s.setCore c k).feEmpty = s.feEmpty := rfl
@[simp] theorem State.setCore_memTag (s : State) (c : Nat) (k : Core) : (s.setCore c k).memTag = s.memTag := rfl
@[simp] theorem State.setCore_park (s : State) (c : Nat) (k : Core) : (s.setCore c k).park = s.park := rfl
@[simp] theorem State.setCore_parkPart (s : State) (c : Nat) (k : Core) : (s.setCore c k).parkPart = s.parkPart := rfl
@[simp] theorem State.setCore_hctxs (s : State) (c : Nat) (k : Core) : (s.setCore c k).hctxs = s.hctxs := rfl
@[simp] theorem State.setCore_nextHc (s : State) (c : Nat) (k : Core) : (s.setCore c k).nextHc = s.nextHc := rfl
@[simp] theorem State.setCore_copyQ (s : State) (c : Nat) (k : Core) : (s.setCore c k).copyQ = s.copyQ := rfl
@[simp] theorem State.setCore_slices (s : State) (c : Nat) (k : Core) : (s.setCore c k).slices = s.slices := rfl
@[simp] theorem State.setCore_reds (s : State) (c : Nat) (k : Core) : (s.setCore c k).reds = s.reds := rfl
@[simp] theorem State.setCore_parts (s : State) (c : Nat) (k : Core) : (s.setCore c k).parts = s.parts := rfl
@[simp] theorem State.setCore_dies (s : State) (c : Nat) (k : Core) : (s.setCore c k).dies = s.dies := rfl
@[simp] theorem State.setCore_timers (s : State) (c : Nat) (k : Core) : (s.setCore c k).timers = s.timers := rfl
@[simp] theorem State.setCore_msix (s : State) (c : Nat) (k : Core) : (s.setCore c k).msix = s.msix := rfl
@[simp] theorem State.setCore_pba (s : State) (c : Nat) (k : Core) : (s.setCore c k).pba = s.pba := rfl
@[simp] theorem State.setCore_outbox (s : State) (c : Nat) (k : Core) : (s.setCore c k).outbox = s.outbox := rfl
@[simp] theorem State.setCore_mgrEvents (s : State) (c : Nat) (k : Core) : (s.setCore c k).mgrEvents = s.mgrEvents := rfl
@[simp] theorem State.setCore_routes (s : State) (c : Nat) (k : Core) : (s.setCore c k).routes = s.routes := rfl
@[simp] theorem State.setCore_pkg (s : State) (c : Nat) (k : Core) : (s.setCore c k).pkg = s.pkg := rfl
@[simp] theorem State.setCore_linkFailed (s : State) (c : Nat) (k : Core) : (s.setCore c k).linkFailed = s.linkFailed := rfl
@[simp] theorem State.setCore_lpddr (s : State) (c : Nat) (k : Core) : (s.setCore c k).lpddr = s.lpddr := rfl
@[simp] theorem State.setCore_cxlCap (s : State) (c : Nat) (k : Core) : (s.setCore c k).cxlCap = s.cxlCap := rfl
@[simp] theorem State.setCore_cxlFailed (s : State) (c : Nat) (k : Core) : (s.setCore c k).cxlFailed = s.cxlFailed := rfl
@[simp] theorem State.setCore_leaf (s : State) (c : Nat) (k : Core) : (s.setCore c k).leaf = s.leaf := rfl
@[simp] theorem State.setCore_booted (s : State) (c : Nat) (k : Core) : (s.setCore c k).booted = s.booted := rfl
@[simp] theorem State.setCore_bootLeaf (s : State) (c : Nat) (k : Core) : (s.setCore c k).bootLeaf = s.bootLeaf := rfl
@[simp] theorem State.setCore_measured (s : State) (c : Nat) (k : Core) : (s.setCore c k).measured = s.measured := rfl
@[simp] theorem State.setCore_handles (s : State) (c : Nat) (k : Core) : (s.setCore c k).handles = s.handles := rfl
@[simp] theorem State.setCore_loads (s : State) (c : Nat) (k : Core) : (s.setCore c k).loads = s.loads := rfl
@[simp] theorem State.setCore_retired (s : State) (c : Nat) (k : Core) : (s.setCore c k).retired = s.retired := rfl
@[simp] theorem State.setCore_l2Off (s : State) (c : Nat) (k : Core) : (s.setCore c k).l2Off = s.l2Off := rfl
@[simp] theorem State.setCore_cap (s : State) (c : Nat) (k : Core) : (s.setCore c k).cap = s.cap := rfl
@[simp] theorem State.setCore_nextCmd (s : State) (c : Nat) (k : Core) : (s.setCore c k).nextCmd = s.nextCmd := rfl
@[simp] theorem State.setCore_nextInst (s : State) (c : Nat) (k : Core) : (s.setCore c k).nextInst = s.nextInst := rfl
@[simp] theorem State.setCore_clk (s : State) (c : Nat) (k : Core) : (s.setCore c k).clk = s.clk := rfl

@[simp] theorem State.setPart_agenda (s : State) (p : Nat) (x : Part) : (s.setPart p x).agenda = s.agenda := rfl
@[simp] theorem State.setPart_adds (s : State) (p : Nat) (x : Part) : (s.setPart p x).adds = s.adds := rfl
@[simp] theorem State.setPart_rr (s : State) (p : Nat) (x : Part) : (s.setPart p x).rr = s.rr := rfl
@[simp] theorem State.setPart_fresh (s : State) (p : Nat) (x : Part) : (s.setPart p x).fresh = s.fresh := rfl
@[simp] theorem State.setPart_cur (s : State) (p : Nat) (x : Part) : (s.setPart p x).cur = s.cur := rfl
@[simp] theorem State.setPart_mem (s : State) (p : Nat) (x : Part) : (s.setPart p x).mem = s.mem := rfl
@[simp] theorem State.setPart_feEmpty (s : State) (p : Nat) (x : Part) : (s.setPart p x).feEmpty = s.feEmpty := rfl
@[simp] theorem State.setPart_memTag (s : State) (p : Nat) (x : Part) : (s.setPart p x).memTag = s.memTag := rfl
@[simp] theorem State.setPart_park (s : State) (p : Nat) (x : Part) : (s.setPart p x).park = s.park := rfl
@[simp] theorem State.setPart_parkPart (s : State) (p : Nat) (x : Part) : (s.setPart p x).parkPart = s.parkPart := rfl
@[simp] theorem State.setPart_hctxs (s : State) (p : Nat) (x : Part) : (s.setPart p x).hctxs = s.hctxs := rfl
@[simp] theorem State.setPart_nextHc (s : State) (p : Nat) (x : Part) : (s.setPart p x).nextHc = s.nextHc := rfl
@[simp] theorem State.setPart_cores (s : State) (p : Nat) (x : Part) : (s.setPart p x).cores = s.cores := rfl
@[simp] theorem State.setPart_copyQ (s : State) (p : Nat) (x : Part) : (s.setPart p x).copyQ = s.copyQ := rfl
@[simp] theorem State.setPart_slices (s : State) (p : Nat) (x : Part) : (s.setPart p x).slices = s.slices := rfl
@[simp] theorem State.setPart_reds (s : State) (p : Nat) (x : Part) : (s.setPart p x).reds = s.reds := rfl
@[simp] theorem State.setPart_dies (s : State) (p : Nat) (x : Part) : (s.setPart p x).dies = s.dies := rfl
@[simp] theorem State.setPart_timers (s : State) (p : Nat) (x : Part) : (s.setPart p x).timers = s.timers := rfl
@[simp] theorem State.setPart_msix (s : State) (p : Nat) (x : Part) : (s.setPart p x).msix = s.msix := rfl
@[simp] theorem State.setPart_pba (s : State) (p : Nat) (x : Part) : (s.setPart p x).pba = s.pba := rfl
@[simp] theorem State.setPart_outbox (s : State) (p : Nat) (x : Part) : (s.setPart p x).outbox = s.outbox := rfl
@[simp] theorem State.setPart_mgrEvents (s : State) (p : Nat) (x : Part) : (s.setPart p x).mgrEvents = s.mgrEvents := rfl
@[simp] theorem State.setPart_routes (s : State) (p : Nat) (x : Part) : (s.setPart p x).routes = s.routes := rfl
@[simp] theorem State.setPart_pkg (s : State) (p : Nat) (x : Part) : (s.setPart p x).pkg = s.pkg := rfl
@[simp] theorem State.setPart_linkFailed (s : State) (p : Nat) (x : Part) : (s.setPart p x).linkFailed = s.linkFailed := rfl
@[simp] theorem State.setPart_lpddr (s : State) (p : Nat) (x : Part) : (s.setPart p x).lpddr = s.lpddr := rfl
@[simp] theorem State.setPart_cxlCap (s : State) (p : Nat) (x : Part) : (s.setPart p x).cxlCap = s.cxlCap := rfl
@[simp] theorem State.setPart_cxlFailed (s : State) (p : Nat) (x : Part) : (s.setPart p x).cxlFailed = s.cxlFailed := rfl
@[simp] theorem State.setPart_leaf (s : State) (p : Nat) (x : Part) : (s.setPart p x).leaf = s.leaf := rfl
@[simp] theorem State.setPart_booted (s : State) (p : Nat) (x : Part) : (s.setPart p x).booted = s.booted := rfl
@[simp] theorem State.setPart_bootLeaf (s : State) (p : Nat) (x : Part) : (s.setPart p x).bootLeaf = s.bootLeaf := rfl
@[simp] theorem State.setPart_measured (s : State) (p : Nat) (x : Part) : (s.setPart p x).measured = s.measured := rfl
@[simp] theorem State.setPart_handles (s : State) (p : Nat) (x : Part) : (s.setPart p x).handles = s.handles := rfl
@[simp] theorem State.setPart_loads (s : State) (p : Nat) (x : Part) : (s.setPart p x).loads = s.loads := rfl
@[simp] theorem State.setPart_retired (s : State) (p : Nat) (x : Part) : (s.setPart p x).retired = s.retired := rfl
@[simp] theorem State.setPart_l2Off (s : State) (p : Nat) (x : Part) : (s.setPart p x).l2Off = s.l2Off := rfl
@[simp] theorem State.setPart_cap (s : State) (p : Nat) (x : Part) : (s.setPart p x).cap = s.cap := rfl
@[simp] theorem State.setPart_nextCmd (s : State) (p : Nat) (x : Part) : (s.setPart p x).nextCmd = s.nextCmd := rfl
@[simp] theorem State.setPart_nextInst (s : State) (p : Nat) (x : Part) : (s.setPart p x).nextInst = s.nextInst := rfl
@[simp] theorem State.setPart_clk (s : State) (p : Nat) (x : Part) : (s.setPart p x).clk = s.clk := rfl

@[simp] theorem State.setHc_agenda (s : State) (i : Nat) (x : HerdCtx) : (s.setHc i x).agenda = s.agenda := rfl
@[simp] theorem State.setHc_adds (s : State) (i : Nat) (x : HerdCtx) : (s.setHc i x).adds = s.adds := rfl
@[simp] theorem State.setHc_rr (s : State) (i : Nat) (x : HerdCtx) : (s.setHc i x).rr = s.rr := rfl
@[simp] theorem State.setHc_fresh (s : State) (i : Nat) (x : HerdCtx) : (s.setHc i x).fresh = s.fresh := rfl
@[simp] theorem State.setHc_cur (s : State) (i : Nat) (x : HerdCtx) : (s.setHc i x).cur = s.cur := rfl
@[simp] theorem State.setHc_mem (s : State) (i : Nat) (x : HerdCtx) : (s.setHc i x).mem = s.mem := rfl
@[simp] theorem State.setHc_feEmpty (s : State) (i : Nat) (x : HerdCtx) : (s.setHc i x).feEmpty = s.feEmpty := rfl
@[simp] theorem State.setHc_memTag (s : State) (i : Nat) (x : HerdCtx) : (s.setHc i x).memTag = s.memTag := rfl
@[simp] theorem State.setHc_park (s : State) (i : Nat) (x : HerdCtx) : (s.setHc i x).park = s.park := rfl
@[simp] theorem State.setHc_parkPart (s : State) (i : Nat) (x : HerdCtx) : (s.setHc i x).parkPart = s.parkPart := rfl
@[simp] theorem State.setHc_nextHc (s : State) (i : Nat) (x : HerdCtx) : (s.setHc i x).nextHc = s.nextHc := rfl
@[simp] theorem State.setHc_cores (s : State) (i : Nat) (x : HerdCtx) : (s.setHc i x).cores = s.cores := rfl
@[simp] theorem State.setHc_copyQ (s : State) (i : Nat) (x : HerdCtx) : (s.setHc i x).copyQ = s.copyQ := rfl
@[simp] theorem State.setHc_slices (s : State) (i : Nat) (x : HerdCtx) : (s.setHc i x).slices = s.slices := rfl
@[simp] theorem State.setHc_reds (s : State) (i : Nat) (x : HerdCtx) : (s.setHc i x).reds = s.reds := rfl
@[simp] theorem State.setHc_parts (s : State) (i : Nat) (x : HerdCtx) : (s.setHc i x).parts = s.parts := rfl
@[simp] theorem State.setHc_dies (s : State) (i : Nat) (x : HerdCtx) : (s.setHc i x).dies = s.dies := rfl
@[simp] theorem State.setHc_timers (s : State) (i : Nat) (x : HerdCtx) : (s.setHc i x).timers = s.timers := rfl
@[simp] theorem State.setHc_msix (s : State) (i : Nat) (x : HerdCtx) : (s.setHc i x).msix = s.msix := rfl
@[simp] theorem State.setHc_pba (s : State) (i : Nat) (x : HerdCtx) : (s.setHc i x).pba = s.pba := rfl
@[simp] theorem State.setHc_outbox (s : State) (i : Nat) (x : HerdCtx) : (s.setHc i x).outbox = s.outbox := rfl
@[simp] theorem State.setHc_mgrEvents (s : State) (i : Nat) (x : HerdCtx) : (s.setHc i x).mgrEvents = s.mgrEvents := rfl
@[simp] theorem State.setHc_routes (s : State) (i : Nat) (x : HerdCtx) : (s.setHc i x).routes = s.routes := rfl
@[simp] theorem State.setHc_pkg (s : State) (i : Nat) (x : HerdCtx) : (s.setHc i x).pkg = s.pkg := rfl
@[simp] theorem State.setHc_linkFailed (s : State) (i : Nat) (x : HerdCtx) : (s.setHc i x).linkFailed = s.linkFailed := rfl
@[simp] theorem State.setHc_lpddr (s : State) (i : Nat) (x : HerdCtx) : (s.setHc i x).lpddr = s.lpddr := rfl
@[simp] theorem State.setHc_cxlCap (s : State) (i : Nat) (x : HerdCtx) : (s.setHc i x).cxlCap = s.cxlCap := rfl
@[simp] theorem State.setHc_cxlFailed (s : State) (i : Nat) (x : HerdCtx) : (s.setHc i x).cxlFailed = s.cxlFailed := rfl
@[simp] theorem State.setHc_leaf (s : State) (i : Nat) (x : HerdCtx) : (s.setHc i x).leaf = s.leaf := rfl
@[simp] theorem State.setHc_booted (s : State) (i : Nat) (x : HerdCtx) : (s.setHc i x).booted = s.booted := rfl
@[simp] theorem State.setHc_bootLeaf (s : State) (i : Nat) (x : HerdCtx) : (s.setHc i x).bootLeaf = s.bootLeaf := rfl
@[simp] theorem State.setHc_measured (s : State) (i : Nat) (x : HerdCtx) : (s.setHc i x).measured = s.measured := rfl
@[simp] theorem State.setHc_handles (s : State) (i : Nat) (x : HerdCtx) : (s.setHc i x).handles = s.handles := rfl
@[simp] theorem State.setHc_loads (s : State) (i : Nat) (x : HerdCtx) : (s.setHc i x).loads = s.loads := rfl
@[simp] theorem State.setHc_retired (s : State) (i : Nat) (x : HerdCtx) : (s.setHc i x).retired = s.retired := rfl
@[simp] theorem State.setHc_l2Off (s : State) (i : Nat) (x : HerdCtx) : (s.setHc i x).l2Off = s.l2Off := rfl
@[simp] theorem State.setHc_cap (s : State) (i : Nat) (x : HerdCtx) : (s.setHc i x).cap = s.cap := rfl
@[simp] theorem State.setHc_nextCmd (s : State) (i : Nat) (x : HerdCtx) : (s.setHc i x).nextCmd = s.nextCmd := rfl
@[simp] theorem State.setHc_nextInst (s : State) (i : Nat) (x : HerdCtx) : (s.setHc i x).nextInst = s.nextInst := rfl
@[simp] theorem State.setHc_clk (s : State) (i : Nat) (x : HerdCtx) : (s.setHc i x).clk = s.clk := rfl

@[simp] theorem putMem_agenda (s : State) (a : Nat) (l : List Byte) : (putMem s a l).agenda = s.agenda := rfl
@[simp] theorem putMem_adds (s : State) (a : Nat) (l : List Byte) : (putMem s a l).adds = s.adds := rfl
@[simp] theorem putMem_rr (s : State) (a : Nat) (l : List Byte) : (putMem s a l).rr = s.rr := rfl
@[simp] theorem putMem_fresh (s : State) (a : Nat) (l : List Byte) : (putMem s a l).fresh = s.fresh := rfl
@[simp] theorem putMem_cur (s : State) (a : Nat) (l : List Byte) : (putMem s a l).cur = s.cur := rfl
@[simp] theorem putMem_feEmpty (s : State) (a : Nat) (l : List Byte) : (putMem s a l).feEmpty = s.feEmpty := rfl
@[simp] theorem putMem_memTag (s : State) (a : Nat) (l : List Byte) : (putMem s a l).memTag = s.memTag := rfl
@[simp] theorem putMem_park (s : State) (a : Nat) (l : List Byte) : (putMem s a l).park = s.park := rfl
@[simp] theorem putMem_parkPart (s : State) (a : Nat) (l : List Byte) : (putMem s a l).parkPart = s.parkPart := rfl
@[simp] theorem putMem_hctxs (s : State) (a : Nat) (l : List Byte) : (putMem s a l).hctxs = s.hctxs := rfl
@[simp] theorem putMem_nextHc (s : State) (a : Nat) (l : List Byte) : (putMem s a l).nextHc = s.nextHc := rfl
@[simp] theorem putMem_cores (s : State) (a : Nat) (l : List Byte) : (putMem s a l).cores = s.cores := rfl
@[simp] theorem putMem_copyQ (s : State) (a : Nat) (l : List Byte) : (putMem s a l).copyQ = s.copyQ := rfl
@[simp] theorem putMem_slices (s : State) (a : Nat) (l : List Byte) : (putMem s a l).slices = s.slices := rfl
@[simp] theorem putMem_reds (s : State) (a : Nat) (l : List Byte) : (putMem s a l).reds = s.reds := rfl
@[simp] theorem putMem_parts (s : State) (a : Nat) (l : List Byte) : (putMem s a l).parts = s.parts := rfl
@[simp] theorem putMem_dies (s : State) (a : Nat) (l : List Byte) : (putMem s a l).dies = s.dies := rfl
@[simp] theorem putMem_timers (s : State) (a : Nat) (l : List Byte) : (putMem s a l).timers = s.timers := rfl
@[simp] theorem putMem_msix (s : State) (a : Nat) (l : List Byte) : (putMem s a l).msix = s.msix := rfl
@[simp] theorem putMem_pba (s : State) (a : Nat) (l : List Byte) : (putMem s a l).pba = s.pba := rfl
@[simp] theorem putMem_outbox (s : State) (a : Nat) (l : List Byte) : (putMem s a l).outbox = s.outbox := rfl
@[simp] theorem putMem_mgrEvents (s : State) (a : Nat) (l : List Byte) : (putMem s a l).mgrEvents = s.mgrEvents := rfl
@[simp] theorem putMem_routes (s : State) (a : Nat) (l : List Byte) : (putMem s a l).routes = s.routes := rfl
@[simp] theorem putMem_pkg (s : State) (a : Nat) (l : List Byte) : (putMem s a l).pkg = s.pkg := rfl
@[simp] theorem putMem_linkFailed (s : State) (a : Nat) (l : List Byte) : (putMem s a l).linkFailed = s.linkFailed := rfl
@[simp] theorem putMem_lpddr (s : State) (a : Nat) (l : List Byte) : (putMem s a l).lpddr = s.lpddr := rfl
@[simp] theorem putMem_cxlCap (s : State) (a : Nat) (l : List Byte) : (putMem s a l).cxlCap = s.cxlCap := rfl
@[simp] theorem putMem_cxlFailed (s : State) (a : Nat) (l : List Byte) : (putMem s a l).cxlFailed = s.cxlFailed := rfl
@[simp] theorem putMem_leaf (s : State) (a : Nat) (l : List Byte) : (putMem s a l).leaf = s.leaf := rfl
@[simp] theorem putMem_booted (s : State) (a : Nat) (l : List Byte) : (putMem s a l).booted = s.booted := rfl
@[simp] theorem putMem_bootLeaf (s : State) (a : Nat) (l : List Byte) : (putMem s a l).bootLeaf = s.bootLeaf := rfl
@[simp] theorem putMem_measured (s : State) (a : Nat) (l : List Byte) : (putMem s a l).measured = s.measured := rfl
@[simp] theorem putMem_handles (s : State) (a : Nat) (l : List Byte) : (putMem s a l).handles = s.handles := rfl
@[simp] theorem putMem_loads (s : State) (a : Nat) (l : List Byte) : (putMem s a l).loads = s.loads := rfl
@[simp] theorem putMem_retired (s : State) (a : Nat) (l : List Byte) : (putMem s a l).retired = s.retired := rfl
@[simp] theorem putMem_l2Off (s : State) (a : Nat) (l : List Byte) : (putMem s a l).l2Off = s.l2Off := rfl
@[simp] theorem putMem_cap (s : State) (a : Nat) (l : List Byte) : (putMem s a l).cap = s.cap := rfl
@[simp] theorem putMem_nextCmd (s : State) (a : Nat) (l : List Byte) : (putMem s a l).nextCmd = s.nextCmd := rfl
@[simp] theorem putMem_nextInst (s : State) (a : Nat) (l : List Byte) : (putMem s a l).nextInst = s.nextInst := rfl
@[simp] theorem putMem_clk (s : State) (a : Nat) (l : List Byte) : (putMem s a l).clk = s.clk := rfl

@[simp] theorem putMem64_agenda (s : State) (a : Nat) (v : Word) : (putMem64 s a v).agenda = s.agenda := rfl
@[simp] theorem putMem64_adds (s : State) (a : Nat) (v : Word) : (putMem64 s a v).adds = s.adds := rfl
@[simp] theorem putMem64_rr (s : State) (a : Nat) (v : Word) : (putMem64 s a v).rr = s.rr := rfl
@[simp] theorem putMem64_fresh (s : State) (a : Nat) (v : Word) : (putMem64 s a v).fresh = s.fresh := rfl
@[simp] theorem putMem64_cur (s : State) (a : Nat) (v : Word) : (putMem64 s a v).cur = s.cur := rfl
@[simp] theorem putMem64_feEmpty (s : State) (a : Nat) (v : Word) : (putMem64 s a v).feEmpty = s.feEmpty := rfl
@[simp] theorem putMem64_memTag (s : State) (a : Nat) (v : Word) : (putMem64 s a v).memTag = s.memTag := rfl
@[simp] theorem putMem64_park (s : State) (a : Nat) (v : Word) : (putMem64 s a v).park = s.park := rfl
@[simp] theorem putMem64_parkPart (s : State) (a : Nat) (v : Word) : (putMem64 s a v).parkPart = s.parkPart := rfl
@[simp] theorem putMem64_hctxs (s : State) (a : Nat) (v : Word) : (putMem64 s a v).hctxs = s.hctxs := rfl
@[simp] theorem putMem64_nextHc (s : State) (a : Nat) (v : Word) : (putMem64 s a v).nextHc = s.nextHc := rfl
@[simp] theorem putMem64_cores (s : State) (a : Nat) (v : Word) : (putMem64 s a v).cores = s.cores := rfl
@[simp] theorem putMem64_copyQ (s : State) (a : Nat) (v : Word) : (putMem64 s a v).copyQ = s.copyQ := rfl
@[simp] theorem putMem64_slices (s : State) (a : Nat) (v : Word) : (putMem64 s a v).slices = s.slices := rfl
@[simp] theorem putMem64_reds (s : State) (a : Nat) (v : Word) : (putMem64 s a v).reds = s.reds := rfl
@[simp] theorem putMem64_parts (s : State) (a : Nat) (v : Word) : (putMem64 s a v).parts = s.parts := rfl
@[simp] theorem putMem64_dies (s : State) (a : Nat) (v : Word) : (putMem64 s a v).dies = s.dies := rfl
@[simp] theorem putMem64_timers (s : State) (a : Nat) (v : Word) : (putMem64 s a v).timers = s.timers := rfl
@[simp] theorem putMem64_msix (s : State) (a : Nat) (v : Word) : (putMem64 s a v).msix = s.msix := rfl
@[simp] theorem putMem64_pba (s : State) (a : Nat) (v : Word) : (putMem64 s a v).pba = s.pba := rfl
@[simp] theorem putMem64_outbox (s : State) (a : Nat) (v : Word) : (putMem64 s a v).outbox = s.outbox := rfl
@[simp] theorem putMem64_mgrEvents (s : State) (a : Nat) (v : Word) : (putMem64 s a v).mgrEvents = s.mgrEvents := rfl
@[simp] theorem putMem64_routes (s : State) (a : Nat) (v : Word) : (putMem64 s a v).routes = s.routes := rfl
@[simp] theorem putMem64_pkg (s : State) (a : Nat) (v : Word) : (putMem64 s a v).pkg = s.pkg := rfl
@[simp] theorem putMem64_linkFailed (s : State) (a : Nat) (v : Word) : (putMem64 s a v).linkFailed = s.linkFailed := rfl
@[simp] theorem putMem64_lpddr (s : State) (a : Nat) (v : Word) : (putMem64 s a v).lpddr = s.lpddr := rfl
@[simp] theorem putMem64_cxlCap (s : State) (a : Nat) (v : Word) : (putMem64 s a v).cxlCap = s.cxlCap := rfl
@[simp] theorem putMem64_cxlFailed (s : State) (a : Nat) (v : Word) : (putMem64 s a v).cxlFailed = s.cxlFailed := rfl
@[simp] theorem putMem64_leaf (s : State) (a : Nat) (v : Word) : (putMem64 s a v).leaf = s.leaf := rfl
@[simp] theorem putMem64_booted (s : State) (a : Nat) (v : Word) : (putMem64 s a v).booted = s.booted := rfl
@[simp] theorem putMem64_bootLeaf (s : State) (a : Nat) (v : Word) : (putMem64 s a v).bootLeaf = s.bootLeaf := rfl
@[simp] theorem putMem64_measured (s : State) (a : Nat) (v : Word) : (putMem64 s a v).measured = s.measured := rfl
@[simp] theorem putMem64_handles (s : State) (a : Nat) (v : Word) : (putMem64 s a v).handles = s.handles := rfl
@[simp] theorem putMem64_loads (s : State) (a : Nat) (v : Word) : (putMem64 s a v).loads = s.loads := rfl
@[simp] theorem putMem64_retired (s : State) (a : Nat) (v : Word) : (putMem64 s a v).retired = s.retired := rfl
@[simp] theorem putMem64_l2Off (s : State) (a : Nat) (v : Word) : (putMem64 s a v).l2Off = s.l2Off := rfl
@[simp] theorem putMem64_cap (s : State) (a : Nat) (v : Word) : (putMem64 s a v).cap = s.cap := rfl
@[simp] theorem putMem64_nextCmd (s : State) (a : Nat) (v : Word) : (putMem64 s a v).nextCmd = s.nextCmd := rfl
@[simp] theorem putMem64_nextInst (s : State) (a : Nat) (v : Word) : (putMem64 s a v).nextInst = s.nextInst := rfl
@[simp] theorem putMem64_clk (s : State) (a : Nat) (v : Word) : (putMem64 s a v).clk = s.clk := rfl

@[simp] theorem setMemTag_agenda (s : State) (a : Nat) (t : Tag) : (setMemTag s a t).agenda = s.agenda := rfl
@[simp] theorem setMemTag_adds (s : State) (a : Nat) (t : Tag) : (setMemTag s a t).adds = s.adds := rfl
@[simp] theorem setMemTag_rr (s : State) (a : Nat) (t : Tag) : (setMemTag s a t).rr = s.rr := rfl
@[simp] theorem setMemTag_fresh (s : State) (a : Nat) (t : Tag) : (setMemTag s a t).fresh = s.fresh := rfl
@[simp] theorem setMemTag_cur (s : State) (a : Nat) (t : Tag) : (setMemTag s a t).cur = s.cur := rfl
@[simp] theorem setMemTag_mem (s : State) (a : Nat) (t : Tag) : (setMemTag s a t).mem = s.mem := rfl
@[simp] theorem setMemTag_feEmpty (s : State) (a : Nat) (t : Tag) : (setMemTag s a t).feEmpty = s.feEmpty := rfl
@[simp] theorem setMemTag_park (s : State) (a : Nat) (t : Tag) : (setMemTag s a t).park = s.park := rfl
@[simp] theorem setMemTag_parkPart (s : State) (a : Nat) (t : Tag) : (setMemTag s a t).parkPart = s.parkPart := rfl
@[simp] theorem setMemTag_hctxs (s : State) (a : Nat) (t : Tag) : (setMemTag s a t).hctxs = s.hctxs := rfl
@[simp] theorem setMemTag_nextHc (s : State) (a : Nat) (t : Tag) : (setMemTag s a t).nextHc = s.nextHc := rfl
@[simp] theorem setMemTag_cores (s : State) (a : Nat) (t : Tag) : (setMemTag s a t).cores = s.cores := rfl
@[simp] theorem setMemTag_copyQ (s : State) (a : Nat) (t : Tag) : (setMemTag s a t).copyQ = s.copyQ := rfl
@[simp] theorem setMemTag_slices (s : State) (a : Nat) (t : Tag) : (setMemTag s a t).slices = s.slices := rfl
@[simp] theorem setMemTag_reds (s : State) (a : Nat) (t : Tag) : (setMemTag s a t).reds = s.reds := rfl
@[simp] theorem setMemTag_parts (s : State) (a : Nat) (t : Tag) : (setMemTag s a t).parts = s.parts := rfl
@[simp] theorem setMemTag_dies (s : State) (a : Nat) (t : Tag) : (setMemTag s a t).dies = s.dies := rfl
@[simp] theorem setMemTag_timers (s : State) (a : Nat) (t : Tag) : (setMemTag s a t).timers = s.timers := rfl
@[simp] theorem setMemTag_msix (s : State) (a : Nat) (t : Tag) : (setMemTag s a t).msix = s.msix := rfl
@[simp] theorem setMemTag_pba (s : State) (a : Nat) (t : Tag) : (setMemTag s a t).pba = s.pba := rfl
@[simp] theorem setMemTag_outbox (s : State) (a : Nat) (t : Tag) : (setMemTag s a t).outbox = s.outbox := rfl
@[simp] theorem setMemTag_mgrEvents (s : State) (a : Nat) (t : Tag) : (setMemTag s a t).mgrEvents = s.mgrEvents := rfl
@[simp] theorem setMemTag_routes (s : State) (a : Nat) (t : Tag) : (setMemTag s a t).routes = s.routes := rfl
@[simp] theorem setMemTag_pkg (s : State) (a : Nat) (t : Tag) : (setMemTag s a t).pkg = s.pkg := rfl
@[simp] theorem setMemTag_linkFailed (s : State) (a : Nat) (t : Tag) : (setMemTag s a t).linkFailed = s.linkFailed := rfl
@[simp] theorem setMemTag_lpddr (s : State) (a : Nat) (t : Tag) : (setMemTag s a t).lpddr = s.lpddr := rfl
@[simp] theorem setMemTag_cxlCap (s : State) (a : Nat) (t : Tag) : (setMemTag s a t).cxlCap = s.cxlCap := rfl
@[simp] theorem setMemTag_cxlFailed (s : State) (a : Nat) (t : Tag) : (setMemTag s a t).cxlFailed = s.cxlFailed := rfl
@[simp] theorem setMemTag_leaf (s : State) (a : Nat) (t : Tag) : (setMemTag s a t).leaf = s.leaf := rfl
@[simp] theorem setMemTag_booted (s : State) (a : Nat) (t : Tag) : (setMemTag s a t).booted = s.booted := rfl
@[simp] theorem setMemTag_bootLeaf (s : State) (a : Nat) (t : Tag) : (setMemTag s a t).bootLeaf = s.bootLeaf := rfl
@[simp] theorem setMemTag_measured (s : State) (a : Nat) (t : Tag) : (setMemTag s a t).measured = s.measured := rfl
@[simp] theorem setMemTag_handles (s : State) (a : Nat) (t : Tag) : (setMemTag s a t).handles = s.handles := rfl
@[simp] theorem setMemTag_loads (s : State) (a : Nat) (t : Tag) : (setMemTag s a t).loads = s.loads := rfl
@[simp] theorem setMemTag_retired (s : State) (a : Nat) (t : Tag) : (setMemTag s a t).retired = s.retired := rfl
@[simp] theorem setMemTag_l2Off (s : State) (a : Nat) (t : Tag) : (setMemTag s a t).l2Off = s.l2Off := rfl
@[simp] theorem setMemTag_cap (s : State) (a : Nat) (t : Tag) : (setMemTag s a t).cap = s.cap := rfl
@[simp] theorem setMemTag_nextCmd (s : State) (a : Nat) (t : Tag) : (setMemTag s a t).nextCmd = s.nextCmd := rfl
@[simp] theorem setMemTag_nextInst (s : State) (a : Nat) (t : Tag) : (setMemTag s a t).nextInst = s.nextInst := rfl
@[simp] theorem setMemTag_clk (s : State) (a : Nat) (t : Tag) : (setMemTag s a t).clk = s.clk := rfl

@[simp] theorem setPark_agenda (s : State) (p a : Nat) (b : BitVec 3) : (setPark s p a b).agenda = s.agenda := rfl
@[simp] theorem setPark_adds (s : State) (p a : Nat) (b : BitVec 3) : (setPark s p a b).adds = s.adds := rfl
@[simp] theorem setPark_rr (s : State) (p a : Nat) (b : BitVec 3) : (setPark s p a b).rr = s.rr := rfl
@[simp] theorem setPark_fresh (s : State) (p a : Nat) (b : BitVec 3) : (setPark s p a b).fresh = s.fresh := rfl
@[simp] theorem setPark_cur (s : State) (p a : Nat) (b : BitVec 3) : (setPark s p a b).cur = s.cur := rfl
@[simp] theorem setPark_mem (s : State) (p a : Nat) (b : BitVec 3) : (setPark s p a b).mem = s.mem := rfl
@[simp] theorem setPark_feEmpty (s : State) (p a : Nat) (b : BitVec 3) : (setPark s p a b).feEmpty = s.feEmpty := rfl
@[simp] theorem setPark_memTag (s : State) (p a : Nat) (b : BitVec 3) : (setPark s p a b).memTag = s.memTag := rfl
@[simp] theorem setPark_hctxs (s : State) (p a : Nat) (b : BitVec 3) : (setPark s p a b).hctxs = s.hctxs := rfl
@[simp] theorem setPark_nextHc (s : State) (p a : Nat) (b : BitVec 3) : (setPark s p a b).nextHc = s.nextHc := rfl
@[simp] theorem setPark_cores (s : State) (p a : Nat) (b : BitVec 3) : (setPark s p a b).cores = s.cores := rfl
@[simp] theorem setPark_copyQ (s : State) (p a : Nat) (b : BitVec 3) : (setPark s p a b).copyQ = s.copyQ := rfl
@[simp] theorem setPark_slices (s : State) (p a : Nat) (b : BitVec 3) : (setPark s p a b).slices = s.slices := rfl
@[simp] theorem setPark_reds (s : State) (p a : Nat) (b : BitVec 3) : (setPark s p a b).reds = s.reds := rfl
@[simp] theorem setPark_parts (s : State) (p a : Nat) (b : BitVec 3) : (setPark s p a b).parts = s.parts := rfl
@[simp] theorem setPark_dies (s : State) (p a : Nat) (b : BitVec 3) : (setPark s p a b).dies = s.dies := rfl
@[simp] theorem setPark_timers (s : State) (p a : Nat) (b : BitVec 3) : (setPark s p a b).timers = s.timers := rfl
@[simp] theorem setPark_msix (s : State) (p a : Nat) (b : BitVec 3) : (setPark s p a b).msix = s.msix := rfl
@[simp] theorem setPark_pba (s : State) (p a : Nat) (b : BitVec 3) : (setPark s p a b).pba = s.pba := rfl
@[simp] theorem setPark_outbox (s : State) (p a : Nat) (b : BitVec 3) : (setPark s p a b).outbox = s.outbox := rfl
@[simp] theorem setPark_mgrEvents (s : State) (p a : Nat) (b : BitVec 3) : (setPark s p a b).mgrEvents = s.mgrEvents := rfl
@[simp] theorem setPark_routes (s : State) (p a : Nat) (b : BitVec 3) : (setPark s p a b).routes = s.routes := rfl
@[simp] theorem setPark_pkg (s : State) (p a : Nat) (b : BitVec 3) : (setPark s p a b).pkg = s.pkg := rfl
@[simp] theorem setPark_linkFailed (s : State) (p a : Nat) (b : BitVec 3) : (setPark s p a b).linkFailed = s.linkFailed := rfl
@[simp] theorem setPark_lpddr (s : State) (p a : Nat) (b : BitVec 3) : (setPark s p a b).lpddr = s.lpddr := rfl
@[simp] theorem setPark_cxlCap (s : State) (p a : Nat) (b : BitVec 3) : (setPark s p a b).cxlCap = s.cxlCap := rfl
@[simp] theorem setPark_cxlFailed (s : State) (p a : Nat) (b : BitVec 3) : (setPark s p a b).cxlFailed = s.cxlFailed := rfl
@[simp] theorem setPark_leaf (s : State) (p a : Nat) (b : BitVec 3) : (setPark s p a b).leaf = s.leaf := rfl
@[simp] theorem setPark_booted (s : State) (p a : Nat) (b : BitVec 3) : (setPark s p a b).booted = s.booted := rfl
@[simp] theorem setPark_bootLeaf (s : State) (p a : Nat) (b : BitVec 3) : (setPark s p a b).bootLeaf = s.bootLeaf := rfl
@[simp] theorem setPark_measured (s : State) (p a : Nat) (b : BitVec 3) : (setPark s p a b).measured = s.measured := rfl
@[simp] theorem setPark_handles (s : State) (p a : Nat) (b : BitVec 3) : (setPark s p a b).handles = s.handles := rfl
@[simp] theorem setPark_loads (s : State) (p a : Nat) (b : BitVec 3) : (setPark s p a b).loads = s.loads := rfl
@[simp] theorem setPark_retired (s : State) (p a : Nat) (b : BitVec 3) : (setPark s p a b).retired = s.retired := rfl
@[simp] theorem setPark_l2Off (s : State) (p a : Nat) (b : BitVec 3) : (setPark s p a b).l2Off = s.l2Off := rfl
@[simp] theorem setPark_cap (s : State) (p a : Nat) (b : BitVec 3) : (setPark s p a b).cap = s.cap := rfl
@[simp] theorem setPark_nextCmd (s : State) (p a : Nat) (b : BitVec 3) : (setPark s p a b).nextCmd = s.nextCmd := rfl
@[simp] theorem setPark_nextInst (s : State) (p a : Nat) (b : BitVec 3) : (setPark s p a b).nextInst = s.nextInst := rfl
@[simp] theorem setPark_clk (s : State) (p a : Nat) (b : BitVec 3) : (setPark s p a b).clk = s.clk := rfl

@[simp] theorem State.modPart_agenda (s : State) (p : Nat) (f : Part → Part) : (s.modPart p f).agenda = s.agenda := by
  unfold State.modPart; split <;> rfl
@[simp] theorem State.modPart_adds (s : State) (p : Nat) (f : Part → Part) : (s.modPart p f).adds = s.adds := by
  unfold State.modPart; split <;> rfl
@[simp] theorem State.modPart_rr (s : State) (p : Nat) (f : Part → Part) : (s.modPart p f).rr = s.rr := by
  unfold State.modPart; split <;> rfl
@[simp] theorem State.modPart_fresh (s : State) (p : Nat) (f : Part → Part) : (s.modPart p f).fresh = s.fresh := by
  unfold State.modPart; split <;> rfl
@[simp] theorem State.modPart_cur (s : State) (p : Nat) (f : Part → Part) : (s.modPart p f).cur = s.cur := by
  unfold State.modPart; split <;> rfl
@[simp] theorem State.modPart_mem (s : State) (p : Nat) (f : Part → Part) : (s.modPart p f).mem = s.mem := by
  unfold State.modPart; split <;> rfl
@[simp] theorem State.modPart_feEmpty (s : State) (p : Nat) (f : Part → Part) : (s.modPart p f).feEmpty = s.feEmpty := by
  unfold State.modPart; split <;> rfl
@[simp] theorem State.modPart_memTag (s : State) (p : Nat) (f : Part → Part) : (s.modPart p f).memTag = s.memTag := by
  unfold State.modPart; split <;> rfl
@[simp] theorem State.modPart_park (s : State) (p : Nat) (f : Part → Part) : (s.modPart p f).park = s.park := by
  unfold State.modPart; split <;> rfl
@[simp] theorem State.modPart_parkPart (s : State) (p : Nat) (f : Part → Part) : (s.modPart p f).parkPart = s.parkPart := by
  unfold State.modPart; split <;> rfl
@[simp] theorem State.modPart_hctxs (s : State) (p : Nat) (f : Part → Part) : (s.modPart p f).hctxs = s.hctxs := by
  unfold State.modPart; split <;> rfl
@[simp] theorem State.modPart_nextHc (s : State) (p : Nat) (f : Part → Part) : (s.modPart p f).nextHc = s.nextHc := by
  unfold State.modPart; split <;> rfl
@[simp] theorem State.modPart_cores (s : State) (p : Nat) (f : Part → Part) : (s.modPart p f).cores = s.cores := by
  unfold State.modPart; split <;> rfl
@[simp] theorem State.modPart_copyQ (s : State) (p : Nat) (f : Part → Part) : (s.modPart p f).copyQ = s.copyQ := by
  unfold State.modPart; split <;> rfl
@[simp] theorem State.modPart_slices (s : State) (p : Nat) (f : Part → Part) : (s.modPart p f).slices = s.slices := by
  unfold State.modPart; split <;> rfl
@[simp] theorem State.modPart_reds (s : State) (p : Nat) (f : Part → Part) : (s.modPart p f).reds = s.reds := by
  unfold State.modPart; split <;> rfl
@[simp] theorem State.modPart_dies (s : State) (p : Nat) (f : Part → Part) : (s.modPart p f).dies = s.dies := by
  unfold State.modPart; split <;> rfl
@[simp] theorem State.modPart_timers (s : State) (p : Nat) (f : Part → Part) : (s.modPart p f).timers = s.timers := by
  unfold State.modPart; split <;> rfl
@[simp] theorem State.modPart_msix (s : State) (p : Nat) (f : Part → Part) : (s.modPart p f).msix = s.msix := by
  unfold State.modPart; split <;> rfl
@[simp] theorem State.modPart_pba (s : State) (p : Nat) (f : Part → Part) : (s.modPart p f).pba = s.pba := by
  unfold State.modPart; split <;> rfl
@[simp] theorem State.modPart_outbox (s : State) (p : Nat) (f : Part → Part) : (s.modPart p f).outbox = s.outbox := by
  unfold State.modPart; split <;> rfl
@[simp] theorem State.modPart_mgrEvents (s : State) (p : Nat) (f : Part → Part) : (s.modPart p f).mgrEvents = s.mgrEvents := by
  unfold State.modPart; split <;> rfl
@[simp] theorem State.modPart_routes (s : State) (p : Nat) (f : Part → Part) : (s.modPart p f).routes = s.routes := by
  unfold State.modPart; split <;> rfl
@[simp] theorem State.modPart_pkg (s : State) (p : Nat) (f : Part → Part) : (s.modPart p f).pkg = s.pkg := by
  unfold State.modPart; split <;> rfl
@[simp] theorem State.modPart_linkFailed (s : State) (p : Nat) (f : Part → Part) : (s.modPart p f).linkFailed = s.linkFailed := by
  unfold State.modPart; split <;> rfl
@[simp] theorem State.modPart_lpddr (s : State) (p : Nat) (f : Part → Part) : (s.modPart p f).lpddr = s.lpddr := by
  unfold State.modPart; split <;> rfl
@[simp] theorem State.modPart_cxlCap (s : State) (p : Nat) (f : Part → Part) : (s.modPart p f).cxlCap = s.cxlCap := by
  unfold State.modPart; split <;> rfl
@[simp] theorem State.modPart_cxlFailed (s : State) (p : Nat) (f : Part → Part) : (s.modPart p f).cxlFailed = s.cxlFailed := by
  unfold State.modPart; split <;> rfl
@[simp] theorem State.modPart_leaf (s : State) (p : Nat) (f : Part → Part) : (s.modPart p f).leaf = s.leaf := by
  unfold State.modPart; split <;> rfl
@[simp] theorem State.modPart_booted (s : State) (p : Nat) (f : Part → Part) : (s.modPart p f).booted = s.booted := by
  unfold State.modPart; split <;> rfl
@[simp] theorem State.modPart_bootLeaf (s : State) (p : Nat) (f : Part → Part) : (s.modPart p f).bootLeaf = s.bootLeaf := by
  unfold State.modPart; split <;> rfl
@[simp] theorem State.modPart_measured (s : State) (p : Nat) (f : Part → Part) : (s.modPart p f).measured = s.measured := by
  unfold State.modPart; split <;> rfl
@[simp] theorem State.modPart_handles (s : State) (p : Nat) (f : Part → Part) : (s.modPart p f).handles = s.handles := by
  unfold State.modPart; split <;> rfl
@[simp] theorem State.modPart_loads (s : State) (p : Nat) (f : Part → Part) : (s.modPart p f).loads = s.loads := by
  unfold State.modPart; split <;> rfl
@[simp] theorem State.modPart_retired (s : State) (p : Nat) (f : Part → Part) : (s.modPart p f).retired = s.retired := by
  unfold State.modPart; split <;> rfl
@[simp] theorem State.modPart_l2Off (s : State) (p : Nat) (f : Part → Part) : (s.modPart p f).l2Off = s.l2Off := by
  unfold State.modPart; split <;> rfl
@[simp] theorem State.modPart_cap (s : State) (p : Nat) (f : Part → Part) : (s.modPart p f).cap = s.cap := by
  unfold State.modPart; split <;> rfl
@[simp] theorem State.modPart_nextCmd (s : State) (p : Nat) (f : Part → Part) : (s.modPart p f).nextCmd = s.nextCmd := by
  unfold State.modPart; split <;> rfl
@[simp] theorem State.modPart_nextInst (s : State) (p : Nat) (f : Part → Part) : (s.modPart p f).nextInst = s.nextInst := by
  unfold State.modPart; split <;> rfl
@[simp] theorem State.modPart_clk (s : State) (p : Nat) (f : Part → Part) : (s.modPart p f).clk = s.clk := by
  unfold State.modPart; split <;> rfl

@[simp] theorem State.modHc_agenda (s : State) (i : Nat) (f : HerdCtx → HerdCtx) : (s.modHc i f).agenda = s.agenda := by
  unfold State.modHc; split <;> rfl
@[simp] theorem State.modHc_adds (s : State) (i : Nat) (f : HerdCtx → HerdCtx) : (s.modHc i f).adds = s.adds := by
  unfold State.modHc; split <;> rfl
@[simp] theorem State.modHc_rr (s : State) (i : Nat) (f : HerdCtx → HerdCtx) : (s.modHc i f).rr = s.rr := by
  unfold State.modHc; split <;> rfl
@[simp] theorem State.modHc_fresh (s : State) (i : Nat) (f : HerdCtx → HerdCtx) : (s.modHc i f).fresh = s.fresh := by
  unfold State.modHc; split <;> rfl
@[simp] theorem State.modHc_cur (s : State) (i : Nat) (f : HerdCtx → HerdCtx) : (s.modHc i f).cur = s.cur := by
  unfold State.modHc; split <;> rfl
@[simp] theorem State.modHc_mem (s : State) (i : Nat) (f : HerdCtx → HerdCtx) : (s.modHc i f).mem = s.mem := by
  unfold State.modHc; split <;> rfl
@[simp] theorem State.modHc_feEmpty (s : State) (i : Nat) (f : HerdCtx → HerdCtx) : (s.modHc i f).feEmpty = s.feEmpty := by
  unfold State.modHc; split <;> rfl
@[simp] theorem State.modHc_memTag (s : State) (i : Nat) (f : HerdCtx → HerdCtx) : (s.modHc i f).memTag = s.memTag := by
  unfold State.modHc; split <;> rfl
@[simp] theorem State.modHc_park (s : State) (i : Nat) (f : HerdCtx → HerdCtx) : (s.modHc i f).park = s.park := by
  unfold State.modHc; split <;> rfl
@[simp] theorem State.modHc_parkPart (s : State) (i : Nat) (f : HerdCtx → HerdCtx) : (s.modHc i f).parkPart = s.parkPart := by
  unfold State.modHc; split <;> rfl
@[simp] theorem State.modHc_nextHc (s : State) (i : Nat) (f : HerdCtx → HerdCtx) : (s.modHc i f).nextHc = s.nextHc := by
  unfold State.modHc; split <;> rfl
@[simp] theorem State.modHc_cores (s : State) (i : Nat) (f : HerdCtx → HerdCtx) : (s.modHc i f).cores = s.cores := by
  unfold State.modHc; split <;> rfl
@[simp] theorem State.modHc_copyQ (s : State) (i : Nat) (f : HerdCtx → HerdCtx) : (s.modHc i f).copyQ = s.copyQ := by
  unfold State.modHc; split <;> rfl
@[simp] theorem State.modHc_slices (s : State) (i : Nat) (f : HerdCtx → HerdCtx) : (s.modHc i f).slices = s.slices := by
  unfold State.modHc; split <;> rfl
@[simp] theorem State.modHc_reds (s : State) (i : Nat) (f : HerdCtx → HerdCtx) : (s.modHc i f).reds = s.reds := by
  unfold State.modHc; split <;> rfl
@[simp] theorem State.modHc_parts (s : State) (i : Nat) (f : HerdCtx → HerdCtx) : (s.modHc i f).parts = s.parts := by
  unfold State.modHc; split <;> rfl
@[simp] theorem State.modHc_dies (s : State) (i : Nat) (f : HerdCtx → HerdCtx) : (s.modHc i f).dies = s.dies := by
  unfold State.modHc; split <;> rfl
@[simp] theorem State.modHc_timers (s : State) (i : Nat) (f : HerdCtx → HerdCtx) : (s.modHc i f).timers = s.timers := by
  unfold State.modHc; split <;> rfl
@[simp] theorem State.modHc_msix (s : State) (i : Nat) (f : HerdCtx → HerdCtx) : (s.modHc i f).msix = s.msix := by
  unfold State.modHc; split <;> rfl
@[simp] theorem State.modHc_pba (s : State) (i : Nat) (f : HerdCtx → HerdCtx) : (s.modHc i f).pba = s.pba := by
  unfold State.modHc; split <;> rfl
@[simp] theorem State.modHc_outbox (s : State) (i : Nat) (f : HerdCtx → HerdCtx) : (s.modHc i f).outbox = s.outbox := by
  unfold State.modHc; split <;> rfl
@[simp] theorem State.modHc_mgrEvents (s : State) (i : Nat) (f : HerdCtx → HerdCtx) : (s.modHc i f).mgrEvents = s.mgrEvents := by
  unfold State.modHc; split <;> rfl
@[simp] theorem State.modHc_routes (s : State) (i : Nat) (f : HerdCtx → HerdCtx) : (s.modHc i f).routes = s.routes := by
  unfold State.modHc; split <;> rfl
@[simp] theorem State.modHc_pkg (s : State) (i : Nat) (f : HerdCtx → HerdCtx) : (s.modHc i f).pkg = s.pkg := by
  unfold State.modHc; split <;> rfl
@[simp] theorem State.modHc_linkFailed (s : State) (i : Nat) (f : HerdCtx → HerdCtx) : (s.modHc i f).linkFailed = s.linkFailed := by
  unfold State.modHc; split <;> rfl
@[simp] theorem State.modHc_lpddr (s : State) (i : Nat) (f : HerdCtx → HerdCtx) : (s.modHc i f).lpddr = s.lpddr := by
  unfold State.modHc; split <;> rfl
@[simp] theorem State.modHc_cxlCap (s : State) (i : Nat) (f : HerdCtx → HerdCtx) : (s.modHc i f).cxlCap = s.cxlCap := by
  unfold State.modHc; split <;> rfl
@[simp] theorem State.modHc_cxlFailed (s : State) (i : Nat) (f : HerdCtx → HerdCtx) : (s.modHc i f).cxlFailed = s.cxlFailed := by
  unfold State.modHc; split <;> rfl
@[simp] theorem State.modHc_leaf (s : State) (i : Nat) (f : HerdCtx → HerdCtx) : (s.modHc i f).leaf = s.leaf := by
  unfold State.modHc; split <;> rfl
@[simp] theorem State.modHc_booted (s : State) (i : Nat) (f : HerdCtx → HerdCtx) : (s.modHc i f).booted = s.booted := by
  unfold State.modHc; split <;> rfl
@[simp] theorem State.modHc_bootLeaf (s : State) (i : Nat) (f : HerdCtx → HerdCtx) : (s.modHc i f).bootLeaf = s.bootLeaf := by
  unfold State.modHc; split <;> rfl
@[simp] theorem State.modHc_measured (s : State) (i : Nat) (f : HerdCtx → HerdCtx) : (s.modHc i f).measured = s.measured := by
  unfold State.modHc; split <;> rfl
@[simp] theorem State.modHc_handles (s : State) (i : Nat) (f : HerdCtx → HerdCtx) : (s.modHc i f).handles = s.handles := by
  unfold State.modHc; split <;> rfl
@[simp] theorem State.modHc_loads (s : State) (i : Nat) (f : HerdCtx → HerdCtx) : (s.modHc i f).loads = s.loads := by
  unfold State.modHc; split <;> rfl
@[simp] theorem State.modHc_retired (s : State) (i : Nat) (f : HerdCtx → HerdCtx) : (s.modHc i f).retired = s.retired := by
  unfold State.modHc; split <;> rfl
@[simp] theorem State.modHc_l2Off (s : State) (i : Nat) (f : HerdCtx → HerdCtx) : (s.modHc i f).l2Off = s.l2Off := by
  unfold State.modHc; split <;> rfl
@[simp] theorem State.modHc_cap (s : State) (i : Nat) (f : HerdCtx → HerdCtx) : (s.modHc i f).cap = s.cap := by
  unfold State.modHc; split <;> rfl
@[simp] theorem State.modHc_nextCmd (s : State) (i : Nat) (f : HerdCtx → HerdCtx) : (s.modHc i f).nextCmd = s.nextCmd := by
  unfold State.modHc; split <;> rfl
@[simp] theorem State.modHc_nextInst (s : State) (i : Nat) (f : HerdCtx → HerdCtx) : (s.modHc i f).nextInst = s.nextInst := by
  unfold State.modHc; split <;> rfl
@[simp] theorem State.modHc_clk (s : State) (i : Nat) (f : HerdCtx → HerdCtx) : (s.modHc i f).clk = s.clk := by
  unfold State.modHc; split <;> rfl

@[simp] theorem State.modDie_agenda (s : State) (d : Nat) (f : Die → Die) : (s.modDie d f).agenda = s.agenda := by
  unfold State.modDie; split <;> rfl
@[simp] theorem State.modDie_adds (s : State) (d : Nat) (f : Die → Die) : (s.modDie d f).adds = s.adds := by
  unfold State.modDie; split <;> rfl
@[simp] theorem State.modDie_rr (s : State) (d : Nat) (f : Die → Die) : (s.modDie d f).rr = s.rr := by
  unfold State.modDie; split <;> rfl
@[simp] theorem State.modDie_fresh (s : State) (d : Nat) (f : Die → Die) : (s.modDie d f).fresh = s.fresh := by
  unfold State.modDie; split <;> rfl
@[simp] theorem State.modDie_cur (s : State) (d : Nat) (f : Die → Die) : (s.modDie d f).cur = s.cur := by
  unfold State.modDie; split <;> rfl
@[simp] theorem State.modDie_mem (s : State) (d : Nat) (f : Die → Die) : (s.modDie d f).mem = s.mem := by
  unfold State.modDie; split <;> rfl
@[simp] theorem State.modDie_feEmpty (s : State) (d : Nat) (f : Die → Die) : (s.modDie d f).feEmpty = s.feEmpty := by
  unfold State.modDie; split <;> rfl
@[simp] theorem State.modDie_memTag (s : State) (d : Nat) (f : Die → Die) : (s.modDie d f).memTag = s.memTag := by
  unfold State.modDie; split <;> rfl
@[simp] theorem State.modDie_park (s : State) (d : Nat) (f : Die → Die) : (s.modDie d f).park = s.park := by
  unfold State.modDie; split <;> rfl
@[simp] theorem State.modDie_parkPart (s : State) (d : Nat) (f : Die → Die) : (s.modDie d f).parkPart = s.parkPart := by
  unfold State.modDie; split <;> rfl
@[simp] theorem State.modDie_hctxs (s : State) (d : Nat) (f : Die → Die) : (s.modDie d f).hctxs = s.hctxs := by
  unfold State.modDie; split <;> rfl
@[simp] theorem State.modDie_nextHc (s : State) (d : Nat) (f : Die → Die) : (s.modDie d f).nextHc = s.nextHc := by
  unfold State.modDie; split <;> rfl
@[simp] theorem State.modDie_cores (s : State) (d : Nat) (f : Die → Die) : (s.modDie d f).cores = s.cores := by
  unfold State.modDie; split <;> rfl
@[simp] theorem State.modDie_copyQ (s : State) (d : Nat) (f : Die → Die) : (s.modDie d f).copyQ = s.copyQ := by
  unfold State.modDie; split <;> rfl
@[simp] theorem State.modDie_slices (s : State) (d : Nat) (f : Die → Die) : (s.modDie d f).slices = s.slices := by
  unfold State.modDie; split <;> rfl
@[simp] theorem State.modDie_reds (s : State) (d : Nat) (f : Die → Die) : (s.modDie d f).reds = s.reds := by
  unfold State.modDie; split <;> rfl
@[simp] theorem State.modDie_parts (s : State) (d : Nat) (f : Die → Die) : (s.modDie d f).parts = s.parts := by
  unfold State.modDie; split <;> rfl
@[simp] theorem State.modDie_timers (s : State) (d : Nat) (f : Die → Die) : (s.modDie d f).timers = s.timers := by
  unfold State.modDie; split <;> rfl
@[simp] theorem State.modDie_msix (s : State) (d : Nat) (f : Die → Die) : (s.modDie d f).msix = s.msix := by
  unfold State.modDie; split <;> rfl
@[simp] theorem State.modDie_pba (s : State) (d : Nat) (f : Die → Die) : (s.modDie d f).pba = s.pba := by
  unfold State.modDie; split <;> rfl
@[simp] theorem State.modDie_outbox (s : State) (d : Nat) (f : Die → Die) : (s.modDie d f).outbox = s.outbox := by
  unfold State.modDie; split <;> rfl
@[simp] theorem State.modDie_mgrEvents (s : State) (d : Nat) (f : Die → Die) : (s.modDie d f).mgrEvents = s.mgrEvents := by
  unfold State.modDie; split <;> rfl
@[simp] theorem State.modDie_routes (s : State) (d : Nat) (f : Die → Die) : (s.modDie d f).routes = s.routes := by
  unfold State.modDie; split <;> rfl
@[simp] theorem State.modDie_pkg (s : State) (d : Nat) (f : Die → Die) : (s.modDie d f).pkg = s.pkg := by
  unfold State.modDie; split <;> rfl
@[simp] theorem State.modDie_linkFailed (s : State) (d : Nat) (f : Die → Die) : (s.modDie d f).linkFailed = s.linkFailed := by
  unfold State.modDie; split <;> rfl
@[simp] theorem State.modDie_lpddr (s : State) (d : Nat) (f : Die → Die) : (s.modDie d f).lpddr = s.lpddr := by
  unfold State.modDie; split <;> rfl
@[simp] theorem State.modDie_cxlCap (s : State) (d : Nat) (f : Die → Die) : (s.modDie d f).cxlCap = s.cxlCap := by
  unfold State.modDie; split <;> rfl
@[simp] theorem State.modDie_cxlFailed (s : State) (d : Nat) (f : Die → Die) : (s.modDie d f).cxlFailed = s.cxlFailed := by
  unfold State.modDie; split <;> rfl
@[simp] theorem State.modDie_leaf (s : State) (d : Nat) (f : Die → Die) : (s.modDie d f).leaf = s.leaf := by
  unfold State.modDie; split <;> rfl
@[simp] theorem State.modDie_booted (s : State) (d : Nat) (f : Die → Die) : (s.modDie d f).booted = s.booted := by
  unfold State.modDie; split <;> rfl
@[simp] theorem State.modDie_bootLeaf (s : State) (d : Nat) (f : Die → Die) : (s.modDie d f).bootLeaf = s.bootLeaf := by
  unfold State.modDie; split <;> rfl
@[simp] theorem State.modDie_measured (s : State) (d : Nat) (f : Die → Die) : (s.modDie d f).measured = s.measured := by
  unfold State.modDie; split <;> rfl
@[simp] theorem State.modDie_handles (s : State) (d : Nat) (f : Die → Die) : (s.modDie d f).handles = s.handles := by
  unfold State.modDie; split <;> rfl
@[simp] theorem State.modDie_loads (s : State) (d : Nat) (f : Die → Die) : (s.modDie d f).loads = s.loads := by
  unfold State.modDie; split <;> rfl
@[simp] theorem State.modDie_retired (s : State) (d : Nat) (f : Die → Die) : (s.modDie d f).retired = s.retired := by
  unfold State.modDie; split <;> rfl
@[simp] theorem State.modDie_l2Off (s : State) (d : Nat) (f : Die → Die) : (s.modDie d f).l2Off = s.l2Off := by
  unfold State.modDie; split <;> rfl
@[simp] theorem State.modDie_cap (s : State) (d : Nat) (f : Die → Die) : (s.modDie d f).cap = s.cap := by
  unfold State.modDie; split <;> rfl
@[simp] theorem State.modDie_nextCmd (s : State) (d : Nat) (f : Die → Die) : (s.modDie d f).nextCmd = s.nextCmd := by
  unfold State.modDie; split <;> rfl
@[simp] theorem State.modDie_nextInst (s : State) (d : Nat) (f : Die → Die) : (s.modDie d f).nextInst = s.nextInst := by
  unfold State.modDie; split <;> rfl
@[simp] theorem State.modDie_clk (s : State) (d : Nat) (f : Die → Die) : (s.modDie d f).clk = s.clk := by
  unfold State.modDie; split <;> rfl

@[simp] theorem State.modNode_agenda (s : State) (p n : Nat) (f : Node → Node) : (s.modNode p n f).agenda = s.agenda := State.modPart_agenda _ _ _
@[simp] theorem State.modNode_adds (s : State) (p n : Nat) (f : Node → Node) : (s.modNode p n f).adds = s.adds := State.modPart_adds _ _ _
@[simp] theorem State.modNode_rr (s : State) (p n : Nat) (f : Node → Node) : (s.modNode p n f).rr = s.rr := State.modPart_rr _ _ _
@[simp] theorem State.modNode_fresh (s : State) (p n : Nat) (f : Node → Node) : (s.modNode p n f).fresh = s.fresh := State.modPart_fresh _ _ _
@[simp] theorem State.modNode_cur (s : State) (p n : Nat) (f : Node → Node) : (s.modNode p n f).cur = s.cur := State.modPart_cur _ _ _
@[simp] theorem State.modNode_mem (s : State) (p n : Nat) (f : Node → Node) : (s.modNode p n f).mem = s.mem := State.modPart_mem _ _ _
@[simp] theorem State.modNode_feEmpty (s : State) (p n : Nat) (f : Node → Node) : (s.modNode p n f).feEmpty = s.feEmpty := State.modPart_feEmpty _ _ _
@[simp] theorem State.modNode_memTag (s : State) (p n : Nat) (f : Node → Node) : (s.modNode p n f).memTag = s.memTag := State.modPart_memTag _ _ _
@[simp] theorem State.modNode_park (s : State) (p n : Nat) (f : Node → Node) : (s.modNode p n f).park = s.park := State.modPart_park _ _ _
@[simp] theorem State.modNode_parkPart (s : State) (p n : Nat) (f : Node → Node) : (s.modNode p n f).parkPart = s.parkPart := State.modPart_parkPart _ _ _
@[simp] theorem State.modNode_hctxs (s : State) (p n : Nat) (f : Node → Node) : (s.modNode p n f).hctxs = s.hctxs := State.modPart_hctxs _ _ _
@[simp] theorem State.modNode_nextHc (s : State) (p n : Nat) (f : Node → Node) : (s.modNode p n f).nextHc = s.nextHc := State.modPart_nextHc _ _ _
@[simp] theorem State.modNode_cores (s : State) (p n : Nat) (f : Node → Node) : (s.modNode p n f).cores = s.cores := State.modPart_cores _ _ _
@[simp] theorem State.modNode_copyQ (s : State) (p n : Nat) (f : Node → Node) : (s.modNode p n f).copyQ = s.copyQ := State.modPart_copyQ _ _ _
@[simp] theorem State.modNode_slices (s : State) (p n : Nat) (f : Node → Node) : (s.modNode p n f).slices = s.slices := State.modPart_slices _ _ _
@[simp] theorem State.modNode_reds (s : State) (p n : Nat) (f : Node → Node) : (s.modNode p n f).reds = s.reds := State.modPart_reds _ _ _
@[simp] theorem State.modNode_dies (s : State) (p n : Nat) (f : Node → Node) : (s.modNode p n f).dies = s.dies := State.modPart_dies _ _ _
@[simp] theorem State.modNode_timers (s : State) (p n : Nat) (f : Node → Node) : (s.modNode p n f).timers = s.timers := State.modPart_timers _ _ _
@[simp] theorem State.modNode_msix (s : State) (p n : Nat) (f : Node → Node) : (s.modNode p n f).msix = s.msix := State.modPart_msix _ _ _
@[simp] theorem State.modNode_pba (s : State) (p n : Nat) (f : Node → Node) : (s.modNode p n f).pba = s.pba := State.modPart_pba _ _ _
@[simp] theorem State.modNode_outbox (s : State) (p n : Nat) (f : Node → Node) : (s.modNode p n f).outbox = s.outbox := State.modPart_outbox _ _ _
@[simp] theorem State.modNode_mgrEvents (s : State) (p n : Nat) (f : Node → Node) : (s.modNode p n f).mgrEvents = s.mgrEvents := State.modPart_mgrEvents _ _ _
@[simp] theorem State.modNode_routes (s : State) (p n : Nat) (f : Node → Node) : (s.modNode p n f).routes = s.routes := State.modPart_routes _ _ _
@[simp] theorem State.modNode_pkg (s : State) (p n : Nat) (f : Node → Node) : (s.modNode p n f).pkg = s.pkg := State.modPart_pkg _ _ _
@[simp] theorem State.modNode_linkFailed (s : State) (p n : Nat) (f : Node → Node) : (s.modNode p n f).linkFailed = s.linkFailed := State.modPart_linkFailed _ _ _
@[simp] theorem State.modNode_lpddr (s : State) (p n : Nat) (f : Node → Node) : (s.modNode p n f).lpddr = s.lpddr := State.modPart_lpddr _ _ _
@[simp] theorem State.modNode_cxlCap (s : State) (p n : Nat) (f : Node → Node) : (s.modNode p n f).cxlCap = s.cxlCap := State.modPart_cxlCap _ _ _
@[simp] theorem State.modNode_cxlFailed (s : State) (p n : Nat) (f : Node → Node) : (s.modNode p n f).cxlFailed = s.cxlFailed := State.modPart_cxlFailed _ _ _
@[simp] theorem State.modNode_leaf (s : State) (p n : Nat) (f : Node → Node) : (s.modNode p n f).leaf = s.leaf := State.modPart_leaf _ _ _
@[simp] theorem State.modNode_booted (s : State) (p n : Nat) (f : Node → Node) : (s.modNode p n f).booted = s.booted := State.modPart_booted _ _ _
@[simp] theorem State.modNode_bootLeaf (s : State) (p n : Nat) (f : Node → Node) : (s.modNode p n f).bootLeaf = s.bootLeaf := State.modPart_bootLeaf _ _ _
@[simp] theorem State.modNode_measured (s : State) (p n : Nat) (f : Node → Node) : (s.modNode p n f).measured = s.measured := State.modPart_measured _ _ _
@[simp] theorem State.modNode_handles (s : State) (p n : Nat) (f : Node → Node) : (s.modNode p n f).handles = s.handles := State.modPart_handles _ _ _
@[simp] theorem State.modNode_loads (s : State) (p n : Nat) (f : Node → Node) : (s.modNode p n f).loads = s.loads := State.modPart_loads _ _ _
@[simp] theorem State.modNode_retired (s : State) (p n : Nat) (f : Node → Node) : (s.modNode p n f).retired = s.retired := State.modPart_retired _ _ _
@[simp] theorem State.modNode_l2Off (s : State) (p n : Nat) (f : Node → Node) : (s.modNode p n f).l2Off = s.l2Off := State.modPart_l2Off _ _ _
@[simp] theorem State.modNode_cap (s : State) (p n : Nat) (f : Node → Node) : (s.modNode p n f).cap = s.cap := State.modPart_cap _ _ _
@[simp] theorem State.modNode_nextCmd (s : State) (p n : Nat) (f : Node → Node) : (s.modNode p n f).nextCmd = s.nextCmd := State.modPart_nextCmd _ _ _
@[simp] theorem State.modNode_nextInst (s : State) (p n : Nat) (f : Node → Node) : (s.modNode p n f).nextInst = s.nextInst := State.modPart_nextInst _ _ _
@[simp] theorem State.modNode_clk (s : State) (p n : Nat) (f : Node → Node) : (s.modNode p n f).clk = s.clk := State.modPart_clk _ _ _

@[simp] theorem State.modInst_agenda (s : State) (p n : Nat) (f : Inst → Inst) : (s.modInst p n f).agenda = s.agenda := State.modNode_agenda _ _ _ _
@[simp] theorem State.modInst_adds (s : State) (p n : Nat) (f : Inst → Inst) : (s.modInst p n f).adds = s.adds := State.modNode_adds _ _ _ _
@[simp] theorem State.modInst_rr (s : State) (p n : Nat) (f : Inst → Inst) : (s.modInst p n f).rr = s.rr := State.modNode_rr _ _ _ _
@[simp] theorem State.modInst_fresh (s : State) (p n : Nat) (f : Inst → Inst) : (s.modInst p n f).fresh = s.fresh := State.modNode_fresh _ _ _ _
@[simp] theorem State.modInst_cur (s : State) (p n : Nat) (f : Inst → Inst) : (s.modInst p n f).cur = s.cur := State.modNode_cur _ _ _ _
@[simp] theorem State.modInst_mem (s : State) (p n : Nat) (f : Inst → Inst) : (s.modInst p n f).mem = s.mem := State.modNode_mem _ _ _ _
@[simp] theorem State.modInst_feEmpty (s : State) (p n : Nat) (f : Inst → Inst) : (s.modInst p n f).feEmpty = s.feEmpty := State.modNode_feEmpty _ _ _ _
@[simp] theorem State.modInst_memTag (s : State) (p n : Nat) (f : Inst → Inst) : (s.modInst p n f).memTag = s.memTag := State.modNode_memTag _ _ _ _
@[simp] theorem State.modInst_park (s : State) (p n : Nat) (f : Inst → Inst) : (s.modInst p n f).park = s.park := State.modNode_park _ _ _ _
@[simp] theorem State.modInst_parkPart (s : State) (p n : Nat) (f : Inst → Inst) : (s.modInst p n f).parkPart = s.parkPart := State.modNode_parkPart _ _ _ _
@[simp] theorem State.modInst_hctxs (s : State) (p n : Nat) (f : Inst → Inst) : (s.modInst p n f).hctxs = s.hctxs := State.modNode_hctxs _ _ _ _
@[simp] theorem State.modInst_nextHc (s : State) (p n : Nat) (f : Inst → Inst) : (s.modInst p n f).nextHc = s.nextHc := State.modNode_nextHc _ _ _ _
@[simp] theorem State.modInst_cores (s : State) (p n : Nat) (f : Inst → Inst) : (s.modInst p n f).cores = s.cores := State.modNode_cores _ _ _ _
@[simp] theorem State.modInst_copyQ (s : State) (p n : Nat) (f : Inst → Inst) : (s.modInst p n f).copyQ = s.copyQ := State.modNode_copyQ _ _ _ _
@[simp] theorem State.modInst_slices (s : State) (p n : Nat) (f : Inst → Inst) : (s.modInst p n f).slices = s.slices := State.modNode_slices _ _ _ _
@[simp] theorem State.modInst_reds (s : State) (p n : Nat) (f : Inst → Inst) : (s.modInst p n f).reds = s.reds := State.modNode_reds _ _ _ _
@[simp] theorem State.modInst_dies (s : State) (p n : Nat) (f : Inst → Inst) : (s.modInst p n f).dies = s.dies := State.modNode_dies _ _ _ _
@[simp] theorem State.modInst_timers (s : State) (p n : Nat) (f : Inst → Inst) : (s.modInst p n f).timers = s.timers := State.modNode_timers _ _ _ _
@[simp] theorem State.modInst_msix (s : State) (p n : Nat) (f : Inst → Inst) : (s.modInst p n f).msix = s.msix := State.modNode_msix _ _ _ _
@[simp] theorem State.modInst_pba (s : State) (p n : Nat) (f : Inst → Inst) : (s.modInst p n f).pba = s.pba := State.modNode_pba _ _ _ _
@[simp] theorem State.modInst_outbox (s : State) (p n : Nat) (f : Inst → Inst) : (s.modInst p n f).outbox = s.outbox := State.modNode_outbox _ _ _ _
@[simp] theorem State.modInst_mgrEvents (s : State) (p n : Nat) (f : Inst → Inst) : (s.modInst p n f).mgrEvents = s.mgrEvents := State.modNode_mgrEvents _ _ _ _
@[simp] theorem State.modInst_routes (s : State) (p n : Nat) (f : Inst → Inst) : (s.modInst p n f).routes = s.routes := State.modNode_routes _ _ _ _
@[simp] theorem State.modInst_pkg (s : State) (p n : Nat) (f : Inst → Inst) : (s.modInst p n f).pkg = s.pkg := State.modNode_pkg _ _ _ _
@[simp] theorem State.modInst_linkFailed (s : State) (p n : Nat) (f : Inst → Inst) : (s.modInst p n f).linkFailed = s.linkFailed := State.modNode_linkFailed _ _ _ _
@[simp] theorem State.modInst_lpddr (s : State) (p n : Nat) (f : Inst → Inst) : (s.modInst p n f).lpddr = s.lpddr := State.modNode_lpddr _ _ _ _
@[simp] theorem State.modInst_cxlCap (s : State) (p n : Nat) (f : Inst → Inst) : (s.modInst p n f).cxlCap = s.cxlCap := State.modNode_cxlCap _ _ _ _
@[simp] theorem State.modInst_cxlFailed (s : State) (p n : Nat) (f : Inst → Inst) : (s.modInst p n f).cxlFailed = s.cxlFailed := State.modNode_cxlFailed _ _ _ _
@[simp] theorem State.modInst_leaf (s : State) (p n : Nat) (f : Inst → Inst) : (s.modInst p n f).leaf = s.leaf := State.modNode_leaf _ _ _ _
@[simp] theorem State.modInst_booted (s : State) (p n : Nat) (f : Inst → Inst) : (s.modInst p n f).booted = s.booted := State.modNode_booted _ _ _ _
@[simp] theorem State.modInst_bootLeaf (s : State) (p n : Nat) (f : Inst → Inst) : (s.modInst p n f).bootLeaf = s.bootLeaf := State.modNode_bootLeaf _ _ _ _
@[simp] theorem State.modInst_measured (s : State) (p n : Nat) (f : Inst → Inst) : (s.modInst p n f).measured = s.measured := State.modNode_measured _ _ _ _
@[simp] theorem State.modInst_handles (s : State) (p n : Nat) (f : Inst → Inst) : (s.modInst p n f).handles = s.handles := State.modNode_handles _ _ _ _
@[simp] theorem State.modInst_loads (s : State) (p n : Nat) (f : Inst → Inst) : (s.modInst p n f).loads = s.loads := State.modNode_loads _ _ _ _
@[simp] theorem State.modInst_retired (s : State) (p n : Nat) (f : Inst → Inst) : (s.modInst p n f).retired = s.retired := State.modNode_retired _ _ _ _
@[simp] theorem State.modInst_l2Off (s : State) (p n : Nat) (f : Inst → Inst) : (s.modInst p n f).l2Off = s.l2Off := State.modNode_l2Off _ _ _ _
@[simp] theorem State.modInst_cap (s : State) (p n : Nat) (f : Inst → Inst) : (s.modInst p n f).cap = s.cap := State.modNode_cap _ _ _ _
@[simp] theorem State.modInst_nextCmd (s : State) (p n : Nat) (f : Inst → Inst) : (s.modInst p n f).nextCmd = s.nextCmd := State.modNode_nextCmd _ _ _ _
@[simp] theorem State.modInst_nextInst (s : State) (p n : Nat) (f : Inst → Inst) : (s.modInst p n f).nextInst = s.nextInst := State.modNode_nextInst _ _ _ _
@[simp] theorem State.modInst_clk (s : State) (p n : Nat) (f : Inst → Inst) : (s.modInst p n f).clk = s.clk := State.modNode_clk _ _ _ _

@[simp] theorem State.modMember_agenda (s : State) (i m : Nat) (f : Member → Member) : (s.modMember i m f).agenda = s.agenda := State.modHc_agenda _ _ _
@[simp] theorem State.modMember_adds (s : State) (i m : Nat) (f : Member → Member) : (s.modMember i m f).adds = s.adds := State.modHc_adds _ _ _
@[simp] theorem State.modMember_rr (s : State) (i m : Nat) (f : Member → Member) : (s.modMember i m f).rr = s.rr := State.modHc_rr _ _ _
@[simp] theorem State.modMember_fresh (s : State) (i m : Nat) (f : Member → Member) : (s.modMember i m f).fresh = s.fresh := State.modHc_fresh _ _ _
@[simp] theorem State.modMember_cur (s : State) (i m : Nat) (f : Member → Member) : (s.modMember i m f).cur = s.cur := State.modHc_cur _ _ _
@[simp] theorem State.modMember_mem (s : State) (i m : Nat) (f : Member → Member) : (s.modMember i m f).mem = s.mem := State.modHc_mem _ _ _
@[simp] theorem State.modMember_feEmpty (s : State) (i m : Nat) (f : Member → Member) : (s.modMember i m f).feEmpty = s.feEmpty := State.modHc_feEmpty _ _ _
@[simp] theorem State.modMember_memTag (s : State) (i m : Nat) (f : Member → Member) : (s.modMember i m f).memTag = s.memTag := State.modHc_memTag _ _ _
@[simp] theorem State.modMember_park (s : State) (i m : Nat) (f : Member → Member) : (s.modMember i m f).park = s.park := State.modHc_park _ _ _
@[simp] theorem State.modMember_parkPart (s : State) (i m : Nat) (f : Member → Member) : (s.modMember i m f).parkPart = s.parkPart := State.modHc_parkPart _ _ _
@[simp] theorem State.modMember_nextHc (s : State) (i m : Nat) (f : Member → Member) : (s.modMember i m f).nextHc = s.nextHc := State.modHc_nextHc _ _ _
@[simp] theorem State.modMember_cores (s : State) (i m : Nat) (f : Member → Member) : (s.modMember i m f).cores = s.cores := State.modHc_cores _ _ _
@[simp] theorem State.modMember_copyQ (s : State) (i m : Nat) (f : Member → Member) : (s.modMember i m f).copyQ = s.copyQ := State.modHc_copyQ _ _ _
@[simp] theorem State.modMember_slices (s : State) (i m : Nat) (f : Member → Member) : (s.modMember i m f).slices = s.slices := State.modHc_slices _ _ _
@[simp] theorem State.modMember_reds (s : State) (i m : Nat) (f : Member → Member) : (s.modMember i m f).reds = s.reds := State.modHc_reds _ _ _
@[simp] theorem State.modMember_parts (s : State) (i m : Nat) (f : Member → Member) : (s.modMember i m f).parts = s.parts := State.modHc_parts _ _ _
@[simp] theorem State.modMember_dies (s : State) (i m : Nat) (f : Member → Member) : (s.modMember i m f).dies = s.dies := State.modHc_dies _ _ _
@[simp] theorem State.modMember_timers (s : State) (i m : Nat) (f : Member → Member) : (s.modMember i m f).timers = s.timers := State.modHc_timers _ _ _
@[simp] theorem State.modMember_msix (s : State) (i m : Nat) (f : Member → Member) : (s.modMember i m f).msix = s.msix := State.modHc_msix _ _ _
@[simp] theorem State.modMember_pba (s : State) (i m : Nat) (f : Member → Member) : (s.modMember i m f).pba = s.pba := State.modHc_pba _ _ _
@[simp] theorem State.modMember_outbox (s : State) (i m : Nat) (f : Member → Member) : (s.modMember i m f).outbox = s.outbox := State.modHc_outbox _ _ _
@[simp] theorem State.modMember_mgrEvents (s : State) (i m : Nat) (f : Member → Member) : (s.modMember i m f).mgrEvents = s.mgrEvents := State.modHc_mgrEvents _ _ _
@[simp] theorem State.modMember_routes (s : State) (i m : Nat) (f : Member → Member) : (s.modMember i m f).routes = s.routes := State.modHc_routes _ _ _
@[simp] theorem State.modMember_pkg (s : State) (i m : Nat) (f : Member → Member) : (s.modMember i m f).pkg = s.pkg := State.modHc_pkg _ _ _
@[simp] theorem State.modMember_linkFailed (s : State) (i m : Nat) (f : Member → Member) : (s.modMember i m f).linkFailed = s.linkFailed := State.modHc_linkFailed _ _ _
@[simp] theorem State.modMember_lpddr (s : State) (i m : Nat) (f : Member → Member) : (s.modMember i m f).lpddr = s.lpddr := State.modHc_lpddr _ _ _
@[simp] theorem State.modMember_cxlCap (s : State) (i m : Nat) (f : Member → Member) : (s.modMember i m f).cxlCap = s.cxlCap := State.modHc_cxlCap _ _ _
@[simp] theorem State.modMember_cxlFailed (s : State) (i m : Nat) (f : Member → Member) : (s.modMember i m f).cxlFailed = s.cxlFailed := State.modHc_cxlFailed _ _ _
@[simp] theorem State.modMember_leaf (s : State) (i m : Nat) (f : Member → Member) : (s.modMember i m f).leaf = s.leaf := State.modHc_leaf _ _ _
@[simp] theorem State.modMember_booted (s : State) (i m : Nat) (f : Member → Member) : (s.modMember i m f).booted = s.booted := State.modHc_booted _ _ _
@[simp] theorem State.modMember_bootLeaf (s : State) (i m : Nat) (f : Member → Member) : (s.modMember i m f).bootLeaf = s.bootLeaf := State.modHc_bootLeaf _ _ _
@[simp] theorem State.modMember_measured (s : State) (i m : Nat) (f : Member → Member) : (s.modMember i m f).measured = s.measured := State.modHc_measured _ _ _
@[simp] theorem State.modMember_handles (s : State) (i m : Nat) (f : Member → Member) : (s.modMember i m f).handles = s.handles := State.modHc_handles _ _ _
@[simp] theorem State.modMember_loads (s : State) (i m : Nat) (f : Member → Member) : (s.modMember i m f).loads = s.loads := State.modHc_loads _ _ _
@[simp] theorem State.modMember_retired (s : State) (i m : Nat) (f : Member → Member) : (s.modMember i m f).retired = s.retired := State.modHc_retired _ _ _
@[simp] theorem State.modMember_l2Off (s : State) (i m : Nat) (f : Member → Member) : (s.modMember i m f).l2Off = s.l2Off := State.modHc_l2Off _ _ _
@[simp] theorem State.modMember_cap (s : State) (i m : Nat) (f : Member → Member) : (s.modMember i m f).cap = s.cap := State.modHc_cap _ _ _
@[simp] theorem State.modMember_nextCmd (s : State) (i m : Nat) (f : Member → Member) : (s.modMember i m f).nextCmd = s.nextCmd := State.modHc_nextCmd _ _ _
@[simp] theorem State.modMember_nextInst (s : State) (i m : Nat) (f : Member → Member) : (s.modMember i m f).nextInst = s.nextInst := State.modHc_nextInst _ _ _
@[simp] theorem State.modMember_clk (s : State) (i m : Nat) (f : Member → Member) : (s.modMember i m f).clk = s.clk := State.modHc_clk _ _ _

@[simp] theorem consumeTag_agenda (s : State) (i m : Nat) (t : Tag) : (consumeTag s i m t).agenda = s.agenda := by
  cases t
  · rfl
  · exact State.modMember_agenda _ _ _ _
@[simp] theorem consumeTag_adds (s : State) (i m : Nat) (t : Tag) : (consumeTag s i m t).adds = s.adds := by
  cases t
  · rfl
  · exact State.modMember_adds _ _ _ _
@[simp] theorem consumeTag_rr (s : State) (i m : Nat) (t : Tag) : (consumeTag s i m t).rr = s.rr := by
  cases t
  · rfl
  · exact State.modMember_rr _ _ _ _
@[simp] theorem consumeTag_fresh (s : State) (i m : Nat) (t : Tag) : (consumeTag s i m t).fresh = s.fresh := by
  cases t
  · rfl
  · exact State.modMember_fresh _ _ _ _
@[simp] theorem consumeTag_cur (s : State) (i m : Nat) (t : Tag) : (consumeTag s i m t).cur = s.cur := by
  cases t
  · rfl
  · exact State.modMember_cur _ _ _ _
@[simp] theorem consumeTag_mem (s : State) (i m : Nat) (t : Tag) : (consumeTag s i m t).mem = s.mem := by
  cases t
  · rfl
  · exact State.modMember_mem _ _ _ _
@[simp] theorem consumeTag_feEmpty (s : State) (i m : Nat) (t : Tag) : (consumeTag s i m t).feEmpty = s.feEmpty := by
  cases t
  · rfl
  · exact State.modMember_feEmpty _ _ _ _
@[simp] theorem consumeTag_memTag (s : State) (i m : Nat) (t : Tag) : (consumeTag s i m t).memTag = s.memTag := by
  cases t
  · rfl
  · exact State.modMember_memTag _ _ _ _
@[simp] theorem consumeTag_park (s : State) (i m : Nat) (t : Tag) : (consumeTag s i m t).park = s.park := by
  cases t
  · rfl
  · exact State.modMember_park _ _ _ _
@[simp] theorem consumeTag_parkPart (s : State) (i m : Nat) (t : Tag) : (consumeTag s i m t).parkPart = s.parkPart := by
  cases t
  · rfl
  · exact State.modMember_parkPart _ _ _ _
@[simp] theorem consumeTag_nextHc (s : State) (i m : Nat) (t : Tag) : (consumeTag s i m t).nextHc = s.nextHc := by
  cases t
  · rfl
  · exact State.modMember_nextHc _ _ _ _
@[simp] theorem consumeTag_cores (s : State) (i m : Nat) (t : Tag) : (consumeTag s i m t).cores = s.cores := by
  cases t
  · rfl
  · exact State.modMember_cores _ _ _ _
@[simp] theorem consumeTag_copyQ (s : State) (i m : Nat) (t : Tag) : (consumeTag s i m t).copyQ = s.copyQ := by
  cases t
  · rfl
  · exact State.modMember_copyQ _ _ _ _
@[simp] theorem consumeTag_slices (s : State) (i m : Nat) (t : Tag) : (consumeTag s i m t).slices = s.slices := by
  cases t
  · rfl
  · exact State.modMember_slices _ _ _ _
@[simp] theorem consumeTag_reds (s : State) (i m : Nat) (t : Tag) : (consumeTag s i m t).reds = s.reds := by
  cases t
  · rfl
  · exact State.modMember_reds _ _ _ _
@[simp] theorem consumeTag_parts (s : State) (i m : Nat) (t : Tag) : (consumeTag s i m t).parts = s.parts := by
  cases t
  · rfl
  · exact State.modMember_parts _ _ _ _
@[simp] theorem consumeTag_dies (s : State) (i m : Nat) (t : Tag) : (consumeTag s i m t).dies = s.dies := by
  cases t
  · rfl
  · exact State.modMember_dies _ _ _ _
@[simp] theorem consumeTag_timers (s : State) (i m : Nat) (t : Tag) : (consumeTag s i m t).timers = s.timers := by
  cases t
  · rfl
  · exact State.modMember_timers _ _ _ _
@[simp] theorem consumeTag_msix (s : State) (i m : Nat) (t : Tag) : (consumeTag s i m t).msix = s.msix := by
  cases t
  · rfl
  · exact State.modMember_msix _ _ _ _
@[simp] theorem consumeTag_pba (s : State) (i m : Nat) (t : Tag) : (consumeTag s i m t).pba = s.pba := by
  cases t
  · rfl
  · exact State.modMember_pba _ _ _ _
@[simp] theorem consumeTag_outbox (s : State) (i m : Nat) (t : Tag) : (consumeTag s i m t).outbox = s.outbox := by
  cases t
  · rfl
  · exact State.modMember_outbox _ _ _ _
@[simp] theorem consumeTag_mgrEvents (s : State) (i m : Nat) (t : Tag) : (consumeTag s i m t).mgrEvents = s.mgrEvents := by
  cases t
  · rfl
  · exact State.modMember_mgrEvents _ _ _ _
@[simp] theorem consumeTag_routes (s : State) (i m : Nat) (t : Tag) : (consumeTag s i m t).routes = s.routes := by
  cases t
  · rfl
  · exact State.modMember_routes _ _ _ _
@[simp] theorem consumeTag_pkg (s : State) (i m : Nat) (t : Tag) : (consumeTag s i m t).pkg = s.pkg := by
  cases t
  · rfl
  · exact State.modMember_pkg _ _ _ _
@[simp] theorem consumeTag_linkFailed (s : State) (i m : Nat) (t : Tag) : (consumeTag s i m t).linkFailed = s.linkFailed := by
  cases t
  · rfl
  · exact State.modMember_linkFailed _ _ _ _
@[simp] theorem consumeTag_lpddr (s : State) (i m : Nat) (t : Tag) : (consumeTag s i m t).lpddr = s.lpddr := by
  cases t
  · rfl
  · exact State.modMember_lpddr _ _ _ _
@[simp] theorem consumeTag_cxlCap (s : State) (i m : Nat) (t : Tag) : (consumeTag s i m t).cxlCap = s.cxlCap := by
  cases t
  · rfl
  · exact State.modMember_cxlCap _ _ _ _
@[simp] theorem consumeTag_cxlFailed (s : State) (i m : Nat) (t : Tag) : (consumeTag s i m t).cxlFailed = s.cxlFailed := by
  cases t
  · rfl
  · exact State.modMember_cxlFailed _ _ _ _
@[simp] theorem consumeTag_leaf (s : State) (i m : Nat) (t : Tag) : (consumeTag s i m t).leaf = s.leaf := by
  cases t
  · rfl
  · exact State.modMember_leaf _ _ _ _
@[simp] theorem consumeTag_booted (s : State) (i m : Nat) (t : Tag) : (consumeTag s i m t).booted = s.booted := by
  cases t
  · rfl
  · exact State.modMember_booted _ _ _ _
@[simp] theorem consumeTag_bootLeaf (s : State) (i m : Nat) (t : Tag) : (consumeTag s i m t).bootLeaf = s.bootLeaf := by
  cases t
  · rfl
  · exact State.modMember_bootLeaf _ _ _ _
@[simp] theorem consumeTag_measured (s : State) (i m : Nat) (t : Tag) : (consumeTag s i m t).measured = s.measured := by
  cases t
  · rfl
  · exact State.modMember_measured _ _ _ _
@[simp] theorem consumeTag_handles (s : State) (i m : Nat) (t : Tag) : (consumeTag s i m t).handles = s.handles := by
  cases t
  · rfl
  · exact State.modMember_handles _ _ _ _
@[simp] theorem consumeTag_loads (s : State) (i m : Nat) (t : Tag) : (consumeTag s i m t).loads = s.loads := by
  cases t
  · rfl
  · exact State.modMember_loads _ _ _ _
@[simp] theorem consumeTag_retired (s : State) (i m : Nat) (t : Tag) : (consumeTag s i m t).retired = s.retired := by
  cases t
  · rfl
  · exact State.modMember_retired _ _ _ _
@[simp] theorem consumeTag_l2Off (s : State) (i m : Nat) (t : Tag) : (consumeTag s i m t).l2Off = s.l2Off := by
  cases t
  · rfl
  · exact State.modMember_l2Off _ _ _ _
@[simp] theorem consumeTag_cap (s : State) (i m : Nat) (t : Tag) : (consumeTag s i m t).cap = s.cap := by
  cases t
  · rfl
  · exact State.modMember_cap _ _ _ _
@[simp] theorem consumeTag_nextCmd (s : State) (i m : Nat) (t : Tag) : (consumeTag s i m t).nextCmd = s.nextCmd := by
  cases t
  · rfl
  · exact State.modMember_nextCmd _ _ _ _
@[simp] theorem consumeTag_nextInst (s : State) (i m : Nat) (t : Tag) : (consumeTag s i m t).nextInst = s.nextInst := by
  cases t
  · rfl
  · exact State.modMember_nextInst _ _ _ _
@[simp] theorem consumeTag_clk (s : State) (i m : Nat) (t : Tag) : (consumeTag s i m t).clk = s.clk := by
  cases t
  · rfl
  · exact State.modMember_clk _ _ _ _

@[simp] theorem HerdCtx.setMember_part (h : HerdCtx) (m : Nat) (x : Member) : (h.setMember m x).part = h.part := rfl
@[simp] theorem HerdCtx.setMember_node (h : HerdCtx) (m : Nat) (x : Member) : (h.setMember m x).node = h.node := rfl
@[simp] theorem HerdCtx.setMember_inst (h : HerdCtx) (m : Nat) (x : Member) : (h.setMember m x).inst = h.inst := rfl
@[simp] theorem HerdCtx.setMember_herd (h : HerdCtx) (m : Nat) (x : Member) : (h.setMember m x).herd = h.herd := rfl
@[simp] theorem HerdCtx.setMember_dieRank (h : HerdCtx) (m : Nat) (x : Member) : (h.setMember m x).dieRank = h.dieRank := rfl
@[simp] theorem HerdCtx.setMember_slot (h : HerdCtx) (m : Nat) (x : Member) : (h.setMember m x).slot = h.slot := rfl
@[simp] theorem HerdCtx.setMember_rank (h : HerdCtx) (m : Nat) (x : Member) : (h.setMember m x).rank = h.rank := rfl
@[simp] theorem HerdCtx.setMember_jpos (h : HerdCtx) (m : Nat) (x : Member) : (h.setMember m x).jpos = h.jpos := rfl
@[simp] theorem HerdCtx.setMember_lead (h : HerdCtx) (m : Nat) (x : Member) : (h.setMember m x).lead = h.lead := rfl
@[simp] theorem HerdCtx.setMember_image (h : HerdCtx) (m : Nat) (x : Member) : (h.setMember m x).image = h.image := rfl
@[simp] theorem HerdCtx.setMember_hstate (h : HerdCtx) (m : Nat) (x : Member) : (h.setMember m x).hstate = h.hstate := rfl
@[simp] theorem HerdCtx.setMember_wait (h : HerdCtx) (m : Nat) (x : Member) : (h.setMember m x).wait = h.wait := rfl
@[simp] theorem HerdCtx.setMember_stop (h : HerdCtx) (m : Nat) (x : Member) : (h.setMember m x).stop = h.stop := rfl
@[simp] theorem HerdCtx.setMember_parked (h : HerdCtx) (m : Nat) (x : Member) : (h.setMember m x).parked = h.parked := rfl
@[simp] theorem HerdCtx.setMember_trap (h : HerdCtx) (m : Nat) (x : Member) : (h.setMember m x).trap = h.trap := rfl
@[simp] theorem HerdCtx.setMember_held (h : HerdCtx) (m : Nat) (x : Member) : (h.setMember m x).held = h.held := rfl
@[simp] theorem HerdCtx.setMember_ep (h : HerdCtx) (m : Nat) (x : Member) : (h.setMember m x).ep = h.ep := rfl
@[simp] theorem HerdCtx.setMember_passes (h : HerdCtx) (m : Nat) (x : Member) : (h.setMember m x).passes = h.passes := rfl
@[simp] theorem HerdCtx.setMember_lastRun (h : HerdCtx) (m : Nat) (x : Member) : (h.setMember m x).lastRun = h.lastRun := rfl
@[simp] theorem HerdCtx.setMember_placed (h : HerdCtx) (m : Nat) (x : Member) : (h.setMember m x).placed = h.placed := rfl
@[simp] theorem HerdCtx.setMember_vcc (h : HerdCtx) (m : Nat) (x : Member) : (h.setMember m x).vcc = h.vcc := rfl
@[simp] theorem HerdCtx.setMember_pc (h : HerdCtx) (m : Nat) (x : Member) : (h.setMember m x).pc = h.pc := rfl
@[simp] theorem HerdCtx.setMember_links (h : HerdCtx) (m : Nat) (x : Member) : (h.setMember m x).links = h.links := rfl
@[simp] theorem HerdCtx.setMember_spill (h : HerdCtx) (m : Nat) (x : Member) : (h.setMember m x).spill = h.spill := rfl
@[simp] theorem HerdCtx.setMember_frames (h : HerdCtx) (m : Nat) (x : Member) : (h.setMember m x).frames = h.frames := rfl
@[simp] theorem HerdCtx.setMember_rb (h : HerdCtx) (m : Nat) (x : Member) : (h.setMember m x).rb = h.rb := rfl
@[simp] theorem HerdCtx.setMember_loops (h : HerdCtx) (m : Nat) (x : Member) : (h.setMember m x).loops = h.loops := rfl
@[simp] theorem HerdCtx.setMember_idx (h : HerdCtx) (m : Nat) (x : Member) : (h.setMember m x).idx = h.idx := rfl
@[simp] theorem HerdCtx.setMember_feBudget (h : HerdCtx) (m : Nat) (x : Member) : (h.setMember m x).feBudget = h.feBudget := rfl
@[simp] theorem HerdCtx.setMember_defProfile (h : HerdCtx) (m : Nat) (x : Member) : (h.setMember m x).defProfile = h.defProfile := rfl
@[simp] theorem HerdCtx.setMember_feTries (h : HerdCtx) (m : Nat) (x : Member) : (h.setMember m x).feTries = h.feTries := rfl
@[simp] theorem HerdCtx.setMember_waiteNext (h : HerdCtx) (m : Nat) (x : Member) : (h.setMember m x).waiteNext = h.waiteNext := rfl
@[simp] theorem HerdCtx.setMember_restoreWait (h : HerdCtx) (m : Nat) (x : Member) : (h.setMember m x).restoreWait = h.restoreWait := rfl
@[simp] theorem HerdCtx.setMember_saveEpoch (h : HerdCtx) (m : Nat) (x : Member) : (h.setMember m x).saveEpoch = h.saveEpoch := rfl
@[simp] theorem HerdCtx.setMember_b1 (h : HerdCtx) (m : Nat) (x : Member) : (h.setMember m x).b1 = h.b1 := rfl
@[simp] theorem HerdCtx.setMember_b2 (h : HerdCtx) (m : Nat) (x : Member) : (h.setMember m x).b2 = h.b2 := rfl
@[simp] theorem HerdCtx.setMember_b3 (h : HerdCtx) (m : Nat) (x : Member) : (h.setMember m x).b3 = h.b3 := rfl
@[simp] theorem HerdCtx.setMember_ctxl (h : HerdCtx) (m : Nat) (x : Member) : (h.setMember m x).ctxl = h.ctxl := rfl
@[simp] theorem HerdCtx.setMember_nv (h : HerdCtx) (m : Nat) (x : Member) : (h.setMember m x).nv = h.nv := rfl
@[simp] theorem HerdCtx.setMember_lastFe (h : HerdCtx) (m : Nat) (x : Member) : (h.setMember m x).lastFe = h.lastFe := rfl
@[simp] theorem HerdCtx.setMember_regenWoken (h : HerdCtx) (m : Nat) (x : Member) : (h.setMember m x).regenWoken = h.regenWoken := rfl
@[simp] theorem HerdCtx.setMember_yielded (h : HerdCtx) (m : Nat) (x : Member) : (h.setMember m x).yielded = h.yielded := rfl
@[simp] theorem HerdCtx.setMember_saving (h : HerdCtx) (m : Nat) (x : Member) : (h.setMember m x).saving = h.saving := rfl
@[simp] theorem HerdCtx.setMember_noRestore (h : HerdCtx) (m : Nat) (x : Member) : (h.setMember m x).noRestore = h.noRestore := rfl
@[simp] theorem HerdCtx.setMember_savedSlots (h : HerdCtx) (m : Nat) (x : Member) : (h.setMember m x).savedSlots = h.savedSlots := rfl
@[simp] theorem HerdCtx.setMember_savedAccs (h : HerdCtx) (m : Nat) (x : Member) : (h.setMember m x).savedAccs = h.savedAccs := rfl
@[simp] theorem HerdCtx.setMember_savedShadow (h : HerdCtx) (m : Nat) (x : Member) : (h.setMember m x).savedShadow = h.savedShadow := rfl

@[simp] theorem HerdCtx.modMember_part (h : HerdCtx) (m : Nat) (g : Member → Member) : (h.modMember m g).part = h.part := by
  unfold HerdCtx.modMember; split <;> rfl
@[simp] theorem HerdCtx.modMember_node (h : HerdCtx) (m : Nat) (g : Member → Member) : (h.modMember m g).node = h.node := by
  unfold HerdCtx.modMember; split <;> rfl
@[simp] theorem HerdCtx.modMember_inst (h : HerdCtx) (m : Nat) (g : Member → Member) : (h.modMember m g).inst = h.inst := by
  unfold HerdCtx.modMember; split <;> rfl
@[simp] theorem HerdCtx.modMember_herd (h : HerdCtx) (m : Nat) (g : Member → Member) : (h.modMember m g).herd = h.herd := by
  unfold HerdCtx.modMember; split <;> rfl
@[simp] theorem HerdCtx.modMember_dieRank (h : HerdCtx) (m : Nat) (g : Member → Member) : (h.modMember m g).dieRank = h.dieRank := by
  unfold HerdCtx.modMember; split <;> rfl
@[simp] theorem HerdCtx.modMember_slot (h : HerdCtx) (m : Nat) (g : Member → Member) : (h.modMember m g).slot = h.slot := by
  unfold HerdCtx.modMember; split <;> rfl
@[simp] theorem HerdCtx.modMember_rank (h : HerdCtx) (m : Nat) (g : Member → Member) : (h.modMember m g).rank = h.rank := by
  unfold HerdCtx.modMember; split <;> rfl
@[simp] theorem HerdCtx.modMember_jpos (h : HerdCtx) (m : Nat) (g : Member → Member) : (h.modMember m g).jpos = h.jpos := by
  unfold HerdCtx.modMember; split <;> rfl
@[simp] theorem HerdCtx.modMember_lead (h : HerdCtx) (m : Nat) (g : Member → Member) : (h.modMember m g).lead = h.lead := by
  unfold HerdCtx.modMember; split <;> rfl
@[simp] theorem HerdCtx.modMember_image (h : HerdCtx) (m : Nat) (g : Member → Member) : (h.modMember m g).image = h.image := by
  unfold HerdCtx.modMember; split <;> rfl
@[simp] theorem HerdCtx.modMember_hstate (h : HerdCtx) (m : Nat) (g : Member → Member) : (h.modMember m g).hstate = h.hstate := by
  unfold HerdCtx.modMember; split <;> rfl
@[simp] theorem HerdCtx.modMember_wait (h : HerdCtx) (m : Nat) (g : Member → Member) : (h.modMember m g).wait = h.wait := by
  unfold HerdCtx.modMember; split <;> rfl
@[simp] theorem HerdCtx.modMember_stop (h : HerdCtx) (m : Nat) (g : Member → Member) : (h.modMember m g).stop = h.stop := by
  unfold HerdCtx.modMember; split <;> rfl
@[simp] theorem HerdCtx.modMember_parked (h : HerdCtx) (m : Nat) (g : Member → Member) : (h.modMember m g).parked = h.parked := by
  unfold HerdCtx.modMember; split <;> rfl
@[simp] theorem HerdCtx.modMember_trap (h : HerdCtx) (m : Nat) (g : Member → Member) : (h.modMember m g).trap = h.trap := by
  unfold HerdCtx.modMember; split <;> rfl
@[simp] theorem HerdCtx.modMember_held (h : HerdCtx) (m : Nat) (g : Member → Member) : (h.modMember m g).held = h.held := by
  unfold HerdCtx.modMember; split <;> rfl
@[simp] theorem HerdCtx.modMember_ep (h : HerdCtx) (m : Nat) (g : Member → Member) : (h.modMember m g).ep = h.ep := by
  unfold HerdCtx.modMember; split <;> rfl
@[simp] theorem HerdCtx.modMember_passes (h : HerdCtx) (m : Nat) (g : Member → Member) : (h.modMember m g).passes = h.passes := by
  unfold HerdCtx.modMember; split <;> rfl
@[simp] theorem HerdCtx.modMember_lastRun (h : HerdCtx) (m : Nat) (g : Member → Member) : (h.modMember m g).lastRun = h.lastRun := by
  unfold HerdCtx.modMember; split <;> rfl
@[simp] theorem HerdCtx.modMember_placed (h : HerdCtx) (m : Nat) (g : Member → Member) : (h.modMember m g).placed = h.placed := by
  unfold HerdCtx.modMember; split <;> rfl
@[simp] theorem HerdCtx.modMember_vcc (h : HerdCtx) (m : Nat) (g : Member → Member) : (h.modMember m g).vcc = h.vcc := by
  unfold HerdCtx.modMember; split <;> rfl
@[simp] theorem HerdCtx.modMember_pc (h : HerdCtx) (m : Nat) (g : Member → Member) : (h.modMember m g).pc = h.pc := by
  unfold HerdCtx.modMember; split <;> rfl
@[simp] theorem HerdCtx.modMember_links (h : HerdCtx) (m : Nat) (g : Member → Member) : (h.modMember m g).links = h.links := by
  unfold HerdCtx.modMember; split <;> rfl
@[simp] theorem HerdCtx.modMember_spill (h : HerdCtx) (m : Nat) (g : Member → Member) : (h.modMember m g).spill = h.spill := by
  unfold HerdCtx.modMember; split <;> rfl
@[simp] theorem HerdCtx.modMember_frames (h : HerdCtx) (m : Nat) (g : Member → Member) : (h.modMember m g).frames = h.frames := by
  unfold HerdCtx.modMember; split <;> rfl
@[simp] theorem HerdCtx.modMember_rb (h : HerdCtx) (m : Nat) (g : Member → Member) : (h.modMember m g).rb = h.rb := by
  unfold HerdCtx.modMember; split <;> rfl
@[simp] theorem HerdCtx.modMember_loops (h : HerdCtx) (m : Nat) (g : Member → Member) : (h.modMember m g).loops = h.loops := by
  unfold HerdCtx.modMember; split <;> rfl
@[simp] theorem HerdCtx.modMember_idx (h : HerdCtx) (m : Nat) (g : Member → Member) : (h.modMember m g).idx = h.idx := by
  unfold HerdCtx.modMember; split <;> rfl
@[simp] theorem HerdCtx.modMember_feBudget (h : HerdCtx) (m : Nat) (g : Member → Member) : (h.modMember m g).feBudget = h.feBudget := by
  unfold HerdCtx.modMember; split <;> rfl
@[simp] theorem HerdCtx.modMember_defProfile (h : HerdCtx) (m : Nat) (g : Member → Member) : (h.modMember m g).defProfile = h.defProfile := by
  unfold HerdCtx.modMember; split <;> rfl
@[simp] theorem HerdCtx.modMember_feTries (h : HerdCtx) (m : Nat) (g : Member → Member) : (h.modMember m g).feTries = h.feTries := by
  unfold HerdCtx.modMember; split <;> rfl
@[simp] theorem HerdCtx.modMember_waiteNext (h : HerdCtx) (m : Nat) (g : Member → Member) : (h.modMember m g).waiteNext = h.waiteNext := by
  unfold HerdCtx.modMember; split <;> rfl
@[simp] theorem HerdCtx.modMember_restoreWait (h : HerdCtx) (m : Nat) (g : Member → Member) : (h.modMember m g).restoreWait = h.restoreWait := by
  unfold HerdCtx.modMember; split <;> rfl
@[simp] theorem HerdCtx.modMember_saveEpoch (h : HerdCtx) (m : Nat) (g : Member → Member) : (h.modMember m g).saveEpoch = h.saveEpoch := by
  unfold HerdCtx.modMember; split <;> rfl
@[simp] theorem HerdCtx.modMember_b1 (h : HerdCtx) (m : Nat) (g : Member → Member) : (h.modMember m g).b1 = h.b1 := by
  unfold HerdCtx.modMember; split <;> rfl
@[simp] theorem HerdCtx.modMember_b2 (h : HerdCtx) (m : Nat) (g : Member → Member) : (h.modMember m g).b2 = h.b2 := by
  unfold HerdCtx.modMember; split <;> rfl
@[simp] theorem HerdCtx.modMember_b3 (h : HerdCtx) (m : Nat) (g : Member → Member) : (h.modMember m g).b3 = h.b3 := by
  unfold HerdCtx.modMember; split <;> rfl
@[simp] theorem HerdCtx.modMember_ctxl (h : HerdCtx) (m : Nat) (g : Member → Member) : (h.modMember m g).ctxl = h.ctxl := by
  unfold HerdCtx.modMember; split <;> rfl
@[simp] theorem HerdCtx.modMember_nv (h : HerdCtx) (m : Nat) (g : Member → Member) : (h.modMember m g).nv = h.nv := by
  unfold HerdCtx.modMember; split <;> rfl
@[simp] theorem HerdCtx.modMember_lastFe (h : HerdCtx) (m : Nat) (g : Member → Member) : (h.modMember m g).lastFe = h.lastFe := by
  unfold HerdCtx.modMember; split <;> rfl
@[simp] theorem HerdCtx.modMember_regenWoken (h : HerdCtx) (m : Nat) (g : Member → Member) : (h.modMember m g).regenWoken = h.regenWoken := by
  unfold HerdCtx.modMember; split <;> rfl
@[simp] theorem HerdCtx.modMember_yielded (h : HerdCtx) (m : Nat) (g : Member → Member) : (h.modMember m g).yielded = h.yielded := by
  unfold HerdCtx.modMember; split <;> rfl
@[simp] theorem HerdCtx.modMember_saving (h : HerdCtx) (m : Nat) (g : Member → Member) : (h.modMember m g).saving = h.saving := by
  unfold HerdCtx.modMember; split <;> rfl
@[simp] theorem HerdCtx.modMember_noRestore (h : HerdCtx) (m : Nat) (g : Member → Member) : (h.modMember m g).noRestore = h.noRestore := by
  unfold HerdCtx.modMember; split <;> rfl
@[simp] theorem HerdCtx.modMember_savedSlots (h : HerdCtx) (m : Nat) (g : Member → Member) : (h.modMember m g).savedSlots = h.savedSlots := by
  unfold HerdCtx.modMember; split <;> rfl
@[simp] theorem HerdCtx.modMember_savedAccs (h : HerdCtx) (m : Nat) (g : Member → Member) : (h.modMember m g).savedAccs = h.savedAccs := by
  unfold HerdCtx.modMember; split <;> rfl
@[simp] theorem HerdCtx.modMember_savedShadow (h : HerdCtx) (m : Nat) (g : Member → Member) : (h.modMember m g).savedShadow = h.savedShadow := by
  unfold HerdCtx.modMember; split <;> rfl

@[simp] theorem Member.setStrm_core (m : Member) (n : Nat) (x : Strm) : (m.setStrm n x).core = m.core := rfl
@[simp] theorem Member.setStrm_s (m : Member) (n : Nat) (x : Strm) : (m.setStrm n x).s = m.s := rfl
@[simp] theorem Member.setStrm_p (m : Member) (n : Nat) (x : Strm) : (m.setStrm n x).p = m.p := rfl
@[simp] theorem Member.setStrm_k (m : Member) (n : Nat) (x : Strm) : (m.setStrm n x).k = m.k := rfl
@[simp] theorem Member.setStrm_seed (m : Member) (n : Nat) (x : Strm) : (m.setStrm n x).seed = m.seed := rfl
@[simp] theorem Member.setStrm_v (m : Member) (n : Nat) (x : Strm) : (m.setStrm n x).v = m.v := rfl
@[simp] theorem Member.setStrm_h (m : Member) (n : Nat) (x : Strm) : (m.setStrm n x).h = m.h := rfl
@[simp] theorem Member.setStrm_fpstat (m : Member) (n : Nat) (x : Strm) : (m.setStrm n x).fpstat = m.fpstat := rfl
@[simp] theorem Member.setStrm_cir (m : Member) (n : Nat) (x : Strm) : (m.setStrm n x).cir = m.cir := rfl
@[simp] theorem Member.setStrm_args (m : Member) (n : Nat) (x : Strm) : (m.setStrm n x).args = m.args := rfl
@[simp] theorem Member.setStrm_inflight (m : Member) (n : Nat) (x : Strm) : (m.setStrm n x).inflight = m.inflight := rfl
@[simp] theorem Member.setStrm_consume (m : Member) (n : Nat) (x : Strm) : (m.setStrm n x).consume = m.consume := rfl
@[simp] theorem Member.setStrm_feHeld (m : Member) (n : Nat) (x : Strm) : (m.setStrm n x).feHeld = m.feHeld := rfl
@[simp] theorem Member.setStrm_popHeld (m : Member) (n : Nat) (x : Strm) : (m.setStrm n x).popHeld = m.popHeld := rfl

/-! ### What is written -/

@[simp] theorem State.setHc_hc (s : State) (i : Nat) (x : HerdCtx) : (s.setHc i x).hc? i = some x := aget_aset_same _ _ _

theorem State.setHc_hc_other (s : State) (i j : Nat) (x : HerdCtx) (h : j ≠ i) : (s.setHc i x).hc? j = s.hc? j :=
  aget_aset_other _ _ _ _ h

@[simp] theorem State.setHc_setHc (s : State) (i : Nat) (x y : HerdCtx) : (s.setHc i x).setHc i y = s.setHc i y := by
  simp [State.setHc]

@[simp] theorem State.setCore_core (s : State) (c : Nat) (k : Core) : (s.setCore c k).core c = k := by
  simp [State.setCore, State.core]

theorem State.setCore_core_other (s : State) (c d : Nat) (k : Core) (h : d ≠ c) : (s.setCore c k).core d = s.core d := by
  simp [State.setCore, State.core, aget_aset_other _ _ _ _ h]

@[simp] theorem State.setPart_part (s : State) (p : Nat) (x : Part) : (s.setPart p x).part? p = some x :=
  aget_aset_same _ _ _

theorem State.setPart_part_other (s : State) (p q : Nat) (x : Part) (h : q ≠ p) : (s.setPart p x).part? q = s.part? q :=
  aget_aset_other _ _ _ _ h

theorem State.modHc_of (s : State) (i : Nat) (f : HerdCtx → HerdCtx) (h : HerdCtx) (hh : s.hc? i = some h) :
    s.modHc i f = s.setHc i (f h) := by
  simp [State.modHc, hh]

theorem State.modHc_hc (s : State) (i : Nat) (f : HerdCtx → HerdCtx) : (s.modHc i f).hc? i = (s.hc? i).map f := by
  unfold State.modHc
  split
  · rename_i x hx
    simp [hx]
  · rename_i hx
    simp [hx]

theorem State.modHc_hc_other (s : State) (i j : Nat) (f : HerdCtx → HerdCtx) (h : j ≠ i) :
    (s.modHc i f).hc? j = s.hc? j := by
  unfold State.modHc
  split
  · exact State.setHc_hc_other _ _ _ _ h
  · rfl

/-- Two updates of one herd-context are one. -/
theorem State.modHc_modHc (s : State) (i : Nat) (f g : HerdCtx → HerdCtx) : (s.modHc i f).modHc i g = s.modHc i (g ∘ f) := by
  unfold State.modHc
  cases h : s.hc? i with
  | none => simp [h]
  | some x => simp

theorem State.modHc_self (s : State) (i : Nat) (f : HerdCtx → HerdCtx) : (s.modHc i f).modHc i (fun h => h) = s.modHc i f := by
  rw [State.modHc_modHc]
  rfl

theorem HerdCtx.setMember_same (h : HerdCtx) (m : Nat) (x : Member) (hm : m < h.members.length) :
    (h.setMember m x).member? m = some x := lset_get_same _ _ _ hm

theorem HerdCtx.setMember_other (h : HerdCtx) (m j : Nat) (x : Member) (hj : j ≠ m) :
    (h.setMember m x).member? j = h.member? j := lset_get_other _ _ _ _ hj

@[simp] theorem HerdCtx.setMember_length (h : HerdCtx) (m : Nat) (x : Member) :
    (h.setMember m x).members.length = h.members.length := lset_length _ _ _

@[simp] theorem HerdCtx.modMember_length (h : HerdCtx) (m : Nat) (f : Member → Member) :
    (h.modMember m f).members.length = h.members.length := by
  unfold HerdCtx.modMember
  split
  · exact lset_length _ _ _
  · rfl

theorem State.modMember_members (s : State) (i m : Nat) (f : Member → Member) (h : HerdCtx) (hh : s.hc? i = some h) :
    (s.modMember i m f).hc? i = some (h.modMember m f) := by
  simp [State.modMember, State.modHc_hc, hh]

end Sys2Proof.Machine
end

