-- ==== Sys2Proof/Laws/Issue.lean ====
section
/-! SUPPORT. How a bundle issues: a bundle that no check, wait or slot stops commits, and a bundle of one operation that
acts on registers alone leaves exactly its members' updates and the commit. -/

namespace Sys2Proof.Machine

theorem issues_iff (u : State) (id : Nat) (h : HerdCtx) (b : Bundle) :
    issues u id h b = true ↔
      u.hc? id = some h ∧ h.hstate = .running ∧ h.rb = none ∧ encodingFault u h b (h.sys u) = none ∧
      b.drains u id h = false ∧ h.members.any (·.late h.vcc) = false ∧ pausedOnQueue u id h b = false ∧
      h.waiteNext = 0 ∧ h.leadOf < h.members.length ∧ h.members.all Member.hasRoom = true ∧ h.pushed = false := by
  simp only [issues, Bool.and_eq_true, decide_eq_true_eq, Option.isNone_iff_eq_none, Bool.not_eq_true', and_assoc]

theorem bindSlot_zero (s : State) (h : HerdCtx) (b : Bundle) (i : Instr) (hi : i.rn = 0) : bindSlot s h b i = none := by
  simp [bindSlot, hi]

theorem routineCall_zero (s : State) (id : Nat) (h : HerdCtx) (b : Bundle) (k : Nat) (i : Instr) (hi : i.rn = 0) :
    routineCall s id h b k i = none := by
  simp [routineCall, bindSlot_zero s h b i hi]

theorem linkFull_nil (h : HerdCtx) : linkFull h [] = none := by
  simp [linkFull]

/-- The control input of a bundle whose lead is a member. -/
theorem ctlIn_some (u : State) (id : Nat) (h : HerdCtx) (b : Bundle) (hl : h.leadOf < h.members.length) :
    ctlIn u id h b = some
      { h := h, c := ctxFor u id h b.h.scope 0 h.leadOf (h.members[h.leadOf]), pc := h.pc,
        next := h.pc + BitVec.ofNat 64 b.bytes } := by
  simp [ctlIn, slotCtx, HerdCtx.member?, hl, ctxFor]

theorem engineBusy_zero (h : HerdCtx) (s : State) (id : Nat) (hw : h.waiteNext = 0) :
    (List.range 5).any (fun k => h.waiteNext.getLsbD k && engineBusy s id h k) = false := by
  simp [hw]

theorem bundleWait_none (s : State) (id : Nat) (h : HerdCtx) (hw : h.waiteNext = 0) :
    bundleWait s id h [] none none (fun _ => false) = none := by
  unfold bundleWait
  rw [engineBusy_zero h s id hw]
  rfl

/-- A herd-context that runs takes what is due before its bundle issues. -/
theorem landLive_running (s : State) (id : Nat) (h : HerdCtx) (h1 : (landAll s id).hc? id = some h)
    (h2 : h.hstate = .running) : landLive s id = landAll s id := by
  unfold landLive
  simp [h1, HerdCtx.stands, h2]

theorem chkeWaits_false (u : State) (id : Nat) (h : HerdCtx) (b : Bundle) (hd : b.drains u id h = false) :
    chkeWaits u id h b = false := by
  unfold Bundle.drains at hd
  simp_all [chkeWaits]

/-- A bundle that no wait and no early trap stands before comes to steps 4 and 5 of R366. -/
theorem issueOne_now (i : Instr) (s : State) (id : Nat) (h : HerdCtx) (ra rb : Option RCall)
    (hr : Ready s id h (bundleOf i))
    (hra : routineCall (landAll s id) id h (bundleOf i) 4 (bundleOf i).ra = ra)
    (hrb : routineCall (landAll s id) id h (bundleOf i) 5 (bundleOf i).rb = rb)
    (hnest : loopNest h (bundleOf i) = none) (hlink : linkFull h (ra.toList ++ rb.toList) = none)
    (stops : List (Nat × Nat × Stop)) (hstops : stopsOf (landAll s id) id h (bundleOf i) = stops)
    (htrap : firstTrap true stops = none) (hwait : bundleWait (landAll s id) id h stops ra rb (fun _ => false) = none)
    (hpb : rb.any (·.popsPaused (landAll s id)) = false) :
    issueOne i s = .next (issueNow (landAll s id) id h (bundleOf i) stops ra rb) := by
  obtain ⟨hc, hi⟩ := hr
  rw [issues_iff] at hi
  obtain ⟨h1, h2, h3, h4, h5, h6, h7, h8, h9, h10, h11⟩ := hi
  have hd : (bundleOf i).h.d = false := by
    unfold Bundle.drains at h5
    exact (Bool.or_eq_false_iff.mp h5).1
  have hck : issueChecked (landAll s id) id h (bundleOf i) =
      issueNow (landAll s id) id h (bundleOf i) stops ra rb := by
    unfold issueChecked
    simp only [h6, h7, Bool.false_eq_true, if_false, Bool.false_and, hra, hrb, hstops, htrap, hnest, hlink, hwait,
      chkeWaits_false _ _ _ _ h5, Bool.or_self, hpb]
    rfl
  unfold issueOne issueBundle
  rw [hc]
  simp only [landLive_running s id h h1 h2, h1, h2, h3, h4, h11, bne_self_eq_false, Bool.false_eq_true, if_false]
  unfold issueEncoded
  simp only [hd, Bool.false_eq_true, if_false]
  rw [hck]

/-- A bundle that no wait, no trap and no slot stops completes. -/
theorem issueOne_finishes (i : Instr) (s : State) (id : Nat) (h : HerdCtx) (ra rb : Option RCall)
    (hr : Ready s id h (bundleOf i))
    (hra : routineCall (landAll s id) id h (bundleOf i) 4 (bundleOf i).ra = ra)
    (hrb : routineCall (landAll s id) id h (bundleOf i) 5 (bundleOf i).rb = rb)
    (hnest : loopNest h (bundleOf i) = none) (hlink : linkFull h (ra.toList ++ rb.toList) = none)
    (hstops : stopsOf (landAll s id) id h (bundleOf i) = [])
    (hwait : bundleWait (landAll s id) id h [] ra rb (fun _ => false) = none)
    (hpb : rb.any (·.popsPaused (landAll s id)) = false) :
    issueOne i s = .next (finishBundle (landAll s id) id h (bundleOf i) ra rb) :=
  issueOne_now i s id h ra rb hr hra hrb hnest hlink [] hstops rfl hwait hpb

/-- The slots of a bundle that does not write its pushes at once. -/
theorem runSlotIn_false : runSlotIn false = runSlot := by
  funext s x
  unfold runSlotIn
  cases runSlot s x <;> simp

/-- A bundle without routines has none that may stop. -/
theorem commitStops_none (s : State) (id : Nat) (h : HerdCtx) (b : Bundle) (o : CtlOut) :
    commitStops s id h b o none none = false := rfl

/-- A bundle whose control operation and slots run commits. -/
theorem finishBundle_commits (u : State) (id : Nat) (h : HerdCtx) (b : Bundle) (t : State) (o : CtlOut) (ra rb : Option RCall)
    (hl : h.leadOf < h.members.length) (hnow : b.writesNow = false)
    (hctl : ∀ x, ctlIn u id h b = some x → runControl b.c x u = .ok o)
    (hrun : foldStop runSlot (slotRuns u id h b) u = .ok t) (hfit : (t.hc? id).map fitsSnapshot = some true)
    (hpops : ra.any (·.popsPaused (actsOn t id)) = false)
    (hw : unwritten (commit t id h b o ra rb) id = true → commitStops t id h b o ra rb = false) :
    finishBundle u id h b ra rb = commit t id h b o ra rb := by
  have hx := ctlIn_some u id h b hl
  unfold finishBundle completeBundle
  rw [hx]
  have hw' : (unwritten (commit t id h b o ra rb) id && commitStops t id h b o ra rb) = false := by
    cases hu : unwritten (commit t id h b o ra rb) id with
    | false => rfl
    | true => exact hw hu
  simp only [hctl _ hx, hnow, runSlotIn_false, hrun, hfit, Option.getD_some, Bool.true_eq_false, if_false, hpops, hw',
    Bool.false_eq_true]

/-- A bundle without routines that nothing stops commits. -/
theorem issueOne_commits (i : Instr) (s : State) (id : Nat) (h : HerdCtx) (t : State) (o : CtlOut)
    (hr : Ready s id h (bundleOf i)) (ha : (bundleOf i).ra.rn = 0) (hb : (bundleOf i).rb.rn = 0)
    (hnow : (bundleOf i).writesNow = false)
    (hstops : stopsOf (landAll s id) id h (bundleOf i) = [])
    (hctl : ∀ x, ctlIn (landAll s id) id h (bundleOf i) = some x → runControl (bundleOf i).c x (landAll s id) = .ok o)
    (hrun : foldStop runSlot (slotRuns (landAll s id) id h (bundleOf i)) (landAll s id) = .ok t)
    (hfit : (t.hc? id).map fitsSnapshot = some true) :
    issueOne i s = .next (commit t id h (bundleOf i) o none none) := by
  have hi := (issues_iff _ _ _ _).mp hr.2
  have hrn : loopNest h (bundleOf i) = none := by
    unfold loopNest
    simp [Bundle.routines, ha, hb]
  rw [issueOne_finishes i s id h none none hr (routineCall_zero _ _ _ _ _ _ ha) (routineCall_zero _ _ _ _ _ _ hb) hrn
    (linkFull_nil h) hstops (bundleWait_none _ _ _ hi.2.2.2.2.2.2.2.1) rfl,
    finishBundle_commits _ id h _ t o none none hi.2.2.2.2.2.2.2.2.1 hnow hctl hrun hfit rfl fun _ => rfl]

/-! ### Bundles of one S, V or M operation -/

theorem bundleOf_scalar (i : Instr) (hk : i.kind = .scalar) :
    bundleOf i = ⟨plainHdr 1, .ctrlNop 0, i, .vnop, .mnop, noRoutine, noRoutine⟩ := by
  unfold bundleOf
  rw [hk]

theorem bundleOf_vector (i : Instr) (hk : i.kind = .vector) :
    bundleOf i = ⟨plainHdr 2, .ctrlNop 0, .snop, i, .mnop, noRoutine, noRoutine⟩ := by
  unfold bundleOf
  rw [hk]

theorem bundleOf_memory (i : Instr) (hk : i.kind = .memory) :
    bundleOf i = ⟨plainHdr 4, .ctrlNop 0, .snop, .vnop, i, noRoutine, noRoutine⟩ := by
  unfold bundleOf
  rw [hk]

theorem runSlot_snop (s : State) (c : Ctx) : runSlot s (c, .snop) = .ok s := by
  unfold runSlot
  split <;> rfl

theorem runSlot_vnop (s : State) (c : Ctx) : runSlot s (c, .vnop) = .ok s := by
  unfold runSlot
  split <;> rfl

theorem runSlot_mnop (s : State) (c : Ctx) : runSlot s (c, .mnop) = .ok s := by
  unfold runSlot
  split <;> rfl

theorem noRoutine_rn : noRoutine.rn = 0 := by decide

/-- The parts of a bundle of one operation that do not depend on its kind. -/
theorem solo_parts (i : Instr) (hi : isSolo i) :
    (bundleOf i).c = .ctrlNop 0 ∧ (bundleOf i).ra.rn = 0 ∧ (bundleOf i).rb.rn = 0 ∧ (bundleOf i).h.e = false ∧
    (bundleOf i).h.scope = 0 ∧ (bundleOf i).bytes = 16 := by
  rcases hi with hk | hk | hk
  · rw [bundleOf_scalar i hk]; exact ⟨rfl, noRoutine_rn, noRoutine_rn, rfl, rfl, (by decide : 8 * (plainHdr 1).words = 16)⟩
  · rw [bundleOf_vector i hk]; exact ⟨rfl, noRoutine_rn, noRoutine_rn, rfl, rfl, (by decide : 8 * (plainHdr 2).words = 16)⟩
  · rw [bundleOf_memory i hk]; exact ⟨rfl, noRoutine_rn, noRoutine_rn, rfl, rfl, (by decide : 8 * (plainHdr 4).words = 16)⟩

/-- A bundle of one operation leaves what it pushes to the herd-context's next bundle. -/
theorem solo_writesNow (i : Instr) (hi : isSolo i) : (bundleOf i).writesNow = false := by
  have hr : (∀ x ∈ (bundleOf i).routines, (x.2.rn != 0) = false) := by
    have := solo_parts i hi
    simp only [Bundle.routines, List.mem_cons, List.not_mem_nil, or_false]
    rintro x (rfl | rfl) <;> simp [this.2.1, this.2.2.1]
  have hv : (bundleOf i).pushes = false ∨ (bundleOf i).m = .mnop := by
    rcases hi with hk | hk | hk
    · exact .inr (by rw [bundleOf_scalar i hk])
    · exact .inr (by rw [bundleOf_vector i hk])
    · exact .inl (by rw [bundleOf_memory i hk]; rfl)
  have ha : ((bundleOf i).routines.any fun x => x.2.rn != 0) = false := by
    rw [List.any_eq_false]
    exact fun x hx => by simp [hr x hx]
  unfold Bundle.writesNow
  rcases hv with hv | hv
  · rw [hv]; rfl
  · rw [ha, hv]; simp

theorem slotCtx_of (u : State) (id : Nat) (h : HerdCtx) (b : Bundle) (k sl : Nat) (m : Member) (hm : h.members[k]? = some m) :
    slotCtx u id h b k sl = some (ctxFor u id h b.h.scope sl k m) := by
  simp [slotCtx, HerdCtx.member?, hm, ctxFor]

/-- The slots of one member of a bundle of one operation: that operation, and two no-ops. -/
theorem solo_member (u : State) (id : Nat) (h : HerdCtx) (i : Instr) (hi : isSolo i) (k : Nat) (m : Member)
    (hm : h.members[k]? = some m) (s : State) :
    foldStop runSlot ((bundleOf i).slots.filterMap fun (j, x) => (slotCtx u id h (bundleOf i) k j).map fun c => (c, x)) s =
      runSlot s (ctxFor u id h 0 (soloSlot i) k m, i) := by
  have hs := (solo_parts i hi).2.2.2.2.1
  simp only [slotCtx_of u id h (bundleOf i) k _ m hm, hs, Option.map_some]
  rcases hi with hk | hk | hk
  · simp only [bundleOf_scalar i hk, Bundle.slots, soloSlot, hk, List.filterMap_cons, List.filterMap_nil]
    simp only [foldStop, runSlot_vnop, runSlot_mnop]
    cases runSlot s _ <;> rfl
  · simp only [bundleOf_vector i hk, Bundle.slots, soloSlot, hk, List.filterMap_cons, List.filterMap_nil]
    simp only [foldStop, runSlot_snop, runSlot_mnop]
    cases runSlot s _ <;> rfl
  · simp only [bundleOf_memory i hk, Bundle.slots, soloSlot, hk, List.filterMap_cons, List.filterMap_nil]
    simp only [foldStop, runSlot_snop, runSlot_vnop]
    cases runSlot s _ <;> rfl

theorem foldStop_append {α : Type} (f : State → α → Except Stop State) (l r : List α) (s : State) :
    foldStop f (l ++ r) s = match foldStop f l s with | .error e => .error e | .ok t => foldStop f r t := by
  induction l generalizing s with
  | nil => rfl
  | cons a l ih =>
    simp only [List.cons_append, foldStop]
    cases f s a with
    | error e => rfl
    | ok t => exact ih t

theorem foldStop_flatMap {α β : Type} (f : State → α → Except Stop State) (g : β → List α) (l : List β) (s : State) :
    foldStop f (l.flatMap g) s = foldStop (fun s b => foldStop f (g b) s) l s := by
  induction l generalizing s with
  | nil => rfl
  | cons b l ih =>
    simp only [List.flatMap_cons, foldStop_append, foldStop]
    cases foldStop f (g b) s with
    | error e => rfl
    | ok t => exact ih t

/-- What a member's operation does when it runs alone in its bundle, as one step of a fold over the members. -/
def soloStep (u : State) (id : Nat) (h : HerdCtx) (i : Instr) (s : State) (k : Nat) : Except Stop State :=
  match h.members[k]? with
  | some m => runSlot s (ctxFor u id h 0 (soloSlot i) k m, i)
  | none => .ok s

theorem foldStop_congr {α : Type} (f g : State → α → Except Stop State) (l : List α) (s : State)
    (h : ∀ a ∈ l, ∀ s, f s a = g s a) : foldStop f l s = foldStop g l s := by
  induction l generalizing s with
  | nil => rfl
  | cons a l ih =>
    simp only [foldStop, h a (List.mem_cons_self ..)]
    cases g s a with
    | error e => rfl
    | ok t => exact ih t (fun b hb => h b (List.mem_cons_of_mem _ hb))

theorem solo_fold (u : State) (id : Nat) (h : HerdCtx) (i : Instr) (hi : isSolo i) (s : State) :
    foldStop runSlot (slotRuns u id h (bundleOf i)) s =
      foldStop (soloStep u id h i) (List.range h.members.length) s := by
  unfold slotRuns
  rw [foldStop_flatMap]
  apply foldStop_congr
  intro k hk s
  have hk' : k < h.members.length := List.mem_range.mp hk
  have hm : h.members[k]? = some h.members[k] := List.getElem?_eq_getElem hk'
  rw [solo_member u id h i hi k _ hm]
  simp [soloStep, hm]

/-- No slot of a bundle of one operation stops when that operation stops on no member. -/
theorem runControl_nop (u : State) (x : CtlIn) (g : BitVec 4) : runControl (.ctrlNop g) x u = .ok x.plain := by
  unfold runControl
  split <;> rfl

/-- No slot of a bundle of one operation stops when that operation stops on no member. -/
theorem solo_stops (u : State) (id : Nat) (h : HerdCtx) (i : Instr) (hi : isSolo i)
    (hok : ∀ k m, h.members[k]? = some m → ∃ t, runSlot u (ctxFor u id h 0 (soloSlot i) k m, i) = .ok t) :
    stopsOf u id h (bundleOf i) = [] := by
  have hsl : ∀ x ∈ slotRuns u id h (bundleOf i), ∃ t, runSlot u x = .ok t := by
    intro x hx
    simp only [slotRuns, List.mem_flatMap, List.mem_range, List.mem_filterMap, Option.map_eq_some_iff] at hx
    obtain ⟨k, hk, ⟨j, y⟩, hy, c, hc, rfl⟩ := hx
    have hm : h.members[k]? = some h.members[k] := List.getElem?_eq_getElem hk
    rw [slotCtx_of u id h (bundleOf i) k j _ hm, (solo_parts i hi).2.2.2.2.1] at hc
    injection hc with hc
    subst hc
    obtain ⟨t, ht⟩ := hok k _ hm
    rcases hi with hk' | hk' | hk'
    · simp only [bundleOf_scalar i hk', Bundle.slots, List.mem_cons, Prod.mk.injEq, List.not_mem_nil, or_false] at hy
      rcases hy with ⟨rfl, rfl⟩ | ⟨rfl, rfl⟩ | ⟨rfl, rfl⟩
      · simp only [soloSlot, hk'] at ht; exact ⟨_, ht⟩
      · exact ⟨_, runSlot_vnop _ _⟩
      · exact ⟨_, runSlot_mnop _ _⟩
    · simp only [bundleOf_vector i hk', Bundle.slots, List.mem_cons, Prod.mk.injEq, List.not_mem_nil, or_false] at hy
      rcases hy with ⟨rfl, rfl⟩ | ⟨rfl, rfl⟩ | ⟨rfl, rfl⟩
      · exact ⟨_, runSlot_snop _ _⟩
      · simp only [soloSlot, hk'] at ht; exact ⟨_, ht⟩
      · exact ⟨_, runSlot_mnop _ _⟩
    · simp only [bundleOf_memory i hk', Bundle.slots, List.mem_cons, Prod.mk.injEq, List.not_mem_nil, or_false] at hy
      rcases hy with ⟨rfl, rfl⟩ | ⟨rfl, rfl⟩ | ⟨rfl, rfl⟩
      · exact ⟨_, runSlot_snop _ _⟩
      · exact ⟨_, runSlot_vnop _ _⟩
      · simp only [soloSlot, hk'] at ht; exact ⟨_, ht⟩
  unfold stopsOf
  rw [(solo_parts i hi).1]
  simp only [List.flatMap_eq_nil_iff, List.filter_eq_nil_iff, List.mem_append, List.mem_flatMap]
  rintro mi - y (hy | ⟨x, hx, hy⟩)
  · cases hc : ctlIn u id h (bundleOf i) with
    | none => simp [hc] at hy
    | some x => simp [hc, runControl_nop] at hy
  · obtain ⟨t, ht⟩ := hsl x hx
    simp [ht] at hy

/-- The commit of a bundle of one operation. -/
theorem solo_commit (t : State) (id : Nat) (h : HerdCtx) (i : Instr) (hi : isSolo i) (x : CtlIn) (hx : x.h = h)
    (hn : x.next = h.pc + 16) :
    commit t id h (bundleOf i) x.plain none none =
      (let r := stepLoops h.pc (h.pc + 16) h.loops h.idx
       (touchOverlay t h).modHc id fun x =>
        { x with members := x.members.map Member.recordConsume, vcc := x.vcc + 1, pc := r.2.2, loops := r.1, idx := r.2.1,
                 links := h.links, feTries := 0, waiteNext := 0, wait := none, lastFe := none, regenWoken := none,
                 fresh := x.fresh + 16 }) := by
  have he := (solo_parts i hi).2.2.2.1
  unfold commit commitBase
  simp only [CtlIn.plain, hx, hn, he, consumeTag, Bool.false_eq_true, if_false, runRoutines, doPost, Post.none]
  simp only [ne_eq, not_true_eq_false, if_false]
  rw [State.modHc_modHc]
  rfl

/-- A bundle of one operation that stops on no member commits: the operation acts on the members in order. -/
theorem issue_solo (i : Instr) (hi : isSolo i) (s : State) (id : Nat) (h : HerdCtx) (t : State)
    (hr : Ready s id h (bundleOf i))
    (hok : ∀ k m, h.members[k]? = some m → ∃ t, runSlot (landAll s id) (ctxFor (landAll s id) id h 0 (soloSlot i) k m, i) = .ok t)
    (hrun : foldStop (soloStep (landAll s id) id h i) (List.range h.members.length) (landAll s id) = .ok t)
    (hfit : (t.hc? id).map fitsSnapshot = some true) :
    issueOne i s = .next (committed t id h 16) := by
  have hp := solo_parts i hi
  have hl := ((issues_iff _ _ _ _).mp hr.2).2.2.2.2.2.2.2.2.1
  have hx := ctlIn_some (landAll s id) id h (bundleOf i) hl
  rw [issueOne_commits i s id h t
    (CtlIn.plain { h := h, c := ctxFor (landAll s id) id h (bundleOf i).h.scope 0 h.leadOf (h.members[h.leadOf]), pc := h.pc,
                   next := h.pc + BitVec.ofNat 64 (bundleOf i).bytes }) hr hp.2.1 hp.2.2.1 (solo_writesNow i hi)
    (solo_stops _ _ _ i hi hok) ?_
    (by rw [solo_fold _ _ _ i hi]; exact hrun) hfit]
  · rw [solo_commit _ id h i hi _ rfl (by simp [hp.2.2.2.2.2])]
    rfl
  · intro x hx'
    rw [hx] at hx'
    injection hx' with hx'
    subst hx'
    rw [hp.1, runControl_nop]

/-! ### Operations that act on the herd-context alone -/

@[simp] theorem State.withHctxs_hctxs (s : State) (x : AMap HerdCtx) : (s.withHctxs x).hctxs = x := rfl
@[simp] theorem State.withHctxs_withHctxs (s : State) (x y : AMap HerdCtx) : (s.withHctxs x).withHctxs y = s.withHctxs y := rfl
theorem State.withHctxs_self (s : State) : s.withHctxs s.hctxs = s := rfl
theorem State.withHctxs_hc (s : State) (x : AMap HerdCtx) (id : Nat) : (s.withHctxs x).hc? id = aget x id := rfl
theorem State.withHctxs_setHc (s : State) (x : AMap HerdCtx) (id : Nat) (h : HerdCtx) :
    (s.withHctxs x).setHc id h = s.withHctxs (aset x id h) := rfl

theorem State.withHctxs_modHc (s : State) (x : AMap HerdCtx) (id : Nat) (h : HerdCtx) (f : HerdCtx → HerdCtx)
    (hx : aget x id = some h) : (s.withHctxs x).modHc id f = s.withHctxs (aset x id (f h)) := by
  rw [State.modHc_of (s.withHctxs x) id f h hx, State.withHctxs_setHc]

theorem touchOverlay_withHctxs (s : State) (h : HerdCtx) (x : AMap HerdCtx) :
    touchOverlay (s.withHctxs x) h = (touchOverlay s h).withHctxs x := by
  unfold touchOverlay
  rw [show (s.withHctxs x).image? h = s.image? h from rfl]
  cases s.image? h with
  | none => rfl
  | some im =>
    dsimp only
    cases im.at h.pc with
    | none => rfl
    | some y =>
      obtain ⟨k, sg, ws⟩ := y
      dsimp only
      rw [show (s.withHctxs x).core h.leadCore = s.core h.leadCore from rfl]
      by_cases hc : (s.core h.leadCore).overlays.contains (im.digest, k) = true
      · rw [if_pos hc, if_pos hc]; rfl
      · rw [if_neg hc, if_neg hc]

/-- What the members whose guards read true have done to the herd-context, in order. -/
def localFold (u : State) (id : Nat) (h : HerdCtx) (i : Instr) (E : Ctx → HerdCtx → HerdCtx) (n : Nat) : HerdCtx :=
  (List.range n).foldl (fun g k => match h.members[k]? with
    | some m =>
      let c := ctxFor u id h 0 (soloSlot i) k m
      if c.guard i.guard then E c g else g
    | none => g) h

theorem localFold_succ (u : State) (id : Nat) (h : HerdCtx) (i : Instr) (E : Ctx → HerdCtx → HerdCtx) (n : Nat) :
    localFold u id h i E (n + 1) = match h.members[n]? with
      | some m =>
        let c := ctxFor u id h 0 (soloSlot i) n m
        if c.guard i.guard then E c (localFold u id h i E n) else localFold u id h i E n
      | none => localFold u id h i E n := by
  unfold localFold
  rw [List.range_succ, List.foldl_append]
  rfl

theorem foldStop_snoc (f : State → Nat → Except Stop State) (n : Nat) (s : State) :
    foldStop f (List.range (n + 1)) s = match foldStop f (List.range n) s with | .error e => .error e | .ok t => f t n := by
  rw [List.range_succ, foldStop_append]
  cases foldStop f (List.range n) s with
  | error e => rfl
  | ok t =>
    simp only [foldStop]
    cases f t n <;> rfl

/-- `t` is `s` with the herd-context `id` holding `g`. -/
def Differs (s t : State) (id : Nat) (g : HerdCtx) : Prop :=
  t = s.withHctxs t.hctxs ∧ t.hc? id = some g ∧ ∀ z, aset t.hctxs id z = aset s.hctxs id z

theorem Differs.self (s : State) (id : Nat) (g : HerdCtx) (h : s.hc? id = some g) : Differs s s id g :=
  ⟨rfl, h, fun _ => rfl⟩

theorem Differs.modHc (s : State) (id : Nat) (g : HerdCtx) (f : HerdCtx → HerdCtx) (h : s.hc? id = some g) :
    Differs s (s.modHc id f) id (f g) := by
  rw [State.modHc_of s id f g h]
  exact ⟨rfl, aget_aset_same _ _ _, fun z => aset_aset _ _ _ _⟩

theorem Differs.trans {s t r : State} {id : Nat} {g k : HerdCtx} (h : Differs s t id g) (h' : Differs t r id k) :
    Differs s r id k := by
  obtain ⟨a1, -, a3⟩ := h
  obtain ⟨b1, b2, b3⟩ := h'
  refine ⟨?_, b2, fun z => by rw [b3, a3]⟩
  rw [b1]
  conv_lhs => rw [a1]
  rfl

theorem Differs.consume (s : State) (id k : Nat) (t : Tag) (g : HerdCtx) (h : s.hc? id = some g) :
    Differs s (consumeTag s id k t) id (if t = none then g else g.modMember k (·.consumed t)) := by
  cases t with
  | none => exact Differs.self s id g h
  | some x => exact Differs.modHc s id g _ h

/-- An operation acts on the herd-context alone: on member `k` whose guard reads true it does `E`. -/
def ActsLocally (u : State) (id : Nat) (h : HerdCtx) (i : Instr) (E : Ctx → HerdCtx → HerdCtx) : Prop :=
  ∀ k m, h.members[k]? = some m → (ctxFor u id h 0 (soloSlot i) k m).guard i.guard = true → ∀ x g,
    aget x id = some g → ∃ t, slotFx i (ctxFor u id h 0 (soloSlot i) k m) (u.withHctxs x) = .ok t ∧
      Differs (u.withHctxs x) t id (E (ctxFor u id h 0 (soloSlot i) k m) g)

/-- The members of a bundle of one operation that acts on the herd-context alone, the first `n` of them. -/
theorem local_prefix (u : State) (id : Nat) (h : HerdCtx) (i : Instr) (E : Ctx → HerdCtx → HerdCtx)
    (hh : u.hc? id = some h) (hfx : ActsLocally u id h i E) (n : Nat) :
    ∃ x : AMap HerdCtx, foldStop (soloStep u id h i) (List.range n) u = .ok (u.withHctxs x) ∧
      aget x id = some (localFold u id h i E n) ∧ ∀ y, aset x id y = aset u.hctxs id y := by
  induction n with
  | zero => exact ⟨u.hctxs, rfl, hh, fun _ => rfl⟩
  | succ n ih =>
    obtain ⟨x, h1, h2, h3⟩ := ih
    rw [foldStop_snoc, h1]
    simp only [soloStep, localFold_succ]
    cases hm : h.members[n]? with
    | none => exact ⟨x, rfl, h2, h3⟩
    | some m =>
      simp only [runSlot]
      by_cases hg : (ctxFor u id h 0 (soloSlot i) n m).guard i.guard = true
      · obtain ⟨t, ht, d1, d2, d3⟩ := hfx n m hm hg x _ h2
        simp only [hg, if_true, ht]
        exact ⟨t.hctxs, by rw [d1]; rfl, d2, fun y => by rw [d3]; exact h3 y⟩
      · simp only [hg, Bool.false_eq_true, if_false]
        exact ⟨x, rfl, h2, h3⟩

/-- A bundle of one operation that acts on the herd-context alone: the whole next state. -/
theorem issue_local (i : Instr) (hi : isSolo i) (s : State) (id : Nat) (h : HerdCtx) (E : Ctx → HerdCtx → HerdCtx)
    (hr : Ready s id h (bundleOf i)) (hfx : ActsLocally (landAll s id) id h i E)
    (hfit : fitsSnapshot (localFold (landAll s id) id h i E h.members.length) = true) :
    issueOne i s = .next (committed
      ((landAll s id).modHc id fun _ => localFold (landAll s id) id h i E h.members.length) id h 16) := by
  have hh := ((issues_iff _ _ _ _).mp hr.2).1
  generalize hu : landAll s id = u at *
  obtain ⟨x, h1, h2, h3⟩ := local_prefix u id h i E hh hfx h.members.length
  have hok : ∀ k m, h.members[k]? = some m →
      ∃ t, runSlot u (ctxFor u id h 0 (soloSlot i) k m, i) = .ok t := by
    intro k m hm
    unfold runSlot
    by_cases hg : (ctxFor u id h 0 (soloSlot i) k m).guard i.guard = true
    · obtain ⟨t, ht, -⟩ := hfx k m hm hg u.hctxs h hh
      exact ⟨t, by rw [if_pos hg]; exact ht⟩
    · exact ⟨u, by rw [if_neg hg]⟩
  rw [issue_solo i hi s id h (u.withHctxs x) hr (by rw [hu]; exact hok) (by rw [hu]; exact h1)
    (by rw [State.withHctxs_hc, h2]; exact congrArg some hfit)]
  have hm : (u.modHc id fun _ => localFold u id h i E h.members.length) =
      u.withHctxs (aset u.hctxs id (localFold u id h i E h.members.length)) := by
    rw [State.modHc_of _ _ _ h hh]; rfl
  rw [hm]
  have key : ∀ y : AMap HerdCtx, aget y id = some (localFold u id h i E h.members.length) →
      (∀ z, aset y id z = aset u.hctxs id z) → committed (u.withHctxs y) id h 16 =
      (touchOverlay u h).withHctxs (aset u.hctxs id
        (let g := localFold u id h i E h.members.length
         let r := stepLoops h.pc (h.pc + BitVec.ofNat 64 16) h.loops h.idx
         { g with members := g.members.map Member.recordConsume, vcc := g.vcc + 1, pc := r.2.2, loops := r.1, idx := r.2.1,
                  links := h.links, feTries := 0, waiteNext := 0, wait := none, lastFe := none, regenWoken := none,
                  fresh := g.fresh + 16 })) := by
    intro y hy hz
    unfold committed
    dsimp only
    rw [touchOverlay_withHctxs, State.withHctxs_modHc _ _ _ _ _ hy, hz]
  rw [key x h2 h3, key _ (aget_aset_same _ _ _) (fun z => aset_aset _ _ _ _)]

/-! ### Operations that act on the members' registers alone -/

theorem modMember_zipIdx (h : HerdCtx) (p : Nat → Member → Bool) (f : Nat → Member → Member) (n : Nat)
    (hn : n ≤ h.members.length) :
    (List.range n).foldl (fun g k => match h.members[k]? with
      | some m => if p k m then g.modMember k (f k) else g
      | none => g) h =
    { h with members := h.members.zipIdx.map fun (m, k) => if decide (k < n) && p k m then f k m else m } := by
  induction n with
  | zero => simp
  | succ n ih =>
    rw [List.range_succ, List.foldl_append, ih (by omega)]
    have hm : h.members[n]? = some h.members[n] := List.getElem?_eq_getElem (by omega)
    simp only [List.foldl_cons, List.foldl_nil, hm]
    have key : ∀ k (hk : k < h.members.length) (x : Member), k ≠ n →
        (if decide (k < n) && p k x then f k x else x) = (if decide (k < n + 1) && p k x then f k x else x) := by
      intro k hk x hkn
      have : decide (k < n) = decide (k < n + 1) := by
        simp only [decide_eq_decide]; omega
      rw [this]
    by_cases hp : p n h.members[n] = true
    · simp only [hp, if_true]
      unfold HerdCtx.modMember HerdCtx.member?
      have h0 : (h.members.zipIdx.map fun (m, k) => if decide (k < n) && p k m then f k m else m)[n]? =
          some h.members[n] := by
        simp [List.getElem?_map, List.getElem?_zipIdx, hm]
      simp only [h0]
      unfold HerdCtx.setMember
      congr 1
      apply List.ext_getElem?
      intro k
      by_cases hk : k = n
      · subst hk
        rw [lset_get_same _ _ _ (by simpa using hn)]
        simp [List.getElem?_map, List.getElem?_zipIdx, hm, hp]
      · rw [lset_get_other _ _ _ _ hk]
        simp only [List.getElem?_map, List.getElem?_zipIdx]
        cases hx : h.members[k]? with
        | none => simp
        | some x =>
          simp only [Option.map_some, Nat.zero_add]
          rw [key k (by rw [List.getElem?_eq_some_iff] at hx; exact hx.1) x hk]
    · simp only [hp, Bool.false_eq_true, if_false]
      congr 1
      apply List.ext_getElem?
      intro k
      simp only [List.getElem?_map, List.getElem?_zipIdx]
      cases hx : h.members[k]? with
      | none => simp
      | some x =>
        simp only [Option.map_some, Nat.zero_add]
        by_cases hk : k = n
        · subst hk
          have : x = h.members[k] := by rw [hm] at hx; exact (Option.some.inj hx).symm
          subst this
          simp [hp]
        · rw [key k (by rw [List.getElem?_eq_some_iff] at hx; exact hx.1) x hk]

/-- Whether a member's results in flight fit its snapshot (R84). -/
def Member.fits (m : Member) : Bool :=
  decide (m.inflight.length ≤ 48) && decide ((m.inflight.filter Pending.wide).length ≤ 16)

theorem fitsSnapshot_eq (h : HerdCtx) : fitsSnapshot h = h.members.all Member.fits := rfl

theorem Member.fits_of_hasRoom (m : Member) (h : m.hasRoom = true) : m.fits = true := by
  simp only [Member.hasRoom, Bool.and_eq_true, decide_eq_true_eq] at h
  simp only [Member.fits, Bool.and_eq_true, decide_eq_true_eq]
  omega

/-- An operation acts on its member's registers alone: on member `k` whose guard reads true it does `upd`. -/
def ActsOnMembers (u : State) (id : Nat) (h : HerdCtx) (i : Instr) (upd : Ctx → Member → Member) : Prop :=
  ActsLocally u id h i fun c g => g.modMember c.mi (upd c)

theorem mem_zipIdx_get {α : Type} (l : List α) (m : α) (k : Nat) (h : (m, k) ∈ l.zipIdx) : l[k]? = some m := by
  have := List.mem_zipIdx h
  have hk : k < l.length := by omega
  rw [List.getElem?_eq_getElem hk]
  simp only [Nat.sub_zero] at this
  rw [← this.2.2]

theorem localFold_members (u : State) (id : Nat) (h : HerdCtx) (i : Instr) (upd : Ctx → Member → Member) :
    localFold u id h i (fun c g => g.modMember c.mi (upd c)) h.members.length =
      { h with members := h.members.zipIdx.map fun (m, k) =>
          let c := ctxFor u id h 0 (soloSlot i) k m
          if c.guard i.guard then upd c m else m } := by
  have := modMember_zipIdx h (fun k m => (ctxFor u id h 0 (soloSlot i) k m).guard i.guard)
    (fun k m => upd (ctxFor u id h 0 (soloSlot i) k ((h.members[k]?).getD m)) m) h.members.length (le_refl _)
  have e2 : localFold u id h i (fun c g => g.modMember c.mi (upd c)) h.members.length =
      (List.range h.members.length).foldl (fun g k => match h.members[k]? with
        | some m => if (ctxFor u id h 0 (soloSlot i) k m).guard i.guard then
            g.modMember k (fun m' => upd (ctxFor u id h 0 (soloSlot i) k ((h.members[k]?).getD m')) m') else g
        | none => g) h := by
    unfold localFold
    congr 1
    funext g k
    cases h.members[k]? <;> rfl
  rw [e2, this]
  congr 1
  apply List.map_congr_left
  rintro ⟨m, k⟩ hmem
  have hg := mem_zipIdx_get _ _ _ hmem
  have hk : k < h.members.length := (List.getElem?_eq_some_iff.mp hg).1
  simp only [hk, hg, decide_true, Bool.true_and, Option.getD_some]

/-- A bundle of one operation that acts on its members' registers alone: the whole next state. -/
theorem issue_members (i : Instr) (hi : isSolo i) (s : State) (id : Nat) (h : HerdCtx) (upd : Ctx → Member → Member)
    (hr : Ready s id h (bundleOf i)) (hfx : ActsOnMembers (landAll s id) id h i upd)
    (hfit : ∀ c m, m.hasRoom = true → (upd c m).fits = true) :
    issueOne i s = .next (committed (onMembers (landAll s id) id h (soloSlot i) i.guard upd) id h 16) := by
  have hh := ((issues_iff _ _ _ _).mp hr.2)
  have hroom := hh.2.2.2.2.2.2.2.2.2.1
  rw [issue_local i hi s id h (fun c g => g.modMember c.mi (upd c)) hr hfx, localFold_members]
  · unfold onMembers
    rw [State.modHc_of _ _ _ h hh.1, State.modHc_of _ _ _ h hh.1]
  · rw [localFold_members, fitsSnapshot_eq, List.all_eq_true]
    intro m' hm'
    simp only [List.mem_map] at hm'
    obtain ⟨⟨m, k⟩, hmem, rfl⟩ := hm'
    have hrm : m.hasRoom = true := (List.all_eq_true.mp hroom) m (List.mem_of_getElem? (mem_zipIdx_get _ _ _ hmem))
    dsimp only
    split
    · exact hfit _ m hrm
    · exact m.fits_of_hasRoom hrm

/-! ### One or two results of a member -/

theorem withResult_fits (m : Member) (v : Nat) (r : Res) (fl : FFlags) (lat : BitVec 4) (least : Nat)
    (h : m.hasRoom = true) : (m.withResult v r fl lat least).fits = true := by
  simp only [Member.hasRoom, Bool.and_eq_true, decide_eq_true_eq] at h
  simp only [Member.withResult, Member.fits, List.length_append, List.length_singleton, List.filter_append,
    Bool.and_eq_true, decide_eq_true_eq]
  have := List.length_filter_le Pending.wide [(⟨r, fl, v, v + latBound lat, decide (least ≤ latBound lat)⟩ : Pending)]
  simp only [List.length_singleton] at this
  omega

theorem withResult2_fits (m : Member) (v : Nat) (r r' : Res) (fl fl' : FFlags) (lat : BitVec 4) (least : Nat)
    (h : m.hasRoom = true) : ((m.withResult v r fl lat least).withResult v r' fl' lat least).fits = true := by
  simp only [Member.hasRoom, Bool.and_eq_true, decide_eq_true_eq] at h
  simp only [Member.withResult, Member.fits, List.length_append, List.length_singleton, List.filter_append,
    Bool.and_eq_true, decide_eq_true_eq]
  have := List.length_filter_le Pending.wide [(⟨r, fl, v, v + latBound lat, decide (least ≤ latBound lat)⟩ : Pending)]
  have := List.length_filter_le Pending.wide [(⟨r', fl', v, v + latBound lat, decide (least ≤ latBound lat)⟩ : Pending)]
  simp only [List.length_singleton] at *
  omega

theorem addResult_eq (s : State) (c : Ctx) (r : Res) (fl : FFlags) (lat : BitVec 4) (least : Nat) :
    addResult s c r fl lat least = s.modMember c.id c.mi (·.withResult c.v r fl lat least) := rfl

theorem modMember_modMember (s : State) (id k : Nat) (f g : Member → Member) :
    (s.modMember id k f).modMember id k g = s.modMember id k (g ∘ f) := by
  unfold State.modMember
  rw [State.modHc_modHc]
  congr 1
  funext h
  simp only [Function.comp, HerdCtx.modMember]
  cases hm : h.member? k with
  | none => simp [hm]
  | some m =>
    have hk : k < h.members.length := (List.getElem?_eq_some_iff.mp hm).1
    simp only [HerdCtx.setMember_same h k (f m) hk]
    unfold HerdCtx.setMember
    congr 1
    apply List.ext_getElem?
    intro j
    by_cases hj : j = k
    · subst hj
      rw [lset_get_same _ _ _ (by simpa using hk), lset_get_same _ _ _ hk]
    · rw [lset_get_other _ _ _ _ hj, lset_get_other _ _ _ _ hj, lset_get_other _ _ _ _ hj]

/-- An update of a member after it has consumed a tag. -/
theorem consumeTag_modMember (s : State) (id k : Nat) (t : Tag) (f : Member → Member) :
    (consumeTag s id k t).modMember id k f = s.modMember id k fun m => f (m.consumed t) := by
  cases t with
  | none => rfl
  | some x => exact modMember_modMember s id k _ f

/-- An operation whose effect is one update of its member acts on its member's registers alone. -/
theorem actsOnMembers_of (u : State) (id : Nat) (h : HerdCtx) (i : Instr) (upd : Ctx → Member → Member)
    (hfx : ∀ k m, h.members[k]? = some m → ∀ x : AMap HerdCtx,
      slotFx i (ctxFor u id h 0 (soloSlot i) k m) (u.withHctxs x) =
        .ok ((u.withHctxs x).modMember id k (upd (ctxFor u id h 0 (soloSlot i) k m)))) : ActsOnMembers u id h i upd := by
  intro k m hm _ x g hg
  exact ⟨_, hfx k m hm x, Differs.modHc (u.withHctxs x) id g _ hg⟩

end Sys2Proof.Machine
end

