-- ==== Sys2Proof/Laws/Results.lean ====
section
/-! SUPPORT. From what an operation does on one member to the next state of its bundle: for operations on registers alone,
for operations whose checks pass, and for operations that may stop. -/

namespace Sys2Proof.Machine

/-- Every S, V and M operation is issued as a bundle of its own. -/
theorem exec_solo (i : Instr) (hi : isSolo i) (s : State) : exec i s = issueOne i s := by
  unfold isSolo at hi
  cases i
  all_goals first
    | (exfalso; rcases hi with h | h | h <;> exact absurd (congrArg Kind.ctorIdx h) (Nat.ne_of_beq_eq_false rfl))
    | exact rfl

/-! ### Operations on the members' registers alone -/

/-- An operation that puts its result, whatever the state holds, into its member. -/
theorem acts_of (i : Instr) (hi : isSolo i) (he : ∀ s, exec i s = issueOne i s) (upd : State → Ctx → Member → Member)
    (hfx : ∀ (u : State) (c : Ctx) (x : AMap HerdCtx), slotFx i c (u.withHctxs x) = .ok ((u.withHctxs x).modMember c.id c.mi (upd u c)))
    (hfit : ∀ u c m, m.hasRoom = true → (upd u c m).fits = true) : Acts i upd := by
  intro s id h hr
  rw [he]
  exact issue_members i hi s id h (upd (landAll s id)) hr
    (actsOnMembers_of _ _ _ _ _ fun k m _ x => hfx (landAll s id) (ctxFor (landAll s id) id h 0 (soloSlot i) k m) x)
    (hfit (landAll s id))

/-- The same when checks have to pass. -/
theorem actsWhen_of (i : Instr) (hi : isSolo i) (he : ∀ s, exec i s = issueOne i s) (pre : State → Ctx → Prop)
    (upd : State → Ctx → Member → Member)
    (hfx : ∀ (u : State) (c : Ctx) (x : AMap HerdCtx), pre u c → slotFx i c (u.withHctxs x) = .ok ((u.withHctxs x).modMember c.id c.mi (upd u c)))
    (hfit : ∀ u c m, m.hasRoom = true → (upd u c m).fits = true) : ActsWhen i pre upd := by
  intro s id h hr hp
  rw [he]
  refine issue_members i hi s id h (upd (landAll s id)) hr ?_ (hfit (landAll s id))
  intro k m hm hg x g hx
  exact ⟨_, hfx (landAll s id) (ctxFor (landAll s id) id h 0 (soloSlot i) k m) x (hp k m hm hg),
    Differs.modHc ((landAll s id).withHctxs x) id g _ hx⟩

/-! ### Operations that may stop -/

theorem foldActive_solo (u : State) (id : Nat) (h : HerdCtx) (i : Instr) :
    foldActive u id h i (slotFx i) = foldStop (soloStep u id h i) (List.range h.members.length) u := rfl

theorem runs_of (i : Instr) (hi : isSolo i) (he : ∀ s, exec i s = issueOne i s) (fx : Ctx → State → Except Stop State)
    (hfx : slotFx i = fx) : Runs i fx := by
  subst hfx
  intro s id h t hr hok hrun hfit
  rw [he]
  refine issue_solo i hi s id h t hr ?_ hrun hfit
  intro k m hm
  unfold runSlot
  by_cases hg : (ctxFor (landAll s id) id h 0 (soloSlot i) k m).guard i.guard = true
  · obtain ⟨t', ht⟩ := hok k m hm hg
    exact ⟨t', by rw [if_pos hg]; exact ht⟩
  · exact ⟨_, by rw [if_neg hg]⟩

/-! ### Results in flight under effects on the whole state -/

/-- Herd-context `id` keeps its members, and only member `k` has more results in flight, at most `n`. -/
def Grows (id k n : Nat) (s t : State) : Prop :=
  ∀ g, s.hc? id = some g → ∃ g', t.hc? id = some g' ∧ g'.members.length = g.members.length ∧
    ∀ j m, g.members[j]? = some m → ∃ m' l, g'.members[j]? = some m' ∧ m'.inflight = m.inflight ++ l ∧
      (j ≠ k → l = []) ∧ l.length ≤ n

theorem Grows.of_hctxs {id k : Nat} {s t : State} (h : t.hctxs = s.hctxs) : Grows id k 0 s t := by
  intro g hg
  refine ⟨g, by unfold State.hc? at *; rw [h]; exact hg, rfl, fun j m hm => ⟨m, [], hm, by simp, fun _ => rfl, by simp⟩⟩

theorem Grows.trans {id k n p : Nat} {s t r : State} (h : Grows id k n s t) (h' : Grows id k p t r) :
    Grows id k (n + p) s r := by
  intro g hg
  obtain ⟨g1, a1, a2, a3⟩ := h g hg
  obtain ⟨g2, b1, b2, b3⟩ := h' g1 a1
  refine ⟨g2, b1, by omega, fun j m hm => ?_⟩
  obtain ⟨m1, l1, c1, c2, c3, c4⟩ := a3 j m hm
  obtain ⟨m2, l2, d1, d2, d3, d4⟩ := b3 j m1 c1
  exact ⟨m2, l1 ++ l2, d1, by rw [d2, c2, List.append_assoc], fun hj => by rw [c3 hj, d3 hj]; rfl,
    by rw [List.length_append]; omega⟩

theorem Grows.mono {id k n p : Nat} {s t : State} (h : Grows id k n s t) (hn : n ≤ p) : Grows id k p s t := by
  intro g hg
  obtain ⟨g1, a1, a2, a3⟩ := h g hg
  refine ⟨g1, a1, a2, fun j m hm => ?_⟩
  obtain ⟨m1, l1, c1, c2, c3, c4⟩ := a3 j m hm
  exact ⟨m1, l1, c1, c2, c3, by omega⟩

theorem Grows.modMember (id k n : Nat) (s : State) (f : Member → Member)
    (hf : ∀ m, ∃ l, (f m).inflight = m.inflight ++ l ∧ l.length ≤ n) : Grows id k n s (s.modMember id k f) := by
  intro g hg
  unfold State.modMember
  rw [State.modHc_of s id _ g hg]
  refine ⟨g.modMember k f, aget_aset_same _ _ _, ?_, ?_⟩
  · unfold HerdCtx.modMember
    split
    · simp [HerdCtx.setMember]
    · rfl
  · intro j m hm
    have hj : j < g.members.length := (List.getElem?_eq_some_iff.mp hm).1
    unfold HerdCtx.modMember HerdCtx.member?
    by_cases h : j = k
    · subst h
      obtain ⟨l, h1, h2⟩ := hf m
      rw [hm]
      refine ⟨f m, l, ?_, h1, fun h => absurd rfl h, h2⟩
      simp only [HerdCtx.setMember]
      rw [lset_get_same _ _ _ hj]
    · refine ⟨m, [], ?_, by simp, fun _ => rfl, by simp⟩
      cases hk : g.members[k]? with
      | none => exact hm
      | some x =>
        simp only [HerdCtx.setMember]
        rw [lset_get_other _ _ _ _ h]
        exact hm

theorem Grows.consume (id k : Nat) (s : State) (t : Tag) : Grows id k 0 s (consumeTag s id k t) := by
  cases t with
  | none => exact Grows.of_hctxs rfl
  | some x => exact Grows.modMember id k 0 s _ fun m => ⟨[], by simp, by simp⟩

theorem Grows.pending (c : Ctx) (s : State) (r : Res) (fl : FFlags) (b : Nat) (l : Bool) :
    Grows c.id c.mi 1 s (addPending s c r fl b l) :=
  Grows.modMember c.id c.mi 1 s _ fun _ => ⟨_, rfl, by simp⟩

theorem acrossMembers_succ (u : State) (id : Nat) (h : HerdCtx) (i : Instr) (eff : Ctx → State → State) (n : Nat) :
    acrossMembers u id h i eff (n + 1) = match h.members[n]? with
      | some m =>
        let c := ctxFor u id h 0 (soloSlot i) n m
        if c.guard i.guard then eff c (acrossMembers u id h i eff n) else acrossMembers u id h i eff n
      | none => acrossMembers u id h i eff n := by
  unfold acrossMembers
  rw [List.range_succ, List.foldl_append]
  rfl

theorem acrossMembers_grows (u : State) (id : Nat) (h : HerdCtx) (i : Instr) (eff : Ctx → State → State)
    (hh : u.hc? id = some h) (hg : ∀ c s, Grows c.id c.mi 2 s (eff c s)) (n : Nat) :
    ∃ g, (acrossMembers u id h i eff n).hc? id = some g ∧ g.members.length = h.members.length ∧
      ∀ j m, h.members[j]? = some m → ∃ m' l, g.members[j]? = some m' ∧ m'.inflight = m.inflight ++ l ∧
        (n ≤ j → l = []) ∧ l.length ≤ 2 := by
  induction n with
  | zero => exact ⟨h, hh, rfl, fun j m hm => ⟨m, [], hm, by simp, fun _ => rfl, by simp⟩⟩
  | succ n ih =>
    obtain ⟨g, a1, a2, a3⟩ := ih
    rw [acrossMembers_succ]
    have base : ∀ j m, h.members[j]? = some m → ∃ m' l, g.members[j]? = some m' ∧ m'.inflight = m.inflight ++ l ∧
        (n + 1 ≤ j → l = []) ∧ l.length ≤ 2 := by
      intro j m hm
      obtain ⟨m', l, b1, b2, b3, b4⟩ := a3 j m hm
      exact ⟨m', l, b1, b2, fun hj => b3 (by omega), b4⟩
    cases hm : h.members[n]? with
    | none => exact ⟨g, a1, a2, base⟩
    | some m =>
      dsimp only
      by_cases hgd : (ctxFor u id h 0 (soloSlot i) n m).guard i.guard = true
      · rw [if_pos hgd]
        obtain ⟨g', c1, c2, c3⟩ := hg (ctxFor u id h 0 (soloSlot i) n m) (acrossMembers u id h i eff n) g a1
        refine ⟨g', c1, by omega, fun j x hx => ?_⟩
        obtain ⟨m', l, b1, b2, b3, b4⟩ := a3 j x hx
        obtain ⟨m2, l2, d1, d2, d3, d4⟩ := c3 j m' b1
        by_cases hj : j = n
        · subst hj
          have hl : l = [] := b3 (le_refl _)
          subst hl
          exact ⟨m2, l2, d1, by rw [d2, b2, List.append_nil], fun hj => by omega, d4⟩
        · have hl : l2 = [] := d3 hj
          subst hl
          exact ⟨m2, l, d1, by rw [d2, b2, List.append_nil], fun hj2 => b3 (by omega), b4⟩
      · rw [if_neg hgd]
        exact ⟨g, a1, a2, base⟩

theorem fits_of_grown (m m' : Member) (l : List Pending) (h : m.hasRoom = true) (hi : m'.inflight = m.inflight ++ l)
    (hl : l.length ≤ 2) : m'.fits = true := by
  simp only [Member.hasRoom, Bool.and_eq_true, decide_eq_true_eq] at h
  simp only [Member.fits, hi, List.length_append, List.filter_append, Bool.and_eq_true, decide_eq_true_eq]
  have := List.length_filter_le Pending.wide l
  omega

theorem acrossMembers_fits (u : State) (id : Nat) (h : HerdCtx) (i : Instr) (eff : Ctx → State → State)
    (hh : u.hc? id = some h) (hroom : h.members.all Member.hasRoom = true) (hg : ∀ c s, Grows c.id c.mi 2 s (eff c s))
    (n : Nat) : ((acrossMembers u id h i eff n).hc? id).map fitsSnapshot = some true := by
  obtain ⟨g, a1, a2, a3⟩ := acrossMembers_grows u id h i eff hh hg n
  rw [a1, Option.map_some, fitsSnapshot_eq]
  congr 1
  rw [List.all_eq_true]
  intro m' hm'
  obtain ⟨j, hj, hje⟩ := List.mem_iff_getElem.mp hm'
  have hj' : j < h.members.length := by omega
  have hm : h.members[j]? = some h.members[j] := List.getElem?_eq_getElem hj'
  obtain ⟨m2, l, b1, b2, -, b4⟩ := a3 j _ hm
  have : g.members[j]? = some m' := by rw [List.getElem?_eq_getElem hj, hje]
  rw [b1] at this
  injection this with this
  subst this
  exact fits_of_grown _ _ l ((List.all_eq_true.mp hroom) _ (List.getElem_mem hj')) b2 b4

/-- An operation whose effect is known when its checks pass. -/
theorem does_of (i : Instr) (hi : isSolo i) (he : ∀ s, exec i s = issueOne i s) (pre : Ctx → State → Prop)
    (eff : Ctx → State → State) (hfx : ∀ c s, pre c s → slotFx i c s = .ok (eff c s))
    (hg : ∀ c s, Grows c.id c.mi 2 s (eff c s)) : Does i pre eff := by
  intro s id h hr hp
  rw [he]
  have hh := (issues_iff _ _ _ _).mp hr.2
  generalize hu : landAll s id = u at *
  have hstep : ∀ n, foldStop (soloStep u id h i) (List.range n) u = .ok (acrossMembers u id h i eff n) := by
    intro n
    induction n with
    | zero => rfl
    | succ n ih =>
      rw [foldStop_snoc, ih, acrossMembers_succ]
      simp only [soloStep]
      cases hm : h.members[n]? with
      | none => rfl
      | some m =>
        simp only [runSlot]
        by_cases hgd : (ctxFor u id h 0 (soloSlot i) n m).guard i.guard = true
        · rw [if_pos hgd, if_pos hgd]
          exact hfx _ _ (hp n m hm hgd).2
        · rw [if_neg hgd, if_neg hgd]
  have hok : ∀ k m, h.members[k]? = some m → ∃ t, runSlot u (ctxFor u id h 0 (soloSlot i) k m, i) = .ok t := by
    intro k m hm
    unfold runSlot
    by_cases hgd : (ctxFor u id h 0 (soloSlot i) k m).guard i.guard = true
    · exact ⟨_, by rw [if_pos hgd]; exact hfx _ _ (hp k m hm hgd).1⟩
    · exact ⟨_, by rw [if_neg hgd]⟩
  exact issue_solo i hi s id h (acrossMembers u id h i eff h.members.length) hr
    (by rw [hu]; exact hok) (by rw [hu]; exact hstep _) (acrossMembers_fits u id h i eff hh.1 hh.2.2.2.2.2.2.2.2.2.1 hg _)

end Sys2Proof.Machine
end

