-- ==== Sys2Proof/Laws/Branch.lean ====
section
/-! SUPPORT. A bundle whose header carries one control operation and no slot: its commit, and its trap. -/

namespace Sys2Proof.Machine

theorem exec_control (i : Instr) (hk : i.kind = .control) (s : State) : exec i s = issueOne i s := by
  cases i
  all_goals first
    | (exfalso; exact absurd (congrArg Kind.ctorIdx hk) (Nat.ne_of_beq_eq_false rfl))
    | exact rfl

theorem bundleOf_control (i : Instr) (hk : i.kind = .control) :
    bundleOf i = ⟨plainHdr 0, i, .snop, .vnop, .mnop, noRoutine, noRoutine⟩ := by
  unfold bundleOf
  rw [hk]

theorem committed_eq (t : State) (id : Nat) (h : HerdCtx) (n : Nat) :
    committed t id h n =
      (let r := stepLoops h.pc (h.pc + BitVec.ofNat 64 n) h.loops h.idx
       committedTo t id h r.2.2 r.1 r.2.1 h.links none) := rfl

/-- The control bundle's slots are no-ops on every member. -/
theorem control_slots (u : State) (id : Nat) (h : HerdCtx) (i : Instr) (hk : i.kind = .control) :
    (∀ x ∈ slotRuns u id h (bundleOf i), ∀ s, runSlot s x = .ok s) ∧
    ∀ s, foldStop runSlot (slotRuns u id h (bundleOf i)) s = .ok s := by
  have h1 : ∀ x ∈ slotRuns u id h (bundleOf i), ∀ s, runSlot s x = .ok s := by
    intro x hx s
    simp only [slotRuns, List.mem_flatMap, List.mem_range, List.mem_filterMap, Option.map_eq_some_iff] at hx
    obtain ⟨k, -, ⟨j, y⟩, hy, c, -, rfl⟩ := hx
    simp only [bundleOf_control i hk, Bundle.slots, List.mem_cons, Prod.mk.injEq, List.not_mem_nil, or_false] at hy
    rcases hy with ⟨rfl, rfl⟩ | ⟨rfl, rfl⟩ | ⟨rfl, rfl⟩
    · exact runSlot_snop s c
    · exact runSlot_vnop s c
    · exact runSlot_mnop s c
  refine ⟨h1, ?_⟩
  generalize slotRuns u id h (bundleOf i) = l at h1
  intro s
  induction l with
  | nil => rfl
  | cons a l ih =>
    simp only [foldStop, h1 a (List.mem_cons_self ..)]
    exact ih fun x hx => h1 x (List.mem_cons_of_mem _ hx)

theorem control_parts (i : Instr) (hk : i.kind = .control) :
    (bundleOf i).c = i ∧ (bundleOf i).ra.rn = 0 ∧ (bundleOf i).rb.rn = 0 ∧ (bundleOf i).h.e = false ∧
    (bundleOf i).h.scope = 0 ∧ (bundleOf i).bytes = 8 := by
  rw [bundleOf_control i hk]
  exact ⟨rfl, noRoutine_rn, noRoutine_rn, rfl, rfl, (by decide : 8 * (plainHdr 0).words = 8)⟩

/-- A bundle of one control operation pushes nothing. -/
theorem control_writesNow (i : Instr) (hk : i.kind = .control) : (bundleOf i).writesNow = false := by
  rw [bundleOf_control i hk]
  rfl

/-- What the control operation reads when its bundle can issue. -/
def ctlInOf (u : State) (id : Nat) (h : HerdCtx) (m : Member) : CtlIn :=
  { h := h, c := ctxFor u id h 0 0 h.leadOf m, pc := h.pc, next := h.pc + 8 }

theorem ctlIn_control (u : State) (id : Nat) (h : HerdCtx) (i : Instr) (hk : i.kind = .control) (m : Member)
    (hm : h.members[h.leadOf]? = some m) : ctlIn u id h (bundleOf i) = some (ctlInOf u id h m) := by
  have hp := control_parts i hk
  unfold ctlIn
  rw [slotCtx_of u id h (bundleOf i) h.leadOf 0 m hm, hp.2.2.2.2.1, hp.2.2.2.2.2]
  rfl

/-- A bundle of one control operation that does not stop commits with its outcome. -/
theorem issue_control (i : Instr) (hk : i.kind = .control) (s : State) (id : Nat) (h : HerdCtx) (m : Member) (o : CtlOut)
    (hr : Ready s id h (bundleOf i)) (hm : h.members[h.leadOf]? = some m)
    (ho : runControl i (ctlInOf (landAll s id) id h m) (landAll s id) = .ok o) :
    exec i s = .next (commit (landAll s id) id h (bundleOf i) o none none) := by
  have hp := control_parts i hk
  have hx := ctlIn_control (landAll s id) id h i hk m hm
  have hq := (issues_iff _ _ _ _).mp hr.2
  have hsl := control_slots (landAll s id) id h i hk
  rw [exec_control i hk]
  refine issueOne_commits i s id h (landAll s id) o hr hp.2.1 hp.2.2.1 (control_writesNow i hk) ?_ ?_ (hsl.2 _) ?_
  · unfold stopsOf
    simp only [hx, hp.1, ho, List.nil_append]
    simp only [List.flatMap_eq_nil_iff, List.filter_eq_nil_iff, List.mem_flatMap]
    rintro mi - y ⟨x, hxm, hy⟩
    rw [hsl.1 x hxm] at hy
    cases hy
  · intro x hx'
    rw [hx] at hx'
    injection hx' with hx'
    subst hx'
    rw [hp.1, ho]
  · rw [hq.1, Option.map_some, fitsSnapshot_eq]
    congr 1
    rw [List.all_eq_true]
    intro m hm
    exact m.fits_of_hasRoom ((List.all_eq_true.mp hq.2.2.2.2.2.2.2.2.2.1) m hm)

/-- A commit of a control bundle that has nothing to do after it. -/
theorem commit_go (t : State) (id : Nat) (h : HerdCtx) (i : Instr) (hk : i.kind = .control) (o : CtlOut)
    (ha : o.act = .go) (hp : o.post = Post.none) :
    commit t id h (bundleOf i) o none none =
      (let r := if o.taken then (o.loops, o.idx, o.succ) else stepLoops h.pc o.succ o.loops o.idx
       committedTo t id h r.2.2 r.1 r.2.1 o.links o.consume) := by
  have he := (control_parts i hk).2.2.2.1
  unfold commit commitBase
  simp only [ha, hp, he, Bool.false_eq_true, if_false, runRoutines, doPost, Post.none]
  simp only [ne_eq, not_true_eq_false, if_false]
  rw [State.modHc_modHc]
  rfl

/-- A control operation whose guard reads false: the bundle only advances (R371). -/
theorem issue_control_off (i : Instr) (hk : i.kind = .control) (s : State) (id : Nat) (h : HerdCtx) (m : Member)
    (hr : Ready s id h (bundleOf i)) (hm : h.members[h.leadOf]? = some m)
    (hg : (ctxFor (landAll s id) id h 0 0 h.leadOf m).p 0 i.ctlGuard.toNat = false) :
    exec i s = .next (committed (landAll s id) id h 8) := by
  rw [issue_control i hk s id h m (ctlInOf (landAll s id) id h m).plain hr hm]
  · rw [commit_go (landAll s id) id h i hk _ rfl rfl, committed_eq]
    rfl
  · unfold runControl
    have : (ctlInOf (landAll s id) id h m).c.p 0 i.ctlGuard.toNat = false := hg
    rw [this]
    rfl

end Sys2Proof.Machine
end

