-- ==== Sys2Proof/Laws/Memory.lean ====
section
/-! SUPPORT. Laws of the cell list: a read after a write, what a write leaves alone, and that every operation keeps the
canonical form. -/

namespace Sys2Proof.Machine

/-! ### The canonical form as a property of the list -/

theorem Memory.wfFrom_iff (lo : Option Nat) (m : List Host.Cell) :
    Memory.wfFrom lo m = true ↔
      (∀ x ∈ m, ∀ l, lo = some l → l < x.1) ∧ m.Pairwise (fun x y => x.1 < y.1) ∧ ∀ x ∈ m, x.2 ≠ Memory.unlisted := by
  induction m generalizing lo with
  | nil => simp [Memory.wfFrom]
  | cons x r ih =>
    obtain ⟨a, b⟩ := x
    simp only [Memory.wfFrom, Bool.and_eq_true, ih, List.pairwise_cons, List.mem_cons, forall_eq_or_imp, bne_iff_ne]
    constructor
    · rintro ⟨⟨h1, h2⟩, h3, h4, h5⟩
      refine ⟨⟨?_, ?_⟩, ⟨fun y hy => h3 y hy a rfl, h4⟩, h2, h5⟩
      · rintro l rfl
        simpa using h1
      · rintro y hy l rfl
        have h6 : l < a := by simpa using h1
        exact lt_trans h6 (h3 y hy a rfl)
    · rintro ⟨⟨h1, h2⟩, ⟨h3, h4⟩, h5, h6⟩
      refine ⟨⟨?_, h5⟩, ?_, h4, h6⟩
      · cases lo with
        | none => rfl
        | some l => simpa using h1 l rfl
      · rintro y hy l h
        cases h
        exact h3 y hy

/-- The canonical form: addresses strictly rising, and no cell equal to what an unlisted address reads as. -/
theorem Memory.wf_iff (m : List Host.Cell) :
    Memory.wf m = true ↔ m.Pairwise (fun x y => x.1 < y.1) ∧ ∀ x ∈ m, x.2 ≠ Memory.unlisted := by
  simp [Memory.wf, Memory.wfFrom_iff]

/-! ### Reads after writes -/

theorem cellFind_cellPut_same (m : List Host.Cell) (a : Nat) (v : Byte) : cellFind (cellPut m a v) a = some v := by
  induction m with
  | nil => simp [cellPut, cellFind]
  | cons x r ih =>
    obtain ⟨k, b⟩ := x
    unfold cellPut
    split
    · simp [cellFind]
    · split
      · simp [cellFind]
      · rename_i h1 h2
        simp [cellFind, Ne.symm h2, ih]

theorem cellFind_cellPut_other (m : List Host.Cell) (a k : Nat) (v : Byte) (h : k ≠ a) :
    cellFind (cellPut m a v) k = cellFind m k := by
  induction m with
  | nil => simp [cellPut, cellFind, Ne.symm h]
  | cons x r ih =>
    obtain ⟨j, b⟩ := x
    unfold cellPut
    split
    · simp [cellFind, Ne.symm h]
    · split
      · rename_i h1 h2
        subst h2
        simp [cellFind, Ne.symm h]
      · simp [cellFind, ih]

theorem cellFind_cellDrop_other (m : List Host.Cell) (a k : Nat) (h : k ≠ a) :
    cellFind (cellDrop m a) k = cellFind m k := by
  induction m with
  | nil => rfl
  | cons x r ih =>
    obtain ⟨j, b⟩ := x
    unfold cellDrop
    split
    · rename_i h1
      subst h1
      simp [cellFind, Ne.symm h]
    · simp [cellFind, ih]

theorem cellFind_none_of_lt (m : List Host.Cell) (a : Nat) (h : ∀ x ∈ m, a < x.1) : cellFind m a = none := by
  induction m with
  | nil => rfl
  | cons x r ih =>
    obtain ⟨j, b⟩ := x
    have h1 := h (j, b) (by simp)
    simp only [cellFind]
    rw [if_neg (by simp only at h1; omega)]
    exact ih fun y hy => h y (by simp [hy])

theorem cellFind_cellDrop_same (m : List Host.Cell) (a : Nat) (h : m.Pairwise (fun x y => x.1 < y.1)) :
    cellFind (cellDrop m a) a = none := by
  induction m with
  | nil => rfl
  | cons x r ih =>
    obtain ⟨j, b⟩ := x
    rw [List.pairwise_cons] at h
    unfold cellDrop
    split
    · rename_i h1
      subst h1
      exact cellFind_none_of_lt r j h.1
    · rename_i h1
      simp [cellFind, h1, ih h.2]

/-- A write leaves every other address as it was. -/
theorem Memory.get_set_other (m : List Host.Cell) (a k : Nat) (v : Byte) (h : k ≠ a) :
    Memory.get (Memory.set m a v) k = Memory.get m k := by
  unfold Memory.get Memory.set
  split
  · rw [cellFind_cellDrop_other m a k h]
  · rw [cellFind_cellPut_other m a k v h]

/-- A read after a write to the same address gives the byte written. -/
theorem Memory.get_set_same (m : List Host.Cell) (a : Nat) (v : Byte) (h : Memory.wf m = true) :
    Memory.get (Memory.set m a v) a = v := by
  unfold Memory.get Memory.set
  split
  · rename_i h1
    rw [cellFind_cellDrop_same m a ((Memory.wf_iff m).mp h).1, h1]
    rfl
  · rw [cellFind_cellPut_same]
    rfl

/-! ### The canonical form is kept -/

theorem mem_cellDrop (m : List Host.Cell) (a : Nat) (x : Host.Cell) (h : x ∈ cellDrop m a) : x ∈ m := by
  induction m with
  | nil => exact h
  | cons y r ih =>
    obtain ⟨j, b⟩ := y
    unfold cellDrop at h
    split at h
    · exact List.mem_cons_of_mem _ h
    · rcases List.mem_cons.mp h with h1 | h1
      · exact h1 ▸ List.mem_cons_self
      · exact List.mem_cons_of_mem _ (ih h1)

theorem mem_cellPut (m : List Host.Cell) (a : Nat) (v : Byte) (x : Host.Cell) (h : x ∈ cellPut m a v) :
    x = (a, v) ∨ x ∈ m := by
  induction m with
  | nil => simpa [cellPut] using h
  | cons y r ih =>
    obtain ⟨j, b⟩ := y
    unfold cellPut at h
    split at h
    · simpa using h
    · split at h
      · rcases List.mem_cons.mp h with h1 | h1
        · exact .inl h1
        · exact .inr (List.mem_cons_of_mem _ h1)
      · rcases List.mem_cons.mp h with h1 | h1
        · exact .inr (h1 ▸ List.mem_cons_self)
        · rcases ih h1 with h2 | h2
          · exact .inl h2
          · exact .inr (List.mem_cons_of_mem _ h2)

theorem cellDrop_rising (m : List Host.Cell) (a : Nat) (h : m.Pairwise (fun x y => x.1 < y.1)) :
    (cellDrop m a).Pairwise (fun x y => x.1 < y.1) := by
  induction m with
  | nil => exact h
  | cons y r ih =>
    obtain ⟨j, b⟩ := y
    rw [List.pairwise_cons] at h
    unfold cellDrop
    split
    · exact h.2
    · exact List.pairwise_cons.mpr ⟨fun x hx => h.1 x (mem_cellDrop r a x hx), ih h.2⟩

theorem cellPut_rising (m : List Host.Cell) (a : Nat) (v : Byte) (h : m.Pairwise (fun x y => x.1 < y.1)) :
    (cellPut m a v).Pairwise (fun x y => x.1 < y.1) := by
  induction m with
  | nil => simp [cellPut]
  | cons y r ih =>
    obtain ⟨j, b⟩ := y
    rw [List.pairwise_cons] at h
    unfold cellPut
    split
    · rename_i h1
      refine List.pairwise_cons.mpr ⟨fun x hx => ?_, List.pairwise_cons.mpr h⟩
      rcases List.mem_cons.mp hx with h2 | h2
      · subst h2
        exact h1
      · exact lt_trans h1 (h.1 x h2)
    · split
      · rename_i h1 h2
        subst h2
        exact List.pairwise_cons.mpr ⟨fun x hx => h.1 x hx, h.2⟩
      · rename_i h1 h2
        refine List.pairwise_cons.mpr ⟨fun x hx => ?_, ih h.2⟩
        rcases mem_cellPut r a v x hx with h3 | h3
        · subst h3
          show j < a
          omega
        · exact h.1 x h3

theorem Memory.set_wf (m : List Host.Cell) (a : Nat) (v : Byte) (h : Memory.wf m = true) :
    Memory.wf (Memory.set m a v) = true := by
  rw [Memory.wf_iff] at h ⊢
  unfold Memory.set
  split
  · exact ⟨cellDrop_rising m a h.1, fun x hx => h.2 x (mem_cellDrop m a x hx)⟩
  · rename_i h1
    refine ⟨cellPut_rising m a v h.1, fun x hx => ?_⟩
    rcases mem_cellPut m a v x hx with h2 | h2
    · subst h2
      exact h1
    · exact h.2 x h2

theorem Memory.setBytes_wf (m : List Host.Cell) (a : Nat) (l : List Byte) (h : Memory.wf m = true) :
    Memory.wf (Memory.setBytes m a l) = true := by
  induction l generalizing m a with
  | nil => exact h
  | cons b r ih => exact ih _ _ (Memory.set_wf m a b h)

theorem Memory.foldl_set_wf (l : List Host.Cell) (f : Host.Cell → Nat) (g : Host.Cell → Byte) (m : List Host.Cell)
    (h : Memory.wf m = true) : Memory.wf (l.foldl (fun m x => Memory.set m (f x) (g x)) m) = true := by
  induction l generalizing m with
  | nil => exact h
  | cons x r ih => exact ih _ (Memory.set_wf m (f x) (g x) h)

theorem Memory.nil_wf : Memory.wf [] = true := rfl

theorem filter_wf (m : List Host.Cell) (p : Host.Cell → Bool) (h : Memory.wf m = true) :
    Memory.wf (m.filter p) = true := by
  rw [Memory.wf_iff] at h ⊢
  exact ⟨h.1.filter p, fun x hx => h.2 x (List.mem_filter.mp hx).1⟩

theorem zipIdx_rising (l : List Byte) (a : Nat) : (l.zipIdx a).Pairwise (fun x y => x.2 < y.2) := by
  have h : ((l.zipIdx a).map Prod.snd).Pairwise (· < ·) := by
    rw [List.zipIdx_map_snd]
    exact List.pairwise_lt_range'
  exact List.pairwise_map.mp h

theorem Memory.setRange_wf (m : List Host.Cell) (a : Nat) (l : List Byte) (h : Memory.wf m = true) :
    Memory.wf (Memory.setRange m a l) = true := by
  rw [Memory.wf_iff] at h ⊢
  unfold Memory.setRange
  have hmid : ∀ x ∈ ((l.zipIdx a).filterMap fun (b, k) => if b = Memory.unlisted then none else some (k, b) :
      List Host.Cell), (a ≤ x.1 ∧ x.1 < a + l.length) ∧ x.2 ≠ Memory.unlisted := by
    intro x hx
    obtain ⟨⟨b, k⟩, hy, hxy⟩ := List.mem_filterMap.mp hx
    have h1 := List.le_snd_of_mem_zipIdx hy
    have h2 := List.snd_lt_of_mem_zipIdx hy
    simp only at hxy h1 h2
    split at hxy
    · cases hxy
    · cases hxy
      exact ⟨⟨h1, by omega⟩, by assumption⟩
  constructor
  · rw [List.pairwise_append, List.pairwise_append]
    refine ⟨⟨h.1.filter _, ?_, ?_⟩, h.1.filter _, ?_⟩
    · rw [List.pairwise_filterMap]
      refine (zipIdx_rising l a).imp ?_
      rintro ⟨b, j⟩ ⟨c, k⟩ hjk x hx y hy
      simp only at hx hy hjk
      split at hx
      · cases hx
      · split at hy
        · cases hy
        · cases hx
          cases hy
          exact hjk
    · intro x hx y hy
      have h1 := (List.mem_filter.mp hx).2
      have h2 := (hmid y hy).1.1
      have h3 : x.1 < a := by simpa using h1
      omega
    · intro x hx y hy
      have h4 : a + l.length ≤ y.1 := by simpa using (List.mem_filter.mp hy).2
      rcases List.mem_append.mp hx with h1 | h1
      · have h3 : x.1 < a := by simpa using (List.mem_filter.mp h1).2
        omega
      · have h3 := (hmid x h1).1.2
        omega
  · intro x hx
    rcases List.mem_append.mp hx with h1 | h1
    · rcases List.mem_append.mp h1 with h2 | h2
      · exact h.2 x (List.mem_filter.mp h2).1
      · exact (hmid x h2).2
    · exact h.2 x (List.mem_filter.mp h1).1

/-! ### Consecutive bytes -/

/-- Consecutive writes leave every address outside them as it was. -/
theorem Memory.get_setBytes_other (m : List Host.Cell) (a k : Nat) (l : List Byte) (h : k < a ∨ a + l.length ≤ k) :
    Memory.get (Memory.setBytes m a l) k = Memory.get m k := by
  induction l generalizing m a with
  | nil => rfl
  | cons b r ih =>
    have h1 : k < a ∨ a + (r.length + 1) ≤ k := h
    unfold Memory.setBytes
    rw [ih _ _ (by omega), Memory.get_set_other _ _ _ _ (by omega)]

/-- Consecutive writes give their bytes back. -/
theorem Memory.get_setBytes_same (m : List Host.Cell) (a i : Nat) (l : List Byte) (hm : Memory.wf m = true)
    (h : i < l.length) : Memory.get (Memory.setBytes m a l) (a + i) = l[i] := by
  induction l generalizing m a i with
  | nil => exact absurd h (by simp)
  | cons b r ih =>
    unfold Memory.setBytes
    cases i with
    | zero =>
      rw [Memory.get_setBytes_other _ _ _ _ (by omega), Nat.add_zero, Memory.get_set_same _ _ _ hm]
      rfl
    | succ n =>
      have h1 : a + (n + 1) = a + 1 + n := by omega
      rw [h1, ih _ _ _ (Memory.set_wf m a b hm) (by simpa using h)]
      rfl

end Sys2Proof.Machine
end

