-- ==== Sys2Proof/Laws/Effects.lean ====
section
/-! SUPPORT. What the operations on memory, page tables, counters, full/empty bits and scratchpads leave alone: the
herd-contexts, and the canonical form of memory. -/

namespace Sys2Proof.Machine

/-- `t` has the herd-contexts and the count of free choices of `s`, and memory in canonical form if `s` has. -/
def Quiet (s t : State) : Prop := t.hctxs = s.hctxs ∧ t.fresh = s.fresh ∧ (s.memOk → t.memOk)

theorem Quiet.refl (s : State) : Quiet s s := ⟨rfl, rfl, id⟩
theorem Quiet.trans {s t u : State} (h : Quiet s t) (k : Quiet t u) : Quiet s u :=
  ⟨k.1.trans h.1, k.2.1.trans h.2.1, fun m => k.2.2 (h.2.2 m)⟩
theorem Quiet.of_mem {s t : State} (h : t.hctxs = s.hctxs) (f : t.fresh = s.fresh) (m : t.mem = s.mem) : Quiet s t :=
  ⟨h, f, fun k => by unfold State.memOk at *; rw [m]; exact k⟩

theorem Quiet.ite (c : Prop) [Decidable c] {s a b : State} (h : Quiet s a) (k : Quiet s b) :
    Quiet s (if c then a else b) := by
  split
  · exact h
  · exact k

theorem Quiet.foldl {α : Type} (f : State → α → State) (hf : ∀ s a, Quiet s (f s a)) (l : List α) (s : State) :
    Quiet s (l.foldl f s) := by
  induction l generalizing s with
  | nil => exact Quiet.refl s
  | cons a l ih => exact (hf s a).trans (ih (f s a))

theorem quiet_modPart (s : State) (p : Nat) (f : Part → Part) : Quiet s (s.modPart p f) := by
  unfold State.modPart; split <;> exact Quiet.of_mem rfl rfl rfl

theorem quiet_setCore (s : State) (c : Nat) (k : Core) : Quiet s (s.setCore c k) := Quiet.of_mem rfl rfl rfl

theorem quiet_modInst (s : State) (p n : Nat) (f : Inst → Inst) : Quiet s (s.modInst p n f) := quiet_modPart s p _

theorem quiet_putMem (s : State) (a : Nat) (l : List Byte) : Quiet s (putMem s a l) :=
  ⟨rfl, rfl, fun h => Memory.setBytes_wf s.mem a l h⟩

theorem quiet_putMem64 (s : State) (a : Nat) (v : Word) : Quiet s (putMem64 s a v) := quiet_putMem s a _

theorem quiet_setMemTag (s : State) (a : Nat) (t : Tag) : Quiet s (setMemTag s a t) := Quiet.of_mem rfl rfl rfl

theorem quiet_tagWrite (s : State) (a n : Nat) (t : Tag) : Quiet s (tagWrite s a n t) :=
  Quiet.foldl _ (fun s _ => quiet_setMemTag s _ _) _ s

theorem quiet_markIrrev (s : State) (w : Who) : Quiet s (markIrrev s w) := by
  unfold markIrrev; split
  · exact quiet_modInst s _ _ _
  · exact Quiet.refl s

theorem quiet_performStaged (s : State) (w : Who) (a : Nat) : Quiet s (performStaged s w a) := by
  unfold performStaged
  split
  · dsimp only
    split
    · exact Quiet.refl s
    · refine Quiet.trans ?_ (quiet_modInst _ _ _ _)
      refine Quiet.trans ?_ (quiet_setMemTag _ _ _)
      exact ⟨rfl, rfl, fun h => Memory.foldl_set_wf _ _ _ _ h⟩
  · exact Quiet.refl s

theorem quiet_writeNow (s : State) (w : Who) (a : Nat) (l : List Byte) (t : Tag) : Quiet s (writeNow s w a l t) := by
  unfold writeNow
  split
  · exact quiet_modPart s _ _
  · split
    · exact Quiet.refl s
    · exact ((Quiet.foldl _ (fun s k => quiet_performStaged s w _) _ s).trans (quiet_putMem _ _ _)).trans (quiet_tagWrite _ _ _ _)

theorem quiet_putFw (s : State) (p a : Nat) (l : List Byte) : Quiet s (putFw s p a l) := quiet_writeNow s _ a l none

theorem quiet_modDie (s : State) (d : Nat) (f : Die → Die) : Quiet s (s.modDie d f) := by
  unfold State.modDie; split <;> exact Quiet.of_mem rfl rfl rfl

theorem quiet_errorRecord (s : State) (die : Nat) (c : BitVec 4) (k p : Nat) (u : BitVec 10) (x y : Word) :
    Quiet s (errorRecord s die c k p u x y) := quiet_modDie s _ _

theorem quiet_bringBack (s : State) (w : Who) (a n : Nat) : Quiet s (bringBack s w a n) := by
  unfold bringBack
  split
  · exact Quiet.refl s
  · exact Quiet.ite _ (Quiet.refl s) ((quiet_modPart s _ _).trans (quiet_modInst _ _ _ _))

theorem quiet_arrive (s : State) (w : Who) (a n : Nat) : Quiet s (arrive s w a n) := by
  unfold arrive
  refine Quiet.trans ?_ (quiet_bringBack _ w a n)
  split
  · exact quiet_errorRecord _ _ _ _ _ _ _ _
  · exact Quiet.refl s

theorem quiet_locArrive (s : State) (w : Who) (l : Loc) (n : Nat) : Quiet s (locArrive s w l n) := by
  cases l
  · exact quiet_arrive s w _ n
  · exact Quiet.refl s

theorem quiet_writeImm (s : State) (w : Who) (a : Nat) (l : List Byte) (t : Tag) : Quiet s (writeImm s w a l t) :=
  (quiet_writeNow s w a l t).trans (quiet_markIrrev _ w)

theorem quiet_writeStaged (s t : State) (w : Who) (a : Nat) (l : List Byte) (g : Tag) (h : writeStaged s w a l g = some t) :
    Quiet s t := by
  unfold writeStaged at h
  split at h
  · dsimp only at h
    split at h
    · cases h
    · injection h with h
      subst h
      exact (quiet_modPart s _ _).trans (quiet_modInst _ _ _ _)
  · injection h with h
    subst h
    exact quiet_writeNow s w a l g

theorem quiet_writeBytes (s t : State) (w : Who) (a : Nat) (l : List Byte) (g : Tag) (h : writeBytes s w a l g = some t) :
    Quiet s t := by
  unfold writeBytes at h
  split at h
  · exact quiet_writeStaged s t w a l g h
  · injection h with h
    subst h
    exact quiet_writeImm s w a l g

theorem quiet_orEntry (s : State) (a : Nat) (b : Word) : Quiet s (orEntry s a b) := quiet_putMem64 s a _

theorem quiet_touchPage (s : State) (pg : Page) (i : BitVec 2) : Quiet s (touchPage s pg i) :=
  (quiet_orEntry s _ _).trans (quiet_orEntry _ _ _)

theorem quiet_reach (s t : State) (p : Nat) (sys : Bool) (va : Nat) (i : BitVec 2) (pa : Nat)
    (h : reach s p sys va i = .ok (t, pa)) : Quiet s t := by
  unfold reach at h
  split at h
  · cases h
  · injection h with h
    injection h with h1 h2
    subst h1
    exact quiet_touchPage s _ _

theorem quiet_noteAdd (s : State) (a v : Nat) : Quiet s (noteAdd s a v) :=
  Quiet.ite _ (Quiet.of_mem rfl rfl rfl) (Quiet.refl s)

theorem quiet_counterAdd (s : State) (w : Who) (a : Nat) (v : BitVec 32) (t : Tag) : Quiet s (counterAdd s w a v t) :=
  Quiet.ite _ ((quiet_writeImm s w a _ _).trans (quiet_noteAdd _ _ _)) (quiet_writeImm s w a _ _)

theorem quiet_addVa (s : State) (p : Nat) (va : Word) (v : BitVec 32) : Quiet s (addVa s p va v) := by
  unfold addVa
  split
  · exact Quiet.refl s
  · split
    · rename_i h; exact (quiet_reach _ _ _ _ _ _ _ h).trans (quiet_counterAdd _ _ _ _ _)
    · exact Quiet.refl s

theorem quiet_raiseEvent (s : State) (p : Nat) : Quiet s (raiseEvent s p) := by
  unfold raiseEvent
  split
  · exact quiet_addVa s _ _ _
  · exact Quiet.refl s

theorem quiet_wakeRecord (s : State) (spad : Bool) (key op : Nat) (full : Bool) : Quiet s (wakeRecord s spad key op full) := by
  unfold wakeRecord
  split
  · exact Quiet.refl s
  · split
    · exact Quiet.refl s
    · split
      · exact Quiet.refl s
      · rename_i h
        refine (quiet_reach _ _ _ _ _ _ _ h).trans (Quiet.trans ?_ (quiet_counterAdd _ _ _ _ _))
        split
        · exact quiet_putFw _ _ _ _
        · exact Quiet.refl _

theorem quiet_setFull (s : State) (a : Nat) (full : Bool) (op : Nat) : Quiet s (setFull s a full op) := by
  unfold setFull
  have h : Quiet s { s with feEmpty := if full then nsDel s.feEmpty (a / 8) else nsAdd s.feEmpty (a / 8) } :=
    Quiet.of_mem rfl rfl rfl
  exact Quiet.ite _ (h.trans (quiet_wakeRecord _ _ _ _ _)) h

theorem quiet_setSpFull (s : State) (core a : Nat) (full : Bool) (op : Nat) : Quiet s (setSpFull s core a full op) := by
  unfold setSpFull
  exact Quiet.ite _ ((quiet_setCore _ _ _).trans (quiet_wakeRecord _ _ _ _ _)) (quiet_setCore _ _ _)

theorem quiet_locSetFull (s : State) (l : Loc) (full : Bool) (op : Nat) : Quiet s (locSetFull s l full op) := by
  cases l
  · exact quiet_setFull s _ _ _
  · exact quiet_setSpFull s _ _ _ _

theorem quiet_appendRing (s : State) (b : Nat) (l : List Word) : Quiet s (appendRing s b l) := by
  unfold appendRing
  split
  · exact Quiet.refl s
  · exact (quiet_putFw s _ _ _).trans (quiet_putFw _ _ _ _)

theorem quiet_noteStage2 (s : State) (h : HerdCtx) (t : Trap) : Quiet s (noteStage2 s h t) :=
  (quiet_appendRing s _ _).trans (Quiet.of_mem rfl rfl rfl)

theorem quiet_fillHandle (s : State) (h : HerdCtx) (sys : Bool) (va : Word) (i : BitVec 2) (op : Nat) :
    Quiet s (fillHandle s h sys va i op).1 := by
  unfold fillHandle
  split
  · exact quiet_touchPage s _ _
  · dsimp only
    split
    · exact quiet_noteStage2 _ _ _
    · exact Quiet.refl s

theorem quiet_beginImm (s : State) (w : Who) (l : Loc) : Quiet s (beginImm s w l) := by
  cases l
  · exact (Quiet.ite _ (quiet_performStaged s w _) (Quiet.refl s)).trans (quiet_markIrrev _ w)
  · exact quiet_markIrrev s w

theorem quiet_countFabErr (s : State) (p : Nat) : Quiet s (countFabErr s p) := quiet_modPart s p _

theorem quiet_loseImm (s : State) (w : Who) (l : Loc) : Quiet s (loseImm s w l) := by
  cases l
  · exact (Quiet.ite _ (Quiet.refl s) (quiet_countFabErr s _)).trans (quiet_markIrrev _ w)
  · exact quiet_markIrrev s w

theorem quiet_setSpByte (s : State) (c a : Nat) (v : Byte) : Quiet s (setSpByte s c a v) := quiet_setCore s _ _

theorem quiet_locWrite (s t : State) (w : Who) (l : Loc) (d : List Byte) (g : Tag) (imm : Bool)
    (h : locWrite s w l d g imm = some t) : Quiet s t := by
  cases l
  · unfold locWrite at h
    dsimp only at h
    split at h
    · injection h with h; subst h; exact quiet_writeImm s w _ d g
    · exact quiet_writeBytes s t w _ d g h
  · injection h with h
    subst h
    exact (Quiet.foldl _ (fun s x => quiet_setSpByte s _ _ _) _ s).trans (Quiet.foldl _ (fun s _ => quiet_setCore s _ _) _ _)

theorem quiet_locPut (s : State) (w : Who) (l : Loc) (v : SReg) : Quiet s (locPut s w l v) := by
  unfold locPut
  cases h : locWrite s w l (bytesOf 8 v.val.toNat) v.tag true with
  | none => exact Quiet.refl s
  | some t => exact quiet_locWrite _ _ _ _ _ _ _ h

theorem quiet_feAttempt (s t : State) (w : Who) (k : FeKind) (l : Loc) (d v : SReg) (op : Nat) (p : Bool)
    (h : feAttempt s w k l d op p = some (t, v)) : Quiet s t := by
  unfold feAttempt at h
  dsimp only at h
  split at h
  · cases k <;> simp only [Option.some.injEq, Prod.mk.injEq] at h
    · rw [← h.1]; exact (quiet_locArrive s w l 8).trans (quiet_markIrrev _ w)
    · rw [← h.1]; exact (quiet_locArrive s w l 8).trans (quiet_loseImm _ w l)
    · rw [← h.1]; exact quiet_loseImm s w l
  cases k <;> dsimp only at h <;> split at h <;> simp only [Option.some.injEq, Prod.mk.injEq, reduceCtorEq] at h
  · rw [← h.1]; exact (quiet_beginImm s w l).trans (quiet_locArrive _ w l 8)
  · rw [← h.1]; exact ((quiet_beginImm s w l).trans (quiet_locArrive _ w l 8)).trans (quiet_locSetFull _ _ _ _)
  · rw [← h.1]; exact ((quiet_beginImm s w l).trans (quiet_locPut _ _ _ _)).trans (quiet_locSetFull _ _ _ _)

theorem quiet_placeSet (s t : State) (core ctx : Nat) (p : SpPlace) (k : Nat) (v : W32)
    (h : placeSet s core ctx p k v = .ok t) : Quiet s t := by
  have ok : ∀ (x : Except Cause Core) (c : Nat) (f : Core → Core), x.map (fun y => s.setCore c (f y)) = .ok t →
      Quiet s t := by
    intro x c f hx
    cases x with
    | error e => cases hx
    | ok y => injection hx with hx; subst hx; exact quiet_setCore s _ _
  unfold placeSet at h
  cases p <;> dsimp only at h
  all_goals first
    | (injection h with h; subst h; first | exact quiet_setCore s _ _ | exact Quiet.refl s)
    | (split at h
       · exact ok _ _ (fun c => { c with fresh := c.fresh + 1 }) h
       · injection h with h; subst h; exact Quiet.refl s)

theorem quiet_placeWrite (s t : State) (core ctx : Nat) (p : SpPlace) (n v : Nat) (g : Tag)
    (h : placeWrite s core ctx p n v g = .ok t) : Quiet s t := by
  unfold placeWrite at h
  cases p with
  | repair e => injection h with h; subst h; exact quiet_setCore s _ _
  | word c a =>
    dsimp only at h
    split at h
    · cases h
    · rename_i s' h1
      have h1 := quiet_placeSet _ _ _ _ _ _ _ h1
      split at h
      · cases h2 : placeSet s' core ctx (.word c a) 1 (BitVec.ofNat 32 (v / 2 ^ 32)) with
        | error e => rw [h2] at h; cases h
        | ok s2 => rw [h2] at h; injection h with h; subst h
                   exact (h1.trans (quiet_placeSet _ _ _ _ _ _ _ h2)).trans (quiet_setCore _ _ _)
      · injection h with h; subst h; exact h1.trans (quiet_setCore _ _ _)
  | slice _ _ =>
    dsimp only at h
    split at h
    · cases h
    · rename_i s' h1
      split at h
      · exact (quiet_placeSet _ _ _ _ _ _ _ h1).trans (quiet_placeSet _ _ _ _ _ _ _ h)
      · injection h with h; subst h; exact quiet_placeSet _ _ _ _ _ _ _ h1
  | tile _ _ =>
    dsimp only at h
    split at h
    · cases h
    · rename_i s' h1
      split at h
      · exact (quiet_placeSet _ _ _ _ _ _ _ h1).trans (quiet_placeSet _ _ _ _ _ _ _ h)
      · injection h with h; subst h; exact quiet_placeSet _ _ _ _ _ _ _ h1
  | tileState _ _ =>
    dsimp only at h
    split at h
    · cases h
    · rename_i s' h1
      split at h
      · exact (quiet_placeSet _ _ _ _ _ _ _ h1).trans (quiet_placeSet _ _ _ _ _ _ _ h)
      · injection h with h; subst h; exact quiet_placeSet _ _ _ _ _ _ _ h1
  | tileTag _ _ =>
    dsimp only at h
    split at h
    · cases h
    · rename_i s' h1
      split at h
      · exact (quiet_placeSet _ _ _ _ _ _ _ h1).trans (quiet_placeSet _ _ _ _ _ _ _ h)
      · injection h with h; subst h; exact quiet_placeSet _ _ _ _ _ _ _ h1
  | accWord _ _ _ =>
    dsimp only at h
    split at h
    · cases h
    · rename_i s' h1
      split at h
      · exact (quiet_placeSet _ _ _ _ _ _ _ h1).trans (quiet_placeSet _ _ _ _ _ _ _ h)
      · injection h with h; subst h; exact quiet_placeSet _ _ _ _ _ _ _ h1
  | accState _ _ =>
    dsimp only at h
    split at h
    · cases h
    · rename_i s' h1
      split at h
      · exact (quiet_placeSet _ _ _ _ _ _ _ h1).trans (quiet_placeSet _ _ _ _ _ _ _ h)
      · injection h with h; subst h; exact quiet_placeSet _ _ _ _ _ _ _ h1

/-- A handle access that passes its checks reaches its address. -/
theorem handleAccess_ok (c : Ctx) (hf : BitVec 4) (a : Ask) (off : Int) (n al op : Nat)
    (h : handleFault (c.m.readH c.seed (c.ix 8) ((c.h.hreg hf.toNat).getD hf.toNat)) a off n al = none) :
    handleAccess c hf a off n al op =
      .ok ((c.m.readH c.seed (c.ix 8) ((c.h.hreg hf.toNat).getD hf.toNat)).base.toNat + off.toNat) := by
  unfold handleAccess
  simp only [h]

end Sys2Proof.Machine
end

