-- ==== Sys2Proof/Laws/FullEmpty.lean ====
section
/-! SUPPORT. A bundle of one waiting full/empty form on a herd of one member: its attempt, then its commit, its next try, or
the trap of an exhausted budget. -/

namespace Sys2Proof.Machine

theorem modMember_one (h : HerdCtx) (m : Member) (f : Member → Member) (hm : h.members = [m]) :
    h.modMember 0 f = { h with members := [f m] } := by
  unfold HerdCtx.modMember HerdCtx.member? HerdCtx.setMember
  simp only [hm, List.getElem?_cons_zero]
  rfl

theorem State.modMember_one (t : State) (id : Nat) (h : HerdCtx) (m : Member) (f : Member → Member)
    (ht : t.hc? id = some h) (hm : h.members = [m]) :
    t.modMember id 0 f = t.setHc id { h with members := [f m] } := by
  unfold State.modMember
  rw [State.modHc_of t id _ h ht, Machine.modMember_one h m f hm]

theorem touchOverlay_core (s : State) (h g : HerdCtx) (h1 : g.part = h.part) (h2 : g.image = h.image) (h3 : g.pc = h.pc)
    (h4 : g.leadCore = h.leadCore) : touchOverlay s g = touchOverlay s h := by
  have hi : s.image? g = s.image? h := by unfold State.image?; rw [h1, h2]
  unfold touchOverlay
  rw [hi, h3, h4]

/-- The member with a word held for its waiting form (R202). -/
def Member.holding (m : Member) (v : SReg) : Member := { m with feHeld := some v }

/-- The herd-context of one member that holds a word. -/
def HerdCtx.holding (h : HerdCtx) (m : Member) (v : SReg) : HerdCtx := { h with members := [m.holding v] }

/-- A waiting form of a herd of one member, its word held, acts on the member: none of its slots stops, and its bundle
commits. -/
theorem held_completes (i : Instr) (hk : i.kind = .memory) (t : State) (id : Nat) (h : HerdCtx) (m : Member) (v : SReg)
    (upd : Member → Member) (ht : t.hc? id = some h) (hm : h.members = [m]) (hl : h.leadOf < h.members.length)
    (hg : (ctxFor t id h 0 3 0 m).guard i.guard = true)
    (hc : slotFx i (ctxFor (t.modMember id 0 (·.holding v)) id (h.holding m v) 0 3 0 (m.holding v))
        (t.modMember id 0 (·.holding v)) = .ok (t.modMember id 0 upd))
    (hfit : (upd m).fits = true) :
    (t.modMember id 0 (·.holding v)).hc? id = some (h.holding m v) ∧
    stopsOf (t.modMember id 0 (·.holding v)) id (h.holding m v) (bundleOf i) = [] ∧
    completeBundle (t.modMember id 0 (·.holding v)) id (h.holding m v) (bundleOf i) none none =
      .ok (committed (t.modMember id 0 upd) id h 16) := by
  have hi : isSolo i := .inr (.inr hk)
  have hp := solo_parts i hi
  have h1 : (t.modMember id 0 (·.holding v)).hc? id = some (h.holding m v) := by
    rw [State.modMember_one t id h m _ ht hm]; exact aget_aset_same _ _ _
  have hl' : (h.holding m v).leadOf < (h.holding m v).members.length := by rw [hm] at hl; exact hl
  have hs : soloSlot i = 3 := by simp only [soloSlot, hk]
  have hslot : runSlot (t.modMember id 0 (·.holding v))
      (ctxFor (t.modMember id 0 (·.holding v)) id (h.holding m v) 0 (soloSlot i) 0 (m.holding v), i) =
      .ok (t.modMember id 0 upd) := by
    unfold runSlot
    rw [hs]
    exact (if_pos hg).trans hc
  refine ⟨h1, ?_, ?_⟩
  · refine solo_stops _ _ _ i hi ?_
    intro k m' hm'
    cases k with
    | zero => cases hm'; exact ⟨_, hslot⟩
    | succ k => cases hm'
  have hrun : foldStop runSlot (slotRuns (t.modMember id 0 (·.holding v)) id (h.holding m v) (bundleOf i))
      (t.modMember id 0 (·.holding v)) = .ok (t.modMember id 0 upd) := by
    rw [solo_fold _ _ _ i hi]
    change foldStop _ (List.range 1) _ = _
    simp only [List.range_one, foldStop, soloStep]
    rw [show (h.holding m v).members[0]? = some (m.holding v) from rfl]
    dsimp only
    rw [hslot]
  have hfit' : ((t.modMember id 0 upd).hc? id).map fitsSnapshot = some true := by
    rw [State.modMember_one t id h m _ ht hm]
    have : (t.setHc id { h with members := [upd m] }).hc? id = some { h with members := [upd m] } := aget_aset_same _ _ _
    rw [this, Option.map_some, fitsSnapshot_eq]
    simp [hfit]
  obtain ⟨y, hctl, hyh, hyn⟩ : ∃ y, ctlIn (t.modMember id 0 (·.holding v)) id (h.holding m v) (bundleOf i) = some y ∧
      y.h = h.holding m v ∧ y.next = h.pc + 16 :=
    ⟨_, ctlIn_some _ id _ (bundleOf i) hl', rfl, by simp [hp.2.2.2.2.2]; rfl⟩
  unfold completeBundle
  rw [hctl]
  simp only [hp.1, runControl_nop, solo_writesNow i hi, runSlotIn_false, hrun, hfit', Option.getD_some, Bool.true_eq_false,
    if_false, commitStops_none, Bool.and_false, Option.any_none, Bool.false_eq_true]
  rw [solo_commit _ id _ i hi y hyh hyn]
  unfold committed
  rw [touchOverlay_core (t.modMember id 0 upd) h (h.holding m v) rfl rfl rfl
    (by unfold HerdCtx.leadCore; rw [hm]; rfl)]
  rfl

/-- The attempts of a bundle of one M operation on a herd of one member. -/
theorem feAsks_one (i : Instr) (hk : i.kind = .memory) (u : State) (id : Nat) (h : HerdCtx) (m : Member) (k : FeKind)
    (l : Loc) (d : SReg) (op : Nat) (hm : h.members = [m]) (hh : m.feHeld = none)
    (hg : (ctxFor u id h 0 3 0 m).guard i.guard = true)
    (hreq : feRequest i (ctxFor u id h 0 3 0 m) u = some (k, .ok l, d, op)) :
    feAsks u id h (bundleOf i) =
      [⟨0, none, k, l, d, op, feTrapOf (ctxFor u id h 0 3 0 m) i op⟩] := by
  have hm0 : h.members[0]? = some m := by rw [hm]; rfl
  have h2 := slotCtx_of u id h (bundleOf i) 0 2 m hm0
  have h3 := slotCtx_of u id h (bundleOf i) 0 3 m hm0
  have hp := solo_parts i (.inr (.inr hk))
  rw [hp.2.2.2.2.1] at h2 h3
  have hv : (bundleOf i).v = .vnop := by rw [bundleOf_memory i hk]
  have hmm : (bundleOf i).m = i := by rw [bundleOf_memory i hk]
  unfold feAsks
  rw [hm]
  have hvs : vSpec .vnop = none := rfl
  simp only [List.length_singleton, List.range_one, List.flatMap_cons, List.flatMap_nil, List.append_nil, h2, h3, hv, hvs, hmm]
  unfold slotAsk
  rw [if_neg (by
    rintro (hx | hx)
    · rw [hg] at hx; cases hx
    · have : (ctxFor u id h 0 3 0 m).m.feHeld = none := hh
      rw [this] at hx; cases hx), hreq]
  rfl

/-- An operation of the M slot uses no stream of the V slot. -/
theorem streamBlocked_memory (i : Instr) (hk : i.kind = .memory) (s : State) (c : Ctx) : streamBlocked s (c, i) = false := by
  have hv : vSpec i = none := by
    cases i <;> first | rfl | (exact absurd hk (by decide)) | (cases hk)
  unfold streamBlocked
  rw [hv]

/-- A bundle of one waiting form whose one member still has to make its attempt makes it: with its word held it would
commit. -/
theorem issueOne_retry (i : Instr) (hk : i.kind = .memory) (s : State) (id : Nat) (h : HerdCtx) (m : Member) (x : FeAsk)
    (upd : Member → Member) (hr : Ready s id h (bundleOf i)) (hm : h.members = [m])
    (hs : runSlot (landAll s id) (ctxFor (landAll s id) id h 0 3 0 m, i) = .error .retry)
    (ha : feAsks (landAll s id) id h (bundleOf i) = [x]) (hx : x.mi = 0) (hp : x.pair = none)
    (hg : (ctxFor (landAll s id) id h 0 3 0 m).guard i.guard = true)
    (hc : slotFx i (ctxFor ((landAll s id).modMember id 0 (·.holding ⟨0, none⟩)) id (h.holding m ⟨0, none⟩) 0 3 0
        (m.holding ⟨0, none⟩)) ((landAll s id).modMember id 0 (·.holding ⟨0, none⟩)) =
      .ok ((landAll s id).modMember id 0 upd))
    (hfit : (upd m).fits = true) :
    issueOne i s = .next (attemptFe (landAll s id) id h (bundleOf i) none none) := by
  have hi : isSolo i := .inr (.inr hk)
  have hq := solo_parts i hi
  have hx' := (issues_iff _ _ _ _).mp hr.2
  have h9 := hx'.2.2.2.2.2.2.2.2.1
  have hstops : stopsOf (landAll s id) id h (bundleOf i) = [(0, 3, .retry)] := by
    have hsl : slotRuns (landAll s id) id h (bundleOf i) =
        (bundleOf i).slots.filterMap fun (j, x) => (slotCtx (landAll s id) id h (bundleOf i) 0 j).map fun c => (c, x) := by
      unfold slotRuns
      rw [hm]
      simp [List.range_succ]
    unfold stopsOf
    rw [hq.1, hsl, hm]
    have hm0 : h.members[0]? = some m := by rw [hm]; rfl
    simp only [slotCtx_of _ id h (bundleOf i) 0 _ m hm0, hq.2.2.2.2.1, Option.map_some]
    have hx := ctlIn_some (landAll s id) id h (bundleOf i) h9
    simp only [hx, runControl_nop]
    simp only [bundleOf_memory i hk, Bundle.slots] at hs ⊢
    simp only [List.filterMap_cons, List.filterMap_nil, List.flatMap_cons, List.flatMap_nil, hs, runSlot_snop,
      runSlot_vnop, List.nil_append, streamBlocked_memory i hk, Bool.false_eq_true, if_false]
    rfl
  have hn : loopNest h (bundleOf i) = none := by
    unfold loopNest
    simp [Bundle.routines, hq.2.1, hq.2.2.1]
  have hb : bundleWait (landAll s id) id h [(0, 3, Stop.retry)] none none (fun _ => false) = none := by
    unfold bundleWait
    rw [engineBusy_zero h _ id hx'.2.2.2.2.2.2.2.1]
    rfl
  rw [issueOne_now i s id h none none hr (routineCall_zero _ _ _ _ _ _ hq.2.1) (routineCall_zero _ _ _ _ _ _ hq.2.2.1) hn
    (linkFull_nil h) _ hstops rfl hb rfl]
  obtain ⟨t1, t2, t3⟩ := held_completes i hk (landAll s id) id h m ⟨0, none⟩ upd hx'.1 hm h9 hg hc hfit
  have hat : attempted (landAll s id) id (feAsks (landAll s id) id h (bundleOf i)) =
      (landAll s id).modMember id 0 (·.holding ⟨0, none⟩) := by
    rw [ha]
    unfold attempted
    simp only [List.foldl_cons, List.foldl_nil, hp, hx]
    rfl
  unfold issueNow
  have e1 : (Stop.retry == Stop.late) = false := rfl
  have e2 : (Stop.retry == Stop.stage) = false := rfl
  have e3 : (Stop.retry == Stop.retry) = true := rfl
  have hf : firstTrap false [(0, 3, Stop.retry)] = none := rfl
  simp only [List.any_cons, List.any_nil, e1, e2, e3, Bool.or_false, Bool.false_eq_true, if_false, if_true, hf, hat, t1,
    Option.getD_some, t2, t3]
  rfl

theorem feRound_one (u : State) (id : Nat) (w : Who) (x : FeAsk) :
    feRound u id w [x] = ((feTry u id w x).1, if (feTry u id w x).2 then [] else [x]) := by
  unfold feRound feOrder
  simp only [List.foldl_cons, List.foldl_nil, insertBy, List.map_cons, List.map_nil, List.nil_append]
  cases h : (feTry u id w x).2 <;> simp

/-- An attempt that fails, with tries left: the herd-context tries again later and nothing else changes. -/
theorem attempt_again (i : Instr) (u : State) (id : Nat) (h : HerdCtx) (x : FeAsk)
    (ha : feAsks u id h (bundleOf i) = [x]) (hf : feAttempt u (h.who u) x.kind x.loc x.val x.op false = none)
    (hb : h.feTries < h.feBudget.toNat) :
    attemptFe u id h (bundleOf i) none none =
      u.modHc id fun h => { h with feTries := h.feTries + 1, fresh := h.fresh + 16 } := by
  unfold attemptFe
  rw [ha, feRound_one]
  have : feTry u id (h.who u) x = (u, false) := by unfold feTry; rw [hf]
  rw [this]
  simp only [Bool.false_eq_true, if_false]
  rw [if_neg (by omega)]

/-- An attempt that fails with no try left: FE_BUDGET. -/
theorem attempt_spent (i : Instr) (u : State) (id : Nat) (h : HerdCtx) (x : FeAsk)
    (ha : feAsks u id h (bundleOf i) = [x]) (hf : feAttempt u (h.who u) x.kind x.loc x.val x.op false = none)
    (hb : h.feBudget.toNat ≤ h.feTries) (h0 : x.mi = 0) :
    attemptFe u id h (bundleOf i) none none = takeTrap u id (x.trap.withWord x.loc) 1 := by
  unfold attemptFe
  rw [ha, feRound_one]
  have : feTry u id (h.who u) x = (u, false) := by unfold feTry; rw [hf]
  rw [this]
  simp only [Bool.false_eq_true, if_false]
  rw [if_pos hb]
  simp only [h0, List.map_cons, List.map_nil]
  rfl

/-- An attempt that succeeds: the bundle commits with what the slot then does. -/
theorem attempt_commits (i : Instr) (hk : i.kind = .memory) (u t : State) (id : Nat) (h : HerdCtx) (m : Member) (x : FeAsk)
    (v : SReg) (upd : Member → Member) (hh : u.hc? id = some h) (hm : h.members = [m]) (hl : h.leadOf < h.members.length)
    (ha : feAsks u id h (bundleOf i) = [x]) (hx : x.mi = 0) (hp : x.pair = none)
    (hf : feAttempt u (h.who u) x.kind x.loc x.val x.op false = some (t, v))
    (hg : (ctxFor u id h 0 3 0 m).guard i.guard = true)
    (hc : slotFx i (ctxFor (t.modMember id 0 (·.holding v)) id (h.holding m v) 0 3 0 (m.holding v))
        (t.modMember id 0 (·.holding v)) = .ok (t.modMember id 0 upd))
    (hfit : (upd m).fits = true) :
    attemptFe u id h (bundleOf i) none none = committed (t.modMember id 0 upd) id h 16 := by
  have hq := quiet_feAttempt _ _ _ _ _ _ _ _ _ hf
  have ht : t.hc? id = some h := by unfold State.hc? at *; rw [hq.1]; exact hh
  obtain ⟨t1, -, t3⟩ := held_completes i hk t id h m v upd ht hm hl hg hc hfit
  unfold attemptFe
  rw [ha, feRound_one]
  have hty : feTry u id (h.who u) x = (t.modMember id 0 (·.holding v), true) := by
    unfold feTry; rw [hf]; dsimp only; rw [hp, hx]; rfl
  rw [hty]
  simp only [if_true, t1, t3]

end Sys2Proof.Machine
end

