-- ==== Sys2Proof/Laws/Words.lean ====
section
/-! SUPPORT. The bit fields of every word form: the number a form's word is, the fields that the decoder reads back from
it, and what each decoder of a slot makes of the word of each operation. -/

namespace Sys2Proof

theorem toNat_app {n m : Nat} (x : BitVec n) (y : BitVec m) : (x ++ y).toNat = x.toNat * 2 ^ m + y.toNat := by
  rw [BitVec.toNat_append, ← Nat.shiftLeft_add_eq_or_of_lt y.isLt, Nat.shiftLeft_eq]

theorem bits_toNat (w : BitVec 64) (lo n : Nat) : (bits w lo n).toNat = w.toNat / 2 ^ lo % 2 ^ n := by
  simp [bits, BitVec.extractLsb'_toNat, Nat.shiftRight_eq_div_pow]

theorem wordSR_toNat (op : BitVec 6) (fn : BitVec 6) (f : SRForm) : (wordSR op fn f).toNat =
    ((((((((op.toNat) * 2 ^ 4 + f.g.toNat) * 2 ^ 4 + f.lat.toNat) * 2 ^ 6 + f.sd.toNat) * 2 ^ 6 + f.sa.toNat) * 2 ^ 6 + f.sb.toNat) * 2 ^ 6 + fn.toNat) * 2 ^ 6 + f.hint.toNat) * 2 ^ 20 := by
  unfold wordSR
  repeat erw [toNat_app]
  all_goals simp

theorem fieldsSR_wordSR (op : BitVec 6) (fn : BitVec 6) (f : SRForm) : fieldsSR (wordSR op fn f) = f := by
  have h := wordSR_toNat op fn f
  obtain ⟨g, lat, sd, sa, sb, hint⟩ := f
  simp only at h
  simp only [fieldsSR, SRForm.mk.injEq]
  refine ⟨?_, ?_, ?_, ?_, ?_, ?_⟩ <;>
    (apply BitVec.eq_of_toNat_eq; rw [bits_toNat, h]; omega)

theorem wordSR_op (op : BitVec 6) (fn : BitVec 6) (f : SRForm) : (bits (wordSR op fn f) 58 6).toNat = op.toNat := by
  have h := wordSR_toNat op fn f
  rw [bits_toNat, h]
  omega

theorem wordSR_fn (op : BitVec 6) (fn : BitVec 6) (f : SRForm) : (bits (wordSR op fn f) 26 6).toNat = fn.toNat := by
  have h := wordSR_toNat op fn f
  rw [bits_toNat, h]
  omega

theorem wordS1_toNat (op : BitVec 6) (fn : BitVec 6) (f : S1Form) : (wordS1 op fn f).toNat =
    ((((((((op.toNat) * 2 ^ 4 + f.g.toNat) * 2 ^ 4 + f.lat.toNat) * 2 ^ 6 + f.sd.toNat) * 2 ^ 6 + f.sa.toNat) * 2 ^ 6) * 2 ^ 6 + fn.toNat) * 2 ^ 6 + f.hint.toNat) * 2 ^ 20 := by
  unfold wordS1
  repeat erw [toNat_app]
  all_goals simp

theorem fieldsS1_wordS1 (op : BitVec 6) (fn : BitVec 6) (f : S1Form) : fieldsS1 (wordS1 op fn f) = f := by
  have h := wordS1_toNat op fn f
  obtain ⟨g, lat, sd, sa, hint⟩ := f
  simp only at h
  simp only [fieldsS1, S1Form.mk.injEq]
  refine ⟨?_, ?_, ?_, ?_, ?_⟩ <;>
    (apply BitVec.eq_of_toNat_eq; rw [bits_toNat, h]; omega)

theorem wordS1_op (op : BitVec 6) (fn : BitVec 6) (f : S1Form) : (bits (wordS1 op fn f) 58 6).toNat = op.toNat := by
  have h := wordS1_toNat op fn f
  rw [bits_toNat, h]
  omega

theorem wordS1_fn (op : BitVec 6) (fn : BitVec 6) (f : S1Form) : (bits (wordS1 op fn f) 26 6).toNat = fn.toNat := by
  have h := wordS1_toNat op fn f
  rw [bits_toNat, h]
  omega

theorem wordChke_toNat (f : ChkeForm) : (wordChke f).toNat =
    ((((((((22) * 2 ^ 4 + f.g.toNat) * 2 ^ 4 + f.lat.toNat) * 2 ^ 6 + f.sd.toNat) * 2 ^ 6) * 2 ^ 6) * 2 ^ 6) * 2 ^ 6 + f.hint.toNat) * 2 ^ 20 := by
  unfold wordChke
  repeat erw [toNat_app]
  all_goals simp

theorem fieldsChke_wordChke (f : ChkeForm) : fieldsChke (wordChke f) = f := by
  have h := wordChke_toNat f
  obtain ⟨g, lat, sd, hint⟩ := f
  simp only at h
  simp only [fieldsChke, ChkeForm.mk.injEq]
  refine ⟨?_, ?_, ?_, ?_⟩ <;>
    (apply BitVec.eq_of_toNat_eq; rw [bits_toNat, h]; omega)

theorem wordChke_op (f : ChkeForm) : (bits (wordChke f) 58 6).toNat = 22 := by
  have h := wordChke_toNat f
  rw [bits_toNat, h]
  omega

theorem wordSel_toNat (f : SelForm) : (wordSel f).toNat =
    (((((((((14) * 2 ^ 4 + f.g.toNat) * 2 ^ 4 + f.lat.toNat) * 2 ^ 6 + f.sd.toNat) * 2 ^ 6 + f.sa.toNat) * 2 ^ 6 + f.sb.toNat) * 2 ^ 2) * 2 ^ 4 + f.p.toNat) * 2 ^ 6 + f.hint.toNat) * 2 ^ 20 := by
  unfold wordSel
  repeat erw [toNat_app]
  all_goals simp

theorem fieldsSel_wordSel (f : SelForm) : fieldsSel (wordSel f) = f := by
  have h := wordSel_toNat f
  obtain ⟨g, lat, sd, sa, sb, p, hint⟩ := f
  simp only at h
  simp only [fieldsSel, SelForm.mk.injEq]
  refine ⟨?_, ?_, ?_, ?_, ?_, ?_, ?_⟩ <;>
    (apply BitVec.eq_of_toNat_eq; rw [bits_toNat, h]; omega)

theorem wordSel_op (f : SelForm) : (bits (wordSel f) 58 6).toNat = 14 := by
  have h := wordSel_toNat f
  rw [bits_toNat, h]
  omega

theorem wordSI_toNat (op : BitVec 6) (f : SIForm) : (wordSI op f).toNat =
    (((((((op.toNat) * 2 ^ 4 + f.g.toNat) * 2 ^ 4 + f.lat.toNat) * 2 ^ 6 + f.sd.toNat) * 2 ^ 6 + f.sa.toNat) * 2 ^ 32 + f.imm.toNat) * 2 ^ 2 + f.hint.toNat) * 2 ^ 4 := by
  unfold wordSI
  repeat erw [toNat_app]
  all_goals simp

theorem fieldsSI_wordSI (op : BitVec 6) (f : SIForm) : fieldsSI (wordSI op f) = f := by
  have h := wordSI_toNat op f
  obtain ⟨g, lat, sd, sa, imm, hint⟩ := f
  simp only at h
  simp only [fieldsSI, SIForm.mk.injEq]
  refine ⟨?_, ?_, ?_, ?_, ?_, ?_⟩ <;>
    (apply BitVec.eq_of_toNat_eq; rw [bits_toNat, h]; omega)

theorem wordSI_op (op : BitVec 6) (f : SIForm) : (bits (wordSI op f) 58 6).toNat = op.toNat := by
  have h := wordSI_toNat op f
  rw [bits_toNat, h]
  omega

theorem wordMovi_toNat (f : MoviForm) : (wordMovi f).toNat =
    (((((((9) * 2 ^ 4 + f.g.toNat) * 2 ^ 4 + f.lat.toNat) * 2 ^ 6 + f.sd.toNat) * 2 ^ 6) * 2 ^ 32 + f.imm.toNat) * 2 ^ 2 + f.hint.toNat) * 2 ^ 4 := by
  unfold wordMovi
  repeat erw [toNat_app]
  all_goals simp

theorem fieldsMovi_wordMovi (f : MoviForm) : fieldsMovi (wordMovi f) = f := by
  have h := wordMovi_toNat f
  obtain ⟨g, lat, sd, imm, hint⟩ := f
  simp only at h
  simp only [fieldsMovi, MoviForm.mk.injEq]
  refine ⟨?_, ?_, ?_, ?_, ?_⟩ <;>
    (apply BitVec.eq_of_toNat_eq; rw [bits_toNat, h]; omega)

theorem wordMovi_op (f : MoviForm) : (bits (wordMovi f) 58 6).toNat = 9 := by
  have h := wordMovi_toNat f
  rw [bits_toNat, h]
  omega

theorem wordMovsr_toNat (f : MovsrForm) : (wordMovsr f).toNat =
    (((((((18) * 2 ^ 4 + f.g.toNat) * 2 ^ 4 + f.lat.toNat) * 2 ^ 6 + f.sd.toNat) * 2 ^ 6) * 2 ^ 32 + f.num.toNat) * 2 ^ 2 + f.hint.toNat) * 2 ^ 4 := by
  unfold wordMovsr
  repeat erw [toNat_app]
  all_goals simp

theorem fieldsMovsr_wordMovsr (f : MovsrForm) : fieldsMovsr (wordMovsr f) = f := by
  have h := wordMovsr_toNat f
  obtain ⟨g, lat, sd, num, hint⟩ := f
  simp only at h
  simp only [fieldsMovsr, MovsrForm.mk.injEq]
  refine ⟨?_, ?_, ?_, ?_, ?_⟩ <;>
    (apply BitVec.eq_of_toNat_eq; rw [bits_toNat, h]; omega)

theorem wordMovsr_op (f : MovsrForm) : (bits (wordMovsr f) 58 6).toNat = 18 := by
  have h := wordMovsr_toNat f
  rw [bits_toNat, h]
  omega

theorem wordMovrs_toNat (num : BitVec 32) (f : MovrsForm) : (wordMovrs num f).toNat =
    (((((((19) * 2 ^ 4 + f.g.toNat) * 2 ^ 4 + f.lat.toNat) * 2 ^ 6) * 2 ^ 6 + f.sa.toNat) * 2 ^ 32 + num.toNat) * 2 ^ 2 + f.hint.toNat) * 2 ^ 4 := by
  unfold wordMovrs
  repeat erw [toNat_app]
  all_goals simp

theorem fieldsMovrs_wordMovrs (num : BitVec 32) (f : MovrsForm) : fieldsMovrs (wordMovrs num f) = f := by
  have h := wordMovrs_toNat num f
  obtain ⟨g, lat, sa, hint⟩ := f
  simp only at h
  simp only [fieldsMovrs, MovrsForm.mk.injEq]
  refine ⟨?_, ?_, ?_, ?_⟩ <;>
    (apply BitVec.eq_of_toNat_eq; rw [bits_toNat, h]; omega)

theorem wordMovrs_op (num : BitVec 32) (f : MovrsForm) : (bits (wordMovrs num f) 58 6).toNat = 19 := by
  have h := wordMovrs_toNat num f
  rw [bits_toNat, h]
  omega

theorem wordMovrs_num (num : BitVec 32) (f : MovrsForm) : (bits (wordMovrs num f) 6 32).toNat = num.toNat := by
  have h := wordMovrs_toNat num f
  rw [bits_toNat, h]
  omega

theorem wordCmp_toNat (f : CmpForm) : (wordCmp f).toNat =
    (((((((((15) * 2 ^ 4 + f.g.toNat) * 2 ^ 4 + f.lat.toNat) * 2 ^ 4 + f.pt.toNat) * 2 ^ 4 + f.pf.toNat) * 2 ^ 6 + f.sa.toNat) * 2 ^ 6 + f.sb.toNat) * 2 ^ 4 + f.cond.toNat) * 2 ^ 6 + f.hint.toNat) * 2 ^ 20 := by
  unfold wordCmp
  repeat erw [toNat_app]
  all_goals simp

theorem fieldsCmp_wordCmp (f : CmpForm) : fieldsCmp (wordCmp f) = f := by
  have h := wordCmp_toNat f
  obtain ⟨g, lat, pt, pf, sa, sb, cond, hint⟩ := f
  simp only at h
  simp only [fieldsCmp, CmpForm.mk.injEq]
  refine ⟨?_, ?_, ?_, ?_, ?_, ?_, ?_, ?_⟩ <;>
    (apply BitVec.eq_of_toNat_eq; rw [bits_toNat, h]; omega)

theorem wordCmp_op (f : CmpForm) : (bits (wordCmp f) 58 6).toNat = 15 := by
  have h := wordCmp_toNat f
  rw [bits_toNat, h]
  omega

theorem wordCmpi_toNat (f : CmpiForm) : (wordCmpi f).toNat =
    (((((((16) * 2 ^ 4 + f.g.toNat) * 2 ^ 4 + f.lat.toNat) * 2 ^ 4 + f.pt.toNat) * 2 ^ 4 + f.pf.toNat) * 2 ^ 6 + f.sa.toNat) * 2 ^ 32 + f.imm.toNat) * 2 ^ 4 + f.cond.toNat := by
  unfold wordCmpi
  repeat erw [toNat_app]
  all_goals simp

theorem fieldsCmpi_wordCmpi (f : CmpiForm) : fieldsCmpi (wordCmpi f) = f := by
  have h := wordCmpi_toNat f
  obtain ⟨g, lat, pt, pf, sa, imm, cond⟩ := f
  simp only at h
  simp only [fieldsCmpi, CmpiForm.mk.injEq]
  refine ⟨?_, ?_, ?_, ?_, ?_, ?_, ?_⟩ <;>
    (apply BitVec.eq_of_toNat_eq; rw [bits_toNat, h]; omega)

theorem wordCmpi_op (f : CmpiForm) : (bits (wordCmpi f) 58 6).toNat = 16 := by
  have h := wordCmpi_toNat f
  rw [bits_toNat, h]
  omega

theorem wordPlog_toNat (fn : BitVec 4) (f : PlogForm) : (wordPlog fn f).toNat =
    ((((((((((17) * 2 ^ 4 + f.g.toNat) * 2 ^ 4 + f.lat.toNat) * 2 ^ 4 + f.pt.toNat) * 2 ^ 4 + f.pf.toNat) * 2 ^ 4 + f.pa.toNat) * 2 ^ 4 + f.pb.toNat) * 2 ^ 6) * 2 ^ 4 + fn.toNat) * 2 ^ 4 + f.hint.toNat) * 2 ^ 20 := by
  unfold wordPlog
  repeat erw [toNat_app]
  all_goals simp

theorem fieldsPlog_wordPlog (fn : BitVec 4) (f : PlogForm) : fieldsPlog (wordPlog fn f) = f := by
  have h := wordPlog_toNat fn f
  obtain ⟨g, lat, pt, pf, pa, pb, hint⟩ := f
  simp only at h
  simp only [fieldsPlog, PlogForm.mk.injEq]
  refine ⟨?_, ?_, ?_, ?_, ?_, ?_, ?_⟩ <;>
    (apply BitVec.eq_of_toNat_eq; rw [bits_toNat, h]; omega)

theorem wordPlog_op (fn : BitVec 4) (f : PlogForm) : (bits (wordPlog fn f) 58 6).toNat = 17 := by
  have h := wordPlog_toNat fn f
  rw [bits_toNat, h]
  omega

theorem wordPlog_fn (fn : BitVec 4) (f : PlogForm) : (bits (wordPlog fn f) 24 4).toNat = fn.toNat := by
  have h := wordPlog_toNat fn f
  rw [bits_toNat, h]
  omega

theorem wordMovp_toNat (f : MovpForm) : (wordMovp f).toNat =
    ((((((((((20) * 2 ^ 4 + f.g.toNat) * 2 ^ 4 + f.lat.toNat) * 2 ^ 4) * 2 ^ 4) * 2 ^ 4 + f.pa.toNat) * 2 ^ 4) * 2 ^ 6 + f.sx.toNat) * 2 ^ 4) * 2 ^ 4 + f.hint.toNat) * 2 ^ 20 := by
  unfold wordMovp
  repeat erw [toNat_app]
  all_goals simp

theorem fieldsMovp_wordMovp (f : MovpForm) : fieldsMovp (wordMovp f) = f := by
  have h := wordMovp_toNat f
  obtain ⟨g, lat, sx, pa, hint⟩ := f
  simp only at h
  simp only [fieldsMovp, MovpForm.mk.injEq]
  refine ⟨?_, ?_, ?_, ?_, ?_⟩ <;>
    (apply BitVec.eq_of_toNat_eq; rw [bits_toNat, h]; omega)

theorem wordMovp_op (f : MovpForm) : (bits (wordMovp f) 58 6).toNat = 20 := by
  have h := wordMovp_toNat f
  rw [bits_toNat, h]
  omega

theorem wordMovps_toNat (f : MovpsForm) : (wordMovps f).toNat =
    ((((((((((21) * 2 ^ 4 + f.g.toNat) * 2 ^ 4 + f.lat.toNat) * 2 ^ 4 + f.pt.toNat) * 2 ^ 4 + f.pf.toNat) * 2 ^ 4) * 2 ^ 4) * 2 ^ 6 + f.sx.toNat) * 2 ^ 4) * 2 ^ 4 + f.hint.toNat) * 2 ^ 20 := by
  unfold wordMovps
  repeat erw [toNat_app]
  all_goals simp

theorem fieldsMovps_wordMovps (f : MovpsForm) : fieldsMovps (wordMovps f) = f := by
  have h := wordMovps_toNat f
  obtain ⟨g, lat, pt, pf, sx, hint⟩ := f
  simp only at h
  simp only [fieldsMovps, MovpsForm.mk.injEq]
  refine ⟨?_, ?_, ?_, ?_, ?_, ?_⟩ <;>
    (apply BitVec.eq_of_toNat_eq; rw [bits_toNat, h]; omega)

theorem wordMovps_op (f : MovpsForm) : (bits (wordMovps f) 58 6).toNat = 21 := by
  have h := wordMovps_toNat f
  rw [bits_toNat, h]
  omega

theorem wordV_toNat (op : BitVec 6) (f : VForm) : (wordV op f).toNat =
    (((((((((op.toNat) * 2 ^ 4 + f.g.toNat) * 2 ^ 4 + f.lat.toNat) * 2 ^ 4 + f.k.toNat) * 2 ^ 2 + f.rm.toNat) * 2 ^ 4 + f.sf.toNat) * 2 ^ 10 + f.vd.toNat) * 2 ^ 10 + f.va.toNat) * 2 ^ 10 + f.vb.toNat) * 2 ^ 10 + f.vc.toNat := by
  unfold wordV
  repeat erw [toNat_app]
  all_goals simp

theorem fieldsV_wordV (op : BitVec 6) (f : VForm) : fieldsV (wordV op f) = f := by
  have h := wordV_toNat op f
  obtain ⟨g, lat, k, rm, sf, vd, va, vb, vc⟩ := f
  simp only at h
  simp only [fieldsV, VForm.mk.injEq]
  refine ⟨?_, ?_, ?_, ?_, ?_, ?_, ?_, ?_, ?_⟩ <;>
    (apply BitVec.eq_of_toNat_eq; rw [bits_toNat, h]; omega)

theorem wordV_op (op : BitVec 6) (f : VForm) : (bits (wordV op f) 58 6).toNat = op.toNat := by
  have h := wordV_toNat op f
  rw [bits_toNat, h]
  omega

theorem wordSMem_toNat (op : BitVec 6) (f : SMemForm) : (wordSMem op f).toNat =
    (((((((((op.toNat) * 2 ^ 4 + f.g.toNat) * 2 ^ 4 + f.lat.toNat) * 2 ^ 4 + f.cls.toNat) * 2 ^ 6 + f.sd.toNat) * 2 ^ 4 + f.h.toNat) * 2 ^ 6 + f.so.toNat) * 2 ^ 20 + f.imm.toNat) * 2 ^ 4 + f.hint.toNat) * 2 ^ 6 := by
  unfold wordSMem
  repeat erw [toNat_app]
  all_goals simp

theorem fieldsSMem_wordSMem (op : BitVec 6) (f : SMemForm) : fieldsSMem (wordSMem op f) = f := by
  have h := wordSMem_toNat op f
  obtain ⟨g, lat, cls, sd, h, so, imm, hint⟩ := f
  simp only at h
  simp only [fieldsSMem, SMemForm.mk.injEq]
  refine ⟨?_, ?_, ?_, ?_, ?_, ?_, ?_, ?_⟩ <;>
    (apply BitVec.eq_of_toNat_eq; rw [bits_toNat, h]; omega)

theorem wordSMem_op (op : BitVec 6) (f : SMemForm) : (bits (wordSMem op f) 58 6).toNat = op.toNat := by
  have h := wordSMem_toNat op f
  rw [bits_toNat, h]
  omega

theorem wordVMem_toNat (op : BitVec 6) (f : VMemForm) : (wordVMem op f).toNat =
    (((((((((((op.toNat) * 2 ^ 4 + f.g.toNat) * 2 ^ 4 + f.lat.toNat) * 2 ^ 4 + f.cls.toNat) * 2 ^ 10 + f.vd.toNat) * 2 ^ 4 + f.h.toNat) * 2 ^ 6 + f.so.toNat) * 2 ^ 6 + f.ss.toNat) * 2 ^ 12 + f.imm.toNat) * 2 ^ 4 + f.k.toNat) * 2 ^ 2 + f.hint.toNat) * 2 ^ 2 := by
  unfold wordVMem
  repeat erw [toNat_app]
  all_goals simp

theorem fieldsVMem_wordVMem (op : BitVec 6) (f : VMemForm) : fieldsVMem (wordVMem op f) = f := by
  have h := wordVMem_toNat op f
  obtain ⟨g, lat, cls, vd, h, so, ss, imm, k, hint⟩ := f
  simp only at h
  simp only [fieldsVMem, VMemForm.mk.injEq]
  refine ⟨?_, ?_, ?_, ?_, ?_, ?_, ?_, ?_, ?_, ?_⟩ <;>
    (apply BitVec.eq_of_toNat_eq; rw [bits_toNat, h]; omega)

theorem wordVMem_op (op : BitVec 6) (f : VMemForm) : (bits (wordVMem op f) 58 6).toNat = op.toNat := by
  have h := wordVMem_toNat op f
  rw [bits_toNat, h]
  omega

theorem wordSps_toNat (op : BitVec 6) (f : SpsForm) : (wordSps op f).toNat =
    ((((((((op.toNat) * 2 ^ 4 + f.g.toNat) * 2 ^ 4 + f.lat.toNat) * 2 ^ 4 + f.cls.toNat) * 2 ^ 6 + f.sd.toNat) * 2 ^ 6 + f.sa.toNat) * 2 ^ 24 + f.imm.toNat) * 2 ^ 4 + f.hint.toNat) * 2 ^ 6 := by
  unfold wordSps
  repeat erw [toNat_app]
  all_goals simp

theorem fieldsSps_wordSps (op : BitVec 6) (f : SpsForm) : fieldsSps (wordSps op f) = f := by
  have h := wordSps_toNat op f
  obtain ⟨g, lat, cls, sd, sa, imm, hint⟩ := f
  simp only at h
  simp only [fieldsSps, SpsForm.mk.injEq]
  refine ⟨?_, ?_, ?_, ?_, ?_, ?_, ?_⟩ <;>
    (apply BitVec.eq_of_toNat_eq; rw [bits_toNat, h]; omega)

theorem wordSps_op (op : BitVec 6) (f : SpsForm) : (bits (wordSps op f) 58 6).toNat = op.toNat := by
  have h := wordSps_toNat op f
  rw [bits_toNat, h]
  omega

theorem wordSpv_toNat (op : BitVec 6) (f : SpvForm) : (wordSpv op f).toNat =
    ((((((((((op.toNat) * 2 ^ 4 + f.g.toNat) * 2 ^ 4 + f.lat.toNat) * 2 ^ 4 + f.cls.toNat) * 2 ^ 10 + f.vd.toNat) * 2 ^ 6 + f.sa.toNat) * 2 ^ 6 + f.ss.toNat) * 2 ^ 16 + f.imm.toNat) * 2 ^ 4 + f.k.toNat) * 2 ^ 2 + f.hint.toNat) * 2 ^ 2 := by
  unfold wordSpv
  repeat erw [toNat_app]
  all_goals simp

theorem fieldsSpv_wordSpv (op : BitVec 6) (f : SpvForm) : fieldsSpv (wordSpv op f) = f := by
  have h := wordSpv_toNat op f
  obtain ⟨g, lat, cls, vd, sa, ss, imm, k, hint⟩ := f
  simp only at h
  simp only [fieldsSpv, SpvForm.mk.injEq]
  refine ⟨?_, ?_, ?_, ?_, ?_, ?_, ?_, ?_, ?_⟩ <;>
    (apply BitVec.eq_of_toNat_eq; rw [bits_toNat, h]; omega)

theorem wordSpv_op (op : BitVec 6) (f : SpvForm) : (bits (wordSpv op f) 58 6).toNat = op.toNat := by
  have h := wordSpv_toNat op f
  rw [bits_toNat, h]
  omega

theorem wordGather_toNat (op : BitVec 6) (f : GatherForm) : (wordGather op f).toNat =
    (((((((((op.toNat) * 2 ^ 4 + f.g.toNat) * 2 ^ 4 + f.lat.toNat) * 2 ^ 4 + f.cls.toNat) * 2 ^ 10 + f.vd.toNat) * 2 ^ 6 + f.sa.toNat) * 2 ^ 10 + f.vb.toNat) * 2 ^ 12) * 2 ^ 4 + f.k.toNat) * 2 ^ 4 := by
  unfold wordGather
  repeat erw [toNat_app]
  all_goals simp

theorem fieldsGather_wordGather (op : BitVec 6) (f : GatherForm) : fieldsGather (wordGather op f) = f := by
  have h := wordGather_toNat op f
  obtain ⟨g, lat, cls, vd, sa, vb, k⟩ := f
  simp only at h
  simp only [fieldsGather, GatherForm.mk.injEq]
  refine ⟨?_, ?_, ?_, ?_, ?_, ?_, ?_⟩ <;>
    (apply BitVec.eq_of_toNat_eq; rw [bits_toNat, h]; omega)

theorem wordGather_op (op : BitVec 6) (f : GatherForm) : (bits (wordGather op f) 58 6).toNat = op.toNat := by
  have h := wordGather_toNat op f
  rw [bits_toNat, h]
  omega

theorem wordAtom_toNat (op : BitVec 6) (f : AtomForm) : (wordAtom op f).toNat =
    ((((((((((op.toNat) * 2 ^ 4 + f.g.toNat) * 2 ^ 4 + f.lat.toNat) * 2 ^ 4 + f.cls.toNat) * 2 ^ 6 + f.sd.toNat) * 2 ^ 4 + f.h.toNat) * 2 ^ 6 + f.so.toNat) * 2 ^ 6 + f.sv.toNat) * 2 ^ 6 + f.sc.toNat) * 2 ^ 12 + f.imm.toNat) * 2 ^ 6 := by
  unfold wordAtom
  repeat erw [toNat_app]
  all_goals simp

theorem fieldsAtom_wordAtom (op : BitVec 6) (f : AtomForm) : fieldsAtom (wordAtom op f) = f := by
  have h := wordAtom_toNat op f
  obtain ⟨g, lat, cls, sd, h, so, sv, sc, imm⟩ := f
  simp only at h
  simp only [fieldsAtom, AtomForm.mk.injEq]
  refine ⟨?_, ?_, ?_, ?_, ?_, ?_, ?_, ?_, ?_⟩ <;>
    (apply BitVec.eq_of_toNat_eq; rw [bits_toNat, h]; omega)

theorem wordAtom_op (op : BitVec 6) (f : AtomForm) : (bits (wordAtom op f) 58 6).toNat = op.toNat := by
  have h := wordAtom_toNat op f
  rw [bits_toNat, h]
  omega

theorem wordCadd_toNat (f : CaddForm) : (wordCadd f).toNat =
    ((((((((((58) * 2 ^ 4 + f.g.toNat) * 2 ^ 4 + f.lat.toNat) * 2 ^ 4 + f.cls.toNat) * 2 ^ 6) * 2 ^ 4 + f.h.toNat) * 2 ^ 6 + f.so.toNat) * 2 ^ 6 + f.sv.toNat) * 2 ^ 6) * 2 ^ 16 + f.rmask.toNat) * 2 ^ 2 := by
  unfold wordCadd
  repeat erw [toNat_app]
  all_goals simp

theorem fieldsCadd_wordCadd (f : CaddForm) : fieldsCadd (wordCadd f) = f := by
  have h := wordCadd_toNat f
  obtain ⟨g, lat, cls, h, so, sv, rmask⟩ := f
  simp only at h
  simp only [fieldsCadd, CaddForm.mk.injEq]
  refine ⟨?_, ?_, ?_, ?_, ?_, ?_, ?_⟩ <;>
    (apply BitVec.eq_of_toNat_eq; rw [bits_toNat, h]; omega)

theorem wordCadd_op (f : CaddForm) : (bits (wordCadd f) 58 6).toNat = 58 := by
  have h := wordCadd_toNat f
  rw [bits_toNat, h]
  omega

theorem wordTrans_toNat (f : TransForm) : (wordTrans f).toNat =
    (((((((((1) * 2 ^ 4 + f.g.toNat) * 2 ^ 4 + f.lat.toNat) * 2 ^ 4 + f.cls.toNat) * 2 ^ 4 + f.hd.toNat) * 2 ^ 6 + f.sa.toNat) * 2 ^ 24 + f.imm.toNat) * 2 ^ 2 + f.intent.toNat) * 2 ^ 4 + f.hint.toNat) * 2 ^ 6 := by
  unfold wordTrans
  repeat erw [toNat_app]
  all_goals simp

theorem fieldsTrans_wordTrans (f : TransForm) : fieldsTrans (wordTrans f) = f := by
  have h := wordTrans_toNat f
  obtain ⟨g, lat, cls, hd, sa, imm, intent, hint⟩ := f
  simp only at h
  simp only [fieldsTrans, TransForm.mk.injEq]
  refine ⟨?_, ?_, ?_, ?_, ?_, ?_, ?_, ?_⟩ <;>
    (apply BitVec.eq_of_toNat_eq; rw [bits_toNat, h]; omega)

theorem wordTrans_op (f : TransForm) : (bits (wordTrans f) 58 6).toNat = 1 := by
  have h := wordTrans_toNat f
  rw [bits_toNat, h]
  omega

theorem wordHinv_toNat (f : HinvForm) : (wordHinv f).toNat =
    (((((((((2) * 2 ^ 4 + f.g.toNat) * 2 ^ 4 + f.lat.toNat) * 2 ^ 4 + f.cls.toNat) * 2 ^ 4 + f.hd.toNat) * 2 ^ 6) * 2 ^ 24) * 2 ^ 2) * 2 ^ 4 + f.hint.toNat) * 2 ^ 6 := by
  unfold wordHinv
  repeat erw [toNat_app]
  all_goals simp

theorem fieldsHinv_wordHinv (f : HinvForm) : fieldsHinv (wordHinv f) = f := by
  have h := wordHinv_toNat f
  obtain ⟨g, lat, cls, hd, hint⟩ := f
  simp only at h
  simp only [fieldsHinv, HinvForm.mk.injEq]
  refine ⟨?_, ?_, ?_, ?_, ?_⟩ <;>
    (apply BitVec.eq_of_toNat_eq; rw [bits_toNat, h]; omega)

theorem wordHinv_op (f : HinvForm) : (bits (wordHinv f) 58 6).toNat = 2 := by
  have h := wordHinv_toNat f
  rw [bits_toNat, h]
  omega

theorem wordFence_toNat (kind : BitVec 2) (f : FenceForm) : (wordFence kind f).toNat =
    ((((((61) * 2 ^ 4 + f.g.toNat) * 2 ^ 4 + f.lat.toNat) * 2 ^ 4) * 2 ^ 16 + f.mask.toNat) * 2 ^ 2 + kind.toNat) * 2 ^ 28 := by
  unfold wordFence
  repeat erw [toNat_app]
  all_goals simp

theorem fieldsFence_wordFence (kind : BitVec 2) (f : FenceForm) : fieldsFence (wordFence kind f) = f := by
  have h := wordFence_toNat kind f
  obtain ⟨g, lat, mask⟩ := f
  simp only at h
  simp only [fieldsFence, FenceForm.mk.injEq]
  refine ⟨?_, ?_, ?_⟩ <;>
    (apply BitVec.eq_of_toNat_eq; rw [bits_toNat, h]; omega)

theorem wordFence_op (kind : BitVec 2) (f : FenceForm) : (bits (wordFence kind f) 58 6).toNat = 61 := by
  have h := wordFence_toNat kind f
  rw [bits_toNat, h]
  omega

theorem wordFence_kind (kind : BitVec 2) (f : FenceForm) : (bits (wordFence kind f) 28 2).toNat = kind.toNat := by
  have h := wordFence_toNat kind f
  rw [bits_toNat, h]
  omega

theorem wordSetq_toNat (f : SetqForm) : (wordSetq f).toNat =
    (((((((((62) * 2 ^ 4 + f.g.toNat) * 2 ^ 4 + f.lat.toNat) * 2 ^ 4 + f.cls.toNat) * 2 ^ 4 + f.q.toNat) * 2 ^ 6 + f.sa.toNat) * 2 ^ 24 + f.imm.toNat) * 2 ^ 2) * 2 ^ 4 + f.hint.toNat) * 2 ^ 6 := by
  unfold wordSetq
  repeat erw [toNat_app]
  all_goals simp

theorem fieldsSetq_wordSetq (f : SetqForm) : fieldsSetq (wordSetq f) = f := by
  have h := wordSetq_toNat f
  obtain ⟨g, lat, cls, q, sa, imm, hint⟩ := f
  simp only at h
  simp only [fieldsSetq, SetqForm.mk.injEq]
  refine ⟨?_, ?_, ?_, ?_, ?_, ?_, ?_⟩ <;>
    (apply BitVec.eq_of_toNat_eq; rw [bits_toNat, h]; omega)

theorem wordSetq_op (f : SetqForm) : (bits (wordSetq f) 58 6).toNat = 62 := by
  have h := wordSetq_toNat f
  rw [bits_toNat, h]
  omega

theorem wordR_toNat (rn : BitVec 12) (f : RForm) : (wordR rn f).toNat =
    (((((((rn.toNat) * 2 ^ 4 + f.g.toNat) * 2 ^ 10 + f.x.toNat) * 2 ^ 10 + f.y.toNat) * 2 ^ 10 + f.z.toNat) * 2 ^ 10 + f.w.toNat) * 2 ^ 4 + f.k.toNat) * 2 ^ 4 + f.f.toNat := by
  unfold wordR
  repeat erw [toNat_app]
  all_goals simp

theorem fieldsR_wordR (rn : BitVec 12) (f : RForm) : fieldsR (wordR rn f) = f := by
  have h := wordR_toNat rn f
  obtain ⟨g, x, y, z, w, k, f⟩ := f
  simp only at h
  simp only [fieldsR, RForm.mk.injEq]
  refine ⟨?_, ?_, ?_, ?_, ?_, ?_, ?_⟩ <;>
    (apply BitVec.eq_of_toNat_eq; rw [bits_toNat, h]; omega)

theorem wordR_rn (rn : BitVec 12) (f : RForm) : (bits (wordR rn f) 52 12).toNat = rn.toNat := by
  have h := wordR_toNat rn f
  rw [bits_toNat, h]
  omega

end Sys2Proof
end

