-- ==== Sys2Proof/Laws/Slots.lean ====
section
/-! SUPPORT. The decoder of each slot reads from an operation's own word that operation. -/

namespace Sys2Proof

theorem decodeScalar_of (w : BitVec 64) (i : Instr) (h : readScalar w = some i) (hw : slotWord i = some w)
    (hf : i.fieldsOk = true) : decodeScalar w = .ok i := by
  simp [decodeScalar, h, checkSlot, hw, hf]

theorem decodeVector_of (w : BitVec 64) (i : Instr) (h : readVector w = some i) (hw : slotWord i = some w)
    (hf : i.fieldsOk = true) : decodeVector w = .ok i := by
  simp [decodeVector, h, checkSlot, hw, hf]

theorem decodeMemory_of (w : BitVec 64) (i : Instr) (h : readMemory w = .ok i) (hw : slotWord i = some w)
    (hf : i.fieldsOk = true) : decodeMemory w = .ok i := by
  simp [decodeMemory, h, checkSlot, hw, hf]

theorem wordMovrs_numBits (num : BitVec 32) (f : MovrsForm) : bits (wordMovrs num f) 6 32 = num :=
  BitVec.eq_of_toNat_eq (wordMovrs_num num f)

theorem wordR_rnBits (rn : BitVec 12) (f : RForm) : bits (wordR rn f) 52 12 = rn :=
  BitVec.eq_of_toNat_eq (wordR_rn rn f)

theorem wordV_low (op : BitVec 6) (f : VForm) : (bits (wordV op f) 0 2).toNat = f.vc.toNat % 4 := by
  have h := wordV_toNat op f
  rw [bits_toNat, h]
  omega

theorem readMovrs_arg (f : MovrsForm) (n : BitVec 2) : readMovrs (0x14#32 + n.setWidth 32) f = .argWrite f n := by
  have h : n = 0 ∨ n = 1 ∨ n = 2 ∨ n = 3 := by revert n; decide
  rcases h with h | h | h | h <;> subst h <;> rfl

theorem readMovrs_qpos (f : MovrsForm) (n : BitVec 4) : readMovrs (0x20#32 + n.setWidth 32) f = .qposWrite f n := by
  have h : n = 0 ∨ n = 1 ∨ n = 2 ∨ n = 3 ∨ n = 4 ∨ n = 5 ∨ n = 6 ∨ n = 7 ∨ n = 8 ∨ n = 9 ∨ n = 10 ∨ n = 11 ∨ n = 12 ∨
      n = 13 ∨ n = 14 ∨ n = 15 := by revert n; decide
  rcases h with h | h | h | h | h | h | h | h | h | h | h | h | h | h | h | h <;> subst h <;> rfl

theorem readMovrs_readOnly (f : MovrsForm) (n : BitVec 32) (h : readOnlySpecial n.toNat = true) :
    readMovrs n f = .movrs f n := by
  simp only [readOnlySpecial, Bool.or_eq_true, Bool.and_eq_true, decide_eq_true_eq, beq_iff_eq] at h
  unfold readMovrs
  split
  · omega
  · omega
  · omega
  · omega
  · rw [if_neg (by omega), if_neg (by omega)]

theorem read_snop : readScalar 0 = some .snop := rfl

theorem read_add (f : SRForm) : readScalar ((wordSR 1#6 0#6 f)) = some (.add f) := by
  unfold readScalar
  rw [wordSR_op, fieldsSR_wordSR, wordSR_fn]
  rfl

theorem read_sub (f : SRForm) : readScalar ((wordSR 1#6 1#6 f)) = some (.sub f) := by
  unfold readScalar
  rw [wordSR_op, fieldsSR_wordSR, wordSR_fn]
  rfl

theorem read_and (f : SRForm) : readScalar ((wordSR 1#6 2#6 f)) = some (.and f) := by
  unfold readScalar
  rw [wordSR_op, fieldsSR_wordSR, wordSR_fn]
  rfl

theorem read_or (f : SRForm) : readScalar ((wordSR 1#6 3#6 f)) = some (.or f) := by
  unfold readScalar
  rw [wordSR_op, fieldsSR_wordSR, wordSR_fn]
  rfl

theorem read_xor (f : SRForm) : readScalar ((wordSR 1#6 4#6 f)) = some (.xor f) := by
  unfold readScalar
  rw [wordSR_op, fieldsSR_wordSR, wordSR_fn]
  rfl

theorem read_shl (f : SRForm) : readScalar ((wordSR 1#6 5#6 f)) = some (.shl f) := by
  unfold readScalar
  rw [wordSR_op, fieldsSR_wordSR, wordSR_fn]
  rfl

theorem read_shr (f : SRForm) : readScalar ((wordSR 1#6 6#6 f)) = some (.shr f) := by
  unfold readScalar
  rw [wordSR_op, fieldsSR_wordSR, wordSR_fn]
  rfl

theorem read_sra (f : SRForm) : readScalar ((wordSR 1#6 7#6 f)) = some (.sra f) := by
  unfold readScalar
  rw [wordSR_op, fieldsSR_wordSR, wordSR_fn]
  rfl

theorem read_min (f : SRForm) : readScalar ((wordSR 1#6 8#6 f)) = some (.min f) := by
  unfold readScalar
  rw [wordSR_op, fieldsSR_wordSR, wordSR_fn]
  rfl

theorem read_max (f : SRForm) : readScalar ((wordSR 1#6 9#6 f)) = some (.max f) := by
  unfold readScalar
  rw [wordSR_op, fieldsSR_wordSR, wordSR_fn]
  rfl

theorem read_minu (f : SRForm) : readScalar ((wordSR 1#6 10#6 f)) = some (.minu f) := by
  unfold readScalar
  rw [wordSR_op, fieldsSR_wordSR, wordSR_fn]
  rfl

theorem read_maxu (f : SRForm) : readScalar ((wordSR 1#6 11#6 f)) = some (.maxu f) := by
  unfold readScalar
  rw [wordSR_op, fieldsSR_wordSR, wordSR_fn]
  rfl

theorem read_rotl (f : SRForm) : readScalar ((wordSR 1#6 12#6 f)) = some (.rotl f) := by
  unfold readScalar
  rw [wordSR_op, fieldsSR_wordSR, wordSR_fn]
  rfl

theorem read_addi (f : SIForm) : readScalar ((wordSI 2#6 f)) = some (.addi f) := by
  unfold readScalar
  rw [wordSI_op, fieldsSI_wordSI]
  rfl

theorem read_andi (f : SIForm) : readScalar ((wordSI 3#6 f)) = some (.andi f) := by
  unfold readScalar
  rw [wordSI_op, fieldsSI_wordSI]
  rfl

theorem read_ori (f : SIForm) : readScalar ((wordSI 4#6 f)) = some (.ori f) := by
  unfold readScalar
  rw [wordSI_op, fieldsSI_wordSI]
  rfl

theorem read_xori (f : SIForm) : readScalar ((wordSI 5#6 f)) = some (.xori f) := by
  unfold readScalar
  rw [wordSI_op, fieldsSI_wordSI]
  rfl

theorem read_shli (f : SIForm) : readScalar ((wordSI 6#6 f)) = some (.shli f) := by
  unfold readScalar
  rw [wordSI_op, fieldsSI_wordSI]
  rfl

theorem read_shri (f : SIForm) : readScalar ((wordSI 7#6 f)) = some (.shri f) := by
  unfold readScalar
  rw [wordSI_op, fieldsSI_wordSI]
  rfl

theorem read_srai (f : SIForm) : readScalar ((wordSI 8#6 f)) = some (.srai f) := by
  unfold readScalar
  rw [wordSI_op, fieldsSI_wordSI]
  rfl

theorem read_movi (f : MoviForm) : readScalar ((wordMovi f)) = some (.movi f) := by
  unfold readScalar
  rw [wordMovi_op, fieldsMovi_wordMovi]
  rfl

theorem read_movhi (f : SIForm) : readScalar ((wordSI 10#6 f)) = some (.movhi f) := by
  unfold readScalar
  rw [wordSI_op, fieldsSI_wordSI]
  rfl

theorem read_mul (f : SRForm) : readScalar ((wordSR 11#6 0#6 f)) = some (.mul f) := by
  unfold readScalar
  rw [wordSR_op, fieldsSR_wordSR, wordSR_fn]
  rfl

theorem read_mulhs (f : SRForm) : readScalar ((wordSR 11#6 1#6 f)) = some (.mulhs f) := by
  unfold readScalar
  rw [wordSR_op, fieldsSR_wordSR, wordSR_fn]
  rfl

theorem read_mulhu (f : SRForm) : readScalar ((wordSR 11#6 2#6 f)) = some (.mulhu f) := by
  unfold readScalar
  rw [wordSR_op, fieldsSR_wordSR, wordSR_fn]
  rfl

theorem read_divs (f : SRForm) : readScalar ((wordSR 12#6 0#6 f)) = some (.divs f) := by
  unfold readScalar
  rw [wordSR_op, fieldsSR_wordSR, wordSR_fn]
  rfl

theorem read_divu (f : SRForm) : readScalar ((wordSR 12#6 1#6 f)) = some (.divu f) := by
  unfold readScalar
  rw [wordSR_op, fieldsSR_wordSR, wordSR_fn]
  rfl

theorem read_rems (f : SRForm) : readScalar ((wordSR 12#6 2#6 f)) = some (.rems f) := by
  unfold readScalar
  rw [wordSR_op, fieldsSR_wordSR, wordSR_fn]
  rfl

theorem read_remu (f : SRForm) : readScalar ((wordSR 12#6 3#6 f)) = some (.remu f) := by
  unfold readScalar
  rw [wordSR_op, fieldsSR_wordSR, wordSR_fn]
  rfl

theorem read_clz (f : S1Form) : readScalar ((wordS1 13#6 0#6 f)) = some (.clz f) := by
  unfold readScalar
  rw [wordS1_op, fieldsS1_wordS1, wordS1_fn]
  rfl

theorem read_ctz (f : S1Form) : readScalar ((wordS1 13#6 1#6 f)) = some (.ctz f) := by
  unfold readScalar
  rw [wordS1_op, fieldsS1_wordS1, wordS1_fn]
  rfl

theorem read_popc (f : S1Form) : readScalar ((wordS1 13#6 2#6 f)) = some (.popc f) := by
  unfold readScalar
  rw [wordS1_op, fieldsS1_wordS1, wordS1_fn]
  rfl

theorem read_sextb (f : S1Form) : readScalar ((wordS1 13#6 3#6 f)) = some (.sextb f) := by
  unfold readScalar
  rw [wordS1_op, fieldsS1_wordS1, wordS1_fn]
  rfl

theorem read_sexth (f : S1Form) : readScalar ((wordS1 13#6 4#6 f)) = some (.sexth f) := by
  unfold readScalar
  rw [wordS1_op, fieldsS1_wordS1, wordS1_fn]
  rfl

theorem read_sextw (f : S1Form) : readScalar ((wordS1 13#6 5#6 f)) = some (.sextw f) := by
  unfold readScalar
  rw [wordS1_op, fieldsS1_wordS1, wordS1_fn]
  rfl

theorem read_zextb (f : S1Form) : readScalar ((wordS1 13#6 6#6 f)) = some (.zextb f) := by
  unfold readScalar
  rw [wordS1_op, fieldsS1_wordS1, wordS1_fn]
  rfl

theorem read_zexth (f : S1Form) : readScalar ((wordS1 13#6 7#6 f)) = some (.zexth f) := by
  unfold readScalar
  rw [wordS1_op, fieldsS1_wordS1, wordS1_fn]
  rfl

theorem read_zextw (f : S1Form) : readScalar ((wordS1 13#6 8#6 f)) = some (.zextw f) := by
  unfold readScalar
  rw [wordS1_op, fieldsS1_wordS1, wordS1_fn]
  rfl

theorem read_sel (f : SelForm) : readScalar ((wordSel f)) = some (.sel f) := by
  unfold readScalar
  rw [wordSel_op, fieldsSel_wordSel]
  rfl

theorem read_cmp (f : CmpForm) : readScalar ((wordCmp f)) = some (.cmp f) := by
  unfold readScalar
  rw [wordCmp_op, fieldsCmp_wordCmp]
  rfl

theorem read_cmpi (f : CmpiForm) : readScalar ((wordCmpi f)) = some (.cmpi f) := by
  unfold readScalar
  rw [wordCmpi_op, fieldsCmpi_wordCmpi]
  rfl

theorem read_pand (f : PlogForm) : readScalar ((wordPlog 0#4 f)) = some (.pand f) := by
  unfold readScalar
  rw [wordPlog_op, fieldsPlog_wordPlog, wordPlog_fn]
  rfl

theorem read_por (f : PlogForm) : readScalar ((wordPlog 1#4 f)) = some (.por f) := by
  unfold readScalar
  rw [wordPlog_op, fieldsPlog_wordPlog, wordPlog_fn]
  rfl

theorem read_pxor (f : PlogForm) : readScalar ((wordPlog 2#4 f)) = some (.pxor f) := by
  unfold readScalar
  rw [wordPlog_op, fieldsPlog_wordPlog, wordPlog_fn]
  rfl

theorem read_pandn (f : PlogForm) : readScalar ((wordPlog 3#4 f)) = some (.pandn f) := by
  unfold readScalar
  rw [wordPlog_op, fieldsPlog_wordPlog, wordPlog_fn]
  rfl

theorem read_movp (f : MovpForm) : readScalar ((wordMovp f)) = some (.movp f) := by
  unfold readScalar
  rw [wordMovp_op, fieldsMovp_wordMovp]
  rfl

theorem read_movps (f : MovpsForm) : readScalar ((wordMovps f)) = some (.movps f) := by
  unfold readScalar
  rw [wordMovps_op, fieldsMovps_wordMovps]
  rfl

theorem read_movsr (f : MovsrForm) : readScalar ((wordMovsr f)) = some (.movsr f) := by
  unfold readScalar
  rw [wordMovsr_op, fieldsMovsr_wordMovsr]
  rfl

theorem read_movrs (f : MovrsForm) (num : BitVec 32) (h : readOnlySpecial num.toNat = true) : readScalar ((wordMovrs num f)) = some (.movrs f num) := by
  unfold readScalar
  rw [wordMovrs_op, wordMovrs_numBits, fieldsMovrs_wordMovrs, readMovrs_readOnly f num h]
  rfl

theorem read_fpstatWrite (f : MovrsForm) : readScalar ((wordMovrs 16#32 f)) = some (.fpstatWrite f) := by
  unfold readScalar
  rw [wordMovrs_op, wordMovrs_numBits, fieldsMovrs_wordMovrs]
  rfl

theorem read_cirWrite (f : MovrsForm) : readScalar ((wordMovrs 17#32 f)) = some (.cirWrite f) := by
  unfold readScalar
  rw [wordMovrs_op, wordMovrs_numBits, fieldsMovrs_wordMovrs]
  rfl

theorem read_febudgetWrite (f : MovrsForm) : readScalar ((wordMovrs 18#32 f)) = some (.febudgetWrite f) := by
  unfold readScalar
  rw [wordMovrs_op, wordMovrs_numBits, fieldsMovrs_wordMovrs]
  rfl

theorem read_defprofileWrite (f : MovrsForm) : readScalar ((wordMovrs 26#32 f)) = some (.defprofileWrite f) := by
  unfold readScalar
  rw [wordMovrs_op, wordMovrs_numBits, fieldsMovrs_wordMovrs]
  rfl

theorem read_argWrite (f : MovrsForm) (n : BitVec 2) : readScalar ((wordMovrs (0x14#32 + n.setWidth 32) f)) = some (.argWrite f n) := by
  unfold readScalar
  rw [wordMovrs_op, wordMovrs_numBits, fieldsMovrs_wordMovrs, readMovrs_arg]
  rfl

theorem read_qposWrite (f : MovrsForm) (n : BitVec 4) : readScalar ((wordMovrs (0x20#32 + n.setWidth 32) f)) = some (.qposWrite f n) := by
  unfold readScalar
  rw [wordMovrs_op, wordMovrs_numBits, fieldsMovrs_wordMovrs, readMovrs_qpos]
  rfl

theorem read_chke (f : ChkeForm) : readScalar ((wordChke f)) = some (.chke f) := by
  unfold readScalar
  rw [wordChke_op, fieldsChke_wordChke]
  rfl

theorem read_sfadd (f : SRForm) : readScalar ((wordSR 24#6 0#6 f)) = some (.sfadd f) := by
  unfold readScalar
  rw [wordSR_op, fieldsSR_wordSR, wordSR_fn]
  rfl

theorem read_sfsub (f : SRForm) : readScalar ((wordSR 24#6 1#6 f)) = some (.sfsub f) := by
  unfold readScalar
  rw [wordSR_op, fieldsSR_wordSR, wordSR_fn]
  rfl

theorem read_sfmul (f : SRForm) : readScalar ((wordSR 24#6 2#6 f)) = some (.sfmul f) := by
  unfold readScalar
  rw [wordSR_op, fieldsSR_wordSR, wordSR_fn]
  rfl

theorem read_sfmin (f : SRForm) : readScalar ((wordSR 24#6 3#6 f)) = some (.sfmin f) := by
  unfold readScalar
  rw [wordSR_op, fieldsSR_wordSR, wordSR_fn]
  rfl

theorem read_sfmax (f : SRForm) : readScalar ((wordSR 24#6 4#6 f)) = some (.sfmax f) := by
  unfold readScalar
  rw [wordSR_op, fieldsSR_wordSR, wordSR_fn]
  rfl

theorem read_sfcvtif (f : S1Form) : readScalar ((wordS1 24#6 5#6 f)) = some (.sfcvtif f) := by
  unfold readScalar
  rw [wordS1_op, fieldsS1_wordS1, wordS1_fn]
  rfl

theorem read_sfcvtfi (f : S1Form) : readScalar ((wordS1 24#6 6#6 f)) = some (.sfcvtfi f) := by
  unfold readScalar
  rw [wordS1_op, fieldsS1_wordS1, wordS1_fn]
  rfl

theorem read_vnop : readVector 0 = some .vnop := rfl

theorem read_fadd (f : VForm) : readVector ((wordV 1#6 f)) = some (.fadd f) := by
  unfold readVector
  rw [wordV_op, fieldsV_wordV]
  rfl

theorem read_fsub (f : VForm) : readVector ((wordV 2#6 f)) = some (.fsub f) := by
  unfold readVector
  rw [wordV_op, fieldsV_wordV]
  rfl

theorem read_fmul (f : VForm) : readVector ((wordV 3#6 f)) = some (.fmul f) := by
  unfold readVector
  rw [wordV_op, fieldsV_wordV]
  rfl

theorem read_ffma (f : VForm) : readVector ((wordV 4#6 f)) = some (.ffma f) := by
  unfold readVector
  rw [wordV_op, fieldsV_wordV]
  rfl

theorem read_ffms (f : VForm) : readVector ((wordV 5#6 f)) = some (.ffms f) := by
  unfold readVector
  rw [wordV_op, fieldsV_wordV]
  rfl

theorem read_fnma (f : VForm) : readVector ((wordV 6#6 f)) = some (.fnma f) := by
  unfold readVector
  rw [wordV_op, fieldsV_wordV]
  rfl

theorem read_fmin (f : VForm) : readVector ((wordV 7#6 f)) = some (.fmin f) := by
  unfold readVector
  rw [wordV_op, fieldsV_wordV]
  rfl

theorem read_fmax (f : VForm) : readVector ((wordV 8#6 f)) = some (.fmax f) := by
  unfold readVector
  rw [wordV_op, fieldsV_wordV]
  rfl

theorem read_fabs (f : VForm) : readVector ((wordV 9#6 f)) = some (.fabs f) := by
  unfold readVector
  rw [wordV_op, fieldsV_wordV]
  rfl

theorem read_fneg (f : VForm) : readVector ((wordV 10#6 f)) = some (.fneg f) := by
  unfold readVector
  rw [wordV_op, fieldsV_wordV]
  rfl

theorem read_fcmp (f : VForm) : readVector ((wordV 11#6 f)) = some (.fcmp f) := by
  unfold readVector
  rw [wordV_op, fieldsV_wordV]
  rfl

theorem read_fcvti (f : VForm) : readVector ((wordV 12#6 f)) = some (.fcvti f) := by
  unfold readVector
  rw [wordV_op, fieldsV_wordV]
  rfl

theorem read_icvtf (f : VForm) : readVector ((wordV 13#6 f)) = some (.icvtf f) := by
  unfold readVector
  rw [wordV_op, fieldsV_wordV]
  rfl

theorem read_bfpk (f : VForm) : readVector ((wordV 14#6 f)) = some (.bfpk f) := by
  unfold readVector
  rw [wordV_op, fieldsV_wordV]
  rfl

theorem read_bfup (f : VForm) : readVector ((wordV 15#6 f)) = some (.bfup f) := by
  unfold readVector
  rw [wordV_op, fieldsV_wordV]
  rfl

theorem read_iadd (f : VForm) : readVector ((wordV 16#6 f)) = some (.iadd f) := by
  unfold readVector
  rw [wordV_op, fieldsV_wordV]
  rfl

theorem read_isub (f : VForm) : readVector ((wordV 17#6 f)) = some (.isub f) := by
  unfold readVector
  rw [wordV_op, fieldsV_wordV]
  rfl

theorem read_imul (f : VForm) : readVector ((wordV 18#6 f)) = some (.imul f) := by
  unfold readVector
  rw [wordV_op, fieldsV_wordV]
  rfl

theorem read_imulh (f : VForm) : readVector ((wordV 19#6 f)) = some (.imulh f) := by
  unfold readVector
  rw [wordV_op, fieldsV_wordV]
  rfl

theorem read_iand (f : VForm) : readVector ((wordV 20#6 f)) = some (.iand f) := by
  unfold readVector
  rw [wordV_op, fieldsV_wordV]
  rfl

theorem read_ior (f : VForm) : readVector ((wordV 21#6 f)) = some (.ior f) := by
  unfold readVector
  rw [wordV_op, fieldsV_wordV]
  rfl

theorem read_ixor (f : VForm) : readVector ((wordV 22#6 f)) = some (.ixor f) := by
  unfold readVector
  rw [wordV_op, fieldsV_wordV]
  rfl

theorem read_ishl (f : VForm) : readVector ((wordV 23#6 f)) = some (.ishl f) := by
  unfold readVector
  rw [wordV_op, fieldsV_wordV]
  rfl

theorem read_ishr (f : VForm) : readVector ((wordV 24#6 f)) = some (.ishr f) := by
  unfold readVector
  rw [wordV_op, fieldsV_wordV]
  rfl

theorem read_isra (f : VForm) : readVector ((wordV 25#6 f)) = some (.isra f) := by
  unfold readVector
  rw [wordV_op, fieldsV_wordV]
  rfl

theorem read_imin (f : VForm) : readVector ((wordV 26#6 f)) = some (.imin f) := by
  unfold readVector
  rw [wordV_op, fieldsV_wordV]
  rfl

theorem read_imax (f : VForm) : readVector ((wordV 27#6 f)) = some (.imax f) := by
  unfold readVector
  rw [wordV_op, fieldsV_wordV]
  rfl

theorem read_iminu (f : VForm) : readVector ((wordV 28#6 f)) = some (.iminu f) := by
  unfold readVector
  rw [wordV_op, fieldsV_wordV]
  rfl

theorem read_imaxu (f : VForm) : readVector ((wordV 29#6 f)) = some (.imaxu f) := by
  unfold readVector
  rw [wordV_op, fieldsV_wordV]
  rfl

theorem read_icmp (f : VForm) : readVector ((wordV 30#6 f)) = some (.icmp f) := by
  unfold readVector
  rw [wordV_op, fieldsV_wordV]
  rfl

theorem read_vsel (f : VForm) : readVector ((wordV 32#6 f)) = some (.vsel f) := by
  unfold readVector
  rw [wordV_op, fieldsV_wordV]
  rfl

theorem read_vmov (f : VForm) : readVector ((wordV 33#6 f)) = some (.vmov f) := by
  unfold readVector
  rw [wordV_op, fieldsV_wordV]
  rfl

theorem read_vbcst (f : VForm) : readVector ((wordV 34#6 f)) = some (.vbcst f) := by
  unfold readVector
  rw [wordV_op, fieldsV_wordV]
  rfl

theorem read_vperm (f : VForm) : readVector ((wordV 35#6 f)) = some (.vperm f) := by
  unfold readVector
  rw [wordV_op, fieldsV_wordV]
  rfl

theorem read_vrot (f : VForm) : readVector ((wordV 36#6 f)) = some (.vrot f) := by
  unfold readVector
  rw [wordV_op, fieldsV_wordV]
  rfl

theorem read_viota (f : VForm) : readVector ((wordV 37#6 f)) = some (.viota f) := by
  unfold readVector
  rw [wordV_op, fieldsV_wordV]
  rfl

theorem read_vext (f : VForm) : readVector ((wordV 38#6 f)) = some (.vext f) := by
  unfold readVector
  rw [wordV_op, fieldsV_wordV]
  rfl

theorem read_vins (f : VForm) : readVector ((wordV 39#6 f)) = some (.vins f) := by
  unfold readVector
  rw [wordV_op, fieldsV_wordV]
  rfl

theorem read_frsum (f : VForm) : readVector ((wordV 40#6 f)) = some (.frsum f) := by
  unfold readVector
  rw [wordV_op, fieldsV_wordV]
  rfl

theorem read_frmax (f : VForm) : readVector ((wordV 41#6 f)) = some (.frmax f) := by
  unfold readVector
  rw [wordV_op, fieldsV_wordV]
  rfl

theorem read_frmin (f : VForm) : readVector ((wordV 42#6 f)) = some (.frmin f) := by
  unfold readVector
  rw [wordV_op, fieldsV_wordV]
  rfl

theorem read_irsum (f : VForm) : readVector ((wordV 43#6 f)) = some (.irsum f) := by
  unfold readVector
  rw [wordV_op, fieldsV_wordV]
  rfl

theorem read_irmax (f : VForm) : readVector ((wordV 44#6 f)) = some (.irmax f) := by
  unfold readVector
  rw [wordV_op, fieldsV_wordV]
  rfl

theorem read_irmin (f : VForm) : readVector ((wordV 45#6 f)) = some (.irmin f) := by
  unfold readVector
  rw [wordV_op, fieldsV_wordV]
  rfl

theorem read_kand (f : VForm) (h : f.vc.toNat = 0) : readVector ((wordV 48#6 f)) = some (.kand f) := by
  unfold readVector
  rw [wordV_op, fieldsV_wordV, wordV_low, h]
  rfl

theorem read_kor (f : VForm) (h : f.vc.toNat = 1) : readVector ((wordV 48#6 f)) = some (.kor f) := by
  unfold readVector
  rw [wordV_op, fieldsV_wordV, wordV_low, h]
  rfl

theorem read_kxor (f : VForm) (h : f.vc.toNat = 2) : readVector ((wordV 48#6 f)) = some (.kxor f) := by
  unfold readVector
  rw [wordV_op, fieldsV_wordV, wordV_low, h]
  rfl

theorem read_kandn (f : VForm) (h : f.vc.toNat = 3) : readVector ((wordV 48#6 f)) = some (.kandn f) := by
  unfold readVector
  rw [wordV_op, fieldsV_wordV, wordV_low, h]
  rfl

theorem read_kpopc (f : VForm) : readVector ((wordV 49#6 f)) = some (.kpopc f) := by
  unfold readVector
  rw [wordV_op, fieldsV_wordV]
  rfl

theorem read_kfromv (f : VForm) : readVector ((wordV 50#6 f)) = some (.kfromv f) := by
  unfold readVector
  rw [wordV_op, fieldsV_wordV]
  rfl

theorem read_mnop : readMemory 0 = .ok .mnop := rfl

theorem read_trans (f : TransForm) : readMemory ((wordTrans f)) = .ok (.trans f) := by
  unfold readMemory
  rw [wordTrans_op, fieldsTrans_wordTrans]
  rfl

theorem read_hinv (f : HinvForm) : readMemory ((wordHinv f)) = .ok (.hinv f) := by
  unfold readMemory
  rw [wordHinv_op, fieldsHinv_wordHinv]
  rfl

theorem read_hrd (f : SMemForm) : readMemory ((wordSMem 3#6 f)) = .ok (.hrd f) := by
  unfold readMemory
  rw [wordSMem_op, fieldsSMem_wordSMem]
  rfl

theorem read_ldB (f : SMemForm) : readMemory ((wordSMem 4#6 f)) = .ok (.ldB f) := by
  unfold readMemory
  rw [wordSMem_op, fieldsSMem_wordSMem]
  rfl

theorem read_ldH (f : SMemForm) : readMemory ((wordSMem 5#6 f)) = .ok (.ldH f) := by
  unfold readMemory
  rw [wordSMem_op, fieldsSMem_wordSMem]
  rfl

theorem read_ldW (f : SMemForm) : readMemory ((wordSMem 6#6 f)) = .ok (.ldW f) := by
  unfold readMemory
  rw [wordSMem_op, fieldsSMem_wordSMem]
  rfl

theorem read_ldD (f : SMemForm) : readMemory ((wordSMem 7#6 f)) = .ok (.ldD f) := by
  unfold readMemory
  rw [wordSMem_op, fieldsSMem_wordSMem]
  rfl

theorem read_ldSb (f : SMemForm) : readMemory ((wordSMem 8#6 f)) = .ok (.ldSb f) := by
  unfold readMemory
  rw [wordSMem_op, fieldsSMem_wordSMem]
  rfl

theorem read_ldSh (f : SMemForm) : readMemory ((wordSMem 9#6 f)) = .ok (.ldSh f) := by
  unfold readMemory
  rw [wordSMem_op, fieldsSMem_wordSMem]
  rfl

theorem read_ldSw (f : SMemForm) : readMemory ((wordSMem 10#6 f)) = .ok (.ldSw f) := by
  unfold readMemory
  rw [wordSMem_op, fieldsSMem_wordSMem]
  rfl

theorem read_stB (f : SMemForm) : readMemory ((wordSMem 11#6 f)) = .ok (.stB f) := by
  unfold readMemory
  rw [wordSMem_op, fieldsSMem_wordSMem]
  rfl

theorem read_stH (f : SMemForm) : readMemory ((wordSMem 12#6 f)) = .ok (.stH f) := by
  unfold readMemory
  rw [wordSMem_op, fieldsSMem_wordSMem]
  rfl

theorem read_stW (f : SMemForm) : readMemory ((wordSMem 13#6 f)) = .ok (.stW f) := by
  unfold readMemory
  rw [wordSMem_op, fieldsSMem_wordSMem]
  rfl

theorem read_stD (f : SMemForm) : readMemory ((wordSMem 14#6 f)) = .ok (.stD f) := by
  unfold readMemory
  rw [wordSMem_op, fieldsSMem_wordSMem]
  rfl

theorem read_ldwaitD (f : SMemForm) : readMemory ((wordSMem 16#6 f)) = .ok (.ldwaitD f) := by
  unfold readMemory
  rw [wordSMem_op, fieldsSMem_wordSMem]
  rfl

theorem read_ldtakeD (f : SMemForm) : readMemory ((wordSMem 17#6 f)) = .ok (.ldtakeD f) := by
  unfold readMemory
  rw [wordSMem_op, fieldsSMem_wordSMem]
  rfl

theorem read_stfillD (f : SMemForm) : readMemory ((wordSMem 18#6 f)) = .ok (.stfillD f) := by
  unfold readMemory
  rw [wordSMem_op, fieldsSMem_wordSMem]
  rfl

theorem read_feset (f : SMemForm) : readMemory ((wordSMem 19#6 f)) = .ok (.feset f) := by
  unfold readMemory
  rw [wordSMem_op, fieldsSMem_wordSMem]
  rfl

theorem read_feget (f : SMemForm) : readMemory ((wordSMem 20#6 f)) = .ok (.feget f) := by
  unfold readMemory
  rw [wordSMem_op, fieldsSMem_wordSMem]
  rfl

theorem read_vldW (f : VMemForm) : readMemory ((wordVMem 24#6 f)) = .ok (.vldW f) := by
  unfold readMemory
  rw [wordVMem_op, fieldsVMem_wordVMem]
  rfl

theorem read_vstW (f : VMemForm) : readMemory ((wordVMem 25#6 f)) = .ok (.vstW f) := by
  unfold readMemory
  rw [wordVMem_op, fieldsVMem_wordVMem]
  rfl

theorem read_vldH (f : VMemForm) : readMemory ((wordVMem 26#6 f)) = .ok (.vldH f) := by
  unfold readMemory
  rw [wordVMem_op, fieldsVMem_wordVMem]
  rfl

theorem read_vstH (f : VMemForm) : readMemory ((wordVMem 27#6 f)) = .ok (.vstH f) := by
  unfold readMemory
  rw [wordVMem_op, fieldsVMem_wordVMem]
  rfl

theorem read_spldW (f : SpsForm) : readMemory ((wordSps 32#6 f)) = .ok (.spldW f) := by
  unfold readMemory
  rw [wordSps_op, fieldsSps_wordSps]
  rfl

theorem read_spldD (f : SpsForm) : readMemory ((wordSps 33#6 f)) = .ok (.spldD f) := by
  unfold readMemory
  rw [wordSps_op, fieldsSps_wordSps]
  rfl

theorem read_spstW (f : SpsForm) : readMemory ((wordSps 34#6 f)) = .ok (.spstW f) := by
  unfold readMemory
  rw [wordSps_op, fieldsSps_wordSps]
  rfl

theorem read_spstD (f : SpsForm) : readMemory ((wordSps 35#6 f)) = .ok (.spstD f) := by
  unfold readMemory
  rw [wordSps_op, fieldsSps_wordSps]
  rfl

theorem read_vspld (f : SpvForm) : readMemory ((wordSpv 36#6 f)) = .ok (.vspld f) := by
  unfold readMemory
  rw [wordSpv_op, fieldsSpv_wordSpv]
  rfl

theorem read_vspst (f : SpvForm) : readMemory ((wordSpv 37#6 f)) = .ok (.vspst f) := by
  unfold readMemory
  rw [wordSpv_op, fieldsSpv_wordSpv]
  rfl

theorem read_vspg (f : GatherForm) : readMemory ((wordGather 38#6 f)) = .ok (.vspg f) := by
  unfold readMemory
  rw [wordGather_op, fieldsGather_wordGather]
  rfl

theorem read_vsps (f : GatherForm) : readMemory ((wordGather 39#6 f)) = .ok (.vsps f) := by
  unfold readMemory
  rw [wordGather_op, fieldsGather_wordGather]
  rfl

theorem read_lpld (f : GatherForm) : readMemory ((wordGather 40#6 f)) = .ok (.lpld f) := by
  unfold readMemory
  rw [wordGather_op, fieldsGather_wordGather]
  rfl

theorem read_lpst (f : GatherForm) : readMemory ((wordGather 41#6 f)) = .ok (.lpst f) := by
  unfold readMemory
  rw [wordGather_op, fieldsGather_wordGather]
  rfl

theorem read_sptakeD (f : SpsForm) : readMemory ((wordSps 42#6 f)) = .ok (.sptakeD f) := by
  unfold readMemory
  rw [wordSps_op, fieldsSps_wordSps]
  rfl

theorem read_spfillD (f : SpsForm) : readMemory ((wordSps 43#6 f)) = .ok (.spfillD f) := by
  unfold readMemory
  rw [wordSps_op, fieldsSps_wordSps]
  rfl

theorem read_aadd (f : AtomForm) : readMemory ((wordAtom 48#6 f)) = .ok (.aadd f) := by
  unfold readMemory
  rw [wordAtom_op, fieldsAtom_wordAtom]
  rfl

theorem read_amin (f : AtomForm) : readMemory ((wordAtom 49#6 f)) = .ok (.amin f) := by
  unfold readMemory
  rw [wordAtom_op, fieldsAtom_wordAtom]
  rfl

theorem read_amax (f : AtomForm) : readMemory ((wordAtom 50#6 f)) = .ok (.amax f) := by
  unfold readMemory
  rw [wordAtom_op, fieldsAtom_wordAtom]
  rfl

theorem read_aminu (f : AtomForm) : readMemory ((wordAtom 51#6 f)) = .ok (.aminu f) := by
  unfold readMemory
  rw [wordAtom_op, fieldsAtom_wordAtom]
  rfl

theorem read_amaxu (f : AtomForm) : readMemory ((wordAtom 52#6 f)) = .ok (.amaxu f) := by
  unfold readMemory
  rw [wordAtom_op, fieldsAtom_wordAtom]
  rfl

theorem read_aand (f : AtomForm) : readMemory ((wordAtom 53#6 f)) = .ok (.aand f) := by
  unfold readMemory
  rw [wordAtom_op, fieldsAtom_wordAtom]
  rfl

theorem read_aor (f : AtomForm) : readMemory ((wordAtom 54#6 f)) = .ok (.aor f) := by
  unfold readMemory
  rw [wordAtom_op, fieldsAtom_wordAtom]
  rfl

theorem read_axor (f : AtomForm) : readMemory ((wordAtom 55#6 f)) = .ok (.axor f) := by
  unfold readMemory
  rw [wordAtom_op, fieldsAtom_wordAtom]
  rfl

theorem read_aswp (f : AtomForm) : readMemory ((wordAtom 56#6 f)) = .ok (.aswp f) := by
  unfold readMemory
  rw [wordAtom_op, fieldsAtom_wordAtom]
  rfl

theorem read_acas (f : AtomForm) : readMemory ((wordAtom 57#6 f)) = .ok (.acas f) := by
  unfold readMemory
  rw [wordAtom_op, fieldsAtom_wordAtom]
  rfl

theorem read_cadd (f : CaddForm) : readMemory ((wordCadd f)) = .ok (.cadd f) := by
  unfold readMemory
  rw [wordCadd_op, fieldsCadd_wordCadd]
  rfl

theorem read_cwait (f : AtomForm) : readMemory ((wordAtom 59#6 f)) = .ok (.cwait f) := by
  unfold readMemory
  rw [wordAtom_op, fieldsAtom_wordAtom]
  rfl

theorem read_crd (f : AtomForm) : readMemory ((wordAtom 60#6 f)) = .ok (.crd f) := by
  unfold readMemory
  rw [wordAtom_op, fieldsAtom_wordAtom]
  rfl

theorem read_fence (f : FenceForm) : readMemory ((wordFence 0 f)) = .ok (.fence f) := by
  unfold readMemory
  rw [wordFence_op, fieldsFence_wordFence, wordFence_kind]
  rfl

theorem read_fenceSt (f : FenceForm) : readMemory ((wordFence 1 f)) = .ok (.fenceSt f) := by
  unfold readMemory
  rw [wordFence_op, fieldsFence_wordFence, wordFence_kind]
  rfl

theorem read_fenceLd (f : FenceForm) : readMemory ((wordFence 2 f)) = .ok (.fenceLd f) := by
  unfold readMemory
  rw [wordFence_op, fieldsFence_wordFence, wordFence_kind]
  rfl

theorem read_setq (f : SetqForm) : readMemory ((wordSetq f)) = .ok (.setq f) := by
  unfold readMemory
  rw [wordSetq_op, fieldsSetq_wordSetq]
  rfl

theorem read_pref (f : SMemForm) : readMemory ((wordSMem 63#6 f)) = .ok (.pref f) := by
  unfold readMemory
  rw [wordSMem_op, fieldsSMem_wordSMem]
  rfl

theorem read_routineNop (f : RForm) : readRoutine ((wordR 0 f)) = .ok (.routineNop f) := by
  unfold readRoutine
  rw [wordR_rn, fieldsR_wordR]
  rfl

theorem read_routineSlot (rn : BitVec 12) (f : RForm) (h : 0x400 ≤ rn.toNat) : readRoutine ((wordR rn f)) = .ok (.routineSlot rn f) := by
  unfold readRoutine
  simp only [wordR_rnBits, fieldsR_wordR]
  split <;> first | omega | rw [if_pos h]

theorem read_oclaim (f : RForm) : readRoutine ((wordR 16#12 f)) = .ok (.oclaim f) := by
  unfold readRoutine
  rw [wordR_rn, fieldsR_wordR]
  rfl

theorem read_ofree (f : RForm) : readRoutine ((wordR 17#12 f)) = .ok (.ofree f) := by
  unfold readRoutine
  rw [wordR_rn, fieldsR_wordR]
  rfl

theorem read_olda (f : RForm) : readRoutine ((wordR 18#12 f)) = .ok (.olda f) := by
  unfold readRoutine
  rw [wordR_rn, fieldsR_wordR]
  rfl

theorem read_oldb (f : RForm) : readRoutine ((wordR 19#12 f)) = .ok (.oldb f) := by
  unfold readRoutine
  rw [wordR_rn, fieldsR_wordR]
  rfl

theorem read_aclaim (f : RForm) : readRoutine ((wordR 20#12 f)) = .ok (.aclaim f) := by
  unfold readRoutine
  rw [wordR_rn, fieldsR_wordR]
  rfl

theorem read_afree (f : RForm) : readRoutine ((wordR 21#12 f)) = .ok (.afree f) := by
  unfold readRoutine
  rw [wordR_rn, fieldsR_wordR]
  rfl

theorem read_azero (f : RForm) : readRoutine ((wordR 22#12 f)) = .ok (.azero f) := by
  unfold readRoutine
  rw [wordR_rn, fieldsR_wordR]
  rfl

theorem read_mma (f : RForm) : readRoutine ((wordR 23#12 f)) = .ok (.mma f) := by
  unfold readRoutine
  rw [wordR_rn, fieldsR_wordR]
  rfl

theorem read_anorm (f : RForm) : readRoutine ((wordR 24#12 f)) = .ok (.anorm f) := by
  unfold readRoutine
  rw [wordR_rn, fieldsR_wordR]
  rfl

theorem read_asto (f : RForm) : readRoutine ((wordR 25#12 f)) = .ok (.asto f) := by
  unfold readRoutine
  rw [wordR_rn, fieldsR_wordR]
  rfl

theorem read_arow (f : RForm) : readRoutine ((wordR 26#12 f)) = .ok (.arow f) := by
  unfold readRoutine
  rw [wordR_rn, fieldsR_wordR]
  rfl

theorem read_bfpq (f : RForm) : readRoutine ((wordR 96#12 f)) = .ok (.bfpq f) := by
  unfold readRoutine
  rw [wordR_rn, fieldsR_wordR]
  rfl

theorem read_bdot4 (f : RForm) : readRoutine ((wordR 97#12 f)) = .ok (.bdot4 f) := by
  unfold readRoutine
  rw [wordR_rn, fieldsR_wordR]
  rfl

theorem read_tlsc2 (f : RForm) : readRoutine ((wordR 98#12 f)) = .ok (.tlsc2 f) := by
  unfold readRoutine
  rw [wordR_rn, fieldsR_wordR]
  rfl

theorem read_exp2 (f : RForm) : readRoutine ((wordR 64#12 f)) = .ok (.exp2 f) := by
  unfold readRoutine
  rw [wordR_rn, fieldsR_wordR]
  rfl

theorem read_expe (f : RForm) : readRoutine ((wordR 65#12 f)) = .ok (.expe f) := by
  unfold readRoutine
  rw [wordR_rn, fieldsR_wordR]
  rfl

theorem read_log2 (f : RForm) : readRoutine ((wordR 66#12 f)) = .ok (.log2 f) := by
  unfold readRoutine
  rw [wordR_rn, fieldsR_wordR]
  rfl

theorem read_loge (f : RForm) : readRoutine ((wordR 67#12 f)) = .ok (.loge f) := by
  unfold readRoutine
  rw [wordR_rn, fieldsR_wordR]
  rfl

theorem read_rcp (f : RForm) : readRoutine ((wordR 68#12 f)) = .ok (.rcp f) := by
  unfold readRoutine
  rw [wordR_rn, fieldsR_wordR]
  rfl

theorem read_rsqrt (f : RForm) : readRoutine ((wordR 69#12 f)) = .ok (.rsqrt f) := by
  unfold readRoutine
  rw [wordR_rn, fieldsR_wordR]
  rfl

theorem read_sqrt (f : RForm) : readRoutine ((wordR 70#12 f)) = .ok (.sqrt f) := by
  unfold readRoutine
  rw [wordR_rn, fieldsR_wordR]
  rfl

theorem read_tanh (f : RForm) : readRoutine ((wordR 71#12 f)) = .ok (.tanh f) := by
  unfold readRoutine
  rw [wordR_rn, fieldsR_wordR]
  rfl

theorem read_sigm (f : RForm) : readRoutine ((wordR 72#12 f)) = .ok (.sigm f) := by
  unfold readRoutine
  rw [wordR_rn, fieldsR_wordR]
  rfl

theorem read_silu (f : RForm) : readRoutine ((wordR 73#12 f)) = .ok (.silu f) := by
  unfold readRoutine
  rw [wordR_rn, fieldsR_wordR]
  rfl

theorem read_gelu (f : RForm) : readRoutine ((wordR 74#12 f)) = .ok (.gelu f) := by
  unfold readRoutine
  rw [wordR_rn, fieldsR_wordR]
  rfl

theorem read_divf (f : RForm) : readRoutine ((wordR 75#12 f)) = .ok (.divf f) := by
  unfold readRoutine
  rw [wordR_rn, fieldsR_wordR]
  rfl

theorem read_rmax (f : RForm) : readRoutine ((wordR 80#12 f)) = .ok (.rmax f) := by
  unfold readRoutine
  rw [wordR_rn, fieldsR_wordR]
  rfl

theorem read_rsum (f : RForm) : readRoutine ((wordR 81#12 f)) = .ok (.rsum f) := by
  unfold readRoutine
  rw [wordR_rn, fieldsR_wordR]
  rfl

theorem read_smxupd (f : RForm) : readRoutine ((wordR 82#12 f)) = .ok (.smxupd f) := by
  unfold readRoutine
  rw [wordR_rn, fieldsR_wordR]
  rfl

theorem read_smxfin (f : RForm) : readRoutine ((wordR 83#12 f)) = .ok (.smxfin f) := by
  unfold readRoutine
  rw [wordR_rn, fieldsR_wordR]
  rfl

theorem read_rmsn (f : RForm) : readRoutine ((wordR 84#12 f)) = .ok (.rmsn f) := by
  unfold readRoutine
  rw [wordR_rn, fieldsR_wordR]
  rfl

theorem read_lnrm (f : RForm) : readRoutine ((wordR 85#12 f)) = .ok (.lnrm f) := by
  unfold readRoutine
  rw [wordR_rn, fieldsR_wordR]
  rfl

theorem read_cpy (f : RForm) : readRoutine ((wordR 128#12 f)) = .ok (.cpy f) := by
  unfold readRoutine
  rw [wordR_rn, fieldsR_wordR]
  rfl

theorem read_cpyred (f : RForm) : readRoutine ((wordR 129#12 f)) = .ok (.cpyred f) := by
  unfold readRoutine
  rw [wordR_rn, fieldsR_wordR]
  rfl

theorem read_tstload (f : RForm) : readRoutine ((wordR 130#12 f)) = .ok (.tstload f) := by
  unfold readRoutine
  rw [wordR_rn, fieldsR_wordR]
  rfl

theorem read_btswap (f : RForm) : readRoutine ((wordR 131#12 f)) = .ok (.btswap f) := by
  unfold readRoutine
  rw [wordR_rn, fieldsR_wordR]
  rfl

theorem read_btfence (f : RForm) : readRoutine ((wordR 132#12 f)) = .ok (.btfence f) := by
  unfold readRoutine
  rw [wordR_rn, fieldsR_wordR]
  rfl

theorem read_cbreg (f : RForm) : readRoutine ((wordR 160#12 f)) = .ok (.cbreg f) := by
  unfold readRoutine
  rw [wordR_rn, fieldsR_wordR]
  rfl

theorem read_cbput (f : RForm) : readRoutine ((wordR 161#12 f)) = .ok (.cbput f) := by
  unfold readRoutine
  rw [wordR_rn, fieldsR_wordR]
  rfl

theorem read_cbstat (f : RForm) : readRoutine ((wordR 162#12 f)) = .ok (.cbstat f) := by
  unfold readRoutine
  rw [wordR_rn, fieldsR_wordR]
  rfl

theorem read_jexp (f : RForm) : readRoutine ((wordR 176#12 f)) = .ok (.jexp f) := by
  unfold readRoutine
  rw [wordR_rn, fieldsR_wordR]
  rfl

theorem read_jdone (f : RForm) : readRoutine ((wordR 177#12 f)) = .ok (.jdone f) := by
  unfold readRoutine
  rw [wordR_rn, fieldsR_wordR]
  rfl

theorem read_ringadv (f : RForm) : readRoutine ((wordR 192#12 f)) = .ok (.ringadv f) := by
  unfold readRoutine
  rw [wordR_rn, fieldsR_wordR]
  rfl

theorem just_of_fieldsOk (p : VSpec) (f : VForm) (n : Nat) (hp : p.vc = .just n) (h : p.fieldsOk f = true) :
    f.vc.toNat = n := by
  simp only [VSpec.fieldsOk, Bool.and_eq_true, hp, VUse.ok, decide_eq_true_eq] at h
  exact h.2.1

/-- The scalar slot: an operation with sound fields has a word, and the slot reads the operation from it. -/
theorem scalar_slot : ∀ i : Instr, i.kind = .scalar → i.fieldsOk = true → ∃ w, slotWord i = some w ∧ decodeScalar w = .ok i
  | .snop, _, hf => ⟨_, rfl, decodeScalar_of _ _ (read_snop) rfl hf⟩
  | .add _, _, hf => ⟨_, rfl, decodeScalar_of _ _ (read_add _) rfl hf⟩
  | .sub _, _, hf => ⟨_, rfl, decodeScalar_of _ _ (read_sub _) rfl hf⟩
  | .and _, _, hf => ⟨_, rfl, decodeScalar_of _ _ (read_and _) rfl hf⟩
  | .or _, _, hf => ⟨_, rfl, decodeScalar_of _ _ (read_or _) rfl hf⟩
  | .xor _, _, hf => ⟨_, rfl, decodeScalar_of _ _ (read_xor _) rfl hf⟩
  | .shl _, _, hf => ⟨_, rfl, decodeScalar_of _ _ (read_shl _) rfl hf⟩
  | .shr _, _, hf => ⟨_, rfl, decodeScalar_of _ _ (read_shr _) rfl hf⟩
  | .sra _, _, hf => ⟨_, rfl, decodeScalar_of _ _ (read_sra _) rfl hf⟩
  | .min _, _, hf => ⟨_, rfl, decodeScalar_of _ _ (read_min _) rfl hf⟩
  | .max _, _, hf => ⟨_, rfl, decodeScalar_of _ _ (read_max _) rfl hf⟩
  | .minu _, _, hf => ⟨_, rfl, decodeScalar_of _ _ (read_minu _) rfl hf⟩
  | .maxu _, _, hf => ⟨_, rfl, decodeScalar_of _ _ (read_maxu _) rfl hf⟩
  | .rotl _, _, hf => ⟨_, rfl, decodeScalar_of _ _ (read_rotl _) rfl hf⟩
  | .addi _, _, hf => ⟨_, rfl, decodeScalar_of _ _ (read_addi _) rfl hf⟩
  | .andi _, _, hf => ⟨_, rfl, decodeScalar_of _ _ (read_andi _) rfl hf⟩
  | .ori _, _, hf => ⟨_, rfl, decodeScalar_of _ _ (read_ori _) rfl hf⟩
  | .xori _, _, hf => ⟨_, rfl, decodeScalar_of _ _ (read_xori _) rfl hf⟩
  | .shli _, _, hf => ⟨_, rfl, decodeScalar_of _ _ (read_shli _) rfl hf⟩
  | .shri _, _, hf => ⟨_, rfl, decodeScalar_of _ _ (read_shri _) rfl hf⟩
  | .srai _, _, hf => ⟨_, rfl, decodeScalar_of _ _ (read_srai _) rfl hf⟩
  | .movi _, _, hf => ⟨_, rfl, decodeScalar_of _ _ (read_movi _) rfl hf⟩
  | .movhi _, _, hf => ⟨_, rfl, decodeScalar_of _ _ (read_movhi _) rfl hf⟩
  | .mul _, _, hf => ⟨_, rfl, decodeScalar_of _ _ (read_mul _) rfl hf⟩
  | .mulhs _, _, hf => ⟨_, rfl, decodeScalar_of _ _ (read_mulhs _) rfl hf⟩
  | .mulhu _, _, hf => ⟨_, rfl, decodeScalar_of _ _ (read_mulhu _) rfl hf⟩
  | .divs _, _, hf => ⟨_, rfl, decodeScalar_of _ _ (read_divs _) rfl hf⟩
  | .divu _, _, hf => ⟨_, rfl, decodeScalar_of _ _ (read_divu _) rfl hf⟩
  | .rems _, _, hf => ⟨_, rfl, decodeScalar_of _ _ (read_rems _) rfl hf⟩
  | .remu _, _, hf => ⟨_, rfl, decodeScalar_of _ _ (read_remu _) rfl hf⟩
  | .clz _, _, hf => ⟨_, rfl, decodeScalar_of _ _ (read_clz _) rfl hf⟩
  | .ctz _, _, hf => ⟨_, rfl, decodeScalar_of _ _ (read_ctz _) rfl hf⟩
  | .popc _, _, hf => ⟨_, rfl, decodeScalar_of _ _ (read_popc _) rfl hf⟩
  | .sextb _, _, hf => ⟨_, rfl, decodeScalar_of _ _ (read_sextb _) rfl hf⟩
  | .sexth _, _, hf => ⟨_, rfl, decodeScalar_of _ _ (read_sexth _) rfl hf⟩
  | .sextw _, _, hf => ⟨_, rfl, decodeScalar_of _ _ (read_sextw _) rfl hf⟩
  | .zextb _, _, hf => ⟨_, rfl, decodeScalar_of _ _ (read_zextb _) rfl hf⟩
  | .zexth _, _, hf => ⟨_, rfl, decodeScalar_of _ _ (read_zexth _) rfl hf⟩
  | .zextw _, _, hf => ⟨_, rfl, decodeScalar_of _ _ (read_zextw _) rfl hf⟩
  | .sel _, _, hf => ⟨_, rfl, decodeScalar_of _ _ (read_sel _) rfl hf⟩
  | .cmp _, _, hf => ⟨_, rfl, decodeScalar_of _ _ (read_cmp _) rfl hf⟩
  | .cmpi _, _, hf => ⟨_, rfl, decodeScalar_of _ _ (read_cmpi _) rfl hf⟩
  | .pand _, _, hf => ⟨_, rfl, decodeScalar_of _ _ (read_pand _) rfl hf⟩
  | .por _, _, hf => ⟨_, rfl, decodeScalar_of _ _ (read_por _) rfl hf⟩
  | .pxor _, _, hf => ⟨_, rfl, decodeScalar_of _ _ (read_pxor _) rfl hf⟩
  | .pandn _, _, hf => ⟨_, rfl, decodeScalar_of _ _ (read_pandn _) rfl hf⟩
  | .movp _, _, hf => ⟨_, rfl, decodeScalar_of _ _ (read_movp _) rfl hf⟩
  | .movps _, _, hf => ⟨_, rfl, decodeScalar_of _ _ (read_movps _) rfl hf⟩
  | .movsr _, _, hf => ⟨_, rfl, decodeScalar_of _ _ (read_movsr _) rfl hf⟩
  | .movrs _ _, _, hf => ⟨_, rfl, decodeScalar_of _ _ (read_movrs _ _ hf) rfl hf⟩
  | .fpstatWrite _, _, hf => ⟨_, rfl, decodeScalar_of _ _ (read_fpstatWrite _) rfl hf⟩
  | .cirWrite _, _, hf => ⟨_, rfl, decodeScalar_of _ _ (read_cirWrite _) rfl hf⟩
  | .febudgetWrite _, _, hf => ⟨_, rfl, decodeScalar_of _ _ (read_febudgetWrite _) rfl hf⟩
  | .defprofileWrite _, _, hf => ⟨_, rfl, decodeScalar_of _ _ (read_defprofileWrite _) rfl hf⟩
  | .argWrite _ _, _, hf => ⟨_, rfl, decodeScalar_of _ _ (read_argWrite _ _) rfl hf⟩
  | .qposWrite _ _, _, hf => ⟨_, rfl, decodeScalar_of _ _ (read_qposWrite _ _) rfl hf⟩
  | .chke _, _, hf => ⟨_, rfl, decodeScalar_of _ _ (read_chke _) rfl hf⟩
  | .sfadd _, _, hf => ⟨_, rfl, decodeScalar_of _ _ (read_sfadd _) rfl hf⟩
  | .sfsub _, _, hf => ⟨_, rfl, decodeScalar_of _ _ (read_sfsub _) rfl hf⟩
  | .sfmul _, _, hf => ⟨_, rfl, decodeScalar_of _ _ (read_sfmul _) rfl hf⟩
  | .sfmin _, _, hf => ⟨_, rfl, decodeScalar_of _ _ (read_sfmin _) rfl hf⟩
  | .sfmax _, _, hf => ⟨_, rfl, decodeScalar_of _ _ (read_sfmax _) rfl hf⟩
  | .sfcvtif _, _, hf => ⟨_, rfl, decodeScalar_of _ _ (read_sfcvtif _) rfl hf⟩
  | .sfcvtfi _, _, hf => ⟨_, rfl, decodeScalar_of _ _ (read_sfcvtfi _) rfl hf⟩
  | .bundleIssue _ _ _ _ _ _ _, hk, _ => nomatch hk
  | .lateResultLand _, hk, _ => nomatch hk
  | .overlayLoad _, hk, _ => nomatch hk
  | .engineWaitEnd _, hk, _ => nomatch hk
  | .contextSelect _, hk, _ => nomatch hk
  | .ctrlNop _, hk, _ => nomatch hk
  | .br _ _, hk, _ => nomatch hk
  | .brr _ _, hk, _ => nomatch hk
  | .call _ _, hk, _ => nomatch hk
  | .callr _ _, hk, _ => nomatch hk
  | .ret _, hk, _ => nomatch hk
  | .loopt _ _ _, hk, _ => nomatch hk
  | .loopn _ _ _ _, hk, _ => nomatch hk
  | .lexit _ _, hk, _ => nomatch hk
  | .trap _ _, hk, _ => nomatch hk
  | .yield _, hk, _ => nomatch hk
  | .waite _ _, hk, _ => nomatch hk
  | .eret _, hk, _ => nomatch hk
  | .resume _ _, hk, _ => nomatch hk
  | .vnop, hk, _ => nomatch hk
  | .fadd _, hk, _ => nomatch hk
  | .fsub _, hk, _ => nomatch hk
  | .fmul _, hk, _ => nomatch hk
  | .ffma _, hk, _ => nomatch hk
  | .ffms _, hk, _ => nomatch hk
  | .fnma _, hk, _ => nomatch hk
  | .fmin _, hk, _ => nomatch hk
  | .fmax _, hk, _ => nomatch hk
  | .fabs _, hk, _ => nomatch hk
  | .fneg _, hk, _ => nomatch hk
  | .fcmp _, hk, _ => nomatch hk
  | .fcvti _, hk, _ => nomatch hk
  | .icvtf _, hk, _ => nomatch hk
  | .bfpk _, hk, _ => nomatch hk
  | .bfup _, hk, _ => nomatch hk
  | .iadd _, hk, _ => nomatch hk
  | .isub _, hk, _ => nomatch hk
  | .imul _, hk, _ => nomatch hk
  | .imulh _, hk, _ => nomatch hk
  | .iand _, hk, _ => nomatch hk
  | .ior _, hk, _ => nomatch hk
  | .ixor _, hk, _ => nomatch hk
  | .ishl _, hk, _ => nomatch hk
  | .ishr _, hk, _ => nomatch hk
  | .isra _, hk, _ => nomatch hk
  | .imin _, hk, _ => nomatch hk
  | .imax _, hk, _ => nomatch hk
  | .iminu _, hk, _ => nomatch hk
  | .imaxu _, hk, _ => nomatch hk
  | .icmp _, hk, _ => nomatch hk
  | .vsel _, hk, _ => nomatch hk
  | .vmov _, hk, _ => nomatch hk
  | .vbcst _, hk, _ => nomatch hk
  | .vperm _, hk, _ => nomatch hk
  | .vrot _, hk, _ => nomatch hk
  | .viota _, hk, _ => nomatch hk
  | .vext _, hk, _ => nomatch hk
  | .vins _, hk, _ => nomatch hk
  | .frsum _, hk, _ => nomatch hk
  | .frmax _, hk, _ => nomatch hk
  | .frmin _, hk, _ => nomatch hk
  | .irsum _, hk, _ => nomatch hk
  | .irmax _, hk, _ => nomatch hk
  | .irmin _, hk, _ => nomatch hk
  | .kand _, hk, _ => nomatch hk
  | .kor _, hk, _ => nomatch hk
  | .kxor _, hk, _ => nomatch hk
  | .kandn _, hk, _ => nomatch hk
  | .kpopc _, hk, _ => nomatch hk
  | .kfromv _, hk, _ => nomatch hk
  | .mnop, hk, _ => nomatch hk
  | .trans _, hk, _ => nomatch hk
  | .hinv _, hk, _ => nomatch hk
  | .hrd _, hk, _ => nomatch hk
  | .ldB _, hk, _ => nomatch hk
  | .ldH _, hk, _ => nomatch hk
  | .ldW _, hk, _ => nomatch hk
  | .ldD _, hk, _ => nomatch hk
  | .ldSb _, hk, _ => nomatch hk
  | .ldSh _, hk, _ => nomatch hk
  | .ldSw _, hk, _ => nomatch hk
  | .stB _, hk, _ => nomatch hk
  | .stH _, hk, _ => nomatch hk
  | .stW _, hk, _ => nomatch hk
  | .stD _, hk, _ => nomatch hk
  | .ldwaitD _, hk, _ => nomatch hk
  | .ldtakeD _, hk, _ => nomatch hk
  | .stfillD _, hk, _ => nomatch hk
  | .feset _, hk, _ => nomatch hk
  | .feget _, hk, _ => nomatch hk
  | .feRetryAttempt _, hk, _ => nomatch hk
  | .feBudget _, hk, _ => nomatch hk
  | .vldW _, hk, _ => nomatch hk
  | .vstW _, hk, _ => nomatch hk
  | .vldH _, hk, _ => nomatch hk
  | .vstH _, hk, _ => nomatch hk
  | .spldW _, hk, _ => nomatch hk
  | .spldD _, hk, _ => nomatch hk
  | .spstW _, hk, _ => nomatch hk
  | .spstD _, hk, _ => nomatch hk
  | .repairEntryWrite _ _ _, hk, _ => nomatch hk
  | .vspld _, hk, _ => nomatch hk
  | .vspst _, hk, _ => nomatch hk
  | .vspg _, hk, _ => nomatch hk
  | .vsps _, hk, _ => nomatch hk
  | .lpld _, hk, _ => nomatch hk
  | .lpst _, hk, _ => nomatch hk
  | .sptakeD _, hk, _ => nomatch hk
  | .spfillD _, hk, _ => nomatch hk
  | .aadd _, hk, _ => nomatch hk
  | .amin _, hk, _ => nomatch hk
  | .amax _, hk, _ => nomatch hk
  | .aminu _, hk, _ => nomatch hk
  | .amaxu _, hk, _ => nomatch hk
  | .aand _, hk, _ => nomatch hk
  | .aor _, hk, _ => nomatch hk
  | .axor _, hk, _ => nomatch hk
  | .aswp _, hk, _ => nomatch hk
  | .acas _, hk, _ => nomatch hk
  | .cadd _, hk, _ => nomatch hk
  | .cwait _, hk, _ => nomatch hk
  | .crd _, hk, _ => nomatch hk
  | .fence _, hk, _ => nomatch hk
  | .fenceSt _, hk, _ => nomatch hk
  | .fenceLd _, hk, _ => nomatch hk
  | .setq _, hk, _ => nomatch hk
  | .pref _, hk, _ => nomatch hk
  | .streamReadAhead _ _ _, hk, _ => nomatch hk
  | .streamOutputWrite _ _ _, hk, _ => nomatch hk
  | .routineNop _, hk, _ => nomatch hk
  | .routineSlot _ _, hk, _ => nomatch hk
  | .oclaim _, hk, _ => nomatch hk
  | .ofree _, hk, _ => nomatch hk
  | .olda _, hk, _ => nomatch hk
  | .oldb _, hk, _ => nomatch hk
  | .aclaim _, hk, _ => nomatch hk
  | .afree _, hk, _ => nomatch hk
  | .azero _, hk, _ => nomatch hk
  | .mma _, hk, _ => nomatch hk
  | .anorm _, hk, _ => nomatch hk
  | .asto _, hk, _ => nomatch hk
  | .arow _, hk, _ => nomatch hk
  | .bfpq _, hk, _ => nomatch hk
  | .bdot4 _, hk, _ => nomatch hk
  | .tlsc2 _, hk, _ => nomatch hk
  | .exp2 _, hk, _ => nomatch hk
  | .expe _, hk, _ => nomatch hk
  | .log2 _, hk, _ => nomatch hk
  | .loge _, hk, _ => nomatch hk
  | .rcp _, hk, _ => nomatch hk
  | .rsqrt _, hk, _ => nomatch hk
  | .sqrt _, hk, _ => nomatch hk
  | .tanh _, hk, _ => nomatch hk
  | .sigm _, hk, _ => nomatch hk
  | .silu _, hk, _ => nomatch hk
  | .gelu _, hk, _ => nomatch hk
  | .divf _, hk, _ => nomatch hk
  | .rmax _, hk, _ => nomatch hk
  | .rsum _, hk, _ => nomatch hk
  | .smxupd _, hk, _ => nomatch hk
  | .smxfin _, hk, _ => nomatch hk
  | .rmsn _, hk, _ => nomatch hk
  | .lnrm _, hk, _ => nomatch hk
  | .cpy _, hk, _ => nomatch hk
  | .cpyred _, hk, _ => nomatch hk
  | .tstload _, hk, _ => nomatch hk
  | .btswap _, hk, _ => nomatch hk
  | .btfence _, hk, _ => nomatch hk
  | .cbreg _, hk, _ => nomatch hk
  | .cbput _, hk, _ => nomatch hk
  | .cbstat _, hk, _ => nomatch hk
  | .jexp _, hk, _ => nomatch hk
  | .jdone _, hk, _ => nomatch hk
  | .ringadv _, hk, _ => nomatch hk
  | .matrixQueuePerform _ _, hk, _ => nomatch hk
  | .functionQueuePerform _, hk, _ => nomatch hk
  | .copyQueuePerform _, hk, _ => nomatch hk
  | .cpyredAdmit _ _ _, hk, _ => nomatch hk
  | .jobQueuePerform _, hk, _ => nomatch hk
  | .tokenRelease _ _, hk, _ => nomatch hk
  | .combineTimeout _ _, hk, _ => nomatch hk
  | .ringTimerExpiry _, hk, _ => nomatch hk
  | .drainPointStop _, hk, _ => nomatch hk
  | .forcedStop _, hk, _ => nomatch hk
  | .preemptStopTimeout _, hk, _ => nomatch hk
  | .contextSaveDone _, hk, _ => nomatch hk
  | .contextRestore _, hk, _ => nomatch hk
  | .herdRetire _, hk, _ => nomatch hk
  | .nodeCommit _ _, hk, _ => nomatch hk
  | .stagingExhausted _, hk, _ => nomatch hk
  | .nodeFire _ _, hk, _ => nomatch hk
  | .nodePlace _, hk, _ => nomatch hk
  | .copyNodeRun _ _, hk, _ => nomatch hk
  | .counterNodeRun _ _, hk, _ => nomatch hk
  | .conditionalNodeRun _ _, hk, _ => nomatch hk
  | .descriptorArm _ _ _, hk, _ => nomatch hk
  | .descriptorDisarm _ _, hk, _ => nomatch hk
  | .runtimeRelease _ _, hk, _ => nomatch hk
  | .regenFault _, hk, _ => nomatch hk
  | .trapRecordTake _, hk, _ => nomatch hk
  | .wakeServe _, hk, _ => nomatch hk
  | .handleRetranslate _, hk, _ => nomatch hk
  | .copyOnWrite _ _, hk, _ => nomatch hk
  | .translationInvalidate _ _ _ _ _, hk, _ => nomatch hk
  | .invalidateComplete _, hk, _ => nomatch hk
  | .counterAddWindow _ _ _, hk, _ => nomatch hk
  | .hostMemoryAccess _ _, hk, _ => nomatch hk
  | .requestSlotSubmit _ _ _, hk, _ => nomatch hk
  | .loadRequest _, hk, _ => nomatch hk
  | .unloadRequest _, hk, _ => nomatch hk
  | .stopRequest _, hk, _ => nomatch hk
  | .restoreRequest _, hk, _ => nomatch hk
  | .msixTableWrite _ _, hk, _ => nomatch hk
  | .managementWriteOther _ _, hk, _ => nomatch hk
  | .partitionRequest _, hk, _ => nomatch hk
  | .routeTableLoad _, hk, _ => nomatch hk
  | .fabricRequest _ _ _, hk, _ => nomatch hk
  | .linkCrcRetry _, hk, _ => nomatch hk
  | .linkFail _, hk, _ => nomatch hk
  | .cxlLinkFail _, hk, _ => nomatch hk
  | .uncorrectedError _, hk, _ => nomatch hk
  | .correctedError _, hk, _ => nomatch hk
  | .scrubRead _ _, hk, _ => nomatch hk
  | .checkedMismatch _ _, hk, _ => nomatch hk
  | .markhorPairMismatch _ _, hk, _ => nomatch hk
  | .wearUpdate _ _ _, hk, _ => nomatch hk
  | .powerCapChange _, hk, _ => nomatch hk
  | .measurementReport, hk, _ => nomatch hk
  | .reset _, hk, _ => nomatch hk
  | .combineQueuePerform _, hk, _ => nomatch hk
  | .runtimeResumeRequest _ _, hk, _ => nomatch hk

/-- The vector slot: an operation with sound fields has a word, and the slot reads the operation from it. -/
theorem vector_slot : ∀ i : Instr, i.kind = .vector → i.fieldsOk = true → ∃ w, slotWord i = some w ∧ decodeVector w = .ok i
  | .vnop, _, hf => ⟨_, rfl, decodeVector_of _ _ (read_vnop) rfl hf⟩
  | .fadd _, _, hf => ⟨_, rfl, decodeVector_of _ _ (read_fadd _) rfl hf⟩
  | .fsub _, _, hf => ⟨_, rfl, decodeVector_of _ _ (read_fsub _) rfl hf⟩
  | .fmul _, _, hf => ⟨_, rfl, decodeVector_of _ _ (read_fmul _) rfl hf⟩
  | .ffma _, _, hf => ⟨_, rfl, decodeVector_of _ _ (read_ffma _) rfl hf⟩
  | .ffms _, _, hf => ⟨_, rfl, decodeVector_of _ _ (read_ffms _) rfl hf⟩
  | .fnma _, _, hf => ⟨_, rfl, decodeVector_of _ _ (read_fnma _) rfl hf⟩
  | .fmin _, _, hf => ⟨_, rfl, decodeVector_of _ _ (read_fmin _) rfl hf⟩
  | .fmax _, _, hf => ⟨_, rfl, decodeVector_of _ _ (read_fmax _) rfl hf⟩
  | .fabs _, _, hf => ⟨_, rfl, decodeVector_of _ _ (read_fabs _) rfl hf⟩
  | .fneg _, _, hf => ⟨_, rfl, decodeVector_of _ _ (read_fneg _) rfl hf⟩
  | .fcmp _, _, hf => ⟨_, rfl, decodeVector_of _ _ (read_fcmp _) rfl hf⟩
  | .fcvti _, _, hf => ⟨_, rfl, decodeVector_of _ _ (read_fcvti _) rfl hf⟩
  | .icvtf _, _, hf => ⟨_, rfl, decodeVector_of _ _ (read_icvtf _) rfl hf⟩
  | .bfpk _, _, hf => ⟨_, rfl, decodeVector_of _ _ (read_bfpk _) rfl hf⟩
  | .bfup _, _, hf => ⟨_, rfl, decodeVector_of _ _ (read_bfup _) rfl hf⟩
  | .iadd _, _, hf => ⟨_, rfl, decodeVector_of _ _ (read_iadd _) rfl hf⟩
  | .isub _, _, hf => ⟨_, rfl, decodeVector_of _ _ (read_isub _) rfl hf⟩
  | .imul _, _, hf => ⟨_, rfl, decodeVector_of _ _ (read_imul _) rfl hf⟩
  | .imulh _, _, hf => ⟨_, rfl, decodeVector_of _ _ (read_imulh _) rfl hf⟩
  | .iand _, _, hf => ⟨_, rfl, decodeVector_of _ _ (read_iand _) rfl hf⟩
  | .ior _, _, hf => ⟨_, rfl, decodeVector_of _ _ (read_ior _) rfl hf⟩
  | .ixor _, _, hf => ⟨_, rfl, decodeVector_of _ _ (read_ixor _) rfl hf⟩
  | .ishl _, _, hf => ⟨_, rfl, decodeVector_of _ _ (read_ishl _) rfl hf⟩
  | .ishr _, _, hf => ⟨_, rfl, decodeVector_of _ _ (read_ishr _) rfl hf⟩
  | .isra _, _, hf => ⟨_, rfl, decodeVector_of _ _ (read_isra _) rfl hf⟩
  | .imin _, _, hf => ⟨_, rfl, decodeVector_of _ _ (read_imin _) rfl hf⟩
  | .imax _, _, hf => ⟨_, rfl, decodeVector_of _ _ (read_imax _) rfl hf⟩
  | .iminu _, _, hf => ⟨_, rfl, decodeVector_of _ _ (read_iminu _) rfl hf⟩
  | .imaxu _, _, hf => ⟨_, rfl, decodeVector_of _ _ (read_imaxu _) rfl hf⟩
  | .icmp _, _, hf => ⟨_, rfl, decodeVector_of _ _ (read_icmp _) rfl hf⟩
  | .vsel _, _, hf => ⟨_, rfl, decodeVector_of _ _ (read_vsel _) rfl hf⟩
  | .vmov _, _, hf => ⟨_, rfl, decodeVector_of _ _ (read_vmov _) rfl hf⟩
  | .vbcst _, _, hf => ⟨_, rfl, decodeVector_of _ _ (read_vbcst _) rfl hf⟩
  | .vperm _, _, hf => ⟨_, rfl, decodeVector_of _ _ (read_vperm _) rfl hf⟩
  | .vrot _, _, hf => ⟨_, rfl, decodeVector_of _ _ (read_vrot _) rfl hf⟩
  | .viota _, _, hf => ⟨_, rfl, decodeVector_of _ _ (read_viota _) rfl hf⟩
  | .vext _, _, hf => ⟨_, rfl, decodeVector_of _ _ (read_vext _) rfl hf⟩
  | .vins _, _, hf => ⟨_, rfl, decodeVector_of _ _ (read_vins _) rfl hf⟩
  | .frsum _, _, hf => ⟨_, rfl, decodeVector_of _ _ (read_frsum _) rfl hf⟩
  | .frmax _, _, hf => ⟨_, rfl, decodeVector_of _ _ (read_frmax _) rfl hf⟩
  | .frmin _, _, hf => ⟨_, rfl, decodeVector_of _ _ (read_frmin _) rfl hf⟩
  | .irsum _, _, hf => ⟨_, rfl, decodeVector_of _ _ (read_irsum _) rfl hf⟩
  | .irmax _, _, hf => ⟨_, rfl, decodeVector_of _ _ (read_irmax _) rfl hf⟩
  | .irmin _, _, hf => ⟨_, rfl, decodeVector_of _ _ (read_irmin _) rfl hf⟩
  | .kand _, _, hf => ⟨_, rfl, decodeVector_of _ _ (read_kand _ (just_of_fieldsOk _ _ _ rfl hf)) rfl hf⟩
  | .kor _, _, hf => ⟨_, rfl, decodeVector_of _ _ (read_kor _ (just_of_fieldsOk _ _ _ rfl hf)) rfl hf⟩
  | .kxor _, _, hf => ⟨_, rfl, decodeVector_of _ _ (read_kxor _ (just_of_fieldsOk _ _ _ rfl hf)) rfl hf⟩
  | .kandn _, _, hf => ⟨_, rfl, decodeVector_of _ _ (read_kandn _ (just_of_fieldsOk _ _ _ rfl hf)) rfl hf⟩
  | .kpopc _, _, hf => ⟨_, rfl, decodeVector_of _ _ (read_kpopc _) rfl hf⟩
  | .kfromv _, _, hf => ⟨_, rfl, decodeVector_of _ _ (read_kfromv _) rfl hf⟩
  | .bundleIssue _ _ _ _ _ _ _, hk, _ => nomatch hk
  | .lateResultLand _, hk, _ => nomatch hk
  | .overlayLoad _, hk, _ => nomatch hk
  | .engineWaitEnd _, hk, _ => nomatch hk
  | .contextSelect _, hk, _ => nomatch hk
  | .ctrlNop _, hk, _ => nomatch hk
  | .br _ _, hk, _ => nomatch hk
  | .brr _ _, hk, _ => nomatch hk
  | .call _ _, hk, _ => nomatch hk
  | .callr _ _, hk, _ => nomatch hk
  | .ret _, hk, _ => nomatch hk
  | .loopt _ _ _, hk, _ => nomatch hk
  | .loopn _ _ _ _, hk, _ => nomatch hk
  | .lexit _ _, hk, _ => nomatch hk
  | .trap _ _, hk, _ => nomatch hk
  | .yield _, hk, _ => nomatch hk
  | .waite _ _, hk, _ => nomatch hk
  | .eret _, hk, _ => nomatch hk
  | .resume _ _, hk, _ => nomatch hk
  | .snop, hk, _ => nomatch hk
  | .add _, hk, _ => nomatch hk
  | .sub _, hk, _ => nomatch hk
  | .and _, hk, _ => nomatch hk
  | .or _, hk, _ => nomatch hk
  | .xor _, hk, _ => nomatch hk
  | .shl _, hk, _ => nomatch hk
  | .shr _, hk, _ => nomatch hk
  | .sra _, hk, _ => nomatch hk
  | .min _, hk, _ => nomatch hk
  | .max _, hk, _ => nomatch hk
  | .minu _, hk, _ => nomatch hk
  | .maxu _, hk, _ => nomatch hk
  | .rotl _, hk, _ => nomatch hk
  | .addi _, hk, _ => nomatch hk
  | .andi _, hk, _ => nomatch hk
  | .ori _, hk, _ => nomatch hk
  | .xori _, hk, _ => nomatch hk
  | .shli _, hk, _ => nomatch hk
  | .shri _, hk, _ => nomatch hk
  | .srai _, hk, _ => nomatch hk
  | .movi _, hk, _ => nomatch hk
  | .movhi _, hk, _ => nomatch hk
  | .mul _, hk, _ => nomatch hk
  | .mulhs _, hk, _ => nomatch hk
  | .mulhu _, hk, _ => nomatch hk
  | .divs _, hk, _ => nomatch hk
  | .divu _, hk, _ => nomatch hk
  | .rems _, hk, _ => nomatch hk
  | .remu _, hk, _ => nomatch hk
  | .clz _, hk, _ => nomatch hk
  | .ctz _, hk, _ => nomatch hk
  | .popc _, hk, _ => nomatch hk
  | .sextb _, hk, _ => nomatch hk
  | .sexth _, hk, _ => nomatch hk
  | .sextw _, hk, _ => nomatch hk
  | .zextb _, hk, _ => nomatch hk
  | .zexth _, hk, _ => nomatch hk
  | .zextw _, hk, _ => nomatch hk
  | .sel _, hk, _ => nomatch hk
  | .cmp _, hk, _ => nomatch hk
  | .cmpi _, hk, _ => nomatch hk
  | .pand _, hk, _ => nomatch hk
  | .por _, hk, _ => nomatch hk
  | .pxor _, hk, _ => nomatch hk
  | .pandn _, hk, _ => nomatch hk
  | .movp _, hk, _ => nomatch hk
  | .movps _, hk, _ => nomatch hk
  | .movsr _, hk, _ => nomatch hk
  | .movrs _ _, hk, _ => nomatch hk
  | .fpstatWrite _, hk, _ => nomatch hk
  | .cirWrite _, hk, _ => nomatch hk
  | .febudgetWrite _, hk, _ => nomatch hk
  | .defprofileWrite _, hk, _ => nomatch hk
  | .argWrite _ _, hk, _ => nomatch hk
  | .qposWrite _ _, hk, _ => nomatch hk
  | .chke _, hk, _ => nomatch hk
  | .sfadd _, hk, _ => nomatch hk
  | .sfsub _, hk, _ => nomatch hk
  | .sfmul _, hk, _ => nomatch hk
  | .sfmin _, hk, _ => nomatch hk
  | .sfmax _, hk, _ => nomatch hk
  | .sfcvtif _, hk, _ => nomatch hk
  | .sfcvtfi _, hk, _ => nomatch hk
  | .mnop, hk, _ => nomatch hk
  | .trans _, hk, _ => nomatch hk
  | .hinv _, hk, _ => nomatch hk
  | .hrd _, hk, _ => nomatch hk
  | .ldB _, hk, _ => nomatch hk
  | .ldH _, hk, _ => nomatch hk
  | .ldW _, hk, _ => nomatch hk
  | .ldD _, hk, _ => nomatch hk
  | .ldSb _, hk, _ => nomatch hk
  | .ldSh _, hk, _ => nomatch hk
  | .ldSw _, hk, _ => nomatch hk
  | .stB _, hk, _ => nomatch hk
  | .stH _, hk, _ => nomatch hk
  | .stW _, hk, _ => nomatch hk
  | .stD _, hk, _ => nomatch hk
  | .ldwaitD _, hk, _ => nomatch hk
  | .ldtakeD _, hk, _ => nomatch hk
  | .stfillD _, hk, _ => nomatch hk
  | .feset _, hk, _ => nomatch hk
  | .feget _, hk, _ => nomatch hk
  | .feRetryAttempt _, hk, _ => nomatch hk
  | .feBudget _, hk, _ => nomatch hk
  | .vldW _, hk, _ => nomatch hk
  | .vstW _, hk, _ => nomatch hk
  | .vldH _, hk, _ => nomatch hk
  | .vstH _, hk, _ => nomatch hk
  | .spldW _, hk, _ => nomatch hk
  | .spldD _, hk, _ => nomatch hk
  | .spstW _, hk, _ => nomatch hk
  | .spstD _, hk, _ => nomatch hk
  | .repairEntryWrite _ _ _, hk, _ => nomatch hk
  | .vspld _, hk, _ => nomatch hk
  | .vspst _, hk, _ => nomatch hk
  | .vspg _, hk, _ => nomatch hk
  | .vsps _, hk, _ => nomatch hk
  | .lpld _, hk, _ => nomatch hk
  | .lpst _, hk, _ => nomatch hk
  | .sptakeD _, hk, _ => nomatch hk
  | .spfillD _, hk, _ => nomatch hk
  | .aadd _, hk, _ => nomatch hk
  | .amin _, hk, _ => nomatch hk
  | .amax _, hk, _ => nomatch hk
  | .aminu _, hk, _ => nomatch hk
  | .amaxu _, hk, _ => nomatch hk
  | .aand _, hk, _ => nomatch hk
  | .aor _, hk, _ => nomatch hk
  | .axor _, hk, _ => nomatch hk
  | .aswp _, hk, _ => nomatch hk
  | .acas _, hk, _ => nomatch hk
  | .cadd _, hk, _ => nomatch hk
  | .cwait _, hk, _ => nomatch hk
  | .crd _, hk, _ => nomatch hk
  | .fence _, hk, _ => nomatch hk
  | .fenceSt _, hk, _ => nomatch hk
  | .fenceLd _, hk, _ => nomatch hk
  | .setq _, hk, _ => nomatch hk
  | .pref _, hk, _ => nomatch hk
  | .streamReadAhead _ _ _, hk, _ => nomatch hk
  | .streamOutputWrite _ _ _, hk, _ => nomatch hk
  | .routineNop _, hk, _ => nomatch hk
  | .routineSlot _ _, hk, _ => nomatch hk
  | .oclaim _, hk, _ => nomatch hk
  | .ofree _, hk, _ => nomatch hk
  | .olda _, hk, _ => nomatch hk
  | .oldb _, hk, _ => nomatch hk
  | .aclaim _, hk, _ => nomatch hk
  | .afree _, hk, _ => nomatch hk
  | .azero _, hk, _ => nomatch hk
  | .mma _, hk, _ => nomatch hk
  | .anorm _, hk, _ => nomatch hk
  | .asto _, hk, _ => nomatch hk
  | .arow _, hk, _ => nomatch hk
  | .bfpq _, hk, _ => nomatch hk
  | .bdot4 _, hk, _ => nomatch hk
  | .tlsc2 _, hk, _ => nomatch hk
  | .exp2 _, hk, _ => nomatch hk
  | .expe _, hk, _ => nomatch hk
  | .log2 _, hk, _ => nomatch hk
  | .loge _, hk, _ => nomatch hk
  | .rcp _, hk, _ => nomatch hk
  | .rsqrt _, hk, _ => nomatch hk
  | .sqrt _, hk, _ => nomatch hk
  | .tanh _, hk, _ => nomatch hk
  | .sigm _, hk, _ => nomatch hk
  | .silu _, hk, _ => nomatch hk
  | .gelu _, hk, _ => nomatch hk
  | .divf _, hk, _ => nomatch hk
  | .rmax _, hk, _ => nomatch hk
  | .rsum _, hk, _ => nomatch hk
  | .smxupd _, hk, _ => nomatch hk
  | .smxfin _, hk, _ => nomatch hk
  | .rmsn _, hk, _ => nomatch hk
  | .lnrm _, hk, _ => nomatch hk
  | .cpy _, hk, _ => nomatch hk
  | .cpyred _, hk, _ => nomatch hk
  | .tstload _, hk, _ => nomatch hk
  | .btswap _, hk, _ => nomatch hk
  | .btfence _, hk, _ => nomatch hk
  | .cbreg _, hk, _ => nomatch hk
  | .cbput _, hk, _ => nomatch hk
  | .cbstat _, hk, _ => nomatch hk
  | .jexp _, hk, _ => nomatch hk
  | .jdone _, hk, _ => nomatch hk
  | .ringadv _, hk, _ => nomatch hk
  | .matrixQueuePerform _ _, hk, _ => nomatch hk
  | .functionQueuePerform _, hk, _ => nomatch hk
  | .copyQueuePerform _, hk, _ => nomatch hk
  | .cpyredAdmit _ _ _, hk, _ => nomatch hk
  | .jobQueuePerform _, hk, _ => nomatch hk
  | .tokenRelease _ _, hk, _ => nomatch hk
  | .combineTimeout _ _, hk, _ => nomatch hk
  | .ringTimerExpiry _, hk, _ => nomatch hk
  | .drainPointStop _, hk, _ => nomatch hk
  | .forcedStop _, hk, _ => nomatch hk
  | .preemptStopTimeout _, hk, _ => nomatch hk
  | .contextSaveDone _, hk, _ => nomatch hk
  | .contextRestore _, hk, _ => nomatch hk
  | .herdRetire _, hk, _ => nomatch hk
  | .nodeCommit _ _, hk, _ => nomatch hk
  | .stagingExhausted _, hk, _ => nomatch hk
  | .nodeFire _ _, hk, _ => nomatch hk
  | .nodePlace _, hk, _ => nomatch hk
  | .copyNodeRun _ _, hk, _ => nomatch hk
  | .counterNodeRun _ _, hk, _ => nomatch hk
  | .conditionalNodeRun _ _, hk, _ => nomatch hk
  | .descriptorArm _ _ _, hk, _ => nomatch hk
  | .descriptorDisarm _ _, hk, _ => nomatch hk
  | .runtimeRelease _ _, hk, _ => nomatch hk
  | .regenFault _, hk, _ => nomatch hk
  | .trapRecordTake _, hk, _ => nomatch hk
  | .wakeServe _, hk, _ => nomatch hk
  | .handleRetranslate _, hk, _ => nomatch hk
  | .copyOnWrite _ _, hk, _ => nomatch hk
  | .translationInvalidate _ _ _ _ _, hk, _ => nomatch hk
  | .invalidateComplete _, hk, _ => nomatch hk
  | .counterAddWindow _ _ _, hk, _ => nomatch hk
  | .hostMemoryAccess _ _, hk, _ => nomatch hk
  | .requestSlotSubmit _ _ _, hk, _ => nomatch hk
  | .loadRequest _, hk, _ => nomatch hk
  | .unloadRequest _, hk, _ => nomatch hk
  | .stopRequest _, hk, _ => nomatch hk
  | .restoreRequest _, hk, _ => nomatch hk
  | .msixTableWrite _ _, hk, _ => nomatch hk
  | .managementWriteOther _ _, hk, _ => nomatch hk
  | .partitionRequest _, hk, _ => nomatch hk
  | .routeTableLoad _, hk, _ => nomatch hk
  | .fabricRequest _ _ _, hk, _ => nomatch hk
  | .linkCrcRetry _, hk, _ => nomatch hk
  | .linkFail _, hk, _ => nomatch hk
  | .cxlLinkFail _, hk, _ => nomatch hk
  | .uncorrectedError _, hk, _ => nomatch hk
  | .correctedError _, hk, _ => nomatch hk
  | .scrubRead _ _, hk, _ => nomatch hk
  | .checkedMismatch _ _, hk, _ => nomatch hk
  | .markhorPairMismatch _ _, hk, _ => nomatch hk
  | .wearUpdate _ _ _, hk, _ => nomatch hk
  | .powerCapChange _, hk, _ => nomatch hk
  | .measurementReport, hk, _ => nomatch hk
  | .reset _, hk, _ => nomatch hk
  | .combineQueuePerform _, hk, _ => nomatch hk
  | .runtimeResumeRequest _ _, hk, _ => nomatch hk

/-- The memory slot: an operation with sound fields has a word, and the slot reads the operation from it. -/
theorem memory_slot : ∀ i : Instr, i.kind = .memory → i.fieldsOk = true → ∃ w, slotWord i = some w ∧ decodeMemory w = .ok i
  | .mnop, _, hf => ⟨_, rfl, decodeMemory_of _ _ (read_mnop) rfl hf⟩
  | .trans _, _, hf => ⟨_, rfl, decodeMemory_of _ _ (read_trans _) rfl hf⟩
  | .hinv _, _, hf => ⟨_, rfl, decodeMemory_of _ _ (read_hinv _) rfl hf⟩
  | .hrd _, _, hf => ⟨_, rfl, decodeMemory_of _ _ (read_hrd _) rfl hf⟩
  | .ldB _, _, hf => ⟨_, rfl, decodeMemory_of _ _ (read_ldB _) rfl hf⟩
  | .ldH _, _, hf => ⟨_, rfl, decodeMemory_of _ _ (read_ldH _) rfl hf⟩
  | .ldW _, _, hf => ⟨_, rfl, decodeMemory_of _ _ (read_ldW _) rfl hf⟩
  | .ldD _, _, hf => ⟨_, rfl, decodeMemory_of _ _ (read_ldD _) rfl hf⟩
  | .ldSb _, _, hf => ⟨_, rfl, decodeMemory_of _ _ (read_ldSb _) rfl hf⟩
  | .ldSh _, _, hf => ⟨_, rfl, decodeMemory_of _ _ (read_ldSh _) rfl hf⟩
  | .ldSw _, _, hf => ⟨_, rfl, decodeMemory_of _ _ (read_ldSw _) rfl hf⟩
  | .stB _, _, hf => ⟨_, rfl, decodeMemory_of _ _ (read_stB _) rfl hf⟩
  | .stH _, _, hf => ⟨_, rfl, decodeMemory_of _ _ (read_stH _) rfl hf⟩
  | .stW _, _, hf => ⟨_, rfl, decodeMemory_of _ _ (read_stW _) rfl hf⟩
  | .stD _, _, hf => ⟨_, rfl, decodeMemory_of _ _ (read_stD _) rfl hf⟩
  | .ldwaitD _, _, hf => ⟨_, rfl, decodeMemory_of _ _ (read_ldwaitD _) rfl hf⟩
  | .ldtakeD _, _, hf => ⟨_, rfl, decodeMemory_of _ _ (read_ldtakeD _) rfl hf⟩
  | .stfillD _, _, hf => ⟨_, rfl, decodeMemory_of _ _ (read_stfillD _) rfl hf⟩
  | .feset _, _, hf => ⟨_, rfl, decodeMemory_of _ _ (read_feset _) rfl hf⟩
  | .feget _, _, hf => ⟨_, rfl, decodeMemory_of _ _ (read_feget _) rfl hf⟩
  | .vldW _, _, hf => ⟨_, rfl, decodeMemory_of _ _ (read_vldW _) rfl hf⟩
  | .vstW _, _, hf => ⟨_, rfl, decodeMemory_of _ _ (read_vstW _) rfl hf⟩
  | .vldH _, _, hf => ⟨_, rfl, decodeMemory_of _ _ (read_vldH _) rfl hf⟩
  | .vstH _, _, hf => ⟨_, rfl, decodeMemory_of _ _ (read_vstH _) rfl hf⟩
  | .spldW _, _, hf => ⟨_, rfl, decodeMemory_of _ _ (read_spldW _) rfl hf⟩
  | .spldD _, _, hf => ⟨_, rfl, decodeMemory_of _ _ (read_spldD _) rfl hf⟩
  | .spstW _, _, hf => ⟨_, rfl, decodeMemory_of _ _ (read_spstW _) rfl hf⟩
  | .spstD _, _, hf => ⟨_, rfl, decodeMemory_of _ _ (read_spstD _) rfl hf⟩
  | .vspld _, _, hf => ⟨_, rfl, decodeMemory_of _ _ (read_vspld _) rfl hf⟩
  | .vspst _, _, hf => ⟨_, rfl, decodeMemory_of _ _ (read_vspst _) rfl hf⟩
  | .vspg _, _, hf => ⟨_, rfl, decodeMemory_of _ _ (read_vspg _) rfl hf⟩
  | .vsps _, _, hf => ⟨_, rfl, decodeMemory_of _ _ (read_vsps _) rfl hf⟩
  | .lpld _, _, hf => ⟨_, rfl, decodeMemory_of _ _ (read_lpld _) rfl hf⟩
  | .lpst _, _, hf => ⟨_, rfl, decodeMemory_of _ _ (read_lpst _) rfl hf⟩
  | .sptakeD _, _, hf => ⟨_, rfl, decodeMemory_of _ _ (read_sptakeD _) rfl hf⟩
  | .spfillD _, _, hf => ⟨_, rfl, decodeMemory_of _ _ (read_spfillD _) rfl hf⟩
  | .aadd _, _, hf => ⟨_, rfl, decodeMemory_of _ _ (read_aadd _) rfl hf⟩
  | .amin _, _, hf => ⟨_, rfl, decodeMemory_of _ _ (read_amin _) rfl hf⟩
  | .amax _, _, hf => ⟨_, rfl, decodeMemory_of _ _ (read_amax _) rfl hf⟩
  | .aminu _, _, hf => ⟨_, rfl, decodeMemory_of _ _ (read_aminu _) rfl hf⟩
  | .amaxu _, _, hf => ⟨_, rfl, decodeMemory_of _ _ (read_amaxu _) rfl hf⟩
  | .aand _, _, hf => ⟨_, rfl, decodeMemory_of _ _ (read_aand _) rfl hf⟩
  | .aor _, _, hf => ⟨_, rfl, decodeMemory_of _ _ (read_aor _) rfl hf⟩
  | .axor _, _, hf => ⟨_, rfl, decodeMemory_of _ _ (read_axor _) rfl hf⟩
  | .aswp _, _, hf => ⟨_, rfl, decodeMemory_of _ _ (read_aswp _) rfl hf⟩
  | .acas _, _, hf => ⟨_, rfl, decodeMemory_of _ _ (read_acas _) rfl hf⟩
  | .cadd _, _, hf => ⟨_, rfl, decodeMemory_of _ _ (read_cadd _) rfl hf⟩
  | .cwait _, _, hf => ⟨_, rfl, decodeMemory_of _ _ (read_cwait _) rfl hf⟩
  | .crd _, _, hf => ⟨_, rfl, decodeMemory_of _ _ (read_crd _) rfl hf⟩
  | .fence _, _, hf => ⟨_, rfl, decodeMemory_of _ _ (read_fence _) rfl hf⟩
  | .fenceSt _, _, hf => ⟨_, rfl, decodeMemory_of _ _ (read_fenceSt _) rfl hf⟩
  | .fenceLd _, _, hf => ⟨_, rfl, decodeMemory_of _ _ (read_fenceLd _) rfl hf⟩
  | .setq _, _, hf => ⟨_, rfl, decodeMemory_of _ _ (read_setq _) rfl hf⟩
  | .pref _, _, hf => ⟨_, rfl, decodeMemory_of _ _ (read_pref _) rfl hf⟩
  | .bundleIssue _ _ _ _ _ _ _, hk, _ => nomatch hk
  | .lateResultLand _, hk, _ => nomatch hk
  | .overlayLoad _, hk, _ => nomatch hk
  | .engineWaitEnd _, hk, _ => nomatch hk
  | .contextSelect _, hk, _ => nomatch hk
  | .ctrlNop _, hk, _ => nomatch hk
  | .br _ _, hk, _ => nomatch hk
  | .brr _ _, hk, _ => nomatch hk
  | .call _ _, hk, _ => nomatch hk
  | .callr _ _, hk, _ => nomatch hk
  | .ret _, hk, _ => nomatch hk
  | .loopt _ _ _, hk, _ => nomatch hk
  | .loopn _ _ _ _, hk, _ => nomatch hk
  | .lexit _ _, hk, _ => nomatch hk
  | .trap _ _, hk, _ => nomatch hk
  | .yield _, hk, _ => nomatch hk
  | .waite _ _, hk, _ => nomatch hk
  | .eret _, hk, _ => nomatch hk
  | .resume _ _, hk, _ => nomatch hk
  | .snop, hk, _ => nomatch hk
  | .add _, hk, _ => nomatch hk
  | .sub _, hk, _ => nomatch hk
  | .and _, hk, _ => nomatch hk
  | .or _, hk, _ => nomatch hk
  | .xor _, hk, _ => nomatch hk
  | .shl _, hk, _ => nomatch hk
  | .shr _, hk, _ => nomatch hk
  | .sra _, hk, _ => nomatch hk
  | .min _, hk, _ => nomatch hk
  | .max _, hk, _ => nomatch hk
  | .minu _, hk, _ => nomatch hk
  | .maxu _, hk, _ => nomatch hk
  | .rotl _, hk, _ => nomatch hk
  | .addi _, hk, _ => nomatch hk
  | .andi _, hk, _ => nomatch hk
  | .ori _, hk, _ => nomatch hk
  | .xori _, hk, _ => nomatch hk
  | .shli _, hk, _ => nomatch hk
  | .shri _, hk, _ => nomatch hk
  | .srai _, hk, _ => nomatch hk
  | .movi _, hk, _ => nomatch hk
  | .movhi _, hk, _ => nomatch hk
  | .mul _, hk, _ => nomatch hk
  | .mulhs _, hk, _ => nomatch hk
  | .mulhu _, hk, _ => nomatch hk
  | .divs _, hk, _ => nomatch hk
  | .divu _, hk, _ => nomatch hk
  | .rems _, hk, _ => nomatch hk
  | .remu _, hk, _ => nomatch hk
  | .clz _, hk, _ => nomatch hk
  | .ctz _, hk, _ => nomatch hk
  | .popc _, hk, _ => nomatch hk
  | .sextb _, hk, _ => nomatch hk
  | .sexth _, hk, _ => nomatch hk
  | .sextw _, hk, _ => nomatch hk
  | .zextb _, hk, _ => nomatch hk
  | .zexth _, hk, _ => nomatch hk
  | .zextw _, hk, _ => nomatch hk
  | .sel _, hk, _ => nomatch hk
  | .cmp _, hk, _ => nomatch hk
  | .cmpi _, hk, _ => nomatch hk
  | .pand _, hk, _ => nomatch hk
  | .por _, hk, _ => nomatch hk
  | .pxor _, hk, _ => nomatch hk
  | .pandn _, hk, _ => nomatch hk
  | .movp _, hk, _ => nomatch hk
  | .movps _, hk, _ => nomatch hk
  | .movsr _, hk, _ => nomatch hk
  | .movrs _ _, hk, _ => nomatch hk
  | .fpstatWrite _, hk, _ => nomatch hk
  | .cirWrite _, hk, _ => nomatch hk
  | .febudgetWrite _, hk, _ => nomatch hk
  | .defprofileWrite _, hk, _ => nomatch hk
  | .argWrite _ _, hk, _ => nomatch hk
  | .qposWrite _ _, hk, _ => nomatch hk
  | .chke _, hk, _ => nomatch hk
  | .sfadd _, hk, _ => nomatch hk
  | .sfsub _, hk, _ => nomatch hk
  | .sfmul _, hk, _ => nomatch hk
  | .sfmin _, hk, _ => nomatch hk
  | .sfmax _, hk, _ => nomatch hk
  | .sfcvtif _, hk, _ => nomatch hk
  | .sfcvtfi _, hk, _ => nomatch hk
  | .vnop, hk, _ => nomatch hk
  | .fadd _, hk, _ => nomatch hk
  | .fsub _, hk, _ => nomatch hk
  | .fmul _, hk, _ => nomatch hk
  | .ffma _, hk, _ => nomatch hk
  | .ffms _, hk, _ => nomatch hk
  | .fnma _, hk, _ => nomatch hk
  | .fmin _, hk, _ => nomatch hk
  | .fmax _, hk, _ => nomatch hk
  | .fabs _, hk, _ => nomatch hk
  | .fneg _, hk, _ => nomatch hk
  | .fcmp _, hk, _ => nomatch hk
  | .fcvti _, hk, _ => nomatch hk
  | .icvtf _, hk, _ => nomatch hk
  | .bfpk _, hk, _ => nomatch hk
  | .bfup _, hk, _ => nomatch hk
  | .iadd _, hk, _ => nomatch hk
  | .isub _, hk, _ => nomatch hk
  | .imul _, hk, _ => nomatch hk
  | .imulh _, hk, _ => nomatch hk
  | .iand _, hk, _ => nomatch hk
  | .ior _, hk, _ => nomatch hk
  | .ixor _, hk, _ => nomatch hk
  | .ishl _, hk, _ => nomatch hk
  | .ishr _, hk, _ => nomatch hk
  | .isra _, hk, _ => nomatch hk
  | .imin _, hk, _ => nomatch hk
  | .imax _, hk, _ => nomatch hk
  | .iminu _, hk, _ => nomatch hk
  | .imaxu _, hk, _ => nomatch hk
  | .icmp _, hk, _ => nomatch hk
  | .vsel _, hk, _ => nomatch hk
  | .vmov _, hk, _ => nomatch hk
  | .vbcst _, hk, _ => nomatch hk
  | .vperm _, hk, _ => nomatch hk
  | .vrot _, hk, _ => nomatch hk
  | .viota _, hk, _ => nomatch hk
  | .vext _, hk, _ => nomatch hk
  | .vins _, hk, _ => nomatch hk
  | .frsum _, hk, _ => nomatch hk
  | .frmax _, hk, _ => nomatch hk
  | .frmin _, hk, _ => nomatch hk
  | .irsum _, hk, _ => nomatch hk
  | .irmax _, hk, _ => nomatch hk
  | .irmin _, hk, _ => nomatch hk
  | .kand _, hk, _ => nomatch hk
  | .kor _, hk, _ => nomatch hk
  | .kxor _, hk, _ => nomatch hk
  | .kandn _, hk, _ => nomatch hk
  | .kpopc _, hk, _ => nomatch hk
  | .kfromv _, hk, _ => nomatch hk
  | .feRetryAttempt _, hk, _ => nomatch hk
  | .feBudget _, hk, _ => nomatch hk
  | .repairEntryWrite _ _ _, hk, _ => nomatch hk
  | .streamReadAhead _ _ _, hk, _ => nomatch hk
  | .streamOutputWrite _ _ _, hk, _ => nomatch hk
  | .routineNop _, hk, _ => nomatch hk
  | .routineSlot _ _, hk, _ => nomatch hk
  | .oclaim _, hk, _ => nomatch hk
  | .ofree _, hk, _ => nomatch hk
  | .olda _, hk, _ => nomatch hk
  | .oldb _, hk, _ => nomatch hk
  | .aclaim _, hk, _ => nomatch hk
  | .afree _, hk, _ => nomatch hk
  | .azero _, hk, _ => nomatch hk
  | .mma _, hk, _ => nomatch hk
  | .anorm _, hk, _ => nomatch hk
  | .asto _, hk, _ => nomatch hk
  | .arow _, hk, _ => nomatch hk
  | .bfpq _, hk, _ => nomatch hk
  | .bdot4 _, hk, _ => nomatch hk
  | .tlsc2 _, hk, _ => nomatch hk
  | .exp2 _, hk, _ => nomatch hk
  | .expe _, hk, _ => nomatch hk
  | .log2 _, hk, _ => nomatch hk
  | .loge _, hk, _ => nomatch hk
  | .rcp _, hk, _ => nomatch hk
  | .rsqrt _, hk, _ => nomatch hk
  | .sqrt _, hk, _ => nomatch hk
  | .tanh _, hk, _ => nomatch hk
  | .sigm _, hk, _ => nomatch hk
  | .silu _, hk, _ => nomatch hk
  | .gelu _, hk, _ => nomatch hk
  | .divf _, hk, _ => nomatch hk
  | .rmax _, hk, _ => nomatch hk
  | .rsum _, hk, _ => nomatch hk
  | .smxupd _, hk, _ => nomatch hk
  | .smxfin _, hk, _ => nomatch hk
  | .rmsn _, hk, _ => nomatch hk
  | .lnrm _, hk, _ => nomatch hk
  | .cpy _, hk, _ => nomatch hk
  | .cpyred _, hk, _ => nomatch hk
  | .tstload _, hk, _ => nomatch hk
  | .btswap _, hk, _ => nomatch hk
  | .btfence _, hk, _ => nomatch hk
  | .cbreg _, hk, _ => nomatch hk
  | .cbput _, hk, _ => nomatch hk
  | .cbstat _, hk, _ => nomatch hk
  | .jexp _, hk, _ => nomatch hk
  | .jdone _, hk, _ => nomatch hk
  | .ringadv _, hk, _ => nomatch hk
  | .matrixQueuePerform _ _, hk, _ => nomatch hk
  | .functionQueuePerform _, hk, _ => nomatch hk
  | .copyQueuePerform _, hk, _ => nomatch hk
  | .cpyredAdmit _ _ _, hk, _ => nomatch hk
  | .jobQueuePerform _, hk, _ => nomatch hk
  | .tokenRelease _ _, hk, _ => nomatch hk
  | .combineTimeout _ _, hk, _ => nomatch hk
  | .ringTimerExpiry _, hk, _ => nomatch hk
  | .drainPointStop _, hk, _ => nomatch hk
  | .forcedStop _, hk, _ => nomatch hk
  | .preemptStopTimeout _, hk, _ => nomatch hk
  | .contextSaveDone _, hk, _ => nomatch hk
  | .contextRestore _, hk, _ => nomatch hk
  | .herdRetire _, hk, _ => nomatch hk
  | .nodeCommit _ _, hk, _ => nomatch hk
  | .stagingExhausted _, hk, _ => nomatch hk
  | .nodeFire _ _, hk, _ => nomatch hk
  | .nodePlace _, hk, _ => nomatch hk
  | .copyNodeRun _ _, hk, _ => nomatch hk
  | .counterNodeRun _ _, hk, _ => nomatch hk
  | .conditionalNodeRun _ _, hk, _ => nomatch hk
  | .descriptorArm _ _ _, hk, _ => nomatch hk
  | .descriptorDisarm _ _, hk, _ => nomatch hk
  | .runtimeRelease _ _, hk, _ => nomatch hk
  | .regenFault _, hk, _ => nomatch hk
  | .trapRecordTake _, hk, _ => nomatch hk
  | .wakeServe _, hk, _ => nomatch hk
  | .handleRetranslate _, hk, _ => nomatch hk
  | .copyOnWrite _ _, hk, _ => nomatch hk
  | .translationInvalidate _ _ _ _ _, hk, _ => nomatch hk
  | .invalidateComplete _, hk, _ => nomatch hk
  | .counterAddWindow _ _ _, hk, _ => nomatch hk
  | .hostMemoryAccess _ _, hk, _ => nomatch hk
  | .requestSlotSubmit _ _ _, hk, _ => nomatch hk
  | .loadRequest _, hk, _ => nomatch hk
  | .unloadRequest _, hk, _ => nomatch hk
  | .stopRequest _, hk, _ => nomatch hk
  | .restoreRequest _, hk, _ => nomatch hk
  | .msixTableWrite _ _, hk, _ => nomatch hk
  | .managementWriteOther _ _, hk, _ => nomatch hk
  | .partitionRequest _, hk, _ => nomatch hk
  | .routeTableLoad _, hk, _ => nomatch hk
  | .fabricRequest _ _ _, hk, _ => nomatch hk
  | .linkCrcRetry _, hk, _ => nomatch hk
  | .linkFail _, hk, _ => nomatch hk
  | .cxlLinkFail _, hk, _ => nomatch hk
  | .uncorrectedError _, hk, _ => nomatch hk
  | .correctedError _, hk, _ => nomatch hk
  | .scrubRead _ _, hk, _ => nomatch hk
  | .checkedMismatch _ _, hk, _ => nomatch hk
  | .markhorPairMismatch _ _, hk, _ => nomatch hk
  | .wearUpdate _ _ _, hk, _ => nomatch hk
  | .powerCapChange _, hk, _ => nomatch hk
  | .measurementReport, hk, _ => nomatch hk
  | .reset _, hk, _ => nomatch hk
  | .combineQueuePerform _, hk, _ => nomatch hk
  | .runtimeResumeRequest _ _, hk, _ => nomatch hk

/-- The routine slot: an operation with sound fields has a word, and the slot reads the operation from it. -/
theorem routine_slot : ∀ i : Instr, i.kind = .routine → i.fieldsOk = true → ∃ w, slotWord i = some w ∧ decodeRoutine w = .ok i
  | .routineNop _, _, _ => ⟨_, rfl, read_routineNop _⟩
  | .routineSlot _ _, _, hf => ⟨_, rfl, read_routineSlot _ _ (of_decide_eq_true hf)⟩
  | .oclaim _, _, _ => ⟨_, rfl, read_oclaim _⟩
  | .ofree _, _, _ => ⟨_, rfl, read_ofree _⟩
  | .olda _, _, _ => ⟨_, rfl, read_olda _⟩
  | .oldb _, _, _ => ⟨_, rfl, read_oldb _⟩
  | .aclaim _, _, _ => ⟨_, rfl, read_aclaim _⟩
  | .afree _, _, _ => ⟨_, rfl, read_afree _⟩
  | .azero _, _, _ => ⟨_, rfl, read_azero _⟩
  | .mma _, _, _ => ⟨_, rfl, read_mma _⟩
  | .anorm _, _, _ => ⟨_, rfl, read_anorm _⟩
  | .asto _, _, _ => ⟨_, rfl, read_asto _⟩
  | .arow _, _, _ => ⟨_, rfl, read_arow _⟩
  | .bfpq _, _, _ => ⟨_, rfl, read_bfpq _⟩
  | .bdot4 _, _, _ => ⟨_, rfl, read_bdot4 _⟩
  | .tlsc2 _, _, _ => ⟨_, rfl, read_tlsc2 _⟩
  | .exp2 _, _, _ => ⟨_, rfl, read_exp2 _⟩
  | .expe _, _, _ => ⟨_, rfl, read_expe _⟩
  | .log2 _, _, _ => ⟨_, rfl, read_log2 _⟩
  | .loge _, _, _ => ⟨_, rfl, read_loge _⟩
  | .rcp _, _, _ => ⟨_, rfl, read_rcp _⟩
  | .rsqrt _, _, _ => ⟨_, rfl, read_rsqrt _⟩
  | .sqrt _, _, _ => ⟨_, rfl, read_sqrt _⟩
  | .tanh _, _, _ => ⟨_, rfl, read_tanh _⟩
  | .sigm _, _, _ => ⟨_, rfl, read_sigm _⟩
  | .silu _, _, _ => ⟨_, rfl, read_silu _⟩
  | .gelu _, _, _ => ⟨_, rfl, read_gelu _⟩
  | .divf _, _, _ => ⟨_, rfl, read_divf _⟩
  | .rmax _, _, _ => ⟨_, rfl, read_rmax _⟩
  | .rsum _, _, _ => ⟨_, rfl, read_rsum _⟩
  | .smxupd _, _, _ => ⟨_, rfl, read_smxupd _⟩
  | .smxfin _, _, _ => ⟨_, rfl, read_smxfin _⟩
  | .rmsn _, _, _ => ⟨_, rfl, read_rmsn _⟩
  | .lnrm _, _, _ => ⟨_, rfl, read_lnrm _⟩
  | .cpy _, _, _ => ⟨_, rfl, read_cpy _⟩
  | .cpyred _, _, _ => ⟨_, rfl, read_cpyred _⟩
  | .tstload _, _, _ => ⟨_, rfl, read_tstload _⟩
  | .btswap _, _, _ => ⟨_, rfl, read_btswap _⟩
  | .btfence _, _, _ => ⟨_, rfl, read_btfence _⟩
  | .cbreg _, _, _ => ⟨_, rfl, read_cbreg _⟩
  | .cbput _, _, _ => ⟨_, rfl, read_cbput _⟩
  | .cbstat _, _, _ => ⟨_, rfl, read_cbstat _⟩
  | .jexp _, _, _ => ⟨_, rfl, read_jexp _⟩
  | .jdone _, _, _ => ⟨_, rfl, read_jdone _⟩
  | .ringadv _, _, _ => ⟨_, rfl, read_ringadv _⟩
  | .bundleIssue _ _ _ _ _ _ _, hk, _ => nomatch hk
  | .lateResultLand _, hk, _ => nomatch hk
  | .overlayLoad _, hk, _ => nomatch hk
  | .engineWaitEnd _, hk, _ => nomatch hk
  | .contextSelect _, hk, _ => nomatch hk
  | .ctrlNop _, hk, _ => nomatch hk
  | .br _ _, hk, _ => nomatch hk
  | .brr _ _, hk, _ => nomatch hk
  | .call _ _, hk, _ => nomatch hk
  | .callr _ _, hk, _ => nomatch hk
  | .ret _, hk, _ => nomatch hk
  | .loopt _ _ _, hk, _ => nomatch hk
  | .loopn _ _ _ _, hk, _ => nomatch hk
  | .lexit _ _, hk, _ => nomatch hk
  | .trap _ _, hk, _ => nomatch hk
  | .yield _, hk, _ => nomatch hk
  | .waite _ _, hk, _ => nomatch hk
  | .eret _, hk, _ => nomatch hk
  | .resume _ _, hk, _ => nomatch hk
  | .snop, hk, _ => nomatch hk
  | .add _, hk, _ => nomatch hk
  | .sub _, hk, _ => nomatch hk
  | .and _, hk, _ => nomatch hk
  | .or _, hk, _ => nomatch hk
  | .xor _, hk, _ => nomatch hk
  | .shl _, hk, _ => nomatch hk
  | .shr _, hk, _ => nomatch hk
  | .sra _, hk, _ => nomatch hk
  | .min _, hk, _ => nomatch hk
  | .max _, hk, _ => nomatch hk
  | .minu _, hk, _ => nomatch hk
  | .maxu _, hk, _ => nomatch hk
  | .rotl _, hk, _ => nomatch hk
  | .addi _, hk, _ => nomatch hk
  | .andi _, hk, _ => nomatch hk
  | .ori _, hk, _ => nomatch hk
  | .xori _, hk, _ => nomatch hk
  | .shli _, hk, _ => nomatch hk
  | .shri _, hk, _ => nomatch hk
  | .srai _, hk, _ => nomatch hk
  | .movi _, hk, _ => nomatch hk
  | .movhi _, hk, _ => nomatch hk
  | .mul _, hk, _ => nomatch hk
  | .mulhs _, hk, _ => nomatch hk
  | .mulhu _, hk, _ => nomatch hk
  | .divs _, hk, _ => nomatch hk
  | .divu _, hk, _ => nomatch hk
  | .rems _, hk, _ => nomatch hk
  | .remu _, hk, _ => nomatch hk
  | .clz _, hk, _ => nomatch hk
  | .ctz _, hk, _ => nomatch hk
  | .popc _, hk, _ => nomatch hk
  | .sextb _, hk, _ => nomatch hk
  | .sexth _, hk, _ => nomatch hk
  | .sextw _, hk, _ => nomatch hk
  | .zextb _, hk, _ => nomatch hk
  | .zexth _, hk, _ => nomatch hk
  | .zextw _, hk, _ => nomatch hk
  | .sel _, hk, _ => nomatch hk
  | .cmp _, hk, _ => nomatch hk
  | .cmpi _, hk, _ => nomatch hk
  | .pand _, hk, _ => nomatch hk
  | .por _, hk, _ => nomatch hk
  | .pxor _, hk, _ => nomatch hk
  | .pandn _, hk, _ => nomatch hk
  | .movp _, hk, _ => nomatch hk
  | .movps _, hk, _ => nomatch hk
  | .movsr _, hk, _ => nomatch hk
  | .movrs _ _, hk, _ => nomatch hk
  | .fpstatWrite _, hk, _ => nomatch hk
  | .cirWrite _, hk, _ => nomatch hk
  | .febudgetWrite _, hk, _ => nomatch hk
  | .defprofileWrite _, hk, _ => nomatch hk
  | .argWrite _ _, hk, _ => nomatch hk
  | .qposWrite _ _, hk, _ => nomatch hk
  | .chke _, hk, _ => nomatch hk
  | .sfadd _, hk, _ => nomatch hk
  | .sfsub _, hk, _ => nomatch hk
  | .sfmul _, hk, _ => nomatch hk
  | .sfmin _, hk, _ => nomatch hk
  | .sfmax _, hk, _ => nomatch hk
  | .sfcvtif _, hk, _ => nomatch hk
  | .sfcvtfi _, hk, _ => nomatch hk
  | .vnop, hk, _ => nomatch hk
  | .fadd _, hk, _ => nomatch hk
  | .fsub _, hk, _ => nomatch hk
  | .fmul _, hk, _ => nomatch hk
  | .ffma _, hk, _ => nomatch hk
  | .ffms _, hk, _ => nomatch hk
  | .fnma _, hk, _ => nomatch hk
  | .fmin _, hk, _ => nomatch hk
  | .fmax _, hk, _ => nomatch hk
  | .fabs _, hk, _ => nomatch hk
  | .fneg _, hk, _ => nomatch hk
  | .fcmp _, hk, _ => nomatch hk
  | .fcvti _, hk, _ => nomatch hk
  | .icvtf _, hk, _ => nomatch hk
  | .bfpk _, hk, _ => nomatch hk
  | .bfup _, hk, _ => nomatch hk
  | .iadd _, hk, _ => nomatch hk
  | .isub _, hk, _ => nomatch hk
  | .imul _, hk, _ => nomatch hk
  | .imulh _, hk, _ => nomatch hk
  | .iand _, hk, _ => nomatch hk
  | .ior _, hk, _ => nomatch hk
  | .ixor _, hk, _ => nomatch hk
  | .ishl _, hk, _ => nomatch hk
  | .ishr _, hk, _ => nomatch hk
  | .isra _, hk, _ => nomatch hk
  | .imin _, hk, _ => nomatch hk
  | .imax _, hk, _ => nomatch hk
  | .iminu _, hk, _ => nomatch hk
  | .imaxu _, hk, _ => nomatch hk
  | .icmp _, hk, _ => nomatch hk
  | .vsel _, hk, _ => nomatch hk
  | .vmov _, hk, _ => nomatch hk
  | .vbcst _, hk, _ => nomatch hk
  | .vperm _, hk, _ => nomatch hk
  | .vrot _, hk, _ => nomatch hk
  | .viota _, hk, _ => nomatch hk
  | .vext _, hk, _ => nomatch hk
  | .vins _, hk, _ => nomatch hk
  | .frsum _, hk, _ => nomatch hk
  | .frmax _, hk, _ => nomatch hk
  | .frmin _, hk, _ => nomatch hk
  | .irsum _, hk, _ => nomatch hk
  | .irmax _, hk, _ => nomatch hk
  | .irmin _, hk, _ => nomatch hk
  | .kand _, hk, _ => nomatch hk
  | .kor _, hk, _ => nomatch hk
  | .kxor _, hk, _ => nomatch hk
  | .kandn _, hk, _ => nomatch hk
  | .kpopc _, hk, _ => nomatch hk
  | .kfromv _, hk, _ => nomatch hk
  | .mnop, hk, _ => nomatch hk
  | .trans _, hk, _ => nomatch hk
  | .hinv _, hk, _ => nomatch hk
  | .hrd _, hk, _ => nomatch hk
  | .ldB _, hk, _ => nomatch hk
  | .ldH _, hk, _ => nomatch hk
  | .ldW _, hk, _ => nomatch hk
  | .ldD _, hk, _ => nomatch hk
  | .ldSb _, hk, _ => nomatch hk
  | .ldSh _, hk, _ => nomatch hk
  | .ldSw _, hk, _ => nomatch hk
  | .stB _, hk, _ => nomatch hk
  | .stH _, hk, _ => nomatch hk
  | .stW _, hk, _ => nomatch hk
  | .stD _, hk, _ => nomatch hk
  | .ldwaitD _, hk, _ => nomatch hk
  | .ldtakeD _, hk, _ => nomatch hk
  | .stfillD _, hk, _ => nomatch hk
  | .feset _, hk, _ => nomatch hk
  | .feget _, hk, _ => nomatch hk
  | .feRetryAttempt _, hk, _ => nomatch hk
  | .feBudget _, hk, _ => nomatch hk
  | .vldW _, hk, _ => nomatch hk
  | .vstW _, hk, _ => nomatch hk
  | .vldH _, hk, _ => nomatch hk
  | .vstH _, hk, _ => nomatch hk
  | .spldW _, hk, _ => nomatch hk
  | .spldD _, hk, _ => nomatch hk
  | .spstW _, hk, _ => nomatch hk
  | .spstD _, hk, _ => nomatch hk
  | .repairEntryWrite _ _ _, hk, _ => nomatch hk
  | .vspld _, hk, _ => nomatch hk
  | .vspst _, hk, _ => nomatch hk
  | .vspg _, hk, _ => nomatch hk
  | .vsps _, hk, _ => nomatch hk
  | .lpld _, hk, _ => nomatch hk
  | .lpst _, hk, _ => nomatch hk
  | .sptakeD _, hk, _ => nomatch hk
  | .spfillD _, hk, _ => nomatch hk
  | .aadd _, hk, _ => nomatch hk
  | .amin _, hk, _ => nomatch hk
  | .amax _, hk, _ => nomatch hk
  | .aminu _, hk, _ => nomatch hk
  | .amaxu _, hk, _ => nomatch hk
  | .aand _, hk, _ => nomatch hk
  | .aor _, hk, _ => nomatch hk
  | .axor _, hk, _ => nomatch hk
  | .aswp _, hk, _ => nomatch hk
  | .acas _, hk, _ => nomatch hk
  | .cadd _, hk, _ => nomatch hk
  | .cwait _, hk, _ => nomatch hk
  | .crd _, hk, _ => nomatch hk
  | .fence _, hk, _ => nomatch hk
  | .fenceSt _, hk, _ => nomatch hk
  | .fenceLd _, hk, _ => nomatch hk
  | .setq _, hk, _ => nomatch hk
  | .pref _, hk, _ => nomatch hk
  | .streamReadAhead _ _ _, hk, _ => nomatch hk
  | .streamOutputWrite _ _ _, hk, _ => nomatch hk
  | .matrixQueuePerform _ _, hk, _ => nomatch hk
  | .functionQueuePerform _, hk, _ => nomatch hk
  | .copyQueuePerform _, hk, _ => nomatch hk
  | .cpyredAdmit _ _ _, hk, _ => nomatch hk
  | .jobQueuePerform _, hk, _ => nomatch hk
  | .tokenRelease _ _, hk, _ => nomatch hk
  | .combineTimeout _ _, hk, _ => nomatch hk
  | .ringTimerExpiry _, hk, _ => nomatch hk
  | .drainPointStop _, hk, _ => nomatch hk
  | .forcedStop _, hk, _ => nomatch hk
  | .preemptStopTimeout _, hk, _ => nomatch hk
  | .contextSaveDone _, hk, _ => nomatch hk
  | .contextRestore _, hk, _ => nomatch hk
  | .herdRetire _, hk, _ => nomatch hk
  | .nodeCommit _ _, hk, _ => nomatch hk
  | .stagingExhausted _, hk, _ => nomatch hk
  | .nodeFire _ _, hk, _ => nomatch hk
  | .nodePlace _, hk, _ => nomatch hk
  | .copyNodeRun _ _, hk, _ => nomatch hk
  | .counterNodeRun _ _, hk, _ => nomatch hk
  | .conditionalNodeRun _ _, hk, _ => nomatch hk
  | .descriptorArm _ _ _, hk, _ => nomatch hk
  | .descriptorDisarm _ _, hk, _ => nomatch hk
  | .runtimeRelease _ _, hk, _ => nomatch hk
  | .regenFault _, hk, _ => nomatch hk
  | .trapRecordTake _, hk, _ => nomatch hk
  | .wakeServe _, hk, _ => nomatch hk
  | .handleRetranslate _, hk, _ => nomatch hk
  | .copyOnWrite _ _, hk, _ => nomatch hk
  | .translationInvalidate _ _ _ _ _, hk, _ => nomatch hk
  | .invalidateComplete _, hk, _ => nomatch hk
  | .counterAddWindow _ _ _, hk, _ => nomatch hk
  | .hostMemoryAccess _ _, hk, _ => nomatch hk
  | .requestSlotSubmit _ _ _, hk, _ => nomatch hk
  | .loadRequest _, hk, _ => nomatch hk
  | .unloadRequest _, hk, _ => nomatch hk
  | .stopRequest _, hk, _ => nomatch hk
  | .restoreRequest _, hk, _ => nomatch hk
  | .msixTableWrite _ _, hk, _ => nomatch hk
  | .managementWriteOther _ _, hk, _ => nomatch hk
  | .partitionRequest _, hk, _ => nomatch hk
  | .routeTableLoad _, hk, _ => nomatch hk
  | .fabricRequest _ _ _, hk, _ => nomatch hk
  | .linkCrcRetry _, hk, _ => nomatch hk
  | .linkFail _, hk, _ => nomatch hk
  | .cxlLinkFail _, hk, _ => nomatch hk
  | .uncorrectedError _, hk, _ => nomatch hk
  | .correctedError _, hk, _ => nomatch hk
  | .scrubRead _ _, hk, _ => nomatch hk
  | .checkedMismatch _ _, hk, _ => nomatch hk
  | .markhorPairMismatch _ _, hk, _ => nomatch hk
  | .wearUpdate _ _ _, hk, _ => nomatch hk
  | .powerCapChange _, hk, _ => nomatch hk
  | .measurementReport, hk, _ => nomatch hk
  | .reset _, hk, _ => nomatch hk
  | .combineQueuePerform _, hk, _ => nomatch hk
  | .runtimeResumeRequest _ _, hk, _ => nomatch hk

end Sys2Proof
end

