-- ==== Sys2Proof/Laws/Header.lean ====
section
/-! SUPPORT. The header word: the fields that the decoder reads back, and the control operation that it names. -/

namespace Sys2Proof

theorem headerWord_toNat (h : Hdr) (cop : BitVec 6) (nd : BitVec 34) (cg : BitVec 4) :
    (headerWord h cop nd cg).toNat =
      ((((((((cop.toNat * 2 ^ 34 + nd.toNat) * 2 ^ 4 + h.hint.toNat) * 2 ^ 4 + cg.toNat) * 2 ^ 6 + h.np.toNat) * 2 ^ 3 +
        h.scope.toNat) * 2 ^ 1 + h.d.toNat) * 2 ^ 1 + h.e.toNat) * 2 ^ 5 + h.pres.toNat) := by
  unfold headerWord
  repeat erw [toNat_app]
  simp [BitVec.toNat_ofBool]

theorem headerWord_cop (h : Hdr) (cop : BitVec 6) (nd : BitVec 34) (cg : BitVec 4) :
    bits (headerWord h cop nd cg) 58 6 = cop := by
  apply BitVec.eq_of_toNat_eq
  have h1 := h.d.toNat_lt
  have h2 := h.e.toNat_lt
  rw [bits_toNat, headerWord_toNat]
  omega

theorem headerWord_nd (h : Hdr) (cop : BitVec 6) (nd : BitVec 34) (cg : BitVec 4) :
    bits (headerWord h cop nd cg) 24 34 = nd := by
  apply BitVec.eq_of_toNat_eq
  have h1 := h.d.toNat_lt
  have h2 := h.e.toNat_lt
  rw [bits_toNat, headerWord_toNat]
  omega

theorem headerWord_cg (h : Hdr) (cop : BitVec 6) (nd : BitVec 34) (cg : BitVec 4) :
    bits (headerWord h cop nd cg) 16 4 = cg := by
  apply BitVec.eq_of_toNat_eq
  have h1 := h.d.toNat_lt
  have h2 := h.e.toNat_lt
  rw [bits_toNat, headerWord_toNat]
  omega

theorem getLsbD_of_toNat (w : BitVec 64) (i : Nat) (b : Bool) (h : w.toNat / 2 ^ i % 2 = b.toNat) : w.getLsbD i = b := by
  rw [BitVec.getLsbD, Nat.testBit_eq_decide_div_mod_eq, h]
  cases b <;> rfl

theorem headerFields_headerWord (h : Hdr) (cop : BitVec 6) (nd : BitVec 34) (cg : BitVec 4) :
    headerFields (headerWord h cop nd cg) = h := by
  have hw := headerWord_toNat h cop nd cg
  obtain ⟨hint, np, scope, d, e, pres⟩ := h
  have h1 := d.toNat_lt
  have h2 := e.toNat_lt
  simp only at hw
  simp only [headerFields, Hdr.mk.injEq]
  refine ⟨?_, ?_, ?_, ?_, ?_, ?_⟩
  · apply BitVec.eq_of_toNat_eq
    rw [bits_toNat, hw]
    omega
  · apply BitVec.eq_of_toNat_eq
    rw [bits_toNat, hw]
    omega
  · apply BitVec.eq_of_toNat_eq
    rw [bits_toNat, hw]
    omega
  · apply getLsbD_of_toNat
    rw [hw]
    omega
  · apply getLsbD_of_toNat
    rw [hw]
    omega
  · apply BitVec.eq_of_toNat_eq
    rw [bits_toNat, hw]
    omega

theorem extract_toNat {n : Nat} (w : BitVec n) (lo k : Nat) : (w.extractLsb' lo k).toNat = w.toNat / 2 ^ lo % 2 ^ k := by
  simp [BitVec.extractLsb'_toNat, Nat.shiftRight_eq_div_pow]

theorem nd_top6 (sa : BitVec 6) : (sa ++ 0#28 : BitVec 34).extractLsb' 28 6 = sa := by
  apply BitVec.eq_of_toNat_eq
  rw [extract_toNat]
  erw [toNat_app]
  simp
  omega

theorem nd_top3 (l : BitVec 3) : (l ++ 0#31 : BitVec 34).extractLsb' 31 3 = l := by
  apply BitVec.eq_of_toNat_eq
  rw [extract_toNat]
  erw [toNat_app]
  simp
  omega

theorem nd_code (c : BitVec 16) : (0#18 ++ c : BitVec 34).extractLsb' 0 16 = c := by
  apply BitVec.eq_of_toNat_eq
  rw [extract_toNat]
  erw [toNat_app]
  simp
  omega

theorem nd_mask (m : BitVec 8) : (0#26 ++ m : BitVec 34).extractLsb' 0 8 = m := by
  apply BitVec.eq_of_toNat_eq
  rw [extract_toNat]
  erw [toNat_app]
  simp
  omega

theorem nd_loopt (l : BitVec 3) (e : BitVec 16) :
    (l ++ 0#15 ++ e : BitVec 34).extractLsb' 31 3 = l ∧ (l ++ 0#15 ++ e : BitVec 34).extractLsb' 0 16 = e := by
  constructor <;> apply BitVec.eq_of_toNat_eq <;> rw [extract_toNat] <;> erw [toNat_app, toNat_app] <;> simp <;> omega

theorem nd_loopi (l : BitVec 3) (n : BitVec 14) (e : BitVec 16) :
    (l ++ 1#1 ++ n ++ e : BitVec 34).extractLsb' 31 3 = l ∧ (l ++ 1#1 ++ n ++ e : BitVec 34).getLsbD 30 = true ∧
      (l ++ 1#1 ++ n ++ e : BitVec 34).extractLsb' 16 14 = n ∧ (l ++ 1#1 ++ n ++ e : BitVec 34).extractLsb' 0 16 = e := by
  have h : (l ++ 1#1 ++ n ++ e : BitVec 34).toNat = ((l.toNat * 2 ^ 1 + 1) * 2 ^ 14 + n.toNat) * 2 ^ 16 + e.toNat := by
    erw [toNat_app, toNat_app, toNat_app]
    rfl
  refine ⟨?_, ?_, ?_, ?_⟩
  · apply BitVec.eq_of_toNat_eq
    rw [extract_toNat, h]
    omega
  · rw [BitVec.getLsbD, Nat.testBit_eq_decide_div_mod_eq, h]
    simp only [decide_eq_true_eq]
    omega
  · apply BitVec.eq_of_toNat_eq
    rw [extract_toNat, h]
    omega
  · apply BitVec.eq_of_toNat_eq
    rw [extract_toNat, h]
    omega

theorem nd_loopr (l : BitVec 3) (sc : BitVec 6) (e : BitVec 16) :
    (l ++ 0#1 ++ 0#8 ++ sc ++ e : BitVec 34).extractLsb' 31 3 = l ∧
      (l ++ 0#1 ++ 0#8 ++ sc ++ e : BitVec 34).getLsbD 30 = false ∧
      (l ++ 0#1 ++ 0#8 ++ sc ++ e : BitVec 34).extractLsb' 16 6 = sc ∧
      (l ++ 0#1 ++ 0#8 ++ sc ++ e : BitVec 34).extractLsb' 0 16 = e := by
  have h : (l ++ 0#1 ++ 0#8 ++ sc ++ e : BitVec 34).toNat =
      (((l.toNat * 2 ^ 1 + 0) * 2 ^ 8 + 0) * 2 ^ 6 + sc.toNat) * 2 ^ 16 + e.toNat := by
    erw [toNat_app, toNat_app, toNat_app, toNat_app]
    rfl
  refine ⟨?_, ?_, ?_, ?_⟩
  · apply BitVec.eq_of_toNat_eq
    rw [extract_toNat, h]
    omega
  · rw [BitVec.getLsbD, Nat.testBit_eq_decide_div_mod_eq, h]
    simp only [decide_eq_false_iff_not]
    omega
  · apply BitVec.eq_of_toNat_eq
    rw [extract_toNat, h]
    omega
  · apply BitVec.eq_of_toNat_eq
    rw [extract_toNat, h]
    omega

/-- The control operation that a header word names, from its fields. -/
theorem readControl_headerWord (h : Hdr) (c : Instr) (cop : BitVec 6) (nd : BitVec 34) (cg : BitVec 4)
    (hc : controlFields c = some (cop, nd, cg)) : readControl (headerWord h cop nd cg) = some c := by
  unfold readControl
  rw [headerWord_cop, headerWord_nd, headerWord_cg]
  unfold controlFields at hc
  split at hc
  · cases hc; rfl
  · cases hc; rfl
  · cases hc; exact congrArg (fun x => some (Instr.brr cg x)) (nd_top6 _)
  · cases hc; rfl
  · cases hc; exact congrArg (fun x => some (Instr.callr cg x)) (nd_top6 _)
  · cases hc; rfl
  · cases hc
    rename_i l e
    have h1 := nd_loopt l e
    exact congrArg₂ (fun x y => some (Instr.loopt cg x y)) h1.1 h1.2
  · cases hc
    rename_i l n e
    obtain ⟨h1, h2, h3, h4⟩ := nd_loopi l n e
    show some (Instr.loopn cg _ (if _ then _ else _) _) = _
    rw [h1, h2, if_pos rfl, h3, h4]
  · cases hc
    rename_i l sc e
    obtain ⟨h1, h2, h3, h4⟩ := nd_loopr l sc e
    show some (Instr.loopn cg _ (if _ then _ else _) _) = _
    rw [h1, h2, if_neg (by decide), h3, h4]
  · cases hc; exact congrArg (fun x => some (Instr.lexit cg x)) (nd_top3 _)
  · cases hc; exact congrArg (fun x => some (Instr.trap cg x)) (nd_code _)
  · cases hc; rfl
  · cases hc; exact congrArg (fun x => some (Instr.waite cg x)) (nd_mask _)
  · cases hc; rfl
  · cases hc; exact congrArg (fun x => some (Instr.resume cg x)) (nd_top6 _)
  · cases hc

/-- The header check reads from a header word its fields and its control operation. -/
theorem decodeHeader_headerWord (h : Hdr) (c : Instr) (cop : BitVec 6) (nd : BitVec 34) (cg : BitVec 4)
    (hc : controlFields c = some (cop, nd, cg)) (hs : h.scope.toNat < 7) (hn : h.np.toNat < 4)
    (hok : c.controlOk h.words = true) : decodeHeader (headerWord h cop nd cg) = .ok (h, c) := by
  unfold decodeHeader
  rw [readControl_headerWord h c cop nd cg hc, headerFields_headerWord, headerWord_cop, headerWord_nd, headerWord_cg]
  simp only [hc, hok]
  rw [if_neg (by simp; omega), if_neg (by omega)]

theorem controlFields_of_kind : ∀ c : Instr, c.kind = .control → ∃ x, controlFields c = some x := by
  intro c hk
  cases c <;> first | exact ⟨_, rfl⟩ | (rename_i cnt _; cases cnt <;> exact ⟨_, rfl⟩) | exact absurd hk (by decide) | cases hk

end Sys2Proof
end

