-- ==== Sys2Proof/Laws/Lanes.lean ====
section
/-! SUPPORT. V operations whose sources and destination are registers: their inputs and where their result goes. -/

namespace Sys2Proof.Machine

/-- The vector register that a source field names, as a source. -/
def regSource (c : Ctx) (fld : Nat) (x : BitVec 10) : Source :=
  Source.ofReg (c.m.readV c.seed (c.ix fld) ((c.h.vreg x.toNat).getD 0))

theorem vInputs_regs (s : State) (c : Ctx) (f : VForm) (h : f.sf = 0) :
    vInputs s c f = .ok (s, ⟨c.k 4 f.k.toNat, regSource c 1 f.va, regSource c 2 f.vb, regSource c 3 f.vc⟩) := by
  unfold vInputs vStreams
  simp [h, popAll, vSource, regSource]

theorem mapLanes_eq (act : Mask) (op : Nat → W32 × FFlags) :
    mapLanes act op = ((List.range 256).map fun i => if act.getLsbD i then (op i).1 else 0,
      (List.range 256).foldl (fun x i => if act.getLsbD i then x ||| (op i).2 else x) 0) := by
  unfold mapLanes
  simp only [List.map_map, List.foldl_map]
  congr 1
  · apply List.map_congr_left; intro i _; simp only [Function.comp]; split <;> rfl
  · congr 1; funext x i; split
    · rfl
    · simp

theorem fflags_or_zero (x : FFlags) : x ||| (0 : FFlags) = x := BitVec.or_zero

theorem raised_reg (v : VReg) (act : Mask) : (Source.ofReg v).raised act = 0 := rfl
theorem raised_regSource (c : Ctx) (fld : Nat) (x : BitVec 10) (act : Mask) : (regSource c fld x).raised act = 0 := rfl

theorem vResult_regs (s : State) (c : Ctx) (f : VForm) (h : f.sf = 0) (act : Mask) (lanes : List W32) (fl : FFlags)
    (t : Tag) (least : Nat) (full : Bool) :
    vResult s c f act lanes fl t least full = .ok (s.modMember c.id c.mi (·.withResult c.v
      (.v ((c.h.vreg f.vd.toNat).getD 0) (if full then BitVec.allOnes 256 else act) lanes t) fl f.lat least)) := by
  unfold vResult
  rw [if_neg (by rw [h]; decide)]
  rfl

theorem vLanes_regs (f : VForm) (h : f.sf = 0) (least na : Nat) (op : W32 → W32 → W32 → W32 × FFlags) (c : Ctx) (s : State) :
    vLanes f least op na c s =
      (let act := c.k 4 f.k.toNat
       let a := regSource c 1 f.va
       let b := regSource c 2 f.vb
       let d := regSource c 3 f.vc
       let r (i : Nat) := op (lane a.lanes i) (lane b.lanes i) (lane d.lanes i)
       .ok (s.modMember c.id c.mi (·.withResult c.v
         (.v ((c.h.vreg f.vd.toNat).getD 0) act ((List.range 256).map fun i => if act.getLsbD i then (r i).1 else 0)
           (mergeTag a.tag (mergeTag (if 2 ≤ na then b.tag else none) (if 3 ≤ na then d.tag else none))))
         ((List.range 256).foldl (fun x i => if act.getLsbD i then x ||| (r i).2 else x) 0) f.lat least))) := by
  unfold vLanes
  rw [vInputs_regs s c f h]
  simp only [mapLanes_eq, vResult_regs s c f h, raised_regSource, ite_self, Bool.false_eq_true, if_false]
  simp only [fflags_or_zero]

theorem vCompare_regs (f : VForm) (h : f.sf = 0) (least : Nat) (cond : W32 → W32 → Bool × FFlags) (c : Ctx) (s : State) :
    vCompare f least cond c s =
      (let act := c.k 4 f.k.toNat
       let a := regSource c 1 f.va
       let b := regSource c 2 f.vb
       let r (i : Nat) := cond (lane a.lanes i) (lane b.lanes i)
       .ok (s.modMember c.id c.mi fun m =>
         ((m.consumed (mergeTag a.tag b.tag)).withResult c.v
             (.k (f.vd.toNat % 16) (maskOf fun i => act.getLsbD i && (r i).1))
             ((List.range 256).foldl (fun x i => if act.getLsbD i then x ||| (r i).2 else x) 0) f.lat least).withResult c.v
           (.k (f.vd.toNat / 16 % 16) (maskOf fun i => act.getLsbD i && !(r i).1)) 0 f.lat least)) := by
  unfold vCompare
  rw [vInputs_regs s c f h]
  dsimp only
  simp only [raised_regSource, fflags_or_zero, addResult_eq, consumeTag_modMember, modMember_modMember]
  rfl

theorem vReduce_regs (f : VForm) (h : f.sf = 0) (op : Mask → List W32 → W32 × FFlags) (c : Ctx) (s : State) :
    vReduce f op c s =
      (let a := regSource c 1 f.va
       let r := op (c.k 4 f.k.toNat) a.lanes
       .ok (s.modMember c.id c.mi (·.withResult c.v
         (.v ((c.h.vreg f.vd.toNat).getD 0) (BitVec.allOnes 256) (List.replicate 256 r.1) a.tag) r.2 f.lat 8))) := by
  unfold vReduce
  rw [vInputs_regs s c f h]
  dsimp only
  rw [vResult_regs s c f h]
  simp only [raised_regSource, fflags_or_zero, if_true]

end Sys2Proof.Machine
end

