-- ==== Sys2Proof/Laws/PerInstr.lean ====
section
/-! SUPPORT. The statements made per instruction, one lemma per constructor of Instr. RoundTrip: the decoder reads from
the encoder's words of a well-formed instruction that instruction. -/

namespace Sys2Proof

/-- Decoding the words of a well-formed instruction gives it back; the events of the device have no words. -/
def Laws.RoundTrip.Statement (i : Instr) : Prop := i.wf = true → decodeWords (encode i) = .ok i

theorem decodeWords_of (hw : BitVec 64) (ws : List (BitVec 64)) (hd : Hdr × Instr) (s v m ra rb : Instr)
    (h1 : decodeHeader hw = .ok hd) (h2 : decodeSlots hd [0, 1, 2, 3, 4] ws [] = .ok [s, v, m, ra, rb]) :
    decodeWords (hw :: ws) = .ok (assemble hd.1 hd.2 s v m ra rb) := by
  simp only [decodeWords, h1, h2]

theorem roundTrip_scalar (i : Instr) (hk : i.kind = .scalar)
    (he : encode i = headerWord (plainHdr 1) 0 0 0 :: (slotWord i).toList) (hf : i.wf = true → i.fieldsOk = true) :
    Laws.RoundTrip.Statement i := by
  intro h
  obtain ⟨w, hw, hd⟩ := scalar_slot i hk (hf h)
  rw [he, hw]
  have h1 : decodeSlots (plainHdr 1, .ctrlNop 0) [0, 1, 2, 3, 4] (some w).toList [] =
      .ok [i, .vnop, .mnop, noRoutine, noRoutine] := by
    simp [decodeSlots, plainHdr, decodeSlot, hd, slotNop]
  exact decodeWords_of _ _ _ _ _ _ _ _
    (decodeHeader_headerWord (plainHdr 1) (.ctrlNop 0) 0 0 0 rfl (by decide) (by decide) rfl) h1

theorem roundTrip_vector (i : Instr) (hk : i.kind = .vector)
    (he : encode i = headerWord (plainHdr 2) 0 0 0 :: (slotWord i).toList) (hf : i.wf = true → i.fieldsOk = true) :
    Laws.RoundTrip.Statement i := by
  intro h
  obtain ⟨w, hw, hd⟩ := vector_slot i hk (hf h)
  rw [he, hw]
  have h1 : decodeSlots (plainHdr 2, .ctrlNop 0) [0, 1, 2, 3, 4] (some w).toList [] =
      .ok [.snop, i, .mnop, noRoutine, noRoutine] := by
    simp [decodeSlots, plainHdr, decodeSlot, hd, slotNop]
  exact decodeWords_of _ _ _ _ _ _ _ _
    (decodeHeader_headerWord (plainHdr 2) (.ctrlNop 0) 0 0 0 rfl (by decide) (by decide) rfl) h1

theorem roundTrip_memory (i : Instr) (hk : i.kind = .memory)
    (he : encode i = headerWord (plainHdr 4) 0 0 0 :: (slotWord i).toList) (hf : i.wf = true → i.fieldsOk = true) :
    Laws.RoundTrip.Statement i := by
  intro h
  obtain ⟨w, hw, hd⟩ := memory_slot i hk (hf h)
  rw [he, hw]
  have h1 : decodeSlots (plainHdr 4, .ctrlNop 0) [0, 1, 2, 3, 4] (some w).toList [] =
      .ok [.snop, .vnop, i, noRoutine, noRoutine] := by
    simp [decodeSlots, plainHdr, decodeSlot, hd, slotNop]
  exact decodeWords_of _ _ _ _ _ _ _ _
    (decodeHeader_headerWord (plainHdr 4) (.ctrlNop 0) 0 0 0 rfl (by decide) (by decide) rfl) h1

theorem roundTrip_routine (i : Instr) (hk : i.kind = .routine)
    (he : encode i = headerWord (plainHdr 8) 0 0 0 :: (slotWord i).toList) (hf : i.wf = true → i.fieldsOk = true) :
    Laws.RoundTrip.Statement i := by
  intro h
  obtain ⟨w, hw, hd⟩ := routine_slot i hk (hf h)
  rw [he, hw]
  have h1 : decodeSlots (plainHdr 8, .ctrlNop 0) [0, 1, 2, 3, 4] (some w).toList [] =
      .ok [.snop, .vnop, .mnop, i, noRoutine] := by
    simp [decodeSlots, plainHdr, decodeSlot, hd, slotNop]
  exact decodeWords_of _ _ _ _ _ _ _ _
    (decodeHeader_headerWord (plainHdr 8) (.ctrlNop 0) 0 0 0 rfl (by decide) (by decide) rfl) h1

theorem roundTrip_control (i : Instr) (hk : i.kind = .control)
    (he : encode i = (controlFields i).toList.map fun (cop, nd, cg) => headerWord (plainHdr 0) cop nd cg)
    (hf : i.wf = true → i.controlOk 1 = true) : Laws.RoundTrip.Statement i := by
  intro h
  obtain ⟨⟨cop, nd, cg⟩, hc⟩ := controlFields_of_kind i hk
  rw [he, hc]
  show decodeWords [headerWord (plainHdr 0) cop nd cg] = .ok i
  exact decodeWords_of _ _ (plainHdr 0, i) .snop .vnop .mnop noRoutine noRoutine
    (decodeHeader_headerWord (plainHdr 0) i cop nd cg hc (by decide) (by decide) (hf h))
    (by simp [decodeSlots, plainHdr, slotNop])

/-- One slot of a bundle: its words are read back as the operation, and the rest of the bundle goes on. -/
theorem decodeSlots_step (hd : Hdr × Instr) (k : Nat) (ks : List Nat) (i nop : Instr) (kd : Kind) (ws : List (BitVec 64))
    (acc : List Instr) (hn : slotNop k = nop) (hok : slotOk kd (hd.1.pres.getLsbD k) i nop = true)
    (hs : i.kind = kd → i.fieldsOk = true → ∃ w, slotWord i = some w ∧ decodeSlot k w = .ok i) :
    decodeSlots hd (k :: ks) (slotWords (hd.1.pres.getLsbD k) i ++ ws) acc = decodeSlots hd ks ws (i :: acc) := by
  simp only [slotOk, Bool.and_eq_true, Bool.or_eq_true, decide_eq_true_eq, beq_iff_eq] at hok
  obtain ⟨⟨h1, h2⟩, h3⟩ := hok
  cases hp : hd.1.pres.getLsbD k with
  | true =>
    obtain ⟨w, hw, hdw⟩ := hs h1 h2
    simp [decodeSlots, hp, slotWords, hw, hdw]
  | false =>
    rw [hp] at h3
    have h4 : i = nop := by simpa using h3
    simp [decodeSlots, hp, slotWords, hn, h4]

theorem roundTrip_bundle (h : Hdr) (c s v m ra rb : Instr) :
    Laws.RoundTrip.Statement (.bundleIssue h c s v m ra rb) := by
  intro hwf
  simp only [Instr.wf, Bool.and_eq_true, decide_eq_true_eq, Bool.not_eq_true'] at hwf
  obtain ⟨⟨⟨⟨⟨⟨⟨⟨h1, h2⟩, h3⟩, h4⟩, h5⟩, h6⟩, h7⟩, h8⟩, h9⟩ := hwf
  have hck : c.kind = .control := by
    simp only [Instr.controlOk, Bool.and_eq_true, beq_iff_eq] at h1
    exact h1.1.1
  obtain ⟨⟨cop, nd, cg⟩, hc⟩ := controlFields_of_kind c hck
  have he : encode (.bundleIssue h c s v m ra rb) = headerWord h cop nd cg ::
      (slotWords (h.pres.getLsbD 0) s ++ (slotWords (h.pres.getLsbD 1) v ++ (slotWords (h.pres.getLsbD 2) m ++
        (slotWords (h.pres.getLsbD 3) ra ++ (slotWords (h.pres.getLsbD 4) rb ++ []))))) := by
    simp [encode, hc]
  rw [he]
  have hslots : decodeSlots (h, c) [0, 1, 2, 3, 4]
      (slotWords (h.pres.getLsbD 0) s ++ (slotWords (h.pres.getLsbD 1) v ++ (slotWords (h.pres.getLsbD 2) m ++
        (slotWords (h.pres.getLsbD 3) ra ++ (slotWords (h.pres.getLsbD 4) rb ++ []))))) [] =
      .ok [s, v, m, ra, rb] := by
    rw [decodeSlots_step (h, c) 0 _ s .snop .scalar _ _ rfl h4 fun a b => scalar_slot s a b]
    rw [decodeSlots_step (h, c) 1 _ v .vnop .vector _ _ rfl h5 fun a b => vector_slot v a b]
    rw [decodeSlots_step (h, c) 2 _ m .mnop .memory _ _ rfl h6 fun a b => memory_slot m a b]
    rw [decodeSlots_step (h, c) 3 _ ra noRoutine .routine _ _ rfl h7 fun a b => routine_slot ra a b]
    rw [decodeSlots_step (h, c) 4 _ rb noRoutine .routine _ _ rfl h8 fun a b => routine_slot rb a b]
    rfl
  rw [decodeWords_of _ _ _ _ _ _ _ _ (decodeHeader_headerWord h c cop nd cg hc h2 h3 h1) hslots]
  simp [assemble, h9]

/-- An event has no words: it is not well formed. -/
theorem roundTrip_event (i : Instr) (hw : i.wf = false) : Laws.RoundTrip.Statement i := by
  intro h
  rw [hw] at h
  cases h

theorem Laws.RoundTrip.bundleIssue (h : Hdr) (c : Instr) (s : Instr) (v : Instr) (m : Instr) (ra : Instr) (rb : Instr) : Laws.RoundTrip.Statement (.bundleIssue h c s v m ra rb) := roundTrip_bundle h c s v m ra rb
theorem Laws.RoundTrip.lateResultLand (hc : Nat) : Laws.RoundTrip.Statement (.lateResultLand hc) := roundTrip_event _ rfl
theorem Laws.RoundTrip.overlayLoad (hc : Nat) : Laws.RoundTrip.Statement (.overlayLoad hc) := roundTrip_event _ rfl
theorem Laws.RoundTrip.engineWaitEnd (hc : Nat) : Laws.RoundTrip.Statement (.engineWaitEnd hc) := roundTrip_event _ rfl
theorem Laws.RoundTrip.contextSelect (lead : Nat) : Laws.RoundTrip.Statement (.contextSelect lead) := roundTrip_event _ rfl
theorem Laws.RoundTrip.ctrlNop (cg : BitVec 4) : Laws.RoundTrip.Statement (.ctrlNop cg) := roundTrip_control _ rfl rfl id
theorem Laws.RoundTrip.br (cg : BitVec 4) (off : BitVec 34) : Laws.RoundTrip.Statement (.br cg off) := roundTrip_control _ rfl rfl id
theorem Laws.RoundTrip.brr (cg : BitVec 4) (sa : BitVec 6) : Laws.RoundTrip.Statement (.brr cg sa) := roundTrip_control _ rfl rfl id
theorem Laws.RoundTrip.call (cg : BitVec 4) (off : BitVec 34) : Laws.RoundTrip.Statement (.call cg off) := roundTrip_control _ rfl rfl id
theorem Laws.RoundTrip.callr (cg : BitVec 4) (sa : BitVec 6) : Laws.RoundTrip.Statement (.callr cg sa) := roundTrip_control _ rfl rfl id
theorem Laws.RoundTrip.ret (cg : BitVec 4) : Laws.RoundTrip.Statement (.ret cg) := roundTrip_control _ rfl rfl id
theorem Laws.RoundTrip.loopt (cg : BitVec 4) (l : BitVec 3) (e : BitVec 16) : Laws.RoundTrip.Statement (.loopt cg l e) := roundTrip_control _ rfl rfl id
theorem Laws.RoundTrip.loopn (cg : BitVec 4) (l : BitVec 3) (cnt : LoopCount) (e : BitVec 16) : Laws.RoundTrip.Statement (.loopn cg l cnt e) := roundTrip_control _ rfl rfl id
theorem Laws.RoundTrip.lexit (cg : BitVec 4) (l : BitVec 3) : Laws.RoundTrip.Statement (.lexit cg l) := roundTrip_control _ rfl rfl id
theorem Laws.RoundTrip.trap (cg : BitVec 4) (code : BitVec 16) : Laws.RoundTrip.Statement (.trap cg code) := roundTrip_control _ rfl rfl id
theorem Laws.RoundTrip.yield (cg : BitVec 4) : Laws.RoundTrip.Statement (.yield cg) := roundTrip_control _ rfl rfl id
theorem Laws.RoundTrip.waite (cg : BitVec 4) (emask : BitVec 8) : Laws.RoundTrip.Statement (.waite cg emask) := roundTrip_control _ rfl rfl id
theorem Laws.RoundTrip.eret (cg : BitVec 4) : Laws.RoundTrip.Statement (.eret cg) := roundTrip_control _ rfl rfl id
theorem Laws.RoundTrip.resume (cg : BitVec 4) (sa : BitVec 6) : Laws.RoundTrip.Statement (.resume cg sa) := roundTrip_control _ rfl rfl id
theorem Laws.RoundTrip.snop : Laws.RoundTrip.Statement .snop := roundTrip_scalar _ rfl rfl id
theorem Laws.RoundTrip.add (f : SRForm) : Laws.RoundTrip.Statement (.add f) := roundTrip_scalar _ rfl rfl id
theorem Laws.RoundTrip.sub (f : SRForm) : Laws.RoundTrip.Statement (.sub f) := roundTrip_scalar _ rfl rfl id
theorem Laws.RoundTrip.and (f : SRForm) : Laws.RoundTrip.Statement (.and f) := roundTrip_scalar _ rfl rfl id
theorem Laws.RoundTrip.or (f : SRForm) : Laws.RoundTrip.Statement (.or f) := roundTrip_scalar _ rfl rfl id
theorem Laws.RoundTrip.xor (f : SRForm) : Laws.RoundTrip.Statement (.xor f) := roundTrip_scalar _ rfl rfl id
theorem Laws.RoundTrip.shl (f : SRForm) : Laws.RoundTrip.Statement (.shl f) := roundTrip_scalar _ rfl rfl id
theorem Laws.RoundTrip.shr (f : SRForm) : Laws.RoundTrip.Statement (.shr f) := roundTrip_scalar _ rfl rfl id
theorem Laws.RoundTrip.sra (f : SRForm) : Laws.RoundTrip.Statement (.sra f) := roundTrip_scalar _ rfl rfl id
theorem Laws.RoundTrip.min (f : SRForm) : Laws.RoundTrip.Statement (.min f) := roundTrip_scalar _ rfl rfl id
theorem Laws.RoundTrip.max (f : SRForm) : Laws.RoundTrip.Statement (.max f) := roundTrip_scalar _ rfl rfl id
theorem Laws.RoundTrip.minu (f : SRForm) : Laws.RoundTrip.Statement (.minu f) := roundTrip_scalar _ rfl rfl id
theorem Laws.RoundTrip.maxu (f : SRForm) : Laws.RoundTrip.Statement (.maxu f) := roundTrip_scalar _ rfl rfl id
theorem Laws.RoundTrip.rotl (f : SRForm) : Laws.RoundTrip.Statement (.rotl f) := roundTrip_scalar _ rfl rfl id
theorem Laws.RoundTrip.addi (f : SIForm) : Laws.RoundTrip.Statement (.addi f) := roundTrip_scalar _ rfl rfl id
theorem Laws.RoundTrip.andi (f : SIForm) : Laws.RoundTrip.Statement (.andi f) := roundTrip_scalar _ rfl rfl id
theorem Laws.RoundTrip.ori (f : SIForm) : Laws.RoundTrip.Statement (.ori f) := roundTrip_scalar _ rfl rfl id
theorem Laws.RoundTrip.xori (f : SIForm) : Laws.RoundTrip.Statement (.xori f) := roundTrip_scalar _ rfl rfl id
theorem Laws.RoundTrip.shli (f : SIForm) : Laws.RoundTrip.Statement (.shli f) := roundTrip_scalar _ rfl rfl id
theorem Laws.RoundTrip.shri (f : SIForm) : Laws.RoundTrip.Statement (.shri f) := roundTrip_scalar _ rfl rfl id
theorem Laws.RoundTrip.srai (f : SIForm) : Laws.RoundTrip.Statement (.srai f) := roundTrip_scalar _ rfl rfl id
theorem Laws.RoundTrip.movi (f : MoviForm) : Laws.RoundTrip.Statement (.movi f) := roundTrip_scalar _ rfl rfl id
theorem Laws.RoundTrip.movhi (f : SIForm) : Laws.RoundTrip.Statement (.movhi f) := roundTrip_scalar _ rfl rfl id
theorem Laws.RoundTrip.mul (f : SRForm) : Laws.RoundTrip.Statement (.mul f) := roundTrip_scalar _ rfl rfl id
theorem Laws.RoundTrip.mulhs (f : SRForm) : Laws.RoundTrip.Statement (.mulhs f) := roundTrip_scalar _ rfl rfl id
theorem Laws.RoundTrip.mulhu (f : SRForm) : Laws.RoundTrip.Statement (.mulhu f) := roundTrip_scalar _ rfl rfl id
theorem Laws.RoundTrip.divs (f : SRForm) : Laws.RoundTrip.Statement (.divs f) := roundTrip_scalar _ rfl rfl id
theorem Laws.RoundTrip.divu (f : SRForm) : Laws.RoundTrip.Statement (.divu f) := roundTrip_scalar _ rfl rfl id
theorem Laws.RoundTrip.rems (f : SRForm) : Laws.RoundTrip.Statement (.rems f) := roundTrip_scalar _ rfl rfl id
theorem Laws.RoundTrip.remu (f : SRForm) : Laws.RoundTrip.Statement (.remu f) := roundTrip_scalar _ rfl rfl id
theorem Laws.RoundTrip.clz (f : S1Form) : Laws.RoundTrip.Statement (.clz f) := roundTrip_scalar _ rfl rfl id
theorem Laws.RoundTrip.ctz (f : S1Form) : Laws.RoundTrip.Statement (.ctz f) := roundTrip_scalar _ rfl rfl id
theorem Laws.RoundTrip.popc (f : S1Form) : Laws.RoundTrip.Statement (.popc f) := roundTrip_scalar _ rfl rfl id
theorem Laws.RoundTrip.sextb (f : S1Form) : Laws.RoundTrip.Statement (.sextb f) := roundTrip_scalar _ rfl rfl id
theorem Laws.RoundTrip.sexth (f : S1Form) : Laws.RoundTrip.Statement (.sexth f) := roundTrip_scalar _ rfl rfl id
theorem Laws.RoundTrip.sextw (f : S1Form) : Laws.RoundTrip.Statement (.sextw f) := roundTrip_scalar _ rfl rfl id
theorem Laws.RoundTrip.zextb (f : S1Form) : Laws.RoundTrip.Statement (.zextb f) := roundTrip_scalar _ rfl rfl id
theorem Laws.RoundTrip.zexth (f : S1Form) : Laws.RoundTrip.Statement (.zexth f) := roundTrip_scalar _ rfl rfl id
theorem Laws.RoundTrip.zextw (f : S1Form) : Laws.RoundTrip.Statement (.zextw f) := roundTrip_scalar _ rfl rfl id
theorem Laws.RoundTrip.sel (f : SelForm) : Laws.RoundTrip.Statement (.sel f) := roundTrip_scalar _ rfl rfl id
theorem Laws.RoundTrip.cmp (f : CmpForm) : Laws.RoundTrip.Statement (.cmp f) := roundTrip_scalar _ rfl rfl id
theorem Laws.RoundTrip.cmpi (f : CmpiForm) : Laws.RoundTrip.Statement (.cmpi f) := roundTrip_scalar _ rfl rfl id
theorem Laws.RoundTrip.pand (f : PlogForm) : Laws.RoundTrip.Statement (.pand f) := roundTrip_scalar _ rfl rfl id
theorem Laws.RoundTrip.por (f : PlogForm) : Laws.RoundTrip.Statement (.por f) := roundTrip_scalar _ rfl rfl id
theorem Laws.RoundTrip.pxor (f : PlogForm) : Laws.RoundTrip.Statement (.pxor f) := roundTrip_scalar _ rfl rfl id
theorem Laws.RoundTrip.pandn (f : PlogForm) : Laws.RoundTrip.Statement (.pandn f) := roundTrip_scalar _ rfl rfl id
theorem Laws.RoundTrip.movp (f : MovpForm) : Laws.RoundTrip.Statement (.movp f) := roundTrip_scalar _ rfl rfl id
theorem Laws.RoundTrip.movps (f : MovpsForm) : Laws.RoundTrip.Statement (.movps f) := roundTrip_scalar _ rfl rfl id
theorem Laws.RoundTrip.movsr (f : MovsrForm) : Laws.RoundTrip.Statement (.movsr f) := roundTrip_scalar _ rfl rfl id
theorem Laws.RoundTrip.movrs (f : MovrsForm) (num : BitVec 32) : Laws.RoundTrip.Statement (.movrs f num) := roundTrip_scalar _ rfl rfl id
theorem Laws.RoundTrip.fpstatWrite (f : MovrsForm) : Laws.RoundTrip.Statement (.fpstatWrite f) := roundTrip_scalar _ rfl rfl id
theorem Laws.RoundTrip.cirWrite (f : MovrsForm) : Laws.RoundTrip.Statement (.cirWrite f) := roundTrip_scalar _ rfl rfl id
theorem Laws.RoundTrip.febudgetWrite (f : MovrsForm) : Laws.RoundTrip.Statement (.febudgetWrite f) := roundTrip_scalar _ rfl rfl id
theorem Laws.RoundTrip.defprofileWrite (f : MovrsForm) : Laws.RoundTrip.Statement (.defprofileWrite f) := roundTrip_scalar _ rfl rfl id
theorem Laws.RoundTrip.argWrite (f : MovrsForm) (n : BitVec 2) : Laws.RoundTrip.Statement (.argWrite f n) := roundTrip_scalar _ rfl rfl id
theorem Laws.RoundTrip.qposWrite (f : MovrsForm) (n : BitVec 4) : Laws.RoundTrip.Statement (.qposWrite f n) := roundTrip_scalar _ rfl rfl id
theorem Laws.RoundTrip.chke (f : ChkeForm) : Laws.RoundTrip.Statement (.chke f) := roundTrip_scalar _ rfl rfl id
theorem Laws.RoundTrip.sfadd (f : SRForm) : Laws.RoundTrip.Statement (.sfadd f) := roundTrip_scalar _ rfl rfl id
theorem Laws.RoundTrip.sfsub (f : SRForm) : Laws.RoundTrip.Statement (.sfsub f) := roundTrip_scalar _ rfl rfl id
theorem Laws.RoundTrip.sfmul (f : SRForm) : Laws.RoundTrip.Statement (.sfmul f) := roundTrip_scalar _ rfl rfl id
theorem Laws.RoundTrip.sfmin (f : SRForm) : Laws.RoundTrip.Statement (.sfmin f) := roundTrip_scalar _ rfl rfl id
theorem Laws.RoundTrip.sfmax (f : SRForm) : Laws.RoundTrip.Statement (.sfmax f) := roundTrip_scalar _ rfl rfl id
theorem Laws.RoundTrip.sfcvtif (f : S1Form) : Laws.RoundTrip.Statement (.sfcvtif f) := roundTrip_scalar _ rfl rfl id
theorem Laws.RoundTrip.sfcvtfi (f : S1Form) : Laws.RoundTrip.Statement (.sfcvtfi f) := roundTrip_scalar _ rfl rfl id
theorem Laws.RoundTrip.vnop : Laws.RoundTrip.Statement .vnop := roundTrip_vector _ rfl rfl id
theorem Laws.RoundTrip.fadd (f : VForm) : Laws.RoundTrip.Statement (.fadd f) := roundTrip_vector _ rfl rfl id
theorem Laws.RoundTrip.fsub (f : VForm) : Laws.RoundTrip.Statement (.fsub f) := roundTrip_vector _ rfl rfl id
theorem Laws.RoundTrip.fmul (f : VForm) : Laws.RoundTrip.Statement (.fmul f) := roundTrip_vector _ rfl rfl id
theorem Laws.RoundTrip.ffma (f : VForm) : Laws.RoundTrip.Statement (.ffma f) := roundTrip_vector _ rfl rfl id
theorem Laws.RoundTrip.ffms (f : VForm) : Laws.RoundTrip.Statement (.ffms f) := roundTrip_vector _ rfl rfl id
theorem Laws.RoundTrip.fnma (f : VForm) : Laws.RoundTrip.Statement (.fnma f) := roundTrip_vector _ rfl rfl id
theorem Laws.RoundTrip.fmin (f : VForm) : Laws.RoundTrip.Statement (.fmin f) := roundTrip_vector _ rfl rfl id
theorem Laws.RoundTrip.fmax (f : VForm) : Laws.RoundTrip.Statement (.fmax f) := roundTrip_vector _ rfl rfl id
theorem Laws.RoundTrip.fabs (f : VForm) : Laws.RoundTrip.Statement (.fabs f) := roundTrip_vector _ rfl rfl id
theorem Laws.RoundTrip.fneg (f : VForm) : Laws.RoundTrip.Statement (.fneg f) := roundTrip_vector _ rfl rfl id
theorem Laws.RoundTrip.fcmp (f : VForm) : Laws.RoundTrip.Statement (.fcmp f) := roundTrip_vector _ rfl rfl id
theorem Laws.RoundTrip.fcvti (f : VForm) : Laws.RoundTrip.Statement (.fcvti f) := roundTrip_vector _ rfl rfl id
theorem Laws.RoundTrip.icvtf (f : VForm) : Laws.RoundTrip.Statement (.icvtf f) := roundTrip_vector _ rfl rfl id
theorem Laws.RoundTrip.bfpk (f : VForm) : Laws.RoundTrip.Statement (.bfpk f) := roundTrip_vector _ rfl rfl id
theorem Laws.RoundTrip.bfup (f : VForm) : Laws.RoundTrip.Statement (.bfup f) := roundTrip_vector _ rfl rfl id
theorem Laws.RoundTrip.iadd (f : VForm) : Laws.RoundTrip.Statement (.iadd f) := roundTrip_vector _ rfl rfl id
theorem Laws.RoundTrip.isub (f : VForm) : Laws.RoundTrip.Statement (.isub f) := roundTrip_vector _ rfl rfl id
theorem Laws.RoundTrip.imul (f : VForm) : Laws.RoundTrip.Statement (.imul f) := roundTrip_vector _ rfl rfl id
theorem Laws.RoundTrip.imulh (f : VForm) : Laws.RoundTrip.Statement (.imulh f) := roundTrip_vector _ rfl rfl id
theorem Laws.RoundTrip.iand (f : VForm) : Laws.RoundTrip.Statement (.iand f) := roundTrip_vector _ rfl rfl id
theorem Laws.RoundTrip.ior (f : VForm) : Laws.RoundTrip.Statement (.ior f) := roundTrip_vector _ rfl rfl id
theorem Laws.RoundTrip.ixor (f : VForm) : Laws.RoundTrip.Statement (.ixor f) := roundTrip_vector _ rfl rfl id
theorem Laws.RoundTrip.ishl (f : VForm) : Laws.RoundTrip.Statement (.ishl f) := roundTrip_vector _ rfl rfl id
theorem Laws.RoundTrip.ishr (f : VForm) : Laws.RoundTrip.Statement (.ishr f) := roundTrip_vector _ rfl rfl id
theorem Laws.RoundTrip.isra (f : VForm) : Laws.RoundTrip.Statement (.isra f) := roundTrip_vector _ rfl rfl id
theorem Laws.RoundTrip.imin (f : VForm) : Laws.RoundTrip.Statement (.imin f) := roundTrip_vector _ rfl rfl id
theorem Laws.RoundTrip.imax (f : VForm) : Laws.RoundTrip.Statement (.imax f) := roundTrip_vector _ rfl rfl id
theorem Laws.RoundTrip.iminu (f : VForm) : Laws.RoundTrip.Statement (.iminu f) := roundTrip_vector _ rfl rfl id
theorem Laws.RoundTrip.imaxu (f : VForm) : Laws.RoundTrip.Statement (.imaxu f) := roundTrip_vector _ rfl rfl id
theorem Laws.RoundTrip.icmp (f : VForm) : Laws.RoundTrip.Statement (.icmp f) := roundTrip_vector _ rfl rfl id
theorem Laws.RoundTrip.vsel (f : VForm) : Laws.RoundTrip.Statement (.vsel f) := roundTrip_vector _ rfl rfl id
theorem Laws.RoundTrip.vmov (f : VForm) : Laws.RoundTrip.Statement (.vmov f) := roundTrip_vector _ rfl rfl id
theorem Laws.RoundTrip.vbcst (f : VForm) : Laws.RoundTrip.Statement (.vbcst f) := roundTrip_vector _ rfl rfl id
theorem Laws.RoundTrip.vperm (f : VForm) : Laws.RoundTrip.Statement (.vperm f) := roundTrip_vector _ rfl rfl id
theorem Laws.RoundTrip.vrot (f : VForm) : Laws.RoundTrip.Statement (.vrot f) := roundTrip_vector _ rfl rfl id
theorem Laws.RoundTrip.viota (f : VForm) : Laws.RoundTrip.Statement (.viota f) := roundTrip_vector _ rfl rfl id
theorem Laws.RoundTrip.vext (f : VForm) : Laws.RoundTrip.Statement (.vext f) := roundTrip_vector _ rfl rfl id
theorem Laws.RoundTrip.vins (f : VForm) : Laws.RoundTrip.Statement (.vins f) := roundTrip_vector _ rfl rfl id
theorem Laws.RoundTrip.frsum (f : VForm) : Laws.RoundTrip.Statement (.frsum f) := roundTrip_vector _ rfl rfl id
theorem Laws.RoundTrip.frmax (f : VForm) : Laws.RoundTrip.Statement (.frmax f) := roundTrip_vector _ rfl rfl id
theorem Laws.RoundTrip.frmin (f : VForm) : Laws.RoundTrip.Statement (.frmin f) := roundTrip_vector _ rfl rfl id
theorem Laws.RoundTrip.irsum (f : VForm) : Laws.RoundTrip.Statement (.irsum f) := roundTrip_vector _ rfl rfl id
theorem Laws.RoundTrip.irmax (f : VForm) : Laws.RoundTrip.Statement (.irmax f) := roundTrip_vector _ rfl rfl id
theorem Laws.RoundTrip.irmin (f : VForm) : Laws.RoundTrip.Statement (.irmin f) := roundTrip_vector _ rfl rfl id
theorem Laws.RoundTrip.kand (f : VForm) : Laws.RoundTrip.Statement (.kand f) := roundTrip_vector _ rfl rfl id
theorem Laws.RoundTrip.kor (f : VForm) : Laws.RoundTrip.Statement (.kor f) := roundTrip_vector _ rfl rfl id
theorem Laws.RoundTrip.kxor (f : VForm) : Laws.RoundTrip.Statement (.kxor f) := roundTrip_vector _ rfl rfl id
theorem Laws.RoundTrip.kandn (f : VForm) : Laws.RoundTrip.Statement (.kandn f) := roundTrip_vector _ rfl rfl id
theorem Laws.RoundTrip.kpopc (f : VForm) : Laws.RoundTrip.Statement (.kpopc f) := roundTrip_vector _ rfl rfl id
theorem Laws.RoundTrip.kfromv (f : VForm) : Laws.RoundTrip.Statement (.kfromv f) := roundTrip_vector _ rfl rfl id
theorem Laws.RoundTrip.mnop : Laws.RoundTrip.Statement .mnop := roundTrip_memory _ rfl rfl id
theorem Laws.RoundTrip.trans (f : TransForm) : Laws.RoundTrip.Statement (.trans f) := roundTrip_memory _ rfl rfl id
theorem Laws.RoundTrip.hinv (f : HinvForm) : Laws.RoundTrip.Statement (.hinv f) := roundTrip_memory _ rfl rfl id
theorem Laws.RoundTrip.hrd (f : SMemForm) : Laws.RoundTrip.Statement (.hrd f) := roundTrip_memory _ rfl rfl id
theorem Laws.RoundTrip.ldB (f : SMemForm) : Laws.RoundTrip.Statement (.ldB f) := roundTrip_memory _ rfl rfl id
theorem Laws.RoundTrip.ldH (f : SMemForm) : Laws.RoundTrip.Statement (.ldH f) := roundTrip_memory _ rfl rfl id
theorem Laws.RoundTrip.ldW (f : SMemForm) : Laws.RoundTrip.Statement (.ldW f) := roundTrip_memory _ rfl rfl id
theorem Laws.RoundTrip.ldD (f : SMemForm) : Laws.RoundTrip.Statement (.ldD f) := roundTrip_memory _ rfl rfl id
theorem Laws.RoundTrip.ldSb (f : SMemForm) : Laws.RoundTrip.Statement (.ldSb f) := roundTrip_memory _ rfl rfl id
theorem Laws.RoundTrip.ldSh (f : SMemForm) : Laws.RoundTrip.Statement (.ldSh f) := roundTrip_memory _ rfl rfl id
theorem Laws.RoundTrip.ldSw (f : SMemForm) : Laws.RoundTrip.Statement (.ldSw f) := roundTrip_memory _ rfl rfl id
theorem Laws.RoundTrip.stB (f : SMemForm) : Laws.RoundTrip.Statement (.stB f) := roundTrip_memory _ rfl rfl id
theorem Laws.RoundTrip.stH (f : SMemForm) : Laws.RoundTrip.Statement (.stH f) := roundTrip_memory _ rfl rfl id
theorem Laws.RoundTrip.stW (f : SMemForm) : Laws.RoundTrip.Statement (.stW f) := roundTrip_memory _ rfl rfl id
theorem Laws.RoundTrip.stD (f : SMemForm) : Laws.RoundTrip.Statement (.stD f) := roundTrip_memory _ rfl rfl id
theorem Laws.RoundTrip.ldwaitD (f : SMemForm) : Laws.RoundTrip.Statement (.ldwaitD f) := roundTrip_memory _ rfl rfl id
theorem Laws.RoundTrip.ldtakeD (f : SMemForm) : Laws.RoundTrip.Statement (.ldtakeD f) := roundTrip_memory _ rfl rfl id
theorem Laws.RoundTrip.stfillD (f : SMemForm) : Laws.RoundTrip.Statement (.stfillD f) := roundTrip_memory _ rfl rfl id
theorem Laws.RoundTrip.feset (f : SMemForm) : Laws.RoundTrip.Statement (.feset f) := roundTrip_memory _ rfl rfl id
theorem Laws.RoundTrip.feget (f : SMemForm) : Laws.RoundTrip.Statement (.feget f) := roundTrip_memory _ rfl rfl id
theorem Laws.RoundTrip.feRetryAttempt (hc : Nat) : Laws.RoundTrip.Statement (.feRetryAttempt hc) := roundTrip_event _ rfl
theorem Laws.RoundTrip.feBudget (hc : Nat) : Laws.RoundTrip.Statement (.feBudget hc) := roundTrip_event _ rfl
theorem Laws.RoundTrip.vldW (f : VMemForm) : Laws.RoundTrip.Statement (.vldW f) := roundTrip_memory _ rfl rfl id
theorem Laws.RoundTrip.vstW (f : VMemForm) : Laws.RoundTrip.Statement (.vstW f) := roundTrip_memory _ rfl rfl id
theorem Laws.RoundTrip.vldH (f : VMemForm) : Laws.RoundTrip.Statement (.vldH f) := roundTrip_memory _ rfl rfl id
theorem Laws.RoundTrip.vstH (f : VMemForm) : Laws.RoundTrip.Statement (.vstH f) := roundTrip_memory _ rfl rfl id
theorem Laws.RoundTrip.spldW (f : SpsForm) : Laws.RoundTrip.Statement (.spldW f) := roundTrip_memory _ rfl rfl id
theorem Laws.RoundTrip.spldD (f : SpsForm) : Laws.RoundTrip.Statement (.spldD f) := roundTrip_memory _ rfl rfl id
theorem Laws.RoundTrip.spstW (f : SpsForm) : Laws.RoundTrip.Statement (.spstW f) := roundTrip_memory _ rfl rfl id
theorem Laws.RoundTrip.spstD (f : SpsForm) : Laws.RoundTrip.Statement (.spstD f) := roundTrip_memory _ rfl rfl id
theorem Laws.RoundTrip.repairEntryWrite (core : Nat) (entry : Nat) (v : BitVec 64) : Laws.RoundTrip.Statement (.repairEntryWrite core entry v) := roundTrip_event _ rfl
theorem Laws.RoundTrip.vspld (f : SpvForm) : Laws.RoundTrip.Statement (.vspld f) := roundTrip_memory _ rfl rfl id
theorem Laws.RoundTrip.vspst (f : SpvForm) : Laws.RoundTrip.Statement (.vspst f) := roundTrip_memory _ rfl rfl id
theorem Laws.RoundTrip.vspg (f : GatherForm) : Laws.RoundTrip.Statement (.vspg f) := roundTrip_memory _ rfl rfl id
theorem Laws.RoundTrip.vsps (f : GatherForm) : Laws.RoundTrip.Statement (.vsps f) := roundTrip_memory _ rfl rfl id
theorem Laws.RoundTrip.lpld (f : GatherForm) : Laws.RoundTrip.Statement (.lpld f) := roundTrip_memory _ rfl rfl id
theorem Laws.RoundTrip.lpst (f : GatherForm) : Laws.RoundTrip.Statement (.lpst f) := roundTrip_memory _ rfl rfl id
theorem Laws.RoundTrip.sptakeD (f : SpsForm) : Laws.RoundTrip.Statement (.sptakeD f) := roundTrip_memory _ rfl rfl id
theorem Laws.RoundTrip.spfillD (f : SpsForm) : Laws.RoundTrip.Statement (.spfillD f) := roundTrip_memory _ rfl rfl id
theorem Laws.RoundTrip.aadd (f : AtomForm) : Laws.RoundTrip.Statement (.aadd f) := roundTrip_memory _ rfl rfl id
theorem Laws.RoundTrip.amin (f : AtomForm) : Laws.RoundTrip.Statement (.amin f) := roundTrip_memory _ rfl rfl id
theorem Laws.RoundTrip.amax (f : AtomForm) : Laws.RoundTrip.Statement (.amax f) := roundTrip_memory _ rfl rfl id
theorem Laws.RoundTrip.aminu (f : AtomForm) : Laws.RoundTrip.Statement (.aminu f) := roundTrip_memory _ rfl rfl id
theorem Laws.RoundTrip.amaxu (f : AtomForm) : Laws.RoundTrip.Statement (.amaxu f) := roundTrip_memory _ rfl rfl id
theorem Laws.RoundTrip.aand (f : AtomForm) : Laws.RoundTrip.Statement (.aand f) := roundTrip_memory _ rfl rfl id
theorem Laws.RoundTrip.aor (f : AtomForm) : Laws.RoundTrip.Statement (.aor f) := roundTrip_memory _ rfl rfl id
theorem Laws.RoundTrip.axor (f : AtomForm) : Laws.RoundTrip.Statement (.axor f) := roundTrip_memory _ rfl rfl id
theorem Laws.RoundTrip.aswp (f : AtomForm) : Laws.RoundTrip.Statement (.aswp f) := roundTrip_memory _ rfl rfl id
theorem Laws.RoundTrip.acas (f : AtomForm) : Laws.RoundTrip.Statement (.acas f) := roundTrip_memory _ rfl rfl id
theorem Laws.RoundTrip.cadd (f : CaddForm) : Laws.RoundTrip.Statement (.cadd f) := roundTrip_memory _ rfl rfl id
theorem Laws.RoundTrip.cwait (f : AtomForm) : Laws.RoundTrip.Statement (.cwait f) := roundTrip_memory _ rfl rfl id
theorem Laws.RoundTrip.crd (f : AtomForm) : Laws.RoundTrip.Statement (.crd f) := roundTrip_memory _ rfl rfl id
theorem Laws.RoundTrip.fence (f : FenceForm) : Laws.RoundTrip.Statement (.fence f) := roundTrip_memory _ rfl rfl id
theorem Laws.RoundTrip.fenceSt (f : FenceForm) : Laws.RoundTrip.Statement (.fenceSt f) := roundTrip_memory _ rfl rfl id
theorem Laws.RoundTrip.fenceLd (f : FenceForm) : Laws.RoundTrip.Statement (.fenceLd f) := roundTrip_memory _ rfl rfl id
theorem Laws.RoundTrip.setq (f : SetqForm) : Laws.RoundTrip.Statement (.setq f) := roundTrip_memory _ rfl rfl id
theorem Laws.RoundTrip.pref (f : SMemForm) : Laws.RoundTrip.Statement (.pref f) := roundTrip_memory _ rfl rfl id
theorem Laws.RoundTrip.streamReadAhead (hc : Nat) (mem : Nat) (q : Nat) : Laws.RoundTrip.Statement (.streamReadAhead hc mem q) := roundTrip_event _ rfl
theorem Laws.RoundTrip.streamOutputWrite (hc : Nat) (mem : Nat) (q : Nat) : Laws.RoundTrip.Statement (.streamOutputWrite hc mem q) := roundTrip_event _ rfl
theorem Laws.RoundTrip.routineNop (f : RForm) : Laws.RoundTrip.Statement (.routineNop f) := roundTrip_routine _ rfl rfl id
theorem Laws.RoundTrip.routineSlot (rn : BitVec 12) (f : RForm) : Laws.RoundTrip.Statement (.routineSlot rn f) := roundTrip_routine _ rfl rfl id
theorem Laws.RoundTrip.oclaim (f : RForm) : Laws.RoundTrip.Statement (.oclaim f) := roundTrip_routine _ rfl rfl id
theorem Laws.RoundTrip.ofree (f : RForm) : Laws.RoundTrip.Statement (.ofree f) := roundTrip_routine _ rfl rfl id
theorem Laws.RoundTrip.olda (f : RForm) : Laws.RoundTrip.Statement (.olda f) := roundTrip_routine _ rfl rfl id
theorem Laws.RoundTrip.oldb (f : RForm) : Laws.RoundTrip.Statement (.oldb f) := roundTrip_routine _ rfl rfl id
theorem Laws.RoundTrip.aclaim (f : RForm) : Laws.RoundTrip.Statement (.aclaim f) := roundTrip_routine _ rfl rfl id
theorem Laws.RoundTrip.afree (f : RForm) : Laws.RoundTrip.Statement (.afree f) := roundTrip_routine _ rfl rfl id
theorem Laws.RoundTrip.azero (f : RForm) : Laws.RoundTrip.Statement (.azero f) := roundTrip_routine _ rfl rfl id
theorem Laws.RoundTrip.mma (f : RForm) : Laws.RoundTrip.Statement (.mma f) := roundTrip_routine _ rfl rfl id
theorem Laws.RoundTrip.anorm (f : RForm) : Laws.RoundTrip.Statement (.anorm f) := roundTrip_routine _ rfl rfl id
theorem Laws.RoundTrip.asto (f : RForm) : Laws.RoundTrip.Statement (.asto f) := roundTrip_routine _ rfl rfl id
theorem Laws.RoundTrip.arow (f : RForm) : Laws.RoundTrip.Statement (.arow f) := roundTrip_routine _ rfl rfl id
theorem Laws.RoundTrip.bfpq (f : RForm) : Laws.RoundTrip.Statement (.bfpq f) := roundTrip_routine _ rfl rfl id
theorem Laws.RoundTrip.bdot4 (f : RForm) : Laws.RoundTrip.Statement (.bdot4 f) := roundTrip_routine _ rfl rfl id
theorem Laws.RoundTrip.tlsc2 (f : RForm) : Laws.RoundTrip.Statement (.tlsc2 f) := roundTrip_routine _ rfl rfl id
theorem Laws.RoundTrip.exp2 (f : RForm) : Laws.RoundTrip.Statement (.exp2 f) := roundTrip_routine _ rfl rfl id
theorem Laws.RoundTrip.expe (f : RForm) : Laws.RoundTrip.Statement (.expe f) := roundTrip_routine _ rfl rfl id
theorem Laws.RoundTrip.log2 (f : RForm) : Laws.RoundTrip.Statement (.log2 f) := roundTrip_routine _ rfl rfl id
theorem Laws.RoundTrip.loge (f : RForm) : Laws.RoundTrip.Statement (.loge f) := roundTrip_routine _ rfl rfl id
theorem Laws.RoundTrip.rcp (f : RForm) : Laws.RoundTrip.Statement (.rcp f) := roundTrip_routine _ rfl rfl id
theorem Laws.RoundTrip.rsqrt (f : RForm) : Laws.RoundTrip.Statement (.rsqrt f) := roundTrip_routine _ rfl rfl id
theorem Laws.RoundTrip.sqrt (f : RForm) : Laws.RoundTrip.Statement (.sqrt f) := roundTrip_routine _ rfl rfl id
theorem Laws.RoundTrip.tanh (f : RForm) : Laws.RoundTrip.Statement (.tanh f) := roundTrip_routine _ rfl rfl id
theorem Laws.RoundTrip.sigm (f : RForm) : Laws.RoundTrip.Statement (.sigm f) := roundTrip_routine _ rfl rfl id
theorem Laws.RoundTrip.silu (f : RForm) : Laws.RoundTrip.Statement (.silu f) := roundTrip_routine _ rfl rfl id
theorem Laws.RoundTrip.gelu (f : RForm) : Laws.RoundTrip.Statement (.gelu f) := roundTrip_routine _ rfl rfl id
theorem Laws.RoundTrip.divf (f : RForm) : Laws.RoundTrip.Statement (.divf f) := roundTrip_routine _ rfl rfl id
theorem Laws.RoundTrip.rmax (f : RForm) : Laws.RoundTrip.Statement (.rmax f) := roundTrip_routine _ rfl rfl id
theorem Laws.RoundTrip.rsum (f : RForm) : Laws.RoundTrip.Statement (.rsum f) := roundTrip_routine _ rfl rfl id
theorem Laws.RoundTrip.smxupd (f : RForm) : Laws.RoundTrip.Statement (.smxupd f) := roundTrip_routine _ rfl rfl id
theorem Laws.RoundTrip.smxfin (f : RForm) : Laws.RoundTrip.Statement (.smxfin f) := roundTrip_routine _ rfl rfl id
theorem Laws.RoundTrip.rmsn (f : RForm) : Laws.RoundTrip.Statement (.rmsn f) := roundTrip_routine _ rfl rfl id
theorem Laws.RoundTrip.lnrm (f : RForm) : Laws.RoundTrip.Statement (.lnrm f) := roundTrip_routine _ rfl rfl id
theorem Laws.RoundTrip.cpy (f : RForm) : Laws.RoundTrip.Statement (.cpy f) := roundTrip_routine _ rfl rfl id
theorem Laws.RoundTrip.cpyred (f : RForm) : Laws.RoundTrip.Statement (.cpyred f) := roundTrip_routine _ rfl rfl id
theorem Laws.RoundTrip.tstload (f : RForm) : Laws.RoundTrip.Statement (.tstload f) := roundTrip_routine _ rfl rfl id
theorem Laws.RoundTrip.btswap (f : RForm) : Laws.RoundTrip.Statement (.btswap f) := roundTrip_routine _ rfl rfl id
theorem Laws.RoundTrip.btfence (f : RForm) : Laws.RoundTrip.Statement (.btfence f) := roundTrip_routine _ rfl rfl id
theorem Laws.RoundTrip.cbreg (f : RForm) : Laws.RoundTrip.Statement (.cbreg f) := roundTrip_routine _ rfl rfl id
theorem Laws.RoundTrip.cbput (f : RForm) : Laws.RoundTrip.Statement (.cbput f) := roundTrip_routine _ rfl rfl id
theorem Laws.RoundTrip.cbstat (f : RForm) : Laws.RoundTrip.Statement (.cbstat f) := roundTrip_routine _ rfl rfl id
theorem Laws.RoundTrip.jexp (f : RForm) : Laws.RoundTrip.Statement (.jexp f) := roundTrip_routine _ rfl rfl id
theorem Laws.RoundTrip.jdone (f : RForm) : Laws.RoundTrip.Statement (.jdone f) := roundTrip_routine _ rfl rfl id
theorem Laws.RoundTrip.ringadv (f : RForm) : Laws.RoundTrip.Statement (.ringadv f) := roundTrip_routine _ rfl rfl id
theorem Laws.RoundTrip.matrixQueuePerform (core : Nat) (load : Bool) : Laws.RoundTrip.Statement (.matrixQueuePerform core load) := roundTrip_event _ rfl
theorem Laws.RoundTrip.functionQueuePerform (core : Nat) : Laws.RoundTrip.Statement (.functionQueuePerform core) := roundTrip_event _ rfl
theorem Laws.RoundTrip.copyQueuePerform (engine : Nat) : Laws.RoundTrip.Statement (.copyQueuePerform engine) := roundTrip_event _ rfl
theorem Laws.RoundTrip.cpyredAdmit (slice : Nat) (part : Nat) (group : Nat) : Laws.RoundTrip.Statement (.cpyredAdmit slice part group) := roundTrip_event _ rfl
theorem Laws.RoundTrip.jobQueuePerform (core : Nat) : Laws.RoundTrip.Statement (.jobQueuePerform core) := roundTrip_event _ rfl
theorem Laws.RoundTrip.tokenRelease (die : Nat) (index : Nat) : Laws.RoundTrip.Statement (.tokenRelease die index) := roundTrip_event _ rfl
theorem Laws.RoundTrip.combineTimeout (die : Nat) (index : Nat) : Laws.RoundTrip.Statement (.combineTimeout die index) := roundTrip_event _ rfl
theorem Laws.RoundTrip.ringTimerExpiry (vector : Nat) : Laws.RoundTrip.Statement (.ringTimerExpiry vector) := roundTrip_event _ rfl
theorem Laws.RoundTrip.drainPointStop (hc : Nat) : Laws.RoundTrip.Statement (.drainPointStop hc) := roundTrip_event _ rfl
theorem Laws.RoundTrip.forcedStop (hc : Nat) : Laws.RoundTrip.Statement (.forcedStop hc) := roundTrip_event _ rfl
theorem Laws.RoundTrip.preemptStopTimeout (hc : Nat) : Laws.RoundTrip.Statement (.preemptStopTimeout hc) := roundTrip_event _ rfl
theorem Laws.RoundTrip.contextSaveDone (hc : Nat) : Laws.RoundTrip.Statement (.contextSaveDone hc) := roundTrip_event _ rfl
theorem Laws.RoundTrip.contextRestore (hc : Nat) : Laws.RoundTrip.Statement (.contextRestore hc) := roundTrip_event _ rfl
theorem Laws.RoundTrip.herdRetire (hc : Nat) : Laws.RoundTrip.Statement (.herdRetire hc) := roundTrip_event _ rfl
theorem Laws.RoundTrip.nodeCommit (part : Nat) (node : Nat) : Laws.RoundTrip.Statement (.nodeCommit part node) := roundTrip_event _ rfl
theorem Laws.RoundTrip.stagingExhausted (part : Nat) : Laws.RoundTrip.Statement (.stagingExhausted part) := roundTrip_event _ rfl
theorem Laws.RoundTrip.nodeFire (part : Nat) (node : Nat) : Laws.RoundTrip.Statement (.nodeFire part node) := roundTrip_event _ rfl
theorem Laws.RoundTrip.nodePlace (part : Nat) : Laws.RoundTrip.Statement (.nodePlace part) := roundTrip_event _ rfl
theorem Laws.RoundTrip.copyNodeRun (part : Nat) (node : Nat) : Laws.RoundTrip.Statement (.copyNodeRun part node) := roundTrip_event _ rfl
theorem Laws.RoundTrip.counterNodeRun (part : Nat) (node : Nat) : Laws.RoundTrip.Statement (.counterNodeRun part node) := roundTrip_event _ rfl
theorem Laws.RoundTrip.conditionalNodeRun (part : Nat) (node : Nat) : Laws.RoundTrip.Statement (.conditionalNodeRun part node) := roundTrip_event _ rfl
theorem Laws.RoundTrip.descriptorArm (part : Nat) (node : Nat) (desc : List Byte) : Laws.RoundTrip.Statement (.descriptorArm part node desc) := roundTrip_event _ rfl
theorem Laws.RoundTrip.descriptorDisarm (part : Nat) (node : Nat) : Laws.RoundTrip.Statement (.descriptorDisarm part node) := roundTrip_event _ rfl
theorem Laws.RoundTrip.runtimeRelease (part : Nat) (node : Option Nat) : Laws.RoundTrip.Statement (.runtimeRelease part node) := roundTrip_event _ rfl
theorem Laws.RoundTrip.regenFault (hc : Nat) : Laws.RoundTrip.Statement (.regenFault hc) := roundTrip_event _ rfl
theorem Laws.RoundTrip.trapRecordTake (die : Nat) : Laws.RoundTrip.Statement (.trapRecordTake die) := roundTrip_event _ rfl
theorem Laws.RoundTrip.wakeServe (part : Nat) : Laws.RoundTrip.Statement (.wakeServe part) := roundTrip_event _ rfl
theorem Laws.RoundTrip.handleRetranslate (hc : Nat) : Laws.RoundTrip.Statement (.handleRetranslate hc) := roundTrip_event _ rfl
theorem Laws.RoundTrip.copyOnWrite (hc : Nat) (frame : Option (Nat × Nat)) : Laws.RoundTrip.Statement (.copyOnWrite hc frame) := roundTrip_event _ rfl
theorem Laws.RoundTrip.translationInvalidate (part : Nat) (stage2 : Bool) (lo : Nat) (len : Nat) (ctr : Nat) : Laws.RoundTrip.Statement (.translationInvalidate part stage2 lo len ctr) := roundTrip_event _ rfl
theorem Laws.RoundTrip.invalidateComplete (part : Nat) : Laws.RoundTrip.Statement (.invalidateComplete part) := roundTrip_event _ rfl
theorem Laws.RoundTrip.counterAddWindow (part : Nat) (offset : Nat) (data : List Byte) : Laws.RoundTrip.Statement (.counterAddWindow part offset data) := roundTrip_event _ rfl
theorem Laws.RoundTrip.hostMemoryAccess (pa : Nat) (op : HostOp) : Laws.RoundTrip.Statement (.hostMemoryAccess pa op) := roundTrip_event _ rfl
theorem Laws.RoundTrip.requestSlotSubmit (part : Nat) (slot : Nat) (data : List Byte) : Laws.RoundTrip.Statement (.requestSlotSubmit part slot data) := roundTrip_event _ rfl
theorem Laws.RoundTrip.loadRequest (part : Nat) : Laws.RoundTrip.Statement (.loadRequest part) := roundTrip_event _ rfl
theorem Laws.RoundTrip.unloadRequest (part : Nat) : Laws.RoundTrip.Statement (.unloadRequest part) := roundTrip_event _ rfl
theorem Laws.RoundTrip.stopRequest (part : Nat) : Laws.RoundTrip.Statement (.stopRequest part) := roundTrip_event _ rfl
theorem Laws.RoundTrip.restoreRequest (part : Nat) : Laws.RoundTrip.Statement (.restoreRequest part) := roundTrip_event _ rfl
theorem Laws.RoundTrip.msixTableWrite (offset : Nat) (data : List Byte) : Laws.RoundTrip.Statement (.msixTableWrite offset data) := roundTrip_event _ rfl
theorem Laws.RoundTrip.managementWriteOther (offset : Nat) (data : List Byte) : Laws.RoundTrip.Statement (.managementWriteOther offset data) := roundTrip_event _ rfl
theorem Laws.RoundTrip.partitionRequest (req : ManagerReq) : Laws.RoundTrip.Statement (.partitionRequest req) := roundTrip_event _ rfl
theorem Laws.RoundTrip.routeTableLoad (entries : List (Nat × BitVec 32)) : Laws.RoundTrip.Statement (.routeTableLoad entries) := roundTrip_event _ rfl
theorem Laws.RoundTrip.fabricRequest (src : BitVec 10) (pa : Nat) (op : FabricOp) : Laws.RoundTrip.Statement (.fabricRequest src pa op) := roundTrip_event _ rfl
theorem Laws.RoundTrip.linkCrcRetry (port : Nat) : Laws.RoundTrip.Statement (.linkCrcRetry port) := roundTrip_event _ rfl
theorem Laws.RoundTrip.linkFail (port : Nat) : Laws.RoundTrip.Statement (.linkFail port) := roundTrip_event _ rfl
theorem Laws.RoundTrip.cxlLinkFail (port : Nat) : Laws.RoundTrip.Statement (.cxlLinkFail port) := roundTrip_event _ rfl
theorem Laws.RoundTrip.uncorrectedError (e : ErrSite) : Laws.RoundTrip.Statement (.uncorrectedError e) := roundTrip_event _ rfl
theorem Laws.RoundTrip.correctedError (e : ErrSite) : Laws.RoundTrip.Statement (.correctedError e) := roundTrip_event _ rfl
theorem Laws.RoundTrip.scrubRead (e : ErrSite) (found : ScrubFinding) : Laws.RoundTrip.Statement (.scrubRead e found) := roundTrip_event _ rfl
theorem Laws.RoundTrip.checkedMismatch (hc : Nat) (mem : Nat) : Laws.RoundTrip.Statement (.checkedMismatch hc mem) := roundTrip_event _ rfl
theorem Laws.RoundTrip.markhorPairMismatch (die : Nat) (pair : Nat) : Laws.RoundTrip.Statement (.markhorPairMismatch die pair) := roundTrip_event _ rfl
theorem Laws.RoundTrip.wearUpdate (die : Nat) (poh : BitVec 32) (eolh : BitVec 32) : Laws.RoundTrip.Statement (.wearUpdate die poh eolh) := roundTrip_event _ rfl
theorem Laws.RoundTrip.powerCapChange (cap : Nat) : Laws.RoundTrip.Statement (.powerCapChange cap) := roundTrip_event _ rfl
theorem Laws.RoundTrip.measurementReport : Laws.RoundTrip.Statement .measurementReport := roundTrip_event _ rfl
theorem Laws.RoundTrip.reset (image : List Byte) : Laws.RoundTrip.Statement (.reset image) := roundTrip_event _ rfl
theorem Laws.RoundTrip.combineQueuePerform (core : Nat) : Laws.RoundTrip.Statement (.combineQueuePerform core) := roundTrip_event _ rfl
theorem Laws.RoundTrip.runtimeResumeRequest (hc : Nat) (halt : Bool) : Laws.RoundTrip.Statement (.runtimeResumeRequest hc halt) := roundTrip_event _ rfl

end Sys2Proof
end

