-- ==== Sys2Proof/Laws/Routine.lean ====
section
/-! SUPPORT. Bundles with routine slots: their commit, native routines and body calls. -/

namespace Sys2Proof.Machine

theorem exec_routine (i : Instr) (hk : i.kind = .routine) (s : State) : exec i s = issueOne i s := by
  cases i
  all_goals first
    | (exfalso; exact absurd (congrArg Kind.ctorIdx hk) (Nat.ne_of_beq_eq_false rfl))
    | exact rfl

theorem bundleOf_routine (i : Instr) (hk : i.kind = .routine) :
    bundleOf i = ⟨plainHdr 8, .ctrlNop 0, .snop, .vnop, .mnop, i, noRoutine⟩ := by
  unfold bundleOf
  rw [hk]

theorem routine_parts (i : Instr) (hk : i.kind = .routine) :
    (bundleOf i).c = .ctrlNop 0 ∧ (bundleOf i).ra = i ∧ (bundleOf i).rb.rn = 0 ∧ (bundleOf i).h.e = false ∧
    (bundleOf i).h.scope = 0 ∧ (bundleOf i).bytes = 16 := by
  rw [bundleOf_routine i hk]
  exact ⟨rfl, rfl, noRoutine_rn, rfl, rfl, (by decide : 8 * (plainHdr 8).words = 16)⟩

theorem routine_slots (u : State) (id : Nat) (h : HerdCtx) (i : Instr) (hk : i.kind = .routine) :
    (∀ x ∈ slotRuns u id h (bundleOf i), ∀ s, runSlot s x = .ok s) ∧
    ∀ s, foldStop runSlot (slotRuns u id h (bundleOf i)) s = .ok s := by
  have h1 : ∀ x ∈ slotRuns u id h (bundleOf i), ∀ s, runSlot s x = .ok s := by
    intro x hx s
    simp only [slotRuns, List.mem_flatMap, List.mem_range, List.mem_filterMap, Option.map_eq_some_iff] at hx
    obtain ⟨k, -, ⟨j, y⟩, hy, c, -, rfl⟩ := hx
    simp only [bundleOf_routine i hk, Bundle.slots, List.mem_cons, Prod.mk.injEq, List.not_mem_nil, or_false] at hy
    rcases hy with ⟨rfl, rfl⟩ | ⟨rfl, rfl⟩ | ⟨rfl, rfl⟩
    · exact runSlot_snop s c
    · exact runSlot_vnop s c
    · exact runSlot_mnop s c
  refine ⟨h1, ?_⟩
  generalize slotRuns u id h (bundleOf i) = l at h1
  intro s
  induction l with
  | nil => rfl
  | cons a l ih =>
    simp only [foldStop, h1 a (List.mem_cons_self ..)]
    exact ih fun x hx => h1 x (List.mem_cons_of_mem _ hx)

/-- What the control part of a routine's bundle reads. -/
def routineIn (u : State) (id : Nat) (h : HerdCtx) (hl : h.leadOf < h.members.length) : CtlIn :=
  { h := h, c := ctxFor u id h 0 0 h.leadOf h.members[h.leadOf], pc := h.pc, next := h.pc + 16 }

/-- A bundle of one routine commits, when neither a full link store nor an engine wait stands before it. -/
theorem issue_routine (i : Instr) (hk : i.kind = .routine) (s : State) (id : Nat) (h : HerdCtx) (ra : Option RCall)
    (hr : Ready s id h (bundleOf i)) (hnest : ra = none ∧ i.rn = 0 ∨ ∀ l ∈ h.loops, l.level < 6)
    (hra : routineCall (landAll s id) id h (bundleOf i) 4 i = ra) (hlink : linkFull h ra.toList = none)
    (hwait : (ra.bind fun r => r.wait (landAll s id)) = none)
    (hpops : ra.any (·.popsPaused (actsOn (landAll s id) id)) = false)
    (hstops : unwritten (runRoutines (committed (landAll s id) id h 16) id ra none h.pc
        (stepLoops h.pc (h.pc + 16) h.loops h.idx).2.2 Post.none) id = true →
      routinesStop (committed (landAll s id) id h 16) ra none h.pc (stepLoops h.pc (h.pc + 16) h.loops h.idx).2.2
        Post.none = false) :
    exec i s = .next (runRoutines (committed (landAll s id) id h 16) id ra none h.pc
      (stepLoops h.pc (h.pc + 16) h.loops h.idx).2.2 Post.none) := by
  have hp := routine_parts i hk
  have hi := (issues_iff _ _ _ _).mp hr.2
  have hl := hi.2.2.2.2.2.2.2.2.1
  have hx : ctlIn (landAll s id) id h (bundleOf i) = some (routineIn (landAll s id) id h hl) := by
    rw [ctlIn_some _ _ _ _ hl, hp.2.2.2.2.1, hp.2.2.2.2.2]
    rfl
  have hsl := routine_slots (landAll s id) id h i hk
  have hstop : stopsOf (landAll s id) id h (bundleOf i) = [] := by
    unfold stopsOf
    rw [hx, hp.1]
    simp only [runControl_nop, List.nil_append]
    simp only [List.flatMap_eq_nil_iff, List.filter_eq_nil_iff, List.mem_flatMap]
    rintro mi - y ⟨x, hxm, hy⟩
    rw [hsl.1 x hxm] at hy
    cases hy
  have hctl : ∀ x, ctlIn (landAll s id) id h (bundleOf i) = some x →
      runControl (bundleOf i).c x (landAll s id) = .ok (routineIn (landAll s id) id h hl).plain := by
    intro x hx'
    rw [hx] at hx'
    injection hx' with hx'
    subst hx'
    rw [hp.1, runControl_nop]
  have hfit : ((landAll s id).hc? id).map fitsSnapshot = some true := by
    rw [hi.1, Option.map_some, fitsSnapshot_eq]
    congr 1
    rw [List.all_eq_true]
    intro m hm
    exact m.fits_of_hasRoom ((List.all_eq_true.mp hi.2.2.2.2.2.2.2.2.2.1) m hm)
  have hnow : (bundleOf i).writesNow = false := by rw [bundleOf_routine i hk]; rfl
  have hbase : commitBase (landAll s id) id h (bundleOf i) (routineIn (landAll s id) id h hl).plain =
      (committed (landAll s id) id h 16, (stepLoops h.pc (h.pc + 16) h.loops h.idx).2.2) := by
    have he := hp.2.2.2.1
    unfold commitBase
    simp only [CtlIn.plain, routineIn, he, consumeTag, Bool.false_eq_true, if_false]
    rfl
  have hpost : ({ (routineIn (landAll s id) id h hl).plain.post with fin := (bundleOf i).h.e } : Post) = Post.none := by
    rw [hp.2.2.2.1]; rfl
  have hcommit : commit (landAll s id) id h (bundleOf i)
      (routineIn (landAll s id) id h hl).plain ra none =
      runRoutines (committed (landAll s id) id h 16) id ra none h.pc
        (stepLoops h.pc (h.pc + 16) h.loops h.idx).2.2 Post.none := by
    unfold commit
    simp only [hbase, hpost]
    rfl
  have hcs : commitStops (landAll s id) id h (bundleOf i) (routineIn (landAll s id) id h hl).plain ra none =
      routinesStop (committed (landAll s id) id h 16) ra none h.pc (stepLoops h.pc (h.pc + 16) h.loops h.idx).2.2
        Post.none := by
    unfold commitStops
    simp only [hbase, hpost]
  have hln : loopNest h (bundleOf i) = none := by
    rcases hnest with ⟨-, h0⟩ | hnest
    · unfold loopNest
      simp [Bundle.routines, hp.2.1, h0, hp.2.2.1]
    · have : (h.loops.any fun l => decide (6 ≤ l.level)) = false := by
        rw [List.any_eq_false]
        intro l hl
        simp only [decide_eq_true_eq, not_le]
        exact hnest l hl
      unfold loopNest
      rw [this]
  have hbw : bundleWait (landAll s id) id h [] ra none (fun _ => false) = none := by
    unfold bundleWait
    rw [engineBusy_zero h _ id hi.2.2.2.2.2.2.2.1]
    simp only [Bool.false_eq_true, if_false, firstWait, List.filterMap_nil]
    cases ra with
    | none => rfl
    | some r =>
      have hn : r.waitNow (landAll s id) false = none := by
        have : r.wait (landAll s id) = none := hwait
        unfold RCall.waitNow
        rw [this]
      simp only [Option.bind_some, hn]
      split <;> rfl
  rw [exec_routine i hk, issueOne_finishes i s id h ra none hr (by rw [hp.2.1]; exact hra)
    (routineCall_zero _ _ _ _ _ _ hp.2.2.1) hln (by simpa using hlink) hstop hbw rfl,
    finishBundle_commits _ id h _ (landAll s id) _ ra none hl hnow hctl (hsl.2 _) hfit hpops
      (by rw [hcommit, hcs]; exact hstops), hcommit]

/-! ### What follows the commit -/

theorem routineCall_id (u : State) (id : Nat) (h : HerdCtx) (b : Bundle) (k : Nat) (i : Instr) (r : RCall)
    (hr : routineCall u id h b k i = some r) : r.id = id ∧ i.rform = some r.f ∧ r.rn = i.rn ∧ r.slot = k ∧
      r.caps.length = h.members.length := by
  unfold routineCall at hr
  split at hr
  · rename_i e f hb hf
    injection hr with hr
    subst hr
    exact ⟨rfl, hf, rfl, rfl, by simp⟩
  · cases hr

theorem doPost_none (s : State) (id : Nat) : doPost s id Post.none = s.modHc id fun h => h := by
  unfold doPost Post.none
  simp

theorem committed_modHc (t : State) (id : Nat) (h : HerdCtx) (n : Nat) :
    (committed t id h n).modHc id (fun h => h) = committed t id h n := by
  unfold committed
  rw [State.modHc_self]

/-! ### The members' plans -/

/-- The plan of a member's part of a native routine in a state (R25). -/
def RCall.planAt (r : RCall) (c : Ctx) (s : State) : NatPlan :=
  if r.e.accepts r.f then natPlan r c s else NatPlan.fail (Trap.of .illegalField r.slot)

/-- One step of the planning of a routine slot's members. -/
def planStep (r : RCall) (x : State × List (Nat × NatPlan)) (mi : Nat) : State × List (Nat × NatPlan) :=
  if (r.cap mi).guard then
    match r.ctx x.1 mi with
    | some c => (if r.enters && (r.planAt c x.1).fault.isNone then (r.planAt c x.1).finish x.1 else x.1,
        x.2 ++ [(mi, r.planAt c x.1)])
    | none => x
  else x

theorem plans_eq (r : RCall) (w : State) :
    r.plans w = ((List.range r.caps.length).foldl (planStep r) (w, [])).2 := rfl

theorem foldl_snoc {α β : Type} (f : α → β → α) (l : List β) (b : β) (a : α) :
    (l ++ [b]).foldl f a = f (l.foldl f a) b := by
  rw [List.foldl_append]; rfl

/-- The members' plans of a routine that feeds no queue of Table 13.1 find no fault, and performed in order are one effect
on each acting member. -/
theorem plans_at_once (r : RCall) (w : State) (eff : Ctx → State → State) (hn : r.enters = false) (n : Nat)
    (hp : ∀ k c, (r.cap k).guard = true → r.ctx w k = some c → (r.planAt c w).fault = none ∧
      ∀ s, (r.planAt c w).finish s = eff c s) :
    let x := (List.range n).foldl (planStep r) (w, [])
    x.1 = w ∧ (∀ y ∈ x.2, y.2.fault = none) ∧
    x.2.foldl (fun s y => y.2.finish s) w = (List.range n).foldl (fun s k =>
      if (r.cap k).guard then (match r.ctx w k with | some c => eff c s | none => s) else s) w := by
  induction n with
  | zero => exact ⟨rfl, by simp, rfl⟩
  | succ n ih =>
    rw [List.range_succ, foldl_snoc, foldl_snoc]
    obtain ⟨h1, h2, h3⟩ := ih
    generalize (List.range n).foldl (planStep r) (w, []) = x at *
    obtain ⟨v, l⟩ := x
    dsimp only at h1 h2 h3
    subst h1
    unfold planStep
    cases hg : (r.cap n).guard with
    | false => exact ⟨rfl, h2, h3⟩
    | true =>
      simp only [if_true]
      cases hc : r.ctx v n with
      | none => exact ⟨rfl, h2, h3⟩
      | some c =>
        obtain ⟨f1, f2⟩ := hp n c hg hc
        dsimp only
        simp only [hn, Bool.false_and, Bool.false_eq_true, if_false]
        refine ⟨trivial, ?_, ?_⟩
        · intro y hy
          rcases List.mem_append.mp hy with hy | hy
          · exact h2 y hy
          · rw [List.mem_singleton.mp hy]; exact f1
        · rw [foldl_snoc, h3]
          exact f2 _

/-- The members' commands of a routine that feeds a queue find no fault, and performed in order are one effect on each acting
member, in the state that the members before it leave. -/
theorem plans_in_turn (r : RCall) (w : State) (eff : Ctx → State → State) (hn : r.enters = true) (n : Nat)
    (hp : ∀ k c, (r.cap k).guard = true → r.ctx (acrossInTurn r w eff k) k = some c →
      (r.planAt c (acrossInTurn r w eff k)).fault = none ∧
      (r.planAt c (acrossInTurn r w eff k)).finish (acrossInTurn r w eff k) = eff c (acrossInTurn r w eff k)) :
    let x := (List.range n).foldl (planStep r) (w, [])
    x.1 = acrossInTurn r w eff n ∧ (∀ y ∈ x.2, y.2.fault = none) ∧
    x.2.foldl (fun s y => y.2.finish s) w = acrossInTurn r w eff n := by
  induction n with
  | zero => exact ⟨rfl, by simp, rfl⟩
  | succ n ih =>
    obtain ⟨h1, h2, h3⟩ := ih
    have hs : acrossInTurn r w eff (n + 1) = (if (r.cap n).guard then (match r.ctx (acrossInTurn r w eff n) n with
        | some c => eff c (acrossInTurn r w eff n) | none => acrossInTurn r w eff n) else acrossInTurn r w eff n) := by
      unfold acrossInTurn
      rw [List.range_succ, foldl_snoc] <;> rfl
    rw [List.range_succ, foldl_snoc, hs]
    generalize (List.range n).foldl (planStep r) (w, []) = x at *
    obtain ⟨v, l⟩ := x
    dsimp only at h1 h2 h3
    have hpn := hp n
    rw [← h1] at hpn ⊢ h3
    unfold planStep
    cases hg : (r.cap n).guard with
    | false => exact ⟨rfl, h2, h3⟩
    | true =>
      simp only [if_true]
      cases hc : r.ctx v n with
      | none => exact ⟨rfl, h2, h3⟩
      | some c =>
        obtain ⟨f1, f2⟩ := hpn c hg hc
        dsimp only
        simp only [hn, f1, Option.isNone_none, Bool.and_self, if_true]
        refine ⟨f2, ?_, ?_⟩
        · intro y hy
          rcases List.mem_append.mp hy with hy | hy
          · exact h2 y hy
          · rw [List.mem_singleton.mp hy]; exact f1
        · rw [foldl_snoc, h3]
          exact f2

theorem firstFault_none (l : List (Nat × NatPlan)) (h : ∀ y ∈ l, y.2.fault = none) : firstFault l = none := by
  have : l.filterMap (fun x => x.2.fault.map (·.1)) = [] := by
    rw [List.filterMap_eq_nil_iff]
    intro x hx
    rw [h x hx]
    rfl
  unfold firstFault
  rw [this]
  rfl

theorem spoilAfter_self (s : State) (r : RCall) : (spoilAfter s r).modHc r.id (fun h => h) = spoilAfter s r := by
  unfold spoilAfter
  rw [State.modHc_self]

/-- No stop is requested of the herd-context in the state in which a routine acts. -/
theorem acting_stop (u : State) (id : Nat) (h : HerdCtx) (hu : u.hc? id = some h) (hs : h.stop = none) :
    ∀ g, (acting u id h).hc? id = some g → g.stop = none := by
  intro g hg
  have ht : (touchOverlay u h).hc? id = some h := by
    have : touchOverlay u h = (touchOverlay u h).withHctxs u.hctxs := by
      conv_lhs => rw [← State.withHctxs_self u, touchOverlay_withHctxs]
    rw [this]
    exact hu
  unfold acting settle committed at hg
  dsimp only at hg
  rw [State.modHc_modHc, State.modHc_of _ _ _ h ht] at hg
  have := (aget_aset_same (touchOverlay u h).hctxs id _).symm.trans hg
  injection this with this
  rw [← this]
  exact hs

/-- The commit and the act of a routine slot that finds no fault and no stop request. -/
theorem native_acts (i : Instr) (hk : i.kind = .routine) (s : State) (id : Nat) (h : HerdCtx) (r : RCall) (t : State)
    (hr : Ready s id h (bundleOf i)) (hb : Bound i (landAll s id) id h r) (hu : Unhindered i (landAll s id) r)
    (hst : h.stop = none)
    (hf : firstFault (r.plans (acting (landAll s id) id h)) = none)
    (ht : (r.plans (acting (landAll s id) id h)).foldl (fun s x => x.2.finish s) (acting (landAll s id) id h) = t) :
    exec i s = .next (afterNative t r) := by
  obtain ⟨hl, hrc, hact, -⟩ := hb
  obtain ⟨hn, -, hw, hpp⟩ := hu
  have hid := routineCall_id _ _ _ _ _ _ _ hrc
  have e1 : settle (committed (landAll s id) id h 16) r.id = acting (landAll s id) id h := by rw [hid.1]; rfl
  have hsa : stopAt (acting (landAll s id) id h) r (r.plans (acting (landAll s id) id h)) none = none := by
    unfold stopAt
    cases hg : (acting (landAll s id) id h).hc? r.id with
    | none => rfl
    | some g =>
      rw [hid.1] at hg
      have := acting_stop (landAll s id) id h ((issues_iff _ _ _ _).mp hr.2).1 hst g hg
      simp [this]
  have hra : ∀ l, actRoutine (committed (landAll s id) id h 16) r l = (spoilAfter t r, false) := by
    intro l
    unfold actRoutine
    simp only [hact, Bool.not_true, Bool.false_eq_true, if_false, hn, if_true, e1, hf, hsa]
    rw [ht]
  rw [issue_routine i hk s id h (some r) hr (.inr hl) hrc ?_ (by simpa using hw) (by simpa [hid.1] using hpp)
    (fun _ => by unfold routinesStop; simp [hra])]
  · congr 1
    unfold runRoutines
    simp only [hra]
    rw [doPost_none, ← hid.1, spoilAfter_self]
    rfl
  · unfold linkFull
    split
    · rfl
    · simp [hn]

/-- A native routine whose checks pass on every acting member. -/
theorem natively_of (i : Instr) (hk : i.kind = .routine) (hq : i.rn < 0x80) (pre : RCall → Ctx → State → Prop)
    (eff : RCall → State → Ctx → State → State)
    (hplan : ∀ r c w, i.rform = some r.f → r.e.std = i.rn → pre r c w →
      (natPlan r c w).fault = none ∧ ∀ s, (natPlan r c w).finish s = eff r w c s) : Natively i pre eff := by
  intro s id h r hr hb hu hst hpre
  have hid := routineCall_id _ _ _ _ _ _ _ hb.2.1
  have hen : r.enters = false := by
    unfold RCall.enters; rw [hu.2.1]; simpa using hq
  have := plans_at_once r (acting (landAll s id) id h) (eff r (acting (landAll s id) id h)) hen r.caps.length
    (fun k c hg hc => by
      unfold RCall.planAt
      rw [if_pos hb.2.2.2]
      exact hplan r c _ hid.2.1 hu.2.1 (hpre k c hg hc))
  exact native_acts i hk s id h r _ hr hb hu hst (firstFault_none _ this.2.1) this.2.2

/-- A native routine whose commands enter a queue, and whose checks pass on every acting member in its turn. -/
theorem natively_in_turn (i : Instr) (hk : i.kind = .routine) (hq : 0x80 ≤ i.rn) (pre : RCall → Ctx → State → Prop)
    (eff : RCall → Ctx → State → State)
    (hplan : ∀ r c w, i.rform = some r.f → r.e.std = i.rn → pre r c w →
      (natPlan r c w).fault = none ∧ (natPlan r c w).finish w = eff r c w) : NativelyInTurn i pre eff := by
  intro s id h r hr hb hu hst hpre
  have hid := routineCall_id _ _ _ _ _ _ _ hb.2.1
  have hen : r.enters = true := by
    unfold RCall.enters; rw [hu.2.1]; simpa using hq
  have := plans_in_turn r (acting (landAll s id) id h) (eff r) hen r.caps.length
    (fun k c hg hc => by
      unfold RCall.planAt
      rw [if_pos hb.2.2.2]
      exact hplan r c _ hid.2.1 hu.2.1 (hpre k c hg hc))
  exact native_acts i hk s id h r _ hr hb hu hst (firstFault_none _ this.2.1) this.2.2

/-- The number that a routine's word carries. -/
theorem rn_of (i : Instr) (n : BitVec 12) (f : RForm) (hf : i.rform = some f) (hw : slotWord i = some (wordR n f)) :
    i.rn = n.toNat := by
  unfold Instr.rn
  rw [hf, hw]
  exact wordR_rn n f

/-- A routine that is bound natively to number `n`, given by its plan. -/
theorem natively_at (i : Instr) (n : BitVec 12) (f : RForm) (hf : i.rform = some f) (hw : slotWord i = some (wordR n f))
    (hk : i.kind = .routine) (hq : n.toNat < 0x80) (pre : RCall → Ctx → State → Prop)
    (eff : RCall → State → Ctx → State → State)
    (hplan : ∀ r c w, r.f = f → r.e.std = n.toNat → pre r c w →
      (natPlan r c w).fault = none ∧ ∀ s, (natPlan r c w).finish s = eff r w c s) : Natively i pre eff := by
  refine natively_of i hk (by rw [rn_of i n f hf hw]; exact hq) pre eff fun r c w h1 h2 hp =>
    hplan r c w ?_ (by rw [h2, rn_of i n f hf hw]) hp
  rw [hf] at h1
  injection h1 with h1
  exact h1.symm

/-- The same of a routine whose commands enter a queue. -/
theorem natively_in_turn_at (i : Instr) (n : BitVec 12) (f : RForm) (hf : i.rform = some f)
    (hw : slotWord i = some (wordR n f)) (hk : i.kind = .routine) (hq : 0x80 ≤ n.toNat)
    (pre : RCall → Ctx → State → Prop) (eff : RCall → Ctx → State → State)
    (hplan : ∀ r c w, r.f = f → r.e.std = n.toNat → pre r c w →
      (natPlan r c w).fault = none ∧ (natPlan r c w).finish w = eff r c w) : NativelyInTurn i pre eff := by
  refine natively_in_turn i hk (by rw [rn_of i n f hf hw]; exact hq) pre eff fun r c w h1 h2 hp =>
    hplan r c w ?_ (by rw [h2, rn_of i n f hf hw]) hp
  rw [hf] at h1
  injection h1 with h1
  exact h1.symm

/-- A routine slot that acts on no member only advances. -/
theorem routine_idle (i : Instr) (hk : i.kind = .routine) (s : State) (id : Nat) (h : HerdCtx) (r : RCall)
    (hr : Ready s id h (bundleOf i)) (hl : ∀ l ∈ h.loops, l.level < 6)
    (hrc : routineCall (landAll s id) id h (bundleOf i) 4 i = some r) (hact : r.acts = false)
    (hw : r.wait (landAll s id) = none) (hpp : r.popsPaused (actsOn (landAll s id) id) = false) :
    exec i s = .next (committed (landAll s id) id h 16) := by
  rw [issue_routine i hk s id h (some r) hr (.inr hl) hrc ?_ (by simpa using hw) (by simpa using hpp)
    (fun _ => by unfold routinesStop actRoutine; simp [hact])]
  · unfold runRoutines actRoutine
    simp only [hact, Bool.not_false, if_true]
    rw [doPost_none, committed_modHc]
  · unfold linkFull
    split
    · rfl
    · simp [hact]

end Sys2Proof.Machine
end

