-- ==== Sys2Proof/Tests/Slice0.lean ====
section
/-! SUPPORT. The model's own tests: well-formedness refuses ill-formed terms, words written out from the spec's encoding
tables decode to what they stand for, and for every statement of the certificates a concrete state meets its hypotheses. -/

namespace Sys2Proof.Tests
open Sys2Proof Sys2Proof.Machine Sys2Proof.Claims

set_option maxRecDepth 20000

/-! ### Sample forms: every guard is p0, which reads true -/

def sr : SRForm := ⟨0, 0, 3, 1, 2, 0⟩
def s1 : S1Form := ⟨0, 0, 3, 1, 0⟩
def si : SIForm := ⟨0, 0, 3, 1, 63, 0⟩
def plog : PlogForm := ⟨0, 0, 1, 2, 3, 4, 0⟩
def movrsF : MovrsForm := ⟨0, 0, 1, 0⟩
def vr : VForm := ⟨0, 0, 0, 0, 0, 3, 1, 2, 0⟩
def vKlog : VForm := ⟨0, 0, 0, 0, 0, 3, 1, 2, 0⟩
def smem : SMemForm := ⟨0, 0, 0, 3, 1, 0, 0, 0⟩
def vmem : VMemForm := ⟨0, 0, 0, 3, 1, 0, 0, 0, 0, 0⟩
def sps : SpsForm := ⟨0, 0, 0, 3, 0, 0, 0⟩
def spv : SpvForm := ⟨0, 0, 0, 3, 0, 0, 0, 0, 0⟩
def gather : GatherForm := ⟨0, 0, 0, 3, 0, 2, 0⟩
def atom : AtomForm := ⟨0, 0, 0, 3, 1, 0, 2, 0, 0⟩

/-! ### Well-formedness (R53, R63, R65..R69, R158, R169) -/

/-- Each term breaks one check of well-formedness, which refuses it. -/
theorem test_wf_refuses_fields :
    ([.loopt 0 6 1, .loopt 0 5 0, .loopn 0 7 (.imm 3) 0, .waite 0 32, .shli { si with imm := 64 }, .shri { si with imm := 64 },
      .srai { si with imm := 64 }, .cmp ⟨0, 0, 1, 2, 3, 4, 10, 0⟩, .cmpi ⟨0, 0, 1, 2, 3, 4, 10⟩, .movsr ⟨0, 0, 3, 0x1D, 0⟩,
      .movsr ⟨0, 0, 3, 0, 0⟩, .movrs movrsF 0x14, .movrs movrsF 0x1D] : List Instr).all (fun i => !i.wf) = true := by decide

theorem test_wf_refuses_memory_fields :
    ([.hrd { smem with so := 1 }, .hrd { smem with imm := 2 }, .pref smem, .lpld { gather with sa := 1 },
      .lpst { gather with sa := 1 }, .aadd { atom with sc := 1 }, .amin { atom with sc := 1 }, .amax { atom with sc := 1 },
      .aminu { atom with sc := 1 }, .amaxu { atom with sc := 1 }, .aand { atom with sc := 1 }, .aor { atom with sc := 1 },
      .axor { atom with sc := 1 }, .aswp { atom with sc := 1 }, .cwait atom, .cwait { atom with sd := 0, sc := 1 }, .crd atom,
      .crd { atom with sv := 0, sc := 1 }, .routineSlot 0x3FF ⟨0, 0, 0, 0, 0, 0, 0⟩] : List Instr).all
      (fun i => !i.wf) = true := by decide

/-- RM or K where the operation has none; an unused field; a mask, scalar, lane, pair and limited field out of range; a stream
flag on a field that takes none, and a stream above q15. -/
theorem test_wf_refuses_vector_fields :
    ([.fmin { vr with rm := 1 }, .kpopc { vr with vb := 0, k := 1 }, .fadd { vr with vc := 1 }, .fadd { vr with sf := 1 },
      .vsel { vr with vc := 16 }, .kfromv { vr with vd := 16, vb := 0 }, .vbcst { vr with va := 0, vb := 64 },
      .vrot { vr with vb := 0, vc := 256 }, .fcmp { vr with vd := 256 }, .fcmp { vr with vc := 8 }, .icmp { vr with vc := 10 },
      .bfup { vr with vb := 0, vc := 2 }, .kor vKlog, .vext { vr with vb := 0, vd := 64 }, .fcmp { vr with sf := 8 },
      .fadd { vr with va := 16, sf := 4 }] : List Instr).all (fun i => !i.wf) = true := by decide

/-- An event has no encoding; a bundle that one operation stands for, a slot that is absent but holds an operation, a slot of
the wrong kind, scope 7, NP above 3, and an END below the bundle's size. -/
theorem test_wf_refuses_bundles :
    ([.measurementReport, .lateResultLand 0,
      .bundleIssue (plainHdr 1) (.ctrlNop 0) (.add sr) .vnop .mnop noRoutine noRoutine,
      .bundleIssue (plainHdr 2) (.ret 0) (.add sr) .vnop .mnop noRoutine noRoutine,
      .bundleIssue (plainHdr 3) (.ret 0) .vnop .vnop .mnop noRoutine noRoutine,
      .bundleIssue { plainHdr 3 with scope := 7 } (.ret 0) (.add sr) .vnop .mnop noRoutine noRoutine,
      .bundleIssue { plainHdr 3 with np := 4 } (.ret 0) (.add sr) .vnop .mnop noRoutine noRoutine,
      .bundleIssue (plainHdr 3) (.loopt 0 0 2) (.add sr) .vnop .mnop noRoutine noRoutine,
      .bundleIssue (plainHdr 3) (.add sr) (.add sr) .vnop .mnop noRoutine noRoutine] : List Instr).all
      (fun i => !i.wf) = true := by decide

/-- Terms at the limits of the same checks are well formed. -/
theorem test_wf_takes_the_limits :
    ([.loopt 0 5 1, .loopn 0 7 (.imm 0x3FFF) 1, .waite 0 31, .shli si, .cmp ⟨0, 0, 1, 2, 3, 4, 9, 0⟩, .movsr ⟨0, 0, 3, 0x2F, 0⟩,
      .movrs movrsF 0x0D, .hrd { smem with imm := 1 }, .acas { atom with sc := 1 }, .routineSlot 0x400 ⟨0, 0, 0, 0, 0, 0, 0⟩,
      .fadd { vr with va := 15, sf := 4 }, .vext { vr with vb := 0, vd := 63, vc := 255 }, .kandn { vKlog with vc := 3 },
      .bundleIssue { plainHdr 3 with scope := 6, np := 3 } (.loopt 0 0 3) (.add sr) .vnop .mnop noRoutine noRoutine] :
      List Instr).all (fun i => i.wf) = true := by decide

/-! ### Decoding by words written out from the encoding tables -/

/-- Section 3's worked words: header 1 is PRES = S alone, 2 V alone, 4 M alone, 8 RA alone. -/
theorem test_decode_add : decodeWords [1, 0x0400518700000000] = .ok (.add ⟨0, 0, 5, 6, 7, 0⟩) := rfl
theorem test_decode_cmpi : decodeWords [1, 0x40008C4FFFFFFFB2] = .ok (.cmpi ⟨0, 0, 2, 3, 4, 0xFFFFFFFB, 2⟩) := rfl
theorem test_decode_ffma : decodeWords [2, 0x100D540A0020A42A] = .ok (.ffma ⟨0, 3, 5, 1, 4, 40, 2, 41, 42⟩) := rfl
theorem test_decode_ld_d : decodeWords [4, 0x1C1CC82180004000] = .ok (.ldD ⟨0, 7, 3, 8, 2, 6, 16, 0⟩) := rfl
theorem test_decode_st_d : decodeWords [4, 0x3800482180002000] = .ok (.stD ⟨0, 0, 1, 8, 2, 6, 8, 0⟩) := rfl
theorem test_decode_fence_ld : decodeWords [4, 0xF4000002A0000000] = .ok (.fenceLd ⟨0, 0, 0xA⟩) := rfl
theorem test_decode_olda : decodeWords [8, 0x0120008030000000] = .ok (.olda ⟨0, 2, 3, 0, 0, 0, 0⟩) := rfl
theorem test_decode_exp2 : decodeWords [8, 0x0400050150000040] = .ok (.exp2 ⟨0, 20, 21, 0, 0, 4, 0⟩) := rfl
theorem test_decode_cpy : decodeWords [8, 0x0800008030140917] = .ok (.cpy ⟨0, 2, 3, 5, 9, 1, 7⟩) := rfl
theorem test_decode_br_back : decodeWords [0x07FFFFFFFE000000] = .ok (.br 0 0x3FFFFFFFE) := rfl
theorem test_decode_loopt : decodeWords [0x1880000003000000] = .ok (.loopt 0 1 3) := rfl
/-- The first bundle of the printed body of TLSC2 (Table 23.3). -/
theorem test_decode_tlsc2_first :
    decodeWords [0x0000000000000007, 0x2403800000000100, 0x940000FC40000000, 0x180034D000000000] =
      .ok (.bundleIssue (plainHdr 7) (.ctrlNop 0) (.movi ⟨0, 0, 56, 4, 0⟩) (.viota ⟨0, 0, 0, 0, 0, 1009, 0, 0, 0⟩)
        (.ldW ⟨0, 0, 0, 52, 13, 0, 0, 0⟩) noRoutine noRoutine) := rfl
/-- A reserved opcode, and bytes that end within a bundle. -/
theorem test_decode_refuses : (decodeWords [1, 0xFC00000000000000]).toOption = none ∧ (decodeWords [1]).toOption = none :=
  ⟨rfl, rfl⟩
/-- The table's numbering gives the same instruction as the bytes in memory. -/
theorem test_decode_table_word : decodeTableWord 128 (0x0400518700000000 * 2 ^ 64 + 1) = some (.add ⟨0, 0, 5, 6, 7, 0⟩) := rfl
/-- A step of the placed state runs exactly that instruction. -/
theorem test_step_runs_placed_word :
    (step (State.reset.withFetchWord 128 (0x0400518700000000 * 2 ^ 64 + 1))) =
      exec (.add ⟨0, 0, 5, 6, 7, 0⟩) { State.reset.withFetchWord 128 (0x0400518700000000 * 2 ^ 64 + 1) with
        agenda := [], clk := 1, cur := some 0 } := rfl

/-! ### Witnesses: an operation issues at once, on a herd of one member whose registers hold 0 -/

/-- A state in which the herd-context 0 has the turn and stands before `i`. -/
def before (i : Instr) : State := { placeWords State.reset (encode i) with agenda := [], cur := some 0 }

/-- The same with another member. -/
def beforeWith (m : Member) (i : Instr) : State := (before i).setHc 0 { placedHc with members := [m] }

/-- The herd-context with another member. -/
def hcWith (m : Member) : HerdCtx := { placedHc with members := [m] }

/-- `i` issues at once in that state. -/
def issuesBefore (i : Instr) : Bool := issues (landAll (before i) 0) 0 placedHc (bundleOf i)

/-- It is then Ready, the hypothesis of every `Acts`, `Advances`, `ActsWhen`, `Does` and `Runs`. -/
theorem ready_before {i : Instr} (h : issuesBefore i = true) : Ready (before i) 0 placedHc (bundleOf i) := ⟨rfl, h⟩

theorem test_hyps_scalar_integer :
    ([.add sr, .sub sr, .and sr, .or sr, .xor sr, .shl sr, .shr sr, .sra sr, .min sr, .max sr, .minu sr, .maxu sr, .rotl sr,
      .addi si, .andi si, .ori si, .xori si, .shli si, .shri si, .srai si, .movhi si, .movi ⟨0, 0, 3, 5, 0⟩] :
      List Instr).all issuesBefore = true := by decide

theorem test_hyps_multiply_divide_bits :
    ([.mul sr, .mulhs sr, .mulhu sr, .divs sr, .divu sr, .rems sr, .remu sr, .clz s1, .ctz s1, .popc s1, .sextb s1, .sexth s1,
      .sextw s1, .zextb s1, .zexth s1, .zextw s1, .sel ⟨0, 0, 3, 1, 2, 1, 0⟩] : List Instr).all issuesBefore = true := by decide

/-- The second clause of the division statement needs a divisor that is not 0. -/
theorem test_hyps_division_divisor : (1 : Word) ≠ 0 := by decide

theorem test_hyps_compares_and_floats :
    ([.cmp ⟨0, 0, 1, 2, 3, 4, 9, 0⟩, .cmpi ⟨0, 0, 1, 2, 3, 4, 9⟩, .pand plog, .por plog, .pxor plog, .pandn plog,
      .movp ⟨0, 0, 3, 1, 0⟩, .movps ⟨0, 0, 1, 2, 3, 0⟩, .sfadd sr, .sfsub sr, .sfmul sr, .sfmin sr, .sfmax sr, .sfcvtif s1,
      .sfcvtfi s1] : List Instr).all issuesBefore = true := by decide

/-- A member whose s1 holds `x`. -/
def withS1 (x : Word) : Member := { placedMember with s := lset placedMember.s 1 ⟨x, none⟩ }

theorem test_hyps_special_registers :
    ([.movsr ⟨0, 0, 3, 0x10, 0⟩, .movrs movrsF 0x01, .fpstatWrite movrsF, .cirWrite movrsF, .argWrite movrsF 3,
      .qposWrite movrsF 15, .febudgetWrite movrsF, .defprofileWrite movrsF] : List Instr).all issuesBefore = true := by decide

/-- DEFPROFILE takes 1 and 3, the ends of its range; CHKE's herd-context has nothing in flight or queued. -/
theorem test_hyps_defprofile_and_chke :
    ([1, 3] : List Word).all (fun x =>
      let i : Instr := .defprofileWrite movrsF
      let c := ctxFor (landAll (beforeWith (withS1 x) i) 0) 0 (hcWith (withS1 x)) 0 1 0 (withS1 x)
      issues (landAll (beforeWith (withS1 x) i) 0) 0 (hcWith (withS1 x)) (bundleOf i) &&
      decide (c.mi = 0 ∧ 1 ≤ (c.s 1 1).val.toNat ∧ (c.s 1 1).val.toNat ≤ 3)) = true ∧
    Drained (before (.chke ⟨0, 0, 3, 0⟩)) 0 placedHc (bundleOf (.chke ⟨0, 0, 3, 0⟩)) := by
  refine ⟨by decide, rfl, rfl, rfl, rfl, by decide, by decide, ?_, by decide, rfl, by decide⟩
  simp [placedHc, placedMember]

theorem test_hyps_lanes :
    (([.fadd vr, .fsub vr, .fmul vr, .ffma vr, .ffms vr, .fnma vr, .fmin vr, .fmax vr, .fabs vr, .fneg vr, .fcvti vr, .icvtf vr,
      .bfpk vr, .bfup vr, .iadd vr, .isub vr, .imul vr, .imulh vr, .iand vr, .ior vr, .ixor vr, .ishl vr, .ishr vr, .isra vr,
      .imin vr, .imax vr, .iminu vr, .imaxu vr] : List Instr).all issuesBefore = true) ∧ vr.sf = 0 := by decide

theorem test_hyps_lane_moves :
    (([.fcmp vr, .icmp vr, .vsel vr, .vmov vr, .vbcst vr, .vperm vr, .vrot vr, .viota vr, .vext vr, .vins vr, .frsum vr, .frmax vr,
      .frmin vr, .irsum vr, .irmax vr, .irmin vr, .kfromv vr, .kand vKlog, .kor vKlog, .kxor vKlog, .kandn vKlog, .kpopc vKlog] :
      List Instr).all issuesBefore = true) ∧ vr.sf = 0 := by decide

theorem test_hyps_memory :
    ([.ldB smem, .ldH smem, .ldW smem, .ldD smem, .ldSb smem, .ldSh smem, .ldSw smem, .stB smem, .stH smem, .stW smem, .stD smem,
      .vldW vmem, .vldH vmem, .vstW vmem, .vstH vmem, .trans ⟨0, 0, 0, 1, 2, 0, 0, 0⟩, .hinv ⟨0, 0, 0, 1, 0⟩, .hrd smem, .aadd atom,
      .amin atom, .amax atom, .aminu atom, .amaxu atom, .aand atom, .aor atom, .axor atom, .aswp atom, .acas atom,
      .cadd ⟨0, 0, 0, 1, 0, 2, 0⟩, .cwait atom, .crd atom, .feset smem, .feget smem] : List Instr).all issuesBefore = true := by
  decide

theorem test_hyps_scratchpad :
    ([.spldW sps, .spldD sps, .spstW sps, .spstD sps, .lpld gather, .lpst gather, .vspld spv, .vspst spv, .vspg gather,
      .vsps gather, .snop, .vnop, .mnop, .pref { smem with sd := 0 }, .fence ⟨0, 0, 0⟩, .fenceSt ⟨0, 0, 0⟩, .fenceLd ⟨0, 0, 0⟩,
      .setq ⟨0, 0, 0, 1, 2, 0, 0⟩, .ldwaitD smem, .ldtakeD smem, .stfillD smem, .sptakeD sps, .spfillD sps] : List Instr).all
      issuesBefore = true := by decide

/-! ### Witnesses: memory -/

/-- A handle of page 0 that permits everything its intent lets it. -/
def page (intent : BitVec 2) (c : Bool) : Handle :=
  { Handle.none with valid := true, r := true, w := true, fe := true, c := c, intent := intent }

/-- A member whose h1 holds a handle. -/
def withH (h : Handle) : Member := { placedMember with h := lset placedMember.h 1 h }

/-- The herd-context of one member `m` stands before `i`, and what `i`'s slot reads of it. -/
def ready (m : Member) (i : Instr) : Bool := issues (landAll (beforeWith m i) 0) 0 (hcWith m) (bundleOf i)
def ctxOf (m : Member) (i : Instr) : Ctx := ctxFor (landAll (beforeWith m i) 0) 0 (hcWith m) 0 (soloSlot i) 0 m

theorem ready_with {m : Member} {i : Instr} (h : ready m i = true) : Ready (beforeWith m i) 0 (hcWith m) (bundleOf i) := ⟨rfl, h⟩

/-- One valid access at each end of a 64 KiB page, and one that fails each check. -/
theorem test_hyps_handle_checks :
    handleFault (page 0 false) .load 0 8 8 = none ∧ handleFault (page 0 false) .load 65528 8 8 = none ∧
    (page 0 false).valid = true ∧ Ask.permitted .load (page 0 false) = none ∧ Handle.none.valid = false ∧
    Ask.permitted .atomic (page 1 false) = some .perm ∧ ((65529 : Int) + 8 > 2 ^ sizeLog (page 0 false).size) ∧
    ((-1 : Int) < 0) ∧ (4 : Int) % 8 ≠ 0 := by decide

theorem test_hyps_load_checks :
    (ready (withH (page 0 false)) (.ldD smem) = true) ∧
    passes (ctxOf (withH (page 0 false)) (.ldD smem)) 1 .load (offset (ctxOf (withH (page 0 false)) (.ldD smem)) smem.so smem.imm.toInt) 8 1 :=
  ⟨by decide, rfl⟩

theorem test_hyps_store_checks :
    (ready (withH (page 1 false)) (.stD smem) = true) ∧
    passes (ctxOf (withH (page 1 false)) (.stD smem)) 1 .store 0 8 1 ∧
    (storeOf smem 8 (ctxOf (withH (page 1 false)) (.stD smem))
      (landAll (beforeWith (withH (page 1 false)) (.stD smem)) 0)).isSome = true := ⟨by decide, rfl, by decide⟩

/-- An immediate write over two words, by an agent that stages nothing. -/
theorem test_hyps_immediate_write :
    State.memOk State.reset ∧ (Who.agent 0).cells State.reset = [] ∧
    (writeBytes State.reset (Who.agent 0) 6 [1, 2, 3, 4] none).isSome = true ∧ isStagedWrite (Who.agent 0) 6 = false ∧
    flowOk State.reset 0 6 = true ∧ portFailed State.reset 6 = false := ⟨rfl, by decide⟩

/-- A partition with a staging area of one record, and its node as an accessor. -/
def staging : State := (before .mnop).modPart 0 fun p => { p with cfg := { p.cfg with stageSize := 512 } }
def stagingWho : Who := { part := 0, node := some 0, staged := true }

/-- A write of a staged node, whether or not its line leaves L2. -/
theorem test_hyps_staged_write :
    State.memOk staging ∧ stagingWho.cells staging = [] ∧ isStagedWrite stagingWho 6 = true ∧
    (staging.inst? 0 0).isSome = true ∧ (writeBytes staging stagingWho 6 [1] none).isSome = true := by
  refine ⟨rfl, by decide, by decide, by decide, ?_⟩
  have hi : ((stagingWho.node.bind fun n => (staging.inst? stagingWho.part n).map (n, ·))).isSome = true := by decide
  have hp : (staging.part? stagingWho.part).isSome = true := by decide
  obtain ⟨⟨n, i⟩, hi⟩ := Option.isSome_iff_exists.mp hi
  obtain ⟨p, hp'⟩ := Option.isSome_iff_exists.mp hp
  have hf : stageFree p = 512 := by
    have h : (staging.part? stagingWho.part).map stageFree = some 512 := by decide
    rw [hp'] at h
    simpa using h
  have he : i.staged = [] := by
    have h : (staging.inst? stagingWho.part 0).map Inst.staged = some [] := by decide
    have hi0 : (staging.inst? stagingWho.part 0).map (0, ·) = some (n, i) := hi
    cases hx : staging.inst? stagingWho.part 0 with
    | none => rw [hx] at hi0; cases hi0
    | some j => rw [hx] at hi0 h; cases hi0; simpa using h
  have hn : (i.spilled staging 0 (linesOf 6 1)).length ≤ 1 := by
    have hl : linesOf 6 1 = [0] := by decide
    simp only [Inst.spilled, he, hl, List.map_nil, List.append_nil, List.filter_cons, List.filter_nil]
    split <;> simp [nsAdd]
  have hs : isStagedWrite stagingWho 6 = true := by decide
  simp only [writeBytes, hs, if_true, writeStaged, hi, hp', hf, List.length_singleton]
  have hn : (i.spilled staging stagingWho.part (linesOf 6 1)).length ≤ 1 := hn
  rw [if_neg]
  · rfl
  · omega

/-- A mask of no lane, and one of lane 255 alone, pass the checks of a vector access. -/
theorem test_hyps_vector_access :
    (ready (withH (page 1 false)) (.vstW vmem) = true) ∧ (ready (withH (page 0 false)) (.vldH { vmem with k := 1 }) = true) ∧
    ((List.range 256).all fun i => decide (handleFault (handle (ctxOf (withH (page 1 false)) (.vstW vmem)) 1) .store
      (laneOffset (ctxOf (withH (page 1 false)) (.vstW vmem)) vmem 4 i) 4 4 = none)) = true := by decide

/-- An access at offset 0 through h1 passes its checks. -/
def passesH (h : Handle) (i : Instr) (a : Ask) (al : Nat) : Bool :=
  ready (withH h) i && decide (handleFault (handle (ctxOf (withH h) i) 1) a 0 8 al = none)

theorem test_hyps_atomics_and_counters :
    ([Instr.aadd atom, .amin atom, .amax atom, .aminu atom, .amaxu atom, .aand atom, .aor atom, .axor atom, .aswp atom, .acas atom].all
      fun i => passesH (page 2 false) i .atomic 8) = true ∧
    passesH (page 3 false) (.cadd ⟨0, 0, 0, 1, 0, 2, 0⟩) .cadd 8 = true ∧ passesH (page 0 true) (.cwait atom) .counter 8 = true ∧
    passesH (page 0 true) (.crd atom) .counter 8 = true ∧ passesH (page 2 false) (.feset smem) .fe 8 = true ∧
    passesH (page 2 false) (.feget smem) .fe 8 = true ∧
    ((ctxOf (withH (page 0 true)) (.cwait atom)).s 2 2).val.toNat ≤ (view64 (before (.cwait atom)) (Who.agent 0) 0).toNat := by
  decide

/-- Scratchpad accesses resolve at address 0 and at the last word of the pool; a repair entry resolves under system code. -/
theorem test_hyps_scratchpad_resolves :
    let c := ctxOf placedMember (.spldD sps)
    let s := landAll (before (.spldD sps)) 0
    (spAccess s c .scalarD 0 8 8 0x21 0 false).toOption.isSome = true ∧
    (spAccess s c .scalar 4 4 4 0x22 0 true).toOption.isSome = true ∧
    (spStoreOf sps .scalarD 8 0x23 (ctxOf placedMember (.spstD sps)) s).isSome = true := by decide

/-- A member whose v2 holds 0 in every lane. -/
def withV2 : Member := { placedMember with v := [(2, ⟨List.replicate 256 0, none⟩)] }

/-- Every lane's row of a lane-private access lies in the slice of six rows. -/
theorem test_hyps_lane_private :
    ready withV2 (.lpld gather) = true ∧ ready withV2 (.lpst gather) = true ∧
    ((List.range 256).all fun i => decide (laneRow (ctxOf withV2 (.lpld gather)) gather i <
      ((landAll (beforeWith withV2 (.lpld gather)) 0).core 0).lpr)) = true := by decide

/-! ### Witnesses: streams, SETQ, waiting forms -/

/-- A record of 16 FP32 elements at scratchpad address 0, popped 16 at a time, and the same as a destination. -/
def record (out : Bool) : StrmRec :=
  { base := 0, ext := [16, 1, 1, 1], str := [1, 0, 0, 0], fmt := 1, space := 1, flags := if out then 1 else 0, popn := 16,
    rsv46 := 0, itab := 0, idim := 0, ilog2 := 0, ifmt := 0, rsv60 := 0 }

/-- q0 is a source and q1 a destination. -/
def withStreams : Member :=
  { placedMember with
    q := lset (lset placedMember.q 0 ⟨some (record false), true, 0, 0, none, [], [], [], none, []⟩) 1
      ⟨some (record true), true, 0, 0, none, [], [], [], none, []⟩ }

/-- FADD of a stream and a register to a stream; the effect stops on no member, its results fit. -/
def streamAdd : Instr := .fadd { vr with sf := 0xC, vd := 1, va := 0 }
def runsBefore (m : Member) (i : Instr) (fx : Ctx → State → Except Stop State) : Bool :=
  ready m i && (fx (ctxOf m i) (landAll (beforeWith m i) 0)).toOption.isSome &&
  (((foldActive (landAll (beforeWith m i) 0) 0 (hcWith m) i fx).toOption.bind (·.hc? 0)).map fitsSnapshot == some true)

theorem test_hyps_stream_forms :
    runsBefore withStreams streamAdd (anyLanes { vr with sf := 0xC, vd := 1, va := 0 } 4 2 fun _ _ a b _ =>
      faddOp .rne a b) = true ∧ runsBefore withStreams streamAdd (slotFx streamAdd) = true := by decide

theorem test_hyps_every_slot_operation :
    ([Instr.add sr, .vmov vr, .snop, .spldD sps].all fun i => runsBefore placedMember i (slotFx i)) = true ∧
    Instr.kind (.add sr) = .scalar ∧ Instr.kind (.vmov vr) = .vector ∧ Instr.kind (.spldD sps) = .memory := by decide

/-- Vector accesses of the scratchpad under k1, which holds lane 255 alone. -/
def withLane : Member := { withV2 with k := lset withV2.k 1 (BitVec.twoPow 256 255) }

theorem test_hyps_scratchpad_vectors :
    ([Instr.vspld { spv with k := 1 }, .vspst { spv with k := 1, vd := 2 }, .vspg { gather with k := 1 }, .vsps { gather with k := 1, vd := 2 }].all
      fun i => runsBefore withLane i (slotFx i)) = true := by decide

/-- The record's sixteen words stand at scratchpad address 0. -/
def withRecord (s : State) : State :=
  s.setCore 0 { s.core 0 with
    pool := ([0, 0, 16, 1, 1, 1, 1, 0, 0, 0, 0x00010001, 16, 0, 0, 0, 0] : List W32).zipIdx.map fun (x, k) => (264710 + k, x) }

theorem test_hyps_setq :
    let i : Instr := .setq ⟨0, 0, 0, 1, 2, 0, 0⟩
    let s := withRecord (before i)
    let u := landAll s 0
    issues u 0 placedHc (bundleOf i) = true ∧
    (spAccess u (ctxFor u 0 placedHc 0 3 0 placedMember) .engine 0 64 8 0x3E 0 false).toOption = some (.word 0 0) ∧
    (parseRecord (spBytes u 0 0 64)).refused = none ∧ parseRecord (spBytes u 0 0 64) = record false := by decide

/-- Waiting forms: the place of each passes its checks; the word at 0 is full, so a wait and a take work and a fill does not;
a fill works on an empty word, and a take does not. With the budget spent the same attempts trap. -/
theorem test_hyps_waiting_forms :
    let s := before (.ldwaitD smem)
    let e := { s with feEmpty := [0] }
    passesH (page 2 false) (.ldwaitD smem) .fe 8 = true ∧ passesH (page 2 false) (.ldtakeD smem) .fe 8 = true ∧
    passesH (page 2 false) (.stfillD smem) .fe 8 = true ∧ ready placedMember (.sptakeD sps) = true ∧
    ready placedMember (.spfillD sps) = true ∧
    (spAccess s (ctxOf placedMember (.sptakeD sps)) .fe 0 8 8 0x2A 0 true).toOption = some (.word 0 0) ∧
    feWorks .wait s (Who.agent 0) (.mem 0) ∧ feWorks .take s (Who.agent 0) (.mem 0) ∧ ¬ feWorks .fill s (Who.agent 0) (.mem 0) ∧ feWorks .fill e (Who.agent 0) (.mem 0) ∧
    ¬ feWorks .take e (Who.agent 0) (.mem 0) ∧ placedHc.feTries < placedHc.feBudget.toNat ∧ (64#12).toNat ≤ 64 := by
  refine ⟨by decide, by decide, by decide, by decide, by decide, by decide, .inr rfl, .inr ⟨rfl, rfl⟩,
    fun h => h.elim (absurd · (by decide)) fun h => absurd h.1 (by decide), .inr ⟨rfl, rfl⟩,
    fun h => h.elim (absurd · (by decide)) fun h => absurd h.1 (by decide), by decide, by decide⟩
/-! ### Witnesses: control operations -/

/-- A herd-context before `i`, and whether `i` issues at once. -/
def beforeHc (h : HerdCtx) (i : Instr) : State := (before i).setHc 0 h
def readyHc (h : HerdCtx) (i : Instr) : Bool := issues (landAll (beforeHc h i) 0) 0 h (bundleOf i)

/-- What the control operation reads. -/
def lead (h : HerdCtx) (i : Instr) (m : Member) : Ctx := leadCtx (landAll (beforeHc h i) 0) 0 h m

/-- A link, a loop of level 2 that ends at 40, and a link store that is full. -/
def oneLink : HerdCtx := { placedHc with links := [⟨24, none, ⟨false, false, 0⟩⟩] }
def oneLoop : HerdCtx := { placedHc with loops := [⟨2, 8, 40, 0, 3⟩] }
def fullLinks : HerdCtx := { placedHc with links := List.replicate 32 ⟨24, none, ⟨false, false, 0⟩⟩ }

/-- Every control operation issues at once, with its guard p0 true and with its guard p1 false. -/
theorem test_hyps_control_issues :
    ([.ctrlNop 0, .br 0 4, .brr 0 1, .call 0 4, .callr 0 1, .ret 0, .loopn 0 0 (.imm 3) 1, .loopn 0 0 (.reg 1) 1, .loopt 0 5 1,
      .lexit 0 2, .trap 0 7, .yield 0, .waite 0 31, .eret 0, .resume 0 1] : List Instr).all (readyHc placedHc) = true ∧
    (lead placedHc (.br 0 4) placedMember).p 0 0 = true ∧ (lead placedHc (.br 1 4) placedMember).p 0 1 = false ∧
    placedHc.members[placedHc.leadOf]? = some placedMember := by decide

/-- The conditions of register targets, calls and returns: aligned targets at 0 and at the last aligned address; 31 links leave
room, and one link can be returned to. -/
theorem test_hyps_branches :
    ([0, 0xFFFFFFFFFFFFFFF8] : List Word).all (fun x => readyHc (hcWith (withS1 x)) (.brr 0 1) &&
      decide (((lead (hcWith (withS1 x)) (.brr 0 1) (withS1 x)).s 12 1).val.toNat % 8 = 0)) = true ∧
    readyHc { fullLinks with links := fullLinks.links.drop 1 } (.call 0 4) = true ∧ (fullLinks.links.drop 1).length < 32 ∧
    readyHc oneLink (.ret 0) = true ∧ oneLink.links ≠ [] := by decide

/-- The traps: a target off by 4, a full link store, an empty one, a level in use, a loop that would end after the loop around it,
an inactive level, and a descriptor that names no frozen herd-context. -/
theorem test_hyps_control_traps :
    readyHc (hcWith (withS1 4)) (.brr 0 1) = true ∧
    ((lead (hcWith (withS1 4)) (.brr 0 1) (withS1 4)).s 12 1).val.toNat % 8 ≠ 0 ∧ readyHc fullLinks (.call 0 4) = true ∧
    readyHc fullLinks (.callr 0 1) = true ∧ 32 ≤ fullLinks.links.length ∧ placedHc.links = [] ∧
    readyHc oneLoop (.loopn 0 2 (.imm 3) 1) = true ∧ readyHc oneLoop (.loopt 0 3 9) = true ∧
    ¬ (loopEnd oneLoop 6).toNat ≤ 40 ∧ readyHc oneLoop (.lexit 0 3) = true ∧ (∀ k ∈ oneLoop.loops, k.level ≠ 3) ∧
    frozenBy (before (.resume 0 1)) 0 ((lead placedHc (.resume 0 1) placedMember).s 12 1).val = none := by decide

/-- Starts of loops: an empty range, the longest immediate count, a level of the loop table, and a loop that ends with the one
around it; a level that is active can end. -/
theorem test_hyps_loops :
    (∀ k ∈ oneLoop.loops, k.level ≠ 0) ∧ (∀ k ∈ oneLoop.loops, (loopEnd oneLoop 5).toNat ≤ k.stop.toNat) ∧
    readyHc oneLoop (.loopn 0 0 (.imm 0) 5) = true ∧ readyHc oneLoop (.loopn 0 0 (.imm 0x3FFF) 5) = true ∧
    readyHc oneLoop (.loopt 0 5 5) = true ∧
    (landAll (beforeHc oneLoop (.loopt 0 5 5)) 0).node? 0 0 = some placedNode ∧ 5 < fpNlev placedNode.footprint ∧
    readyHc oneLoop (.lexit 0 2) = true ∧ oneLoop.loops.find? (·.level == 2) = some ⟨2, 8, 40, 0, 3⟩ := by decide

/-- An end bundle below the limit, at the limit, and a bundle that is no end bundle. -/
theorem test_hyps_end_bundle :
    let k : Loop := ⟨2, 8, 40, 1, 3⟩
    k.stop = 40 ∧ k.cur + 1 < k.lim ∧ ({ k with cur := 2 } : Loop).lim ≤ ({ k with cur := 2 } : Loop).cur + 1 ∧ k.stop ≠ 48 := by
  decide

/-- A saved point of the first pair for ERET, and a frozen herd-context that RESUME's descriptor 0 names. -/
theorem test_hyps_eret_resume :
    let d : Die := { Die.reset with pairs := lset Die.reset.pairs 0 ⟨false, 0, some 64⟩ }
    let s := (before (.eret 0)).modDie 0 fun _ => d
    let t := (before (.resume 0 1)).setHc 1 { placedHc with hstate := .frozen }
    issues (landAll s 0) 0 placedHc (bundleOf (.eret 0)) = true ∧ (landAll s 0).dies[placedHc.die]? = some d ∧
    d.pairs[0]? = some ⟨false, 0, some 64⟩ ∧ issues (landAll t 0) 0 placedHc (bundleOf (.resume 0 1)) = true ∧
    frozenBy t placedHc.die ((leadCtx t 0 placedHc placedMember).s 12 1).val = some 1 := by decide

/-! ### Witnesses: routine slots -/

/-- Page tables: virtual 0.. and 2^28.. both map physical 0.., the first as an ordinary page, the second as a counter page. -/
def tables : List Host.Cell :=
  [(0, 3), (2, 2), (0x20000, 0x8D), (0x20001, 1), (0x40000, 3), (0x40002, 6), (0x60000, 0x8D), (0x60008, 0x0D), (0x60009, 1)]

/-- A partition with these tables. -/
def withTables (s : State) : State := ({ s with mem := tables }).modPart 0 fun p => { p with s1root := 0x40000 }

/-- A routine table entry of a signature, native or by its body. -/
def entryOf (rn prof : Nat) (sig : List (BitVec 8)) (native : Bool) : REntry :=
  { rn := rn, profile := prof, sig := sig, kkind := 1, fkind := 1, effects := 0, points := [0], body := 0, bodyLen := 8, shadow := 0,
    shadowOff := 0, digest := 0, native := native, std := rn, published := native, dropped := false }

/-- The herd-context under profile 1, with a member `m`, before `i`, with one routine table entry. -/
def hcP (m : Member) : HerdCtx := { placedHc with defProfile := 1, members := [m] }
def callState (m : Member) (e : REntry) (f : State → State) (i : Instr) : State :=
  f (((before i).modPart 0 fun p => { p with images := [{ placedImage (encode i) with entries := [e] }] }).setHc 0 (hcP m))

/-- The slot issues, binds natively to its own routine, waits for nothing, and meets `pre` where it acts. -/
def calledBy (h : HerdCtx) (s : State) (i : Instr) (pre : RCall → Ctx → State → Bool) : Bool :=
  let u := landAll s 0
  issues u 0 h (bundleOf i) && (match routineCall u 0 h (bundleOf i) 4 i with
    | some r => r.acts && r.e.accepts r.f && r.e.native && r.e.std == i.rn && (r.wait u).isNone &&
        !(r.popsPaused (actsOn u 0)) && h.stop.isNone && decide (h.links.length < linkMax) &&
        (match r.ctx (acting u 0 h) 0 with | some c => pre r c (acting u 0 h) | none => false)
    | none => false)
def called (m : Member) (e : REntry) (f : State → State) (i : Instr) (pre : RCall → Ctx → State → Bool) : Bool :=
  calledBy (hcP m) (callState m e f i) i pre

/-- Fields of a routine slot. -/
def rf (x y z w : BitVec 10) : RForm := ⟨0, x, y, z, w, 0, 0⟩

/-- Core 0 with tiles: slots o5, o6, o62, o63 and accumulator a3 claimed by context slot 0, o5 loaded as A and o6 as B. -/
def withTiles (s : State) : State :=
  s.setCore 0 { s.core 0 with
    oslots := [(5, ⟨true, 0, 1, 4, 0, [], []⟩), (6, ⟨true, 0, 2, 4, 0, [], []⟩), (62, ⟨true, 0, 0, 0, 0, [], []⟩),
      (63, ⟨true, 0, 0, 0, 0, [], []⟩)], accs := [(3, ⟨true, 0, true, 0, []⟩)] }

/-- Claims of free tiles at both ends of their numbers, releases of own ones, and the traps of both. -/
theorem test_hyps_claims :
    ([0, 63].all fun x => called placedMember (entryOf 0x10 1 [0x26, 0, 0, 0] true) id (.oclaim (rf x 0 0 0)) fun _ c w =>
      !((w.core c.m.core).oslot x.toNat).cl) = true ∧
    called placedMember (entryOf 0x10 1 [0x26, 0, 0, 0] true) withTiles (.oclaim (rf 5 0 0 0)) (fun _ c w =>
      ((w.core c.m.core).oslot 5).cl) = true ∧
    called placedMember (entryOf 0x11 1 [0x16, 0, 0, 0] true) withTiles (.ofree (rf 5 0 0 0)) (fun _ c w =>
      ((w.core c.m.core).oslot 5).cl && ((w.core c.m.core).oslot 5).owner == c.h.slot &&
        ((w.core c.m.core).oslot 5).role != 3) = true ∧
    called placedMember (entryOf 0x11 1 [0x16, 0, 0, 0] true) id (.ofree (rf 5 0 0 0)) (fun _ c w =>
      !((w.core c.m.core).oslot 5).cl) = true ∧
    called placedMember (entryOf 0x14 1 [0x27, 0, 0, 0] true) id (.aclaim (rf 3 0 0 0)) (fun _ c w =>
      !((w.core c.m.core).acc 3).cl) = true ∧
    called placedMember (entryOf 0x14 1 [0x27, 0, 0, 0] true) withTiles (.aclaim (rf 3 0 0 0)) (fun _ c w =>
      ((w.core c.m.core).acc 3).cl) = true ∧
    called placedMember (entryOf 0x15 1 [0x17, 0, 0, 0] true) withTiles (.afree (rf 3 0 0 0)) (fun _ c w =>
      ((w.core c.m.core).acc 3).cl && ((w.core c.m.core).acc 3).owner == c.h.slot) = true ∧
    called placedMember (entryOf 0x15 1 [0x17, 0, 0, 0] true) id (.afree (rf 3 0 0 0)) (fun _ c w =>
      !((w.core c.m.core).acc 3).cl) = true ∧ placedHc.members.length = 1 := by decide

/-- The commands of the array queue on claimed and loaded tiles, row 127 in mode 3, and an accumulator that is not claimed. -/
theorem test_hyps_array_commands :
    called placedMember (entryOf 0x17 1 [0x37, 0x16, 0x16, 0] true) withTiles (.mma (rf 3 5 6 0)) (fun _ c w =>
      let k := w.core c.m.core
      (k.acc 3).cl && (k.acc 3).owner == c.h.slot && (k.oslot 5).cl && (k.oslot 6).cl && (k.oslot 5).owner == c.h.slot &&
        (k.oslot 6).owner == c.h.slot && (k.oslot 5).role == 1 && (k.oslot 6).role == 2) = true ∧
    called placedMember (entryOf 0x17 1 [0x37, 0x16, 0x16, 0] true) id (.mma (rf 3 5 6 0)) (fun _ c w =>
      !((w.core c.m.core).acc 3).cl) = true ∧
    called placedMember (entryOf 0x16 1 [0x27, 0, 0, 0] true) withTiles (.azero (rf 3 0 0 0)) (fun _ c w =>
      ((w.core c.m.core).acc 3).cl) = true ∧
    called placedMember (entryOf 0x18 1 [0x37, 0, 0, 0] true) withTiles (.anorm (rf 3 0 0 0)) (fun _ c w =>
      ((w.core c.m.core).acc 3).cl) = true ∧
    called (withS1 127) (entryOf 0x1A 1 [0x21, 0x17, 0x12, 0x18] true) withTiles (.arow (rf 4 3 1 3)) (fun r c w =>
      decide ((r.cap c.mi).z.val.toNat < 128) && ((w.core c.m.core).acc 3).cl) = true := by decide

/-- Functions, and the vector form of a row routine. -/
theorem test_hyps_functions :
    ([(0x40, Instr.exp2 (rf 4 5 0 0)), (0x41, .expe (rf 4 5 0 0)), (0x42, .log2 (rf 4 5 0 0)), (0x43, .loge (rf 4 5 0 0)),
      (0x44, .rcp (rf 4 5 0 0)), (0x45, .rsqrt (rf 4 5 0 0)), (0x46, .sqrt (rf 4 5 0 0)), (0x47, .tanh (rf 4 5 0 0)),
      (0x48, .sigm (rf 4 5 0 0)), (0x49, .silu (rf 4 5 0 0)), (0x4A, .gelu (rf 4 5 0 0))] : List (Nat × Instr)).all
        (fun x => called placedMember (entryOf x.1 1 [0x21, 0x11, 0, 0] true) id x.2 fun _ _ _ => true) = true ∧
    ([(0x4B, Instr.divf (rf 4 5 6 0)), (0x53, .smxfin (rf 4 5 6 0)), (0x61, .bdot4 (rf 4 5 6 0))] : List (Nat × Instr)).all
        (fun x => called placedMember (entryOf x.1 1 [0x21, 0x11, 0x11, 0] true) id x.2 fun _ _ _ => true) = true := by decide

theorem test_hyps_row_routines :
    ([(0x50, Instr.rmax (rf 4 5 0 0)), (0x51, .rsum (rf 4 5 0 0)), (0x52, .smxupd (rf 4 5 0 0)), (0x54, .rmsn (rf 4 5 0 0)),
      (0x55, .lnrm (rf 4 5 0 0))] : List (Nat × Instr)).all (fun x =>
        called placedMember (entryOf x.1 1 [0x21, 0x11, 0x12, 0x14] true) id x.2 fun _ _ _ => true) = true ∧
    (rf 4 5 0 0).f.toNat = 0 ∧ (rf 4 5 0 0).z = 0 ∧ (rf 4 5 0 0).w = 0 := by decide

/-- TLSC2 through two valid handles. -/
theorem test_hyps_tlsc2 :
    called { placedMember with h := lset (lset placedMember.h 1 (page 0 false)) 2 (page 0 false) }
      (entryOf 0x62 1 [0x21, 0x15, 0x15, 0x11] true) id (.tlsc2 (rf 4 1 2 5)) (fun r c _ => (List.range 4).all fun k =>
        decide (handleFault (tlscHandle r c k).2 .load (4 * ((k % 2 : Nat) : Int)) 4 1 = none)) = true := by decide

/-! ### Long runs of a stream over one element -/

/-- A stream that goes round one element never leaves it. -/
def loopRecord (out : Bool) (fmt popn : BitVec 16) : StrmRec :=
  { record out with ext := [1, 1, 1, 1], fmt := fmt, popn := popn, flags := if out then 9 else 8 }

theorem fetchElems_ok {s : State} {u : StrmUse} {q : Strm} {r : StrmRec} {c a : Nat}
    (h : ∀ e, elemLoc s u r q.bte e = .ok (s, q.bte, .sp c a)) :
    ∀ n e, ∃ x, fetchElems s u q r e n = .ok (s, q, x) := by
  intro n
  induction n with
  | zero => exact fun e => ⟨[], rfl⟩
  | succ n ih =>
    intro e
    have hf : ∃ d t, fetchElem s u q r e = .ok (s, q, d, t) := by
      simp only [fetchElem]
      split
      · exact ⟨_, _, rfl⟩
      · rw [h e]
        exact ⟨_, _, rfl⟩
    obtain ⟨d, t, hf⟩ := hf
    obtain ⟨x, hx⟩ := ih (e + 1)
    exact ⟨(d, t) :: x, by simp only [fetchElems, hf, hx]⟩

/-- Pops from a stream whose places are all reached do not fail. -/
theorem popRun_ok {s : State} {u : StrmUse} {r : StrmRec} {d a : Nat} {c : AMap Word}
    (h : ∀ e, elemLoc s u r c e = .ok (s, c, .sp d a)) :
    ∀ n t (x : PopRun), x.s = s → x.q.bte = c → x.fail = none → (popRun u r n t x).fail = none := by
  intro n
  induction n with
  | zero => exact fun _ _ _ _ hf => hf
  | succ n ih =>
    intro t x hs hc hf
    obtain ⟨y, hy⟩ := fetchElems_ok (s := s) (u := u) (q := x.q) (r := r) (c := d) (a := a) (by simpa [hc] using h)
      (runCount r x.q.pos) x.q.pos
    simp only [popRun, hf, hs, hy]
    exact ih _ _ rfl hc rfl

theorem pushPlaces_ok {s : State} {u : StrmUse} {r : StrmRec} {l : Loc} {c : AMap Word}
    (h : ∀ e, elemLoc s u r c e = .ok (s, c, l)) (st : Nat) :
    ∀ n e i a, ∃ x, pushPlaces u r st n e i s c a = .ok (s, c, x) := by
  intro n
  induction n with
  | zero => exact fun _ _ a => ⟨a.reverse, rfl⟩
  | succ n ih =>
    intro e i a
    obtain ⟨x, hx⟩ := ih (e + st) (i + st) ((l, i) :: a)
    exact ⟨x, by simp only [pushPlaces, h e, hx]⟩

/-- Pushes to a stream whose places are all reached do not fail. -/
theorem pushRun_ok {s : State} {u : StrmUse} {r : StrmRec} {l : Loc} {c : AMap Word}
    (h : ∀ e, elemLoc s u r c e = .ok (s, c, l)) :
    ∀ n t (x : PushRun), x.s = s → x.q.bte = c → x.fail = none → (pushRun u r n t x).fail = none := by
  intro n
  induction n with
  | zero => exact fun _ _ _ _ hf => hf
  | succ n ih =>
    intro t x hs hc hf
    obtain ⟨y, hy⟩ := pushPlaces_ok h (if r.bfp.isSome then 32 else 1) (runCount r x.q.pos / (if r.bfp.isSome then 32 else 1))
      x.q.pos x.seq []
    simp only [pushRun, hf, hs, hc, hy]
    exact ih _ _ rfl rfl rfl

theorem coords_loopRecord (out : Bool) (fmt popn : BitVec 16) (e : Nat) :
    (loopRecord out fmt popn).coords e = (loopRecord out fmt popn).coords 0 := by
  cases out <;> simp [StrmRec.coords, loopRecord, record, StrmRec.wrap, StrmRec.total, StrmRec.extN, Nat.mod_one]

theorem elemLoc_loopRecord {s : State} {u : StrmUse} {out : Bool} {fmt popn : BitVec 16} {c : AMap Word} (e : Nat) :
    elemLoc s u (loopRecord out fmt popn) c e = elemLoc s u (loopRecord out fmt popn) c 0 := by
  unfold elemLoc elemAddr
  rw [coords_loopRecord]

/-- The call that a slot makes, and what it reads of the member where it acts. -/
def callOf (m : Member) (s : State) (i : Instr) : RCall :=
  (routineCall (landAll s 0) 0 (hcP m) (bundleOf i) 4 i).getD ⟨0, 4, 0, rf 0 0 0 0, 0, entryOf 0 0 [] false, 0, [], 0, false⟩
def whereOf (m : Member) (s : State) (i : Instr) : Ctx :=
  ((callOf m s i).ctx (acting (landAll s 0) 0 (hcP m)) 0).getD (ctxOf m i)

/-- A member whose q2 is a source and q3 a destination that go round one element: BF16, 256 at a time, and FP32. -/
def withLoops : Member :=
  { placedMember with
    q := lset (lset placedMember.q 2 ⟨some (loopRecord false 2 256), true, 0, 0, none, [], [], [], none, []⟩) 3
      ⟨some (loopRecord true 1 256), true, 0, 0, none, [], [], [], none, []⟩ }

def oldaI : Instr := .olda (rf 62 2 0 0)
def bfpqI : Instr := .bfpq (rf 5 2 2 1)
def astoI : Instr := .asto (rf 3 3 0 0)
def oldaS : State := callState withLoops (entryOf 0x12 1 [0x26, 0x14, 0, 0] true) withTiles oldaI
def bfpqS : State := callState withLoops (entryOf 0x60 1 [0x26, 0x14, 0x18, 0x18] true) withTiles bfpqI
def astoS : State := callState withLoops (entryOf 0x19 1 [0x17, 0x24, 0, 0] true) withTiles astoI

/-- OLDA of BF16 elements issues, binds and waits for nothing, and its tile loads: the pair of slots is claimed, the record is taken and no pop fails. -/
theorem test_hyps_olda :
    called withLoops (entryOf 0x12 1 [0x26, 0x14, 0, 0] true) withTiles oldaI (fun _ _ _ => true) = true ∧
    tilePasses 62 (fun n => n = 2 ∨ (bfpWidth n).isSome = true) (fun rc => rc.bfp.getD 16) (callOf withLoops oldaS oldaI)
      (whereOf withLoops oldaS oldaI) (acting (landAll oldaS 0) 0 (hcP withLoops)) := by
  refine ⟨by decide, 2, ⟨some (loopRecord false 2 256), true, 0, 0, none, [], [], [], none, []⟩, loopRecord false 2 256, rfl, ⟨by decide, by decide, .inl rfl⟩,
    ⟨⟨by decide, by decide⟩, fun _ => ⟨by decide, by decide, by decide⟩⟩, by decide, ?_⟩
  exact popRun_ok (s := acting (landAll oldaS 0) 0 (hcP withLoops)) (c := []) (d := 0) (a := 0)
    (fun e => (elemLoc_loopRecord e).trans rfl) _ _ _ rfl rfl rfl

/-- BFPQ to width 2 in role B. -/
theorem test_hyps_bfpq :
    called withLoops (entryOf 0x60 1 [0x26, 0x14, 0x18, 0x18] true) withTiles bfpqI (fun _ _ _ => true) = true ∧
    2 ≤ (rf 5 2 2 1).z.toNat ∧ (rf 5 2 2 1).w.toNat ≤ 1 ∧
    tilePasses 5 (fun n => n = 1 ∨ n = 2) (fun _ => 2) (callOf withLoops bfpqS bfpqI) (whereOf withLoops bfpqS bfpqI)
      (acting (landAll bfpqS 0) 0 (hcP withLoops)) := by
  refine ⟨by decide, by decide, by decide, 2, ⟨some (loopRecord false 2 256), true, 0, 0, none, [], [], [], none, []⟩, loopRecord false 2 256, rfl,
    ⟨by decide, by decide, .inr rfl⟩,
    ⟨⟨by decide, by decide⟩, fun h => absurd h (by decide)⟩, by decide, ?_⟩
  exact popRun_ok (s := acting (landAll bfpqS 0) 0 (hcP withLoops)) (c := []) (d := 0) (a := 0)
    (fun e => (elemLoc_loopRecord e).trans rfl) _ _ _ rfl rfl rfl

/-- ASTO of a claimed accumulator to a stream. -/
theorem test_hyps_asto :
    called withLoops (entryOf 0x19 1 [0x17, 0x24, 0, 0] true) withTiles astoI (fun _ _ _ => true) = true ∧
    ∃ q rc, (callOf withLoops astoS astoI).stream (whereOf withLoops astoS astoI) 1 true = .ok (3, q, rc) ∧ rc.fem = 0 ∧
      rc.pop = 256 ∧ fmtPublished rc.fmtN = true ∧
      holdsAcc (acting (landAll astoS 0) 0 (hcP withLoops)) (whereOf withLoops astoS astoI) 3 ∧
      runsOut rc q.pos (astoPushes rc) = false ∧
      (pushRun ((whereOf withLoops astoS astoI).use q) rc (astoPushes rc) 0
        ⟨acting (landAll astoS 0) 0 (hcP withLoops), q, 0, [], none⟩).fail = none := by
  refine ⟨by decide, ⟨some (loopRecord true 1 256), true, 0, 0, none, [], [], [], none, []⟩, loopRecord true 1 256, rfl, by decide, by decide,
    by decide, ⟨by decide, by decide⟩, by decide, ?_⟩
  exact pushRun_ok (s := acting (landAll astoS 0) 0 (hcP withLoops)) (c := []) (l := .sp 0 0)
    (fun e => (elemLoc_loopRecord e).trans rfl) _ _ _ rfl rfl rfl

/-- The stream form of a row routine over one pop. -/
def rowMember : Member :=
  { withS1 1 with q := lset placedMember.q 2 ⟨some (loopRecord false 1 16), true, 0, 0, none, [], [], [], none, []⟩ }
def rowI : Instr := .rsum ⟨0, 4, 0, 1, 2, 0, 1⟩
def rowS : State := callState rowMember (entryOf 0x51 1 [0x21, 0x11, 0x12, 0x14] true) id rowI
theorem test_hyps_row_stream :
    called rowMember (entryOf 0x51 1 [0x21, 0x11, 0x12, 0x14] true) id rowI (fun _ _ _ => true) = true ∧
    rowStreamPasses ⟨0, 4, 0, 1, 2, 0, 1⟩ (callOf rowMember rowS rowI) (whereOf rowMember rowS rowI)
      (acting (landAll rowS 0) 0 (hcP rowMember)) := by
  refine ⟨by decide, by decide, by decide, by decide, by decide, 2, ⟨some (loopRecord false 1 16), true, 0, 0, none, [], [], [], none, []⟩,
    loopRecord false 1 16, rfl, by decide, by decide, by decide, ?_⟩
  exact popRun_ok (s := acting (landAll rowS 0) 0 (hcP rowMember)) (c := []) (d := 0) (a := 0)
    (fun e => (elemLoc_loopRecord e).trans rfl) _ _ _ rfl rfl rfl

/-! ### Witnesses: copy, combine, job and ring routines, body calls -/

/-- Words of the scratchpad from address 0 on. -/
def withWords (l : List W32) (s : State) : State :=
  s.setCore 0 { s.core 0 with pool := l.zipIdx.map fun (x, k) => (264710 + k, x) }

/-- CPY between two scratchpad streams; CPYRED of 16 words to memory at 0x8000, whose home slice has an entry of group 0, SID 0. -/
def redMember : Member :=
  { withStreams with q := lset withStreams.q 1 ⟨some { record true with space := 0, base := 0x8000 }, true, 0, 0, none, [], [], [], none, []⟩ }
theorem test_hyps_cpy :
    called withStreams (entryOf 0x80 1 [0x14, 0x24, 0x15, 0x12] true) id (.cpy (rf 0 1 1 2)) (fun r c w =>
      (cpyCheck r c w).toOption.isSome) = true ∧
    called redMember (entryOf 0x81 1 [0x14, 0x24, 0x15, 0x12] true)
      (fun s => (withTables s).setSlice (homeSlice 0x8000) ⟨[(0, 0x80000000)], [], [], []⟩) (.cpyred (rf 0 1 1 2)) (fun r c w =>
        (redCheck r c w).toOption.isSome) = true := by decide

/-- TSTLOAD of slice 255 from an image of 64 invalid entries. -/
theorem test_hyps_tstload :
    called (withS1 255) (entryOf 0x82 1 [0x12, 0x12, 0, 0] true) (withWords (List.replicate 64 0)) (.tstload (rf 1 2 0 0))
      (fun r c w => decide ((r.cap c.mi).x.val.toNat < 256) && (match r.block c w ((r.cap c.mi).y.val.toNat % 2 ^ 32) 256 8 with
        | .ok (t, b) => (slotsBad (Machine.slotWords (spBytes w t b 256))).isNone
        | .error _ => false)) = true := by decide

theorem test_hyps_block_table_routines :
    called (withH (page 2 false)) (entryOf 0x83 1 [0x32, 0x15, 0x12, 0x12] true) id (.btswap (rf 3 1 4 5)) (fun r c _ =>
      r.mode == 0 && (r.reach c 1 .atomic (r.cap c.mi).x.val.toInt 8 8).toOption.isSome) = true ∧
    called (withH (page 0 false)) (entryOf 0x84 1 [0x15, 0, 0x15, 0x12] true) id (.btfence (rf 1 0 2 3)) (fun r c _ =>
      r.mode == 0 && (r.reach c 0 .load 0 1 1).toOption.isSome &&
        (r.counter c ((r.cap c.mi).w.val.toNat % 2 ^ 32)).toOption.isSome) = true := by decide

/-- A combine unit with one slot and one row, quotas of one each, and a record of one contribution of one row. -/
def withUnit (tokens : AMap Token) (s : State) : State :=
  let s := (withTables s).modDie 0 fun d => { d with comb := ⟨1, 1, 1, [], tokens, 0⟩ }
  s.modPart 0 fun p => { p with cfg := { p.cfg with cbQuota := [1, 1, 1] ++ List.replicate 9 0 } }
def tokenWords : List W32 := [0, 0x0101] ++ List.replicate 12 0 ++ [0x4000, 0, 0, 0, 0x10002000, 0] ++ List.replicate 4 0
def aToken : Token :=
  { part := 0, node := 0, inst := 0, hc := 0, mem := 0, seqNo := 0, fields := [0, 0, 0, 0, 1, 1] ++ List.replicate 90 0,
    dest := [0], fallback := [], rctr := 0x2000, applied := [0], arrived := [0], substd := [0], acc := [none], staged := [],
    complete := false }

theorem test_hyps_combine_routines :
    called placedMember (entryOf 0xA0 1 [0x22, 0x12, 0, 0] true) (fun s => withWords tokenWords (withUnit [] s))
      (.cbreg (rf 3 1 0 0)) (fun r c w => (cbregCheck r c w).toOption.isSome) = true ∧
    called placedMember (entryOf 0xA1 1 [0x11, 0x12, 0x12, 0] true) (withUnit []) (.cbput (rf 5 1 2 0)) (fun r c w =>
      decide (putMatch w c.h.part (r.cap c.mi).y.val (r.cap c.mi).z.val = .drop)) = true ∧
    called placedMember (entryOf 0xA1 1 [0x11, 0x12, 0x12, 0] true) (withUnit [(0, aToken)]) (.cbput (rf 5 1 2 0)) (fun r c w =>
      decide (putMatch w c.h.part (r.cap c.mi).y.val (r.cap c.mi).z.val = .fill aToken 0) &&
        !putQueued w (r.cap c.mi).y.val (r.cap c.mi).z.val) = true ∧
    called (withS1 4) (entryOf 0xA2 1 [0x22, 0x12, 0x12, 0] true) (withUnit []) (.cbstat (rf 3 1 2 0)) (fun r c _ =>
      decide ((r.cap c.mi).y.val.toNat ≤ 4)) = true := by decide

/-- A job control block at 0x1000 with producers 0 and 63 open and its counter at 2^28 + 0x2000; a ring control block at 0x3000
whose index is published in host memory at 2^29. -/
def blocks : List Host.Cell :=
  [(0, 3), (2, 2), (0x1010, 1), (0x1017, 0x80), (0x1019, 0x20), (0x101B, 0x10), (0x3003, 0x20), (0x20000, 0x8D), (0x20001, 1),
   (0x20008, 0x8D), (0x20009, 1), (0x2000D, 0x80), (0x40000, 3), (0x40002, 6), (0x60000, 0x8D), (0x60008, 0x0D), (0x60009, 1),
   (0x60010, 0x8D), (0x60013, 0x10)]
def withBlocks (s : State) : State :=
  ({ s with mem := blocks }).modPart 0 fun p => { p with s1root := 0x40000, cfg := { p.cfg with vectors := 1 } }
/-- h1 with intent 2, s1 the offset of the block and s2 the producer. -/
def jobMember (off p : Word) : Member :=
  { withH (page 2 false) with s := lset (lset placedMember.s 1 ⟨off, none⟩) 2 ⟨p, none⟩ }

set_option exponentiation.threshold 2100 in
theorem test_hyps_job_routines :
    ([0, 63] : List Word).all (fun p =>
      called (jobMember 0x1000 p) (entryOf 0xB0 1 [0x15, 0x12, 0x12, 0x12] true) withBlocks (.jexp (rf 1 1 2 3)) (fun r c w =>
        (jobCheck r c w false).toOption.isSome) &&
      called (jobMember 0x1000 p) (entryOf 0xB1 1 [0x15, 0x12, 0x12, 0x12] true) withBlocks (.jdone (rf 1 1 2 3)) (fun r c w =>
        (jobCheck r c w true).toOption.isSome)) = true ∧
    called (jobMember 0x3000 0) (entryOf 0xC0 1 [0x15, 0x12, 0x12, 0x12] true) withBlocks (.ringadv (rf 1 1 2 3)) (fun r c w =>
      (ringCheck r c w).toOption.isSome) = true := by decide

/-- A slot bound to a body, one whose guard is false on every member, and RN 0. -/
def bodyI : Instr := .routineSlot 0x400 (rf 4 5 0 0)
def bodyS : State := callState placedMember (entryOf 0x400 1 [0x21, 0x11, 0, 0] false) id bodyI
def idleI : Instr := .exp2 ⟨1, 4, 5, 0, 0, 0, 0⟩
def idleS : State := callState placedMember (entryOf 0x40 1 [0x21, 0x11, 0, 0] true) id idleI

theorem test_hyps_body_calls :
    issuesBefore (.routineNop (rf 0 0 0 0)) = true ∧
    issues (landAll bodyS 0) 0 (hcP placedMember) (bundleOf bodyI) = true ∧ (hcP placedMember).loops = [] ∧
    (hcP placedMember).links.length < 32 ∧ (callOf placedMember bodyS bodyI).acts = true ∧
    (callOf placedMember bodyS bodyI).e.accepts (callOf placedMember bodyS bodyI).f = true ∧
    (callOf placedMember bodyS bodyI).e.native = false ∧ ((landAll bodyS 0).image? (hcP placedMember)).isSome = true ∧
    issues (landAll idleS 0) 0 (hcP placedMember) (bundleOf idleI) = true ∧ (callOf placedMember idleS idleI).acts = false ∧
    (callOf placedMember idleS idleI).wait (landAll idleS 0) = none := by decide

/-- A frame whose member took part, and one whose member did not. -/
theorem test_hyps_returns :
    let f : Frame := ⟨0x400, 0, 1, [0x22, 0x11, 0, 0], 4, 5, 0, 0, [true, false], 0, 0⟩
    f.active.getD 0 true = true ∧ f.active.getD 1 true = false ∧
    { placedMember with args := [⟨1, 2, 3, 4, 0⟩] }.args = (⟨1, 2, 3, 4, 0⟩ : Args) :: [] := by decide

theorem test_hyps_listed_values : isNaN32 0x7FC00001 = true := by decide


/-! ### Witnesses: the heads of the engines' queues -/

/-- The herd-context 0 with nothing to do, on core 0. -/
def base : State := before .mnop

/-- A matrix queue whose head is `op`, of member 0. -/
def loadHead (op : MatOp) : State := withLoads (withTiles base) 0 [⟨0, 0, op⟩]
def arrayHead (op : MatOp) : State := withArrays (withTiles base) 0 [⟨0, 0, op⟩]

theorem test_hyps_queue_heads :
    ([.load 5 1 4 [] 0, .load 5 2 16 [] 3] : List MatOp).all (fun x => (loadHead x |>.core 0).loadQ == [⟨0, 0, x⟩]) = true ∧
    ([.azero 3, .mma 3 5 6 false, .anorm 3 true, .arow 4 3 127 3 1 none] : List MatOp).all
      (fun x => (arrayHead x |>.core 0).arrayQ == [⟨0, 0, x⟩]) = true ∧
    ((base.setCore 0 { base.core 0 with fnQ := [⟨0, 0, 4, 1, [], none, 0⟩] }).core 0).fnQ = [⟨0, 0, 4, 1, [], none, 0⟩] ∧
    base.hc? 0 = some placedHc := by decide

/-- ASTO of one unit to the scratchpad. -/
theorem test_hyps_asto_head :
    let s := loadHead (.asto 3 1 [(.sp 0 0, 0)] false 1)
    (s.core 0).loadQ = [⟨0, 0, .asto 3 1 [(.sp 0 0, 0)] false 1⟩] ∧ s.hc? 0 = some placedHc ∧
    (writeOut s (placedHc.who s) (([(Loc.sp 0 0, 0)].map fun x => (x.1, astoUnit 1 ((s.core 0).acc 3).dense x.2)).map fun x =>
      ⟨x.1, x.2.1, x.2.2.1, false⟩)).isSome = true := by
  refine ⟨by decide, by decide, rfl⟩

/-- A copy engine whose head is `op`. -/
def copyCmd (op : CopyOp) : CopyCmd := ⟨7, some 0, 0, 0, 0, false, [], op, 0, none, none, none⟩
def copyHead (op : CopyOp) : State := withCopies base 0 [copyCmd op]

/-- One move inside the scratchpad, of words that are full and in every mode; a swap and a fence with nothing waiting. -/
theorem test_hyps_copy_heads :
    ([0, 1, 2, 3].all fun mode => (copyRun (placedHc.who base) mode [⟨.sp 0 0, .sp 0 8, 8⟩] none
      ⟨copyHead (.cpy [⟨.sp 0 0, .sp 0 8, 8⟩] mode none), 0, none, none, false⟩).all) = true ∧
    ([.tstload 255 [], .btswap 3 0 0 ⟨1, none⟩, .btfence 0 65536 none none] : List CopyOp).all (fun x =>
      (copyHead x).copyCmds 0 == [copyCmd x]) = true ∧
    (copyHead (.btfence 0 65536 none none)).reds = [] ∧ entryInUse (copyHead (.btfence 0 65536 none none)) 0 0 65536 (some 0) 7 7 = false ∧
    (fenceEntries (copyHead (.btfence 0 65536 none none)) 0 0 65536 (some 0) 7 7).2 = true := by decide

/-- Slice 0 knows group 0, SID 0 of partition 0; a contribution waits for its turn. -/
def redHead : State := (copyHead (.cpyred 0 0 [⟨.sp 0 0, .mem 0, 4⟩] true none)).setSlice (homeSlice 0) ⟨[(0, 0x80000000)], [], [], []⟩
def aContribution : Contribution := ⟨7, 0, some 0, 0, 0, 0, false, [(0, 5, none)]⟩
def admitState : State := base.setSlice 0 ⟨[(0, 0x80000000)], [], [], [⟨0, 0, 0, [aContribution]⟩]⟩

theorem test_hyps_reductions :
    (sendRed redHead (copyCmd (.cpyred 0 0 [⟨.sp 0 0, .mem 0, 4⟩] true none)) 0 0
      [⟨.sp 0 0, .mem 0, 4⟩] true none).isSome = true ∧
    ((admitState.slice 0).round 0 0)[((admitState.slice 0).find 0 0).pos]? = some 0 ∧
    ((admitState.slice 0).find 0 0).waiting.find? (·.sid == 0) = some aContribution := by decide

/-- A combine queue whose head is `op`; the token of slot 0 complete, and one whose ticks run. -/
def combHead (tokens : AMap Token) (op : CombOp) : State := withCombs (withUnit tokens base) 0 [⟨0, 0, 1, 0, op⟩]
def timedToken : Token := { aToken with fields := [0, 0, 0, 0, 1, 1] ++ List.replicate 78 0 ++ [1, 0, 0, 0] ++ List.replicate 8 0 }

theorem test_hyps_combine_heads :
    regAhead (withCombs (withUnit [] base) 0 []) ⟨0, 0, 1, 0, .reg 3 aToken.fields [0] [] 0x2000⟩ = false ∧
    (acceptRow aToken (selSeg 0) 0 (stagingLeft (markIrrev (combHead [(0, aToken)] (.stat 3 0 0)) (placedHc.who base)) 0 (idDie 0) [])
      ⟨List.replicate 256 0, none⟩).isSome = true ∧
    (register (withCombs (withUnit [] base) 0 []) placedHc 0 0 0 aToken.fields [0] [] 0x2000).isSome = true ∧
    ([.reg 3 aToken.fields [0] [] 0x2000, .put 0 0 ⟨[], none⟩, .stat 3 4 0] : List CombOp).all (fun x =>
      (combHead [] x |>.core 0).combQ == [⟨0, 0, 1, 0, x⟩] && (combHead [] x).hc? 0 == some placedHc) = true ∧
    putMatch (markIrrev (combHead [(0, aToken)] (.stat 3 0 0)) (placedHc.who base)) 0 0 0 = .fill aToken 0 ∧
    putMatch (markIrrev (combHead [] (.stat 3 0 0)) (placedHc.who base)) 0 0 0 = .drop ∧
    placedHc.determ base = true := by decide

theorem test_hyps_tokens :
    aget ((withUnit [(0, { aToken with complete := true })] base).comb 0).tokens 0 = some { aToken with complete := true } ∧
    ({ aToken with complete := true } : Token).mayRelease ((withUnit [(0, { aToken with complete := true })] base).comb 0) = true ∧
    aget ((withUnit [(0, timedToken)] base).comb 0).tokens 0 = some timedToken ∧ timedToken.complete = false ∧
    recTimeout timedToken.fields ≠ 0 := by decide

/-- A job queue whose head is `op`, with the blocks of memory in place. -/
def jobHead (mem : List Host.Cell) (op : JobOp) : State := withJobs { base with mem := mem } 0 [⟨0, 0, 4, op⟩]

/-- JEXP and JDONE of an open producer: one of two, and the last one with the counts equal. -/
theorem test_hyps_job_heads :
    let two := jobHead [(0x1010, 3)] (.jexp 0x1000 0x2000 1 ⟨1, none⟩)
    let one := jobHead [(0x1000, 2), (0x1017, 0x80)] (.jdone 0x1000 0x2000 63 ⟨2, none⟩)
    let u := withJobs one 0 []
    (two.core 0).jobQ = [⟨0, 0, 4, .jexp 0x1000 0x2000 1 ⟨1, none⟩⟩] ∧ two.hc? 0 = some placedHc ∧
    (view64 (withJobs two 0 []) (placedHc.who base) 0x1010).toNat.testBit 1 = true ∧
    (view64 (withJobs two 0 []) (placedHc.who base) 0x1010).toNat ≠ 2 ^ 1 ∧
    (one.core 0).jobQ = [⟨0, 0, 4, .jdone 0x1000 0x2000 63 ⟨2, none⟩⟩] ∧
    (view64 u (placedHc.who base) 0x1010).toNat = 2 ^ 63 ∧
    ((view64 u (placedHc.who base) 0x1008).toNat + (2#64).toNat % 2 ^ 32) % 2 ^ 64 =
      (view64 u (placedHc.who base) 0x1000).toNat := by decide

/-- What RINGADV finds: a ring block whose COUNT, TIME and last index are given. -/
def ringAt (count time last n : Nat) (flush : Bool) : State × Nat × Nat × Nat × Nat :=
  let s := jobHead ([(0x300C, BitVec.ofNat 8 last), (0x3010, BitVec.ofNat 8 count), (0x3012, BitVec.ofNat 8 time)].filter fun x => x.2 != 0)
    (.ringadv 0x3000 0x5000 ⟨BitVec.ofNat 64 n, none⟩ flush)
  let u := withJobs s 0 []
  let w := placedHc.who u
  let v := ringWritten u w 0x3000 0x5000 ⟨BitVec.ofNat 64 n, none⟩
  (v, ringSum u w 0x3000 ⟨BitVec.ofNat 64 n, none⟩, (view32 v w 0x300C).toNat, natOf (viewBytes v w 0x3010 2), natOf (viewBytes v w 0x3012 2))

/-- Due by COUNT at exactly COUNT entries, due by FLUSH, not due with a timer to start, and nothing advanced; a timer that runs. -/
theorem test_hyps_ring_heads :
    (let r := ringAt 2 0 0 2 false
     0 < r.2.2.2.1 ∧ r.2.2.2.1 ≤ (r.2.1 + 2 ^ 32 - r.2.2.1) % 2 ^ 32) ∧
    (let r := ringAt 0 0 0 1 true
     r.2.1 ≠ r.2.2.1) ∧
    (let r := ringAt 2 9 0 1 false
     ¬ (r.2.2.2.1 ≤ (r.2.1 + 2 ^ 32 - r.2.2.1) % 2 ^ 32) ∧ r.2.1 ≠ r.2.2.1 ∧ aget r.1.timers 0 = none ∧ 0 < r.2.2.2.2) ∧
    (let r := ringAt 0 9 1 1 false
     r.2.1 = r.2.2.1 ∧ r.2.2.2.1 = 0) ∧
    aget { base with timers := [(3, ⟨0x3000⟩)] }.timers 3 = some ⟨0x3000⟩ := by decide

/-! ### Witnesses: herd-contexts between bundles -/

/-- The herd-context 0 in another state. -/
def baseHc (h : HerdCtx) : State := base.setHc 0 h
def inState (x : HState) : HerdCtx := { placedHc with hstate := x }

theorem test_hyps_contexts_go_on :
    (landAll base 0).hc? 0 = some placedHc ∧ placedHc.overlay base = some (0, 0) ∧
    ((base.setCore 0 { base.core 0 with overlays := [] }).core placedHc.leadCore).overlays.contains (0, 0) = false ∧
    wouldBlock (baseHc { inState .blocked with wait := some .drain }) 0 = false ∧
    waitsBehind (baseHc { inState .blocked with wait := some .drain }) 0 { inState .blocked with wait := some .drain } = false ∧
    (frameOf (baseHc (inState .ready)) 0).all (fun x => x.2.hstate != .running) = true ∧
    pickBest (frameOf (baseHc (inState .ready)) 0) = some (0, inState .ready) ∧
    pickBest [(0, inState .ready), (1, { inState .ready with ep := 7 })] = some (1, { inState .ready with ep := 7 }) := by decide

/-- A stream that has popped nothing; a pushed element of it. -/
def streamHc : HerdCtx :=
  hcWith { withStreams with q := lset withStreams.q 1 ⟨some (record true), true, 0, 0, none, [], [], [⟨.sp 0 0, [1, 2, 3, 4], none, false⟩], none, []⟩ }

theorem test_hyps_retries_and_streams :
    (bundleAtPc base { placedHc with feTries := 1 }).isSome = true ∧ 0 < 1 ∧ 1 < placedHc.feBudget.toNat ∧
    placedHc.feBudget.toNat ≤ 64 ∧ (record false).dirOut = false ∧ (record false).fem = 0 ∧ placedHc.hstate ≠ .saved ∧
    nextAhead (withStreams.strm 0) (record false) = some 0 ∧
    elemPaused base ⟨placedHc.who base, 0, true⟩ (record false) 0 = false ∧
    (fetchElem base ⟨placedHc.who base, 0, true⟩ (withStreams.strm 0) (record false) 0).toOption.isSome = true ∧
    (baseHc streamHc).hc? 0 = some streamHc ∧
    ((streamHc.member? 0).map fun m => (m.strm 1).out) = some [⟨.sp 0 0, [1, 2, 3, 4], none, false⟩] ∧
    (writeOut (baseHc streamHc) (streamHc.who (baseHc streamHc)) [⟨.sp 0 0, [1, 2, 3, 4], none, false⟩]).isSome = true := by decide

/-- A D bundle, and a bundle that traps. -/
def drainBundle : Instr := .bundleIssue { plainHdr 3 with d := true } (.ctrlNop 0) (.add sr) .vnop .mnop noRoutine noRoutine

theorem test_hyps_stops :
    atDrainPoint (landAll (before drainBundle) 0) 0 { placedHc with stop := some (.preempt 0) } = true ∧
    ([.ready, .blocked, .parked] : List HState).all (fun x =>
      (landAll (baseHc { inState x with stop := some .forced }) 0).hc? 0 == some { inState x with stop := some .forced }) = true ∧
    wouldTrap (landAll (baseHc { placedHc with stop := some .forced }) 0) 0 = false ∧
    wouldTrap (landAll ((before (.ret 0)).setHc 0 { placedHc with stop := some .forced }) 0) 0 = true ∧
    (bundleAtPc (before (.ret 0)) placedHc).isSome = true ∧ nativeNext base 0 placedHc = false ∧
    (placedHc.members.any fun m => (oldestLate (landAll (baseHc { placedHc with stop := some .forced }) 0) 0 placedHc m).isSome) = false ∧
    0 + 65536 ≤ ({ placedHc with vcc := 65536, stop := some (.preempt 0) } : HerdCtx).vcc := by decide

/-- A result that is late: what stands behind it does not trap, or traps once the result has landed. -/
def lateHc : HerdCtx :=
  { hcWith { placedMember with inflight := [⟨.s 1 4 none, 0, 0, 0, false⟩] } with vcc := 1, stop := some .forced }
def drainBranch : Instr := .bundleIssue { plainHdr 3 with d := true } (.brr 0 1) (.add sr) .vnop .mnop noRoutine noRoutine

theorem test_hyps_late_stops :
    ([(Instr.mnop, false), (drainBranch, true)].all fun x =>
      let t := landAll (beforeHc lateHc x.1) 0
      t.hc? 0 == some lateHc && !wouldTrap t 0 && lateHc.members.any (fun m => (oldestLate t 0 lateHc m).isSome) &&
        wouldTrap (settle t 0) 0 == x.2) = true := by decide

/-- A save whose herd-context holds tiles, a saved one whose slot is free, and one that retires. -/
def savingHc : HerdCtx := { inState .saved with saving := true }

theorem test_hyps_saves_and_restores :
    drainBusy (withTiles (baseHc savingHc)) 0 savingHc = false ∧
    ((flushStreams (withTiles (baseHc savingHc)) 0).bind (·.hc? 0)) = some savingHc ∧ savingHc.noRestore = false ∧
    (((withTiles (baseHc savingHc)).core 0).oslot 63).cl = true ∧
    canRestore ((baseHc (inState .saved)).modPart 0 fun p => { p with restore := [0] }) 0 (inState .saved) = true ∧
    drainBusy (withTiles (baseHc (inState .retiring))) 0 (inState .retiring) = false ∧
    (flushStreams (withTiles (baseHc (inState .retiring))) 0).isSome = true := by decide

/-! ### Witnesses: nodes -/

/-- A descriptor of a kind, with fields given as (offset, byte). -/
def descOf (kind : Nat) (l : List (Nat × Nat)) : List Byte :=
  l.foldl (fun d x => lset d x.1 (BitVec.ofNat 8 x.2)) (BitVec.ofNat 8 kind :: List.replicate 223 0)

/-- A counter node that fires on the counter at 2^28 from threshold 0 with stride 1, and one without a counter. -/
def counterDesc : List Byte := descOf 3 [(91, 0x10), (104, 1)]
def aNode (x : NState) (d : List Byte) : Node := { Node.free with desc := d, state := x, watch := some 0 }
def withNode (n : Node) (q : List (List Nat)) : State :=
  (withTables base).modPart 0 fun p => { p with nodes := aset p.nodes 1 n, queues := q }

theorem test_hyps_descriptors :
    ((base.part? 0).map fun p => (p.node 1).state) = some .free ∧ dfield (descBytes (descOf 0 [])) 0 1 = 0 ∧
    dfield (descBytes counterDesc) 0 1 ≠ 0 ∧
    (((withTables base).part? 0).map fun p => refusal (withTables base) 0 p (descBytes counterDesc)) = some none ∧
    (((withTables base).part? 0).map fun p => refusal (withTables base) 0 p (descBytes (descOf 3 []))) = some (some 9) ∧
    ([.armed, .done, .refused, .ready, .running, .commit, .halted] : List NState).all (fun x =>
      ((withNode (aNode x counterDesc) []).node? 0 1).map (·.state) == some x) = true := by decide

/-- A counter at its threshold, of an ARMED node and of one with an instance in flight. -/
theorem test_hyps_node_fires :
    ([.armed, .ready, .running, .commit] : List NState).all (fun x =>
      let s := withNode (aNode x counterDesc) []
      (s.part? 0).any fun p => mayFire p (aNode x counterDesc) (fireValue s 0) && !firesBehind s 0 && p.halted == false) = true ∧
    (aNode .armed counterDesc).field 128 8 = 0 ∧ (aNode .running counterDesc).owed ≠ BitVec.allOnes 32 ∧
    watchers (withNode (aNode .armed counterDesc) []) 0 = [(0, 1)] ∧ (aNode .armed counterDesc).watch = some 0 ∧ counterDesc.length = 224 := by decide

/-- The counter at 2^28 reads 0x20003: from threshold 0x20000 with stride 4, one firing brings the threshold above it. -/
theorem test_hyps_node_fires_once :
    ([.armed, .ready] : List NState).all (fun x =>
      let n := aNode x (descOf 3 [(91, 0x10), (98, 2), (104, 4)])
      let s := withNode n []
      (s.part? 0).any fun p => mayFire p n (fireValue s 0) && !mayFire p (fired n) (fireValue s 0)) = true := by decide

/-- A conditional node on the word at 0 and a copy node between two records of one word; each alone in its queue. -/
def condDesc : List Byte := descOf 4 [(91, 0x10), (104, 1)]
def copyDesc : List Byte := descOf 2 [(91, 0x10), (104, 1), (145, 1), (153, 2)]
def headOf (d : List Byte) : State := withNode (aNode .ready d) [[1]]
/-- Records at 0x100 (from 0x400) and at 0x200 (to 0x800), one FP32 element each. -/
def copyState : State :=
  let s := headOf copyDesc
  { s with mem := [(0, 3), (2, 2), (0x101, 4), (0x108, 1), (0x10C, 1), (0x110, 1), (0x114, 1), (0x118, 1), (0x128, 1), (0x12C, 1),
      (0x201, 8), (0x208, 1), (0x20C, 1), (0x210, 1), (0x214, 1), (0x218, 1), (0x228, 1), (0x22B, 1), (0x22C, 1)] ++ tables.drop 2 }

theorem test_hyps_nodes_without_cores :
    isHead (headOf counterDesc) 0 1 3 = true ∧ isHead (headOf condDesc) 0 1 4 = true ∧
    (aNode .ready condDesc).field 144 8 % 8 = 0 ∧
    (reach (startInst (headOf condDesc) 0 1 (aNode .ready condDesc)) 0 true ((aNode .ready condDesc).field 144 8) 0).toOption.isSome = true ∧
    isHead copyState 0 1 2 = true ∧
    ((copyState.part? 0).map fun p => match nodeMoves copyState 0 p (aNode .ready copyDesc) with
      | .ok (t, l, es) =>
        let u := copyStarted t 0 1 (aNode .ready copyDesc) l es
        decide (l = [⟨.mem 0x400, .mem 0x800, 4⟩]) && scoresFit u (copyScores l) &&
          (u.copyCmds (2 * firstCluster p)).length == 0
      | .error _ => false) = some true := by decide

/-- A copy node whose CPY waits for its engine, and has left its queue. -/
def pendingCopy : Inst := ⟨0, [], [], [], [], false, false, 0, none, 0, some ([⟨.mem 0x400, .mem 0x800, 4⟩], [])⟩
def copyPending : State := withNode { aNode .running copyDesc with inst := some pendingCopy } []

theorem test_hyps_copy_waits :
    isHead copyPending 0 1 2 = false ∧
    ((copyPending.node? 0 1).bind (·.inst)).bind (·.pend) = some ([⟨.mem 0x400, .mem 0x800, 4⟩], []) ∧
    ((copyPending.part? 0).map fun p => (copyPending.copyCmds (2 * firstCluster p)).length) = some 0 ∧
    scoresFit copyPending (copyScores [⟨.mem 0x400, .mem 0x800, 4⟩]) = true := by decide

/-- A done counter that translates, at 2^28, and one that does not, at 2^31. -/
theorem test_hyps_done_counters :
    ([(115, 0x10, true), (115, 0x80, false)].all fun x =>
      let n := aNode .running (descOf 3 [(91, 0x10), (104, 1), (x.1, x.2.1)])
      (reach (setNState (withNode n []) 0 1 .commit) 0 true (n.field 112 8) 3).toOption.isSome == x.2.2 &&
        n.field 112 8 != 0) = true ∧ (aNode .running counterDesc).field 112 8 = 0 := by decide

/-- A kernel node of the placed footprint with KIND 1, and with KIND 5; the placed image is its image. -/
def kernelDesc (kind prio save : Nat) : List Byte :=
  [BitVec.ofNat 8 kind, BitVec.ofNat 8 prio, 2, 0, 0, 0, 0, 0, 1] ++ List.replicate 15 0 ++ bytesOf 8 placedFootprint ++
    List.replicate 106 0 ++ [BitVec.ofNat 8 save] ++ List.replicate 85 0
def idle : State := { base with hctxs := [] }
def kernelHead (s : State) (kind : Nat) : State :=
  s.modPart 0 fun p => { p with
    nodes := [(0, { placedNode with desc := kernelDesc 1 0 4 }), (1, aNode .ready (kernelDesc kind 7 0))]
    queues := [[1]]
    s1root := 0x40000 }

/-- Both kinds find a frame on an idle core. -/
theorem test_hyps_placement :
    ([1, 5].all fun k => ((kernelHead idle k).part? 0).any fun p =>
      queueHead p == some 1 && !p.halted && (descImage p (kernelDesc k 7 0)).isSome &&
        (findFrames (kernelHead idle k) [] p (aNode .ready (kernelDesc k 7 0))).isSome &&
        (aNode .ready (kernelDesc k 7 0)).kind == k) = true := by decide

/-- A node of priority 7 whose herd takes all twelve cores, while the herd-context of node 0 (priority 0, with a save area) stands on
core 0: it has no frame until that one is saved. -/
def wideDesc : List Byte :=
  [1, 7, 2, 0, 0, 0, 0, 0, 1] ++ List.replicate 15 0 ++ bytesOf 8 (placedFootprint + 11 * 2 ^ 12) ++ List.replicate 192 0
def crowded : State :=
  (withTables base).modPart 0 fun p => { p with
    nodes := [(0, { placedNode with desc := kernelDesc 1 0 4 }), (1, aNode .ready wideDesc)]
    queues := [[1]] }

theorem test_hyps_victims :
    ((crowded.part? 0).any fun p => (findFrames crowded [] p (aNode .ready wideDesc)).isNone &&
      (noteUnsavable crowded 0 7).hctxs == crowded.hctxs &&
      victimPrefix crowded p (aNode .ready wideDesc) 0 (victims crowded 0 7) == some [0]) = true := by decide

/-- Without a save area the herd-context is no victim, and no prefix makes room. -/
theorem test_hyps_no_victims :
    (let s := crowded.modPart 0 fun p => { p with nodes := aset p.nodes 0 { placedNode with desc := kernelDesc 1 0 0 } }
     (s.part? 0).any fun p => (findFrames s [] p (aNode .ready wideDesc)).isNone &&
      victimPrefix s p (aNode .ready wideDesc) 0 (victims s 0 7) == none) = true := by decide

/-- The placed node's herd-context is DONE, with CIR `c`. -/
def doneState (c : Word) : State :=
  base.setHc 0 { inState .done with members := [{ placedMember with cir := c }] }
def placedInst : Inst := (placedNode.inst).getD ⟨0, [], [], [], [], false, false, 0, none, 0, none⟩

theorem test_hyps_commits :
    (doneState 0).node? 0 0 = some placedNode ∧ placedNode.inst = some placedInst ∧ placedNode.state = .running ∧
    placedNode.kind ≠ 2 ∧ placedInst.hcs = [0] ∧ ((doneState 0).hc? 0).map (·.hstate) = some .done ∧
    instCir (setNState (doneState 0) 0 0 .commit) placedInst = 0 ∧
    instCir (setNState (doneState 1) 0 0 .commit) placedInst ≠ 0 ∧ placedInst.irrev = false ∧ placedNode.rollback = none ∧
    placedNode.disarm = false ∧ placedNode.field 128 8 = 0 ∧
    (aNode .running copyDesc).kind = 2 ∧ copyNodeDone (withNode { aNode .running copyDesc with inst := some placedInst } []) 0 1 = true := by
  decide

/-- The one holder of a staging record waits: it may be queued again, or it is irrevocable. -/
def holding (irrev : Bool) : State :=
  base.modPart 0 fun p => { p with nodes := [(0, { placedNode with inst := some { placedInst with records := [0], waitStage := true, irrev := irrev } })] }

theorem test_hyps_staging_exhausted :
    ([false, true].all fun b => ((holding b).part? 0).any fun p =>
      recordHolders p == [(0, { placedInst with records := [0], waitStage := true, irrev := b })]) = true := by decide

/-! ### Witnesses: firmware -/

/-- A trap of a cause at the head of die 0's queue, with its first CAUSEDATA word, and its FROZEN herd-context. -/
def trapFor (c : Cause) (data0 addr2 : Word) : Trap := { Trap.of c 1 with addr2 := addr2, data := [data0, 0, 0, 0, 0] }
def frozen (c : Cause) (data0 : Word) (f : HerdCtx → HerdCtx) : State :=
  let s := withTables base
  takeTrap (s.setHc 0 (f placedHc)) 0 (trapFor c data0 0) 1

/-- Every cause of the statement, with its condition where it has one: the record is the first of its queue and a pair serves it. -/
theorem test_hyps_records :
    ((halts ++ holds ++ waits ++ ([.xlateS2, .xlateS1, .handleInvalid, .linkOverflow] : List Cause)).all fun c =>
      let s := frozen c 0 id
      (s.dies[0]?).any (fun d => d.trapQ.any (fun r => r.hc == 0 && r.trap.cause == c && !r.fetch && !r.wasRevoked) &&
        d.trapQ.length == 1 && d.pairs.any (fun p => !p.failed)) && (s.hc? 0).any fun h => h.hstate == .frozen && h.spill.length < 256) = true ∧
    ((frozen .xlateS1 (BitVec.ofNat 64 (2 ^ 11)) id).dies[0]?).any (fun d => d.trapQ.any (·.fetch)) = true ∧
    ((frozen .handleInvalid (BitVec.ofNat 64 (2 ^ 17)) id).dies[0]?).any (fun d => d.trapQ.any (·.wasRevoked)) = true ∧
    ((frozen .linkEmpty 0 fun h => { h with spill := [⟨8, none, ⟨false, false, 0⟩⟩] }).hc? 0).any (fun h => !h.spill.isEmpty) = true ∧
    (({ placedNode with desc := kernelDesc 1 0 4 } : Node).field 136 8 ≠ 0) := by decide

/-- The record as firmware keeps it once it has taken it. -/
def takenRec (t : Trap) : TrapRec := ⟨0, t, [0, 0, 0, 0, 0, 1]⟩
def servedHc (t : Trap) : HerdCtx := { inState .frozen with trap := some (takenRec t) }
/-- Regeneration node 2 is named by entry 1 of the table at 0x8000; it has no completion counter. -/
def regenState (h : HerdCtx) (regens : List RegenReq) : State :=
  ({ base with mem := [(0, 3), (2, 2), (0x6000, 1), (0x8010, 2)] ++ tables.drop 2 }.setHc 0 h).modPart 0 fun p => { p with
    nodes := [(0, placedNode), (2, aNode .armed (descOf 5 []))]
    regens := regens
    s1root := 0x40000
    cfg := { p.cfg with regenBase := 0x8000, wakeCtr := 0x10006000, wakeBase := 0x7000, wakeCount := 4 } }
def regenHc : HerdCtx := servedHc (trapFor .regen 0 1)

theorem test_hyps_regeneration :
    regenReached (regenState { inState .parked with parked := some (.regen 1 2 0 0) } []) 0 1 0 0 = true ∧
    (regenState regenHc []).hc? 0 = some regenHc ∧ regenHc.regenWoken ≠ some 1 ∧
    ((regenState regenHc []).node? 0 0).map (·.kind) ≠ some 5 ∧ regenEntry (regenState regenHc []) 0 1 = some (2, 0) ∧
    ((regenState regenHc []).part? 0).map (fun p => (aget p.nodes 2, p.halted, p.regens.length)) =
      some (some (aNode .armed (descOf 5 [])), false, 0) ∧
    (aNode .armed (descOf 5 [])).kind = 5 ∧ (∀ d ∈ (regenState regenHc []).dies, d.trapQ = []) := by decide

/-- A revoked handle; a shared block whose entry stands at 0x9000, copied to the frame at 0x10000; a held herd-context. -/
def sharedHc : HerdCtx := servedHc (trapFor .blockShared 0 0x9000)
theorem test_hyps_firmware_resumes :
    (let h := servedHc (trapFor .handleInvalid (BitVec.ofNat 64 (2 ^ 17)) 0)
     awaits (regenState h []) h 0 .handleInvalid = true ∧ (takenRec (trapFor .handleInvalid (BitVec.ofNat 64 (2 ^ 17)) 0)).wasRevoked = true ∧
     ((regenState h []).part? 0).map (·.invals) = some []) ∧
    (let s := regenState sharedHc []
     awaits s sharedHc 0 .blockShared = true ∧ (reach s 0 true 0x9000 1).toOption.map (·.2) = some 0x9000 ∧
     (translate s 0 true ((mem64 s 0x9000).toNat / 65536 * 65536) 0).toOption.isSome = true ∧
     (translate s 0 true (0x10000 / 65536 * 65536) 1).toOption.isSome = true ∧ s.park = []) ∧
    (let h := { servedHc (trapFor .perm 0 0) with held := true }
     (regenState h []).hc? 0 = some h ∧ (trapFor .perm 0 0).cause ≠ .xlateS2) := by decide

/-- The copy of a shared block goes on at once, or waits for a copy that was placed through its entry. -/
theorem test_hyps_shared_blocks :
    (let s := regenState sharedHc []
     ([(0x9000, false), (0x9008, true)].all fun x =>
       let t := { withCopies s 0 [{ copyCmd (.cpy [] 0 none) with id := 7, ents := [x.1] }] with nextCmd := 8 }
       (reach t 0 true 0x9000 1).toOption.any fun y => (fenceEntries y.1 0 0x9000 8 none y.1.nextCmd y.1.nextCmd).2 == x.2) = true) := by decide

theorem test_hyps_invalidations_and_wakes :
    engineQuiet base 0 = true ∧ (base.part? 0).isSome = true ∧
    (let s := regenState placedHc []
     (reach s 0 true 0x10006000 3).toOption.map (·.2) = some 0x6000 ∧ (0#64).toNat < (mem64 s 0x6000).toNat ∧
     (mem64 s 0x6000).toNat - (0#64).toNat ≤ (4#32).toNat ∧
     ((s.part? 0).map fun p => (gpaPa s p (p.cfg.wakeBase.toNat + 16 * 0)).toOption) = some (some 0x7000)) := by decide

/-! ### Witnesses: the host, the loader, the partition manager, the fabric, errors -/

/-- A booted device with page tables; a counter-add write of 1 to the counter at 2^28 + 0x6000. -/
def booted : State := { withTables base with booted := true }
def addWrite : List Byte := bytesOf 8 0x10006000 ++ bytesOf 4 1 ++ bytesOf 4 0

theorem test_hyps_host_writes :
    addWrite.length = 16 ∧ leAt addWrite 12 4 = 0 ∧ leAt addWrite 0 8 % 8 = 0 ∧ 0xFFF0 % 16 = 0 ∧ 8 % 16 ≠ 0 ∧
    (reach booted 0 true (leAt addWrite 0 8) 3).toOption.isSome = true ∧ booted.booted = true ∧
    hbmRange booted 0 8 = true ∧ hbmRange booted 0x773593FFF8 8 = true ∧ hbmRange booted 0x773593FFF9 8 = false ∧
    ((booted.part? 0).map fun p => (p.reqOrder.contains 15, p.reqOrder.length)) = some (false, 0) ∧
    booted.pba.contains 2047 = false ∧ (msixEntry booted 2047).length = 4 := by decide

/-- A request of a kind: its first words, ACTION at byte 16, and the completion counter at 2^28 + 0x6000. -/
def request (kind w0 w1 act : Nat) : List Byte :=
  bytesOf 8 w0 ++ bytesOf 8 w1 ++ bytesOf 8 act ++ bytesOf 8 0 ++ bytesOf 8 kind ++ bytesOf 8 0 ++ bytesOf 8 0x7000 ++ bytesOf 8 0x10006000
def withRequest (l : List Byte) (s : State) : State := s.modPart 0 fun p => { p with reqs := [(3, l)], reqOrder := [3] }

/-- The smallest object: a version note, one variant whose selector pushes 1, and one bundle of code; VERSION is the note's first byte. -/
def object (version : Nat) : List Host.Cell :=
  [(0x1000, 65), (0x1001, 76), (0x1002, 76), (0x1003, 49), (0x1004, 1), (0x1006, 3), (0x1008, 216), (0x1010, 64), (0x1040, 1),
   (0x1048, 160), (0x1050, 16), (0x1060, 2), (0x1068, 176), (0x1070, 32), (0x1080, 4), (0x1088, 208), (0x1090, 8),
   (0x10A0, BitVec.ofNat 8 version), (0x10A3, 9), (0x10A5, 9), (0x10A6, 1), (0x10B0, 1), (0x10B8, 3), (0x10BA, 1), (0x10C0, 1), (0x10C1, 1)]
def withObject (version : Nat) : State :=
  { withRequest (request 0 0x1000 216 0) booted with mem := [(0, 3), (2, 2)] ++ object version ++ tables.drop 2 }

/-- A load's cause: that of its first step, or that of the rest; 0 when it succeeds. -/
def loadCause (s : State) (l : List Byte) : Option Nat :=
  ((takeRequest s 0 3).part? 0).map fun p =>
    match loadStep1 (takeRequest s 0 3) 0 (LoadReq.ofBytes l false) with
    | .error c => 1000 + c
    | .ok (u, obj) => (loadRest u 0 p (LoadReq.ofBytes l false) obj).cause

theorem test_hyps_loads :
    headRequest (withObject 1) 0 = some (3, request 0 0x1000 216 0) ∧
    loadCause (withObject 1) (request 0 0x1000 216 0) = some 0 ∧ loadCause (withObject 2) (request 0 0x1000 216 0) = some 3 ∧
    loadCause (withObject 1) (request 0 0x1000 8 0) = some 1001 := by decide

/-- An unload of the placed image is refused while a node names it, and succeeds once none does. -/
theorem test_hyps_unloads :
    let l := request 0x40 1 0 0
    ((booted.part? 0).map fun p => unloadStatus booted 0 p (request 0x40 2 0 0)) = some 0x10 ∧
    ((booted.part? 0).map fun p => unloadStatus booted 0 { p with nodes := [] } l) = some 0 ∧
    leAt l 32 1 = 0x40 ∧ headRequest (withRequest l booted) 0 = some (3, l) := by decide

/-- Stop and restore requests of the herd-context at position 0 of node 0, which has a save area. -/
def stoppableState (h : HerdCtx) : State :=
  (booted.setHc 0 h).modPart 0 fun p => { p with nodes := [(0, { placedNode with desc := kernelDesc 1 0 4 })] }

theorem test_hyps_stop_and_restore :
    isAction (request 0x80 0 0 1) 1 ∧ isAction (request 0x80 0 0 2) 2 ∧
    atPosition (stoppableState placedHc) 0 0 0 = some (0, placedHc) ∧ stoppable (stoppableState placedHc) placedHc = true ∧
    atPosition (stoppableState { inState .saved with noRestore := true }) 0 0 0 = some (0, { inState .saved with noRestore := true }) ∧
    leAt (request 0x80 0 0 1) 0 8 = 0 ∧ requestBad (request 0x80 0 0 1) = false := by
  refine ⟨⟨by decide, by decide⟩, ⟨by decide, by decide⟩, by decide, by decide, by decide, by decide, by decide⟩

/-- A sound record of cluster 1 for a partition that does not exist, and of clusters 0 and 1 for the one that does. -/
def soundCfg (clusters : BitVec 48) : PartCfg := { PartCfg.zero with clusters := clusters, parkCount := 96, l2ways := 1 }

set_option exponentiation.threshold 2100 in
theorem test_hyps_manager :
    booted.part? 47 = none ∧ cfgOk booted 47 (soundCfg 2) = true ∧ cfgOk booted 0 (soundCfg 3) = true ∧
    ((booted.part? 0).map fun p => holdsOn booted 0 (p.cfg.clusters &&& ~~~(soundCfg 3).clusters)) = some false ∧
    ((({ booted with hctxs := [] } : State).part? 0).map fun p => holdsOn { booted with hctxs := [] } 0 p.cfg.clusters) = some false ∧
    engineQuiet { booted with hctxs := [] } 0 = true := by decide

/-- Requests of another package at the first and the last word of HBM4E; the report of a boot; the last leaf. -/
theorem test_hyps_fabric_and_boot :
    isLocal booted 0 = true ∧ rangeTier booted 0 8 ≠ none ∧ rangeTier booted 0x773593FFF8 8 ≠ none ∧
    ({ booted with bootLeaf := some 0 } : State).bootLeaf = some 0 ∧ ({ booted with leaf := 2 ^ 20 - 1 } : State).leaf < 2 ^ 20 := by
  decide

/-- Whether the image verifies is free: one of the two clauses about a reset applies. -/
theorem test_hyps_reset : Config.verifies [] = true ∨ Config.verifies [] = false := by
  cases Config.verifies [] <;> simp

/-- Sites of errors: of every class that Syrok produces, of one that it does not, and on a die that it lacks. A place of the
combiner's aperture; a scratchpad row; the pool row of the placed herd-context's v1. -/
theorem test_hyps_errors :
    (∀ c ∈ ([0, 1, 2, 3, 4, 5, 6, 7, 8, 9, 10, 11] : List (BitVec 4)), c.toNat < 12) ∧ 12 ≤ (12#4).toNat ∧
    (2#4).toNat ∉ [0, 1, 3, 4, 5, 6, 7] ∧ 3 < booted.dies.length ∧ booted.dies.length ≤ 4 ∧
    rangeTier booted (0x10000000000 / 8 * 8) 8 = some 3 ∧
    ((base.core 0).b1 ≤ 1099 ∧ (base.core 0).b2 ≤ 1099 ∧ 1099 < (base.core 0).b3) ∧ 1 < (base.core 0).b1 ∧
    base.hc? 0 = some placedHc ∧ placedHc.occupies = true ∧ placedHc.members[0]? = some placedMember ∧ placedMember.core = 0 ∧
    placedHc.slot * placedHc.nv * 256 ≤ 257 ∧ 257 < (placedHc.slot + 1) * placedHc.nv * 256 := by decide

/-- A write of a repair entry: one that is stored as it is over an entry of another word, and one of each kind that clashes, beside
an entry of bank 1, row 1 and spare 1. -/
def repaired : Core := { base.core 0 with repair := lset (lset (base.core 0).repair 0 0x800002) 1 0xA01001 }
theorem test_hyps_repairs :
    ([0x801002, 0x800001] : List (BitVec 64)).all (fun v => repairEntry repaired 0 v == v && v.getLsbD 23 &&
      repairWord v != repairWord 0x800002) = true ∧
    ([0x1801002, 0x901002, 0x801001, 0xA01002] : List (BitVec 64)).all (fun v =>
      repairEntry repaired 0 v == v &&& ~~~0x800000) = true ∧
    repaired.repair.getD 0 0 = 0x800002 ∧ repairWord 0x801002 < (placedHc.slot + 1) * placedHc.nv * 256 ∧
    (withV2.vreg 2).lanes.length = 256 := by decide

/-- A checked herd, a pair with and without a mismatch before, links, ports and a die. -/
def checkedState : State :=
  base.modPart 0 fun p => { p with nodes := [(0, { placedNode with desc := [1, 0, 6] ++ placedDesc.drop 3 })] }

theorem test_hyps_links_pairs_wear :
    ((checkedState.node? 0 0).map fun n => (n.checked, n.state == .running, (n.inst.map (·.hcs)).getD [])) = some (true, true, [0]) ∧
    (checkedState.hc? 0).map (·.members.length) = some 1 ∧
    ((frozen .userTrap 0 id).dies[0]?).any (fun d => d.trapQ.length == 1 && !d.unprotected &&
      d.pairs.any fun p => !p.failed && p.mismatches == 0) = true ∧
    (⟨false, 1, none⟩ : Pair).mismatches ≠ 0 ∧ base.linkFailed.contains 17 = false ∧ base.cxlFailed.contains 7 = false ∧
    base.dies[3]? = some Die.reset := by decide

/-! ### Witnesses: translation walks -/

/-- Root entry 1 asks for regeneration 1, whose entry of the table at 0x8000 is valid. -/
def walkState : State :=
  ({ withTables base with mem := [(0, 3), (2, 2), (0x8014, 1), (0x20000, 0x8D), (0x20001, 1), (0x40000, 3), (0x40002, 6), (0x40009, 0x20),
      (0x4000A, 1)] ++ tables.drop 6 }).modPart 0 fun p => { p with s1root := 0x40000, cfg := { p.cfg with regenBase := 0x8000, regenCount := 2 } }

theorem test_root_path (s : State) (p : Part) (va root : Nat) : stage1Path s p va root 0 fun _ => root :=
  ⟨by decide, rfl, fun _ h => absurd h (Nat.not_lt_zero _)⟩

/-- A page at 0; an entry that is 0 and one that asks for regeneration; tables that stage 2 does not map; an address of 2^56; an
intent that the page does not permit. -/
theorem test_hyps_walks :
    ((walkState.part? 0).any fun p => (walk walkState p 0).toOption.isSome && (walk2 walkState p 0).toOption.isSome &&
      (gpaPa walkState p (0x40000 + 8 * levelIndex 0 (2 ^ 43))).toOption.any (fun a =>
        pteV (mem64 walkState a) == false && (mem64 walkState a).getLsbD 13 == false) &&
      (gpaPa walkState p (0x40000 + 8 * levelIndex 0 (2 ^ 42))).toOption.any (fun a =>
        pteV (mem64 walkState a) == false && (mem64 walkState a).getLsbD 13 && (mem64 walkState a).toNat / 65536 == 1) &&
      (gpaPa walkState p (p.cfg.regenBase.toNat + 16 * 1)).toOption.any (fun a => (mem64 walkState a).getLsbD 32) &&
      (match gpaPa walkState { p with s1root := 2 ^ 50 } (2 ^ 50) with | .error _ => true | .ok _ => false)) = true ∧
    ((walkState.part? 0).any fun p => (match walk walkState p 0 with | .ok pg => !pg.c | .error _ => false) &&
      (match walk walkState p (2 ^ 56) with | .error _ => true | .ok _ => false)) = true ∧
    ([(0, true), (2 ^ 42, false)].all fun x => (translate walkState 0 true x.1 1).toOption.isSome == x.2) = true := by decide

/-! ### Witnesses: a swap or a job command that is not sent, and combine commands that wait -/

/-- A port whose link has failed, an address behind it, and a job command of it. -/
def lostPa : Nat := 0x200000000000
def lostJob : State := { jobHead [] (.jexp lostPa 0 0 ⟨1, none⟩) with cxlFailed := [0] }

theorem test_hyps_lost_commands :
    (let s := lostJob
     (s.core 0).jobQ = [⟨0, 0, 4, .jexp lostPa 0 0 ⟨1, none⟩⟩] ∧
     sendable (withJobs s 0 []) (placedHc.who (withJobs s 0 [])).part lostPa = false ∧ isHostPa lostPa = false ∧
     (JobOp.jexp lostPa 0 0 ⟨1, none⟩).block = lostPa) ∧
    portFailed lostJob (lostPa + 0x3FFFFFFFFFF) = true ∧ portFailed lostJob (lostPa + 0x40000000000) = false := by decide

/-- A registration behind another of its bundle, one that finds no slot, and a row that finds no staging row. -/
theorem test_hyps_combine_waits :
    (let x : CombCmd := ⟨0, 0, 1, 0, .reg 3 aToken.fields [0] [] 0x2000⟩
     let s := (combHead [] x.op).setCore 1 { base.core 1 with combQ := [{ x with num := 0 }] }
     (s.core 0).combQ = [x] ∧ regAhead (withCombs s 0 []) x = true) ∧
    (register (withCombs (combHead [(0, aToken)] (.reg 3 aToken.fields [0] [] 0x2000)) 0 []) placedHc 0 0 0 aToken.fields [0] [] 0x2000).isNone = true ∧
    (acceptRow { aToken with applied := [1] } (selSeg 0) 0 0 ⟨[], none⟩).isNone = true := by decide

/-! ### Witnesses: herd-contexts that stand, and waiters in order -/

theorem test_hyps_standing :
    ([HState.frozen, .parked, .saved, .done].all fun x =>
      (landAll (baseHc (inState x)) 0).hc? 0 == some (inState x) && (inState x).stands) = true ∧ placedHc.stands = false := by decide

/-- A herd-context parked on a regeneration whose counter, at 0x40, has reached its target stands before a node that fires at the same
counter, and behind it. -/
theorem test_hyps_waiters_in_order :
    (let n := { aNode .armed counterDesc with watch := some 0x40, joined := 5 }
     let s := (withNode { n with desc := descOf 3 [] } []).setHc 0 { inState .parked with parked := some (.regen 1 2 0x40 0), waitedAt := 3 }
     s.node? 0 1 = some { n with desc := descOf 3 [] } ∧ firesBehind s 0x40 = true) ∧
    (let h := { inState .parked with parked := some (.regen 1 2 0x40 0), waitedAt := 7 }
     let s := (withNode { aNode .armed (descOf 3 []) with watch := some 0x40, joined := 5 } []).setHc 0 h
     regenReached s 0 1 0x40 0 = true ∧ waitsBehind s 0 h = true ∧ waitsBehind s 0 { h with waitedAt := 5 } = false) ∧
    copyBefore copyPending 0 1 = false ∧
    (let n := { aNode .armed counterDesc with watch := some 0x40 }
     let s := (withNode { n with desc := descOf 3 [] } []).modPart 0 fun p => { p with nodes := aset p.nodes 2 { n with desc := descOf 3 [], joined := 9 } }
     (s.hctxs.all fun (x, h) => !(h.counters.contains 0x40 && couldGo s x h)) = true ∧ watchers s 0x40 = [(0, 1), (0, 2)] ∧
     firesBehind s 0x40 = false) := by decide

/-! ### Witnesses: COMMIT -/

/-- Record 3 of die 0 blames HBM channel 9 (class 1); node 0 stands in COMMIT with an instance, and perhaps one roll-back before. -/
def committing (cir : Word) (irrev : Bool) (r : Option Rollback) : State :=
  ((doneState cir).modDie 0 fun d => { d with ring := [(3, [BitVec.ofNat 64 (0x10000000 + 9 * 256 + 3), 0, 0, 0])] }).modPart 0 fun p =>
    { p with nodes := [(0, { placedNode with state := .commit, inst := some { placedInst with irrev := irrev }, rollback := r })] }
def blame : Word := 0x01030001

theorem test_hyps_commit_clauses :
    (let s := committing 0 false none
     instCir s placedInst = 0 ∧ (s.node? 0 0).map (·.state) = some .commit) ∧
    (let s := committing blame true none
     instCir s { placedInst with irrev := true } ≠ 0 ∧ (s.node? 0 0).bind (·.inst) = some { placedInst with irrev := true }) ∧
    (let s := committing blame false (some ⟨some 0x103, none⟩)
     instCir s placedInst ≠ 0 ∧ (s.node? 0 0).bind (·.rollback) = some ⟨some 0x103, none⟩ ∧ blamed (instCir s placedInst) = some 0x103) ∧
    (let r : Rollback := ⟨some 0x104, some (1, 0, 9, 0)⟩
     let s := committing blame false (some r)
     blamed (instCir s placedInst) = some 0x103 ∧ r.tag ≠ some 0x103 ∧ recordPlace s 0x103 = some (1, 0, 9, 0) ∧
     r.place = some (1, 0, 9, 0)) ∧
    (doneState 0).hc? 0 = some { inState .done with members := [{ placedMember with cir := 0 }] } := by decide

/-! ### Witnesses: records that park, and link entries -/

/-- An attempt at the word at 0x6000 whose budget is spent, of a load and of a fill; a stream's; a moving block at 0x9000. -/
def budgetTrap (op : Nat) (viaQ : Bool) : Trap :=
  { Trap.of .feBudget 1 with data := [BitVec.ofNat 64 (op + if viaQ then 2 ^ 10 else 0), 0, 0, 0x6000, 0] }
def feState (t : Trap) (mem : List Host.Cell) : State :=
  takeTrap ({ withTables base with mem := mem ++ tables.drop 2 }.setHc 0 placedHc) 0 t 1
def taken1 (s : State) : Option (State × TrapRec) :=
  (s.dies[0]?).bind fun d => d.trapQ.head?.map fun r => (recordTaken s 0 d.trapQ.tail, r)

theorem test_hyps_parks :
    ([(0x10, false), (0x11, false), (0x11, true)].all fun x =>
      let s := { feState (budgetTrap x.1 x.2) [(0, 3), (2, 2)] with feEmpty := [0x6000 / 8] }
      (taken1 s).any fun y => let w := askedWord y.2
        y.2.trap.cause == .feBudget && askedOp y.2 != 0x83 && locFull y.1 (keyLoc w.1 w.2) == false) = true ∧
    ((taken1 (feState (budgetTrap 0x12 false) [(0, 3), (2, 2)])).any fun y => let w := askedWord y.2
      askedOp y.2 == 0x12 && locFull y.1 (keyLoc w.1 w.2)) = true ∧
    ([(8, true), (0, false)].all fun x =>
      let s := feState (trapFor .blockMoving 0 0x9000) [(0, 3), (2, 2), (0x9000, BitVec.ofNat 8 x.1)]
      (taken1 s).any fun y => match translate y.1 0 true y.2.trap.addr2.toNat 0 with
        | .ok pg => (mem64 y.1 (pg.pa y.2.trap.addr2.toNat)).getLsbD 3 == x.2
        | .error _ => false) = true ∧
    ((taken1 (feState (trapFor .blockMoving 0 (2 ^ 55)) [(0, 3), (2, 2)])).any fun y =>
      match translate y.1 0 true y.2.trap.addr2.toNat 0 with | .ok _ => false | .error _ => true) = true := by decide

theorem test_hyps_links :
    ((frozen .linkOverflow 0 fun h => { h with spill := List.replicate 256 ⟨8, none, ⟨false, false, 0⟩⟩ }).hc? 0).any
      (fun h => h.spill.length == 256) = true ∧
    ((frozen .linkEmpty 0 id).hc? 0).any (fun h => h.spill.isEmpty) = true ∧
    (((frozen .linkOverflow 0 id).node? 0 0).map fun n => n.field 136 8) = some 0 := by decide

/-! ### Witnesses: the manager, the fabric, errors -/

set_option exponentiation.threshold 2100 in
theorem test_hyps_manager_clauses :
    ({ booted with booted := false } : State).booted = false ∧ (soundCfg 0).clusters = 0 ∧
    (booted.dies[0]?).any (fun d => d.comb.tokens.isEmpty) = true ∧ combineBytes 8192 0 8192 ≤ 64 * 2 ^ 20 ∧
    (∀ k, k < 3 → quotaUsed booted 48 0 k = 0) ∧
    (((withUnit [(0, aToken)] booted).dies[0]?).map fun d => d.comb.tokens.isEmpty) = some false ∧
    ({ booted with parts := [] } : State).routes = [] ∧ booted.parts ≠ [] := by decide

/-- An address of this package and of another; words that are full and empty; a counter below and at its target. -/
theorem test_hyps_fabric_clauses :
    isLocal booted (2 ^ 48) = false ∧ isLocal booted 0 = true ∧ rangeTier booted 0 8 ≠ none ∧
    unsent booted (Who.agent 0) (.mem 0) = false ∧ (0#64).toNat ≤ (mem64 booted 0).toNat ∧
    (mem64 booted 8).toNat < (1#64).toNat ∧
    (feAttempt booted (Who.agent 0) .take (.mem 0) ⟨0, none⟩ 0x11 false).isSome = true ∧
    (feAttempt booted (Who.agent 0) .fill (.mem 0) ⟨0, none⟩ 0x12 false).isNone = true := by decide

/-- Leaves left and used up. -/
theorem test_hyps_leaves :
    State.reset.leaf < 2 ^ 20 ∧ 2 ^ 20 ≤ ({ State.reset with leaf := 2 ^ 20 } : State).leaf ∧
    ({ booted with bootLeaf := none } : State).bootLeaf = none := by decide

/-- A core whose pool row 5 had three corrections; a staged word; a spilled line; the row of a spare. -/
theorem test_hyps_error_clauses :
    (aget ({ base.core 0 with fixes := [(5, 3)] } : Core).fixes 5).getD 0 = 3 ∧ (aget (base.core 0).fixes 5).getD 0 ≠ 3 ∧
    stageHome base 0x6000 = none ∧ stagers base (fun i => i.staged.any fun x => x.1 / 8 == 0x6000 / 8) = [] ∧
    stagers (base.modPart 0 fun p => { p with nodes := [(0, { placedNode with inst := some { placedInst with staged := [(0x6000, 1)] } })] })
      (fun i => i.staged.any fun x => x.1 / 8 == 0x6000 / 8) = [(0, 0)] ∧
    stageHome (base.modPart 0 fun p => { p with cfg := { p.cfg with stageBase := 0x10000, stageSize := 0x10000 } }) 0x1FFFF = some 0 ∧
    sameRow 0x801002 0x801002 ∧ ¬ sameRow 0x800002 0x801002 := by
  refine ⟨by decide, by decide, by decide, by decide, by decide, by decide, ⟨by decide, by decide, by decide, by decide⟩, ?_⟩
  exact fun h => absurd h.2.2.1 (by decide)

/-! ### Witnesses: bundles, traps, the step -/

/-- A bundle of a scalar and a vector operation; with E; with a load through an invalid handle; and one that two slots make write the
same register. -/
def two (e : Bool) : Instr := .bundleIssue { plainHdr 3 with e := e } (.ctrlNop 0) (.add sr) (.vmov vr) .mnop noRoutine noRoutine
def trapping : Instr := .bundleIssue (plainHdr 3) (.ctrlNop 0) (.add sr) .vnop (.ldD { smem with sd := 4 }) noRoutine noRoutine
def clash : Instr := .bundleIssue (plainHdr 3) (.ctrlNop 0) (.add sr) .vnop (.ldD smem) noRoutine noRoutine

theorem test_hyps_bundles :
    ([false, true].all fun e =>
      let u := landAll (before (two e)) 0
      issues u 0 placedHc (bundleOf (two e)) && (stopsOf u 0 placedHc (bundleOf (two e))).isEmpty &&
      !placedHc.pushed && ((foldStop (runSlotIn (bundleOf (two e)).writesNow) (slotRuns u 0 placedHc (bundleOf (two e))) u).toOption.bind (·.hc? 0)).map fitsSnapshot == some true) = true ∧
    (let u := landAll (before trapping) 0
     issues u 0 placedHc (bundleOf trapping) = true ∧ (firstTrap true (stopsOf u 0 placedHc (bundleOf trapping))).isSome = true) ∧
    noRoutine.rn = 0 ∧
    (let u := landAll (before clash) 0
     u.hc? 0 = some placedHc ∧ placedHc.hstate = .running ∧ placedHc.rb = none ∧
     (encodingFault u placedHc (bundleOf clash) (placedHc.sys u)).isSome = true) := by decide

/-- The register files of a member are whole; the widest lane and the last scalar register. -/
theorem test_hyps_reads :
    (withV2.vreg 2).lanes.length = 256 ∧ (List.replicate 256 (0#32)).length = 256 ∧ 63 < placedMember.s.length ∧ 255 < 256 ∧
    inFlightS placedMember 3 = [] := by decide

/-- A placed instruction is fetched; so are words that are none, and no word past the end of the code. -/
def placedState (ws : List (BitVec 64)) (pc : Word) : State :=
  (placeWords State.reset ws).setHc 0 { placedHc with pc := pc }

theorem test_hyps_fetch :
    let s := placedState [1, 0x0400518700000000] 0
    s.agenda = [.hc 0] ∧ Fetches (taken s []) 0 placedHc [1, 0x0400518700000000] := by
  refine ⟨rfl, rfl, rfl, by decide, by decide, placedImage [1, 0x0400518700000000], ?_⟩
  have h : (placedImage [1, 0x0400518700000000]).bundle placedHc.pc = some (0, ⟨[1, 0x0400518700000000], true⟩, [1, 0x0400518700000000]) := by decide
  exact ⟨_, _, rfl, h, by decide⟩

theorem test_hyps_fetch_undecoded :
    let s := placedState [1, 0xFC00000000000000] 0
    Fetches (taken s []) 0 placedHc [1, 0xFC00000000000000] ∧ (decodeWords [1, 0xFC00000000000000]).toOption = none := by
  refine ⟨⟨rfl, rfl, by decide, by decide, placedImage [1, 0xFC00000000000000], ?_⟩, rfl⟩
  have h : (placedImage [1, 0xFC00000000000000]).bundle placedHc.pc = some (0, ⟨[1, 0xFC00000000000000], true⟩, [1, 0xFC00000000000000]) := by decide
  exact ⟨_, _, rfl, h, by decide⟩

theorem test_hyps_fetch_fault :
    let s := placedState [0] 8
    (taken s []).hc? 0 = some { placedHc with pc := 8 } ∧ hcEvent (taken s []) 0 = none ∧
    ((taken s []).image? { placedHc with pc := 8 }).bind (·.bundle 8) = none := by decide

/-- With nothing on the agenda the one running herd-context is the first that the state enables; an event on the agenda. -/
theorem test_hyps_turns :
    let s := { placedState [1, 0x0400518700000000] 0 with agenda := [] }
    (candidates s)[s.rr % max (candidates s).length 1]? = some (.hc 0) ∧
    { s with agenda := [.ev .measurementReport] }.agenda = .ev .measurementReport :: [] ∧
    Fetches (settleDeep { s with rr := s.rr + 1, clk := s.clk + 1 }) 0 placedHc [1, 0x0400518700000000] := by
  refine ⟨by decide, by decide, rfl, rfl, by decide, by decide, placedImage [1, 0x0400518700000000], ?_⟩
  have h : (placedImage [1, 0x0400518700000000]).bundle placedHc.pc = some (0, ⟨[1, 0x0400518700000000], true⟩, [1, 0x0400518700000000]) := by decide
  exact ⟨_, _, rfl, h, by decide⟩

/-- Reset has the form of memory, and steps. -/
theorem test_hyps_memory_form :
    State.reset.memOk ∧ step State.reset = .next { State.reset with rr := 1, clk := 1 } ∧ (Instr.add sr).wf = true :=
  ⟨rfl, rfl, rfl⟩

/-! ### Witnesses: bundles with a control operation and routine slots -/

/-- Herd-context `h` in `s` stands before the bundle `i` of control operation `c` and routine slots `ra` and `rb`: it issues, nothing
stops, nothing waits, and what the control operation gives and the slots are meets `ok`. -/
def wholeGoes (h : HerdCtx) (s : State) (i c ra rb : Instr) (ok : CtlOut → State → Option RCall → Option RCall → Bool) : Bool :=
  let u := landAll s 0
  let b := bundleOf i
  let qa := routineCall u 0 h b 4 ra
  let qb := routineCall u 0 h b 5 rb
  issues u 0 h b && (stopsOf u 0 h b).isEmpty && match ctlIn u 0 h b with
    | none => false
    | some x => match runControl c x u, foldStop (runSlotIn b.writesNow) (slotRuns u 0 h b) u with
      | .ok o, .ok t => ((t.hc? 0).map fitsSnapshot == some true) && (loopNest h b).isNone &&
          (linkFull h (qa.toList ++ qb.toList)).isNone && (bundleWait u 0 h [] qa qb fun _ => false).isNone &&
          !qb.any (·.popsPaused u) && !qa.any (·.popsPaused (actsOn t 0)) && ok o t qa qb
      | _, _ => false

/-- A scalar operation with `c`, and E or not; the same with routine slots. -/
def withControl (e : Bool) (c : Instr) : Instr := .bundleIssue { plainHdr 3 with e := e } c (.add sr) .vnop .mnop noRoutine noRoutine
def withRoutines (n : Nat) (ra rb : Instr) : Instr := .bundleIssue (plainHdr n) (.ctrlNop 0) (.add sr) .vnop .mnop ra rb
def exp2Entry : REntry := entryOf 0x40 1 [0x21, 0x11, 0, 0] true
def exp2A : Instr := .exp2 (rf 4 5 0 0)
def exp2B : Instr := .exp2 (rf 6 5 0 0)
def linked : HerdCtx := { placedHc with links := [⟨8, none, ⟨false, false, 0⟩⟩] }

theorem test_hyps_control_clauses :
    ([(Instr.br 0 2, false), (.yield 0, false), (.waite 0 1, false), (.ctrlNop 0, true)].all fun x =>
      wholeGoes placedHc (before (withControl x.2 x.1)) (withControl x.2 x.1) x.1 noRoutine noRoutine fun o _ qa qb =>
        decide (o.act = .go) && qa.isNone && qb.isNone) = true ∧
    wholeGoes placedHc (before (withControl false (.trap 0 7))) (withControl false (.trap 0 7)) (.trap 0 7) noRoutine noRoutine
      (fun o _ qa qb => decide (o.act = .trap 7) && qa.isNone && qb.isNone) = true ∧
    wholeGoes linked ((before (withControl false (.ret 0))).setHc 0 linked) (withControl false (.ret 0)) (.ret 0) noRoutine noRoutine
      (fun o _ qa qb => decide (o.act = .ret) && qa.isNone && qb.isNone) = true := by decide

theorem test_hyps_routine_clauses :
    (let i := withRoutines 9 exp2A noRoutine
     wholeGoes (hcP placedMember) (callState placedMember exp2Entry id i) i (.ctrlNop 0) exp2A noRoutine fun o t qa qb =>
       decide (o.act = .go) && qb.isNone && qa.any fun a =>
         !(actRoutine (committedAs t 0 (hcP placedMember) false o) a ⟨nextPc (hcP placedMember) o, none, o.post⟩).2) = true ∧
    (let i := withRoutines 17 noRoutine exp2A
     wholeGoes (hcP placedMember) (callState placedMember exp2Entry id i) i (.ctrlNop 0) noRoutine exp2A fun o t qa qb =>
       decide (o.act = .go) && qa.isNone && qb.any fun r =>
         !unwritten (runRb (committedAs t 0 (hcP placedMember) false o) r ⟨r.ent, r.prof, r.caps, nextPc (hcP placedMember) o, o.post⟩ 0) 0) = true ∧
    (let i := withRoutines 25 exp2A exp2B
     wholeGoes (hcP placedMember) (callState placedMember exp2Entry id i) i (.ctrlNop 0) exp2A exp2B fun o t qa qb =>
       decide (o.act = .go) && qa.any fun a => qb.any fun r =>
         let rest : RbWait := ⟨r.ent, r.prof, r.caps, nextPc (hcP placedMember) o, o.post⟩
         let x := actRoutine (committedAs t 0 (hcP placedMember) false o) a ⟨(hcP placedMember).pc, some rest, Post.none⟩
         !x.2 && !unwritten (runRb x.1 r rest 0) 0) = true := by decide

end Sys2Proof.Tests
end

section
/-! Registers and results in flight: what a read of each register may give, what a result writes when it lands, and which
flags land with it (R58, R59, R61, R117, R163, R181). -/

namespace Sys2Proof.Machine
open Sys2Proof.Claims

/-! ### The free choice of a latency window (R59, R61) -/

@[simp] theorem pickOf_nil {α : Type} (seed ix lane : Nat) (base : α) : pickOf seed ix lane base [] = base := rfl

theorem pickOf_mem {α : Type} (seed ix lane : Nat) (base : α) (others : List α) :
    pickOf seed ix lane base others ∈ base :: others := by
  cases others with
  | nil => simp
  | cons x r =>
    have hlt : Config.windowPick seed ix lane % ((x :: r).length + 1) < (base :: x :: r).length :=
      Nat.mod_lt _ (Nat.succ_pos _)
    unfold pickOf
    rw [List.getD_eq_getElem _ _ hlt]
    exact List.getElem_mem hlt

/-! ### Scalar registers -/

/-- Outside a window nothing is in flight for the register, and the choice is among its cells alone. -/
theorem Member.readS_of_pos (m : Member) (seed ix n : Nat) (hn : 0 < n) :
    m.readS seed ix n = pickOf seed ix 0 (m.cellS n) (inFlightS m n) :=
  if_neg hn.ne'

@[simp] theorem Member.cellS_tag (m : Member) (n : Nat) : (m.cellS n).tag = (m.sreg n).tag := rfl

theorem Member.cellS_of_not_stuck (m : Member) (n : Nat) (h : aget m.stuckS n = none) : m.cellS n = m.sreg n := by
  unfold Member.cellS
  rw [h]
  rfl

/-- A stuck bit is read at its level, the others as the landed value has them. -/
theorem Member.cellS_val_of_stuck (m : Member) (n : Nat) (bits level : Word) (h : aget m.stuckS n = some (bits, level)) :
    (m.cellS n).val = ((m.sreg n).val &&& ~~~bits) ||| (level &&& bits) := by
  unfold Member.cellS
  rw [h]
  rfl

theorem Member.sreg_apply_s (m : Member) (n : Nat) (v : Word) (t : Tag) (hn : 0 < n) (hl : n < m.s.length) :
    (m.apply (.s n v t)).sreg n = ⟨v, t⟩ := by
  simp [Member.apply, Member.sreg, hn.ne', List.getD_eq_getElem?_getD, lset_get_same _ _ _ hl]

/-! ### Vector registers -/

theorem vchain_eq_nil (n : Nat) (old : Tag) (l : List Pending) (h : ∀ p ∈ l, ∀ act x t, p.res ≠ .v n act x t) :
    vchain n old l = [] := by
  induction l with
  | nil => rfl
  | cons p r ih =>
    obtain ⟨hp, hr⟩ := List.forall_mem_cons.mp h
    have hrest := ih hr
    unfold vchain
    split
    · next k act x t hres =>
      rw [if_neg (fun hk : k = n => hp act x t (hk ▸ hres)), hrest]
    · exact hrest

/-- Each write of the chain comes from a result in flight for the register, with that result's mask and lanes. -/
theorem exists_pending_of_mem_vchain (n : Nat) (old : Tag) (l : List Pending) (x : Mask × VReg) (h : x ∈ vchain n old l) :
    ∃ p ∈ l, ∃ t, p.res = .v n x.1 x.2.lanes t := by
  induction l generalizing old with
  | nil => simp [vchain] at h
  | cons p r ih =>
    have later (tag : Tag) (hx : x ∈ vchain n tag r) : ∃ q ∈ p :: r, ∃ t, q.res = .v n x.1 x.2.lanes t := by
      obtain ⟨q, hq, ht⟩ := ih tag hx
      exact ⟨q, List.mem_cons_of_mem _ hq, ht⟩
    unfold vchain at h
    split at h
    · next k act y t hres =>
      split at h
      · next hk =>
        rcases List.mem_cons.mp h with rfl | hx
        · exact ⟨p, List.mem_cons_self, t, hk ▸ hres⟩
        · exact later _ hx
      · exact later _ h
    · exact later _ h

theorem mem_inFlightLane (m : Member) (n j : Nat) (p : Pending) (act : Mask) (l : List W32) (t : Tag) (hp : p ∈ m.inflight)
    (hres : p.res = .v n act l t) (hj : act.getLsbD j = true) : l.getD j 0 ∈ inFlightLane m n j := by
  unfold inFlightLane
  refine List.mem_filterMap.mpr ⟨p, hp, ?_⟩
  simp [hres, hj]

/-- The values, each with its tag, that the writes in flight have for lane `j` of vector register `n`. -/
def laneChoices (m : Member) (n j : Nat) : List (W32 × Tag) :=
  (m.vflight n).filterMap fun x => if x.1.getLsbD j then some (x.2.lanes.getD j 0, x.2.tag) else none

theorem laneChoices_subset (m : Member) (n j : Nat) (y : W32 × Tag) (h : y ∈ laneChoices m n j) :
    y.1 ∈ inFlightLane m n j := by
  obtain ⟨x, hx, hy⟩ := List.mem_filterMap.mp h
  obtain ⟨p, hp, t, hres⟩ := exists_pending_of_mem_vchain n _ _ x hx
  split at hy
  · next hj =>
    cases hy
    exact mem_inFlightLane m n j p _ _ t hp hres hj
  · cases hy

theorem Member.readV_of_vflight_nil (m : Member) (seed ix n : Nat) (h : m.vflight n = []) :
    m.readV seed ix n = m.cellV n := by
  unfold Member.readV
  rw [h]

/-- A vector is read lane by lane (R181): each lane chooses on its own, in and outside a window. -/
theorem Member.readV_lane (m : Member) (seed ix n j : Nat) (hj : j < (m.cellV n).lanes.length) :
    (m.readV seed ix n).lanes.getD j 0 =
      (pickOf seed ix j ((m.cellV n).lanes.getD j 0, (m.cellV n).tag) (laneChoices m n j)).1 := by
  cases hf : m.vflight n with
  | nil => simp [m.readV_of_vflight_nil seed ix n hf, laneChoices, hf]
  | cons x r =>
    unfold Member.readV laneChoices
    rw [hf]
    simp [List.getD_eq_getElem?_getD, hj]

theorem Member.cellV_length (m : Member) (n : Nat) : (m.cellV n).lanes.length = (m.vreg n).lanes.length := by
  unfold Member.cellV
  split <;> simp

theorem Member.readV_lane_mem (m : Member) (seed ix n j : Nat) (hj : j < (m.vreg n).lanes.length) :
    (m.readV seed ix n).lanes.getD j 0 ∈ (m.cellV n).lanes.getD j 0 :: inFlightLane m n j := by
  rw [m.readV_lane seed ix n j (m.cellV_length n ▸ hj)]
  rcases List.mem_cons.mp (pickOf_mem seed ix j ((m.cellV n).lanes.getD j 0, (m.cellV n).tag) (laneChoices m n j))
    with hbase | hother
  · rw [hbase]
    exact List.mem_cons_self
  · exact List.mem_cons_of_mem _ (laneChoices_subset m n j _ hother)

/-- The lanes outside the mask keep what they held; a mask of all ones writes every lane. -/
theorem mergeLanes_lane (act : Mask) (old new : List W32) (j : Nat) (hj : j < 256) (hl : j < old.length) :
    (mergeLanes act old new).getD j 0 = if act.getLsbD j = true then new.getD j 0 else old.getD j 0 := by
  unfold mergeLanes
  split
  · next hall => rw [hall, if_pos (by rw [BitVec.getLsbD_allOnes, decide_eq_true hj])]
  · simp [List.getD_eq_getElem?_getD, hl]

/-- What a landed vector result leaves in its register: its lanes merged under its mask, and the tag that goes with them. -/
@[simp] theorem Member.vreg_apply_v (m : Member) (n : Nat) (act : Mask) (l : List W32) (t : Tag) :
    (m.apply (.v n act l t)).vreg n = ⟨mergeLanes act (m.vreg n).lanes l, maskedTag act (m.vreg n).tag t⟩ := by
  simp [Member.apply, Member.vreg]

/-! ### Flags (R117) -/

theorem getLsbD_foldl_or {α : Type} {w : Nat} (l : List α) (f : α → BitVec w) (a : BitVec w) (b : Nat) :
    (l.foldl (fun x q => x ||| f q) a).getLsbD b = (a.getLsbD b || l.any fun q => (f q).getLsbD b) := by
  induction l generalizing a with
  | nil => simp
  | cons q r ih => simp [ih, Bool.or_assoc]

/-- What is left of result `q` of a member once result `p` of it has landed (R59, R61). -/
def afterLanding (p q : Pending) : Pending :=
  if q.issue < p.issue then { q with res := overtaken p.res q.res } else q

@[simp] theorem afterLanding_flags (p q : Pending) : (afterLanding p q).flags = q.flags := by
  unfold afterLanding
  split <;> rfl

theorem afterLanding_res_eq_none (p q : Pending) : ((afterLanding p q).res == .none) = leavesNothing p q := by
  unfold afterLanding leavesNothing
  split <;> rfl

/-- FPSTAT after a landing: its own flags, and those of the results that it leaves nothing of. -/
theorem Member.land_fpstat (m : Member) (p : Pending) :
    (m.land p).fpstat = (((m.inflight.filter (· != p)).map (afterLanding p)).filter (·.res == .none)).foldl
      (fun a q => a ||| q.flags) (m.fpstat ||| p.flags) := rfl

theorem Member.land_fpstat_getLsbD (m : Member) (p : Pending) (b : Nat) :
    (m.land p).fpstat.getLsbD b = (m.fpstat.getLsbD b || p.flags.getLsbD b ||
      m.inflight.any fun q => q != p && leavesNothing p q && q.flags.getLsbD b) := by
  rw [m.land_fpstat p, getLsbD_foldl_or, BitVec.getLsbD_or]
  simp [List.any_filter, List.any_map, Function.comp_def, afterLanding_res_eq_none, Bool.and_assoc]

end Sys2Proof.Machine

namespace Sys2Proof.Claims
open Sys2Proof.Machine

/-- Settles O55: each clause is the lemma about that read, or about that landing. -/
theorem readsGiveLandedOrInFlightValues : Obligations.ReadsGiveLandedOrInFlightValues := by
  intro m seed ix n
  refine ⟨⟨rfl, rfl, rfl⟩, fun _ _ _ _ => ⟨rfl, rfl, rfl⟩, fun hn => ?scalarRead,
    ⟨rfl, m.cellS_of_not_stuck n, m.cellS_val_of_stuck n⟩, fun hv => ?vectorOutside, fun j hj hl => ?vectorLane,
    m.sreg_apply_s n, fun act l t j hj hl _ => ?maskedLanes, fun act l t => ?mergedTag, m.land_fpstat_getLsbD⟩
  case scalarRead =>
    rw [m.readS_of_pos seed ix n hn]
    exact ⟨fun hnone => by rw [hnone, pickOf_nil], pickOf_mem ..⟩
  case vectorOutside => exact m.readV_of_vflight_nil seed ix n (vchain_eq_nil n _ _ hv)
  case vectorLane => exact m.readV_lane_mem seed ix n j (hl ▸ hj)
  case maskedLanes => rw [m.vreg_apply_v, mergeLanes_lane act _ l j hj (hl ▸ hj)]
  case mergedTag => rw [m.vreg_apply_v, maskedTag]

end Sys2Proof.Claims
end

section
/-! Whole bundles: from the checks to the commit, whatever stands in the slots. -/

namespace Sys2Proof.Machine

/-- A bundle that can issue comes to the execution checks of step 2 of R366. -/
theorem issueOne_checked (i : Instr) (s : State) (id : Nat) (h : HerdCtx) (hr : Ready s id h (bundleOf i)) :
    issueOne i s = .next (issueChecked (landAll s id) id h (bundleOf i)) := by
  obtain ⟨hc, hi⟩ := hr
  obtain ⟨h1, h2, h3, h4, h5, -, -, -, -, -, h11⟩ := (issues_iff _ _ _ _).mp hi
  have hd : (bundleOf i).h.d = false := (Bool.or_eq_false_iff.mp h5).1
  simp [issueOne, issueBundle, issueEncoded, hc, landLive_running s id h h1 h2, h1, h2, h3, h4, h11, hd]

/-- A bundle without routine slots whose early checks fail traps with the first of them, in the state before it (R364, R366). -/
theorem issueOne_traps (i : Instr) (s : State) (id : Nat) (h : HerdCtx) (hr : Ready s id h (bundleOf i))
    (ha : (bundleOf i).ra.rn = 0) (hb : (bundleOf i).rb.rn = 0) (t : Trap) (map : Nat)
    (ht : firstTrap true (stopsOf (landAll s id) id h (bundleOf i)) = some (t, map)) :
    issueOne i s = .next (takeTrap (landAll s id) id t map) := by
  obtain ⟨-, -, -, -, -, hlate, hheld, -⟩ := (issues_iff _ _ _ _).mp hr.2
  have hnest : loopNest h (bundleOf i) = none := by simp [loopNest, Bundle.routines, ha, hb]
  rw [issueOne_checked i s id h hr]
  simp [issueChecked, hlate, hheld, routineCall_zero _ _ _ _ _ _ ha, routineCall_zero _ _ _ _ _ _ hb, ht, hnest,
    linkFull_nil, lowerTrap]

/-- A bundle of a running herd-context that fails an encoding check traps before anything is done (R70, R364). -/
theorem issueOne_encodingTrap (i : Instr) (s : State) (id : Nat) (h : HerdCtx) (hc : s.cur = some id)
    (hh : (landAll s id).hc? id = some h) (hs : h.hstate = .running) (hp : h.pushed = false) (hrb : h.rb = none)
    (k : Nat) (cause : Cause) (hf : encodingFault (landAll s id) h (bundleOf i) (h.sys (landAll s id)) = some (k, cause)) :
    issueOne i s = .next (takeTrap (landAll s id) id (Trap.of cause k) (2 ^ h.members.length - 1)) := by
  simp [issueOne, issueBundle, hc, landLive_running s id h hh hs, hh, hs, hp, hrb, hf]

/-- A bundle whose control operation and slots run, and whose commit no trap for want of a staging record holds back, commits. -/
theorem finishBundle_eq_commit (u : State) (id : Nat) (h : HerdCtx) (b : Bundle) (x : CtlIn) (o : CtlOut) (t : State)
    (ra rb : Option RCall) (hx : ctlIn u id h b = some x) (hctl : runControl b.c x u = .ok o)
    (hrun : foldStop (runSlotIn b.writesNow) (slotRuns u id h b) u = .ok t)
    (hfit : (t.hc? id).map fitsSnapshot = some true) (hpops : ra.any (·.popsPaused (actsOn t id)) = false)
    (hw : (unwritten (commit t id h b o ra rb) id && commitStops t id h b o ra rb) = false) :
    finishBundle u id h b ra rb = commit t id h b o ra rb := by
  simp only [finishBundle, completeBundle, hx, hctl, hrun, hfit, Option.getD_some, Bool.true_eq_false, if_false, hpops, hw,
    Bool.false_eq_true]

/-- What the slots of a bundle read: the contexts of `ctxFor`, all in the state before the bundle (R59). -/
theorem mem_slotRuns (u : State) (id : Nat) (h : HerdCtx) (b : Bundle) (x : Ctx × Instr) (hx : x ∈ slotRuns u id h b) :
    ∃ k mi y, h.members[mi]? = some y ∧ x.1 = ctxFor u id h b.h.scope k mi y ∧ (k, x.2) ∈ b.slots := by
  simp only [slotRuns, List.mem_flatMap, List.mem_range, List.mem_filterMap, Option.map_eq_some_iff] at hx
  obtain ⟨mi, hmi, ⟨k, i⟩, hslot, c, hc, rfl⟩ := hx
  have hm : h.members[mi]? = some h.members[mi] := List.getElem?_eq_getElem hmi
  rw [slotCtx_of u id h b mi k _ hm] at hc
  exact ⟨k, mi, _, hm, (Option.some.inj hc).symm, hslot⟩

end Sys2Proof.Machine

namespace Sys2Proof.Claims
open Sys2Proof.Machine

/-- The bundle of `bundleIssue` is the one that its parts make. -/
theorem bundleOf_bundleIssue (hd : Hdr) (c s v m ra rb : Instr) :
    bundleOf (.bundleIssue hd c s v m ra rb) = whole hd c s v m ra rb := rfl

/-- The state and the successor that a commit leaves, before what its control operation and routine slots do. -/
theorem commitBase_eq (t : State) (id : Nat) (h : HerdCtx) (b : Bundle) (o : CtlOut) :
    commitBase t id h b o = (committedAs t id h b.h.e o, nextPc h o) := by
  unfold commitBase committedAs nextPc
  cases o.taken <;> rfl

theorem doPost_eq_followed (w : State) (id : Nat) (p : Post) : doPost w id p = followed w id p := rfl


/-- The commit of a bundle whose control operation acts on the herd-context alone: its routine slots and what follows them. -/
theorem commit_of_go (t : State) (id : Nat) (h : HerdCtx) (b : Bundle) (o : CtlOut) (qa qb : Option RCall)
    (ho : o.act = .go) : commit t id h b o qa qb =
      runRoutines (committedAs t id h b.h.e o) id qa qb h.pc (nextPc h o) { o.post with fin := b.h.e } := by
  unfold commit
  rw [commitBase_eq]
  simp only [ho]

theorem commit_of_trap (t : State) (id : Nat) (h : HerdCtx) (b : Bundle) (o : CtlOut) (qa qb : Option RCall)
    (code : BitVec 16) (ho : o.act = .trap code) : commit t id h b o qa qb =
      takeTrap (committedAs t id h b.h.e o) id { Trap.of .userTrap 0 with code := code } (2 ^ h.leadOf) := by
  unfold commit
  rw [commitBase_eq]
  simp only [ho]

theorem commit_of_ret (t : State) (id : Nat) (h : HerdCtx) (b : Bundle) (o : CtlOut) (qa qb : Option RCall)
    (l : Link) (r : List Link) (ho : o.act = .ret) (hl : h.links = l :: r) : commit t id h b o qa qb =
      returnFrom (committedAs t id h b.h.e o) id l := by
  unfold commit
  rw [commitBase_eq]
  simp only [ho, hl]

theorem commitStops_eq (t : State) (id : Nat) (h : HerdCtx) (b : Bundle) (o : CtlOut) (qa qb : Option RCall) :
    commitStops t id h b o qa qb =
      routinesStop (committedAs t id h b.h.e o) qa qb h.pc (nextPc h o) { o.post with fin := b.h.e } := by
  unfold commitStops
  rw [commitBase_eq]

/-- The routine slots of a bundle with RA alone, whose routine goes on to the next bundle. -/
theorem runRoutines_ra (w v : State) (id : Nat) (a : RCall) (pc succ : Word) (post : Post)
    (ha : actRoutine w a ⟨succ, none, post⟩ = (v, false)) :
    runRoutines w id (some a) none pc succ post = followed v id post := by
  simp [runRoutines, raLink, ha, doPost_eq_followed]

/-- The routine slots of a bundle with both, whose RA routine goes on to RB. -/
theorem runRoutines_both (w v : State) (id : Nat) (a r : RCall) (pc succ : Word) (post : Post)
    (ha : actRoutine w a ⟨pc, some ⟨r.ent, r.prof, r.caps, succ, post⟩, Post.none⟩ = (v, false)) :
    runRoutines w id (some a) (some r) pc succ post = runRb v r ⟨r.ent, r.prof, r.caps, succ, post⟩ pc := by
  simp [runRoutines, raLink, ha]

/-- A bundle whose slots and control operation run, and before whose routine slots nothing stands, commits, when no trap at an
equivalence point waits for a staging record (R43, R394). -/
theorem issueOne_whole (i : Instr) (st : State) (id : Nat) (h : HerdCtx) (x : CtlIn) (o : CtlOut) (t : State)
    (qa qb : Option RCall) (hr : Ready st id h (bundleOf i)) (hx : ctlIn (landAll st id) id h (bundleOf i) = some x)
    (hctl : runControl (bundleOf i).c x (landAll st id) = .ok o) (hstops : stopsOf (landAll st id) id h (bundleOf i) = [])
    (hrun : foldStop (runSlotIn (bundleOf i).writesNow) (slotRuns (landAll st id) id h (bundleOf i)) (landAll st id) = .ok t)
    (hfit : (t.hc? id).map fitsSnapshot = some true)
    (hqa : routineCall (landAll st id) id h (bundleOf i) 4 (bundleOf i).ra = qa)
    (hqb : routineCall (landAll st id) id h (bundleOf i) 5 (bundleOf i).rb = qb)
    (hclear : routinesClear (landAll st id) id h (bundleOf i) t qa qb)
    (hw : unwritten (commit t id h (bundleOf i) o qa qb) id = false ∨
      routinesStop (committedAs t id h (bundleOf i).h.e o) qa qb h.pc (nextPc h o)
        { o.post with fin := (bundleOf i).h.e } = false) :
    issueOne i st = .next (commit t id h (bundleOf i) o qa qb) := by
  obtain ⟨hnest, hlink, hwait, hpb, hpa⟩ := hclear
  rw [issueOne_finishes i st id h qa qb hr hqa hqb hnest hlink hstops hwait hpb,
    finishBundle_eq_commit _ id h _ x o t qa qb hx hctl hrun hfit hpa]
  rw [commitStops_eq, Bool.and_eq_false_iff]
  exact hw

/-- Before the routine slots of a bundle that has none, nothing stands. -/
theorem routinesClear_of_none (u : State) (id : Nat) (h : HerdCtx) (b : Bundle) (t : State) (ha : b.ra.rn = 0)
    (hb : b.rb.rn = 0) (hw : h.waiteNext = 0) : routinesClear u id h b t none none :=
  ⟨by simp [loopNest, Bundle.routines, ha, hb], linkFull_nil h, bundleWait_none u id h hw, rfl, rfl⟩

/-- The commit of a bundle without a control operation (R58, R159). -/
theorem followed_plain (t : State) (id : Nat) (h : HerdCtx) (n : Nat) (x : CtlIn) (hx : x.h = h)
    (hn : x.next = h.pc + BitVec.ofNat 64 n) :
    followed (committedAs t id h false x.plain) id Post.none = committed t id h n := by
  subst hx
  have hc : committedAs t id x.h false x.plain = committed t id x.h n := by
    rw [show committed t id x.h n = committedAs t id x.h false { x.plain with succ := x.h.pc + BitVec.ofNat 64 n } from rfl,
      ← hn]
    rfl
  rw [hc]
  exact committed_modHc t id x.h n

/-- E ends the fetch after the commit (R55, R89). -/
theorem followed_plain_end (t : State) (id : Nat) (h : HerdCtx) (n : Nat) (x : CtlIn) (hx : x.h = h)
    (hn : x.next = h.pc + BitVec.ofNat 64 n) :
    followed (committedAs t id h true x.plain) id { Post.none with fin := true } = ended (committed t id h n) id := by
  subst hx
  unfold followed ended committedAs committed
  dsimp only [CtlIn.plain]
  rw [hn, State.modHc_modHc, State.modHc_modHc]
  rfl

/-- Settles O53: each slot reads the state before the bundle (`mem_slotRuns`), an early trap or a failing encoding check is all that
happens (`issueOne_traps`, `issueOne_encodingTrap`), and a bundle that nothing stops is its commit (`issueOne_whole`), which the
lemmas on `commit` and `runRoutines` give for each act of the control operation and each choice of routine slots. -/
theorem bundlesCommitAsAWholeOrNotAtAll : Obligations.BundlesCommitAsAWholeOrNotAtAll := by
  intro hd c s v m ra rb st id h i b u
  refine ⟨mem_slotRuns u id h b, fun hr ha hb => ⟨fun cg t hcg hstops hrun hfit => ?plain, issueOne_traps i st id h hr ha hb⟩,
    fun x o t qa qb hr hx hctl hstops hrun hfit hqa hqb hclear => ?commits,
    fun k cause hc hh hs hp hrb => issueOne_encodingTrap i st id h hc hh hs hp hrb k cause⟩
  case plain =>
    obtain ⟨-, -, -, -, -, -, -, hwaite, hlead, -⟩ := (issues_iff _ _ _ _).mp hr.2
    have hx := ctlIn_some u id h b hlead
    generalize hxi : CtlIn.mk h _ h.pc _ = x at hx
    have hxh : x.h = h := hxi ▸ rfl
    have hxn : x.next = h.pc + BitVec.ofNat 64 (8 * hd.words) := hxi ▸ rfl
    have hctl : runControl b.c x u = .ok x.plain := by
      rw [show b.c = .ctrlNop cg from hcg, runControl_nop]
    have hgo : exec i st = .next (followed (committedAs t id h hd.e x.plain) id { Post.none with fin := hd.e }) := by
      have := issueOne_whole i st id h x x.plain t none none hr hx hctl hstops hrun hfit (routineCall_zero _ _ _ _ _ _ ha)
        (routineCall_zero _ _ _ _ _ _ hb) (routinesClear_of_none u id h b t ha hb hwaite) (.inr rfl)
      rwa [commit_of_go _ _ _ _ _ _ _ rfl] at this
    refine ⟨fun he => ?_, fun he => ?_⟩
    · rw [hgo, he, ← followed_plain t id h _ x hxh hxn]
      rfl
    · rw [hgo, he, followed_plain_end t id h _ x hxh hxn]
  case commits =>
    intro w post
    have go : unwritten (commit t id h b o qa qb) id = false ∨ routinesStop w qa qb h.pc (nextPc h o) post = false →
        exec i st = .next (commit t id h b o qa qb) :=
      issueOne_whole i st id h x o t qa qb hr hx hctl hstops hrun hfit hqa hqb hclear
    have hgo : o.act = .go → commit t id h b o qa qb = runRoutines w id qa qb h.pc (nextPc h o) post :=
      commit_of_go t id h b o qa qb
    refine ⟨fun ho ha hb => ?go, fun code ho ha hb => ?trap, fun l r ho hl ha hb => ?ret, fun a v ho ha hb hact => ?ra,
      fun r ho ha hb hun => ?rb, fun a r v ho ha hb => ?both⟩ <;> subst ha hb
    case go =>
      rw [go (.inr rfl), hgo ho]
      rfl
    case trap =>
      rw [go (.inr rfl), commit_of_trap t id h b o none none code ho]
      rfl
    case ret =>
      rw [go (.inr rfl), commit_of_ret t id h b o none none l r ho hl]
      rfl
    case ra =>
      have hstop : routinesStop w (some a) none h.pc (nextPc h o) post = false := by simp [routinesStop, raLink, hact]
      rw [go (.inr hstop), hgo ho, runRoutines_ra w v id a h.pc (nextPc h o) post hact]
    case rb =>
      have hrb := hgo ho
      rw [go (.inl (hrb ▸ hun)), hrb]
      rfl
    case both =>
      intro rest hact hun
      have hboth := (hgo ho).trans (runRoutines_both w v id a r h.pc (nextPc h o) post hact)
      rw [go (.inl (hboth ▸ hun)), hboth]

end Sys2Proof.Claims
end

section
/-! The call of a body by a routine slot, and its RET. -/

namespace Sys2Proof.Machine

/-! ### What the commit before a call leaves of the herd-context -/

/-- The overlay's mark changes at most one core. -/
theorem touchOverlay_cases (s : State) (h : HerdCtx) :
    touchOverlay s h = s ∨ ∃ c k, touchOverlay s h = s.setCore c k := by
  unfold touchOverlay
  split
  · exact .inl rfl
  · split
    · exact .inl rfl
    · dsimp only
      split
      · exact .inr ⟨_, _, rfl⟩
      · exact .inl rfl

@[simp] theorem touchOverlay_hctxs (s : State) (h : HerdCtx) : (touchOverlay s h).hctxs = s.hctxs := by
  obtain e | ⟨c, k, e⟩ := touchOverlay_cases s h <;> rw [e]
  rfl

@[simp] theorem touchOverlay_mem (s : State) (h : HerdCtx) : (touchOverlay s h).mem = s.mem := by
  obtain e | ⟨c, k, e⟩ := touchOverlay_cases s h <;> rw [e]
  rfl

@[simp] theorem touchOverlay_parts (s : State) (h : HerdCtx) : (touchOverlay s h).parts = s.parts := by
  obtain e | ⟨c, k, e⟩ := touchOverlay_cases s h <;> rw [e]
  rfl

@[simp] theorem acting_mem (u : State) (id : Nat) (h : HerdCtx) : (acting u id h).mem = u.mem := by
  simp [acting, settle, committed]

/-- The image of a herd-context whose bundle has been committed. -/
theorem acting_image (u : State) (id : Nat) (h g : HerdCtx) (hp : g.part = h.part) (hi : g.image = h.image) :
    (acting u id h).image? g = u.image? h := by
  simp [State.image?, State.part?, acting, settle, committed, hp, hi]

/-- The herd-context in the state in which its routine slot acts: what a call reads of it. -/
theorem acting_hc (u : State) (id : Nat) (h : HerdCtx) (hu : u.hc? id = some h) :
    ∃ g, (acting u id h).hc? id = some g ∧ g.links = h.links ∧ g.frames = h.frames ∧ g.vcc = h.vcc + 1 ∧
      g.hstate = h.hstate ∧ g.part = h.part ∧ g.image = h.image := by
  have ht : (touchOverlay u h).hc? id = some h := by rw [← hu, State.hc?, touchOverlay_hctxs, State.hc?]
  unfold acting settle committed
  rw [State.modHc_modHc, State.modHc_hc, ht]
  exact ⟨_, rfl, rfl, rfl, rfl, rfl, rfl, rfl⟩

/-! ### The call (R36, R446) -/

/-- The operands that a member's ARG registers of a call hold. -/
def Args.operands (a : Args) : Word × Word × Word × Word := (a.x, a.y, a.z, a.w)

/-- `x` is what the call `r` makes of herd-context `g`, at cycle `vcc` and with the body's bundle at `pc` to come (R36, R446). -/
structure Called (r : RCall) (link : Link) (pc : Word) (vcc : Nat) (g x : HerdCtx) : Prop where
  pc_eq : x.pc = pc
  vcc_eq : x.vcc = vcc
  hstate_eq : x.hstate = g.hstate
  links_eq : x.links = link :: g.links
  frames_eq : ∃ fr : Frame, x.frames = fr :: g.frames ∧ fr.rn = r.rn ∧ fr.active = r.caps.map (·.guard)
  args_eq : ∀ (j : Nat) (m : Member), x.members[j]? = some m → m.args.head?.map Args.operands =
    some ((r.cap j).x.val, (r.cap j).y.val, (r.cap j).z.val, (r.cap j).w.val)

/-- The call of a body where the link store has room changes the herd-context alone. -/
theorem enterBody_of (w : State) (r : RCall) (link : Link) (k : Nat) (g : HerdCtx) (im : Image) (hg : w.hc? r.id = some g)
    (him : w.image? g = some im) (hl : g.links.length < linkMax) :
    ∃ x, enterBody w r link k = w.setHc r.id x ∧ Called r link (im.bodyAt r.e k) g.vcc g x := by
  unfold enterBody
  simp only [hg, him, HerdCtx.pushLink, if_pos hl]
  refine ⟨_, rfl, rfl, rfl, rfl, rfl, ⟨_, rfl, rfl, rfl⟩, fun j m hm => ?_⟩
  simp only [List.getElem?_map, Option.map_eq_some_iff, List.getElem?_zipIdx] at hm
  obtain ⟨-, ⟨a, -, rfl⟩, rfl⟩ := hm
  simp [Args.operands]

/-- The same of a call that follows its bundle's commit, said of the herd-context before the bundle. -/
theorem enterBody_acting (u : State) (id : Nat) (h : HerdCtx) (r : RCall) (link : Link) (im : Image) (hu : u.hc? id = some h)
    (hid : r.id = id) (him : u.image? h = some im) (hl : h.links.length < linkMax) :
    ∃ x, enterBody (acting u id h) r link 0 = (acting u id h).setHc id x ∧
      Called r link (im.bodyAt r.e 0) (h.vcc + 1) h x := by
  subst hid
  obtain ⟨g, hg, hlinks, hframes, hvcc, hstate, hpart, himage⟩ := acting_hc u r.id h hu
  obtain ⟨x, hx, hcalled⟩ := enterBody_of _ r link 0 g im hg ((acting_image u r.id h g hpart himage).trans him) (hlinks ▸ hl)
  exact ⟨x, hx, { hcalled with
    vcc_eq := hcalled.vcc_eq.trans hvcc
    hstate_eq := hcalled.hstate_eq.trans hstate
    links_eq := hlinks ▸ hcalled.links_eq
    frames_eq := hframes ▸ hcalled.frames_eq }⟩

/-- The link entry of a call by RA alone: the bundle after the caller's. -/
def HerdCtx.callLink (h : HerdCtx) : Link := ⟨(stepLoops h.pc (h.pc + 16) h.loops h.idx).2.2, none, Post.none⟩

/-- A routine slot that binds to a body calls it once its bundle has committed. -/
theorem actRoutine_body (w : State) (r : RCall) (link : Link) (ha : r.acts = true) (hn : r.e.native = false)
    (hf : r.e.accepts r.f = true) : actRoutine w r link = (enterBody (settle w r.id) r link 0, true) := by
  simp [actRoutine, callBody, ha, hn, hf]

/-- A bundle of one routine slot that is bound to a body is committed and calls it (R34, R36). -/
theorem exec_calls (i : Instr) (hk : i.kind = .routine) (s : State) (id : Nat) (h : HerdCtx) (r : RCall) (im : Image)
    (hr : Ready s id h (bundleOf i)) (hb : Bound i (landAll s id) id h r) (hn : r.e.native = false)
    (hl : h.links.length < linkMax) (him : (landAll s id).image? h = some im) :
    exec i s = .next (enterBody (acting (landAll s id) id h) r h.callLink 0) := by
  obtain ⟨hloops, hrc, hact, hacc⟩ := hb
  obtain ⟨hrid, -⟩ := routineCall_id _ _ _ _ _ _ _ hrc
  obtain ⟨hu, hrun, -⟩ := (issues_iff _ _ _ _).mp hr.2
  have hlink : linkFull h (some r).toList = none := if_pos hl
  have hwait : ((some r).bind fun r => r.wait (landAll s id)) = none := by simp [RCall.wait, hn]
  have hpops : (some r).any (·.popsPaused (actsOn (landAll s id) id)) = false := by simp [RCall.popsPaused, hn]
  have hgoes : runRoutines (committed (landAll s id) id h 16) id (some r) none h.pc
      (stepLoops h.pc (h.pc + 16) h.loops h.idx).2.2 Post.none =
        enterBody (acting (landAll s id) id h) r h.callLink 0 := by
    unfold runRoutines
    simp only [actRoutine_body _ r _ hact hn hacc, hrid]
    rfl
  rw [issue_routine i hk s id h (some r) hr (.inr hloops) hrc hlink hwait hpops, hgoes]
  intro hun
  obtain ⟨x, hx, hcalled⟩ := enterBody_acting _ id h r h.callLink im hu hrid him hl
  rw [hgoes, hx] at hun
  simp [unwritten, hcalled.hstate_eq, hrun] at hun

/-- A slot whose guard reads true on no member pops nothing. -/
theorem RCall.popsPaused_of_idle (r : RCall) (s : State) (ha : r.acts = false) : r.popsPaused s = false := by
  have hg : ∀ k, (r.cap k).guard = false := by
    intro k
    unfold RCall.cap
    rw [List.getD_eq_getElem?_getD]
    cases hk : r.caps[k]? with
    | none => rfl
    | some c => simpa using (List.any_eq_false.mp ha) c (List.mem_of_getElem? hk)
  simp [RCall.popsPaused, hg]

end Sys2Proof.Machine

namespace Sys2Proof.Claims
open Sys2Proof.Machine

/-- A slot with RN 0 binds to nothing, and its bundle only advances (R23, R34). -/
theorem routineNop_advances (f : RForm) : Advances (.routineNop f) := by
  intro s id h hr
  have hrn : (Instr.routineNop f).rn = 0 := rn_of _ 0 f rfl rfl
  have h0 := routineCall_zero (landAll s id) id h (bundleOf (.routineNop f)) 4 _ hrn
  rw [issue_routine _ rfl s id h none hr (.inl ⟨rfl, hrn⟩) h0 (linkFull_nil h) rfl rfl fun _ => rfl]
  exact congrArg Host.Outcome.next (committed_modHc _ id h 16)

theorem routineSlotsCallTheirBody : RoutineSlotsCallTheirBody := by
  refine ⟨routineNop_advances, fun i hk s id h r hr hl hrc ha hw =>
    routine_idle i hk s id h r hr hl hrc ha hw (r.popsPaused_of_idle _ ha), fun i hk s id h r im hr hb hn hl him => ?_⟩
  obtain ⟨hu, -⟩ := (issues_iff _ _ _ _).mp hr.2
  obtain ⟨hrid, -, hrn, -⟩ := routineCall_id _ _ _ _ _ _ _ hb.2.1
  obtain ⟨x, hx, hpc, hvcc, -, hlinks, ⟨fr, hframes, hfrn, hfact⟩, hargs⟩ :=
    enterBody_acting _ id h r h.callLink im hu hrid him hl
  refine ⟨_, x, exec_calls i hk s id h r im hr hb hn hl him, ?_, hpc, hvcc, hlinks, ?_, ?_, ?_, ?_, hargs⟩
  · rw [hx, State.setHc_hc]
  · rw [hframes, List.drop_one, List.tail_cons]
  · rw [hframes, List.map_cons, hfrn, hrn]
  · rw [hframes, List.head?_cons, Option.map_some, hfact]
  · rw [hx, State.setHc_mem, acting_mem]

/-- A member whose guard was false at a body's RET. -/
theorem completeCall_of_inactive (f : Frame) (m : Member) (k v : Nat) (hoff : f.active.getD k true = false) :
    m.completeCall f k v = { m with
      inflight := m.inflight.map fun (p : Pending) => if f.since ≤ p.issue then { p with due := v + 1 } else p,
      args := m.args.drop 1 } := by
  unfold Member.completeCall
  rw [if_pos hoff]

theorem returnsDeliverTheOutputs : ReturnsDeliverTheOutputs := by
  intro f m k v old
  refine ⟨completeCall_of_inactive f m k v, fun hon a l hal => ?_⟩
  have hact : f.active.getD k true ≠ false := by rw [hon]; decide
  unfold Member.completeCall
  rw [if_neg hact, hal]
  refine ⟨rfl, congrArg (old ++ ·) (List.filterMap_congr fun j hj => ?_)⟩
  have hj4 : j < 4 := List.mem_range.mp hj
  refine ite_congr rfl (fun _ => ?_) fun _ => rfl
  split
  · next hs =>
    rw [if_pos hs]
    interval_cases j <;> rfl
  · next hp =>
    rw [if_neg (by omega), if_pos hp]
    interval_cases j <;> rfl
  · next hs hp => rw [if_neg hs, if_neg hp]

/-- Settles O26: a routine slot bound to a body is its bundle's commit and `enterBody` (`exec_calls`), one that acts on no member and
one with RN 0 only advance, and what a RET does on a member is read off `Member.completeCall`. -/
theorem routineCallsAndReturns : Obligations.RoutineCallsAndReturns :=
  ⟨routineSlotsCallTheirBody, returnsDeliverTheOutputs⟩

end Sys2Proof.Claims
end

section
/-! The encoding of every well-formed instruction, and the spec's worked encodings (R50..R55, R62..R71). -/

namespace Sys2Proof

/-- The slots present in the bundle of one slot operation of a kind; none for a kind that stands in no slot alone. -/
def Kind.present : Kind → Option (BitVec 5)
  | .scalar => some 1
  | .vector => some 2
  | .memory => some 4
  | .routine => some 8
  | .control | .bundle | .event => none

/-- The words of a slot operation: the plain header, and the operation's own word. -/
theorem encode_slot (i : Instr) (p : BitVec 5) (hp : i.kind.present = some p) :
    encode i = headerWord (plainHdr p) 0 0 0 :: (slotWord i).toList := by
  unfold encode
  split
  · cases hp
  · generalize i.kind = k at hp ⊢
    cases k <;> cases hp <;> rfl

/-- The words of a control operation: its header alone. -/
theorem encode_control (i : Instr) (hk : i.kind = .control) :
    encode i = (controlFields i).toList.map fun (cop, nd, cg) => headerWord (plainHdr 0) cop nd cg := by
  unfold encode
  split
  · cases hk
  · rw [hk]

/-- A slot operation is well formed when its fields are. -/
theorem wf_slot (i : Instr) (p : BitVec 5) (hp : i.kind.present = some p) : i.wf = i.fieldsOk := by
  unfold Instr.wf
  split
  · cases hp
  · generalize i.kind = k at hp ⊢
    cases k <;> cases hp <;> rfl

/-- A control operation alone is well formed when it is one in a bundle of one word. -/
theorem wf_control (i : Instr) (hk : i.kind = .control) : i.wf = i.controlOk 1 := by
  unfold Instr.wf
  split
  · cases hk
  · rw [hk]

/-- No event is well formed. -/
theorem wf_event (i : Instr) (hk : i.kind = .event) : i.wf = false := by
  unfold Instr.wf
  split
  · cases hk
  · rw [hk]

/-- A well-formed instruction of the kind of whole bundles is a `bundleIssue`. -/
theorem roundTrip_of_bundle (i : Instr) (hk : i.kind = .bundle) : Laws.RoundTrip.Statement i := by
  intro hwf
  have hw := hwf
  unfold Instr.wf at hw
  split at hw
  · exact roundTrip_bundle _ _ _ _ _ _ _ hwf
  · rw [hk] at hw
    cases hw

end Sys2Proof

namespace Sys2Proof.Claims

/-- Settles O59, by the kind of the instruction: a slot operation's word is read back by its slot's decoder, a control operation's
fields from the header, a whole bundle's words slot by slot, and an event is not well formed. -/
theorem decodingUndoesEncoding : Obligations.DecodingUndoesEncoding := by
  intro i
  cases hk : i.kind with
  | control => exact roundTrip_control i hk (encode_control i hk) (wf_control i hk ▸ id)
  | scalar =>
    have hp : i.kind.present = some 1 := congrArg Kind.present hk
    exact roundTrip_scalar i hk (encode_slot i 1 hp) (wf_slot i 1 hp ▸ id)
  | vector =>
    have hp : i.kind.present = some 2 := congrArg Kind.present hk
    exact roundTrip_vector i hk (encode_slot i 2 hp) (wf_slot i 2 hp ▸ id)
  | memory =>
    have hp : i.kind.present = some 4 := congrArg Kind.present hk
    exact roundTrip_memory i hk (encode_slot i 4 hp) (wf_slot i 4 hp ▸ id)
  | routine =>
    have hp : i.kind.present = some 8 := congrArg Kind.present hk
    exact roundTrip_routine i hk (encode_slot i 8 hp) (wf_slot i 8 hp ▸ id)
  | bundle => exact roundTrip_of_bundle i hk
  | event => exact roundTrip_event i (wf_event i hk)

/-- Settles O58: each word is evaluated by the decoder. -/
theorem workedEncodingsDecode : Obligations.WorkedEncodingsDecode :=
  ⟨rfl, rfl, rfl, rfl, rfl, rfl, rfl, rfl, rfl, rfl, _, rfl, rfl, rfl⟩

end Sys2Proof.Claims
end

section
/-! The step of whoever has the turn: a herd-context's step runs what its words decode to (log 1, R66, R70, R152, R380). -/

namespace Sys2Proof.Claims
open Sys2Proof.Machine

/-- The next turn is the head of the agenda. -/
theorem nextTurn_of_agenda (s : State) (t : Turn) (rest : List Turn) (ha : s.agenda = t :: rest) :
    nextTurn s = (some t, taken s rest) := by
  unfold nextTurn
  rw [ha]
  rfl

/-- With an empty agenda the next turn is the candidate of the round robin. -/
theorem nextTurn_of_candidate (s : State) (t : Turn) (ha : s.agenda = [])
    (hc : (candidates s)[s.rr % max (candidates s).length 1]? = some t) :
    nextTurn s = (some t, settleDeep { s with rr := s.rr + 1, clk := s.clk + 1 }) := by
  unfold nextTurn
  split
  · next ht => rw [ha] at ht; cases ht
  · exact congrArg (·, _) hc

theorem step_hc (s u : State) (id : Nat) (hn : nextTurn s = (some (.hc id), u)) : step s = hcStep u id := by
  unfold step
  rw [hn]

/-- A RUNNING herd-context before whose next bundle nothing stands fetches. -/
theorem hcPlan_fetches (u : State) (id : Nat) (h : HerdCtx) (hh : u.hc? id = some h) (hr : h.hstate = .running)
    (he : hcEvent u id = none) : hcPlan u id = fetchPlan u h := by
  simp [hcPlan, hh, hr, he]

/-- Words that are an instruction are issued as that instruction. -/
theorem hcStep_issues (u : State) (id : Nat) (h : HerdCtx) (ws : List (BitVec 64)) (i : Instr) (hf : Fetches u id h ws)
    (hd : decodeWords ws = .ok i) : hcStep u id = exec i { u with cur := some id } := by
  obtain ⟨hh, hr, he, hw, -⟩ := hf
  cases ws with
  | nil => cases hd
  | cons w r => simp [hcStep, hcPlan_fetches u id h hh hr he, fetchPlan, hw, hd]

/-- Words that are none trap. -/
theorem hcStep_undecoded (u : State) (id : Nat) (h : HerdCtx) (w : BitVec 64) (r : List (BitVec 64)) (e : DecodeFailure)
    (hf : Fetches u id h (w :: r)) (hd : decodeWords (w :: r) = .error e) :
    hcStep u id = .next (issueUndecoded u id w e) := by
  obtain ⟨hh, hr, he, hw, -⟩ := hf
  simp [hcStep, hcPlan_fetches u id h hh hr he, fetchPlan, hw, hd]

/-- A fetch that gives no words faults. -/
theorem hcStep_noFetch (u : State) (id : Nat) (h : HerdCtx) (hh : u.hc? id = some h) (hr : h.hstate = .running)
    (he : hcEvent u id = none) (hw : fetchWords u h = none) : hcStep u id = .next (fetchFault u id) := by
  simp [hcStep, hcPlan_fetches u id h hh hr he, fetchPlan, hw]

/-- Outside the image's code there is nothing to fetch. -/
theorem fetchWords_outside (u : State) (h : HerdCtx) (ho : (u.image? h).bind (·.bundle h.pc) = none) :
    fetchWords u h = none := by
  unfold fetchWords
  rw [ho]

/-- Settles O56: the turn is the head of the agenda (`nextTurn_of_agenda`) or the candidate of the round robin
(`nextTurn_of_candidate`), and a herd-context's turn is what it fetches (`hcStep_issues`, `hcStep_undecoded`, `hcStep_noFetch`). -/
theorem stepRunsTheDecodedInstruction : Obligations.StepRunsTheDecodedInstruction := by
  intro s rest
  refine ⟨fun id h ws i ha hf hd => ?decoded, fun id h w r e ha hf hd => ?undecoded,
    fun id h ha hh hr he hw => ?noFetch, fun i ha => ?event, fun a ha => ?act, fun id h ws i ha hc => ?roundRobin⟩
  case decoded =>
    rw [step_hc s _ id (nextTurn_of_agenda s _ rest ha)]
    exact hcStep_issues _ id h ws i hf hd
  case undecoded =>
    rw [step_hc s _ id (nextTurn_of_agenda s _ rest ha)]
    exact hcStep_undecoded _ id h w r e hf hd
  case noFetch =>
    rw [step_hc s _ id (nextTurn_of_agenda s _ rest ha)]
    exact hcStep_noFetch _ id h hh hr he (hw.elim (fetchWords_outside _ h) fun h => h)
  case event =>
    unfold step
    rw [nextTurn_of_agenda s _ rest ha]
  case act =>
    unfold step
    rw [nextTurn_of_agenda s _ rest ha]
  case roundRobin =>
    intro u hf hd
    rw [step_hc s u id (nextTurn_of_candidate s _ ha hc)]
    exact hcStep_issues u id h ws i hf hd

end Sys2Proof.Claims
end

section
/-! Slot operations that pop, push or do nothing: stream forms (R165, R166, R168), the no-ops, PREF, the fences and SETQ (R63, R66,
R68, R196, R207, R208, R211). -/

namespace Sys2Proof.Machine
open Sys2Proof.Claims

/-! ### Lane operations with any source and destination (R168) -/

/-- The model's frame of a lane operation is the claims' own, with its lane function in the state before the bundle. -/
theorem vLanes_eq_anyLanes (f : VForm) (least na : Nat) (op : State → Ctx → W32 → W32 → W32 → W32 × FFlags) (c : Ctx)
    (s : State) : vLanes f least (op s c) na c s = anyLanes f least na op c s := by
  unfold vLanes anyLanes
  cases vInputs s c f with
  | error e => rfl
  | ok x => simp only [mapLanes_eq, lane]

/-- A V operation whose effect is that of a lane function completes unless it stops. -/
theorem runs_lanes {i : Instr} {f : VForm} {least na : Nat} {op : State → Ctx → W32 → W32 → W32 → W32 × FFlags}
    (hk : i.kind = .vector) (hi : ∀ c s, slotFx i c s = vLanes f least (op s c) na c s) : Runs i (anyLanes f least na op) :=
  runs_of i (.inr (.inl hk)) (exec_solo i (.inr (.inl hk))) _
    (funext fun c => funext fun s => (hi c s).trans (vLanes_eq_anyLanes f least na op c s))

/-- The same of an operation of one source, whose lane function is given lane by lane. -/
theorem runs_v1 {i : Instr} {f : VForm} {least : Nat} {op op' : W32 → W32 × FFlags} (hk : i.kind = .vector)
    (hop : ∀ a, op a = op' a) (hi : slotFx i = v1 f least op) : Runs i (anyLanes f least 1 fun _ _ a _ _ => op' a) := by
  obtain rfl : op = op' := funext hop
  exact runs_lanes hk fun c s => congrFun (congrFun hi c) s

/-- The same of an integer operation, which raises no flag (R175). -/
theorem runs_vInt {i : Instr} {f : VForm} {op op' : W32 → W32 → W32} (hk : i.kind = .vector)
    (hop : ∀ a b, op a b = op' a b) (hi : slotFx i = vInt f op) : Runs i (anyLanes f 2 2 fun _ _ a b _ => (op' a b, 0)) := by
  obtain rfl : op = op' := funext fun a => funext (hop a)
  exact runs_lanes hk fun c s => congrFun (congrFun hi c) s

/-! ### The lane functions, as the rules write them -/

theorem and_signMask (a : W32) : a &&& 0x7FFFFFFF = BitVec.ofNat 32 (a.toNat % 2 ^ 31) := by
  apply BitVec.eq_of_toNat_eq
  rw [BitVec.toNat_and, BitVec.toNat_ofNat, Nat.mod_eq_of_lt (a := a.toNat % 2 ^ 31) (by omega)]
  exact Nat.and_two_pow_sub_one_eq_mod a.toNat 31

theorem xor_signBit (a : W32) : a ^^^ 0x80000000 = BitVec.ofNat 32 (a.toNat + 2 ^ 31) := by
  have hdiv : (a.toNat ^^^ 2 ^ 31) / 2 ^ 31 = a.toNat / 2 ^ 31 ^^^ 1 := Nat.xor_div_two_pow
  have hmod : (a.toNat ^^^ 2 ^ 31) % 2 ^ 31 = a.toNat % 2 ^ 31 := by
    rw [Nat.xor_mod_two_pow, Nat.mod_self, Nat.xor_zero]
  apply BitVec.eq_of_toNat_eq
  rw [BitVec.toNat_xor, BitVec.toNat_ofNat, show (0x80000000 : W32).toNat = 2 ^ 31 from rfl]
  obtain h | h : a.toNat / 2 ^ 31 = 0 ∨ a.toNat / 2 ^ 31 = 1 := by omega
  all_goals
    rw [h] at hdiv
    simp only [Nat.reduceXor, Nat.reducePow] at hdiv hmod ⊢
    omega

theorem laneShift_eq (b : W32) : laneShift b = b.toNat % 32 := by
  simp [laneShift, BitVec.extractLsb'_toNat]

theorem smin32_eq (a b : W32) : smin32 a b = if a.toInt < b.toInt then a else b := by
  simp [smin32, BitVec.slt_iff_toInt_lt]

theorem smax32_eq (a b : W32) : smax32 a b = if a.toInt < b.toInt then b else a := by
  simp [smax32, BitVec.slt_iff_toInt_lt]

theorem umin32_eq (a b : W32) : umin32 a b = if a.toNat < b.toNat then a else b := by
  simp [umin32, BitVec.ult_iff_toNat_lt]

theorem umax32_eq (a b : W32) : umax32 a b = if a.toNat < b.toNat then b else a := by
  simp [umax32, BitVec.ult_iff_toNat_lt]

/-! ### Operations that leave the state as it is -/

theorem acrossMembers_id (u : State) (id : Nat) (h : HerdCtx) (i : Instr) (n : Nat) :
    acrossMembers u id h i (fun _ s => s) n = u := by
  induction n with
  | zero => rfl
  | succ n ih =>
    rw [acrossMembers_succ, ih]
    cases h.members[n]? with
    | none => rfl
    | some m => exact ite_self u

/-- An operation that leaves every state as it is only advances its bundle. -/
theorem advances_of (i : Instr) (hi : isSolo i) (hfx : ∀ c s, slotFx i c s = .ok s) : Advances i := by
  intro s id h hr
  have hd := does_of i hi (exec_solo i hi) (fun _ _ => True) (fun _ s => s) (fun c s _ => hfx c s)
    (fun _ _ => (Grows.of_hctxs rfl).mono (by decide)) s id h hr fun _ _ _ _ => ⟨trivial, trivial⟩
  rwa [acrossMembers_id] at hd

end Sys2Proof.Machine

namespace Sys2Proof.Claims
open Sys2Proof.Machine

/-- Each operation's effect is the model's frame on the lane function of its rule; where the two write the lane function differently,
the lemma on that function is named. -/
theorem streamFormsPopAndPush : StreamFormsPopAndPush := by
  intro f
  refine ⟨runs_lanes rfl fun _ _ => rfl, runs_lanes rfl fun _ _ => rfl, runs_lanes rfl fun _ _ => rfl,
    runs_lanes rfl fun _ _ => rfl, runs_lanes rfl fun _ _ => rfl, runs_lanes rfl fun _ _ => rfl,
    runs_lanes rfl fun _ _ => rfl, runs_lanes rfl fun _ _ => rfl, ?fabs, ?fneg, runs_lanes rfl fun _ _ => rfl,
    runs_lanes rfl fun _ _ => rfl, runs_lanes rfl fun _ _ => rfl, runs_lanes rfl fun _ _ => rfl,
    runs_lanes rfl fun _ _ => rfl, runs_lanes rfl fun _ _ => rfl, runs_lanes rfl fun _ _ => rfl,
    runs_lanes rfl fun _ _ => rfl, runs_lanes rfl fun _ _ => rfl, runs_lanes rfl fun _ _ => rfl, ?ishl, ?ishr, ?isra,
    ?imin, ?imax, ?iminu, ?imaxu, runs_lanes rfl fun _ _ => rfl, runs_lanes rfl fun _ _ => rfl⟩
  case fabs => exact runs_v1 (op := fun a => (a &&& 0x7FFFFFFF, 0)) rfl (fun _ => by rw [and_signMask]) rfl
  case fneg => exact runs_v1 (op := fun a => (a ^^^ 0x80000000, 0)) rfl (fun _ => by rw [xor_signBit]) rfl
  case ishl => exact runs_vInt (op := fun a b => a <<< laneShift b) rfl (fun _ _ => by rw [laneShift_eq]) rfl
  case ishr => exact runs_vInt (op := fun a b => a >>> laneShift b) rfl (fun _ _ => by rw [laneShift_eq]) rfl
  case isra => exact runs_vInt (op := fun a b => a.sshiftRight (laneShift b)) rfl (fun _ _ => by rw [laneShift_eq]) rfl
  case imin => exact runs_vInt rfl smin32_eq rfl
  case imax => exact runs_vInt rfl smax32_eq rfl
  case iminu => exact runs_vInt rfl umin32_eq rfl
  case imaxu => exact runs_vInt rfl umax32_eq rfl

theorem everySlotOperationCompletesUnlessItStops : EverySlotOperationCompletesUnlessItStops :=
  fun i hi => runs_of i hi (exec_solo i hi) (slotFx i) rfl

/-- Settles O12: a lane operation is `anyLanes` of its lane function (`runs_lanes`), and an operation that stops on no member completes
and commits (`runs_of`). -/
theorem slotFormsCompleteUnlessTheyStop : Obligations.SlotFormsCompleteUnlessTheyStop :=
  ⟨streamFormsPopAndPush, everySlotOperationCompletesUnlessItStops⟩

theorem noOpsPrefetchAndFencesOnlyAdvance : NoOpsPrefetchAndFencesOnlyAdvance :=
  ⟨advances_of _ (.inl rfl) fun _ _ => rfl, advances_of _ (.inr (.inl rfl)) fun _ _ => rfl,
    advances_of _ (.inr (.inr rfl)) fun _ _ => rfl, fun _ => advances_of _ (.inr (.inr rfl)) fun _ _ => rfl,
    fun _ => ⟨advances_of _ (.inr (.inr rfl)) fun _ _ => rfl, advances_of _ (.inr (.inr rfl)) fun _ _ => rfl,
      advances_of _ (.inr (.inr rfl)) fun _ _ => rfl⟩⟩

theorem setqReplacesTheStream : SetqReplacesTheStream := by
  intro f at'
  refine does_of _ (.inr (.inr rfl)) (exec_solo _ (.inr (.inr rfl))) _ _ (fun c s hpre => ?resolves) fun c s => ?grows
  case resolves =>
    obtain ⟨t, b, hplace, haccepted⟩ := hpre
    have hresolves : spAccess s c .engine (c.spAddr f.sa f.imm.toInt) 64 8 0x3E 0 false = .ok (.word t b) := hplace
    show fxSetq f c s = _
    simp only [fxSetq, hresolves, haccepted, hplace]
  case grows =>
    split
    · exact (Grows.modMember c.id c.mi 0 s _ fun m => ⟨[], by simp, by simp⟩).mono (by decide)
    · exact (Grows.of_hctxs rfl).mono (by decide)

/-- Settles O20: an operation that leaves the state as it is only advances (`advances_of`), and an access that resolves to a word with
an accepted record gives the stream that record. -/
theorem noOpsPrefetchFencesAndSetq : Obligations.NoOpsPrefetchFencesAndSetq :=
  ⟨noOpsPrefetchAndFencesOnlyAdvance, setqReplacesTheStream⟩

end Sys2Proof.Claims
end

section
/-! Herd-contexts between bundles: late results, overlays, engine waits that end, and the selector (R60, R81, R82, R85, R90, R92,
R316). -/

namespace Sys2Proof.Machine

/-! ### What is due lands without moving the herd-context to another state -/

theorem quiet_writeOut (l : List OutElem) (s t : State) (w : Who) (hw : writeOut s w l = some t) : Quiet s t := by
  induction l generalizing s with
  | nil =>
    cases hw
    exact Quiet.refl _
  | cons e r ih =>
    unfold writeOut at hw
    split at hw
    · cases hw
    · next u hu =>
      have hsend : Quiet u (if e.setFull then sendFull u w e.loc true 0x3E else u) :=
        Quiet.ite _ (Quiet.ite _ (Quiet.refl u) (quiet_locSetFull u e.loc true 0x3E)) (Quiet.refl u)
      exact ((quiet_locWrite _ _ _ _ _ _ _ hu).trans hsend).trans (ih _ hw)

/-- The state of life of a herd-context (R85), if there is one. -/
def State.lifeOf (s : State) (id : Nat) : Option HState := (s.hc? id).map (·.hstate)

theorem lifeOf_quiet {s t : State} (h : Quiet s t) (id : Nat) : t.lifeOf id = s.lifeOf id := by
  unfold State.lifeOf State.hc?
  rw [h.1]

theorem lifeOf_modHc (s : State) (id : Nat) (f : HerdCtx → HerdCtx) (hf : ∀ h, (f h).hstate = h.hstate) :
    (s.modHc id f).lifeOf id = s.lifeOf id := by
  simp [State.lifeOf, State.modHc_hc, Function.comp_def, hf]

theorem lifeOf_foldl {α : Type} (f : State → α → State) (id : Nat) (hf : ∀ s a, (f s a).lifeOf id = s.lifeOf id) (l : List α)
    (s : State) : (l.foldl f s).lifeOf id = s.lifeOf id := by
  induction l generalizing s with
  | nil => rfl
  | cons a l ih => exact (ih (f s a)).trans (hf s a)

theorem flushStrm_lifeOf (s : State) (id mi q : Nat) : (flushStrm s id mi q).lifeOf id = s.lifeOf id := by
  unfold flushStrm
  split
  · rfl
  split
  · rfl
  split
  · rfl
  split
  · rfl
  split
  · next t ht =>
    exact (lifeOf_modHc t id _ fun h => h.modMember_hstate mi _).trans (lifeOf_quiet (quiet_writeOut _ _ _ _ ht) id)
  · rfl

theorem flushPushes_lifeOf (s : State) (id : Nat) : (flushPushes s id).lifeOf id = s.lifeOf id := by
  unfold flushPushes
  split
  · rfl
  split
  · exact lifeOf_foldl _ id (fun s mi => lifeOf_foldl _ id (fun s q => flushStrm_lifeOf s id mi q) _ s) _ s
  · rfl

theorem landAll_lifeOf (s : State) (id : Nat) : (landAll s id).lifeOf id = s.lifeOf id := by
  unfold landAll
  rw [lifeOf_modHc, flushPushes_lifeOf]
  exact fun _ => rfl

/-- Whether a herd-context stands is a matter of its state of life. -/
theorem stands_landAll (s : State) (id : Nat) (h : HerdCtx) (hh : (landAll s id).hc? id = some h) :
    ((s.hc? id).map HerdCtx.stands).getD false = h.stands := by
  have hl := landAll_lifeOf s id
  simp only [State.lifeOf, hh, Option.map_some] at hl
  obtain ⟨g, hg, hst⟩ := Option.map_eq_some_iff.mp hl.symm
  simp [hg, HerdCtx.stands, hst]

/-! ### The order of the selector (R316) -/

/-- `a` is chosen no later than `b`: a higher effective priority, among equals the one that ran longer ago, then the one placed
first. -/
def NotAfter (a b : Nat × HerdCtx) : Prop :=
  b.2.ep ≤ a.2.ep ∧ (b.2.ep = a.2.ep → a.2.lastRun ≤ b.2.lastRun ∧ (b.2.lastRun = a.2.lastRun → a.2.placed ≤ b.2.placed))

theorem NotAfter.refl (a : Nat × HerdCtx) : NotAfter a a := ⟨le_refl _, fun _ => ⟨le_refl _, fun _ => le_refl _⟩⟩

theorem NotAfter.trans {a b d : Nat × HerdCtx} (h : NotAfter a b) (k : NotAfter b d) : NotAfter a d := by
  unfold NotAfter at *
  omega

theorem notAfter_of_beats {a b : Nat × HerdCtx} (h : beats a b = true) : NotAfter a b := by
  unfold beats at h
  unfold NotAfter
  split_ifs at h <;> rw [decide_eq_true_eq] at h <;> omega

theorem notAfter_of_not_beats {a b : Nat × HerdCtx} (h : beats a b = false) : NotAfter b a := by
  unfold beats at h
  unfold NotAfter
  split_ifs at h <;> rw [decide_eq_false_iff_not] at h <;> omega

theorem pickBest_eq_none (l : List (Nat × HerdCtx)) (h : pickBest l = none) : l = [] := by
  cases l with
  | nil => rfl
  | cons x r =>
    unfold pickBest at h
    split at h
    · split at h <;> cases h
    · cases h

/-- The selector's choice is a candidate, and no other stands before it. -/
theorem pickBest_notAfter (l : List (Nat × HerdCtx)) (x : Nat × HerdCtx) (h : pickBest l = some x) :
    x ∈ l ∧ ∀ y ∈ l, NotAfter x y := by
  induction l generalizing x with
  | nil => cases h
  | cons a r ih =>
    unfold pickBest at h
    split at h
    · next y hy =>
      obtain ⟨hmem, hbest⟩ := ih y hy
      split at h
      · next hb =>
        cases h
        exact ⟨List.mem_cons_of_mem _ hmem, List.forall_mem_cons.mpr ⟨notAfter_of_beats hb, hbest⟩⟩
      · next hb =>
        cases h
        have hxy := notAfter_of_not_beats (eq_false_of_ne_true hb)
        exact ⟨List.mem_cons_self .., List.forall_mem_cons.mpr ⟨NotAfter.refl _, fun z hz => hxy.trans (hbest z hz)⟩⟩
    · next hnone =>
      cases h
      rw [pickBest_eq_none r hnone]
      exact ⟨List.mem_cons_self .., List.forall_mem_cons.mpr ⟨NotAfter.refl _, by simp⟩⟩

end Sys2Proof.Machine

namespace Sys2Proof.Claims
open Sys2Proof.Machine

theorem landLate_lands (s : State) (id : Nat) (h : HerdCtx) (hh : (landAll s id).hc? id = some h) (hs : h.stands = false) :
    landLate s id = (landAll s id).setHc id { h with members := h.members.map (lateLanded (landAll s id) id h) } := by
  unfold landLate
  rw [stands_landAll s id h hh, hs]
  simp only [hh, Bool.false_eq_true, if_false]
  rfl

theorem landLate_stands (s : State) (id : Nat) (h : HerdCtx) (hh : s.hc? id = some h) (hs : h.stands = true) :
    landLate s id = s := by
  simp [landLate, hh, hs]

theorem overlayStep_loads (s : State) (id : Nat) (h : HerdCtx) (o : BitVec 256 × Nat) (hh : s.hc? id = some h)
    (ho : h.overlay s = some o) (hm : (s.core h.leadCore).overlays.contains o = false) :
    overlayStep s id =
      (let c := s.core h.leadCore
       let keep := (coreUsers s h.leadCore).filterMap fun x => x.2.overlay s
       s.setCore h.leadCore
         { c with overlays := o :: (if c.overlays.length < 12 then c.overlays else dropLast keep c.overlays) }) := by
  simp only [overlayStep, hh, ho, loadOverlay, hm, Bool.false_eq_true, if_false]
  rfl

/-- Among whom the selector chooses: the READY herd-contexts of a frame that no forced stop waits for, without those that have just
yielded while there are others (R156, R316). -/
def eligible (fr : List (Nat × HerdCtx)) : List (Nat × HerdCtx) :=
  let ready := fr.filter fun x => x.2.hstate == .ready && x.2.stop != some .forced
  let fresh := ready.filter fun x => !x.2.yielded
  if fresh.isEmpty then ready else fresh

/-- On a frame on which nobody runs, the selector's choice is made and takes effect. -/
theorem selectOn_idle (s : State) (lead : Nat) (hidle : ∀ x ∈ frameOf s lead, x.2.hstate ≠ .running) :
    selectOn s lead = (pickBest (eligible (frameOf s lead))).elim s fun x =>
      selected s (frameOf s lead) (eligible (frameOf s lead)) x.1 x.2 := by
  have hnone : ¬ (frameOf s lead).any (fun x => x.2.hstate == .running) = true := by simpa using hidle
  unfold selectOn
  rw [if_neg hnone]
  generalize frameOf s lead = fr
  unfold eligible
  dsimp only
  cases (fr.filter fun x => x.2.hstate == .ready && x.2.stop != some .forced).filter fun x => !x.2.yielded with
  | nil =>
    rw [List.isEmpty_nil, if_pos rfl]
    cases pickBest (fr.filter fun x => x.2.hstate == .ready && x.2.stop != some .forced) <;> rfl
  | cons x l =>
    rw [List.isEmpty_cons, if_neg Bool.false_ne_true]
    cases pickBest (x :: l) <;> rfl

theorem herdContextsGoOnBetweenBundles : HerdContextsGoOnBetweenBundles := by
  intro s id h
  refine ⟨fun hh hs => congrArg Host.Outcome.next (landLate_lands s id h hh hs),
    fun hh hs => congrArg Host.Outcome.next (landLate_stands s id h hh hs),
    fun o hh ho hm => congrArg Host.Outcome.next (overlayStep_loads s id h o hh ho hm), fun hh hb hf hw => ?waitEnds,
    fun lead => ?selects⟩
  case waitEnds =>
    have : waitEnd s id = s.setHc id { h with hstate := .ready, wait := none } := by simp [waitEnd, hh, hb, hf, hw]
    exact congrArg Host.Outcome.next this
  case selects =>
    intro fr ready fresh cands hidle hbest
    have hsel := selectOn_idle s lead hidle
    rw [show pickBest (eligible (frameOf s lead)) = some (id, h) from hbest] at hsel
    exact congrArg Host.Outcome.next hsel

/-- Settles O37: each event is the effect that its lemma gives, and the selector's choice stands after no other candidate
(`pickBest_notAfter`). -/
theorem contextsGoOnAndTheSelectorChooses : Obligations.ContextsGoOnAndTheSelectorChooses :=
  ⟨herdContextsGoOnBetweenBundles, pickBest_notAfter⟩

end Sys2Proof.Claims
end

section
/-! How stops are carried out: at a drain point, by force, and when a pre-emption request has waited too long (R85, R86, R313,
R367). -/

namespace Sys2Proof.Machine

/-! ### What lands before a stop -/

/-- What lands before a herd-context's turn leaves it there, in the state of life that it was in. -/
theorem hc_before_landAll (s : State) (id : Nat) (h : HerdCtx) (hh : (landAll s id).hc? id = some h) :
    ∃ g, s.hc? id = some g ∧ g.hstate = h.hstate := by
  have hl := landAll_lifeOf s id
  simp only [State.lifeOf, hh, Option.map_some] at hl
  exact Option.map_eq_some_iff.mp hl.symm

theorem landLive_of_live (s : State) (id : Nat) (h : HerdCtx) (hh : (landAll s id).hc? id = some h) (hs : h.stands = false) :
    landLive s id = landAll s id := by
  simp [landLive, hh, hs]

theorem landLive_of_stands (s : State) (id : Nat) (h : HerdCtx) (hh : (landAll s id).hc? id = some h) (hs : h.stands = true) :
    landLive s id = s := by
  simp [landLive, hh, hs]

theorem fetchNext_of_bundle (s : State) (id : Nat) (h : HerdCtx) (b : Bundle) (hb : bundleAtPc s h = some b) :
    fetchNext s id h = issueBundle s id b := by
  unfold bundleAtPc at hb
  split at hb
  · next ws hw =>
    split at hb
    · next i hi =>
      cases hb
      cases ws with
      | nil => cases hi
      | cons w r => simp [fetchNext, hw, hi]
    · cases hb
  · cases hb

end Sys2Proof.Machine

namespace Sys2Proof.Claims
open Sys2Proof.Machine

theorem startSave_eq (s : State) (id : Nat) (h : HerdCtx) : startSave s id h = s.setHc id (savingFrom h) := rfl

/-! ### A stop at a drain point (R86) -/

theorem drainStop_saves (s : State) (id : Nat) (h : HerdCtx) (v : Nat) (hh : (landAll s id).hc? id = some h)
    (hp : h.stop = some (.preempt v)) (hr : h.hstate = .running) (hd : atDrainPoint (landAll s id) id h = true) :
    drainStop s id = (landAll s id).setHc id (savingFrom h) := by
  obtain ⟨g, hg, hgs⟩ := hc_before_landAll s id h hh
  simp [drainStop, hg, hgs, hh, hp, hr, hd, startSave_eq]

/-! ### A forced stop (R85, R367) -/

theorem forceStop_saves (s : State) (id : Nat) (h : HerdCtx) (hh : (landLive s id).hc? id = some h)
    (hf : h.stop = some .forced) (hs : h.hstate = .ready ∨ h.hstate = .blocked ∨ h.hstate = .parked) :
    forceStop s id = (landLive s id).setHc id (savingFrom h) := by
  obtain hs | hs | hs := hs <;> simp [forceStop, hh, hf, hs, startSave_eq]

theorem forceStop_frozen (s : State) (id : Nat) (h : HerdCtx) (hh : (landLive s id).hc? id = some h)
    (hs : h.hstate = .frozen) : forceStop s id = landLive s id := by
  simp [forceStop, hh, hs]

/-- Whether a result of some member has to land before the next bundle issues. -/
def awaitsLate (t : State) (id : Nat) (h : HerdCtx) : Bool := h.members.any fun m => (oldestLate t id h m).isSome

/-- A forced stop of a RUNNING herd-context takes the trap of what stands at its PC, or saves it there; results that are late
land first when the check behind them traps, and a native routine may come first (R45). -/
theorem forceStop_running (s : State) (id : Nat) (h : HerdCtx) (hh : (landAll s id).hc? id = some h)
    (hf : h.stop = some .forced) (hs : h.hstate = .running) :
    forceStop s id =
      (let t := landAll s id
       if wouldTrap t id then fetchNext t id h
       else if awaitsLate t id h then
         if wouldTrap (settle t id) id then landLate t id else t.setHc id (savingFrom h)
       else if nativeNext t id h && Config.stopLate (h.seedAt 0) then fetchNext t id h
       else t.setHc id (savingFrom h)) := by
  have hl := landLive_running s id h hh hs
  unfold forceStop
  simp only [hl, hh, hf, hs, bne_self_eq_false, Bool.false_eq_true, true_or, and_self, if_true, if_false]
  rfl

/-! ### A request that no drain point has met (R313) -/

theorem preemptTimeout_forces (s : State) (id : Nat) (h : HerdCtx) (v : Nat) (hh : s.hc? id = some h)
    (hp : h.stop = some (.preempt v)) (hw : v + 65536 ≤ h.vcc ∨ h.hstate = .blocked ∨ h.hstate = .parked) :
    preemptTimeout s id = s.setHc id { h with stop := some .forced } := by
  unfold preemptTimeout
  simp only [hh, hp]
  exact if_pos hw

/-- Settles O39: the equations of `drainStop`, `forceStop` and `preemptTimeout`, one for each state of life of the
herd-context. -/
theorem stopsSaveTheHerdContext : Obligations.StopsSaveTheHerdContext := by
  intro s id h
  refine ⟨fun v hh hp hr hd => congrArg Host.Outcome.next (drainStop_saves s id h v hh hp hr hd), fun hh hf hs => ?between,
    fun hh hs => ?frozen, fun g hg hh hf hs hgf hgs => ?parked, fun hh hf hs => ?running,
    fun v hh hp hw => congrArg Host.Outcome.next (preemptTimeout_forces s id h v hh hp hw)⟩
  case between =>
    have hl : landLive s id = landAll s id := by
      apply landLive_of_live s id h hh
      obtain hs | hs := hs <;> simp [HerdCtx.stands, hs]
    have hsave := forceStop_saves s id h (hl ▸ hh) hf (by tauto)
    rw [hl] at hsave
    exact congrArg Host.Outcome.next hsave
  case frozen =>
    have hl : landLive s id = s := landLive_of_stands s id h hh (by simp [HerdCtx.stands, hs])
    obtain ⟨g, hg, hgs⟩ := hc_before_landAll s id h hh
    have hkeep := forceStop_frozen s id g (hl.symm ▸ hg) (hgs.trans hs)
    rw [hl] at hkeep
    exact congrArg Host.Outcome.next hkeep
  case parked =>
    have hl : landLive s id = s := landLive_of_stands s id h hh (by simp [HerdCtx.stands, hs])
    have hsave := forceStop_saves s id g (hl.symm ▸ hg) hgf (.inr (.inr hgs))
    rw [hl] at hsave
    exact congrArg Host.Outcome.next hsave
  case running =>
    intro t late
    have hstop : exec (.forcedStop id) s = .next _ := congrArg Host.Outcome.next (forceStop_running s id h hh hf hs)
    rw [hstop]
    have hlate : awaitsLate t id h = late := rfl
    refine ⟨fun hw hl hn => ?_, fun hw hl hw2 => ?_, fun hw hl hw2 => ?_, fun b hw hb => ?_, fun hw => ?_⟩
    · simp [t, hw, hlate, hl, hn]
    · simp [t, hw, hlate, hl, hw2]
    · simp [t, hw, hlate, hl, hw2]
    · simp [t, hw, fetchNext_of_bundle t id h b hb]
    · simp [t, hw]

end Sys2Proof.Claims
end

section
/-! Saves, restores and retirement of herd-contexts: what is written, which tiles stay claimed, and what the partition remembers
(R86..R89, R189, R228). -/

namespace Sys2Proof.Machine

/-! ### What a save and a restore leave alone -/

/-- `t` is `s` but for the contents and the poison tags of memory. -/
def MemoryOnly (s t : State) : Prop := ∃ mem tags, t = { s with mem := mem, memTag := tags }

theorem MemoryOnly.refl (s : State) : MemoryOnly s s := ⟨s.mem, s.memTag, rfl⟩

theorem MemoryOnly.trans {s t u : State} (h : MemoryOnly s t) (k : MemoryOnly t u) : MemoryOnly s u := by
  obtain ⟨_, _, rfl⟩ := h
  obtain ⟨m, g, rfl⟩ := k
  exact ⟨m, g, rfl⟩

theorem MemoryOnly.foldl {α : Type} (f : State → α → State) (hf : ∀ s a, MemoryOnly s (f s a)) (l : List α) (s : State) :
    MemoryOnly s (l.foldl f s) :=
  List.foldlRecOn l f (MemoryOnly.refl s) fun t ht a _ => ht.trans (hf t a)

theorem memoryOnly_reach (s t : State) (p : Nat) (sys : Bool) (va : Nat) (i : BitVec 2) (pa : Nat)
    (h : reach s p sys va i = .ok (t, pa)) : MemoryOnly s t := by
  unfold reach at h
  split at h
  · cases h
  · cases h
    exact ⟨_, _, rfl⟩

theorem memoryOnly_writePages (s : State) (part va n : Nat) (put : State → Nat → Nat → Nat → State)
    (hput : ∀ s a b c, MemoryOnly s (put s a b c)) : MemoryOnly s (writePages s part va n put) := by
  refine MemoryOnly.foldl _ (fun s k => ?_) _ s
  dsimp only
  split
  · next t pa h =>
    have hreach := memoryOnly_reach _ _ _ _ _ _ _ h
    split
    · exact hreach
    · exact hreach.trans (hput _ _ _ _)
  · exact MemoryOnly.refl s

theorem memoryOnly_spoilBlock (s : State) (part seed va n : Nat) : MemoryOnly s (spoilBlock s part seed va n) :=
  memoryOnly_writePages s part va n _ fun _ _ _ _ => ⟨_, _, rfl⟩

theorem memoryOnly_writeAcc (s : State) (part va a : Nat) (x : Acc) : MemoryOnly s (writeAcc s part va a x) := by
  unfold writeAcc
  exact memoryOnly_writePages s part _ _ _ fun s _ _ _ => ⟨_, s.memTag, rfl⟩

theorem memoryOnly_writeSaveArea (s : State) (h : HerdCtx) : MemoryOnly s (writeSaveArea s h) := by
  unfold writeSaveArea
  split
  · dsimp only
    split
    · exact MemoryOnly.refl s
    · exact MemoryOnly.foldl _ (fun s _ => memoryOnly_spoilBlock s _ _ _ _) _ s
  · exact MemoryOnly.refl s

/-- A save writes to memory only (R86). -/
theorem memoryOnly_writeSaved (s : State) (h : HerdCtx) : MemoryOnly s (writeSaved s h) := by
  unfold writeSaved
  split
  · dsimp only
    split
    · exact MemoryOnly.refl s
    · exact (memoryOnly_writeSaveArea s h).trans (MemoryOnly.foldl _ (fun t _ => memoryOnly_writeAcc t _ _ _ _) _ _)
  · exact MemoryOnly.refl s

/-- `t` is `s` but for its cores. -/
def CoresOnly (s t : State) : Prop := ∃ cores, t = { s with cores := cores }

theorem CoresOnly.refl (s : State) : CoresOnly s s := ⟨s.cores, rfl⟩

theorem coresOnly_setCore (s : State) (c : Nat) (k : Core) : CoresOnly s (s.setCore c k) := ⟨_, rfl⟩

theorem CoresOnly.trans {s t u : State} (h : CoresOnly s t) (k : CoresOnly t u) : CoresOnly s u := by
  obtain ⟨_, rfl⟩ := h
  obtain ⟨c, rfl⟩ := k
  exact ⟨c, rfl⟩

theorem CoresOnly.foldl {α : Type} (f : State → α → State) (hf : ∀ s a, CoresOnly s (f s a)) (l : List α) (s : State) :
    CoresOnly s (l.foldl f s) :=
  List.foldlRecOn l f (CoresOnly.refl s) fun t ht a _ => ht.trans (hf t a)

theorem coresOnly_releaseClaims (s : State) (h : HerdCtx) : CoresOnly s (releaseClaims s h) :=
  CoresOnly.foldl _ (fun s _ => coresOnly_setCore s _ _) _ s

theorem State.modPart_part (s : State) (p : Nat) (f : Part → Part) : (s.modPart p f).part? p = (s.part? p).map f := by
  unfold State.modPart
  split
  · next x hx => simp [hx]
  · next hx => simp [hx]

@[simp] theorem State.modPart_hc (s : State) (p : Nat) (f : Part → Part) (id : Nat) : (s.modPart p f).hc? id = s.hc? id := by
  simp [State.hc?]

@[simp] theorem State.modPart_core (s : State) (p : Nat) (f : Part → Part) (c : Nat) : (s.modPart p f).core c = s.core c := by
  simp [State.core]

/-! ### Claims that are released (R228) -/

theorem aget_map {α β : Type} (f : α → β) (m : AMap α) (k : Nat) : aget (m.map fun x => (x.1, f x.2)) k = (aget m k).map f := by
  induction m with
  | nil => rfl
  | cons x m ih =>
    simp only [List.map_cons, aget]
    split
    · rfl
    · exact ih

/-- An operand slot once its claim by a herd-context in context slot `slot` is released. -/
def OSlot.released (slot : Nat) (x : OSlot) : OSlot := if x.cl && x.owner == slot then { x with cl := false } else x

theorem releaseTiles_oslot (c : Core) (slot o : Nat) : (releaseTiles c slot).oslot o = (c.oslot o).released slot := by
  have hmap : aget (releaseTiles c slot).oslots o = (aget c.oslots o).map (OSlot.released slot) :=
    aget_map (OSlot.released slot) c.oslots o
  unfold Core.oslot
  rw [hmap]
  cases aget c.oslots o <;> rfl

@[simp] theorem OSlot.released_owner (slot : Nat) (x : OSlot) : (x.released slot).owner = x.owner := by
  unfold OSlot.released
  split <;> rfl

theorem OSlot.released_claimed (slot : Nat) (x : OSlot) (h : (x.released slot).cl = true) : x.cl = true ∧ x.owner ≠ slot := by
  unfold OSlot.released at h
  split at h
  · cases h
  · next hn =>
    refine ⟨h, fun ho => hn ?_⟩
    simp [h, ho]

@[simp] theorem OSlot.released_released (slot : Nat) (x : OSlot) : (x.released slot).released slot = x.released slot := by
  unfold OSlot.released
  split
  · rfl
  · rfl

/-- The claims of a herd-context are released on its members' cores and on no others. -/
theorem releaseClaims_oslot (s : State) (h : HerdCtx) (c o : Nat) :
    ((releaseClaims s h).core c).oslot o =
      if c ∈ h.members.map (·.core) then ((s.core c).oslot o).released h.slot else (s.core c).oslot o := by
  unfold releaseClaims
  induction h.members generalizing s with
  | nil => rfl
  | cons m l ih =>
    rw [List.foldl_cons, ih, List.map_cons]
    by_cases hc : c = m.core
    · subst hc
      simp [releaseTiles_oslot]
    · simp [State.setCore_core_other _ _ _ _ hc, hc]

/-! ### The end of a save (R86) -/

/-- A herd-context as its save leaves it, in the state `t` in which its streams are written. -/
def savedHc (t : State) (g : HerdCtx) : HerdCtx :=
  { g with
    saving := false, savedSlots := savedOslots t g, savedAccs := savedAccums t g,
    savedShadow := if g.frames.isEmpty then [] else g.members.zipIdx.map fun x => (x.2, takeShadow t g x.1.core),
    saveEpoch := ((t.part? g.part).map (·.epoch)).getD 0, members := g.members.map Member.atSave,
    fresh := g.fresh + g.members.length }

/-- Once the commands of a herd-context have completed, its save is written, its claims are released, and it joins the restore
list of its partition. -/
theorem saveDone_saves (s t : State) (id : Nat) (h g : HerdCtx) (hh : s.hc? id = some h) (hs : h.hstate = .saved)
    (hw : h.saving = true) (hb : drainBusy s id h = false) (ht : flushStreams s id = some t) (hg : t.hc? id = some g)
    (hr : g.noRestore = false) :
    saveDone s id = ((releaseClaims (writeSaved t g) g).setHc id (savedHc t g)).modPart g.part
      fun p => { p with restore := p.restore ++ [id] } := by
  unfold saveDone
  simp only [hh, hs, hw, hb, ht, hg, beq_self_eq_true, Bool.and_self, Bool.not_true, Bool.or_self, Bool.false_eq_true,
    if_false, Option.getD_some]
  exact if_neg (by simp [hr])

/-! ### Restores (R88) -/

/-- A herd-context as its restore in the state `s` leaves it. -/
def restoredHc (s : State) (h : HerdCtx) : HerdCtx :=
  { h with
    members := h.members.map (Claims.restoredMember (((s.part? h.part).map (·.epoch)).getD 0 != h.saveEpoch)),
    hstate := .ready, restoreWait := none, savedSlots := [], savedAccs := [], savedShadow := [], ep := h.prio s, passes := 0 }

/-- A restore changes the cores, the herd-context and the restore list of its partition, and nothing else. -/
theorem restoreCtx_restores (s : State) (id : Nat) (h : HerdCtx) (hh : s.hc? id = some h) (hc : canRestore s id h = true) :
    ∃ t, CoresOnly s t ∧ restoreCtx s id = (t.setHc id (restoredHc s h)).modPart h.part
      fun p => { p with restore := p.restore.erase id } := by
  unfold restoreCtx
  simp only [hh, hc, Bool.not_true, Bool.false_eq_true, if_false]
  generalize ht : List.foldl _ _ h.savedShadow = t
  have hcores : CoresOnly s t := by
    rw [← ht]
    refine .trans (.trans (.trans (CoresOnly.foldl _ (fun s m => ?_) _ s)
      (CoresOnly.foldl _ (fun s _ => coresOnly_setCore s _ _) _ _)) (CoresOnly.foldl _ (fun s _ => coresOnly_setCore s _ _) _ _))
      (CoresOnly.foldl _ (fun s _ => coresOnly_setCore s _ _) _ _)
    split
    · exact coresOnly_setCore s _ _
    · exact CoresOnly.refl s
  refine ⟨t, hcores, ?_⟩
  obtain ⟨c, rfl⟩ := hcores
  rfl

/-! ### Retirement (R89) -/

theorem retire_done (s t : State) (id : Nat) (h : HerdCtx) (hh : s.hc? id = some h) (hs : h.hstate = .retiring)
    (hb : drainBusy s id h = false) (ht : flushStreams s id = some t) :
    retire s id = (releaseClaims t h).modHc id fun h =>
      { h with hstate := .done, links := [], loops := [], spill := [],
               members := h.members.map fun m => { m with inflight := [] } } := by
  simp [retire, hh, hs, hb, ht]

end Sys2Proof.Machine

namespace Sys2Proof.Claims
open Sys2Proof.Machine

/-- Settles O40: the equations of `saveDone`, `restoreCtx` and `retire`; a save writes to memory only, a restore to the cores,
and `releaseClaims_oslot` says which claims are left. -/
theorem savesRestoresAndRetires : Obligations.SavesRestoresAndRetires := by
  intro s id h hh
  refine ⟨fun t g hs hw hb ht hg hr => ?save, fun hc => ?restore,
    fun t hs hb ht => congrArg Host.Outcome.next (retire_done s t id h hh hs hb ht)⟩
  case save =>
    obtain ⟨mem, tags, hmem⟩ := memoryOnly_writeSaved t g
    have hparts : (releaseClaims (writeSaved t g) g).parts = t.parts := by
      obtain ⟨c, hc⟩ := coresOnly_releaseClaims (writeSaved t g) g
      rw [hc, hmem]
    refine ⟨_, savedHc t g, congrArg Host.Outcome.next (saveDone_saves s t id h g hh hs hw hb ht hg hr), ?_, rfl, rfl, rfl, rfl,
      rfl, ?_, fun m hm o hcl => ?_⟩
    · rw [State.modPart_hc, State.setHc_hc]
    · rw [State.modPart_part, State.part?, State.setHc_parts, hparts]
      rfl
    · rw [State.modPart_core] at hcl ⊢
      have hcore : (((releaseClaims (writeSaved t g) g).setHc id (savedHc t g)).core m.core).oslot o =
          ((t.core m.core).oslot o).released g.slot := by
        change ((releaseClaims (writeSaved t g) g).core m.core).oslot o = _
        rw [releaseClaims_oslot, if_pos (List.mem_map_of_mem hm), hmem]
        rfl
      rw [hcore] at hcl ⊢
      obtain ⟨hold, hother⟩ := OSlot.released_claimed g.slot _ hcl
      exact ⟨(OSlot.released_owner ..).trans_ne hother, hold⟩
  case restore =>
    obtain ⟨t, hcores, ht⟩ := restoreCtx_restores s id h hh hc
    refine ⟨_, restoredHc s h, congrArg Host.Outcome.next ht, ?_, rfl, rfl, rfl, rfl, rfl, rfl, rfl, ?_⟩
    · rw [State.modPart_hc, State.setHc_hc]
    · obtain ⟨c, rfl⟩ := hcores
      rw [State.modPart_part]
      rfl

end Sys2Proof.Claims
end

section
/-! Where a herd-context starts, and where a trap freezes it and from where it resumes (R80, R85, R360, R362, R364, Table 4.5). -/

namespace Sys2Proof.Machine

/-! ### The trap record (Table 20.1) -/

theorem Cause.code_lt (c : Cause) : c.code < 2 ^ 8 := by cases c <;> decide

/-- The first word of a record holds the cause in its lowest byte and the slot in the four bits above. -/
theorem causeSlot_of_word (code slot hi : Nat) (hc : code < 2 ^ 8) (hs : slot < 16) :
    (BitVec.ofNat 64 (code + slot * 2 ^ 8 + hi * 2 ^ 12)).toNat % 2 ^ 8 = code ∧
      (BitVec.ofNat 64 (code + slot * 2 ^ 8 + hi * 2 ^ 12)).toNat / 2 ^ 8 % 2 ^ 4 = slot := by
  rw [BitVec.toNat_ofNat]
  omega

theorem trapWords_causeSlot (s : State) (h : HerdCtx) (t : Trap) (map : Nat) (ht : t.slot < 16) :
    ((trapWords s h t map).getD 0 0).toNat % 2 ^ 8 = t.cause.code ∧
      ((trapWords s h t map).getD 0 0).toNat / 2 ^ 8 % 2 ^ 4 = t.slot := by
  obtain ⟨hi, hw⟩ : ∃ hi, (trapWords s h t map).getD 0 0 = BitVec.ofNat 64 (t.cause.code + t.slot * 2 ^ 8 + hi * 2 ^ 12) := by
    unfold trapWords
    simp only [List.cons_append, List.getD_cons_zero]
    generalize (if t.native = true then t.rn else _) = rn
    refine ⟨t.lane % 256 + (if h.rb.isSome then 2 ^ 8 else 0) + (if t.native then 2 ^ 9 else 0) + t.code.toNat * 2 ^ 20 +
      rn % 4096 * 2 ^ 36, ?_⟩
    congr 1
    split_ifs <;> omega
  rw [hw]
  exact causeSlot_of_word _ _ _ t.cause.code_lt ht

@[simp] theorem trapWords_pc (s : State) (h : HerdCtx) (t : Trap) (map : Nat) : (trapWords s h t map).getD 1 0 = h.pc := rfl

@[simp] theorem trapWords_vcc (s : State) (h : HerdCtx) (t : Trap) (map : Nat) :
    (trapWords s h t map).getD 2 0 = BitVec.ofNat 64 h.vcc := rfl

@[simp] theorem trapWords_addr (s : State) (h : HerdCtx) (t : Trap) (map : Nat) :
    (trapWords s h t map).getD 3 0 = t.addr := rfl

/-! ### The start of a herd-context (R80, Table 4.5) -/

theorem HerdCtx.start_members (part node inst : Nat) (n : Node) (im : Image) (herd dr slot rank lead clk seed : Nat) (m : Member)
    (hm : m ∈ (HerdCtx.start part node inst n im herd dr slot rank lead clk seed).members) :
    ∃ core free, m = Member.start core free := by
  obtain ⟨i, -, hi⟩ := List.mem_map.mp hm
  exact ⟨_, _, hi.symm⟩

@[simp] theorem Member.start_sreg_tag (core seed k : Nat) : ((Member.start core seed).sreg k).tag = none := by
  have hall : ∀ r ∈ (Member.start core seed).s, r.tag = none := by simp [Member.start]
  unfold Member.sreg
  split
  · rfl
  · rw [List.getD_eq_getElem?_getD]
    cases hr : (Member.start core seed).s[k]? with
    | none => rfl
    | some r => exact hall r (List.mem_of_getElem? hr)

@[simp] theorem Member.start_vreg (core seed k : Nat) : (Member.start core seed).vreg k = freeVReg seed k := rfl

theorem Member.start_handle (core seed k : Nat) (hk : k < 16) : (Member.start core seed).h[k]? = some Handle.none := by
  simp only [Member.start, List.getElem?_replicate, hk, if_true]

theorem Member.start_strm (core seed k : Nat) :
    (Member.start core seed).strm k = ⟨none, false, 0, 0, none, [], [], [], none, []⟩ := by
  simp only [Member.strm, Member.start, List.getD_eq_getElem?_getD, List.getElem?_replicate]
  split <;> rfl

end Sys2Proof.Machine

namespace Sys2Proof.Claims
open Sys2Proof.Machine

/-! ### Taking a trap (R85, R360, R364) -/

/-- A herd-context that has taken a trap, but for its record. -/
def frozenHc (h : HerdCtx) : HerdCtx :=
  { h with members := h.members.map frozenMember, hstate := .frozen, wait := none, feTries := 0 }

theorem frozenHc_die (h : HerdCtx) : (frozenHc h).die = h.die := by
  unfold HerdCtx.die HerdCtx.leadCore frozenHc
  cases h.members <;> rfl

theorem takeTrap_eq (s : State) (id : Nat) (h : HerdCtx) (t : Trap) (map : Nat) (hh : s.hc? id = some h) :
    takeTrap s id t map = (s.setHc id { frozenHc h with trap := some ⟨id, t, trapWords s (frozenHc h) t map⟩ }).modDie h.die
      fun d => { d with trapQ := d.trapQ ++ [⟨id, t, trapWords s (frozenHc h) t map⟩] } := by
  rw [← frozenHc_die h]
  unfold takeTrap
  rw [hh]
  rfl

/-- Settles O54: the record is the one that `trapWords` builds of the frozen herd-context, and `takeTrap` and `resumeHc` do
what their equations say. -/
theorem trapsFreezeAndResume : Obligations.TrapsFreezeAndResume := by
  intro s id h t map hh
  refine ⟨⟨⟨id, t, trapWords s (frozenHc h) t map⟩, rfl, rfl, trapWords_causeSlot s _ t map, trapWords_pc .., trapWords_vcc ..,
    trapWords_addr .., takeTrap_eq s id h t map hh⟩, State.modHc_of s id _ h hh⟩

/-! ### The start -/

/-- Settles O41: every member is a `Member.start`, and the rest stands in `HerdCtx.start`. -/
theorem herdContextsStartAsTheTableSays : Obligations.HerdContextsStartAsTheTableSays := by
  intro part node inst n im herd dr slot rank lead clk seed h
  refine ⟨rfl, rfl, rfl, rfl, rfl, rfl, rfl, rfl, rfl, rfl, rfl, by simp [h, HerdCtx.start], fun m hm => ?_⟩
  obtain ⟨core, free, rfl⟩ := HerdCtx.start_members _ _ _ _ _ _ _ _ _ _ _ _ m hm
  refine ⟨rfl, rfl, rfl, rfl, rfl, Member.start_sreg_tag core free, fun k => ?_, fun k hk => ?_⟩
  · rw [Member.start_vreg]
    rfl
  · rw [Member.start_strm]
    exact ⟨Member.start_handle core free k hk, rfl, rfl⟩

end Sys2Proof.Claims
end

section
/-! How the work of a node ends: it commits, is queued again or halts, and what happens when the staging area is exhausted (R89, R291,
R292, R310, R423, R424). -/

namespace Sys2Proof.Claims
open Sys2Proof.Machine

/-! ### Into COMMIT (R89) -/

theorem commitNode_copy (s : State) (part node : Nat) (n : Node) (i : Inst) (hn : s.node? part node = some n)
    (hi : n.inst = some i) (hr : n.state = .running) (hk : n.kind = 2) (hd : copyNodeDone s part node = true) :
    commitNode s part node = completes s part node := by
  simp [commitNode, hn, hi, hr, hk, hd, completes]

theorem commitNode_enters (s : State) (part node : Nat) (n : Node) (i : Inst) (hn : s.node? part node = some n)
    (hi : n.inst = some i) (hr : n.state = .running) (hk : n.kind ≠ 2) (hd : allDone s i) :
    commitNode s part node = setNState s part node .commit := by
  have hall : (i.hcs.all fun id => ((s.hc? id).map (·.hstate == .done)).getD true) = true := by
    rw [List.all_eq_true]
    intro id hid
    cases hh : s.hc? id with
    | none => rfl
    | some h => simp [hd id hid h hh]
  simp only [commitNode, hn, hi, hr, hk, if_false, hall, if_true]

theorem commitNode_settles (s : State) (part node : Nat) (n : Node) (i : Inst) (hn : s.node? part node = some n)
    (hi : n.inst = some i) (hc : n.state = .commit) : commitNode s part node = settleInst s part node n i := by
  simp only [commitNode, hn, hi, hc]

/-! ### In COMMIT (R291, R310, R424) -/

theorem settleInst_commits (s : State) (part node : Nat) (n : Node) (i : Inst) (hz : instCir s i = 0) :
    settleInst s part node n i = finishInst (removeHcs
      ((freeRecords (performAll s part i) part i).modNode part node
        fun n => { n with inst := some { i with staged := [], stagedTag := [], records := [] } }) i.hcs) part node := by
  simp only [settleInst, hz, if_true]

theorem settleInst_fails (s : State) (part node : Nat) (n : Node) (i : Inst) (hz : instCir s i ≠ 0) :
    settleInst s part node n i = failCommit s part node n i (instCir s i) := by
  simp only [settleInst, hz, if_false]

theorem failCommit_irrevocable (s : State) (part node : Nat) (n : Node) (i : Inst) (cir : Word) (hi : i.irrev = true) :
    failCommit s part node n i cir = haltNode s part node := by
  simp [failCommit, hi]

theorem failCommit_stored (s : State) (part node : Nat) (n : Node) (i : Inst) (cir : Word) (r : Rollback) (t : BitVec 12)
    (hr : n.rollback = some r) (hb : blamed cir = some t) (ht : r.tag = some t) :
    failCommit s part node n i cir = haltNode s part node := by
  unfold blamed at hb
  simp only [failCommit, hr, hb, ht, beq_self_eq_true, Bool.or_true, if_true]

/-- A first roll-back takes nothing out of use. -/
theorem failCommit_first (s : State) (part node : Nat) (n : Node) (i : Inst) (cir : Word) (hi : i.irrev = false)
    (hr : n.rollback = none) :
    failCommit s part node n i cir = requeueInst
      (s.modNode part node fun n => { n with rollback := some ⟨blamed cir, blamedPlace s (blamed cir)⟩ }) part node id := by
  simp only [failCommit, hi, hr, Bool.or_self, Bool.false_eq_true, if_false]
  rfl

/-- A second roll-back in a row that blames the same unit takes it out of use. -/
theorem failCommit_lasting (s : State) (part node : Nat) (n : Node) (i : Inst) (cir : Word) (r : Rollback) (t : BitVec 12)
    (x : BitVec 4 × Nat × BitVec 10 × Word) (hi : i.irrev = false) (hr : n.rollback = some r) (hb : blamed cir = some t)
    (ht : r.tag ≠ some t) (hp : recordPlace s t = some x) (hx : r.place = some x) :
    failCommit s part node n i cir = requeueInst
      (s.modNode part node fun n => { n with rollback := some ⟨blamed cir, blamedPlace s (blamed cir)⟩ }) part node
      fun u => takeOut (markLasting u t) x (((recordOf s t).map fun x => x.2.2).getD 0) := by
  have htag : (r.tag == some t) = false := by simpa using ht
  have hplace : blamedPlace s (some t) = some x := hp
  rw [hb, hplace]
  unfold blamed at hb
  simp only [failCommit, hi, hr, hb, Option.bind_some, hp, hx, htag, Bool.or_self, Bool.false_eq_true, if_false,
    beq_self_eq_true]

/-! ### An exhausted staging area (R292) -/

theorem stagingOut_requeues (s : State) (part y : Nat) (p : Part) (r : Inst) (hp : s.part? part = some p)
    (hw : ∀ x ∈ recordHolders p, x.2.waitStage = true) (hy : (recordHolders p).find? (fun x => !x.2.irrev) = some (y, r)) :
    stagingOut s part = requeueInst
      (if ((s.node? part y).map (·.requeues)).getD 0 < 3 then raiseEvent s part else s) part y id := by
  have hall : (recordHolders p).all (·.2.waitStage) = true := List.all_eq_true.mpr hw
  unfold stagingOut
  rw [hp]
  dsimp only
  split
  · next hnil => simp [hnil] at hy
  · next k i l hl =>
    rw [← hl, if_pos hall, hy]
    rfl

theorem stagingOut_halts (s : State) (part k : Nat) (p : Part) (j : Inst) (l : List (Nat × Inst)) (hp : s.part? part = some p)
    (hl : recordHolders p = (k, j) :: l) (hw : ∀ x ∈ (k, j) :: l, x.2.waitStage = true)
    (hi : ∀ x ∈ (k, j) :: l, x.2.irrev = true) : stagingOut s part = haltNode s part k := by
  have hall : ((k, j) :: l).all (·.2.waitStage) = true := List.all_eq_true.mpr hw
  have hnone : ((k, j) :: l).find? (fun x => !x.2.irrev) = none := by simpa using hi
  simp only [stagingOut, hp, hl, hall, if_true, hnone]

/-- Settles O45: the branches of `commitNode`, of `failCommit` behind it, and of `stagingOut`, each by its own equation. -/
theorem instancesCommitOrFail : Obligations.InstancesCommitOrFail := by
  intro s part node n i hn hi
  refine ⟨fun hr hk hd => congrArg Host.Outcome.next (commitNode_copy s part node n i hn hi hr hk hd),
    fun hr hk hd => congrArg Host.Outcome.next (commitNode_enters s part node n i hn hi hr hk hd), fun hc => ?inCommit,
    fun p k j l hp hl hw => ⟨fun y r hy => congrArg Host.Outcome.next (stagingOut_requeues s part y p r hp (hl ▸ hw) (hl ▸ hy)),
      fun hirr => congrArg Host.Outcome.next (stagingOut_halts s part k p j l hp hl hw hirr)⟩⟩
  intro tag
  have hcommit := commitNode_settles s part node n i hn hi hc
  have hfails (hz : instCir s i ≠ 0) : commitNode s part node = failCommit s part node n i (instCir s i) :=
    hcommit.trans (settleInst_fails s part node n i hz)
  refine ⟨fun hz => congrArg Host.Outcome.next (hcommit.trans (settleInst_commits s part node n i hz)), fun hz hirr => ?_,
    fun r t hz hr ht hs => ?_, fun hz hirr hr => ?_, fun r t die unit cls wh hz hirr hr ht hs hp hx => ?_⟩ <;>
    refine congrArg Host.Outcome.next ((hfails hz).trans ?_)
  · exact failCommit_irrevocable s part node n i _ hirr
  · exact failCommit_stored s part node n i _ r t hr ht hs
  · exact failCommit_first s part node n i _ hirr hr
  · exact failCommit_lasting s part node n i _ r t _ hirr hr ht hs hp hx

end Sys2Proof.Claims
end

section
/-! Accesses to the scratchpad and to the lanes' own slices (R101, R197..R199, R425). -/

namespace Sys2Proof.Machine
open Sys2Proof.Claims

/-! ### What the repair of a pool row leaves in flight (R425, R426) -/

theorem aget_map_keyed {α β : Type} (F : Nat × α → Nat × β) (hF : ∀ x, (F x).1 = x.1) (m : AMap α) (k : Nat) :
    aget (m.map F) k = (aget m k).map fun a => (F (k, a)).2 := by
  induction m with
  | nil => rfl
  | cons x m ih =>
    obtain ⟨j, a⟩ := x
    have hj : (F (j, a)).1 = j := hF (j, a)
    simp only [List.map_cons, aget, hj]
    split
    · next h => subst h; rfl
    · exact ih

/-- An update of every member of every herd-context that leaves its results in flight adds none. -/
theorem Grows.of_members {s t : State} (id k : Nat) (F : Nat × HerdCtx → Nat × HerdCtx) (ht : t.hctxs = s.hctxs.map F)
    (hF : ∀ x, (F x).1 = x.1)
    (hm : ∀ x, ∃ f, (F x).2.members = x.2.members.map f ∧ ∀ m, (f m).inflight = m.inflight) : Grows id k 0 s t := by
  intro g hg
  obtain ⟨f, hmap, hf⟩ := hm (id, g)
  refine ⟨(F (id, g)).2, ?_, by simp [hmap], fun j m hj => ⟨f m, [], by simp [hmap, hj], by simp [hf], fun _ => rfl, Nat.zero_le _⟩⟩
  unfold State.hc? at hg ⊢
  rw [ht, aget_map_keyed F hF, hg]
  rfl

theorem spoilLane_grows (id k : Nat) (s : State) (core w seed : Nat) : Grows id k 0 s (spoilLane s core w seed) :=
  Grows.of_members id k _ rfl (fun _ => rfl) fun _ => ⟨_, rfl, fun m => by dsimp only; split <;> rfl⟩

theorem wire_grows (id k : Nat) (s : State) (core : Nat) : Grows id k 0 s (wire s core) :=
  Grows.of_members id k _ rfl (fun _ => rfl) fun _ => ⟨_, rfl, fun m => by dsimp only; split <;> rfl⟩

theorem repairStore_grows (id k : Nat) (s : State) (core e : Nat) (v : BitVec 64) :
    Grows id k 0 s (repairStore s core e v) := by
  have hspoil (b : Bool) (t : State) (w seed : Nat) : Grows id k 0 t (if b then spoilLane t core w seed else t) := by
    cases b
    · exact Grows.of_hctxs rfl
    · exact spoilLane_grows id k t core w seed
  have hwire (t : State) : Grows id k 0 t (wireAll t [core]) := by
    simp only [wireAll, List.foldl_cons, List.foldl_nil]
    split
    · exact Grows.of_hctxs rfl
    · exact wire_grows id k t core
  have hset (x : Core) : Grows id k 0 s (s.setCore core x) := Grows.of_hctxs rfl
  exact (((hset _).trans (hspoil _ _ _ _)).trans (hspoil _ _ _ _)).trans (hwire _)

/-! ### Scalar forms (R197) -/

/-- A store that takes its word is the model's store, and puts nothing in flight. -/
theorem spStoreOf_some {f : SpsForm} {form : SpForm} {n op : Nat} {c : Ctx} {s t : State}
    (h : spStoreOf f form n op c s = some t) : spStore f form n op c s = .ok t ∧ Grows c.id c.mi 0 s t := by
  unfold spStoreOf at h
  unfold spStore
  split at h
  · next e hplace =>
    cases h
    have hplace : spAccess s c form (c.spAddr f.sa f.imm.toInt) n n op 0 true = .ok (.repair e) := hplace
    exact ⟨by simp only [hplace], repairStore_grows _ _ _ _ _ _⟩
  · next p hp hplace =>
    have hplace : spAccess s c form (c.spAddr f.sa f.imm.toInt) n n op 0 true = .ok p := hplace
    dsimp only at h
    cases hw : placeWrite s c.m.core c.h.slot p n (c.s 13 f.sd.toNat).val.toNat (c.s 13 f.sd.toNat).tag with
    | error e => rw [hw] at h; cases h
    | ok u =>
      rw [hw] at h
      cases h
      refine ⟨?_, Grows.of_hctxs (quiet_placeWrite _ _ _ _ _ _ _ _ hw).1⟩
      simp only [hplace, hw]
  · cases h

/-! ### Lanes that reach their own slices (R101, R199) -/

/-- No lane traps when every active lane's row lies in its slice. -/
theorem laneTrap_none {f : GatherForm} {c : Ctx} {s : State} (h : rowsPass f c s) (op : Nat) :
    laneTrap s c f (c.k 4 f.k.toNat) op = none := by
  unfold laneTrap
  rw [List.findSome?_eq_none_iff]
  intro i hi
  refine if_neg fun hbad => ?_
  obtain ⟨hact, hrow⟩ : (c.k 4 f.k.toNat).getLsbD i = true ∧ (s.core c.m.core).lpr ≤ laneRow c f i := by simpa using hbad
  exact absurd (h i (List.mem_range.mp hi) hact) (Nat.not_lt.mpr hrow)

end Sys2Proof.Machine

namespace Sys2Proof.Claims
open Sys2Proof.Machine

theorem spLoads_of (i : Instr) (f : SpsForm) (form : SpForm) (n op : Nat) (hk : i.kind = .memory)
    (hfx : slotFx i = spLoad f form n op) : SpLoads i f form n op := by
  unfold SpLoads
  extract_lets at'
  refine does_of i (.inr (.inr hk)) (exec_solo i (.inr (.inr hk))) _ _ (fun c s hpre => ?resolves) fun c s => ?grows
  case resolves =>
    obtain ⟨p, hp⟩ := hpre
    have hplace : spAccess s c form (c.spAddr f.sa f.imm.toInt) n n op 0 false = .ok p := hp
    simp only [hfx, spLoad, hplace, hp]
    rfl
  case grows =>
    split
    · exact (Grows.pending c s _ _ _ _).mono (by decide)
    · exact (Grows.of_hctxs rfl).mono (by decide)

theorem spStores_of (i : Instr) (f : SpsForm) (form : SpForm) (n op : Nat) (hk : i.kind = .memory)
    (hfx : slotFx i = spStore f form n op) : SpStores i f form n op := by
  refine does_of i (.inr (.inr hk)) (exec_solo i (.inr (.inr hk))) _ _ (fun c s hpre => ?takes) fun c s => ?grows
  case takes =>
    obtain ⟨t, ht⟩ := Option.isSome_iff_exists.mp hpre
    rw [hfx, ht]
    exact (spStoreOf_some ht).1
  case grows =>
    cases ht : spStoreOf f form n op c s with
    | none => exact (Grows.of_hctxs rfl).mono (by decide)
    | some t => exact (spStoreOf_some ht).2.mono (by decide)

theorem scratchpadScalarAccesses : ScratchpadScalarAccesses := fun f =>
  ⟨spLoads_of _ f .scalar 4 0x20 rfl rfl, spLoads_of _ f .scalarD 8 0x21 rfl rfl,
    spStores_of _ f .scalar 4 0x22 rfl rfl, spStores_of _ f .scalarD 8 0x23 rfl rfl⟩

theorem lanePrivateAccesses : LanePrivateAccesses := by
  intro f
  refine ⟨does_of _ (.inr (.inr rfl)) (exec_solo _ (.inr (.inr rfl))) _ _ (fun c s hrows => ?load) fun c s => ?loadGrows,
    does_of _ (.inr (.inr rfl)) (exec_solo _ (.inr (.inr rfl))) _ _ (fun c s hrows => ?store) fun c s => ?storeGrows⟩
  case load =>
    show fxLpld f c s = _
    simp only [fxLpld, laneTrap_none hrows]
    rfl
  case loadGrows => exact (Grows.pending c s _ _ _ _).mono (by decide)
  case store =>
    show fxLpst f c s = _
    simp only [fxLpst, laneTrap_none hrows]
    rfl
  case storeGrows => exact (Grows.of_hctxs rfl).mono (by decide)

theorem scratchpadVectorAccesses : ScratchpadVectorAccesses := by
  have runs (i : Instr) (fx : Ctx → State → Except Stop State) (hk : i.kind = .memory) (hfx : slotFx i = fx) : Runs i fx :=
    runs_of i (.inr (.inr hk)) (exec_solo i (.inr (.inr hk))) fx hfx
  exact ⟨fun _ => ⟨runs _ _ rfl rfl, runs _ _ rfl rfl⟩, fun _ => ⟨runs _ _ rfl rfl, runs _ _ rfl rfl⟩⟩

/-- Settles O19: a load whose access resolves puts its word in flight (`spLoads_of`), a store that takes its word writes its place
(`spStores_of`), lanes whose rows lie in the slice do not trap (`laneTrap_none`), and a vector form is its own effect. -/
theorem scratchpadAndLanePrivateAccesses : Obligations.ScratchpadAndLanePrivateAccesses :=
  ⟨scratchpadScalarAccesses, lanePrivateAccesses, scratchpadVectorAccesses⟩

end Sys2Proof.Claims
end

section
/-! What the partition manager, other packages and the boot do (R98, R271, R341..R343, R347, R349, R350, R420). -/

namespace Sys2Proof.Machine
open Sys2Proof.Claims

/-! ### What clearing and removing leave alone -/

theorem CoresOnly.mem {s t : State} (h : CoresOnly s t) : t.mem = s.mem := by
  obtain ⟨_, rfl⟩ := h
  rfl

@[simp] theorem clearClusters_mem (s : State) (g : BitVec 48) : (clearClusters s g).mem = s.mem := by
  refine (CoresOnly.foldl _ (fun s core => ?_) _ s).mem
  split
  · exact coresOnly_setCore s _ _
  · exact CoresOnly.refl s

@[simp] theorem removeHcs_mem (s : State) (ids : List Nat) : (removeHcs s ids).mem = s.mem := by
  refine (CoresOnly.foldl _ (fun s id => ?_) ids s).mem
  split
  · split
    · exact CoresOnly.refl s
    · exact coresOnly_releaseClaims s _
  · exact CoresOnly.refl s

/-! ### Requests of the partition manager (R98, R271, R341, R343) -/

/-- A record without clusters is none that a partition can have. -/
theorem cfgOk_noClusters (s : State) (part : Nat) (c : PartCfg) (h : c.clusters = 0) : cfgOk s part c = false := by
  simp [cfgOk, h]

theorem createPart_sound (s : State) (part : Nat) (c : PartCfg) (hp : part < 48) (hn : s.part? part = none)
    (hc : cfgOk s part c = true) :
    createPart s part c = measurePart ((clearClusters s c.clusters).setPart part (Part.create c)) c := by
  simp [createPart, hp, hn, hc]

theorem createPart_unsound (s : State) (part : Nat) (c : PartCfg) (hc : cfgOk s part c = false) : createPart s part c = s := by
  simp [createPart, hc]

theorem changePart_sound (s : State) (part : Nat) (p : Part) (c : PartCfg) (hp : s.part? part = some p)
    (hc : cfgOk s part c = true) (hh : holdsOn s part (p.cfg.clusters &&& ~~~c.clusters) = false) :
    changePart s part c = measurePart ((clearClusters s
      ((p.cfg.clusters &&& ~~~c.clusters) ||| (c.clusters &&& ~~~p.cfg.clusters))).modPart part fun p => { p with cfg := c }) c := by
  simp [changePart, hp, hc, hh]

theorem changePart_unsound (s : State) (part : Nat) (c : PartCfg) (hc : cfgOk s part c = false) : changePart s part c = s := by
  unfold changePart
  split <;> simp [hc]

theorem destroyPart_quiet (s : State) (part : Nat) (p : Part) (hp : s.part? part = some p)
    (hh : holdsOn s part p.cfg.clusters = false) (hq : engineQuiet s part = true) :
    (destroyPart s part).parts = adel (clearClusters (removeHcs s
      ((s.hctxs.filter fun x => x.2.part == part).map (·.1))) p.cfg.clusters).parts part ∧ (destroyPart s part).mem = s.mem := by
  simp [destroyPart, hp, hh, hq]

theorem combineSizes_free (s : State) (die : Nat) (d : Die) (nt na ns : Nat) (hd : s.dies[die]? = some d) (ht : nt ≤ 8192)
    (hs : ns ≤ 8192) (hb : combineBytes nt na ns ≤ 64 * 2 ^ 20) (hf : d.comb.tokens = []) (h0 : quotaUsed s 48 die 0 ≤ nt)
    (h1 : quotaUsed s 48 die 1 ≤ na) (h2 : quotaUsed s 48 die 2 ≤ ns) :
    combineSizes s die nt na ns = s.modDie die fun x => { x with comb := { d.comb with nt := nt, na := na, ns := ns } } := by
  have hheld : CombUnit.held { d.comb with nt := nt, na := na, ns := ns } ≤ 0x4000000 := hb
  simp only [combineSizes, hd]
  exact if_pos ⟨ht, hs, hheld, by simp [hf], by simp [h0, h1, h2]⟩

theorem combineSizes_registered (s : State) (die : Nat) (d : Die) (nt na ns : Nat) (hd : s.dies[die]? = some d)
    (hf : d.comb.tokens ≠ []) : combineSizes s die nt na ns = s := by
  simp [combineSizes, hd, hf]

theorem setPackage_free (s : State) (k : BitVec 10) (hp : s.parts = []) (hr : s.routes = []) :
    (setPackage s k).pkg = k ∧ (setPackage s k).parts = [] ∧ (setPackage s k).routes = [] ∧
      (setPackage s k).cores = s.cores ∧ (setPackage s k).dies = s.dies := by
  simp [setPackage, hp, hr]

theorem setPackage_used (s : State) (k : BitVec 10) (h : s.parts ≠ [] ∨ s.routes ≠ []) : setPackage s k = s := by
  refine if_neg ?_
  simpa [or_iff_not_imp_left] using h

theorem managerRequest_unbooted (s : State) (r : ManagerReq) (h : s.booted = false) : managerRequest s r = s := by
  simp [managerRequest, h]

/-! Once the device has booted, each request has its own meaning. -/

section
variable {s : State} (hb : s.booted = true)
include hb

theorem managerRequest_create (part : Nat) (c : PartCfg) : managerRequest s (.create part c) = createPart s part c := by
  simp [managerRequest, hb]

theorem managerRequest_change (part : Nat) (c : PartCfg) : managerRequest s (.change part c) = changePart s part c := by
  simp [managerRequest, hb]

theorem managerRequest_destroy (part : Nat) : managerRequest s (.destroy part) = destroyPart s part := by
  simp [managerRequest, hb]

theorem managerRequest_setS1Root (part : Nat) (root : Word) :
    managerRequest s (.setS1Root part root) = s.modPart part fun p => { p with s1root := root } := by
  simp [managerRequest, hb]

theorem managerRequest_combine (die nt na ns : Nat) : managerRequest s (.combine die nt na ns) = combineSizes s die nt na ns := by
  simp [managerRequest, hb]

theorem managerRequest_packageId (k : BitVec 10) : managerRequest s (.packageId k) = setPackage s k := by
  simp [managerRequest, hb]

theorem managerRequest_clearOffline (core : Nat) :
    managerRequest s (.clearOffline core) = s.setCore core { s.core core with offline := false } := by
  simp [managerRequest, hb]

theorem managerRequest_unprotect (die : Nat) (on : Bool) :
    managerRequest s (.unprotect die on) = s.modDie die fun d => { d with unprotected := on } := by
  simp [managerRequest, hb]

end

end Sys2Proof.Machine

namespace Sys2Proof.Claims
open Sys2Proof.Machine

theorem managerRequestsAreServed : ManagerRequestsAreServed := by
  intro s
  refine ⟨fun hb r => congrArg Host.Outcome.next (managerRequest_unbooted s r hb), fun hb =>
    ⟨fun part c hp hn hc => ?create, fun part c hc => ?noClusters, fun part p c hp hc hh => ?change,
    fun part p hp hh hq => ⟨_, congrArg Host.Outcome.next (managerRequest_destroy hb part), destroyPart_quiet s part p hp hh hq⟩,
    fun part root => ?setRoot, fun die d nt na ns hd ht hs hbytes hf h0 h1 h2 => ?combine,
    fun die d nt na ns hd hf => ?combineHeld,
    fun k hp hr => ⟨_, congrArg Host.Outcome.next (managerRequest_packageId hb k), setPackage_free s k hp hr⟩,
    fun k h => ?packageHeld, fun core => ?clearOffline, fun die on => ?unprotect⟩⟩
  case noClusters =>
    have hbad := cfgOk_noClusters s part c hc
    exact ⟨congrArg Host.Outcome.next ((managerRequest_create hb part c).trans (createPart_unsound s part c hbad)),
      congrArg Host.Outcome.next ((managerRequest_change hb part c).trans (changePart_unsound s part c hbad))⟩
  all_goals refine congrArg Host.Outcome.next ?_
  case create => exact (managerRequest_create hb part c).trans (createPart_sound s part c hp hn hc)
  case change => exact (managerRequest_change hb part c).trans (changePart_sound s part p c hp hc hh)
  case setRoot => exact managerRequest_setS1Root hb part root
  case combine =>
    exact (managerRequest_combine hb die nt na ns).trans (combineSizes_free s die d nt na ns hd ht hs hbytes hf h0 h1 h2)
  case combineHeld => exact (managerRequest_combine hb die nt na ns).trans (combineSizes_registered s die d nt na ns hd hf)
  case packageHeld => exact (managerRequest_packageId hb k).trans (setPackage_used s k h)
  case clearOffline => exact managerRequest_clearOffline hb core
  case unprotect => exact managerRequest_unprotect hb die on

end Sys2Proof.Claims

namespace Sys2Proof.Machine
open Sys2Proof.Claims

/-! ### Requests of other packages (R341, R342, R420) -/

theorem smin64_eq (a b : Word) : smin64 a b = BitVec.ofInt 64 (min a.toInt b.toInt) := by
  simp only [smin64, BitVec.slt_iff_toInt_lt]
  split
  · rw [min_eq_left (by omega), BitVec.ofInt_toInt]
  · rw [min_eq_right (by omega), BitVec.ofInt_toInt]

theorem smax64_eq (a b : Word) : smax64 a b = BitVec.ofInt 64 (max a.toInt b.toInt) := by
  simp only [smax64, BitVec.slt_iff_toInt_lt]
  split
  · rw [max_eq_right (by omega), BitVec.ofInt_toInt]
  · rw [max_eq_left (by omega), BitVec.ofInt_toInt]

theorem umin64_eq (a b : Word) : umin64 a b = BitVec.ofNat 64 (min a.toNat b.toNat) := by
  simp only [umin64, BitVec.ult_iff_toNat_lt]
  split
  · rw [min_eq_left (by omega), BitVec.ofNat_toNat, BitVec.setWidth_eq]
  · rw [min_eq_right (by omega), BitVec.ofNat_toNat, BitVec.setWidth_eq]

theorem umax64_eq (a b : Word) : umax64 a b = BitVec.ofNat 64 (max a.toNat b.toNat) := by
  simp only [umax64, BitVec.ult_iff_toNat_lt]
  split
  · rw [max_eq_right (by omega), BitVec.ofNat_toNat, BitVec.setWidth_eq]
  · rw [max_eq_left (by omega), BitVec.ofNat_toNat, BitVec.setWidth_eq]

theorem add64_eq (a b : Word) : a + b = BitVec.ofNat 64 (a.toNat + b.toNat) := BitVec.eq_of_toNat_eq (by simp)

/-- The new word of an atomic is the one that Table 9.7 gives its operation. -/
theorem atomicNew_eq (op : BitVec 6) (o v k : Word) : atomicNew op o v k = atomicGives op.toNat o v k := by
  unfold atomicNew
  split
  case h_11 => simp_all [atomicGives]
  all_goals
    next h => simp [atomicGives, h, add64_eq, smin64_eq, smax64_eq, umin64_eq, umax64_eq]

/-- The waiting full/empty operations of another package, by their operation codes (Table 9.6). -/
def WaitingOp (op : BitVec 6) (kind : FeKind) : Prop :=
  op = 0x10 ∧ kind = .wait ∨ op = 0x11 ∧ kind = .take ∨ op = 0x12 ∧ kind = .fill

section
variable {s : State} {src : BitVec 10} {pa : Nat} {op : BitVec 6} {kind : FeKind} {v : Word} {poison : Bool}

/-- One attempt is made at the word's home slice: it is answered with the word that it gives, or stays with its package. -/
theorem fabricFe_attempts (hop : WaitingOp op kind) :
    fabricFe s src pa op v poison =
      match feAttempt (sentData s src pa poison).1 (Who.agent 0) kind (.mem (pa / 8 * 8)) ⟨v, (sentData s src pa poison).2⟩
        op.toNat false with
      | some (t, y) => sends t (.fabricReply src (bytesOf 8 y.val.toNat) y.tag.isSome)
      | none => s := by
  obtain ⟨rfl, rfl⟩ | ⟨rfl, rfl⟩ | ⟨rfl, rfl⟩ := hop <;> rfl

theorem fabricFe_set (hs : unsent s (Who.agent 0) (.mem (pa / 8 * 8)) = false) :
    fabricFe s src pa 0x13 v poison = setFull s (pa / 8 * 8) (v.getLsbD 0) 0x13 :=
  if_neg (Bool.eq_false_iff.mp hs)

theorem fabricFe_get (hs : unsent s (Who.agent 0) (.mem (pa / 8 * 8)) = false) :
    fabricFe s src pa 0x14 v poison =
      sends s (.fabricReply src (bytesOf 8 (if isFull s (pa / 8 * 8) = true then 1 else 0)) false) :=
  if_neg (Bool.eq_false_iff.mp hs)

end

/-! A request is served when the device has booted and the bytes that it touches are this package's. -/

theorem loadRoutes_unbooted (s : State) (l : List (Nat × BitVec 32)) (h : s.booted = false) : loadRoutes s l = s := by
  simp [loadRoutes, h]

theorem loadRoutes_booted (s : State) (l : List (Nat × BitVec 32)) (h : s.booted = true) :
    loadRoutes s l = { s with routes := l.foldl (fun r x =>
      if x.1 < 8192 then aset r x.1 (x.2 &&& ~~~0x40000000) else r) s.routes } :=
  if_neg (by simp [h])

theorem fabricServe_unbooted (s : State) (src : BitVec 10) (pa : Nat) (op : FabricOp) (h : s.booted = false) :
    fabricServe s src pa op = s := by
  simp [fabricServe, h]

theorem fabricServe_foreign (s : State) (src : BitVec 10) (pa : Nat) (op : FabricOp) (h : isLocal s pa = false) :
    fabricServe s src pa op = s := by
  simp [fabricServe, h]

section
variable {s : State} {pa : Nat} (hb : s.booted = true) (hl : isLocal s pa = true)
include hb hl

theorem fabricRequest_servable (op : FabricOp) (ht : rangeTier s pa (FabricOp.size op) ≠ none) :
    ¬(!s.booted || !isLocal s pa || (rangeTier s pa (FabricOp.size op)).isNone) = true := by
  simp [hb, hl, ht]

variable (src : BitVec 10)

theorem fabricServe_load (n : Nat) (ht : rangeTier s pa n ≠ none) :
    fabricServe s src pa (.load n) = sends (arrive s (Who.agent 0) pa n)
      (.fabricReply src (seenBytes s (Who.agent 0) pa n) (rangeTag s (Who.agent 0) pa n).isSome) :=
  if_neg (fabricRequest_servable hb hl (.load n) ht)

theorem fabricServe_store (d : List Byte) (poison : Bool) (ht : rangeTier s pa d.length ≠ none) :
    fabricServe s src pa (.store d poison) =
      writeNow (sentData s src pa poison).1 (Who.agent 0) pa d (sentData s src pa poison).2 :=
  if_neg (fabricRequest_servable hb hl (.store d poison) ht)

variable (ht : rangeTier s pa 8 ≠ none)
include ht

theorem fabricServe_cadd (v : BitVec 32) (poison : Bool) :
    fabricServe s src pa (.cadd v poison) =
      counterAdd (sentData s src pa poison).1 (Who.agent 0) (pa / 8 * 8) v (sentData s src pa poison).2 :=
  if_neg (fabricRequest_servable hb hl (.cadd v poison) ht)

theorem fabricServe_atomic (op : BitVec 6) (v k : Word) (poison : Bool) :
    let old := locWord s (Who.agent 0) (.mem (pa / 8 * 8))
    let x := sentData (arrive s (Who.agent 0) (pa / 8 * 8) 8) src pa poison
    fabricServe s src pa (.atomic op v k poison) = sends
      (match atomicGives op.toNat old.val v k with
        | some n => writeNow x.1 (Who.agent 0) (pa / 8 * 8) (bytesOf 8 n.toNat) (mergeTag old.tag x.2)
        | none => x.1)
      (.fabricReply src (bytesOf 8 old.val.toNat) old.tag.isSome) := by
  intro old x
  rw [← atomicNew_eq]
  exact if_neg (fabricRequest_servable hb hl (.atomic op v k poison) ht)

theorem fabricServe_fe (op : BitVec 6) (v : Word) (poison : Bool) :
    fabricServe s src pa (.fe op v poison) = fabricFe s src pa op v poison :=
  if_neg (fabricRequest_servable hb hl (.fe op v poison) ht)

variable (hs : unsent s (Who.agent 0) (.mem (pa / 8 * 8)) = false)
include hs

theorem fabricServe_cwait (target : Word) :
    fabricServe s src pa (.cwait target) =
      if target.ule (mem64 s (pa / 8 * 8)) then sends s (.fabricReply src [] false) else s :=
  (if_neg (fabricRequest_servable hb hl (.cwait target) ht)).trans (if_neg (Bool.eq_false_iff.mp hs))

end
end Sys2Proof.Machine

namespace Sys2Proof.Claims
open Sys2Proof.Machine

theorem fabricRequestsAreServedAtHome : FabricRequestsAreServedAtHome := by
  intro s
  refine ⟨fun hb => ⟨fun l => congrArg Host.Outcome.next (loadRoutes_unbooted s l hb),
      fun src pa op => congrArg Host.Outcome.next (fabricServe_unbooted s src pa op hb)⟩, fun hb =>
    ⟨fun l => congrArg Host.Outcome.next (loadRoutes_booted s l hb),
      fun src pa op hl => congrArg Host.Outcome.next (fabricServe_foreign s src pa op hl), fun src pa hl => ?_⟩⟩
  intro who w
  refine ⟨fun n ht => congrArg Host.Outcome.next (fabricServe_load hb hl src n ht),
    fun d poison ht => congrArg Host.Outcome.next (fabricServe_store hb hl src d poison ht), fun ht =>
    ⟨fun v poison => congrArg Host.Outcome.next (fabricServe_cadd hb hl src ht v poison),
      fun op v k poison => congrArg Host.Outcome.next (fabricServe_atomic hb hl src ht op v k poison),
      fun op v poison kind hop => ?waiting, fun hs => ⟨fun v poison => ?set, fun v poison => ?get, fun target h => ?reached,
      fun target h => ?below⟩⟩⟩
  case waiting =>
    have hfe := (fabricServe_fe hb hl src ht op v poison).trans (fabricFe_attempts hop)
    exact ⟨fun t y h => congrArg Host.Outcome.next (by rw [hfe, h]), fun h => congrArg Host.Outcome.next (by rw [hfe, h])⟩
  all_goals refine congrArg Host.Outcome.next ?_
  case set => exact (fabricServe_fe hb hl src ht 0x13 v poison).trans (fabricFe_set hs)
  case get => exact (fabricServe_fe hb hl src ht 0x14 v poison).trans (fabricFe_get hs)
  case reached =>
    exact (fabricServe_cwait hb hl src ht hs target).trans (if_pos (BitVec.ule_iff_toNat_le.mpr h))
  case below =>
    exact (fabricServe_cwait hb hl src ht hs target).trans (if_neg fun hle => absurd (BitVec.ule_iff_toNat_le.mp hle) (Nat.not_le.mpr h))

end Sys2Proof.Claims

namespace Sys2Proof.Machine
open Sys2Proof.Claims

/-! ### Boot, measurement and power (R347, R349, R350) -/

theorem resetDevice_unverified (s : State) (image : List Byte) (hv : Config.verifies image = false) :
    resetDevice s image = sends (afterReset s) .bootFailure :=
  if_pos (by simp [hv])

theorem resetDevice_attests (s : State) (image : List Byte) (hv : Config.verifies image = true) (hl : s.leaf < 2 ^ 20) :
    resetDevice s image = bootedWith (afterReset s) (s.leaf + 1) (some s.leaf) image := by
  have hable : decide (s.leaf < leafCount) = true := decide_eq_true hl
  simp only [resetDevice, hv, hable]
  rfl

theorem resetDevice_exhausted (s : State) (image : List Byte) (hv : Config.verifies image = true) (hl : 2 ^ 20 ≤ s.leaf) :
    resetDevice s image = sends (bootedWith (afterReset s) s.leaf none image) .cannotAttest := by
  have hable : decide (s.leaf < leafCount) = false := decide_eq_false (Nat.not_lt.mpr hl)
  simp only [resetDevice, hv, hable]
  rfl

theorem measureReport_unbooted (s : State) (h : s.booted = false) : measureReport s = s := by
  simp [measureReport, h]

theorem measureReport_leaf (s : State) (k : Nat) (hb : s.booted = true) (hk : s.bootLeaf = some k) :
    measureReport s = sends s (.report k s.measured) := by
  simp [measureReport, hb, hk, sends]

theorem measureReport_noLeaf (s : State) (hb : s.booted = true) (hk : s.bootLeaf = none) :
    measureReport s = sends s .cannotAttest := by
  simp [measureReport, hb, hk, sends]

end Sys2Proof.Machine

namespace Sys2Proof.Claims
open Sys2Proof.Machine

theorem bootsMeasureAndReport : BootsMeasureAndReport := fun s =>
  ⟨fun image hv => congrArg Host.Outcome.next (resetDevice_unverified s image hv),
    fun image hv hl => congrArg Host.Outcome.next (resetDevice_attests s image hv hl),
    fun image hv hl => congrArg Host.Outcome.next (resetDevice_exhausted s image hv hl),
    fun hb => congrArg Host.Outcome.next (measureReport_unbooted s hb),
    fun k hb hk => congrArg Host.Outcome.next (measureReport_leaf s k hb hk),
    fun hb hk => congrArg Host.Outcome.next (measureReport_noLeaf s hb hk), fun _ => rfl⟩

/-- Settles O50: each request's clause is the equation of the unit that serves it, reached once the device has booted
(`managerRequest_create` and its like, `fabricServe_load` and its like), and a reset is one of its three outcomes. -/
theorem managerFabricAndBoot : Obligations.ManagerFabricAndBoot :=
  ⟨managerRequestsAreServed, fabricRequestsAreServedAtHome, bootsMeasureAndReport⟩

end Sys2Proof.Claims
end

section
/-! What a reset leaves (R114, R347), and the next step after it. -/

namespace Sys2Proof.Claims
open Sys2Proof.Machine

/-- Right after reset the agenda is empty, and no herd-context, core, queue, die, timer or partition enables a turn. -/
theorem nextTurn_reset : nextTurn State.reset = (none, { State.reset with rr := 1, clk := 1 }) := rfl

/-- With no turn to take, the step moves the round robin and the clock on. -/
theorem step_reset : step State.reset = .next { State.reset with rr := 1, clk := 1 } := by
  simp only [step, nextTurn_reset]

/-- The dies of the reset state are four equal ones. -/
theorem die_reset {d : Die} (h : d ∈ State.reset.dies) : d = Die.reset := List.eq_of_mem_replicate h

/-- Settles O57: the reset state lists nothing, so each read of it gives its default. -/
theorem resetLeavesNothingRunning : Obligations.ResetLeavesNothingRunning := by
  refine ⟨rfl, fun _ => rfl, fun _ => rfl, fun _ => rfl, fun _ => rfl, fun _ => rfl, fun _ => rfl, fun _ => rfl, rfl, rfl, rfl,
    fun d hd => ?dies, step_reset⟩
  case dies =>
    obtain rfl := die_reset hd
    exact ⟨rfl, rfl, rfl, rfl, rfl⟩

end Sys2Proof.Claims
end

section
/-! Control operations that act on their herd-context: where a bundle of one goes, what it leaves, and what it traps with (R137,
R152..R160, R369, R371). -/

namespace Sys2Proof.Machine
open Sys2Proof.Claims

/-! ### What each control operation gives -/

theorem directTarget_eq (h : HerdCtx) (off : BitVec 34) : directTarget h.pc off = target h off := by
  unfold directTarget target
  rw [BitVec.ofInt_add, BitVec.ofInt_mul, BitVec.ofInt_natCast, BitVec.ofNat_toNat, BitVec.setWidth_eq, BitVec.mul_comm]
  rfl

theorem extract_low3_eq_zero (x : Word) : x.extractLsb' 0 3 = 0 ↔ x.toNat % 8 = 0 := by
  rw [← BitVec.toNat_inj, extract_toNat]
  simp

section
variable {x : CtlIn} (u : State)

theorem regTarget_aligned {sa : BitVec 6} (h : (x.c.s 12 sa.toNat).val.toNat % 8 = 0) :
    regTarget x sa = .ok (x.c.s 12 sa.toNat) :=
  if_pos ((extract_low3_eq_zero _).mpr h)

theorem regTarget_misaligned {sa : BitVec 6} (h : (x.c.s 12 sa.toNat).val.toNat % 8 ≠ 0) :
    regTarget x sa = .error (.trap true
      { Trap.of .misalign 0 with addr := (x.c.s 12 sa.toNat).val, data := [0x7000, 0, 0, 0, 0] }) :=
  if_neg (mt (extract_low3_eq_zero _).mp h)

theorem ctlBrr_aligned {sa : BitVec 6} (h : (x.c.s 12 sa.toNat).val.toNat % 8 = 0) :
    ctlBrr sa x u = .ok { x.plain with succ := (x.c.s 12 sa.toNat).val, taken := true, consume := (x.c.s 12 sa.toNat).tag } := by
  simp only [ctlBrr, regTarget_aligned h]

theorem ctlBrr_misaligned {sa : BitVec 6} (h : (x.c.s 12 sa.toNat).val.toNat % 8 ≠ 0) :
    ctlBrr sa x u = .error (.trap true
      { Trap.of .misalign 0 with addr := (x.c.s 12 sa.toNat).val, data := [0x7000, 0, 0, 0, 0] }) := by
  simp only [ctlBrr, regTarget_misaligned h]

theorem ctlCallr_aligned {sa : BitVec 6} (h : (x.c.s 12 sa.toNat).val.toNat % 8 = 0) :
    ctlCallr sa x u = pushCall x (x.c.s 12 sa.toNat) := by
  simp only [ctlCallr, regTarget_aligned h]

theorem ctlCallr_misaligned {sa : BitVec 6} (h : (x.c.s 12 sa.toNat).val.toNat % 8 ≠ 0) :
    ctlCallr sa x u = .error (.trap true
      { Trap.of .misalign 0 with addr := (x.c.s 12 sa.toNat).val, data := [0x7000, 0, 0, 0, 0] }) := by
  simp only [ctlCallr, regTarget_misaligned h]

theorem pushCall_room (r : SReg) (h : x.h.links.length < 32) :
    pushCall x r = .ok { x.plain with succ := r.val, taken := true, consume := r.tag,
                                      links := ⟨x.next, none, Post.none⟩ :: x.h.links } :=
  if_neg (Nat.not_le.mpr h)

theorem pushCall_full (r : SReg) (h : 32 ≤ x.h.links.length) :
    pushCall x r = .error (.trap true (Trap.of .linkOverflow 0)) :=
  if_pos h

theorem ctlRet_cons {l : Link} {r : List Link} (h : x.h.links = l :: r) :
    ctlRet x u = .ok { x.plain with succ := l.ret, taken := true, links := r, act := .ret } := by
  simp only [ctlRet, h]

theorem ctlRet_nil (h : x.h.links = []) : ctlRet x u = .error (.trap true (Trap.of .linkEmpty 0)) := by
  simp only [ctlRet, h]

theorem ctlLexit_active {l : BitVec 3} {k : Loop} (h : x.h.loops.find? (·.level == l.toNat) = some k) :
    ctlLexit l x u = .ok { x.plain with succ := afterBundle u x.h k.stop, taken := true,
                                        loops := (x.h.loops.dropWhile (·.level != l.toNat)).drop 1 } := by
  simp only [ctlLexit, h]

theorem ctlLexit_inactive {l : BitVec 3} (h : ∀ k ∈ x.h.loops, k.level ≠ l.toNat) :
    ctlLexit l x u = .error (.trap true (Trap.of .loopNest 0)) := by
  have hfind : x.h.loops.find? (·.level == l.toNat) = none := by simpa [List.find?_eq_none] using h
  simp only [ctlLexit, hfind, loopTrap]

theorem ctlEret_saved {d : Die} {pc : Word} (hd : u.dies[x.h.die]? = some d) (hs : d.pairs.findSome? (·.saved) = some pc) :
    ctlEret x u = .ok { x.plain with succ := pc, taken := true, act := .eret } := by
  simp only [ctlEret, hd, Option.bind_some, hs]

theorem ctlResume_frozen {sa : BitVec 6} {t : Nat} (h : frozenBy u x.h.die (x.c.s 12 sa.toNat).val = some t) :
    ctlResume sa x u = .ok { x.plain with act := .resume t, consume := (x.c.s 12 sa.toNat).tag } := by
  simp only [ctlResume, h]

theorem ctlResume_none {sa : BitVec 6} (h : frozenBy u x.h.die (x.c.s 12 sa.toNat).val = none) :
    ctlResume sa x u = .error (.trap true (Trap.of .illegalField 0)) := by
  simp only [ctlResume, h]

end

/-! ### The start of a loop (R158) -/

theorem endAddr_eq (h : HerdCtx) (e : BitVec 16) : endAddr h.pc e = loopEnd h e := by
  unfold endAddr loopEnd
  congr 1
  apply BitVec.eq_of_toNat_eq
  simp
  omega

theorem canStart_iff (h : HerdCtx) (l : Nat) (e : Word) :
    canStart h l e ↔ h.loops.any (·.level == l) = false ∧ h.loops.any (fun k => decide (k.stop.toNat < e.toNat)) = false := by
  simp [canStart]

/-- A loop that can start runs its body, or goes past its end bundle when its range is empty. -/
theorem startLoop_started (u : State) (id : Nat) (h : HerdCtx) (m : Member) (l lo hi : Nat) (e : Word) (tag : Tag)
    (hc : canStart h l e) : ∃ o, startLoop u (ctlInOf u id h m) l lo hi e tag = .ok o ∧
      (o.act = .go ∧ o.post = Post.none ∧ o.taken = true) ∧
      committedTo u id h o.succ o.loops o.idx o.links o.consume = started u id h l lo hi e tag := by
  obtain ⟨hlevel, hend⟩ := (canStart_iff h l e).mp hc
  have hx : (ctlInOf u id h m).h = h := rfl
  unfold startLoop started
  rw [hx, hlevel, hend]
  by_cases hr : lo = hi
  · rw [if_pos hr, if_pos hr]
    exact ⟨_, rfl, ⟨rfl, rfl, rfl⟩, rfl⟩
  · rw [if_neg hr, if_neg hr]
    exact ⟨_, rfl, ⟨rfl, rfl, rfl⟩, rfl⟩

theorem startLoop_trap (u : State) (x : CtlIn) (l lo hi : Nat) (e : Word) (tag : Tag) (hc : ¬ canStart x.h l e) :
    startLoop u x l lo hi e tag = .error (.trap true (Trap.of .loopNest 0)) := by
  unfold startLoop
  cases hlevel : x.h.loops.any (·.level == l) with
  | true => rfl
  | false =>
    cases hend : x.h.loops.any (fun k => decide (k.stop.toNat < e.toNat)) with
    | true => rfl
    | false => exact absurd ((canStart_iff _ _ _).mpr ⟨hlevel, hend⟩) hc

/-- A LOOPT whose level the node has and which can start is the start over its range. -/
theorem ctlLoopt_starts {x : CtlIn} {u : State} {l : BitVec 3} {e : BitVec 16} {nd : Node}
    (hnd : u.node? x.h.part x.h.node = some nd) (hlevel : l.toNat < fpNlev nd.footprint)
    (hc : canStart x.h l.toNat (endAddr x.pc e)) : ctlLoopt l e x u =
      startLoop u x l.toNat (levelRange nd x.h l.toNat).1 (levelRange nd x.h l.toNat).2 (endAddr x.pc e) none := by
  obtain ⟨hinactive, -⟩ := (canStart_iff _ _ _).mp hc
  simp only [ctlLoopt, hnd, hinactive, Bool.false_eq_true, if_false, if_neg (Nat.not_le.mpr hlevel)]

theorem ctlLoopt_trap {x : CtlIn} {u : State} {l : BitVec 3} {e : BitVec 16}
    (h : ∀ nd, u.node? x.h.part x.h.node = some nd →
      fpNlev nd.footprint ≤ l.toNat ∨ ¬ canStart x.h l.toNat (endAddr x.pc e)) :
    ctlLoopt l e x u = .error (.trap true (Trap.of .loopNest 0)) := by
  unfold ctlLoopt
  split
  · rfl
  · next nd hnd =>
    split
    · rfl
    · split
      · rfl
      · next hlevel => exact startLoop_trap u x _ _ _ _ _ ((h nd hnd).resolve_left hlevel)

end Sys2Proof.Machine

namespace Sys2Proof.Claims
open Sys2Proof.Machine

/-! ### The commit of a bundle of one control operation -/

/-- A control operation, from its outcome and the commit of that outcome. -/
theorem controls_of {i : Instr} {cg : BitVec 4} {pre : State → HerdCtx → Ctx → Prop}
    {next : State → Nat → HerdCtx → Ctx → State} (hk : i.kind = .control) (hcg : i.ctlGuard = cg)
    (hfx : ∀ u id h m, pre u h (leadCtx u id h m) → ∃ o, ctlFx i (ctlInOf u id h m) u = .ok o ∧
      commit u id h (bundleOf i) o none none = next u id h (leadCtx u id h m)) : Controls i cg pre next := by
  subst hcg
  intro s id h m hr hm
  refine ⟨issue_control_off i hk s id h m hr hm, fun hg hp => ?_⟩
  obtain ⟨o, ho, hcommit⟩ := hfx _ id h m hp
  rw [issue_control i hk s id h m o hr hm ((if_pos hg).trans ho), hcommit]

/-- A control operation that is taken and acts on nothing but its herd-context. -/
theorem controls_taken {i : Instr} {cg : BitVec 4} {pre : State → HerdCtx → Ctx → Prop}
    {next : State → Nat → HerdCtx → Ctx → State} (hk : i.kind = .control) (hcg : i.ctlGuard = cg)
    (hfx : ∀ u id h m, pre u h (leadCtx u id h m) → ∃ o, ctlFx i (ctlInOf u id h m) u = .ok o ∧
      (o.act = .go ∧ o.post = Post.none ∧ o.taken = true) ∧
      committedTo u id h o.succ o.loops o.idx o.links o.consume = next u id h (leadCtx u id h m)) :
    Controls i cg pre next :=
  controls_of hk hcg fun u id h m hp => by
    obtain ⟨o, ho, ⟨hgo, hpost, htaken⟩, hnext⟩ := hfx u id h m hp
    refine ⟨o, ho, ?_⟩
    rw [commit_go u id h i hk o hgo hpost, ← hnext, htaken]
    rfl

/-- The E bit of a bundle of one control operation is clear. -/
theorem control_e (i : Instr) (hk : i.kind = .control) : (bundleOf i).h.e = false := by
  obtain ⟨-, -, -, he, -⟩ := control_parts i hk
  exact he

/-- What a control operation leaves to be done after its bundle (R155, R156). -/
theorem commit_post (u : State) (id : Nat) (h : HerdCtx) (m : Member) (i : Instr) (hk : i.kind = .control) (y : Bool)
    (w : BitVec 8) :
    commit u id h (bundleOf i) { (ctlInOf u id h m).plain with post := ⟨false, y, w⟩ } none none =
      doPost (committed u id h 8) id ⟨false, y, w⟩ := by
  rw [commit_of_go _ _ _ _ _ _ _ rfl, control_e i hk]
  rfl

/-! ### Branches, calls and returns -/

theorem advances8_of_plain {i : Instr} (hk : i.kind = .control) (hfx : ∀ x s, ctlFx i x s = .ok x.plain) : Advances8 i := by
  intro s id h hr
  obtain ⟨-, -, -, -, -, -, -, -, hlead, -⟩ := (issues_iff _ _ _ _).mp hr.2
  have hm : h.members[h.leadOf]? = some h.members[h.leadOf] := List.getElem?_eq_getElem hlead
  have hrun (x : CtlIn) (u : State) : runControl i x u = .ok x.plain := by
    unfold runControl
    rw [hfx, ite_self]
  rw [issue_control i hk s id h _ _ hr hm (hrun _ _), commit_go (landAll s id) id h i hk _ rfl rfl, committed_eq]
  rfl

/-- Settles O22: each operation's outcome is a taken transfer (`controls_taken`), whose target is `directTarget_eq` or the lead's
register (`ctlBrr_aligned`) and whose link `pushCall_room`; RET goes on to `returnFrom` (`commit_of_ret`). -/
theorem branchesCallsAndReturns : Obligations.BranchesCallsAndReturns := by
  refine ⟨fun cg => advances8_of_plain rfl fun _ _ => rfl, fun cg off => controls_taken rfl rfl fun u id h m _ => ?br,
    fun cg sa => controls_taken rfl rfl fun u id h m ht => ⟨_, ctlBrr_aligned u ht, ⟨rfl, rfl, rfl⟩, rfl⟩,
    fun cg off => controls_taken rfl rfl fun u id h m hl => ?call,
    fun cg sa => controls_taken rfl rfl fun u id h m ⟨ht, hl⟩ => ?callr, fun cg => controls_of rfl rfl fun u id h m hl => ?ret⟩
  case br => exact ⟨_, rfl, ⟨rfl, rfl, rfl⟩, congrArg (goTo u id h · h.links none) (directTarget_eq h off)⟩
  case call =>
    exact ⟨_, pushCall_room _ hl, ⟨rfl, rfl, rfl⟩,
      congrArg (goTo u id h · (callLink h :: h.links) none) (directTarget_eq h off)⟩
  case callr => exact ⟨_, (ctlCallr_aligned u ht).trans (pushCall_room _ hl), ⟨rfl, rfl, rfl⟩, rfl⟩
  case ret =>
    obtain ⟨l, r, hlinks⟩ := List.exists_cons_of_ne_nil hl
    refine ⟨_, ctlRet_cons u hlinks, ?_⟩
    rw [commit_of_ret u id h _ _ none none l r rfl hlinks, control_e _ rfl, hlinks]
    rfl

/-! ### What a control operation traps with -/

/-- Stops that are one stop of a member are found at that member's place. -/
theorem range_flatMap_filter {α : Type} (x : Nat × α) {l : List (Nat × α)} (hl : l = []) (n : Nat) (h : x.1 < n) :
    (List.range n).flatMap (fun k => ([x] ++ l).filter (·.1 == k)) = [x] := by
  subst hl
  simp only [List.append_nil]
  induction n with
  | zero => exact absurd h (Nat.not_lt_zero _)
  | succ n ih =>
    rw [List.range_succ, List.flatMap_append]
    by_cases hn : x.1 < n
    · rw [ih hn]
      simp [Nat.ne_of_lt hn]
    · have hlast : x.1 = n := by omega
      have hbefore : (List.range n).flatMap (fun k => [x].filter (·.1 == k)) = [] := by
        simp only [List.flatMap_eq_nil_iff, List.mem_range]
        intro k hk
        have hne : x.1 ≠ k := by omega
        simp [hne]
      rw [hbefore]
      simp [hlast]

/-- A control operation that stops is the only stop of its bundle, on the lead. -/
theorem control_stopsOf (u : State) (id : Nat) (h : HerdCtx) (i : Instr) (hk : i.kind = .control) (m : Member)
    (hm : h.members[h.leadOf]? = some m) (e : Stop) (he : runControl i (ctlInOf u id h m) u = .error e) :
    stopsOf u id h (bundleOf i) = [(h.leadOf, 0, e)] := by
  obtain ⟨hc, -⟩ := control_parts i hk
  unfold stopsOf
  simp only [ctlIn_control u id h i hk m hm, hc, he]
  refine range_flatMap_filter (h.leadOf, 0, e) ?noSlot _ (List.getElem?_eq_some_iff.mp hm).1
  case noSlot =>
    rw [List.flatMap_eq_nil_iff]
    intro x hx
    rw [(control_slots u id h i hk).1 x hx]

/-- A control operation with an execution fault traps before its bundle, on the lead (R364, R371). -/
theorem controlTraps_of {i : Instr} {cg : BitVec 4} {pre : State → HerdCtx → Ctx → Prop} {t : HerdCtx → Ctx → Trap}
    (hk : i.kind = .control) (hcg : i.ctlGuard = cg)
    (hfx : ∀ u id h m, pre u h (leadCtx u id h m) →
      ctlFx i (ctlInOf u id h m) u = .error (.trap true (t h (leadCtx u id h m)))) : ControlTraps i cg pre t := by
  subst hcg
  intro s id h m hr hm u c hg hp
  obtain ⟨-, hra, hrb, -⟩ := control_parts i hk
  have hstops := control_stopsOf u id h i hk m hm _ ((if_pos hg).trans (hfx u id h m hp))
  rw [exec_control i hk]
  refine issueOne_traps i s id h hr hra hrb _ _ ?_
  rw [show stopsOf (landAll s id) id h (bundleOf i) = _ from hstops]
  simp [firstTrap, List.eraseDups_cons, c]

/-- Settles O23: the operation's effect is its execution fault (`ctlBrr_misaligned`, `pushCall_full`, `startLoop_trap` and their
like), which is all that happens (`controlTraps_of`). -/
theorem controlOperationsTrapBeforeTheirBundle : Obligations.ControlOperationsTrapBeforeTheirBundle := by
  unfold Obligations.ControlOperationsTrapBeforeTheirBundle
  intro misaligned
  refine ⟨fun cg sa => controlTraps_of rfl rfl fun u id h m ht => ctlBrr_misaligned u ht,
    fun cg sa => controlTraps_of rfl rfl fun u id h m ht => ctlCallr_misaligned u ht,
    fun cg off => controlTraps_of rfl rfl fun u id h m hl => pushCall_full _ hl,
    fun cg sa => controlTraps_of rfl rfl fun u id h m ⟨ht, hl⟩ => (ctlCallr_aligned u (not_not.mp ht)).trans (pushCall_full _ hl),
    fun cg => controlTraps_of rfl rfl fun u id h m hl => ctlRet_nil u hl,
    fun cg l n e => controlTraps_of (by cases n <;> rfl) (by cases n <;> rfl) fun u id h m hc => ?loopn,
    fun cg l e => controlTraps_of rfl rfl fun u id h m hc => ctlLoopt_trap fun nd hnd => ?loopt,
    fun cg l => controlTraps_of rfl rfl fun u id h m hn => ctlLexit_inactive u hn,
    fun cg sa => controlTraps_of rfl rfl fun u id h m hf => ctlResume_none u hf⟩
  case loopn =>
    rw [← endAddr_eq] at hc
    cases n with
    | imm n => exact startLoop_trap u _ _ _ _ _ _ hc
    | reg sc => exact startLoop_trap u _ _ _ _ _ _ hc
  case loopt =>
    have := hc nd hnd
    rwa [← endAddr_eq] at this

/-! ### Loops -/

theorem loopsStartAndExit : LoopsStartAndExit := by
  refine ⟨fun cg l n e => controls_taken rfl rfl fun u id h m hc => ?imm,
    fun cg l sc e => controls_taken rfl rfl fun u id h m hc => ?reg,
    fun cg l e nd => controls_taken rfl rfl fun u id h m ⟨hnd, hlevel, hc⟩ => ?table,
    fun cg l k => controls_taken rfl rfl fun u id h m hk => ⟨_, ctlLexit_active u hk, ⟨rfl, rfl, rfl⟩, rfl⟩⟩
  all_goals rw [← endAddr_eq] at hc ⊢
  case imm => exact startLoop_started u id h m l.toNat 0 n.toNat (endAddr h.pc e) none hc
  case reg => exact startLoop_started u id h m l.toNat 0 _ (endAddr h.pc e) _ hc
  case table =>
    obtain ⟨o, ho, hnext⟩ := startLoop_started u id h m l.toNat (levelRange nd h l.toNat).1 (levelRange nd h l.toNat).2
      (endAddr h.pc e) none hc
    exact ⟨o, (ctlLoopt_starts hnd hlevel hc).trans ho, hnext⟩

theorem endBundleStepsTheLoops : EndBundleStepsTheLoops := by
  intro pc next k r idx
  refine ⟨rfl, fun hk => if_pos hk, fun hk hlt => ?again, fun hk hle => ?ends⟩
  case again =>
    unfold stepLoops
    rw [if_neg (not_not.mpr hk)]
    exact if_pos hlt
  case ends =>
    conv_lhs => unfold stepLoops
    rw [if_neg (not_not.mpr hk)]
    exact if_neg (Nat.not_lt.mpr hle)

/-- Settles O24: a loop that can start starts (`startLoop_started`), LEXIT finds the level that it ends, and a loop's step is an
equation of `stepLoops` per case. -/
theorem loopsStartStepAndEnd : Obligations.LoopsStartStepAndEnd := ⟨loopsStartAndExit, endBundleStepsTheLoops⟩

/-! ### TRAP, YIELD, WAITE, ERET and RESUME -/

theorem modDie_modHc (s : State) (die id : Nat) (f : Die → Die) (g : HerdCtx → HerdCtx) :
    (s.modDie die f).modHc id g = (s.modHc id g).modDie die f := by
  have hhc : (s.modDie die f).hc? id = s.hc? id := by
    unfold State.modDie
    split <;> rfl
  cases hh : s.hc? id with
  | none => simp [State.modHc, hhc, hh]
  | some h =>
    rw [State.modHc_of _ _ _ h (hhc.trans hh), State.modHc_of _ _ _ h hh]
    unfold State.modDie
    rw [State.setHc_dies]
    split <;> rfl

theorem modDie_congr (s : State) (die : Nat) (d : Die) (f g : Die → Die) (hd : s.dies[die]? = some d) (hfg : f d = g d) :
    s.modDie die f = s.modDie die g := by
  simp [State.modDie, hd, hfg]

/-- The pair that ERET takes is the first one with a saved point. -/
theorem findIdx?_saved (l : List Pair) (j : Nat) (p : Pair) (pc : Word) (hp : l[j]? = some p) (hs : p.saved = some pc)
    (hfirst : ∀ k, k < j → (l[k]?.bind (·.saved)) = none) :
    l.findIdx? (·.saved.isSome) = some j ∧ l.findSome? (·.saved) = some pc := by
  induction l generalizing j with
  | nil => cases hp
  | cons x r ih =>
    cases j with
    | zero =>
      obtain rfl : x = p := Option.some.inj hp
      simp [List.findIdx?_cons, hs]
    | succ j =>
      have hx : x.saved = none := hfirst 0 (Nat.succ_pos j)
      obtain ⟨hidx, hsome⟩ := ih j hp fun k hk => hfirst (k + 1) (Nat.succ_lt_succ hk)
      simp [List.findIdx?_cons, hx, hidx, hsome]

@[simp] theorem touchOverlay_dies (s : State) (h : HerdCtx) : (touchOverlay s h).dies = s.dies := by
  obtain he | ⟨c, k, he⟩ := touchOverlay_cases s h
  · rw [he]
  · rw [he, State.setCore_dies]

@[simp] theorem goTo_dies (u : State) (id : Nat) (h : HerdCtx) (pc : Word) (links : List Link) (tag : Tag) :
    (goTo u id h pc links tag).dies = u.dies := by
  simp [goTo, committedTo]

theorem committedTo_modHc (t : State) (id : Nat) (h : HerdCtx) (pc : Word) (loops : List Loop) (idx : List Word)
    (links : List Link) (tag : Tag) :
    (committedTo t id h pc loops idx links tag).modHc id (fun h => h) = committedTo t id h pc loops idx links tag := by
  unfold committedTo
  rw [State.modHc_self]

/-- The commit of an ERET that goes back to the saved point of pair `j` (R157). -/
theorem commit_eret (u : State) (id : Nat) (h : HerdCtx) (i : Instr) (hk : i.kind = .control) (m : Member) (d : Die) (j : Nat)
    (p : Pair) (pc : Word) (hd : u.dies[h.die]? = some d) (hp : d.pairs[j]? = some p)
    (hj : d.pairs.findIdx? (·.saved.isSome) = some j) :
    commit u id h (bundleOf i) { (ctlInOf u id h m).plain with succ := pc, taken := true, act := .eret } none none =
      (goTo u id h pc h.links none).modDie h.die fun d => { d with pairs := lset d.pairs j { p with saved := none } } := by
  have hbase : committedAs u id h false { (ctlInOf u id h m).plain with succ := pc, taken := true, act := .eret } =
      goTo u id h pc h.links none := rfl
  unfold commit
  rw [commitBase_eq, control_e i hk, hbase]
  refine (doPost_none _ id).trans ?_
  rw [modDie_modHc, goTo, committedTo_modHc]
  refine modDie_congr _ _ d _ _ ((congrArg (·[h.die]?) (goTo_dies u id h pc h.links none)).trans hd) ?_
  simp [hj, List.getD_eq_getElem?_getD, hp]

/-- Settles O25: TRAP, YIELD and WAITE leave what follows the plain commit (`commit_of_trap`, `commit_post`), ERET's pair is the
first with a saved point (`findIdx?_saved`, `commit_eret`), and RESUME commits like a bundle that takes nothing. -/
theorem trapYieldWaitAndResume : Obligations.TrapYieldWaitAndResume := by
  refine ⟨fun cg code => controls_of rfl rfl fun u id h m _ => ⟨_, rfl, ?trap⟩,
    fun cg => controls_of rfl rfl fun u id h m _ => ⟨_, rfl, commit_post u id h m _ rfl true 0⟩,
    fun cg w => controls_of rfl rfl fun u id h m _ => ⟨_, rfl, ?waite⟩,
    fun cg d j p pc => controls_of rfl rfl fun u id h m ⟨hd, hp, hs, hfirst⟩ => ?eret,
    fun cg sa t => controls_of rfl rfl fun u id h m hf => ?resume⟩
  case trap =>
    rw [commit_of_trap u id h _ _ none none code rfl, control_e _ rfl]
    rfl
  case waite =>
    refine (commit_post u id h m _ rfl false w).trans ?_
    by_cases hw : w = 0
    · subst hw
      unfold doPost committed
      rw [State.modHc_modHc, State.modHc_modHc]
      rfl
    · exact congrArg ((committed u id h 8).modHc id) (funext fun _ => if_pos hw)
  case eret =>
    obtain ⟨hidx, hsome⟩ := findIdx?_saved d.pairs j p pc hp hs hfirst
    exact ⟨_, ctlEret_saved u hd hsome, commit_eret u id h (.eret cg) rfl m d j p pc hd hp hidx⟩
  case resume =>
    refine ⟨_, ctlResume_frozen u hf, ?_⟩
    unfold commit
    rw [commitBase_eq, control_e _ rfl]
    rfl

end Sys2Proof.Claims
end

section
/-! The functions of the S slot's operations, as their rules write them (R139..R148, Table 7.2). -/

namespace Sys2Proof.Machine
open Sys2Proof.Claims

/-! ### Arithmetic and shifts (R139..R142) -/

theorem sub_eq_ofInt (a b : Word) : a - b = BitVec.ofInt 64 ((a.toNat : Int) - b.toNat) := by
  apply BitVec.eq_of_toNat_eq
  have ha := a.isLt
  have hb := b.isLt
  rw [BitVec.toNat_sub, BitVec.toNat_ofInt]
  norm_num
  omega

theorem shiftOf_eq (b : Word) : shiftOf b = shiftCount b := by
  unfold shiftOf shiftCount
  rw [extract_toNat]
  simp

theorem mul64_eq (a b : Word) : a * b = BitVec.ofNat 64 (a.toNat * b.toNat) := BitVec.eq_of_toNat_eq (by simp)

theorem shiftLeft_eq_ofNat (a : Word) (n : Nat) : a <<< n = BitVec.ofNat 64 (a.toNat * 2 ^ n) := by
  apply BitVec.eq_of_toNat_eq
  simp [Nat.shiftLeft_eq]

theorem ushiftRight_eq_ofNat (a : Word) (n : Nat) : a >>> n = BitVec.ofNat 64 (a.toNat / 2 ^ n) := by
  apply BitVec.eq_of_toNat_eq
  have := a.isLt
  have hle : a.toNat / 2 ^ n ≤ a.toNat := Nat.div_le_self _ _
  rw [BitVec.toNat_ushiftRight, Nat.shiftRight_eq_div_pow, BitVec.toNat_ofNat, Nat.mod_eq_of_lt (by omega)]

theorem sshiftRight_eq_ofInt (a : Word) (n : Nat) : a.sshiftRight n = BitVec.ofInt 64 (a.toInt / 2 ^ n) := by
  rw [BitVec.sshiftRight, Int.shiftRight_eq_div_pow]
  norm_cast

/-- The two parts of a rotation have no bit in common, so that their union is their sum. -/
theorem rotateLeft_eq_ofNat (a : Word) (n : Nat) (hn : n < 64) :
    a.rotateLeft n = BitVec.ofNat 64 (a.toNat * 2 ^ n + a.toNat / 2 ^ (64 - n)) := by
  have hdisjoint : a <<< n &&& a >>> (64 - n) = 0 := by
    ext i hi
    have hout : n ≤ i → a.getLsbD (64 - n + i) = false := fun hle => BitVec.getLsbD_of_ge a _ (by omega)
    simp
    grind
  rw [BitVec.rotateLeft_def, Nat.mod_eq_of_lt hn, ← BitVec.add_eq_or_of_and_eq_zero _ _ hdisjoint, shiftLeft_eq_ofNat,
    ushiftRight_eq_ofNat, BitVec.ofNat_add]

theorem shiftLeft_shiftOf (a b : Word) : a <<< shiftOf b = BitVec.ofNat 64 (a.toNat * 2 ^ shiftCount b) :=
  shiftOf_eq b ▸ shiftLeft_eq_ofNat a _

theorem ushiftRight_shiftOf (a b : Word) : a >>> shiftOf b = BitVec.ofNat 64 (a.toNat / 2 ^ shiftCount b) :=
  shiftOf_eq b ▸ ushiftRight_eq_ofNat a _

theorem sshiftRight_shiftOf (a b : Word) : a.sshiftRight (shiftOf b) = BitVec.ofInt 64 (a.toInt / 2 ^ shiftCount b) :=
  shiftOf_eq b ▸ sshiftRight_eq_ofInt a _

theorem rotateLeft_shiftOf (a b : Word) : a.rotateLeft (shiftOf b) =
    BitVec.ofNat 64 (a.toNat * 2 ^ shiftCount b + a.toNat / 2 ^ (64 - shiftCount b)) :=
  shiftOf_eq b ▸ rotateLeft_eq_ofNat a _ (Nat.mod_lt _ (by decide))

theorem add_sext32 (a : Word) (x : BitVec 32) : a + sext32 x = BitVec.ofInt 64 (a.toNat + simm x) := by
  rw [BitVec.ofInt_add, BitVec.ofInt_natCast, BitVec.ofNat_toNat, BitVec.setWidth_eq]
  rfl

theorem append_low32 (x : BitVec 32) (a : Word) :
    x ++ a.extractLsb' 0 32 = BitVec.ofNat 64 (a.toNat % 2 ^ 32 + x.toNat * 2 ^ 32) := by
  apply BitVec.eq_of_toNat_eq
  erw [toNat_app]
  rw [extract_toNat]
  simp
  omega

theorem extract_high_ofInt (z : Int) : (BitVec.ofInt 128 z).extractLsb' 64 64 = BitVec.ofInt 64 (z / 2 ^ 64) := by
  apply BitVec.eq_of_toNat_eq
  rw [extract_toNat, BitVec.toNat_ofInt, BitVec.toNat_ofInt]
  norm_num
  omega

theorem mulHighS_eq (a b : Word) : mulHighS a b = BitVec.ofInt 64 (a.toInt * b.toInt / 2 ^ 64) := by
  rw [← extract_high_ofInt, BitVec.ofInt_mul]
  rfl

theorem mulHighU_eq (a b : Word) : mulHighU a b = BitVec.ofNat 64 (a.toNat * b.toNat / 2 ^ 64) := by
  have hlt : a.toNat * b.toNat < 2 ^ 64 * 2 ^ 64 := Nat.mul_lt_mul'' a.isLt b.isLt
  apply BitVec.eq_of_toNat_eq
  have ha : a.toNat % 2 ^ 128 = a.toNat := Nat.mod_eq_of_lt (by omega)
  have hb : b.toNat % 2 ^ 128 = b.toNat := Nat.mod_eq_of_lt (by omega)
  unfold mulHighU
  rw [extract_toNat, BitVec.toNat_mul, BitVec.toNat_setWidth, BitVec.toNat_setWidth, BitVec.toNat_ofNat, ha, hb,
    Nat.mod_eq_of_lt (show a.toNat * b.toNat < 2 ^ 128 by omega)]

/-! ### Division (R143, Table 7.2) -/

theorem divSigned_mul_add_remSigned (a b : Word) (hb : b ≠ 0) : divSigned a b * b + remSigned a b = a := by
  unfold divSigned remSigned
  rw [if_neg hb, if_neg hb]
  calc BitVec.ofInt 64 (a.toInt.tdiv b.toInt) * b + BitVec.ofInt 64 (a.toInt.tmod b.toInt)
      = BitVec.ofInt 64 (a.toInt.tdiv b.toInt * b.toInt + a.toInt.tmod b.toInt) := by
        rw [BitVec.ofInt_add, BitVec.ofInt_mul, BitVec.ofInt_toInt]
    _ = a := by rw [Int.tdiv_mul_add_tmod, BitVec.ofInt_toInt]

theorem divUnsigned_mul_add_remUnsigned (a b : Word) (hb : b ≠ 0) : divUnsigned a b * b + remUnsigned a b = a := by
  unfold divUnsigned remUnsigned
  rw [if_neg hb, if_neg hb]
  calc BitVec.ofNat 64 (a.toNat / b.toNat) * b + BitVec.ofNat 64 (a.toNat % b.toNat)
      = BitVec.ofNat 64 (a.toNat / b.toNat * b.toNat + a.toNat % b.toNat) := by
        rw [BitVec.ofNat_add, BitVec.ofNat_mul, BitVec.ofNat_toNat 64 b, BitVec.setWidth_eq]
    _ = a := by rw [Nat.div_add_mod', BitVec.ofNat_toNat, BitVec.setWidth_eq]

/-! ### Counts of bits and extensions (R144) -/

/-- The zeros above the highest one of a number below 2^n. -/
theorem length_takeWhile_high_zeros (x n : Nat) (h : x < 2 ^ n) :
    ((List.range n).reverse.takeWhile fun i => !x.testBit i).length = if x = 0 then n else n - 1 - Nat.log2 x := by
  induction n with
  | zero => simp_all
  | succ n ih =>
    rw [List.range_succ, List.reverse_append]
    by_cases hlow : x < 2 ^ n
    · have hbit : x.testBit n = false := Nat.testBit_lt_two_pow hlow
      have hlog : x ≠ 0 → Nat.log2 x < n := fun hx => (Nat.log2_lt hx).mpr hlow
      simp [hbit, ih hlow]
      split <;> omega
    · have hx : x ≠ 0 := by
        rintro rfl
        exact hlow (Nat.two_pow_pos n)
      have hlog : Nat.log2 x = n := (Nat.log2_eq_iff hx).mpr ⟨not_lt.mp hlow, h⟩
      have hbit : x.testBit n = true := by
        rw [Nat.testBit_eq_decide_div_mod_eq, Nat.div_eq_of_lt_le (k := 1) (by omega) (by omega)]
        rfl
      simp [hbit, hx, hlog]

theorem clz64_eq (a : Word) : clz64 a = leadingZeros a := by
  have h := length_takeWhile_high_zeros a.toNat 64 a.isLt
  have hzero : a = 0 ↔ a.toNat = 0 := BitVec.toNat_inj.symm
  unfold clz64
  simp only [hzero]
  exact h.symm

theorem find?_range_getD (p : Nat → Bool) (n : Nat) :
    ((List.range n).find? p).getD n = ((List.range n).takeWhile fun i => !p i).length := by
  induction n with
  | zero => rfl
  | succ n ih =>
    rw [List.range_succ, List.find?_append, List.takeWhile_append, ← ih]
    cases hf : (List.range n).find? p with
    | none => cases hp : p n <;> simp [hp]
    | some k =>
      have hk : k < n := List.mem_range.mp (List.mem_of_find?_eq_some hf)
      simp [hk.ne, ← ih, hf]

theorem ctz64_eq (a : Word) : ctz64 a = trailingZeros a := find?_range_getD (a.getLsbD ·) 64

theorem foldl_count {α : Type} (p : α → Bool) (l : List α) (k : Nat) :
    l.foldl (fun n x => if p x then n + 1 else n) k = k + (l.filter p).length := by
  induction l generalizing k with
  | nil => rfl
  | cons x r ih =>
    rw [List.foldl_cons, ih]
    cases hp : p x with
    | true => simp [hp]; omega
    | false => simp [hp]

theorem popc64_eq (a : Word) : popc64 a = oneBits a := by
  unfold popc64 oneBits
  rw [foldl_count, Nat.zero_add]

theorem extract_toInt (a : Word) (n : Nat) : (a.extractLsb' 0 (n + 1)).toInt = signedOf (n + 1) a.toNat := by
  rw [BitVec.toInt_eq_toNat_cond, extract_toNat]
  have hpow : 2 ^ (n + 1) = 2 * 2 ^ n := by rw [pow_succ, Nat.mul_comm]
  simp only [signedOf, Nat.pow_zero, Nat.div_one, Nat.add_sub_cancel, hpow]
  split <;> split <;> push_cast <;> omega

theorem signExtend_extract (a : Word) (n : Nat) :
    (a.extractLsb' 0 (n + 1)).signExtend 64 = BitVec.ofInt 64 (signedOf (n + 1) a.toNat) := by
  rw [← extract_toInt]
  rfl

theorem setWidth_extract (a : Word) (n : Nat) :
    (a.extractLsb' 0 n).setWidth 64 = BitVec.ofNat 64 (a.toNat % 2 ^ n) := by
  rw [← BitVec.ofNat_toNat, extract_toNat]
  simp

theorem extract_eq_setWidth (a : Word) (n : Nat) : a.extractLsb' 0 n = a.setWidth n := by
  apply BitVec.eq_of_toNat_eq
  simp

/-! ### The conditions (R146, Table 3.6) -/

theorem slt_or_beq (a b : Word) : (a.slt b || a == b) = decide (a.toInt ≤ b.toInt) := by
  rw [BitVec.slt_eq_decide, beq_eq_decide, ← Bool.decide_or, decide_eq_decide, ← BitVec.toInt_inj, Int.le_iff_lt_or_eq]

theorem ult_or_beq (a b : Word) : (a.ult b || a == b) = decide (a.toNat ≤ b.toNat) := by
  rw [BitVec.ult_eq_decide, beq_eq_decide, ← Bool.decide_or, decide_eq_decide, ← BitVec.toNat_inj, Nat.le_iff_lt_or_eq]

theorem not_decide_eq {p q : Prop} [Decidable p] [Decidable q] (h : ¬ p ↔ q) : (!decide p) = decide q := by
  rw [← decide_not]
  exact decide_eq_decide.mpr h

theorem cond64_eq (n : Nat) (a b : Word) : cond64 n a b = condition n a b := by
  match n with
  | 0 => exact beq_eq_decide a b
  | 1 => exact (congrArg (! ·) (beq_eq_decide a b)).trans (not_decide_eq Iff.rfl)
  | 2 => exact BitVec.slt_eq_decide
  | 3 => exact slt_or_beq a b
  | 4 => exact BitVec.ult_eq_decide
  | 5 => exact ult_or_beq a b
  | 6 => exact (congrArg (! ·) (slt_or_beq a b)).trans (not_decide_eq not_le)
  | 7 => exact (congrArg (! ·) BitVec.slt_eq_decide).trans (not_decide_eq not_lt)
  | 8 => exact (congrArg (! ·) (ult_or_beq a b)).trans (not_decide_eq not_le)
  | n + 9 => exact (congrArg (! ·) BitVec.ult_eq_decide).trans (not_decide_eq not_lt)

end Sys2Proof.Machine

namespace Sys2Proof.Claims
open Sys2Proof.Machine

/-! ### From an operation's function to its bundle -/

/-- An S operation that puts one result in flight, whatever the state holds. -/
theorem acts_result {i : Instr} {r : State → Ctx → Res} {fl : State → Ctx → FFlags} {lat : BitVec 4} {least : Nat}
    (hk : i.kind = .scalar) (hfx : ∀ (u : State) (c : Ctx) (x : AMap HerdCtx),
      slotFx i c (u.withHctxs x) = .ok (addResult (u.withHctxs x) c (r u c) (fl u c) lat least)) :
    Acts i fun u c m => m.withResult c.v (r u c) (fl u c) lat least :=
  acts_of i (.inl hk) (exec_solo i (.inl hk)) _ hfx fun _ _ m hm => withResult_fits m _ _ _ _ _ hm

theorem consumed_hasRoom (m : Member) (t : Tag) : (m.consumed t).hasRoom = m.hasRoom := by
  unfold Member.consumed
  split <;> rfl

/-- An S operation that consumes a tag and puts a predicate and its complement in flight. -/
theorem acts_pair {i : Instr} {tag : Ctx → Tag} {b : Ctx → Bool} {pt pf lat : BitVec 4} (hk : i.kind = .scalar)
    (hfx : ∀ (c : Ctx) (s : State), slotFx i c s = .ok (putPair (consumeTag s c.id c.mi (tag c)) c pt pf (b c) lat)) :
    Acts i fun _ c m => pairResult c (m.consumed (tag c)) pt pf (b c) lat := by
  refine acts_of i (.inl hk) (exec_solo i (.inl hk)) _ (fun u c x => ?effect) fun _ c m hm => ?room
  case effect =>
    rw [hfx, putPair, addResult_eq, addResult_eq, consumeTag_modMember, modMember_modMember]
    rfl
  case room => exact withResult2_fits _ _ _ _ _ _ _ _ ((consumed_hasRoom m _).trans hm)

/-- A two-source operation, from the rule's form of its function. -/
theorem acts_sr {i : Instr} {f : SRForm} {least : Nat} {op op' : Word → Word → Word} (hk : i.kind = .scalar)
    (hop : ∀ a b, op a b = op' a b) (hi : slotFx i = sr2 f least op) : Acts i (srResult f least op') := by
  obtain rfl : op = op' := funext fun a => funext (hop a)
  exact acts_result hk fun u c x => congrFun (congrFun hi c) (u.withHctxs x)

/-- A one-source operation, from the rule's form of its function. -/
theorem acts_s1 {i : Instr} {f : S1Form} {op op' : Word → Word} (hk : i.kind = .scalar) (hop : ∀ a, op a = op' a)
    (hi : slotFx i = sr1 f op) : Acts i (s1Result f op') := by
  obtain rfl : op = op' := funext hop
  exact acts_result hk fun u c x => congrFun (congrFun hi c) (u.withHctxs x)

/-- An operation with an immediate, from the rule's form of its function. -/
theorem acts_si {i : Instr} {f : SIForm} {op op' : Word → Word} (hk : i.kind = .scalar)
    (hop : ∀ a, op a = op' a)
    (hi : ∀ c s, slotFx i c s = .ok (putS s c f.sd (op (c.s 1 f.sa.toNat).val) (c.s 1 f.sa.toNat).tag f.lat 1)) : Acts i (siResult f op') := by
  obtain rfl : op = op' := funext hop
  exact acts_result hk fun u c x => hi c (u.withHctxs x)

theorem acts_plog {i : Instr} {f : PlogForm} {op : Bool → Bool → Bool} (hk : i.kind = .scalar) (hi : slotFx i = plog f op) :
    Acts i (plogResult f op) :=
  acts_pair (tag := fun _ => none) hk fun c s => congrFun (congrFun hi c) s

/-- A floating-point operation on the low 32 bits of its sources (R151). -/
theorem acts_sf {i : Instr} {f : SRForm} {op : W32 → W32 → W32 × FFlags} (hk : i.kind = .scalar) (hi : slotFx i = sf2 f op) :
    Acts i (sfResult f op) := by
  refine acts_result hk fun u c x => (congrFun (congrFun hi c) (u.withHctxs x)).trans ?_
  simp only [sf2, extract_eq_setWidth, BitVec.ofNat_toNat]

/-! ### The statements -/

theorem aluOperationsWriteTheirResult : AluOperationsWriteTheirResult := fun _ =>
  ⟨acts_sr rfl add64_eq rfl, acts_sr rfl sub_eq_ofInt rfl, acts_sr rfl (fun _ _ => rfl) rfl, acts_sr rfl (fun _ _ => rfl) rfl,
    acts_sr rfl (fun _ _ => rfl) rfl, acts_sr rfl shiftLeft_shiftOf rfl, acts_sr rfl ushiftRight_shiftOf rfl,
    acts_sr rfl sshiftRight_shiftOf rfl, acts_sr rfl smin64_eq rfl, acts_sr rfl smax64_eq rfl, acts_sr rfl umin64_eq rfl,
    acts_sr rfl umax64_eq rfl, acts_sr rfl rotateLeft_shiftOf rfl⟩

theorem immediateOperationsWriteTheirResult : ImmediateOperationsWriteTheirResult :=
  ⟨fun f => ⟨acts_si rfl (add_sext32 · f.imm) fun _ _ => rfl, acts_si rfl (fun _ => rfl) fun _ _ => rfl,
      acts_si rfl (fun _ => rfl) fun _ _ => rfl, acts_si rfl (fun _ => rfl) fun _ _ => rfl,
      acts_si rfl (shiftLeft_eq_ofNat · _) fun _ _ => rfl, acts_si rfl (ushiftRight_eq_ofNat · _) fun _ _ => rfl,
      acts_si rfl (sshiftRight_eq_ofInt · _) fun _ _ => rfl, acts_si rfl (append_low32 f.imm) fun _ _ => rfl⟩,
    fun _ => acts_result rfl fun _ _ _ => rfl⟩

/-- Settles O1: the result is in flight (`acts_sr`, `acts_si`), and it is the value that the rule writes (`rotateLeft_eq_ofNat`,
`append_low32` and the other equations). -/
theorem scalarIntegerOperationsWriteTheirResult : Obligations.ScalarIntegerOperationsWriteTheirResult :=
  ⟨aluOperationsWriteTheirResult, immediateOperationsWriteTheirResult⟩

/-- Settles O2: the halves of the 128-bit product are `mulHighS_eq` and `mulHighU_eq`. -/
theorem multiplyWritesTheProductsHalf : Obligations.MultiplyWritesTheProductsHalf := fun _ =>
  ⟨acts_sr rfl mul64_eq rfl, acts_sr rfl mulHighS_eq rfl, acts_sr rfl mulHighU_eq rfl⟩

/-- Settles O3: the model's divisions are the rule's functions, and quotient and remainder give the dividend back
(`divSigned_mul_add_remSigned`, `divUnsigned_mul_add_remUnsigned`). -/
theorem divisionTruncatesAndNeverStops : Obligations.DivisionTruncatesAndNeverStops :=
  ⟨fun _ => ⟨acts_sr (op := divSigned) rfl (fun _ _ => rfl) rfl, acts_sr (op := divUnsigned) rfl (fun _ _ => rfl) rfl,
      acts_sr (op := remSigned) rfl (fun _ _ => rfl) rfl, acts_sr (op := remUnsigned) rfl (fun _ _ => rfl) rfl⟩,
    fun a b hb => ⟨divSigned_mul_add_remSigned a b hb, divUnsigned_mul_add_remUnsigned a b hb⟩,
    by decide, by decide, by decide, by decide⟩

/-- Settles O4: the counts are `clz64_eq`, `ctz64_eq` and `popc64_eq`, the extensions `signExtend_extract` and `setWidth_extract`,
and SEL puts the register that it chooses in flight with that register's tag. -/
theorem bitCountsExtensionsAndSelect : Obligations.BitCountsExtensionsAndSelect :=
  ⟨fun _ => ⟨acts_s1 rfl (fun a => congrArg (BitVec.ofNat 64) (clz64_eq a)) rfl,
      acts_s1 rfl (fun a => congrArg (BitVec.ofNat 64) (ctz64_eq a)) rfl,
      acts_s1 rfl (fun a => congrArg (BitVec.ofNat 64) (popc64_eq a)) rfl, acts_s1 rfl (signExtend_extract · 7) rfl,
      acts_s1 rfl (signExtend_extract · 15) rfl, acts_s1 rfl (signExtend_extract · 31) rfl,
      acts_s1 rfl (setWidth_extract · 8) rfl, acts_s1 rfl (setWidth_extract · 16) rfl, acts_s1 rfl (setWidth_extract · 32) rfl⟩,
    fun _ => acts_result rfl fun _ _ _ => rfl⟩

/-- Settles O5: each operation consumes its sources' tags and puts both predicates in flight (`acts_pair`, with the conditions of
`cond64_eq`), and MOVP one scalar without a tag. -/
theorem comparesAndPredicatesWriteBothResults : Obligations.ComparesAndPredicatesWriteBothResults := by
  refine ⟨fun f => acts_pair rfl fun c s => ?cmp, fun f => acts_pair rfl fun c s => ?cmpi,
    fun _ => ⟨acts_plog rfl rfl, acts_plog rfl rfl, acts_plog rfl rfl, acts_plog rfl rfl⟩,
    fun _ => acts_result rfl fun _ _ _ => rfl, fun _ => acts_pair rfl fun _ _ => rfl⟩
  case cmp => rw [← cond64_eq]; rfl
  case cmpi => rw [← cond64_eq]; rfl

theorem fxSfcvtif_eq (f : S1Form) (c : Ctx) (s : State) :
    fxSfcvtif f c s =
      (let a := c.s 1 f.sa.toNat
       let r := icvtfOp .rne (a.val.setWidth 32)
       .ok (addResult s c (.s f.sd.toNat (BitVec.ofNat 64 r.1.toNat) a.tag) r.2 f.lat 4)) := by
  simp only [fxSfcvtif, extract_eq_setWidth, BitVec.ofNat_toNat]

theorem fxSfcvtfi_eq (f : S1Form) (c : Ctx) (s : State) :
    fxSfcvtfi f c s =
      (let a := c.s 1 f.sa.toNat
       let r := fcvtiOp (c.switched s (·.bt002)) .rz (a.val.setWidth 32)
       .ok (addResult s c (.s f.sd.toNat (BitVec.ofInt 64 r.1.toInt) a.tag) r.2 f.lat 4)) := by
  simp only [fxSfcvtfi, extract_eq_setWidth]
  rfl

/-- Settles O6: the operands are the low 32 bits (`extract_eq_setWidth`), and the flags are in flight with the result (`acts_sf`,
`acts_result`). -/
theorem scalarFloatOperationsRoundToNearest : Obligations.ScalarFloatOperationsRoundToNearest :=
  ⟨fun _ => ⟨acts_sf rfl rfl, acts_sf rfl rfl, acts_sf rfl rfl, acts_sf rfl rfl, acts_sf rfl rfl⟩,
    fun f => acts_result rfl fun u c x => fxSfcvtif_eq f c (u.withHctxs x),
    fun f => acts_result rfl fun u c x => fxSfcvtfi_eq f c (u.withHctxs x)⟩

end Sys2Proof.Claims
end

section
/-! CHKE in a herd-context whose pushed elements still stand: it waits for a staging record, as every bundle does (R292), so that
O7's condition, that nothing is queued or in flight, does not make it commit. -/

namespace Sys2Proof.Machine
open Sys2Proof.Claims

/-- A bundle does not issue while elements that its herd-context pushed stand: the instance waits for a staging record (R292). -/
theorem issueOne_pushed (i : Instr) (s : State) (id : Nat) (h : HerdCtx) (hc : s.cur = some id)
    (hh : (landAll s id).hc? id = some h) (hs : h.hstate = .running) (hp : h.pushed = true) :
    issueOne i s = .next (waitForStage (landAll s id) h) := by
  simp [issueOne, issueBundle, hc, landLive_running s id h hh hs, hh, hs, hp]

theorem waitForStage_hc (s : State) (h : HerdCtx) (id : Nat) : (waitForStage s h).hc? id = s.hc? id := by
  unfold State.hc? waitForStage
  rw [State.modInst_hctxs]

/-- A commit raises the virtual cycle count by 1 (R58). -/
theorem committed_vcc (t : State) (id : Nat) (h : HerdCtx) (n : Nat) :
    ((committed t id h n).hc? id).map (·.vcc) = ((t.hc? id).map (·.vcc)).map (· + 1) := by
  have hov : (touchOverlay t h).hc? id = t.hc? id := by
    unfold State.hc?
    rw [touchOverlay_hctxs]
  unfold committed
  dsimp only
  rw [State.modHc_hc, hov, Option.map_map, Option.map_map]
  rfl

theorem onMembers_vcc (u : State) (id : Nat) (h : HerdCtx) (sl : Nat) (g : BitVec 4) (upd : Ctx → Member → Member) :
    ((onMembers u id h sl g upd).hc? id).map (·.vcc) = (u.hc? id).map (·.vcc) := by
  unfold onMembers
  rw [State.modHc_hc, Option.map_map]
  rfl

/-! ### A herd-context whose one pushed element finds no staging record -/

/-- An output stream of one 32-bit element at address 0, which has been pushed and is not written yet. -/
def pushedStream : Strm :=
  { recd := some { base := 0, ext := [1, 1, 1, 1], str := [1, 0, 0, 0], fmt := 1, space := 0, flags := 1, popn := 1, rsv46 := 0,
                   itab := 0, idim := 0, ilog2 := 0, ifmt := 0, rsv60 := 0 }
    sys := true, scope := 0, pos := 1, held := none, ahead := [], bte := [],
    out := [⟨.mem 0, [1, 0, 0, 0], none, false⟩], met := none, dropped := [] }

def pushedMember : Member := placedMember.setStrm 0 pushedStream

def pushedHc : HerdCtx := { placedHc with members := [pushedMember] }

/-- The placed node with its writes staged. -/
def stagedNode : Node := { placedNode with desc := lset placedNode.desc 2 1 }

/-- The CHKE that the herd-context stands before. -/
def chkeAlone : Instr := .chke ⟨0, 0, 3, 0⟩

/-- Herd-context 0 has the turn before `chkeAlone`; its partition has no ways of L2 and an empty staging area. -/
def stageFull : State :=
  let s := placeWords State.reset (encode chkeAlone)
  { (s.modPart 0 fun p => { p with nodes := [(0, stagedNode)] }).setHc 0 pushedHc with agenda := [], cur := some 0 }

theorem stageFull_hc : (landAll stageFull 0).hc? 0 = some pushedHc := by rfl

theorem pushedHc_pushed : pushedHc.pushed = true := by decide

/-- `stageFull` meets the condition under which O7 has CHKE commit. -/
theorem stageFull_drained : Drained stageFull 0 pushedHc (bundleOf chkeAlone) := by
  refine ⟨rfl, stageFull_hc, rfl, rfl, by decide, by decide, ?_, by decide, rfl, by decide⟩
  intro m hm
  rw [List.mem_singleton.mp hm]
  rfl

end Sys2Proof.Machine

namespace Sys2Proof.Claims
open Sys2Proof.Machine

/-- Refutes O7: its last clause. In `stageFull` nothing is in flight or queued, yet CHKE does not commit: an element that the
herd-context pushed finds no staging record, so the instance waits for one (R292), and the virtual cycle count does not rise. -/
theorem not_specialRegisterMoves : ¬ Obligations.SpecialRegisterMoves := by
  unfold Obligations.SpecialRegisterMoves
  intro h
  obtain ⟨-, -, -, -, -, -, -, -, hchke⟩ := h
  obtain ⟨hcur, hhc, hrun, -⟩ := stageFull_drained
  have hcommits := hchke ⟨0, 0, 3, 0⟩ stageFull 0 pushedHc stageFull_drained
  rw [exec_solo _ (.inl rfl), issueOne_pushed _ stageFull 0 pushedHc hcur hhc hrun pushedHc_pushed] at hcommits
  injection hcommits with hstate
  have hcount := congrArg (fun t => (t.hc? 0).map (·.vcc)) hstate
  dsimp only at hcount
  rw [waitForStage_hc, committed_vcc, onMembers_vcc, stageFull_hc] at hcount
  exact absurd (Option.some.inj hcount) (by decide)

end Sys2Proof.Claims
end

section
/-! The functions of the V slot's operations, as their rules write them (R170..R180, Tables 3.6 and 8.3), and operations whose
sources and destination are registers. -/

namespace Sys2Proof.Machine
open Sys2Proof.Claims

/-! ### Arithmetic and shifts of lanes (R175) -/

theorem add_eq_ofNat {w : Nat} (a b : BitVec w) : a + b = BitVec.ofNat w (a.toNat + b.toNat) := by
  rw [BitVec.ofNat_add, BitVec.ofNat_toNat, BitVec.ofNat_toNat, BitVec.setWidth_eq, BitVec.setWidth_eq]

theorem sub_eq_ofInt_toNat {w : Nat} (a b : BitVec w) : a - b = BitVec.ofInt w ((a.toNat : Int) - b.toNat) := by
  rw [Int.sub_eq_add_neg, BitVec.ofInt_add, BitVec.ofInt_neg, BitVec.ofInt_natCast, BitVec.ofInt_natCast, BitVec.ofNat_toNat,
    BitVec.ofNat_toNat, BitVec.setWidth_eq, BitVec.setWidth_eq, BitVec.sub_eq_add_neg]

theorem mul_eq_ofNat {w : Nat} (a b : BitVec w) : a * b = BitVec.ofNat w (a.toNat * b.toNat) := by
  rw [BitVec.ofNat_mul, BitVec.ofNat_toNat, BitVec.ofNat_toNat, BitVec.setWidth_eq, BitVec.setWidth_eq]

/-- The high half of a lane's product (IMULH). -/
theorem laneMulHigh_eq (a b : W32) :
    (a.signExtend 64 * b.signExtend 64).extractLsb' 32 32 = BitVec.ofInt 32 (a.toInt * b.toInt / 2 ^ 32) := by
  have hproduct : a.signExtend 64 * b.signExtend 64 = BitVec.ofInt 64 (a.toInt * b.toInt) := by
    rw [BitVec.ofInt_mul]
    rfl
  rw [hproduct]
  generalize a.toInt * b.toInt = z
  apply BitVec.eq_of_toNat_eq
  rw [extract_toNat, BitVec.toNat_ofInt, BitVec.toNat_ofInt]
  norm_num
  omega

theorem laneShiftLeft_eq (a b : W32) : a <<< laneShift b = BitVec.ofNat 32 (a.toNat * 2 ^ (b.toNat % 32)) := by
  rw [laneShift_eq]
  apply BitVec.eq_of_toNat_eq
  simp [Nat.shiftLeft_eq]

theorem laneShiftRight_eq (a b : W32) : a >>> laneShift b = BitVec.ofNat 32 (a.toNat / 2 ^ (b.toNat % 32)) := by
  rw [laneShift_eq, ← Nat.shiftRight_eq_div_pow, ← BitVec.toNat_ushiftRight, BitVec.ofNat_toNat, BitVec.setWidth_eq]

theorem laneArithmeticShift_eq (a b : W32) :
    a.sshiftRight (laneShift b) = BitVec.ofInt 32 (a.toInt / 2 ^ (b.toNat % 32)) := by
  rw [laneShift_eq, BitVec.sshiftRight, Int.shiftRight_eq_div_pow]
  norm_cast

theorem smin32_eq_ofInt (a b : W32) : smin32 a b = BitVec.ofInt 32 (min a.toInt b.toInt) := by
  rw [smin32_eq]
  split
  · rw [min_eq_left (by omega), BitVec.ofInt_toInt]
  · rw [min_eq_right (by omega), BitVec.ofInt_toInt]

theorem smax32_eq_ofInt (a b : W32) : smax32 a b = BitVec.ofInt 32 (max a.toInt b.toInt) := by
  rw [smax32_eq]
  split
  · rw [max_eq_right (by omega), BitVec.ofInt_toInt]
  · rw [max_eq_left (by omega), BitVec.ofInt_toInt]

theorem umin32_eq_ofNat (a b : W32) : umin32 a b = BitVec.ofNat 32 (min a.toNat b.toNat) := by
  rw [umin32_eq]
  split
  · rw [min_eq_left (by omega), BitVec.ofNat_toNat, BitVec.setWidth_eq]
  · rw [min_eq_right (by omega), BitVec.ofNat_toNat, BitVec.setWidth_eq]

theorem umax32_eq_ofNat (a b : W32) : umax32 a b = BitVec.ofNat 32 (max a.toNat b.toNat) := by
  rw [umax32_eq]
  split
  · rw [max_eq_right (by omega), BitVec.ofNat_toNat, BitVec.setWidth_eq]
  · rw [max_eq_left (by omega), BitVec.ofNat_toNat, BitVec.setWidth_eq]

theorem low32_eq_ofNat (a : Word) : a.extractLsb' 0 32 = BitVec.ofNat 32 a.toNat := by
  rw [extract_eq_setWidth, BitVec.ofNat_toNat]

/-! ### BF16 halves (R174) -/

theorem append16_eq_ofNat (y x : BitVec 16) : y ++ x = BitVec.ofNat 32 (x.toNat + y.toNat * 2 ^ 16) := by
  apply BitVec.eq_of_toNat_eq
  rw [toNat_app, BitVec.toNat_ofNat]
  omega

theorem bfupOp_eq (hi : Bool) (a : W32) :
    bfupOp hi a = bf16ToW32 (BitVec.ofNat 16 (if hi then a.toNat / 2 ^ 16 else a.toNat)) := by
  unfold bfupOp
  congr 1
  apply BitVec.eq_of_toNat_eq
  cases hi with
  | false => simp
  | true => rw [if_pos rfl, if_pos rfl, extract_toNat, BitVec.toNat_ofNat]

/-! ### The conditions on lanes (R172, Table 3.6) -/

theorem decide_lt_or_beq {α β : Type} [DecidableEq α] [LinearOrder β] {f : α → β} (hf : f.Injective) (a b : α) :
    (decide (f a < f b) || a == b) = decide (f a ≤ f b) := by
  rw [beq_eq_decide, ← Bool.decide_or, decide_eq_decide, le_iff_lt_or_eq, hf.eq_iff]

theorem condOf_eq_laneCondition (n : Nat) (a b : W32) : condOf n (a.slt b) (a.ult b) (a == b) = laneCondition n a b := by
  have hsle := decide_lt_or_beq (fun _ _ => BitVec.eq_of_toInt_eq) a b
  have hule := decide_lt_or_beq (fun _ _ => BitVec.eq_of_toNat_eq) a b
  rw [BitVec.slt_eq_decide, BitVec.ult_eq_decide]
  match n with
  | 0 => exact beq_eq_decide a b
  | 1 => exact (congrArg (! ·) (beq_eq_decide a b)).trans (not_decide_eq Iff.rfl)
  | 2 => rfl
  | 3 => exact hsle
  | 4 => rfl
  | 5 => exact hule
  | 6 => exact (congrArg (! ·) hsle).trans (not_decide_eq not_le)
  | 7 => exact not_decide_eq not_lt
  | 8 => exact (congrArg (! ·) hule).trans (not_decide_eq not_le)
  | n + 9 => exact not_decide_eq not_lt

theorem icmpOp_eq (n : Nat) (a b : W32) : icmpOp n a b = (laneCondition n a b, 0) :=
  congrArg (·, 0) (condOf_eq_laneCondition n a b)

/-! ### Masks -/

theorem maskOf_getLsbD (p : Nat → Bool) (i : Nat) (hi : i < 256) : (maskOf p).getLsbD i = p i := by
  have hjoin : maskOf p = (List.range 256).foldl (fun x j => x ||| if p j then BitVec.twoPow 256 j else 0) 0 := by
    unfold maskOf
    congr 1
    funext x j
    cases p j <;> simp
  have hbit (j : Nat) : (if p j then BitVec.twoPow 256 j else 0).getLsbD i = (p j && decide (i = j)) := by
    cases p j <;> simp [hi]
  rw [hjoin, getLsbD_foldl_or, Bool.eq_iff_iff]
  simp only [hbit]
  simp [hi]

/-! ### Integer reductions (R179) -/

/-- An inactive lane, which holds the identity, leaves the fold as it is. -/
theorem intReduce_eq_foldLanes {ident : W32} {op : W32 → W32 → W32} (hident : ∀ x, op x ident = x) (act : Mask)
    (l : List W32) : intReduce ident op act l = (foldLanes ident op act l, 0) := by
  unfold intReduce foldLanes withIdentity
  rw [List.foldl_map]
  congr 2
  funext x (y, i)
  dsimp only
  split
  · rfl
  · exact hident x

theorem smax32_intMin (x : W32) : smax32 x 0x80000000 = x := by
  have hle : (0x80000000 : W32).toInt ≤ x.toInt := BitVec.le_toInt x
  rw [smax32_eq_ofInt, max_eq_left hle, BitVec.ofInt_toInt]

theorem smin32_intMax (x : W32) : smin32 x 0x7FFFFFFF = x := by
  have hle : x.toInt ≤ (0x7FFFFFFF : W32).toInt := Int.le_of_lt_add_one BitVec.toInt_lt
  rw [smin32_eq_ofInt, min_eq_left hle, BitVec.ofInt_toInt]

end Sys2Proof.Machine

namespace Sys2Proof.Claims
open Sys2Proof.Machine

/-! ### From an operation's function to its bundle -/

/-- A V operation that puts one result in flight, whatever the state holds. -/
theorem acts_vector {i : Instr} {r : State → Ctx → Res} {fl : State → Ctx → FFlags} {lat : BitVec 4} {least : Nat}
    (hk : i.kind = .vector) (hfx : ∀ (u : State) (c : Ctx) (x : AMap HerdCtx),
      slotFx i c (u.withHctxs x) = .ok (addResult (u.withHctxs x) c (r u c) (fl u c) lat least)) :
    Acts i fun u c m => m.withResult c.v (r u c) (fl u c) lat least :=
  acts_of i (.inr (.inl hk)) (exec_solo i (.inr (.inl hk))) _ hfx fun _ _ m hm => withResult_fits m _ _ _ _ _ hm

section
variable {i : Instr} {f : VForm} {least na : Nat}

/-- A V operation that gives its active lanes of VD values without a flag. -/
theorem acts_register {l : Ctx → List W32} {t : Ctx → Tag} (hk : i.kind = .vector) (h : f.sf = 0)
    (hi : ∀ c s, slotFx i c s = vResult s c f (c.k 4 f.k.toNat) (l c) 0 (t c) least false) :
    Acts i fun _ c m => m.withResult c.v (.v (vdest c f) (c.k 4 f.k.toNat) (l c) (t c)) 0 f.lat least :=
  acts_vector hk fun u c x => (hi c (u.withHctxs x)).trans (vResult_regs _ c f h _ _ _ _ least false)

/-- A lane operation on registers whose lane function may look at the image's switches. -/
theorem acts_switchedLanes {op : State → Ctx → W32 → W32 → W32 → W32 × FFlags} (hk : i.kind = .vector) (h : f.sf = 0)
    (hi : ∀ (u : State) (c : Ctx) (x : AMap HerdCtx),
      slotFx i c (u.withHctxs x) = vLanes f least (op u c) na c (u.withHctxs x)) :
    Acts i fun u c m => laneResult f least na (op u c) u c m :=
  acts_vector hk fun u c x => (hi u c x).trans (vLanes_regs f h least na (op u c) c (u.withHctxs x))

/-- A lane operation on registers, from the rule's form of its function. -/
theorem acts_lanes {op op' : W32 → W32 → W32 → W32 × FFlags} (hk : i.kind = .vector) (h : f.sf = 0)
    (hop : ∀ a b d, op a b d = op' a b d) (hi : slotFx i = vLanes f least op na) : Acts i (laneResult f least na op') := by
  obtain rfl : op = op' := funext fun a => funext fun b => funext fun d => hop a b d
  exact acts_switchedLanes (op := fun _ _ => op) hk h fun u c x => congrFun (congrFun hi c) (u.withHctxs x)

/-- An integer operation on registers, from the rule's form of its function. -/
theorem acts_intLanes {op op' : W32 → W32 → W32} (hk : i.kind = .vector) (h : f.sf = 0) (hop : ∀ a b, op a b = op' a b)
    (hi : slotFx i = vInt f op) : Acts i (intLanes f op') :=
  acts_lanes hk h (fun a b _ => congrArg (·, 0) (hop a b)) hi

/-- A compare on registers, from the rule's form of its condition. -/
theorem acts_compare {cond cond' : W32 → W32 → Bool × FFlags} (hk : i.kind = .vector) (h : f.sf = 0)
    (hcond : ∀ a b, cond a b = cond' a b) (hi : slotFx i = vCompare f least cond) : Acts i (compareResult f least cond') := by
  obtain rfl : cond = cond' := funext fun a => funext (hcond a)
  refine acts_of i (.inr (.inl hk)) (exec_solo i (.inr (.inl hk))) _ (fun u c x => ?effect) fun _ _ m hm => ?room
  case effect => exact (congrFun (congrFun hi c) (u.withHctxs x)).trans (vCompare_regs f h least cond c _)
  case room => exact withResult2_fits _ _ _ _ _ _ _ _ ((consumed_hasRoom m _).trans hm)

/-- A reduction of a register whose function may look at the image's switches. -/
theorem acts_reduce {op : State → Ctx → Mask → List W32 → W32 × FFlags} (hk : i.kind = .vector) (h : f.sf = 0)
    (hi : ∀ (u : State) (c : Ctx) (x : AMap HerdCtx), slotFx i c (u.withHctxs x) = vReduce f (op u c) c (u.withHctxs x)) :
    Acts i (reduceResult f op) :=
  acts_vector hk fun u c x => (hi u c x).trans (vReduce_regs f h (op u c) c (u.withHctxs x))

/-- An integer reduction, from the rule's form of its step, whose identity leaves every lane as it is. -/
theorem acts_intReduce {ident : W32} {op op' : W32 → W32 → W32} (hk : i.kind = .vector) (h : f.sf = 0)
    (hident : ∀ x, op x ident = x) (hop : ∀ a b, op a b = op' a b) (hi : slotFx i = vReduce f (intReduce ident op)) :
    Acts i (reduceResult f fun _ _ act l => (foldLanes ident op' act l, 0)) := by
  obtain rfl : op = op' := funext fun a => funext (hop a)
  refine acts_reduce hk h fun u c x => (congrFun (congrFun hi c) (u.withHctxs x)).trans ?_
  rw [show intReduce ident op = _ from funext fun act => funext (intReduce_eq_foldLanes hident act)]

theorem acts_mask {op : Mask → Mask → Mask} (hk : i.kind = .vector) (hi : slotFx i = vKlog f op) :
    Acts i (maskResult f op) :=
  acts_vector hk fun u c x => congrFun (congrFun hi c) (u.withHctxs x)

end

/-! ### Float operations (R170, R171, R173, R174) -/

theorem floatArithmeticOnLanes : FloatArithmeticOnLanes := fun _ h =>
  ⟨acts_lanes rfl h (fun _ _ _ => rfl) rfl, acts_lanes rfl h (fun _ _ _ => rfl) rfl, acts_lanes rfl h (fun _ _ _ => rfl) rfl,
    acts_lanes rfl h (fun _ _ _ => rfl) rfl, acts_lanes rfl h (fun _ _ _ => rfl) rfl, acts_lanes rfl h (fun _ _ _ => rfl) rfl⟩

theorem floatMovesAndConversionsOnLanes : FloatMovesAndConversionsOnLanes := by
  intro f h
  refine ⟨acts_lanes rfl h (fun _ _ _ => rfl) rfl, acts_lanes rfl h (fun _ _ _ => rfl) rfl, ?fabs, ?fneg, ?fcvti,
    acts_lanes rfl h (fun _ _ _ => rfl) rfl, ?bfpk, ?bfup⟩
  case fabs => exact acts_lanes rfl h (fun a _ _ => congrArg (·, 0) (and_signMask a)) rfl
  case fneg => exact acts_lanes rfl h (fun a _ _ => congrArg (·, 0) (xor_signBit a)) rfl
  case fcvti => exact acts_switchedLanes rfl h fun _ _ _ => rfl
  case bfpk => exact acts_lanes rfl h (fun _ _ _ => congrArg (·, _) (append16_eq_ofNat _ _)) rfl
  case bfup => exact acts_lanes rfl h (fun a _ _ => congrArg (·, 0) (bfupOp_eq _ a)) rfl

/-- Settles O8: each operation puts its lane function's results in flight (`acts_lanes`); where the model writes that function
differently from the rule, the two are equal by `and_signMask`, `xor_signBit`, `append16_eq_ofNat` and `bfupOp_eq`. -/
theorem floatOperationsOnLanes : Obligations.FloatOperationsOnLanes :=
  ⟨floatArithmeticOnLanes, floatMovesAndConversionsOnLanes⟩

/-! ### Integer operations (R175) -/

/-- Settles O9: each operation's lane function is the one of Table 8.3 (`laneMulHigh_eq`, `smin32_eq_ofInt` and the other
equations), and its results are in flight without a flag (`acts_intLanes`). -/
theorem integerOperationsOnLanes : Obligations.IntegerOperationsOnLanes := fun _ h =>
  ⟨acts_intLanes rfl h add_eq_ofNat rfl, acts_intLanes rfl h sub_eq_ofInt_toNat rfl, acts_intLanes rfl h mul_eq_ofNat rfl,
    acts_intLanes rfl h laneMulHigh_eq rfl, acts_intLanes rfl h (fun _ _ => rfl) rfl, acts_intLanes rfl h (fun _ _ => rfl) rfl,
    acts_intLanes rfl h (fun _ _ => rfl) rfl, acts_intLanes rfl h laneShiftLeft_eq rfl,
    acts_intLanes rfl h laneShiftRight_eq rfl, acts_intLanes rfl h laneArithmeticShift_eq rfl,
    acts_intLanes rfl h smin32_eq_ofInt rfl, acts_intLanes rfl h smax32_eq_ofInt rfl,
    acts_intLanes rfl h umin32_eq_ofNat rfl, acts_intLanes rfl h umax32_eq_ofNat rfl⟩

/-! ### Compares, selection and data movement (R172, R176..R178) -/

theorem vectorComparesPartitionTheActiveLanes : VectorComparesPartitionTheActiveLanes :=
  ⟨fun f h => ⟨acts_compare rfl h (fun _ _ => rfl) rfl, acts_compare rfl h (icmpOp_eq (f.vc.toNat % 16)) rfl⟩,
    fun _ _ i hi => ⟨maskOf_getLsbD _ i hi, maskOf_getLsbD _ i hi⟩⟩

theorem selectionAndDataMovementOnLanes : SelectionAndDataMovementOnLanes := by
  intro f h
  refine ⟨acts_register rfl h fun c s => ?vsel, acts_lanes rfl h (fun _ _ _ => rfl) rfl,
    acts_register rfl h fun c s => ?vbcst, acts_register rfl h fun c s => ?vperm, acts_register rfl h fun c s => ?vrot,
    acts_register rfl h fun _ _ => rfl, acts_vector rfl fun u c x => ?vext, acts_vector rfl fun u c x => ?vins⟩
  case vsel =>
    show fxVsel f c s = _
    simp only [fxVsel, vInputs_regs s c f h, mapLanes_eq, raised_regSource, fflags_or_zero]
    rfl
  case vbcst =>
    show fxVbcst f c s = _
    rw [fxVbcst, low32_eq_ofNat]
    rfl
  case vperm =>
    show fxVperm f c s = _
    simp only [fxVperm, vInputs_regs s c f h, mapLanes_eq, raised_regSource, fflags_or_zero]
    rfl
  case vrot =>
    show fxVrot f c s = _
    simp only [fxVrot, vInputs_regs s c f h, mapLanes_eq]
    rfl
  case vext =>
    show fxVext f c _ = _
    rw [fxVext, vInputs_regs _ c f h]
    rfl
  case vins =>
    show fxVins f c _ = _
    rw [fxVins, if_neg (by rw [h]; decide), low32_eq_ofNat]
    rfl

/-- Settles O10: the compares consume their sources' tags and put both masks in flight (`acts_compare`), whose bits
`maskOf_getLsbD` gives; the other operations put one result in flight (`acts_register`, `acts_vector`). -/
theorem comparesSelectionAndDataMovementOnLanes : Obligations.ComparesSelectionAndDataMovementOnLanes :=
  ⟨vectorComparesPartitionTheActiveLanes, selectionAndDataMovementOnLanes⟩

/-! ### Reductions and masks (R179, R180) -/

/-- KFROMV consumes its source's tag and puts one mask in flight. -/
theorem acts_kfromv (f : VForm) (h : f.sf = 0) : Acts (.kfromv f) fun _ c m =>
    (m.consumed (vreg c 1 f.va).tag).withResult c.v (.k (f.vd.toNat % 16)
      (maskOf fun i => (c.k 4 f.k.toNat).getLsbD i && decide (vlane (vreg c 1 f.va) i ≠ 0))) 0 f.lat 2 := by
  have hsolo : isSolo (.kfromv f) := .inr (.inl rfl)
  refine acts_of _ hsolo (exec_solo _ hsolo) _ (fun u c x => ?effect) fun _ _ m hm => ?room
  case effect =>
    show fxKfromv f c _ = _
    rw [fxKfromv, vInputs_regs _ c f h]
    simp only [addResult_eq, consumeTag_modMember, bne, beq_eq_decide, ← decide_not]
    rfl
  case room => exact withResult_fits _ _ _ _ _ _ ((consumed_hasRoom m _).trans hm)

theorem fxKpopc_eq (f : VForm) (c : Ctx) (s : State) :
    fxKpopc f c s = .ok (addResult s c (.s (f.vd.toNat % 64) (BitVec.ofNat 64
      ((List.range 256).filter fun i => (c.k 1 (f.va.toNat % 16)).getLsbD i).length) none) 0 f.lat 2) := by
  unfold fxKpopc
  simp only [foldl_count, Nat.zero_add]
  rfl

/-- Settles O11: a reduction puts its function's value in flight for all lanes (`acts_reduce`), an integer one being the fold of
the active lanes (`intReduce_eq_foldLanes`); a mask operation puts its mask in flight, and KPOPC the number of lanes set. -/
theorem reductionsAndMaskOperations : Obligations.ReductionsAndMaskOperations :=
  ⟨fun f h => ⟨acts_reduce rfl h fun _ _ _ => rfl, acts_reduce rfl h fun _ _ _ => rfl, acts_reduce rfl h fun _ _ _ => rfl,
      acts_intReduce rfl h (fun x => BitVec.add_zero x) add_eq_ofNat rfl,
      acts_intReduce rfl h smax32_intMin smax32_eq_ofInt rfl, acts_intReduce rfl h smin32_intMax smin32_eq_ofInt rfl,
      acts_kfromv f h⟩,
    fun f => ⟨acts_mask rfl rfl, acts_mask rfl rfl, acts_mask rfl rfl, acts_mask rfl rfl,
      acts_vector rfl fun u c x => fxKpopc_eq f c (u.withHctxs x)⟩⟩

end Sys2Proof.Claims
end

section
/-! Accesses through handles: what each form does to its member and to memory once its handle's checks pass (R190, R193..R195, R200,
R203, R205, R206). -/

namespace Sys2Proof.Machine
open Sys2Proof.Claims

theorem Grows.of_quiet {s t : State} (id k : Nat) (h : Quiet s t) : Grows id k 0 s t := Grows.of_hctxs h.1

/-- After a step that puts nothing in flight. -/
theorem Grows.after {id k n : Nat} {s t r : State} (h : Grows id k 0 s t) (h' : Grows id k n t r) : Grows id k n s r :=
  Nat.zero_add n ▸ h.trans h'

/-- Poison that a write carries to host memory is consumed, and puts nothing in flight (R421). -/
theorem Grows.consumeIf {id k : Nat} {s t : State} (b : Bool) (g : Tag) (h : Grows id k 0 s t) :
    Grows id k 0 s (if b then consumeTag t id k g else t) := by
  cases b with
  | false => exact h
  | true => exact h.after (Grows.consume _ _ _ _)

/-- An access that passes its checks reaches the physical address of its offset. -/
theorem handleAccess_passes {c : Ctx} {hf : BitVec 4} {a : Ask} {off : Int} {n al : Nat} (h : passes c hf a off n al) (op : Nat) :
    handleAccess c hf a off n al op = .ok (physical c hf off) := handleAccess_ok c hf a off n al op h

/-! ### The checks (R190) -/

theorem handleFault_invalid {h : Handle} (hv : h.valid = false) (a : Ask) (off : Int) (n al : Nat) :
    handleFault h a off n al = some (h.fcause.getD .handleInvalid) := by simp [handleFault, hv]

theorem handleFault_barred {h : Handle} {a : Ask} {k : Cause} (hv : h.valid = true) (ha : a.permitted h = some k) (off : Int)
    (n al : Nat) : handleFault h a off n al = some k := by simp [handleFault, hv, ha]

theorem handleFault_permitted {h : Handle} {a : Ask} (hv : h.valid = true) (ha : a.permitted h = none) (off : Int) (n al : Nat) :
    handleFault h a off n al = if off < 0 ∨ 2 ^ sizeLog h.size < off + n then some .offsetRange
      else if off % al ≠ 0 then some .misalign else none := by simp [handleFault, hv, ha, Handle.size']

/-! ### Scalar loads and stores (R193, R194) -/

section
variable {f : SMemForm} {n : Nat} {c : Ctx} {s : State}

theorem loadForm_passes (h : passes c f.h .load (offset c f.so f.imm.toInt) n 1) (op : Nat) (ext : Nat → Word) :
    loadForm f n op ext c s = .ok (loadOf f n ext c s) := by
  unfold loadForm
  rw [show c.off f.so f.imm.toInt = offset c f.so f.imm.toInt from rfl, handleAccess_passes h]
  rfl

theorem loadOf_grows (ext : Nat → Word) : Grows c.id c.mi 1 s (loadOf f n ext c s) :=
  ((Grows.consume _ _ _ _).after (.of_quiet _ _ (quiet_arrive _ _ _ _))).after (Grows.pending c _ _ _ _ _)

/-- A write that is taken is the model's store, and puts nothing in flight. -/
theorem storeTo_some {pa : Nat} {d : List Byte} {t : Tag} {u : State} (h : storeTo c pa d t s = some u) :
    storeBytes s c pa d t = .ok u ∧ Grows c.id c.mi 0 s u := by
  obtain ⟨v, hv, rfl⟩ := Option.map_eq_some_iff.mp h
  exact ⟨by simp only [storeBytes, hv], Grows.consumeIf _ _ (.of_quiet _ _ (quiet_writeBytes _ _ _ _ _ _ hv))⟩

theorem storeOf_some {u : State} (hp : passes c f.h .store (offset c f.so f.imm.toInt) n 1) (h : storeOf f n c s = some u)
    (op : Nat) : storeForm f n op c s = .ok u := by
  unfold storeForm
  rw [show c.off f.so f.imm.toInt = offset c f.so f.imm.toInt from rfl, handleAccess_passes hp]
  exact (storeTo_some h).1

theorem storeOf_grows : Grows c.id c.mi 0 s ((storeOf f n c s).getD s) := by
  cases h : storeOf f n c s with
  | none => exact Grows.of_hctxs rfl
  | some u => exact (Grows.consume _ _ _ _).after (storeTo_some h).2

end

/-! ### Vector loads and stores (R195) -/

theorem readLanes_append (w : Who) (u : Nat) (l r : List (Option Nat)) (s : State) :
    readLanes s w u (l ++ r) =
      ((readLanes (readLanes s w u l).1 w u r).1, (readLanes s w u l).2 ++ (readLanes (readLanes s w u l).1 w u r).2) := by
  induction l generalizing s with
  | nil => rfl
  | cons a l ih => cases a with
    | none => simp only [List.cons_append, readLanes, ih]
    | some a => simp only [List.cons_append, readLanes, ih]

section
variable {f : VMemForm} {u : Nat} {c : Ctx} {s : State}

/-- No lane traps when every active lane passes. -/
theorem vCheck_none {a : Ask} (h : lanesPass c f a u) (op : Nat) : vCheck c f a u op (c.k 4 f.k.toNat) = none := by
  unfold vCheck
  rw [List.findSome?_eq_none_iff]
  intro i hi
  split
  · next hact =>
    have hp : passes c f.h a (laneOffset c f u i) u u := h i (List.mem_range.mp hi) hact
    exact Option.map_eq_none_iff.mpr hp
  · rfl

/-- The address that lane `i` reads at, when it is active. -/
def laneAddress (c : Ctx) (f : VMemForm) (u i : Nat) : Option Nat :=
  if (c.k 4 f.k.toNat).getLsbD i then some (vPa c f u i) else none

theorem lanesRead_succ (i : Nat) : lanesRead c f u s (i + 1) =
    if (c.k 4 f.k.toNat).getLsbD i then
      arrive (lanesRead c f u s i) c.who (physical c f.h (laneOffset c f u i)) u
    else lanesRead c f u s i := by
  unfold lanesRead
  rw [List.range_succ, List.foldl_append]
  rfl

/-- What lane `i` reads, once the active lanes below it have read theirs. -/
def laneBrought (c : Ctx) (f : VMemForm) (u : Nat) (s : State) (i : Nat) : List Byte × Tag :=
  if (c.k 4 f.k.toNat).getLsbD i then
    (broughtBytes (lanesRead c f u s i) c.who (physical c f.h (laneOffset c f u i)) u,
      rangeTag (lanesRead c f u s i) c.who (physical c f.h (laneOffset c f u i)) u)
  else ([], none)

/-- The lanes read one after the other, the active ones each in the state that those below it leave. -/
theorem readLanes_range (n : Nat) : readLanes s c.who u ((List.range n).map (laneAddress c f u)) =
    (lanesRead c f u s n, (List.range n).map (laneBrought c f u s)) := by
  induction n with
  | zero => rfl
  | succ n ih =>
    rw [List.range_succ, List.map_append, List.map_append, readLanes_append, ih, lanesRead_succ]
    by_cases hact : (c.k 4 f.k.toNat).getLsbD n = true
    · simp only [List.map_cons, List.map_nil, laneAddress, laneBrought, hact, if_true]
      rfl
    · simp only [List.map_cons, List.map_nil, laneAddress, laneBrought, hact, Bool.false_eq_true, if_false]
      rfl

theorem vloadForm_passes (h : lanesPass c f .load u) (op : Nat) (ext : Nat → W32) :
    vloadForm f u op ext c s = .ok (vloadOf f u ext c s) := by
  have hlanes := readLanes_range (f := f) (u := u) (c := c) (s := consumeTag s c.id c.mi (c.s 5 f.so.toNat).tag) 256
  have helem : ∀ i ∈ List.range 256, (if (c.k 4 f.k.toNat).getLsbD i then
      ext (natOf (((List.range 256).map (laneBrought c f u (consumeTag s c.id c.mi (c.s 5 f.so.toNat).tag))).getD i ([], none)).1)
        else 0) = if (c.k 4 f.k.toNat).getLsbD i then
      ext (natOf (broughtBytes (lanesRead c f u (consumeTag s c.id c.mi (c.s 5 f.so.toNat).tag) i) c.who
        (physical c f.h (laneOffset c f u i)) u)) else 0 := by
    intro i hi
    split
    · next hact => simp [List.mem_range.mp hi, laneBrought, hact]
    · rfl
  have htag : ∀ i ∈ List.range 256, (laneBrought c f u (consumeTag s c.id c.mi (c.s 5 f.so.toNat).tag) i).2 =
      if (c.k 4 f.k.toNat).getLsbD i then
        rangeTag (lanesRead c f u (consumeTag s c.id c.mi (c.s 5 f.so.toNat).tag) i) c.who (physical c f.h (laneOffset c f u i)) u
      else none := by
    intro i _
    unfold laneBrought
    split <;> rfl
  unfold vloadForm vloadOf
  simp only [vCheck_none h]
  rw [show (List.range 256).map (fun i => if (c.k 4 f.k.toNat).getLsbD i then some (vPa c f u i) else none) =
    (List.range 256).map (laneAddress c f u) from rfl, show consumeSo s c f.so = consumeTag s c.id c.mi (c.s 5 f.so.toNat).tag
    from rfl, hlanes]
  simp only [List.map_congr_left helem, List.map_map, Function.comp_def, List.map_congr_left htag]
  rfl

theorem vloadOf_grows (ext : Nat → W32) : Grows c.id c.mi 1 s (vloadOf f u ext c s) := by
  have hread : ∀ t : State, Grows c.id c.mi 0 t (lanesRead c f u t 256) := fun t =>
    .of_quiet _ _ (Quiet.foldl _ (fun _ _ => Quiet.ite _ (quiet_arrive _ _ _ _) (Quiet.refl _)) _ t)
  exact ((Grows.consume _ _ _ _).after (hread _)).after (Grows.pending c _ _ _ _ _)

/-- Steps that may fail to be taken, one after the other: when all are taken, the model's steps that agree with them run. -/
theorem foldStop_of_bind {α : Type} {id k : Nat} (step : State → α → Option State) (fx : State → α → Except Stop State)
    (h : ∀ s a t, step s a = some t → fx s a = .ok t ∧ Grows id k 0 s t) (l : List α) (s t : State)
    (ht : l.foldl (fun s a => s.bind fun s => step s a) (some s) = some t) : foldStop fx l s = .ok t ∧ Grows id k 0 s t := by
  induction l generalizing s with
  | nil => cases ht; exact ⟨rfl, Grows.of_hctxs rfl⟩
  | cons a l ih =>
    have hnone : l.foldl (fun s a => s.bind fun s => step s a) (none : Option State) = none :=
      List.foldlRecOn (motive := (· = none)) l _ rfl fun _ hb _ _ => by rw [hb]; rfl
    rw [List.foldl_cons, Option.bind_some] at ht
    cases hs : step s a with
    | none => rw [hs, hnone] at ht; cases ht
    | some v =>
      rw [hs] at ht
      obtain ⟨hrest, hgrow⟩ := ih v ht
      obtain ⟨hfx, hg⟩ := h s a v hs
      exact ⟨by simp only [foldStop, hfx, hrest], hg.after hgrow⟩

/-- The store of lane `i`, when it is active. -/
def laneStore (c : Ctx) (f : VMemForm) (u : Nat) (elem : W32 → Nat) (s : State) (i : Nat) : Option State :=
  let d := c.m.readV c.seed (c.ix 13) ((c.h.vreg f.vd.toNat).getD 0)
  if (c.k 4 f.k.toNat).getLsbD i then
    storeTo c (physical c f.h (laneOffset c f u i)) (bytesOf u (elem (d.lanes.getD i 0))) d.tag s
  else some s

/-- The same in the model, where a store that is not taken stops the bundle. -/
def laneStoreFx (c : Ctx) (f : VMemForm) (u : Nat) (elem : W32 → Nat) (s : State) (i : Nat) : Except Stop State :=
  let d := c.m.readV c.seed (c.ix 13) ((c.h.vreg f.vd.toNat).getD 0)
  if (c.k 4 f.k.toNat).getLsbD i then
    storeBytes s c (physical c f.h (laneOffset c f u i)) (bytesOf u (elem (d.lanes.getD i 0))) d.tag
  else .ok s

theorem laneStore_some {elem : W32 → Nat} {i : Nat} {t : State} (h : laneStore c f u elem s i = some t) :
    laneStoreFx c f u elem s i = .ok t ∧ Grows c.id c.mi 0 s t := by
  unfold laneStore at h
  unfold laneStoreFx
  dsimp only at h ⊢
  split at h
  · next hact =>
    rw [if_pos hact]
    exact storeTo_some h
  · next hact =>
    cases h
    exact ⟨if_neg hact, Grows.of_hctxs rfl⟩

theorem vstoreOf_eq (elem : W32 → Nat) : vstoreOf f u elem c s =
    (List.range 256).foldl (fun s i => s.bind fun s => laneStore c f u elem s i)
      (some (consumeTag s c.id c.mi (c.s 5 f.so.toNat).tag)) := by
  unfold vstoreOf laneStore
  rfl

theorem vstoreForm_eq (hp : lanesPass c f .store u) (op : Nat) (elem : W32 → Nat) : vstoreForm f u op elem c s =
    foldStop (laneStoreFx c f u elem) (List.range 256) (consumeTag s c.id c.mi (c.s 5 f.so.toNat).tag) := by
  unfold vstoreForm laneStoreFx
  simp only [vCheck_none hp]
  rfl

/-- The lanes' stores, when all are taken, are the model's. -/
theorem vstoreOf_some {elem : W32 → Nat} {t : State} (h : vstoreOf f u elem c s = some t) :
    foldStop (laneStoreFx c f u elem) (List.range 256) (consumeTag s c.id c.mi (c.s 5 f.so.toNat).tag) = .ok t ∧
    Grows c.id c.mi 0 s t := by
  rw [vstoreOf_eq] at h
  obtain ⟨hrun, hg⟩ := foldStop_of_bind _ _ (fun _ _ _ => laneStore_some) _ _ _ h
  exact ⟨hrun, (Grows.consume _ _ _ _).after hg⟩

theorem vstoreOf_grows (elem : W32 → Nat) : Grows c.id c.mi 0 s ((vstoreOf f u elem c s).getD s) := by
  cases h : vstoreOf f u elem c s with
  | none => exact Grows.of_hctxs rfl
  | some t => exact (vstoreOf_some h).2

end

end Sys2Proof.Machine

namespace Sys2Proof.Claims
open Sys2Proof.Machine

/-- An M operation whose effect is known when its checks pass. -/
theorem does_memory {i : Instr} {n : Nat} {pre : Ctx → State → Prop} {eff : Ctx → State → State} (hk : i.kind = .memory)
    (hfx : ∀ c s, pre c s → slotFx i c s = .ok (eff c s)) (hn : n ≤ 2)
    (hg : ∀ c s, Grows c.id c.mi n s (eff c s)) : Does i pre eff :=
  does_of i (.inr (.inr hk)) (exec_solo i (.inr (.inr hk))) pre eff hfx fun c s => (hg c s).mono hn

/-- Settles O13: the checks are made in the order of `handleFault`'s branches. -/
theorem handleChecksFailInOrder : Obligations.HandleChecksFailInOrder := by
  intro h a off n al _
  refine ⟨fun hv => handleFault_invalid hv a off n al, fun k hv ha => handleFault_barred hv ha off n al,
    fun hv ha hr => by rw [handleFault_permitted hv ha, if_pos hr], fun hv ha h0 hn hal => ?misaligned, ?passes⟩
  case misaligned => rw [handleFault_permitted hv ha, if_neg (by omega), if_pos hal]
  case passes =>
    cases hv : h.valid with
    | false => simp [handleFault_invalid hv]
    | true => cases ha : a.permitted h with
      | some k => simp [handleFault_barred hv ha]
      | none =>
        rw [handleFault_permitted hv ha]
        split
        · next hbad => simp; omega
        · next hin =>
          simp only [not_or, not_lt] at hin
          simp [hin.1, hin.2]

theorem loads_of {i : Instr} {f : SMemForm} {n op : Nat} {ext : Nat → Word} (hk : i.kind = .memory)
    (hfx : slotFx i = loadForm f n op ext) : Loads i f n ext :=
  does_memory hk (fun c s hp => hfx ▸ loadForm_passes hp op ext) (by decide) fun _ _ => loadOf_grows ext

theorem stores_of {i : Instr} {f : SMemForm} {n op : Nat} (hk : i.kind = .memory) (hfx : slotFx i = storeForm f n op) :
    Stores i f n := by
  refine does_memory hk (fun c s hp => ?_) (by decide) fun _ _ => storeOf_grows
  obtain ⟨u, hu⟩ := Option.isSome_iff_exists.mp hp.2
  rw [hfx, hu]
  exact storeOf_some hp.1 hu op

/-- Settles O14: a load whose handle passes is `loadOf` (`loadForm_passes`), and a store that finds its records is `storeOf`
(`storeOf_some`). -/
theorem scalarLoadsAndStores : Obligations.ScalarLoadsAndStores :=
  ⟨fun _ => ⟨loads_of rfl rfl, loads_of rfl rfl, loads_of rfl rfl, loads_of rfl rfl, loads_of rfl rfl,
      loads_of rfl rfl, loads_of rfl rfl⟩,
    fun _ => ⟨stores_of rfl rfl, stores_of rfl rfl, stores_of rfl rfl, stores_of rfl rfl⟩⟩

theorem vloads_of {i : Instr} {f : VMemForm} {u op : Nat} {ext : Nat → W32} (hk : i.kind = .memory)
    (hfx : slotFx i = vloadForm f u op ext) : Does i (fun c _ => lanesPass c f .load u) (vloadOf f u ext) :=
  does_memory hk (fun c s hp => hfx ▸ vloadForm_passes hp op ext) (by decide) fun _ _ => vloadOf_grows ext

theorem vstores_of {i : Instr} {f : VMemForm} {u op : Nat} {elem : W32 → Nat} (hk : i.kind = .memory)
    (hfx : slotFx i = vstoreForm f u op elem) :
    Does i (fun c s => lanesPass c f .store u ∧ (vstoreOf f u elem c s).isSome = true)
      fun c s => (vstoreOf f u elem c s).getD s := by
  refine does_memory hk (fun c s hp => ?_) (by decide) fun _ _ => vstoreOf_grows elem
  obtain ⟨t, ht⟩ := Option.isSome_iff_exists.mp hp.2
  rw [hfx, ht]
  exact (vstoreForm_eq hp.1 op elem).trans (vstoreOf_some ht).1

/-- Settles O16: the lanes of a load read one after the other (`readLanes_range`), and those of a store write from lane 0 up
(`vstoreOf_some`), so that of lanes that meet the highest-numbered one's data holds. -/
theorem vectorLoadsAndStoresOverActiveLanes : Obligations.VectorLoadsAndStoresOverActiveLanes := fun _ =>
  ⟨vloads_of rfl rfl, vloads_of rfl rfl, vstores_of rfl rfl, vstores_of rfl rfl⟩

end Sys2Proof.Claims
end

section
/-! What a write leaves of memory, byte by byte (R191): the bytes written, what the writer had staged in their words, and every other
byte as it was. -/

namespace Sys2Proof.Machine
open Sys2Proof.Claims

/-! ### What a node has staged -/

/-- The instance of the accessor's node, if it has one. -/
def Who.inst? (w : Who) (s : State) : Option Inst := w.node.bind (s.inst? w.part ·)

theorem Who.cells_eq (w : Who) (s : State) : w.cells s = ((w.inst? s).map (·.staged)).getD [] := by
  unfold Who.cells Who.inst?
  cases w.node <;> rfl

theorem State.node_modPart (s : State) (p q n : Nat) (f : Part → Part) (hf : ∀ x, (f x).nodes = x.nodes) :
    (s.modPart p f).node? q n = s.node? q n := by
  unfold State.node?
  by_cases h : q = p
  · subst h
    rw [State.modPart_part]
    cases s.part? q with
    | none => rfl
    | some x => simp only [Option.map_some, Option.bind_some, hf]
  · have : (s.modPart p f).part? q = s.part? q := by
      unfold State.modPart
      split
      · exact aget_aset_other _ _ _ _ h
      · rfl
    rw [this]

theorem State.inst_modPart (s : State) (p q n : Nat) (f : Part → Part) (hf : ∀ x, (f x).nodes = x.nodes) :
    (s.modPart p f).inst? q n = s.inst? q n := by
  unfold State.inst?
  rw [State.node_modPart s p q n f hf]

theorem State.node_modNode_same (s : State) (p n : Nat) (f : Node → Node) :
    (s.modNode p n f).node? p n = (s.node? p n).map f := by
  unfold State.modNode State.node?
  rw [State.modPart_part]
  cases s.part? p with
  | none => rfl
  | some x =>
    simp only [Option.map_some, Option.bind_some, Part.modNode]
    cases h : aget x.nodes n with
    | none => simp [h]
    | some y => simp

theorem State.node_modNode_other (s : State) (p n q k : Nat) (f : Node → Node) (h : ¬ (q = p ∧ k = n)) :
    (s.modNode p n f).node? q k = s.node? q k := by
  unfold State.modNode State.node?
  by_cases hq : q = p
  · subst hq
    rw [State.modPart_part]
    cases s.part? q with
    | none => rfl
    | some x =>
      simp only [Option.map_some, Option.bind_some, Part.modNode]
      cases aget x.nodes n with
      | none => rfl
      | some y => exact aget_aset_other _ _ _ _ fun hk => h ⟨rfl, hk⟩
  · have : (s.modPart p (·.modNode n f)).part? q = s.part? q := by
      unfold State.modPart
      split
      · exact aget_aset_other _ _ _ _ hq
      · rfl
    rw [this]

theorem State.inst_modInst_same (s : State) (p n : Nat) (f : Inst → Inst) :
    (s.modInst p n f).inst? p n = (s.inst? p n).map f := by
  unfold State.modInst State.inst?
  rw [State.node_modNode_same]
  cases s.node? p n <;> rfl

theorem State.inst_modInst_other (s : State) (p n q k : Nat) (f : Inst → Inst) (h : ¬ (q = p ∧ k = n)) :
    (s.modInst p n f).inst? q k = s.inst? q k := by
  unfold State.modInst State.inst?
  rw [State.node_modNode_other _ _ _ _ _ _ h]

/-- An accessor whose node is not the one changed has its cells, and one whose node is has the new ones. -/
theorem Who.cells_modInst (v : Who) (s : State) (p n : Nat) (f : Inst → Inst) :
    v.cells (s.modInst p n f) =
      if v.part = p ∧ v.node = some n then ((s.inst? p n).map fun i => (f i).staged).getD [] else v.cells s := by
  unfold Who.cells
  cases hn : v.node with
  | none => simp
  | some k =>
    by_cases h : v.part = p ∧ k = n
    · obtain ⟨rfl, rfl⟩ := h
      simp [State.inst_modInst_same, Function.comp_def]
    · rw [if_neg fun hx => h ⟨hx.1, Option.some.inj hx.2⟩]
      dsimp only
      rw [State.inst_modInst_other _ _ _ _ _ _ h]

/-- A change of an instance that leaves what it has staged leaves every accessor's cells. -/
theorem Who.cells_modInst_of_staged (v : Who) (s : State) (p n : Nat) (f : Inst → Inst) (hf : ∀ i, (f i).staged = i.staged) :
    v.cells (s.modInst p n f) = v.cells s := by
  rw [Who.cells_modInst]
  split
  · next h =>
    obtain ⟨rfl, hn⟩ := h
    simp only [Who.cells, hn, hf]
  · rfl

theorem Who.cells_of_parts {s t : State} (v : Who) (h : t.parts = s.parts) : v.cells t = v.cells s := by
  unfold Who.cells State.inst? State.node? State.part?
  rw [h]

theorem Who.cells_markIrrev (v w : Who) (s : State) : v.cells (markIrrev s w) = v.cells s := by
  unfold markIrrev
  split
  · exact v.cells_modInst_of_staged s _ _ _ fun _ => rfl
  · rfl

theorem markIrrev_mem (s : State) (w : Who) : (markIrrev s w).mem = s.mem := by
  unfold markIrrev
  split <;> simp

/-! ### The staged bytes of one word are performed -/

/-- The bytes that an instance has staged in the word at `base`. -/
def stagedIn (i : Inst) (base : Nat) : List Host.Cell :=
  (List.range 8).filterMap fun k => (cellFind i.staged (base + k)).map (base + k, ·)

theorem mem_stagedIn (i : Inst) (base x : Nat) (b : Byte) :
    (x, b) ∈ stagedIn i base ↔ base ≤ x ∧ x < base + 8 ∧ cellFind i.staged x = some b := by
  unfold stagedIn
  simp only [List.mem_filterMap, List.mem_range, Option.map_eq_some_iff, Prod.mk.injEq]
  constructor
  · rintro ⟨k, hk, c, hc, rfl, rfl⟩
    exact ⟨by omega, by omega, hc⟩
  · rintro ⟨h1, h2, h3⟩
    exact ⟨x - base, by omega, b, by rw [Nat.add_sub_cancel' h1]; exact h3, by omega, rfl⟩

/-- Cells written into memory one after the other, each address with one value. -/
theorem Memory.get_foldl_set (l : List Host.Cell) (m : List Host.Cell) (x : Nat) (hm : Memory.wf m = true)
    (g : Nat → Byte) (hg : ∀ c ∈ l, c.2 = g c.1) :
    Memory.get (l.foldl (fun m (x, b) => Memory.set m x b) m) x = if ∃ b, (x, b) ∈ l then g x else Memory.get m x := by
  induction l generalizing m with
  | nil => simp
  | cons c l ih =>
    rw [List.foldl_cons, ih _ (Memory.set_wf _ _ _ hm) fun d hd => hg d (List.mem_cons_of_mem _ hd)]
    by_cases hl : ∃ b, (x, b) ∈ l
    · obtain ⟨b, hb⟩ := hl
      rw [if_pos ⟨b, hb⟩, if_pos ⟨b, List.mem_cons_of_mem _ hb⟩]
    · rw [if_neg hl]
      by_cases hx : x = c.1
      · subst hx
        rw [Memory.get_set_same _ _ _ hm, if_pos ⟨c.2, List.mem_cons_self⟩, hg c List.mem_cons_self]
      · rw [Memory.get_set_other _ _ _ _ hx, if_neg]
        rintro ⟨b, hb⟩
        rcases List.mem_cons.mp hb with rfl | hb
        · exact hx rfl
        · exact hl ⟨b, hb⟩

theorem cellFind_foldl_cellDrop (l : List Host.Cell) (m : List Host.Cell) (x : Nat) (h : ∀ b, (x, b) ∉ l) :
    cellFind (l.foldl (fun m (x, _) => cellDrop m x) m) x = cellFind m x := by
  induction l generalizing m with
  | nil => rfl
  | cons c l ih =>
    rw [List.foldl_cons, ih _ fun b hb => h b (List.mem_cons_of_mem _ hb), cellFind_cellDrop_other]
    rintro rfl
    exact h c.2 List.mem_cons_self

/-- The staged bytes of the accessor's node in one word are performed: memory there is as the accessor saw it; the node keeps what it
staged in other words, and an accessor that sees nothing staged still sees nothing. -/
structure Performs (s t : State) (w : Who) (word : Nat → Prop) : Prop where
  ok : t.memOk
  here : ∀ x, word x → Memory.get t.mem x = viewByte s w x
  other : ∀ x, ¬ word x → Memory.get t.mem x = Memory.get s.mem x
  kept : ∀ x, ¬ word x → cellFind (w.cells t) x = cellFind (w.cells s) x
  clear : ∀ v : Who, v.cells s = [] → v.cells t = []

theorem Performs.of_nothing {s : State} {w : Who} {word : Nat → Prop} (hs : s.memOk)
    (h : ∀ x, word x → cellFind (w.cells s) x = none) : Performs s s w word where
  ok := hs
  here x hx := by rw [viewByte, h x hx]; rfl
  other _ _ := rfl
  kept _ _ := rfl
  clear _ hv := hv

theorem foldl_cellDrop_nil (l : List Host.Cell) : l.foldl (fun m (x, _) => cellDrop m x) [] = ([] : List Host.Cell) :=
  List.foldlRecOn (motive := (· = [])) l _ rfl fun _ hb _ _ => by rw [hb]; rfl

/-- Memory with some staged bytes performed, their word having the tag `t`. -/
def State.withPerformed (s : State) (base : Nat) (l : List Host.Cell) (t : Tag) : State :=
  setMemTag { s with mem := l.foldl (fun m (x, b) => Memory.set m x b) s.mem } base t

/-- An instance without some staged bytes and without the tag of word `k`. -/
def Inst.without (i : Inst) (k : Nat) (l : List Host.Cell) : Inst :=
  { i with staged := l.foldl (fun m (x, _) => cellDrop m x) i.staged, stagedTag := adel i.stagedTag k }

theorem performStaged_none {s : State} {w : Who} (hw : w.inst? s = none) (a : Nat) : performStaged s w a = s := by
  have hsel : (w.node.bind fun n => (s.inst? w.part n).map (n, ·)) = none := by
    unfold Who.inst? at hw
    cases hn : w.node with
    | none => rfl
    | some n =>
      rw [hn] at hw
      exact congrArg (Option.map (n, ·)) hw
  unfold performStaged
  rw [hsel]

theorem performStaged_some {s : State} {w : Who} {n : Nat} {i : Inst} (hn : w.node = some n) (hi : s.inst? w.part n = some i)
    (a : Nat) : performStaged s w a = if (stagedIn i (a / 8 * 8)).isEmpty then s else
      (s.withPerformed (a / 8 * 8) (stagedIn i (a / 8 * 8)) (rawTag s w (a / 8 * 8))).modInst w.part n
        (·.without (a / 8) (stagedIn i (a / 8 * 8))) := by
  unfold performStaged
  simp only [hn, Option.bind_some, hi, Option.map_some]
  rfl

theorem performStaged_performs (s : State) (w : Who) (a : Nat) (hs : s.memOk) :
    Performs s (performStaged s w a) w fun x => x / 8 = a / 8 := by
  cases hw : w.inst? s with
  | none =>
    rw [performStaged_none hw]
    exact .of_nothing hs fun x _ => by rw [Who.cells_eq, hw]; rfl
  | some i =>
    obtain ⟨n, hn, hi⟩ := Option.bind_eq_some_iff.mp hw
    have hc : w.cells s = i.staged := by rw [Who.cells_eq, hw]; rfl
    have hin (x : Nat) (b : Byte) : (x, b) ∈ stagedIn i (a / 8 * 8) ↔ x / 8 = a / 8 ∧ cellFind i.staged x = some b :=
      (mem_stagedIn i _ x b).trans ⟨fun h => ⟨by omega, h.2.2⟩, fun h => ⟨by omega, by omega, h.2⟩⟩
    rw [performStaged_some hn hi]
    split
    · next he =>
      refine .of_nothing hs fun x hx => Option.eq_none_iff_forall_ne_some.mpr fun b hb => ?_
      have hm := (hin x b).mpr ⟨hx, hc ▸ hb⟩
      rw [List.isEmpty_iff.mp he] at hm
      cases hm
    · generalize hl : stagedIn i (a / 8 * 8) = l at hin
      generalize rawTag s w (a / 8 * 8) = t
      have hmem : ((s.withPerformed (a / 8 * 8) l t).modInst w.part n (·.without (a / 8) l)).mem =
          l.foldl (fun m (x, b) => Memory.set m x b) s.mem := State.modInst_mem _ _ _ _
      have hget (x : Nat) := Memory.get_foldl_set l s.mem x hs (fun x => (cellFind i.staged x).getD 0)
        fun c hc => by rw [((hin c.1 c.2).mp hc).2]; rfl
      have hcells (v : Who) : v.cells ((s.withPerformed (a / 8 * 8) l t).modInst w.part n (·.without (a / 8) l)) =
          if v.part = w.part ∧ v.node = some n then l.foldl (fun m (x, _) => cellDrop m x) i.staged else v.cells s := by
        rw [Who.cells_modInst, show (s.withPerformed (a / 8 * 8) l t).inst? w.part n = some i from hi]
        rfl
      refine ⟨?ok, fun x hx => ?here, fun x hx => ?other, fun x hx => ?kept, fun v hv => ?clear⟩
      case ok =>
        unfold State.memOk
        rw [hmem]
        exact Memory.foldl_set_wf _ _ _ _ hs
      case here =>
        rw [hmem, hget, viewByte, hc]
        cases hf : cellFind i.staged x with
        | none => exact if_neg fun ⟨b, hb⟩ => by rw [((hin x b).mp hb).2] at hf; cases hf
        | some b => exact if_pos ⟨b, (hin x b).mpr ⟨hx, hf⟩⟩
      case other =>
        rw [hmem, hget]
        exact if_neg fun ⟨b, hb⟩ => hx ((hin x b).mp hb).1
      case kept =>
        rw [hcells, if_pos ⟨rfl, hn⟩, hc]
        exact cellFind_foldl_cellDrop _ _ _ fun b hb => hx ((hin x b).mp hb).1
      case clear =>
        rw [hcells]
        split
        · next h =>
          have hvi : v.cells s = i.staged := by simp only [Who.cells, h.2, h.1, hi, Option.map_some, Option.getD_some]
          rw [← hvi, hv, foldl_cellDrop_nil]
        · exact hv

theorem Performs.trans {s t u : State} {w : Who} {p q : Nat → Prop} (h : Performs s t w p) (k : Performs t u w q)
    (hpq : ∀ x, q x → ¬ p x) : Performs s u w fun x => p x ∨ q x where
  ok := k.ok
  here x hx := by
    by_cases hq : q x
    · rw [k.here x hq, viewByte, viewByte, h.kept x (hpq x hq), h.other x (hpq x hq)]
    · rw [k.other x hq, h.here x (hx.resolve_right hq)]
  other x hx := by rw [k.other x fun hq => hx (.inr hq), h.other x fun hp => hx (.inl hp)]
  kept x hx := by rw [k.kept x fun hq => hx (.inr hq), h.kept x fun hp => hx (.inl hp)]
  clear v hv := k.clear v (h.clear v hv)

theorem Performs.congr {s t : State} {w : Who} {p q : Nat → Prop} (h : Performs s t w p) (hpq : ∀ x, p x ↔ q x) :
    Performs s t w q := (funext fun x => propext (hpq x) : p = q) ▸ h

/-- The staged bytes of `n` words from the word of `a` on. -/
theorem performWords_performs (s : State) (w : Who) (a n : Nat) (hs : s.memOk) :
    Performs s ((List.range n).foldl (fun s k => performStaged s w ((a / 8 + k) * 8)) s) w
      fun x => a / 8 ≤ x / 8 ∧ x / 8 < a / 8 + n := by
  induction n with
  | zero => exact .of_nothing hs fun x hx => by omega
  | succ n ih =>
    rw [List.range_succ, List.foldl_append]
    refine (ih.trans (performStaged_performs _ w ((a / 8 + n) * 8) ih.ok) fun x hx => by omega).congr fun x => by omega

/-! ### Immediate and staged writes -/

theorem tagWrite_mem (s : State) (a n : Nat) (t : Tag) : (tagWrite s a n t).mem = s.mem :=
  List.foldlRecOn (motive := fun u : State => u.mem = s.mem) _ _ rfl fun _ hb _ _ => hb

theorem tagWrite_parts (s : State) (a n : Nat) (t : Tag) : (tagWrite s a n t).parts = s.parts :=
  List.foldlRecOn (motive := fun u : State => u.parts = s.parts) _ _ rfl fun _ hb _ _ => hb

/-- A byte of memory after consecutive writes. -/
theorem Memory.get_setBytes (m : List Host.Cell) (a x : Nat) (l : List Byte) (hm : Memory.wf m = true) :
    Memory.get (Memory.setBytes m a l) x = if a ≤ x ∧ x < a + l.length then l.getD (x - a) 0 else Memory.get m x := by
  split
  · next h =>
    obtain ⟨i, rfl⟩ := Nat.exists_eq_add_of_le h.1
    rw [Memory.get_setBytes_same _ _ _ _ hm (by omega), Nat.add_sub_cancel_left, List.getD_eq_getElem]
  · next h => exact Memory.get_setBytes_other _ _ _ _ (by omega)

/-- An immediate write on a usable way, as an accessor sees it that has staged nothing (R191). -/
theorem viewByte_writeNow (s : State) (w v : Who) (a x : Nat) (d : List Byte) (t : Tag) (hs : s.memOk)
    (hf : flowOk s w.part a = true) (hp : portFailed s a = false) (hv : v.cells s = []) :
    viewByte (writeNow s w a d t) v x = if a ≤ x ∧ x < a + d.length then d.getD (x - a) 0
      else if a / 8 ≤ x / 8 ∧ x / 8 ≤ (a + d.length - 1) / 8 then viewByte s w x else viewByte s v x := by
  have hper := performWords_performs s w a ((a + d.length - 1) / 8 + 1 - a / 8) hs
  have hw : writeNow s w a d t = tagWrite (putMem ((List.range ((a + d.length - 1) / 8 + 1 - a / 8)).foldl
      (fun s k => performStaged s w ((a / 8 + k) * 8)) s) a d) a d.length t := by
    unfold writeNow
    simp only [hf, hp, Bool.not_true, Bool.false_eq_true, if_false]
  rw [hw]
  generalize (List.range ((a + d.length - 1) / 8 + 1 - a / 8)).foldl (fun s k => performStaged s w ((a / 8 + k) * 8)) s = u at hper
  have hcells : v.cells (tagWrite (putMem u a d) a d.length t) = [] := by
    rw [v.cells_of_parts (s := u) (by rw [tagWrite_parts]; rfl)]
    exact hper.clear v hv
  have hview : viewByte (tagWrite (putMem u a d) a d.length t) v x = Memory.get (Memory.setBytes u.mem a d) x := by
    rw [viewByte, hcells, tagWrite_mem]
    rfl
  rw [hview, Memory.get_setBytes _ _ _ _ hper.ok]
  refine if_congr Iff.rfl rfl ?_
  split
  · next h => exact hper.here x ⟨h.1, by omega⟩
  · next h =>
    rw [hper.other x fun hx => h ⟨hx.1, by omega⟩, viewByte, hv]
    rfl

theorem viewByte_markIrrev (s : State) (w v : Who) (x : Nat) : viewByte (markIrrev s w) v x = viewByte s v x := by
  rw [viewByte, viewByte, v.cells_markIrrev, markIrrev_mem]

/-- Cells put one after the other from address `a` on. -/
theorem cellFind_foldl_cellPut (l : List Byte) (k : Nat) (m : List Host.Cell) (a x : Nat) :
    cellFind ((l.zipIdx k).foldl (fun m (b, k) => cellPut m (a + k) b) m) x =
      if a + k ≤ x ∧ x < a + k + l.length then some (l.getD (x - (a + k)) 0) else cellFind m x := by
  induction l generalizing k m with
  | nil => simp
  | cons b l ih =>
    rw [List.zipIdx_cons, List.foldl_cons, ih]
    by_cases hx : x = a + k
    · subst hx
      rw [if_neg (by omega), cellFind_cellPut_same, if_pos (by simp)]
      simp
    · rw [cellFind_cellPut_other _ _ _ _ hx]
      by_cases hin : a + (k + 1) ≤ x ∧ x < a + (k + 1) + l.length
      · rw [if_pos hin, if_pos (by simp only [List.length_cons]; omega)]
        rw [show x - (a + k) = (x - (a + (k + 1))) + 1 by omega]
        rfl
      · rw [if_neg hin, if_neg (by simp only [List.length_cons]; omega)]

/-- A staged write changes no byte of memory, and its node reads what it has written (R191). -/
theorem viewByte_writeStaged (s u : State) (w : Who) (n a : Nat) (d : List Byte) (t : Tag) (hn : w.node = some n)
    (hi : (s.inst? w.part n).isSome = true) (h : writeStaged s w a d t = some u) :
    u.mem = s.mem ∧ ∀ x, viewByte u w x = if a ≤ x ∧ x < a + d.length then d.getD (x - a) 0 else viewByte s w x := by
  obtain ⟨i, hi⟩ := Option.isSome_iff_exists.mp hi
  obtain ⟨p, hp⟩ : ∃ p, s.part? w.part = some p := by
    cases hp : s.part? w.part with
    | none => simp [State.inst?, State.node?, hp] at hi
    | some p => exact ⟨p, rfl⟩
  have hsel : (w.node.bind fun n => (s.inst? w.part n).map (n, ·)) = some (n, i) := by rw [hn, Option.bind_some, hi]; rfl
  have hc : w.cells s = i.staged := by simp [Who.cells, hn, hi]
  unfold writeStaged at h
  rw [hsel, hp] at h
  dsimp only at h
  split at h
  · cases h
  · cases h
    refine ⟨by simp, fun x => ?_⟩
    rw [viewByte, Who.cells_modInst, if_pos ⟨rfl, hn⟩, State.inst_modPart, hi]
    · simp only [Option.map_some, Option.getD_some, State.modInst_mem, State.modPart_mem, cellFind_foldl_cellPut, viewByte, hc,
        Nat.add_zero]
      split <;> rfl
    · exact fun _ => rfl

end Sys2Proof.Machine

namespace Sys2Proof.Claims
open Sys2Proof.Machine

/-- Settles O15: an immediate write performs the staged bytes of the words that it touches (`performWords_performs`) and puts its own
(`viewByte_writeNow`); a staged one only changes its instance's cells (`viewByte_writeStaged`). -/
theorem writesReachExactlyTheirBytes : Obligations.WritesReachExactlyTheirBytes := by
  intro s t w a d tag hs h
  refine ⟨fun hi hf hp v x hv => ?immediate, fun hst ⟨n, hn, hinst⟩ => ?staged⟩
  case immediate =>
    rw [writeBytes, hi] at h
    cases h
    rw [viewByte_markIrrev]
    exact viewByte_writeNow s w v a x d tag hs hf hp hv
  case staged =>
    rw [writeBytes, hst] at h
    exact viewByte_writeStaged s t w n a d tag hn hinst h

end Sys2Proof.Claims
end

section
/-! Atomics, counters, FESET and FEGET on a word whose handle passes (R200, R203, R205, R206). -/

namespace Sys2Proof.Machine
open Sys2Proof.Claims

/-! ### Words as bytes -/

@[simp] theorem bytesOf_length (n v : Nat) : (bytesOf n v).length = n := by
  induction n generalizing v with
  | zero => rfl
  | succ n ih => simp [bytesOf, ih]

theorem natOf_bytesOf (n v : Nat) : natOf (bytesOf n v) = v % 2 ^ (8 * n) := by
  induction n generalizing v with
  | zero => simp [bytesOf, natOf, Nat.mod_one]
  | succ n ih =>
    rw [bytesOf, natOf, ih, BitVec.toNat_ofNat, Nat.mul_add_one, Nat.pow_add, Nat.mul_comm (2 ^ (8 * n)), Nat.mod_mul]

theorem viewBytes_eq_of (d : List Byte) (s : State) (w : Who) (a : Nat) (h : ∀ k < d.length, viewByte s w (a + k) = d.getD k 0) :
    viewBytes s w a d.length = d := by
  induction d generalizing a with
  | nil => rfl
  | cons b d ih =>
    rw [List.length_cons, viewBytes, ih (a + 1) fun k hk => ?_]
    · rw [show viewByte s w a = b from h 0 (by simp)]
    · rw [show a + 1 + k = a + (k + 1) by omega]
      exact h (k + 1) (by simpa using hk)

/-- A word reads back after an immediate write of its eight bytes. -/
theorem view64_of_bytes (s : State) (w : Who) (a v : Nat) (hv : v < 2 ^ 64)
    (h : ∀ k < 8, viewByte s w (a + k) = (bytesOf 8 v).getD k 0) : (view64 s w a).toNat = v := by
  have hb : viewBytes s w a 8 = bytesOf 8 v := viewBytes_eq_of (bytesOf 8 v) s w a (by simpa using h)
  rw [view64, hb, natOf_bytesOf, BitVec.toNat_ofNat]
  omega

/-! ### Atomics (R203) -/

section
variable {f : AtomForm} {c : Ctx} {s : State}

theorem atomic_passes (h : passes c f.h .atomic (offset c f.so f.imm.toInt) 8 8) (op : Nat)
    (new : Word → Word → Word → Option Word) :
    atomic f op new c s = .ok (atomicOf f new c s) := by
  unfold atomic
  rw [show c.off f.so f.imm.toInt = offset c f.so f.imm.toInt from rfl, handleAccess_passes h]
  rfl

theorem atomicOf_grows (new : Word → Word → Word → Option Word) : Grows c.id c.mi 1 s (atomicOf f new c s) := by
  have hread := (Grows.consume c.id c.mi s (c.s 5 f.so.toNat).tag).after (.of_quiet _ _ ((quiet_beginImm _ c.who
    (.mem (physical c f.h (offset c f.so f.imm.toInt)))).trans (quiet_arrive _ c.who (physical c f.h (offset c f.so f.imm.toInt)) 8)))
  refine (hread.after ?_).after (Grows.pending c _ _ _ _ _)
  split
  · exact .of_quiet _ _ (quiet_loseImm _ _ _)
  · split
    · exact Grows.consumeIf _ _ (.of_quiet _ _ (quiet_writeImm _ _ _ _ _))
    · exact Grows.of_hctxs rfl

end

/-! ### Counters (R205, R206) -/

theorem addedTo_eq (c : Word) (v : BitVec 32) : addedTo c v = min (c.toNat + v.toNat) (2 ^ 64 - 1) := rfl

theorem viewByte_noteAdd (s : State) (w : Who) (a v x : Nat) : viewByte (noteAdd s a v) w x = viewByte s w x := by
  unfold noteAdd
  split <;> rfl

/-- The bytes of a counter after an add that is sent, for an agent that has staged nothing. -/
theorem viewByte_counterAdd (s : State) (w : Who) (a k : Nat) (v : BitVec 32) (t : Tag) (hs : s.memOk) (hw : w.cells s = [])
    (hf : flowOk s w.part a = true) (hp : portFailed s a = false) (hk : k < 8) :
    viewByte (counterAdd s w a v t) w (a + k) = (bytesOf 8 (addedTo (view64 s w a) v)).getD k 0 := by
  unfold counterAdd
  simp only [sendable, hf, hp, Bool.not_false, Bool.and_self, if_true]
  rw [viewByte_noteAdd, writeImm, viewByte_markIrrev, viewByte_writeNow _ _ _ _ _ _ _ hs hf hp hw,
    if_pos ⟨Nat.le_add_right a k, by simpa using hk⟩, Nat.add_sub_cancel_left]

theorem view64_counterAdd (s : State) (w : Who) (a : Nat) (v : BitVec 32) (t : Tag) (hs : s.memOk) (hw : w.cells s = [])
    (hf : flowOk s w.part a = true) (hp : portFailed s a = false) :
    (view64 (counterAdd s w a v t) w a).toNat = min ((view64 s w a).toNat + v.toNat) (2 ^ 64 - 1) := by
  have hlt : addedTo (view64 s w a) v < 2 ^ 64 := by
    rw [addedTo_eq]
    omega
  exact view64_of_bytes _ w a _ hlt fun k hk => viewByte_counterAdd s w a k v t hs hw hf hp hk

section
variable {c : Ctx} {s : State}

theorem fxCadd_passes {f : CaddForm} (h : passes c f.h .cadd (offset c f.so 0) 8 8) :
    fxCadd f c s = .ok (counterAdd (consumeTag (consumeTag s c.id c.mi (c.s 5 f.so.toNat).tag) c.id c.mi (c.s 2 f.sv.toNat).tag)
      c.who (physical c f.h (offset c f.so 0)) (BitVec.ofNat 32 (c.s 2 f.sv.toNat).val.toNat) none) := by
  unfold fxCadd
  rw [show c.off f.so 0 = offset c f.so 0 from rfl, handleAccess_passes h, ← low32_eq_ofNat]
  rfl

theorem fxCwait_passes {f : AtomForm} (h : passes c f.h .counter (offset c f.so f.imm.toInt) 8 8)
    (hv : sendable s c.who.part (physical c f.h (offset c f.so f.imm.toInt)) = true →
      (c.s 2 f.sv.toNat).val.toNat ≤ (view64 s c.who (physical c f.h (offset c f.so f.imm.toInt))).toNat) :
    fxCwait f c s = .ok (
      if sendable s c.who.part (physical c f.h (offset c f.so f.imm.toInt)) then consumeTag s c.id c.mi (c.s 5 f.so.toNat).tag
      else consumeTag (arrive (consumeTag s c.id c.mi (c.s 5 f.so.toNat).tag) c.who
        (physical c f.h (offset c f.so f.imm.toInt)) 8) c.id c.mi
        (rangeTag s c.who (physical c f.h (offset c f.so f.imm.toInt)) 8)) := by
  unfold fxCwait
  rw [show c.off f.so f.imm.toInt = offset c f.so f.imm.toInt from rfl, handleAccess_passes h]
  cases hs : sendable s c.who.part (physical c f.h (offset c f.so f.imm.toInt)) with
  | false => simp [unsent, hs, consumeSo]
  | true => simp [unsent, hs, consumeSo, BitVec.ule_eq_decide, hv hs]

theorem fxCrd_passes {f : AtomForm} (h : passes c f.h .counter (offset c f.so f.imm.toInt) 8 8) :
    fxCrd f c s = .ok ((arrive (consumeTag s c.id c.mi (c.s 5 f.so.toNat).tag) c.who
      (physical c f.h (offset c f.so f.imm.toInt)) 8).modMember c.id c.mi (fromMemory c
        (.s f.sd.toNat (locWord s c.who (.mem (physical c f.h (offset c f.so f.imm.toInt)))).val
          (locWord s c.who (.mem (physical c f.h (offset c f.so f.imm.toInt)))).tag) f.lat)) := by
  unfold fxCrd
  rw [show c.off f.so f.imm.toInt = offset c f.so f.imm.toInt from rfl, handleAccess_passes h]
  rfl

/-! ### FESET and FEGET (R200) -/

theorem feHandle_passes {f : SMemForm} (h : passes c f.h .fe (offset c f.so f.imm.toInt) 8 8) (op : Nat) :
    feHandle c f op = .ok (.mem (physical c f.h (offset c f.so f.imm.toInt))) := by
  unfold feHandle
  rw [show c.off f.so f.imm.toInt = offset c f.so f.imm.toInt from rfl, handleAccess_passes h]
  rfl

theorem fxFeset_passes {f : SMemForm} (h : passes c f.h .fe (offset c f.so f.imm.toInt) 8 8) :
    fxFeset f c s = .ok (
      let t := consumeTag s c.id c.mi (c.s 5 f.so.toNat).tag
      let pa := physical c f.h (offset c f.so f.imm.toInt)
      if sendable t c.who.part pa then setFull (beginImm t c.who (.mem pa)) pa ((c.s 13 f.sd.toNat).val.getLsbD 0) 0x13
      else loseImm t c.who (.mem pa)) := by
  unfold fxFeset
  rw [feHandle_passes h]
  dsimp only
  cases hs : sendable (consumeTag s c.id c.mi (c.s 5 f.so.toNat).tag) c.who.part
      (physical c f.h (offset c f.so f.imm.toInt)) <;> simp [unsent, hs, consumeSo, locSetFull]

theorem fxFeget_passes {f : SMemForm} (h : passes c f.h .fe (offset c f.so f.imm.toInt) 8 8) :
    fxFeget f c s = .ok (
      let pa := physical c f.h (offset c f.so f.imm.toInt)
      let t := beginImm (consumeTag s c.id c.mi (c.s 5 f.so.toNat).tag) c.who (.mem pa)
      if sendable t c.who.part pa then
        t.modMember c.id c.mi (fromMemory c (.s f.sd.toNat (if isFull t pa then 1 else 0) none) f.lat)
      else (arrive t c.who pa 8).modMember c.id c.mi (fromMemory c
        (.s f.sd.toNat (BitVec.ofNat 64 (natOf (broughtBytes t c.who pa 8))) (rangeTag t c.who pa 8)) f.lat)) := by
  unfold fxFeget
  rw [feHandle_passes h]
  dsimp only
  generalize hpa : physical c f.h (offset c f.so f.imm.toInt) = pa
  rw [show consumeSo s c f.so = consumeTag s c.id c.mi (c.s 5 f.so.toNat).tag from rfl]
  generalize beginImm (consumeTag s c.id c.mi (c.s 5 f.so.toNat).tag) c.who (.mem pa) = t
  cases hs : sendable t c.who.part pa
  · simp only [unsent, hs, Bool.not_false, if_true, Bool.false_eq_true, if_false]
    rfl
  · simp only [unsent, hs, Bool.not_true, Bool.false_eq_true, if_false, if_true]
    rfl

end

end Sys2Proof.Machine

namespace Sys2Proof.Claims
open Sys2Proof.Machine

theorem atomicOn_of {i : Instr} {f : AtomForm} {op : Nat} {new new' : Word → Word → Word → Option Word} (hk : i.kind = .memory)
    (hfx : slotFx i = atomic f op new) (hnew : ∀ o v k, new o v k = new' o v k) : AtomicOn i f new' := by
  obtain rfl : new = new' := funext fun o => funext fun v => funext fun k => hnew o v k
  exact does_memory hk (fun c s hp => hfx ▸ atomic_passes hp op new) (by decide) fun _ _ => atomicOf_grows new

theorem atomicsReadAndWriteOneWord : AtomicsReadAndWriteOneWord := fun _ =>
  ⟨atomicOn_of rfl rfl fun o v _ => congrArg some (add64_eq o v), atomicOn_of rfl rfl fun o v _ => congrArg some (smin64_eq o v),
    atomicOn_of rfl rfl fun o v _ => congrArg some (smax64_eq o v), atomicOn_of rfl rfl fun o v _ => congrArg some (umin64_eq o v),
    atomicOn_of rfl rfl fun o v _ => congrArg some (umax64_eq o v), atomicOn_of rfl rfl fun _ _ _ => rfl,
    atomicOn_of rfl rfl fun _ _ _ => rfl, atomicOn_of rfl rfl fun _ _ _ => rfl, atomicOn_of rfl rfl fun _ _ _ => rfl,
    atomicOn_of rfl rfl fun _ _ _ => rfl⟩

theorem counterOperations : CounterOperations := by
  refine ⟨fun f => does_memory rfl (fun c s hp => fxCadd_passes hp) (n := 0) (by decide) fun c s => ?cadd,
    fun f => does_memory rfl (fun c s hp => fxCwait_passes hp.1 hp.2) (n := 0) (by decide) fun c s => ?cwait,
    fun f => does_memory rfl (fun c s hp => fxCrd_passes hp) (n := 1) (by decide) fun c s => ?crd,
    fun s w a v t hs hw hf hp => view64_counterAdd s w a v t hs hw hf hp⟩
  case cadd => exact ((Grows.consume _ _ _ _).after (Grows.consume _ _ _ _)).after (.of_quiet _ _ (quiet_counterAdd _ _ _ _ _))
  case cwait =>
    dsimp only
    split
    · exact Grows.consume _ _ _ _
    · exact ((Grows.consume _ _ _ _).after (.of_quiet _ _ (quiet_arrive _ _ _ _))).after (Grows.consume _ _ _ _)
  case crd => exact ((Grows.consume _ _ _ _).after (.of_quiet _ _ (quiet_arrive _ _ _ _))).after (Grows.pending c _ _ _ _ _)

theorem fullEmptySetAndGetAlwaysSucceed : FullEmptySetAndGetAlwaysSucceed := by
  intro f
  refine ⟨does_memory rfl (fun c s hp => fxFeset_passes hp) (n := 0) (by decide) fun c s => ?feset,
    does_memory rfl (fun c s hp => fxFeget_passes hp) (n := 1) (by decide) fun c s => ?feget⟩
  case feset =>
    refine (Grows.consume _ _ _ _).after (.of_quiet _ _ (Quiet.ite _ ?_ (quiet_loseImm _ _ _)))
    exact (quiet_beginImm _ _ _).trans (quiet_setFull _ _ _ _)
  case feget =>
    have hbegin := (Grows.consume c.id c.mi s (c.s 5 f.so.toNat).tag).after (.of_quiet _ _ (quiet_beginImm _ c.who
      (.mem (physical c f.h (offset c f.so f.imm.toInt)))))
    dsimp only
    split
    · exact hbegin.after (Grows.pending c _ _ _ _ _)
    · exact (hbegin.after (.of_quiet _ _ (quiet_arrive _ _ _ _))).after (Grows.pending c _ _ _ _ _)

/-- Settles O18: an atomic is `atomicOf` (`atomic_passes`), with the new word as Table 9.7 writes it; an add saturates
(`view64_counterAdd`); FESET and FEGET are their branches for a request that is sent and for one that is lost. -/
theorem atomicsCountersAndFullEmptyFlags : Obligations.AtomicsCountersAndFullEmptyFlags :=
  ⟨atomicsReadAndWriteOneWord, counterOperations, fullEmptySetAndGetAlwaysSucceed⟩

end Sys2Proof.Claims
end

section
/-! Translations: the tables that a walk goes through, the page that it ends in, and what a handle holds of it (R182..R188). -/

namespace Sys2Proof.Machine
open Sys2Proof.Claims

/-! ### Stage 2 (R183, R184) -/

/-- The stage-2 table of each level for an address, each named by the entry before it. -/
def table2 (s : State) (gpa root : Nat) : Nat → Nat
  | 0 => root
  | k + 1 => ptePa (mem64 s (table2 s gpa root k + 8 * levelIndex k gpa))

/-- The entry that a stage-2 walk reads in the table of a level. -/
def entry2 (s : State) (gpa root k : Nat) : Word := mem64 s (table2 s gpa root k + 8 * levelIndex k gpa)

/-- The tables of a path are those of the address. -/
theorem stage2Path_iff (s : State) (gpa root l : Nat) (tab : Nat → Nat) : stage2Path s gpa root l tab ↔
    (∀ k ≤ l, tab k = table2 s gpa root k) ∧
      ∀ k < l, goodTable k (entry2 s gpa root k) ∧ (entry2 s gpa root k).getLsbD 13 = false := by
  constructor
  · rintro ⟨h0, hstep⟩
    have htab : ∀ k ≤ l, tab k = table2 s gpa root k := by
      intro k
      induction k with
      | zero => exact fun _ => h0
      | succ k ih =>
        intro hk
        rw [(hstep k (by omega)).2.2, ih (by omega)]
        rfl
    refine ⟨htab, fun k hk => ?_⟩
    have := hstep k hk
    rw [htab k (by omega)] at this
    exact ⟨this.1, this.2.1⟩
  · rintro ⟨htab, hgood⟩
    refine ⟨htab 0 (by omega), fun k hk => ?_⟩
    have := hgood k hk
    dsimp only
    rw [htab k (by omega), htab (k + 1) (by omega)]
    exact ⟨this.1, this.2, rfl⟩

/-- A stage-2 entry that ends a walk in a leaf of level `l`: it names memory of its own TIER (R112, R184). -/
def endsStage2 (s : State) (l : Nat) (e : Word) : Prop :=
  goodLeaf l e ∧ e.getLsbD 13 = false ∧ rangeTier s (ptePa e) (2 ^ levelShift l) = some (pteTier e) ∧ ¬(pteTier e = 3 ∧ l = 1)

/-- A walk's leaf at level `l`. -/
def leaf2 (s : State) (gpa root l : Nat) : Leaf :=
  ⟨ptePa (entry2 s gpa root l), l, entry2 s gpa root l, table2 s gpa root l + 8 * levelIndex l gpa⟩

theorem leafOfStage2_iff (s : State) (gpa root : Nat) (x : Leaf) : leafOfStage2 s gpa root x ↔
    ∃ l, (∀ k < l, goodTable k (entry2 s gpa root k) ∧ (entry2 s gpa root k).getLsbD 13 = false) ∧
      endsStage2 s l (entry2 s gpa root l) ∧ x = leaf2 s gpa root l := by
  constructor
  · rintro ⟨tab, hpath, hpa, he, hleaf, h13, hbase, htier, hbar⟩
    obtain ⟨htab, hgood⟩ := (stage2Path_iff s gpa root x.level tab).mp hpath
    rw [htab _ (le_refl _)] at hpa
    have he' : x.entry = entry2 s gpa root x.level := by rw [he, hpa]; rfl
    refine ⟨x.level, hgood, he' ▸ ⟨hleaf, h13, hbase ▸ htier, hbar⟩, ?_⟩
    obtain ⟨base, level, entry, entryPa⟩ := x
    simp only [leaf2, Leaf.mk.injEq] at *
    exact ⟨by rw [hbase, he'], trivial, he', hpa⟩
  · rintro ⟨l, hgood, ⟨hleaf, h13, htier, hbar⟩, rfl⟩
    exact ⟨table2 s gpa root, (stage2Path_iff s gpa root l _).mpr ⟨fun _ _ => rfl, hgood⟩, rfl, rfl, hleaf, h13, rfl,
      htier, hbar⟩

/-- A leaf is no table. -/
theorem not_goodTable_of_goodLeaf {l k : Nat} {e : Word} (hleaf : goodLeaf l e) : ¬ goodTable k e := by
  rintro ⟨_, htable, _⟩
  obtain ⟨_, hpage, _⟩ := hleaf
  exact absurd (hpage.symm.trans htable) (by decide)

/-- The levels that a walk has still to go through. -/
def levelsFrom (l : Nat) : List Nat := (List.range (4 - l)).map (l + ·)

theorem levelsFrom_cons (l : Nat) (h : l ≤ 3) : levelsFrom l = l :: levelsFrom (l + 1) := by
  interval_cases l <;> rfl

/-- The stage-2 walk at an entry that is a table goes on in it. -/
theorem walk2From_table {s : State} {gpa l tab : Nat} {rest : List Nat} (hg : goodTable l (mem64 s (tab + 8 * levelIndex l gpa)))
    (h13 : (mem64 s (tab + 8 * levelIndex l gpa)).getLsbD 13 = false) :
    walk2From s gpa (l :: rest) tab = walk2From s gpa rest (ptePa (mem64 s (tab + 8 * levelIndex l gpa))) := by
  obtain ⟨hv, ht, hr, hl, h0⟩ := hg
  simp only [walk2From, hv, ht, hr, h13, Bool.not_true, Bool.or_self, Bool.false_eq_true, if_false, if_true]
  rw [if_neg]
  rintro (h | ⟨h, h'⟩)
  · omega
  · exact h' (h0 h)

/-- The stage-2 walk at an entry that is no table ends there, in a leaf exactly when the entry is one. -/
theorem walk2From_end {s : State} {gpa l tab : Nat} {rest : List Nat}
    (hg : ¬ (goodTable l (mem64 s (tab + 8 * levelIndex l gpa)) ∧ (mem64 s (tab + 8 * levelIndex l gpa)).getLsbD 13 = false))
    (hl : l ≤ 3) (x : Leaf) : walk2From s gpa (l :: rest) tab = .ok x ↔ endsStage2 s l (mem64 s (tab + 8 * levelIndex l gpa)) ∧
      x = ⟨ptePa (mem64 s (tab + 8 * levelIndex l gpa)), l, mem64 s (tab + 8 * levelIndex l gpa), tab + 8 * levelIndex l gpa⟩ := by
  unfold walk2From endsStage2 goodLeaf
  unfold goodTable at hg
  dsimp only
  generalize mem64 s (tab + 8 * levelIndex l gpa) = e at hg
  cases hv : pteV e with
  | false => simp
  | true => cases hr : pteRsv e with
    | true => simp
    | false => cases h13 : e.getLsbD 13 with
      | true => simp
      | false => cases ht : pteT e with
        | true =>
          rw [if_neg (by simp), if_pos rfl, if_pos]
          · simp
          · simp only [hv, ht, hr, h13, and_true, true_and] at hg
            omega
        | false =>
          rw [if_neg (by simp), if_neg (by simp)]
          split
          · next h =>
            simp
            omega
          · next h =>
            split
            · next h' =>
              simp
              tauto
            · next h' =>
              have hleaf : 0 < l ∧ ptePa e % 2 ^ levelShift l = 0 := by omega
              rw [not_or, not_not] at h'
              exact ⟨fun hx => ⟨⟨⟨rfl, rfl, rfl, hleaf.1, hl, hleaf.2⟩, rfl, h'⟩, (Except.ok.inj hx).symm⟩,
                fun hx => congrArg Except.ok hx.2.symm⟩

/-- A stage-2 walk from a level on ends in the leaf of the first level below that is no table. -/
theorem walk2From_iff (s : State) (gpa root : Nat) (x : Leaf) (n l : Nat) (hn : l + n = 4) :
    walk2From s gpa (levelsFrom l) (table2 s gpa root l) = .ok x ↔ ∃ m, l ≤ m ∧
      (∀ k, l ≤ k → k < m → goodTable k (entry2 s gpa root k) ∧ (entry2 s gpa root k).getLsbD 13 = false) ∧
      endsStage2 s m (entry2 s gpa root m) ∧ x = leaf2 s gpa root m := by
  induction n generalizing l with
  | zero =>
    obtain rfl : l = 4 := hn
    refine ⟨nofun, fun ⟨m, hm, _, ⟨⟨_, _, _, _, hm3, _⟩, _⟩, _⟩ => ?_⟩
    omega
  | succ n ih =>
    rw [levelsFrom_cons l (by omega)]
    by_cases hg : goodTable l (entry2 s gpa root l) ∧ (entry2 s gpa root l).getLsbD 13 = false
    · rw [walk2From_table hg.1 hg.2]
      refine (ih (l + 1) (by omega)).trans ⟨fun ⟨m, hm, hk, h⟩ => ⟨m, Nat.le_of_succ_le hm, fun k h1 h2 => ?_, h⟩,
        fun ⟨m, hm, hk, h⟩ => ⟨m, ?_, fun k h1 h2 => hk k (by omega) h2, h⟩⟩
      · rcases Nat.eq_or_lt_of_le h1 with rfl | h1
        · exact hg
        · exact hk k h1 h2
      · rcases Nat.eq_or_lt_of_le hm with rfl | hm
        · obtain ⟨⟨hleaf, _⟩, _⟩ := h
          exact absurd hg.1 (not_goodTable_of_goodLeaf hleaf)
        · exact hm
    · refine (walk2From_end hg (by omega) x).trans ⟨fun h => ⟨l, le_refl _, fun k h1 h2 => by omega, h⟩,
        fun ⟨m, hm, hk, h⟩ => ?_⟩
      rcases Nat.eq_or_lt_of_le hm with rfl | hm
      · exact h
      · exact absurd (hk l (le_refl _) hm) hg

/-- R183 and R184: a stage-2 walk finds a leaf exactly when the entries lead from the root to it. -/
theorem walk2_iff (s : State) (p : Part) (gpa : Nat) (x : Leaf) :
    walk2 s p gpa = .ok x ↔ gpa < 2 ^ 56 ∧ leafOfStage2 s gpa p.cfg.s2root.toNat x := by
  unfold walk2
  split
  · next h => simp; omega
  · next h =>
    rw [leafOfStage2_iff]
    refine (walk2From_iff s gpa p.cfg.s2root.toNat x 4 0 rfl).trans ?_
    simp only [Nat.zero_le, true_and, forall_const, show gpa < 2 ^ 56 from by omega]

/-! ### Stage 1 (R184) -/

/-- The stage-1 walk at an entry that is a table goes on in it. -/
theorem walk1From_table {s : State} {p : Part} {va l tab pe : Nat} {rest : List Nat}
    (hpe : gpaPa s p (tab + 8 * levelIndex l va) = .ok pe) (hg : goodTable l (mem64 s pe)) :
    walk1From s p va (l :: rest) tab = walk1From s p va rest (ptePa (mem64 s pe)) := by
  obtain ⟨hv, ht, hr, hl, h0⟩ := hg
  simp only [walk1From, hpe, hv, ht, hr, Bool.not_true, Bool.false_eq_true, if_false, if_true]
  rw [if_neg]
  rintro (h | ⟨h, h'⟩)
  · omega
  · exact h' (h0 h)

/-- The joint page of the two leaves, when stage 2 finds the leaf's page and the tiers agree. -/
theorem joinLeaves_iff (s : State) (p : Part) (va l : Nat) (e : Word) (ea pe : Nat) (pg : Page) :
    joinLeaves s p va l e ea pe = .ok pg ↔ ∃ y, walk2 s p (ptePa e + va % 2 ^ levelShift l) = .ok y ∧
      pteTier e = pteTier y.entry ∧ pg = jointPage va l e pe ea y := by
  have hsize : ∀ k, sizeCode k = if k = 1 then 2 else if k = 2 then 1 else 0 := fun k => by
    unfold sizeCode
    split <;> simp_all
  have hbase : ∀ a b : Nat, a / b * b = a - a % b := fun a b => by
    have := Nat.div_add_mod a b
    rw [Nat.mul_comm] at this
    omega
  unfold joinLeaves
  cases hy : walk2 s p (ptePa e + va % 2 ^ levelShift l) with
  | error f => simp [hy]
  | ok y =>
    simp only [hy, Except.ok.injEq, exists_eq_left']
    split
    · next h => simp [h]
    · next h =>
      rw [Decidable.not_not] at h
      simp only [Except.ok.injEq, hbase, hsize, h, true_and]
      exact eq_comm

/-- The stage-1 walk at an entry that is no table ends there, in a page exactly when the entry is a leaf that joins stage 2's. -/
theorem walk1From_end {s : State} {p : Part} {va l tab pe : Nat} {rest : List Nat}
    (hpe : gpaPa s p (tab + 8 * levelIndex l va) = .ok pe) (hg : ¬ goodTable l (mem64 s pe)) (hl : l ≤ 3) (pg : Page) :
    walk1From s p va (l :: rest) tab = .ok pg ↔
      goodLeaf l (mem64 s pe) ∧ joinLeaves s p va l (mem64 s pe) (tab + 8 * levelIndex l va) pe = .ok pg := by
  unfold walk1From goodLeaf
  unfold goodTable at hg
  simp only [hpe]
  generalize mem64 s pe = e at hg
  cases hv : pteV e with
  | false => cases e.getLsbD 13 <;> simp
  | true => cases hr : pteRsv e with
    | true => simp
    | false => cases ht : pteT e with
      | true =>
        rw [if_neg (by simp), if_neg (by simp), if_pos rfl, if_pos]
        · simp
        · simp only [hv, ht, hr, true_and] at hg
          omega
      | false =>
        rw [if_neg (by simp), if_neg (by simp), if_neg (by simp)]
        split
        · next h =>
          simp
          omega
        · next h =>
          rw [not_or, Decidable.not_not] at h
          exact (and_iff_right ⟨rfl, rfl, rfl, Nat.pos_of_ne_zero h.1, hl, h.2⟩).symm

/-- The stage-1 walk goes along a path of tables. -/
theorem walk_path {s : State} {p : Part} {va : Nat} {tab : Nat → Nat} (hva : va < 2 ^ 56) (l : Nat)
    (h : stage1Path s p va p.s1root.toNat l tab) : walk s p va = walk1From s p va (levelsFrom l) (tab l) := by
  obtain ⟨hl, h0, hstep⟩ := h
  induction l with
  | zero =>
    rw [walk, if_neg (by omega), h0]
    rfl
  | succ l ih =>
    obtain ⟨pe, hpe, hg, hnext⟩ := hstep l (by omega)
    rw [ih (by omega) fun k hk => hstep k (by omega), levelsFrom_cons l (by omega), walk1From_table hpe hg, hnext]

/-- The stage-1 walk along a path of tables reads the entry that the path ends at. -/
theorem walk_at {s : State} {p : Part} {va l : Nat} {tab : Nat → Nat} (hva : va < 2 ^ 56)
    (h : stage1Path s p va p.s1root.toNat l tab) :
    walk s p va = walk1From s p va (l :: levelsFrom (l + 1)) (tab l) := by
  rw [walk_path hva l h, levelsFrom_cons l h.1]

/-- A path goes one level further where its entry is a table. -/
theorem stage1Path_extend {s : State} {p : Part} {va root l pe : Nat} {tab : Nat → Nat} (h : stage1Path s p va root l tab)
    (hpe : gpaPa s p (tab l + 8 * levelIndex l va) = .ok pe) (hg : goodTable l (mem64 s pe)) :
    ∃ tab', stage1Path s p va root (l + 1) tab' ∧ tab' (l + 1) = ptePa (mem64 s pe) := by
  obtain ⟨_, h0, hstep⟩ := h
  obtain ⟨_, _, _, hl, _⟩ := id hg
  refine ⟨Function.update tab (l + 1) (ptePa (mem64 s pe)), ⟨hl, ?_, fun k hk => ?_⟩, Function.update_self ..⟩
  · rw [Function.update_of_ne (by omega), h0]
  · rw [Function.update_of_ne (show k ≠ l + 1 by omega)]
    rcases Nat.lt_succ_iff_lt_or_eq.mp hk with hk | rfl
    · rw [Function.update_of_ne (by omega)]
      exact hstep k hk
    · exact ⟨pe, hpe, hg, Function.update_self ..⟩

/-- The tables lead a stage-1 walk to a leaf, and stage 2 finds the leaf's page (R184). -/
def leafOfStage1 (s : State) (p : Part) (va : Nat) (pg : Page) : Prop := ∃ l tab e pe y,
  stage1Path s p va p.s1root.toNat l tab ∧ gpaPa s p (tab l + 8 * levelIndex l va) = .ok pe ∧ e = mem64 s pe ∧
  goodLeaf l e ∧ walk2 s p (ptePa e + va % 2 ^ levelShift l) = .ok y ∧ pteTier e = pteTier y.entry ∧
  pg = jointPage va l e pe (tab l + 8 * levelIndex l va) y

/-- A stage-1 walk that finds a page from some level on ends at a leaf. -/
theorem leafOfStage1_of_walk1From {s : State} {p : Part} {va : Nat} {pg : Page} (n l : Nat) (hn : l + n = 4) (tab : Nat → Nat)
    (hpath : stage1Path s p va p.s1root.toNat l tab)
    (h : walk1From s p va (l :: levelsFrom (l + 1)) (tab l) = .ok pg) : leafOfStage1 s p va pg := by
  induction n generalizing l tab with
  | zero =>
    obtain ⟨hl, _⟩ := hpath
    omega
  | succ n ih =>
    cases hpe : gpaPa s p (tab l + 8 * levelIndex l va) with
    | error f => simp [walk1From, hpe] at h
    | ok pe =>
      by_cases hg : goodTable l (mem64 s pe)
      · obtain ⟨tab', hpath', htab⟩ := stage1Path_extend hpath hpe hg
        refine ih (l + 1) (by omega) tab' hpath' ?_
        rw [walk1From_table hpe hg, levelsFrom_cons (l + 1) hpath'.1] at h
        rw [htab, h]
      · obtain ⟨hleaf, hjoin⟩ := (walk1From_end hpe hg hpath.1 pg).mp h
        obtain ⟨y, hy, htier, hpg⟩ := (joinLeaves_iff ..).mp hjoin
        exact ⟨l, tab, _, pe, y, hpath, hpe, rfl, hleaf, hy, htier, hpg⟩

/-- R184: a walk finds a page exactly when the entries of both stages lead to it. -/
theorem walk_iff (s : State) (p : Part) (va : Nat) (pg : Page) :
    walk s p va = .ok pg ↔ va < 2 ^ 56 ∧ leafOfStage1 s p va pg := by
  by_cases hva : 2 ^ 56 ≤ va
  · rw [walk, if_pos hva]
    simp
    omega
  · have hva' : va < 2 ^ 56 := by omega
    refine ⟨fun h => ⟨hva', ?_⟩, fun ⟨_, l, tab, e, pe, y, hpath, hpe, he, hleaf, hy, htier, hpg⟩ => ?_⟩
    · have hpath : stage1Path s p va p.s1root.toNat 0 fun _ => p.s1root.toNat := ⟨by omega, rfl, nofun⟩
      exact leafOfStage1_of_walk1From 4 0 rfl _ hpath (walk_at hva' hpath ▸ h)
    · subst he
      rw [walk_at hva' hpath, walk1From_end hpe (not_goodTable_of_goodLeaf hleaf) hpath.1]
      exact ⟨hleaf, (joinLeaves_iff ..).mpr ⟨y, hy, htier, hpg⟩⟩

/-- A stage-2 walk fails in no other cause than XLATE_S2 (R183). -/
theorem walk2From_error {s : State} {gpa : Nat} {f : WalkFail} {ls : List Nat} {tab : Nat}
    (h : walk2From s gpa ls tab = .error f) : f.1 = .xlateS2 := by
  induction ls generalizing tab with
  | nil =>
    cases h
    rfl
  | cons l rest ih =>
    unfold walk2From at h
    dsimp only at h
    split_ifs at h
    case pos | pos | pos | pos => cases h; rfl
    case neg => exact ih h

theorem gpaPa_error {s : State} {p : Part} {gpa : Nat} {f : WalkFail} (h : gpaPa s p gpa = .error f) : f.1 = .xlateS2 := by
  unfold gpaPa walk2 at h
  split at h
  · cases h
    rfl
  · cases hw : walk2From s gpa [0, 1, 2, 3] p.cfg.s2root.toNat with
    | error g =>
      rw [hw] at h
      cases h
      exact walk2From_error hw
    | ok x =>
      rw [hw] at h
      cases h

/-- An entry that stage 2 does not find ends the stage-1 walk in stage 2's failure. -/
theorem walk_of_gpaPa_error {s : State} {p : Part} {va l : Nat} {tab : Nat → Nat} {f : WalkFail} (hva : va < 2 ^ 56)
    (hpath : stage1Path s p va p.s1root.toNat l tab) (h : gpaPa s p (tab l + 8 * levelIndex l va) = .error f) :
    walk s p va = .error f := by
  rw [walk_at hva hpath, walk1From, h]

/-- An invalid entry ends the stage-1 walk (R184, R223). -/
theorem walk_of_invalid {s : State} {p : Part} {va l pe : Nat} {tab : Nat → Nat} (hva : va < 2 ^ 56)
    (hpath : stage1Path s p va p.s1root.toNat l tab) (h : gpaPa s p (tab l + 8 * levelIndex l va) = .ok pe)
    (hv : pteV (mem64 s pe) = false) : walk s p va =
      if (mem64 s pe).getLsbD 13 then .error (regenEnd s p l (mem64 s pe) (tab l + 8 * levelIndex l va))
      else .error (s1fail l (mem64 s pe) (tab l + 8 * levelIndex l va)) := by
  rw [walk_at hva hpath, walk1From]
  simp [h, hv]

/-- R184 and R223: an entry that names a valid regeneration ends in REGEN. -/
theorem regenEnd_valid {s : State} {p : Part} {l ea ra : Nat} {e : Word} (hidx : e.toNat / 65536 < p.cfg.regenCount.toNat)
    (hra : gpaPa s p (p.cfg.regenBase.toNat + 16 * (e.toNat / 65536)) = .ok ra) (hv : (mem64 s ra).getLsbD 32 = true) :
    regenEnd s p l e ea = (.regen, ⟨false, l, e, BitVec.ofNat 64 ea, 0, BitVec.ofNat 64 (e.toNat / 65536)⟩) := by
  have he : (e.extractLsb' 16 48).toNat = e.toNat / 65536 := by
    rw [BitVec.extractLsb'_toNat, Nat.shiftRight_eq_div_pow]
    exact Nat.mod_eq_of_lt (by omega)
  simp only [regenEnd, he]
  rw [if_neg (by omega), hra]
  exact if_pos hv

theorem walksFollowTheirTables : WalksFollowTheirTables := by
  intro s p
  refine ⟨walk2_iff s p, walk_iff s p, fun va h => ⟨_, if_pos h⟩,
    fun va l tab pe hva hpath hpe hv => ⟨fun h => ?plain, fun ra h hidx hra hv' => ?regen⟩,
    fun va l tab c wi hva hpath h => ⟨walk_of_gpaPa_error hva hpath h, gpaPa_error h⟩⟩
  case plain => exact ⟨_, by rw [walk_of_invalid hva hpath hpe hv, h]; rfl⟩
  case regen => exact ⟨_, by rw [walk_of_invalid hva hpath hpe hv, h, if_pos rfl, regenEnd_valid hidx hra hv'], rfl⟩

/-! ### Rights, and the bits that a translation sets (R184) -/

theorem intentOk_iff (pg : Page) (i : BitVec 2) : intentOk pg i = true ↔ permits pg i := by
  have hi : i = 0 ∨ i = 1 ∨ i = 2 ∨ i = 3 := by
    revert i
    decide
  rcases hi with rfl | rfl | rfl | rfl <;> simp [intentOk, permits, and_assoc]

section
variable {s : State} {part va : Nat} {sys : Bool} {i : BitVec 2} {p : Part}

/-- A page that the walk finds is the translation's when its rights and S permit. -/
theorem translate_of_page {pg : Page} (hp : s.part? part = some p) (hw : walk s p va = .ok pg) :
    translate s part sys va i = if intentOk pg i && (!pg.sys || sys) then .ok pg
      else .error (.perm, ⟨false, pg.level, pg.e1, pg.ea1, 0, 0⟩) := by
  simp only [translate, hp, hw]

theorem translate_of_error {f : WalkFail} (hp : s.part? part = some p) (hw : walk s p va = .error f) :
    translate s part sys va i = .error f := by
  simp only [translate, hp, hw]

/-- R186: the two conditions of a translation beyond its walk. -/
theorem admits_iff (pg : Page) (i : BitVec 2) (sys : Bool) :
    (intentOk pg i && (!pg.sys || sys)) = true ↔ permits pg i ∧ (pg.sys = true → sys = true) := by
  rw [Bool.and_eq_true, intentOk_iff]
  cases pg.sys <;> simp

theorem translate_iff (pg : Page) : translate s part sys va i = .ok pg ↔
    ∃ p, s.part? part = some p ∧ walk s p va = .ok pg ∧ permits pg i ∧ (pg.sys = true → sys = true) := by
  constructor
  · intro h
    cases hp : s.part? part with
    | none => simp [translate, hp] at h
    | some p =>
      cases hw : walk s p va with
      | error f => simp [translate_of_error hp hw] at h
      | ok pg' =>
        rw [translate_of_page hp hw] at h
        split at h
        · next hadm =>
          cases h
          exact ⟨p, rfl, hw, (admits_iff ..).mp hadm⟩
        · cases h
  · rintro ⟨p, hp, hw, hadm⟩
    rw [translate_of_page hp hw, if_pos ((admits_iff ..).mpr hadm)]

theorem translate_refused {pg : Page} (hp : s.part? part = some p) (hw : walk s p va = .ok pg)
    (h : ¬(permits pg i ∧ (pg.sys = true → sys = true))) : ∃ wi, translate s part sys va i = .error (.perm, wi) :=
  ⟨_, by rw [translate_of_page hp hw, if_neg (mt (admits_iff ..).mp h)]⟩

theorem fillHandle_of_page {h : HerdCtx} {pg : Page} {op : Nat} (hpart : h.part = part) (hva : va < 2 ^ 64)
    (ht : translate s part sys va i = .ok pg) :
    fillHandle s h sys (BitVec.ofNat 64 va) i op = (touchPage s pg i, Handle.ofPage pg (BitVec.ofNat 64 va) i) := by
  simp only [fillHandle, hpart, BitVec.toNat_ofNat, Nat.mod_eq_of_lt hva, ht]

theorem fillHandle_of_error {h : HerdCtx} {k : Cause} {wi : WalkInfo} {op : Nat} (hpart : h.part = part) (hva : va < 2 ^ 64)
    (ht : translate s part sys va i = .error (k, wi)) :
    (fillHandle s h sys (BitVec.ofNat 64 va) i op).2 = Handle.ofFail (BitVec.ofNat 64 va) k wi ∧
      (k ≠ .xlateS2 → (fillHandle s h sys (BitVec.ofNat 64 va) i op).1 = s) := by
  simp only [fillHandle, hpart, BitVec.toNat_ofNat, Nat.mod_eq_of_lt hva, ht, true_and]
  exact fun hk => if_neg hk

end

theorem Memory.getBytes_eq_map (m : List Host.Cell) (a n : Nat) :
    Memory.getBytes m a n = (List.range n).map fun k => Memory.get m (a + k) := by
  induction n generalizing a with
  | zero => rfl
  | succ n ih =>
    rw [Memory.getBytes, ih, List.range_succ_eq_map]
    simp [Nat.add_assoc, Nat.add_comm 1]

theorem mem64_putMem64_same (s : State) (a : Nat) (v : Word) (hs : s.memOk) : mem64 (putMem64 s a v) a = v := by
  have hb : Memory.getBytes (putMem64 s a v).mem a 8 = bytesOf 8 v.toNat := by
    rw [Memory.getBytes_eq_map]
    refine List.ext_getElem (by simp) fun k h1 h2 => ?_
    have hk : k < 8 := by simpa using h1
    rw [List.getElem_map, List.getElem_range, putMem64, putMem, Memory.get_setBytes _ _ _ _ hs, if_pos (by simp; omega),
      Nat.add_sub_cancel_left, List.getD_eq_getElem]
  rw [mem64, hb, natOf_bytesOf]
  apply BitVec.eq_of_toNat_eq
  rw [BitVec.toNat_ofNat]
  omega

theorem mem64_putMem64_apart (s : State) (a e : Nat) (v : Word) (hs : s.memOk) (h : a + 8 ≤ e ∨ e + 8 ≤ a) :
    mem64 (putMem64 s a v) e = mem64 s e := by
  have hb : Memory.getBytes (putMem64 s a v).mem e 8 = Memory.getBytes s.mem e 8 := by
    rw [Memory.getBytes_eq_map, Memory.getBytes_eq_map]
    refine List.map_congr_left fun k hk => ?_
    have hk : k < 8 := List.mem_range.mp hk
    rw [putMem64, putMem, Memory.get_setBytes _ _ _ _ hs, if_neg (by simp; omega)]
  rw [mem64, hb, mem64]

theorem memOk_putMem64 {s : State} (a : Nat) (v : Word) (hs : s.memOk) : (putMem64 s a v).memOk :=
  Memory.setBytes_wf _ _ _ hs

/-- R184: A, and D under a writing intent, are set in both of a page's entries. -/
theorem mem64_touchPage (s : State) (pg : Page) (i : BitVec 2) (hs : s.memOk)
    (hap : pg.entry1 + 8 ≤ pg.entry2 ∨ pg.entry2 + 8 ≤ pg.entry1) (e : Nat) (he : e = pg.entry1 ∨ e = pg.entry2) :
    mem64 (touchPage s pg i) e = mem64 s e ||| (if i = 0 then 0x800 else 0x1800) := by
  have hs' := memOk_putMem64 pg.entry1 (mem64 s pg.entry1 ||| (if i = 0 then 0x800 else 0x1800)) hs
  unfold touchPage orEntry
  rcases he with rfl | rfl
  · rw [mem64_putMem64_apart _ _ _ _ hs' hap.symm, mem64_putMem64_same _ _ _ hs]
  · rw [mem64_putMem64_same _ _ _ hs', mem64_putMem64_apart _ _ _ _ hs hap]

theorem translationsPermitAndMark : TranslationsPermitAndMark := by
  intro s part va sys i
  refine ⟨translate_iff, fun p pg hp hw h => translate_refused hp hw h, fun p k wi hp hw => translate_of_error hp hw,
    fun pg => mem64_touchPage s pg i, fun h pg hpart hva ht op => ?page, fun h k wi hpart hva ht op => ?failure⟩
  case page =>
    rw [fillHandle_of_page hpart hva ht]
    refine ⟨rfl, rfl, rfl, rfl, rfl, ?_, rfl, rfl, rfl, rfl⟩
    simp [Handle.ofPage]
  case failure =>
    obtain ⟨hhandle, hstate⟩ := fillHandle_of_error (op := op) hpart hva ht
    dsimp only
    rw [hhandle]
    exact ⟨rfl, rfl, rfl, hstate⟩

/-! ### The handle operations (R186, R188) -/

/-- A member with room keeps to the snapshot with one more result. -/
theorem withPending_fits (m : Member) (p : Pending) (h : m.hasRoom = true) : (m.withPending p).fits = true := by
  simp only [Member.hasRoom, Bool.and_eq_true, decide_eq_true_eq] at h
  have hp := List.length_filter_le Pending.wide [p]
  simp only [Member.withPending, Member.fits, List.length_append, List.filter_append, Bool.and_eq_true, decide_eq_true_eq]
  simp only [List.length_singleton] at *
  omega

theorem grows_fxTrans (c : Ctx) (s : State) (va : Word) (i : BitVec 2) (op : Nat) (p : Handle → Pending) :
    Grows c.id c.mi 1 s ((fillHandle s c.h c.sys va i op).1.modMember c.id c.mi
      (·.withPending (p (fillHandle s c.h c.sys va i op).2))) :=
  (Grows.of_quiet c.id c.mi (quiet_fillHandle s c.h c.sys va i op)).after
    (Grows.modMember c.id c.mi 1 _ _ fun _ => ⟨_, rfl, by simp⟩)

theorem handleOperationsFillClearAndRead : HandleOperationsFillClearAndRead :=
  ⟨fun f => does_memory rfl (fun _ _ _ => rfl) (by decide) fun c s =>
      grows_fxTrans c s _ _ _ fun x => ⟨.h ((c.h.hreg f.hd.toNat).getD f.hd.toNat) x, 0, c.v, c.v + 24, true⟩,
    fun _ => acts_of _ (.inr (.inr rfl)) (exec_solo _ (.inr (.inr rfl))) _ (fun _ _ _ => rfl)
      fun _ _ m hm => withPending_fits m _ hm,
    fun _ => acts_of _ (.inr (.inr rfl)) (exec_solo _ (.inr (.inr rfl))) _ (fun _ _ _ => rfl)
      fun _ _ m hm => withResult_fits m _ _ _ _ _ hm⟩

end Sys2Proof.Machine

namespace Sys2Proof.Claims
open Sys2Proof.Machine

/-- Settles O17: the walks by induction on the levels left (`walk2From_iff`, `leafOfStage1_of_walk1From`), and what a translation
adds to a walk (`translate_iff`, `mem64_touchPage`). -/
theorem translationFillsTheHandle : Obligations.TranslationFillsTheHandle :=
  ⟨handleOperationsFillClearAndRead, walksFollowTheirTables, translationsPermitAndMark⟩

end Sys2Proof.Claims
end

section
/-! Retries of a full/empty access, and what a stream's generator does on its own (R201, R214..R216). -/

namespace Sys2Proof.Machine
open Sys2Proof.Claims

section
variable {s t : State} {id mi qn : Nat} {h : HerdCtx} {m : Member} (hid : s.hc? id = some h)
include hid

/-- A RUNNING herd-context that retries issues its bundle again, from within its budget or from beyond it. -/
theorem retryFe_running {b : Bundle} {spent : Bool} (hrun : h.hstate = .running) (htries : 0 < h.feTries)
    (hspent : decide (h.feBudget.toNat ≤ h.feTries) = spent) (hb : bundleAtPc s h = some b) :
    retryFe s id spent = issueBundle s id b := by
  simp [retryFe, hid, hrun, htries, hspent, hb]

/-- The generator of an input stream fetches the next element that it does not hold (R214). -/
theorem readAhead_fetches {rc : StrmRec} {e : Nat} {q : Strm} {d : List Byte} {tag : Tag} (hm : h.members[mi]? = some m)
    (hr : (m.strm qn).recd = some rc) (hdir : rc.dirOut = false) (hfem : rc.fem = 0) (hsaved : h.hstate ≠ .saved)
    (hnext : nextAhead (m.strm qn) rc = some e) (hpause : elemPaused s ⟨h.who s, m.core, (m.strm qn).sys⟩ rc e = false)
    (hfetch : fetchElem s ⟨h.who s, m.core, (m.strm qn).sys⟩ (m.strm qn) rc e = .ok (t, q, d, tag)) :
    readAhead s id mi qn = t.modMember id mi fun m =>
      m.setStrm qn { q with ahead := aset q.ahead (if rc.wrap = true then e % rc.total else e) (d, tag) } := by
  simp [readAhead, hid, HerdCtx.member?, hm, hr, hdir, hfem, hsaved, hnext, hpause, hfetch]

/-- The generator of an output stream writes the oldest element with those that share its full/empty word (R215). -/
theorem writeOldest_writes {x : OutElem} {rest : List OutElem} (hm : h.members[mi]? = some m) (hout : (m.strm qn).out = x :: rest)
    (hw : writeOut s (h.who s) (x :: rest.takeWhile x.joins) = some t) :
    writeOldest s id mi qn = t.modMember id mi fun m =>
      m.setStrm qn { m.strm qn with out := rest.dropWhile x.joins } := by
  simp [writeOldest, hid, HerdCtx.member?, hm, hout, hw]

end
end Sys2Proof.Machine

namespace Sys2Proof.Claims
open Sys2Proof.Machine

/-- Settles O38: the hypotheses are the tests on the way to each effect. -/
theorem retriesAndStreamsProceed : Obligations.RetriesAndStreamsProceed := fun _ _ _ hid =>
  ⟨fun _ hrun htries hbudget hb => congrArg _ (retryFe_running hid hrun htries (decide_eq_false (by omega)) hb),
    fun _ hrun htries hbudget hb => congrArg _ (retryFe_running hid hrun htries (decide_eq_true hbudget) hb),
    fun _ _ _ _ _ _ _ _ _ hm hr hdir hfem hsaved hnext hpause hfetch =>
      congrArg _ (readAhead_fetches hid hm hr hdir hfem hsaved hnext hpause hfetch),
    fun _ _ _ _ _ _ hm hout hw => congrArg _ (writeOldest_writes hid hm hout hw)⟩

end Sys2Proof.Claims
end

section
/-! What firmware does for the herd-contexts that wait for it (R189, R224, R377, R381, R385..R389). -/

namespace Sys2Proof.Machine
open Sys2Proof.Claims

/-! ### Retranslation and waking (R224, R377, R381) -/

theorem lifeOf_modMember (s : State) (id mi : Nat) (f : Member → Member) : (s.modMember id mi f).lifeOf id = s.lifeOf id :=
  lifeOf_modHc s id _ fun h => h.modMember_hstate mi f

/-- A handle that is translated afresh leaves the herd-context in its state of life. -/
theorem retranslate_lifeOf (s : State) (id : Nat) (h : HerdCtx) (r : TrapRec) : (retranslate s id h r).lifeOf id = s.lifeOf id := by
  refine lifeOf_foldl _ id (fun t mi => ?_) _ s
  dsimp only
  split
  · rfl
  split
  · exact lifeOf_modMember ..
  split
  · rfl
  split
  · rfl
  split
  · rfl
  · exact (lifeOf_modMember ..).trans (lifeOf_quiet (quiet_fillHandle ..) id)

/-- The state in which a regeneration's waiter has had the address that faulted translated afresh (R224). -/
def refreshed (s : State) (id : Nat) (h : HerdCtx) : State :=
  match h.trap with | some r => retranslate s id h r | none => s

theorem refreshed_lifeOf (s : State) (id : Nat) (h : HerdCtx) : (refreshed s id h).lifeOf id = s.lifeOf id := by
  unfold refreshed
  split
  · exact retranslate_lifeOf ..
  · rfl

/-- A PARKED herd-context that is taken off its list is resumed. -/
theorem unpark_parked {s : State} {id : Nat} (hl : s.lifeOf id = some .parked) (last : Option (Nat × Nat)) (regen : Option Nat) :
    unpark s id last regen =
      resumeHc (s.modHc id fun g => { g with parked := none, trap := none, lastFe := last, regenWoken := regen }) id := by
  obtain ⟨g, hg, hp⟩ := Option.map_eq_some_iff.mp hl
  simp only [unpark, State.modHc, hg, hp, if_true]

section
variable {s : State} {id : Nat} {h : HerdCtx} (hid : s.hc? id = some h)
include hid

/-- R92 and R224: at its target, a regeneration's waiter waits for those before it in the counter's list. -/
theorem regenStep_reached {idx node ctr : Nat} {t : Word} (hp : h.parked = some (.regen idx node ctr t))
    (hr : regenReached s h.part idx ctr t = true) :
    regenStep s id = if waitsBehind s id h then s else regenWake s id h idx := by
  simp only [regenStep, hid, hp, hr, Bool.true_and]
  cases waitsBehind s id h <;> rfl

theorem regenWake_parked {idx : Nat} (hp : h.hstate = .parked) : regenWake s id h idx =
    resumeHc ((refreshed s id h).modHc id fun g =>
      { g with parked := none, trap := none, lastFe := none, regenWoken := some idx }) id := by
  refine unpark_parked (s := refreshed s id h) ?_ none (some idx)
  rw [refreshed_lifeOf, State.lifeOf, hid, Option.map_some, hp]

end

/-! ### Regeneration (R224, R388) -/

/-- A herd-context has no record in the queue of its die. -/
theorem notQueued {s : State} {id : Nat} {h : HerdCtx} (hq : ∀ d, s.dies[h.die]? = some d → ∀ q ∈ d.trapQ, q.hc ≠ id) :
    ((s.dies[h.die]?).map fun d => d.trapQ.any (·.hc == id)).getD false = false := by
  cases hd : s.dies[h.die]? with
  | none => rfl
  | some d => simpa using hq d hd

/-- A REGEN fault whose record is taken is what the sequencer acts on. -/
theorem regenStep_trap {s : State} {id : Nat} {h : HerdCtx} {r : TrapRec} (hid : s.hc? id = some h) (hpark : h.parked = none)
    (ht : h.trap = some r) (hf : h.hstate = .frozen) (hheld : h.held = false) (hc : r.trap.cause = .regen)
    (hq : ∀ d, s.dies[h.die]? = some d → ∀ q ∈ d.trapQ, q.hc ≠ id) : regenStep s id = regenTrap s id h r := by
  simp [regenStep, hid, hpark, ht, hf, hheld, hc, notQueued hq]

/-- The value at which a node's next regeneration is complete (R224). -/
def regenTarget (s : State) (part : Nat) (n : Node) : Nat :=
  min (completionValue s part n + n.field 120 4) (2 ^ 64 - 1)

/-- The state in which a node owes the first regeneration of its partition, and the herd-context waits for it. -/
def regenOwed (s : State) (id : Nat) (h : HerdCtx) (r : TrapRec) (node : Nat) (n : Node) (arg : Word) : State :=
  parkRegen (queueRegen (s.modPart h.part fun p => { p with regens := p.regens ++
    [⟨r.trap.addr2.toNat, node, arg, r.trap.va, BitVec.ofNat 64 (regenTarget s h.part n), false⟩] }) h.part node n)
    id r.trap.addr2.toNat node (completionPlace s h.part n) (regenTarget s h.part n)

theorem regenTrap_first {s : State} {id node : Nat} {h : HerdCtx} {r : TrapRec} {p : Part} {n : Node} {arg : Word}
    (hkind : ((s.node? h.part h.node).map (·.kind)) ≠ some 5) (hw : h.regenWoken ≠ some r.trap.addr2.toNat)
    (hp : s.part? h.part = some p) (he : regenEntry s h.part r.trap.addr2.toNat = some (node, arg)) (hr : p.regens = [])
    (hn : aget p.nodes node = some n) (h5 : n.kind = 5) (ha : n.state = .armed) (hh : p.halted = false) :
    regenTrap s id h r = regenOwed s id h r node n arg := by
  simp [regenTrap, regenOwed, hkind, hw, hp, he, hr, hn, h5, ha, hh, regenTarget]

/-- An ARMED node that owes a regeneration becomes READY. -/
theorem queueRegen_node {s : State} {part node : Nat} {n m : Node} (ha : n.state = .armed) (hm : s.node? part node = some m) :
    (queueRegen s part node n).node? part node = some { m with state := .ready, requeues := 0, rollback := none } := by
  rw [queueRegen, if_pos (by rw [ha]; rfl), enqueueNode, State.node_modPart]
  · rw [State.node_modNode_same, hm, Option.map_some]
  · exact fun _ => rfl

theorem Part.modNode_regens (p : Part) (n : Nat) (f : Node → Node) : (p.modNode n f).regens = p.regens := by
  unfold Part.modNode
  split <;> rfl

theorem queueRegen_regens (s : State) (part node : Nat) (n : Node) :
    ((queueRegen s part node n).part? part).map (·.regens) = (s.part? part).map (·.regens) := by
  unfold queueRegen enqueueNode State.modNode
  split <;> simp [State.modPart_part, Function.comp_def, Part.modNode_regens]

@[simp] theorem queueRegen_hctxs (s : State) (part node : Nat) (n : Node) : (queueRegen s part node n).hctxs = s.hctxs := by
  unfold queueRegen enqueueNode State.modNode
  split <;> simp

@[simp] theorem parkRegen_parts (s : State) (id idx node ctr target : Nat) : (parkRegen s id idx node ctr target).parts = s.parts :=
  State.modHc_parts ..

/-- R224: the herd-context is PARKED on the regeneration. -/
theorem parkRegen_hc {s : State} {id : Nat} {h : HerdCtx} (hid : s.hc? id = some h) (idx node ctr target : Nat) :
    ∃ x, (parkRegen s id idx node ctr target).hc? id = some x ∧ x.hstate = .parked ∧
      x.parked = some (.regen idx node ctr (BitVec.ofNat 64 target)) := by
  rw [parkRegen, State.modHc_hc, hid]
  exact ⟨_, rfl, rfl, rfl⟩

/-- R224 and R388: a REGEN fault on an ARMED node queues an instance of it and parks the herd-context. -/
theorem regenOwed_parks {s : State} {id node : Nat} {h : HerdCtx} {r : TrapRec} {p : Part} {n : Node} {arg : Word}
    (hid : s.hc? id = some h) (hp : s.part? h.part = some p) (hr : p.regens = []) (hn : aget p.nodes node = some n)
    (ha : n.state = .armed) : ∃ x y, (regenOwed s id h r node n arg).hc? id = some x ∧ x.hstate = .parked ∧
      x.parked = some (.regen r.trap.addr2.toNat node (completionPlace s h.part n) (BitVec.ofNat 64 (regenTarget s h.part n))) ∧
      (regenOwed s id h r node n arg).node? h.part node = some y ∧ y.state = .ready ∧
      ((regenOwed s id h r node n arg).part? h.part).map (·.regens) = some [⟨r.trap.addr2.toNat, node, arg, r.trap.va,
        BitVec.ofNat 64 (regenTarget s h.part n), false⟩] := by
  have hid' : ∀ q : Part → Part, (queueRegen (s.modPart h.part q) h.part node n).hc? id = some h := fun q => by
    rw [State.hc?, queueRegen_hctxs, State.modPart_hctxs]
    exact hid
  obtain ⟨x, hx, hparked⟩ := parkRegen_hc (hid' _) r.trap.addr2.toNat node (completionPlace s h.part n) (regenTarget s h.part n)
  refine ⟨x, { n with state := .ready, requeues := 0, rollback := none }, hx, hparked.1, hparked.2, ?armed, rfl, ?owed⟩
  case armed =>
    rw [regenOwed, State.node?, State.part?, parkRegen_parts]
    refine queueRegen_node (m := n) ha ?_
    rw [State.node_modPart]
    · rw [State.node?, hp]
      exact hn
    · exact fun _ => rfl
  case owed =>
    rw [regenOwed, State.part?, parkRegen_parts]
    refine (queueRegen_regens ..).trans ?_
    rw [State.modPart_part, hp]
    simp [hr]

/-! ### Shared blocks, held herd-contexts and revoked handles (R221, R363, R377, R381) -/

section
variable {s : State} {id : Nat} {h : HerdCtx} {r : TrapRec} (hid : s.hc? id = some h) (ht : h.trap = some r)
include hid ht

theorem repairResume_trap : repairResume s id = resumeHc (retranslate s id h r) id := by
  simp only [repairResume, hid, ht]

theorem handleAgain_quiet (ha : awaits s h id .handleInvalid = true) (hr : r.wasRevoked = true)
    (hq : ∀ p, s.part? h.part = some p → p.invals = []) : handleAgain s id = resumeHc (retranslate s id h r) id := by
  have hquiet : ((s.part? h.part).map (·.invals.isEmpty)).getD true = true := by
    cases hp : s.part? h.part with
    | none => rfl
    | some p => simp [hq p hp]
  simp [handleAgain, hid, ht, ha, hr, hquiet, repairResume_trap hid ht]

/-- R363: what the runtime asks for is done with a herd-context that is held. -/
theorem answerHeld_held (hf : h.hstate = .frozen) (hheld : h.held = true) (halt : Bool)
    (hc : halt = true → r.trap.cause ≠ .xlateS2) :
    answerHeld s id halt = if halt then haltNode s h.part h.node else resumeHc (retranslate s id h r) id := by
  cases halt with
  | false => simp [answerHeld, hid, hf, hheld, repairResume_trap hid ht]
  | true => simp [answerHeld, hid, ht, hf, hheld, hc]

/-- R221: the copy waits for what goes through the entry; it then swaps the entry and resumes the writer. -/
theorem copyShared_ready {f cnt ea : Nat} {t : State} {op np : Page} (ha : awaits s h id .blockShared = true)
    (hreach : reach s h.part true r.trap.addr2.toNat 1 = .ok (t, ea))
    (hop : translate t h.part true ((mem64 t ea).toNat / 65536 * 65536) 0 = .ok op)
    (hnp : translate t h.part true (f / 65536 * 65536) 1 = .ok np)
    (hpark : ∀ x ∈ t.park, ¬ (op.pa ((mem64 t ea).toNat / 65536 * 65536) / 8 ≤ x.1 ∧
      x.1 < (op.pa ((mem64 t ea).toNat / 65536 * 65536) + 65536) / 8)) (u : State) (free : Bool)
    (hfence : fenceEntries t h.part r.trap.addr2.toNat 8 none t.nextCmd t.nextCmd = (u, free)) :
    copyShared s id (some (f, cnt)) = if free then resumeHc (countDown (swapWake (putMem64
      (copyBlock u (op.pa ((mem64 t ea).toNat / 65536 * 65536)) (np.pa (f / 65536 * 65536))) ea
      (BitVec.ofNat 64 (f / 65536 * 65536) ||| (mem64 t ea &&& 0xFFFD))) ea) h.part cnt) id else u := by
  have hpark' : (t.park.any fun (k, _) => decide (op.pa ((mem64 t ea).toNat / 65536 * 65536) / 8 ≤ k) &&
      decide (k < (op.pa ((mem64 t ea).toNat / 65536 * 65536) + 65536) / 8)) = false := by
    rw [List.any_eq_false]
    intro x hx
    simpa using hpark x hx
  simp only [copyShared, hid, ht, ha, hreach, hop, hnp, hpark', hfence]
  cases free <;> rfl

end

theorem firmwareResumesTheHerdContext : FirmwareResumesTheHerdContext := by
  intro s id h hid
  refine ⟨fun idx node ctr t hp hr hs => ⟨fun hb => ?waits, fun hb => ?wakes⟩, ?regen, fun r ha ht hr hq => ?again,
    fun r f cnt t ea op np ht ha hreach hop hnp hpark => ⟨fun u hu => ?copied, fun u hu => ?fenced⟩,
    fun r hf hheld ht => ⟨?resumed, fun hc => ?halted⟩⟩
  case waits => exact congrArg _ ((regenStep_reached hid hp hr).trans (if_pos hb))
  case wakes =>
    refine congrArg _ ((regenStep_reached hid hp hr).trans ((if_neg (by simp [hb])).trans ?_))
    exact regenWake_parked hid hs
  case regen =>
    intro r p n hpark ht hf hheld hc hq hkind hw hp node arg he hr hn h5 ha hh
    obtain ⟨x, y, hparks⟩ := regenOwed_parks (r := r) (arg := arg) hid hp hr hn ha
    have hstep : regenStep s id = regenOwed s id h r node n arg :=
      (regenStep_trap hid hpark ht hf hheld hc hq).trans (regenTrap_first hkind hw hp he hr hn h5 ha hh)
    exact ⟨_, x, y, congrArg Host.Outcome.next hstep, hparks⟩
  case again => exact congrArg _ (handleAgain_quiet hid ht ha hr hq)
  case copied => exact congrArg _ (copyShared_ready hid ht ha hreach hop hnp hpark u true hu)
  case fenced => exact congrArg _ (copyShared_ready hid ht ha hreach hop hnp hpark u false hu)
  case resumed => exact congrArg _ (answerHeld_held hid ht hf hheld false nofun)
  case halted => exact congrArg _ (answerHeld_held hid ht hf hheld true fun _ => hc)

/-! ### Invalidations and wakes (R189, R386, R387) -/

section
variable {s : State} {part : Nat} {p : Part} (hp : s.part? part = some p)
include hp

theorem invalidate_part (stage2 : Bool) (lo len ctr : Nat) :
    invalidate s part stage2 lo len ctr = invalidated s part p stage2 lo len ctr := by
  simp only [invalidate, hp]
  rfl

theorem invalidateDone_quiet {x : Inval} {rest : List Inval} (hi : p.invals = x :: rest) (hq : engineQuiet s part = true) :
    invalidateDone s part = addVa (s.setPart part { p with invals := rest }) part (BitVec.ofNat 64 x.ctr) 1 := by
  simp only [invalidateDone, hp, hi, hq, if_true]

/-- R386 and R387: the oldest wake record that firmware has not read. -/
theorem serveWake_oldest {t : State} {cpa pa : Nat} (hreach : reach s part true p.cfg.wakeCtr.toNat 3 = .ok (t, cpa))
    (hlt : p.wakeSeen.toNat < (mem64 s cpa).toNat) (hle : (mem64 s cpa).toNat - p.wakeSeen.toNat ≤ p.cfg.wakeCount.toNat)
    (hpa : gpaPa (s.modPart part fun p => { p with wakeSeen := p.wakeSeen + 1 }) p
      (p.cfg.wakeBase.toNat + 16 * (p.wakeSeen.toNat % max p.cfg.wakeCount.toNat 1)) = .ok pa) :
    let u := s.modPart part fun p => { p with wakeSeen := p.wakeSeen + 1 }
    serveWake s part = serveKey u part ((mem64 u pa).getLsbD 63) ((mem64 u pa).extractLsb' 0 58).toNat
      ((mem64 u (pa + 8)).extractLsb' 8 8).toNat ((mem64 u (pa + 8)).getLsbD 0) := by
  simp only [serveWake, hp, hreach]
  rw [if_neg (by omega), if_neg (by omega), hpa]

end

theorem invalidationsAndWakesAreServed : InvalidationsAndWakesAreServed := fun _ _ _ hp =>
  ⟨fun st2 lo len ctr => congrArg _ (invalidate_part hp st2 lo len ctr),
    fun _ _ hi hq => congrArg _ (invalidateDone_quiet hp hi hq),
    fun _ _ _ hreach hlt hle hpa => congrArg _ (serveWake_oldest hp hreach hlt hle hpa)⟩

end Sys2Proof.Machine

namespace Sys2Proof.Claims
open Sys2Proof.Machine

/-- Settles O47: each act of firmware is the branch that its hypotheses select; a parked waiter stays PARKED while its handle is
translated afresh (`retranslate_lifeOf`), so that it is resumed. -/
theorem firmwareServesItsWaiters : Obligations.FirmwareServesItsWaiters :=
  ⟨firmwareResumesTheHerdContext, invalidationsAndWakesAreServed⟩

end Sys2Proof.Claims
end

section
/-! The waiting full/empty forms on a herd of one member: their attempt, and the commit, the next try or the trap that follows it
(R200, R201, R384, R385). -/

namespace Sys2Proof.Machine
open Sys2Proof.Claims

/-! ### What a full/empty operation leaves of the cores -/

theorem foldl_cores {α : Type} {f : State → α → State} (hf : ∀ s a, (f s a).cores = s.cores) (l : List α) (s : State) :
    (l.foldl f s).cores = s.cores := by
  induction l generalizing s with
  | nil => rfl
  | cons a l ih => exact (ih (f s a)).trans (hf s a)

@[simp] theorem markIrrev_cores (s : State) (w : Who) : (markIrrev s w).cores = s.cores := by
  unfold markIrrev
  split <;> simp

@[simp] theorem performStaged_cores (s : State) (w : Who) (a : Nat) : (performStaged s w a).cores = s.cores := by
  unfold performStaged
  split
  · dsimp only
    split <;> simp
  · rfl

@[simp] theorem writeNow_cores (s : State) (w : Who) (a : Nat) (l : List Byte) (t : Tag) : (writeNow s w a l t).cores = s.cores := by
  unfold writeNow
  split
  · simp [countFabErr]
  split
  · rfl
  · exact (foldl_cores (fun _ _ => setMemTag_cores ..) _ _).trans (foldl_cores (fun _ _ => performStaged_cores ..) _ _)

@[simp] theorem counterAdd_cores (s : State) (w : Who) (a : Nat) (v : BitVec 32) (t : Tag) :
    (counterAdd s w a v t).cores = s.cores := by
  have hw : ∀ l t, (writeImm s w a l t).cores = s.cores := fun l t => (markIrrev_cores _ _).trans (writeNow_cores ..)
  unfold counterAdd noteAdd
  dsimp only
  split
  · split <;> exact hw _ _
  · exact hw _ _

theorem reach_cores {s t : State} {part va pa : Nat} {sys : Bool} {i : BitVec 2} (h : reach s part sys va i = .ok (t, pa)) :
    t.cores = s.cores := by
  unfold reach at h
  split at h
  · cases h
  · cases h
    rfl

@[simp] theorem wakeRecord_cores (s : State) (spad : Bool) (key op : Nat) (full : Bool) :
    (wakeRecord s spad key op full).cores = s.cores := by
  unfold wakeRecord
  split
  · rfl
  split
  · rfl
  split
  · rfl
  · next t cpa ht =>
    rw [counterAdd_cores, ← reach_cores ht]
    split
    · exact writeNow_cores ..
    · rfl

/-! ### Whether a scratchpad access resolves does not depend on what the words hold -/

/-- What the place of a scratchpad word depends on: the split of the pool, and the scoreboard (R103, R107). -/
def Core.layout (c : Core) : Nat × Nat × Nat × List Score := (c.b1, c.b2, c.b3, c.score)

/-- Every core keeps its layout. -/
def SameLayout (s t : State) : Prop := ∀ x, (t.core x).layout = (s.core x).layout

theorem SameLayout.of_cores {s t : State} (h : t.cores = s.cores) : SameLayout s t := fun x => by
  rw [State.core, h]
  rfl

theorem SameLayout.refl (s : State) : SameLayout s s := fun _ => rfl

theorem SameLayout.trans {s t u : State} (h : SameLayout s t) (h' : SameLayout t u) : SameLayout s u := fun x =>
  (h' x).trans (h x)

theorem SameLayout.setCore {s : State} {c : Nat} {k : Core} (hk : k.layout = (s.core c).layout) : SameLayout s (s.setCore c k) := by
  intro x
  by_cases hx : x = c
  · subst hx
    rw [State.setCore_core, hk]
  · rw [State.setCore_core_other _ _ _ _ hx]

theorem SameLayout.foldl {α : Type} {f : State → α → State} (hf : ∀ s a, SameLayout s (f s a)) (l : List α) (s : State) :
    SameLayout s (l.foldl f s) := by
  induction l generalizing s with
  | nil => exact SameLayout.refl s
  | cons a l ih => exact (hf s a).trans (ih (f s a))

theorem sameLayout_setSpFull (s : State) (c a : Nat) (full : Bool) (op : Nat) : SameLayout s (setSpFull s c a full op) := by
  have hset : ∀ l, SameLayout s (s.setCore c { s.core c with spEmpty := l }) := fun l => SameLayout.setCore rfl
  unfold setSpFull
  dsimp only
  split
  · exact (hset _).trans (SameLayout.of_cores (wakeRecord_cores ..))
  · exact hset _

theorem sameLayout_locPut (s : State) (w : Who) (c a : Nat) (v : SReg) : SameLayout s (locPut s w (.sp c a) v) := by
  simp only [locPut, locWrite, Option.getD_some]
  refine SameLayout.trans (SameLayout.foldl ?bytes _ s) (SameLayout.foldl ?tags _ _)
  all_goals exact fun _ _ => SameLayout.setCore rfl

/-- An attempt at a scratchpad word changes the layout of no core. -/
theorem sameLayout_feEffect (k : FeKind) (s : State) (w : Who) (c a : Nat) (d : SReg) (op : Nat) :
    SameLayout s (feEffect k s w (.sp c a) d op).1 := by
  have hb : SameLayout s (beginImm s w (.sp c a)) := SameLayout.of_cores (markIrrev_cores s w)
  cases k with
  | wait => exact hb
  | take => exact hb.trans (sameLayout_setSpFull _ c a false op)
  | fill => exact (hb.trans (sameLayout_locPut _ w c a d)).trans (sameLayout_setSpFull _ c a true op)

section
variable {s t : State} (hst : SameLayout s t)
include hst

theorem SameLayout.cap (x : Nat) : (t.core x).cap = (s.core x).cap := by
  have := hst x
  simp only [Core.layout, Prod.mk.injEq] at this
  simp only [Core.cap, this]

theorem SameLayout.lpr (x : Nat) : (t.core x).lpr = (s.core x).lpr := by
  have := hst x
  simp only [Core.layout, Prod.mk.injEq] at this
  simp only [Core.lpr, this]

theorem SameLayout.score (x : Nat) : (t.core x).score = (s.core x).score := by
  have := hst x
  simp only [Core.layout, Prod.mk.injEq] at this
  obtain ⟨-, -, -, hscore⟩ := this
  exact hscore

/-- A full/empty form resolves its address the same, whatever the system bit and the body (R200). -/
theorem resolveSp_fe (core : Nat) (sys pub sys' pub' : Bool) (a n : Nat) :
    resolveSp t core .fe sys' pub' a n = resolveSp s core .fe sys pub a n := by
  simp only [resolveSp, hst.cap, hst.lpr, beq_self_eq_true, Bool.or_true, if_true]
  rfl

theorem spAccess_fe {c c' : Ctx} {a n al op lane x b : Nat} {write : Bool} (hcore : c'.m.core = c.m.core)
    (h : spAccess s c .fe a n al op lane write = .ok (.word x b)) : spAccess t c' .fe a n al op lane write = .ok (.word x b) := by
  unfold spAccess at h ⊢
  rw [hcore, resolveSp_fe hst c.m.core c.sys c.pub]
  cases hr : resolveSp s c.m.core .fe c.sys c.pub a n with
  | error k => simp [hr] at h
  | ok p =>
    simp only [hr] at h ⊢
    split_ifs at h with hal hown hscore hbusy
    obtain rfl : p = .word x b := Except.ok.inj h
    rw [if_neg hal, if_neg (by simp [tileOwned]), if_neg, if_neg (by simp [placeBusy])]
    simpa only [scoreBlocks, hst.score] using hscore

end

/-! ### The attempt (Table 9.6) -/

theorem feAttempt_works {k : FeKind} {s : State} {w : Who} {l : Loc} (h : feWorks k s w l) (d : SReg) (op : Nat) :
    feAttempt s w k l d op false = some (feEffect k s w l d op) := by
  unfold feAttempt feEffect
  by_cases hu : unsent s w l = true
  · cases k <;> simp [hu]
  · have h := h.resolve_left hu
    cases k <;> simp_all

theorem feAttempt_fails {k : FeKind} {s : State} {w : Who} {l : Loc} (h : ¬ feWorks k s w l) (d : SReg) (op : Nat) :
    feAttempt s w k l d op false = none := by
  obtain ⟨hu, h⟩ := not_or.mp h
  unfold feAttempt
  cases k <;> simp_all

/-! ### The commit of a member whose word is held -/

/-- Poison consumed after an update of the member. -/
theorem consumeTag_of_modMember (s : State) (id k : Nat) (f : Member → Member) (x : Tag) :
    consumeTag (s.modMember id k f) id k x = s.modMember id k fun y => (f y).consumed x := by
  cases x with
  | none => rfl
  | some x => exact modMember_modMember s id k f _

/-- On a herd of one member only what an update makes of that member matters. -/
theorem modMember_eq_of {t : State} {id : Nat} {h : HerdCtx} {m : Member} {f g : Member → Member} (ht : t.hc? id = some h)
    (hm : h.members = [m]) (hfg : f m = g m) : t.modMember id 0 f = t.modMember id 0 g := by
  rw [State.modMember_one t id h m f ht hm, State.modMember_one t id h m g ht hm, hfg]

/-- A member that has used the word held for it. -/
def Member.released (m : Member) : Member := { m with feHeld := none }

theorem released_consumed_holding {m : Member} (hh : m.feHeld = none) (v : SReg) (x : Tag) :
    ((m.holding v).consumed x).released = m.consumed x := by
  obtain ⟨⟩ := m
  cases hh
  cases x <;> rfl

/-- The member's context once a word is held for it. -/
def heldCtx (t : State) (id : Nat) (h : HerdCtx) (m : Member) (v : SReg) : Ctx := ctxFor t id (h.holding m v) 0 3 0 (m.holding v)

/-- R202: with its word held, a waiting form commits with what is left to do on the member. -/
theorem feCommit_held {t u : State} {id : Nat} {h : HerdCtx} {m : Member} (ht : t.hc? id = some h) (hm : h.members = [m])
    (hh : m.feHeld = none) (v : SReg) (x : Tag) (l : Loc) (k : FeKind) (sd : BitVec 6) (lat : BitVec 4) (least : Nat) :
    feCommit (consumeTag (t.modMember id 0 (·.holding v)) id 0 x) (heldCtx u id h m v) l k sd lat least =
      .ok (t.modMember id 0 fun y => feFinish k (ctxFor u id h 0 3 0 m) l sd v lat least (y.consumed x)) := by
  have hfree : (consumeTag (t.modMember id 0 (·.holding v)) id 0 x).modMember id 0 Member.released =
      t.modMember id 0 (·.consumed x) := by
    rw [consumeTag_of_modMember, modMember_modMember]
    exact modMember_eq_of ht hm (released_consumed_holding hh v x)
  have hloaded : ∀ r, addResult ((consumeTag (t.modMember id 0 (·.holding v)) id 0 x).modMember id 0 Member.released)
      (heldCtx u id h m v) r 0 lat least =
      t.modMember id 0 fun y => (y.consumed x).withResult (ctxFor u id h 0 3 0 m).v r 0 lat least := fun r => by
    rw [hfree]
    exact (addResult_eq ..).trans (modMember_modMember ..)
  cases k with
  | wait => exact congrArg Except.ok (hloaded _)
  | take => exact congrArg Except.ok (hloaded _)
  | fill =>
    cases l with
    | sp c a => exact congrArg Except.ok hfree
    | mem pa =>
      have hpoison : ∀ y, consumeTag ((consumeTag (t.modMember id 0 (·.holding v)) id 0 x).modMember id 0 Member.released) id 0 y =
          t.modMember id 0 fun z => (z.consumed x).consumed y := fun y => by
        rw [hfree, consumeTag_of_modMember]
      cases hp : isHostPa pa with
      | false =>
        simp only [feFinish, hp, Bool.false_eq_true, if_false]
        exact congrArg Except.ok ((if_neg (by simp [hp])).trans hfree)
      | true =>
        simp only [feFinish, hp, if_true]
        exact congrArg Except.ok ((if_pos hp).trans (hpoison _))

theorem feFinish_fits {m : Member} (hm : m.hasRoom = true) (k : FeKind) (c : Ctx) (l : Loc) (sd : BitVec 6) (v : SReg)
    (lat : BitVec 4) (least : Nat) (x : Tag) : (feFinish k c l sd v lat least (m.consumed x)).fits = true := by
  have hroom : (m.consumed x).hasRoom = true := (consumed_hasRoom m x).trans hm
  cases k with
  | wait => exact withResult_fits _ _ _ _ _ _ hroom
  | take => exact withResult_fits _ _ _ _ _ _ hroom
  | fill =>
    cases l with
    | sp c a => exact Member.fits_of_hasRoom _ hroom
    | mem pa =>
      unfold feFinish
      dsimp only
      split
      · exact Member.fits_of_hasRoom _ ((consumed_hasRoom _ _).trans hroom)
      · exact Member.fits_of_hasRoom _ hroom

/-! ### The waiting forms -/

/-- What a waiting form of the M slot is: its place, what it attempts there, and its commit. -/
structure WaitsAt (i : Instr) (sd : BitVec 6) (lat : BitVec 4) (k : FeKind) (op : Nat) (place : Ctx → State → Option Loc)
    (least : Ctx → Nat) (so : Ctx → Tag) : Prop where
  memory : i.kind = .memory
  request : ∀ c u l, place c u = some l →
    feRequest i c u = some (k, .ok l, if k = .fill then c.s 13 sd.toNat else ⟨0, none⟩, op)
  runs : ∀ c u l, place c u = some l → slotFx i c u = feCommit (consumeTag u c.id c.mi (so c)) c l k sd lat (least c)
  /-- The word held, and an attempt at a scratchpad word, leave the place. -/
  stays : ∀ u t id h m v l, (∀ c a, l = .sp c a → SameLayout u t) → place (ctxFor u id h 0 3 0 m) u = some l →
    place (heldCtx t id h m v) t = some l
  so_held : ∀ u t id h m v, so (heldCtx t id h m v) = so (ctxFor u id h 0 3 0 m)
  least_held : ∀ u t id h m v, least (heldCtx t id h m v) = least (ctxFor u id h 0 3 0 m)

section
variable {i : Instr} {sd : BitVec 6} {lat : BitVec 4} {k : FeKind} {op : Nat} {place : Ctx → State → Option Loc}
  {least : Ctx → Nat} {so : Ctx → Tag} (hi : WaitsAt i sd lat k op place least so)
include hi

/-- The slot of a form whose word is held acts on its member. -/
theorem WaitsAt.slot_held {u t : State} {id : Nat} {h : HerdCtx} {m : Member} {l : Loc} (ht : t.hc? id = some h)
    (hm : h.members = [m]) (hh : m.feHeld = none) (hlay : ∀ c a, l = .sp c a → SameLayout u t)
    (hp : place (ctxFor u id h 0 3 0 m) u = some l) (v : SReg) :
    slotFx i (heldCtx (t.modMember id 0 (·.holding v)) id h m v) (t.modMember id 0 (·.holding v)) =
      .ok (t.modMember id 0 fun y => feFinish k (ctxFor u id h 0 3 0 m) l sd v lat (least (ctxFor u id h 0 3 0 m))
        (y.consumed (so (ctxFor u id h 0 3 0 m)))) := by
  have hlay' : ∀ c a, l = .sp c a → SameLayout u (t.modMember id 0 (·.holding v)) := fun c a hl =>
    (hlay c a hl).trans (SameLayout.of_cores (State.modMember_cores ..))
  rw [hi.runs _ _ l (hi.stays u _ id h m v l hlay' hp), hi.so_held u, hi.least_held u]
  exact feCommit_held ht hm hh v _ l k sd lat _

theorem WaitsAt.waitingForm : WaitingForm i sd i.guard lat k op place least so := by
  intro s id h m l hr hm hh u c hg hp d
  obtain ⟨hid, -, -, -, -, -, -, -, hlead, hroom, -⟩ := (issues_iff _ _ _ _).mp hr.2
  have hroom : m.hasRoom = true := List.all_eq_true.mp hroom m (by rw [hm]; exact List.mem_singleton_self m)
  have hfit : ∀ v, (feFinish k c l sd v lat (least c) (m.consumed (so c))).fits = true := fun v =>
    feFinish_fits hroom k c l sd v lat (least c) (so c)
  have hasks : feAsks u id h (bundleOf i) = [⟨0, none, k, l, d, op, feTrapOf c i op⟩] :=
    feAsks_one i hi.memory u id h m k l d op hm hh hg (hi.request c u l hp)
  have hretry : runSlot u (c, i) = .error .retry := by
    unfold runSlot
    rw [if_pos hg, hi.runs c u l hp, feCommit, show c.m.feHeld = none from hh]
  have hexec : exec i s = .next (attemptFe u id h (bundleOf i) none none) := by
    rw [exec_solo i (.inr (.inr hi.memory))]
    exact issueOne_retry i hi.memory s id h m _ _ hr hm hretry hasks rfl rfl hg
      (hi.slot_held hid hm hh (fun _ _ _ => SameLayout.refl u) hp ⟨0, none⟩) (hfit _)
  refine ⟨fun hw => ?works, fun hw htries => ?again, fun hw htries => ?spent⟩
  case works =>
    have hatt := feAttempt_works hw d op
    have hid' : (feEffect k u c.who l d op).1.hc? id = some h := by
      have hctxs := (quiet_feAttempt u (feEffect k u c.who l d op).1 c.who k l d _ op false hatt).1
      rw [State.hc?, hctxs]
      exact hid
    have hlay : ∀ x a, l = .sp x a → SameLayout u (feEffect k u c.who l d op).1 := by
      rintro x a rfl
      exact sameLayout_feEffect k u c.who x a d op
    rw [hexec]
    exact congrArg _ (attempt_commits i hi.memory u _ id h m _ _ _ hid hm hlead hasks rfl rfl hatt hg
      (hi.slot_held hid' hm hh hlay hp _) (hfit _))
  case again =>
    rw [hexec]
    exact congrArg _ (attempt_again i u id h _ hasks (feAttempt_fails hw d op) htries)
  case spent =>
    rw [hexec]
    exact congrArg _ (attempt_spent i u id h _ hasks (feAttempt_fails hw d op) htries rfl)

end

/-- The place of a form through a handle is its word when the handle's checks pass. -/
theorem waitsAt_handle {i : Instr} {f : SMemForm} {k : FeKind} {op : Nat} (hk : i.kind = .memory) (hfx : slotFx i = feForm f k op)
    (hreq : ∀ c u, feRequest i c u = some (k, feHandle c f op, if k = .fill then c.s 13 f.sd.toNat else ⟨0, none⟩, op)) :
    WaitsAt i f.sd f.lat k op
      (fun c _ => if handleFault (handle c f.h) .fe (offset c f.so f.imm.toInt) 8 8 = none then
        some (.mem (physical c f.h (offset c f.so f.imm.toInt))) else none)
      (fun _ => 12) fun c => (c.s 5 f.so.toNat).tag := by
  have hplace : ∀ (c : Ctx) (l : Loc), (if handleFault (handle c f.h) .fe (offset c f.so f.imm.toInt) 8 8 = none then
      some (Loc.mem (physical c f.h (offset c f.so f.imm.toInt))) else none) = some l → feHandle c f op = .ok l := by
    intro c l h
    split at h
    · next hp =>
      rw [feHandle_passes hp, Option.some.inj h]
    · cases h
  refine ⟨hk, fun c u l h => ?_, fun c u l h => ?_, fun u t id h m v l _ hp => hp, fun _ _ _ _ _ _ => rfl, fun _ _ _ _ _ _ => rfl⟩
  · rw [hreq, hplace c l h]
  · rw [hfx, feForm, hplace c l h]
    rfl

/-- The place of a form on the scratchpad is the word that its access resolves to. -/
theorem waitsAt_scratchpad {i : Instr} {f : SpsForm} {k : FeKind} {op : Nat} (hk : i.kind = .memory)
    (hfx : slotFx i = feSpForm f k op)
    (hreq : ∀ c u, feRequest i c u = some (k, feScratch u c f op, if k = .fill then c.s 13 f.sd.toNat else ⟨0, none⟩, op)) :
    WaitsAt i f.sd f.lat k op
      (fun c s => match spAccess s c .fe (spadAddr c f.sa f.imm.toInt) 8 8 op 0 true with
        | .ok (.word t a) => some (.sp t a) | _ => none)
      (fun c => if isWindow (spadAddr c f.sa f.imm.toInt) then 20 else 6) fun _ => none := by
  have hplace : ∀ (c : Ctx) (u : State) (l : Loc), (match spAccess u c .fe (spadAddr c f.sa f.imm.toInt) 8 8 op 0 true with
      | .ok (.word t a) => some (Loc.sp t a) | _ => none) = some l →
      ∃ t a, l = .sp t a ∧ spAccess u c .fe (spadAddr c f.sa f.imm.toInt) 8 8 op 0 true = .ok (.word t a) := by
    intro c u l h
    split at h
    · next t a hacc => exact ⟨t, a, (Option.some.inj h).symm, hacc⟩
    · cases h
  have hscratch : ∀ (c : Ctx) (u : State) (t a : Nat),
      spAccess u c .fe (spadAddr c f.sa f.imm.toInt) 8 8 op 0 true = .ok (.word t a) →
      feScratch u c f op = .ok (.sp t a) := by
    intro c u t a h
    unfold feScratch
    rw [show c.spAddr f.sa f.imm.toInt = spadAddr c f.sa f.imm.toInt from rfl, h]
  refine ⟨hk, fun c u l h => ?_, fun c u l h => ?_, fun u t id h m v l hlay hp => ?_, fun _ _ _ _ _ _ => rfl,
    fun _ _ _ _ _ _ => rfl⟩
  · obtain ⟨t, a, rfl, hacc⟩ := hplace c u l h
    rw [hreq, hscratch c u t a hacc]
  · obtain ⟨t, a, rfl, hacc⟩ := hplace c u l h
    rw [hfx, feSpForm, hscratch c u t a hacc]
    rfl
  · obtain ⟨x, a, rfl, hacc⟩ := hplace _ _ l hp
    have hacc' := spAccess_fe (c' := heldCtx t id h m v) (hlay x a rfl) rfl hacc
    exact congrArg (fun r : Except Stop SpPlace => match r with | .ok (.word t a) => some (Loc.sp t a) | _ => none) hacc'

end Sys2Proof.Machine

namespace Sys2Proof.Claims
open Sys2Proof.Machine

/-- Settles O21: each form makes its one attempt (`feAttempt_works`, `feAttempt_fails`); one that succeeds leaves the place as it was
resolved (`sameLayout_feEffect`), so that its slot commits with the word held (`WaitsAt.slot_held`). -/
theorem waitingFormsAttemptThenCommitRetryOrTrap : Obligations.WaitingFormsAttemptThenCommitRetryOrTrap :=
  ⟨fun _ => ⟨(waitsAt_handle rfl rfl fun _ _ => rfl).waitingForm, (waitsAt_handle rfl rfl fun _ _ => rfl).waitingForm,
      (waitsAt_handle rfl rfl fun _ _ => rfl).waitingForm⟩,
    fun _ => ⟨(waitsAt_scratchpad rfl rfl fun _ _ => rfl).waitingForm, (waitsAt_scratchpad rfl rfl fun _ _ => rfl).waitingForm⟩⟩

end Sys2Proof.Claims
end

section
/-! The heads of the matrix queues and of the function queue (R229, R236..R241, R244, R421). -/

namespace Sys2Proof.Machine
open Sys2Proof.Claims

/-! ### What each command of a matrix queue does (R236..R241) -/

theorem matDo_load (s : State) (core hc mi o : Nat) (role : BitVec 2) (w : Nat) (blocks : List (List Byte × Tag)) (fl : FFlags) :
    matDo s core ⟨hc, mi, .load o role w blocks fl⟩ =
      some (landFlags (s.setCore core (loadedCore (s.core core) o role w blocks)) hc mi fl) := rfl

theorem matDo_azero (s : State) (core hc mi a : Nat) :
    matDo s core ⟨hc, mi, .azero a⟩ = some (withAcc s core a { (s.core core).acc a with zero := true, elems := [] }) := rfl

theorem matDo_mma (s : State) (core hc mi a oa ob : Nat) (g16 : Bool) :
    let c := s.core core
    let r := mmaTiles (c.acc a).dense g16 (c.oslot oa).m.toNat (c.oslot ob).m.toNat (c.blocks oa) (c.blocks ob)
    let u := withAcc s core a ((c.acc a).ofDense r.1)
    matDo s core ⟨hc, mi, .mma a oa ob g16⟩ =
      some (if r.2 = true then u.modMember hc mi (fun m => { m with cir := m.cir ||| 2 }) else u) := rfl

theorem matDo_anorm (s : State) (core hc mi a : Nat) (g16 : Bool) :
    matDo s core ⟨hc, mi, .anorm a g16⟩ =
      some (withAcc s core a (((s.core core).acc a).ofDense (((s.core core).acc a).dense.map (·.norm g16)))) := rfl

theorem matDo_arow (s : State) (core hc mi vd a row mode : Nat) (mask : Mask) (t : Tag) :
    let x := ((s.core core).acc a).dense
    matDo s core ⟨hc, mi, .arow vd a row mode mask t⟩ =
      some (delivered s hc mi (.v vd mask (arowLanes x row mode t).1 (arowLanes x row mode t).2.1)
        (arowFlags x row mode mask)) := rfl

/-- A store whose elements all find their place: it lands its flags, and its member consumes what went to host memory (R240, R421). -/
theorem matDo_asto (s u : State) (core hc mi a fmt : Nat) (outs : List (Loc × Nat)) (fe : Bool) (q : Nat) (h : HerdCtx)
    (hhc : s.hc? hc = some h) :
    let us := outs.map fun x => (x.1, astoUnit fmt ((s.core core).acc a).dense x.2)
    let os : List OutElem := us.map fun x => ⟨x.1, x.2.1, x.2.2.1, fe⟩
    writeOut s (h.who s) os = some u →
    matDo s core ⟨hc, mi, .asto a fmt outs fe q⟩ =
      some (landFlags (consumeCir u hc mi (hostTag os)) hc mi (us.foldl (fun f x => f ||| x.2.2.2) 0)) := by
  intro us os hw
  have hdo : matDo s core ⟨hc, mi, .asto a fmt outs fe q⟩ = (writeOut s (h.who s) os).map fun v =>
      landFlags (consumeCir v hc mi (hostTag os)) hc mi (us.foldl (fun f x => f ||| x.2.2.2) 0) := by
    simp only [matDo, hhc]
    rfl
  rw [hdo, hw]
  rfl

/-! ### The head leaves its queue (R229, R244) -/

theorem exec_loadQueue {s u : State} {core : Nat} {x : MatCmd} {rest : List MatCmd} (hq : (s.core core).loadQ = x :: rest)
    (hdo : matDo s core x = some u) : exec (.matrixQueuePerform core true) s = .next (withLoads u core rest) := by
  have hp : matPerform s core true = withLoads u core rest := by
    simp only [matPerform, if_true, hq, hdo]
    rfl
  exact congrArg _ hp

theorem exec_arrayQueue {s u : State} {core : Nat} {x : MatCmd} {rest : List MatCmd} (hq : (s.core core).arrayQ = x :: rest)
    (hdo : matDo s core x = some u) : exec (.matrixQueuePerform core false) s = .next (withArrays u core rest) := by
  have hp : matPerform s core false = withArrays u core rest := by
    simp only [matPerform, Bool.false_eq_true, if_false, hq, hdo]
    rfl
  exact congrArg _ hp

theorem exec_functionQueue {s : State} {core : Nat} {x : FnCmd} {rest : List FnCmd} (hq : (s.core core).fnQ = x :: rest) :
    exec (.functionQueuePerform core) s =
      .next (delivered (s.setCore core { s.core core with fnQ := rest }) x.hc x.mem (.v x.vd x.mask x.lanes x.tag) x.flags) := by
  have hp : fnPerform s core =
      delivered (s.setCore core { s.core core with fnQ := rest }) x.hc x.mem (.v x.vd x.mask x.lanes x.tag) x.flags := by
    simp only [fnPerform, hq]
    rfl
  exact congrArg _ hp

end Sys2Proof.Machine

namespace Sys2Proof.Claims
open Sys2Proof.Machine

/-- Settles O33: `matDo` says what the head's command does, by its kind, and a queue whose head is done goes on without it. -/
theorem matrixAndFunctionQueuesPerformTheirHead : Obligations.MatrixAndFunctionQueuesPerformTheirHead := fun s core =>
  ⟨fun _ _ _ _ _ _ _ _ hq => exec_loadQueue hq (matDo_load ..),
    fun _ _ _ _ _ _ _ _ h u hq hhc hw => exec_loadQueue hq (matDo_asto s u core _ _ _ _ _ _ _ h hhc hw),
    fun _ _ _ _ hq => exec_arrayQueue hq (matDo_azero ..),
    fun _ _ _ _ _ _ _ hq => exec_arrayQueue hq (matDo_mma ..),
    fun _ _ _ _ _ hq => exec_arrayQueue hq (matDo_anorm ..),
    fun _ _ _ _ _ _ _ _ _ hq => exec_arrayQueue hq (matDo_arow ..),
    fun _ _ hq => exec_functionQueue hq⟩

end Sys2Proof.Claims
end

section
/-! Tile loads and stores on their way into the load queue (R236, R237, R240). -/

namespace Sys2Proof.Machine
open Sys2Proof.Claims

/-! ### The checks, as the statements write them -/

theorem popnOk_iff (n : Nat) : popnOk n = true ↔ n = 32 ∨ n = 64 ∨ n = 128 ∨ n = 256 := by
  simp [popnOk, or_assoc]

theorem ownsSlot_iff (w : State) (c : Ctx) (o : Nat) : (w.core c.m.core).ownsSlot c.h.slot o = true ↔ holdsSlot w c o := by
  simp [Core.ownsSlot, holdsSlot]

theorem ownsAcc_iff (w : State) (c : Ctx) (a : Nat) : (w.core c.m.core).ownsAcc c.h.slot a = true ↔ holdsAcc w c a := by
  simp [Core.ownsAcc, holdsAcc]

/-- R236 refuses no field of a record that a tile load may walk. -/
theorem loadRecordBad_none {rc : StrmRec} {fmtOk : Nat → Bool} {P : Nat → Prop} (hP : ∀ n, fmtOk n = true ↔ P n)
    (h : loadable rc P) : loadRecordBad rc fmtOk = none := by
  obtain ⟨hfem, hpop, hfmt⟩ := h
  simp [loadRecordBad, hfem, (popnOk_iff rc.pop).mpr hpop, (hP rc.fmtN).mpr hfmt]

/-- R240 refuses no field of such a record of a store. -/
theorem astoRecordBad_none {rc : StrmRec} (hfem : rc.fem = 0 ∨ rc.fem = 3)
    (hpop : rc.pop = 32 ∨ rc.pop = 64 ∨ rc.pop = 128 ∨ rc.pop = 256) (hfmt : fmtPublished rc.fmtN = true) :
    astoRecordBad rc = none := by
  have hf : ¬ (rc.fem ≠ 0 ∧ rc.fem ≠ 3) := by omega
  simp [astoRecordBad, hf, (popnOk_iff rc.pop).mpr hpop, hfmt]

/-! ### The plans (R236, R237, R240) -/

/-- A tile load whose slots are claimed, whose walk is long enough and whose pops all succeed finds no fault, and queues the tile. -/
theorem loadPlan_passes {r : RCall} {c : Ctx} {s : State} {qn : Nat} {q : Strm} {rc : StrmRec} (role : BitVec 2)
    (w : StrmRec → Nat) (k : Nat) (quant : Bool) (hs : r.stream c 1 false = .ok (qn, q, rc))
    (hroom : tileRoom s c r.f.x.toNat (w rc)) (hlen : runsOut rc q.pos (4096 / rc.pop) = false)
    (hpops : (popRun (c.use q) rc (4096 / rc.pop) 0 ⟨s, q, [], none⟩).fail = none) :
    (loadPlan r c s qn q rc role (w rc) k quant).fault = none ∧
      ∀ t, (loadPlan r c s qn q rc role (w rc) k quant).finish t = loadTile r.f.x.toNat role w quant r s c t := by
  obtain ⟨hslot, hwide⟩ := hroom
  have hodd : ¬ (w rc = 16 ∧ r.f.x.toNat % 2 = 1) := fun ⟨h16, h1⟩ => by
    have := (hwide h16).1
    omega
  have hpair : ¬ (w rc = 16 ∧ (!(s.core c.m.core).ownsSlot c.h.slot (r.f.x.toNat + 1)) = true) := fun ⟨h16, hno⟩ => by
    rw [(ownsSlot_iff s c _).mpr (hwide h16).2] at hno
    cases hno
  unfold loadPlan
  simp only [(ownsSlot_iff s c _).mpr hslot, Bool.not_true, Bool.false_eq_true, if_false, if_neg hodd, if_neg hpair, hlen]
  refine ⟨by simp only [NatPlan.looped, hpops, Option.map_none], fun t => ?_⟩
  unfold loadTile
  rw [hs]
  rfl

/-- OLDA and OLDB on a stream of BF16 or BFP elements. -/
theorem oldPlan_passes (role : BitVec 2) {r : RCall} {c : Ctx} {s : State}
    (h : tilePasses r.f.x.toNat (fun n => n = 2 ∨ (bfpWidth n).isSome = true) (fun rc => rc.bfp.getD 16) r c s) :
    (oldPlan role r c s).fault = none ∧
      ∀ t, (oldPlan role r c s).finish t = loadTile r.f.x.toNat role (fun rc => rc.bfp.getD 16) false r s c t := by
  obtain ⟨qn, q, rc, hs, hrec, hroom, hlen, hpops⟩ := h
  have hbad : loadRecordBad rc (fun f => f == 2 || (bfpWidth f).isSome) = none := loadRecordBad_none (by simp) hrec
  unfold oldPlan
  simp only [hs, hbad]
  exact loadPlan_passes role (fun rc => rc.bfp.getD 16) 3 false hs hroom hlen hpops

/-- BFPQ on a stream of FP32 or BF16 elements. -/
theorem natBfpq_passes {r : RCall} {c : Ctx} {s : State} (hz : (2 ≤ r.f.z.toNat ∧ r.f.z.toNat ≤ 8) ∨ r.f.z.toNat = 16)
    (hw : r.f.w.toNat ≤ 1) (h : tilePasses r.f.x.toNat (fun n => n = 1 ∨ n = 2) (fun _ => r.f.z.toNat) r c s) :
    (natBfpq r c s).fault = none ∧ ∀ t, (natBfpq r c s).finish t =
      loadTile r.f.x.toNat (if r.f.w.toNat = 0 then 1 else 2) (fun _ => r.f.z.toNat) true r s c t := by
  obtain ⟨qn, q, rc, hs, hrec, hroom, hlen, hpops⟩ := h
  have hbad : loadRecordBad rc (fun f => f == 1 || f == 2) = none := loadRecordBad_none (by simp) hrec
  have hwidth : (!((decide (2 ≤ r.f.z.toNat) && decide (r.f.z.toNat ≤ 8)) || r.f.z.toNat == 16)) = false := by
    rw [Bool.not_eq_false']
    simpa using hz
  unfold natBfpq
  simp only [hs, hbad, hwidth, Bool.false_eq_true, if_false, if_neg (Nat.not_lt.mpr hw)]
  exact loadPlan_passes _ (fun _ => r.f.z.toNat) 4 true hs hroom hlen hpops

/-- ASTO of a claimed accumulator whose pushes all find their place. -/
theorem natAsto_passes {r : RCall} {c : Ctx} {s : State} {qn : Nat} {q : Strm} {rc : StrmRec}
    (hs : r.stream c 1 true = .ok (qn, q, rc)) (hbad : astoRecordBad rc = none) (hacc : holdsAcc s c r.f.x.toNat)
    (hlen : runsOut rc q.pos (astoPushes rc) = false)
    (hpush : (pushRun (c.use q) rc (astoPushes rc) 0 ⟨s, q, 0, [], none⟩).fail = none) :
    (natAsto r c s).fault = none ∧ ∀ t, (natAsto r c s).finish t =
      (let x := pushRun (c.use q) rc (astoPushes rc) 0 ⟨t, q, 0, [], none⟩
       intoLoad (x.s.modMember c.id c.mi (·.setStrm qn x.q)) c (.asto r.f.x.toNat rc.fmtN x.outs (rc.fem == 3) qn)) := by
  have hn : (if rc.fmtN = 3 then 49152 else 16384) / rc.pop = astoPushes rc := rfl
  unfold natAsto
  simp only [hs, hbad, (ownsAcc_iff s c _).mpr hacc, hn, hlen, Bool.not_true, Bool.false_eq_true, if_false]
  exact ⟨by simp only [NatPlan.looped, hpush, Option.map_none], fun _ => rfl⟩

end Sys2Proof.Machine

namespace Sys2Proof.Claims
open Sys2Proof.Machine

/-- Settles O27: the checks of each routine pass (`loadPlan_passes`, `natAsto_passes`), so that its plan has no fault, and what the
plan does last is the run of pops or pushes and the command that joins the load queue. -/
theorem tileLoadsAndStoresJoinTheLoadQueue : Obligations.TileLoadsAndStoresJoinTheLoadQueue := by
  intro f o bfp width
  refine ⟨?olda, ?oldb, ?bfpq, ?asto⟩
  case olda =>
    refine natively_at _ 0x12 f rfl rfl rfl (by decide) _ _ fun r c w hf hstd hp => ?_
    subst hf
    have hplan : natPlan r c w = oldPlan 1 r c w := by simp [natPlan, hstd, natOlda]
    rw [hplan]
    exact oldPlan_passes 1 hp
  case oldb =>
    refine natively_at _ 0x13 f rfl rfl rfl (by decide) _ _ fun r c w hf hstd hp => ?_
    subst hf
    have hplan : natPlan r c w = oldPlan 2 r c w := by simp [natPlan, hstd, natOldb]
    rw [hplan]
    exact oldPlan_passes 2 hp
  case bfpq =>
    refine natively_at _ 0x60 f rfl rfl rfl (by decide) _ _ fun r c w hf hstd hp => ?_
    subst hf
    have hplan : natPlan r c w = natBfpq r c w := by simp [natPlan, hstd]
    obtain ⟨hz, hw, htile⟩ := hp
    rw [hplan]
    exact natBfpq_passes hz hw htile
  case asto =>
    refine natively_at _ 0x19 f rfl rfl rfl (by decide) _ _ fun r c w hf hstd hp => ?_
    subst hf
    have hplan : natPlan r c w = natAsto r c w := by simp [natPlan, hstd]
    obtain ⟨qn, q, rc, hs, hfem, hpop, hfmt, hacc, hlen, hpush⟩ := hp
    obtain ⟨hfault, hfinish⟩ := natAsto_passes hs (astoRecordBad_none hfem hpop hfmt) hacc hlen hpush
    rw [hplan]
    refine ⟨hfault, fun t => ?_⟩
    rw [hfinish, hs]

end Sys2Proof.Claims
end

section
/-! Routines that act at equivalence point 0 alone: the claims of tiles and the commands of the array queue (R229, R235, R238, R239,
R241), and how a fault or a stop request meets them there (R45, R393, R394). -/

namespace Sys2Proof.Machine
open Sys2Proof.Claims

/-! ### What a call leaves of the elements that its members have pushed -/

theorem map_lset_of_eq {α β : Type} (f : α → β) (d x : α) (l : List α) (n : Nat) (hx : f x = f (l.getD n d)) :
    (lset l n x).map f = l.map f := by
  induction l generalizing n with
  | nil => rfl
  | cons a l ih =>
    cases n with
    | zero => simpa [lset] using hx
    | succ n => simpa [lset] using ih n (by simpa using hx)

@[simp] theorem Member.apply_outs (m : Member) (r : Res) : (m.apply r).q.map (·.out) = m.q.map (·.out) := by
  cases r with
  | qpos n pos => exact map_lset_of_eq _ _ _ _ _ rfl
  | s n v t => simp only [Member.apply]; split <;> rfl
  | p n b => simp only [Member.apply]; split <;> rfl
  | k n v => simp only [Member.apply]; split <;> rfl
  | v n act l t => rfl
  | h n x => rfl
  | none => rfl

theorem Member.pushed_congr {m n : Member} (h : m.q.map (·.out) = n.q.map (·.out)) : m.pushed = n.pushed := by
  have hq : ∀ x : Member, x.pushed = (x.q.map (·.out)).any (!·.isEmpty) := fun x => by
    simp [Member.pushed, List.any_map, Function.comp_def]
  rw [hq, hq, h]

@[simp] theorem Member.land_pushed (m : Member) (p : Pending) : (m.land p).pushed = m.pushed :=
  Member.pushed_congr (m.apply_outs p.res)

@[simp] theorem Member.force_pushed (m : Member) (v : Nat) (r : Res) : (m.force v r).pushed = m.pushed := m.land_pushed _

theorem Member.foldl_pushed {α : Type} (f : Member → α → Member) (hf : ∀ m a, (f m a).pushed = m.pushed) (l : List α)
    (m : Member) : (l.foldl f m).pushed = m.pushed := by
  induction l generalizing m with
  | nil => rfl
  | cons a l ih => exact (ih _).trans (hf m a)

@[simp] theorem Member.forceDue_pushed (m : Member) (v : Nat) : (m.forceDue v).pushed = m.pushed :=
  Member.foldl_pushed _ Member.land_pushed _ _

@[simp] theorem Member.spoilInner_pushed (m : Member) (v seed nv : Nat) : (m.spoilInner v seed nv).pushed = m.pushed := by
  unfold Member.spoilInner
  simp only [Member.foldl_pushed _ fun m i => Member.force_pushed m v _]

@[simp] theorem Member.withArgs_pushed (m : Member) (a : List Args) : ({ m with args := a } : Member).pushed = m.pushed := rfl

/-- A call leaves the pushed elements of its herd-context where they are. -/
theorem enterBody_pushed {w : State} {r : RCall} {g : HerdCtx} {im : Image} (link : Link) (k : Nat) (hg : w.hc? r.id = some g)
    (him : w.image? g = some im) : ((enterBody w r link k).hc? r.id).map HerdCtx.pushed = some g.pushed := by
  unfold enterBody
  simp only [hg, him]
  rw [State.setHc_hc, Option.map_some]
  congr 1
  conv_rhs => rw [HerdCtx.pushed, ← List.zipIdx_map_fst 0 g.members]
  rw [HerdCtx.pushed, List.any_map, List.any_map]
  congr 1
  funext ⟨m, i⟩
  simp only [Function.comp_apply]
  rw [Member.withArgs_pushed]
  split <;> simp

/-- What a committed bundle leaves of its herd-context, beyond `acting_hc`: a stop request, pushed elements, the choices to come. -/
theorem acting_hc_eq {u : State} {id : Nat} {h g : HerdCtx} (hu : u.hc? id = some h) (hg : (acting u id h).hc? id = some g) :
    g.stop = h.stop ∧ g.pushed = h.pushed ∧ g.seedAt 0 = h.seedAt 16 := by
  have ht : (touchOverlay u h).hc? id = some h := by rw [← hu, State.hc?, touchOverlay_hctxs, State.hc?]
  unfold acting settle committed at hg
  rw [State.modHc_modHc, State.modHc_hc, ht] at hg
  cases hg
  refine ⟨rfl, ?_, rfl⟩
  simp only [HerdCtx.pushed, Function.comp_apply, List.map_map, List.any_map]
  congr 1
  funext m
  exact Member.forceDue_pushed _ _

/-! ### A routine whose check at point 0 fails (R43, R45, R393, R394) -/

/-- The plans of a native routine on a herd of one member. -/
theorem plans_of_one {r : RCall} {w : State} {c : Ctx} (hlen : r.caps.length = 1) (hg : (r.cap 0).guard = true)
    (hc : r.ctx w 0 = some c) (hacc : r.e.accepts r.f = true) : r.plans w = [(0, natPlan r c w)] := by
  rw [plans_eq, hlen]
  simp [planStep, hg, hc, RCall.planAt, hacc]

/-- At point 0 nothing of the body has been done: its state is that of the call (R43). -/
theorem materialise_fail {w : State} {r : RCall} {g : HerdCtx} {im : Image} (link : Link) (t : Trap) (hg : w.hc? r.id = some g)
    (him : w.image? g = some im) (hl : g.links.length < linkMax) :
    materialise w r link [(0, NatPlan.fail t)] (NatPlan.fail t) 0 = enterBody w r link 0 := by
  obtain ⟨x, hx, -⟩ := enterBody_of w r link 0 g im hg him hl
  have hself : (enterBody w r link 0).modHc r.id (fun h => h) = enterBody w r link 0 := by
    rw [hx, State.modHc_of _ _ _ x (State.setHc_hc ..), State.setHc_setHc]
  exact hself

/-- The trap at point 0 of a herd-context whose link store has room. -/
theorem nativeFault_fail {w : State} {r : RCall} {g : HerdCtx} {im : Image} (link : Link) (t : Trap) (hg : w.hc? r.id = some g)
    (him : w.image? g = some im) (hl : g.links.length < linkMax) :
    nativeFault w r link [(0, NatPlan.fail t)] 0 = takeTrap (enterBody w r link 0) r.id (nativeTrap r t 0) 1 := by
  have hroom : noLink w r = false := by simp [noLink, hg, Nat.not_le.mpr hl]
  rw [← materialise_fail link t hg him hl]
  simp [nativeFault, NatPlan.fail, NatPlan.simple, hroom]

/-- A stop request meets such a routine at point 0 when the free choice says so, and at no other point (R45, log 30). -/
theorem stopAt_fail {w : State} {r : RCall} {g : HerdCtx} (t : Trap) (hg : w.hc? r.id = some g) (hl : g.links.length < linkMax)
    (hacc : r.e.accepts r.f = true) : stopAt w r [(0, NatPlan.fail t)] (some 0) =
      if g.stop.isSome ∧ Config.stopStep (g.seedAt 0) r.rn = 1 then some 0 else none := by
  have hroom : noLink w r = false := by simp [noLink, hg, Nat.not_le.mpr hl]
  simp only [stopAt, hg, hroom, hacc, NatPlan.fail, NatPlan.simple]
  cases hs : g.stop with
  | none => simp
  | some q =>
    generalize Config.stopStep (g.seedAt 0) r.rn = n
    match n with
    | 0 => simp
    | 1 => simp
    | n + 2 => simp

/-- What follows the commit of a bundle of one such routine: the call's state at point 0, stopped there or frozen with the trap. -/
def failedCall (u : State) (id : Nat) (h : HerdCtx) (r : RCall) (t : Trap) : State :=
  if h.stop.isSome ∧ Config.stopStep (h.seedAt 16) r.rn = 1 then enterBody (acting u id h) r h.callLink 0
  else takeTrap (enterBody (acting u id h) r h.callLink 0) id (nativeTrap r t 0) 1

theorem actRoutine_fail {u : State} {id : Nat} {h : HerdCtx} {r : RCall} {c : Ctx} {t : Trap} (hu : u.hc? id = some h)
    (hid : r.id = id) (hl : h.links.length < linkMax) (hacc : r.e.accepts r.f = true) (hact : r.acts = true)
    (hn : r.e.native = true) (hlen : r.caps.length = 1) (hg : (r.cap 0).guard = true)
    (hc : r.ctx (acting u id h) 0 = some c) (hplan : natPlan r c (acting u id h) = NatPlan.fail t) (im : Image)
    (him : u.image? h = some im) : actRoutine (committed u id h 16) r h.callLink = (failedCall u id h r t, true) := by
  subst hid
  obtain ⟨g, hhg, hlinks, -, -, -, hpart, himage⟩ := acting_hc u r.id h hu
  have hgim := (acting_image u r.id h g hpart himage).trans him
  obtain ⟨hstop, -, hseed⟩ := acting_hc_eq hu hhg
  have hgl : g.links.length < linkMax := hlinks ▸ hl
  have hset : settle (committed u r.id h 16) r.id = acting u r.id h := rfl
  have hplans := plans_of_one hlen hg hc hacc
  rw [hplan] at hplans
  have hfirst : firstFault [((0 : Nat), NatPlan.fail t)] = some 0 := rfl
  have hat := stopAt_fail t hhg hgl hacc
  rw [hstop, hseed] at hat
  unfold actRoutine failedCall
  simp only [hact, hn, hset, hplans, hfirst, hat, Bool.not_true, Bool.false_eq_true, if_false, if_true]
  by_cases hmet : h.stop.isSome ∧ Config.stopStep (h.seedAt 16) r.rn = 1
  · rw [if_pos hmet, if_pos hmet, ← materialise_fail _ t hhg hgim hgl]
  · rw [if_neg hmet, if_neg hmet, ← nativeFault_fail _ t hhg hgim hgl]

@[simp] theorem State.modDie_hc (s : State) (d : Nat) (f : Die → Die) (id : Nat) : (s.modDie d f).hc? id = s.hc? id := by
  rw [State.hc?, State.modDie_hctxs, State.hc?]

@[simp] theorem frozenHc_pushed (h : HerdCtx) : (frozenHc h).pushed = h.pushed := by
  simp only [HerdCtx.pushed, frozenHc, List.any_map]
  rfl

/-- A frozen herd-context that has nothing pushed waits for no staging record. -/
theorem unwritten_takeTrap {s : State} {id : Nat} {h : HerdCtx} (t : Trap) (map : Nat) (hh : s.hc? id = some h)
    (hp : h.pushed = false) : unwritten (takeTrap s id t map) id = false := by
  rw [takeTrap_eq s id h t map hh, unwritten, State.modDie_hc, State.setHc_hc]
  exact Bool.and_eq_false_iff.mpr (.inr ((frozenHc_pushed h).trans hp))

theorem unwritten_failedCall {u : State} {id : Nat} {h : HerdCtx} {r : RCall} {im : Image} (t : Trap) (hu : u.hc? id = some h)
    (hid : r.id = id) (hl : h.links.length < linkMax) (him : u.image? h = some im) (hrun : h.hstate = .running)
    (hp : h.pushed = false) : unwritten (failedCall u id h r t) id = false := by
  subst hid
  obtain ⟨g, hhg, -, -, -, -, hpart, himage⟩ := acting_hc u r.id h hu
  obtain ⟨-, hgp, -⟩ := acting_hc_eq hu hhg
  obtain ⟨x, hx, hcalled⟩ := enterBody_acting u r.id h r h.callLink im hu rfl him hl
  have hxp := enterBody_pushed (r := r) h.callLink 0 hhg ((acting_image u r.id h g hpart himage).trans him)
  rw [hx, State.setHc_hc, Option.map_some, hgp, hp] at hxp
  have hpushed : x.pushed = false := Option.some.inj hxp
  unfold failedCall
  split
  · simp [unwritten, hx, hcalled.hstate_eq, hrun]
  · exact unwritten_takeTrap _ 1 (by rw [hx, State.setHc_hc]) hpushed

/-- A bundle of one routine slot whose plan fails at point 0 is committed, and its call stands there, stopped or frozen. -/
theorem exec_fails {i : Instr} (hk : i.kind = .routine) {s : State} {id : Nat} {h : HerdCtx} {r : RCall} {c : Ctx} {t : Trap}
    (hr : Ready s id h (bundleOf i)) (hb : Bound i (landAll s id) id h r) (hu : Unhindered i (landAll s id) r)
    (hl : h.links.length < linkMax) (hone : h.members.length = 1) (hg : (r.cap 0).guard = true)
    (hc : r.ctx (acting (landAll s id) id h) 0 = some c) (hplan : natPlan r c (acting (landAll s id) id h) = NatPlan.fail t)
    (im : Image) (him : (landAll s id).image? h = some im) : exec i s = .next (failedCall (landAll s id) id h r t) := by
  obtain ⟨hloops, hrc, hact, hacc⟩ := hb
  obtain ⟨hn, -, hwait, hpops⟩ := hu
  obtain ⟨hhc, hrun, -, -, -, -, -, -, -, -, hpushed⟩ := (issues_iff _ _ _ _).mp hr.2
  obtain ⟨hid, -, -, -, hcaps⟩ := routineCall_id _ _ _ _ _ _ _ hrc
  have hdo := actRoutine_fail hhc hid hl hacc hact hn (hcaps.trans hone) hg hc hplan im him
  have hgoes : runRoutines (committed (landAll s id) id h 16) id (some r) none h.pc
      (stepLoops h.pc (h.pc + 16) h.loops h.idx).2.2 Post.none = failedCall (landAll s id) id h r t := by
    have hlink : raLink none h.pc (stepLoops h.pc (h.pc + 16) h.loops h.idx).2.2 Post.none = h.callLink := rfl
    simp only [runRoutines, hlink, hdo]
  rw [issue_routine i hk s id h (some r) hr (.inr hloops) hrc (if_pos hl) (by simpa using hwait) (by simpa [hid] using hpops),
    hgoes]
  intro hun
  rw [hgoes, unwritten_failedCall t hhc hid hl him hrun hpushed] at hun
  cases hun

/-- The image of a herd-context whose slot binds. -/
theorem Bound.image {i : Instr} {u : State} {id : Nat} {h : HerdCtx} {r : RCall} (hb : Bound i u id h r) :
    ∃ im, u.image? h = some im := by
  obtain ⟨-, hrc, -⟩ := hb
  cases him : u.image? h with
  | some im => exact ⟨im, rfl⟩
  | none =>
    have hnone : bindSlot u h (bundleOf i) i = none := by
      unfold bindSlot bindRoutine
      simp only [him]
      split_ifs <;> rfl
    rw [routineCall, hnone] at hrc
    cases hrc

/-! ### Statements about routines of point 0 alone -/

/-- A routine whose plan, when its checks pass, is one effect. -/
theorem natively_simple {i : Instr} (n : BitVec 12) {f : RForm} (hf : i.rform = some f) (hw : slotWord i = some (wordR n f))
    (hk : i.kind = .routine) (hq : n.toNat < 0x80) {pre : RCall → Ctx → State → Prop}
    {eff : RCall → State → Ctx → State → State}
    (hplan : ∀ r c w, r.f = f → r.e.std = n.toNat → pre r c w → natPlan r c w = NatPlan.simple none (eff r w c)) :
    Natively i pre eff := by
  refine natively_at i n f hf hw hk hq pre eff fun r c w h1 h2 hp => ?_
  rw [hplan r c w h1 h2 hp]
  exact ⟨rfl, fun _ => rfl⟩

/-- A routine whose plan fails at point 0 when its check does, and which no stop request meets there. -/
theorem nativelyTraps_of {i : Instr} (n : BitVec 12) {f : RForm} (hf : i.rform = some f) (hw : slotWord i = some (wordR n f))
    (hk : i.kind = .routine) {bad : RCall → Ctx → State → Prop} {t : RCall → Ctx → State → Trap}
    (hstop : ∀ seed, Config.stopStep seed n.toNat ≠ 1)
    (hplan : ∀ r c w, r.f = f → r.e.std = n.toNat → bad r c w → natPlan r c w = NatPlan.fail (t r c w)) :
    NativelyTraps i bad t := by
  intro s id h r c hr hb hu hl hone hg hc hbad
  obtain ⟨im, him⟩ := hb.image
  obtain ⟨hid, hform, hrn, -⟩ := routineCall_id _ _ _ _ _ _ _ hb.2.1
  obtain ⟨hhc, -⟩ := (issues_iff _ _ _ _).mp hr.2
  have hirn := rn_of i n f hf hw
  have hrf : r.f = f := (Option.some.inj (hf.symm.trans hform)).symm
  have hx := exec_fails hk hr hb hu hl hone hg hc (hplan r c _ hrf (hu.2.1.trans hirn) hbad) im him
  rw [failedCall, hrn, hirn, if_neg fun hmet => hstop _ hmet.2] at hx
  obtain ⟨x, hent, hpc, -, -, hlinks, ⟨fr, hframes, -⟩, -⟩ := enterBody_acting _ id h r h.callLink im hhc hid him hl
  refine ⟨_, _, x, hx, rfl, by rw [hent, State.setHc_hc], ?_, ?_, ?_⟩
  · rw [him]
    exact hpc
  · rw [hlinks, List.length_cons]
  · rw [hframes, List.length_cons]

end Sys2Proof.Machine

namespace Sys2Proof.Claims
open Sys2Proof.Machine

/-! ### Claims and releases (R235) -/

/-- An accumulator that AFREE and the array commands refuse. -/
theorem notOwned_iff (w : State) (c : Ctx) (a : Nat) :
    (!(w.core c.m.core).ownsAcc c.h.slot a) = true ↔ ¬ holdsAcc w c a := by
  rw [Bool.not_eq_true', ← ownsAcc_iff, Bool.not_eq_true]

/-- An operand slot that OFREE refuses. -/
theorem notReleasable_iff (w : State) (c : Ctx) (o : Nat) :
    (!(w.core c.m.core).ownsSlot c.h.slot o || ((w.core c.m.core).oslot o).role == 3) = true ↔
      ¬ (holdsSlot w c o ∧ ((w.core c.m.core).oslot o).role ≠ 3) := by
  rw [Bool.or_eq_true, Bool.not_eq_true', beq_iff_eq, ← ownsSlot_iff, not_and_or, Bool.not_eq_true, not_not]

/-- R235, when no stop request meets a routine at its point 0. -/
theorem claimsAndReleases_of (hstop : ∀ seed rn, Config.stopStep seed rn ≠ 1) : ClaimsAndReleases := by
  intro f o
  refine ⟨?oclaim, ?oclaimTraps, ?ofree, ?ofreeTraps, ?aclaim, ?aclaimTraps, ?afree, ?afreeTraps⟩
  case oclaim =>
    refine natively_simple 0x10 rfl rfl rfl (by decide) fun r c w hf hstd hfree => ?_
    subst hf
    simp only [natPlan, hstd, natOclaim]
    exact if_neg (by simpa using hfree)
  case oclaimTraps =>
    refine nativelyTraps_of 0x10 rfl rfl rfl (hstop · _) fun r c w hf hstd hclaimed => ?_
    subst hf
    simp only [natPlan, hstd, natOclaim]
    exact if_pos hclaimed
  case ofree =>
    refine natively_simple 0x11 rfl rfl rfl (by decide) fun r c w hf hstd hown => ?_
    subst hf
    simp only [natPlan, hstd, natOfree, Core.isWide, beq_iff_eq]
    exact if_neg fun hbad => (notReleasable_iff w c _).mp hbad hown
  case ofreeTraps =>
    refine nativelyTraps_of 0x11 rfl rfl rfl (hstop · _) fun r c w hf hstd hown => ?_
    subst hf
    simp only [natPlan, hstd, natOfree]
    exact if_pos ((notReleasable_iff w c _).mpr hown)
  case aclaim =>
    refine natively_simple 0x14 rfl rfl rfl (by decide) fun r c w hf hstd hfree => ?_
    subst hf
    simp only [natPlan, hstd, natAclaim]
    exact if_neg (by simpa using hfree)
  case aclaimTraps =>
    refine nativelyTraps_of 0x14 rfl rfl rfl (hstop · _) fun r c w hf hstd hclaimed => ?_
    subst hf
    simp only [natPlan, hstd, natAclaim]
    exact if_pos hclaimed
  case afree =>
    refine natively_simple 0x15 rfl rfl rfl (by decide) fun r c w hf hstd hacc => ?_
    subst hf
    simp only [natPlan, hstd, natAfree]
    exact if_neg fun hbad => (notOwned_iff w c _).mp hbad hacc
  case afreeTraps =>
    refine nativelyTraps_of 0x15 rfl rfl rfl (hstop · _) fun r c w hf hstd hacc => ?_
    subst hf
    simp only [natPlan, hstd, natAfree]
    exact if_pos ((notOwned_iff w c _).mpr hacc)

/-! ### Commands of the array queue (R229, R238, R239, R241) -/

/-- MMA on a claimed accumulator and on claimed slots that are loaded in their roles. -/
theorem natMma_passes {r : RCall} {c : Ctx} {w : State} (hacc : holdsAcc w c r.f.x.toNat) (ha : holdsSlot w c r.f.y.toNat)
    (hb : holdsSlot w c r.f.z.toNat) (hroleA : ((w.core c.m.core).oslot r.f.y.toNat).role = 1)
    (hroleB : ((w.core c.m.core).oslot r.f.z.toNat).role = 2) : natMma r c w =
      NatPlan.simple none fun s => intoArray s c (.mma r.f.x.toNat r.f.y.toNat r.f.z.toNat (r.prof == 3)) := by
  simp only [natMma, (ownsAcc_iff w c _).mpr hacc, (ownsSlot_iff w c _).mpr ha, (ownsSlot_iff w c _).mpr hb, hroleA, hroleB,
    Bool.not_true, Bool.false_eq_true, if_false, ne_eq, not_true_eq_false]
  rfl

/-- AROW of a row and a mode that there are, of a claimed accumulator. -/
theorem natArow_passes {r : RCall} {c : Ctx} {w : State} (hz : (r.cap c.mi).z.val.toNat < 128) (hmode : r.f.w.toNat ≤ 3)
    (hacc : holdsAcc w c r.f.y.toNat) : natArow r c w = NatPlan.simple none fun s => intoArray s c
      (.arow (r.resolved c.h 0) r.f.y.toNat (r.cap c.mi).z.val.toNat r.f.w.toNat (r.mask c) (r.cap c.mi).z.tag) := by
  simp only [natArow, if_neg (Nat.not_le.mpr hz), if_neg (Nat.not_lt.mpr hmode)]
  exact if_neg fun hbad => (notOwned_iff w c _).mp hbad hacc

/-- The array queue's commands, when no stop request meets a routine at its point 0. -/
theorem arrayCommandsJoinTheArrayQueue_of (hstop : ∀ seed rn, Config.stopStep seed rn ≠ 1) :
    ArrayCommandsJoinTheArrayQueue := by
  intro f x y z
  refine ⟨?mma, ?mmaTraps, ?azero, ?azeroTraps, ?anorm, ?arow⟩
  case mma =>
    refine natively_simple 0x17 rfl rfl rfl (by decide) fun r c w hf hstd htiles => ?_
    subst hf
    obtain ⟨hacc, ha, hb, hroleA, hroleB⟩ := htiles
    simp only [natPlan, hstd]
    exact natMma_passes hacc ha hb hroleA hroleB
  case mmaTraps =>
    refine nativelyTraps_of 0x17 rfl rfl rfl (hstop · _) fun r c w hf hstd hacc => ?_
    subst hf
    simp only [natPlan, hstd, natMma]
    exact if_pos ((notOwned_iff w c _).mpr hacc)
  case azero =>
    refine natively_simple 0x16 rfl rfl rfl (by decide) fun r c w hf hstd hacc => ?_
    subst hf
    simp only [natPlan, hstd, natAzero]
    exact if_neg fun hbad => (notOwned_iff w c _).mp hbad hacc
  case azeroTraps =>
    refine nativelyTraps_of 0x16 rfl rfl rfl (hstop · _) fun r c w hf hstd hacc => ?_
    subst hf
    simp only [natPlan, hstd, natAzero]
    exact if_pos ((notOwned_iff w c _).mpr hacc)
  case anorm =>
    refine natively_simple 0x18 rfl rfl rfl (by decide) fun r c w hf hstd hacc => ?_
    subst hf
    simp only [natPlan, hstd, natAnorm]
    exact if_neg fun hbad => (notOwned_iff w c _).mp hbad hacc
  case arow =>
    refine natively_simple 0x1A rfl rfl rfl (by decide) fun r c w hf hstd hrow => ?_
    subst hf
    obtain ⟨hz, hmode, hacc⟩ := hrow
    simp only [natPlan, hstd]
    exact natArow_passes hz hmode hacc

/-- R229, R235, R238, R239 and R241 hold of a device on which no stop request meets a routine at its point 0: the free choice of
the point (log 30) decides them, as `stopStep_ne_of_matrixRoutines` shows. -/
theorem matrixRoutinesClaimAndQueue_of (hstop : ∀ seed rn, Config.stopStep seed rn ≠ 1) :
    Obligations.MatrixRoutinesClaimAndQueue :=
  ⟨claimsAndReleases_of hstop, arrayCommandsJoinTheArrayQueue_of hstop⟩

/-! ### A stop request at point 0 -/

/-- The OCLAIM of operand slot 5 that the herd-context stands before. -/
def claimForm : RForm := ⟨0, 5, 0, 0, 0, 0, 0⟩
def claimAlone : Instr := .oclaim claimForm

/-- OCLAIM in the routine table under profile 1, bound natively. -/
def claimEntry : REntry :=
  ⟨0x10, 1, [0x26, 0, 0, 0], 1, 1, 0, [0], 0, 8, 0, 0, 0, true, 0x10, true, false⟩

/-- A herd-context that has been asked to stop. -/
def stoppingHc : HerdCtx := { placedHc with defProfile := 1, stop := some .forced }

/-- Herd-context 0 has the turn before `claimAlone`; slot 5 of its core is claimed already. -/
def claimStopped : State :=
  let s := placeWords State.reset (encode claimAlone)
  let s := s.modPart 0 fun p => { p with images := [{ placedImage (encode claimAlone) with entries := [claimEntry] }] }
  let s := s.setHc 0 stoppingHc
  { s.setCore 0 { s.core 0 with oslots := [(5, ⟨true, 0, 0, 0, 0, [], []⟩)] } with agenda := [], cur := some 0 }

/-- The call that the slot makes. -/
def claimCall : RCall := (routineCall (landAll claimStopped 0) 0 stoppingHc (bundleOf claimAlone) 4 claimAlone).getD
  ⟨0, 4, 0, claimForm, 0, claimEntry, 0, [], 0, false⟩

theorem claimStopped_ready : Ready claimStopped 0 stoppingHc (bundleOf claimAlone) := ⟨rfl, by decide⟩

theorem claimStopped_bound : Bound claimAlone (landAll claimStopped 0) 0 stoppingHc claimCall :=
  ⟨by decide, rfl, by decide, by decide⟩

theorem claimStopped_unhindered : Unhindered claimAlone (landAll claimStopped 0) claimCall :=
  ⟨by decide, by decide, by decide, by decide⟩

theorem claimStopped_claimed : ∃ c, claimCall.ctx (acting (landAll claimStopped 0) 0 stoppingHc) 0 = some c ∧
    (((acting (landAll claimStopped 0) 0 stoppingHc).core c.m.core).oslot 5).cl = true :=
  ⟨_, rfl, rfl⟩

/-- A trap leaves its herd-context FROZEN. -/
theorem takeTrap_hstate {s : State} {id : Nat} {h : HerdCtx} (t : Trap) (map : Nat) (hh : s.hc? id = some h) :
    ((takeTrap s id t map).hc? id).map (·.hstate) = some .frozen := by
  rw [takeTrap_eq s id h t map hh, State.modDie_hc, State.setHc_hc]
  rfl

/-- A stop request that meets the OCLAIM of `claimStopped` at point 0 leaves the herd-context RUNNING in the body and not FROZEN
(R45): the traps of `ClaimsAndReleases`, which name no stop request, hold only when the free choice (log 30) is never that one. -/
theorem stopStep_ne_of_matrixRoutines (hall : Obligations.MatrixRoutinesClaimAndQueue) :
    Config.stopStep (stoppingHc.seedAt 16) 0x10 ≠ 1 := by
  intro hmet
  obtain ⟨hclaims, -⟩ := hall
  obtain ⟨-, htraps, -⟩ := hclaims claimForm
  obtain ⟨c, hc, hclaimed⟩ := claimStopped_claimed
  obtain ⟨x, y, g, hexec, hx, hy, -⟩ := htraps claimStopped 0 stoppingHc claimCall c claimStopped_ready claimStopped_bound
    claimStopped_unhindered (by decide) rfl (by decide) hc hclaimed
  obtain ⟨im, him⟩ := claimStopped_bound.image
  obtain ⟨hhc, -⟩ := (issues_iff _ _ _ _).mp claimStopped_ready.2
  have hplan : natPlan claimCall c (acting (landAll claimStopped 0) 0 stoppingHc) =
      NatPlan.fail (slotTrap claimCall ((acting (landAll claimStopped 0) 0 stoppingHc).core c.m.core) 0 5) := if_pos hclaimed
  have hstands := exec_fails rfl claimStopped_ready claimStopped_bound claimStopped_unhindered (by decide) rfl (by decide) hc hplan
    im him
  rw [failedCall, if_pos ⟨rfl, hmet⟩] at hstands
  obtain ⟨z, hz, hcalled⟩ := enterBody_acting _ 0 stoppingHc claimCall stoppingHc.callLink im hhc rfl him (by decide)
  have hstate : x = (acting (landAll claimStopped 0) 0 stoppingHc).setHc 0 z := by
    have := hexec.symm.trans (hz ▸ hstands)
    injection this
  have hfrozen : (x.hc? 0).map (·.hstate) = some .frozen := hx ▸ takeTrap_hstate _ 1 hy
  rw [hstate, State.setHc_hc, Option.map_some, hcalled.hstate_eq] at hfrozen
  exact absurd hfrozen (by decide)

end Sys2Proof.Claims
end

section
/-! Routines of the function queue: element-wise functions, TLSC2, and the row routines in both of their forms (R244..R246, R248..R254,
R352, R405). -/

namespace Sys2Proof.Machine
open Sys2Proof.Claims

/-! ### Element-wise functions (R248, R249) -/

/-- A plan of the function queue is the effect that queues its command. -/
theorem fnPlan_eq (r : RCall) (c : Ctx) (mask : Mask) (x : List W32 × FFlags) (t : Tag) :
    fnPlan r c mask x.1 t x.2 = NatPlan.simple none fun s => intoFn s c (fnCommand r c mask x t) := rfl

/-- The eleven one-operand functions share one plan. -/
theorem natPlan_unary {r : RCall} (c : Ctx) (w : State) (hlo : 0x40 ≤ r.e.std) (hhi : r.e.std ≤ 0x4A) :
    natPlan r c w = natUnary r c w := by
  generalize hstd : r.e.std = n at hlo hhi
  interval_cases n <;> simp only [natPlan, hstd]

/-- A one-operand routine, by its number and the element function that the number selects. -/
theorem natively_unary {i : Instr} (n : BitVec 12) {f : RForm} (hf : i.rform = some f) (hw : slotWord i = some (wordR n f))
    (hk : i.kind = .routine) (hn : 0x40 ≤ n.toNat ∧ n.toNat ≤ 0x4A) {op : Nat → W32 → W32 × FFlags}
    (hop : unaryFn n.toNat = op) : Natively i (fun _ _ _ => True) (unaryCall op) := by
  obtain ⟨hlo, hhi⟩ := hn
  refine natively_simple n hf hw hk (by omega) fun r c w _ hstd _ => ?_
  simp only [natPlan_unary c w (hstd ▸ hlo) (hstd ▸ hhi), natUnary, hstd, hop]
  exact fnPlan_eq ..

/-! ### TLSC2 (R405) -/

/-- TLSC2's words are read in order, each in the state that the reads before it leave. -/
theorem tlscReads_eq (r : RCall) (c : Ctx) (s : State) (n : Nat) :
    (List.range n).foldl (fun (x : State × List (W32 × Tag)) k => (tlscArrive x.1 c r k, x.2 ++ [tlscRead x.1 c r k])) (s, []) =
      (tlscAt r c s n, (List.range n).map fun k => tlscRead (tlscAt r c s k) c r k) := by
  induction n with
  | zero => rfl
  | succ n ih =>
    rw [List.range_succ, foldl_snoc, ih, List.map_append, tlscAt, tlscAt, List.range_succ, foldl_snoc]
    rfl

/-- TLSC2 finds no fault when each of its four accesses passes the checks of its handle. -/
theorem natTlsc2_fault {r : RCall} {c : Ctx} (w : State)
    (h : ∀ k, k < 4 → handleFault (tlscHandle r c k).2 .load (4 * ((k % 2 : Nat) : Int)) 4 1 = none) :
    (natTlsc2 r c w).fault = none := by
  refine List.findSome?_eq_none_iff.mpr fun k hk => ?_
  rw [Option.map_eq_none_iff]
  exact h k (List.mem_range.mp hk)

/-- The command that TLSC2 queues: the products of its four words with the lanes of W. -/
theorem natTlsc2_finish (r : RCall) (c : Ctx) (w s : State) : (natTlsc2 r c w).finish s =
    (let y := r.vin c 3
     let xs := (List.range 4).map fun k => tlscRead (tlscAt r c s k) c r k
     intoFn (tlscAt r c s 4) c (fnCommand r c 15
       (mapLanes 15 fun i => fmulOp .rne ((xs.getD i (0, none)).1) (lane y.lanes i))
       (mergeTag y.tag (mergeTags (xs.map (·.2)))))) := by
  simp only [natTlsc2, tlscReads_eq]
  rfl

/-! ### Row routines (R250..R254) -/

/-- The standard numbers of the row routines. -/
abbrev IsRow (n : Nat) : Prop := n = 0x50 ∨ n = 0x51 ∨ n = 0x52 ∨ n = 0x54 ∨ n = 0x55

/-- The row routines share one plan, which looks at the number as it steps through the row. -/
theorem natPlan_row {r : RCall} (c : Ctx) (w : State) (h : IsRow r.e.std) : natPlan r c w = natRow r c w := by
  obtain hstd | hstd | hstd | hstd | hstd := h <;> simp only [natPlan, hstd]

theorem IsRow.lt {n : Nat} (h : IsRow n) : n < 0x80 := by
  unfold IsRow at h
  omega

/-- The vector form reduces the active lanes of Y at once. -/
theorem natRow_vector {r : RCall} {c : Ctx} {w : State} (hp : rowPasses r.f r c w) :
    natRow r c w = NatPlan.simple none (rowCall r.e.std r w c) := by
  obtain ⟨hform, hz, hw⟩ := hp
  have hbit : r.f.f.getLsbD 0 = false := by simp [BitVec.getLsbD, hform]
  simp only [natRow, hform, hbit, hz, hw, Nat.zero_div, ne_eq, not_true_eq_false, or_self, if_false, if_true]
  rfl

/-- The stream form, whose checks and pops pass, reduces the vectors popped in their order. -/
theorem natRow_stream {r : RCall} {c : Ctx} {w : State} (hp : rowStreamPasses r.f r c w) :
    (natRow r c w).fault = none ∧ ∀ s, (natRow r c w).finish s = rowStream r.e.std r w c s := by
  obtain ⟨hform, hy, hpos, hlt, qn, q, rc, hs, hfem, hfmt, hlen, hpops⟩ := hp
  have hbit : r.f.f.getLsbD 0 = true := by simp [BitVec.getLsbD, hform]
  have hcount : ¬ ((r.cap c.mi).z.val.toNat = 0 ∨ 2 ^ 32 ≤ (r.cap c.mi).z.val.toNat) := by omega
  simp only [natRow, hform, hbit, hy, if_neg hcount, hs, hfem, hfmt, hlen, ne_eq, not_true_eq_false,
    Bool.true_eq_false, Bool.false_eq_true, if_false]
  refine ⟨by rw [hpops]; rfl, fun s => ?_⟩
  simp only [rowStream, hs]
  rfl

/-- A row routine on a register, by its number. -/
theorem natively_rowVector {i : Instr} (n : BitVec 12) {f : RForm} (hf : i.rform = some f) (hw : slotWord i = some (wordR n f))
    (hk : i.kind = .routine) (hn : IsRow n.toNat) : Natively i (rowPasses f) (rowCall n.toNat) := by
  refine natively_simple n hf hw hk hn.lt fun r c w hform hstd hp => ?_
  subst hform
  rw [natPlan_row c w (hstd ▸ hn), natRow_vector hp, hstd]

/-- A row routine on a stream, by its number. -/
theorem natively_rowStream {i : Instr} (n : BitVec 12) {f : RForm} (hf : i.rform = some f) (hw : slotWord i = some (wordR n f))
    (hk : i.kind = .routine) (hn : IsRow n.toNat) : Natively i (rowStreamPasses f) (rowStream n.toNat) := by
  refine natively_at i n f hf hw hk hn.lt _ _ fun r c w hform hstd hp => ?_
  subst hform
  rw [natPlan_row c w (hstd ▸ hn), ← hstd]
  exact natRow_stream hp

end Sys2Proof.Machine

namespace Sys2Proof.Claims
open Sys2Proof.Machine

/-- R244, R245, R248, R249, R253, R352 and R405: none but TLSC2 has a check at point 0 beyond those of its encoding, and TLSC2's are
those of its four accesses. -/
theorem functionRoutinesJoinTheFunctionQueue : FunctionRoutinesJoinTheFunctionQueue := by
  intro f
  refine ⟨natively_unary 0x40 rfl rfl rfl (by decide) rfl, natively_unary 0x41 rfl rfl rfl (by decide) rfl,
    natively_unary 0x42 rfl rfl rfl (by decide) rfl, natively_unary 0x43 rfl rfl rfl (by decide) rfl,
    natively_unary 0x44 rfl rfl rfl (by decide) rfl, natively_unary 0x45 rfl rfl rfl (by decide) rfl,
    natively_unary 0x46 rfl rfl rfl (by decide) rfl, natively_unary 0x47 rfl rfl rfl (by decide) rfl,
    natively_unary 0x48 rfl rfl rfl (by decide) rfl, natively_unary 0x49 rfl rfl rfl (by decide) rfl,
    natively_unary 0x4A rfl rfl rfl (by decide) rfl, ?divf, ?smxfin, ?bdot4, ?tlsc2⟩
  case divf =>
    refine natively_simple 0x4B rfl rfl rfl (by decide) fun r c w _ hstd _ => ?_
    have hplan : natPlan r c w = natDivf r c w := by simp [natPlan, hstd]
    simp only [hplan, natDivf, fnPlan_eq]
  case smxfin =>
    refine natively_simple 0x53 rfl rfl rfl (by decide) fun r c w _ hstd _ => ?_
    have hplan : natPlan r c w = natSmxfin r c w := by simp [natPlan, hstd]
    simp only [hplan, natSmxfin, fnPlan_eq]
  case bdot4 =>
    refine natively_simple 0x61 rfl rfl rfl (by decide) fun r c w _ hstd _ => ?_
    have hplan : natPlan r c w = natBdot4 r c w := by simp [natPlan, hstd]
    simp only [hplan, natBdot4, fnPlan_eq]
  case tlsc2 =>
    refine natively_at _ 0x62 f rfl rfl rfl (by decide) _ _ fun r c w _ hstd hpass => ?_
    have hplan : natPlan r c w = natTlsc2 r c w := by simp [natPlan, hstd]
    rw [hplan]
    exact ⟨natTlsc2_fault w hpass, natTlsc2_finish r c w⟩

/-- R246, R250..R254: both forms, for each of the five numbers. -/
theorem rowRoutinesReduceInOrder : RowRoutinesReduceInOrder := fun _ =>
  ⟨⟨natively_rowVector 0x50 rfl rfl rfl (by decide), natively_rowVector 0x51 rfl rfl rfl (by decide),
      natively_rowVector 0x52 rfl rfl rfl (by decide), natively_rowVector 0x54 rfl rfl rfl (by decide),
      natively_rowVector 0x55 rfl rfl rfl (by decide)⟩,
    ⟨natively_rowStream 0x50 rfl rfl rfl (by decide), natively_rowStream 0x51 rfl rfl rfl (by decide),
      natively_rowStream 0x52 rfl rfl rfl (by decide), natively_rowStream 0x54 rfl rfl rfl (by decide),
      natively_rowStream 0x55 rfl rfl rfl (by decide)⟩⟩

/-- Settles O30: the checks of each routine pass, so that its plan has no fault, and what the plan does last is the command that joins
the function queue (`fnPlan_eq`, `natTlsc2_finish`, `natRow_vector`, `natRow_stream`). -/
theorem functionAndRowRoutinesJoinTheirQueue : Obligations.FunctionAndRowRoutinesJoinTheirQueue :=
  ⟨functionRoutinesJoinTheFunctionQueue, rowRoutinesReduceInOrder⟩

end Sys2Proof.Claims
end

section
/-! Routines whose members' commands enter a copy engine's queue, or the combine or the job queue of their core (R258, R262, R266, R267,
R269, R270, R272..R274, R277, R279, R281). -/

namespace Sys2Proof.Machine
open Sys2Proof.Claims

/-! ### Plans whose last act is a command -/

/-- A plan that is made of what a routine's checks answer does what follows once they pass. -/
theorem planOf_passes {α : Type} {x : Except Trap α} (h : ∃ a, x = .ok a) (g : State → State) :
    planOf (x.map fun _ => g) = NatPlan.simple none g := by
  obtain ⟨a, rfl⟩ := h
  rfl

/-- A routine that feeds a queue, whose checks are one function. -/
theorem natively_checked {i : Instr} (n : BitVec 12) {f : RForm} (hf : i.rform = some f) (hw : slotWord i = some (wordR n f))
    (hk : i.kind = .routine) (hq : 0x80 ≤ n.toNat) {α : Type} {check : RCall → Ctx → State → Except Trap α}
    {eff : RCall → Ctx → State → State}
    (hplan : ∀ r c w, r.f = f → r.e.std = n.toNat → natPlan r c w = planOf ((check r c w).map fun _ => eff r c)) :
    NativelyInTurn i (fun r c w => ∃ x, check r c w = .ok x) eff := by
  refine natively_in_turn_at i n f hf hw hk hq _ _ fun r c w hform hstd hp => ?_
  rw [hplan r c w hform hstd, planOf_passes hp]
  exact ⟨rfl, rfl⟩

/-! ### Copy routines (R262, R266, R267, R269, R270) -/

/-- R260: mode 0 is a mode of every routine that checks its mode. -/
theorem modeCheck_zero {r : RCall} (h : r.mode = 0) (n : Nat) : r.modeCheck n = .ok () :=
  if_pos (h ▸ Nat.zero_le n)

/-- The low 32 bits of a word, as the checks of the engine routines take them. -/
theorem low32_toNat (x : Word) : (x.extractLsb' 0 32).toNat = x.toNat % 2 ^ 32 := by
  simp

/-- TSTLOAD, in system code, of a slice's number and a sound image (R266). -/
theorem natTstload_passes {r : RCall} {c : Ctx} {w : State} {t b : Nat} (hsys : r.sys = true)
    (hx : (r.cap c.mi).x.val.toNat < 256)
    (hb : r.block c w ((r.cap c.mi).y.val.toNat % 2 ^ 32) 256 8 = .ok (t, b)) (hw : slotsBad (slotWords (spBytes w t b 256)) = none) :
    natTstload r c w = NatPlan.simple none fun s =>
      intoCopy s c r.f (.tstload (r.cap c.mi).x.val.toNat (slotWords (spBytes w t b 256))) [] [] := by
  have hslice : (r.cap c.mi).x.val.extractLsb' 8 56 = 0 := by
    apply BitVec.eq_of_toNat_eq
    rw [BitVec.extractLsb'_toNat, Nat.shiftRight_eq_div_pow, Nat.div_eq_of_lt hx]
    rfl
  simp only [natTstload, low32_toNat, hsys, hslice, hb, hw, Bool.not_true, Bool.false_eq_true, ne_eq, not_true_eq_false, if_false]
  rfl

/-- BTSWAP of an entry that its handle reaches (R269). -/
theorem natBtswap_passes {r : RCall} {c : Ctx} {pa : Nat} (w : State) (hm : r.mode = 0)
    (hr : r.reach c 1 .atomic (r.cap c.mi).x.val.toInt 8 8 = .ok pa) :
    natBtswap r c w = NatPlan.simple none fun s =>
      intoCopy s c r.f (.btswap r.f.x.toNat pa (r.cap c.mi).z.val (r.cap c.mi).w) [] [] := by
  simp only [natBtswap, modeCheck_zero hm, hr]
  rfl

/-- BTFENCE of a page that its handle reaches, with a sound counter (R262, R270). -/
theorem natBtfence_passes {r : RCall} {c : Ctx} {pa : Nat} {ctr : Option (Nat × Word)} (w : State) (hm : r.mode = 0)
    (hr : r.reach c 0 .load 0 1 1 = .ok pa) (hc : r.counter c ((r.cap c.mi).w.val.toNat % 2 ^ 32) = .ok ctr) :
    natBtfence r c w = NatPlan.simple none fun s =>
      intoCopy s c r.f (.btfence (r.handle c 0).2.vpage.toNat (r.handle c 0).2.size' ctr none) [] [] := by
  simp only [natBtfence, modeCheck_zero hm, hr, low32_toNat, hc]
  rfl

/-! ### Combine routines (R274, R277) -/

/-- CBPUT of a row that finds its token (R274): one that the unit will drop, or one of which no other put is queued. -/
theorem natCbput_passes {r : RCall} {c : Ctx} {w : State}
    (hp : putMatch w c.h.part (r.cap c.mi).y.val (r.cap c.mi).z.val = .drop ∨
      (∃ t j, putMatch w c.h.part (r.cap c.mi).y.val (r.cap c.mi).z.val = .fill t j) ∧
        putQueued w (r.cap c.mi).y.val (r.cap c.mi).z.val = false) :
    natCbput r c w = NatPlan.simple none fun s =>
      intoComb s c (.put (r.cap c.mi).y.val (r.cap c.mi).z.val (r.vin c 0)) := by
  obtain hdrop | ⟨⟨t, j, hfill⟩, hq⟩ := hp
  · simp only [natCbput, hdrop]
    rfl
  · simp only [natCbput, hfill, hq, Bool.false_eq_true, if_false]
    rfl

/-- CBSTAT of one of the five statistics (R277). -/
theorem natCbstat_passes {r : RCall} {c : Ctx} (w : State) (hy : (r.cap c.mi).y.val.toNat ≤ 4) :
    natCbstat r c w = NatPlan.simple none fun s =>
      intoComb s c (.stat r.f.x.toNat (r.cap c.mi).y.val.toNat (r.cap c.mi).z.val) :=
  if_neg (Nat.not_lt.mpr hy)

end Sys2Proof.Machine

namespace Sys2Proof.Claims
open Sys2Proof.Machine

/-- Settles O31: once its checks pass, each routine's plan is the command that it queues (`planOf_passes`, `natTstload_passes`,
`natBtswap_passes`, `natBtfence_passes`), and `natively_in_turn_at` brings the members' commands into their order. -/
theorem copyRoutinesJoinTheCopyQueue : Obligations.CopyRoutinesJoinTheCopyQueue := by
  intro f
  refine ⟨?cpy, ?cpyred, ?tstload, ?btswap, ?btfence⟩
  case cpy => exact natively_checked 0x80 rfl rfl rfl (by decide) fun r c w _ hstd => by simp only [natPlan, hstd]; rfl
  case cpyred => exact natively_checked 0x81 rfl rfl rfl (by decide) fun r c w _ hstd => by simp only [natPlan, hstd]; rfl
  case tstload =>
    refine natively_in_turn_at _ 0x82 f rfl rfl rfl (by decide) _ _ fun r c w _ hstd hp => ?_
    obtain ⟨hsys, hx, t, b, hb, hl⟩ := hp
    have hplan : natPlan r c w = natTstload r c w := by simp [natPlan, hstd]
    rw [hplan, natTstload_passes hsys hx hb hl, hb]
    exact ⟨rfl, rfl⟩
  case btswap =>
    refine natively_in_turn_at _ 0x83 f rfl rfl rfl (by decide) _ _ fun r c w hf hstd hp => ?_
    subst hf
    obtain ⟨hm, pa, hr⟩ := hp
    have hplan : natPlan r c w = natBtswap r c w := by simp [natPlan, hstd]
    rw [hplan, natBtswap_passes w hm hr, hr]
    exact ⟨rfl, rfl⟩
  case btfence =>
    refine natively_in_turn_at _ 0x84 f rfl rfl rfl (by decide) _ _ fun r c w _ hstd hp => ?_
    obtain ⟨hm, ⟨pa, hr⟩, ctr, hc⟩ := hp
    have hplan : natPlan r c w = natBtfence r c w := by simp [natPlan, hstd]
    rw [hplan, natBtfence_passes w hm hr hc, hc]
    exact ⟨rfl, rfl⟩

/-- Settles O32: as for O31, the plan of a routine whose checks pass is its command (`planOf_passes`, `natCbput_passes`,
`natCbstat_passes`). -/
theorem combineAndJobRoutinesJoinTheirQueues : Obligations.CombineAndJobRoutinesJoinTheirQueues := by
  intro f
  refine ⟨?cbreg, ?cbput, ?cbstat, ?jexp, ?jdone, ?ringadv⟩
  case cbreg =>
    refine natively_checked 0xA0 rfl rfl rfl (by decide) fun r c w hf hstd => ?_
    subst hf
    simp only [natPlan, hstd]
    rfl
  case cbput =>
    refine natively_in_turn_at _ 0xA1 f rfl rfl rfl (by decide) _ _ fun r c w _ hstd hp => ?_
    have hplan : natPlan r c w = natCbput r c w := by simp [natPlan, hstd]
    rw [hplan, natCbput_passes hp]
    exact ⟨rfl, rfl⟩
  case cbstat =>
    refine natively_in_turn_at _ 0xA2 f rfl rfl rfl (by decide) _ _ fun r c w hf hstd hy => ?_
    subst hf
    have hplan : natPlan r c w = natCbstat r c w := by simp [natPlan, hstd]
    rw [hplan, natCbstat_passes w hy]
    exact ⟨rfl, rfl⟩
  case jexp => exact natively_checked 0xB0 rfl rfl rfl (by decide) fun r c w _ hstd => by simp only [natPlan, hstd]; rfl
  case jdone => exact natively_checked 0xB1 rfl rfl rfl (by decide) fun r c w _ hstd => by simp only [natPlan, hstd]; rfl
  case ringadv => exact natively_checked 0xC0 rfl rfl rfl (by decide) fun r c w _ hstd => by simp only [natPlan, hstd]; rfl

end Sys2Proof.Claims
end

section
/-! What a copy engine does with the command at its head, what a fence leaves of the block-table entries of its page, and the slices'
admission of contributions (R107, R222, R263, R266, R268..R270, R421). -/

namespace Sys2Proof.Machine
open Sys2Proof.Claims

/-! ### The head of a copy engine's queue (R263, R266, R268..R270) -/

section
variable {s : State} {e : Nat} {x : CopyCmd} {rest : List CopyCmd}

/-- A copy whose moves have all been made (R107, R262, R263). -/
theorem copyPerform_cpy (hq : s.copyCmds e = x :: rest) {moves : List Move} {mode : Nat} {ctr : Option (Nat × Word)} {y : CopyRun}
    (hop : x.op = .cpy moves mode ctr)
    (hrun : copyRun (ownerWho s x.part x.node x.hc) mode (moves.drop x.done) x.wait ⟨s, x.done, x.beat, x.eaten, false⟩ = y)
    (hall : y.all = true) :
    copyPerform s e = postCtr (consumeAt (clearScores (withCopies y.s e rest) x.id) x.hc x.mem x.part x.node y.eaten)
      (ownerWho s x.part x.node x.hc) ctr := by
  simp only [copyPerform, hq, hop, hrun, hall, if_true]
  rfl

/-- A reduction that every slice has taken (R267, R268). -/
theorem copyPerform_cpyred (hq : s.copyCmds e = x :: rest) {group sid : Nat} {moves : List Move} {float : Bool}
    {ctr : Option (Nat × Word)} {u : State} (hop : x.op = .cpyred group sid moves float ctr)
    (hsend : sendRed s x group sid moves float ctr = some u) :
    copyPerform s e = clearScores (withCopies u e rest) x.id := by
  simp only [copyPerform, hq, hop, hsend]
  rfl

theorem copyPerform_tstload (hq : s.copyCmds e = x :: rest) {k : Nat} {words : List (BitVec 32)} (hop : x.op = .tstload k words) :
    copyPerform s e = withCopies (loadSlots s k words) e rest := by
  simp only [copyPerform, hq, hop]
  rfl

theorem copyPerform_btswap (hq : s.copyCmds e = x :: rest) {sd pa : Nat} {old : Word} {new : SReg}
    (hop : x.op = .btswap sd pa old new) :
    copyPerform s e = withCopies (swapEntry s x sd pa old new) e rest := by
  simp only [copyPerform, hq, hop]
  rfl

/-- R269: the word, as it stands when the swap reaches it, goes to the output register, and is replaced if it is the expected one
and the request arrives. -/
theorem swapEntry_eq (sd pa : Nat) (old : Word) (new : SReg) {id : Nat} (hhc : x.hc = some id) :
    let w := ownerWho s x.part x.node x.hc
    let u := beginImm s w (.mem pa)
    let v := locWord u w (.mem pa)
    let u := arrive u w pa 8
    let z := swapWake (writeImm u w pa (bytesOf 8 new.val.toNat) (mergeTag v.tag new.tag)) pa
    let z := if isHostPa pa then consumeAt z x.hc x.mem x.part x.node (mergeTag v.tag new.tag) else z
    swapEntry s x sd pa old new =
      given (if sendable u w.part pa = false then loseImm u w (.mem pa) else if v.val = old then z else u)
        id x.mem (.s sd v.val v.tag) := by
  simp only [swapEntry, hhc, unsent, Bool.not_eq_true']
  rfl

/-- A fence whose member has no contribution outstanding: it drops its page's entries once, and goes when nothing uses them (R270). -/
theorem copyPerform_btfence (hq : s.copyCmds e = x :: rest) {page size : Nat} {ctr : Option (Nat × Word)} {drops : Option Nat}
    (hop : x.op = .btfence page size ctr drops) (hreds : ∀ r ∈ s.reds, ¬ (r.hc = x.hc ∧ r.mem = x.mem)) :
    let bound := drops.getD s.nextCmd
    let y := if drops.isSome then (s, !entryInUse s x.part page size (some e) x.id bound)
      else fenceEntries s x.part page size (some e) x.id bound
    copyPerform s e = if y.2 = true then postCtr (withCopies y.1 e rest) (ownerWho s x.part x.node x.hc) ctr
      else withCopies y.1 e ({ x with op := .btfence page size ctr (some bound) } :: rest) := by
  have hnone : (s.reds.any fun r => r.hc == x.hc && r.mem == x.mem) = false := by
    rw [List.any_eq_false]
    simpa using hreds
  simp only [copyPerform, hq, hop, hnone, Bool.false_eq_true, if_false]
  cases drops <;> rfl

end

/-! ### What a fence drops (R222, R270) -/

theorem mem_of_aget {β : Type} {m : AMap β} {k : Nat} {b : β} (h : aget m k = some b) : (k, b) ∈ m := by
  induction m with
  | nil => cases h
  | cons x r ih =>
    obtain ⟨j, c⟩ := x
    unfold aget at h
    split at h
    · next hj => simp_all
    · exact List.mem_cons_of_mem _ (ih h)

/-- Stream register `qn` of member `mi` of a herd-context. -/
def State.streamAt (s : State) (id mi qn : Nat) : Option Strm := ((s.hc? id).bind (·.member? mi)).bind (·.q[qn]?)

/-- A stream register drops the entries that it read from a page (R270). -/
def dropAt (page size : Nat) (s : State) (x : Nat × Nat × Nat) : State :=
  s.modMember x.1 x.2.1 fun m =>
    let q := m.strm x.2.2
    let gone := if strmBusy s x.1 x.2.1 x.2.2 m then q.dropped ++ (q.bte.map (·.1)).filter (inPage page size) else []
    m.setStrm x.2.2 { q with bte := q.bte.filter fun a => !inPage page size a.1, dropped := gone }

theorem dropEntries_eq (s : State) (part page size : Nat) :
    dropEntries s part page size = (entryHolders s part page size).foldl (dropAt page size) s := rfl

/-- A stream register holds no entry of a page. -/
def State.freeOf (s : State) (page size : Nat) (x : Nat × Nat × Nat) : Prop :=
  ∀ q, s.streamAt x.1 x.2.1 x.2.2 = some q → ∀ a ∈ q.bte, inPage page size a.1 = false

theorem streamAt_modMember (s : State) (id mi qn : Nat) (f : Member → Member) :
    (s.modMember id mi f).streamAt id mi qn = (((s.hc? id).bind (·.member? mi)).map f).bind (·.q[qn]?) := by
  unfold State.streamAt State.modMember
  rw [State.modHc_hc]
  cases s.hc? id with
  | none => rfl
  | some h =>
    cases hm : h.member? mi with
    | none => simp [HerdCtx.modMember, hm]
    | some m =>
      have hlt : mi < h.members.length := (List.getElem?_eq_some_iff.mp hm).1
      simp [HerdCtx.modMember, hm, HerdCtx.setMember_same h mi _ hlt]

theorem streamAt_modMember_other (s : State) (id mi : Nat) (f : Member → Member) {i k : Nat} (qn : Nat) (hne : ¬ (i = id ∧ k = mi)) :
    (s.modMember id mi f).streamAt i k qn = s.streamAt i k qn := by
  unfold State.streamAt State.modMember
  by_cases hi : i = id
  · subst hi
    have hk : k ≠ mi := fun hk => hne ⟨rfl, hk⟩
    rw [State.modHc_hc]
    cases s.hc? i with
    | none => rfl
    | some h =>
      cases hm : h.member? mi with
      | none => simp [HerdCtx.modMember, hm]
      | some m => simp [HerdCtx.modMember, hm, HerdCtx.setMember_other h mi k _ hk]
  · rw [State.modHc_hc_other _ _ _ _ hi]

/-- A register that drops a page's entries holds none of them, and no other register gains one. -/
theorem dropAt_freeOf {page size : Nat} {s : State} {x y : Nat × Nat × Nat} (h : y = x ∨ s.freeOf page size y) :
    (dropAt page size s x).freeOf page size y := by
  obtain ⟨id, mi, qn⟩ := x
  obtain ⟨i, k, n⟩ := y
  intro q hq a ha
  by_cases hsame : i = id ∧ k = mi
  · obtain ⟨rfl, rfl⟩ := hsame
    rw [dropAt, streamAt_modMember] at hq
    obtain ⟨m', hm', hq⟩ := Option.bind_eq_some_iff.mp hq
    obtain ⟨m, hm, rfl⟩ := Option.map_eq_some_iff.mp hm'
    by_cases hn : n = qn
    · subst hn
      have hlt : n < m.q.length := by simpa [Member.setStrm] using (List.getElem?_eq_some_iff.mp hq).1
      rw [Member.setStrm, lset_get_same _ _ _ hlt] at hq
      obtain rfl := Option.some.inj hq
      simpa using (List.mem_filter.mp ha).2
    · rw [Member.setStrm, lset_get_other _ _ _ _ hn] at hq
      exact h.resolve_left (fun hxy => hn (by cases hxy; rfl)) q (Option.bind_eq_some_iff.mpr ⟨m, hm, hq⟩) a ha
  · rw [dropAt, streamAt_modMember_other _ _ _ _ _ hsame] at hq
    exact h.resolve_left (fun hxy => hsame (by cases hxy; exact ⟨rfl, rfl⟩)) q hq a ha

/-- Once a list of registers has dropped a page's entries, each of them is free of the page, as is each that was so before. -/
theorem foldl_dropAt_freeOf {page size : Nat} {y : Nat × Nat × Nat} (l : List (Nat × Nat × Nat)) (s : State)
    (h : y ∈ l ∨ s.freeOf page size y) : (l.foldl (dropAt page size) s).freeOf page size y := by
  induction l generalizing s with
  | nil => exact h.resolve_left (List.not_mem_nil)
  | cons x l ih =>
    refine ih _ ?_
    obtain hy | hy := h
    · obtain rfl | hy := List.mem_cons.mp hy
      · exact .inr (dropAt_freeOf (.inl rfl))
      · exact .inl hy
    · exact .inr (dropAt_freeOf (.inr hy))

/-- A register that is not free of a page, of a herd-context of the partition, is one of those that drop the page's entries. -/
theorem mem_entryHolders {s : State} {part page size id mi qn : Nat} {h : HerdCtx} (hh : s.hc? id = some h) (hpart : h.part = part)
    (hheld : ¬ s.freeOf page size (id, mi, qn)) : (id, mi, qn) ∈ entryHolders s part page size := by
  simp only [State.freeOf, State.streamAt, hh, not_forall, Bool.not_eq_false, Option.bind_some] at hheld
  obtain ⟨q, hq, a, ha, hin⟩ := hheld
  obtain ⟨m, hm, hq⟩ := Option.bind_eq_some_iff.mp hq
  unfold entryHolders
  refine List.mem_flatMap.mpr ⟨(id, h), List.mem_filter.mpr ⟨mem_of_aget hh, by simpa using hpart⟩, ?_⟩
  refine List.mem_flatMap.mpr ⟨(m, mi), List.mem_zipIdx_iff_getElem?.mpr hm, ?_⟩
  refine List.mem_map.mpr ⟨(q, qn), List.mem_filter.mpr ⟨List.mem_zipIdx_iff_getElem?.mpr hq, ?_⟩, rfl⟩
  exact List.any_eq_true.mpr ⟨a, ha, hin⟩

theorem modMember_part (s : State) (id mi : Nat) (f : Member → Member) (i : Nat) :
    ((s.modMember id mi f).hc? i).map (·.part) = (s.hc? i).map (·.part) := by
  unfold State.modMember
  by_cases hi : i = id
  · subst hi
    rw [State.modHc_hc, Option.map_map]
    congr 1
    funext h
    simp only [Function.comp, HerdCtx.modMember]
    split <;> rfl
  · rw [State.modHc_hc_other _ _ _ _ hi]

theorem dropEntries_freeOf (s : State) (part page size mi qn : Nat) {id : Nat} {h : HerdCtx}
    (hh : (dropEntries s part page size).hc? id = some h) (hpart : h.part = part) :
    (dropEntries s part page size).freeOf page size (id, mi, qn) := by
  have hkept : ((dropEntries s part page size).hc? id).map (·.part) = (s.hc? id).map (·.part) :=
    List.foldlRecOn (motive := fun u : State => (u.hc? id).map (·.part) = (s.hc? id).map (·.part)) _ _ rfl
      fun u hu x _ => (modMember_part u _ _ _ id).trans hu
  rw [hh] at hkept
  obtain ⟨g, hg, hgpart⟩ := Option.map_eq_some_iff.mp hkept.symm
  rw [dropEntries_eq]
  refine foldl_dropAt_freeOf _ s ?_
  by_cases hfree : s.freeOf page size (id, mi, qn)
  · exact .inr hfree
  · exact .inl (mem_entryHolders hg (hgpart.trans hpart) hfree)

/-- R222: once a fence has had the partition's streams drop the entries of its page, no register of theirs holds one. -/
theorem fenceEntries_unheld {s : State} {part page size mine bound id : Nat} {eng : Option Nat} {h : HerdCtx} {m : Member} {q : Strm}
    (hh : (fenceEntries s part page size eng mine bound).1.hc? id = some h) (hpart : h.part = part) (hm : m ∈ h.members)
    (hq : q ∈ m.q) : ∀ a ∈ q.bte, inPage page size a.1 = false := by
  obtain ⟨mi, hmi⟩ := List.mem_iff_getElem?.mp hm
  obtain ⟨qn, hqn⟩ := List.mem_iff_getElem?.mp hq
  have hfree : (fenceEntries s part page size eng mine bound).1.freeOf page size (id, mi, qn) :=
    dropEntries_freeOf _ part page size mi qn hh hpart
  exact hfree q (by simp [State.streamAt, hh, HerdCtx.member?, hmi, hqn])

/-! ### Admission of a contribution (R268) -/

theorem exec_cpyredAdmit {s : State} {k part group sid : Nat} {c : Contribution}
    (hsid : ((s.slice k).round part group)[((s.slice k).find part group).pos]? = some sid)
    (hc : ((s.slice k).find part group).waiting.find? (·.sid == sid) = some c) :
    let r := (s.slice k).find part group
    let n := ((s.slice k).round part group).length
    let u := s.setSlice k ((s.slice k).put { r with pos := (r.pos + 1) % n, waiting := r.waiting.erase c })
    let w := ownerWho u c.part c.node c.hc
    let poison := mergeTags (c.items.map fun x =>
      if isHostPa x.1 then mergeTag (rawTag u w (x.1 / 8 * 8)) x.2.2 else none)
    exec (.cpyredAdmit k part group) s = .next (switchGroup
      (redLess (consumeAt (c.items.foldl (addItem w c.float) u) c.hc c.mem c.part c.node poison) c.cmd false) k part group) := by
  have hadmit : exec (.cpyredAdmit k part group) s = .next (admitRound s k part group) := rfl
  simp only [hadmit, admitRound, hsid, hc]

end Sys2Proof.Machine

namespace Sys2Proof.Claims
open Sys2Proof.Machine

/-- Settles O34: what the head's command does, by its kind (`copyPerform_cpy` and the lemmas after it), what a fence leaves of its page
(`fenceEntries_unheld`), and one admission (`exec_cpyredAdmit`). -/
theorem copyEnginesAndSlicesPerformTheirHead : Obligations.CopyEnginesAndSlicesPerformTheirHead := by
  intro s e x rest
  refine ⟨fun hq => ⟨?cpy, ?cpyred, ?tstload, ?btswap, ?btfence⟩, ?dropped, ?admission⟩
  case cpy => exact fun moves mode ctr y hop hrun hall => congrArg _ (copyPerform_cpy hq hop hrun hall)
  case cpyred => exact fun group sid moves float ctr u hop hsend => congrArg _ (copyPerform_cpyred hq hop hsend)
  case tstload => exact fun k words hop => congrArg _ (copyPerform_tstload hq hop)
  case btswap =>
    exact fun sd pa old new id hop hhc => congrArg _
      ((copyPerform_btswap hq hop).trans (congrArg (withCopies · e rest) (swapEntry_eq sd pa old new hhc)))
  case btfence => exact fun page size ctr drops hop hreds => congrArg _ (copyPerform_btfence hq hop hreds)
  case dropped =>
    intro part page size eng mine bound id h m q hh hpart hm hq a ha hin
    have hfree := fenceEntries_unheld hh hpart hm hq a ha
    simp [inPage, hin] at hfree
  case admission => exact fun k part group sid c hsid hc => exec_cpyredAdmit hsid hc

end Sys2Proof.Claims
end

section
/-! What the combine unit does with the command at the head of a core's queue, and with a token that is complete or whose ticks have
passed (R273..R277, R401). -/

namespace Sys2Proof.Machine
open Sys2Proof.Claims

theorem exec_combineQueue (s : State) (core : Nat) : exec (.combineQueuePerform core) s = .next (combPerform s core) := rfl

/-! ### The head of a core's combine queue (R273, R274, R277) -/

section
variable {s : State} {core hc mi num v : Nat} {h : HerdCtx} {rest : List CombCmd}

/-- A registration whose bundle's earlier ones have entered, and that finds a slot: its register gets the slot ID (R273). -/
theorem combPerform_reg (hhc : s.hc? hc = some h) {sd r : Nat} {l : List Byte} {d f : List Nat} {t : State} {id : Word}
    (hq : (s.core core).combQ = ⟨hc, mi, num, v, .reg sd l d f r⟩ :: rest)
    (hahead : regAhead (withCombs s core rest) ⟨hc, mi, num, v, .reg sd l d f r⟩ = false)
    (hreg : register (withCombs s core rest) h hc mi (core / 144) l d f r = some (t, id)) :
    combPerform s core = given t hc mi (.s sd id none) := by
  unfold withCombs at hahead hreg
  simp only [combPerform, hq, hhc, hahead, hreg, Bool.false_eq_true, if_false]
  rfl

/-- A command that waits is put back at the head of its queue, and changes nothing. -/
theorem combineWaits_of (hback : combPerform s core = (withCombs s core rest).setCore core (s.core core)) : combineWaits s core := by
  refine ⟨(withCombs s core rest).setCore core (s.core core), by rw [exec_combineQueue, hback], fun k => ?_, rfl, rfl, rfl, rfl, rfl⟩
  by_cases hk : k = core
  · rw [hk, State.setCore_core]
  · rw [State.setCore_core_other _ _ _ _ hk, withCombs, State.setCore_core_other _ _ _ _ hk]

theorem combineWaits_reg (hhc : s.hc? hc = some h) {sd r : Nat} {l : List Byte} {d f : List Nat}
    (hq : (s.core core).combQ = ⟨hc, mi, num, v, .reg sd l d f r⟩ :: rest)
    (hwait : regAhead (withCombs s core rest) ⟨hc, mi, num, v, .reg sd l d f r⟩ = true ∨
      register (withCombs s core rest) h hc mi (core / 144) l d f r = none) : combineWaits s core := by
  refine combineWaits_of (rest := rest) ?_
  unfold withCombs at hwait ⊢
  simp only [combPerform, hq, hhc]
  obtain hahead | hnone := hwait
  · exact if_pos hahead
  · simp only [hnone, ite_self]

/-- A row that fills a position: the token as it stands once the row is accepted (R274). -/
theorem combPerform_fill (hhc : s.hc? hc = some h) {id sel : Word} {row : VReg} {t y : Token} {j : Nat}
    (hq : (s.core core).combQ = ⟨hc, mi, num, v, .put id sel row⟩ :: rest) :
    let u := withCombs s core rest
    let x := markIrrev u (h.who u)
    putMatch x h.part id sel = .fill t j →
    acceptRow t (selSeg sel) j (stagingLeft x h.part (idDie id) []) row = some y →
    combPerform s core = x.modComb (idDie id) fun z => { z with tokens := aset z.tokens (idIndex id) y } := by
  intro u x hfill hrow
  simp only [u, x, withCombs] at hfill hrow ⊢
  simp only [combPerform, hq, hhc, hfill, hrow]

/-- A row that finds no staging row waits (R274). -/
theorem combineWaits_put (hhc : s.hc? hc = some h) {id sel : Word} {row : VReg} {t : Token} {j : Nat}
    (hq : (s.core core).combQ = ⟨hc, mi, num, v, .put id sel row⟩ :: rest) :
    let u := withCombs s core rest
    let x := markIrrev u (h.who u)
    putMatch x h.part id sel = .fill t j →
    acceptRow t (selSeg sel) j (stagingLeft x h.part (idDie id) []) row = none → combineWaits s core := by
  intro u x hfill hrow
  refine combineWaits_of (rest := rest) ?_
  simp only [u, x, withCombs] at hfill hrow ⊢
  simp only [combPerform, hq, hhc, hfill, hrow]

/-- A row that its token no longer takes is counted (R274). -/
theorem combPerform_drop (hhc : s.hc? hc = some h) {id sel : Word} {row : VReg}
    (hq : (s.core core).combQ = ⟨hc, mi, num, v, .put id sel row⟩ :: rest) :
    let u := withCombs s core rest
    let x := markIrrev u (h.who u)
    putMatch x h.part id sel = .drop → combPerform s core = lateDrop x h.part (idDie id) := by
  intro u x hdrop
  simp only [u, x, withCombs] at hdrop ⊢
  simp only [combPerform, hq, hhc, hdrop]

/-- A statistic, 0 for a node under DETERM (R277). -/
theorem combPerform_stat (hhc : s.hc? hc = some h) {sd sel : Nat} {id : Word}
    (hq : (s.core core).combQ = ⟨hc, mi, num, v, .stat sd sel id⟩ :: rest) :
    let u := withCombs s core rest
    combPerform s core =
      given u hc mi (.s sd (if h.determ u = true then 0 else statValue u h.part (core / 144) sel id) none) := by
  simp only [combPerform, hq, hhc]
  rfl

end

/-! ### Tokens (R275, R276, R401) -/

/-- A complete token that its unit may release: its rows, then its status word, then the counter's add (R275, R401). -/
theorem tokenRelease_releases {s : State} {d i : Nat} {t : Token} (ht : aget (s.comb d).tokens i = some t)
    (hmay : t.mayRelease (s.comb d) = true) :
    let at' (off : Nat) : Nat := granAddr t.dest (recDest t.fields) off
    let lost := (List.range (recS t.fields * 256 + 2)).any fun j => portFailed (rowsWritten s t) (at' (4 * j))
    tokenRelease s d i = (counterAdd
      (writeNow (rowsWritten s t) (tokenWho s t) (at' (1024 * recS t.fields))
        (bytesOf 8 (t.status ||| if lost then 4 else 0)) none)
      (tokenWho s t) t.rctr (BitVec.ofNat 32 (recRadd t.fields)) none).modComb d fun u =>
        { u with tokens := adel u.tokens i } := by
  simp only [tokenRelease, ht, hmay, if_true]
  rfl

/-- A token whose ticks have passed is completed position by position, and its member told of the substitution (R276). -/
theorem combTimeout_completes {s : State} {d i : Nat} {t : Token} (ht : aget (s.comb d).tokens i = some t)
    (hopen : t.complete = false) (hticks : recTimeout t.fields ≠ 0) :
    let x := (List.range (recS t.fields)).foldl (fun x g =>
      (List.range (recK t.fields)).foldl (fun x j => substitute x g j) x) (s, t)
    combTimeout s d i = setCirAt
      (x.1.modComb d fun u => { u with tokens := aset u.tokens i { x.2 with complete := true } })
      (some t.hc) t.mem t.part t.node 4 := by
  simp only [combTimeout, ht, hopen, Bool.false_or, beq_iff_eq, hticks, if_false]
  rfl

end Sys2Proof.Machine

namespace Sys2Proof.Claims
open Sys2Proof.Machine

/-- Settles O35: what the unit does with the head's command, by its kind and by whether it finds what it needs, and with a token that
is complete (`tokenRelease_releases`) or whose ticks have passed (`combTimeout_completes`). -/
theorem combineUnitPerformsItsCommands : Obligations.CombineUnitPerformsItsCommands := by
  intro s
  refine ⟨fun core hc mi num v h rest hhc => ⟨?reg, ?regWaits, ?fill, ?putWaits, ?drop, ?stat⟩, ?release, ?timeout⟩
  case reg => exact fun sd l d f r t id hq hahead hreg => congrArg _ (combPerform_reg hhc hq hahead hreg)
  case regWaits => exact fun sd l d f r hq hwait => combineWaits_reg hhc hq hwait
  case fill => exact fun id sel row t j y hq hfill hrow => congrArg _ (combPerform_fill hhc hq hfill hrow)
  case putWaits => exact fun id sel row t j hq hfill hrow => combineWaits_put hhc hq hfill hrow
  case drop => exact fun id sel row hq hdrop => congrArg _ (combPerform_drop hhc hq hdrop)
  case stat => exact fun sd sel id hq => congrArg _ (combPerform_stat hhc hq)
  case release => exact fun d i t ht hmay => congrArg _ (tokenRelease_releases ht hmay)
  case timeout => exact fun d i t ht hopen hticks => congrArg _ (combTimeout_completes ht hopen hticks)

end Sys2Proof.Claims
end

section
/-! What a core's job and host-ring queue does with the command at its head, and the end of a ring's timer (R279, R281, R421). -/

namespace Sys2Proof.Machine
open Sys2Proof.Claims

/-! ### One step at a job control block (R279) -/

/-- R279 refuses no producer that is open at the block. -/
theorem producer_open {opn p : Nat} (hp : p < 64) (hopen : opn.testBit p = true) : ¬ (63 < p ∨ (!opn.testBit p) = true) := by
  rw [hopen]
  simpa using Nat.le_of_lt_succ hp

section
variable {u : State} {w : Who} {pa fin p : Nat} {n : SReg}

/-- A request that cannot be sent is lost, whatever it asks for (R340, R342). -/
theorem jcbStep_lost (done : Bool) (hs : sendable u w.part pa = false) :
    jcbStep u w done pa fin p n = .ok (loseImm u w (.mem pa)) := by
  simp [jcbStep, unsent, hs]

/-- An open producer's JEXP raises the expected count. -/
theorem jcbStep_jexp (hs : sendable u w.part pa = true) (hp : p < 64) (hopen : (view64 u w (pa + 16)).toNat.testBit p = true) :
    jcbStep u w false pa fin p n = .ok (putField u w pa 8 (((view64 u w pa).toNat + n.val.toNat % 2 ^ 32) % 2 ^ 64) n.tag) := by
  simp only [jcbStep, unsent, hs, Bool.not_true, Bool.false_eq_true, if_false, if_neg (producer_open hp hopen), Bool.not_false, if_true]

/-- An open producer's JDONE raises the done count and leaves; the last to leave closes the job if the counts agree. -/
theorem jcbStep_jdone (hs : sendable u w.part pa = true) (hp : p < 64) (hopen : (view64 u w (pa + 16)).toNat.testBit p = true) :
    let d := ((view64 u w (pa + 8)).toNat + n.val.toNat % 2 ^ 32) % 2 ^ 64
    let opn := (view64 u w (pa + 16)).toNat
    let v := putField (putField u w (pa + 8) 8 d n.tag) w (pa + 16) 8 (opn - 2 ^ p) none
    jcbStep u w true pa fin p n =
      if opn = 2 ^ p ∧ d ≠ (view64 u w pa).toNat then .error .engineParam
      else if opn = 2 ^ p then .ok (counterAdd
        (putField v w (pa + 36) 4 (view32 v w (pa + 36) ||| 1).toNat none) w fin (view32 v w (pa + 32)) none)
      else .ok v := by
  simp only [jcbStep, unsent, hs, Bool.not_true, Bool.false_eq_true, if_false, if_neg (producer_open hp hopen)]

end

/-! ### One step at a ring control block (R281) -/

section
variable {u : State} {w : Who} {pa pidx : Nat} {n : SReg} {flush : Bool}

theorem ringStep_lost (hs : sendable u w.part pa = false) : ringStep u w pa pidx n flush = loseImm u w (.mem pa) := by
  simp [ringStep, unsent, hs]

/-- RINGADV publishes the index; then it sends the vector's message, starts the vector's timer, or does no more. -/
theorem ringStep_sent (hs : sendable u w.part pa = true) :
    let v := ringWritten u w pa pidx n
    let p := ringSum u w pa n
    let last := (view32 v w (pa + 12)).toNat
    let count := natOf (viewBytes v w (pa + 16) 2)
    let time := natOf (viewBytes v w (pa + 18) 2)
    let vec := natOf (viewBytes v w (pa + 20) 2)
    ringStep u w pa pidx n flush =
      if (0 < count ∧ count ≤ (p + 2 ^ 32 - last) % 2 ^ 32) ∨ (flush = true ∧ p ≠ last) then
        let t := putField (sendMsix v vec) w (pa + 12) 4 p none
        { t with timers := adel t.timers vec }
      else if p ≠ last ∧ (aget v.timers vec).isNone ∧ 0 < time then { v with timers := aset v.timers vec ⟨pa⟩ }
      else v := by
  simp only [ringStep, unsent, hs, Bool.not_true, Bool.false_eq_true, if_false]
  rfl

end

/-! ### The head of the queue -/

/-- A command of a herd-context accesses memory as that herd-context does. -/
theorem ownerWho_hc {s : State} {id : Nat} {h : HerdCtx} (part node : Nat) (hh : s.hc? id = some h) :
    ownerWho s part node (some id) = h.who s := by
  simp only [ownerWho, hh]

section
variable {s : State} {core hc mi slot : Nat} {h : HerdCtx} {rest : List JobCmd} (hhc : s.hc? hc = some h)
include hhc

theorem ownerWho_job (node : Nat) : ownerWho (withJobs s core rest) (cmdPart (withJobs s core rest) hc) node (some hc) =
    h.who (withJobs s core rest) :=
  ownerWho_hc _ _ hhc

/-- JEXP is one step at its block, with the poison that it wrote to host memory consumed (R279, R421); so are JDONE and RINGADV. -/
theorem jobPerform_jexp {pa fin p : Nat} {n : SReg} (hq : (s.core core).jobQ = ⟨hc, mi, slot, .jexp pa fin p n⟩ :: rest) :
    let u := withJobs s core rest
    let w := h.who u
    jobPerform s core = eaten ((jcbStep u w false pa fin p n).toOption.getD u) hc mi u w pa [8] n.tag := by
  intro u w
  simp only [u, w, ← ownerWho_job (core := core) (rest := rest) hhc 0]
  simp only [jobPerform, hq]
  rfl

theorem jobPerform_jdone {pa fin p : Nat} {n : SReg} (hq : (s.core core).jobQ = ⟨hc, mi, slot, .jdone pa fin p n⟩ :: rest) :
    let u := withJobs s core rest
    let w := h.who u
    jobPerform s core =
      eaten ((jcbStep u w true pa fin p n).toOption.getD u) hc mi u w pa (jdoneFields u w pa p) n.tag := by
  intro u w
  simp only [u, w, ← ownerWho_job (core := core) (rest := rest) hhc 0]
  simp only [jobPerform, hq]
  rfl

theorem jobPerform_ringadv {pa pidx : Nat} {n : SReg} {flush : Bool}
    (hq : (s.core core).jobQ = ⟨hc, mi, slot, .ringadv pa pidx n flush⟩ :: rest) :
    let u := withJobs s core rest
    let w := h.who u
    jobPerform s core = ringEaten (ringStep u w pa pidx n flush) hc mi u w pa pidx n flush := by
  intro u w
  simp only [u, w, ← ownerWho_job (core := core) (rest := rest) hhc 0]
  simp only [jobPerform, hq]
  rfl

end

/-- Nothing is consumed of what does not go to host memory (R421). -/
theorem eaten_of_not_host {s u : State} {hc mi pa : Nat} {w : Who} {offs : List Nat} {t : Tag} (hpa : isHostPa pa = false) :
    eaten s hc mi u w pa offs t = s := by
  simp [eaten, hpa]

theorem ringEaten_of_not_host {s u : State} {hc mi pa pidx : Nat} {w : Who} {n : SReg} {flush : Bool}
    (hpa : isHostPa pa = false) (hpidx : isHostPa pidx = false) : ringEaten s hc mi u w pa pidx n flush = s := by
  simp [ringEaten, hpidx, eaten_of_not_host hpa]

/-- A job command whose request is lost does nothing but be counted (R340, R342). -/
theorem jobPerform_lost {s : State} {core hc mi slot : Nat} {h : HerdCtx} {rest : List JobCmd} {op : JobOp} {pa : Nat}
    (hhc : s.hc? hc = some h) (hq : (s.core core).jobQ = ⟨hc, mi, slot, op⟩ :: rest) (hblock : op.block = pa)
    (hs : sendable (withJobs s core rest) (h.who (withJobs s core rest)).part pa = false) (hpa : isHostPa pa = false)
    (hidx : ∀ pidx n fl, op = .ringadv pa pidx n fl → isHostPa pidx = false) :
    jobPerform s core = loseImm (withJobs s core rest) (h.who (withJobs s core rest)) (.mem pa) := by
  cases op with
  | jexp a fin p n =>
    obtain rfl : a = pa := hblock
    rw [jobPerform_jexp hhc hq, jcbStep_lost false hs, eaten_of_not_host hpa]
    rfl
  | jdone a fin p n =>
    obtain rfl : a = pa := hblock
    rw [jobPerform_jdone hhc hq, jcbStep_lost true hs, eaten_of_not_host hpa]
    rfl
  | ringadv a pidx n fl =>
    obtain rfl : a = pa := hblock
    rw [jobPerform_ringadv hhc hq, ringEaten_of_not_host hpa (hidx _ _ _ rfl)]
    exact ringStep_lost hs

/-- The end of a ring's timer (R281): the message, and the index as it then stands. -/
theorem timerExpiry_sends {s : State} {vec : Nat} {t : RingTimer} (ht : aget s.timers vec = some t) :
    let v := sendMsix { s with timers := adel s.timers vec } vec
    timerExpiry s vec = putFw v 0 (t.rcb + 12) (bytesOf 4 (natOf (Memory.getBytes v.mem (t.rcb + 8) 4))) := by
  simp only [timerExpiry, ht]

end Sys2Proof.Machine

namespace Sys2Proof.Claims
open Sys2Proof.Machine

/-- Settles O36: `jobPerform_jexp`, `jobPerform_jdone` and `jobPerform_ringadv` reduce the head's command to one step at its block and
the poison that the step consumes, and the lemmas on `jcbStep` and `ringStep` say what that step is in each case. -/
theorem jobAndRingCommandsUpdateTheirBlocks : Obligations.JobAndRingCommandsUpdateTheirBlocks := by
  intro s core hc mi slot h rest hhc u w
  refine ⟨?jexp, ?jdone, ?ringadv, ?lost, ?timer⟩
  case jexp =>
    intro pa fin p n hq hs hp hopen
    refine congrArg Host.Outcome.next ((jobPerform_jexp hhc hq).trans ?_)
    rw [jcbStep_jexp hs hp hopen]
    rfl
  case jdone =>
    intro pa fin p n hq hs hp hopen d opn v
    have hjob : exec (.jobQueuePerform core) s =
        .next (eaten ((jcbStep u w true pa fin p n).toOption.getD u) hc mi u w pa (jdoneFields u w pa p) n.tag) :=
      congrArg Host.Outcome.next (jobPerform_jdone hhc hq)
    rw [hjob, jcbStep_jdone hs hp hopen]
    refine ⟨fun hothers => ?_, fun hlast hcounts => ?_⟩
    · rw [if_neg fun hbad => hothers hbad.1, if_neg hothers, jdoneFields, if_neg hothers]
      rfl
    · rw [if_neg fun hbad => hbad.2 hcounts, if_pos hlast, jdoneFields, if_pos hlast]
      rfl
  case ringadv =>
    intro pa pidx n flush hq hs v p last count time vec due
    have hring : exec (.jobQueuePerform core) s =
        .next (ringEaten (ringStep u w pa pidx n flush) hc mi u w pa pidx n flush) :=
      congrArg Host.Outcome.next (jobPerform_ringadv hhc hq)
    rw [hring, ringStep_sent hs]
    refine ⟨fun hdue => ?_, fun hnot hmore hidle htime => ?_, fun hnot hrest => ?_⟩
    · rw [if_pos hdue]
    · rw [if_neg hnot, if_pos ⟨hmore, Option.isNone_iff_eq_none.mpr hidle, htime⟩]
    · rw [if_neg hnot, if_neg]
      rintro ⟨hmore, hidle, htime⟩
      obtain hp | hset | hzero := hrest
      · exact hmore hp
      · exact hset (Option.isNone_iff_eq_none.mp hidle)
      · exact htime.ne' hzero
  case lost => exact fun op pa hq hblock hs hpa hidx => congrArg Host.Outcome.next (jobPerform_lost hhc hq hblock hs hpa hidx)
  case timer => exact fun vec t ht => congrArg Host.Outcome.next (timerExpiry_sends ht)

end Sys2Proof.Claims
end

section
/-! The form of memory (O60): the rules from which every operation's lemma is built. An operation of the model that
changes no byte, or that writes through `Memory.set` or `Memory.setRange`, keeps memory in canonical form. -/

namespace Sys2Proof.Machine

theorem Quiet.memOk {s t : State} (h : Quiet s t) (hs : s.memOk) : t.memOk := h.2.2 hs

theorem memOk_setPart {s : State} {p : Nat} {x : Part} (hs : s.memOk) : (s.setPart p x).memOk := hs

theorem memOk_ite {c : Prop} [Decidable c] {s t : State} (hs : s.memOk)
    (ht : t.memOk) : (if c then s else t).memOk := by
  split
  · exact hs
  · exact ht

theorem memOk_foldl {α : Type} {f : State → α → State} {l : List α} {s : State}
    (hf : ∀ s x, s.memOk → (f s x).memOk) (hs : s.memOk) : (l.foldl f s).memOk :=
  List.foldlRecOn l f hs fun t ht x _ => hf t x ht

theorem memOk_foldl_fst {α β : Type} {f : State × β → α → State × β} {l : List α} {x : State × β}
    (hf : ∀ x a, x.1.memOk → (f x a).1.memOk) (hs : x.1.memOk) : (l.foldl f x).1.memOk :=
  List.foldlRecOn l f hs fun y hy a _ => hf y a hy

/-- A slot's operation keeps the form of memory: whatever it gives has memory in canonical form if its state has. -/
def KeepsForm (f : Fx) : Prop := ∀ ⦃c s t⦄, s.memOk → f c s = .ok t → t.memOk

theorem keepsForm_ok {g : Ctx → State → State} (hg : ∀ c s, s.memOk → (g c s).memOk) :
    KeepsForm fun c s => .ok (g c s) := by
  intro c s t hs h
  cases h
  exact hg c s hs

theorem exists_of_map_eq_ok {ε α β : Type} {f : α → β} {x : Except ε α} {b : β} (h : x.map f = .ok b) :
    ∃ a, x = .ok a ∧ f a = b := by
  cases x with
  | error e => cases h
  | ok a => cases h; exact ⟨a, rfl, rfl⟩

end Sys2Proof.Machine
end

section
/-! The form of memory: what a bundle's slots do. -/

namespace Sys2Proof.Machine

theorem memOk_settleDeep {s : State} (hs : s.memOk) : (settleDeep s).memOk := by
  unfold settleDeep
  refine memOk_foldl (fun _ _ hs => ?_) hs
  dsimp only
  exact memOk_foldl (fun _ _ h => (quiet_setMemTag ..).memOk h) hs

theorem memOk_setHc {s : State} {x : Nat} {x1 : HerdCtx} (hs : s.memOk) : (State.setHc s x x1).memOk :=
  hs

theorem memOk_modHc {s : State} {x : Nat} {f : HerdCtx → HerdCtx} (hs : s.memOk) : (State.modHc s x f).memOk := by
  unfold State.modHc
  split
  · exact memOk_setHc hs
  exact hs

theorem memOk_modNode {s : State} {p n : Nat} {f : Node → Node} (hs : s.memOk) : (State.modNode s p n f).memOk :=
  (quiet_modPart ..).memOk hs

theorem memOk_sendFull {s : State} {w : Who} {l : Loc} {full : Bool} {op : Nat} (hs : s.memOk) :
    (sendFull s w l full op).memOk :=
  memOk_ite hs ((quiet_locSetFull ..).memOk hs)

theorem memOk_modMember {s : State} {id m : Nat} {f : Member → Member}
    (hs : s.memOk) : (State.modMember s id m f).memOk :=
  memOk_modHc hs

theorem memOk_flushStrm {s : State} {id mi q : Nat} (hs : s.memOk) : (flushStrm s id mi q).memOk := by
  unfold flushStrm
  split
  · exact hs
  split
  · exact hs
  split
  · exact hs
  refine memOk_ite hs ?_
  split
  · exact memOk_modMember ((quiet_writeOut (hw := ‹_›) ..).memOk hs)
  exact hs

theorem memOk_flushMember {s : State} {id mi : Nat} (hs : s.memOk) : (flushMember s id mi).memOk :=
  memOk_foldl (fun _ _ h => memOk_flushStrm h) hs

theorem memOk_flushPushes {s : State} {id : Nat} (hs : s.memOk) : (flushPushes s id).memOk := by
  unfold flushPushes
  split
  · exact hs
  exact memOk_ite (memOk_foldl (fun _ _ h => memOk_flushMember h) hs) hs

theorem memOk_landAll {s : State} {id : Nat} (hs : s.memOk) : (landAll s id).memOk :=
  memOk_modHc (memOk_flushPushes hs)

theorem memOk_foldStop {α : Type} {f : State → α → Except Stop State} {l : List α} {s t : State}
    (hf : ∀ s x t, s.memOk → f s x = .ok t → t.memOk) (hs : s.memOk)
    (h : foldStop f l s = .ok t) : t.memOk := by
  induction l generalizing s with
  | nil => cases h; exact hs
  | cons x l ih =>
    unfold foldStop at h
    split at h
    · cases h
    exact ih (hf s x _ hs ‹_›) h

theorem memOk_addPending {s : State} {c : Ctx} {r : Res} {f : FFlags} {bound : Nat} {landed : Bool} (hs : s.memOk) :
    (addPending s c r f bound landed).memOk :=
  memOk_modMember hs

theorem memOk_addResult {s : State} {c : Ctx} {r : Res} {f : FFlags} {lat : BitVec 4} {least : Nat} (hs : s.memOk) :
    (addResult s c r f lat least).memOk :=
  memOk_addPending hs

theorem memOk_putS {s : State} {c : Ctx} {sd : BitVec 6} {v : Word} {t : Tag} {lat : BitVec 4} {least : Nat}
    (hs : s.memOk) :
    (putS s c sd v t lat least).memOk :=
  memOk_addResult hs

theorem keepsForm_sr2 {f : SRForm} {least : Nat} {op : Word → Word → Word} : KeepsForm (sr2 f least op) := by
  intro c s t hs h
  unfold sr2 at h
  cases h
  exact memOk_putS hs

theorem keepsForm_sri {f : SIForm} {op : Word → Word → Word} : KeepsForm (sri f op) := by
  intro c s t hs h
  unfold sri at h
  cases h
  exact memOk_putS hs

theorem keepsForm_srShift {f : SIForm} {op : Word → Nat → Word} : KeepsForm (srShift f op) := by
  intro c s t hs h
  unfold srShift at h
  cases h
  exact memOk_putS hs

theorem keepsForm_sr1 {f : S1Form} {op : Word → Word} : KeepsForm (sr1 f op) := by
  intro c s t hs h
  unfold sr1 at h
  cases h
  exact memOk_putS hs

theorem memOk_consumeTag {s : State} {id m : Nat} {t : Tag} (hs : s.memOk) : (consumeTag s id m t).memOk := by
  unfold consumeTag
  split
  · exact hs
  exact memOk_modMember hs

theorem memOk_putPair {s : State} {c : Ctx} {pt pf : BitVec 4} {b : Bool} {lat : BitVec 4} (hs : s.memOk) :
    (putPair s c pt pf b lat).memOk :=
  memOk_addResult (memOk_addResult hs)

theorem keepsForm_plog {f : PlogForm} {op : Bool → Bool → Bool} : KeepsForm (plog f op) := by
  intro c s t hs h
  unfold plog at h
  cases h
  exact memOk_putPair hs

theorem keepsForm_fxFebudgetWrite {f : MovrsForm} : KeepsForm (fxFebudgetWrite f) := by
  intro c s t hs h
  unfold fxFebudgetWrite at h
  split at h
  · cases h
    exact memOk_modHc (memOk_consumeTag hs)
  cases h
  exact hs

theorem memOk_trapNow {c : Ctx} {k : Cause} {t : State} (h : trapNow c k = .ok t) : t.memOk := by
  unfold trapNow at h
  cases h

theorem keepsForm_fxDefprofileWrite {f : MovrsForm} : KeepsForm (fxDefprofileWrite f) := by
  intro c s t hs h
  unfold fxDefprofileWrite at h
  split at h
  · dsimp only at h
    split at h
    · cases h
      exact memOk_modHc (memOk_consumeTag hs)
    exact memOk_trapNow h
  cases h
  exact hs

theorem keepsForm_fxArgWrite {f : MovrsForm} {n : BitVec 2} : KeepsForm (fxArgWrite f n) := by
  intro c s t hs h
  unfold fxArgWrite at h
  split at h
  · cases h
    exact memOk_consumeTag hs
  cases h
  exact memOk_modMember (memOk_consumeTag hs)

theorem keepsForm_fxQposWrite {f : MovrsForm} {n : BitVec 4} : KeepsForm (fxQposWrite f n) := by
  intro c s t hs h
  unfold fxQposWrite at h
  split at h
  · cases h
    exact memOk_consumeTag hs
  cases h
  exact memOk_addPending (memOk_consumeTag hs)

theorem keepsForm_sf2 {f : SRForm} {op : W32 → W32 → W32 × FFlags} : KeepsForm (sf2 f op) := by
  intro c s t hs h
  unfold sf2 at h
  cases h
  exact memOk_addResult hs

theorem memOk_strmMem {s t : State} {u : StrmUse} {addr : Word} {n : Nat} {i : BitVec 2} {fe : Bool} {y : Loc}
    (hs : s.memOk)
    (h : strmMem s u addr n i fe = .ok (t, y)) : t.memOk := by
  unfold strmMem at h
  split at h
  · cases h
  split at h
  · cases h
  split at h
  · cases h
  cases h
  exact (quiet_touchPage ..).memOk hs

theorem memOk_strmReach {s t : State} {u : StrmUse} {space fe : Bool} {x : Int} {n al d : Nat} {i : BitVec 2}
    {y : Loc} (hs : s.memOk)
    (h : strmReach s u space x n i fe al d = .ok (t, y)) : t.memOk := by
  unfold strmReach at h
  dsimp only at h
  split at h
  · cases h
  next r hreach =>
    split at h
    · cases h
    cases h
    split at hreach
    · cases hreach
    split at hreach
    · split at hreach
      · cases hreach
        exact hs
      cases hreach
    exact memOk_strmMem hs hreach

theorem memOk_indexTerm {s t : State} {u : StrmUse} {r : StrmRec} {i : Nat} {y : ℤ} (hs : s.memOk)
    (h : indexTerm s u r i = .ok (t, y)) : t.memOk := by
  unfold indexTerm at h
  split at h
  · cases h
  cases h
  exact (quiet_locArrive ..).memOk (memOk_strmReach hs ‹_›)

theorem memOk_elemAddr {s t : State} {u : StrmUse} {r : StrmRec} {e : Nat} {y : ℤ} (hs : s.memOk)
    (h : elemAddr s u r e = .ok (t, y)) : t.memOk := by
  unfold elemAddr at h
  split at h
  · split at h
    · split at h
      · dsimp only at h
        split at h
        · cases h
        cases h
        exact memOk_indexTerm hs ‹_›
      dsimp only at h
      split at h
      · cases h
      cases h
      exact memOk_indexTerm hs ‹_›
    cases h
    exact hs
  split at h
  · split at h
    · dsimp only at h
      split at h
      · cases h
      cases h
      exact memOk_indexTerm hs ‹_›
    dsimp only at h
    split at h
    · cases h
    cases h
    exact memOk_indexTerm hs ‹_›
  cases h
  exact hs

theorem memOk_blockEntry {s t : State} {u : StrmUse} {r : StrmRec} {cache : AMap Word} {b : Nat}
    {y : AMap Word × Word × Word} (hs : s.memOk)
    (h : blockEntry s u r cache b = .ok (t, y)) : t.memOk := by
  unfold blockEntry at h
  dsimp only at h
  split at h
  · cases h
    exact hs
  split at h
  · cases h
  cases h
  exact (quiet_locArrive ..).memOk (memOk_strmReach hs ‹_›)

theorem memOk_elemLoc {s t : State} {u : StrmUse} {r : StrmRec} {cache : AMap Word} {e : Nat} {y : AMap Word × Loc}
    (hs : s.memOk)
    (h : elemLoc s u r cache e = .ok (t, y)) : t.memOk := by
  unfold elemLoc at h
  split at h
  · cases h
  dsimp only at h
  split at h
  · split at h
    · cases h
    split at h
    · cases h
    split at h
    · cases h
    split at h
    · cases h
    split at h
    · cases h
    split at h
    · cases h
    cases h
    exact memOk_strmReach (memOk_blockEntry (memOk_elemAddr hs ‹_›) ‹_›) ‹_›
  split at h
  · cases h
  cases h
  exact memOk_strmReach (memOk_elemAddr hs ‹_›) ‹_›

theorem memOk_fetchElem {s t : State} {u : StrmUse} {q : Strm} {r : StrmRec} {e : Nat} {y : Strm × List Byte × Tag}
    (hs : s.memOk)
    (h : fetchElem s u q r e = .ok (t, y)) : t.memOk := by
  unfold fetchElem at h
  split at h
  · split at h
    · dsimp only at h
      split at h
      · cases h
        exact hs
      cases h
    split at h
    dsimp only at h
    split at h
    · cases h
      exact hs
    cases h
    exact (quiet_locArrive ..).memOk (memOk_elemLoc hs ‹_›)
  split at h
  · dsimp only at h
    split at h
    · cases h
      exact hs
    cases h
  split at h
  dsimp only at h
  split at h
  · cases h
    exact hs
  cases h
  exact (quiet_locArrive ..).memOk (memOk_elemLoc hs ‹_›)

theorem memOk_fetchElems {s t : State} {u : StrmUse} {q : Strm} {r : StrmRec} {e n : Nat}
    {y : Strm × List (List Byte × Tag)} (hs : s.memOk)
    (h : fetchElems s u q r e n = .ok (t, y)) : t.memOk := by
  induction n generalizing s q e y with
  | zero => cases h; exact hs
  | succ n ih =>
    unfold fetchElems at h
    split at h
    · cases h
    split at h
    · cases h
    cases h
    exact ih (memOk_fetchElem hs ‹_›) ‹_›

theorem memOk_popStream {s t : State} {c : Ctx} {qn : Nat} {y : List (List Byte × Tag) × StrmRec} (hs : s.memOk)
    (h : popStream s c qn = .ok (t, y)) : t.memOk := by
  unfold popStream at h
  dsimp only at h
  split at h
  · cases h
  · cases h
  split at h
  · cases h
  split at h
  · cases h
  split at h
  · split at h
    · cases h
    cases h
    exact memOk_modMember (memOk_fetchElems hs ‹_›)
  split at h
  · cases h
  split at h
  · cases h
  cases h
  exact memOk_modMember hs

theorem memOk_popAll {c : Ctx} {l : List Nat} {s t : State} {p y : List (Nat × Source)} (hs : s.memOk)
    (h : popAll c l s p = .ok (t, y)) : t.memOk := by
  induction l generalizing s p with
  | nil => cases h; exact hs
  | cons q l ih =>
    unfold popAll at h
    split at h
    · exact ih hs h
    split at h
    · cases h
    exact ih (memOk_popStream hs ‹_›) h

theorem memOk_vInputs {s t : State} {c : Ctx} {f : VForm} {y : VIn} (hs : s.memOk)
    (h : vInputs s c f = .ok (t, y)) : t.memOk := by
  unfold vInputs at h
  split at h
  · cases h
  cases h
  exact memOk_popAll hs ‹_›

theorem memOk_placeUnits {s t : State} {u : StrmUse} {r : StrmRec} {cache : AMap Word} {g : Tag}
    {l : List (Nat × List Byte × FFlags)} {y : AMap Word × List OutElem} (hs : s.memOk)
    (h : placeUnits s u r cache g l = .ok (t, y)) : t.memOk := by
  induction l generalizing s cache y with
  | nil => cases h; exact hs
  | cons x l ih =>
    unfold placeUnits at h
    split at h
    · cases h
    split at h
    · cases h
    cases h
    exact ih (memOk_elemLoc hs ‹_›) ‹_›

theorem memOk_pushStream {s u : State} {c : Ctx} {qn : Nat} {lanes : List W32} {t : Tag} (hs : s.memOk)
    (h : pushStream s c qn lanes t = .ok u) : u.memOk := by
  unfold pushStream at h
  dsimp only at h
  split at h
  · cases h
  · cases h
  split at h
  · cases h
  split at h
  · cases h
  cases h
  exact memOk_modMember (memOk_placeUnits hs ‹_›)

theorem memOk_vResult {s u : State} {c : Ctx} {f : VForm} {act : Mask} {lanes : List W32} {flags : FFlags} {t : Tag}
    {least : Nat} {full : Bool} (hs : s.memOk)
    (h : vResult s c f act lanes flags t least full = .ok u) : u.memOk := by
  unfold vResult at h
  split at h
  · split at h
    · dsimp only at h
      split at h
      · cases h
      cases h
      exact memOk_modMember (memOk_pushStream hs ‹_›)
    dsimp only at h
    split at h
    · cases h
    cases h
    exact memOk_modMember (memOk_pushStream hs ‹_›)
  cases h
  exact memOk_addResult hs

theorem keepsForm_vLanes {f : VForm} {least : Nat} {op : W32 → W32 → W32 → W32 × FFlags} {na : Nat} :
    KeepsForm (vLanes f least op na) := by
  intro c s t hs h
  unfold vLanes at h
  split at h
  · cases h
  split at h
  split at h
  · split at h
    · dsimp only at h
      exact memOk_vResult (memOk_vInputs hs ‹_›) h
    dsimp only at h
    exact memOk_vResult (memOk_vInputs hs ‹_›) h
  split at h
  · dsimp only at h
    exact memOk_vResult (memOk_vInputs hs ‹_›) h
  dsimp only at h
  exact memOk_vResult (memOk_vInputs hs ‹_›) h

theorem keepsForm_v2 {f : VForm} {least : Nat} {op : W32 → W32 → W32 × FFlags} :
    KeepsForm (v2 f least op) := keepsForm_vLanes

theorem keepsForm_v3 {f : VForm} {least : Nat} {op : W32 → W32 → W32 → W32 × FFlags} :
    KeepsForm (v3 f least op) := keepsForm_vLanes

theorem keepsForm_v1 {f : VForm} {least : Nat} {op : W32 → W32 × FFlags} : KeepsForm (v1 f least op) := keepsForm_vLanes

theorem keepsForm_vCompare {f : VForm} {least : Nat} {cond : W32 → W32 → Bool × FFlags} :
    KeepsForm (vCompare f least cond) := by
  intro c s t hs h
  unfold vCompare at h
  split at h
  · cases h
  cases h
  exact memOk_addResult (memOk_addResult (memOk_consumeTag (memOk_vInputs hs ‹_›)))

theorem keepsForm_vInt {f : VForm} {op : W32 → W32 → W32} : KeepsForm (vInt f op) := keepsForm_v2

theorem keepsForm_fxVsel {f : VForm} : KeepsForm (fxVsel f) := by
  intro c s t hs h
  unfold fxVsel at h
  split at h
  · cases h
  dsimp only at h
  exact memOk_vResult (memOk_vInputs hs ‹_›) h

theorem keepsForm_fxVbcst {f : VForm} : KeepsForm (fxVbcst f) := by
  intro c s t hs h
  unfold fxVbcst at h
  dsimp only at h
  exact memOk_vResult hs h

theorem keepsForm_fxVperm {f : VForm} : KeepsForm (fxVperm f) := by
  intro c s t hs h
  unfold fxVperm at h
  split at h
  · cases h
  split at h
  exact memOk_vResult (memOk_vInputs hs ‹_›) h

theorem keepsForm_fxVrot {f : VForm} : KeepsForm (fxVrot f) := by
  intro c s t hs h
  unfold fxVrot at h
  split at h
  · cases h
  split at h
  exact memOk_vResult (memOk_vInputs hs ‹_›) h

theorem keepsForm_fxVext {f : VForm} : KeepsForm (fxVext f) := by
  intro c s t hs h
  unfold fxVext at h
  split at h
  · cases h
  cases h
  exact memOk_addResult (memOk_vInputs hs ‹_›)

theorem keepsForm_fxVins {f : VForm} : KeepsForm (fxVins f) := by
  intro c s t hs h
  unfold fxVins at h
  split at h
  · dsimp only at h
    exact memOk_vResult hs h
  cases h
  exact memOk_addResult hs

theorem keepsForm_vReduce {f : VForm} {op : Mask → List W32 → W32 × FFlags} : KeepsForm (vReduce f op) := by
  intro c s t hs h
  unfold vReduce at h
  split at h
  · cases h
  split at h
  exact memOk_vResult (memOk_vInputs hs ‹_›) h

theorem keepsForm_vKlog {f : VForm} {op : Mask → Mask → Mask} : KeepsForm (vKlog f op) := by
  intro c s t hs h
  unfold vKlog at h
  cases h
  exact memOk_addResult hs

theorem keepsForm_fxKfromv {f : VForm} : KeepsForm (fxKfromv f) := by
  intro c s t hs h
  unfold fxKfromv at h
  split at h
  · cases h
  cases h
  exact memOk_addResult (memOk_consumeTag (memOk_vInputs hs ‹_›))

theorem keepsForm_fxTrans {f : TransForm} : KeepsForm (fxTrans f) := by
  intro c s t hs h
  unfold fxTrans at h
  cases h
  refine memOk_addPending ?_
  split
  · dsimp only
    exact (quiet_touchPage ..).memOk hs
  split
  · dsimp only
    exact (quiet_noteStage2 ..).memOk hs
  exact hs

theorem memOk_consumeSo {s : State} {c : Ctx} {so : BitVec 6} (hs : s.memOk) : (consumeSo s c so).memOk :=
  memOk_consumeTag hs

theorem memOk_putLoad {s : State} {c : Ctx} {r : Res} {lat : BitVec 4} (hs : s.memOk) : (putLoad s c r lat).memOk :=
  memOk_addPending hs

theorem keepsForm_loadForm {f : SMemForm} {n op : Nat} {ext : Nat → Word} : KeepsForm (loadForm f n op ext) := by
  intro c s t hs h
  unfold loadForm at h
  split at h
  · cases h
  cases h
  exact memOk_putLoad ((quiet_arrive ..).memOk (memOk_consumeSo hs))

theorem memOk_storeBytes {s u : State} {c : Ctx} {pa : Nat} {l : List Byte} {t : Tag} (hs : s.memOk)
    (h : storeBytes s c pa l t = .ok u) : u.memOk := by
  unfold storeBytes at h
  split at h
  · cases h
    exact memOk_ite (memOk_consumeTag ((quiet_writeBytes (h := ‹_›) ..).memOk hs))
      ((quiet_writeBytes (h := ‹_›) ..).memOk hs)
  cases h

theorem keepsForm_storeForm {f : SMemForm} {n op : Nat} : KeepsForm (storeForm f n op) := by
  intro c s t hs h
  unfold storeForm at h
  split at h
  · cases h
  dsimp only at h
  exact memOk_storeBytes (memOk_consumeSo hs) h

theorem memOk_feCommit {s t : State} {c : Ctx} {l : Loc} {k : FeKind} {sd : BitVec 6} {lat : BitVec 4}
    {least : Nat} (hs : s.memOk)
    (h : feCommit s c l k sd lat least = .ok t) : t.memOk := by
  unfold feCommit at h
  split at h
  · cases h
  split at h
  · cases h
    split
    · exact memOk_ite (memOk_consumeTag (memOk_modMember hs)) (memOk_modMember hs)
    exact memOk_modMember hs
  cases h
  exact memOk_addResult (memOk_modMember hs)

theorem keepsForm_feForm {f : SMemForm} {k : FeKind} {op : Nat} : KeepsForm (feForm f k op) := by
  intro c s t hs h
  unfold feForm at h
  split at h
  · cases h
  exact memOk_feCommit (memOk_consumeSo hs) h

theorem keepsForm_fxFeset {f : SMemForm} : KeepsForm (fxFeset f) := by
  intro c s t hs h
  unfold fxFeset at h
  split at h
  · cases h
  dsimp only at h
  split at h
  · cases h
    exact (quiet_loseImm ..).memOk (memOk_consumeSo hs)
  cases h
  exact (quiet_locSetFull ..).memOk ((quiet_beginImm ..).memOk (memOk_consumeSo hs))

theorem keepsForm_fxFeget {f : SMemForm} : KeepsForm (fxFeget f) := by
  intro c s t hs h
  unfold fxFeget at h
  split at h
  · cases h
  dsimp only at h
  split at h
  · cases h
    exact memOk_putLoad ((quiet_locArrive ..).memOk ((quiet_beginImm ..).memOk (memOk_consumeSo hs)))
  cases h
  exact memOk_putLoad ((quiet_beginImm ..).memOk (memOk_consumeSo hs))

theorem memOk_readLanes {s : State} {w : Who} {u : Nat} {l : List (Option Nat)} (hs : s.memOk) :
    (readLanes s w u l).1.memOk := by
  induction l generalizing s with
  | nil => exact hs
  | cons x l ih =>
    cases x with
    | none => exact ih hs
    | some a => exact ih ((quiet_arrive ..).memOk hs)

theorem keepsForm_vloadForm {f : VMemForm} {u op : Nat} {ext : Nat → W32} : KeepsForm (vloadForm f u op ext) := by
  intro c s t hs h
  unfold vloadForm at h
  dsimp only at h
  split at h
  · cases h
  cases h
  exact memOk_putLoad (memOk_readLanes (memOk_consumeSo hs))

theorem keepsForm_vstoreForm {f : VMemForm} {u op : Nat} {elem : W32 → Nat} : KeepsForm (vstoreForm f u op elem) := by
  intro c s t hs h
  unfold vstoreForm at h
  dsimp only at h
  split at h
  · cases h
  refine memOk_foldStop (fun s i t hs h => ?_) (memOk_consumeSo hs) h
  split at h
  · exact memOk_storeBytes hs h
  cases h
  exact hs

theorem keepsForm_spLoad {f : SpsForm} {form : SpForm} {n op : Nat} : KeepsForm (spLoad f form n op) := by
  intro c s t hs h
  unfold spLoad at h
  dsimp only at h
  split at h
  · cases h
  cases h
  exact memOk_putS hs

theorem memOk_spoilLane {s : State} {core w seed : Nat} (hs : s.memOk) : (spoilLane s core w seed).memOk :=
  hs

theorem memOk_wire {s : State} {core : Nat} (hs : s.memOk) : (wire s core).memOk := by
  unfold wire
  dsimp only
  exact hs

theorem memOk_wireAll {s : State} {l : List Nat} (hs : s.memOk) : (wireAll s l).memOk :=
  memOk_foldl (fun _ _ h => memOk_ite h (memOk_wire h)) hs

theorem memOk_repairStore {s : State} {core e : Nat} {v : BitVec 64}
    (hs : s.memOk) : (repairStore s core e v).memOk := by
  unfold repairStore
  dsimp only
  exact memOk_wireAll (memOk_ite (memOk_spoilLane (memOk_ite (memOk_spoilLane ((quiet_setCore ..).memOk hs))
    ((quiet_setCore ..).memOk hs))) (memOk_ite (memOk_spoilLane ((quiet_setCore ..).memOk hs))
    ((quiet_setCore ..).memOk hs)))

theorem keepsForm_spStore {f : SpsForm} {form : SpForm} {n op : Nat} : KeepsForm (spStore f form n op) := by
  intro c s t hs h
  unfold spStore at h
  dsimp only at h
  split at h
  · cases h
  split at h
  · cases h
    exact memOk_repairStore hs
  split at h
  · cases h
    exact (quiet_placeWrite (h := ‹_›) ..).memOk hs
  cases h

theorem memOk_spvLoad {s t : State} {c : Ctx} {form : SpForm} {vd : BitVec 10} {act : Mask} {addr : Nat → Nat}
    {lat : BitVec 4} {op : Nat} (hs : s.memOk)
    (h : spvLoad s c form vd act addr lat op = .ok t) : t.memOk := by
  unfold spvLoad at h
  split at h
  · cases h
  cases h
  exact memOk_addResult hs

theorem memOk_wholePairs {s : State} {ps : List SpPlace} {t : Tag} (hs : s.memOk) : (wholePairs s ps t).memOk := by
  unfold wholePairs
  refine memOk_foldl (fun _ _ hs => ?_) hs
  split
  · exact memOk_ite ((quiet_setCore ..).memOk hs) hs
  exact hs

theorem memOk_spvStore {s t : State} {c : Ctx} {form : SpForm} {vd : BitVec 10} {act : Mask} {addr : Nat → Nat}
    {op : Nat} (hs : s.memOk)
    (h : spvStore s c form vd act addr op = .ok t) : t.memOk := by
  unfold spvStore at h
  split at h
  · cases h
  obtain ⟨u, hu, rfl⟩ := exists_of_map_eq_ok h
  refine memOk_wholePairs (memOk_foldStop (fun s x t hs h => ?_) hs hu)
  dsimp only at h
  split at h
  · cases h
    exact (quiet_placeWrite (h := ‹_›) ..).memOk hs
  cases h

theorem keepsForm_fxLpld {f : GatherForm} : KeepsForm (fxLpld f) := by
  intro c s t hs h
  unfold fxLpld at h
  dsimp only at h
  split at h
  · cases h
  cases h
  exact memOk_addResult hs

theorem keepsForm_fxLpst {f : GatherForm} : KeepsForm (fxLpst f) := by
  intro c s t hs h
  unfold fxLpst at h
  dsimp only at h
  split at h
  · cases h
  cases h
  exact (quiet_setCore ..).memOk hs

theorem keepsForm_feSpForm {f : SpsForm} {k : FeKind} {op : Nat} : KeepsForm (feSpForm f k op) := by
  intro c s t hs h
  unfold feSpForm at h
  split at h
  · cases h
  exact memOk_feCommit hs h

theorem keepsForm_atomic {f : AtomForm} {op : Nat} {new : Word → Word → Word → Option Word} :
    KeepsForm (atomic f op new) := by
  intro c s t hs h
  unfold atomic at h
  split at h
  · cases h
  cases h
  refine memOk_putLoad (memOk_ite ((quiet_loseImm ..).memOk
    ((quiet_arrive ..).memOk ((quiet_beginImm ..).memOk (memOk_consumeSo hs)))) ?_)
  split
  · split
    · dsimp only
      exact memOk_consumeTag ((quiet_writeImm ..).memOk
        ((quiet_arrive ..).memOk ((quiet_beginImm ..).memOk (memOk_consumeSo hs))))
    dsimp only
    exact (quiet_writeImm ..).memOk ((quiet_arrive ..).memOk ((quiet_beginImm ..).memOk (memOk_consumeSo hs)))
  exact (quiet_arrive ..).memOk ((quiet_beginImm ..).memOk (memOk_consumeSo hs))

theorem keepsForm_fxCadd {f : CaddForm} : KeepsForm (fxCadd f) := by
  intro c s t hs h
  unfold fxCadd at h
  split at h
  · cases h
  cases h
  exact (quiet_counterAdd ..).memOk (memOk_consumeTag (memOk_consumeSo hs))

theorem keepsForm_fxCwait {f : AtomForm} : KeepsForm (fxCwait f) := by
  intro c s t hs h
  unfold fxCwait at h
  split at h
  · cases h
  split at h
  · cases h
    exact memOk_consumeTag ((quiet_arrive ..).memOk (memOk_consumeSo hs))
  dsimp only at h
  split at h
  · cases h
    exact memOk_consumeSo hs
  cases h

theorem keepsForm_fxCrd {f : AtomForm} : KeepsForm (fxCrd f) := by
  intro c s t hs h
  unfold fxCrd at h
  split at h
  · cases h
  cases h
  exact memOk_putLoad ((quiet_arrive ..).memOk (memOk_consumeSo hs))

theorem keepsForm_fxSetq {f : SetqForm} : KeepsForm (fxSetq f) := by
  intro c s t hs h
  unfold fxSetq at h
  dsimp only at h
  split at h
  · cases h
  · split at h
    · cases h
    cases h
    exact memOk_modMember hs
  cases h

theorem memOk_slotFx {i : Instr} : KeepsForm (slotFx i) := by
  cases i
  all_goals delta slotFx
  case add | sub | and | or | xor | shl | shr | sra | min | max | minu | maxu | rotl | mul | mulhs | mulhu | divs |
      divu | rems | remu =>
    exact keepsForm_sr2
  case addi | andi | ori | xori => exact keepsForm_sri
  case shli | shri | srai => exact keepsForm_srShift
  case movi | movhi | sel | movp | movsr | chke | hrd => exact keepsForm_ok fun _ _ hs => memOk_putS hs
  case clz | ctz | popc | sextb | sexth | sextw | zextb | zexth | zextw => exact keepsForm_sr1
  case cmp | cmpi | movps => exact keepsForm_ok fun _ _ hs => memOk_putPair (memOk_consumeTag hs)
  case pand | por | pxor | pandn => exact keepsForm_plog
  case movrs => exact keepsForm_ok fun _ _ hs => memOk_consumeTag hs
  case fpstatWrite | cirWrite => exact keepsForm_ok fun _ _ hs => memOk_modMember (memOk_consumeTag hs)
  case febudgetWrite => exact keepsForm_fxFebudgetWrite
  case defprofileWrite => exact keepsForm_fxDefprofileWrite
  case argWrite => exact keepsForm_fxArgWrite
  case qposWrite => exact keepsForm_fxQposWrite
  case sfadd | sfsub | sfmul | sfmin | sfmax => exact keepsForm_sf2
  case sfcvtif | sfcvtfi | kpopc => exact keepsForm_ok fun _ _ hs => memOk_addResult hs
  case fadd | fsub | fmul | fmin | fmax | bfpk => exact keepsForm_v2
  case ffma | ffms | fnma => exact keepsForm_v3
  case fabs | fneg | icvtf | bfup | vmov => exact keepsForm_v1
  case fcmp | icmp => exact keepsForm_vCompare
  case fcvti => exact fun _ _ _ hs h => keepsForm_v1 hs h
  case iadd | isub | imul | imulh | iand | ior | ixor | ishl | ishr | isra | imin | imax | iminu | imaxu =>
    exact keepsForm_vInt
  case vsel => exact keepsForm_fxVsel
  case vbcst => exact keepsForm_fxVbcst
  case vperm => exact keepsForm_fxVperm
  case vrot => exact keepsForm_fxVrot
  case viota => exact fun _ _ _ hs h => memOk_vResult hs h
  case vext => exact keepsForm_fxVext
  case vins => exact keepsForm_fxVins
  case frsum | irsum | irmax | irmin => exact keepsForm_vReduce
  case frmax | frmin => exact fun _ _ _ hs h => keepsForm_vReduce hs h
  case kand | kor | kxor | kandn => exact keepsForm_vKlog
  case kfromv => exact keepsForm_fxKfromv
  case trans => exact keepsForm_fxTrans
  case hinv => exact keepsForm_ok fun _ _ hs => memOk_addPending hs
  case ldB | ldH | ldW | ldD | ldSb | ldSh | ldSw => exact keepsForm_loadForm
  case stB | stH | stW | stD => exact keepsForm_storeForm
  case ldwaitD | ldtakeD | stfillD => exact keepsForm_feForm
  case feset => exact keepsForm_fxFeset
  case feget => exact keepsForm_fxFeget
  case vldW | vldH => exact keepsForm_vloadForm
  case vstW | vstH => exact keepsForm_vstoreForm
  case spldW | spldD => exact keepsForm_spLoad
  case spstW | spstD => exact keepsForm_spStore
  case vspld | vspg => exact fun _ _ _ hs h => memOk_spvLoad hs h
  case vspst | vsps => exact fun _ _ _ hs h => memOk_spvStore hs h
  case lpld => exact keepsForm_fxLpld
  case lpst => exact keepsForm_fxLpst
  case sptakeD | spfillD => exact keepsForm_feSpForm
  case aadd | amin | amax | aminu | amaxu | aand | aor | axor | aswp | acas => exact keepsForm_atomic
  case cadd => exact keepsForm_fxCadd
  case cwait => exact keepsForm_fxCwait
  case crd => exact keepsForm_fxCrd
  case setq => exact keepsForm_fxSetq
  all_goals exact keepsForm_ok fun _ _ hs => hs

theorem memOk_runSlot {s t : State} {x : Ctx × Instr} (hs : s.memOk) (h : runSlot s x = .ok t) : t.memOk := by
  unfold runSlot at h
  split at h
  · exact memOk_slotFx hs h
  cases h
  exact hs

theorem memOk_runSlotIn {now : Bool} {s t : State} {x : Ctx × Instr} (hs : s.memOk)
    (h : runSlotIn now s x = .ok t) : t.memOk := by
  unfold runSlotIn at h
  split at h
  · cases h
  dsimp only at h
  split at h
  · split at h
    · cases h
    rw [← Except.ok.inj h]
    exact memOk_flushMember (memOk_runSlot hs ‹_›)
  cases h
  exact memOk_runSlot hs ‹_›

end Sys2Proof.Machine
end

section
/-! The form of memory: traps, the copy and reduction checks, the matrix and function queues. -/

namespace Sys2Proof.Machine

theorem memOk_settle {s : State} {id : Nat} (hs : s.memOk) : (settle s id).memOk :=
  memOk_modHc hs

theorem memOk_touchOverlay {s : State} {g : HerdCtx} (hs : s.memOk) : (touchOverlay s g).memOk := by
  unfold touchOverlay
  split
  · exact hs
  split
  · exact hs
  dsimp only
  exact memOk_ite ((quiet_setCore ..).memOk hs) hs

theorem memOk_commitBase {s : State} {id : Nat} {g : HerdCtx} {b : Bundle} {o : CtlOut} (hs : s.memOk) :
    (commitBase s id g b o).1.memOk := by
  unfold commitBase
  split
  split
  · dsimp only
    exact memOk_modHc (memOk_consumeTag (memOk_touchOverlay hs))
  dsimp only
  exact memOk_modHc (memOk_consumeTag (memOk_touchOverlay hs))

theorem memOk_takeTrap {s : State} {id : Nat} {t : Trap} {faultmap : Nat} (hs : s.memOk) :
    (takeTrap s id t faultmap).memOk := by
  unfold takeTrap
  split
  · exact hs
  dsimp only
  exact (quiet_modDie ..).memOk (memOk_setHc hs)

theorem memOk_doPost {s : State} {id : Nat} {p : Post} (hs : s.memOk) : (doPost s id p).memOk :=
  memOk_modHc hs

theorem memOk_spoilReturn {s : State} {id : Nat} {f : Frame} (hs : s.memOk) : (spoilReturn s id f).memOk :=
  memOk_modHc hs

theorem memOk_returnFrom {s : State} {id : Nat} {l : Link} (hs : s.memOk) : (returnFrom s id l).memOk := by
  unfold returnFrom
  split
  · exact hs
  split
  · exact memOk_doPost hs
  split
  · dsimp only
    exact memOk_modHc (memOk_spoilReturn (memOk_settle (memOk_setHc hs)))
  dsimp only
  exact memOk_doPost (memOk_spoilReturn (memOk_settle (memOk_setHc hs)))

theorem memOk_resumeHc {s : State} {id : Nat} (hs : s.memOk) : (resumeHc s id).memOk :=
  memOk_modHc hs

theorem memOk_walkFrom {u : StrmUse} {rc : StrmRec} {st : Nat} {words : Bool} {n e : Nat} {s t : State}
    {cache : AMap Word} {y : AMap Word × List Loc} (hs : s.memOk)
    (h : walkFrom u rc st words n e s cache = .ok (t, y)) : t.memOk := by
  induction n generalizing e s cache y with
  | zero => cases h; exact hs
  | succ n ih =>
    unfold walkFrom at h
    split at h
    · cases h
    next hp =>
      split at h
      · cases h
      · obtain ⟨⟨u, _, _⟩, hw, hr⟩ := exists_of_map_eq_ok h
        cases hr
        exact ih (memOk_elemLoc hs hp) hw

theorem memOk_walkPlaces {s t : State} {u : StrmUse} {rc : StrmRec} {cache : AMap Word} {words : Bool}
    {y : List Loc × List Nat} (hs : s.memOk) (h : walkPlaces s u rc cache words = .ok (t, y)) : t.memOk := by
  obtain ⟨⟨_, _, _⟩, hw, hr⟩ := exists_of_map_eq_ok h
  cases hr
  exact memOk_walkFrom hs hw

theorem memOk_copyMoves {r : RCall} {c : Ctx} {s t : State} {x y : Nat × Strm × StrmRec} {mode : Nat}
    {z : List Move × List Nat} (hs : s.memOk)
    (h : copyMoves r c s x y mode = .ok (t, z)) : t.memOk := by
  unfold copyMoves at h
  split at h
  · dsimp only at h
    split at h
    · cases h
    split at h
    · cases h
    cases h
    exact memOk_walkPlaces (memOk_walkPlaces hs ‹_›) ‹_›
  dsimp only at h
  split at h
  · cases h
  split at h
  · cases h
  cases h
  exact memOk_walkPlaces (memOk_walkPlaces hs ‹_›) ‹_›

theorem memOk_cpyCheck {r : RCall} {c : Ctx} {s t : State} {y : List Move × List Nat × Option (Nat × Word)}
    (hs : s.memOk) (h : cpyCheck r c s = .ok (t, y)) : t.memOk := by
  unfold cpyCheck at h
  split at h
  · cases h
  · cases h
  · cases h
  · split at h
    · cases h
    · split at h
      · cases h
      · obtain ⟨⟨_, _, _⟩, hm, hr⟩ := exists_of_map_eq_ok h
        cases hr
        exact memOk_copyMoves hs hm

theorem memOk_redCheck {r : RCall} {c : Ctx} {s t : State}
    {y : List Move × List Nat × Bool × Nat × Nat × Option (Nat × Word)} (hs : s.memOk)
    (h : redCheck r c s = .ok (t, y)) : t.memOk := by
  simp only [redCheck] at h
  split at h
  · cases h
  split at h
  · cases h
  split at h
  · obtain ⟨_, _, hr⟩ := exists_of_map_eq_ok h
    cases hr
    exact hs
  split at h
  · cases h
  · cases h
  split at h
  · cases h
  split at h
  · cases h
  split at h
  · cases h
  split at h
  · cases h
  next hx =>
    split at h
    · cases h
    next hy =>
      split at h
      · cases h
      · obtain ⟨_, _, hr⟩ := exists_of_map_eq_ok h
        cases hr
        exact memOk_walkPlaces (memOk_walkPlaces hs hx) hy

theorem memOk_reachFrom {s t : State} {part : Nat} {sys : Bool} {va : Nat} {i : BitVec 2} {k g : Nat} {y : List Nat}
    (hs : s.memOk) (h : reachFrom s part sys va i k g = .ok (t, y)) : t.memOk := by
  induction k generalizing t y with
  | zero => cases h; exact hs
  | succ k ih =>
    unfold reachFrom at h
    split at h
    · cases h
    next hk =>
      dsimp only at h
      split at h
      · cases h
      next hr =>
        cases h
        exact (quiet_reach (h := hr) ..).memOk (ih hk)

theorem memOk_reachRange {s t : State} {part : Nat} {sys : Bool} {va n : Nat} {i : BitVec 2} {y : List Nat}
    (hs : s.memOk)
    (h : reachRange s part sys va n i = .ok (t, y)) : t.memOk :=
  memOk_reachFrom hs h

theorem memOk_cbregReach {r : RCall} {c : Ctx} {s t : State} {l : List Byte} {y : List Nat × List Nat × Nat}
    (hs : s.memOk) (h : cbregReach r c s l = .ok (t, y)) : t.memOk := by
  rw [cbregReach] at h
  split at h
  · cases h
  next hd =>
    replace hd := memOk_reachRange hs hd
    extract_lets fb at h
    have hfb : ∀ {u b}, fb = .ok (u, b) → u.memOk := by
      intro u b hb
      unfold fb at hb
      split at hb
      · exact memOk_reachRange hd hb
      · cases hb
        exact hd
    clear_value fb
    split at h
    · cases h
    next u _ =>
      replace hfb := hfb rfl
      split at h
      · cases h
      next hx =>
        iterate 4
          split at h
          · cases h
        cases h
        exact (quiet_reach (h := hx) ..).memOk hfb

theorem memOk_cbregCheck {r : RCall} {c : Ctx} {s t : State} {y : List Byte × List Nat × List Nat × Nat}
    (hs : s.memOk) (h : cbregCheck r c s = .ok (t, y)) : t.memOk := by
  simp only [cbregCheck] at h
  split at h
  · cases h
  split at h
  · cases h
  iterate 3
    split at h
    · cases h
  obtain ⟨⟨_, _, _, _⟩, hr, ht⟩ := exists_of_map_eq_ok h
  cases ht
  exact memOk_cbregReach hs hr

theorem memOk_popRun {u : StrmUse} {rc : StrmRec} {n k : Nat} {x : PopRun} (hs : x.s.memOk) :
    (popRun u rc n k x).s.memOk := by
  induction n generalizing k x with
  | zero => exact hs
  | succ n ih =>
    unfold popRun
    split
    · exact hs
    · dsimp only
      split
      · exact hs
      next hf => exact ih (memOk_fetchElems hs hf)

theorem memOk_landFlags {s : State} {hc mi : Nat} {f : FFlags} (hs : s.memOk) : (landFlags s hc mi f).memOk :=
  memOk_modMember hs

theorem memOk_consumeCir {s : State} {hc mi : Nat} {t : Tag} (hs : s.memOk) : (consumeCir s hc mi t).memOk :=
  memOk_modMember hs

theorem memOk_setCir {s : State} {hc mi : Nat} {b : Word} (hs : s.memOk) : (setCir s hc mi b).memOk :=
  memOk_modMember hs

theorem memOk_matDo {s t : State} {core : Nat} {x : MatCmd} (hs : s.memOk) (h : matDo s core x = some t) : t.memOk := by
  unfold matDo at h
  split at h
  case h_1 => cases h; exact memOk_landFlags ((quiet_setCore ..).memOk hs)
  case h_2 =>
    dsimp only at h
    split at h
    · cases h; exact hs
    · obtain ⟨u, hw, ht⟩ := Option.map_eq_some_iff.mp h
      rw [← ht]
      exact memOk_landFlags (memOk_consumeCir ((quiet_writeOut (hw := hw)).memOk hs))
  case h_3 => cases h; exact (quiet_setCore ..).memOk hs
  case h_4 =>
    cases h
    exact memOk_ite (memOk_setCir ((quiet_setCore ..).memOk hs)) ((quiet_setCore ..).memOk hs)
  case h_5 => cases h; exact (quiet_setCore ..).memOk hs
  case h_6 => cases h; exact memOk_modHc hs

theorem memOk_matPerform {s : State} {core : Nat} {load : Bool} (hs : s.memOk) : (matPerform s core load).memOk := by
  unfold matPerform
  split
  · dsimp only
    split
    · exact hs
    split
    · exact (quiet_setCore ..).memOk (memOk_matDo hs ‹_›)
    split
    · exact (quiet_modInst ..).memOk hs
    exact hs
  dsimp only
  split
  · exact hs
  split
  · exact (quiet_setCore ..).memOk (memOk_matDo hs ‹_›)
  split
  · exact (quiet_modInst ..).memOk hs
  exact hs

theorem memOk_drainLoads {s : State} {core : Nat} (hs : s.memOk) : (drainLoads s core).memOk :=
  memOk_foldl (fun _ _ h => memOk_matPerform h) hs

theorem memOk_enqMat {s : State} {c : Ctx} {load : Bool} {op : MatOp} (hs : s.memOk) : (enqMat s c load op).memOk := by
  unfold enqMat
  split
  · dsimp only
    exact (quiet_setCore ..).memOk hs
  dsimp only
  exact (quiet_setCore ..).memOk hs

theorem memOk_pushPlaces {u : StrmUse} {rc : StrmRec} {st n e i : Nat} {s t : State} {cache : AMap Word}
    {l : List (Loc × Nat)} {y : AMap Word × List (Loc × Nat)} (hs : s.memOk)
    (h : pushPlaces u rc st n e i s cache l = .ok (t, y)) : t.memOk := by
  induction n generalizing e i s cache l with
  | zero => cases h; exact hs
  | succ n ih =>
    unfold pushPlaces at h
    split at h
    · cases h
    next hp => exact ih (memOk_elemLoc hs hp) h

theorem memOk_pushRun {u : StrmUse} {rc : StrmRec} {n k : Nat} {x : PushRun} (hs : x.s.memOk) :
    (pushRun u rc n k x).s.memOk := by
  induction n generalizing k x with
  | zero => exact hs
  | succ n ih =>
    unfold pushRun
    split
    · exact hs
    · dsimp only
      split
      · exact hs
      next hp => exact ih (memOk_pushPlaces hs hp)

theorem memOk_enqFn {s : State} {c : Ctx} {x : FnCmd} (hs : s.memOk) : (enqFn s c x).memOk := by
  unfold enqFn
  dsimp only
  exact (quiet_setCore ..).memOk hs

theorem memOk_fillWindow {s : State} {id mi i : Nat} {l : List W32} {t : Tag} (hs : s.memOk) :
    (fillWindow s id mi i l t).memOk :=
  memOk_modHc hs

theorem memOk_tlscArrive {s : State} {c : Ctx} {r : RCall} {k : Nat} (hs : s.memOk) : (tlscArrive s c r k).memOk :=
  (quiet_arrive ..).memOk hs

theorem memOk_tlscFill {r : RCall} {c : Ctx} {j : Nat} {s : State} (hs : s.memOk) : (tlscFill r c j s).memOk := by
  unfold tlscFill
  split
  · split
    · split
      · dsimp only
        exact memOk_fillWindow (memOk_modHc (memOk_tlscArrive
          (memOk_fillWindow (memOk_modHc (memOk_tlscArrive
          (memOk_fillWindow (memOk_modHc (memOk_modHc (memOk_tlscArrive hs)))))))))
      dsimp only
      exact memOk_fillWindow (memOk_modHc (memOk_tlscArrive
        (memOk_fillWindow (memOk_modHc (memOk_modHc (memOk_tlscArrive hs))))))
    split
    · dsimp only
      exact memOk_fillWindow (memOk_modHc (memOk_tlscArrive
        (memOk_fillWindow (memOk_modHc (memOk_modHc (memOk_tlscArrive hs))))))
    dsimp only
    exact memOk_fillWindow (memOk_modHc (memOk_modHc (memOk_tlscArrive hs)))
  split
  · split
    · dsimp only
      exact memOk_fillWindow (memOk_modHc (memOk_tlscArrive (memOk_fillWindow (memOk_modHc (memOk_tlscArrive hs)))))
    dsimp only
    exact memOk_fillWindow (memOk_modHc (memOk_tlscArrive hs))
  split
  · dsimp only
    exact memOk_fillWindow (memOk_modHc (memOk_tlscArrive hs))
  exact hs

end Sys2Proof.Machine
end

section
/-! The form of memory: what the native routines plan, and the commit of a bundle. -/

namespace Sys2Proof.Machine

/-- A plan keeps the form of memory: so do its work up to each of its points and its end. -/
def NatPlan.KeepsForm (p : NatPlan) : Prop :=
  (∀ ⦃s⦄, s.memOk → (p.finish s).memOk) ∧ ∀ ⦃k s⦄, s.memOk → (p.fill k s).memOk

theorem NatPlan.KeepsForm.simple {fault : Option Trap} {f : State → State} (hf : ∀ ⦃s⦄, s.memOk → (f s).memOk) :
    (NatPlan.simple fault f).KeepsForm :=
  ⟨hf, fun _ _ hs => hs⟩

theorem NatPlan.KeepsForm.fail {t : Trap} : (NatPlan.fail t).KeepsForm := .simple fun _ hs => hs

theorem NatPlan.KeepsForm.looped {r : RCall} {k n : Nat} {fault : Option (Nat × Trap)} {fill : Nat → State → State}
    {finish : State → State} (hfill : ∀ ⦃k s⦄, s.memOk → (fill k s).memOk)
      (hfin : ∀ ⦃s⦄, s.memOk → (finish s).memOk) :
    (NatPlan.looped r k n fault fill finish).KeepsForm :=
  ⟨hfin, fun _ _ hs => memOk_ite hs (hfill hs)⟩

/-- A plan of one point whose check gives what its end does. -/
theorem NatPlan.KeepsForm.planOf {x : Except Trap (State → State)}
    (hx : ∀ f, x = .ok f → ∀ ⦃s⦄, s.memOk → (f s).memOk) : (planOf x).KeepsForm := by
  cases x with
  | error t => exact .fail
  | ok f => exact .simple (hx f rfl)

theorem NatPlan.KeepsForm.planOf_map {α : Type} {x : Except Trap α} {f : α → State → State}
    (hf : ∀ a ⦃s⦄, s.memOk → (f a s).memOk) : (Machine.planOf (x.map f)).KeepsForm :=
  .planOf fun _ h => by
    obtain ⟨a, -, rfl⟩ := exists_of_map_eq_ok h
    exact hf a

theorem keepsForm_loadPlan {r : RCall} {c : Ctx} {s : State} {qn : Nat} {q : Strm} {rc : StrmRec} {role : BitVec 2}
    {w k : Nat} {quant : Bool} : (loadPlan r c s qn q rc role w k quant).KeepsForm := by
  unfold loadPlan
  extract_lets core o
  split
  · exact .fail
  split
  · exact .fail
  split
  · exact .fail
  split
  · exact .fail
  · exact .looped
      (fun _ _ hs => memOk_landFlags (memOk_modMember ((quiet_setCore ..).memOk
        (memOk_popRun (memOk_drainLoads hs)))))
      fun _ hs => memOk_enqMat (memOk_modMember (memOk_popRun hs))

theorem keepsForm_oldPlan {role : BitVec 2} {r : RCall} {c : Ctx} {s : State} : (oldPlan role r c s).KeepsForm := by
  unfold oldPlan
  split
  · exact .fail
  split
  · exact .fail
  · exact keepsForm_loadPlan

theorem keepsForm_fnPlan {r : RCall} {c : Ctx} {mask : Mask} {lanes : List W32} {tag : Tag} {flags : FFlags} :
    (fnPlan r c mask lanes tag flags).KeepsForm :=
  .simple fun _ hs => memOk_enqFn hs



theorem memOk_enqCopy {s : State} {eng : Nat} {hc : Option Nat} {mi part node : Nat} {rel : Bool} {op : CopyOp}
    {scores : List (Nat × Nat × Nat × Bool)} {ents : List Nat} (hs : s.memOk) :
    (enqCopy s eng hc mi part node rel op scores ents).memOk := by
  unfold enqCopy
  dsimp only
  exact memOk_foldl (fun _ _ h => (quiet_setCore ..).memOk h) hs

theorem memOk_enqComb {s : State} {c : Ctx} {op : CombOp} (hs : s.memOk) : (enqComb s c op).memOk :=
  hs

theorem memOk_putField {s : State} {w : Who} {pa n v : Nat} {t : Tag} (hs : s.memOk) : (putField s w pa n v t).memOk :=
  (quiet_writeImm ..).memOk hs

theorem memOk_jcbStep {s t : State} {w : Who} {done : Bool} {pa finctr p : Nat} {n : SReg} (hs : s.memOk)
    (h : jcbStep s w done pa finctr p n = .ok t) : t.memOk := by
  unfold jcbStep at h
  split at h
  · cases h
    exact (quiet_loseImm ..).memOk hs
  split at h
  · dsimp only at h
    split at h
    · cases h
    cases h
    exact memOk_putField hs
  dsimp only at h
  split at h
  · cases h
  split at h
  · cases h
  split at h
  · cases h
    exact (quiet_counterAdd ..).memOk (memOk_putField (memOk_putField (memOk_putField hs)))
  cases h
  exact memOk_putField (memOk_putField hs)

theorem memOk_sendMsix {s : State} {v : Nat} (hs : s.memOk) : (sendMsix s v).memOk := by
  unfold sendMsix
  dsimp only
  exact memOk_ite hs hs

theorem memOk_ringStep {s : State} {w : Who} {pa pidx : Nat} {n : SReg} {flush : Bool} (hs : s.memOk) :
    (ringStep s w pa pidx n flush).memOk := by
  unfold ringStep
  refine memOk_ite ((quiet_loseImm ..).memOk hs) ?_
  dsimp only
  exact memOk_ite (memOk_putField (memOk_sendMsix ((quiet_writeImm ..).memOk (memOk_putField hs))))
    (memOk_ite ((quiet_writeImm ..).memOk (memOk_putField hs)) ((quiet_writeImm ..).memOk (memOk_putField hs)))

theorem memOk_toOption_getD {ε : Type} {x : Except ε State} {s : State} (hx : ∀ t, x = .ok t → t.memOk) (hs : s.memOk) :
    (x.toOption.getD s).memOk := by
  cases x with
  | error _ => exact hs
  | ok t => exact hx t rfl

theorem memOk_jobPerform {s : State} {core : Nat} (hs : s.memOk) : (jobPerform s core).memOk := by
  unfold jobPerform
  extract_lets c
  split
  · exact hs
  next x rest _ =>
    extract_lets u w eat
    have hu : u.memOk := (quiet_setCore ..).memOk hs
    have heat : ∀ {pa l n s}, s.memOk → (eat pa l n s).memOk := fun h => memOk_ite (memOk_consumeCir h) h
    split
    · exact heat (memOk_toOption_getD (fun _ h => memOk_jcbStep hu h) hu)
    · exact heat (memOk_toOption_getD (fun _ h => memOk_jcbStep hu h) hu)
    · extract_lets
      exact heat (memOk_ite (memOk_consumeCir (memOk_ringStep hu)) (memOk_ringStep hu))

theorem memOk_drainJobsOn {pa core n : Nat} {s : State} (hs : s.memOk) : (drainJobsOn pa core n s).memOk := by
  induction n generalizing s with
  | zero => exact hs
  | succ n ih =>
    unfold drainJobsOn
    exact memOk_ite (ih (memOk_jobPerform hs)) hs

theorem memOk_drainJobs {s : State} {pa : Nat} (hs : s.memOk) : (drainJobs s pa).memOk :=
  memOk_foldl (fun _ _ h => memOk_drainJobsOn h) hs

theorem memOk_jobCheck {r : RCall} {c : Ctx} {s t : State} {done : Bool} {y : Nat × Nat} (hs : s.memOk)
    (h : jobCheck r c s done = .ok (t, y)) : t.memOk := by
  unfold jobCheck at h
  split at h
  · cases h
  dsimp only at h
  split at h
  · cases h
  split at h
  · cases h
    exact memOk_drainJobs hs
  split at h
  · cases h
  split at h
  · cases h
  split at h
  · cases h
    exact (quiet_reach (h := ‹_›) ..).memOk (memOk_drainJobs hs)
  · cases h
  cases h

theorem memOk_enqJob {s : State} {c : Ctx} {op : JobOp} (hs : s.memOk) : (enqJob s c op).memOk := by
  unfold enqJob
  dsimp only
  exact (quiet_setCore ..).memOk hs

theorem keepsForm_jobPlan {done : Bool} {r : RCall} {c : Ctx} {s : State} : (jobPlan done r c s).KeepsForm := by
  refine .planOf_map fun _ s hs => ?_
  split
  next h => exact memOk_enqJob (memOk_jobCheck hs h)
  · exact hs

theorem memOk_ringCheck {r : RCall} {c : Ctx} {s t : State} {y : Nat × Nat} (hs : s.memOk)
    (h : ringCheck r c s = .ok (t, y)) : t.memOk := by
  unfold ringCheck at h
  split at h
  · cases h
  dsimp only at h
  split at h
  · cases h
  split at h
  · cases h
    exact memOk_drainJobs hs
  split at h
  · cases h
  split at h
  · cases h
  split at h
  · cases h
  split at h
  · cases h
  split at h
  · cases h
  cases h
  exact (quiet_reach (h := ‹_›) ..).memOk (memOk_drainJobs hs)

theorem memOk_block {s : State} {id : Nat} {w : Wait} (hs : s.memOk) : (block s id w).memOk :=
  memOk_modHc hs

theorem keepsForm_natOclaim {r : RCall} {c : Ctx} {s : State} : (natOclaim r c s).KeepsForm := by
  unfold natOclaim
  extract_lets
  split
  · exact .fail
  · exact .simple fun _ hs => (quiet_setCore ..).memOk hs

theorem keepsForm_natOfree {r : RCall} {c : Ctx} {s : State} : (natOfree r c s).KeepsForm := by
  unfold natOfree
  extract_lets
  split
  · exact .fail
  · exact .simple fun _ hs => (quiet_setCore ..).memOk hs

theorem keepsForm_natAclaim {r : RCall} {c : Ctx} {s : State} : (natAclaim r c s).KeepsForm := by
  unfold natAclaim
  extract_lets
  split
  · exact .fail
  · exact .simple fun _ hs => (quiet_setCore ..).memOk hs

theorem keepsForm_natAfree {r : RCall} {c : Ctx} {s : State} : (natAfree r c s).KeepsForm := by
  unfold natAfree
  extract_lets
  split
  · exact .fail
  · exact .simple fun _ hs => (quiet_setCore ..).memOk hs

theorem keepsForm_natBfpq {r : RCall} {c : Ctx} {s : State} : (natBfpq r c s).KeepsForm := by
  unfold natBfpq
  split
  · exact .fail
  split
  · exact .fail
  extract_lets
  split
  · exact .fail
  split
  · exact .fail
  · exact keepsForm_loadPlan

theorem keepsForm_natMma {r : RCall} {c : Ctx} {s : State} : (natMma r c s).KeepsForm := by
  unfold natMma
  extract_lets
  iterate 5
    split
    · exact .fail
  exact .simple fun _ hs => memOk_enqMat hs

theorem keepsForm_natAzero {r : RCall} {c : Ctx} {s : State} : (natAzero r c s).KeepsForm := by
  unfold natAzero
  extract_lets
  split
  · exact .fail
  · exact .simple fun _ hs => memOk_enqMat hs

theorem keepsForm_natAnorm {r : RCall} {c : Ctx} {s : State} : (natAnorm r c s).KeepsForm := by
  unfold natAnorm
  extract_lets
  split
  · exact .fail
  · exact .simple fun _ hs => memOk_enqMat hs

theorem keepsForm_natArow {r : RCall} {c : Ctx} {s : State} : (natArow r c s).KeepsForm := by
  unfold natArow
  extract_lets
  iterate 3
    split
    · exact .fail
  exact .simple fun _ hs => memOk_enqMat hs

theorem keepsForm_natAsto {r : RCall} {c : Ctx} {s : State} : (natAsto r c s).KeepsForm := by
  unfold natAsto
  split
  · exact .fail
  split
  · exact .fail
  extract_lets
  split
  · exact .fail
  split
  · exact .fail
  · exact .looped
      (fun _ _ hs => memOk_landFlags (memOk_flushStrm (memOk_modMember (memOk_pushRun (memOk_drainLoads hs)))))
      fun _ hs => memOk_enqMat (memOk_modMember (memOk_pushRun hs))

theorem keepsForm_natUnary {r : RCall} {c : Ctx} {s : State} : (natUnary r c s).KeepsForm :=
  keepsForm_fnPlan

theorem keepsForm_natDivf {r : RCall} {c : Ctx} {s : State} : (natDivf r c s).KeepsForm :=
  keepsForm_fnPlan

theorem keepsForm_natSmxfin {r : RCall} {c : Ctx} {s : State} : (natSmxfin r c s).KeepsForm :=
  keepsForm_fnPlan

theorem keepsForm_natBdot4 {r : RCall} {c : Ctx} {s : State} : (natBdot4 r c s).KeepsForm :=
  keepsForm_fnPlan

theorem keepsForm_natRow {r : RCall} {c : Ctx} {s : State} : (natRow r c s).KeepsForm := by
  unfold natRow
  extract_lets rn k x xt done
  have hdone : ∀ {a s}, s.memOk → (done a s).memOk := fun hs => memOk_enqFn hs
  clear_value done
  split
  · exact .fail
  split
  · split
    · exact .fail
    · exact .simple fun _ hs => hdone hs
  iterate 6
    split
    · exact .fail
  exact ⟨fun _ hs => hdone (memOk_modMember (memOk_popRun hs)),
    fun _ _ hs => memOk_ite hs (memOk_fillWindow (memOk_landFlags (memOk_modMember (memOk_popRun hs))))⟩

theorem keepsForm_natTlsc2 {r : RCall} {c : Ctx} {s : State} : (natTlsc2 r c s).KeepsForm :=
  ⟨fun _ hs => memOk_enqFn (memOk_tlscArrive (memOk_tlscArrive
    (memOk_tlscArrive (memOk_tlscArrive hs)))), fun _ _ hs => memOk_tlscFill hs⟩

theorem keepsForm_natCpy {r : RCall} {c : Ctx} {s : State} : (natCpy r c s).KeepsForm :=
  .planOf_map fun _ s hs => by
  split
  next h => exact memOk_enqCopy (memOk_cpyCheck hs h)
  · exact hs

theorem keepsForm_natCpyred {r : RCall} {c : Ctx} {s : State} : (natCpyred r c s).KeepsForm :=
  .planOf_map fun _ s hs => by
  split
  next h => exact memOk_enqCopy (memOk_redCheck hs h)
  · exact hs

theorem keepsForm_natTstload {r : RCall} {c : Ctx} {s : State} : (natTstload r c s).KeepsForm := by
  unfold natTstload
  extract_lets
  split
  · exact .fail
  split
  · exact .fail
  refine .planOf fun f hf => ?_
  split at hf
  · cases hf
  extract_lets at hf
  split at hf
  · cases hf
  · cases hf
    exact fun _ hs => memOk_enqCopy hs

theorem keepsForm_natBtswap {r : RCall} {c : Ctx} {s : State} : (natBtswap r c s).KeepsForm := by
  refine .planOf fun f hf => ?_
  split at hf
  · cases hf
  · obtain ⟨_, -, rfl⟩ := exists_of_map_eq_ok hf
    exact fun _ hs => memOk_enqCopy hs

theorem keepsForm_natBtfence {r : RCall} {c : Ctx} {s : State} : (natBtfence r c s).KeepsForm := by
  refine .planOf fun f hf => ?_
  split at hf
  · cases hf
  split at hf
  · cases hf
  · obtain ⟨_, -, rfl⟩ := exists_of_map_eq_ok hf
    exact fun _ hs => memOk_enqCopy hs

theorem keepsForm_natCbreg {r : RCall} {c : Ctx} {s : State} : (natCbreg r c s).KeepsForm :=
  .planOf_map fun _ s hs => by
  split
  next h => exact memOk_enqComb (memOk_cbregCheck hs h)
  · exact hs

theorem keepsForm_natCbput {r : RCall} {c : Ctx} {s : State} : (natCbput r c s).KeepsForm := by
  unfold natCbput
  extract_lets
  split
  · exact .fail
  · split
    · exact .fail
    · exact .simple fun _ hs => memOk_enqComb hs
  · exact .simple fun _ hs => memOk_enqComb hs

theorem keepsForm_natCbstat {r : RCall} {c : Ctx} {s : State} : (natCbstat r c s).KeepsForm := by
  unfold natCbstat
  extract_lets
  split
  · exact .fail
  · exact .simple fun _ hs => memOk_enqComb hs

theorem keepsForm_natRingadv {r : RCall} {c : Ctx} {s : State} : (natRingadv r c s).KeepsForm :=
  .planOf_map fun _ s hs => by
  split
  next h => exact memOk_enqJob (memOk_ringCheck hs h)
  · exact hs

theorem keepsForm_natPlan {r : RCall} {c : Ctx} {s : State} : (natPlan r c s).KeepsForm := by
  unfold natPlan
  split
  · exact keepsForm_natOclaim
  · exact keepsForm_natOfree
  · exact keepsForm_oldPlan
  · exact keepsForm_oldPlan
  · exact keepsForm_natAclaim
  · exact keepsForm_natAfree
  · exact keepsForm_natAzero
  · exact keepsForm_natMma
  · exact keepsForm_natAnorm
  · exact keepsForm_natAsto
  · exact keepsForm_natArow
  · exact keepsForm_natDivf
  · exact keepsForm_natRow
  · exact keepsForm_natRow
  · exact keepsForm_natRow
  · exact keepsForm_natSmxfin
  · exact keepsForm_natRow
  · exact keepsForm_natRow
  · exact keepsForm_natBfpq
  · exact keepsForm_natBdot4
  · exact keepsForm_natTlsc2
  · exact keepsForm_natCpy
  · exact keepsForm_natCpyred
  · exact keepsForm_natTstload
  · exact keepsForm_natBtswap
  · exact keepsForm_natBtfence
  · exact keepsForm_natCbreg
  · exact keepsForm_natCbput
  · exact keepsForm_natCbstat
  · exact keepsForm_jobPlan
  · exact keepsForm_jobPlan
  · exact keepsForm_natRingadv
  · exact keepsForm_natUnary

/-- Every member's plan keeps the form of memory. -/
theorem keepsForm_of_mem_plans {r : RCall} {s : State} {x : Nat × NatPlan} (hx : x ∈ r.plans s) : x.2.KeepsForm := by
  let good (y : State × List (Nat × NatPlan)) := ∀ z ∈ y.2, z.2.KeepsForm
  refine List.foldlRecOn (motive := good) _ _ (fun _ hz => absurd hz List.not_mem_nil) (fun y hy mi _ => ?_) x hx
  split
  · split
    · intro z hz
      rcases List.mem_append.mp hz with hz | hz
      · exact hy z hz
      · obtain rfl := List.mem_singleton.mp hz
        dsimp only
        split
        · exact keepsForm_natPlan
        · exact .fail
    · exact hy
  · exact hy

theorem memOk_enterBody {s : State} {r : RCall} {link : Link} {k : Nat}
    (hs : s.memOk) : (enterBody s r link k).memOk := by
  unfold enterBody
  split
  · exact hs
  split
  · exact hs
  split
  · split
    dsimp only
    exact memOk_setHc hs
  split
  dsimp only
  exact memOk_setHc hs

theorem memOk_foldl_plans {r : RCall} {s t : State} {f : State → Nat × NatPlan → State}
    (hf : ∀ ⦃t x⦄, x.2.KeepsForm → t.memOk → (f t x).memOk) (ht : t.memOk) : ((r.plans s).foldl f t).memOk :=
  List.foldlRecOn _ f ht fun _ hu _ hx => hf (keepsForm_of_mem_plans hx) hu

theorem memOk_materialise {s u : State} {r : RCall} {link : Link} {p : NatPlan} {n : Nat} (hs : s.memOk) :
    (materialise s r link (r.plans u) p n).memOk :=
  memOk_modHc (memOk_foldl_plans (fun _ _ hp h => hp.2 h) (memOk_enterBody hs))

theorem memOk_nativeFault {s u : State} {r : RCall} {link : Link} {n : Nat} (hs : s.memOk) :
    (nativeFault s r link (r.plans u) n).memOk := by
  unfold nativeFault
  dsimp only
  split
  · exact hs
  · exact memOk_ite (memOk_takeTrap hs) (memOk_takeTrap (memOk_materialise hs))

theorem memOk_spoilAfter {s : State} {r : RCall} (hs : s.memOk) : (spoilAfter s r).memOk :=
  memOk_modHc hs

theorem memOk_callBody {s : State} {r : RCall} {link : Link} (hs : s.memOk) : (callBody s r link).memOk := by
  unfold callBody
  split
  · dsimp only
    exact memOk_enterBody hs
  dsimp only
  exact memOk_takeTrap (memOk_enterBody hs)

theorem memOk_actRoutine {s : State} {r : RCall} {link : Link} (hs : s.memOk) : (actRoutine s r link).1.memOk := by
  unfold actRoutine
  split
  · exact hs
  extract_lets u plans
  have hu : u.memOk := memOk_settle hs
  split
  · split
    · exact memOk_materialise hu
    · split
      · exact memOk_nativeFault hu
      · exact memOk_spoilAfter (memOk_foldl_plans (fun _ _ hp h => hp.1 h) hu)
  · exact memOk_callBody hu

theorem memOk_runRb {s : State} {r : RCall} {w : RbWait} {pc : Word} (hs : s.memOk) : (runRb s r w pc).memOk := by
  unfold runRb
  refine memOk_ite (memOk_modHc hs) ?_
  split
  · exact memOk_block (memOk_modHc hs)
  · have hact := memOk_actRoutine (r := r) (link := ⟨w.succ, none, w.post⟩) hs
    split
    next h => rw [h] at hact; exact hact
    next h => rw [h] at hact; exact memOk_doPost hact

theorem memOk_runRoutines {s : State} {id : Nat} {ra rb : Option RCall} {pc succ : Word} {post : Post} (hs : s.memOk) :
    (runRoutines s id ra rb pc succ post).memOk := by
  unfold runRoutines
  extract_lets after
  have hafter : ∀ {s}, s.memOk → (after s).memOk := by
    intro s hs
    unfold after
    split
    · exact memOk_runRb hs
    · exact memOk_doPost hs
  split
  · exact hafter hs
  next r =>
    have hact := memOk_actRoutine (r := r) (link := raLink rb pc succ post) hs
    split
    next h => rw [h] at hact; exact hact
    next h => rw [h] at hact; exact hafter hact

theorem memOk_commit {s : State} {id : Nat} {h : HerdCtx} {b : Bundle} {o : CtlOut} {ra rb : Option RCall}
    (hs : s.memOk) : (commit s id h b o ra rb).memOk := by
  unfold commit
  have hbase := memOk_commitBase (id := id) (g := h) (b := b) (o := o) hs
  split
  next u succ hu =>
    rw [hu] at hbase
    dsimp only at hbase ⊢
    split
    · exact memOk_takeTrap hbase
    · split
      · exact memOk_returnFrom hbase
      · exact hbase
    · exact memOk_doPost (memOk_resumeHc hbase)
    · exact memOk_doPost ((quiet_modDie ..).memOk hbase)
    · exact memOk_runRoutines hbase

theorem memOk_completeBundle {s t : State} {id : Nat} {h : HerdCtx} {b : Bundle} {ra rb : Option RCall} (hs : s.memOk)
    (hc : completeBundle s id h b ra rb = .ok t) : t.memOk := by
  unfold completeBundle at hc
  split at hc
  · cases hc; exact hs
  split at hc
  · cases hc
  split at hc
  · cases hc
  next hf =>
    split at hc
    · cases hc
    split at hc
    · cases hc
    extract_lets u at hc
    split at hc
    · cases hc
    · rw [← Except.ok.inj hc]
      exact memOk_commit (memOk_foldStop (fun _ _ _ => memOk_runSlotIn) hs hf)

theorem memOk_landLate {s : State} {id : Nat} (hs : s.memOk) : (landLate s id).memOk := by
  unfold landLate
  refine memOk_ite hs ?_
  dsimp only
  split
  · exact memOk_landAll hs
  exact memOk_setHc (memOk_landAll hs)

theorem memOk_loadOverlay {s : State} {core : Nat} {o : BitVec 256 × Nat}
    (hs : s.memOk) : (loadOverlay s core o).memOk := by
  unfold loadOverlay
  dsimp only
  exact memOk_ite hs ((quiet_setCore ..).memOk hs)

theorem memOk_overlayStep {s : State} {id : Nat} (hs : s.memOk) : (overlayStep s id).memOk := by
  unfold overlayStep
  split
  · exact hs
  split
  · exact memOk_loadOverlay hs
  exact hs

theorem memOk_landLive {s : State} {id : Nat} (hs : s.memOk) : (landLive s id).memOk := by
  unfold landLive
  dsimp only
  exact memOk_ite hs (memOk_landAll hs)

theorem memOk_waitForStage {s : State} {g : HerdCtx} (hs : s.memOk) : (waitForStage s g).memOk :=
  (quiet_modInst ..).memOk hs

theorem memOk_runPendingRb {s : State} {id : Nat} {g : HerdCtx} {b : Bundle} {w : RbWait} (hs : s.memOk) :
    (runPendingRb s id g b w).memOk := by
  unfold runPendingRb
  split
  · exact memOk_doPost (memOk_modHc hs)
  split
  · exact memOk_takeTrap hs
  split
  · exact memOk_block hs
  dsimp only
  exact memOk_ite (memOk_waitForStage hs) (memOk_runRb (memOk_modHc hs))

theorem memOk_landArrived {s : State} {id : Nat} (hs : s.memOk) : (landArrived s id).memOk :=
  memOk_modHc hs

theorem memOk_feTry {s : State} {id : Nat} {w : Who} {x : FeAsk} (hs : s.memOk) : (feTry s id w x).1.memOk := by
  unfold feTry
  split
  · exact hs
  split
  · dsimp only
    exact memOk_modMember ((quiet_feAttempt (h := ‹_›) ..).memOk hs)
  dsimp only
  exact memOk_modMember ((quiet_feAttempt (h := ‹_›) ..).memOk hs)

theorem memOk_feRound {s : State} {id : Nat} {w : Who} {asks : List FeAsk} (hs : s.memOk) :
    (feRound s id w asks).1.memOk :=
  memOk_foldl_fst (fun _ _ h => memOk_feTry h) hs

theorem memOk_attemptFe {s : State} {id : Nat} {h : HerdCtx} {b : Bundle} {ra rb : Option RCall} (hs : s.memOk) :
    (attemptFe s id h b ra rb).memOk := by
  unfold attemptFe
  have hround := memOk_feRound (id := id) (w := h.who s) (asks := feAsks s id h b) hs
  split
  next t bad ht =>
    rw [ht] at hround
    dsimp only at hround ⊢
    split
    · split
      · exact hround
      · split
        next hu => exact memOk_completeBundle hround hu
        · exact hround
    · exact memOk_ite (memOk_takeTrap hround) (memOk_modHc hround)

end Sys2Proof.Machine
end

section
/-! The form of memory: the turns of a herd-context, the engines, stops and saves, and instances. -/

namespace Sys2Proof.Machine

theorem memOk_finishBundle {s : State} {id : Nat} {g : HerdCtx} {b : Bundle} {ra rb : Option RCall} (hs : s.memOk) :
    (finishBundle s id g b ra rb).memOk := by
  unfold finishBundle
  split
  · exact memOk_completeBundle hs ‹_›
  · exact memOk_waitForStage hs
  · exact memOk_block hs
  · split <;> exact memOk_takeTrap hs
  exact hs

theorem memOk_issueNow {s : State} {id : Nat} {g : HerdCtx} {b : Bundle} {stops : List (Nat × Nat × Stop)}
    {ra rb : Option RCall} (hs : s.memOk) :
    (issueNow s id g b stops ra rb).memOk := by
  unfold issueNow
  refine memOk_ite hs (memOk_ite (memOk_waitForStage hs) ?_)
  split
  · exact memOk_takeTrap hs
  refine memOk_ite ?_ (memOk_finishBundle hs)
  dsimp only
  split
  · exact memOk_block hs
  refine memOk_ite hs (memOk_ite (memOk_waitForStage hs) ?_)
  split
  · exact memOk_takeTrap hs
  split
  · exact memOk_waitForStage hs
  · exact memOk_block hs
  · split <;> exact memOk_takeTrap hs
  · exact hs
  exact memOk_attemptFe hs

theorem memOk_issueChecked {s : State} {id : Nat} {g : HerdCtx} {b : Bundle} (hs : s.memOk) :
    (issueChecked s id g b).memOk := by
  unfold issueChecked
  dsimp only
  split
  · exact memOk_takeTrap (memOk_ite (memOk_settle hs) hs)
  split
  · exact memOk_block hs
  exact memOk_ite (memOk_block hs) (memOk_ite hs (memOk_ite (memOk_landArrived hs)
    (memOk_ite hs (memOk_issueNow hs))))

theorem memOk_issueEncoded {s : State} {id : Nat} {g : HerdCtx} {b : Bundle} (hs : s.memOk) :
    (issueEncoded s id g b).memOk := by
  unfold issueEncoded
  refine memOk_ite (memOk_ite (memOk_block hs) ?_) (memOk_issueChecked hs)
  dsimp only
  exact memOk_ite (memOk_landArrived hs) (memOk_issueChecked (memOk_landArrived hs))

theorem memOk_issueBundle {s : State} {id : Nat} {b : Bundle} (hs : s.memOk) : (issueBundle s id b).memOk := by
  unfold issueBundle
  dsimp only
  split
  · exact memOk_landLive hs
  refine memOk_ite (memOk_landLive hs) (memOk_ite (memOk_waitForStage (memOk_landLive hs)) ?_)
  split
  · exact memOk_runPendingRb (memOk_landLive hs)
  split
  · exact memOk_takeTrap (memOk_landLive hs)
  exact memOk_issueEncoded (memOk_landLive hs)

theorem memOk_waitEnd {s : State} {id : Nat} (hs : s.memOk) : (waitEnd s id).memOk := by
  unfold waitEnd
  split
  · exact hs
  exact memOk_ite (memOk_setHc hs) hs

theorem memOk_selectOn {s : State} {lead : Nat} (hs : s.memOk) : (selectOn s lead).memOk := by
  unfold selectOn
  dsimp only
  refine memOk_ite hs ?_
  split
  · exact hs
  exact memOk_setHc (memOk_foldl (fun _ _ h => memOk_modHc h)
    (memOk_foldl (fun _ _ h => memOk_ite h (memOk_setHc h)) hs))

theorem memOk_retryFe {s : State} {id : Nat} {spent : Bool} (hs : s.memOk) : (retryFe s id spent).memOk := by
  unfold retryFe
  split
  · exact hs
  refine memOk_ite ?_ hs
  split
  · exact memOk_issueBundle hs
  exact hs

theorem memOk_readAhead {s : State} {id mi qn : Nat} (hs : s.memOk) : (readAhead s id mi qn).memOk := by
  unfold readAhead
  split
  · exact hs
  split
  · exact hs
  dsimp only
  split
  · exact hs
  refine memOk_ite hs ?_
  split
  · exact hs
  refine memOk_ite hs ?_
  split
  · exact memOk_modMember (memOk_ite ((quiet_noteStage2 ..).memOk hs) hs)
  exact memOk_modMember (memOk_fetchElem hs ‹_›)

theorem memOk_writeOldest {s : State} {id mi qn : Nat} (hs : s.memOk) : (writeOldest s id mi qn).memOk := by
  unfold writeOldest
  split
  · exact hs
  split
  · exact hs
  split
  · exact hs
  split
  · exact memOk_modMember ((quiet_writeOut (hw := ‹_›) ..).memOk hs)
  exact memOk_waitForStage hs

theorem memOk_fnPerform {s : State} {core : Nat} (hs : s.memOk) : (fnPerform s core).memOk := by
  unfold fnPerform
  dsimp only
  split
  · exact hs
  exact memOk_modHc ((quiet_setCore ..).memOk hs)

theorem memOk_locSetTag {s : State} {w : Who} {l : Loc} {t : Tag} (hs : s.memOk) : (locSetTag s w l t).memOk := by
  unfold locSetTag
  split
  · exact (quiet_setCore ..).memOk hs
  refine memOk_ite hs ?_
  split
  · exact memOk_ite ((quiet_modInst ..).memOk hs) ((quiet_setMemTag ..).memOk hs)
  exact (quiet_setMemTag ..).memOk hs

theorem memOk_writePart {s t : State} {w : Who} {b : Option Beat} {l : Loc} {d : List Byte} {g : Tag} {y : Beat}
    (hs : s.memOk) (h : writePart s w b l d g = some (t, y)) : t.memOk := by
  obtain ⟨u, hu, ht⟩ := Option.map_eq_some_iff.mp h
  have hu : u.memOk := (quiet_locWrite (h := hu) ..).memOk hs
  obtain rfl := congrArg Prod.fst ht
  exact memOk_ite (memOk_locSetTag hu) (memOk_ite (memOk_locSetTag hu) hu)

theorem memOk_writeParts {w : Who} {dst : Loc} {l : List (Nat × List Byte × Tag)} {s t : State} {b y : Option Beat}
    (hs : s.memOk) (h : writeParts w dst l s b = some (t, y)) : t.memOk := by
  induction l generalizing s b with
  | nil => cases h; exact hs
  | cons x l ih =>
    unfold writeParts at h
    split at h
    · cases h
    next hw => exact ih (memOk_writePart hs hw) h

theorem memOk_plainMove {s t : State} {w : Who} {b : Option Beat} {m : Move} {y : Option Beat} (hs : s.memOk)
    (h : plainMove s w b m = some (t, y)) : t.memOk := by
  unfold plainMove at h
  dsimp only at h
  exact memOk_writeParts ((quiet_locArrive ..).memOk hs) h

theorem memOk_copyMove {s t : State} {w : Who} {mode : Nat} {me : Option Nat} {b y : Option Beat} {m : Move}
    (hs : s.memOk) (h : copyMove s w mode me b m = some (t, y)) : t.memOk := by
  unfold copyMove at h
  extract_lets u at h
  have hu : u.memOk := memOk_ite hs ((quiet_locArrive ..).memOk hs)
  split at h
  extract_lets put at h
  have hput : ∀ {s full t y}, s.memOk → put s full = some (t, y) → t.memOk := by
    intro s full t y hs h
    obtain ⟨v, hv, ht⟩ := Option.map_eq_some_iff.mp h
    obtain rfl := congrArg Prod.fst ht
    exact memOk_sendFull ((quiet_locWrite (h := hv) ..).memOk hs)
  clear_value put u
  split at h
  · exact memOk_plainMove hu h
  · exact hput hu h
  · exact hput hu h
  split at h
  · exact hput hu h
  split at h
  · exact hput ((quiet_locSetFull ..).memOk ((quiet_beginImm ..).memOk hu)) h
  · cases h

theorem memOk_copyRun {w : Who} {mode : Nat} {l : List Move} {me : Option Nat} {x : CopyRun} (hs : x.s.memOk) :
    (copyRun w mode l me x).s.memOk := by
  induction l generalizing me x with
  | nil => exact hs
  | cons m l ih =>
    unfold copyRun
    split
    · exact hs
    next hm => exact ih (memOk_copyMove hs hm)

theorem memOk_postCtr {s : State} {w : Who} {a : Option (Nat × Word)} (hs : s.memOk) : (postCtr s w a).memOk := by
  unfold postCtr
  split
  · exact (quiet_counterAdd ..).memOk hs
  exact hs

theorem memOk_consumeAt {s : State} {hc : Option Nat} {mi part node : Nat} {t : Tag} (hs : s.memOk) :
    (consumeAt s hc mi part node t).memOk := by
  unfold consumeAt
  split
  · split
    · split
      · split
        · split
          · dsimp only
            exact (quiet_modInst ..).memOk hs
          dsimp only
          exact memOk_consumeCir hs
        dsimp only
        exact (quiet_modInst ..).memOk hs
      dsimp only
      exact (quiet_modInst ..).memOk hs
    split
    · split
      · split
        · exact hs
        dsimp only
        exact memOk_consumeCir hs
      exact hs
    exact hs
  split
  · split
    · split
      · exact hs
      dsimp only
      exact memOk_consumeCir hs
    exact hs
  exact hs

theorem memOk_clearScores {s : State} {id : Nat} (hs : s.memOk) : (clearScores s id).memOk :=
  hs

theorem memOk_sliceItems {w : Who} {k : Nat} {l : List Move} {s : State} (hs : s.memOk) :
    (sliceItems w k l s).1.memOk := by
  induction l generalizing s with
  | nil => exact hs
  | cons m l ih =>
    unfold sliceItems
    split
    · split
      · exact ih ((quiet_locArrive ..).memOk hs)
      · exact ih hs
    · exact ih hs

theorem memOk_setSlice {s : State} {k : Nat} {x : Slice} (hs : s.memOk) : (State.setSlice s k x).memOk :=
  hs

theorem memOk_setCirAt {s : State} {hc : Option Nat} {mi part node : Nat} {b : Word} (hs : s.memOk) :
    (setCirAt s hc mi part node b).memOk := by
  unfold setCirAt
  split
  · split
    · split
      · split
        · split
          · dsimp only
            exact (quiet_modInst ..).memOk hs
          dsimp only
          exact memOk_setCir hs
        dsimp only
        exact (quiet_modInst ..).memOk hs
      dsimp only
      exact (quiet_modInst ..).memOk hs
    split
    · split
      · split
        · exact hs
        dsimp only
        exact memOk_setCir hs
      exact hs
    exact hs
  split
  · split
    · split
      · exact hs
      dsimp only
      exact memOk_setCir hs
    exact hs
  exact hs

theorem memOk_redLess {s : State} {cmd : Nat} {orphan : Bool} (hs : s.memOk) : (redLess s cmd orphan).memOk := by
  unfold redLess
  split
  · exact hs
  dsimp only
  exact memOk_ite (memOk_ite hs (memOk_postCtr hs)) hs

theorem memOk_sendRed {s t : State} {x : CopyCmd} {group sid : Nat} {moves : List Move} {float : Bool}
    {ctr : Option (Nat × Word)} (hs : s.memOk)
    (h : sendRed s x group sid moves float ctr = some t) : t.memOk := by
  unfold sendRed at h
  dsimp only at h
  split at h
  · cases h
  cases h
  exact memOk_redLess (memOk_ite (memOk_setCirAt (memOk_foldl (fun _ _ h => memOk_setSlice (memOk_sliceItems h)) hs))
    (memOk_foldl (fun _ _ h => memOk_setSlice (memOk_sliceItems h)) hs))

theorem memOk_discard {s : State} {x : Contribution} (hs : s.memOk) : (discard s x).memOk :=
  memOk_redLess (memOk_setCirAt hs)

theorem memOk_purge {s : State} {k part group : Nat} (hs : s.memOk) : (purge s k part group).memOk := by
  unfold purge
  dsimp only
  exact memOk_foldl (fun _ _ h => memOk_discard h) (memOk_setSlice hs)

theorem memOk_switchGroup {s : State} {k part group : Nat} (hs : s.memOk) : (switchGroup s k part group).memOk := by
  unfold switchGroup
  dsimp only
  exact memOk_ite (memOk_purge (memOk_setSlice hs)) hs

theorem memOk_loadSlots {s : State} {k : Nat} {words : List (BitVec 32)}
    (hs : s.memOk) : (loadSlots s k words).memOk := by
  unfold loadSlots
  dsimp only
  exact memOk_foldl (fun _ _ h => memOk_purge (memOk_switchGroup h)) (memOk_setSlice hs)

theorem memOk_swapWake {s : State} {pa : Nat} (hs : s.memOk) : (swapWake s pa).memOk :=
  memOk_ite hs ((quiet_wakeRecord ..).memOk hs)

theorem memOk_swapEntry {s : State} {x : CopyCmd} {sd pa : Nat} {expect : Word} {new : SReg} (hs : s.memOk) :
    (swapEntry s x sd pa expect new).memOk := by
  unfold swapEntry
  split
  · split
    · dsimp only
      exact memOk_modHc (memOk_ite ((quiet_loseImm ..).memOk
        ((quiet_arrive ..).memOk ((quiet_beginImm ..).memOk hs)))
        (memOk_ite (memOk_consumeAt (memOk_swapWake ((quiet_writeImm ..).memOk
        ((quiet_arrive ..).memOk ((quiet_beginImm ..).memOk hs)))))
        ((quiet_arrive ..).memOk ((quiet_beginImm ..).memOk hs))))
    dsimp only
    exact memOk_ite ((quiet_loseImm ..).memOk ((quiet_arrive ..).memOk ((quiet_beginImm ..).memOk hs)))
      (memOk_ite (memOk_consumeAt (memOk_swapWake ((quiet_writeImm ..).memOk
      ((quiet_arrive ..).memOk ((quiet_beginImm ..).memOk hs)))))
      ((quiet_arrive ..).memOk ((quiet_beginImm ..).memOk hs)))
  split
  · dsimp only
    exact memOk_modHc (memOk_ite ((quiet_loseImm ..).memOk ((quiet_arrive ..).memOk ((quiet_beginImm ..).memOk hs)))
      (memOk_ite (memOk_swapWake ((quiet_writeImm ..).memOk
      ((quiet_arrive ..).memOk ((quiet_beginImm ..).memOk hs))))
      ((quiet_arrive ..).memOk ((quiet_beginImm ..).memOk hs))))
  dsimp only
  exact memOk_ite ((quiet_loseImm ..).memOk ((quiet_arrive ..).memOk ((quiet_beginImm ..).memOk hs)))
    (memOk_ite (memOk_swapWake ((quiet_writeImm ..).memOk ((quiet_arrive ..).memOk ((quiet_beginImm ..).memOk hs))))
    ((quiet_arrive ..).memOk ((quiet_beginImm ..).memOk hs)))

theorem memOk_dropEntries {s : State} {part page size : Nat} (hs : s.memOk) : (dropEntries s part page size).memOk := by
  unfold dropEntries
  refine memOk_foldl (fun _ _ hs => ?_) hs
  split
  exact memOk_modMember hs

theorem memOk_fenceEntries {s : State} {part page size : Nat} {eng : Option Nat} {mine bound : Nat} (hs : s.memOk) :
    (fenceEntries s part page size eng mine bound).1.memOk := by
  unfold fenceEntries
  dsimp only
  exact memOk_dropEntries (memOk_foldl (fun _ _ h => memOk_flushStrm h) hs)

theorem memOk_copyPerform {s : State} {eng : Nat} (hs : s.memOk) : (copyPerform s eng).memOk := by
  unfold copyPerform
  split
  · exact hs
  next x rest _ =>
    extract_lets pop w
    have hpop : ∀ {s}, s.memOk → (pop s).memOk := fun hs => hs
    split
    next moves mode ctr _ =>
      have hy := memOk_copyRun (w := w) (mode := mode) (l := moves.drop x.done) (me := x.wait)
        (x := ⟨s, x.done, x.beat, x.eaten, false⟩) hs
      exact memOk_ite (memOk_postCtr (memOk_consumeAt (memOk_clearScores (hpop hy))))
        (memOk_ite ((quiet_modInst ..).memOk hy) hy)
    · split
      · exact hs
      next h => exact memOk_clearScores (hpop (memOk_sendRed hs h))
    · exact memOk_loadSlots hs
    · exact memOk_swapEntry hs
    · refine memOk_ite hs ?_
      extract_lets bound
      next drops =>
        split
        next u done hd =>
          have hu : u.memOk := by
            split at hd
            · obtain rfl := congrArg Prod.fst hd
              exact memOk_fenceEntries hs
            · obtain rfl := congrArg Prod.fst hd
              exact hs
          exact memOk_ite (memOk_postCtr hu) hu

theorem memOk_addItem {w : Who} {float : Bool} {s : State} {x : Nat × W32 × Tag} (hs : s.memOk) :
    (addItem w float s x).memOk := by
  unfold addItem
  split
  · dsimp only
    exact (quiet_writeImm ..).memOk hs
  dsimp only
  exact (quiet_writeImm ..).memOk hs

theorem memOk_admitRound {s : State} {k part group : Nat} (hs : s.memOk) : (admitRound s k part group).memOk := by
  unfold admitRound
  dsimp only
  split
  · exact hs
  split
  · exact hs
  exact memOk_switchGroup (memOk_redLess (memOk_consumeAt
    (memOk_foldl (fun _ _ h => memOk_addItem h) (memOk_setSlice hs))))

theorem memOk_modComb {s : State} {d : Nat} {f : CombUnit → CombUnit} (hs : s.memOk) : (State.modComb s d f).memOk :=
  (quiet_modDie ..).memOk hs

theorem memOk_register {s t : State} {g : HerdCtx} {hc mi d : Nat} {l : List Byte} {dest fb : List Nat} {rctr : Nat}
    {y : Word} (hs : s.memOk)
    (h : register s g hc mi d l dest fb rctr = some (t, y)) : t.memOk := by
  unfold register at h
  split at h
  · dsimp only at h
    split at h
    · cases h
    cases h
    exact memOk_modComb hs
  cases h

theorem memOk_lateDrop {s : State} {part d : Nat} (hs : s.memOk) : (lateDrop s part d).memOk :=
  (quiet_modPart ..).memOk hs

theorem memOk_combPerform {s : State} {core : Nat} (hs : s.memOk) : (combPerform s core).memOk := by
  unfold combPerform
  dsimp only
  split
  · exact hs
  split
  · exact (quiet_setCore ..).memOk hs
  split
  · refine memOk_ite ((quiet_setCore ..).memOk ((quiet_setCore ..).memOk hs)) ?_
    split
    · exact memOk_modHc (memOk_register ((quiet_setCore ..).memOk hs) ‹_›)
    exact (quiet_setCore ..).memOk ((quiet_setCore ..).memOk hs)
  · split
    · split
      · exact memOk_modComb ((quiet_markIrrev ..).memOk ((quiet_setCore ..).memOk hs))
      exact (quiet_setCore ..).memOk ((quiet_setCore ..).memOk hs)
    exact memOk_lateDrop ((quiet_markIrrev ..).memOk ((quiet_setCore ..).memOk hs))
  exact memOk_modHc ((quiet_setCore ..).memOk hs)

theorem memOk_tokenRelease {s : State} {d i : Nat} (hs : s.memOk) : (tokenRelease s d i).memOk := by
  unfold tokenRelease
  split
  · exact hs
  refine memOk_ite ?_ hs
  dsimp only
  exact memOk_modComb ((quiet_counterAdd ..).memOk ((quiet_writeNow ..).memOk
    (memOk_foldl (fun _ _ h => memOk_foldl (fun _ _ h => memOk_ite ((quiet_setMemTag ..).memOk h) h) h)
    (memOk_foldl (fun _ _ h => memOk_foldl (fun _ _ h => (quiet_writeNow ..).memOk h) h) hs))))

theorem memOk_fallbackRow {s : State} {t : Token} {g : Nat} (hs : s.memOk) : (fallbackRow s t g).1.memOk := by
  unfold fallbackRow
  dsimp only
  split
  · dsimp only
    exact memOk_readLanes hs
  exact memOk_readLanes (memOk_readLanes hs)

theorem memOk_substitute {x : State × Token} {g j : Nat} (hs : x.1.memOk) : (substitute x g j).1.memOk := by
  unfold substitute
  dsimp only
  split
  · exact hs
  split
  · exact hs
  split
  · exact memOk_fallbackRow hs
  · exact hs

theorem memOk_combTimeout {s : State} {d i : Nat} (hs : s.memOk) : (combTimeout s d i).memOk := by
  unfold combTimeout
  split
  · exact hs
  · exact memOk_ite hs (memOk_setCirAt (memOk_modComb
      (memOk_foldl_fst (fun _ _ h => memOk_foldl_fst (fun _ _ h => memOk_substitute h) h) hs)))

theorem memOk_timerExpiry {s : State} {v : Nat} (hs : s.memOk) : (timerExpiry s v).memOk := by
  unfold timerExpiry
  split
  · exact hs
  dsimp only
  exact (quiet_putFw ..).memOk (memOk_sendMsix hs)

theorem memOk_startSave {s : State} {id : Nat} {g : HerdCtx} (hs : s.memOk) : (startSave s id g).memOk :=
  memOk_setHc hs

theorem memOk_drainStop {s : State} {id : Nat} (hs : s.memOk) : (drainStop s id).memOk := by
  unfold drainStop
  refine memOk_ite hs ?_
  dsimp only
  split
  · exact memOk_landAll hs
  split
  · exact memOk_ite (memOk_startSave (memOk_landAll hs)) (memOk_landAll hs)
  exact memOk_landAll hs

theorem memOk_issueUndecoded {s : State} {id : Nat} {w : BitVec 64} {f : DecodeFailure} (hs : s.memOk) :
    (issueUndecoded s id w f).memOk := by
  unfold issueUndecoded
  dsimp only
  split
  · exact memOk_landLive hs
  exact memOk_takeTrap (memOk_landLive hs)

theorem memOk_fetchFault {s : State} {id : Nat} (hs : s.memOk) : (fetchFault s id).memOk := by
  unfold fetchFault
  dsimp only
  split
  · exact memOk_landLive hs
  exact memOk_takeTrap (memOk_landLive hs)

theorem memOk_fetchNext {s : State} {id : Nat} {g : HerdCtx} (hs : s.memOk) : (fetchNext s id g).memOk := by
  unfold fetchNext
  split
  · split
    · exact memOk_issueBundle hs
    exact memOk_issueUndecoded hs
  exact memOk_fetchFault hs

theorem memOk_forceStop {s : State} {id : Nat} (hs : s.memOk) : (forceStop s id).memOk := by
  unfold forceStop
  dsimp only
  split
  · exact memOk_landLive hs
  exact memOk_ite (memOk_ite (memOk_startSave (memOk_landLive hs))
    (memOk_ite (memOk_fetchNext (memOk_landLive hs)) (memOk_ite
    (memOk_ite (memOk_landLate (memOk_landLive hs)) (memOk_startSave (memOk_landLive hs)))
    (memOk_ite (memOk_fetchNext (memOk_landLive hs)) (memOk_startSave (memOk_landLive hs)))))) (memOk_landLive hs)

theorem memOk_preemptTimeout {s : State} {id : Nat} (hs : s.memOk) : (preemptTimeout s id).memOk := by
  unfold preemptTimeout
  split
  · exact hs
  split
  · exact memOk_ite (memOk_setHc hs) hs
  exact hs

theorem memOk_flushStreams {s t : State} {id : Nat} (hs : s.memOk) (h : flushStreams s id = some t) : t.memOk := by
  unfold flushStreams at h
  dsimp only at h
  split at h
  · cases h
  cases h
  exact memOk_flushPushes hs

theorem memOk_releaseClaims {s : State} {g : HerdCtx} (hs : s.memOk) : (releaseClaims s g).memOk :=
  memOk_foldl (fun _ _ h => (quiet_setCore ..).memOk h) hs

theorem memOk_writePages {s : State} {part va n : Nat} {put : State → Nat → Nat → Nat → State}
    (hput : ∀ s a b c, s.memOk → (put s a b c).memOk) (hs : s.memOk) : (writePages s part va n put).memOk := by
  refine memOk_foldl (fun s k hs => ?_) hs
  dsimp only
  split
  next hr =>
    have hu := (quiet_reach (h := hr) ..).memOk hs
    exact memOk_ite hu (hput _ _ _ _ hu)
  · exact hs

theorem memOk_writeAcc {s : State} {part va a : Nat} {x : Acc} (hs : s.memOk) : (writeAcc s part va a x).memOk :=
  memOk_writePages (fun _ _ _ _ hs => Memory.setRange_wf _ _ _ hs) hs

theorem memOk_spoilBytes {s : State} {seed pa n : Nat} (hs : s.memOk) : (spoilBytes s seed pa n).memOk :=
  Memory.setRange_wf _ _ _ hs

theorem memOk_spoilBlock {s : State} {part seed va n : Nat} (hs : s.memOk) : (spoilBlock s part seed va n).memOk :=
  memOk_writePages (fun _ _ _ _ hs => memOk_spoilBytes hs) hs

theorem memOk_writeSaveArea {s : State} {g : HerdCtx} (hs : s.memOk) : (writeSaveArea s g).memOk := by
  unfold writeSaveArea
  split
  · dsimp only
    exact memOk_ite hs (memOk_foldl (fun _ _ h => memOk_spoilBlock h) hs)
  exact hs

theorem memOk_writeSaved {s : State} {g : HerdCtx} (hs : s.memOk) : (writeSaved s g).memOk := by
  unfold writeSaved
  split
  · dsimp only
    exact memOk_ite hs (memOk_foldl (fun _ _ h => memOk_writeAcc h) (memOk_writeSaveArea hs))
  exact hs

theorem memOk_saveDone {s : State} {id : Nat} (hs : s.memOk) : (saveDone s id).memOk := by
  unfold saveDone
  split
  · exact hs
  refine memOk_ite hs ?_
  split
  · exact memOk_waitForStage hs
  dsimp only
  exact memOk_ite (memOk_setHc (memOk_releaseClaims (memOk_writeSaved (memOk_flushStreams hs ‹_›))))
    ((quiet_modPart ..).memOk (memOk_setHc (memOk_releaseClaims (memOk_writeSaved (memOk_flushStreams hs ‹_›)))))

theorem memOk_requestStop {s : State} {id : Nat} (hs : s.memOk) : (requestStop s id).memOk := by
  unfold requestStop
  split
  · exact hs
  refine memOk_ite hs ?_
  split
  · exact memOk_setHc hs
  · exact memOk_setHc hs
  · exact memOk_setHc hs
  · exact memOk_setHc hs
  · exact memOk_setHc hs
  exact hs

theorem memOk_yieldSlot {s : State} {id : Nat} {g : HerdCtx} (hs : s.memOk) : (yieldSlot s id g).memOk := by
  unfold yieldSlot
  split
  · exact hs
  dsimp only
  exact memOk_foldl (fun _ _ h => memOk_ite (memOk_requestStop h) h) hs

theorem memOk_setCarve {s : State} {core b1 b2 b3 ctxl : Nat}
    (hs : s.memOk) : (setCarve s core b1 b2 b3 ctxl).memOk := by
  unfold setCarve
  dsimp only
  exact (quiet_setCore ..).memOk hs

theorem memOk_giveShadow {s : State} {g : HerdCtx} {core : Nat} {x : Shadow} (hs : s.memOk) :
    (giveShadow s g core x).memOk := by
  unfold giveShadow
  dsimp only
  exact (quiet_setCore ..).memOk hs

theorem memOk_restoreCtx {s : State} {id : Nat} (hs : s.memOk) : (restoreCtx s id).memOk := by
  unfold restoreCtx
  split
  · exact hs
  refine memOk_ite (memOk_yieldSlot hs) ?_
  dsimp only
  exact (quiet_modPart ..).memOk (memOk_setHc (memOk_foldl (fun _ _ h => memOk_giveShadow h)
    (memOk_foldl (fun _ _ h => (quiet_setCore ..).memOk h)
    (memOk_foldl (fun _ _ h => (quiet_setCore ..).memOk h)
    (memOk_foldl (fun _ _ h => memOk_ite (memOk_setCarve h) h) hs)))))

theorem memOk_retire {s : State} {id : Nat} (hs : s.memOk) : (retire s id).memOk := by
  unfold retire
  split
  · exact hs
  refine memOk_ite hs ?_
  split
  · exact memOk_waitForStage hs
  dsimp only
  exact memOk_modHc (memOk_releaseClaims (memOk_flushStreams hs ‹_›))

theorem memOk_faultLog {s : State} {part : Nat} {words : List Word} (hs : s.memOk) : (faultLog s part words).memOk := by
  unfold faultLog
  split
  · exact hs
  dsimp only
  split
  · exact hs
  refine (quiet_putFw ..).memOk ?_
  split
  · exact (quiet_putFw ..).memOk hs
  exact hs

theorem memOk_stage2Log {s : State} {part : Nat} {words : List Word}
    (hs : s.memOk) : (stage2Log s part words).memOk := by
  unfold stage2Log
  dsimp only
  exact (quiet_appendRing ..).memOk hs

theorem memOk_unqueue {s : State} {part node : Nat} (hs : s.memOk) : (unqueue s part node).memOk :=
  (quiet_modPart ..).memOk hs

theorem memOk_flushAll {s : State} {ids : List Nat} (hs : s.memOk) : (flushAll s ids).memOk :=
  memOk_foldl (fun _ _ h => memOk_flushPushes h) hs

theorem memOk_removeHcs {s : State} {ids : List Nat} (hs : s.memOk) : (removeHcs s ids).memOk := by
  unfold removeHcs
  dsimp only
  refine memOk_foldl (fun _ _ hs => ?_) hs
  split
  · exact memOk_ite hs (memOk_releaseClaims hs)
  exact hs

theorem memOk_unstageCopies {s : State} {part node : Nat} (hs : s.memOk) : (unstageCopies s part node).memOk :=
  memOk_ite hs hs

theorem memOk_freeRecords {s : State} {part : Nat} {i : Inst} (hs : s.memOk) : (freeRecords s part i).memOk :=
  (quiet_modPart ..).memOk hs

theorem memOk_discardInst {s : State} {part node : Nat} (hs : s.memOk) : (discardInst s part node).memOk := by
  unfold discardInst
  dsimp only
  split
  · exact memOk_flushAll hs
  exact memOk_modNode (memOk_removeHcs (memOk_unstageCopies (memOk_freeRecords (memOk_flushAll hs))))

theorem memOk_setNState {s : State} {part node : Nat} {x : NState} (hs : s.memOk) : (setNState s part node x).memOk :=
  memOk_modNode hs

theorem memOk_failRegens {s : State} {part node : Nat} (hs : s.memOk) : (failRegens s part node).memOk := by
  unfold failRegens
  split
  · exact hs
  dsimp only
  refine memOk_foldl (fun _ _ hs => ?_) ((quiet_modPart ..).memOk hs)
  split
  · refine memOk_ite ((quiet_raiseEvent ..).memOk (memOk_setHc ?_)) hs
    split
    · exact memOk_faultLog hs
    exact hs
  exact hs

theorem memOk_haltNode {s : State} {part node : Nat} (hs : s.memOk) : (haltNode s part node).memOk := by
  unfold haltNode
  dsimp only
  exact (quiet_raiseEvent ..).memOk (memOk_failRegens ((quiet_modPart ..).memOk
    (memOk_setNState (memOk_unqueue (memOk_discardInst hs)))))

theorem memOk_nodeFault {s : State} {part node : Nat} {t : Trap} (hs : s.memOk) : (nodeFault s part node t).memOk := by
  unfold nodeFault
  split
  · dsimp only
    exact memOk_haltNode (memOk_faultLog (memOk_stage2Log hs))
  dsimp only
  exact memOk_haltNode (memOk_faultLog hs)

theorem memOk_nodeAdd {s t : State} {part node va : Nat} {v : BitVec 32} (hs : s.memOk)
    (h : nodeAdd s part node va v = .ok t ∨ nodeAdd s part node va v = .error t) : t.memOk := by
  unfold nodeAdd at h
  split at h
  · rcases h with h | h
    · cases h; exact hs
    · cases h
  split at h
  next hr =>
    rcases h with h | h
    · cases h
      exact (quiet_counterAdd ..).memOk ((quiet_reach (h := hr) ..).memOk hs)
    · cases h
  · rcases h with h | h
    · cases h
    · cases h
      exact memOk_nodeFault hs

theorem memOk_nodeJcb {s t : State} {part : Nat} {n : Node} {y : Nat × Nat} (hs : s.memOk)
    (h : nodeJcb s part n = .ok (t, y)) : t.memOk := by
  unfold nodeJcb at h
  dsimp only at h
  split at h
  · cases h
  split at h
  · cases h
    exact memOk_drainJobs ((quiet_reach (h := ‹_›) ..).memOk hs)
  split at h
  · cases h
  split at h
  · cases h
  cases h
  exact (quiet_reach (h := ‹_›) ..).memOk (memOk_drainJobs ((quiet_reach (h := ‹_›) ..).memOk hs))

theorem memOk_nodeJob {s t : State} {part node : Nat} {n : Node} {done : Bool} {v : Word} (hs : s.memOk)
    (h : nodeJob s part node n done v = .ok t ∨ nodeJob s part node n done v = .error t) : t.memOk := by
  unfold nodeJob at h
  extract_lets at h
  split at h
  · rcases h with h | h
    · cases h
    · cases h
      exact memOk_nodeFault hs
  next hj =>
    extract_lets at h
    split at h
    next hjs =>
      rcases h with h | h
      · cases h
        exact memOk_jcbStep (memOk_nodeJcb hs hj) hjs
      · cases h
    · rcases h with h | h
      · cases h
      · cases h
        exact memOk_nodeFault hs
    · rcases h with h | h
      · cases h
      · cases h
        exact memOk_nodeFault hs

theorem memOk_freeNode {s : State} {part node : Nat} (hs : s.memOk) : (freeNode s part node).memOk := by
  unfold freeNode
  dsimp only
  exact memOk_unqueue (memOk_modNode ((quiet_modPart ..).memOk hs))

theorem memOk_enqueueNode {s : State} {part node prio : Nat} {front : Bool} (hs : s.memOk) :
    (enqueueNode s part node prio front).memOk :=
  (quiet_modPart ..).memOk hs

theorem memOk_finishRest {s : State} {part node : Nat} (hs : s.memOk) : (finishRest s part node).memOk := by
  unfold finishRest
  split
  · exact hs
  next n _ =>
    extract_lets n' u v job
    have hv : v.memOk := (quiet_modPart ..).memOk (memOk_modNode hs)
    clear_value v
    have hjob : ∀ {t}, job = .ok t ∨ job = .error t → t.memOk := by
      intro t ht
      unfold job at ht
      split at ht
      · exact memOk_nodeJob hv ht
      · rcases ht with ht | ht
        · cases ht; exact hv
        · cases ht
    clear_value job
    split
    · exact hjob (.inr rfl)
    · have ht := hjob (.inl rfl)
      exact memOk_ite (memOk_freeNode ht) (memOk_ite (memOk_enqueueNode (memOk_modNode ht)) (memOk_setNState ht))

theorem memOk_finishInst {s : State} {part node : Nat} (hs : s.memOk) : (finishInst s part node).memOk := by
  unfold finishInst
  split
  · exact hs
  split
  next h => exact memOk_finishRest (memOk_nodeAdd hs (.inl h))
  next h => exact memOk_nodeAdd hs (.inr h)

theorem memOk_performAll {s : State} {part : Nat} {i : Inst} (hs : s.memOk) : (performAll s part i).memOk := by
  refine memOk_foldl (fun s k hs => ?_) hs
  dsimp only
  refine memOk_ite ((quiet_countFabErr ..).memOk hs) (memOk_ite hs ?_)
  have hmem := Memory.foldl_set_wf (i.staged.filter fun (a, _) => a / 8 == k) (·.1) (·.2) s.mem hs
  split
  · exact (quiet_setMemTag ..).memOk hmem
  · exact hmem

theorem memOk_repairRow {s : State} {core w : Nat} (hs : s.memOk) : (repairRow s core w).memOk := by
  unfold repairRow
  split
  · dsimp only
    split
    · exact (quiet_setCore ..).memOk hs
    exact memOk_repairStore hs
  dsimp only
  split <;> exact (quiet_setCore ..).memOk hs

theorem memOk_takeOut {s : State} {x : BitVec 4 × Nat × BitVec 10 × Word} {wh : Word} (hs : s.memOk) :
    (takeOut s x wh).memOk := by
  unfold takeOut
  split
  · dsimp only
    exact memOk_repairRow hs
  · dsimp only
    exact (quiet_setCore ..).memOk hs
  · dsimp only
    exact (quiet_setCore ..).memOk hs
  · dsimp only
    exact hs
  · dsimp only
    exact hs
  · dsimp only
    exact hs
  · dsimp only
    exact hs
  · dsimp only
    exact hs
  exact hs

theorem memOk_markLasting {s : State} {t : BitVec 12} (hs : s.memOk) : (markLasting s t).memOk := by
  unfold markLasting
  split
  · exact hs
  dsimp only
  exact (quiet_modDie ..).memOk hs

theorem memOk_requeueInst {s : State} {part node : Nat} {fix : State → State} (hfix : ∀ ⦃s⦄, s.memOk → (fix s).memOk)
    (hs : s.memOk) : (requeueInst s part node fix).memOk := by
  unfold requeueInst
  split
  · exact hs
  · exact memOk_ite (memOk_haltNode (hfix hs)) (memOk_ite (memOk_freeNode (hfix (memOk_discardInst hs)))
      (memOk_enqueueNode (memOk_modNode (hfix (memOk_discardInst hs)))))

theorem memOk_failCommit {s : State} {part node : Nat} {n : Node} {i : Inst} {cir : Word} (hs : s.memOk) :
    (failCommit s part node n i cir).memOk := by
  unfold failCommit
  dsimp only
  refine memOk_ite (memOk_haltNode hs) (memOk_requeueInst (fun s hs => ?_) (memOk_modNode hs))
  split
  · exact memOk_takeOut (memOk_markLasting hs)
  · exact hs

theorem memOk_settleInst {s : State} {part node : Nat} {n : Node} {i : Inst} (hs : s.memOk) :
    (settleInst s part node n i).memOk := by
  unfold settleInst
  dsimp only
  exact memOk_ite (memOk_finishInst (memOk_removeHcs (memOk_modNode (memOk_freeRecords (memOk_performAll hs)))))
    (memOk_failCommit hs)

theorem memOk_commitNode {s : State} {part node : Nat} (hs : s.memOk) : (commitNode s part node).memOk := by
  unfold commitNode
  split
  · exact hs
  split
  · exact memOk_ite (memOk_ite (memOk_finishInst (memOk_setNState hs)) hs) (memOk_ite (memOk_setNState hs) hs)
  · exact memOk_settleInst hs
  exact hs

theorem memOk_stagingOut {s : State} {part : Nat} (hs : s.memOk) : (stagingOut s part).memOk := by
  unfold stagingOut
  split
  · exact hs
  split
  · exact hs
  refine memOk_ite ?_ hs
  split
  · exact memOk_requeueInst (fun _ hs => hs) (memOk_ite ((quiet_raiseEvent ..).memOk hs) hs)
  · exact memOk_haltNode hs

end Sys2Proof.Machine
end

section
/-! The form of memory: nodes, traps and their handlers, the loader, the host, the manager and errors. -/

namespace Sys2Proof.Machine

theorem memOk_firePass {s : State} {part node v : Nat} (hs : s.memOk) : (firePass s part node v).memOk := by
  unfold firePass
  split
  · refine memOk_ite hs ?_
    extract_lets th st n fresh n' u u'
    have hu : u'.memOk := memOk_ite (memOk_enqueueNode (memOk_modNode hs)) (memOk_modNode hs)
    refine memOk_ite hu ?_
    split
    next h => exact memOk_nodeJob hu (.inl h)
    next h => exact memOk_nodeJob hu (.inr h)
  · exact hs

theorem memOk_fireLoop {part node v k : Nat} {s : State} (hs : s.memOk) : (fireLoop part node v k s).memOk := by
  induction k generalizing s with
  | zero => exact hs
  | succ k ih =>
    unfold fireLoop
    split
    · exact memOk_ite (ih (memOk_firePass hs)) hs
    · exact hs

theorem memOk_fireAll {s : State} {pa v : Nat} (hs : s.memOk) : (fireAll s pa v).memOk := by
  unfold fireAll
  refine memOk_foldl (fun _ _ hs => ?_) hs
  split
  exact memOk_fireLoop hs

theorem memOk_fireNode {s : State} {part node : Nat} (hs : s.memOk) : (fireNode s part node).memOk := by
  unfold fireNode
  split
  · exact memOk_ite hs (memOk_fireAll hs)
  exact hs

theorem memOk_startInst {s : State} {part node : Nat} {n : Node} (hs : s.memOk) : (startInst s part node n).memOk := by
  unfold startInst
  split
  · dsimp only
    exact memOk_unqueue (memOk_modNode hs)
  dsimp only
  exact memOk_unqueue (memOk_modNode hs)

theorem memOk_placeHerd {s : State} {part node : Nat} {n : Node} {im : Image} {dieRank herd lead : Nat} (hs : s.memOk) :
    (placeHerd s part node n im dieRank herd lead).memOk := by
  unfold placeHerd
  dsimp only
  exact memOk_foldl (fun _ _ h => memOk_wireAll ((quiet_modPart ..).memOk
    (memOk_setHc ((quiet_modInst ..).memOk h)))) (memOk_foldl (fun _ _ h => memOk_loadOverlay h)
    (memOk_foldl (fun _ _ h => memOk_ite (memOk_setCarve h) h) hs))

/-- `reachRange` behind a name that the kernel cannot unfold: it recurses on a quotient of addresses, which the kernel
would count down one by one. -/
theorem exists_eq_reachRange :
    ∃ f, reachRange = f ∧ ∀ ⦃s t p q va n i y⦄, s.memOk → f s p q va n i = .ok (t, y) → t.memOk :=
  ⟨_, rfl, fun _ _ _ _ _ _ _ _ => memOk_reachRange⟩

theorem memOk_handRegen {s : State} {part node : Nat} {n : Node} (hs : s.memOk) : (handRegen s part node n).memOk := by
  obtain ⟨f, hf, hreach⟩ := exists_eq_reachRange
  rw [handRegen, hf]
  split
  · exact hs
  · dsimp only
    have hv {f g} : ((s.modPart part f).modInst part node g).memOk :=
      (quiet_modInst ..).memOk ((quiet_modPart ..).memOk hs)
    split
    · exact hv
    next h => exact memOk_foldl (fun _ _ h => (quiet_putFw ..).memOk h) (hreach hv h)

theorem memOk_noteUnsavable {s : State} {part prio : Nat} (hs : s.memOk) : (noteUnsavable s part prio).memOk := by
  unfold noteUnsavable
  refine memOk_foldl (fun _ _ hs => ?_) hs
  split
  exact (quiet_raiseEvent ..).memOk (memOk_modHc hs)

theorem memOk_placeHead {s : State} {part : Nat} (hs : s.memOk) : (placeHead s part).memOk := by
  unfold placeHead
  iterate 3
    split
    · exact hs
  refine memOk_ite hs ?_
  split
  · exact hs
  split
  · refine memOk_ite (memOk_handRegen ?_) ?_
    all_goals
      exact memOk_foldl (fun _ _ h => memOk_foldl (fun _ _ h => memOk_placeHerd h) h) (memOk_startInst hs)
  · extract_lets u
    have hu : u.memOk := memOk_noteUnsavable hs
    split
    · exact hu
    · exact memOk_foldl (fun _ _ h => memOk_ite (memOk_requestStop h) h) hu

theorem memOk_nodeStream {s t : State} {part a : Nat} {y : StrmRec} (hs : s.memOk)
    (h : nodeStream s part a = .ok (t, y)) : t.memOk := by
  obtain ⟨f, hf, hreach⟩ := exists_eq_reachRange
  rw [nodeStream, hf] at h
  split at h
  · cases h
  next hr =>
    cases h
    exact hreach hs hr

theorem memOk_nodeMoves {s t : State} {part : Nat} {p : Part} {n : Node} {y : List Move × List Nat} (hs : s.memOk)
    (h : nodeMoves s part p n = .ok (t, y)) : t.memOk := by
  obtain ⟨f, hf, hstream⟩ : ∃ f, nodeStream = f ∧ ∀ ⦃s t p a y⦄, s.memOk → f s p a = .ok (t, y) → t.memOk :=
    ⟨_, rfl, fun _ _ _ _ _ => memOk_nodeStream⟩
  rw [nodeMoves, hf] at h
  extract_lets at h
  split at h
  · cases h
  next hx =>
    split at h
    · cases h
    next hy =>
      replace hy := hstream (hstream hs hx) hy
      split at h
      · cases h
      · cases h
      iterate 3
        split at h
        · cases h
      simp only [] at h
      split at h
      · cases h
      next hl =>
        split at h
        · cases h
        next hm =>
          cases h
          exact memOk_walkPlaces (memOk_walkPlaces hy hl) hm

theorem memOk_sendNodeCopy {s : State} {part node : Nat} {p : Part} {mode : Nat} {l : List Move} {es : List Nat}
    (hs : s.memOk) :
    (sendNodeCopy s part node p mode l es).memOk := by
  unfold sendNodeCopy
  split
  · exact hs
  dsimp only
  exact memOk_ite hs ((quiet_modInst ..).memOk (memOk_enqCopy hs))

theorem memOk_runCopyNode {s : State} {part node : Nat} (hs : s.memOk) : (runCopyNode s part node).memOk := by
  unfold runCopyNode
  split
  · split
    · split
      · exact memOk_nodeFault (memOk_startInst hs)
      next h => exact memOk_sendNodeCopy ((quiet_modInst ..).memOk (memOk_startInst (memOk_nodeMoves hs h)))
    · split
      · exact memOk_sendNodeCopy hs
      · exact hs
  · exact hs

theorem memOk_runCounterNode {s : State} {part node : Nat} (hs : s.memOk) : (runCounterNode s part node).memOk := by
  unfold runCounterNode
  split
  · exact hs
  exact memOk_ite (memOk_finishInst (memOk_setNState (memOk_startInst hs))) hs

theorem memOk_runConditionalNode {s : State} {part node : Nat} (hs : s.memOk) :
    (runConditionalNode s part node).memOk := by
  unfold runConditionalNode
  split
  · exact hs
  refine memOk_ite ?_ hs
  extract_lets u wa
  have hu : u.memOk := memOk_startInst hs
  split
  · exact memOk_nodeFault hu
  next v _ hr =>
    have hv : v.memOk := by
      split at hr
      · exact (quiet_reach (h := hr) ..).memOk hu
      · cases hr
    extract_lets
    split
    next h => exact memOk_finishInst (memOk_setNState (memOk_nodeAdd ((quiet_arrive ..).memOk hv) (.inl h)))
    next h => exact memOk_nodeAdd ((quiet_arrive ..).memOk hv) (.inr h)

theorem memOk_retranslate {s : State} {id : Nat} {g : HerdCtx} {r : TrapRec} (hs : s.memOk) :
    (retranslate s id g r).memOk := by
  refine memOk_foldl (fun s mi hs => memOk_ite hs (memOk_ite (memOk_modMember hs) (memOk_ite hs ?_))) hs
  split
  · exact hs
  split
  · exact hs
  · exact memOk_modMember ((quiet_fillHandle ..).memOk hs)

theorem memOk_unpark {s : State} {id : Nat} {last : Option (Nat × Nat)} {regen : Option Nat} (hs : s.memOk) :
    (unpark s id last regen).memOk := by
  unfold unpark
  split
  · exact hs
  split
  · dsimp only
    exact memOk_resumeHc (memOk_setHc hs)
  dsimp only
  exact memOk_setHc hs

theorem memOk_regenWake {s : State} {id : Nat} {g : HerdCtx} {idx : Nat}
    (hs : s.memOk) : (regenWake s id g idx).memOk := by
  unfold regenWake
  split
  · dsimp only
    exact memOk_unpark (memOk_retranslate hs)
  dsimp only
  exact memOk_unpark hs

theorem memOk_haltTrap {s : State} {g : HerdCtx} {r : TrapRec} (hs : s.memOk) : (haltTrap s g r).memOk :=
  memOk_haltNode (memOk_faultLog hs)

theorem memOk_holdHc {s : State} {id : Nat} {g : HerdCtx} {r : TrapRec} (hs : s.memOk) : (holdHc s id g r).memOk := by
  unfold holdHc
  split
  · dsimp only
    exact memOk_stage2Log (memOk_modHc hs)
  dsimp only
  exact (quiet_raiseEvent ..).memOk (memOk_faultLog (memOk_modHc hs))

theorem memOk_parkRegen {s : State} {id idx node ctr target : Nat} (hs : s.memOk) :
    (parkRegen s id idx node ctr target).memOk :=
  memOk_modHc hs

theorem memOk_queueRegen {s : State} {part node : Nat} {n : Node} (hs : s.memOk) : (queueRegen s part node n).memOk :=
  memOk_ite (memOk_enqueueNode (memOk_modNode hs)) (memOk_modNode hs)

theorem memOk_holdFailed {s : State} {id : Nat} {g : HerdCtx} {r : TrapRec} (hs : s.memOk) :
    (holdFailed s id g r).memOk := by
  unfold holdFailed
  dsimp only
  exact memOk_holdHc (memOk_modHc hs)

theorem memOk_regenTrap {s : State} {id : Nat} {g : HerdCtx} {r : TrapRec}
    (hs : s.memOk) : (regenTrap s id g r).memOk := by
  unfold regenTrap
  split
  · dsimp only
    exact memOk_haltTrap hs
  dsimp only
  refine memOk_ite (memOk_holdHc hs) ?_
  split
  · split
    · exact memOk_parkRegen hs
    split
    · exact memOk_ite (memOk_parkRegen (memOk_queueRegen ((quiet_modPart ..).memOk hs))) (memOk_holdFailed hs)
    exact memOk_holdFailed hs
  exact memOk_holdFailed hs

theorem memOk_regenStep {s : State} {id : Nat} (hs : s.memOk) : (regenStep s id).memOk := by
  unfold regenStep
  split
  · exact hs
  split
  · exact memOk_ite (memOk_regenWake hs) hs
  · dsimp only
    exact memOk_ite (memOk_regenTrap hs) hs
  exact hs

theorem memOk_enterHandler {s : State} {die : Nat} (hs : s.memOk) : (enterHandler s die).memOk := by
  unfold enterHandler
  dsimp only
  exact (quiet_modDie ..).memOk hs

theorem memOk_spillLinks {s : State} {id : Nat} {g : HerdCtx} {r : TrapRec} (hs : s.memOk) :
    (spillLinks s id g r).memOk := by
  unfold spillLinks
  dsimp only
  exact memOk_ite (memOk_haltTrap hs) (memOk_resumeHc (memOk_setHc (memOk_writeSaveArea hs)))

theorem memOk_refillLinks {s : State} {id : Nat} {g : HerdCtx} {r : TrapRec}
    (hs : s.memOk) : (refillLinks s id g r).memOk :=
  memOk_ite (memOk_haltTrap hs) (memOk_resumeHc (memOk_setHc hs))

theorem memOk_writeParkEntry {s : State} {g : HerdCtx} {spad : Bool} {key member op : Nat} {full : Bool}
    {seq : Nat} (hs : s.memOk) :
    (writeParkEntry s g spad key member op full seq).memOk := by
  unfold writeParkEntry
  split
  · exact hs
  dsimp only
  split
  · exact (quiet_putFw ..).memOk hs
  exact hs

theorem memOk_setPark {s : State} {part a : Nat} {b : BitVec 3} (hs : s.memOk) : (setPark s part a b).memOk :=
  hs

theorem memOk_setParkAt {s : State} {part : Nat} {spad : Bool} {key : Nat} {b : BitVec 3} (hs : s.memOk) :
    (setParkAt s part spad key b).memOk := by
  unfold setParkAt
  refine memOk_ite ?_ (memOk_setPark hs)
  split
  · dsimp only
    exact (quiet_setCore ..).memOk hs
  dsimp only
  exact (quiet_setCore ..).memOk hs

theorem memOk_clearParkEntry {s : State} {spad : Bool} {key : Nat} {x : Waiter} (hs : s.memOk) :
    (clearParkEntry s spad key x).memOk := by
  unfold clearParkEntry
  split
  · exact hs
  dsimp only
  split
  · exact (quiet_putFw ..).memOk hs
  exact hs

theorem memOk_serveOne {s : State} {spad : Bool} {key : Nat} {x : Waiter}
    (hs : s.memOk) : (serveOne s spad key x).memOk :=
  memOk_unpark (memOk_clearParkEntry hs)

theorem memOk_serveProxy {s : State} {spad : Bool} {key : Nat} {x : Waiter} (hs : s.memOk) :
    (serveProxy s spad key x).memOk := by
  unfold serveProxy
  split
  · dsimp only
    split
    · exact hs
    exact memOk_serveOne (memOk_modMember ((quiet_feAttempt (h := ‹_›) ..).memOk hs))
  dsimp only
  split
  · exact hs
  exact memOk_serveOne (memOk_modMember ((quiet_feAttempt (h := ‹_›) ..).memOk hs))

theorem memOk_serveKey {s : State} {part : Nat} {spad : Bool} {key op : Nat} {full : Bool} (hs : s.memOk) :
    (serveKey s part spad key op full).memOk := by
  unfold serveKey
  split
  · dsimp only
    exact memOk_setParkAt (memOk_foldl (fun _ _ h => memOk_serveOne h) hs)
  split
  · dsimp only
    refine memOk_setParkAt ?_
    split
    · exact memOk_serveProxy (memOk_foldl (fun _ _ h => memOk_serveOne h) hs)
    exact memOk_foldl (fun _ _ h => memOk_serveOne h) hs
  dsimp only
  refine memOk_setParkAt ?_
  split
  · exact memOk_serveProxy hs
  exact hs

theorem memOk_parkOn {s : State} {id : Nat} {g : HerdCtx} {r : TrapRec} {spad : Bool} {key op : Nat} {full : Bool}
    (hs : s.memOk) :
    (parkOn s id g r spad key op full).memOk := by
  unfold parkOn
  split
  · split
    · dsimp only
      exact memOk_setParkAt (memOk_modHc (memOk_writeParkEntry (memOk_ite hs ((quiet_modPart ..).memOk hs))))
    dsimp only
    exact memOk_ite (memOk_serveKey (memOk_setParkAt (memOk_modHc
      (memOk_writeParkEntry (memOk_ite hs ((quiet_modPart ..).memOk hs))))))
      (memOk_setParkAt (memOk_modHc (memOk_writeParkEntry (memOk_ite hs ((quiet_modPart ..).memOk hs)))))
  split
  · dsimp only
    exact memOk_setParkAt (memOk_modHc (memOk_writeParkEntry (memOk_ite hs ((quiet_modPart ..).memOk hs))))
  dsimp only
  exact memOk_ite (memOk_serveKey (memOk_setParkAt (memOk_modHc
    (memOk_writeParkEntry (memOk_ite hs ((quiet_modPart ..).memOk hs))))))
    (memOk_setParkAt (memOk_modHc (memOk_writeParkEntry (memOk_ite hs ((quiet_modPart ..).memOk hs)))))

theorem memOk_parkFe {s : State} {id : Nat} {g : HerdCtx} {r : TrapRec} (hs : s.memOk) : (parkFe s id g r).memOk := by
  unfold parkFe
  split
  · dsimp only
    exact memOk_parkOn hs
  dsimp only
  exact memOk_parkOn hs

theorem memOk_parkMoving {s : State} {id : Nat} {g : HerdCtx} {r : TrapRec} (hs : s.memOk) :
    (parkMoving s id g r).memOk := by
  unfold parkMoving
  split
  · exact memOk_holdHc hs
  dsimp only
  exact memOk_ite (memOk_parkOn hs) (memOk_resumeHc hs)

theorem memOk_endTrap {s : State} {id : Nat} {g : HerdCtx} {r : TrapRec} (hs : s.memOk) : (endTrap s id g r).memOk := by
  unfold endTrap
  split
  · exact memOk_spillLinks hs
  · exact memOk_refillLinks hs
  · exact memOk_ite (memOk_haltTrap hs) (memOk_holdHc hs)
  · exact memOk_holdHc hs
  · exact memOk_holdHc hs
  · exact memOk_ite hs (memOk_haltTrap hs)
  · exact memOk_parkFe hs
  · exact hs
  · exact hs
  · exact memOk_parkMoving hs
  · exact memOk_holdHc hs
  all_goals exact memOk_haltTrap hs

theorem memOk_takeRecord {s : State} {die : Nat} (hs : s.memOk) : (takeRecord s die).memOk := by
  unfold takeRecord
  split
  · exact hs
  split
  · exact hs
  refine memOk_ite hs ?_
  dsimp only
  split
  · exact memOk_enterHandler ((quiet_modDie ..).memOk hs)
  exact memOk_ite (memOk_enterHandler ((quiet_modDie ..).memOk hs))
    (memOk_endTrap (memOk_enterHandler ((quiet_modDie ..).memOk hs)))

theorem memOk_serveWake {s : State} {part : Nat} (hs : s.memOk) : (serveWake s part).memOk := by
  unfold serveWake
  split
  · exact hs
  split
  · exact hs
  dsimp only
  refine memOk_ite hs (memOk_ite (memOk_foldl (fun _ _ h => memOk_serveKey (memOk_serveKey h))
    ((quiet_modPart ..).memOk hs)) ?_)
  split
  · exact (quiet_modPart ..).memOk hs
  exact memOk_serveKey ((quiet_modPart ..).memOk hs)

theorem memOk_repairResume {s : State} {id : Nat} (hs : s.memOk) : (repairResume s id).memOk := by
  unfold repairResume
  split
  · exact hs
  split
  · exact memOk_resumeHc (memOk_retranslate hs)
  exact memOk_resumeHc hs

theorem memOk_handleAgain {s : State} {id : Nat} (hs : s.memOk) : (handleAgain s id).memOk := by
  unfold handleAgain
  split
  · exact hs
  dsimp only
  exact memOk_ite (memOk_repairResume hs) hs

theorem memOk_invalidateDone {s : State} {part : Nat} (hs : s.memOk) : (invalidateDone s part).memOk := by
  unfold invalidateDone
  split
  · exact hs
  split
  · exact hs
  exact memOk_ite ((quiet_addVa ..).memOk (memOk_setPart hs)) hs

theorem memOk_readRange {s t : State} {part va n : Nat} {y : List Byte} (hs : s.memOk)
    (h : readRange s part va n = some (t, y)) : t.memOk := by
  unfold readRange at h
  split at h
  · cases h
  split at h
  · cases h
  cases h
  exact memOk_reachRange hs ‹_›

theorem memOk_loadStep1 {s t : State} {part : Nat} {q : LoadReq} {y : List Byte} (hs : s.memOk)
    (h : loadStep1 s part q = .ok (t, y)) : t.memOk := by
  unfold loadStep1 at h
  split at h
  · cases h
  split at h
  · cases h
  split at h
  · cases h
  split at h
  · cases h
  cases h
  exact memOk_readRange hs ‹_›

theorem memOk_writeChunk {full : Bool} {s : State} {part pa : Nat} {l : List Byte} (hs : s.memOk) :
    (writeChunk full s part pa l).memOk := by
  refine memOk_ite hs (memOk_ite ((quiet_countFabErr ..).memOk hs) (memOk_ite hs ?_))
  have hmem : Memory.wf (Memory.setRange s.mem pa l) = true := Memory.setRange_wf _ _ _ hs
  exact memOk_ite (memOk_foldl (fun _ _ h => (quiet_setFull ..).memOk h) hmem) hmem

theorem memOk_writeGranules {full : Bool} {part va : Nat} {l : List Byte} {gs : List Nat} {k : Nat} {s : State}
    (hs : s.memOk) : (writeGranules full part va l gs k s).memOk := by
  induction gs generalizing k s with
  | nil => exact hs
  | cons g gs ih => exact ih (memOk_writeChunk hs)

theorem memOk_writeVa {full : Bool} {s : State} {part va : Nat} {l : List Byte} (hs : s.memOk) :
    (writeVa full s part va l).memOk := by
  unfold writeVa
  refine memOk_ite hs ?_
  split
  · exact hs
  exact memOk_writeGranules (memOk_reachRange hs ‹_›)

theorem memOk_writeData {s : State} {part va : Nat} {l : List Byte} (hs : s.memOk) : (writeData s part va l).memOk :=
  memOk_writeVa hs

theorem memOk_writeRange {s : State} {part va : Nat} {l : List Byte} (hs : s.memOk) : (writeRange s part va l).memOk :=
  memOk_writeVa hs

theorem memOk_applyReloc {part : Nat} {l : List Sect} {segs : List Nat} {ents : List RawEntry}
    {bases : List (Nat × Nat)}
    {x y : Placed} {r : List Byte} (hs : x.s.memOk) (h : applyReloc part l segs ents bases x r = some y) :
    y.s.memOk := by
  unfold applyReloc at h
  extract_lets at h
  split at h
  · cases h
  extract_lets at h
  split at h
  · cases h
  split at h
  · split at h
    · cases h
    split at h
    · split at h
      · cases h
      · cases h
        exact memOk_writeRange hs
    · cases h
  split at h
  · split at h
    · cases h
    split at h
    · cases h
    obtain ⟨-, h⟩ := Option.ite_none_left_eq_some.mp h
    cases h
    exact hs
  · cases h

theorem memOk_applyRelocs {part : Nat} {l : List Sect} {segs : List Nat} {ents : List RawEntry}
    {bases : List (Nat × Nat)} {rs : List (List Byte)} {x y : Placed} (hs : x.s.memOk)
    (h : applyRelocs part l segs ents bases rs x = some y) : y.s.memOk := by
  induction rs generalizing x with
  | nil => cases h; exact hs
  | cons r rs ih =>
    unfold applyRelocs at h
    split at h
    · cases h
    next hr => exact ih (memOk_applyReloc hs hr) h

theorem memOk_loadRest {s : State} {part : Nat} {p : Part} {q : LoadReq} {obj : List Byte} (hs : s.memOk) :
    (loadRest s part p q obj).s.memOk := by
  unfold loadRest
  extract_lets refuse l ds
  have hrefuse : ∀ {s c v}, s.memOk → (refuse s c v).s.memOk := fun hs => hs
  clear_value refuse
  split
  · exact hrefuse hs
  split
  · exact hrefuse hs
  split
  · exact hrefuse hs
  split
  · exact hrefuse hs
  split
  · exact hrefuse hs
  split
  · exact hrefuse hs
  split
  split
  · exact hrefuse hs
  · have hdata {f : State → Sect → State} (hf : ∀ s d, s.memOk → (f s d).memOk) : (ds.foldl f s).memOk :=
      memOk_foldl hf hs
    split
    · exact hrefuse (hdata fun _ _ h => memOk_writeData h)
    split
    dsimp only
    split
    · exact hrefuse (hdata fun _ _ h => memOk_writeData h)
    next hr => exact memOk_applyRelocs (hdata fun _ _ h => memOk_writeData h) hr

theorem memOk_spoilRegion {s : State} {part dbase dlen : Nat}
    (hs : s.memOk) : (spoilRegion s part dbase dlen).memOk := by
  unfold spoilRegion
  refine memOk_ite hs ?_
  dsimp only
  exact memOk_writeRange ((quiet_modPart ..).memOk hs)

theorem memOk_runLoad {s : State} {part : Nat} {q : LoadReq} (hs : s.memOk) : (runLoad s part q).memOk := by
  unfold runLoad
  split
  · exact hs
  next p _ =>
    extract_lets e u v w
    have he : e.s.memOk := by
      unfold e
      split
      · exact hs
      next h => exact memOk_loadRest (memOk_loadStep1 hs h)
    have hu : u.memOk := memOk_ite he (memOk_spoilRegion he)
    have hv : v.memOk := memOk_ite hu (memOk_writeRange hu)
    exact (quiet_addVa ..).memOk (memOk_writeRange hv)

theorem memOk_takeRequest {s : State} {part slot : Nat} (hs : s.memOk) : (takeRequest s part slot).memOk :=
  (quiet_modPart ..).memOk hs

theorem memOk_serveLoad {s : State} {part : Nat} (hs : s.memOk) : (serveLoad s part).memOk := by
  unfold serveLoad
  split
  · exact memOk_ite (memOk_runLoad (memOk_takeRequest hs)) hs
  exact hs

theorem memOk_runUnload {s : State} {part : Nat} {l : List Byte} (hs : s.memOk) : (runUnload s part l).memOk := by
  unfold runUnload
  split
  · exact hs
  · exact (quiet_addVa ..).memOk (memOk_writeRange (memOk_ite hs hs))

theorem memOk_serveUnload {s : State} {part : Nat} (hs : s.memOk) : (serveUnload s part).memOk := by
  unfold serveUnload
  split
  · exact memOk_ite (memOk_runUnload (memOk_takeRequest hs)) hs
  exact hs

theorem memOk_serveStop {s : State} {part : Nat} (hs : s.memOk) : (serveStop s part).memOk := by
  unfold serveStop
  split
  · exact memOk_ite ((quiet_addVa ..).memOk ((quiet_modPart ..).memOk hs)) hs
  split
  · refine memOk_ite ?_ hs
    dsimp only
    split
    · exact memOk_ite ((quiet_modPart ..).memOk (memOk_setHc (memOk_takeRequest hs)))
        ((quiet_addVa ..).memOk (memOk_takeRequest hs))
    exact (quiet_addVa ..).memOk (memOk_takeRequest hs)
  exact hs

theorem memOk_serveRestore {s : State} {part : Nat} (hs : s.memOk) : (serveRestore s part).memOk := by
  unfold serveRestore
  split
  · refine memOk_ite ?_ hs
    dsimp only
    refine (quiet_addVa ..).memOk ?_
    split
    · exact memOk_ite ((quiet_modPart ..).memOk (memOk_setHc (memOk_takeRequest hs))) (memOk_takeRequest hs)
    exact memOk_takeRequest hs
  exact hs

-- later

theorem memOk_windowTile {s : State} {g : HerdCtx} {core : Nat} {w : WinWrite} (hs : s.memOk) :
    (windowTile s g core w).memOk := by
  unfold windowTile
  split
  · dsimp only
    exact memOk_ite ((quiet_setCore ..).memOk hs) hs
  · dsimp only
    exact memOk_ite ((quiet_setCore ..).memOk hs) hs
  · split
    · dsimp only
      exact (quiet_setCore ..).memOk hs
    exact hs
  exact hs

theorem memOk_windowAct {s : State} {id mi : Nat} {w : WinWrite} (hs : s.memOk) : (windowAct s id mi w).memOk := by
  unfold windowAct
  split
  · exact hs
  split
  · exact hs
  refine memOk_ite hs ?_
  split
  · exact memOk_modHc hs
  · exact memOk_modHc hs
  · exact memOk_modMember hs
  · exact memOk_modMember hs
  · exact memOk_ite (memOk_modHc hs) hs
  · exact memOk_ite (memOk_modHc hs) hs
  · exact memOk_ite (memOk_modMember hs) hs
  · exact memOk_modHc hs
  · exact memOk_modMember hs
  · exact memOk_modMember hs
  · exact memOk_modHc hs
  · exact memOk_modMember ((quiet_fillHandle ..).memOk hs)
  · exact memOk_modMember hs
  all_goals exact memOk_windowTile hs

theorem memOk_windowRead {s : State} {id : Nat} (hs : s.memOk) : (windowRead s id).memOk := by
  unfold windowRead
  split
  · exact hs
  exact memOk_ite hs hs

theorem memOk_demoteBegin {s : State} {part ent : Nat} (hs : s.memOk) : (demoteBegin s part ent).memOk := by
  unfold demoteBegin
  split
  · exact hs
  dsimp only
  split
  · exact hs
  exact memOk_ite hs (memOk_fenceEntries (memOk_swapWake (memOk_putMem64 _ _ ((quiet_reach (h := ‹_›) ..).memOk hs))))

theorem cellDrop_wf {m : List Host.Cell} (a : Nat) (h : Memory.wf m = true) : Memory.wf (cellDrop m a) = true := by
  rw [Memory.wf_iff] at h ⊢
  exact ⟨cellDrop_rising m a h.1, fun x hx => h.2 x (mem_cellDrop m a x hx)⟩

theorem foldl_cellDrop_wf {l m : List Host.Cell} (h : Memory.wf m = true) :
    Memory.wf (l.foldl (fun m x => cellDrop m x.1) m) = true := by
  induction l generalizing m with
  | nil => exact h
  | cons x l ih => exact ih (cellDrop_wf x.1 h)

theorem memOk_copyBlock {s : State} {src dst : Nat} (hs : s.memOk) : (copyBlock s src dst).memOk :=
  Memory.foldl_set_wf _ (fun x => dst + (x.1 - src)) (·.2) _ (foldl_cellDrop_wf hs)

theorem memOk_demoteEnd {s : State} {part ent frame : Nat} {expect : Word} (hs : s.memOk) :
    (demoteEnd s part ent frame expect).memOk := by
  unfold demoteEnd
  split
  · exact hs
  next u _ hr =>
    have hu := (quiet_reach (h := hr) ..).memOk hs
    extract_lets new
    split
    · have hf := memOk_fenceEntries (part := part) (page := ent) (size := 8) (eng := none) (mine := u.nextCmd)
        (bound := u.nextCmd) hu
      exact memOk_ite hf (memOk_ite (memOk_fenceEntries (memOk_swapWake (memOk_putMem64 _ _ (memOk_copyBlock hf))))
        (memOk_swapWake (memOk_putMem64 _ _ (memOk_copyBlock hf))))
    · exact hs

theorem memOk_farLink {s : State} {hop port : Nat} {dsts : List Nat} (hs : s.memOk) : (farLink s hop port dsts).memOk :=
  hs

theorem memOk_readBytes {s : State} {f : Nat → Byte} {off n : Nat} (hs : s.memOk) : (readBytes s f off n).memOk :=
  hs

theorem memOk_nodeRead {s : State} {off n : Nat} (hs : s.memOk) : (nodeRead s off n).memOk :=
  memOk_ite hs (memOk_readBytes hs)

theorem memOk_mgmtRead {s : State} {off n : Nat} (hs : s.memOk) : (mgmtRead s off n).memOk :=
  memOk_readBytes hs

theorem memOk_hostErr {s : State} {part : Nat} (hs : s.memOk) : (hostErr s part).memOk :=
  (quiet_modPart ..).memOk hs

theorem memOk_submitRequest {s : State} {part slot : Nat} {d : List Byte} (hs : s.memOk) :
    (submitRequest s part slot d).memOk := by
  unfold submitRequest
  split
  · exact hs
  dsimp only
  refine memOk_ite (memOk_hostErr hs) ?_
  split
  · exact memOk_hostErr hs
  exact (quiet_modPart ..).memOk ((quiet_reach (h := ‹_›) ..).memOk hs)

theorem memOk_slotWrite {s : State} {part slot off : Nat} {d : List Byte} (hs : s.memOk) :
    (slotWrite s part slot off d).memOk := by
  unfold slotWrite
  split
  · exact hs
  refine memOk_ite hs (memOk_ite (memOk_hostErr hs) ?_)
  split
  · dsimp only
    exact memOk_submitRequest ((quiet_modPart ..).memOk hs)
  dsimp only
  exact (quiet_modPart ..).memOk hs

theorem memOk_poolDefect {s : State} {core cell : Nat} {bits level : W32} (hs : s.memOk) :
    (poolDefect s core cell bits level).memOk := by
  unfold poolDefect
  dsimp only
  exact memOk_wireAll ((quiet_setCore ..).memOk hs)

theorem memOk_registerDefect {s : State} {core slot n : Nat} {bits level : Word} (hs : s.memOk) :
    (registerDefect s core slot n bits level).memOk := by
  unfold registerDefect
  dsimp only
  exact memOk_wireAll ((quiet_setCore ..).memOk hs)

theorem memOk_scrubPass {s : State} (hs : s.memOk) : (scrubPass s).memOk :=
  hs

theorem memOk_runAct {a : Act} {s : State} (hs : s.memOk) : (runAct a s).memOk := by
  unfold runAct
  refine memOk_ite hs ?_
  split
  · exact memOk_windowAct hs
  · exact memOk_windowRead hs
  · exact memOk_demoteBegin hs
  · exact memOk_demoteEnd hs
  · exact memOk_farLink hs
  · exact memOk_nodeRead hs
  · exact memOk_mgmtRead hs
  · exact memOk_slotWrite hs
  · exact memOk_poolDefect hs
  · exact memOk_registerDefect hs
  · exact memOk_scrubPass hs
  exact memOk_ite (memOk_repairRow hs) hs

theorem memOk_issueOne {i : Instr} {s t : State} (hs : s.memOk) (h : issueOne i s = .next t) : t.memOk := by
  unfold issueOne at h
  split at h
  · cases h
  cases h
  exact memOk_issueBundle hs

theorem memOk_armNode {s : State} {part node : Nat} {l : List Byte} (hs : s.memOk) : (armNode s part node l).memOk := by
  unfold armNode
  split
  · exact hs
  dsimp only
  refine memOk_ite hs (memOk_ite ((quiet_modPart ..).memOk hs) ?_)
  split
  · exact (quiet_raiseEvent ..).memOk (memOk_failRegens ((quiet_modPart ..).memOk hs))
  split
  · exact (quiet_modPart ..).memOk hs
  exact memOk_ite ((quiet_noteAdd ..).memOk ((quiet_modPart ..).memOk hs)) ((quiet_modPart ..).memOk hs)

theorem memOk_disarmNode {s : State} {part node : Nat} (hs : s.memOk) : (disarmNode s part node).memOk := by
  unfold disarmNode
  split
  · exact hs
  split
  · exact memOk_freeNode hs
  · exact memOk_freeNode hs
  · exact memOk_freeNode hs
  · exact memOk_modNode hs
  · exact memOk_modNode hs
  · exact memOk_modNode hs
  exact hs

theorem memOk_resumePart {s : State} {part : Nat} (hs : s.memOk) : (resumePart s part).memOk :=
  (quiet_modPart ..).memOk hs

theorem memOk_releaseByRuntime {s : State} {part : Nat} {node : Option Nat} (hs : s.memOk) :
    (releaseByRuntime s part node).memOk := by
  unfold releaseByRuntime
  split
  · split
    · exact memOk_ite (memOk_resumePart (memOk_freeNode hs)) hs
    exact hs
  exact (quiet_modPart ..).memOk hs

theorem memOk_countDown {s : State} {part va : Nat} (hs : s.memOk) : (countDown s part va).memOk := by
  unfold countDown
  refine memOk_ite hs ?_
  split
  · dsimp only
    exact (quiet_writeImm ..).memOk ((quiet_reach (h := ‹_›) ..).memOk hs)
  exact hs

theorem memOk_copyShared {s : State} {id : Nat} {frame : Option (Nat × Nat)} (hs : s.memOk) :
    (copyShared s id frame).memOk := by
  unfold copyShared
  split
  · exact hs
  split
  · exact hs
  refine memOk_ite hs ?_
  split
  · exact memOk_holdHc hs
  dsimp only
  split
  · exact memOk_holdHc hs
  split
  · exact memOk_ite hs (memOk_ite (memOk_fenceEntries ((quiet_reach (h := ‹_›) ..).memOk hs))
      (memOk_resumeHc (memOk_countDown (memOk_swapWake (memOk_putMem64 _ _
      (memOk_copyBlock (memOk_fenceEntries ((quiet_reach (h := ‹_›) ..).memOk hs))))))))
  exact memOk_holdHc hs

theorem memOk_invalidate {s : State} {part : Nat} {stage2 : Bool} {lo len ctr : Nat} (hs : s.memOk) :
    (invalidate s part stage2 lo len ctr).memOk := by
  unfold invalidate
  split
  · exact hs
  · exact hs

theorem memOk_windowWrite {s : State} {part off : Nat} {d : List Byte} (hs : s.memOk) :
    (windowWrite s part off d).memOk := by
  unfold windowWrite
  refine memOk_ite (memOk_hostErr hs) ?_
  dsimp only
  split
  · exact (quiet_raiseEvent ..).memOk (memOk_hostErr hs)
  exact memOk_ite ((quiet_raiseEvent ..).memOk (memOk_hostErr hs))
    ((quiet_counterAdd ..).memOk ((quiet_reach (h := ‹_›) ..).memOk hs))

theorem memOk_hostAccess {s : State} {a : Nat} {op : HostOp} (hs : s.memOk) : (hostAccess s a op).memOk := by
  rw [hostAccess]
  refine memOk_ite hs ?_
  cases op with
  | read n =>
    extract_lets pa who u
    exact memOk_ite ((quiet_arrive ..).memOk hs) hs
  | write d poison =>
    exact memOk_ite hs (memOk_ite ((quiet_writeNow ..).memOk ((quiet_errorRecord ..).memOk hs))
      ((quiet_writeNow ..).memOk hs))

theorem memOk_msixWrite {s : State} {off : Nat} {d : List Byte} (hs : s.memOk) : (msixWrite s off d).memOk := by
  unfold msixWrite
  refine memOk_ite hs (memOk_foldl (fun _ _ h => memOk_ite ?_ h) hs)
  dsimp only
  exact memOk_ite (memOk_sendMsix h) h

theorem memOk_discardWrite {s : State} {_off : Nat} {_d : List Byte} (hs : s.memOk) : (discardWrite s _off _d).memOk :=
  hs

theorem memOk_measurePart {s : State} {c : PartCfg} (hs : s.memOk) : (measurePart s c).memOk :=
  hs

theorem memOk_clearClusters {s : State} {g : BitVec 48} (hs : s.memOk) : (clearClusters s g).memOk :=
  memOk_foldl (fun _ _ h => memOk_ite ((quiet_setCore ..).memOk h) h) hs

theorem memOk_createPart {s : State} {part : Nat} {c : PartCfg} (hs : s.memOk) : (createPart s part c).memOk :=
  memOk_ite hs (memOk_measurePart (memOk_setPart (memOk_clearClusters hs)))

theorem memOk_changePart {s : State} {part : Nat} {c : PartCfg} (hs : s.memOk) : (changePart s part c).memOk := by
  unfold changePart
  split
  · exact hs
  dsimp only
  exact memOk_ite hs (memOk_measurePart ((quiet_modPart ..).memOk (memOk_clearClusters hs)))

theorem memOk_destroyPart {s : State} {part : Nat} (hs : s.memOk) : (destroyPart s part).memOk := by
  unfold destroyPart
  split
  · exact hs
  · refine memOk_ite hs ?_
    unfold State.memOk
    rw [clearClusters_mem, removeHcs_mem]
    exact hs

theorem memOk_combineSizes {s : State} {die nt na ns : Nat} (hs : s.memOk) : (combineSizes s die nt na ns).memOk := by
  unfold combineSizes
  split
  · exact hs
  dsimp only
  exact memOk_ite ((quiet_modDie ..).memOk hs) hs

theorem memOk_setPackage {s : State} {id : BitVec 10} (hs : s.memOk) : (setPackage s id).memOk :=
  memOk_ite (Memory.foldl_set_wf _ (fun x => id.toNat * 2 ^ 48 + localPa x.1) (·.2) _ Memory.nil_wf) hs

theorem memOk_managerRequest {s : State} {r : ManagerReq} (hs : s.memOk) : (managerRequest s r).memOk := by
  unfold managerRequest
  refine memOk_ite hs ?_
  split
  · exact memOk_createPart hs
  · exact memOk_changePart hs
  · exact memOk_destroyPart hs
  · exact (quiet_modPart ..).memOk hs
  · exact memOk_combineSizes hs
  · exact memOk_setPackage hs
  · exact (quiet_setCore ..).memOk hs
  exact (quiet_modDie ..).memOk hs

theorem memOk_loadRoutes {s : State} {l : List (Nat × BitVec 32)} (hs : s.memOk) : (loadRoutes s l).memOk :=
  memOk_ite hs hs

theorem memOk_reply {s : State} {dst : BitVec 10} {d : List Byte} {poison : Bool} (hs : s.memOk) :
    (reply s dst d poison).memOk :=
  hs

theorem memOk_fabricData {s : State} {src : BitVec 10} {pa : Nat} {poison : Bool} (hs : s.memOk) :
    (fabricData s src pa poison).1.memOk := by
  unfold fabricData
  split
  · dsimp only
    exact (quiet_errorRecord ..).memOk hs
  exact hs

theorem memOk_fabricFe {s : State} {src : BitVec 10} {pa : Nat} {op : BitVec 6} {sd : Word} {poison : Bool}
    (hs : s.memOk) : (fabricFe s src pa op sd poison).memOk := by
  unfold fabricFe
  extract_lets who l lost tryIt
  have htry : ∀ {k}, (tryIt k).memOk := by
    intro k
    unfold tryIt
    dsimp only
    split
    next h => exact memOk_reply ((quiet_feAttempt (h := h) ..).memOk (memOk_fabricData hs))
    · exact hs
  clear_value tryIt lost
  split
  · exact htry
  · exact htry
  · exact htry
  · exact memOk_ite ((quiet_loseImm ..).memOk hs) ((quiet_locSetFull ..).memOk hs)
  · exact memOk_ite (memOk_reply ((quiet_locArrive ..).memOk hs)) (memOk_reply hs)
  · exact hs

theorem memOk_fabricServe {s : State} {src : BitVec 10} {pa : Nat} {op : FabricOp} (hs : s.memOk) :
    (fabricServe s src pa op).memOk := by
  unfold fabricServe
  extract_lets who w
  refine memOk_ite hs ?_
  split
  · exact memOk_reply ((quiet_arrive ..).memOk hs)
  · exact (quiet_writeNow ..).memOk (memOk_fabricData hs)
  · dsimp only
    have hd {src pa poison} := memOk_fabricData (src := src) (pa := pa) (poison := poison)
      ((quiet_arrive s who w 8).memOk hs)
    refine memOk_reply ?_
    split
    · exact (quiet_writeNow ..).memOk hd
    · exact hd
  · exact memOk_fabricFe hs
  · exact (quiet_counterAdd ..).memOk (memOk_fabricData hs)
  · exact memOk_ite (memOk_reply ((quiet_arrive ..).memOk hs)) (memOk_ite (memOk_reply hs) hs)

theorem memOk_corrected {s : State} {e : ErrSite} (hs : s.memOk) : (corrected s e).memOk :=
  (quiet_modDie ..).memOk hs

theorem memOk_crcRetry {s : State} {port : Nat} (hs : s.memOk) : (crcRetry s port).memOk :=
  memOk_ite (memOk_corrected hs) hs

theorem memOk_failLink {s : State} {port : Nat} (hs : s.memOk) : (failLink s port).memOk := by
  unfold failLink
  refine memOk_ite ?_ hs
  dsimp only
  exact (quiet_errorRecord ..).memOk hs

theorem memOk_failCxl {s : State} {port : Nat} (hs : s.memOk) : (failCxl s port).memOk := by
  unfold failCxl
  refine memOk_ite ?_ hs
  dsimp only
  exact (quiet_errorRecord ..).memOk hs

theorem memOk_poisonMem {s : State} {a : Nat} {t : BitVec 12} (hs : s.memOk) : (poisonMem s a t).memOk := by
  unfold poisonMem
  dsimp only
  exact (quiet_setMemTag ..).memOk ((quiet_putMem ..).memOk hs)

theorem memOk_poisonComb {s : State} {die : Nat} {t : BitVec 12} (hs : s.memOk) : (poisonComb s die t).memOk :=
  (quiet_modDie ..).memOk hs

theorem memOk_poisonStaged {s : State} {part node w : Nat} {t : BitVec 12} (hs : s.memOk) :
    (poisonStaged s part node w t).memOk :=
  (quiet_modInst ..).memOk hs

theorem memOk_poisonWord {s : State} {a : Nat} {t : BitVec 12} (hs : s.memOk) : (poisonWord s a t).memOk := by
  unfold poisonWord
  dsimp only
  split
  · exact memOk_poisonStaged hs
  exact memOk_poisonMem hs

theorem memOk_poisonL1 {s : State} {core w : Nat} {t : BitVec 12} (hs : s.memOk) : (poisonL1 s core w t).memOk := by
  unfold poisonL1
  dsimp only
  split
  · exact memOk_poisonWord hs
  exact hs

theorem memOk_poisonPool {s : State} {core bank row : Nat} {t : BitVec 12} (hs : s.memOk) :
    (poisonPool s core bank row t).memOk := by
  unfold poisonPool
  dsimp only
  exact memOk_ite hs (memOk_ite ((quiet_setCore ..).memOk hs)
    (memOk_ite ((quiet_setCore ..).memOk hs) (memOk_poisonL1 hs)))

theorem memOk_poisonBlock {s : State} {core o b : Nat} {t : BitVec 12} (hs : s.memOk) :
    (poisonBlock s core o b t).memOk := by
  unfold poisonBlock
  dsimp only
  exact (quiet_setCore ..).memOk hs

theorem memOk_poisonElem {s : State} {core a row : Nat} {t : BitVec 12} (hs : s.memOk) :
    (poisonElem s core a row t).memOk := by
  unfold poisonElem
  dsimp only
  exact (quiet_setCore ..).memOk hs

theorem memOk_poisonStage {s : State} {part a : Nat} {t : BitVec 12}
    (hs : s.memOk) : (poisonStage s part a t).memOk := by
  unfold poisonStage
  dsimp only
  split
  · exact memOk_poisonStaged hs
  exact hs

theorem memOk_strike {s : State} {e : ErrSite} {t : BitVec 12} (hs : s.memOk) : (strike s e t).memOk := by
  unfold strike
  split
  · dsimp only
    exact memOk_ite (memOk_poisonMem hs) (memOk_poisonComb hs)
  · dsimp only
    exact memOk_poisonPool hs
  · dsimp only
    exact memOk_poisonBlock hs
  · dsimp only
    exact memOk_poisonElem hs
  · dsimp only
    exact hs
  · dsimp only
    exact hs
  dsimp only
  split
  · exact memOk_poisonStage hs
  exact memOk_poisonWord hs

theorem memOk_uncorrected {s : State} {e : ErrSite} (hs : s.memOk) : (uncorrected s e).memOk :=
  memOk_ite hs (memOk_strike ((quiet_errorRecord ..).memOk hs))

theorem memOk_scrubFix {s : State} {e : ErrSite} (hs : s.memOk) : (scrubFix s e).memOk := by
  unfold scrubFix
  dsimp only
  exact memOk_ite (memOk_corrected hs) (memOk_ite (memOk_takeOut
    ((quiet_errorRecord ..).memOk ((quiet_setCore ..).memOk (memOk_corrected hs))))
    ((quiet_setCore ..).memOk (memOk_corrected hs)))

theorem memOk_scrub {s : State} {e : ErrSite} {f : ScrubFinding} (hs : s.memOk) : (scrub s e f).memOk := by
  unfold scrub
  split
  · exact hs
  · exact memOk_scrubFix hs
  exact memOk_ite (memOk_uncorrected hs) hs

theorem memOk_checkedFail {s : State} {id mem : Nat} (hs : s.memOk) : (checkedFail s id mem).memOk := by
  unfold checkedFail
  split
  · exact hs
  split
  · exact hs
  split
  · refine memOk_ite ?_ hs
    dsimp only
    exact memOk_failCommit (memOk_setNState (memOk_modMember hs))
  exact hs

theorem memOk_pairMismatch {s : State} {die pair : Nat} (hs : s.memOk) : (pairMismatch s die pair).memOk := by
  unfold pairMismatch
  split
  · exact hs
  split
  · refine memOk_ite hs (memOk_ite ((quiet_modDie ..).memOk hs) ?_)
    dsimp only
    exact (quiet_errorRecord ..).memOk ((quiet_modDie ..).memOk hs)
  exact hs

theorem memOk_wear {s : State} {die : Nat} {poh eolh : BitVec 32} (hs : s.memOk) : (wear s die poh eolh).memOk := by
  unfold wear
  split
  · exact hs
  dsimp only
  exact memOk_ite ((quiet_modDie ..).memOk hs) ((quiet_modDie ..).memOk hs)

theorem memOk_setCap {s : State} {cap : Nat} (hs : s.memOk) : (setCap s cap).memOk :=
  hs

theorem memOk_measureReport {s : State} (hs : s.memOk) : (measureReport s).memOk :=
  memOk_ite hs hs

theorem memOk_reset : (State.reset).memOk :=
  Memory.nil_wf

theorem memOk_resetDevice {s : State} {image : List Byte} : (resetDevice s image).memOk := by
  unfold resetDevice
  split
  · exact memOk_reset
  · exact memOk_reset

end Sys2Proof.Machine
end

section
/-! The form of memory: every event and every instruction, and so every step. -/

namespace Sys2Proof.Machine

theorem memOk_answerHeld {s : State} {id : Nat} {halt : Bool} (hs : s.memOk) : (answerHeld s id halt).memOk := by
  unfold answerHeld
  split
  · exact hs
  refine memOk_ite hs (memOk_ite ?_ (memOk_repairResume hs))
  split
  · exact memOk_ite (memOk_haltNode (memOk_faultLog hs)) (memOk_haltNode hs)
  exact memOk_haltNode hs

theorem memOk_next {u t : State} (hu : u.memOk)
    (h : (Host.Outcome.next u : Host.Outcome State Fault Refusal) = .next t) :
    t.memOk :=
  Host.Outcome.next.inj h ▸ hu

theorem memOk_runEvent {e : Event} {s t : State} (hs : s.memOk) (h : runEvent e s = .next t) : t.memOk := by
  cases e
  case lateResultLand => exact memOk_next (memOk_landLate hs) h
  case overlayLoad => exact memOk_next (memOk_overlayStep hs) h
  case engineWaitEnd => exact memOk_next (memOk_waitEnd hs) h
  case contextSelect => exact memOk_next (memOk_selectOn hs) h
  case feRetryAttempt => exact memOk_next (memOk_retryFe hs) h
  case feBudget => exact memOk_next (memOk_retryFe hs) h
  case streamReadAhead => exact memOk_next (memOk_readAhead hs) h
  case streamOutputWrite => exact memOk_next (memOk_writeOldest hs) h
  case matrixQueuePerform => exact memOk_next (memOk_matPerform hs) h
  case functionQueuePerform => exact memOk_next (memOk_fnPerform hs) h
  case copyQueuePerform => exact memOk_next (memOk_copyPerform hs) h
  case cpyredAdmit => exact memOk_next (memOk_admitRound hs) h
  case jobQueuePerform => exact memOk_next (memOk_jobPerform hs) h
  case combineQueuePerform => exact memOk_next (memOk_combPerform hs) h
  case tokenRelease => exact memOk_next (memOk_tokenRelease hs) h
  case combineTimeout => exact memOk_next (memOk_combTimeout hs) h
  case ringTimerExpiry => exact memOk_next (memOk_timerExpiry hs) h
  case drainPointStop => exact memOk_next (memOk_drainStop hs) h
  case forcedStop => exact memOk_next (memOk_forceStop hs) h
  case preemptStopTimeout => exact memOk_next (memOk_preemptTimeout hs) h
  case contextSaveDone => exact memOk_next (memOk_saveDone hs) h
  case contextRestore => exact memOk_next (memOk_restoreCtx hs) h
  case herdRetire => exact memOk_next (memOk_retire hs) h
  case nodeCommit => exact memOk_next (memOk_commitNode hs) h
  case stagingExhausted => exact memOk_next (memOk_stagingOut hs) h
  case nodeFire => exact memOk_next (memOk_fireNode hs) h
  case nodePlace => exact memOk_next (memOk_placeHead hs) h
  case copyNodeRun => exact memOk_next (memOk_runCopyNode hs) h
  case counterNodeRun => exact memOk_next (memOk_runCounterNode hs) h
  case conditionalNodeRun => exact memOk_next (memOk_runConditionalNode hs) h
  case regenFault => exact memOk_next (memOk_regenStep hs) h
  case trapRecordTake => exact memOk_next (memOk_takeRecord hs) h
  case wakeServe => exact memOk_next (memOk_serveWake hs) h
  case handleRetranslate => exact memOk_next (memOk_handleAgain hs) h
  case invalidateComplete => exact memOk_next (memOk_invalidateDone hs) h
  case loadRequest => exact memOk_next (memOk_serveLoad hs) h
  case unloadRequest => exact memOk_next (memOk_serveUnload hs) h
  case stopRequest => exact memOk_next (memOk_serveStop hs) h
  case restoreRequest => exact memOk_next (memOk_serveRestore hs) h

theorem memOk_exec {i : Instr} {s t : State} (hs : s.memOk) (h : exec i s = .next t) : t.memOk := by
  cases i
  case lateResultLand => exact memOk_next (memOk_landLate hs) h
  case overlayLoad => exact memOk_next (memOk_overlayStep hs) h
  case engineWaitEnd => exact memOk_next (memOk_waitEnd hs) h
  case contextSelect => exact memOk_next (memOk_selectOn hs) h
  case feRetryAttempt => exact memOk_next (memOk_retryFe hs) h
  case feBudget => exact memOk_next (memOk_retryFe hs) h
  case repairEntryWrite => exact memOk_next (memOk_repairStore hs) h
  case streamReadAhead => exact memOk_next (memOk_readAhead hs) h
  case streamOutputWrite => exact memOk_next (memOk_writeOldest hs) h
  case matrixQueuePerform => exact memOk_next (memOk_matPerform hs) h
  case functionQueuePerform => exact memOk_next (memOk_fnPerform hs) h
  case copyQueuePerform => exact memOk_next (memOk_copyPerform hs) h
  case cpyredAdmit => exact memOk_next (memOk_admitRound hs) h
  case jobQueuePerform => exact memOk_next (memOk_jobPerform hs) h
  case tokenRelease => exact memOk_next (memOk_tokenRelease hs) h
  case combineTimeout => exact memOk_next (memOk_combTimeout hs) h
  case ringTimerExpiry => exact memOk_next (memOk_timerExpiry hs) h
  case drainPointStop => exact memOk_next (memOk_drainStop hs) h
  case forcedStop => exact memOk_next (memOk_forceStop hs) h
  case preemptStopTimeout => exact memOk_next (memOk_preemptTimeout hs) h
  case contextSaveDone => exact memOk_next (memOk_saveDone hs) h
  case contextRestore => exact memOk_next (memOk_restoreCtx hs) h
  case herdRetire => exact memOk_next (memOk_retire hs) h
  case nodeCommit => exact memOk_next (memOk_commitNode hs) h
  case stagingExhausted => exact memOk_next (memOk_stagingOut hs) h
  case nodeFire => exact memOk_next (memOk_fireNode hs) h
  case nodePlace => exact memOk_next (memOk_placeHead hs) h
  case copyNodeRun => exact memOk_next (memOk_runCopyNode hs) h
  case counterNodeRun => exact memOk_next (memOk_runCounterNode hs) h
  case conditionalNodeRun => exact memOk_next (memOk_runConditionalNode hs) h
  case descriptorArm => exact memOk_next (memOk_armNode hs) h
  case descriptorDisarm => exact memOk_next (memOk_disarmNode hs) h
  case runtimeRelease => exact memOk_next (memOk_releaseByRuntime hs) h
  case regenFault => exact memOk_next (memOk_regenStep hs) h
  case trapRecordTake => exact memOk_next (memOk_takeRecord hs) h
  case wakeServe => exact memOk_next (memOk_serveWake hs) h
  case handleRetranslate => exact memOk_next (memOk_handleAgain hs) h
  case copyOnWrite => exact memOk_next (memOk_copyShared hs) h
  case translationInvalidate => exact memOk_next (memOk_invalidate hs) h
  case invalidateComplete => exact memOk_next (memOk_invalidateDone hs) h
  case counterAddWindow => exact memOk_next (memOk_windowWrite hs) h
  case hostMemoryAccess => exact memOk_next (memOk_hostAccess hs) h
  case requestSlotSubmit => exact memOk_next (memOk_submitRequest hs) h
  case loadRequest => exact memOk_next (memOk_serveLoad hs) h
  case unloadRequest => exact memOk_next (memOk_serveUnload hs) h
  case stopRequest => exact memOk_next (memOk_serveStop hs) h
  case restoreRequest => exact memOk_next (memOk_serveRestore hs) h
  case msixTableWrite => exact memOk_next (memOk_msixWrite hs) h
  case managementWriteOther => exact memOk_next (memOk_discardWrite hs) h
  case partitionRequest => exact memOk_next (memOk_managerRequest hs) h
  case routeTableLoad => exact memOk_next (memOk_loadRoutes hs) h
  case fabricRequest => exact memOk_next (memOk_fabricServe hs) h
  case linkCrcRetry => exact memOk_next (memOk_crcRetry hs) h
  case linkFail => exact memOk_next (memOk_failLink hs) h
  case cxlLinkFail => exact memOk_next (memOk_failCxl hs) h
  case uncorrectedError => exact memOk_next (memOk_uncorrected hs) h
  case correctedError => exact memOk_next (memOk_corrected hs) h
  case scrubRead => exact memOk_next (memOk_scrub hs) h
  case checkedMismatch => exact memOk_next (memOk_checkedFail hs) h
  case markhorPairMismatch => exact memOk_next (memOk_pairMismatch hs) h
  case wearUpdate => exact memOk_next (memOk_wear hs) h
  case powerCapChange => exact memOk_next (memOk_setCap hs) h
  case measurementReport => exact memOk_next (memOk_measureReport hs) h
  case reset => exact memOk_next memOk_resetDevice h
  case combineQueuePerform => exact memOk_next (memOk_combPerform hs) h
  case runtimeResumeRequest => exact memOk_next (memOk_answerHeld hs) h
  all_goals exact memOk_issueOne hs h

theorem memOk_hcStep {s t : State} {id : Nat} (hs : s.memOk) (h : hcStep s id = .next t) : t.memOk := by
  unfold hcStep at h
  split at h
  · exact memOk_next hs h
  · exact memOk_runEvent hs h
  · exact memOk_exec (s := { s with cur := some id }) hs h
  · exact memOk_next (memOk_fetchFault hs) h
  · exact memOk_next (memOk_issueUndecoded hs) h

theorem memOk_nextTurn {s : State} (hs : s.memOk) : (nextTurn s).2.memOk := by
  unfold nextTurn
  split
  · exact memOk_settleDeep hs
  · exact memOk_settleDeep hs

theorem memOk_step {s t : State} (hs : s.memOk) (h : step s = .next t) : t.memOk := by
  have hturn := memOk_nextTurn hs
  unfold step at h
  split at h
  next hn => rw [hn] at hturn; exact memOk_next hturn h
  next hn => rw [hn] at hturn; exact memOk_runEvent hturn h
  next hn => rw [hn] at hturn; exact memOk_next (memOk_runAct hturn) h
  next hn => rw [hn] at hturn; exact memOk_exec hturn h
  next hn => rw [hn] at hturn; exact memOk_hcStep hturn h

end Sys2Proof.Machine

namespace Sys2Proof.Claims
open Sys2Proof.Machine

/-- Settles O60: whatever moves next, it writes memory only through the operations that keep its form. -/
theorem everyStepKeepsTheFormOfMemory : Obligations.EveryStepKeepsTheFormOfMemory :=
  fun _ _ hs h => memOk_step hs h

end Sys2Proof.Claims
end

section
/-! The loader's requests (O49): what each serve of a partition's oldest request is, by its kind. -/

namespace Sys2Proof.Machine
open Sys2Proof.Claims

variable {s : State} {part k : Nat} {l : List Byte}

/-- A partition whose oldest request can be taken waits for no stop. -/
theorem stopWait_of_headRequest {x : Nat × List Byte} (hq : headRequest s part = some x) :
    (s.part? part).bind (·.stopWait) = none := by
  unfold headRequest at hq
  split at hq
  · cases hq
  next hp =>
    split at hq
    next hw _ => rw [hp]; exact hw
    · cases hq

theorem serveLoad_of_head (hq : headRequest s part = some (k, l)) (hk : leAt l 32 1 < 2) :
    serveLoad s part = runLoad (takeRequest s part k) part (LoadReq.ofBytes l (decide (16 ≤ k))) := by
  simp only [serveLoad, hq, if_pos hk]
  rfl

theorem serveUnload_of_head (hq : headRequest s part = some (k, l)) (hk : leAt l 32 1 = 0x40) :
    serveUnload s part = runUnload (takeRequest s part k) part l := by
  simp only [serveUnload, hq, if_pos hk]

/-- Every cause of the first step is one of the numbers that the loader reports, and none of them is 0. -/
theorem loadStep1_cause_ne_zero {q : LoadReq} {c : Nat} (h : loadStep1 s part q = .error c) : c ≠ 0 := by
  unfold loadStep1 at h
  repeat' split at h
  all_goals
    cases h
  all_goals decide

theorem runLoad_of_refused {p : Part} {q : LoadReq} {c : Nat} (hp : s.part? part = some p)
    (h : loadStep1 s part q = .error c) :
    runLoad s part q = loadPosted ⟨spoilRegion s part q.dbase q.dlen, c, 0, 0, []⟩ part q := by
  simp only [runLoad, hp, h, if_neg (loadStep1_cause_ne_zero h)]
  rfl

theorem runLoad_of_loaded {p : Part} {q : LoadReq} {u : State} {obj : List Byte} (hp : s.part? part = some p)
    (h : loadStep1 s part q = .ok (u, obj)) (hc : (loadRest u part p q obj).cause = 0) :
    runLoad s part q = loadPosted (loadRest u part p q obj) part q := by
  simp only [runLoad, hp, h, if_pos hc]
  rfl

theorem runLoad_of_failed {p : Part} {q : LoadReq} {u : State} {obj : List Byte} (hp : s.part? part = some p)
    (h : loadStep1 s part q = .ok (u, obj)) (hc : (loadRest u part p q obj).cause ≠ 0) :
    runLoad s part q = loadPosted { loadRest u part p q obj with
      s := spoilRegion (loadRest u part p q obj).s part q.dbase q.dlen } part q := by
  simp only [runLoad, hp, h, if_neg hc]
  rfl

/-- The end of an unload (R333): handle and status, and the add. -/
def unloadPosted (s : State) (part : Nat) (l : List Byte) (st : Nat) : State :=
  addVa (writeRange s part (leAt l 48 8) (wordsBytes [BitVec.ofNat 64 (leAt l 0 8), BitVec.ofNat 64 st])) part
    (BitVec.ofNat 64 (leAt l 56 8)) 1

/-- A partition without the images of a handle, and the cores without the overlays that no image holds any more. -/
def unloaded (s : State) (part : Nat) (p : Part) (h : Word) : State :=
  let s := s.setPart part { p with images := p.images.filter (·.handle != h) }
  let gone := (p.images.filter (·.handle == h)).map (·.digest)
  let kept := s.parts.flatMap fun (_, p) => p.images.map (·.digest)
  { s with cores := s.cores.map fun (k, c) =>
      (k, { c with overlays := c.overlays.filter fun (d, _) => !gone.contains d || kept.contains d }) }

theorem unloaded_part {p : Part} {h : Word} :
    (unloaded s part p h).part? part = some { p with images := p.images.filter (·.handle != h) } :=
  aget_aset_same ..

theorem runUnload_of_refused {p : Part} (hp : s.part? part = some p) (hst : unloadStatus s part p l ≠ 0) :
    runUnload s part l = unloadPosted s part l (unloadStatus s part p l) := by
  simp only [runUnload, hp, if_pos hst]
  rfl

theorem runUnload_of_unloaded {p : Part} (hp : s.part? part = some p) (hst : unloadStatus s part p l = 0) :
    runUnload s part l = unloadPosted (unloaded s part p (BitVec.ofNat 64 (leAt l 0 8))) part l 0 := by
  simp only [runUnload, hp, hst, if_neg (not_not_intro rfl : ¬ (0 : Nat) ≠ 0)]
  rfl

theorem serveStop_of_head {id : Nat} {h : HerdCtx} (hq : headRequest s part = some (k, l)) (hk : leAt l 32 1 = 0x80 ∧ leAt l 16 1 = 1)
    (hat : atPosition (takeRequest s part k) part (leAt l 0 8) (leAt l 8 8) = some (id, h))
    (hst : stoppable (takeRequest s part k) h = true) :
    serveStop s part = ((takeRequest s part k).setHc id { h with stop := some .forced, noRestore := true }).modPart part
      fun p => { p with stopWait := some (id, BitVec.ofNat 64 (leAt l 56 8)) } := by
  simp only [serveStop, stopWait_of_headRequest hq, hq, if_pos hk, hat, if_pos hst]

theorem serveRestore_of_head {id : Nat} {h : HerdCtx} (hq : headRequest s part = some (k, l)) (hk : leAt l 32 1 = 0x80 ∧ leAt l 16 1 = 2)
    (hat : atPosition (takeRequest s part k) part (leAt l 0 8) (leAt l 8 8) = some (id, h)) (hst : h.hstate = .saved)
    (hsave : h.saving = false) (hno : h.noRestore = true) :
    serveRestore s part = addVa (((takeRequest s part k).setHc id { h with noRestore := false }).modPart part
      fun p => { p with restore := p.restore ++ [id] }) part (BitVec.ofNat 64 (leAt l 56 8)) 1 := by
  simp only [serveRestore, hq, if_pos hk, hat, hst, hsave, hno]
  rfl

end Sys2Proof.Machine

namespace Sys2Proof.Claims
open Sys2Proof.Machine

/-- Settles O49: a request at the head of its partition's queue waits for no stop, and each of the four serves then runs the
part of the loader that its kind names. -/
theorem requestsAreCarriedOut : Obligations.RequestsAreCarriedOut := by
  intro s part k l hq t
  refine ⟨?load, ?refused, ?unload, ?stop, ?restore⟩
  case load =>
    intro p hk hp q
    have hserve : exec (.loadRequest part) s = .next (runLoad t part q) := congrArg Host.Outcome.next (serveLoad_of_head hq hk)
    rw [hserve]
    exact ⟨fun c h => congrArg Host.Outcome.next (runLoad_of_refused hp h), fun u obj h =>
      ⟨fun hc => congrArg Host.Outcome.next (runLoad_of_loaded hp h hc),
        fun hc => congrArg Host.Outcome.next (runLoad_of_failed hp h hc)⟩⟩
  case refused =>
    intro p hk hp hst
    exact congrArg Host.Outcome.next ((serveUnload_of_head hq hk).trans (runUnload_of_refused hp hst))
  case unload =>
    intro p hk hp hst
    refine ⟨unloaded t part p (BitVec.ofNat 64 (leAt l 0 8)),
      congrArg Host.Outcome.next ((serveUnload_of_head hq hk).trans (runUnload_of_unloaded hp hst)), ?_, rfl, rfl⟩
    rw [unloaded_part]
    rfl
  case stop =>
    intro id h hk hat hst
    exact congrArg Host.Outcome.next (serveStop_of_head hq hk hat hst)
  case restore =>
    intro id h hk hat hst hsave hno
    exact congrArg Host.Outcome.next (serveRestore_of_head hq hk hat hst hsave hno)

end Sys2Proof.Claims
end

section
/-! Errors and repairs (O51): what each poisoning leaves and where it puts the record's tag, and what a repair entry replaces. -/

namespace Sys2Proof.Machine
open Sys2Proof.Claims

/-! ### Records and counts (R418, R419, R427) -/

theorem uncorrected_of_listed {s : State} {e : ErrSite} (hc : e.cls.toNat < 12) (hd : e.die < s.dies.length) :
    uncorrected s e = strike (nextRecord s e.die e.cls 1 e.part.toNat e.unit e.loc e.detail) e (nextTag s e.die e.cls) :=
  if_neg (by omega)

theorem uncorrected_of_unlisted {s : State} {e : ErrSite} (h : 12 ≤ e.cls.toNat ∨ s.dies.length ≤ e.die) :
    uncorrected s e = s :=
  if_pos h

theorem State.modDie_dies_length (s : State) (d : Nat) (f : Die → Die) : (s.modDie d f).dies.length = s.dies.length := by
  unfold State.modDie
  split
  · exact lset_length ..
  · rfl

theorem corrected_core (s : State) (e : ErrSite) (k : Nat) : (corrected s e).core k = s.core k :=
  congrArg (fun l => (aget l k).getD Core.init) (State.modDie_cores ..)

theorem scrubFix_of_count {s : State} {e : ErrSite} (h : e.cls ≠ 5 ∨ s.dies.length ≤ e.die) :
    scrubFix s e = counted s e := by
  refine if_pos ?_
  rwa [corrected, State.modDie_dies_length]

/-- A corrected pool row is counted twice: for its unit, and for the row within the pass. -/
theorem scrubFix_pool {s : State} {e : ErrSite} (hc : e.cls = 5) (hd : e.die < s.dies.length) :
    scrubFix s e =
      let core := e.unit.toNat
      let row := (e.loc.extractLsb' 0 21).toNat
      let n := (aget (s.core core).fixes row).getD 0
      let t := (counted s e).setCore core { s.core core with fixes := aset (s.core core).fixes row (n + 1) }
      if n = 3 then takeOut (nextRecord t e.die 5 0 e.part.toNat e.unit e.loc e.detail) (5, e.die, e.unit, e.loc) e.loc
      else t := by
  have hgo : ¬ (e.cls ≠ 5 ∨ (corrected s e).dies.length ≤ e.die) := by
    rw [corrected, State.modDie_dies_length]
    rintro (h | h)
    · exact h hc
    · omega
  rw [scrubFix]
  dsimp only
  rw [if_neg hgo]
  simp only [corrected_core, hc, fixLimit, Nat.reduceEqDiff]
  rfl

theorem scrub_uncorrectable_of_read {s : State} {e : ErrSite} (hc : e.cls.toNat ∈ [0, 1, 3, 4, 5, 6, 7]) :
    scrub s e .uncorrectable = uncorrected s e :=
  if_pos (List.contains_iff_mem.mpr hc)

theorem scrub_uncorrectable_of_unread {s : State} {e : ErrSite} (hc : e.cls.toNat ∉ [0, 1, 3, 4, 5, 6, 7]) :
    scrub s e .uncorrectable = s :=
  if_neg fun h => hc (List.contains_iff_mem.mp h)

/-! ### Tags -/

/-- The tag of a record merged into another is a tag. -/
theorem mergeTag_some (g : Tag) (t : BitVec 12) : ∃ x, mergeTag g (some t) = some x := by
  cases g with
  | none => exact ⟨t, rfl⟩
  | some _ => exact ⟨_, rfl⟩

theorem aget_setMemTag_mergeTag (s : State) (a : Nat) (g : Tag) (t : BitVec 12) :
    aget (setMemTag s a (mergeTag g (some t))).memTag (a / 8) = mergeTag g (some t) := by
  obtain ⟨x, hx⟩ := mergeTag_some g t
  rw [hx]
  exact aget_aset_same ..

theorem Core.pairTag_setPairTag_mergeTag (c : Core) (a : Nat) (g : Tag) (t : BitVec 12) :
    (c.setPairTag a (mergeTag g (some t))).pairTag a = mergeTag g (some t) := by
  obtain ⟨x, hx⟩ := mergeTag_some g t
  rw [hx]
  exact aget_aset_same ..

/-! ### Words of memory and their staged copies -/

theorem poisonMem_tag (s : State) (a : Nat) (t : BitVec 12) :
    aget (poisonMem s a t).memTag (a / 8) = mergeTag (aget s.memTag (a / 8)) (some t) := by
  have h : aget (poisonMem s a t).memTag (a / 8 * 8 / 8) = mergeTag (aget s.memTag (a / 8 * 8 / 8)) (some t) :=
    aget_setMemTag_mergeTag ..
  rwa [Nat.mul_div_cancel _ (by omega)] at h

theorem poisonMem_other (s : State) (a b : Nat) (t : BitVec 12) (h : b / 8 ≠ a / 8) :
    Memory.get (poisonMem s a t).mem b = Memory.get s.mem b := by
  refine Memory.get_setBytes_other _ _ _ _ ?_
  simp only [corrupt, List.length_map, List.length_range]
  omega

/-- What the stagers of a word are (R191): the nodes that have staged a byte of it. -/
def copiesOf (s : State) (a : Nat) : List (Nat × Nat) := stagers s fun i => i.staged.any fun x => x.1 / 8 == a / 8

/-- A struck word of memory is the word itself or one of its staged copies. -/
theorem poisonWord_cases (s : State) (a : Nat) (t : BitVec 12) :
    poisonWord s a t = poisonMem s a t ∨ ∃ c ∈ copiesOf s a, poisonWord s a t = poisonStaged s c.1 c.2 (a / 8 * 8) t := by
  have hcopies : (stagers s fun i => i.staged.any fun (x, _) => x / 8 == a / 8 * 8 / 8) = copiesOf s a := by
    rw [Nat.mul_div_cancel _ (by omega)]
    rfl
  unfold poisonWord
  dsimp only
  split
  next p n h =>
    refine .inr ⟨(p, n), ?_, rfl⟩
    rw [← hcopies]
    simpa using List.mem_of_getElem? h
  next => exact .inl rfl

theorem poisonWord_of_no_copy {s : State} {a : Nat} (t : BitVec 12) (h : copiesOf s a = []) :
    poisonWord s a t = poisonMem s a t := by
  obtain hm | ⟨c, hc, -⟩ := poisonWord_cases s a t
  · exact hm
  · rw [h] at hc
    cases hc

theorem poisonStaged_frame (s : State) (p n w : Nat) (t : BitVec 12) :
    (poisonStaged s p n w t).mem = s.mem ∧ (poisonStaged s p n w t).memTag = s.memTag ∧
      (poisonStaged s p n w t).hctxs = s.hctxs ∧ (poisonStaged s p n w t).cores = s.cores :=
  ⟨State.modPart_mem .., State.modPart_memTag .., State.modPart_hctxs .., State.modPart_cores ..⟩

theorem poisonStaged_tag {s : State} {p n w : Nat} {i : Inst} (t : BitVec 12) (hi : s.inst? p n = some i) :
    ∃ j, (poisonStaged s p n w t).inst? p n = some j ∧
      aget j.stagedTag (w / 8) = some (mergeTag ((aget i.stagedTag (w / 8)).getD none) (some t)) := by
  rw [poisonStaged, State.inst_modInst_same, hi]
  exact ⟨_, rfl, aget_aset_same ..⟩

theorem poisonWord_frame (s : State) (a : Nat) (t : BitVec 12) :
    (poisonWord s a t).hctxs = s.hctxs ∧ (poisonWord s a t).cores = s.cores ∧
      ∀ b, b / 8 ≠ a / 8 → Memory.get (poisonWord s a t).mem b = Memory.get s.mem b := by
  obtain h | ⟨c, -, h⟩ := poisonWord_cases s a t
  · rw [h]
    exact ⟨rfl, rfl, fun b hb => poisonMem_other s a b t hb⟩
  · obtain ⟨hmem, -, hhc, hcores⟩ := poisonStaged_frame s c.1 c.2 (a / 8 * 8) t
    rw [h, hmem]
    exact ⟨hhc, hcores, fun _ _ => rfl⟩

theorem poisonStage_frame (s : State) (p a : Nat) (t : BitVec 12) :
    (poisonStage s p a t).mem = s.mem ∧ (poisonStage s p a t).memTag = s.memTag ∧
      (poisonStage s p a t).hctxs = s.hctxs ∧ (poisonStage s p a t).cores = s.cores := by
  unfold poisonStage
  dsimp only
  split
  · exact poisonStaged_frame ..
  · exact ⟨rfl, rfl, rfl, rfl⟩

theorem poisonL1_frame (s : State) (core w : Nat) (t : BitVec 12) :
    (poisonL1 s core w t).cores = s.cores ∧ (poisonL1 s core w t).hctxs = s.hctxs := by
  unfold poisonL1
  dsimp only
  split
  · exact ⟨(poisonWord_frame ..).2.1, (poisonWord_frame ..).1⟩
  · exact ⟨rfl, rfl⟩

/-! ### Operand slots and accumulators -/

theorem Core.oslot_setOslot_same (c : Core) (o : Nat) (x : OSlot) : (c.setOslot o x).oslot o = x :=
  congrArg (Option.getD · OSlot.init) (aget_aset_same ..)

theorem Core.acc_setAcc_same (c : Core) (a : Nat) (x : Acc) : (c.setAcc a x).acc a = x :=
  congrArg (Option.getD · Acc.init) (aget_aset_same ..)

theorem Acc.elem_setElem_same (x : Acc) (k : Nat) (v : Elem) : (x.setElem k v).elem k = v := by
  simp only [Acc.elem, Acc.setElem, aget_aset_same]

theorem Core.oslot_tags_setTileBlock (c : Core) (o m b : Nat) (l : List Byte) (g : Tag) (t : BitVec 12) :
    aget ((c.setTileBlock o m b l (mergeTag g (some t))).oslot o).tags b = mergeTag g (some t) := by
  obtain ⟨x, hx⟩ := mergeTag_some g t
  rw [hx]
  unfold Core.setTileBlock
  dsimp only
  rw [Core.oslot_setOslot_same]
  exact aget_aset_same ..

theorem poisonElem_tag (s : State) (core a row : Nat) (t : BitVec 12) :
    ∃ i, i < 128 ∧ ((((poisonElem s core a row t).core core).acc a).elem (row % 128 * 128 + i)).tag =
      mergeTag (((s.core core).acc a).elem (row % 128 * 128 + i)).tag (some t) := by
  refine ⟨Config.struckPart s.fresh % 128, Nat.mod_lt _ (by omega), ?_⟩
  simp only [poisonElem, State.setCore_core, Core.acc_setAcc_same, Acc.elem_setElem_same]

/-! ### The pool words of a core -/

/-- An update of every member of every herd-context. -/
def State.mapMembers (s : State) (f : HerdCtx → Member → Member) : State :=
  { s with hctxs := s.hctxs.map fun (id, h) => (id, { h with members := h.members.map (f h) }) }

theorem State.hc?_mapMembers {s : State} (f : HerdCtx → Member → Member) {id : Nat} {h : HerdCtx}
    (hh : s.hc? id = some h) : (s.mapMembers f).hc? id = some { h with members := h.members.map (f h) } := by
  have hmap := aget_map (fun h : HerdCtx => { h with members := h.members.map (f h) }) s.hctxs id
  rw [show aget s.hctxs id = some h from hh] at hmap
  exact hmap

theorem members_mapMembers {h : HerdCtx} (f : HerdCtx → Member → Member) {mi : Nat} {m : Member}
    (hm : h.members[mi]? = some m) : ({ h with members := h.members.map (f h) } : HerdCtx).members[mi]? = some (f h m) :=
  (List.getElem?_map ..).trans (congrArg (Option.map (f h)) hm)

/-- A member of a herd-context on a core whose vector registers hold a pool word (R101). -/
def holdsWord (h : HerdCtx) (m : Member) (core w : Nat) : Prop :=
  h.occupies = true ∧ m.core = core ∧ h.slot * h.nv * 256 ≤ w ∧ w < (h.slot + 1) * h.nv * 256

/-- An update of the vector register that holds a pool word of a core. -/
def onHolder (core w : Nat) (f : VReg → VReg) (h : HerdCtx) (m : Member) : Member :=
  if h.occupies = true ∧ m.core = core ∧ h.slot * h.nv * 256 ≤ w ∧ w < (h.slot + 1) * h.nv * 256 then
    let n := (w - h.slot * h.nv * 256) / 256
    { m with v := aset m.v n (f (m.vreg n)) }
  else m

theorem onHolder_vreg {core w : Nat} (f : VReg → VReg) {h : HerdCtx} {m : Member} (hw : holdsWord h m core w) :
    (onHolder core w f h m).vreg ((w - h.slot * h.nv * 256) / 256) = f (m.vreg ((w - h.slot * h.nv * 256) / 256)) := by
  have hon : onHolder core w f h m = _ := if_pos hw
  rw [hon]
  exact congrArg (Option.getD · _) (aget_aset_same ..)

theorem poisonPool_register {s : State} {core bank row : Nat} (t : BitVec 12) (hrow : row < (s.core core).b1) :
    poisonPool s core bank row t = s.mapMembers (onHolder core (257 * row + bank) fun x =>
      ⟨lset x.lanes ((257 * row + bank) % 256) (Config.freePool s.fresh (257 * row + bank)), mergeTag x.tag (some t)⟩) :=
  if_pos hrow

theorem poisonPool_pair {s : State} {core bank row : Nat} (t : BitVec 12) (h1 : (s.core core).b1 ≤ row)
    (h2 : (s.core core).b2 ≤ row) (h3 : row < (s.core core).b3) :
    poisonPool s core bank row t =
      s.setCore core (((s.core core).setWord (257 * row + bank) (Config.freePool s.fresh (257 * row + bank))).setPairTag
        (4 * (257 * row + bank - 257 * (s.core core).b2))
        (mergeTag ((s.core core).pairTag (4 * (257 * row + bank - 257 * (s.core core).b2))) (some t))) := by
  simp only [poisonPool, if_neg (Nat.not_lt.mpr h1), if_neg (Nat.not_lt.mpr h2), if_pos h3]

theorem poisonPool_l1 {s : State} {core bank row : Nat} (t : BitVec 12) (h1 : (s.core core).b1 ≤ row)
    (h2 : (s.core core).b2 ≤ row) (h3 : (s.core core).b3 ≤ row) :
    poisonPool s core bank row t = poisonL1 s core (257 * row + bank) t := by
  simp only [poisonPool, if_neg (Nat.not_lt.mpr h1), if_neg (Nat.not_lt.mpr h2), if_neg (Nat.not_lt.mpr h3)]

/-! ### What is struck, by the class of the error (R420) -/

/-- The state in which data is struck: the free values that it gets are fresh. -/
def State.freshened (s : State) : State := { s with fresh := s.fresh + 1 }

theorem strike_word {s : State} {e : ErrSite} {t : BitVec 12} (hc : e.cls.toNat ∈ [0, 1, 2, 3, 9, 10])
    (hh : stageHome s e.loc.toNat = none) : strike s e t = poisonWord s.freshened e.loc.toNat t := by
  have hh' : stageHome { s with fresh := s.fresh + 1 } e.loc.toNat = none := hh
  simp only [List.mem_cons, List.not_mem_nil, or_false] at hc
  unfold strike
  rcases hc with hc | hc | hc | hc | hc | hc
  all_goals
    simp only [hc, hh']
    rfl

theorem strike_stage {s : State} {e : ErrSite} {t : BitVec 12} (hc : e.cls.toNat ∈ [0, 1, 2, 3, 9, 10]) {p : Nat}
    (hh : stageHome s e.loc.toNat = some p) : strike s e t = poisonStage s.freshened p e.loc.toNat t := by
  have hh' : stageHome { s with fresh := s.fresh + 1 } e.loc.toNat = some p := hh
  simp only [List.mem_cons, List.not_mem_nil, or_false] at hc
  unfold strike
  rcases hc with hc | hc | hc | hc | hc | hc
  all_goals
    simp only [hc, hh']
    rfl

theorem strike_scratchpad {s : State} {e : ErrSite} {t : BitVec 12} (hc : e.cls = 4)
    (hr : rangeTier s (e.loc.toNat / 8 * 8) 8 = some 3) : strike s e t = poisonMem s.freshened e.loc.toNat t := by
  simp only [strike, hc]
  exact if_pos hr

theorem strike_pool {s : State} {e : ErrSite} {t : BitVec 12} (hc : e.cls = 5) :
    strike s e t = poisonPool s.freshened e.unit.toNat (e.loc.extractLsb' 12 9).toNat (e.loc.extractLsb' 0 12).toNat t := by
  simp only [strike, hc]
  rfl

theorem strike_block {s : State} {e : ErrSite} {t : BitVec 12} (hc : e.cls = 6) :
    strike s e t = poisonBlock s.freshened e.unit.toNat (e.loc.extractLsb' 12 9).toNat (e.loc.extractLsb' 0 12).toNat t := by
  simp only [strike, hc]
  rfl

theorem strike_elem {s : State} {e : ErrSite} {t : BitVec 12} (hc : e.cls = 7) :
    strike s e t = poisonElem s.freshened e.unit.toNat (e.loc.extractLsb' 12 9).toNat (e.loc.extractLsb' 0 12).toNat t := by
  simp only [strike, hc]
  rfl

theorem strike_link_or_pair {s : State} {e : ErrSite} {t : BitVec 12} (hc : e.cls = 8 ∨ e.cls = 11) :
    strike s e t = s.freshened := by
  rcases hc with hc | hc <;> simp only [strike, hc] <;> rfl

/-! ### Repair entries (R425, R426) -/

theorem repairEntry_bad_iff (c : Core) (e : Nat) (v : BitVec 64) :
    (v.extractLsb' 24 40 != 0 || decide (256 < (v.extractLsb' 12 9).toNat) ||
      (c.repair.zipIdx.filter fun (x, i) => i != e && x.getLsbD 23).any fun (x, _) =>
        (x.extractLsb' 12 9).toNat == (v.extractLsb' 12 9).toNat &&
          ((x.extractLsb' 0 12).toNat == (v.extractLsb' 0 12).toNat ||
            (x.extractLsb' 21 2).toNat == (v.extractLsb' 21 2).toNat)) = true ↔ clashes c e v := by
  simp only [clashes, Bool.or_eq_true, bne_iff_ne, decide_eq_true_eq, List.any_eq_true, List.mem_filter, Bool.and_eq_true,
    beq_iff_eq, or_assoc]
  refine or_congr_right (or_congr_right ⟨?_, ?_⟩)
  · rintro ⟨⟨x, i⟩, ⟨hx, hi, hv⟩, hb, hs⟩
    exact ⟨i, x, hi, List.mem_zipIdx_iff_getElem?.mp hx, hv, hb, hs⟩
  · rintro ⟨i, x, hi, hx, hv, hb, hs⟩
    exact ⟨⟨x, i⟩, ⟨List.mem_zipIdx_iff_getElem?.mpr hx, hi, hv⟩, hb, hs⟩

theorem repairEntry_of_clashes {c : Core} {e : Nat} {v : BitVec 64} (h : clashes c e v) :
    repairEntry c e v = v &&& ~~~0x800000 :=
  if_pos ((repairEntry_bad_iff c e v).mpr h)

theorem repairEntry_of_sound {c : Core} {e : Nat} {v : BitVec 64} (h : ¬ clashes c e v) : repairEntry c e v = v :=
  if_neg fun hbad => h ((repairEntry_bad_iff c e v).mp hbad)

theorem changes_iff {x y : BitVec 64} : changes x y = true ↔ x.getLsbD 23 = true ∧ ¬ sameRow y x := by
  simp only [changes, sameRow, Bool.and_eq_true, Bool.not_eq_true', ← Bool.not_eq_true, beq_iff_eq]
  tauto

theorem sameRow_symm {x y : BitVec 64} : sameRow x y ↔ sameRow y x := by
  simp only [sameRow]
  tauto

theorem Core.word_setWord_same (c : Core) (w : Nat) (v : W32) : (c.setWord w v).word w = v := by
  simp only [Core.word, Core.setWord, aget_aset_same]

theorem Core.word_setWord_other (c : Core) (w k : Nat) (v : W32) (h : k ≠ w) : (c.setWord w v).word k = c.word k := by
  simp only [Core.word, Core.setWord, aget_aset_other _ _ _ _ h]

/-- A core after a write of a repair entry (R426): the table, and the words that change their row. -/
theorem writeRepair_repair (c : Core) (e seed : Nat) (v : BitVec 64) :
    (writeRepair c e seed v).repair = lset c.repair e (repairEntry c e v) := by
  unfold writeRepair
  dsimp only
  split <;> split <;> rfl

theorem writeRepair_word_unchanged {c : Core} {e seed : Nat} {v : BitVec 64}
    (hold : changes (c.repair.getD e 0) (repairEntry c e v) = false)
    (hnew : changes (repairEntry c e v) (c.repair.getD e 0) = false) (w : Nat) :
    (writeRepair c e seed v).word w = c.word w := by
  simp only [writeRepair, hold, hnew]
  rfl

theorem writeRepair_word_new {c : Core} {e seed : Nat} {v : BitVec 64}
    (hnew : changes (repairEntry c e v) (c.repair.getD e 0) = true) :
    (writeRepair c e seed v).word (repairWord (repairEntry c e v)) =
      Config.freePool seed (repairWord (repairEntry c e v) + 257 * 4096) := by
  simp only [writeRepair, if_pos hnew]
  exact Core.word_setWord_same ..

theorem writeRepair_word_old {c : Core} {e seed : Nat} {v : BitVec 64}
    (hold : changes (c.repair.getD e 0) (repairEntry c e v) = true)
    (hnew : changes (repairEntry c e v) (c.repair.getD e 0) = false ∨
      repairWord (c.repair.getD e 0) ≠ repairWord (repairEntry c e v)) :
    (writeRepair c e seed v).word (repairWord (c.repair.getD e 0)) =
      Config.freePool seed (repairWord (c.repair.getD e 0)) := by
  simp only [writeRepair, if_pos hold, Nat.add_zero]
  split
  next h =>
    rw [Core.word_setWord_other _ _ _ _ (hnew.resolve_left (by rw [h]; exact Bool.noConfusion))]
    exact Core.word_setWord_same ..
  · exact Core.word_setWord_same ..

/-- A state whose herd-contexts hold pool word `w` of a core in register `n` of a member, with some property of the register. -/
def HoldsAt (s : State) (id mi core w n : Nat) (P : VReg → Prop) : Prop :=
  ∃ h m, s.hc? id = some h ∧ h.members[mi]? = some m ∧ holdsWord h m core w ∧ (w - h.slot * h.nv * 256) / 256 = n ∧
    P (m.vreg n)

theorem HoldsAt.mapMembers {s : State} {id mi core w n : Nat} {P Q : VReg → Prop} {f : HerdCtx → Member → Member}
    (hcore : ∀ h m, (f h m).core = m.core)
    (hreg : ∀ h m, holdsWord h m core w → (w - h.slot * h.nv * 256) / 256 = n → P (m.vreg n) → Q ((f h m).vreg n))
    (hat : HoldsAt s id mi core w n P) : HoldsAt (s.mapMembers f) id mi core w n Q := by
  obtain ⟨h, m, hh, hm, ⟨hocc, hmcore, hlo, hhi⟩, hn, hp⟩ := hat
  exact ⟨_, _, State.hc?_mapMembers f hh, members_mapMembers f hm, ⟨hocc, (hcore h m).trans hmcore, hlo, hhi⟩, hn,
    hreg h m ⟨hocc, hmcore, hlo, hhi⟩ hn hp⟩

theorem onHolder_core (core w : Nat) (f : VReg → VReg) (h : HerdCtx) (m : Member) : (onHolder core w f h m).core = m.core := by
  unfold onHolder
  split <;> rfl

/-- An update of one register keeps what it keeps of every register. -/
theorem onHolder_keeps {core w n : Nat} {f : VReg → VReg} {P : VReg → Prop} (hf : ∀ x, P x → P (f x)) {h : HerdCtx}
    {m : Member} (hp : P (m.vreg n)) : P ((onHolder core w f h m).vreg n) := by
  unfold onHolder
  split
  · dsimp only
    by_cases hn : n = (w - h.slot * h.nv * 256) / 256
    · subst hn
      exact (congrArg (fun x : Option VReg => P (x.getD _)) (aget_aset_same ..)).mpr (hf _ hp)
    · exact (congrArg (fun x : Option VReg => P (x.getD _)) (aget_aset_other _ _ _ _ hn)).mpr hp
  · exact hp

/-- The lane of a pool word is set to a free value; the others stay. -/
def setLane (w seed : Nat) (x : VReg) : VReg := { x with lanes := lset x.lanes (w % 256) (Config.freePool seed w) }

theorem spoilLane_eq (s : State) (core w seed : Nat) : spoilLane s core w seed = s.mapMembers (onHolder core w (setLane w seed)) :=
  rfl

/-- A member of a core with its stuck bits as the core's table has them. -/
def wired (c : Core) (core : Nat) (h : HerdCtx) (m : Member) : Member :=
  if m.core = core then
    { m with
      stuckV := c.stuckIn (h.slot * h.nv * 256) ((h.slot + 1) * h.nv * 256)
      stuckS := c.stuckRegs.foldl (fun l (k, x) => if k / 64 = h.slot then aset l (k % 64) x else l) [] }
  else m

theorem wired_core_vreg (c : Core) (core : Nat) (h : HerdCtx) (m : Member) (n : Nat) :
    (wired c core h m).core = m.core ∧ (wired c core h m).vreg n = m.vreg n := by
  unfold wired
  split <;> exact ⟨rfl, rfl⟩

theorem wireAll_one (s : State) (core : Nat) :
    wireAll s [core] = s ∨ wireAll s [core] = s.mapMembers (wired (s.core core) core) := by
  simp only [wireAll, List.foldl_cons, List.foldl_nil]
  split
  · exact .inl rfl
  · exact .inr rfl

theorem HoldsAt.wireAll {s : State} {id mi core w n k : Nat} {P : VReg → Prop} (hat : HoldsAt s id mi core w n P) :
    HoldsAt (wireAll s [k]) id mi core w n P := by
  obtain hw | hw := wireAll_one s k
  · rwa [hw]
  · rw [hw]
    exact hat.mapMembers (fun h m => (wired_core_vreg _ k h m n).1) fun h m _ _ hp => by
      rwa [(wired_core_vreg _ k h m n).2]

theorem HoldsAt.setCore {s : State} {id mi core w n k : Nat} {c : Core} {P : VReg → Prop}
    (hat : HoldsAt s id mi core w n P) : HoldsAt (s.setCore k c) id mi core w n P :=
  hat

/-- The new entry's word lies in a register's lane: the lane is free after the write, whatever else the write spoils. -/
theorem HoldsAt.repairStore {s : State} {id mi core e n : Nat} {v : BitVec 64}
    (hnew : changes (repairEntry (s.core core) e v) ((s.core core).repair.getD e 0) = true)
    (hat : HoldsAt s id mi core (repairWord (repairEntry (s.core core) e v)) n fun x => x.lanes.length = 256) :
    HoldsAt (repairStore s core e v) id mi core (repairWord (repairEntry (s.core core) e v)) n fun x =>
      x.lanes[repairWord (repairEntry (s.core core) e v) % 256]? =
        some (Config.freePool (pairNat ((s.core core).seedOf core) 1) (repairWord (repairEntry (s.core core) e v))) := by
  refine HoldsAt.wireAll ?_
  rw [if_pos hnew, spoilLane_eq]
  refine HoldsAt.mapMembers (onHolder_core _ _ _) (P := fun x => x.lanes.length = 256) (fun h m hw hn hl => ?_) ?_
  · subst hn
    rw [onHolder_vreg _ hw]
    exact lset_get_same _ _ _ (by rw [hl]; exact Nat.mod_lt _ (by omega))
  · split
    · rw [spoilLane_eq]
      exact hat.setCore.mapMembers (onHolder_core _ _ _) fun h m _ _ hl =>
        onHolder_keeps (P := fun x => x.lanes.length = 256) (fun x hx => (lset_length ..).trans hx) hl
    · exact hat

theorem wireAll_frame (s : State) (core : Nat) :
    (wireAll s [core]).cores = s.cores ∧ (wireAll s [core]).mem = s.mem ∧ (wireAll s [core]).parts = s.parts := by
  obtain hw | hw := wireAll_one s core <;> rw [hw] <;> exact ⟨rfl, rfl, rfl⟩

theorem spoilLane_frame (s : State) (b : Bool) (core w seed : Nat) :
    (if b = true then spoilLane s core w seed else s).cores = s.cores ∧
      (if b = true then spoilLane s core w seed else s).mem = s.mem ∧
      (if b = true then spoilLane s core w seed else s).parts = s.parts := by
  split <;> exact ⟨rfl, rfl, rfl⟩

/-- A write of a repair entry changes one core, and no memory. -/
theorem repairStore_frame (s : State) (core e : Nat) (v : BitVec 64) :
    (repairStore s core e v).cores = aset s.cores core { writeRepair (s.core core) e ((s.core core).seedOf core) v with
      toRepair := (s.core core).toRepair.filter (· != repairWord (repairEntry (s.core core) e v)) } ∧
    (repairStore s core e v).mem = s.mem ∧ (repairStore s core e v).parts = s.parts := by
  have hw := wireAll_frame
  have hs := spoilLane_frame
  exact ⟨(hw ..).1.trans ((hs ..).1.trans (hs ..).1), (hw ..).2.1.trans ((hs ..).2.1.trans (hs ..).2.1),
    (hw ..).2.2.trans ((hs ..).2.2.trans (hs ..).2.2)⟩

end Sys2Proof.Machine

namespace Sys2Proof.Claims
open Sys2Proof.Machine

theorem errorsAreRecordedAndCounted : ErrorsAreRecordedAndCounted := by
  intro s e struckAt
  have hscrub {u : State} (h : scrubFix s e = u) : exec (.scrubRead e .corrected) s = .next u :=
    congrArg Host.Outcome.next h
  refine ⟨fun hc hd => congrArg Host.Outcome.next (uncorrected_of_listed hc hd),
    fun h => congrArg Host.Outcome.next (uncorrected_of_unlisted h), rfl, rfl, fun h => hscrub (scrubFix_of_count h),
    fun hc hd => ?row, fun hc hd => ?read, fun h => ?unread⟩
  case row =>
    intro core row n t
    have hfix := scrubFix_pool hc hd
    exact ⟨fun hn => hscrub (hfix.trans (if_neg hn)), fun hn => hscrub (hfix.trans (if_pos hn))⟩
  case read =>
    have hlt : e.cls.toNat < 12 := by
      simp only [List.mem_cons, List.not_mem_nil, or_false] at hc
      omega
    exact congrArg Host.Outcome.next ((scrub_uncorrectable_of_read hc).trans (uncorrected_of_listed hlt hd))
  case unread =>
    refine congrArg Host.Outcome.next ?_
    by_cases hc : e.cls.toNat ∈ [0, 1, 3, 4, 5, 6, 7]
    · exact (scrub_uncorrectable_of_read hc).trans (uncorrected_of_unlisted (.inr (h.resolve_left (not_not_intro hc))))
    · exact scrub_uncorrectable_of_unread hc

theorem errorsPoisonTheirGranule : ErrorsPoisonTheirGranule := by
  intro s e t u core c hi lo w copies
  have hcopies : copiesOf s.freshened e.loc.toNat = copies := rfl
  refine ⟨fun h => ?word, fun hc hh hne => ?copy, fun hc hh => ?stage, fun hc h1 h2 h3 => ?l1, fun hc h1 h2 h3 => ?pair,
    fun hc h1 id h mi m hh hocc hm hmc hlo hhi => ?register, fun hc => ?block, fun hc => ?elem,
    fun hc => strike_link_or_pair hc⟩
  case word =>
    have hu : u = poisonMem s.freshened e.loc.toNat t := by
      obtain ⟨hc, hh, hnone⟩ | ⟨hc, hr⟩ := h
      · exact (strike_word hc hh).trans (poisonWord_of_no_copy t (hcopies.trans hnone))
      · exact strike_scratchpad hc hr
    rw [hu]
    exact ⟨poisonMem_tag .., rfl, rfl, fun a ha => poisonMem_other s.freshened _ a t ha⟩
  case copy =>
    have hu : u = poisonWord s.freshened e.loc.toNat t := strike_word hc hh
    obtain ⟨-, hcores, hmem⟩ := poisonWord_frame s.freshened e.loc.toNat t
    rw [hu]
    refine ⟨hmem, hcores, ?_⟩
    obtain hw | ⟨x, hx, hw⟩ := poisonWord_cases s.freshened e.loc.toNat t
    · rw [hw]
      exact .inl (poisonMem_tag ..)
    · obtain ⟨hmem, htag, -, -⟩ := poisonStaged_frame s.freshened x.1 x.2 (e.loc.toNat / 8 * 8) t
      rw [hw]
      refine .inr ⟨hmem, htag, x, hx, fun i hi => ?_⟩
      have hj := poisonStaged_tag (w := e.loc.toNat / 8 * 8) t (show s.freshened.inst? x.1 x.2 = some i from hi)
      rwa [Nat.mul_div_cancel _ (by omega)] at hj
  case stage =>
    obtain ⟨p, hp⟩ := Option.ne_none_iff_exists'.mp hh
    have hu : u = _ := strike_stage hc hp
    rw [hu]
    exact poisonStage_frame ..
  case l1 =>
    have hu : u = _ := (strike_pool hc).trans (poisonPool_l1 t h1 h2 h3)
    rw [hu]
    exact poisonL1_frame ..
  case pair =>
    have hu : u = _ := (strike_pool hc).trans (poisonPool_pair t h1 h2 h3)
    rw [hu, State.setCore_core]
    exact ⟨Core.pairTag_setPairTag_mergeTag .., rfl, rfl⟩
  case register =>
    intro n
    have hu : u = _ := (strike_pool hc).trans (poisonPool_register t h1)
    rw [hu]
    refine ⟨_, _, State.hc?_mapMembers _ hh, members_mapMembers _ hm, ?_⟩
    exact congrArg VReg.tag (onHolder_vreg _ ⟨hocc, hmc, hlo, hhi⟩)
  case block =>
    have hu : u = _ := strike_block hc
    rw [hu, poisonBlock, State.setCore_core]
    exact ⟨Core.oslot_tags_setTileBlock .., rfl, rfl⟩
  case elem =>
    have hu : u = _ := strike_elem hc
    obtain ⟨i, hi, htag⟩ := poisonElem_tag s.freshened e.unit.toNat hi lo t
    rw [hu]
    exact ⟨i, hi, htag, rfl, rfl⟩

theorem repairEntriesAreReplaced : RepairEntriesAreReplaced := by
  intro s core e v c new old t
  obtain ⟨hcores, hmem, hparts⟩ := repairStore_frame s core e v
  have hcore : t.core core = { writeRepair c e (c.seedOf core) v with
      toRepair := c.toRepair.filter (· != repairWord new) } := by
    rw [State.core, hcores, aget_aset_same]
    rfl
  have hword w : (t.core core).word w = (writeRepair c e (c.seedOf core) v).word w := by
    rw [hcore]
    rfl
  refine ⟨rfl, repairEntry_of_clashes, repairEntry_of_sound, ?_, hmem, hparts, fun k hk => ?_, fun hsame w => ?_,
    fun hv hne => ?_, fun hv hne hgone => ?_, fun hv hne id h mi m hh hocc hm hmc hlo hhi => ?_⟩
  · rw [hcore]
    exact writeRepair_repair ..
  · rw [State.core, hcores, aget_aset_other _ _ _ _ hk]
    rfl
  · rw [hword]
    have hold : changes old new = false := Bool.eq_false_iff.mpr fun h => (changes_iff.mp h).2 (sameRow_symm.mp hsame)
    have hnew : changes new old = false := Bool.eq_false_iff.mpr fun h => (changes_iff.mp h).2 hsame
    exact writeRepair_word_unchanged hold hnew w
  · rw [hword]
    exact writeRepair_word_new (changes_iff.mpr ⟨hv, hne⟩)
  · rw [hword]
    refine writeRepair_word_old (changes_iff.mpr ⟨hv, fun h => hne (sameRow_symm.mp h)⟩) (hgone.imp_left fun hoff => ?_)
    exact Bool.eq_false_iff.mpr fun h => Bool.noConfusion (hoff.symm.trans (changes_iff.mp h).1)
  · intro n hlanes
    obtain ⟨g, x, hg, hx, -, -, hlane⟩ := HoldsAt.repairStore (changes_iff.mpr ⟨hv, hne⟩)
      ⟨h, m, hh, hm, ⟨hocc, hmc, hlo, hhi⟩, rfl, hlanes⟩
    exact ⟨g, x, hg, hx, hlane⟩

/-- Settles O51: (a) from the equations of `uncorrected`, `scrub` and `scrubFix`; (b) by the class of the error, each poisoning put
where its lemma says; (c) since a repair entry spoils the pool words and the lanes of the words whose row changes, and nothing more. -/
theorem errorsPoisonAndRepairsReplace : Obligations.ErrorsPoisonAndRepairsReplace :=
  ⟨errorsAreRecordedAndCounted, errorsPoisonTheirGranule, repairEntriesAreReplaced⟩

end Sys2Proof.Claims
end

section
/-! Descriptors (O42): what arms a node, what frees it, and what resumes its partition (R303, R307). -/

namespace Sys2Proof.Machine
open Sys2Proof.Claims

variable {s : State} {part node : Nat} {p : Part}

/-! ### Arming -/

theorem armNode_of_kind_zero {d : List Byte} (hp : s.part? part = some p) (hfree : (p.node node).state = .free)
    (hn : node < 4096) (hk : dfield (descBytes d) 0 1 = 0) :
    armNode s part node d = putNode s part node (written d .free 0) := by
  have hgo : ¬ ((p.node node).state ≠ .free ∨ 4096 ≤ node) := by simp [hfree, hn]
  simp only [armNode, hp, if_neg hgo, if_pos hk]
  rfl

theorem armNode_of_refused {d : List Byte} {c : Nat} (hp : s.part? part = some p) (hfree : (p.node node).state = .free)
    (hn : node < 4096) (hk : dfield (descBytes d) 0 1 ≠ 0) (hr : refusal s part p (descBytes d) = some c) :
    armNode s part node d = raiseEvent (failRegens (putNode s part node (written d .refused c)) part node) part := by
  have hgo : ¬ ((p.node node).state ≠ .free ∨ 4096 ≤ node) := by simp [hfree, hn]
  simp only [armNode, hp, if_neg hgo, if_neg hk, hr]
  rfl

theorem descBytes_descBytes (d : List Byte) : descBytes (descBytes d) = descBytes d := by
  refine List.map_congr_left fun i hi => ?_
  rw [descBytes, List.getD_eq_getElem?_getD, List.getElem?_map, List.getElem?_range (List.mem_range.mp hi)]
  rfl

theorem armNode_of_sound {d : List Byte} (hp : s.part? part = some p) (hfree : (p.node node).state = .free)
    (hn : node < 4096) (hk : dfield (descBytes d) 0 1 ≠ 0) (hr : refusal s part p (descBytes d) = none) :
    armNode s part node d = armedWith s part node (descBytes d) := by
  have hgo : ¬ ((p.node node).state ≠ .free ∨ 4096 ≤ node) := by simp [hfree, hn]
  simp only [armNode, hp, if_neg hgo, if_neg hk, hr, armedWith, written, descBytes_descBytes]
  generalize (if dfield (descBytes d) 0 1 = 5 then none else firePlace s part (descBytes d)) = place
  cases place with
  | none => rfl
  | some a => rfl

/-! ### Freeing -/

theorem disarmNode_of_resting {n : Node} (hn : s.node? part node = some n)
    (h : n.state = .armed ∨ n.state = .done ∨ n.state = .refused) : disarmNode s part node = freeNode s part node := by
  rcases h with h | h | h <;> simp only [disarmNode, hn, h]

theorem disarmNode_of_working {n : Node} (hn : s.node? part node = some n)
    (h : n.state = .ready ∨ n.state = .running ∨ n.state = .commit) :
    disarmNode s part node = s.modNode part node fun n => { n with disarm := true } := by
  rcases h with h | h | h <;> simp only [disarmNode, hn, h]

theorem disarmNode_of_halted {n : Node} (hn : s.node? part node = some n) (h : n.state = .halted) :
    disarmNode s part node = s := by
  simp only [disarmNode, hn, h]

/-- A node whose descriptor is FREE again: its bytes stay but for a KIND of 0. -/
def freedNode (n : Node) : Node := { Node.free with desc := 0 :: n.desc.drop 1 }

/-- A partition without a node: it owes no regeneration of it and has it in no queue. -/
def Part.withoutNode (p : Part) (node : Nat) : Part :=
  let p := ({ p with regens := p.regens.filter fun r => r.node != node } : Part).modNode node freedNode
  { p with queues := p.queues.map fun q => q.filter (· != node) }

theorem freeNode_part (hp : s.part? part = some p) : (freeNode s part node).part? part = some (p.withoutNode node) := by
  simp only [freeNode, unqueue, State.modNode, State.modPart_part, hp, Option.map_some]
  rfl

theorem freeNode_frame (s : State) (part node : Nat) :
    (freeNode s part node).mem = s.mem ∧ (freeNode s part node).hctxs = s.hctxs := by
  simp only [freeNode, unqueue, State.modPart_mem, State.modNode_mem, State.modPart_hctxs, State.modNode_hctxs, and_self]

theorem Part.withoutNode_node {n : Node} (hn : aget p.nodes node = some n) :
    aget (p.withoutNode node).nodes node = some (freedNode n) := by
  simp only [Part.withoutNode, Part.modNode, hn]
  exact aget_aset_same ..

theorem Part.withoutNode_regens : (p.withoutNode node).regens = p.regens.filter fun r => r.node != node := by
  simp only [Part.withoutNode, Part.modNode]
  split <;> rfl

theorem Part.withoutNode_halted : (p.withoutNode node).halted = p.halted := by
  simp only [Part.withoutNode, Part.modNode]
  split <;> rfl

theorem node?_of_part {s : State} {n : Node} (hp : s.part? part = some p) (hn : aget p.nodes node = some n) :
    s.node? part node = some n := by
  rw [State.node?, hp]
  exact hn

theorem aget_nodes_of_node? {n : Node} (hp : s.part? part = some p) (hn : s.node? part node = some n) :
    aget p.nodes node = some n := by
  rwa [State.node?, hp] at hn

theorem releaseByRuntime_of_halted {n : Node} (hn : s.node? part node = some n) (h : n.state = .halted) :
    releaseByRuntime s part (some node) = resumePart (freeNode s part node) part := by
  simp only [releaseByRuntime, hn, if_pos h]

end Sys2Proof.Machine

namespace Sys2Proof.Claims
open Sys2Proof.Machine

/-- Settles O42: a descriptor's write goes by the KIND and the first cause of a refusal, and a free node leaves its partition as
`Part.withoutNode` says. -/
theorem descriptorsArmAndDisarm : Obligations.DescriptorsArmAndDisarm := by
  intro s part node p hp
  refine ⟨fun d hfree hlt => ⟨fun hk => ?_, fun hk hr => ?_, fun c hk hr => ?_⟩,
    fun n hn => ⟨fun h => ?rest, fun h => ?work, fun h => ⟨?keep, ?release⟩⟩, rfl⟩
  · exact congrArg Host.Outcome.next (armNode_of_kind_zero hp hfree hlt hk)
  · exact congrArg Host.Outcome.next (armNode_of_sound hp hfree hlt hk hr)
  · exact congrArg Host.Outcome.next (armNode_of_refused hp hfree hlt hk hr)
  case rest =>
    have hpart := freeNode_part (node := node) hp
    obtain ⟨hmem, hhc⟩ := freeNode_frame s part node
    refine ⟨freeNode s part node, freedNode n, congrArg Host.Outcome.next (disarmNode_of_resting hn h),
      node?_of_part hpart (Part.withoutNode_node (aget_nodes_of_node? hp hn)), rfl, rfl, rfl, hmem, hhc, fun q hq => ?_⟩
    obtain rfl := Option.some.inj (hpart.symm.trans hq)
    exact Part.withoutNode_regens
  case work => exact congrArg Host.Outcome.next (disarmNode_of_working hn h)
  case keep => exact congrArg Host.Outcome.next (disarmNode_of_halted hn h)
  case release =>
    have hpart : (resumePart (freeNode s part node) part).part? part = _ :=
      (State.modPart_part ..).trans (congrArg _ (freeNode_part hp))
    refine ⟨_, freedNode n, _, congrArg Host.Outcome.next (releaseByRuntime_of_halted hn h),
      node?_of_part hpart (Part.withoutNode_node (aget_nodes_of_node? hp hn)), rfl, hpart, ?_⟩
    exact congrArg (· && _) Part.withoutNode_halted

end Sys2Proof.Claims
end

section
/-! The node at the head of its queue (R304, R312, R313, R403, R78): it runs without a core, or takes frames, or asks its victims to
stop. -/

namespace Sys2Proof.Machine
open Sys2Proof.Claims

variable {s t : State} {part node pa : Nat} {p : Part} {n : Node}

/-! ### Counter and conditional nodes (R304) -/

theorem runCounterNode_of_head (hn : s.node? part node = some n) (hh : isHead s part node 3 = true) :
    runCounterNode s part node = completes (startInst s part node n) part node := by
  simp only [runCounterNode, hn, hh, if_true, completes]

theorem nodeAdd_of_zero (v : BitVec 32) : nodeAdd s part node 0 v = .ok s :=
  if_pos rfl

/-- What a branch does is the add to its counter, of nothing without a value, and then the end of the instance. -/
theorem branchAdded_of_nodeAdd (s : State) (part node ctr add : Nat) :
    (∀ u, nodeAdd s part node (if add = 0 then 0 else ctr) (BitVec.ofNat 32 add) = .ok u →
      branchAdded s part node ctr add = completes u part node) ∧
    (∀ u, nodeAdd s part node (if add = 0 then 0 else ctr) (BitVec.ofNat 32 add) = .error u →
      branchAdded s part node ctr add = u) := by
  by_cases hz : add = 0 ∨ ctr = 0
  · have hva : (if add = 0 then 0 else ctr) = 0 := by grind
    rw [hva, nodeAdd_of_zero, branchAdded, if_pos hz]
    exact ⟨fun _ h => by rw [Except.ok.inj h], fun _ h => nomatch h⟩
  · have hva : (if add = 0 then 0 else ctr) = ctr := if_neg fun h => hz (.inl h)
    rw [hva, nodeAdd, if_neg fun h => hz (.inr h), branchAdded, if_neg hz]
    cases reach s part true ctr 3 with
    | ok x => exact ⟨fun _ h => by rw [← Except.ok.inj h], fun _ h => nomatch h⟩
    | error f => exact ⟨fun _ h => (nomatch h), fun _ h => Except.error.inj h⟩

/-- A conditional node whose word translates reads it and takes the branch of its condition. -/
theorem runConditionalNode_of_head (hn : s.node? part node = some n) (hh : isHead s part node 4 = true)
    (hal : n.field 144 8 % 8 = 0) (hr : reach (startInst s part node n) part true (n.field 144 8) 0 = .ok (t, pa)) :
    runConditionalNode s part node =
      if condHolds (n.field 160 1) (seen64 t (Who.agent part) pa) (BitVec.ofNat 64 (n.field 152 8)) = true then
        branchAdded (arrive t (Who.agent part) pa 8) part node (n.field 168 8) (n.field 184 4)
      else branchAdded (arrive t (Who.agent part) pa 8) part node (n.field 176 8) (n.field 188 4) := by
  simp only [runConditionalNode, hn, hh, hal, hr, if_true]
  cases condHolds (n.field 160 1) (seen64 t (Who.agent part) pa) (BitVec.ofNat 64 (n.field 152 8)) <;>
    simp only [Bool.false_eq_true, if_true, if_false]
  all_goals
    split
    next u hadd => exact ((branchAdded_of_nodeAdd ..).1 u hadd).symm
    next u hadd => exact ((branchAdded_of_nodeAdd ..).2 u hadd).symm

/-! ### Copy nodes (R304) -/

section
variable {mode : Nat} {l : List Move} {es : List Nat}

theorem sendNodeCopy_eq : sendNodeCopy s part node p mode l es =
    if copyBefore s part node = false ∧ (s.copyCmds (2 * firstCluster p)).length < 64 ∧ scoresFit s (copyScores l) = true then
      copySent s part node p mode l es
    else s := by
  by_cases hb : copyBefore s part node = true
  · rw [sendNodeCopy, if_pos hb, if_neg fun h => by simp [hb] at h]
  · by_cases hroom : copyQueueMax ≤ (s.copyCmds (copyNodeEngine p)).length ∨ scoresFit s (copyScores l) = false
    · rw [sendNodeCopy, if_neg hb]
      rw [if_pos hroom, if_neg fun ⟨_, hlen, hfit⟩ => hroom.elim (Nat.not_le.mpr hlen) (by simp [hfit])]
    · obtain ⟨hlen, hfit⟩ := not_or.mp hroom
      rw [sendNodeCopy, if_neg hb]
      rw [if_neg hroom, if_pos ⟨Bool.not_eq_true _ ▸ hb, Nat.not_le.mp hlen, Bool.not_eq_false _ ▸ hfit⟩]
      rfl

theorem runCopyNode_of_head (hp : s.part? part = some p) (hn : s.node? part node = some n) (hh : isHead s part node 2 = true)
    (hm : nodeMoves s part p n = .ok (t, l, es)) :
    runCopyNode s part node = sendNodeCopy (copyStarted t part node n l es) part node p (n.field 160 1) l es := by
  simp only [runCopyNode, hp, hn, hh, hm, if_true, copyStarted]

theorem runCopyNode_of_waiting (hp : s.part? part = some p) (hn : s.node? part node = some n)
    (hh : isHead s part node 2 = false) (hw : n.inst.bind (·.pend) = some (l, es)) :
    runCopyNode s part node = sendNodeCopy s part node p (n.field 160 1) l es := by
  simp only [runCopyNode, hp, hn, hh, hw, Bool.false_eq_true, if_false]

end

/-! ### Nodes with cores (R312, R313, R403, R78) -/

section
variable {im : Image} (hp : s.part? part = some p) (hq : queueHead p = some node) (hn : s.node? part node = some n)
  (hhalt : p.halted = false) (him : descImage p n.desc = some im)
include hp hq hn hhalt him

theorem placeHead_of_kernel {per : List (Nat × List Nat)} (hk : n.kind = 1) (hf : findFrames s [] p n = some per) :
    placeHead s part = placedOn (startInst s part node n) part node n im per := by
  have hcores : (n.kind == 1 || n.kind == 5) = true := by rw [hk]; rfl
  have hregen : n.kind ≠ 5 := by rw [hk]; decide
  simp only [placeHead, hp, hq, hn, hhalt, hcores, hregen, him, hf, Bool.not_true, Bool.or_self, Bool.false_eq_true, if_false,
    placedOn]

theorem placeHead_of_regen {per : List (Nat × List Nat)} (hk : n.kind = 5) (hf : findFrames s [] p n = some per) :
    placeHead s part = handRegen (placedOn (startInst s part node n) part node n im per) part node n := by
  have hcores : (n.kind == 1 || n.kind == 5) = true := by rw [hk]; rfl
  simp only [placeHead, hp, hq, hn, hhalt, hcores, him, hf, Bool.not_true, Bool.or_self, Bool.false_eq_true, if_false,
    if_pos hk, placedOn]

section
variable (hk : n.kind = 1 ∨ n.kind = 5) (hf : findFrames s [] p n = none)
include hk hf

theorem placeHead_of_victims {l : List Nat}
    (hv : victimPrefix (noteUnsavable s part n.prio) p n part (victims (noteUnsavable s part n.prio) part n.prio) = some l) :
    placeHead s part = l.foldl (fun s id =>
      if ((s.hc? id).map (·.stop.isNone)).getD false = true then requestStop s id else s) (noteUnsavable s part n.prio) := by
  have hcores : (n.kind == 1 || n.kind == 5) = true := by simpa using hk
  simp only [placeHead, hp, hq, hn, hhalt, hcores, him, hf, hv, Bool.not_true, Bool.or_self, Bool.false_eq_true, if_false]

theorem placeHead_of_no_victims
    (hv : victimPrefix (noteUnsavable s part n.prio) p n part (victims (noteUnsavable s part n.prio) part n.prio) = none) :
    placeHead s part = noteUnsavable s part n.prio := by
  have hcores : (n.kind == 1 || n.kind == 5) = true := by simpa using hk
  simp only [placeHead, hp, hq, hn, hhalt, hcores, him, hf, hv, Bool.not_true, Bool.or_self, Bool.false_eq_true, if_false]

end
end

end Sys2Proof.Machine

namespace Sys2Proof.Claims
open Sys2Proof.Machine

theorem nodesWithoutCoresRun : NodesWithoutCoresRun := by
  intro s part node p n hp hn
  refine ⟨fun hh => ?_, fun t pa hh hal hr => ?_, fun t l es hh hm => ?_, fun l es hh hw hb hlen hfit => ?_⟩
  · exact congrArg Host.Outcome.next (runCounterNode_of_head hn hh)
  · exact congrArg Host.Outcome.next (runConditionalNode_of_head hn hh hal hr)
  · exact congrArg Host.Outcome.next ((runCopyNode_of_head hp hn hh hm).trans sendNodeCopy_eq)
  · exact congrArg Host.Outcome.next
      ((runCopyNode_of_waiting hp hn hh hw).trans (sendNodeCopy_eq.trans (if_pos ⟨hb, hlen, hfit⟩)))

theorem headNodesArePlaced : HeadNodesArePlaced := by
  intro s part node p n im hp hq hn hhalt him
  refine ⟨fun per hk hf => ?_, fun per hk hf => ?_, fun hk hf => ⟨fun l hv => ?_, fun hv => ?_⟩⟩
  · exact congrArg Host.Outcome.next (placeHead_of_kernel hp hq hn hhalt him hk hf)
  · exact congrArg Host.Outcome.next (placeHead_of_regen hp hq hn hhalt him hk hf)
  · exact congrArg Host.Outcome.next (placeHead_of_victims hp hq hn hhalt him hk hf hv)
  · exact congrArg Host.Outcome.next (placeHead_of_no_victims hp hq hn hhalt him hk hf hv)

/-- Settles O44: a node that needs no core runs at once or waits for its engine, and one that needs cores is placed or asks for
them. -/
theorem headNodesRunOrArePlaced : Obligations.HeadNodesRunOrArePlaced := ⟨nodesWithoutCoresRun, headNodesArePlaced⟩

end Sys2Proof.Claims
end

section
/-! Writes and reads of the host (R336, R338, R339, R346): the counter-add window, device memory, a request's slot and the MSI-X table. -/

namespace Sys2Proof.Machine
open Sys2Proof.Claims

variable {s t : State} {part pa : Nat} {d : List Byte}

/-! ### The counter-add window -/

theorem windowWrite_of_sound {off : Nat} (hlen : d.length = 16) (hoff : off % 16 = 0) (hz : leAt d 12 4 = 0)
    (hal : leAt d 0 8 % 8 = 0) (hr : reach s part true (leAt d 0 8) 3 = .ok (t, pa)) :
    windowWrite s part off d = counterAdd t (Who.agent part) pa (BitVec.ofNat 32 (leAt d 8 4)) none := by
  simp only [windowWrite, hlen, hoff, hz, hal, hr, ne_eq, not_true_eq_false, or_self, if_false]

theorem windowWrite_of_malformed {off : Nat} (h : d.length ≠ 16 ∨ off % 16 ≠ 0 ∨ leAt d 12 4 ≠ 0) :
    windowWrite s part off d = hostErr s part :=
  if_pos h

/-! ### Device memory -/

section
variable (hb : s.booted = true) {a n : Nat}
include hb

theorem hostAccess_read_of_hbm (h : hbmRange s a n = true) :
    hostAccess s a (.read n) = sends (arrive s (Who.agent 0) (ownPa s a) n)
      (.readReply (seenBytes s (Who.agent 0) (ownPa s a) n) (rangeTag s (Who.agent 0) (ownPa s a) n).isSome) := by
  simp only [hostAccess, hb, h, if_true, Bool.not_true, Bool.false_eq_true, if_false, sends]

theorem hostAccess_read_elsewhere (h : hbmRange s a n = false) :
    hostAccess s a (.read n) = sends s (.readReply (List.replicate n 0) false) := by
  simp only [hostAccess, hb, h, Bool.not_true, Bool.false_eq_true, if_false, sends]

theorem hostAccess_write_sound (h : hbmRange s a d.length = true) :
    hostAccess s a (.write d false) = writeNow s (Who.agent 0) (ownPa s a) d none := by
  simp only [hostAccess, hb, h, Bool.not_true, Bool.false_eq_true, if_false]

/-- A poisoned write records an error of class 9 before it is stored with that record's tag. -/
theorem hostAccess_write_poisoned (h : hbmRange s a d.length = true) :
    hostAccess s a (.write d true) =
      writeNow (errorRecord { s with fresh := s.fresh + 1 } (homeSlice (ownPa s a) / 64) 9 1 63
          ((Config.recordField s.fresh).extractLsb' 0 10) (BitVec.ofNat 64 (ownPa s a)) 0)
        (Who.agent 0) (ownPa s a) d (some (nextTag s (homeSlice (ownPa s a) / 64) 9)) := by
  simp only [hostAccess, hb, h, Bool.not_true, Bool.false_eq_true, if_false, if_true]

end

/-! ### A request's slot -/

theorem submitRequest_of_sound {p : Part} {slot : Nat} (hp : s.part? part = some p) (hfree : p.reqOrder.contains slot = false)
    (hroom : (p.reqOrder.filter fun k => decide (k < hostSlots)).length < hostSlots) (hsound : requestBad (requestBytes d) = false)
    (hr : reach s part true (leAt (requestBytes d) 56 8) 3 = .ok (t, pa)) :
    submitRequest s part slot d = t.modPart part fun p => { p with
      reqs := aset p.reqs slot (requestBytes d), reqOrder := p.reqOrder ++ [slot], drafts := adel p.drafts slot } := by
  simp only [submitRequest, hp, hfree, decide_eq_false (Nat.not_le.mpr hroom), hsound, hr, Bool.and_false, Bool.or_self,
    Bool.false_eq_true, if_false]

/-! ### The MSI-X table -/

theorem entryBytes_length (e : List (BitVec 32)) : (entryBytes e).length = 4 * e.length := by
  simp [entryBytes, List.length_flatMap, bytesOf, Nat.mul_comm]

/-- A write of a whole entry leaves nothing of the old one. -/
theorem msixBytes_of_whole {old : List (BitVec 32)} (hold : old.length = 4) (v : Nat) (hlen : d.length = 16) :
    msixBytes old v (msixTable + 16 * v) d = d := by
  refine List.ext_getElem (by simp [msixBytes, entryBytes_length, hold, hlen]) fun i hi hid => ?_
  simp [msixBytes, hid]

/-- A left fold whose step changes the state at one index only takes that one step. -/
theorem foldl_range_of_one_step {σ : Type} {f : σ → Nat → σ} {v : Nat} (hf : ∀ x k, k ≠ v → f x k = x) (x : σ) (n : Nat) :
    (List.range n).foldl f x = if v < n then f x v else x := by
  induction n with
  | zero => rfl
  | succ n ih =>
    rw [List.range_succ, List.foldl_append, ih, List.foldl_cons, List.foldl_nil]
    rcases Nat.lt_trichotomy v n with h | rfl | h
    · rw [if_pos h, if_pos (Nat.lt_succ_of_lt h), hf _ _ (Nat.ne_of_gt h)]
    · rw [if_neg (Nat.lt_irrefl _), if_pos (Nat.lt_succ_self _)]
    · rw [if_neg (Nat.lt_asymm h), if_neg (by omega), hf _ _ (Nat.ne_of_lt h)]

/-- A write of a whole entry whose vector is not pending replaces that entry and no other. -/
theorem msixWrite_of_whole {v : Nat} (hv : v < msixCount) (hlen : d.length = 16) (hpend : s.pba.contains v = false)
    (hold : (msixEntry s v).length = 4) :
    msixWrite s (msixTable + 16 * v) d = { s with msix := aset s.msix v (msixOfBytes d) } := by
  have hin : ¬ (msixTable + 16 * v < msixTable ∨ msixTable + 16 * msixCount < msixTable + 16 * v + d.length) := by omega
  rw [msixWrite, if_neg hin, foldl_range_of_one_step (v := v), if_pos hv, if_pos ⟨by omega, by omega⟩]
  · simp only [msixBytes_of_whole hold v hlen, hpend, Bool.false_eq_true, false_and, if_false]
  · intro x k hk
    exact if_neg (by omega)

end Sys2Proof.Machine

namespace Sys2Proof.Claims
open Sys2Proof.Machine

/-- Settles O48: each write goes by its checks, and each check passes or fails as its case assumes. -/
theorem hostWritesReachTheirUnits : Obligations.HostWritesReachTheirUnits := by
  intro s part p hp
  refine ⟨fun off d t pa hlen hoff hz hal hr => ?_, fun off d h => ?_,
    fun hb a => ⟨fun n h => ?_, fun n h => ?_, fun d h => ?_, fun d h => ?_⟩,
    fun slot d t pa hfree _ hroom hsound hr => ?_, fun v d hv hlen hpend hold => ?_, fun _ _ => rfl⟩
  · exact congrArg Host.Outcome.next (windowWrite_of_sound hlen hoff hz hal hr)
  · exact congrArg Host.Outcome.next (windowWrite_of_malformed h)
  · exact congrArg Host.Outcome.next (hostAccess_read_of_hbm hb h)
  · exact congrArg Host.Outcome.next (hostAccess_read_elsewhere hb h)
  · exact congrArg Host.Outcome.next (hostAccess_write_sound hb h)
  · exact ⟨_, congrArg Host.Outcome.next (hostAccess_write_poisoned hb h), State.modDie_mem .., State.modDie_memTag .., State.modDie_hctxs ..⟩
  · exact congrArg Host.Outcome.next (submitRequest_of_sound hp hfree hroom hsound hr)
  · exact congrArg Host.Outcome.next (msixWrite_of_whole hv hlen hpend hold)

end Sys2Proof.Claims
end

section
/-! Checked herds, markhor pairs, links and wear (R340, R428..R431). -/

namespace Sys2Proof.Machine
open Sys2Proof.Claims

variable {s : State}

/-! ### A die after it was changed, and after it wrote a record -/

theorem State.modDie_die {die : Nat} {d : Die} (hd : s.dies[die]? = some d) (f : Die → Die) :
    (s.modDie die f).dies[die]? = some (f d) := by
  simp only [State.modDie, hd]
  exact lset_get_same _ _ _ (List.getElem?_eq_some_iff.mp hd).1

/-- A record leaves its die's queue and pairs, and the next one has the next number. -/
theorem errorRecord_die {die : Nat} {d : Die} (hd : s.dies[die]? = some d) (cls : BitVec 4) (kind part : Nat) (unit : BitVec 10)
    (wh detail : Word) :
    ∃ x, (errorRecord s die cls kind part unit wh detail).dies[die]? = some x ∧ x.pairs = d.pairs ∧ x.trapQ = d.trapQ ∧
      x.errSeq = d.errSeq + 1 :=
  ⟨_, State.modDie_die hd _, rfl, rfl, rfl⟩

/-! ### Checked herds (R428) -/

theorem checkedFail_of_running {id mem : Nat} {h : HerdCtx} {n : Node} {i : Inst} (hh : s.hc? id = some h)
    (hn : s.node? h.part h.node = some n) (hrun : n.state = .running) (hi : n.inst = some i) (hchk : n.checked = true)
    (hid : id ∈ i.hcs) (hst : h.hstate = .running) (hmem : mem < h.members.length) :
    checkedFail s id mem =
      failCommit (setNState (s.modMember id 0 fun m => { m with cir := m.cir ||| 0x20 }) h.part h.node .commit) h.part h.node n i
        (instCir (setNState (s.modMember id 0 fun m => { m with cir := m.cir ||| 0x20 }) h.part h.node .commit) i) := by
  have hc : (n.checked && i.hcs.contains id && h.hstate == .running && decide (mem < h.members.length)) = true := by
    simp [hchk, hid, hst, hmem]
  simp only [checkedFail, hh, hn, hrun, hi, hc, if_true]

/-! ### Markhor pairs (R429) -/

/-- A pair that has failed, with nothing more to compare. -/
def failedPair (s : State) (die pair : Nat) (p : Pair) : State :=
  s.modDie die fun d => { d with pairs := lset d.pairs pair { p with failed := true, mismatches := 0 } }

section
variable {die pair : Nat} {d : Die} {r : TrapRec} {rest : List TrapRec} {p : Pair}
variable (hd : s.dies[die]? = some d) (hq : d.trapQ = r :: rest) (hp : d.pairs[pair]? = some p) (hprot : d.unprotected = false)
  (hok : p.failed = false)
include hd hq hp hprot hok

theorem pairMismatch_first (hm : p.mismatches = 0) :
    pairMismatch s die pair = s.modDie die fun d => { d with pairs := lset d.pairs pair { p with mismatches := 1 } } := by
  simp only [pairMismatch, hd, hq, hp, hprot, hok, hm, Bool.or_self, Bool.false_eq_true, if_true, if_false]

/-- A pair that differs a second time fails, with a record of class 11. -/
theorem pairMismatch_again_eq (hm : p.mismatches ≠ 0) :
    pairMismatch s die pair =
      errorRecord { failedPair s die pair p with fresh := (failedPair s die pair p).fresh + 1 } die 11 2
        ((((failedPair s die pair p).hc? r.hc).map (·.part)).getD 63) (BitVec.ofNat 10 (2 * pair))
        (Config.recordField (failedPair s die pair p).fresh) 0 := by
  simp only [pairMismatch, hd, hq, hp, hprot, hok, hm, Bool.or_self, Bool.false_eq_true, if_false, failedPair]

theorem pairMismatch_again (hm : p.mismatches ≠ 0) :
    ∃ x, (pairMismatch s die pair).dies[die]? = some x ∧ x.pairs = lset d.pairs pair { p with failed := true, mismatches := 0 } ∧
      x.trapQ = d.trapQ ∧ x.errSeq = d.errSeq + 1 ∧ (pairMismatch s die pair).mem = s.mem ∧
      (pairMismatch s die pair).hctxs = s.hctxs := by
  rw [pairMismatch_again_eq hd hq hp hprot hok hm]
  obtain ⟨x, hx, hpairs, htrapQ, hseq⟩ := errorRecord_die
    (s := { failedPair s die pair p with fresh := (failedPair s die pair p).fresh + 1 }) (State.modDie_die hd _) 11 2
    ((((failedPair s die pair p).hc? r.hc).map (·.part)).getD 63) (BitVec.ofNat 10 (2 * pair))
    (Config.recordField (failedPair s die pair p).fresh) 0
  exact ⟨x, hx, hpairs, htrapQ, hseq, (State.modDie_mem ..).trans (State.modDie_mem ..),
    (State.modDie_hctxs ..).trans (State.modDie_hctxs ..)⟩

end

/-! ### Links and memory ports (R340, R430) -/

section
variable {port : Nat}

theorem crcRetry_of_live (hport : port < 18) (hl : s.linkFailed.contains port = false) :
    crcRetry s port = counted s ⟨Config.portDie port % 4, 8, BitVec.ofNat 10 port, 63, 0, 0⟩ :=
  if_pos ⟨hport, hl⟩

/-- A route's entry after a link has failed: DEAD where it is valid and uses the link. -/
def deadRoute (port : Nat) (e : BitVec 32) : BitVec 32 :=
  if usesPort port e && e.getLsbD 31 then e ||| 0x40000000 else e

theorem deadRoute_eq (port : Nat) (e : BitVec 32) :
    deadRoute port e = if (e.extractLsb' 0 5).toNat = port ∧ e.getLsbD 31 = true then e ||| 0x40000000 else e := by
  simp only [deadRoute, usesPort, Bool.and_eq_true, beq_iff_eq]

theorem failLink_of_live (hport : port < 18) (hl : s.linkFailed.contains port = false) :
    (failLink s port).linkFailed = nsAdd s.linkFailed port ∧ (failLink s port).mem = s.mem ∧
      ∀ k, aget (failLink s port).routes k = (aget s.routes k).map fun x =>
        if (x.extractLsb' 0 5).toNat = port ∧ x.getLsbD 31 = true then x ||| 0x40000000 else x := by
  rw [failLink, if_pos ⟨hport, hl⟩]
  refine ⟨rfl, State.modDie_mem .., fun k => (aget_map (deadRoute port) s.routes k).trans ?_⟩
  exact congrArg (Option.map · _) (funext (deadRoute_eq port))

theorem failCxl_of_live (hport : port < 8) (hl : s.cxlFailed.contains port = false) :
    (failCxl s port).cxlFailed = nsAdd s.cxlFailed port ∧ (failCxl s port).mem = s.mem ∧
      (failCxl s port).linkFailed = s.linkFailed := by
  rw [failCxl, if_pos ⟨hport, hl⟩]
  exact ⟨rfl, State.modDie_mem .., State.modDie_linkFailed ..⟩

end

/-! ### Wear (R431) -/

/-- A die whose sensors have reported. -/
def wornDie (poh eolh : BitVec 32) (d : Die) : Die :=
  { d with poh := poh, eolh := eolh, eolRaised := d.eolRaised || decide (eolh.toNat < poh.toNat + 8760) }

theorem firstLow_iff {poh eolh : BitVec 32} {raised : Bool} :
    (decide (eolh.toNat < poh.toNat + wearMargin) && !raised) = true ↔
      eolh.toNat < poh.toNat + 8760 ∧ raised = false := by
  rw [Bool.and_eq_true, decide_eq_true_eq, Bool.not_eq_true', wearMargin]

section
variable {die : Nat} {d : Die} (hd : s.dies[die]? = some d) (poh eolh : BitVec 32)
include hd

theorem wear_of_first_low (h : eolh.toNat < poh.toNat + 8760 ∧ d.eolRaised = false) :
    wear s die poh eolh = { s.modDie die (wornDie poh eolh) with mgrEvents := (s.modDie die (wornDie poh eolh)).mgrEvents + 1 } := by
  simp only [wear, hd]
  exact if_pos (firstLow_iff.mpr h)

theorem wear_of_known (h : ¬ (eolh.toNat < poh.toNat + 8760 ∧ d.eolRaised = false)) :
    wear s die poh eolh = s.modDie die (wornDie poh eolh) := by
  simp only [wear, hd]
  exact if_neg (mt firstLow_iff.mp h)

theorem wear_of_die :
    (wear s die poh eolh).dies[die]? = some (wornDie poh eolh d) ∧
      (wear s die poh eolh).mgrEvents =
        s.mgrEvents + (if eolh.toNat < poh.toNat + 8760 ∧ d.eolRaised = false then 1 else 0) ∧
      (wear s die poh eolh).mem = s.mem := by
  by_cases h : eolh.toNat < poh.toNat + 8760 ∧ d.eolRaised = false
  · rw [wear_of_first_low hd poh eolh h, if_pos h]
    exact ⟨State.modDie_die hd _, congrArg (· + 1) (State.modDie_mgrEvents ..), State.modDie_mem ..⟩
  · rw [wear_of_known hd poh eolh h, if_neg h]
    exact ⟨State.modDie_die hd _, State.modDie_mgrEvents .., State.modDie_mem ..⟩

end

end Sys2Proof.Machine

namespace Sys2Proof.Claims
open Sys2Proof.Machine

/-- Settles O52: each event ends as its unit's state says, and the record that it may write changes nothing but its die. -/
theorem linksPairsAndWear : Obligations.LinksPairsAndWear := by
  intro s
  refine ⟨fun id mi h n i hh hn hrun hi hchk hid hst hmem => ?_,
    fun die pair d r rest p hd hq hp hprot hok => ⟨fun hm => ?_, fun hm => ?_⟩,
    fun port hport hl => ⟨?_, _, rfl, failLink_of_live hport hl⟩, fun port hport hl => ⟨_, rfl, failCxl_of_live hport hl⟩,
    fun die d poh eolh hd => ⟨_, rfl, wear_of_die hd poh eolh⟩⟩
  · exact congrArg Host.Outcome.next (checkedFail_of_running hh hn hrun hi hchk hid hst hmem)
  · exact congrArg Host.Outcome.next (pairMismatch_first hd hq hp hprot hok hm)
  · obtain ⟨x, hx⟩ := pairMismatch_again hd hq hp hprot hok hm
    exact ⟨_, x, rfl, hx⟩
  · exact congrArg Host.Outcome.next (crcRetry_of_live hport hl)

end Sys2Proof.Claims
end

section
/-! A markhor pair takes its queue's oldest record and ends it (R363, R369, R376, R378, R385, R390). -/

namespace Sys2Proof.Machine
open Sys2Proof.Claims

variable {s : State} {id : Nat} {h : HerdCtx} {r : TrapRec}

/-! ### What a write of firmware leaves of the full/empty bits -/

theorem foldl_feEmpty {α : Type} {f : State → α → State} (hf : ∀ s a, (f s a).feEmpty = s.feEmpty) (l : List α) (s : State) :
    (l.foldl f s).feEmpty = s.feEmpty := by
  induction l generalizing s with
  | nil => rfl
  | cons a l ih => exact (ih (f s a)).trans (hf s a)

@[simp] theorem performStaged_feEmpty (s : State) (w : Who) (a : Nat) : (performStaged s w a).feEmpty = s.feEmpty := by
  unfold performStaged
  split
  · dsimp only
    split <;> simp
  · rfl

@[simp] theorem writeNow_feEmpty (s : State) (w : Who) (a : Nat) (l : List Byte) (t : Tag) :
    (writeNow s w a l t).feEmpty = s.feEmpty := by
  unfold writeNow
  split
  · simp [countFabErr]
  split
  · rfl
  · exact (foldl_feEmpty (fun _ _ => setMemTag_feEmpty ..) _ _).trans (foldl_feEmpty (fun _ _ => performStaged_feEmpty ..) _ _)

theorem locFull_congr {s t : State} (hfe : t.feEmpty = s.feEmpty) (hcores : ∀ c, (t.core c).spEmpty = (s.core c).spEmpty) (l : Loc) :
    locFull t l = locFull s l := by
  cases l with
  | mem pa => simp only [locFull, isFull, hfe]
  | sp c a => simp only [locFull, hcores]

/-! ### Parking a herd-context (R385, R390) -/

theorem writeParkEntry_frame (s : State) (h : HerdCtx) (spad : Bool) (key member op : Nat) (full : Bool) (seq : Nat) :
    (writeParkEntry s h spad key member op full seq).hctxs = s.hctxs ∧
      ∀ l, locFull (writeParkEntry s h spad key member op full seq) l = locFull s l := by
  unfold writeParkEntry
  split
  · exact ⟨rfl, fun _ => rfl⟩
  · dsimp only
    split
    · exact ⟨(quiet_putFw ..).1, locFull_congr (writeNow_feEmpty ..) fun c => by rw [State.core, putFw, writeNow_cores, State.core]⟩
    · exact ⟨rfl, fun _ => rfl⟩

/-- What parking makes of a herd-context: it is PARKED as `w` says, and a stop that was asked for is a forced one from now on
(R313). -/
def ParksAs (f : HerdCtx → HerdCtx) (w : Parked) : Prop :=
  ∀ h, (f h).hstate = .parked ∧ (f h).parked = some w ∧ (f h).stop = h.stop.map (fun _ => .forced) ∧ (f h).part = h.part

/-- The P bits of a word with the waiters that its partition has for it. -/
def withWaiters (s : State) (part : Nat) (spad : Bool) (key : Nat) : State :=
  setParkAt s part spad key (locPark s (keyLoc spad key) ||| parkBitsFor (waitersOf s part spad key))

/-- The number that a herd-context has for a word already, when it attempted that word last (R385). -/
def HerdCtx.numberFor (h : HerdCtx) (spad : Bool) (key : Nat) : Option Nat :=
  h.lastFe.bind fun (k, q) => if k = (if spad then 2 ^ 63 else 0) + key then some q else none

/-- The number with which a herd-context parks on a word. -/
def parkNumber (s : State) (h : HerdCtx) (spad : Bool) (key : Nat) : Nat :=
  (h.numberFor spad key).getD (((s.part? h.part).map fun p => (p.parkSeq + 1).toNat).getD 0)

/-- Its partition once the number is taken. -/
def withParkNumber (s : State) (h : HerdCtx) (spad : Bool) (key : Nat) : State :=
  if (h.numberFor spad key).isSome then s else s.modPart h.part fun p => { p with parkSeq := p.parkSeq + 1 }

/-- Firmware's copy of a record that names the waiter's number. -/
def TrapRec.numbered (r : TrapRec) (seq : Nat) : TrapRec :=
  { r with trap := { r.trap with data := lset r.trap.data 4 (BitVec.ofNat 64 seq) }, words := lset r.words 15 (BitVec.ofNat 64 seq) }

/-- The state in which a herd-context has its entry of the park table and has changed as `f` says. -/
def parkedOn (s : State) (id : Nat) (h : HerdCtx) (r : TrapRec) (spad : Bool) (key op : Nat) (full : Bool)
    (f : HerdCtx → HerdCtx) : State :=
  (writeParkEntry (withParkNumber s h spad key) h spad key r.lowest op full (parkNumber s h spad key)).modHc id f

/-- Parking takes a number, writes the entry and the P bits, and serves the word when it is as the waiter needs. -/
theorem exists_parkOn_eq (s : State) (id : Nat) (h : HerdCtx) (r : TrapRec) (spad : Bool) (key op : Nat) (full : Bool) :
    ∃ f, ParksAs f (.word spad key (r.numbered (parkNumber s h spad key)).lowest op full
        (BitVec.ofNat 64 (parkNumber s h spad key))) ∧
      parkOn s id h r spad key op full =
        if op = 0x83 then withWaiters (parkedOn s id h r spad key op full f) h.part spad key
        else if locFull (withWaiters (parkedOn s id h r spad key op full f) h.part spad key) (keyLoc spad key) == full then
          serveKey (withWaiters (parkedOn s id h r spad key op full f) h.part spad key) h.part spad key 0xF0 full
        else withWaiters (parkedOn s id h r spad key op full f) h.part spad key := by
  simp only [parkOn, withWaiters, parkedOn, parkNumber, withParkNumber, HerdCtx.numberFor, TrapRec.numbered]
  refine ⟨_, fun h => ⟨?_, ?_, ?stop, ?_⟩, rfl⟩
  case stop => cases h.stop <;> rfl
  all_goals rfl

/-! ### What a herd-context that parks leaves -/

theorem insertWaiter_ne_nil (x : Waiter) (l : List Waiter) : insertWaiter x l ≠ [] := by
  cases l with
  | nil => exact List.cons_ne_nil _ _
  | cons y l =>
    rw [insertWaiter]
    split <;> exact List.cons_ne_nil _ _

theorem foldl_insertWaiter_ne_nil {l : List Waiter} (hl : l ≠ []) (acc : List Waiter) :
    l.foldl (fun l x => insertWaiter x l) acc ≠ [] := by
  rw [← List.dropLast_append_getLast hl, List.foldl_append]
  exact insertWaiter_ne_nil _ _

theorem waitersOf_ne_nil {x : HerdCtx} {spad full : Bool} {key m op : Nat} {seq : Word} (hx : s.hc? id = some x)
    (hw : x.parked = some (.word spad key m op full seq)) : waitersOf s x.part spad key ≠ [] := by
  refine foldl_insertWaiter_ne_nil (List.ne_nil_of_mem (a := ⟨id, x, m, op, full, seq.toNat⟩) ?_) []
  refine List.mem_filterMap.mpr ⟨(id, x), mem_of_aget hx, ?_⟩
  simp [hw]

/-- PF is set while any waits. -/
theorem parkBitsFor_getLsbD_zero {l : List Waiter} (hl : l ≠ []) : (parkBitsFor l).getLsbD 0 = true := by
  rw [parkBitsFor, if_neg (by simpa using hl)]
  split_ifs <;> rfl

theorem withWaiters_hctxs (s : State) (part : Nat) (spad : Bool) (key : Nat) : (withWaiters s part spad key).hctxs = s.hctxs := by
  cases spad <;> rfl

theorem State.setCore_spEmpty {c : Nat} {k : Core} (hk : k.spEmpty = (s.core c).spEmpty) (d : Nat) :
    ((s.setCore c k).core d).spEmpty = (s.core d).spEmpty := by
  by_cases hd : d = c
  · rw [hd, State.setCore_core, hk]
  · rw [State.setCore_core_other _ _ _ _ hd]

theorem locFull_withWaiters (s : State) (part : Nat) (spad : Bool) (key : Nat) (l : Loc) :
    locFull (withWaiters s part spad key) l = locFull s l := by
  cases spad with
  | false => exact locFull_congr rfl (fun _ => rfl) l
  | true => exact locFull_congr (s := s) (t := withWaiters s part true key) rfl (State.setCore_spEmpty rfl) l

theorem locPark_setParkAt (s : State) (part : Nat) (spad : Bool) (key : Nat) {b : BitVec 3} (hb : b ≠ 0) :
    locPark (setParkAt s part spad key b) (keyLoc spad key) = b := by
  cases spad with
  | false => simp only [setParkAt, setPark, keyLoc, locPark, parkBits, if_neg hb, Bool.false_eq_true, if_false,
      aget_aset_same, Option.getD_some]
  | true => simp only [setParkAt, keyLoc, locPark, if_neg hb, if_true, State.setCore_core, aget_aset_same, Option.getD_some]

theorem locPark_withWaiters {part : Nat} {spad : Bool} {key : Nat} (h : waitersOf s part spad key ≠ []) :
    (locPark (withWaiters s part spad key) (keyLoc spad key)).getLsbD 0 = true := by
  have hpf : (locPark s (keyLoc spad key) ||| parkBitsFor (waitersOf s part spad key)).getLsbD 0 = true := by
    rw [BitVec.getLsbD_or, parkBitsFor_getLsbD_zero h, Bool.or_true]
  rw [withWaiters, locPark_setParkAt _ _ _ _ fun h0 => by simp [h0] at hpf]
  exact hpf

/-! ### A herd-context that is parked on a word that is not as it needs -/

section
variable {spad full : Bool} {key op : Nat} (hh : s.hc? id = some h)

theorem withParkNumber_frame (s : State) (h : HerdCtx) (spad : Bool) (key : Nat) :
    (withParkNumber s h spad key).hctxs = s.hctxs ∧ ∀ l, locFull (withParkNumber s h spad key) l = locFull s l := by
  unfold withParkNumber
  split
  · exact ⟨rfl, fun _ => rfl⟩
  · exact ⟨State.modPart_hctxs ..,
      locFull_congr (State.modPart_feEmpty ..) fun c => by rw [State.core, State.modPart_cores, State.core]⟩

theorem ofNat_parkNumber {n : Word} (hlast : h.lastFe = none) (hn : (s.part? h.part).map (·.parkSeq) = some n) :
    BitVec.ofNat 64 (parkNumber s h spad key) = n + 1 := by
  obtain ⟨p, hp, rfl⟩ := Option.map_eq_some_iff.mp hn
  have hnum : parkNumber s h spad key = (p.parkSeq + 1).toNat := by
    simp only [parkNumber, HerdCtx.numberFor, hlast, hp, Option.bind_none, Option.map_some, Option.getD_none, Option.getD_some]
  rw [hnum, BitVec.ofNat_toNat, BitVec.setWidth_eq]

/-- The number stands in a word of its own: FAULTMAP stays. -/
theorem lowest_numbered (r : TrapRec) (seq : Nat) : (r.numbered seq).lowest = r.lowest := by
  have hmap : (r.numbered seq).faulted = r.faulted := by
    funext mi
    rw [TrapRec.faulted, TrapRec.faulted, TrapRec.numbered, List.getD_eq_getElem?_getD, List.getD_eq_getElem?_getD,
      lset_get_other _ _ _ _ (by decide)]
  rw [TrapRec.lowest, TrapRec.lowest, hmap]

section
variable {f : HerdCtx → HerdCtx}

theorem locFull_parkedOn (l : Loc) : locFull (parkedOn s id h r spad key op full f) l = locFull s l := by
  refine (locFull_congr (State.modHc_feEmpty ..) (fun c => by rw [State.core, State.modHc_cores, State.core]) l).trans ?_
  exact ((writeParkEntry_frame ..).2 l).trans ((withParkNumber_frame ..).2 l)

include hh in
theorem parkedOn_hc : (parkedOn s id h r spad key op full f).hc? id = some (f h) := by
  have hhc : (writeParkEntry (withParkNumber s h spad key) h spad key r.lowest op full (parkNumber s h spad key)).hc? id = some h :=
    (congrArg (aget · id) ((writeParkEntry_frame ..).1.trans (withParkNumber_frame ..).1)).trans hh
  rw [parkedOn, State.modHc_hc, hhc, Option.map_some]

end

include hh in
/-- A herd-context that parks on a word which is not as it needs is PARKED with a waiter's number, and PF of the word is set. -/
theorem parksOn_parkOn (hwait : op = 0x83 ∨ locFull s (keyLoc spad key) ≠ full) :
    parksOn (parkOn s id h r spad key op full) id h spad key r.lowest op full ((s.part? h.part).map (·.parkSeq)) := by
  obtain ⟨f, hf, heq⟩ := exists_parkOn_eq s id h r spad key op full
  rw [lowest_numbered] at hf
  obtain ⟨hstate, hparked, hstop, hpart⟩ := hf h
  have hx : (parkedOn s id h r spad key op full f).hc? id = some (f h) := parkedOn_hc hh
  have hunserved : parkOn s id h r spad key op full = withWaiters (parkedOn s id h r spad key op full f) h.part spad key := by
    rw [heq, locFull_withWaiters, locFull_parkedOn]
    split_ifs with hop hnow
    · rfl
    · exact absurd (beq_iff_eq.mp hnow) (hwait.resolve_left hop)
    · rfl
  rw [hunserved]
  exact ⟨f h, BitVec.ofNat 64 (parkNumber s h spad key), (congrArg (aget · id) (withWaiters_hctxs ..)).trans hx, hstate, hparked,
    hstop, locPark_withWaiters (hpart ▸ waitersOf_ne_nil hx hparked), fun n hlast hn => ofNat_parkNumber hlast hn⟩

end

/-! ### The record that is taken -/

theorem recordTaken_hc {die : Nat} {rest : List TrapRec} (hh : s.hc? id = some h) : (recordTaken s die rest).hc? id = some h :=
  ((State.modDie_hc ..).trans (State.modDie_hc ..)).trans hh

/-- The oldest record of a die with a pair that has not failed leaves its queue and is ended. -/
theorem takeRecord_eq {die : Nat} {d : Die} {rest : List TrapRec} (hd : s.dies[die]? = some d) (hq : d.trapQ = r :: rest)
    (hp : ∃ p ∈ d.pairs, p.failed = false) (hh : s.hc? r.hc = some h) (hst : h.hstate = .frozen) :
    takeRecord s die = endTrap (recordTaken s die rest) r.hc h r := by
  have hwork : ¬ d.pairs.all (·.failed) = true := by simpa using hp
  have hhc := recordTaken_hc (die := die) (rest := rest) hh
  rw [recordTaken] at hhc
  simp only [takeRecord, hd, hq, if_neg hwork, hhc, hst, bne_self_eq_false, Bool.false_eq_true, if_false, recordTaken]

/-! ### How a record is ended, by its cause -/

theorem endTrap_of_halts (hc : r.trap.cause ∈ halts) : endTrap s id h r = haltTrap s h r := by
  unfold endTrap
  generalize r.trap.cause = c at hc
  fin_cases hc <;> rfl

theorem endTrap_of_holds (hc : r.trap.cause ∈ holds) : endTrap s id h r = holdHc s id h r := by
  unfold endTrap
  generalize r.trap.cause = c at hc
  fin_cases hc <;> rfl

theorem endTrap_of_waits (hc : r.trap.cause ∈ waits) : endTrap s id h r = s := by
  unfold endTrap
  generalize r.trap.cause = c at hc
  fin_cases hc <;> rfl

theorem holdHc_eq (hc : r.trap.cause ≠ .xlateS2) : holdHc s id h r = heldWith s id h r :=
  if_neg hc

/-! #### Link entries -/

theorem endTrap_linkOverflow (hc : r.trap.cause = .linkOverflow) : endTrap s id h r = spillLinks s id h r := by
  simp only [endTrap, hc]

theorem endTrap_linkEmpty (hc : r.trap.cause = .linkEmpty) : endTrap s id h r = refillLinks s id h r := by
  simp only [endTrap, hc]

section
variable {n : Node} (hn : s.node? h.part h.node = some n)
include hn

theorem spillLinks_of_room (hsave : n.field 136 8 ≠ 0) (hlen : h.spill.length < 256) :
    spillLinks s id h r = resumeHc ((writeSaveArea s h).setHc id { h with
      links := h.links.take (h.links.length - 16), spill := h.links.drop (h.links.length - 16) ++ h.spill,
      fresh := h.fresh + h.members.length }) id := by
  simp only [spillLinks, hn, Option.map_some, Option.getD_some, hsave, Nat.not_le.mpr hlen, or_self, if_false]

theorem spillLinks_of_none (hfull : n.field 136 8 = 0 ∨ 256 ≤ h.spill.length) : spillLinks s id h r = haltTrap s h r := by
  simp only [spillLinks, hn, Option.map_some, Option.getD_some, hfull, if_true]

end

theorem refillLinks_of_empty (hs : h.spill = []) : refillLinks s id h r = haltTrap s h r := by
  rw [refillLinks, hs]
  exact if_pos rfl

theorem refillLinks_of_spilled (hs : h.spill ≠ []) :
    refillLinks s id h r = resumeHc (s.setHc id { h with links := h.links ++ h.spill.take 16, spill := h.spill.drop 16 }) id :=
  if_neg (by simpa using hs)

/-! #### Words that are awaited -/

theorem endTrap_feBudget (hc : r.trap.cause = .feBudget) :
    endTrap s id h r = parkOn s id h r (askedWord r).1 (askedWord r).2 (askedOp r) (!(askedOp r == 0x12 || askedOp r == 0x2B)) := by
  simp only [endTrap, hc]
  rfl

theorem endTrap_blockMoving (hc : r.trap.cause = .blockMoving) : endTrap s id h r = parkMoving s id h r := by
  simp only [endTrap, hc]

theorem parkMoving_of_untranslated {f : WalkFail} (hx : translate s h.part true r.trap.addr2.toNat 0 = .error f) :
    parkMoving s id h r = holdHc s id h r := by
  simp only [parkMoving, hx]

section
variable {pg : Page} (hx : translate s h.part true r.trap.addr2.toNat 0 = .ok pg)
include hx

theorem parkMoving_of_moved (hmv : (mem64 s (pg.pa r.trap.addr2.toNat)).getLsbD 3 = false) :
    parkMoving s id h r = resumeHc s id := by
  simp only [parkMoving, hx, hmv, Bool.false_eq_true, if_false]

theorem parksOn_parkMoving (hh : s.hc? id = some h) (hmv : (mem64 s (pg.pa r.trap.addr2.toNat)).getLsbD 3 = true) :
    parksOn (parkMoving s id h r) id h false (pg.pa r.trap.addr2.toNat / 8 * 8) r.lowest 0x83 true
      ((s.part? h.part).map (·.parkSeq)) := by
  simp only [parkMoving, hx, hmv, if_true]
  exact parksOn_parkOn (r := { r with trap := { r.trap with data := _ } }) hh (.inl rfl)

end

/-! #### Translations and handles -/

theorem endTrap_xlateS2 (hc : r.trap.cause = .xlateS2) :
    endTrap s id h r = stage2Log (s.modHc id fun h => { h with held := true }) h.part r.words := by
  simp only [endTrap, hc]
  exact if_pos hc

theorem endTrap_xlateS1 (hc : r.trap.cause = .xlateS1) :
    endTrap s id h r = if r.fetch = true then haltTrap s h r else heldWith s id h r := by
  rw [← holdHc_eq (by simp [hc])]
  simp only [endTrap, hc]

theorem endTrap_handleInvalid (hc : r.trap.cause = .handleInvalid) :
    endTrap s id h r = if r.wasRevoked = true then s else haltTrap s h r := by
  simp only [endTrap, hc]

end Sys2Proof.Machine

namespace Sys2Proof.Claims
open Sys2Proof.Machine

/-- Settles O46: the record leaves its queue, and its cause says what becomes of the herd-context. -/
theorem recordsAreTakenAndEnded : Obligations.RecordsAreTakenAndEnded := by
  intro s die d r rest h hd hq hp hh hst t go
  obtain ⟨hgo, ht⟩ : go = .next (endTrap t r.hc h r) ∧ t.hc? r.hc = some h :=
    ⟨congrArg Host.Outcome.next (takeRecord_eq hd hq hp hh hst), recordTaken_hc hh⟩
  rw [hgo]
  refine ⟨fun hc => ?halts, fun hc => ?holds, fun hc => ?waits, fun hc => ?s2, fun hc hf => ?data, fun hc hf => ?fetch,
    fun hc hr => ?revoked, fun hc hr => ?invalid, fun n hc hn hsave hlen => ?spill, fun n hc hn hfull => ?full,
    fun hc => ?budget, fun pg hc hx => ⟨fun hmv => ⟨_, rfl, ?moving⟩, fun hmv => ?moved⟩,
    fun f hc hx => ?untranslated, fun hc hs => ?empty, fun hc hs => ?refill⟩
  case halts => rw [endTrap_of_halts hc, haltTrap]
  case holds => rw [endTrap_of_holds hc, holdHc_eq (by rintro h2; rw [h2] at hc; revert hc; decide)]
  case waits => rw [endTrap_of_waits hc]
  case s2 => rw [endTrap_xlateS2 hc]
  case data => rw [endTrap_xlateS1 hc, if_neg (by rw [hf]; exact Bool.false_ne_true)]
  case fetch => rw [endTrap_xlateS1 hc, if_pos hf, haltTrap]
  case revoked => rw [endTrap_handleInvalid hc, if_pos hr]
  case invalid => rw [endTrap_handleInvalid hc, if_neg (by rw [hr]; exact Bool.false_ne_true), haltTrap]
  case spill => rw [endTrap_linkOverflow hc, spillLinks_of_room hn hsave hlen]
  case full => rw [endTrap_linkOverflow hc, spillLinks_of_none hn hfull, haltTrap]
  case budget =>
    intro w full _ hwait
    rw [endTrap_feBudget hc]
    exact ⟨_, rfl, parksOn_parkOn ht (.inr hwait)⟩
  case moving =>
    rw [endTrap_blockMoving hc]
    exact parksOn_parkMoving hx ht hmv
  case moved => rw [endTrap_blockMoving hc, parkMoving_of_moved hx hmv]
  case untranslated => rw [endTrap_blockMoving hc, parkMoving_of_untranslated hx, holdHc_eq (by simp [hc])]
  case empty => rw [endTrap_linkEmpty hc, refillLinks_of_empty hs, haltTrap]
  case refill => rw [endTrap_linkEmpty hc, refillLinks_of_spilled hs]

end Sys2Proof.Claims
end

section
/-! What an event leaves of the nodes outside of their instances: their descriptors, states and counts. -/

namespace Sys2Proof.Machine
open Sys2Proof.Claims

/-- A node without what its instance holds, and whether it has one. -/
def Node.outside (n : Node) : Node × Bool := ({ n with inst := none }, n.inst.isSome)

/-- Every node of `t` is the one of `s` but for what its instance holds. -/
structure SameNodes (s t : State) : Prop where
  outside_node : ∀ p k, (t.node? p k).map Node.outside = (s.node? p k).map Node.outside

theorem SameNodes.refl (s : State) : SameNodes s s := ⟨fun _ _ => rfl⟩

theorem SameNodes.trans {s t u : State} (h : SameNodes s t) (k : SameNodes t u) : SameNodes s u :=
  ⟨fun p n => (k.outside_node p n).trans (h.outside_node p n)⟩

theorem SameNodes.after {s t u : State} (k : SameNodes t u) (h : SameNodes s t) : SameNodes s u := h.trans k

theorem SameNodes.of_parts {s t : State} (h : t.parts = s.parts) : SameNodes s t := by
  refine ⟨fun p k => ?_⟩
  rw [State.node?, State.node?, State.part?, State.part?, h]

theorem SameNodes.of_parts_map {s t : State} {f : Part → Part} (hf : ∀ x, (f x).nodes = x.nodes)
    (h : t.parts = s.parts.map fun x => (x.1, f x.2)) : SameNodes s t := by
  refine ⟨fun p k => ?_⟩
  rw [State.node?, State.node?, State.part?, State.part?, h, aget_map f]
  cases aget s.parts p with
  | none => rfl
  | some x => exact congrArg (fun m => (aget m k).map Node.outside) (hf x)

theorem SameNodes.ite {s t u : State} {c : Prop} [Decidable c] (h : SameNodes s t) (k : SameNodes s u) :
    SameNodes s (if c then t else u) := by
  split
  · exact h
  · exact k

theorem SameNodes.foldl {α : Type} {f : State → α → State} (hf : ∀ s a, SameNodes s (f s a)) (l : List α) (s : State) :
    SameNodes s (l.foldl f s) :=
  List.foldlRecOn l f (SameNodes.refl s) fun t ht a _ => ht.trans (hf t a)

/-! ### Changes of a partition -/

section
variable (s : State) (part node : Nat)

theorem sameNodes_modPart_of_outside {f : Part → Part}
    (hf : ∀ x k, (aget (f x).nodes k).map Node.outside = (aget x.nodes k).map Node.outside) : SameNodes s (s.modPart part f) := by
  refine ⟨fun p k => ?_⟩
  by_cases hp : p = part
  · subst hp
    rw [State.node?, State.node?, State.modPart_part]
    cases s.part? p with
    | none => rfl
    | some x => exact hf x k
  · rw [State.node?, State.node?, State.modPart]
    split
    · rw [State.setPart_part_other _ _ _ _ hp]
    · rfl

theorem sameNodes_modPart {f : Part → Part} (hf : ∀ x, (f x).nodes = x.nodes) : SameNodes s (s.modPart part f) :=
  sameNodes_modPart_of_outside s part fun x k => by rw [hf]

theorem Node.outside_map_inst (n : Node) (f : Inst → Inst) : ({ n with inst := n.inst.map f } : Node).outside = n.outside := by
  rw [Node.outside, Node.outside, Option.isSome_map]

theorem sameNodes_modInst (f : Inst → Inst) : SameNodes s (s.modInst part node f) := by
  refine ⟨fun p k => ?_⟩
  by_cases h : p = part ∧ k = node
  · obtain ⟨rfl, rfl⟩ := h
    rw [State.modInst, State.node_modNode_same, Option.map_map]
    cases s.node? p k with
    | none => rfl
    | some n => exact congrArg some (n.outside_map_inst f)
  · rw [State.modInst, State.node_modNode_other _ _ _ _ _ _ h]

/-- A node whose instance does not wait for staging records. -/
def unheld (n : Node) : Node := { n with inst := n.inst.map fun i => { i with waitStage := false } }

theorem sameNodes_freeRecords (i : Inst) : SameNodes s (freeRecords s part i) := by
  refine sameNodes_modPart_of_outside s part fun x k => ?_
  simp only [Part.freeStage]
  split
  · rfl
  · refine (congrArg (Option.map Node.outside) (aget_map unheld x.nodes k)).trans ?_
    rw [Option.map_map]
    exact congrArg (Option.map · _) (funext fun n => n.outside_map_inst _)

theorem sameNodes_unqueue : SameNodes s (unqueue s part node) :=
  sameNodes_modPart s part fun _ => rfl

end

/-! ### Writes and counter adds -/

section
variable (s : State) (w : Who) (a : Nat) (l : List Byte) (t : Tag)

theorem sameNodes_tagWrite (n : Nat) : SameNodes s (tagWrite s a n t) := by
  refine SameNodes.foldl (fun s k => ?_) _ s
  exact SameNodes.of_parts rfl

theorem sameNodes_putMem : SameNodes s (putMem s a l) := SameNodes.of_parts rfl

theorem sameNodes_performStaged : SameNodes s (performStaged s w a) := by
  unfold performStaged
  split
  · dsimp only
    exact SameNodes.ite (SameNodes.refl s) ((sameNodes_modInst ..).after (SameNodes.of_parts rfl))
  · exact SameNodes.refl s

theorem sameNodes_writeNow : SameNodes s (writeNow s w a l t) :=
  SameNodes.ite (sameNodes_modPart s _ fun _ => rfl) (SameNodes.ite (SameNodes.refl s)
    ((sameNodes_tagWrite ..).after ((sameNodes_putMem ..).after
      (SameNodes.foldl (fun s k => sameNodes_performStaged s w ((a / 8 + k) * 8)) _ s))))

theorem sameNodes_putFw (part : Nat) : SameNodes s (putFw s part a l) := sameNodes_writeNow ..

theorem sameNodes_markIrrev : SameNodes s (markIrrev s w) := by
  unfold markIrrev
  split
  · exact sameNodes_modInst ..
  · exact SameNodes.refl s

theorem sameNodes_writeImm : SameNodes s (writeImm s w a l t) := (sameNodes_markIrrev ..).after (sameNodes_writeNow ..)

theorem sameNodes_noteAdd (v : Nat) : SameNodes s (noteAdd s a v) := SameNodes.ite (SameNodes.of_parts rfl) (SameNodes.refl s)

theorem sameNodes_counterAdd (v : BitVec 32) : SameNodes s (counterAdd s w a v t) :=
  SameNodes.ite ((sameNodes_noteAdd ..).after (sameNodes_writeImm ..)) (sameNodes_writeImm ..)

theorem sameNodes_reach {u : State} {part va pa : Nat} {sys : Bool} {i : BitVec 2} (h : reach s part sys va i = .ok (u, pa)) :
    SameNodes s u := by
  obtain ⟨_, _, rfl⟩ := memoryOnly_reach _ _ _ _ _ _ _ h
  exact SameNodes.of_parts rfl

theorem sameNodes_addVa (part : Nat) (va : Word) (v : BitVec 32) : SameNodes s (addVa s part va v) := by
  unfold addVa
  refine SameNodes.ite (SameNodes.refl s) ?_
  split
  · next h => exact (sameNodes_counterAdd ..).after (sameNodes_reach s h)
  · exact SameNodes.refl s

theorem sameNodes_raiseEvent (part : Nat) : SameNodes s (raiseEvent s part) := by
  unfold raiseEvent
  split
  · exact sameNodes_addVa ..
  · exact SameNodes.refl s

theorem sameNodes_writeBytes {u : State} (h : writeBytes s w a l t = some u) : SameNodes s u := by
  unfold writeBytes at h
  split at h
  · unfold writeStaged at h
    split at h
    · dsimp only at h
      split at h
      · cases h
      · rw [← Option.some.inj h]
        exact (sameNodes_modInst ..).after (sameNodes_modPart s _ fun _ => rfl)
    · rw [← Option.some.inj h]
      exact sameNodes_writeNow ..
  · rw [← Option.some.inj h]
    exact sameNodes_writeImm ..

end

/-! ### Full and empty words, and what a stream pushes -/

theorem sameNodes_wakeRecord (s : State) (spad : Bool) (key op : Nat) (full : Bool) :
    SameNodes s (wakeRecord s spad key op full) := by
  unfold wakeRecord
  split
  · exact SameNodes.refl s
  split
  · exact SameNodes.refl s
  split
  · exact SameNodes.refl s
  next hr =>
    refine (sameNodes_reach s hr).trans ?_
    dsimp only
    split
    · exact (sameNodes_counterAdd ..).after (sameNodes_putFw ..)
    · exact sameNodes_counterAdd ..

theorem sameNodes_locSetFull (s : State) (l : Loc) (full : Bool) (op : Nat) : SameNodes s (locSetFull s l full op) := by
  cases l with
  | mem pa =>
    exact SameNodes.ite ((sameNodes_wakeRecord ..).after (SameNodes.of_parts rfl)) (SameNodes.of_parts rfl)
  | sp c a =>
    exact SameNodes.ite ((sameNodes_wakeRecord ..).after (SameNodes.of_parts rfl)) (SameNodes.of_parts rfl)

theorem sameNodes_sendFull (s : State) (w : Who) (l : Loc) (full : Bool) (op : Nat) : SameNodes s (sendFull s w l full op) :=
  SameNodes.ite (SameNodes.refl s) (sameNodes_locSetFull ..)

theorem sameNodes_locWrite {s u : State} {w : Who} {l : Loc} {d : List Byte} {t : Tag} {imm : Bool}
    (h : locWrite s w l d t imm = some u) : SameNodes s u := by
  cases l with
  | mem pa =>
    cases imm with
    | true => rw [← Option.some.inj h]; exact sameNodes_writeImm ..
    | false => exact sameNodes_writeBytes s w pa d t h
  | sp c a =>
    rw [← Option.some.inj h]
    refine (SameNodes.foldl (fun s x => ?_) _ s).trans (SameNodes.foldl (fun s k => ?_) _ _)
    · exact SameNodes.of_parts rfl
    · exact SameNodes.of_parts rfl

theorem sameNodes_writeOut {s u : State} {w : Who} {l : List OutElem} (h : writeOut s w l = some u) : SameNodes s u := by
  induction l generalizing s with
  | nil => rw [← Option.some.inj h]; exact SameNodes.refl s
  | cons e r ih =>
    unfold writeOut at h
    split at h
    · cases h
    next hw =>
      exact ((sameNodes_locWrite hw).trans (SameNodes.ite (sameNodes_sendFull ..) (SameNodes.refl _))).trans (ih h)

theorem sameNodes_flushStrm (s : State) (id mi q : Nat) : SameNodes s (flushStrm s id mi q) := by
  unfold flushStrm
  split
  · exact SameNodes.refl s
  split
  · exact SameNodes.refl s
  split
  · exact SameNodes.refl s
  refine SameNodes.ite (SameNodes.refl s) ?_
  split
  · next hw => exact (sameNodes_writeOut hw).trans (SameNodes.of_parts (State.modMember_parts ..))
  · exact SameNodes.refl s

theorem sameNodes_flushAll (s : State) (ids : List Nat) : SameNodes s (flushAll s ids) := by
  refine SameNodes.foldl (fun s id => ?_) ids s
  unfold flushPushes
  split
  · exact SameNodes.refl s
  · exact SameNodes.ite (SameNodes.foldl (fun s mi => SameNodes.foldl (fun s q => sameNodes_flushStrm s id mi q) _ s) _ s)
      (SameNodes.refl s)

/-! ### Logs, herd-contexts that are removed, and regenerations that fail -/

theorem sameNodes_faultLog (s : State) (part : Nat) (words : List Word) : SameNodes s (faultLog s part words) := by
  unfold faultLog
  split
  · exact SameNodes.refl s
  dsimp only
  split
  · exact SameNodes.refl s
  split
  · exact (sameNodes_putFw ..).after (sameNodes_putFw ..)
  · exact sameNodes_putFw ..

theorem sameNodes_stage2Log (s : State) (part : Nat) (words : List Word) : SameNodes s (stage2Log s part words) := by
  refine SameNodes.trans (t := appendRing s _ words) ?_ (SameNodes.of_parts rfl)
  exact SameNodes.ite (SameNodes.refl s) ((sameNodes_putFw ..).after (sameNodes_putFw ..))

theorem sameNodes_unstageCopies (s : State) (part node : Nat) : SameNodes s (unstageCopies s part node) :=
  SameNodes.ite (SameNodes.of_parts rfl) (SameNodes.refl s)

theorem sameNodes_removeHcs (s : State) (ids : List Nat) : SameNodes s (removeHcs s ids) := by
  unfold removeHcs
  dsimp only
  refine SameNodes.trans (SameNodes.foldl (fun s id => ?_) ids s)
    (SameNodes.of_parts_map (f := fun p => { p with restore := p.restore.filter fun x => !ids.contains x }) (fun _ => rfl) rfl)
  split
  · refine SameNodes.ite (SameNodes.refl s) ?_
    obtain ⟨_, hc⟩ := coresOnly_releaseClaims s ‹_›
    exact SameNodes.of_parts (hc ▸ rfl)
  · exact SameNodes.refl s

theorem sameNodes_failRegens (s : State) (part node : Nat) : SameNodes s (failRegens s part node) := by
  unfold failRegens
  split
  · exact SameNodes.refl s
  dsimp only
  refine SameNodes.after (SameNodes.foldl (fun s x => ?_) _ _) (sameNodes_modPart s part fun _ => rfl)
  split
  · refine SameNodes.ite ((sameNodes_raiseEvent ..).after (SameNodes.after (SameNodes.of_parts (State.setHc_parts ..)) ?_))
      (SameNodes.refl s)
    split
    · exact sameNodes_faultLog ..
    · exact SameNodes.refl s
  · exact SameNodes.refl s

end Sys2Proof.Machine
end

section
/-! Nodes fire at their threshold, and a completed instance leaves its node (R92, R307, R308, R312). -/

namespace Sys2Proof.Machine
open Sys2Proof.Claims

variable {s t : State} {part node : Nat} {p : Part} {n y : Node}

/-! ### What an unchanged outside says of a node -/

theorem SameNodes.exists_node (h : SameNodes s t) (hn : s.node? part node = some n) :
    ∃ x, t.node? part node = some x ∧ x.outside = n.outside := by
  have hx := h.outside_node part node
  rw [hn] at hx
  exact Option.map_eq_some_iff.mp hx

theorem Node.eq_of_outside (h : y.outside = n.outside) : y = { n with inst := y.inst } :=
  congrArg (fun o : Node × Bool => { o.1 with inst := y.inst }) h

theorem Node.inst_of_outside (h : y.outside = n.outside) (hn : n.inst = none) : y.inst = none := by
  have hsome : y.inst.isSome = n.inst.isSome := congrArg Prod.snd h
  rw [hn] at hsome
  exact Option.not_isSome_iff_eq_none.mp (by simp [hsome])

theorem Node.donen_of_outside (h : y.outside = n.outside) : y.donen = n.donen :=
  congrArg (fun o : Node × Bool => o.1.donen) h

theorem Node.state_of_outside (h : y.outside = n.outside) : y.state = n.state :=
  congrArg (fun o : Node × Bool => o.1.state) h

theorem setNState_node (hn : s.node? part node = some n) (x : NState) :
    (setNState s part node x).node? part node = some { n with state := x } := by
  rw [setNState, State.node_modNode_same, hn, Option.map_some]

/-! ### Nodes that halt (R291, R307) -/

/-- A node whose instance is discarded has none. -/
theorem discardInst_node (hn : s.node? part node = some n) :
    ∃ x, (discardInst s part node).node? part node = some x ∧ x.inst = none ∧ x.donen = n.donen := by
  obtain ⟨y, hy, hout⟩ := (sameNodes_flushAll s (((s.inst? part node).map (·.hcs)).getD [])).exists_node hn
  unfold discardInst
  dsimp only
  split
  · next hi =>
    rw [State.inst?, hy] at hi
    exact ⟨y, hy, hi, Node.donen_of_outside hout⟩
  · next i hi =>
    obtain ⟨z, hz, hout'⟩ := SameNodes.exists_node ((sameNodes_removeHcs _ i.hcs).after ((sameNodes_unstageCopies _ part node).after
      (sameNodes_freeRecords _ part i))) hy
    refine ⟨{ z with inst := none }, ?_, rfl, (Node.donen_of_outside hout').trans (Node.donen_of_outside hout)⟩
    rw [State.node_modNode_same, hz, Option.map_some]

theorem haltNode_node (hn : s.node? part node = some n) :
    ∃ x, (haltNode s part node).node? part node = some x ∧ x.state = .halted ∧ x.inst = none ∧ x.donen = n.donen := by
  obtain ⟨y, hy, hyi, hyd⟩ := discardInst_node hn
  obtain ⟨z, hz, hzo⟩ := (sameNodes_unqueue (discardInst s part node) part node).exists_node hy
  have hzi := Node.inst_of_outside hzo hyi
  have hw := setNState_node hz .halted
  obtain ⟨x, hx, hxo⟩ := SameNodes.exists_node ((sameNodes_raiseEvent _ part).after ((sameNodes_failRegens _ part node).after
    (sameNodes_modPart _ part (f := fun p => { p with halted := true }) fun _ => rfl))) hw
  exact ⟨x, hx, Node.state_of_outside hxo, Node.inst_of_outside hxo hzi,
    (Node.donen_of_outside hxo).trans ((Node.donen_of_outside hzo).trans hyd)⟩

theorem nodeFault_node (hn : s.node? part node = some n) (f : Trap) :
    ∃ x, (nodeFault s part node f).node? part node = some x ∧ x.state = .halted ∧ x.inst = none ∧ x.donen = n.donen := by
  have hlog : ∃ u, SameNodes s u ∧ nodeFault s part node f = haltNode u part node := by
    refine ⟨_, ?_, rfl⟩
    exact SameNodes.ite ((sameNodes_faultLog ..).after (sameNodes_stage2Log ..)) (sameNodes_faultLog ..)
  obtain ⟨u, hu, hfault⟩ := hlog
  obtain ⟨y, hy, hout⟩ := hu.exists_node hn
  rw [hfault, ← Node.donen_of_outside hout]
  exact haltNode_node hy

/-! ### Completed instances (R307, R308) -/

/-- A node whose instance has completed and left it. -/
def Node.rested (n : Node) : Node :=
  { n with
    donen := n.donen + 1, inst := none, requeues := 0, rollback := none, state := restingState n
    owed := if n.owed = 0 then 0 else n.owed - 1 }

/-- The partition without the regenerations that a completed instance has run. -/
def regensServed (s : State) (part node : Nat) : State :=
  s.modPart part fun p => { p with regens := p.regens.filter fun r => !(r.node == node && r.launched) }

theorem enqueueNode_node (s : State) (part node prio : Nat) (front : Bool) (q k : Nat) :
    (enqueueNode s part node prio front).node? q k = s.node? q k :=
  State.node_modPart _ _ _ _ _ fun _ => rfl

/-- A node that its completed instance has left, before it is queued again. -/
def Node.vacated (n : Node) : Node := { n with donen := n.donen + 1, inst := none, requeues := 0, rollback := none }

section
variable (hn : s.node? part node = some n)
include hn

/-- Without a JCB that awaits its last completion, a node that no disarm waits for goes on with a firing that it owes, or rests. -/
theorem finishRest_eq (hd : n.disarm = false) (hj : n.field 128 8 = 0 ∨ n.last = false ∨ n.owed ≠ 0) :
    finishRest s part node =
      if n.owed ≠ 0 then
        enqueueNode ((regensServed (s.modNode part node fun _ => n.vacated) part node).modNode part node fun n =>
          { n with state := .ready, owed := n.owed - 1 }) part node n.prio false
      else setNState (regensServed (s.modNode part node fun _ => n.vacated) part node) part node (if n.last then .done else .armed) := by
  have hjob : ¬ (n.last = true ∧ n.owed = 0 ∧ n.field 128 8 ≠ 0) := by
    rintro ⟨hl, ho, hf⟩
    rcases hj with h | h | h
    · exact hf h
    · exact absurd hl (by rw [h]; exact Bool.false_ne_true)
    · exact h ho
  unfold finishRest
  rw [hn]
  dsimp only
  split
  · next u hu => cases (if_neg hjob).symm.trans hu
  · next u hu =>
    obtain rfl := Except.ok.inj ((if_neg hjob).symm.trans hu)
    exact if_neg (by rw [hd]; exact Bool.false_ne_true)

theorem vacated_node : (regensServed (s.modNode part node fun _ => n.vacated) part node).node? part node = some n.vacated := by
  refine (State.node_modPart _ _ _ _ _ ?_).trans ?_
  · exact fun _ => rfl
  · rw [State.node_modNode_same, hn, Option.map_some]

theorem finishRest_node (hd : n.disarm = false) (hj : n.field 128 8 = 0 ∨ n.last = false ∨ n.owed ≠ 0) :
    (finishRest s part node).node? part node = some n.rested := by
  rw [finishRest_eq hn hd hj]
  by_cases ho : n.owed = 0
  · rw [if_neg (not_not.mpr ho), setNState_node (vacated_node hn)]
    simp only [Node.vacated, Node.rested, restingState, ho, ne_eq, not_true_eq_false, if_false, if_true]
  · rw [if_pos ho, enqueueNode_node, State.node_modNode_same, vacated_node hn, Option.map_some]
    simp only [Node.vacated, Node.rested, restingState, ho, ne_eq, not_false_eq_true, if_false, if_true]

end

/-- An add that a node makes leaves every node as it is, or the node is at fault. -/
theorem nodeAdd_of_translated {va : Nat} (v : BitVec 32) (h : va = 0 ∨ (reach s part true va 3).toOption.isSome = true) :
    ∃ u, nodeAdd s part node va v = .ok u ∧ SameNodes s u := by
  unfold nodeAdd
  split
  · exact ⟨s, rfl, SameNodes.refl s⟩
  · next hva =>
    cases hr : reach s part true va 3 with
    | error f => exact absurd (h.resolve_left hva) (by rw [hr]; exact Bool.false_ne_true)
    | ok x => exact ⟨_, rfl, (sameNodes_counterAdd ..).after (sameNodes_reach s hr)⟩

theorem nodeAdd_of_untranslated {va : Nat} (v : BitVec 32) (hva : va ≠ 0) (h : (reach s part true va 3).toOption.isSome = false) :
    ∃ f, nodeAdd s part node va v = .error (nodeFault s part node f) := by
  rw [nodeAdd, if_neg hva]
  cases hr : reach s part true va 3 with
  | error f => exact ⟨_, rfl⟩
  | ok x => exact absurd h (by rw [hr]; exact Bool.noConfusion)

theorem finishInst_of_added {u : State} (hn : s.node? part node = some n)
    (hu : nodeAdd s part node (n.field 112 8) (BitVec.ofNat 32 (n.field 120 4)) = .ok u) :
    finishInst s part node = finishRest u part node := by
  simp only [finishInst, hn, hu]

theorem finishInst_of_fault {u : State} (hn : s.node? part node = some n)
    (hu : nodeAdd s part node (n.field 112 8) (BitVec.ofNat 32 (n.field 120 4)) = .error u) :
    finishInst s part node = u := by
  simp only [finishInst, hn, hu]

end Sys2Proof.Machine

namespace Sys2Proof.Claims
open Sys2Proof.Machine

theorem completedInstancesLeaveTheirNode : CompletedInstancesLeaveTheirNode := by
  intro s part node n hn done
  have hcommit := setNState_node hn .commit
  refine ⟨fun hd hj hr => ?leaves, fun hva hr => ?halts⟩
  case leaves =>
    obtain ⟨u, hu, hsame⟩ := nodeAdd_of_translated (node := node) (BitVec.ofNat 32 (n.field 120 4)) hr
    obtain ⟨y, hy, hout⟩ := hsame.exists_node hcommit
    rw [Node.eq_of_outside hout] at hy
    rw [completes, finishInst_of_added hcommit hu]
    exact ⟨n.rested, (finishRest_node hy hd hj).trans rfl, rfl, rfl, rfl, rfl, rfl, rfl, rfl⟩
  case halts =>
    obtain ⟨f, hf⟩ := nodeAdd_of_untranslated (node := node) (BitVec.ofNat 32 (n.field 120 4)) hva hr
    rw [completes, finishInst_of_fault hcommit hf]
    exact nodeFault_node hcommit f

end Sys2Proof.Claims
end

section
/-! The nodes that watch a counter fire at its adds (R92, R308, R312). -/

namespace Sys2Proof.Machine
open Sys2Proof.Claims

variable {s : State} {part node pa v : Nat} {p : Part} {n : Node}

/-! ### Fields of a descriptor after THRESH was written -/

theorem Node.lt_length_of_field {o k : Nat} (h : n.field o k ≠ 0) : o < n.desc.length := by
  by_contra hlen
  refine h ?_
  rw [Node.field, leAt, List.drop_eq_nil_of_le (Nat.not_lt.mp hlen), List.take_nil]
  rfl

section
variable {o k : Nat} (x : Nat) (hlen : o + k ≤ n.desc.length)
include hlen

theorem Node.field_setField_same : (n.setField o k x).field o k = x % 2 ^ (8 * k) := by
  have htake : (n.desc.take o).length = o := by simp; omega
  rw [Node.field, Node.setField, leAt, List.append_assoc, List.drop_left' htake, List.take_left' (bytesOf_length k x), natOf_bytesOf]

theorem Node.field_setField_other {a b : Nat} (h : a + b ≤ o ∨ o + k ≤ a) : (n.setField o k x).field a b = n.field a b := by
  have htake : (n.desc.take o).length = o := by simp; omega
  rw [Node.field, Node.field, leAt, leAt]
  congr 1
  refine List.ext_getElem? fun i => ?_
  by_cases hi : i < b
  · simp only [Node.setField, List.getElem?_take_of_lt hi, List.getElem?_drop]
    rcases h with h | h
    · rw [List.append_assoc, List.getElem?_append_left (by omega), List.getElem?_take_of_lt (by omega)]
    · rw [List.getElem?_append_right (by simp; omega), List.getElem?_drop]
      congr 1
      simp
      omega
  · rw [List.getElem?_take_eq_none (Nat.not_lt.mp hi), List.getElem?_take_eq_none (Nat.not_lt.mp hi)]

end

/-! ### What a firing makes of a node (R308) -/

/-- A firing writes THRESH only: every other field stays. -/
theorem advanced_field {o k : Nat} (h : o + k ≤ 96 ∨ 104 ≤ o) : (advanced n).field o k = n.field o k := by
  unfold advanced
  split
  · rfl
  · next hst =>
    have hlen := Node.lt_length_of_field (not_or.mp hst).1
    exact Node.field_setField_other _ (by omega) h

/-- A firing is the last, or THRESH has advanced by a STRIDE that is not 0. -/
theorem advanced_last_or_thresh (n : Node) :
    (advanced n).last = true ∨ n.field 104 8 ≠ 0 ∧ (advanced n).field 96 8 = n.field 96 8 + n.field 104 8 := by
  unfold advanced
  split
  · exact .inl rfl
  · next hst =>
    obtain ⟨hstride, hfits⟩ := not_or.mp hst
    have hlen := Node.lt_length_of_field hstride
    refine .inr ⟨hstride, (Node.field_setField_same _ (by omega)).trans (Nat.mod_eq_of_lt (Nat.not_le.mp hfits))⟩

theorem advanced_state (n : Node) : (advanced n).state = n.state := by
  unfold advanced
  split <;> rfl

theorem advanced_owed (n : Node) : (advanced n).owed = n.owed := by
  unfold advanced
  split <;> rfl

theorem fired_eq (n : Node) :
    (if n.state = .armed then { advanced n with state := .ready, requeues := 0, rollback := none }
      else { advanced n with owed := if n.owed = BitVec.allOnes 32 then n.owed else n.owed + 1 }) = fired n :=
  rfl

theorem fired_desc (n : Node) : (fired n).desc = (advanced n).desc := by
  unfold fired
  split <;> rfl

theorem fired_last (n : Node) : (fired n).last = (advanced n).last := by
  unfold fired
  split <;> rfl

theorem fired_field (n : Node) (o k : Nat) : (fired n).field o k = (advanced n).field o k := by
  rw [Node.field, fired_desc, Node.field]

/-! ### Whether a node may fire -/

theorem mayFire_congr {q : Part} (h : q.halted = p.halted) (n : Node) (v : Nat) : mayFire q n v = mayFire p n v := by
  simp only [mayFire, h]

theorem mayFire_of_last (h : n.last = true) : mayFire p n v = false := by
  simp [mayFire, h]

theorem mayFire_of_below (h : v < n.field 96 8) : mayFire p n v = false := by
  simp [mayFire, Nat.not_le.mpr h]

/-! ### One firing, and the loop of firings -/

theorem afterFiring_node (hn : s.node? part node = some n) : (afterFiring s part node n).node? part node = some (fired n) := by
  have hmod : (s.modNode part node fun _ => fired n).node? part node = some (fired n) := by
    rw [State.node_modNode_same, hn, Option.map_some]
  unfold afterFiring
  dsimp only
  split
  · rw [enqueueNode_node, hmod]
  · exact hmod

theorem Part.modNode_halted (p : Part) (k : Nat) (f : Node → Node) : (p.modNode k f).halted = p.halted := by
  unfold Part.modNode
  split <;> rfl

theorem afterFiring_part (hp : s.part? part = some p) :
    ∃ q, (afterFiring s part node n).part? part = some q ∧ q.halted = p.halted := by
  have hmod : (s.modNode part node fun _ => fired n).part? part = some (p.modNode node fun _ => fired n) := by
    rw [State.modNode, State.modPart_part, hp, Option.map_some]
  unfold afterFiring
  dsimp only
  split
  · refine ⟨_, (State.modPart_part ..).trans (congrArg _ hmod), ?_⟩
    exact Part.modNode_halted p node fun _ => fired n
  · exact ⟨_, hmod, Part.modNode_halted ..⟩

section
variable (hp : s.part? part = some p) (hn : s.node? part node = some n)
include hp hn

/-- A firing of a node without a JCB. -/
theorem firePass_of_mayFire (hmay : mayFire p n v = true) (hjob : n.field 128 8 = 0) :
    firePass s part node v = afterFiring s part node n := by
  have hjob' : (fired n).field 128 8 = 0 := by rw [fired_field, advanced_field (.inr (by decide)), hjob]
  have hprio : (fired n).prio = n.prio := by rw [Node.prio, fired_field, advanced_field (.inl (by decide)), Node.prio]
  have hadvanced : (if n.field 104 8 = 0 ∨ 2 ^ 64 ≤ n.field 96 8 + n.field 104 8 then { n with last := true }
      else n.setField 96 8 (n.field 96 8 + n.field 104 8)) = advanced n := rfl
  simp only [firePass, hp, hn, hmay, Bool.not_true, Bool.false_eq_true, if_false, hadvanced, advanced_state, beq_iff_eq]
  by_cases ha : n.state = .armed
  · have hfired := (if_pos ha).symm.trans (fired_eq n)
    dsimp only at hfired
    simp only [if_pos ha, hfired, if_pos hjob', hprio, afterFiring]
  · have hfired := (if_neg ha).symm.trans (fired_eq n)
    simp only [advanced_state] at hfired
    simp only [if_neg ha, advanced_owed, hfired, if_pos hjob', afterFiring]

theorem fireLoop_of_not_mayFire (hmay : mayFire p n v = false) (k : Nat) : fireLoop part node v k s = s := by
  cases k with
  | zero => rfl
  | succ k => simp only [fireLoop, hp, hn, hmay, Bool.false_eq_true, if_false]

theorem fireLoop_of_mayFire (hmay : mayFire p n v = true) (hjob : n.field 128 8 = 0) (k : Nat) :
    fireLoop part node v (k + 1) s = fireLoop part node v k (afterFiring s part node n) := by
  simp only [fireLoop, hp, hn, hmay, if_true, firePass_of_mayFire hp hn hmay hjob]

end

/-- With as many passes as THRESH may need to pass the value, the loop ends at a node that may not fire. -/
theorem fireLoop_ends (hp : s.part? part = some p) (hn : s.node? part node = some n) (hjob : n.field 128 8 = 0) {fuel : Nat}
    (hfuel : n.last = true ∨ v < n.field 96 8 + fuel * max 1 (n.field 104 8)) :
    ∃ x, (fireLoop part node v fuel s).node? part node = some x ∧ mayFire p x v = false := by
  induction fuel generalizing s p n with
  | zero => exact ⟨n, hn, hfuel.elim mayFire_of_last fun h => mayFire_of_below (by omega)⟩
  | succ k ih =>
    cases hmay : mayFire p n v with
    | false => exact ⟨n, by rw [fireLoop_of_not_mayFire hp hn hmay, hn], hmay⟩
    | true =>
      obtain ⟨q, hq, hhalted⟩ := afterFiring_part (node := node) (n := n) hp
      have hlast : n.last = false := by
        by_contra hl
        rw [mayFire_of_last (by simpa using hl)] at hmay
        cases hmay
      have hbound := hfuel.resolve_left (by rw [hlast]; exact Bool.false_ne_true)
      have hnext : (fired n).last = true ∨ v < (fired n).field 96 8 + k * max 1 ((fired n).field 104 8) := by
        rw [fired_last, fired_field, fired_field, advanced_field (.inr (Nat.le_refl 104))]
        refine (advanced_last_or_thresh n).imp_right fun ⟨hstride, hthresh⟩ => ?_
        have hmax : max 1 (n.field 104 8) = n.field 104 8 := by omega
        rw [hmax, Nat.add_one_mul] at hbound
        rw [hthresh, hmax]
        omega
      obtain ⟨x, hx, hstop⟩ := ih hq (afterFiring_node hn)
        (by rw [fired_field, advanced_field (.inr (by decide)), hjob]) hnext
      rw [fireLoop_of_mayFire hp hn hmay hjob]
      exact ⟨x, hx, (mayFire_congr hhalted x v).symm.trans hstop⟩

theorem firePasses_of_node (hn : s.node? part node = some n) :
    firePasses s part node v = (v + 1 - n.field 96 8) / max 1 (n.field 104 8) + 1 := by
  simp only [firePasses, hn]

theorem firePasses_suffice (hn : s.node? part node = some n) :
    v < n.field 96 8 + firePasses s part node v * max 1 (n.field 104 8) := by
  have hdiv := Nat.lt_div_mul_add (a := v + 1 - n.field 96 8) (b := max 1 (n.field 104 8)) (by omega)
  rw [firePasses_of_node hn, Nat.add_one_mul]
  omega

/-! ### The order of the waiters of a counter (R92) -/

/-- When the nodes that watch a counter and may fire joined its waiters. -/
def firingStamps (s : State) (pa : Nat) : List Nat :=
  s.parts.flatMap fun (_, p) =>
    (p.nodes.filter fun (_, n) => n.watch == some pa && mayFire p n (fireValue s pa)).map (·.2.joined)

theorem firesBehind_eq (s : State) (pa : Nat) :
    firesBehind s pa = (!(firingStamps s pa).isEmpty && (firingStamps s pa).all (entryAhead s none pa)) :=
  rfl

/-- What stands before a stamp is a herd-context that waits for the counter and could go on, or a node with a lower stamp. -/
theorem entryAhead_none {stamp : Nat} (h : (s.hctxs.all fun (x, h) => !(h.counters.contains pa && couldGo s x h)) = true)
    (ha : entryAhead s none pa stamp = true) : ∃ m ∈ firingStamps s pa, m < stamp := by
  rcases Bool.or_eq_true_iff.mp ha with hhc | hnode
  · obtain ⟨⟨x, g⟩, hg, hgo⟩ := List.any_eq_true.mp hhc
    have hnot := List.all_eq_true.mp h _ hg
    simp only [Bool.and_eq_true] at hgo
    obtain ⟨⟨-, hcounter⟩, hgo⟩ := hgo
    simp only [hcounter, hgo] at hnot
    cases hnot
  · obtain ⟨⟨k, q⟩, hq, hany⟩ := List.any_eq_true.mp hnode
    obtain ⟨⟨j, x⟩, hx, hxa⟩ := List.any_eq_true.mp hany
    simp only [Bool.and_eq_true, decide_eq_true_eq] at hxa
    obtain ⟨⟨hwatch, hlt⟩, hmay⟩ := hxa
    refine ⟨x.joined, List.mem_flatMap.mpr ⟨(k, q), hq, List.mem_map.mpr ⟨(j, x), List.mem_filter.mpr ⟨hx, ?_⟩, rfl⟩⟩, hlt⟩
    simp only [hwatch, hmay, Bool.and_self]

/-- Where no herd-context that waits for the counter could go on, the first node to have joined has nobody before it. -/
theorem firesBehind_of_none_waits (h : (s.hctxs.all fun (x, h) => !(h.counters.contains pa && couldGo s x h)) = true) :
    firesBehind s pa = false := by
  rw [firesBehind_eq]
  by_contra hb
  obtain ⟨hne, hall⟩ := Bool.and_eq_true_iff.mp (Bool.not_eq_false _ ▸ hb)
  have hsome : ∃ m, m ∈ firingStamps s pa := List.exists_mem_of_ne_nil _ (by simpa using hne)
  obtain ⟨m, hm, hlt⟩ := entryAhead_none h (List.all_eq_true.mp hall _ (Nat.find_spec hsome))
  exact Nat.find_min hsome hlt hm

/-! ### The firing of a counter's nodes -/

section
variable (hp : s.part? part = some p) (hn : s.node? part node = some n) (hhalt : p.halted = false) (hw : n.watch = some pa)
include hp hn hhalt hw

theorem fireNode_of_behind (hb : firesBehind s pa = true) : fireNode s part node = s := by
  simp only [fireNode, hp, hn, hhalt, hw, hb, Option.bind_some, Bool.or_true, if_true]

theorem fireNode_of_first (hb : firesBehind s pa = false) :
    fireNode s part node = (watchers s pa).foldl
      (fun t x => fireLoop x.1 x.2 (fireValue s pa) (firePasses t x.1 x.2 (fireValue s pa)) t) (seenAdd s pa) := by
  simp only [fireNode, hp, hn, hhalt, hw, hb, Option.bind_some, Bool.or_self, Bool.false_eq_true, if_false, fireAll]
  rfl

theorem fireNode_of_only_watcher (hb : firesBehind s pa = false) (hone : watchers s pa = [(part, node)]) :
    fireNode s part node =
      fireLoop part node (fireValue s pa) (firePasses (seenAdd s pa) part node (fireValue s pa)) (seenAdd s pa) := by
  rw [fireNode_of_first hp hn hhalt hw hb, hone, List.foldl_cons, List.foldl_nil]

end

end Sys2Proof.Machine

namespace Sys2Proof.Claims
open Sys2Proof.Machine

theorem nodesFireAtTheirThreshold : NodesFireAtTheirThreshold := by
  intro s part node pa p n hp hn hhalt hw v
  refine ⟨firesBehind_of_none_waits, fun hb => congrArg Host.Outcome.next (fireNode_of_behind hp hn hhalt hw hb),
    fun hb => congrArg Host.Outcome.next (fireNode_of_first hp hn hhalt hw hb), fun hmay hjob =>
      ⟨firePass_of_mayFire hp hn hmay hjob, fun hb hone hstop => ?once, fun hb hone _ => ?ends⟩⟩
  case once =>
    obtain ⟨q, hq, hhalted⟩ := afterFiring_part (s := seenAdd s pa) (node := node) (n := n) hp
    have hloop : fireNode s part node = fireLoop part node v (_ + 1) (seenAdd s pa) :=
      (fireNode_of_only_watcher hp hn hhalt hw hb hone).trans
        (congrArg (fireLoop part node v · (seenAdd s pa)) (firePasses_of_node (s := seenAdd s pa) hn))
    rw [fireLoop_of_mayFire (s := seenAdd s pa) hp hn hmay hjob,
      fireLoop_of_not_mayFire hq (afterFiring_node hn) ((mayFire_congr hhalted ..).trans hstop)] at hloop
    exact congrArg Host.Outcome.next hloop
  case ends =>
    obtain ⟨x, hx, hstop⟩ := fireLoop_ends (s := seenAdd s pa) hp hn hjob
      (.inr (firePasses_suffice (s := seenAdd s pa) (part := part) (node := node) (v := v) hn))
    exact ⟨_, x, congrArg Host.Outcome.next (fireNode_of_only_watcher hp hn hhalt hw hb hone), hx, hstop⟩

/-- Settles O43: the loop of firings ends where THRESH has passed the value, and the end of an instance goes by what its node owes. -/
theorem nodesFireCompleteAndRest : Obligations.NodesFireCompleteAndRest :=
  ⟨nodesFireAtTheirThreshold, completedInstancesLeaveTheirNode⟩

end Sys2Proof.Claims
end
